-- ==== Sys2Proof/Word.lean ====
section
/-! DEFINITION. The word types of the GX7 (R3) and the narrowing helpers of R9. -/

namespace Sys2Proof

/-- A byte (R3). -/
abbrev Byte := BitVec 8
/-- A half (R3). -/
abbrev Half := BitVec 16
/-- A word (R3). -/
abbrev Word := BitVec 32
/-- A dword (R3). -/
abbrev Dword := BitVec 64
/-- A mask of the 64 lanes of a team; bit l stands for lane l (R122). -/
abbrev Mask := BitVec 64
/-- A 128-bit record: a page table entry, a tile record, a line bound record. -/
abbrev Quad := BitVec 128
/-- An instruction word (R39). -/
abbrev Inst96 := BitVec 96

/-- Bits [lo+len-1:lo] of x, as a number. -/
abbrev bitsOf (x lo len : Nat) : Nat := x / 2 ^ lo % 2 ^ len

end Sys2Proof
end

