-- ==== Sys2Proof/Config.lean ====
section
/-! DEFINITION. What the spec leaves open: values with no body, which no proof can look into (log entries 4 and 5), and
the one byte that unwritten memory reads as (log entry 1). -/

namespace Sys2Proof.Config

/-- The n-th free choice of the machine, among as many alternatives as its user needs (log entry 4). -/
opaque freeNat : Nat → Nat
/-- The n-th free word (log entry 4): an under-waited read (R111), data read
under another memory key (R438), and the other values that the spec does not state. -/
opaque freeWord : Nat → Word
/-- The contents of a byte of scratchpad that nothing has written since its group's placement, by group and offset
(R247, log entry 4). -/
opaque scratchInit : Nat → Nat → Byte
/-- The DATA field of a black-box record that holds two numbers whose places R445 does not give: by KIND (log entry
4). -/
opaque boxPack : Nat → Nat → Nat → Nat
/-- The set of an L1 that holds a line, from the context and the virtual line number (R249 gives the ways and no
index function; log entry 5). -/
opaque l1Set : Nat → Nat → Nat

/-- The port, among 1 to 3, that leads to a pool address: 1 more than this modulo 3 (R327 gives the ports and no
interleave; log entry 5). -/
opaque poolPort : Nat → Nat

/-- What a byte of physical memory reads as that nothing has written: DESIGN CHOICE, log entry 1. -/
def memDefault : Byte := 0

end Sys2Proof.Config
end

