-- ==== Sys2Proof/Syntax.lean ====
section
/-! DEFINITION. The syntax of Dravux instructions and of the machine's other steps: one constructor of `Instr` for
each row of the opcode table. -/

namespace Sys2Proof

/-- Data type codes (R56). -/
inductive Ty where
  | i8 | i16 | i32 | i64 | n8 | n16 | n32 | n64 | f16 | bf16 | f32 | f64 | e4m3 | e5m2 | e2m1
  deriving DecidableEq, Repr

/-- The special space of operand fields (R43). -/
inductive Special where
  | exm | laneid | teamid | stkid | coreln | ctxid | modelid
  | idx (k : BitVec 3) | dim (k : BitVec 3)
  | mode | budg | bstat | kstat | cyc | rtick
  | tfr | tcause | tepc | tval | tfrag
  | p (n : BitVec 3) | k (n : BitVec 5) | td (n : BitVec 4) | a (n : BitVec 4)
  deriving DecidableEq, Repr

/-- An operand field by class (R42). A scalar index above 63 and a reserved special index have no constructor:
they are illegal in every operand field. -/
inductive Opnd where
  | v (n : BitVec 8)
  | s (n : BitVec 6)
  | i (x : BitVec 8)
  | x (r : Special)
  deriving DecidableEq, Repr

/-- The scheduling fields (R39, R55): an instruction that does not post has no PTOK, one that does not wait has no
WTOK and WTHR. -/
structure Sched where
  stall : BitVec 4
  post  : Option (BitVec 5)
  wait  : Option (BitVec 5 × BitVec 4)
  deriving DecidableEq, Repr

/-- The guard (R47): predicate `p`, negated when `neg`. -/
structure Guard where
  neg : Bool
  p   : BitVec 3
  deriving DecidableEq, Repr

/-- What every instruction carries: its guard and its scheduling fields. -/
structure Hdr where
  g  : Guard
  sc : Sched
  deriving DecidableEq, Repr

/-- The rounding selection (R50, R64). -/
inductive RndSel where
  | dflt | rne | rtz | rdn | rup | rna | rsr
  deriving DecidableEq, Repr

/-- The gear selection (R51): governed, or forced to gear 0-3. -/
inductive GearSel where
  | gov | g0 | g1 | g2 | g3
  deriving DecidableEq, Repr

/-- Scope codes (R54). -/
inductive Scope where
  | team | grp | clu | stk | dev | sys
  deriving DecidableEq, Repr

/-- Order codes (R54). -/
inductive Ord where
  | relaxed | acq | rel | ar
  deriving DecidableEq, Repr

/-- Integer relations of `setp` (R164). -/
inductive Cmp where
  | eq | ne | lt | le | gt | ge
  deriving DecidableEq, Repr

/-- Relations of `fsetp` (R173): ordered, `.num`, unordered, `.nan`. -/
inductive FCmp where
  | o (c : Cmp) | num | u (c : Cmp) | nan
  deriving DecidableEq, Repr

/-- Operations of `wred` and `wscan` (R141). -/
inductive RedOp where
  | add | min | max | and | or | xor
  deriving DecidableEq, Repr

/-- Operations of `atom` and `red` (R291). -/
inductive AtOp where
  | add | min | max | and | or | xor | exch | cas | fadd
  deriving DecidableEq, Repr

/-- The element count of a memory instruction: VAR 0, `.v2`, `.v4` (R264). -/
inductive Cnt where
  | c1 | c2 | c4
  deriving DecidableEq, Repr

/-- The lane selection of `shfl` (R140). -/
inductive ShflMode where
  | idx | up | down | xor
  deriving DecidableEq, Repr

/-- The variants of `vote` (R139). -/
inductive VoteMode where
  | any | all | bal | eq
  deriving DecidableEq, Repr

/-- The element width of `cpl` (R318). -/
inductive CplZ where
  | b4 | b8 | b16
  deriving DecidableEq, Repr

/-- An A or B operand of `mma` (R239): a descriptor, or the first of some accumulator tiles. -/
inductive MOp where
  | td (n : BitVec 4)
  | tile (n : BitVec 4)
  deriving DecidableEq, Repr

/-- A special register as `mfs` and `mts` name it (R407): one of R43, or the generator GEN. -/
inductive SysReg where
  | sp (r : Special)
  | gen
  deriving DecidableEq, Repr

/-- What an uncorrectable error strikes (R397, R402, R426): of a team a lane of a vector register, a scalar, a predicate, a
token of a bank, a stack entry by its height, the tile or the scale record of a descriptor; a scratchpad word; a line of an
instruction buffer or of an L1; a matrix unit; the undo region of a stack, or of the hub (8); a line at its home; or the
replica of a line that the RDC of a stack holds. -/
inductive ErrSite where
  | vreg (team reg lane : Nat) | sreg (team reg : Nat) | pred (team p : Nat) | token (team k : Nat) (trap : Bool)
  | entry (team height : Nat) | desc (team n : Nat) (scale : Bool)
  | scratch (group off : Nat) | ibuf (core vline : Nat) | l1 (core vline : Nat) | matrix (core : Nat)
  | undo (home : Nat) | line (line : Nat) | replica (stack line : Nat)
  deriving DecidableEq, Repr

/-- A physical unit that errors are counted against (R425, R426, R417, R435), with its black-box numbers (R445). -/
inductive ErrUnit where
  | core (n : Nat) | matrix (n : Nat) | link (stack stop port : Nat) | spoke (stack : Nat) | rimPort (n : Nat)
  | hbm (stack : Nat) | slice (stack n : Nat) | rdc (stack : Nat) | cxlPort (n : Nat) | hub
  deriving DecidableEq, Repr

/-- What a peer asks for over a session (R437): a read or a write of bytes at a virtual address of the context. -/
inductive PeerReq where
  | read (va len : Nat)
  | write (va : Nat) (bytes : List Byte)
  deriving DecidableEq, Repr

/-- What an authenticated rim frame of a session carries to this device (R435): the acknowledgement of a frame by its counter,
data of a read, the answer to a put, or a refusal by the peer. -/
inductive RimPayload where
  | ack (ctr : Nat) | data (op : Nat) (bytes : List Byte) | putDone (op : Nat) | refused (op : Nat)
  deriving DecidableEq, Repr

/-- A line operation of a copy command (R297): the command's number in its context, and which of its line operations to come. -/
structure CopyTurn where
  n    : Nat
  line : Nat
  deriving DecidableEq, Repr

/-- A link of a stack's network by the end that sends: the stop, and the port by which it leaves the stop (R412, R418). -/
structure LinkEnd where
  stop : Nat
  port : Nat
  deriving DecidableEq, Repr

/-- What comes with a rim frame before its payload: its counter, and whether its tag is right (R435). -/
structure RimHead where
  ctr   : Nat
  tagOk : Bool
  deriving DecidableEq, Repr

/-- How a CXL port fails its pending operations (R434): its link goes down, or stays up after a completion timeout. -/
structure CxlDrop where
  port  : Nat
  stays : Bool
  deriving DecidableEq, Repr

/-- A contribution of one collective round as it arrives at the root (R441): kind, type and form codes, count and
the decoded elements as f32 bit patterns. -/
structure CollMsg where
  seq   : Nat
  kind  : Nat
  bf    : Bool
  cf    : Nat
  count : Nat
  elems : List (BitVec 32)
  deriving DecidableEq, Repr

/-- One constructor for each row of the opcode table: first the Dravux instructions, then the machine's other steps. -/
inductive Instr where
  -- issue and control (05, 06)
  | nop (h : Hdr)
  | dly (h : Hdr) (n : BitVec 19)
  | bra (h : Hdr) (disp : BitVec 20)
  | brx (h : Hdr) (a : Opnd)
  | call (h : Hdr) (disp : BitVec 20)
  | calx (h : Hdr) (a : Opnd)
  | ret (h : Hdr)
  | exit (h : Hdr)
  | rcv (h : Hdr) (disp : BitVec 20)
  | rjoin (h : Hdr)
  | rjoinTo (h : Hdr) (d : BitVec 3) (a : Opnd)
  | exmRd (h : Hdr) (d : Opnd) (w : BitVec 8)
  | exmWr (h : Hdr) (a : Opnd)
  | exmAnd (h : Hdr) (a : Opnd)
  | exmOr (h : Hdr) (a : Opnd)
  | yield (h : Hdr) (a : Opnd) (n : BitVec 2) (disp : BitVec 20)
  | waitcAny (h : Hdr) (d : Option (BitVec 3)) (a b : Opnd) (n : BitVec 2)
  | waitcAll (h : Hdr) (d : Option (BitVec 3)) (a b : Opnd) (n : BitVec 2)
  -- tokens, barriers, timelines, fence
  | kwait (h : Hdr) (k : BitVec 5) (thr : BitVec 8) (normal : Bool)
  | kset (h : Hdr) (k : BitVec 5) (val : BitVec 8) (normal : Bool)
  | krd (h : Hdr) (d : Opnd) (k : BitVec 5) (b : Opnd)
  | kadd (h : Hdr) (k : BitVec 5) (delta : BitVec 8) (normal : Bool)
  | barInit (h : Hdr) (a b : Opnd)
  | barArv (h : Hdr) (scope : Scope) (a : Opnd) (wait : Bool)
  | barExp (h : Hdr) (a b : Opnd)
  | barRd (h : Hdr) (d a : Opnd) (sel : BitVec 8)
  | tlRd (h : Hdr) (d a : Opnd) (sel : BitVec 8)
  | tlSig (h : Hdr) (scope : Scope) (a b : Opnd) (add : Bool)
  | fence (h : Hdr) (scope : Scope) (ord : Ord)
  -- integer and bits (07)
  | add (h : Hdr) (ty : Ty) (sat : Bool) (d a b : Opnd)
  | sub (h : Hdr) (ty : Ty) (sat : Bool) (d a b : Opnd)
  | mul (h : Hdr) (ty : Ty) (d a b : Opnd)
  | mulh (h : Hdr) (ty : Ty) (d a b : Opnd)
  | mad (h : Hdr) (ty : Ty) (sat : Bool) (d a b c : Opnd)
  | madh (h : Hdr) (ty : Ty) (d a b c : Opnd)
  | div (h : Hdr) (ty : Ty) (d a b : Opnd)
  | rem (h : Hdr) (ty : Ty) (d a b : Opnd)
  | min (h : Hdr) (ty : Ty) (d a b : Opnd)
  | max (h : Hdr) (ty : Ty) (d a b : Opnd)
  | abs (h : Hdr) (ty : Ty) (sat : Bool) (d a : Opnd)
  | neg (h : Hdr) (ty : Ty) (sat : Bool) (d a : Opnd)
  | and (h : Hdr) (ty : Ty) (d a b : Opnd)
  | or (h : Hdr) (ty : Ty) (d a b : Opnd)
  | xor (h : Hdr) (ty : Ty) (d a b : Opnd)
  | not (h : Hdr) (ty : Ty) (d a : Opnd)
  | andn (h : Hdr) (ty : Ty) (d a b : Opnd)
  | shl (h : Hdr) (ty : Ty) (d a b : Opnd)
  | shr (h : Hdr) (ty : Ty) (d a b : Opnd)
  | sar (h : Hdr) (ty : Ty) (d a b : Opnd)
  | rol (h : Hdr) (ty : Ty) (d a b : Opnd)
  | fshL (h : Hdr) (ty : Ty) (d a b c : Opnd)
  | fshR (h : Hdr) (ty : Ty) (d a b c : Opnd)
  | popc (h : Hdr) (ty : Ty) (d a : Opnd)
  | clz (h : Hdr) (ty : Ty) (d a : Opnd)
  | ctz (h : Hdr) (ty : Ty) (d a : Opnd)
  | brev (h : Hdr) (ty : Ty) (d a : Opnd)
  | bfx (h : Hdr) (ty : Ty) (d a b c : Opnd)
  | bfi (h : Hdr) (ty : Ty) (d a b c : Opnd)
  | setp (h : Hdr) (ty : Ty) (c : Cmp) (d : BitVec 3) (a b : Opnd)
  | sel (h : Hdr) (ty : Ty) (d a b : Opnd) (p : BitVec 3)
  | mov (h : Hdr) (ty : Ty) (d a : Opnd)
  | movi (h : Hdr) (ty : Ty) (d : Opnd) (imm : BitVec 20)
  | movh (h : Hdr) (d : Opnd) (imm : BitVec 16)
  | lea (h : Hdr) (sh : BitVec 2) (d a b : Opnd)
  -- floating point (07)
  | fadd (h : Hdr) (ty : Ty) (r : RndSel) (d a b : Opnd)
  | fsub (h : Hdr) (ty : Ty) (r : RndSel) (d a b : Opnd)
  | fmul (h : Hdr) (ty : Ty) (r : RndSel) (g : GearSel) (d a b : Opnd)
  | ffma (h : Hdr) (ty : Ty) (r : RndSel) (g : GearSel) (d a b c : Opnd)
  | fmin (h : Hdr) (ty : Ty) (nan : Bool) (d a b : Opnd)
  | fmax (h : Hdr) (ty : Ty) (nan : Bool) (d a b : Opnd)
  | fabs (h : Hdr) (ty : Ty) (d a : Opnd)
  | fneg (h : Hdr) (ty : Ty) (d a : Opnd)
  | fsetp (h : Hdr) (ty : Ty) (c : FCmp) (d : BitVec 3) (a b : Opnd)
  | frcp (h : Hdr) (ty : Ty) (d a : Opnd)
  | frsq (h : Hdr) (ty : Ty) (d a : Opnd)
  | fsqrt (h : Hdr) (ty : Ty) (r : RndSel) (d a : Opnd)
  | fdiv (h : Hdr) (ty : Ty) (r : RndSel) (d a b : Opnd)
  | fexp2 (h : Hdr) (d a : Opnd)
  | flog2 (h : Hdr) (d a : Opnd)
  | fsin (h : Hdr) (d a : Opnd)
  | fcos (h : Hdr) (d a : Opnd)
  | ftanh (h : Hdr) (d a : Opnd)
  | fscl (h : Hdr) (ty : Ty) (r : RndSel) (d a b : Opnd)
  | fxpn (h : Hdr) (ty : Ty) (d a : Opnd)
  | frnd (h : Hdr) (ty : Ty) (r : RndSel) (d a : Opnd)
  | fclass (h : Hdr) (ty : Ty) (d a : Opnd)
  | fdot2 (h : Hdr) (ty : Ty) (r : RndSel) (g : GearSel) (d a b c : Opnd)
  | fdot4 (h : Hdr) (ty : Ty) (r : RndSel) (g : GearSel) (d a b c : Opnd)
  | cvt (h : Hdr) (ty src : Ty) (r : RndSel) (d a : Opnd)
  | pack (h : Hdr) (ty : Ty) (q : BitVec 3) (d a : Opnd)
  | unpack (h : Hdr) (ty : Ty) (q : BitVec 3) (d a : Opnd)
  -- cross-lane (06)
  | shfl (h : Hdr) (ty : Ty) (m : ShflMode) (d a b : Opnd)
  | vote (h : Hdr) (m : VoteMode) (d : Opnd) (a : BitVec 3)
  | wred (h : Hdr) (ty : Ty) (op : RedOp) (r : RndSel) (d a : Opnd)
  | wscan (h : Hdr) (ty : Ty) (op : RedOp) (excl : Bool) (r : RndSel) (d a : Opnd)
  | rdlane (h : Hdr) (ty : Ty) (d a b : Opnd)
  | wrlane (h : Hdr) (ty : Ty) (d a b : Opnd)
  | matchL (h : Hdr) (ty : Ty) (all : Bool) (d a : Opnd)
  | plop (h : Hdr) (d a b c : BitVec 3) (tt : BitVec 8)
  -- bounds, budgets, tasks (08)
  | bget (h : Hdr) (d a : Opnd)
  | bset (h : Hdr) (set : Bool) (d a : Opnd)
  | bchk (h : Hdr) (ty : Ty) (a : Opnd)
  | budgSet (h : Hdr) (a : Opnd)
  | budgRd (h : Hdr) (d : Opnd)
  | taskB (h : Hdr)
  | taskE (h : Hdr)
  | taskX (h : Hdr) (retry : Bool)
  -- memory (10) and atomics (11)
  | ld (h : Hdr) (ty : Ty) (n : Cnt) (d a b : Opnd) (off : BitVec 20)
  | ldb (h : Hdr) (ty : Ty) (n : Cnt) (d a b : Opnd) (off : BitVec 20)
  | ldp (h : Hdr) (ty : Ty) (d a b : Opnd) (off : BitVec 20)
  | ldc (h : Hdr) (ty : Ty) (n : Cnt) (d a b : Opnd) (off : BitVec 20)
  | st (h : Hdr) (ty : Ty) (n : Cnt) (d a b : Opnd) (off : BitVec 20)
  | stm (h : Hdr) (n : Cnt) (d a b : Opnd) (off : BitVec 20)
  | stc (h : Hdr) (ty : Ty) (d a b : Opnd) (off : BitVec 20)
  | prefL2 (h : Hdr) (a b : Opnd) (off : BitVec 20)
  | prefL1 (h : Hdr) (a b : Opnd) (off : BitVec 20)
  | cinvLine (h : Hdr) (a b : Opnd) (off : BitVec 20)
  | cinvAll (h : Hdr)
  | cwbLine (h : Hdr) (a b : Opnd) (off : BitVec 20)
  | cwbAll (h : Hdr)
  | atom (h : Hdr) (ty : Ty) (op : AtOp) (r : RndSel) (scope : Scope) (ord : Ord) (d a b c : Opnd)
  | red (h : Hdr) (ty : Ty) (op : AtOp) (r : RndSel) (scope : Scope) (rel : Bool) (a b : Opnd)
  -- copies (12)
  | cpl (h : Hdr) (z : CplZ) (d a : Opnd) (opt : BitVec 20)
  | cpb (h : Hdr) (d a b : Opnd) (opt : BitVec 20)
  | cpcCont (h : Hdr) (d a b : Opnd) (opt : BitVec 20)
  | cpcLast (h : Hdr) (d a b : Opnd) (opt : BitVec 20)
  | cpxPut (h : Hdr) (d a b : Opnd) (opt : BitVec 20)
  | cpxGet (h : Hdr) (d a b : Opnd) (opt : BitVec 20)
  | dcz (h : Hdr) (d a : Opnd)
  -- matrix (09)
  | mtd (h : Hdr) (d : BitVec 4) (a b : Opnd)
  | msd (h : Hdr) (d : BitVec 4) (a : Opnd) (en : Bool)
  | mma (h : Hdr) (ty : Ty) (g : GearSel) (d : BitVec 4) (a b : MOp) (tA tB : BitVec 2)
  | mz (h : Hdr) (mask : BitVec 16) (rel : Bool)
  | mrd (h : Hdr) (ty : Ty) (r : RndSel) (d : BitVec 8) (a : BitVec 4) (b : Opnd) (nm1 : BitVec 7)
  | mwr (h : Hdr) (ty : Ty) (d : BitVec 4) (a : BitVec 8) (b : Opnd) (nm1 : BitVec 7)
  | mst (h : Hdr) (ty : Ty) (r : RndSel) (d a : BitVec 4)
  | mstat (h : Hdr) (d : Opnd) (sel : BitVec 8) (b : Opnd)
  -- residency (14)
  | lbind (h : Hdr) (a b : Opnd) (rty : Bool)
  | lrel (h : Hdr) (a b : Opnd)
  | lhint (h : Hdr) (a b : Opnd) (nm1 : BitVec 8)
  | lstat (h : Hdr) (d a b : Opnd)
  -- tandem and collectives (17, 18)
  | txch (h : Hdr) (d : BitVec 8) (a b : Opnd) (nm1 : BitVec 4)
  | collSum (h : Hdr) (ty : Ty) (a b : Opnd) (cf : BitVec 2)
  | collMax (h : Hdr) (ty : Ty) (a b : Opnd)
  | collGath (h : Hdr) (ty : Ty) (a b : Opnd)
  | collBcst (h : Hdr) (ty : Ty) (a b : Opnd)
  -- system (13, 16)
  | mfs (h : Hdr) (d : Opnd) (r : SysReg)
  | mts (h : Hdr) (r : SysReg) (a : Opnd)
  | trap (h : Hdr) (imm : BitVec 20)
  | rti (h : Hdr)
  | brk (h : Hdr) (imm : BitVec 20)
  | tinvPage (h : Hdr) (a b : Opnd)
  | tinvCtx (h : Hdr) (b : Opnd)
  | tinvAll (h : Hdr)
  | ckpt (h : Hdr) (d : Option (BitVec 6))
  -- expiries and re-activations of a fragment
  | dlyExpiry (team : Nat) (f : Bool)
  | stallExpiry (team : Nat) (f : Bool)
  | rjoinTimeoutExpiry (team : Nat) (f : Bool)
  | yieldReactivation (team : Nat) (f : Bool)
  | waitcSatisfied (team : Nat) (f : Bool)
  | waitcTimeoutExpiry (team : Nat) (f : Bool)
  | loadHoldTimeout (team : Nat) (f : Bool)
  -- completions and engines
  | tokenCompletion (op : Nat)
  | copyCommandComplete (group : Nat) (turn : CopyTurn)
  | dczBlock (group : Nat)
  | matrixCommandAccept (core : Nat)
  | matrixCommandExecute (core : Nat) (mismatch : List (Nat × Nat))
  | leaseGrant (core : Nat)
  | tileSpill (core : Nat)
  | sideLogReplay (core : Nat) (entry : Nat)
  | txchTimeout (op : Nat)
  | collContribution (session rank : Nat) (msg : CollMsg)
  | collTimerExpiry (op : Nat)
  | collResult (op : Nat) (cmask : Nat) (elems : List (BitVec 32))
  -- residency
  | swapRequestStart
  | layerArrivalComplete (ctx layer : Nat)
  | layerArrivalFailure (ctx layer : Nat) (cause : Nat)
  | residencyWordWrite (ctx layer : Nat) (val : Dword)
  | mdescWriteEnable (ctx : Nat) (val : Dword)
  | mdescWriteDisable (ctx : Nat) (val : Dword)
  -- traps, halters, faults
  | trapEntry (team : Nat)
  | hrespRelease (hid : Nat)
  | hrespDiscard (hid : Nat)
  | frespRetry (ctx va : Nat)
  | frespDecline (ctx va : Nat)
  | faultAnswerTimeout (ctx va : Nat)
  -- queues and launches
  | queueNotify (q : Nat) (wi : Nat)
  | qstatHltClear (q : Nat)
  | launchPacketStart (q : Nat)
  | waitPacketStart (q : Nat)
  | waitPacketEnd (q : Nat)
  | waitPacketTimeout (q : Nat)
  | signalPacketStart (q : Nat)
  | ckptPacketStart (q : Nat)
  | groupPlacement (launch : Nat)
  -- rollback, banks, reliability
  | intervalOpen (ctx : Nat)
  | uncorrectableError (ctx : Nat) (site : ErrSite)
  | rollback (ctx : Nat)
  | rbcfgEnable (ctx : Nat)
  | shadowSwap (core : Nat)
  | swapBankActivate (core : Nat)
  | shadowSpill (core : Nat)
  | shadowFill (core : Nat)
  | spillFillComplete (core : Nat) (crcOk faultFree : Bool)
  | mxcfgClre (core : Nat) (val : Dword)
  | correctedError (unit : ErrUnit) (info : Nat)
  | spareTakeover (core : Nat)
  | patrolScrub (line : Nat) (bad : Bool)
  | flitReplay (stack : Nat) (link : LinkEnd)
  -- rim links and keys
  | rimFrameReceive (session : Nat) (head : RimHead) (payload : RimPayload)
  | rimFrameResend (session : Nat)
  | rimGiveup (session : Nat)
  | rimPortDown (port : Nat)
  | rimPortUp (port : Nat)
  | peerRequest (session : Nat) (req : PeerReq)
  | riminjArm (val : Dword)
  | sessionSetup (session : Nat) (val : Dword)
  | sessionSetupComplete (session : Nat) (ok : Bool)
  | sessionTeardown (session : Nat)
  | sessionRekey (session : Nat)
  -- host, pool, management, power
  | hostWrite (pa : Nat) (bytes : List Byte)
  | hostSnoop (pa : Nat)
  | cxlPoison (pa lines : Nat)
  | cxlLinkDown (drop : CxlDrop)
  | spdmPskExchange
  | spdmKeyLoad (key : Nat)
  | spdmKeyErase (key : Nat)
  | spdmChallenge
  | spdmMeasurements
  | coldReset (fwOk : Bool) (present : BitVec 8) (good : List (BitVec 17))
  | warmReset (fwOk : Bool)
  | brcfgLock (size : BitVec 2)
  | stkpwrVrstSet (stack : Nat)
  | stkpwrVrstClear (stack : Nat)
  | vrdyReady (stack : Nat)
  | powerWindow (pavg vcore fclk : Nat)
  | configRegisterWrite (off : Nat) (val : Dword)
  | modulePowerOff
  deriving DecidableEq, Repr

end Sys2Proof
end

