-- ==== Sys2Proof/WellFormed.lean ====
section
/-! DEFINITION. Which instructions are well formed: the operand limits of R42-R46 and R145, the type sets of R57 and
the limits of each entry, over typed operands. -/

namespace Sys2Proof

/-- What the legality of an instruction depends on besides its word: the team's n_regs (R44); top(team), the number of levels
below which IDXk is lane-varying (R45); and the barriers that its group has (R317, R320): `nbar` named ones, and those of a
cluster and of a stack instance. -/
structure DecCtx where
  nRegs   : Nat
  topTeam : Nat
  nbar    : Nat
  clu     : Bool
  stk     : Bool
  deriving DecidableEq, Repr

/-- Barrier n exists (R307, R311). -/
def DecCtx.hasBar (cx : DecCtx) (n : Nat) : Bool :=
  if n < 16 then decide (n < cx.nbar) else if n = 16 then cx.clu else n = 17 && cx.stk

/-! ### Type sets (R57) -/

/-- A 64-bit type: it takes register pairs (R44). -/
def Ty.w64 : Ty → Bool
  | .i64 | .n64 | .f64 => true
  | _ => false

/-- The element width in bits (R77, R80). -/
def Ty.bits : Ty → Nat
  | .i8 | .n8 | .e4m3 | .e5m2 => 8
  | .i16 | .n16 | .f16 | .bf16 => 16
  | .i32 | .n32 | .f32 => 32
  | .i64 | .n64 | .f64 => 64
  | .e2m1 => 4

/-- Bytes of an element in memory (R264). -/
def Ty.bytes (t : Ty) : Nat := t.bits / 8

/-- A signed integer type (R77). -/
def Ty.signed : Ty → Bool
  | .i8 | .i16 | .i32 | .i64 => true
  | _ => false

def Ty.isInt : Ty → Bool
  | .i32 | .i64 | .n32 | .n64 => true
  | _ => false
def Ty.isBit : Ty → Bool
  | .n32 | .n64 => true
  | _ => false
def Ty.isFlt : Ty → Bool
  | .f16 | .bf16 | .f32 | .f64 => true
  | _ => false
def Ty.isMem : Ty → Bool
  | .i8 | .i16 | .i32 | .i64 | .n8 | .n16 | .n32 | .n64 | .f16 | .bf16 | .f32 | .f64 => true
  | _ => false
def Ty.isPk : Ty → Bool
  | .i8 | .n8 | .i16 | .n16 | .f16 | .bf16 | .e4m3 | .e5m2 | .e2m1 => true
  | _ => false
/-- f32 or f64. -/
def Ty.isF3264 : Ty → Bool
  | .f32 | .f64 => true
  | _ => false
/-- i32 or i64 (`abs`, `neg`). -/
def Ty.isI3264 : Ty → Bool
  | .i32 | .i64 => true
  | _ => false
/-- An 8-bit or 4-bit float, which takes no inline operand (R46). -/
def Ty.isF8 : Ty → Bool
  | .e4m3 | .e5m2 | .e2m1 => true
  | _ => false
/-- Integer types of every width. -/
def Ty.isAnyInt : Ty → Bool
  | .i8 | .i16 | .i32 | .i64 | .n8 | .n16 | .n32 | .n64 => true
  | _ => false
/-- A 16-bit float. -/
def Ty.isF16 : Ty → Bool
  | .f16 | .bf16 => true
  | _ => false
/-- Types of `mma` (R239). -/
def Ty.isMma : Ty → Bool
  | .e4m3 | .e5m2 | .e2m1 | .bf16 | .f16 => true
  | _ => false
/-- Types of `mrd` and `mwr` (R241, R242). -/
def Ty.isMrd : Ty → Bool
  | .f16 | .bf16 | .f32 => true
  | _ => false
/-- Types of `mst` (R243). -/
def Ty.isMst : Ty → Bool
  | .f16 | .bf16 | .f32 | .e4m3 | .e5m2 => true
  | _ => false

/-- The number of elements of a memory transfer (R264). -/
def Cnt.n : Cnt → Nat
  | .c1 => 1
  | .c2 => 2
  | .c4 => 4

/-- Slots of a 32-bit lane (R79). -/
def Ty.slots (t : Ty) : Nat := 32 / t.bits

/-! ### Operand limits (R42-R46, R145) -/

/-- The special registers that may stand as a 32-bit integer source (R43). -/
def Special.intSrc : Special → Bool
  | .laneid | .teamid | .stkid | .coreln | .ctxid | .modelid | .idx _ | .dim _ => true
  | _ => false

/-- A special source that differs between the lanes of a team (R45). -/
def Special.laneVarying (cx : DecCtx) : Special → Bool
  | .laneid => true
  | .idx j => decide (j.toNat < cx.topTeam)
  | _ => false

namespace Opnd

def isV : Opnd → Bool
  | .v _ => true
  | _ => false
def isS : Opnd → Bool
  | .s _ => true
  | _ => false
def isI : Opnd → Bool
  | .i _ => true
  | _ => false

/-- A group of n registers starting at a multiple of n, vectors below n_regs (R44). -/
def grp (cx : DecCtx) (n : Nat) : Opnd → Bool
  | .v k => decide (k.toNat % n = 0) && decide (k.toNat + n ≤ cx.nRegs)
  | .s k => decide (k.toNat % n = 0) && decide (k.toNat + n ≤ 64)
  | _ => false

/-- A single vector or scalar register. -/
def reg (cx : DecCtx) (o : Opnd) : Bool := o.grp cx 1
/-- An even vector or scalar pair. -/
def pair (cx : DecCtx) (o : Opnd) : Bool := o.grp cx 2
/-- A register, or an even pair for a 64-bit type: the register result of R145. -/
def regTy (cx : DecCtx) (t : Ty) (o : Opnd) : Bool := o.grp cx (if t.w64 then 2 else 1)
def vecTy (cx : DecCtx) (t : Ty) (o : Opnd) : Bool := o.isV && o.regTy cx t
def scaTy (cx : DecCtx) (t : Ty) (o : Opnd) : Bool := o.isS && o.regTy cx t
def vecPair (cx : DecCtx) (o : Opnd) : Bool := o.isV && o.pair cx
def scaPair (o : Opnd) : Bool := o.isS && o.grp ⟨256, 0, 0, false, false⟩ 2
/-- A scalar or an inline operand. -/
def scaInl : Opnd → Bool
  | .s _ => true
  | .i _ => true
  | _ => false
/-- An even scalar pair or an inline operand. -/
def scaPairInl (o : Opnd) : Bool := o.isI || o.scaPair
/-- A scalar (a pair for 64-bit types) or an inline operand. -/
def scaTyInl (cx : DecCtx) (t : Ty) (o : Opnd) : Bool := o.isI || o.scaTy cx t
/-- A vector or scalar register or an inline operand (byte enables of `stm`). -/
def regInl (cx : DecCtx) (o : Opnd) : Bool := o.isI || o.reg cx
/-- 32-bit integer or bit source (R145). -/
def src32 (cx : DecCtx) : Opnd → Bool
  | .x r => r.intSrc
  | .i _ => true
  | o => o.reg cx
/-- Integer or bit source of type t (R145). -/
def srcI (cx : DecCtx) (t : Ty) (o : Opnd) : Bool :=
  if t.w64 then o.isI || o.pair cx else o.src32 cx
/-- Floating-point source of type t (R145): no inline for the 8- and 4-bit types. -/
def srcF (cx : DecCtx) (t : Ty) (o : Opnd) : Bool :=
  if t.isF8 then o.reg cx else o.isI || o.regTy cx t
/-- The source of `cvt` with source type t (R180). -/
def srcCvt (cx : DecCtx) (t : Ty) : Opnd → Bool
  | .i _ => match t with | .i32 | .i64 | .f16 | .bf16 | .f32 | .f64 => true | _ => false
  | .x r => (match t with | .i32 | .n32 => true | _ => false) && r.intSrc
  | o => o.regTy cx t
/-- The source of `pack` of type t (R181). -/
def srcPack (cx : DecCtx) (t : Ty) : Opnd → Bool
  | .i _ => match t with | .i8 | .n8 | .i16 | .n16 => true | _ => false
  | o => o.reg cx
/-- The index of the mem format: a 32-bit register, or inline 0 when absent (R52). -/
def index (cx : DecCtx) : Opnd → Bool
  | .i w => decide (w = 0)
  | o => o.reg cx
/-- A source of `atom` or `red` (R291): of R145 for the type. -/
def srcAt (cx : DecCtx) (t : Ty) (o : Opnd) : Bool := if t.isFlt then o.srcF cx t else o.srcI cx t

/-- A source that differs between lanes (R45). -/
def laneVarying (cx : DecCtx) : Opnd → Bool
  | .v _ => true
  | .x r => r.laneVarying cx
  | _ => false

/-- The restriction of a uniform form (R45): with a scalar D, the source is not lane-varying. -/
def uni (cx : DecCtx) (o d : Opnd) : Bool := !(d.isS && o.laneVarying cx)

/-- An inline value in lo..hi; a scalar passes here and is checked at issue (R316). -/
def inlRange (lo hi : Int) : Opnd → Bool
  | .i w => decide (lo ≤ w.toInt) && decide (w.toInt ≤ hi)
  | .s _ => true
  | _ => false

/-- A barrier number from 0 to hi; an inline one exists (R320). -/
def bar (cx : DecCtx) (hi : Int) (o : Opnd) : Bool :=
  o.inlRange 0 hi && (match o with | .i w => cx.hasBar w.toInt.toNat | _ => true)

end Opnd

/-- The option value of the copies (R317): `peerOk` for `cpc`, `sesOk` for `cpx`. -/
def optOk (cx : DecCtx) (isCpc isCpx : Bool) (opt : BitVec 20) : Bool :=
  let ses := bitsOf opt.toNat 7 13
  let peer := opt.getLsbD 6
  let arv := opt.getLsbD 5
  let ben := opt.getLsbD 4
  !(arv && !ben) && (if ben then decide (opt.toNat % 16 < cx.nbar) else decide (bitsOf opt.toNat 0 4 = 0)) && (!peer || isCpc)
    && (decide (ses = 0) || isCpx || peer)

/-- The transfer is at most 16 bytes (R58). -/
def cntOk (t : Ty) (n : Cnt) : Bool := decide (n.n * t.bytes ≤ 16)

/-- Register group of a memory transfer (R44, R264). -/
def Opnd.data (cx : DecCtx) (t : Ty) (n : Cnt) (o : Opnd) : Bool :=
  o.grp cx (n.n * (if t.w64 then 2 else 1))

/-- The operation of an atomic fits its type (R291). -/
def atOk (t : Ty) (op : AtOp) : Bool :=
  match op with
  | .fadd => t.isF3264
  | _ => t.isInt

/-- RND of an atomic: only `.fadd` rounds. -/
def atRndOk (op : AtOp) (r : RndSel) : Bool :=
  match op with
  | .fadd => true
  | _ => decide (r = .dflt)

/-- `wred` and `wscan` (R141): the operation and RND fit the type. -/
def redOk (t : Ty) (op : RedOp) (r : RndSel) : Bool :=
  match op with
  | .add => (t.isInt && decide (r = .dflt)) || decide (t = .f32)
  | .min | .max => (t.isInt || decide (t = .f32)) && decide (r = .dflt)
  | _ => t.isInt && decide (r = .dflt)

/-- The natural scope of an inline barrier number against the scope of `bar.arv` (R320). -/
def arvScopeOk (sc : Scope) (a : Opnd) : Bool :=
  let n : Int := match a with | .i x => x.toInt | _ => 0
  match sc with
  | .team | .sys => false
  | .grp => decide (n ≠ 16) && decide (n ≠ 17)
  | .clu => decide (n ≠ 17)
  | _ => true

/-- A vector register range of n registers from k (R431, R241). -/
def vrange (cx : DecCtx) (k n : Nat) : Bool := decide (k + n ≤ cx.nRegs)

/-- The register count of `mrd` and `mwr`: rows for f32, half as many for the 16-bit types, whose row count is even
(R241). -/
def mrdRegs (t : Ty) (nm1 : BitVec 7) : Nat :=
  if t = .f32 then nm1.toNat + 1 else (nm1.toNat + 1) / 2
def mrdEven (t : Ty) (nm1 : BitVec 7) : Bool := decide (t = .f32) || decide ((nm1.toNat + 1) % 2 = 0)

/-- A condition block of n + 1 pairs from an even scalar (R324). -/
def condBlk (a : Opnd) (n : BitVec 2) : Bool :=
  match a with
  | .s k => decide (k.toNat % 2 = 0) && decide (k.toNat + 2 * (n.toNat + 1) ≤ 64)
  | _ => false

/-- How `mfs` may read a special register (R407): the classes and widths of its destination. -/
def mfsDst (cx : DecCtx) (r : SysReg) (d : Opnd) : Bool :=
  match r with
  | .gen => d.isV && d.reg cx
  | .sp .laneid | .sp (.idx _) => d.isV && d.reg cx
  | .sp .teamid | .sp .stkid | .sp .coreln | .sp .ctxid | .sp .modelid | .sp (.dim _) | .sp .tcause
  | .sp .mode | .sp .budg => d.reg cx
  | .sp .exm | .sp .kstat | .sp .bstat | .sp .tepc | .sp .tfr | .sp .cyc | .sp .rtick | .sp .tval => d.pair cx
  | .sp .tfrag => d.isS && d.grp cx 4
  | .sp (.p _) | .sp (.k _) | .sp (.td _) | .sp (.a _) => false

/-- The special register can be read by `mfs` at all. -/
def mfsReg : SysReg → Bool
  | .sp (.p _) | .sp (.k _) | .sp (.td _) | .sp (.a _) => false
  | _ => true

/-- How `mts` may write a special register (R407): the classes of its source. -/
def mtsSrc (cx : DecCtx) (r : SysReg) (a : Opnd) : Bool :=
  match r with
  | .gen => a.isV && a.reg cx
  | .sp .mode | .sp .budg => a.scaInl
  | .sp .exm => a.scaPairInl
  | .sp .kstat | .sp .bstat | .sp .tepc | .sp .tfr | .sp .cyc => a.scaPair
  | _ => false

/-- The special register can be written by `mts`. -/
def mtsReg : SysReg → Bool
  | .gen => true
  | .sp .mode | .sp .budg | .sp .exm | .sp .kstat | .sp .bstat | .sp .tepc | .sp .tfr | .sp .cyc => true
  | _ => false

/-- Two sources under a result D. -/
def wf2 (cx : DecCtx) (d a b : Opnd) (da aa ba : Bool) : Bool := da && aa && a.uni cx d && ba && b.uni cx d

/-- Well-formed: the instruction is one that a legal word stands for (R58, R60 and the entries). The machine's other
steps are always well formed. -/
def Instr.wf (cx : DecCtx) : Instr → Bool
  | .nop _ | .dly .. | .bra .. | .call .. | .ret _ | .exit _ | .rcv .. | .rjoin _ => true
  | .brx _ a => a.pair cx
  | .calx _ a => a.scaPair
  | .rjoinTo _ _ a => a.scaInl
  | .exmRd _ d w => d.pair cx && decide (w.toInt ∈ [0, 1, 2])
  | .exmWr _ a | .exmAnd _ a | .exmOr _ a => a.scaPairInl
  | .yield _ a n _ => condBlk a n
  | .waitcAny _ _ a b n | .waitcAll _ _ a b n => condBlk a n && b.scaInl
  | .kwait .. | .kset .. | .kadd .. => true
  | .krd _ d _ b => d.reg cx && decide (b ∈ [Opnd.v 0, .i 0, .i 1])
  | .barInit _ a b => a.bar cx 15 && b.inlRange 1 1023
  | .barArv _ sc a _ => arvScopeOk sc a && a.bar cx 17
  | .barExp _ a b => a.bar cx 15 && b.inlRange 0 (2 ^ 31 - 1)
  | .barRd _ d a w => d.pair cx && a.bar cx 17 && decide (w.toInt ∈ [0, 1])
  | .tlRd _ d a w => d.pair cx && a.inlRange 0 7 && decide (w.toInt ∈ [0, 1, 2])
  | .tlSig _ _ a b _ => a.inlRange 2 7 && b.scaPairInl
  | .fence _ _ o => decide (o ≠ .relaxed)
  | .add _ t _ d a b | .sub _ t _ d a b | .mul _ t d a b | .mulh _ t d a b | .div _ t d a b | .rem _ t d a b
  | .min _ t d a b | .max _ t d a b =>
      t.isInt && wf2 cx d a b (d.regTy cx t) (a.srcI cx t) (b.srcI cx t)
  | .mad _ t _ d a b c | .madh _ t d a b c =>
      t.isInt && wf2 cx d a b (d.regTy cx t) (a.srcI cx t) (b.srcI cx t) && c.srcI cx t && c.uni cx d
  | .abs _ t _ d a | .neg _ t _ d a => t.isI3264 && d.regTy cx t && a.srcI cx t && a.uni cx d
  | .and _ t d a b | .or _ t d a b | .xor _ t d a b | .andn _ t d a b =>
      t.isBit && wf2 cx d a b (d.regTy cx t) (a.srcI cx t) (b.srcI cx t)
  | .not _ t d a | .popc _ t d a | .clz _ t d a | .ctz _ t d a | .brev _ t d a | .mov _ t d a =>
      t.isBit && d.regTy cx t && a.srcI cx t && a.uni cx d
  | .shl _ t d a b | .shr _ t d a b | .sar _ t d a b | .rol _ t d a b =>
      t.isBit && wf2 cx d a b (d.regTy cx t) (a.srcI cx t) (b.src32 cx)
  | .fshL _ t d a b c | .fshR _ t d a b c | .bfi _ t d a b c =>
      t.isBit && wf2 cx d a b (d.regTy cx t) (a.srcI cx t) (b.srcI cx t) && c.src32 cx && c.uni cx d
  | .bfx _ t d a b c =>
      t.isInt && wf2 cx d a b (d.regTy cx t) (a.srcI cx t) (b.src32 cx) && c.src32 cx && c.uni cx d
  | .setp _ t _ _ a b => t.isInt && a.srcI cx t && b.srcI cx t
  | .sel _ t d a b _ => t.isBit && !d.isS && wf2 cx d a b (d.regTy cx t) (a.srcI cx t) (b.srcI cx t)
  | .movi _ t d _ => t.isBit && d.regTy cx t
  | .movh _ d _ => d.reg cx
  | .lea _ _ d a b => wf2 cx d a b (d.pair cx) (a.pair cx) (b.src32 cx)
  | .fadd _ t _ d a b | .fsub _ t _ d a b | .fmul _ t _ _ d a b | .fmin _ t _ d a b | .fmax _ t _ d a b =>
      t.isFlt && wf2 cx d a b (d.regTy cx t) (a.srcF cx t) (b.srcF cx t)
  | .ffma _ t _ _ d a b c =>
      t.isFlt && wf2 cx d a b (d.regTy cx t) (a.srcF cx t) (b.srcF cx t) && c.srcF cx t && c.uni cx d
  | .fabs _ t d a | .fneg _ t d a | .fxpn _ t d a | .frnd _ t _ d a =>
      t.isFlt && d.regTy cx t && a.srcF cx t && a.uni cx d
  | .fclass _ t d a => t.isFlt && d.reg cx && a.srcF cx t && a.uni cx d
  | .fsetp _ t _ _ a b => t.isFlt && a.srcF cx t && b.srcF cx t
  | .frcp _ t d a | .frsq _ t d a | .fsqrt _ t _ d a => t.isF3264 && d.regTy cx t && a.srcF cx t && a.uni cx d
  | .fdiv _ t _ d a b => t.isF3264 && wf2 cx d a b (d.regTy cx t) (a.srcF cx t) (b.srcF cx t)
  | .fexp2 _ d a | .flog2 _ d a | .fsin _ d a | .fcos _ d a | .ftanh _ d a =>
      d.reg cx && a.srcF cx .f32 && a.uni cx d
  | .fscl _ t _ d a b => t.isFlt && wf2 cx d a b (d.regTy cx t) (a.srcF cx t) (b.src32 cx)
  | .fdot2 _ t _ _ d a b c =>
      t.isF16 && wf2 cx d a b (d.reg cx) (a.srcF cx t) (b.srcF cx t) && c.srcF cx .f32 && c.uni cx d
  | .fdot4 _ t _ _ d a b c =>
      decide (t = .e4m3 ∨ t = .e5m2) && wf2 cx d a b (d.reg cx) (a.srcF cx t) (b.srcF cx t) && c.srcF cx .f32
        && c.uni cx d
  | .cvt _ t s _ d a => decide (t ≠ s) && d.regTy cx t && a.srcCvt cx s && a.uni cx d
  | .pack _ t q d a => t.isPk && decide (q.toNat < t.slots) && d.reg cx && a.srcPack cx t && a.uni cx d
  | .unpack _ t q d a => t.isPk && decide (q.toNat < t.slots) && d.reg cx && a.reg cx && a.uni cx d
  | .shfl _ t _ d a b => t.isBit && d.vecTy cx t && a.vecTy cx t && b.src32 cx
  | .vote _ m d _ =>
      match m with
      | .bal => d.pair cx
      | _ => match d with | .x (.p _) => true | _ => false
  | .wred _ t op r d a => redOk t op r && d.regTy cx t && a.vecTy cx t
  | .wscan _ t op _ r d a => redOk t op r && d.vecTy cx t && a.vecTy cx t
  | .rdlane _ t d a b => t.isBit && d.scaTy cx t && a.vecTy cx t && b.scaInl
  | .wrlane _ t d a b => t.isBit && d.vecTy cx t && a.scaTyInl cx t && b.scaInl
  | .matchL _ t _ d a => t.isBit && d.vecPair cx && a.vecTy cx t
  | .plop .. => true
  | .bget _ d a => d.reg cx && a.reg cx && a.uni cx d
  | .bset _ _ d a => d.reg cx && a.src32 cx && a.uni cx d
  | .bchk _ t a => (t.isInt || t.isFlt) && a.regTy cx t
  | .budgSet _ a => a.scaInl
  | .budgRd _ d => d.reg cx
  | .taskB _ | .taskE _ | .taskX .. => true
  | .ld _ t n d a b _ | .ldb _ t n d a b _ | .ldc _ t n d a b _ | .st _ t n d a b _ =>
      t.isMem && cntOk t n && wf2 cx d a b (d.data cx t n) (a.pair cx) (b.index cx)
  | .ldp _ t d a b _ => t.isInt && wf2 cx d a b (d.regTy cx t) (a.pair cx) (b.index cx)
  | .stm _ n d a b _ => wf2 cx d a b (d.data cx .n32 n) (a.pair cx) (b.regInl cx)
  | .stc _ t d a b _ => decide (t = .f16 ∨ t = .bf16 ∨ t = .f32) && d.reg cx && a.pair cx && a.uni cx d && b.scaInl
  | .prefL2 _ a b _ | .prefL1 _ a b _ | .cinvLine _ a b _ | .cwbLine _ a b _ => a.pair cx && b.index cx
  | .cinvAll _ | .cwbAll _ => true
  | .atom _ t op r _ _ d a b c =>
      atOk t op && atRndOk op r && wf2 cx d a b (d.regTy cx t) (a.pair cx) (b.srcAt cx t)
        && (if op = .cas then c.srcAt cx t && c.uni cx d else decide (c = .v 0))
  | .red _ t op r _ _ a b =>
      atOk t op && decide (op ≠ .exch) && decide (op ≠ .cas) && atRndOk op r && a.pair cx && b.srcAt cx t
  | .cpl _ _ d a opt => d.vecPair cx && a.vecPair cx && optOk cx false false opt
  | .cpb _ d a b opt => d.scaPair && a.scaPair && b.scaInl && optOk cx false false opt
  | .cpcCont _ d a b opt | .cpcLast _ d a b opt => d.scaPair && a.scaPair && b.scaPair && optOk cx true false opt
  | .cpxPut _ d a b opt | .cpxGet _ d a b opt => d.scaPair && a.scaPair && b.scaInl && optOk cx false true opt
  | .dcz _ d a => d.scaPair && a.scaPair
  | .mtd _ _ a b => a.scaPair && b.scaPair
  | .msd _ _ a _ => a.isS
  | .mma _ t _ _ a b tA tB =>
      t.isMma && (match a with | .td _ => decide (tA = 0) | .tile _ => true)
        && (match b with | .td _ => decide (tB = 0) | .tile _ => true)
  | .mz .. => true
  | .mrd _ t _ d _ b nm1 => t.isMrd && vrange cx d.toNat (mrdRegs t nm1) && b.scaInl && mrdEven t nm1
  | .mwr _ t _ a b nm1 => t.isMrd && vrange cx a.toNat (mrdRegs t nm1) && b.scaInl && mrdEven t nm1
  | .mst _ t _ _ _ => t.isMst
  | .mstat _ d w b =>
      (if w.toInt = 2 ∨ w.toInt = 3 then d.isV && d.reg cx && b.scaInl
       else decide (w.toInt = 0 ∨ w.toInt = 1) && d.reg cx && decide (b = .v 0))
  | .lbind _ a b _ | .lrel _ a b | .lhint _ a b _ => a.scaInl && b.scaInl
  | .lstat _ d a b => d.pair cx && a.scaInl && b.scaInl
  | .txch _ d a b nm1 => vrange cx d.toNat (nm1.toNat + 1) && a.scaInl && b.scaInl
  | .collSum _ t a b _ | .collMax _ t a b | .collGath _ t a b | .collBcst _ t a b =>
      decide (t = .f32 ∨ t = .bf16) && a.scaPair && b.scaInl
  | .mfs _ d r => mfsReg r && mfsDst cx r d
  | .mts _ r a => mtsReg r && mtsSrc cx r a
  | .trap .. | .rti _ | .brk .. => true
  | .tinvPage _ a b => a.scaPair && b.scaInl
  | .tinvCtx _ b => b.scaInl
  | .tinvAll _ => true
  | .ckpt _ d => match d with | some k => decide (k.toNat % 2 = 0) | none => true
  | .dlyExpiry .. | .stallExpiry .. | .rjoinTimeoutExpiry .. | .yieldReactivation .. | .waitcSatisfied ..
  | .waitcTimeoutExpiry .. | .loadHoldTimeout .. | .tokenCompletion .. | .copyCommandComplete .. | .dczBlock ..
  | .matrixCommandAccept .. | .matrixCommandExecute .. | .leaseGrant .. | .tileSpill .. | .sideLogReplay ..
  | .txchTimeout .. | .collContribution .. | .collTimerExpiry .. | .collResult .. | .swapRequestStart
  | .layerArrivalComplete .. | .layerArrivalFailure .. | .residencyWordWrite .. | .mdescWriteEnable ..
  | .mdescWriteDisable .. | .trapEntry .. | .hrespRelease .. | .hrespDiscard .. | .frespRetry .. | .frespDecline ..
  | .faultAnswerTimeout .. | .queueNotify .. | .qstatHltClear .. | .launchPacketStart .. | .waitPacketStart ..
  | .waitPacketEnd .. | .waitPacketTimeout .. | .signalPacketStart .. | .ckptPacketStart .. | .groupPlacement ..
  | .intervalOpen .. | .uncorrectableError .. | .rollback .. | .rbcfgEnable .. | .shadowSwap .. | .swapBankActivate ..
  | .shadowSpill .. | .shadowFill .. | .spillFillComplete .. | .mxcfgClre .. | .correctedError .. | .spareTakeover ..
  | .patrolScrub .. | .flitReplay .. | .rimFrameReceive .. | .rimFrameResend .. | .rimGiveup .. | .rimPortDown ..
  | .rimPortUp .. | .peerRequest .. | .riminjArm .. | .sessionSetup .. | .sessionSetupComplete .. | .sessionTeardown ..
  | .sessionRekey .. | .hostWrite .. | .hostSnoop .. | .cxlPoison .. | .cxlLinkDown .. | .spdmPskExchange
  | .spdmKeyLoad .. | .spdmKeyErase .. | .spdmChallenge | .spdmMeasurements | .coldReset .. | .warmReset ..
  | .brcfgLock .. | .stkpwrVrstSet .. | .stkpwrVrstClear .. | .vrdyReady .. | .powerWindow ..
  | .configRegisterWrite .. | .modulePowerOff => true

end Sys2Proof
end

