-- ==== Sys2Proof/Decode.lean ====
section
/-! DEFINITION. The instruction word (R39), decoding of any 96 bits to an instruction or a rejection by name (R58-R61),
and the encoder written from the same tables. -/

namespace Sys2Proof

/-- The first illegal field of a word (R60); `DecErr.sub` is its sub-code. -/
inductive DecErr where
  | op | var | ty | rnd | gear | d | a | b | imm | sched | ones
  deriving DecidableEq, Repr

/-- Sub-codes of ILLOP (R60). -/
def DecErr.sub : DecErr → Nat
  | .op => 0 | .var => 1 | .ty => 2 | .rnd => 3 | .gear => 4 | .d => 5 | .a => 6 | .b => 7 | .imm => 8 | .sched => 9
  | .ones => 10

/-- The fields of an instruction word (R39). -/
structure Fields where
  op    : BitVec 8
  var   : BitVec 4
  ty    : BitVec 4
  g     : BitVec 4
  d     : BitVec 10
  a     : BitVec 10
  b     : BitVec 10
  rnd   : BitVec 3
  gear  : BitVec 3
  imm   : BitVec 20
  stall : BitVec 4
  post  : BitVec 1
  ptok  : BitVec 5
  wait  : BitVec 1
  wtok  : BitVec 5
  wthr  : BitVec 4
  deriving DecidableEq, Repr

namespace Fields

/-- Splits a word into its fields (R39). -/
def ofWord (w : Inst96) : Fields where
  op := w.extractLsb' 0 8
  var := w.extractLsb' 8 4
  ty := w.extractLsb' 12 4
  g := w.extractLsb' 16 4
  d := w.extractLsb' 20 10
  a := w.extractLsb' 30 10
  b := w.extractLsb' 40 10
  rnd := w.extractLsb' 50 3
  gear := w.extractLsb' 53 3
  imm := w.extractLsb' 56 20
  stall := w.extractLsb' 76 4
  post := w.extractLsb' 80 1
  ptok := w.extractLsb' 81 5
  wait := w.extractLsb' 86 1
  wtok := w.extractLsb' 87 5
  wthr := w.extractLsb' 92 4

/-- Joins the fields into a word (R39). -/
def toWord (f : Fields) : Inst96 :=
  f.wthr ++ f.wtok ++ f.wait ++ f.ptok ++ f.post ++ f.stall ++ f.imm ++ f.gear ++ f.rnd ++ f.b ++ f.a ++ f.d ++ f.g
    ++ f.ty ++ f.var ++ f.op

end Fields

/-! ### Codes -/

/-- Type codes (R56). -/
def Ty.code : Ty → BitVec 4
  | .i8 => 0 | .i16 => 1 | .i32 => 2 | .i64 => 3 | .n8 => 4 | .n16 => 5 | .n32 => 6 | .n64 => 7 | .f16 => 8
  | .bf16 => 9 | .f32 => 10 | .f64 => 11 | .e4m3 => 12 | .e5m2 => 13 | .e2m1 => 14

def Ty.ofCode (c : BitVec 4) : Option Ty :=
  match c.toNat with
  | 0 => some .i8 | 1 => some .i16 | 2 => some .i32 | 3 => some .i64 | 4 => some .n8 | 5 => some .n16
  | 6 => some .n32 | 7 => some .n64 | 8 => some .f16 | 9 => some .bf16 | 10 => some .f32 | 11 => some .f64
  | 12 => some .e4m3 | 13 => some .e5m2 | 14 => some .e2m1 | _ => none

/-- Rounding codes (R50, R64). -/
def RndSel.code : RndSel → BitVec 3
  | .dflt => 0 | .rne => 1 | .rtz => 2 | .rdn => 3 | .rup => 4 | .rna => 5 | .rsr => 6

def RndSel.ofCode (c : BitVec 3) : Option RndSel :=
  match c.toNat with
  | 0 => some .dflt | 1 => some .rne | 2 => some .rtz | 3 => some .rdn | 4 => some .rup | 5 => some .rna
  | 6 => some .rsr | _ => none

/-- Gear codes (R51, R64). -/
def GearSel.code : GearSel → BitVec 3
  | .gov => 0 | .g0 => 1 | .g1 => 2 | .g2 => 3 | .g3 => 4

def GearSel.ofCode (c : BitVec 3) : Option GearSel :=
  match c.toNat with
  | 0 => some .gov | 1 => some .g0 | 2 => some .g1 | 3 => some .g2 | 4 => some .g3 | _ => none

/-- Scope codes (R54). -/
def Scope.code : Scope → Nat
  | .team => 0 | .grp => 1 | .clu => 2 | .stk => 3 | .dev => 4 | .sys => 5

def Scope.ofCode : Nat → Option Scope
  | 0 => some .team | 1 => some .grp | 2 => some .clu | 3 => some .stk | 4 => some .dev | 5 => some .sys | _ => none

/-- Order codes (R54). -/
def Ord.code : Ord → Nat
  | .relaxed => 0 | .acq => 1 | .rel => 2 | .ar => 3

def Ord.ofCode : Nat → Ord
  | 1 => .acq | 2 => .rel | 3 => .ar | _ => .relaxed

def Cmp.code : Cmp → Nat
  | .eq => 0 | .ne => 1 | .lt => 2 | .le => 3 | .gt => 4 | .ge => 5

def Cmp.ofCode : Nat → Option Cmp
  | 0 => some .eq | 1 => some .ne | 2 => some .lt | 3 => some .le | 4 => some .gt | 5 => some .ge | _ => none

def FCmp.code : FCmp → Nat
  | .o c => c.code | .num => 6 | .u c => 8 + c.code | .nan => 14

def FCmp.ofCode (n : Nat) : Option FCmp :=
  if n < 6 then (Cmp.ofCode n).map .o
  else if n = 6 then some .num
  else if n = 7 then none
  else if n < 14 then (Cmp.ofCode (n - 8)).map .u
  else if n = 14 then some .nan else none

def RedOp.code : RedOp → Nat
  | .add => 0 | .min => 1 | .max => 2 | .and => 3 | .or => 4 | .xor => 5

def RedOp.ofCode : Nat → Option RedOp
  | 0 => some .add | 1 => some .min | 2 => some .max | 3 => some .and | 4 => some .or | 5 => some .xor | _ => none

def AtOp.code : AtOp → Nat
  | .add => 0 | .min => 1 | .max => 2 | .and => 3 | .or => 4 | .xor => 5 | .exch => 6 | .cas => 7 | .fadd => 8

def AtOp.ofCode : Nat → Option AtOp
  | 0 => some .add | 1 => some .min | 2 => some .max | 3 => some .and | 4 => some .or | 5 => some .xor
  | 6 => some .exch | 7 => some .cas | 8 => some .fadd | _ => none

def Cnt.code : Cnt → Nat
  | .c1 => 0 | .c2 => 1 | .c4 => 2

def Cnt.ofCode : Nat → Option Cnt
  | 0 => some .c1 | 1 => some .c2 | 2 => some .c4 | _ => none

/-- Indices of the special space (R43). -/
def Special.code : Special → BitVec 8
  | .exm => 0x00 | .laneid => 0x01 | .teamid => 0x02 | .stkid => 0x03 | .coreln => 0x04 | .ctxid => 0x05
  | .modelid => 0x06 | .idx j => 0x08 + j.setWidth 8 | .dim j => 0x10 + j.setWidth 8
  | .mode => 0x18 | .budg => 0x19 | .bstat => 0x1A | .kstat => 0x1B | .cyc => 0x1C | .rtick => 0x1D
  | .tfr => 0x20 | .tcause => 0x21 | .tepc => 0x22 | .tval => 0x23 | .tfrag => 0x24
  | .p n => 0x40 + n.setWidth 8 | .k n => 0x60 + n.setWidth 8 | .td n => 0x80 + n.setWidth 8
  | .a n => 0x90 + n.setWidth 8

def Special.ofCode (c : BitVec 8) : Option Special :=
  let n := c.toNat
  if n = 0x00 then some .exm
  else if n = 0x01 then some .laneid
  else if n = 0x02 then some .teamid
  else if n = 0x03 then some .stkid
  else if n = 0x04 then some .coreln
  else if n = 0x05 then some .ctxid
  else if n = 0x06 then some .modelid
  else if n < 0x08 then none
  else if n < 0x10 then some (.idx (BitVec.ofNat 3 n))
  else if n < 0x18 then some (.dim (BitVec.ofNat 3 n))
  else if n = 0x18 then some .mode
  else if n = 0x19 then some .budg
  else if n = 0x1A then some .bstat
  else if n = 0x1B then some .kstat
  else if n = 0x1C then some .cyc
  else if n = 0x1D then some .rtick
  else if n < 0x20 then none
  else if n = 0x20 then some .tfr
  else if n = 0x21 then some .tcause
  else if n = 0x22 then some .tepc
  else if n = 0x23 then some .tval
  else if n = 0x24 then some .tfrag
  else if n < 0x40 then none
  else if n < 0x48 then some (.p (BitVec.ofNat 3 n))
  else if n < 0x60 then none
  else if n < 0x80 then some (.k (BitVec.ofNat 5 n))
  else if n < 0x90 then some (.td (BitVec.ofNat 4 n))
  else if n < 0xA0 then some (.a (BitVec.ofNat 4 n))
  else none

/-- The 10 bits of an operand field (R42). -/
def Opnd.code : Opnd → BitVec 10
  | .v n => 0b00#2 ++ n
  | .s n => 0b01#2 ++ n.setWidth 8
  | .i w => 0b10#2 ++ w
  | .x r => 0b11#2 ++ r.code

/-- The operand that 10 bits name; none for a scalar index above 63 and for a reserved special index (R42, R43). -/
def Opnd.ofCode (c : BitVec 10) : Option Opnd :=
  let idx := c.setWidth 8
  match (c >>> 8).toNat with
  | 0 => some (.v idx)
  | 1 => if idx.toNat < 64 then some (.s (idx.setWidth 6)) else none
  | 2 => some (.i idx)
  | _ => (Special.ofCode idx).map .x

/-! ### The checks of a word, in sub-code order (R60) -/

/-- A decoding step: a rejection by the first failing field, or a result. -/
abbrev Dec := Except DecErr

/-- Rejects with e unless b. -/
def need (e : DecErr) (b : Bool) : Dec Unit := if b then .ok () else .error e

/-- A value that a code names, or a rejection. -/
def want (e : DecErr) {α : Type} : Option α → Dec α
  | some x => .ok x
  | none => .error e

namespace Fields

/-- VAR 0, TY 0x0, RND and GEAR 0b000. -/
def plain (f : Fields) : Dec Unit := do
  need .var (f.var = 0); need .ty (f.ty = 0); need .rnd (f.rnd = 0); need .gear (f.gear = 0)

/-- TY 0x0, RND and GEAR 0b000 with a listed VAR. -/
def noTy (f : Fields) : Dec Unit := do
  need .ty (f.ty = 0); need .rnd (f.rnd = 0); need .gear (f.gear = 0)

/-- TY in the set p (R57). -/
def tyIn (f : Fields) (p : Ty → Bool) : Dec Ty :=
  match Ty.ofCode f.ty with
  | some t => if p t then .ok t else .error .ty
  | none => .error .ty

/-- The VAR check of a VAR that clashes only with some TY of the set p (R60). -/
def varTy (f : Fields) (p q : Ty → Bool) : Dec Unit :=
  match Ty.ofCode f.ty with
  | some t => need .var (!p t || q t)
  | none => .ok ()

def rnd0 (f : Fields) : Dec Unit := do need .rnd (f.rnd = 0); need .gear (f.gear = 0)
def rndG0 (f : Fields) : Dec RndSel := do
  let r ← want .rnd (RndSel.ofCode f.rnd); need .gear (f.gear = 0); .ok r
def rndGear (f : Fields) : Dec (RndSel × GearSel) := do
  let r ← want .rnd (RndSel.ofCode f.rnd); let g ← want .gear (GearSel.ofCode f.gear); .ok (r, g)
/-- RND permitted only when ok. -/
def rndIf (f : Fields) (ok : Bool) : Dec RndSel := do
  let r ← want .rnd (RndSel.ofCode f.rnd); need .rnd (ok || r = .dflt); need .gear (f.gear = 0); .ok r

/-- An operand field that satisfies p. -/
def fld (e : DecErr) (raw : BitVec 10) (p : Opnd → Bool) : Dec Opnd :=
  match Opnd.ofCode raw with
  | some o => if p o then .ok o else .error e
  | none => .error e

def zero (e : DecErr) (raw : BitVec 10) : Dec Unit := need e (raw = 0)

/-- A predicate field 0x340-0x347. -/
def pred (e : DecErr) (raw : BitVec 10) : Dec (BitVec 3) :=
  match Opnd.ofCode raw with
  | some (.x (.p n)) => .ok n
  | _ => .error e
def tok (e : DecErr) (raw : BitVec 10) : Dec (BitVec 5) :=
  match Opnd.ofCode raw with
  | some (.x (.k n)) => .ok n
  | _ => .error e
def tdF (e : DecErr) (raw : BitVec 10) : Dec (BitVec 4) :=
  match Opnd.ofCode raw with
  | some (.x (.td n)) => .ok n
  | _ => .error e
def tileF (e : DecErr) (raw : BitVec 10) : Dec (BitVec 4) :=
  match Opnd.ofCode raw with
  | some (.x (.a n)) => .ok n
  | _ => .error e
def mop (e : DecErr) (raw : BitVec 10) : Dec MOp :=
  match Opnd.ofCode raw with
  | some (.x (.td n)) => .ok (.td n)
  | some (.x (.a n)) => .ok (.tile n)
  | _ => .error e
/-- A vector register field. -/
def vreg (e : DecErr) (raw : BitVec 10) (p : BitVec 8 → Bool) : Dec (BitVec 8) :=
  match Opnd.ofCode raw with
  | some (.v n) => if p n then .ok n else .error e
  | _ => .error e
/-- An inline field whose value satisfies p. -/
def inl (e : DecErr) (raw : BitVec 10) (p : BitVec 8 → Bool) : Dec (BitVec 8) :=
  match Opnd.ofCode raw with
  | some (.i x) => if p x then .ok x else .error e
  | _ => .error e

/-- IMM bits from n up are zero. -/
def immTop (f : Fields) (n : Nat) : Dec Unit := need .imm (f.imm.toNat / 2 ^ n = 0)
def imm0 (f : Fields) : Dec Unit := need .imm (f.imm = 0)

/-- The operand embedded in IMM[9:0], IMM[19:10] zero (reg4). -/
def c4 (f : Fields) (p : Opnd → Bool) : Dec Opnd := do
  let o ← fld .imm (f.imm.setWidth 10) p
  need .imm (f.imm.toNat / 2 ^ 10 = 0)
  .ok o

/-- Guard and scheduling fields (R47, R55); the last check. -/
def hdr (f : Fields) : Dec Hdr := do
  need .sched (f.post = 1 || f.ptok = 0)
  need .sched (f.wait = 1 || (f.wtok = 0 && f.wthr = 0))
  .ok { g := { neg := f.g.getLsbD 3, p := f.g.setWidth 3 }
        sc := { stall := f.stall
                post := if f.post = 1 then some f.ptok else none
                wait := if f.wait = 1 then some (f.wtok, f.wthr) else none } }

/-! Moulds: the instructions that share a shape. -/

/-- Format nul: every operand zero. -/
def nul (f : Fields) (k : Hdr → Instr) : Dec Instr := do
  f.plain; zero .d f.d; zero .a f.a; zero .b f.b; f.imm0
  let h ← f.hdr
  .ok (k h)

/-- Format br: D, A and B zero. -/
def br (f : Fields) (k : Hdr → BitVec 20 → Instr) : Dec Instr := do
  f.plain; zero .d f.d; zero .a f.a; zero .b f.b
  let h ← f.hdr
  .ok (k h f.imm)

/-- reg3 with one source, B zero, IMM zero; the type set p. -/
def un (cx : DecCtx) (f : Fields) (p : Ty → Bool) (da : Ty → Opnd → Bool) (sa : Ty → Opnd → Bool)
    (k : Hdr → Ty → Opnd → Opnd → Instr) : Dec Instr := do
  let t ← f.tyIn p
  f.rnd0
  let d ← fld .d f.d (da t)
  let a ← fld .a f.a (fun o => sa t o && o.uni cx d)
  zero .b f.b; f.imm0
  let h ← f.hdr
  .ok (k h t d a)

/-- reg3 with two sources, IMM zero. -/
def bin (cx : DecCtx) (f : Fields) (p : Ty → Bool) (sa sb : Ty → Opnd → Bool)
    (k : Hdr → Ty → Opnd → Opnd → Opnd → Instr) : Dec Instr := do
  let t ← f.tyIn p
  f.rnd0
  let d ← fld .d f.d (·.regTy cx t)
  let a ← fld .a f.a (fun o => sa t o && o.uni cx d)
  let b ← fld .b f.b (fun o => sb t o && o.uni cx d)
  f.imm0
  let h ← f.hdr
  .ok (k h t d a b)

/-- reg4: three sources. -/
def tri (cx : DecCtx) (f : Fields) (p : Ty → Bool) (sa sb sc : Ty → Opnd → Bool)
    (k : Hdr → Ty → Opnd → Opnd → Opnd → Opnd → Instr) : Dec Instr := do
  let t ← f.tyIn p
  f.rnd0
  let d ← fld .d f.d (·.regTy cx t)
  let a ← fld .a f.a (fun o => sa t o && o.uni cx d)
  let b ← fld .b f.b (fun o => sb t o && o.uni cx d)
  let c ← f.c4 (fun o => sc t o && o.uni cx d)
  let h ← f.hdr
  .ok (k h t d a b c)

/-- Floating reg3 with one source and RND. -/
def unR (cx : DecCtx) (f : Fields) (p : Ty → Bool) (k : Hdr → Ty → RndSel → Opnd → Opnd → Instr) : Dec Instr := do
  let t ← f.tyIn p
  let r ← f.rndG0
  let d ← fld .d f.d (·.regTy cx t)
  let a ← fld .a f.a (fun o => o.srcF cx t && o.uni cx d)
  zero .b f.b; f.imm0
  let h ← f.hdr
  .ok (k h t r d a)

/-- Floating reg3 with two sources and RND. -/
def binR (cx : DecCtx) (f : Fields) (p : Ty → Bool) (sb : Ty → Opnd → Bool)
    (k : Hdr → Ty → RndSel → Opnd → Opnd → Opnd → Instr) : Dec Instr := do
  let t ← f.tyIn p
  let r ← f.rndG0
  let d ← fld .d f.d (·.regTy cx t)
  let a ← fld .a f.a (fun o => o.srcF cx t && o.uni cx d)
  let b ← fld .b f.b (fun o => sb t o && o.uni cx d)
  f.imm0
  let h ← f.hdr
  .ok (k h t r d a b)

/-- Dot products (R179): D a 32-bit register, an f32 addend. -/
def dot (cx : DecCtx) (f : Fields) (p : Ty → Bool)
    (k : Hdr → Ty → RndSel → GearSel → Opnd → Opnd → Opnd → Opnd → Instr) : Dec Instr := do
  let t ← f.tyIn p
  let (r, g) ← f.rndGear
  let d ← fld .d f.d (·.reg cx)
  let a ← fld .a f.a (fun o => o.srcF cx t && o.uni cx d)
  let b ← fld .b f.b (fun o => o.srcF cx t && o.uni cx d)
  let c ← f.c4 (fun o => o.srcF cx .f32 && o.uni cx d)
  let h ← f.hdr
  .ok (k h t r g d a b c)

/-- f32 functions of the special-function unit (R178). -/
def fn (cx : DecCtx) (f : Fields) (k : Hdr → Opnd → Opnd → Instr) : Dec Instr := do
  need .var (f.var = 0)
  f.un cx (· == .f32) (fun t o => o.regTy cx t) (fun t o => o.srcF cx t) (fun h _ d a => k h d a)

/-- Format mem with a MEM type (R264). -/
def mem (cx : DecCtx) (f : Fields) (k : Hdr → Ty → Cnt → Opnd → Opnd → Opnd → BitVec 20 → Instr) : Dec Instr := do
  let n ← want .var (Cnt.ofCode f.var.toNat)
  f.varTy Ty.isMem (fun t => cntOk t n)
  let t ← f.tyIn Ty.isMem
  f.rnd0
  let d ← fld .d f.d (·.data cx t n)
  let a ← fld .a f.a (fun o => o.pair cx && o.uni cx d)
  let b ← fld .b f.b (fun o => o.index cx && o.uni cx d)
  let h ← f.hdr
  .ok (k h t n d a b f.imm)

/-- Format mem without data (`pref`, `cinv.line`, `cwb.line`). -/
def memN (cx : DecCtx) (f : Fields) (k : Hdr → Opnd → Opnd → BitVec 20 → Instr) : Dec Instr := do
  f.noTy; zero .d f.d
  let a ← fld .a f.a (·.pair cx)
  let b ← fld .b f.b (·.index cx)
  let h ← f.hdr
  .ok (k h a b f.imm)

/-- `kwait`, `kset`, `kadd` (R118). -/
def tokI (f : Fields) (k : Hdr → BitVec 5 → BitVec 8 → Bool → Instr) : Dec Instr := do
  f.plain; zero .d f.d
  let n ← tok .a f.a
  zero .b f.b; f.immTop 9
  let h ← f.hdr
  .ok (k h n (f.imm.setWidth 8) (f.imm.getLsbD 8))

/-- The copies whose A and D are scalar pairs (R318). -/
def copy (cx : DecCtx) (f : Fields) (cpc cpx : Bool) (sb : Opnd → Bool) (k : Hdr → Opnd → Opnd → Opnd → BitVec 20 → Instr) :
    Dec Instr := do
  f.noTy
  let d ← fld .d f.d Opnd.scaPair
  let a ← fld .a f.a Opnd.scaPair
  let b ← fld .b f.b sb
  need .imm (optOk cx cpc cpx f.imm)
  let h ← f.hdr
  .ok (k h d a b f.imm)

/-- Model and layer operands of the residency instructions (R356), D zero. -/
def resid (f : Fields) (bits : Nat) (k : Hdr → Opnd → Opnd → BitVec 20 → Instr) : Dec Instr := do
  f.plain; zero .d f.d
  let a ← fld .a f.a Opnd.scaInl
  let b ← fld .b f.b Opnd.scaInl
  f.immTop bits
  let h ← f.hdr
  .ok (k h a b f.imm)

/-- `coll` (R443). -/
def coll (f : Fields) (bits : Nat) (k : Hdr → Ty → Opnd → Opnd → BitVec 20 → Instr) : Dec Instr := do
  let t ← f.tyIn (fun t => t == .f32 || t == .bf16)
  f.rnd0; zero .d f.d
  let a ← fld .a f.a Opnd.scaPair
  let b ← fld .b f.b Opnd.scaInl
  f.immTop bits
  let h ← f.hdr
  .ok (k h t a b f.imm)

/-- A condition block A and its count n − 1 (R324). -/
def blk (f : Fields) (n : BitVec 2) : Dec Opnd := fld .a f.a (condBlk · n)

/-- `waitc` (R324). -/
def waitc (f : Fields) (k : Hdr → Option (BitVec 3) → Opnd → Opnd → BitVec 2 → Instr) : Dec Instr := do
  f.noTy
  let d ← if f.d = 0 then .ok none else (pred .d f.d).map some
  let a ← f.blk (f.imm.setWidth 2)
  let b ← fld .b f.b Opnd.scaInl
  f.immTop 2
  let h ← f.hdr
  .ok (k h d a b (f.imm.setWidth 2))

/-- The EXM writes (R137). -/
def exmW (f : Fields) (k : Hdr → Opnd → Instr) : Dec Instr := do
  f.noTy; zero .d f.d
  let a ← fld .a f.a Opnd.scaPairInl
  zero .b f.b; f.imm0
  let h ← f.hdr
  .ok (k h a)

/-- The special register that a field and B name for `mfs` and `mts` (R407). -/
def sysReg (e : DecErr) (f : Fields) (raw : BitVec 10) (p : SysReg → Bool) : Dec SysReg :=
  match Opnd.ofCode raw with
  | some (.x r) =>
    let s := if f.b = 0x201 ∧ r = .laneid then SysReg.gen else .sp r
    if p s then .ok s else .error e
  | _ => .error e

end Fields

open Fields in
/-- The instruction that the fields stand for, or the first illegal field (R58, R60 and the entries). DEDUCED (log entry 38):
the lane number of `rdlane` and `wrlane` is no special register (R142), and no special register is a narrow integer source of
`pack`, `unpack` or `cvt` (R145). -/
def decodeFields (cx : DecCtx) (f : Fields) : Dec Instr :=
  let v := f.var.toNat
  match f.op.toNat with
  | 0x00 => f.nul .nop
  | 0x01 => do
    f.plain; zero .d f.d; zero .a f.a; zero .b f.b; f.immTop 19
    let h ← f.hdr
    .ok (.dly h (f.imm.setWidth 19))
  | 0x02 => f.br .bra
  | 0x03 => do
    f.plain; zero .d f.d
    let a ← fld .a f.a (·.pair cx)
    zero .b f.b; f.imm0
    let h ← f.hdr
    .ok (.brx h a)
  | 0x04 => f.br .call
  | 0x05 => do
    f.plain; zero .d f.d
    let a ← fld .a f.a Opnd.scaPair
    zero .b f.b; f.imm0
    let h ← f.hdr
    .ok (.calx h a)
  | 0x06 => f.nul .ret
  | 0x07 => f.nul .exit
  | 0x08 => f.br .rcv
  | 0x09 => do
    need .var (v < 2)
    if v = 0 then f.nul .rjoin
    else do
      f.noTy
      let d ← pred .d f.d
      let a ← fld .a f.a Opnd.scaInl
      zero .b f.b; f.imm0
      let h ← f.hdr
      .ok (.rjoinTo h d a)
  | 0x0A => do
    need .var (v < 4)
    if v = 0 then do
      f.noTy
      let d ← fld .d f.d (·.pair cx)
      let w ← inl .a f.a (fun x => x.toInt ∈ [0, 1, 2])
      zero .b f.b; f.imm0
      let h ← f.hdr
      .ok (.exmRd h d w)
    else if v = 1 then f.exmW .exmWr
    else if v = 2 then f.exmW .exmAnd
    else f.exmW .exmOr
  | 0x0B => do
    f.plain; zero .d f.d
    let n := f.b.setWidth 8 - 1#8
    let a ← f.blk (if 0x201 ≤ f.b ∧ f.b ≤ 0x204 then n.setWidth 2 else 0)
    need .b (0x201 ≤ f.b ∧ f.b ≤ 0x204)
    let h ← f.hdr
    .ok (.yield h a (n.setWidth 2) f.imm)
  | 0x0C => do
    need .var (v < 2)
    if v = 0 then f.waitc .waitcAny else f.waitc .waitcAll
  | 0x10 => f.tokI .kwait
  | 0x11 => f.tokI .kset
  | 0x12 => do
    f.plain
    let d ← fld .d f.d (·.reg cx)
    let n ← tok .a f.a
    let b ← fld .b f.b (fun o => o ∈ [Opnd.v 0, .i 0, .i 1])
    f.imm0
    let h ← f.hdr
    .ok (.krd h d n b)
  | 0x13 => f.tokI .kadd
  | 0x14 => do
    f.plain; zero .d f.d
    let a ← fld .a f.a (·.bar cx 15)
    let b ← fld .b f.b (·.inlRange 1 1023)
    f.imm0
    let h ← f.hdr
    .ok (.barInit h a b)
  | 0x15 => do
    need .var (1 ≤ v ∧ v ≤ 4)
    let sc ← want .var (Scope.ofCode v)
    match Opnd.ofCode f.a with
    | some a => if f.ty = 0 then need .var (arvScopeOk sc a) else .ok ()
    | none => .ok ()
    f.noTy; zero .d f.d
    let a ← fld .a f.a (·.bar cx 17)
    zero .b f.b; f.immTop 1
    let h ← f.hdr
    .ok (.barArv h sc a (f.imm.getLsbD 0))
  | 0x16 => do
    f.plain; zero .d f.d
    let a ← fld .a f.a (·.bar cx 15)
    let b ← fld .b f.b (·.inlRange 0 (2 ^ 31 - 1))
    f.imm0
    let h ← f.hdr
    .ok (.barExp h a b)
  | 0x17 => do
    f.plain
    let d ← fld .d f.d (·.pair cx)
    let a ← fld .a f.a (·.bar cx 17)
    let w ← inl .b f.b (fun x => x.toInt ∈ [0, 1])
    f.imm0
    let h ← f.hdr
    .ok (.barRd h d a w)
  | 0x18 => do
    f.plain
    let d ← fld .d f.d (·.pair cx)
    let a ← fld .a f.a (·.inlRange 0 7)
    let w ← inl .b f.b (fun x => x.toInt ∈ [0, 1, 2])
    f.imm0
    let h ← f.hdr
    .ok (.tlRd h d a w)
  | 0x19 => do
    let sc ← want .var (Scope.ofCode v)
    f.noTy; zero .d f.d
    let a ← fld .a f.a (·.inlRange 2 7)
    let b ← fld .b f.b Opnd.scaPairInl
    f.immTop 1
    let h ← f.hdr
    .ok (.tlSig h sc a b (f.imm.getLsbD 0))
  | 0x1A => do
    let sc ← want .var (Scope.ofCode v)
    f.noTy; zero .d f.d; zero .a f.a; zero .b f.b
    need .imm (f.imm.toNat % 4 ≠ 0); f.immTop 2
    let h ← f.hdr
    .ok (.fence h sc (Ord.ofCode f.imm.toNat))
  | 0x20 => do need .var (v < 2); f.bin cx Ty.isInt (fun t o => o.srcI cx t) (fun t o => o.srcI cx t) (fun h t d a b => .add h t (v = 1) d a b)
  | 0x21 => do need .var (v < 2); f.bin cx Ty.isInt (fun t o => o.srcI cx t) (fun t o => o.srcI cx t) (fun h t d a b => .sub h t (v = 1) d a b)
  | 0x22 => do need .var (v = 0); f.bin cx Ty.isInt (fun t o => o.srcI cx t) (fun t o => o.srcI cx t) .mul
  | 0x23 => do need .var (v = 0); f.bin cx Ty.isInt (fun t o => o.srcI cx t) (fun t o => o.srcI cx t) .mulh
  | 0x24 => do need .var (v < 2); f.tri cx Ty.isInt (fun t o => o.srcI cx t) (fun t o => o.srcI cx t) (fun t o => o.srcI cx t) (fun h t d a b c => .mad h t (v = 1) d a b c)
  | 0x25 => do need .var (v = 0); f.tri cx Ty.isInt (fun t o => o.srcI cx t) (fun t o => o.srcI cx t) (fun t o => o.srcI cx t) .madh
  | 0x26 => do need .var (v = 0); f.bin cx Ty.isInt (fun t o => o.srcI cx t) (fun t o => o.srcI cx t) .div
  | 0x27 => do need .var (v = 0); f.bin cx Ty.isInt (fun t o => o.srcI cx t) (fun t o => o.srcI cx t) .rem
  | 0x28 => do need .var (v = 0); f.bin cx Ty.isInt (fun t o => o.srcI cx t) (fun t o => o.srcI cx t) .min
  | 0x29 => do need .var (v = 0); f.bin cx Ty.isInt (fun t o => o.srcI cx t) (fun t o => o.srcI cx t) .max
  | 0x2A => do need .var (v < 2); f.un cx Ty.isI3264 (fun t o => o.regTy cx t) (fun t o => o.srcI cx t) (fun h t d a => .abs h t (v = 1) d a)
  | 0x2B => do need .var (v < 2); f.un cx Ty.isI3264 (fun t o => o.regTy cx t) (fun t o => o.srcI cx t) (fun h t d a => .neg h t (v = 1) d a)
  | 0x2C => do need .var (v = 0); f.bin cx Ty.isBit (fun t o => o.srcI cx t) (fun t o => o.srcI cx t) .and
  | 0x2D => do need .var (v = 0); f.bin cx Ty.isBit (fun t o => o.srcI cx t) (fun t o => o.srcI cx t) .or
  | 0x2E => do need .var (v = 0); f.bin cx Ty.isBit (fun t o => o.srcI cx t) (fun t o => o.srcI cx t) .xor
  | 0x2F => do need .var (v = 0); f.un cx Ty.isBit (fun t o => o.regTy cx t) (fun t o => o.srcI cx t) .not
  | 0x30 => do need .var (v = 0); f.bin cx Ty.isBit (fun t o => o.srcI cx t) (fun t o => o.srcI cx t) .andn
  | 0x31 => do
    need .var (v < 4)
    f.bin cx Ty.isBit (fun t o => o.srcI cx t) (fun _ o => o.src32 cx) (fun h t d a b =>
      if v = 0 then .shl h t d a b else if v = 1 then .shr h t d a b else if v = 2 then .sar h t d a b
      else .rol h t d a b)
  | 0x32 => do
    need .var (v < 2)
    f.tri cx Ty.isBit (fun t o => o.srcI cx t) (fun t o => o.srcI cx t) (fun _ o => o.src32 cx) (fun h t d a b c => if v = 0 then .fshL h t d a b c else .fshR h t d a b c)
  | 0x33 => do
    need .var (v < 4)
    f.un cx Ty.isBit (fun t o => o.regTy cx t) (fun t o => o.srcI cx t) (fun h t d a =>
      if v = 0 then .popc h t d a else if v = 1 then .clz h t d a else if v = 2 then .ctz h t d a else .brev h t d a)
  | 0x34 => do need .var (v = 0); f.tri cx Ty.isInt (fun t o => o.srcI cx t) (fun _ o => o.src32 cx) (fun _ o => o.src32 cx) .bfx
  | 0x35 => do need .var (v = 0); f.tri cx Ty.isBit (fun t o => o.srcI cx t) (fun t o => o.srcI cx t) (fun _ o => o.src32 cx) .bfi
  | 0x36 => do
    let c ← want .var (Cmp.ofCode v)
    let t ← f.tyIn Ty.isInt
    f.rnd0
    let d ← pred .d f.d
    let a ← fld .a f.a (·.srcI cx t)
    let b ← fld .b f.b (·.srcI cx t)
    f.imm0
    let h ← f.hdr
    .ok (.setp h t c d a b)
  | 0x37 => do
    need .var (v = 0)
    let t ← f.tyIn Ty.isBit
    f.rnd0
    let d ← fld .d f.d (·.regTy cx t)
    let a ← fld .a f.a (fun o => o.srcI cx t && o.uni cx d)
    let b ← fld .b f.b (fun o => o.srcI cx t && o.uni cx d)
    let p ← pred .imm (f.imm.setWidth 10)
    need .imm (f.imm.toNat / 2 ^ 10 = 0); need .imm (!d.isS)
    let h ← f.hdr
    .ok (.sel h t d a b p)
  | 0x38 => do need .var (v = 0); f.un cx Ty.isBit (fun t o => o.regTy cx t) (fun t o => o.srcI cx t) .mov
  | 0x39 => do
    need .var (v = 0)
    let t ← f.tyIn Ty.isBit
    f.rnd0
    let d ← fld .d f.d (·.regTy cx t)
    zero .a f.a; zero .b f.b
    let h ← f.hdr
    .ok (.movi h t d f.imm)
  | 0x3A => do
    need .var (v = 0)
    let _ ← f.tyIn (· == .n32)
    f.rnd0
    let d ← fld .d f.d (·.reg cx)
    zero .a f.a; zero .b f.b; f.immTop 16
    let h ← f.hdr
    .ok (.movh h d (f.imm.setWidth 16))
  | 0x3B => do
    need .var (v < 4)
    let _ ← f.tyIn (· == .n64)
    f.rnd0
    let d ← fld .d f.d (·.pair cx)
    let a ← fld .a f.a (fun o => o.pair cx && o.uni cx d)
    let b ← fld .b f.b (fun o => o.src32 cx && o.uni cx d)
    f.imm0
    let h ← f.hdr
    .ok (.lea h (f.var.setWidth 2) d a b)
  | 0x40 => do need .var (v = 0); f.binR cx Ty.isFlt (fun t o => o.srcF cx t) .fadd
  | 0x41 => do need .var (v = 0); f.binR cx Ty.isFlt (fun t o => o.srcF cx t) .fsub
  | 0x42 => do
    need .var (v = 0)
    let t ← f.tyIn Ty.isFlt
    let (r, g) ← f.rndGear
    let d ← fld .d f.d (·.regTy cx t)
    let a ← fld .a f.a (fun o => o.srcF cx t && o.uni cx d)
    let b ← fld .b f.b (fun o => o.srcF cx t && o.uni cx d)
    f.imm0
    let h ← f.hdr
    .ok (.fmul h t r g d a b)
  | 0x43 => do
    need .var (v = 0)
    let t ← f.tyIn Ty.isFlt
    let (r, g) ← f.rndGear
    let d ← fld .d f.d (·.regTy cx t)
    let a ← fld .a f.a (fun o => o.srcF cx t && o.uni cx d)
    let b ← fld .b f.b (fun o => o.srcF cx t && o.uni cx d)
    let c ← f.c4 (fun o => o.srcF cx t && o.uni cx d)
    let h ← f.hdr
    .ok (.ffma h t r g d a b c)
  | 0x44 => do need .var (v < 2); f.bin cx Ty.isFlt (fun t o => o.srcF cx t) (fun t o => o.srcF cx t) (fun h t d a b => .fmin h t (v = 1) d a b)
  | 0x45 => do need .var (v < 2); f.bin cx Ty.isFlt (fun t o => o.srcF cx t) (fun t o => o.srcF cx t) (fun h t d a b => .fmax h t (v = 1) d a b)
  | 0x46 => do need .var (v = 0); f.un cx Ty.isFlt (fun t o => o.regTy cx t) (fun t o => o.srcF cx t) .fabs
  | 0x47 => do need .var (v = 0); f.un cx Ty.isFlt (fun t o => o.regTy cx t) (fun t o => o.srcF cx t) .fneg
  | 0x48 => do
    let c ← want .var (FCmp.ofCode v)
    let t ← f.tyIn Ty.isFlt
    f.rnd0
    let d ← pred .d f.d
    let a ← fld .a f.a (·.srcF cx t)
    let b ← fld .b f.b (·.srcF cx t)
    f.imm0
    let h ← f.hdr
    .ok (.fsetp h t c d a b)
  | 0x49 => do need .var (v = 0); f.un cx Ty.isF3264 (fun t o => o.regTy cx t) (fun t o => o.srcF cx t) .frcp
  | 0x4A => do need .var (v = 0); f.un cx Ty.isF3264 (fun t o => o.regTy cx t) (fun t o => o.srcF cx t) .frsq
  | 0x4B => do need .var (v = 0); f.unR cx Ty.isF3264 .fsqrt
  | 0x4C => do need .var (v = 0); f.binR cx Ty.isF3264 (fun t o => o.srcF cx t) .fdiv
  | 0x4D => f.fn cx .fexp2
  | 0x4E => f.fn cx .flog2
  | 0x4F => f.fn cx .fsin
  | 0x50 => f.fn cx .fcos
  | 0x51 => f.fn cx .ftanh
  | 0x52 => do need .var (v = 0); f.binR cx Ty.isFlt (fun _ o => o.src32 cx) .fscl
  | 0x53 => do need .var (v = 0); f.un cx Ty.isFlt (fun t o => o.regTy cx t) (fun t o => o.srcF cx t) .fxpn
  | 0x54 => do need .var (v = 0); f.unR cx Ty.isFlt .frnd
  | 0x55 => do need .var (v = 0); f.un cx Ty.isFlt (fun _ o => o.reg cx) (fun t o => o.srcF cx t) .fclass
  | 0x56 => do need .var (v = 0); f.dot cx Ty.isF16 .fdot2
  | 0x57 => do need .var (v = 0); f.dot cx (fun t => t == .e4m3 || t == .e5m2) .fdot4
  | 0x60 => do
    let s ← want .var (Ty.ofCode f.var)
    f.varTy (fun _ => true) (fun t => t ≠ s)
    let t ← f.tyIn (fun _ => true)
    let r ← f.rndG0
    let d ← fld .d f.d (·.regTy cx t)
    let a ← fld .a f.a (fun o => o.srcCvt cx s && o.uni cx d)
    zero .b f.b; f.imm0
    let h ← f.hdr
    .ok (.cvt h t s r d a)
  | 0x61 => do
    need .var (v < 8)
    f.varTy Ty.isPk (fun t => v < t.slots)
    f.un cx Ty.isPk (fun _ o => o.reg cx) (fun t o => o.srcPack cx t) (fun h t d a => .pack h t (f.var.setWidth 3) d a)
  | 0x62 => do
    need .var (v < 8)
    f.varTy Ty.isPk (fun t => v < t.slots)
    f.un cx Ty.isPk (fun _ o => o.reg cx) (fun _ o => o.reg cx) (fun h t d a => .unpack h t (f.var.setWidth 3) d a)
  | 0x68 => do
    need .var (v < 4)
    let t ← f.tyIn Ty.isBit
    f.rnd0
    let d ← fld .d f.d (·.vecTy cx t)
    let a ← fld .a f.a (·.vecTy cx t)
    let b ← fld .b f.b (·.src32 cx)
    f.imm0
    let h ← f.hdr
    .ok (.shfl h t (if v = 0 then .idx else if v = 1 then .up else if v = 2 then .down else .xor) d a b)
  | 0x69 => do
    need .var (v < 4)
    f.noTy
    let d ← fld .d f.d (fun o => if v = 2 then o.pair cx else match o with | .x (.p _) => true | _ => false)
    let a ← pred .a f.a
    zero .b f.b; f.imm0
    let h ← f.hdr
    .ok (.vote h (if v = 0 then .any else if v = 1 then .all else if v = 2 then .bal else .eq) d a)
  | 0x6A => do
    let op ← want .var (RedOp.ofCode v)
    f.varTy (fun t => t.isInt || t == .f32) (fun t => !(t == .f32 && 3 ≤ v))
    let t ← f.tyIn (fun t => t.isInt || t == .f32)
    let r ← f.rndIf (t == .f32 && v == 0)
    let d ← fld .d f.d (·.regTy cx t)
    let a ← fld .a f.a (·.vecTy cx t)
    zero .b f.b; f.imm0
    let h ← f.hdr
    .ok (.wred h t op r d a)
  | 0x6B => do
    let op ← want .var (RedOp.ofCode (v % 8))
    f.varTy (fun t => t.isInt || t == .f32) (fun t => !(t == .f32 && 3 ≤ v % 8))
    let t ← f.tyIn (fun t => t.isInt || t == .f32)
    let r ← f.rndIf (t == .f32 && v % 8 == 0)
    let d ← fld .d f.d (·.vecTy cx t)
    let a ← fld .a f.a (·.vecTy cx t)
    zero .b f.b; f.imm0
    let h ← f.hdr
    .ok (.wscan h t op (8 ≤ v) r d a)
  | 0x6C => do
    need .var (v = 0)
    let t ← f.tyIn Ty.isBit
    f.rnd0
    let d ← fld .d f.d (·.scaTy cx t)
    let a ← fld .a f.a (·.vecTy cx t)
    let b ← fld .b f.b Opnd.scaInl
    f.imm0
    let h ← f.hdr
    .ok (.rdlane h t d a b)
  | 0x6D => do
    need .var (v = 0)
    let t ← f.tyIn Ty.isBit
    f.rnd0
    let d ← fld .d f.d (·.vecTy cx t)
    let a ← fld .a f.a (·.scaTyInl cx t)
    let b ← fld .b f.b Opnd.scaInl
    f.imm0
    let h ← f.hdr
    .ok (.wrlane h t d a b)
  | 0x6E => do
    need .var (v < 2)
    let t ← f.tyIn Ty.isBit
    f.rnd0
    let d ← fld .d f.d (·.vecPair cx)
    let a ← fld .a f.a (·.vecTy cx t)
    zero .b f.b; f.imm0
    let h ← f.hdr
    .ok (.matchL h t (v = 1) d a)
  | 0x6F => do
    f.plain
    let d ← pred .d f.d
    let a ← pred .a f.a
    let b ← pred .b f.b
    let c ← pred .imm (f.imm.setWidth 10)
    f.immTop 18
    let h ← f.hdr
    .ok (.plop h d a b c ((f.imm >>> 10).setWidth 8))
  | 0x70 => do
    f.plain
    let d ← fld .d f.d (·.reg cx)
    let a ← fld .a f.a (fun o => o.reg cx && o.uni cx d)
    zero .b f.b; f.imm0
    let h ← f.hdr
    .ok (.bget h d a)
  | 0x71 => do
    need .var (v < 2); f.noTy
    let d ← fld .d f.d (·.reg cx)
    let a ← fld .a f.a (fun o => o.src32 cx && o.uni cx d)
    zero .b f.b; f.imm0
    let h ← f.hdr
    .ok (.bset h (v = 1) d a)
  | 0x72 => do
    need .var (v = 0)
    let t ← f.tyIn (fun t => t.isInt || t.isFlt)
    f.rnd0; zero .d f.d
    let a ← fld .a f.a (·.regTy cx t)
    zero .b f.b; f.imm0
    let h ← f.hdr
    .ok (.bchk h t a)
  | 0x73 => do
    need .var (v < 2); f.noTy
    if v = 0 then do
      zero .d f.d
      let a ← fld .a f.a Opnd.scaInl
      zero .b f.b; f.imm0
      let h ← f.hdr
      .ok (.budgSet h a)
    else do
      let d ← fld .d f.d (·.reg cx)
      zero .a f.a; zero .b f.b; f.imm0
      let h ← f.hdr
      .ok (.budgRd h d)
  | 0x74 => f.nul .taskB
  | 0x75 => f.nul .taskE
  | 0x76 => do
    f.plain; zero .d f.d; zero .a f.a; zero .b f.b; f.immTop 1
    let h ← f.hdr
    .ok (.taskX h (f.imm.getLsbD 0))
  | 0x80 => f.mem cx .ld
  | 0x81 => f.mem cx .st
  | 0x82 => f.mem cx .ldb
  | 0x83 => do
    need .var (v = 0)
    let t ← f.tyIn Ty.isInt
    f.rnd0
    let d ← fld .d f.d (·.regTy cx t)
    let a ← fld .a f.a (fun o => o.pair cx && o.uni cx d)
    let b ← fld .b f.b (fun o => o.index cx && o.uni cx d)
    let h ← f.hdr
    .ok (.ldp h t d a b f.imm)
  | 0x84 => do
    let n ← want .var (Cnt.ofCode v)
    let _ ← f.tyIn (· == .n32)
    f.rnd0
    let d ← fld .d f.d (·.data cx .n32 n)
    let a ← fld .a f.a (fun o => o.pair cx && o.uni cx d)
    let b ← fld .b f.b (fun o => o.regInl cx && o.uni cx d)
    let h ← f.hdr
    .ok (.stm h n d a b f.imm)
  | 0x85 => f.mem cx .ldc
  | 0x86 => do
    need .var (v = 0)
    let t ← f.tyIn (fun t => t == .f16 || t == .bf16 || t == .f32)
    f.rnd0
    let d ← fld .d f.d (·.reg cx)
    let a ← fld .a f.a (fun o => o.pair cx && o.uni cx d)
    let b ← fld .b f.b Opnd.scaInl
    let h ← f.hdr
    .ok (.stc h t d a b f.imm)
  | 0x87 => do
    need .var (v < 2)
    f.memN cx (fun h a b o => if v = 0 then .prefL2 h a b o else .prefL1 h a b o)
  | 0x88 => do
    need .var (v < 2)
    if v = 0 then f.memN cx .cinvLine
    else do
      f.noTy; zero .d f.d; zero .a f.a; zero .b f.b; f.imm0
      let h ← f.hdr
      .ok (.cinvAll h)
  | 0x89 => do
    need .var (v < 2)
    if v = 0 then f.memN cx .cwbLine
    else do
      f.noTy; zero .d f.d; zero .a f.a; zero .b f.b; f.imm0
      let h ← f.hdr
      .ok (.cwbAll h)
  | 0xA0 => do
    let op ← want .var (AtOp.ofCode v)
    f.varTy (fun t => t.isInt || t.isF3264) (fun t => atOk t op)
    let t ← f.tyIn (fun t => t.isInt || t.isF3264)
    let r ← f.rndIf (op = .fadd)
    let d ← fld .d f.d (·.regTy cx t)
    let a ← fld .a f.a (fun o => o.pair cx && o.uni cx d)
    let b ← fld .b f.b (fun o => o.srcAt cx t && o.uni cx d)
    let c ← fld .imm (f.imm.setWidth 10) (fun o => if op = .cas then o.srcAt cx t && o.uni cx d else o = .v 0)
    let sc ← want .imm (Scope.ofCode (bitsOf f.imm.toNat 10 3))
    f.immTop 15
    let h ← f.hdr
    .ok (.atom h t op r sc (Ord.ofCode (bitsOf f.imm.toNat 13 2)) d a b c)
  | 0xA1 => do
    let op ← want .var (AtOp.ofCode v)
    need .var (op ≠ .exch ∧ op ≠ .cas)
    f.varTy (fun t => t.isInt || t.isF3264) (fun t => atOk t op)
    let t ← f.tyIn (fun t => t.isInt || t.isF3264)
    let r ← f.rndIf (op = .fadd)
    zero .d f.d
    let a ← fld .a f.a (·.pair cx)
    let b ← fld .b f.b (·.srcAt cx t)
    need .imm (bitsOf f.imm.toNat 0 10 = 0)
    let sc ← want .imm (Scope.ofCode (bitsOf f.imm.toNat 10 3))
    need .imm (bitsOf f.imm.toNat 13 1 = 0); f.immTop 15
    let h ← f.hdr
    .ok (.red h t op r sc (f.imm.getLsbD 14) a b)
  | 0xB0 => do
    need .var (v < 3); f.noTy
    let d ← fld .d f.d (·.vecPair cx)
    let a ← fld .a f.a (·.vecPair cx)
    zero .b f.b; need .imm (optOk cx false false f.imm)
    let h ← f.hdr
    .ok (.cpl h (if v = 0 then .b4 else if v = 1 then .b8 else .b16) d a f.imm)
  | 0xB1 => do need .var (v = 0); Fields.copy cx f false false Opnd.scaInl .cpb
  | 0xB2 => do need .var (v < 2); if v = 0 then Fields.copy cx f true false Opnd.scaPair .cpcCont else Fields.copy cx f true false Opnd.scaPair .cpcLast
  | 0xB3 => do need .var (v < 2); if v = 0 then Fields.copy cx f false true Opnd.scaInl .cpxPut else Fields.copy cx f false true Opnd.scaInl .cpxGet
  | 0xB4 => do
    f.plain
    let d ← fld .d f.d Opnd.scaPair
    let a ← fld .a f.a Opnd.scaPair
    zero .b f.b; f.imm0
    let h ← f.hdr
    .ok (.dcz h d a)
  | 0xC0 => do
    f.plain
    let d ← tdF .d f.d
    let a ← fld .a f.a Opnd.scaPair
    let b ← fld .b f.b Opnd.scaPair
    f.imm0
    let h ← f.hdr
    .ok (.mtd h d a b)
  | 0xC1 => do
    f.plain
    let d ← tdF .d f.d
    let a ← fld .a f.a Opnd.isS
    zero .b f.b; f.immTop 1
    let h ← f.hdr
    .ok (.msd h d a (f.imm.getLsbD 0))
  | 0xC2 => do
    need .var (v = 0)
    let t ← f.tyIn Ty.isMma
    need .rnd (f.rnd = 0)
    let g ← want .gear (GearSel.ofCode f.gear)
    let d ← tileF .d f.d
    let a ← mop .a f.a
    let b ← mop .b f.b
    let tA : BitVec 2 := f.imm.setWidth 2
    let tB : BitVec 2 := (f.imm >>> 2).setWidth 2
    need .imm (match a with | .td _ => tA = 0 | .tile _ => true)
    need .imm (match b with | .td _ => tB = 0 | .tile _ => true)
    f.immTop 4
    let h ← f.hdr
    .ok (.mma h t g d a b tA tB)
  | 0xC3 => do
    f.plain; zero .d f.d; zero .a f.a; zero .b f.b; f.immTop 17
    let h ← f.hdr
    .ok (.mz h (f.imm.setWidth 16) (f.imm.getLsbD 16))
  | 0xC4 => do
    need .var (v = 0)
    let t ← f.tyIn Ty.isMrd
    let r ← f.rndG0
    let n : BitVec 7 := f.imm.setWidth 7
    let d ← vreg .d f.d (fun k => vrange cx k.toNat (mrdRegs t n))
    let a ← tileF .a f.a
    let b ← fld .b f.b Opnd.scaInl
    need .imm (mrdEven t n); f.immTop 7
    let h ← f.hdr
    .ok (.mrd h t r d a b n)
  | 0xC5 => do
    need .var (v = 0)
    let t ← f.tyIn Ty.isMrd
    f.rnd0
    let n : BitVec 7 := f.imm.setWidth 7
    let d ← tileF .d f.d
    let a ← vreg .a f.a (fun k => vrange cx k.toNat (mrdRegs t n))
    let b ← fld .b f.b Opnd.scaInl
    need .imm (mrdEven t n); f.immTop 7
    let h ← f.hdr
    .ok (.mwr h t d a b n)
  | 0xC6 => do
    need .var (v = 0)
    let t ← f.tyIn Ty.isMst
    let r ← f.rndG0
    let d ← tdF .d f.d
    let a ← tileF .a f.a
    zero .b f.b; f.imm0
    let h ← f.hdr
    .ok (.mst h t r d a)
  | 0xC7 => do
    f.plain
    let row := f.a = 0x202 ∨ f.a = 0x203
    let d ← fld .d f.d (fun o => o.reg cx && (o.isV || !row))
    let w ← inl .a f.a (fun x => x.toInt ∈ [0, 1, 2, 3])
    let b ← fld .b f.b (fun o => if row then o.scaInl else o = .v 0)
    f.imm0
    let h ← f.hdr
    .ok (.mstat h d w b)
  | 0xD0 => f.resid 1 (fun h a b x => .lbind h a b (x.getLsbD 0))
  | 0xD1 => f.resid 0 (fun h a b _ => .lrel h a b)
  | 0xD2 => f.resid 8 (fun h a b x => .lhint h a b (x.setWidth 8))
  | 0xD3 => do
    f.plain
    let d ← fld .d f.d (·.pair cx)
    let a ← fld .a f.a Opnd.scaInl
    let b ← fld .b f.b Opnd.scaInl
    f.imm0
    let h ← f.hdr
    .ok (.lstat h d a b)
  | 0xD8 => do
    f.plain
    let n : BitVec 4 := f.imm.setWidth 4
    let d ← vreg .d f.d (fun k => vrange cx k.toNat (n.toNat + 1))
    let a ← fld .a f.a Opnd.scaInl
    let b ← fld .b f.b Opnd.scaInl
    f.immTop 4
    let h ← f.hdr
    .ok (.txch h d a b n)
  | 0xD9 => do
    need .var (v < 4)
    if v = 0 then f.coll 2 (fun h t a b x => .collSum h t a b (x.setWidth 2))
    else if v = 1 then f.coll 0 (fun h t a b _ => .collMax h t a b)
    else if v = 2 then f.coll 0 (fun h t a b _ => .collGath h t a b)
    else f.coll 0 (fun h t a b _ => .collBcst h t a b)
  | 0xE0 => do
    f.plain
    let gen := f.b = 0x201 ∧ Opnd.ofCode f.a = some (.x .laneid)
    match sysReg .a f f.a mfsReg with
    | .ok r =>
      let d ← fld .d f.d (mfsDst cx r)
      need .b (f.b = 0 ∨ gen); f.imm0
      let h ← f.hdr
      .ok (.mfs h d r)
    | .error e =>
      let _ ← fld .d f.d (fun o => o.reg cx)
      .error e
  | 0xE1 => do
    f.plain
    let gen := f.b = 0x201 ∧ Opnd.ofCode f.d = some (.x .laneid)
    let r ← sysReg .d f f.d mtsReg
    let a ← fld .a f.a (mtsSrc cx r)
    need .b (f.b = 0 ∨ gen); f.imm0
    let h ← f.hdr
    .ok (.mts h r a)
  | 0xE2 => f.br .trap
  | 0xE3 => f.nul .rti
  | 0xE4 => f.br .brk
  | 0xE5 => do
    need .var (v < 3)
    f.noTy; zero .d f.d
    if v = 0 then do
      let a ← fld .a f.a Opnd.scaPair
      let b ← fld .b f.b Opnd.scaInl
      f.imm0
      let h ← f.hdr
      .ok (.tinvPage h a b)
    else if v = 1 then do
      zero .a f.a
      let b ← fld .b f.b Opnd.scaInl
      f.imm0
      let h ← f.hdr
      .ok (.tinvCtx h b)
    else do
      zero .a f.a; zero .b f.b; f.imm0
      let h ← f.hdr
      .ok (.tinvAll h)
  | 0xE6 => do
    f.plain
    let d ← if f.d = 0 then .ok none else do
      let o ← fld .d f.d Opnd.scaPair
      .ok (match o with | .s k => some k | _ => none)
    zero .a f.a; zero .b f.b; f.imm0
    let h ← f.hdr
    .ok (.ckpt h d)
  | _ => .error .op

/-- The instruction that a word stands for in a team with limits cx, or the name of its first illegal field (R60).
The all-ones word precedes every other check (R61). -/
def decode (cx : DecCtx) (w : Inst96) : Dec Instr :=
  if w = BitVec.allOnes 96 then .error .ones else decodeFields cx (Fields.ofWord w)

/-- The word that 12 bytes hold: three little-endian 32-bit words at ascending addresses (R40). -/
def wordOfBytes (bs : List Byte) : Inst96 :=
  BitVec.ofNat 96 ((bs.take 12).foldr (fun b acc => b.toNat + 256 * acc) 0)

/-- The 12 bytes of a word in memory (R40). -/
def bytesOfWord (w : Inst96) : List Byte :=
  (List.range 12).map (fun j => BitVec.ofNat 8 (w.toNat / 2 ^ (8 * j)))

/-- The limits under which `decodeTableWord` reads a word: the largest team of R24, IDX0 alone lane-varying, every barrier. -/
def tableCtx : DecCtx := { nRegs := 256, topTeam := 1, nbar := 16, clu := true, stk := true }

/-- The instruction read from a table word of the given bits; the word is laid out and read back as memory holds
it. -/
def decodeTableWord (nbits w : Nat) : Option Instr :=
  match decode tableCtx (wordOfBytes (bytesOfWord (BitVec.ofNat 96 (w % 2 ^ nbits)))) with
  | .ok i => some i
  | .error _ => none

/-! ### The encoder -/

/-- Guard and scheduling fields of a word, with an OP, VAR and TY; every other field zero. -/
def Fields.enc (h : Hdr) (op : BitVec 8) (var : Nat) (ty : BitVec 4) : Fields where
  op := op
  var := BitVec.ofNat 4 var
  ty := ty
  g := BitVec.ofBool h.g.neg ++ h.g.p
  d := 0
  a := 0
  b := 0
  rnd := 0
  gear := 0
  imm := 0
  stall := h.sc.stall
  post := BitVec.ofBool h.sc.post.isSome
  ptok := h.sc.post.getD 0
  wait := BitVec.ofBool h.sc.wait.isSome
  wtok := (h.sc.wait.map Prod.fst).getD 0
  wthr := (h.sc.wait.map Prod.snd).getD 0

/-- A predicate, token, descriptor or tile field. -/
def pF (n : BitVec 3) : BitVec 10 := Opnd.code (.x (.p n))
def kF (n : BitVec 5) : BitVec 10 := Opnd.code (.x (.k n))
def tdC (n : BitVec 4) : BitVec 10 := Opnd.code (.x (.td n))
def aC (n : BitVec 4) : BitVec 10 := Opnd.code (.x (.a n))
def MOp.code : MOp → BitVec 10
  | .td n => tdC n
  | .tile n => aC n
/-- The register field and the B field that name a special register for `mfs` and `mts` (R407). -/
def SysReg.code : SysReg → BitVec 10
  | .sp r => Opnd.code (.x r)
  | .gen => Opnd.code (.x .laneid)
def SysReg.bCode : SysReg → BitVec 10
  | .sp _ => 0
  | .gen => 0x201
def bitOf (b : Bool) : Nat := if b then 1 else 0
/-- A boolean flag at bit n of IMM. -/
def immBit (b : Bool) (n : Nat) : BitVec 20 := BitVec.ofNat 20 (bitOf b * 2 ^ n)

open Fields in
/-- The fields of an instruction's word (R58 and the entries); none for the machine's other steps, which no word
stands for. -/
def Instr.fields : Instr → Option Fields
  | .nop h => some (enc h 0x00 0 0)
  | .dly h n => some { enc h 0x01 0 0 with imm := n.setWidth 20 }
  | .bra h x => some { enc h 0x02 0 0 with imm := x }
  | .brx h a => some { enc h 0x03 0 0 with a := a.code }
  | .call h x => some { enc h 0x04 0 0 with imm := x }
  | .calx h a => some { enc h 0x05 0 0 with a := a.code }
  | .ret h => some (enc h 0x06 0 0)
  | .exit h => some (enc h 0x07 0 0)
  | .rcv h x => some { enc h 0x08 0 0 with imm := x }
  | .rjoin h => some (enc h 0x09 0 0)
  | .rjoinTo h d a => some { enc h 0x09 1 0 with d := pF d, a := a.code }
  | .exmRd h d w => some { enc h 0x0A 0 0 with d := d.code, a := Opnd.code (.i w) }
  | .exmWr h a => some { enc h 0x0A 1 0 with a := a.code }
  | .exmAnd h a => some { enc h 0x0A 2 0 with a := a.code }
  | .exmOr h a => some { enc h 0x0A 3 0 with a := a.code }
  | .yield h a n x => some { enc h 0x0B 0 0 with a := a.code, b := Opnd.code (.i (n.setWidth 8 + 1)), imm := x }
  | .waitcAny h d a b n => some { enc h 0x0C 0 0 with d := (match d with | some p => pF p | none => 0), a := a.code, b := b.code, imm := n.setWidth 20 }
  | .waitcAll h d a b n => some { enc h 0x0C 1 0 with d := (match d with | some p => pF p | none => 0), a := a.code, b := b.code, imm := n.setWidth 20 }
  | .kwait h k x m => some { enc h 0x10 0 0 with a := kF k, imm := x.setWidth 20 ||| immBit m 8 }
  | .kset h k x m => some { enc h 0x11 0 0 with a := kF k, imm := x.setWidth 20 ||| immBit m 8 }
  | .kadd h k x m => some { enc h 0x13 0 0 with a := kF k, imm := x.setWidth 20 ||| immBit m 8 }
  | .krd h d k b => some { enc h 0x12 0 0 with d := d.code, a := kF k, b := b.code }
  | .barInit h a b => some { enc h 0x14 0 0 with a := a.code, b := b.code }
  | .barArv h s a w => some { enc h 0x15 s.code 0 with a := a.code, imm := immBit w 0 }
  | .barExp h a b => some { enc h 0x16 0 0 with a := a.code, b := b.code }
  | .barRd h d a w => some { enc h 0x17 0 0 with d := d.code, a := a.code, b := Opnd.code (.i w) }
  | .tlRd h d a w => some { enc h 0x18 0 0 with d := d.code, a := a.code, b := Opnd.code (.i w) }
  | .tlSig h s a b ad => some { enc h 0x19 s.code 0 with a := a.code, b := b.code, imm := immBit ad 0 }
  | .fence h s o => some { enc h 0x1A s.code 0 with imm := BitVec.ofNat 20 o.code }
  | .add h t sa d a b => some { enc h 0x20 (bitOf sa) t.code with d := d.code, a := a.code, b := b.code }
  | .sub h t sa d a b => some { enc h 0x21 (bitOf sa) t.code with d := d.code, a := a.code, b := b.code }
  | .mul h t d a b => some { enc h 0x22 0 t.code with d := d.code, a := a.code, b := b.code }
  | .mulh h t d a b => some { enc h 0x23 0 t.code with d := d.code, a := a.code, b := b.code }
  | .div h t d a b => some { enc h 0x26 0 t.code with d := d.code, a := a.code, b := b.code }
  | .rem h t d a b => some { enc h 0x27 0 t.code with d := d.code, a := a.code, b := b.code }
  | .min h t d a b => some { enc h 0x28 0 t.code with d := d.code, a := a.code, b := b.code }
  | .max h t d a b => some { enc h 0x29 0 t.code with d := d.code, a := a.code, b := b.code }
  | .and h t d a b => some { enc h 0x2C 0 t.code with d := d.code, a := a.code, b := b.code }
  | .or h t d a b => some { enc h 0x2D 0 t.code with d := d.code, a := a.code, b := b.code }
  | .xor h t d a b => some { enc h 0x2E 0 t.code with d := d.code, a := a.code, b := b.code }
  | .andn h t d a b => some { enc h 0x30 0 t.code with d := d.code, a := a.code, b := b.code }
  | .shl h t d a b => some { enc h 0x31 0 t.code with d := d.code, a := a.code, b := b.code }
  | .shr h t d a b => some { enc h 0x31 1 t.code with d := d.code, a := a.code, b := b.code }
  | .sar h t d a b => some { enc h 0x31 2 t.code with d := d.code, a := a.code, b := b.code }
  | .rol h t d a b => some { enc h 0x31 3 t.code with d := d.code, a := a.code, b := b.code }
  | .mad h t sa d a b c => some { enc h 0x24 (bitOf sa) t.code with d := d.code, a := a.code, b := b.code, imm := c.code.setWidth 20 }
  | .madh h t d a b c => some { enc h 0x25 0 t.code with d := d.code, a := a.code, b := b.code, imm := c.code.setWidth 20 }
  | .fshL h t d a b c => some { enc h 0x32 0 t.code with d := d.code, a := a.code, b := b.code, imm := c.code.setWidth 20 }
  | .fshR h t d a b c => some { enc h 0x32 1 t.code with d := d.code, a := a.code, b := b.code, imm := c.code.setWidth 20 }
  | .bfx h t d a b c => some { enc h 0x34 0 t.code with d := d.code, a := a.code, b := b.code, imm := c.code.setWidth 20 }
  | .bfi h t d a b c => some { enc h 0x35 0 t.code with d := d.code, a := a.code, b := b.code, imm := c.code.setWidth 20 }
  | .abs h t sa d a => some { enc h 0x2A (bitOf sa) t.code with d := d.code, a := a.code }
  | .neg h t sa d a => some { enc h 0x2B (bitOf sa) t.code with d := d.code, a := a.code }
  | .not h t d a => some { enc h 0x2F 0 t.code with d := d.code, a := a.code }
  | .mov h t d a => some { enc h 0x38 0 t.code with d := d.code, a := a.code }
  | .popc h t d a => some { enc h 0x33 0 t.code with d := d.code, a := a.code }
  | .clz h t d a => some { enc h 0x33 1 t.code with d := d.code, a := a.code }
  | .ctz h t d a => some { enc h 0x33 2 t.code with d := d.code, a := a.code }
  | .brev h t d a => some { enc h 0x33 3 t.code with d := d.code, a := a.code }
  | .setp h t c d a b => some { enc h 0x36 c.code t.code with d := pF d, a := a.code, b := b.code }
  | .sel h t d a b p => some { enc h 0x37 0 t.code with d := d.code, a := a.code, b := b.code, imm := (pF p).setWidth 20 }
  | .movi h t d x => some { enc h 0x39 0 t.code with d := d.code, imm := x }
  | .movh h d x => some { enc h 0x3A 0 6 with d := d.code, imm := x.setWidth 20 }
  | .lea h sh d a b => some { enc h 0x3B sh.toNat 7 with d := d.code, a := a.code, b := b.code }
  | .fadd h t r d a b => some { enc h 0x40 0 t.code with d := d.code, a := a.code, b := b.code, rnd := r.code }
  | .fsub h t r d a b => some { enc h 0x41 0 t.code with d := d.code, a := a.code, b := b.code, rnd := r.code }
  | .fdiv h t r d a b => some { enc h 0x4C 0 t.code with d := d.code, a := a.code, b := b.code, rnd := r.code }
  | .fscl h t r d a b => some { enc h 0x52 0 t.code with d := d.code, a := a.code, b := b.code, rnd := r.code }
  | .fmul h t r g d a b => some { enc h 0x42 0 t.code with d := d.code, a := a.code, b := b.code, rnd := r.code, gear := g.code }
  | .ffma h t r g d a b c => some { enc h 0x43 0 t.code with d := d.code, a := a.code, b := b.code, rnd := r.code, gear := g.code, imm := c.code.setWidth 20 }
  | .fdot2 h t r g d a b c => some { enc h 0x56 0 t.code with d := d.code, a := a.code, b := b.code, rnd := r.code, gear := g.code, imm := c.code.setWidth 20 }
  | .fdot4 h t r g d a b c => some { enc h 0x57 0 t.code with d := d.code, a := a.code, b := b.code, rnd := r.code, gear := g.code, imm := c.code.setWidth 20 }
  | .fmin h t n d a b => some { enc h 0x44 (bitOf n) t.code with d := d.code, a := a.code, b := b.code }
  | .fmax h t n d a b => some { enc h 0x45 (bitOf n) t.code with d := d.code, a := a.code, b := b.code }
  | .fabs h t d a => some { enc h 0x46 0 t.code with d := d.code, a := a.code }
  | .fneg h t d a => some { enc h 0x47 0 t.code with d := d.code, a := a.code }
  | .frcp h t d a => some { enc h 0x49 0 t.code with d := d.code, a := a.code }
  | .frsq h t d a => some { enc h 0x4A 0 t.code with d := d.code, a := a.code }
  | .fxpn h t d a => some { enc h 0x53 0 t.code with d := d.code, a := a.code }
  | .fclass h t d a => some { enc h 0x55 0 t.code with d := d.code, a := a.code }
  | .fsqrt h t r d a => some { enc h 0x4B 0 t.code with d := d.code, a := a.code, rnd := r.code }
  | .frnd h t r d a => some { enc h 0x54 0 t.code with d := d.code, a := a.code, rnd := r.code }
  | .fexp2 h d a => some { enc h 0x4D 0 0xA with d := d.code, a := a.code }
  | .flog2 h d a => some { enc h 0x4E 0 0xA with d := d.code, a := a.code }
  | .fsin h d a => some { enc h 0x4F 0 0xA with d := d.code, a := a.code }
  | .fcos h d a => some { enc h 0x50 0 0xA with d := d.code, a := a.code }
  | .ftanh h d a => some { enc h 0x51 0 0xA with d := d.code, a := a.code }
  | .fsetp h t c d a b => some { enc h 0x48 c.code t.code with d := pF d, a := a.code, b := b.code }
  | .cvt h t s r d a => some { enc h 0x60 s.code.toNat t.code with d := d.code, a := a.code, rnd := r.code }
  | .pack h t q d a => some { enc h 0x61 q.toNat t.code with d := d.code, a := a.code }
  | .unpack h t q d a => some { enc h 0x62 q.toNat t.code with d := d.code, a := a.code }
  | .shfl h t m d a b => some { enc h 0x68 (match m with | .idx => 0 | .up => 1 | .down => 2 | .xor => 3) t.code with d := d.code, a := a.code, b := b.code }
  | .vote h m d a => some { enc h 0x69 (match m with | .any => 0 | .all => 1 | .bal => 2 | .eq => 3) 0 with d := d.code, a := pF a }
  | .wred h t op r d a => some { enc h 0x6A op.code t.code with d := d.code, a := a.code, rnd := r.code }
  | .wscan h t op ex r d a => some { enc h 0x6B (op.code + 8 * bitOf ex) t.code with d := d.code, a := a.code, rnd := r.code }
  | .rdlane h t d a b => some { enc h 0x6C 0 t.code with d := d.code, a := a.code, b := b.code }
  | .wrlane h t d a b => some { enc h 0x6D 0 t.code with d := d.code, a := a.code, b := b.code }
  | .matchL h t al d a => some { enc h 0x6E (bitOf al) t.code with d := d.code, a := a.code }
  | .plop h d a b c tt => some { enc h 0x6F 0 0 with d := pF d, a := pF a, b := pF b, imm := (pF c).setWidth 20 ||| (tt.setWidth 20 <<< 10) }
  | .bget h d a => some { enc h 0x70 0 0 with d := d.code, a := a.code }
  | .bset h sa d a => some { enc h 0x71 (bitOf sa) 0 with d := d.code, a := a.code }
  | .bchk h t a => some { enc h 0x72 0 t.code with a := a.code }
  | .budgSet h a => some { enc h 0x73 0 0 with a := a.code }
  | .budgRd h d => some { enc h 0x73 1 0 with d := d.code }
  | .taskB h => some (enc h 0x74 0 0)
  | .taskE h => some (enc h 0x75 0 0)
  | .taskX h r => some { enc h 0x76 0 0 with imm := immBit r 0 }
  | .ld h t n d a b x => some { enc h 0x80 n.code t.code with d := d.code, a := a.code, b := b.code, imm := x }
  | .st h t n d a b x => some { enc h 0x81 n.code t.code with d := d.code, a := a.code, b := b.code, imm := x }
  | .ldb h t n d a b x => some { enc h 0x82 n.code t.code with d := d.code, a := a.code, b := b.code, imm := x }
  | .ldc h t n d a b x => some { enc h 0x85 n.code t.code with d := d.code, a := a.code, b := b.code, imm := x }
  | .ldp h t d a b x => some { enc h 0x83 0 t.code with d := d.code, a := a.code, b := b.code, imm := x }
  | .stm h n d a b x => some { enc h 0x84 n.code 6 with d := d.code, a := a.code, b := b.code, imm := x }
  | .stc h t d a b x => some { enc h 0x86 0 t.code with d := d.code, a := a.code, b := b.code, imm := x }
  | .prefL2 h a b x => some { enc h 0x87 0 0 with a := a.code, b := b.code, imm := x }
  | .prefL1 h a b x => some { enc h 0x87 1 0 with a := a.code, b := b.code, imm := x }
  | .cinvLine h a b x => some { enc h 0x88 0 0 with a := a.code, b := b.code, imm := x }
  | .cwbLine h a b x => some { enc h 0x89 0 0 with a := a.code, b := b.code, imm := x }
  | .cinvAll h => some (enc h 0x88 1 0)
  | .cwbAll h => some (enc h 0x89 1 0)
  | .atom h t op r s o d a b c => some { enc h 0xA0 op.code t.code with d := d.code, a := a.code, b := b.code, rnd := r.code, imm := c.code.setWidth 20 ||| BitVec.ofNat 20 (s.code * 2 ^ 10 + o.code * 2 ^ 13) }
  | .red h t op r s rl a b => some { enc h 0xA1 op.code t.code with a := a.code, b := b.code, rnd := r.code, imm := BitVec.ofNat 20 (s.code * 2 ^ 10 + bitOf rl * 2 ^ 14) }
  | .cpl h z d a x => some { enc h 0xB0 (match z with | .b4 => 0 | .b8 => 1 | .b16 => 2) 0 with d := d.code, a := a.code, imm := x }
  | .cpb h d a b x => some { enc h 0xB1 0 0 with d := d.code, a := a.code, b := b.code, imm := x }
  | .cpcCont h d a b x => some { enc h 0xB2 0 0 with d := d.code, a := a.code, b := b.code, imm := x }
  | .cpcLast h d a b x => some { enc h 0xB2 1 0 with d := d.code, a := a.code, b := b.code, imm := x }
  | .cpxPut h d a b x => some { enc h 0xB3 0 0 with d := d.code, a := a.code, b := b.code, imm := x }
  | .cpxGet h d a b x => some { enc h 0xB3 1 0 with d := d.code, a := a.code, b := b.code, imm := x }
  | .dcz h d a => some { enc h 0xB4 0 0 with d := d.code, a := a.code }
  | .mtd h d a b => some { enc h 0xC0 0 0 with d := tdC d, a := a.code, b := b.code }
  | .msd h d a en => some { enc h 0xC1 0 0 with d := tdC d, a := a.code, imm := immBit en 0 }
  | .mma h t g d a b tA tB => some { enc h 0xC2 0 t.code with d := aC d, a := a.code, b := b.code, gear := g.code, imm := BitVec.ofNat 20 (tA.toNat + 4 * tB.toNat) }
  | .mz h m r => some { enc h 0xC3 0 0 with imm := m.setWidth 20 ||| immBit r 16 }
  | .mrd h t r d a b n => some { enc h 0xC4 0 t.code with d := Opnd.code (.v d), a := aC a, b := b.code, rnd := r.code, imm := n.setWidth 20 }
  | .mwr h t d a b n => some { enc h 0xC5 0 t.code with d := aC d, a := Opnd.code (.v a), b := b.code, imm := n.setWidth 20 }
  | .mst h t r d a => some { enc h 0xC6 0 t.code with d := tdC d, a := aC a, rnd := r.code }
  | .mstat h d w b => some { enc h 0xC7 0 0 with d := d.code, a := Opnd.code (.i w), b := b.code }
  | .lbind h a b r => some { enc h 0xD0 0 0 with a := a.code, b := b.code, imm := immBit r 0 }
  | .lrel h a b => some { enc h 0xD1 0 0 with a := a.code, b := b.code }
  | .lhint h a b n => some { enc h 0xD2 0 0 with a := a.code, b := b.code, imm := n.setWidth 20 }
  | .lstat h d a b => some { enc h 0xD3 0 0 with d := d.code, a := a.code, b := b.code }
  | .txch h d a b n => some { enc h 0xD8 0 0 with d := Opnd.code (.v d), a := a.code, b := b.code, imm := n.setWidth 20 }
  | .collSum h t a b c => some { enc h 0xD9 0 t.code with a := a.code, b := b.code, imm := c.setWidth 20 }
  | .collMax h t a b => some { enc h 0xD9 1 t.code with a := a.code, b := b.code }
  | .collGath h t a b => some { enc h 0xD9 2 t.code with a := a.code, b := b.code }
  | .collBcst h t a b => some { enc h 0xD9 3 t.code with a := a.code, b := b.code }
  | .mfs h d r => some { enc h 0xE0 0 0 with d := d.code, a := r.code, b := r.bCode }
  | .mts h r a => some { enc h 0xE1 0 0 with d := r.code, a := a.code, b := r.bCode }
  | .trap h x => some { enc h 0xE2 0 0 with imm := x }
  | .rti h => some (enc h 0xE3 0 0)
  | .brk h x => some { enc h 0xE4 0 0 with imm := x }
  | .tinvPage h a b => some { enc h 0xE5 0 0 with a := a.code, b := b.code }
  | .tinvCtx h b => some { enc h 0xE5 1 0 with b := b.code }
  | .tinvAll h => some (enc h 0xE5 2 0)
  | .ckpt h d => some { enc h 0xE6 0 0 with d := (match d with | some k => Opnd.code (.s k) | none => 0) }
  | .dlyExpiry .. | .stallExpiry .. | .rjoinTimeoutExpiry .. | .yieldReactivation .. | .waitcSatisfied ..
  | .waitcTimeoutExpiry .. | .loadHoldTimeout .. | .tokenCompletion .. | .copyCommandComplete .. | .dczBlock ..
  | .matrixCommandAccept .. | .matrixCommandExecute .. | .leaseGrant .. | .tileSpill .. | .sideLogReplay ..
  | .txchTimeout .. | .collContribution .. | .collTimerExpiry .. | .collResult .. | .swapRequestStart
  | .layerArrivalComplete .. | .layerArrivalFailure .. | .residencyWordWrite .. | .mdescWriteEnable ..
  | .mdescWriteDisable .. | .trapEntry .. | .hrespRelease .. | .hrespDiscard .. | .frespRetry .. | .frespDecline ..
  | .faultAnswerTimeout .. | .queueNotify .. | .qstatHltClear .. | .launchPacketStart .. | .waitPacketStart ..
  | .waitPacketEnd .. | .waitPacketTimeout .. | .signalPacketStart .. | .ckptPacketStart .. | .groupPlacement ..
  | .intervalOpen .. | .uncorrectableError .. | .rollback .. | .rbcfgEnable .. | .shadowSwap ..
  | .swapBankActivate .. | .shadowSpill .. | .shadowFill .. | .spillFillComplete .. | .mxcfgClre ..
  | .correctedError .. | .spareTakeover .. | .patrolScrub .. | .flitReplay .. | .rimFrameReceive ..
  | .rimFrameResend .. | .rimGiveup .. | .rimPortDown .. | .rimPortUp .. | .peerRequest .. | .riminjArm ..
  | .sessionSetup .. | .sessionSetupComplete .. | .sessionTeardown .. | .sessionRekey .. | .hostWrite ..
  | .hostSnoop .. | .cxlPoison .. | .cxlLinkDown .. | .spdmPskExchange | .spdmKeyLoad .. | .spdmKeyErase ..
  | .spdmChallenge | .spdmMeasurements | .coldReset .. | .warmReset .. | .brcfgLock .. | .stkpwrVrstSet ..
  | .stkpwrVrstClear .. | .vrdyReady .. | .powerWindow .. | .configRegisterWrite .. | .modulePowerOff => none

/-- The word of an instruction; none for the machine's other steps. -/
def encode (i : Instr) : Option Inst96 := i.fields.map Fields.toWord

end Sys2Proof
end

