-- ==== Sys2Proof/Machine/State.lean ====
section
/-! DEFINITION. The state of the GX7 as plain data: teams, groups, cores, the hub and the package; the two ways a step
can stop; and the state after reset. -/

namespace Sys2Proof.Machine

/-- A table keyed by number, in ascending key order; a key that is not listed holds its default. -/
abbrev Tbl (α : Type) := List (Nat × α)

/-! ### Stops -/

/-- Why the machine stops with a fault. -/
inductive Fault where
  /-- An agent of the package used a physical address in the range that R327 reserves, or read or wrote configuration
  space as memory, through a ring, region or table base that system software placed there. No PTE leads there
  (R333). Raised by the hub's physical accesses. Safe: the spec gives such an access no outcome. -/
  | reservedPa
  deriving DecidableEq, Repr

/-- Why the machine has no meaning for a step. -/
inductive Refusal where
  /-- An instruction or event whose meaning has not been written. Safe. -/
  | notModelled (mnemonic : String)
  deriving DecidableEq, Repr

/-! ### Registers of a team -/

/-- One lane of a vector register, or a scalar register: the value and its EB16 shadow bound (R24, R121, R183). -/
structure RegCell where
  val : Word
  bnd : Half
  deriving DecidableEq, Repr

/-- The 64 lanes of a vector register. -/
abbrev Row := List RegCell

/-- A predicate register: truth and doubt, a bit a lane (R98). -/
structure Pred where
  t : Mask
  d : Mask
  deriving DecidableEq, Repr

/-- A completion token (R105). -/
structure Token where
  count : Nat
  err   : Bool
  cause : Nat
  ovf   : Bool
  deriving DecidableEq, Repr

/-- The two token banks of a team (R105). -/
inductive Bank where
  | normal | trap
  deriving DecidableEq, Repr

/-- One lane of a vector register write; an absent part is left as it stands. -/
structure LaneUpd where
  lane : Nat
  val  : Option Word
  bnd  : Option Half
  deriving DecidableEq, Repr

/-- A write of architectural state that lands later (R102, R108). -/
inductive Upd where
  | vec (r : Nat) (ls : List LaneUpd)
  | sca (r : Nat) (val : Option Word) (bnd : Option Half)
  | prd (p : Nat) (m t d : Mask)
  | exm (v : Mask)
  deriving DecidableEq, Repr

/-- A pending effect of a fixed-latency or Issue-class instruction: a write (R104), the count of a token (R106), or the
effect of a `kset` or a `kadd`, which waits see in the next clk and to which the counts that arrive in its own clk are
added (R118). `due` is the first clk whose instructions see it. -/
inductive PendAct where
  | upd (u : Upd)
  | post (b : Bank) (tok : Nat) (err : Option Nat)
  | kset (b : Bank) (tok v : Nat)
  | kadd (b : Bank) (tok : Nat) (d : Int)
  deriving DecidableEq, Repr

structure Pend where
  due : Nat
  pid : Nat
  act : PendAct
  deriving DecidableEq, Repr

/-- Kind of a reconvergence stack entry (R124). -/
inductive EKind where
  | join | path
  deriving DecidableEq, Repr

/-- A reconvergence stack entry (R124); `bad` marks one that an uncorrectable error has struck (R397). -/
structure Entry where
  kind : EKind
  used : Bool
  spl  : Bool
  frag : Bool
  pc   : BitVec 54
  mask : Mask
  bad  : Bool
  deriving DecidableEq, Repr

/-- How the hold of an access ended (R335, R351, R354): open while it lasts, or mapped and arrived; else what it met,
which stands whatever comes later. -/
inductive Fate where
  | open | declined | timeout | failed
  deriving DecidableEq, Repr

/-- What holds a path at its next instruction (R32, R100). `inside` is an instruction that has issued and holds its
fragment: the clk and the rt tick of its issue, values it read then, a stage of its work, the 4 KiB pages or the layer
it waits for and the fate of that wait; of a declined wait only the declined page is left. `fetch` is a hold of instruction fetch (R41). -/
inductive Hold where
  | free
  | inside (i : Instr) (clk0 rt0 : Nat) (cap : List Nat) (stage : Nat) (pages : List Nat) (layer : Option Nat) (fate : Fate)
  | fetch (rt0 : Nat) (page layer : Option Nat) (fate : Fate)
  deriving DecidableEq, Repr

/-- A stall or `dly` countdown (R101, R117): the clk from which the path may issue. Frozen countdowns of a parked bank
hold the clk that remain (R34). -/
inductive Countdown where
  | none | stall (at_ : Nat) | dly (at_ : Nat) | frozen (isDly : Bool) (rest : Nat)
  deriving DecidableEq, Repr

/-- The completion units of R107. -/
inductive CUnit where
  | mem | copy | dec | sfu | idiv | matrix | resid | tandem | coll | sys
  deriving DecidableEq, Repr

/-- What a token-class instruction that holds its fragment after issue has of the operation that it will make (R100, R107,
R113): the operation's number, which is in issue order, its unit and its post, and the register lanes that it will write,
with those of them written meanwhile (R111). -/
structure Claim where
  num   : Nat
  cunit : CUnit
  post  : Option (Bank × Nat)
  dst   : List Nat
  clash : List Nat
  deriving DecidableEq, Repr

/-- A path (R123) that runs as the unsplit path or as a fragment. `pc` has 64 bits so that a target outside the global
window can be fetched and refused (R41). `pid` names the path for writes in flight (R128). `claim` belongs to `hold`, where that is
`inside` a token-class instruction. -/
structure Path where
  pid       : Nat
  pc        : BitVec 64
  exm       : Mask
  pmask     : Mask
  cd        : Countdown
  hold      : Hold
  claim     : Option Claim
  spin      : Nat
  demoted   : Bool
  lastIssue : Nat
  ended     : Bool
  deriving DecidableEq, Repr

/-- The life of a team (R32). -/
inductive Life where
  | resident | parked | haltered | draining | retired
  deriving DecidableEq, Repr

/-- The interrupted path while a handler runs (R380, R382): its fragment, and the path as it stood. -/
structure Intr where
  frag  : Bool
  split : Bool
  path  : Path
  deriving DecidableEq, Repr

/-- The causes of R378. -/
inductive Cause where
  | illop | underwait | breach | kerr | kovf | illconv | dstack | xlat | swapf | align | priv | taskop | ecc | trap
  deriving DecidableEq, Repr

/-- A trap or halter that a team takes as soon as its entry can complete (R382). -/
structure PendTrap where
  frag  : Bool
  cause : Cause
  sub   : Nat
  val   : Dword
  epc   : BitVec 56
  deriving DecidableEq, Repr

/-- A version line of an open task (R196): written bytes by offset, word bounds by word, and poison; the virtual line
and the PTE of the first store to it. -/
structure VLine where
  vline  : Nat
  pte    : Quad
  bytes  : Tbl Byte
  bnds   : Tbl Half
  poison : Bool
  deriving DecidableEq, Repr

/-- What makes a task re-run (R199, R201). -/
inductive Rerun where
  | breach (sub lane : Nat)
  | capacity
  deriving DecidableEq, Repr

/-- An open versioned task (R195). `pre` lists the posts, since `task.b`, of operations issued before it (R200);
`rerun` is a rollback that waits for the attempt's operations, with the clk of the breach. -/
structure Task where
  pc        : BitVec 56
  exm       : Mask
  pmask     : Mask
  stack     : List Entry
  spill     : Nat
  preds     : Tbl Pred
  toks      : Tbl Token
  gens      : List Word
  mode      : Word
  budg      : Word
  firstOp   : Nat
  pre       : List (Nat × Option Nat)
  floor     : Nat
  try_      : Nat
  nonspec   : Bool
  breach    : Option Mask
  lines     : Tbl VLine
  rerun     : Option (Nat × Rerun)
  deriving DecidableEq, Repr

/-- A tile descriptor (R222): tile record and scale record. -/
structure TileDesc where
  tile  : Quad
  scale : Word
  deriving DecidableEq, Repr

/-- A team (R24, R32, R120). `p0` is the running path, or fragment 0 of a split team; `p1` is fragment 1. `drainAt` is
the clk in which its last lane exited (R34). -/
structure Team where
  life     : Life
  launch   : Nat
  group    : Nat
  ctx      : Nat
  core     : Nat
  quad     : Nat
  slot     : Nat
  teamid   : Nat
  linear   : Nat
  nRegs    : Nat
  topTeam  : Nat
  topGroup : Nat
  dims     : List Nat
  gidx     : Nat
  modelid  : Word
  sb       : Nat
  sl       : Nat
  v        : Tbl Row
  s        : Tbl RegCell
  p        : Tbl Pred
  gens     : List Word
  exited   : Mask
  split    : Bool
  p0       : Path
  p1       : Path
  stack    : List Entry
  spill    : Nat
  tokN     : Tbl Token
  tokT     : Tbl Token
  pend     : List Pend
  mode     : Word
  budg     : Word
  bstat    : Dword
  task     : Option Task
  tcause   : Word
  tepc     : BitVec 56
  tval     : Dword
  tfr      : BitVec 56
  tfrag    : Quad
  intr     : Option Intr
  pendTrap : Option PendTrap
  perm     : Option (Nat × Nat)
  sideLost : Bool
  drainAt  : Nat
  hval     : Dword
  td       : Tbl TileDesc
  corrupt  : List ErrSite
  deriving DecidableEq, Repr

/-! ### Memory accesses and outstanding operations -/

/-- Where a run of bytes lies: in a group's scratchpad, at a physical address under a PTE, or on a page that is not
mapped (a store that enters the side log). -/
inductive Place where
  | scr (group off : Nat)
  | mem (va pa : Nat) (pte : Quad)
  | side (va : Nat)
  deriving DecidableEq, Repr

/-- A run of bytes of one access within one line. -/
structure Chunk where
  at_ : Place
  len : Nat
  deriving DecidableEq, Repr

/-- The access of one lane (R273). -/
structure Acc where
  lane   : Nat
  chunks : List Chunk
  deriving DecidableEq, Repr

/-- A run of bytes to be written, with the bound of its data (R256). Bits that `keep` sets stay as they are (R262); an
empty `keep` keeps none; `psn` poisons the line (R220). -/
structure Wr where
  c    : Chunk
  bs   : List Byte
  keep : List Byte
  bnd  : Half
  psn  : Bool
  deriving DecidableEq, Repr

/-- Which level serves a load (R266, R267). -/
inductive Via where
  | l1 | next | home | comp
  deriving DecidableEq, Repr

/-- A read-modify-write of one lane (R292): place, operand, compare operand. -/
structure Rmw where
  lane : Nat
  at_  : List Chunk
  b    : Dword
  c    : Dword
  gen  : Word
  deriving DecidableEq, Repr

/-- What an outstanding token-class operation still has to do. -/
inductive Work where
  /-- Results known; nothing is left but to complete. -/
  | done (us : List Upd)
  /-- Failed with a cause of R109; writes nothing. -/
  | fail (cause : Nat)
  | load (via : Via) (ty : Ty) (d : Opnd) (n : Nat) (accs : List Acc)
  | store (ws : List Wr) (err : Option Nat)
  | atom (ty : Ty) (op : AtOp) (m : RndSel) (ftz : Bool) (d : Option Opnd) (rs : List Rmw)
  | pref (l1 : Bool) (vas : List Nat)
  | cinv (vls : Option (List Nat))
  | cwb (vas : Option (List Nat))
  | tinvPage (ctx va : Nat) | tinvCtx (ctx : Nat) | tinvAll
  /-- A `tinv` that has dropped, and waits for the operations that used what it dropped (R340). -/
  | drop (ids : List Nat)
  /-- Held by an engine or an agent, which finishes it by turning it into `done` or `fail`. -/
  | engine
  | lbind (ctx layer : Nat)
  | txch (pair : Nat) (em : Mask) (d n : Nat) (rows : List Row) (rt0 : Nat) (tmo : Option Nat)
  /-- An exchange that has met its partner (R431): what it writes or its error, and the partner's operation. -/
  | both (us : List Upd) (err : Option Nat) (peer : Nat)
  | coll
  deriving DecidableEq, Repr

/-- An outstanding token-class operation, issued in clk `at_`. `dst` lists the register lanes that it will write, and
`clash` those of them written meanwhile (R111); `pid` names the path that issued it, whose spin counter its results
clear, and `casPid` is that path again for a compare-and-swap that may demote it (R38). `lines` counts the line operations
that it keeps in flight (R265); `inVer` tells one whose accesses lie in the version of a task (R290). -/
structure Op where
  at_   : Nat
  team  : Nat
  frag  : Nat
  pid   : Nat
  cunit : CUnit
  post  : Option (Bank × Nat)
  inH   : Bool
  dst   : List Nat
  clash : List Nat
  casPid : Option Nat
  lines : Nat
  inVer : Bool
  work  : Work
  deriving DecidableEq, Repr

/-! ### Groups -/

/-- An arrival that has not counted yet: its clk, the path that it holds and whether that path waits for the phase too
(R320), and the error of an engine arrival (R309). -/
structure Arrive where
  at_ : Nat
  pid : Option Nat
  wait : Bool
  err : Option Nat
  deriving DecidableEq, Repr

/-- A named barrier (R307). `held` lists arrivals that have not counted, oldest first; `inn` the paths whose arrival
has counted in the current phase and that wait for it (R320). `told` is TXB as it stood before the clk `tclk`; `initAt` is
the clk of the latest `bar.init` (R312). -/
structure Barrier where
  exp     : Nat
  arr     : Nat
  txb     : Int
  byt     : Nat
  err     : Bool
  cause   : Nat
  ph      : BitVec 16
  lerr    : Bool
  lcause  : Nat
  lshort  : Bool
  lbyt    : Nat
  held    : List Arrive
  inn     : List Nat
  tclk    : Nat
  told    : Int
  initAt  : Option Nat
  deriving DecidableEq, Repr

/-- Where a copy reads or writes (R318): a global or scratchpad address, or an address at the peer. -/
inductive CopyEnd where
  | local_ (addr : Nat)
  | peer (va : Nat)
  deriving DecidableEq, Repr

/-- The copy instructions as the engine sees them (R318). -/
inductive CopyKind where
  | cpl | cpb | cont | last (crc : Word) | put | get
  deriving DecidableEq, Repr

/-- One segment of a copy command: `cpl` has one a lane; bytes of a stack window are segments of their words. -/
structure Seg where
  src  : CopyEnd
  dst  : CopyEnd
  size : Nat
  deriving DecidableEq, Repr

/-- A command as its instruction asks for it: kind, session, barrier with ARV, segments. -/
structure CopyReq where
  kind : CopyKind
  ses  : Option Nat
  bar  : Option (Nat × Bool)
  segs : List Seg
  deriving DecidableEq, Repr

/-- A part of a copy that lies in one line of its source and one of its destination: its bytes with their bounds and
poison once they are read, and whether they have been written (R297). -/
structure CopyPart where
  seg  : Seg
  bs   : Option (List (Byte × Half × Bool))
  done : Bool
  deriving DecidableEq, Repr

/-- A copy command in its context's queue (R296). -/
structure CopyCmd where
  num    : Nat
  op     : Nat
  kind   : CopyKind
  parts  : List CopyPart
  ses    : Option Nat
  bar    : Option (Nat × Bool)
  chain  : Nat
  page   : Option Nat
  layer  : Option Nat
  fate   : Fate
  reqAt  : Option Nat
  answer : Option (List Byte)
  failed : Option Nat
  deriving DecidableEq, Repr

/-- A `cpc` chain (R301): the CRC register C over the commands of the chain that lead it, the bytes of commands that
have completed ahead of an earlier one, and the cause of a failure. -/
structure Chain where
  c     : Word
  ahead : List (Nat × List Byte)
  bad   : Option Nat
  deriving DecidableEq, Repr

/-- The copy engine context of a group (R295, R301, R314). `fin` lists completed numbers above the timeline; `chains`
holds the chains by number; `newq` the commands of this clk, with quadrant and operation, that are numbered as it ends (R296). -/
structure CopyCtx where
  newq   : List (Nat × Nat × CopyReq)
  acc    : Nat
  tl     : Nat
  fin    : List Nat
  cmds   : List CopyCmd
  lfop   : Nat
  lcause : Nat
  chn    : Bool
  chain  : Nat
  chains : Tbl Chain
  halted : Bool
  deriving DecidableEq, Repr

/-- A `dcz` stream (R305). -/
structure Stream where
  num   : Nat
  op    : Nat
  ring  : Dword
  next  : Nat
  blk   : Nat
  p0    : Option (BitVec 16)
  page  : Option Nat
  layer : Option Nat
  fate  : Fate
  deriving DecidableEq, Repr

/-- The decompression engine context of a group (R302, R314). `newq` lists the streams of this clk with their quadrant (R305). `at_` is the clk of its latest block, the model's own: a
context finishes at most one block a clk, so that the bytes of a block count before the arrival of the next (log entry 2). -/
structure DecCtxt where
  newq    : List (Nat × Stream)
  acc     : Nat
  tl      : Nat
  streams : List Stream
  lfop    : Nat
  lcause  : Nat
  derr    : Nat
  blk     : Nat
  at_     : Nat
  susp    : Bool
  halted  : Bool
  deriving DecidableEq, Repr

/-- One row of an accumulator tile: 64 cells of 48 bits, row bound, residue, poison (R218). -/
structure TileRow where
  cells : List (BitVec 48)
  rb    : Half
  res   : Nat
  psn   : Bool
  deriving DecidableEq, Repr

/-- An accumulator tile (R218): its tag and the rows that differ from a cleared row. -/
structure Tile where
  tag  : Nat
  rows : Tbl TileRow
  deriving DecidableEq, Repr

/-- A resident group (R24, R295). `alloc` is the scratchpad size in bytes; `bank` the shadow bank that holds it; `ecc` the
scratchpad words with an uncorrectable error (R397); `tlq` the `tl.sig` of this clk: timeline, value, ADD; `seen` the values,
accepted counts and status words of tl0 and tl1 as they stood up to the clk before (R321). -/
structure Group where
  launch  : Nat
  ctx     : Nat
  core    : Nat
  bank    : Bool
  spilled : Bool
  alloc   : Nat
  nbar    : Nat
  cluster : Option Nat
  stackB  : Option Nat
  scr     : Tbl Byte
  ecc     : List Nat
  bars    : Tbl Barrier
  copy    : CopyCtx
  dec     : DecCtxt
  tls     : Tbl Nat
  tlq     : List (Nat × Nat × Bool)
  seen    : List Nat
  saved   : Option (Tbl Tile)
  deriving DecidableEq, Repr

/-- A cluster or stack barrier record (R311, R424); `held` and `inn` as in `Barrier`, and `gone` the members' teams that
have retired. -/
structure WideBar where
  launch : Nat
  stack  : Option Nat
  gone   : Nat
  exp    : Nat
  arr    : Nat
  ph     : BitVec 16
  held   : List Arrive
  inn    : List Nat
  deriving DecidableEq, Repr

/-! ### Cores -/

/-- An L1 line (R249, R250): data and record of a line read for (context, virtual line), in use order. -/
structure L1Line where
  ctx    : Nat
  vline  : Nat
  cls    : Nat
  data   : List Byte
  lbr    : Quad
  poison : Bool
  deriving DecidableEq, Repr

/-- A side-log entry (R286): the team, the lowest lane's address, and the writes or the `red` of one line. -/
structure SideEntry where
  id    : Nat
  team  : Nat
  ctx   : Nat
  launch : Nat
  vline : Nat
  la    : Nat
  ws    : List Wr
  red   : Option (Ty × AtOp × RndSel × Bool × List Rmw)
  deriving DecidableEq, Repr

/-- A line that a tile fetch has read for operand A or B: its bytes with their bounds and poison, of the instant of its
pinning (R227). -/
structure GotLine where
  b     : Bool
  vline : Nat
  bs    : List (Byte × Half × Bool)
  deriving DecidableEq, Repr

/-- A matrix command in an operand queue (R211, R212), with MODE and BUDG of its issue (R193), in clk `clk0`, and
MXCFG.G5 of its acceptance (R235). An `mma` that executes has the number of its next K-block, the lines read so far
(R227), its scale bytes as they were when it began (R225), and the columns that have given faulty results (R234). -/
structure MCmd where
  op    : Nat
  clk0  : Nat
  team  : Nat
  group : Nat
  i     : Instr
  b     : Nat
  rows  : List Row
  mode  : Word
  budg  : Word
  tdA   : TileDesc
  tdB   : TileDesc
  g5    : Bool
  blk   : Nat
  got   : List GotLine
  scA   : List Byte
  scB   : List Byte
  spoilt : List Nat
  page  : Option Nat
  layer : Option Nat
  fate  : Fate
  deriving DecidableEq, Repr

/-- A waiting lease request (R215): group, issue clk, quadrant and TEAMID. -/
structure LeaseReq where
  group : Nat
  clk   : Nat
  quad  : Nat
  team  : Nat
  deriving DecidableEq, Repr

/-- The matrix unit of a core (R211-R219, R244). `rel` is the `mz` whose release of the lease is still to come, `accAt`
the clk of the latest acceptance (R212), `saving` the outgoing bank whose tiles are to be saved (R217). -/
structure MatrixU where
  queues  : Tbl (List MCmd)
  rr      : Nat
  accAt   : Option Nat
  acc     : List MCmd
  tiles   : Tbl Tile
  holder  : Option Nat
  waiting : List LeaseReq
  saving  : Option Bool
  rel     : Option Nat
  evt     : Nat
  spu     : Nat
  rc0     : Nat
  rc1     : Nat
  fail    : Bool
  deriving DecidableEq, Repr

/-- What a core's shadow-bank machinery is doing (R394, R395). -/
inductive BankWork where
  | idle | swap (clk0 : Nat) | spill | fill
  deriving DecidableEq, Repr

/-- A core, by logical number. `slot` is the group whose copy context was granted the latest copy slot (R296). -/
structure Core where
  l1      : List L1Line
  ibuf    : List L1Line
  side    : List SideEntry
  mx      : MatrixU
  mxcfg   : Dword
  sbcfg   : Dword
  bank    : BankWork
  image   : Option (List Nat)
  cycOff  : Dword
  slot    : Option Nat
  deriving DecidableEq, Repr

/-- A quadrant's scheduler (R375): the clk in which it last issued, and what. -/
structure Quadr where
  used : Nat
  last : Option (Nat × Bool)
  deriving DecidableEq, Repr

/-! ### The hub -/

/-- An outstanding fault (R335, R336). -/
structure PFault where
  ctx  : Nat
  page : Nat
  kind : Nat
  req  : Nat
  core : Nat
  pte  : Quad
  rt0  : Option Nat
  deriving DecidableEq, Repr

/-- What a halter freezes (R388). -/
inductive Master where
  | team (t : Nat) | copyCtx (g : Nat) | decCtx (g : Nat) | queue (q : Nat) | session (n : Nat)
  deriving DecidableEq, Repr

/-- An outstanding halter (R388, R390); `told` once its record is written. -/
structure Halter where
  hid  : Nat
  mst  : Master
  hc   : Nat
  sub  : Nat
  ctx  : Nat
  core : Nat
  slot : Nat
  inh  : Bool
  ocs  : Nat
  osub : Nat
  pc   : BitVec 56
  told : Bool
  deriving DecidableEq, Repr

/-- What a started packet is doing (R365-R369): a LAUNCH reads its record, or is launch `l`; a WAIT is armed since rt
tick `rt0`; a SIGNAL or CKPT waits for launch packets, by queue and index; or only the packet's signal is still to be
written, with CODE and CAUSE. -/
inductive LiveSt where
  | reading
  | launch (l : Nat)
  | wait (rt0 : Nat)
  | signal (after : List (Nat × Nat))
  | ckpt (after : List (Nat × Nat))
  | ending (code cause : Nat)
  deriving DecidableEq, Repr

/-- A packet that a queue has started and that has not ended: its index, its bytes, and the 4 KiB page whose fault
holds it. -/
structure Live where
  idx   : Nat
  pkt   : List Byte
  st    : LiveSt
  page  : Option Nat
  fate  : Fate
  deriving DecidableEq, Repr

/-- A user queue (R359-R361). `last` is the status of the packet before RI, once that packet has ended; `page` holds
the read of the packet at RI. -/
structure Queue where
  cfg    : Dword
  wi     : BitVec 32
  ri     : BitVec 32
  stat   : Word
  last   : Nat
  live   : List Live
  page   : Option Nat
  fate   : Fate
  deriving DecidableEq, Repr

/-- An active or finished launch (R370-R374), packet `idx` of its queue. `sig` is the signal and its value, when the
launch has one, and `sigPage` the 4 KiB page whose fault holds its write; `order` lists the groups, or the clusters, still to be placed, in curve order, and `placed` counts the
groups placed; `rest` lists the groups of a cluster that is being placed, with their cores, cluster and stack records,
since a stack takes one group a clk; `insts` gives the stack of each stack instance; `first` is the clk, code and cause of its first error. -/
structure Launch where
  queue    : Nat
  idx      : Nat
  ctx      : Nat
  levels   : List Word
  entry    : Nat
  nRegs    : Nat
  args     : List Word
  nbar     : Nat
  scr      : Nat
  aff      : Nat
  mode     : Word
  budg     : Word
  sb       : Nat
  sl       : Nat
  rel      : Option Nat
  sig      : Option (Nat × Nat)
  sigDone  : Bool
  sigPage  : Option Nat
  rest     : List (Nat × Nat × Nat × Option Nat)
  order    : List Nat
  insts    : List Nat
  nGroups  : Nat
  placed   : Nat
  lastCore : Nat
  alive    : Nat
  retired  : Nat
  first    : Option (Nat × Nat × Nat)
  complete : Bool
  deriving DecidableEq, Repr

/-- State of a residency word (R346). -/
inductive LState where
  | absent | arriving | resident | failed
  deriving DecidableEq, Repr

/-- A layer of a live model: its entry (R343) and its residency word (R346). -/
structure Layer where
  entry  : BitVec 256
  gen    : Nat
  pin    : Nat
  fcause : Nat
  rtry   : Nat
  st     : LState
  use    : Nat
  frames : List Nat
  deriving DecidableEq, Repr

/-- A live model (R341, R342). -/
structure Model where
  mnum   : Nat
  prio   : Nat
  la     : Nat
  htmo   : Nat
  cur    : Nat
  layers : List Layer
  deriving DecidableEq, Repr

/-- A request to the swap engine (R348). `from_` is the layer whose lookahead made a hint. -/
structure SwapReq where
  id     : Nat
  ctx    : Nat
  layer  : Nat
  demand : Bool
  named  : List Nat
  deriving DecidableEq, Repr

/-- An eviction that waits for the accesses in progress (R353): the request that it serves, the frames that it frees, and the
operations that used a dropped translation. -/
structure Leaving where
  req    : Option SwapReq
  frames : List Nat
  ops    : List Nat
  deriving DecidableEq, Repr

/-- What a frame of a session asks of the peer or brings it (R435); of a put also the lines of the peer that poison reaches
(R300). -/
inductive RimMsg where
  | put (op : Nat) (va : Nat) (bs : List Byte) (bad : List Nat)
  | get (op : Nat) (va len : Nat)
  | swapGet (op ctx layer : Nat) (va len : Nat)
  | data (bs : List Byte)
  | contrib (rank : Nat) (m : CollMsg)
  | result (seq cmask : Nat) (elems : List Word)
  | refuse
  deriving DecidableEq, Repr

/-- A frame that is not settled: its counter and epoch, the rt ticks of its last and its first sending, whether the
peer has acknowledged it, when only its answer is still to come, its message with the frame's number among those of the
message (a frame carries at most 1024 bytes of it), and the data of its answer that have come so far. -/
structure RimFrame where
  ctr   : Nat
  epoch : Nat
  sent  : Nat
  first : Nat
  acked : Bool
  part  : Nat
  msg   : RimMsg
  got   : List Byte
  deriving DecidableEq, Repr

/-- A rim session (R436, R437): its register, epoch, frame counter, unacknowledged frames, the counter of the peer's frame
that is delivered next and intact frames that have come before their turn, tag failures in a row, and contributions held for
collectives, and the rounds that have ended here (R441). -/
structure Session where
  ctl    : Dword
  epoch  : Nat
  ctr    : Nat
  frames : List RimFrame
  rx     : Nat
  early  : List (Nat × RimPayload)
  fails  : Nat
  held   : List CollMsg
  closed   : List Nat
  halted : Bool
  deriving DecidableEq, Repr

/-- A member of a collective round on this device (R441), by its operation: the descriptor, the session table and
the contribution once they are read; the contributions accepted, at the root; the result, once known; and what holds
its engine accesses. -/
structure Coll where
  ctx   : Nat
  core  : Nat
  kind  : Nat
  bf    : Bool
  cf    : Nat
  va    : Nat
  desc  : Option (BitVec 512)
  clk0  : Nat
  rt0   : Nat
  tmo   : Option Nat
  mtab  : List Nat
  src   : List Word
  got   : List (Nat × CollMsg)
  res   : Option (Nat × List Word)
  page  : Option Nat
  layer : Option Nat
  fate  : Fate
  deriving DecidableEq, Repr

/-- A line as the undo log keeps it (R399), with the key that it was written under. -/
structure UndoLine where
  line : Nat
  key  : Option (Nat × Nat)
  data : List Byte
  lbr  : Quad
  poison : Bool
  deriving DecidableEq, Repr

/-- The rollback state of a context (R398-R401, R408): its register, the log, kept packets and recorded read indices of
the interval; a pending `ckpt` request, and the launches it waits for; a rollback that is due; and the kept packets
still to be started again, oldest first. -/
structure Undo where
  cfg    : Dword
  log    : List UndoLine
  kept   : List (Nat × List Byte)
  ri     : List (Nat × BitVec 32)
  ckpt   : Bool
  before : List Nat
  due    : Bool
  replay : List (Nat × List Byte)
  deriving DecidableEq, Repr

/-- A configuration register that exists once for each stack (R345, R398, R420, R449). `taking` is the logical core that the
spare is to take over, and the clk in which its core was marked (R427). -/
structure StackCfg where
  map    : Quad
  rpcfg  : Dword
  ulcfg  : Dword
  vrst   : Bool
  ref    : Bool
  vrdy   : Bool
  taking : Option (Nat × Nat)
  deriving DecidableEq, Repr

/-- The configuration registers of a context (R328), RBCFG apart. -/
structure CtxCfg where
  ptroot : Dword
  l2qt   : Word
  mdesc  : Dword
  thcfg  : Dword
  deriving DecidableEq, Repr

/-- Errors of a physical unit: the rt ticks at which they were counted, and the lasting mark (R425). -/
structure ErrCount where
  times   : List Nat
  lasting : Bool
  deriving DecidableEq, Repr

/-- A line that a cache beyond L1 holds: the context and the page class that it was filled for (R252), whether a write has
not reached its memory yet (R272), and an uncorrectable error of a replica (R253). -/
structure CLine where
  line  : Nat
  ctx   : Option Nat
  cls   : Nat
  dirty : Bool
  psn   : Bool
  deriving DecidableEq, Repr

/-- The caches beyond L1 (R249), each list in order of use: the sets of all L2 slices, by `l2Key`; the RDC of each stack; and
the hub cache. -/
structure Caches where
  l2  : Tbl (List CLine)
  rdc : Tbl (List CLine)
  hub : List CLine
  deriving DecidableEq, Repr

/-- A ring of the black box (R445): its records with the clk of their events, newest first, at most 4096, and the number
written so far. -/
structure Ring where
  recs : List (Nat × Quad)
  n    : Nat
  deriving DecidableEq, Repr

/-- The bits that a write of one clears and that hardware sets (R6): HLT of QSTAT, REF of STKPWR, DONE of RIMINJ. -/
inductive W1c where
  | hlt (q : Nat) | ref (stack : Nat) | injDone
  deriving DecidableEq, Repr

/-- What system software cancels (log entry 36): a copy command (R300), the stream that a context decodes, a command that a matrix
unit has accepted (R228), a collective (R443), an arrival (R351), or a packet (R364). -/
inductive Cancel where
  | copy (group n : Nat)
  | stream (group n : Nat)
  | tile (core op : Nat)
  | coll (op : Nat)
  | arrival (ctx layer : Nat)
  | packet (queue idx : Nat)
  deriving DecidableEq, Repr

/-! ### The network -/

/-- The virtual channels (R413). -/
inductive VC where
  | req | rsp | coh | bulk
  deriving DecidableEq, Repr

/-- An end of a packet's way: a stop of a stack, by 6 · y + x (R410), or a port of the hub's crossbar that is no spoke: 8 the
hub cache, 9 to 12 the CXL ports, 13 to 24 the rim ports (R418). -/
inductive NetEnd where
  | stop (stack n : Nat)
  | hub (port : Nat)
  deriving DecidableEq, Repr

/-- The packets of R412. -/
inductive PacketKind where
  | readReq | writeAck | inval | credit | barrier | readRsp | lineWrite | copyLine | tandem
  deriving DecidableEq, Repr

/-- A packet (R412, R413). -/
structure Packet where
  id   : Nat
  src  : NetEnd
  dst  : NetEnd
  kind : PacketKind
  vc   : VC
  deriving DecidableEq, Repr

/-- A flit: its packet, whether it is the head and whether it is the tail; for a head, the clk that it has been ready here
without winning (R415). -/
structure Flit where
  pkt  : Packet
  head : Bool
  tail : Bool
  wait : Nat
  deriving DecidableEq, Repr

/-- A port of a node: node 37 · stack + stop, or 37 · 8 for the crossbar; inputs and outputs are numbered alike. -/
structure NetPort where
  node : Nat
  port : Nat
  deriving DecidableEq, Repr

/-- The network (R410-R418): the flits in the buffers of input ports, oldest first; the packet that holds an output's VC; the
free-buffer counts of outputs that differ from 4, and the credits that come back in the next clk; the input that each output's
VC, or an output of the crossbar, served last; the packets that wait at their source; the spaces that are granted to bulk
packets and reserved for responses (R414); and the packets that arrived in this clk. -/
structure Net where
  bufs   : List (NetPort × VC × List Flit)
  owner  : List (NetPort × VC × Nat)
  free   : List (NetPort × VC × Nat)
  back   : List (NetPort × VC)
  turn   : List (NetPort × VC × Nat)
  wait   : List Packet
  grants : List (NetEnd × NetEnd)
  room   : List NetEnd
  came   : List Packet
  deriving DecidableEq, Repr

/-- A move of the script (log entries 2 and 35): a fragment runs its next instruction (`late`: its memory effects are performed
when it completes), another step of the machine happens, system software cancels an engine command or a packet (R300, R363), an
end of the network grants space to another or sends a packet, or the clk ends. -/
inductive Move where
  | run (team : Nat) (frag late : Bool)
  | event (i : Instr)
  | cancel (c : Cancel)
  | grant (dst src : NetEnd)
  | send (p : Packet)
  | tick
  deriving DecidableEq, Repr

/-- The state of the package. `capNow` is the power cap of the present window, and `window` counts the windows that have
ended (R16, R450). `w1cAt` gives the clk in which hardware last set a bit
that a write of one clears (R6). `procs` gives each packet processor's last queue and the clk of its last start (R365);
`dist` the launch that the distributor served last at each priority, `placeAt` the clk of the last placement on each
stack, and `gangHold` the launches whose gang instance did not fit (R29, R374). `answers` are answers to halters of teams
that the spare takes over, by HID and RELEASE, which apply when it has (R429). -/
structure State where
  clk      : Nat
  rt       : Nat
  rtPhase  : Nat
  power    : Bool
  recovery : Bool
  mem      : List Host.Cell
  poison   : List Nat
  lineKey  : Tbl (Nat × Nat)
  caches   : Caches
  keys     : Tbl Nat
  keyGen   : Nat
  spdm     : Bool
  leaf     : Nat
  fqcfg    : Dword
  fqIdx    : Nat
  hqcfg    : Dword
  hqIdx    : Nat
  errcfg   : Dword
  pwrcfg   : Dword
  capNow   : Nat
  window   : Nat
  brcfg    : Word
  ulHub    : Dword
  riminj   : Dword
  rimOff   : Nat
  w1cAt    : List (W1c × Nat)
  ctxs     : Tbl CtxCfg
  stks     : Tbl StackCfg
  undo     : Tbl Undo
  queues   : Tbl Queue
  procs    : Tbl (Nat × Nat)
  launches : Tbl Launch
  nextLaunch : Nat
  gangHold : List Nat
  dist     : Tbl Nat
  placeAt  : Tbl Nat
  teams    : Tbl Team
  nextTeam : Nat
  groups   : Tbl Group
  nextGroup : Nat
  wide     : Tbl WideBar
  nextWide : Nat
  cores    : Tbl Core
  quads    : Tbl Quadr
  ops      : Tbl Op
  nextOp   : Nat
  nextPid  : Nat
  tlb      : List (Nat × Quad)
  faults   : List PFault
  halters  : List Halter
  answers  : List (Nat × Bool)
  models   : Tbl Model
  useCnt   : Nat
  swaps    : List SwapReq
  leaving  : Option Leaving
  nextReq  : Nat
  sessions : Tbl Session
  rimDown  : List Nat
  cxlDown  : List Nat
  colls    : Tbl Coll
  errs     : List (ErrUnit × ErrCount)
  boxes    : Tbl Ring
  net      : Net
  cur      : Option (Nat × Bool × Bool)
  script   : List Move
  free     : Nat
  hole     : Bool
  deriving DecidableEq, Repr

/-! ### Reset -/

/-- A stack after the die test (R420): present, a spare available, logical core n on physical core n (log entry 3);
the V die is held in reset (R449). -/
def StackCfg.atReset : StackCfg where
  map := BitVec.ofNat 128 (2 ^ 127 + 2 ^ 126 + (List.range 16).foldl (fun a n => a + n * 2 ^ (5 * n)) 0)
  rpcfg := 0
  ulcfg := 0
  vrst := true
  ref := false
  vrdy := false
  taking := none

/-- A network without packets. -/
def Net.empty : Net where
  bufs := []
  owner := []
  free := []
  back := []
  turn := []
  wait := []
  grants := []
  room := []
  came := []

/-- The machine right after reset: every register at the value the spec states (INVENTORY.md lists them), no team, no
group, no queue served, memory with nothing listed. -/
def State.reset : State where
  clk := 0
  rt := 0
  rtPhase := 0
  power := true
  recovery := false
  mem := []
  poison := []
  lineKey := []
  caches := ⟨[], [], []⟩
  keys := []
  keyGen := 0
  spdm := false
  leaf := 0
  fqcfg := 0
  fqIdx := 0
  hqcfg := 0
  hqIdx := 0
  errcfg := BitVec.ofNat 64 (977 * 2 ^ 48 + 16 * 2 ^ 40)
  pwrcfg := BitVec.ofNat 64 (2100 * 2 ^ 52 + 500 * 2 ^ 30 + 1700 * 2 ^ 16)
  capNow := 2100
  window := 0
  brcfg := 0
  ulHub := 0
  riminj := 0
  rimOff := 0
  w1cAt := []
  ctxs := []
  stks := (List.range 8).map (fun s => (s, StackCfg.atReset))
  undo := []
  queues := []
  procs := []
  launches := []
  nextLaunch := 0
  gangHold := []
  dist := []
  placeAt := []
  teams := []
  nextTeam := 0
  groups := []
  nextGroup := 0
  wide := []
  nextWide := 0
  cores := []
  quads := []
  ops := []
  nextOp := 0
  nextPid := 0
  tlb := []
  faults := []
  halters := []
  answers := []
  models := []
  useCnt := 0
  swaps := []
  leaving := none
  nextReq := 0
  sessions := []
  rimDown := []
  cxlDown := []
  colls := []
  errs := []
  boxes := []
  net := Net.empty
  cur := none
  script := []
  free := 0
  hole := false

end Sys2Proof.Machine
end

