-- ==== Sys2Proof/Machine/Tbl.lean ====
section
/-! DEFINITION. Tables by number: look up, set, erase, map; lists of 64 lanes; masks of lanes. -/

namespace Sys2Proof.Machine

/-- The entry of key k. -/
def tget {α : Type} : Tbl α → Nat → Option α
  | [], _ => none
  | (j, a) :: t, k => if j = k then some a else tget t k

/-- The entry of key k, or the default d. -/
def tgetD {α : Type} (t : Tbl α) (k : Nat) (d : α) : α := (tget t k).getD d

/-- Sets key k to a, in ascending key order. -/
def tset {α : Type} : Tbl α → Nat → α → Tbl α
  | [], k, a => [(k, a)]
  | (j, b) :: t, k, a => if k < j then (k, a) :: (j, b) :: t else if k = j then (k, a) :: t else (j, b) :: tset t k a

/-- Erases key k. -/
def tdel {α : Type} : Tbl α → Nat → Tbl α
  | [], _ => []
  | (j, b) :: t, k => if j = k then t else (j, b) :: tdel t k

/-- Applies f to the entry of key k, if there is one. -/
def tmod {α : Type} : Tbl α → Nat → (α → α) → Tbl α
  | [], _, _ => []
  | (j, b) :: t, k, f => if j = k then (j, f b) :: t else (j, b) :: tmod t k f

/-- Applies f to every entry. -/
def tmap {α : Type} (t : Tbl α) (f : Nat → α → α) : Tbl α := t.map (fun e => (e.1, f e.1 e.2))

/-- The keys of a table. -/
def tkeys {α : Type} (t : Tbl α) : List Nat := t.map Prod.fst

/-- The lanes of a team. -/
def lanes : List Nat := List.range 64

/-- Lane l of a mask. -/
def lane (m : Mask) (l : Nat) : Bool := m.getLsbD l

/-- The lanes of a mask in ascending order. -/
def lanesOf (m : Mask) : List Nat := lanes.filter (lane m)

/-- The lowest lane of a mask. -/
def lowest (m : Mask) : Option Nat := (lanesOf m).head?

/-- The mask of the lanes that satisfy f. -/
def maskOf (f : Nat → Bool) : Mask :=
  BitVec.ofNat 64 (lanes.foldr (fun l a => if f l then a + 2 ^ l else a) 0)

/-- All 64 lanes. -/
def allLanes : Mask := BitVec.allOnes 64

/-- x sign-extended from n bits, as an integer (R9). -/
def sext (x n : Nat) : Int :=
  let y := x % 2 ^ n
  if y < 2 ^ (n - 1) then y else (y : Int) - 2 ^ n

/-- An integer narrowed to n bits (R9). -/
def trunc (x : Int) (n : Nat) : Nat := (x % (2 ^ n : Int)).toNat

/-- The bytes of a number, lowest first (R2). -/
def toBytes (x n : Nat) : List Byte := (List.range n).map (fun j => BitVec.ofNat 8 (x / 2 ^ (8 * j)))

/-- The number that bytes hold, lowest first (R2). -/
def ofBytes (bs : List Byte) : Nat := bs.foldr (fun b a => b.toNat + 256 * a) 0

/-- Field [lo+len-1:lo] of x replaced by v. -/
def setBits (x lo len v : Nat) : Nat :=
  x % 2 ^ lo + (v % 2 ^ len) * 2 ^ lo + x / 2 ^ (lo + len) * 2 ^ (lo + len)

/-- Rounds up to a multiple of m. -/
def alignUp (x m : Nat) : Nat := (x + m - 1) / m * m

/-- x / y rounded up. -/
def ceilDiv (x y : Nat) : Nat := (x + y - 1) / y

/-- Folds a step over a list, from the left. -/
def foldOver {α β : Type} (xs : List α) (s : β) (f : β → α → β) : β := xs.foldl f s

end Sys2Proof.Machine
end

