-- ==== Sys2Proof/Machine/Num.lean ====
section
/-! DEFINITION. Exact numbers, float formats, rounding and EB16 (chapter 04). -/

namespace Sys2Proof.Machine

/-! ### Exact numbers -/

/-- The number n / d * 2^e, with d positive. -/
structure Q where
  n : Int
  d : Nat
  e : Int
  deriving DecidableEq, Repr

def Q.ofInt (n : Int) : Q := ⟨n, 1, 0⟩
/-- 2^e. -/
def Q.pow2 (e : Int) : Q := ⟨1, 1, e⟩
def Q.zero : Q := ⟨0, 1, 0⟩
/-- n * 2^e, for a number of binary digits. -/
def Q.dy (n : Int) (e : Int) : Q := ⟨n, 1, e⟩

/-- 2^k for k ≥ 0, and 1 otherwise. -/
def p2 (k : Int) : Nat := 2 ^ k.toNat

def Q.add (a b : Q) : Q :=
  let m := min a.e b.e
  if a.d = b.d then ⟨a.n * p2 (a.e - m) + b.n * p2 (b.e - m), a.d, m⟩
  else ⟨a.n * b.d * p2 (a.e - m) + b.n * a.d * p2 (b.e - m), a.d * b.d, m⟩
def Q.neg (a : Q) : Q := ⟨-a.n, a.d, a.e⟩
def Q.sub (a b : Q) : Q := a.add b.neg
def Q.mul (a b : Q) : Q := ⟨a.n * b.n, a.d * b.d, a.e + b.e⟩
def Q.abs (a : Q) : Q := ⟨a.n.natAbs, a.d, a.e⟩
/-- a / b, for b ≠ 0. -/
def Q.div (a b : Q) : Q :=
  if b.n < 0 then ⟨-(a.n * b.d), a.d * b.n.natAbs, a.e - b.e⟩ else ⟨a.n * b.d, a.d * b.n.natAbs, a.e - b.e⟩
/-- a * 2^k. -/
def Q.shl (a : Q) (k : Int) : Q := ⟨a.n, a.d, a.e + k⟩
def Q.sgn (a : Q) : Int := if a.n < 0 then -1 else if a.n = 0 then 0 else 1
def Q.isZero (a : Q) : Bool := a.n = 0
def Q.lt (a b : Q) : Bool := (a.sub b).n < 0
def Q.le (a b : Q) : Bool := (a.sub b).n ≤ 0
def Q.eq (a b : Q) : Bool := (a.sub b).n = 0
def Q.max (a b : Q) : Q := if a.lt b then b else a
def Q.min (a b : Q) : Q := if a.lt b then a else b

/-- floor(log2 |a|), for a ≠ 0. -/
def Q.log2 (a : Q) : Int :=
  let n := a.n.natAbs
  let l : Int := (Nat.log2 n : Int) - Nat.log2 a.d
  let l := if n * p2 (-l) < a.d * p2 l then l - 1 else l
  l + a.e

/-- floor(|a| * 2^k), and whether something is left over. -/
def Q.scale (a : Q) (k : Int) : Nat × Bool :=
  let x := a.e + k
  let num := a.n.natAbs * p2 x
  let den := a.d * p2 (-x)
  (num / den, num % den ≠ 0)

/-- floor(a). -/
def Q.floor (a : Q) : Int :=
  let (q, r) := a.scale 0
  if a.n < 0 then (if r then -(q : Int) - 1 else -q) else q

/-! ### EB16 (R89-R91) -/

/-- The value of a finite bound. -/
def ebVal (b : Half) : Q :=
  let n := b.toNat
  if n / 256 = 0 then Q.zero else Q.dy (256 + n % 256 : Nat) ((n / 256 : Nat) - 135)

/-- E = 255: unbounded. -/
def ebUnb (b : Half) : Bool := b.toNat / 256 = 255

/-- round_up_eb16 of |x| (R90). -/
def ebUp (x : Q) : Half :=
  if x.isZero then 0
  else
    let e := x.log2
    if e < -126 then 0x0100
    else if e > 127 then 0xFF00
    else
      let (q, r) := x.scale (8 - e)
      let c := (e + 127).toNat * 256 + q - 256 + (if r then 1 else 0)
      if c > 0xFEFF then 0xFF00 else BitVec.ofNat 16 c

def ebAdd (a b : Half) : Half := if ebUnb a || ebUnb b then 0xFF00 else ebUp ((ebVal a).add (ebVal b))
def ebMul (a b : Half) : Half := if ebUnb a || ebUnb b then 0xFF00 else ebUp ((ebVal a).mul (ebVal b))
/-- A sum of terms, left to right (R91). -/
def ebSum : List Half → Half
  | [] => 0
  | b :: bs => bs.foldl ebAdd b

/-! ### Formats (R80, R81, R95) -/

/-- A binary format: width, exponent bits, fraction bits and bias. `inf`: all exponent bits set means infinity or NaN;
`ocp`: only the all-ones magnitude is NaN (e4m3). -/
structure Fmt where
  w    : Nat
  eb   : Nat
  f    : Nat
  bias : Nat
  inf  : Bool
  nan1 : Bool
  deriving DecidableEq, Repr

def f64F : Fmt := ⟨64, 11, 52, 1023, true, false⟩
def f32F : Fmt := ⟨32, 8, 23, 127, true, false⟩
def f16F : Fmt := ⟨16, 5, 10, 15, true, false⟩
def bf16F : Fmt := ⟨16, 8, 7, 127, true, false⟩
def e5m2F : Fmt := ⟨8, 5, 2, 15, true, false⟩
def e4m3F : Fmt := ⟨8, 4, 3, 7, false, true⟩
def e2m1F : Fmt := ⟨4, 2, 1, 1, false, false⟩
/-- Accumulator formats, in the bits that they use of a cell (R95). -/
def a48F : Fmt := ⟨48, 10, 37, 511, true, false⟩
def a32F : Fmt := ⟨32, 8, 23, 127, true, false⟩
def a24F : Fmt := ⟨24, 8, 15, 127, true, false⟩

/-- The format of a float type; f32 for the others. -/
def Ty.fmt : Ty → Fmt
  | .f64 => f64F | .f16 => f16F | .bf16 => bf16F | .e5m2 => e5m2F | .e4m3 => e4m3F | .e2m1 => e2m1F | _ => f32F

/-- Exponent of the smallest normal. -/
def Fmt.emin (F : Fmt) : Int := 1 - F.bias
/-- The largest biased exponent of a finite value. -/
def Fmt.emaxB (F : Fmt) : Nat := if F.inf then 2 ^ F.eb - 2 else 2 ^ F.eb - 1
/-- The largest finite value. -/
def Fmt.maxf (F : Fmt) : Q :=
  let m := 2 ^ (F.f + 1) - (if F.nan1 then 2 else 1)
  Q.dy (m : Nat) ((F.emaxB : Int) - F.bias - F.f)
/-- ulp of the largest finite value. -/
def Fmt.ulpMax (F : Fmt) : Q := Q.pow2 ((F.emaxB : Int) - F.bias - F.f)
/-- The smallest normal. -/
def Fmt.minNorm (F : Fmt) : Q := Q.pow2 F.emin

/-- A float value: NaN, an infinity, or (-1)^neg * m * 2^e, where m = 0 is a signed zero. -/
inductive FVal where
  | nan
  | inf (neg : Bool)
  | fin (neg : Bool) (m : Nat) (e : Int)
  deriving DecidableEq, Repr

def FVal.zero (neg : Bool) : FVal := .fin neg 0 0
/-- The exact value of a finite float. -/
def FVal.q : FVal → Q
  | .fin neg m e => Q.dy (if neg then -(m : Int) else m) e
  | _ => Q.zero
def FVal.isNan : FVal → Bool
  | .nan => true | _ => false
def FVal.isFin : FVal → Bool
  | .fin .. => true | _ => false
def FVal.isZero : FVal → Bool
  | .fin _ m _ => m = 0 | _ => false
def FVal.neg : FVal → Bool
  | .fin n _ _ => n | .inf n => n | .nan => false
def FVal.flip : FVal → FVal
  | .fin n m e => .fin (!n) m e | .inf n => .inf (!n) | .nan => .nan

/-- The value of an encoding (R80, R81). -/
def Fmt.dec (F : Fmt) (x : Nat) : FVal :=
  let fr := x % 2 ^ F.f
  let ex := x / 2 ^ F.f % 2 ^ F.eb
  let neg := x / 2 ^ (F.w - 1) % 2 = 1
  if F.inf && ex = 2 ^ F.eb - 1 then (if fr = 0 then .inf neg else .nan)
  else if F.nan1 && ex = 2 ^ F.eb - 1 && fr = 2 ^ F.f - 1 then .nan
  else if ex = 0 then .fin neg fr (F.emin - F.f)
  else .fin neg (2 ^ F.f + fr) ((ex : Int) - F.bias - F.f)

/-- The canonical NaN (R82); e2m1, which has none, gives +0 (R87). -/
def Fmt.cnan (F : Fmt) : Nat :=
  if F.nan1 then 2 ^ (F.w - 1) - 1
  else if F.inf then (2 ^ F.eb - 1) * 2 ^ F.f + 2 ^ (F.f - 1)
  else 0

/-- The encoding of a representable value; an infinity in a type without one is the saturated value or the NaN that
R87 gives. -/
def Fmt.enc (F : Fmt) (v : FVal) : Nat :=
  let sg (neg : Bool) : Nat := if neg then 2 ^ (F.w - 1) else 0
  match v with
  | .nan => F.cnan
  | .inf neg =>
    if F.inf then sg neg + (2 ^ F.eb - 1) * 2 ^ F.f
    else if F.nan1 then F.cnan
    else sg neg + (2 ^ (F.w - 1) - 1)
  | .fin neg m e =>
    if m = 0 then sg neg
    else
      let q := Q.dy (m : Nat) e
      let b := q.log2
      if b < F.emin then sg neg + (q.scale (F.f - F.emin)).1
      else sg neg + (b + F.bias).toNat * 2 ^ F.f + (q.scale (F.f - b)).1 - 2 ^ F.f

/-- A subnormal magnitude of the format. -/
def Fmt.isSub (F : Fmt) (v : FVal) : Bool :=
  match v with
  | .fin _ m e => m ≠ 0 && (Q.dy (m : Nat) e).lt F.minNorm
  | _ => false

/-! ### Rounding (R85-R87, R92) -/

/-- The rounding modes (R50, R85). -/
inductive RMode where
  | rne | rtz | rdn | rup | rna | rsr
  deriving DecidableEq, Repr

/-- One step of the stochastic generator (R86). -/
def genStep (g : Word) : Word :=
  let g := g ^^^ (g <<< 13)
  let g := g ^^^ (g >>> 17)
  g ^^^ (g <<< 5)

/-- A written generator: zero is stored as 0x9E37_79B9 (R86). -/
def genNorm (g : Word) : Word := if g = 0 then 0x9E3779B9 else g

/-- A positive real scaled by an ulp: whole ulps, the next 32 bits of the fraction, and whether more is left. -/
structure Scaled where
  q : Nat
  f : Nat
  more : Bool
  deriving DecidableEq, Repr

/-- |a| / 2^k. -/
def Q.scaled (a : Q) (k : Int) : Scaled :=
  let (n, r) := a.scale (32 - k)
  ⟨n / 2 ^ 32, n % 2 ^ 32, r⟩

def Scaled.exact (s : Scaled) : Bool := s.f = 0 && !s.more

/-- Whole ulps of the rounded magnitude (R85, R86); g is the generator after its step. -/
def Scaled.round (s : Scaled) (m : RMode) (neg : Bool) (g : Word) : Nat :=
  if s.exact then s.q
  else
    let up : Bool := match m with
      | .rne => s.f > 2 ^ 31 || (s.f = 2 ^ 31 && (s.more || s.q % 2 = 1))
      | .rna => s.f ≥ 2 ^ 31
      | .rtz => false
      | .rdn => neg
      | .rup => !neg
      | .rsr => s.f + g.toNat ≥ 2 ^ 32
    if up then s.q + 1 else s.q

/-- A rounding's result: the value, its rounding contribution, and the generator afterwards. -/
structure Rnd where
  z   : FVal
  rho : Half
  g   : Word
  deriving DecidableEq, Repr

/-- The generator after one rounding in mode m (R86). -/
def genAfter (m : RMode) (g : Word) : Word := if m = .rsr then genStep g else g

/-- ulp of a result: z whole ulps of 2^k, in a format with f fraction bits (R92). -/
def ulpOf (F : Fmt) (z : Nat) (k : Int) (ftz : Bool) : Q :=
  if z = 0 then (if ftz then F.minNorm else Q.pow2 (F.emin - F.f))
  else Q.pow2 (max ((Nat.log2 z : Int) + k) F.emin - F.f)

/-- The overflow rows of R87 for a finite v with |v| > maxf; the contribution is round_up_eb16(|v - z|) for a finite
result (R92) and unbounded for an infinity (R93). `sat` is |v| - maxf, and `near` tells |v| < maxf + ulp(maxf)/2. -/
def overflow (F : Fmt) (m : RMode) (neg near : Bool) (sat : Half) : FVal × Half :=
  let big : FVal := .fin neg (F.maxf.n.natAbs) F.maxf.e
  let toMax := (big, sat)
  let toInf := (FVal.inf neg, (0xFF00 : Half))
  if F.w ≤ 8 then toMax
  else match m with
    | .rtz => toMax
    | .rdn => if neg then toInf else toMax
    | .rup => if neg then toMax else toInf
    | .rne | .rna => if near then toMax else toInf
    | .rsr => toInf

/-- Rounds a positive magnitude known by its binade e and its scaled form at 2^k, k = max(e, emin) - f. -/
def roundScaled (F : Fmt) (m : RMode) (ftz neg : Bool) (g : Word) (k : Int) (s : Scaled) : FVal × Half :=
  let z := s.round m neg g
  let zq := Q.dy (z : Nat) k
  if ftz && z ≠ 0 && zq.lt F.minNorm then (.zero neg, ebUp F.minNorm)
  else
    let u := ulpOf F z k ftz
    let rho := if s.exact then 0 else match m with
      | .rne => ebUp (u.shl (-1)) | .rna => ebUp (u.shl (-1)) | _ => ebUp u
    (.fin neg z k, rho)

/-- rnd_to: rounds an exact value into a format (R85-R87, R92); zneg is the sign of an exact zero. `ftz` is MODE.FTZ
for the types that it concerns (R83). -/
def roundQ (F : Fmt) (m : RMode) (ftz zneg : Bool) (g : Word) (v : Q) : Rnd :=
  let g' := genAfter m g
  if v.isZero then ⟨.zero zneg, 0, g'⟩
  else
    let neg : Bool := v.n < 0
    let a := v.abs
    let mx := F.maxf
    if mx.lt a then
      let past := a.sub mx
      let (z, rho) := overflow F m neg (past.lt (F.ulpMax.shl (-1))) (ebUp past)
      ⟨z, rho, g'⟩
    else
      let k := max a.log2 F.emin - F.f
      let (z, rho) := roundScaled F m ftz neg g' k (a.scaled k)
      ⟨z, rho, g'⟩

/-- Rounds a value to an integer (R85); ulp is 1. -/
def roundInt (m : RMode) (g : Word) (v : Q) : Int × Word :=
  let g' := genAfter m g
  let n := (v.scaled 0).round m (v.n < 0) g'
  (if v.n < 0 then -(n : Int) else n, g')

/-! ### Input flush (R83) -/

/-- The types that MODE.FTZ concerns. -/
def Ty.flushes : Ty → Bool
  | .f16 | .bf16 | .f32 | .f64 => true
  | _ => false

/-- A source element under MODE.FTZ: a subnormal reads as a zero of its sign, its magnitude added to its bound. -/
def flushIn (F : Fmt) (ftz : Bool) (v : FVal) (b : Half) : FVal × Half :=
  if ftz && F.isSub v then (.zero v.neg, ebAdd b (ebUp v.q.abs)) else (v, b)

end Sys2Proof.Machine
end

