-- ==== Sys2Proof/Machine/Cache.lean ====
section
/-! DEFINITION. The physical address map (R327), and which lines the caches beyond L1 hold: the L2 slices, the remote-data
caches and the hub cache (R249, R251, R252, R284). Memory holds the current value of every line; a cache says which lines
it has, for whom, and whether its memory is behind (log entry 37). -/

namespace Sys2Proof.Machine

/-! ### The physical address map (R327) -/

/-- The home of a physical address. -/
inductive Home where
  | stack (s : Nat) | host | pool | reserved | config
  deriving DecidableEq, Repr

def homeOf (pa : Nat) : Home :=
  if pa < 2 ^ 39 then .stack (pa / 2 ^ 36)
  else if pa < 2 ^ 48 then .reserved
  else if pa < 2 ^ 51 then .host
  else if pa < 0xF * 2 ^ 48 then .pool
  else if pa < 2 ^ 52 then .config
  else .reserved

/-- The home slice of a stack-homed address, and its set within the slice (R251). -/
def sliceOf (pa : Nat) : Nat := bitsOf pa 7 4 ^^^ bitsOf pa 22 4
def setOf (pa : Nat) : Nat := bitsOf pa 11 11

/-- The number, among all sets of stack n, of the set that a line belongs to. -/
def l2Key (n line : Nat) : Nat := (n * 16 + sliceOf (line * 128)) * 2048 + setOf (line * 128)

/-- The line of an address. -/
def lineOf (a : Nat) : Nat := a / 128
/-- The lines of n bytes, of at least one, from address a up. -/
def linesOver (a n : Nat) : List Nat := (List.range ((a + n - 1) / 128 + 1 - a / 128)).map (fun j => a / 128 + j)

/-! ### Registers of a context -/

/-- The registers of a context; every field at reset where nothing was written (R252, R329, R341, R381). -/
def CtxCfg.atReset : CtxCfg := ⟨0, 0x84210, 0, 0⟩
def State.ctx (s : State) (c : Nat) : CtxCfg := tgetD s.ctxs c CtxCfg.atReset

/-! ### Sets of L2 (R252) -/

/-- Ways of a set that lines of a page class of the context may hold: its field of L2QT. An agent without a context has no
quota. -/
def State.quota (s : State) (ctx : Option Nat) (cls : Nat) : Nat :=
  match ctx with
  | some c => bitsOf (s.ctx c).l2qt.toNat (5 * cls) 5
  | none => 16

/-- The lines of a set that x's context and class hold. -/
def CLine.mates (set : List CLine) (x : CLine) : List CLine := set.filter (fun y => y.ctx = x.ctx && y.cls = x.cls)

/-- The line that leaves a set, in order of use, for the fill of x, if one must; a free way is taken first. Pins and
version lines stand in no set (log entries 28 and 37). -/
def State.victim (s : State) (set : List CLine) (x : CLine) : Option CLine :=
  let full (y : CLine) : Bool := decide (s.quota y.ctx y.cls ≤ (y.mates set).length)
  if full x then (x.mates set).getLast?
  else if set.length < 16 then none
  else match (set.filter full).getLast? with
    | some y => some y
    | none => set.getLast?

/-- A set after the fill of x; with quota 0 the line is not allocated (R252). -/
def State.fillSet (s : State) (set : List CLine) (x : CLine) : List CLine :=
  if s.quota x.ctx x.cls = 0 then set
  else match s.victim set x with
    | some y => x :: set.filter (fun z => z.line ≠ y.line)
    | none => x :: set

/-- The line moves to the front, dirty if a write hit it; none when it is not there. -/
def CLine.use (ls : List CLine) (line : Nat) (w : Bool) : Option (List CLine) :=
  (ls.find? (fun x => x.line = line)).map (fun x => { x with dirty := x.dirty || w } :: ls.filter (fun x => x.line ≠ line))

/-- Lines of a cache that replaces the least recently used one of all: those of an RDC, and of the hub cache (R249, R252). -/
def rdcLines : Nat := 2 ^ 18
def hubLines : Nat := 2 ^ 21

/-! ### Accesses -/

/-- An access at a line's home, by context ctx for page class cls: a read or a write that misses fills the line. -/
def State.cacheHome (s : State) (ctx : Option Nat) (cls line : Nat) (w : Bool) : State :=
  let x : CLine := { line := line, ctx := ctx, cls := cls, dirty := w, psn := false }
  match homeOf (line * 128) with
  | .stack n =>
    let set := tgetD s.caches.l2 (l2Key n line) []
    let set := (CLine.use set line w).getD (s.fillSet set x)
    { s with caches := { s.caches with l2 := tset s.caches.l2 (l2Key n line) set } }
  | .host | .pool =>
    { s with caches := { s.caches with hub := (CLine.use s.caches.hub line w).getD ((x :: s.caches.hub).take hubLines) } }
  | _ => s

/-- A read for an agent of stack n: a line homed on another stack comes from a replica in the stack's RDC, which a miss
takes (R226, R249). -/
def State.cacheRead (s : State) (n ctx cls line : Nat) : State :=
  match homeOf (line * 128) with
  | .stack m =>
    if m = n then s.cacheHome (some ctx) cls line false
    else
      let ls := tgetD s.caches.rdc n []
      match CLine.use ls line false with
      | some ls => { s with caches := { s.caches with rdc := tset s.caches.rdc n ls } }
      | none =>
        let s := s.cacheHome (some ctx) cls line false
        let x : CLine := { line := line, ctx := some ctx, cls := cls, dirty := false, psn := false }
        { s with caches := { s.caches with rdc := tset s.caches.rdc n ((x :: ls).take rdcLines) } }
  | _ => s.cacheHome (some ctx) cls line false

/-- A write at the home: the line is dirty there, and no RDC has a replica of it any more (R280, R284). -/
def State.cacheWrite (s : State) (ctx : Option Nat) (cls line : Nat) : State :=
  let s := s.cacheHome ctx cls line true
  { s with caches := { s.caches with rdc := tmap s.caches.rdc (fun _ ls => ls.filter (fun x => x.line ≠ line)) } }

/-- The replica of the line that stack n holds has an uncorrectable error (R253). -/
def State.replicaBad (s : State) (n line : Nat) : Bool :=
  (tgetD s.caches.rdc n []).any (fun x => x.line = line && x.psn)

/-- Lines that meet p are written back to their memory, and stay valid (R272). -/
def State.cacheClean (s : State) (p : CLine → Bool) : State :=
  let clean (ls : List CLine) : List CLine := ls.map (fun x => if p x then { x with dirty := false } else x)
  { s with caches := { s.caches with l2 := tmap s.caches.l2 (fun _ ls => clean ls), hub := clean s.caches.hub } }

/-- The hub cache gives a line up to an agent outside (R433). -/
def State.hubDrop (s : State) (line : Nat) : State :=
  { s with caches := { s.caches with hub := s.caches.hub.filter (fun x => x.line ≠ line) } }

end Sys2Proof.Machine
end

