-- ==== Sys2Proof/Machine/Mem.lean ====
section
/-! DEFINITION. Physical memory: cells in canonical form, lines with their poison, keys and line bound records
(R253, R254, R256, R258, R259, R438), and the undo log of a write (R399). -/

namespace Sys2Proof.Machine

/-! ### Cells -/

/-- The byte at a physical address. -/
def cellGet : List Host.Cell → Nat → Byte
  | [], _ => Config.memDefault
  | (j, b) :: t, a => if j = a then b else if a < j then Config.memDefault else cellGet t a

/-- Writes one byte; a byte equal to what unlisted cells read as is not listed. -/
def cellSet : List Host.Cell → Nat → Byte → List Host.Cell
  | [], a, x => if x = Config.memDefault then [] else [(a, x)]
  | (j, b) :: t, a, x =>
    if a < j then (if x = Config.memDefault then (j, b) :: t else (a, x) :: (j, b) :: t)
    else if a = j then (if x = Config.memDefault then t else (a, x) :: t)
    else (j, b) :: cellSet t a x

/-- Every listed address lies above lo, addresses rise, and no listed byte is the default. -/
def cellsFrom : Nat → List Host.Cell → Bool
  | _, [] => true
  | lo, (j, b) :: t => decide (lo ≤ j) && decide (b ≠ Config.memDefault) && cellsFrom (j + 1) t

/-- The canonical form of memory. -/
def Memory.wf (m : List Host.Cell) : Bool := cellsFrom 0 m

/-- n bytes from address a up. -/
def cellsGet (m : List Host.Cell) (a n : Nat) : List Byte := (List.range n).map (fun j => cellGet m (a + j))

/-- Writes bytes from address a up. -/
def cellsSet : List Host.Cell → Nat → List Byte → List Host.Cell
  | m, _, [] => m
  | m, a, b :: bs => cellsSet (cellSet m a b) (a + 1) bs

/-! ### Boards of State -/

def State.stack (s : State) (n : Nat) : StackCfg := tgetD s.stks n StackCfg.atReset
/-- PRES of STKMAP (R420). -/
def StackCfg.present (c : StackCfg) : Bool := c.map.getLsbD 127
def State.present (s : State) (n : Nat) : Bool := n < 8 && (s.stack n).present

/-- The spare of its stack is taking logical core n over (R427). -/
def State.takeoverDue (s : State) (n : Nat) : Bool := (s.stack (n / 16)).taking.any (fun k => k.1 = n)

/-- Bytes of the carve-out of each stack (R258): BRCFG.SIZE. -/
def State.carve (s : State) : Nat :=
  match s.brcfg.toNat % 4 with
  | 0 => 0 | 1 => 2 ^ 31 | 2 => 2 ^ 32 | _ => 2 ^ 33

/-- The address of the record of the line of pa, for an HBM4 address (R258). -/
def State.recAddr (s : State) (pa : Nat) : Nat :=
  let base := pa / 2 ^ 36 * 2 ^ 36
  base + (2 ^ 36 - s.carve) + pa % 2 ^ 36 / 128 * 16

/-- Marks that an agent used an address that does not exist (`Fault.reservedPa`). -/
def State.touch (s : State) (pa n : Nat) : State :=
  let bad (a : Nat) : Bool := match homeOf a with | .reserved => true | .config => true | _ => false
  if bad pa || bad (pa + n - 1) then { s with hole := true } else s

/-! ### Line bound records (R254) -/

/-- An EB16 value with E = 0 or 255 in its one written form (R89). -/
def ebNorm (b : Half) : Half :=
  if b.toNat / 256 = 0 then 0 else if b.toNat / 256 = 255 then 0xFF00 else b

/-- The bound for code c of a SHARED record: round_up_eb16(2^(SEXP - 133 + c)); every power of two in the range is
exact. -/
def sharedBound (sexp c : Nat) : Half :=
  if c = 0 then 0
  else if c = 7 then 0xFF00
  else
    let e : Int := (sexp : Int) - 133 + c + 127
    if e ≤ 1 then 0x0100 else if e > 254 then 0xFF00 else BitVec.ofNat 16 (e.toNat * 256)

/-- A record is malformed when a bit that its mode does not use is set, or SEXP is 0 or 255 in SHARED (R254). -/
def recMalformed (r : Nat) : Bool :=
  let rm := r / 2 ^ 126
  let hi := bitsOf r 112 14
  let sexp := bitsOf r 104 8
  let mid := bitsOf r 96 8
  if rm = 0 ∨ rm = 3 then bitsOf r 0 126 ≠ 0
  else if rm = 1 then hi ≠ 0 ∨ sexp ≠ 0 ∨ mid ≠ 0 ∨ bitsOf r 16 80 ≠ 0
  else hi ≠ 0 ∨ mid ≠ 0 ∨ sexp = 0 ∨ sexp = 255

/-- The bound of word w of a line under its record; a malformed record reads as UNTRACKED (R254). -/
def recBound (r : Quad) (w : Nat) : Half :=
  let n := r.toNat
  if recMalformed n then 0xFF00
  else match n / 2 ^ 126 with
    | 0 => 0
    | 1 => ebNorm (BitVec.ofNat 16 n)
    | 2 => sharedBound (bitsOf n 104 8) (bitsOf n (3 * w) 3)
    | _ => 0xFF00

/-- UNTRACKED (R254). -/
def recUntracked : Quad := BitVec.ofNat 128 (3 * 2 ^ 126)

/-- The least s from `s` on, within `fuel`, with 2^(s-127) ≥ val(m), for a finite bound m: its own exponent when its
fraction is zero, the next one otherwise. -/
def sharedExp (m : Half) : Option Nat :=
  let e := m.toNat / 256
  let s := if m.toNat % 256 = 0 then e else e + 1
  if s ≤ 254 then some s else none

/-- The least code c from 1 to 6 with 2^(s-133+c) ≥ val(b) (R256). -/
def sharedCode (s : Nat) (b : Half) : Nat :=
  if b = 0 then 0 else if b = 0xFF00 then 7
  else
    match sharedExp b with
    | none => 6
    | some t => if t + 6 ≤ s + 1 then 1 else t + 6 - s

/-- The record that encodes the 32 word bounds (R256). -/
def recEncode (bs : List Half) : Quad :=
  let b0 := bs.headD 0
  if bs.all (· = 0) then 0
  else if bs.all (· = b0) then BitVec.ofNat 128 (2 ^ 126 + b0.toNat)
  else
    let fin := bs.filter (· ≠ 0xFF00)
    let m := fin.foldl (fun a b => if a.toNat < b.toNat then b else a) 0
    let big := bs.foldl (fun a b => if a.toNat < b.toNat then b else a) 0
    match (if m = 0 then some 127 else sharedExp m) with
    | none => BitVec.ofNat 128 (2 ^ 126 + big.toNat)
    | some s =>
      let codes := (bs.zipIdx).foldl (fun a p => a + sharedCode s p.1 * 2 ^ (3 * p.2)) 0
      BitVec.ofNat 128 (2 ^ 127 + s * 2 ^ 104 + codes)

/-! ### Lines -/

/-- The line's record; lines outside HBM4, and every line when there is no carve-out, have none and read EXACT. -/
def State.recGet (s : State) (line : Nat) : Quad :=
  match homeOf (line * 128) with
  | .stack _ => if s.carve = 0 then 0 else BitVec.ofNat 128 (ofBytes (cellsGet s.mem (s.recAddr (line * 128)) 16))
  | _ => 0

def State.recSet (s : State) (line : Nat) (r : Quad) : State :=
  match homeOf (line * 128) with
  | .stack _ =>
    if s.carve = 0 then s else { s with mem := cellsSet s.mem (s.recAddr (line * 128)) (toBytes r.toNat 16) }
  | _ => s

/-- Key slot k holds a key; slot 0 is the null key (R438). -/
def State.keyLoaded (s : State) (k : Nat) : Bool := k = 0 || (tget s.keys k).isSome

/-- The generation of key slot k; the null key and an empty slot have generation 0. -/
def State.keyGenOf (s : State) (k : Nat) : Nat := if k = 0 then 0 else tgetD s.keys k 0

/-- The CXL port that leads to the home of pa is down (R434). -/
def State.linkDown (s : State) (pa : Nat) : Bool :=
  match homeOf pa with
  | .host => s.cxlDown.contains 0
  | .pool => s.cxlDown.contains (1 + Config.poolPort pa % 3)
  | _ => false

/-- The line is poisoned, for a reader under key slot k (R253, R438). A line behind a port that is down reads as
poisoned where the reader has no token for the cause LINK (log entry 11). -/
def State.poisoned (s : State) (line k : Nat) : Bool :=
  s.poison.contains line || !s.keyLoaded k || s.linkDown (line * 128)

def State.setPoison (s : State) (line : Nat) (b : Bool) : State :=
  if b then (if s.poison.contains line then s else { s with poison := line :: s.poison })
  else { s with poison := s.poison.filter (· ≠ line) }

/-- The line was written under the key that slot k holds now; a line that nothing wrote reads under every key. -/
def State.keyMatches (s : State) (line k : Nat) : Bool :=
  match tget s.lineKey line with
  | none => true
  | some (j, g) => (j = k || (j = 0 && k = 0)) && g = s.keyGenOf k

/-- n free bytes, from free words (log entry 4). -/
def freeBytes (c n : Nat) : List Byte :=
  (List.range n).map (fun j => (Config.freeWord (c + j / 4)).extractLsb' (8 * (j % 4)) 8)

/-- Reads bytes within one line under key slot k. Data under another key is free (log entry 4). -/
def State.readBytes (s : State) (pa n k : Nat) : List Byte × State :=
  if s.keyMatches (lineOf pa) k then (cellsGet s.mem pa n, s)
  else (freeBytes s.free n, { s with free := s.free + ceilDiv n 4 })

/-! ### Writes at the home (R280) -/

/-- The undo region of a line's home is in use: ULCFG.EN of its stack, or of the hub for host and pool homes (R398). -/
def State.ulcfg (s : State) (line : Nat) : Dword :=
  match homeOf (line * 128) with
  | .stack n => (State.stack s n).ulcfg
  | _ => s.ulHub

/-- Bytes of an undo region in use. -/
def undoRoom (c : Dword) : Nat := if c.getLsbD 63 then 2 ^ (bitsOf c.toNat 56 7) * 2 ^ 20 else 0

/-- ST of RBCFG (R398). -/
def Undo.st (u : Undo) : Nat := bitsOf u.cfg.toNat 61 2
def Undo.setSt (u : Undo) (x : Nat) : Undo := { u with cfg := BitVec.ofNat 64 (setBits u.cfg.toNat 61 2 x) }
/-- EN of RBCFG. -/
def Undo.en (u : Undo) : Bool := u.cfg.getLsbD 63
/-- INT of RBCFG. -/
def Undo.int_ (u : Undo) : Nat := u.cfg.toNat % 2 ^ 32

/-- The rollback state of a context. -/
def State.undoOf (s : State) (c : Nat) : Undo :=
  tgetD s.undo c { cfg := 0, log := [], kept := [], ri := [], ckpt := false, before := [], due := false, replay := [] }

/-- The undo region of a line's home: that of its stack, or the hub's, 8 (R399). -/
def undoHome (line : Nat) : Nat := match homeOf (line * 128) with | .stack n => n | _ => 8

/-- Bytes that a context's log has in the region of home h: 160 for a line, and 64 for a packet that the hub keeps (log
entry 6). -/
def Undo.usedAt (u : Undo) (h : Nat) : Nat :=
  160 * (u.log.filter (fun l => undoHome l.line = h)).length + (if h = 8 then 64 * u.kept.length else 0)

/-- Bytes in use in the undo region of home h. -/
def State.undoUsed (s : State) (h : Nat) : Nat := foldOver (tkeys s.undo) 0 (fun n k => n + (s.undoOf k).usedAt h)

/-- Keeps a packet that context c starts, in the hub's region; where that is full the interval is no longer protected
(R399). -/
def State.keepPacket (s : State) (c q : Nat) (bs : List Byte) : State :=
  let u := s.undoOf c
  if u.st ≠ 1 then s
  else if undoRoom s.ulHub < s.undoUsed 8 + 64 then { s with undo := tset s.undo c (u.setSt 2) }
  else { s with undo := tset s.undo c { u with kept := u.kept ++ [(q, bs)] } }

/-- Logs a line before context c's first write to it in the interval (R399). -/
def State.undoLog (s : State) (c line : Nat) : State :=
  let u := s.undoOf c
  if u.st ≠ 1 ∨ u.log.any (fun l => l.line = line) then s
  else
    if undoRoom (s.ulcfg line) < s.undoUsed (undoHome line) + 160 then { s with undo := tset s.undo c (u.setSt 2) }
    else
      let e : UndoLine := { line := line, key := tget s.lineKey line, data := cellsGet s.mem (line * 128) 128, lbr := s.recGet line
                            poison := s.poison.contains line }
      { s with undo := tset s.undo c { u with log := e :: u.log } }

/-- The bounds of a line's 32 words. -/
def State.wordBounds (s : State) (line : Nat) : List Half :=
  (List.range 32).map (recBound (s.recGet line))

/-- The larger of two bounds (R90). -/
def ebMax (a b : Half) : Half := if a.toNat < b.toNat then b else a

/-- What one line operation writes: byte and bound by offset in the line; a later entry of one offset stands. -/
abbrev LineW := Tbl (Byte × Half)

/-- Adds bytes from offset off up, all of bound b. -/
def lineAdd : LineW → Nat → List Byte → Half → LineW
  | w, _, [], _ => w
  | w, off, x :: xs, b => lineAdd (tset w off (x, b)) (off + 1) xs b

/-- The bounds of a line's words after a line operation with bounds (R256): a word whose four bytes are written takes
the largest bound of the data that fills it, a word written in part merges with its old bound. -/
def mergeBounds (old : List Half) (w : LineW) : List Half :=
  old.zipIdx.map (fun (x, j) =>
    let bs := (List.range 4).filterMap (fun i => (tget w (4 * j + i)).map Prod.snd)
    let b := bs.foldl ebMax 0
    if bs.isEmpty then x else if bs.length = 4 then b else ebMax x b)

/-- One line operation that writes at the line's home, for context c under key slot k: logged, poisoned when the key
slot is empty, cleared of poison when it covers the line (R253, R280, R399, R438). The record of a line of a bounded
page follows R256, or R257 for an agent that supplies no bounds. `cls` is the page class that the line's home caches it
for. -/
def State.writeLine (s : State) (c : Option Nat) (cls k line : Nat) (w : LineW) (bounded gives : Bool) : State :=
  let s := match c with | some c => s.undoLog c line | none => s
  let s := s.cacheWrite c cls line
  let s :=
    if !bounded then s
    else if gives then s.recSet line (recEncode (mergeBounds (s.wordBounds line) w))
    else s.recSet line recUntracked
  let s := { s with mem := List.foldl (fun m (e : Nat × (Byte × Half)) => cellSet m (line * 128 + e.1) e.2.1) s.mem w }
  let s := if k = 0 ∧ (tget s.lineKey line).isNone then s
           else { s with lineKey := tset s.lineKey line (k, s.keyGenOf k) }
  if s.keyLoaded k then (if w.length = 128 then s.setPoison line false else s) else s.setPoison line true

/-- Writes by agents of the hub at a physical address, without bounds, cut at lines. -/
def State.writePhys (s : State) (c : Option Nat) (k pa : Nat) (bs : List Byte) : Nat → State
  | 0 => s
  | fuel + 1 =>
    if bs.isEmpty then s
    else
      let n := min (128 - pa % 128) bs.length
      let s := s.writeLine c 0 k (lineOf pa) (lineAdd [] (pa % 128) (bs.take n) 0) false false
      s.writePhys c k (pa + n) (bs.drop n) fuel

end Sys2Proof.Machine
end

