-- ==== Sys2Proof/Machine/Box.lean ====
section
/-! DEFINITION. Physical cores (R420) and the black box (R445). -/

namespace Sys2Proof.Machine

/-! ### Physical cores (R420) -/

/-- The physical core of logical core n: 17 times its stack, and its number there. -/
def State.physOf (s : State) (n : Nat) : Nat := n / 16 * 17 + bitsOf (s.stack (n / 16)).map.toNat (n % 16 * 5) 5
/-- The logical core that a physical core serves. -/
def State.logicalOf (s : State) (p : Nat) : Option Nat :=
  ((List.range 16).map (p / 17 * 16 + ·)).find? (fun n => s.physOf n = p)
/-- SPAV and RET of STKMAP. -/
def StackCfg.spav (c : StackCfg) : Bool := c.map.getLsbD 126
def StackCfg.ret (c : StackCfg) (p : Nat) : Bool := c.map.getLsbD (100 + p)
def State.modStack (s : State) (n : Nat) (f : StackCfg → StackCfg) : State :=
  { s with stks := tset s.stks n (f (s.stack n)) }

/-! ### The black box (R445) -/

def Ring.atReset : Ring := ⟨[], 0⟩
def State.ring (s : State) (n : Nat) : Ring := tgetD s.boxes n Ring.atReset

/-- UNIT of a record. -/
def unitOf (r : Quad) : Nat := bitsOf r.toNat 48 8

/-- Adds a record behind those of its clk that have a lower or equal UNIT; the list has the newest first. -/
def addRecord (c : Nat) (r : Quad) : List (Nat × Quad) → List (Nat × Quad)
  | [] => [(c, r)]
  | x :: xs => if x.1 = c ∧ unitOf r < unitOf x.2 then x :: addRecord c r xs else (c, r) :: x :: xs

/-- Writes an event record into the ring of its source, a stack or 8 for the hub. -/
def State.record (s : State) (src kind lcore pcore unit data : Nat) : State :=
  let r : Quad := BitVec.ofNat 128 (s.rt % 2 ^ 48 * 2 ^ 80 + kind * 2 ^ 72 + src * 2 ^ 68 + lcore % 128 * 2 ^ 61
    + pcore % 32 * 2 ^ 56 + unit * 2 ^ 48 + data % 2 ^ 48)
  let b := s.ring src
  { s with boxes := tset s.boxes src ⟨(addRecord s.clk r b.recs).take 4096, b.n + 1⟩ }

end Sys2Proof.Machine
end

