-- ==== Sys2Proof/Machine/Regs.lean ====
section
/-! DEFINITION. A team's registers: rows, scalars, predicates, tokens, MODE, BUDG and BSTAT fields, and the landing of
register writes (R102-R111). -/

namespace Sys2Proof.Machine

def RegCell.zero : RegCell := ⟨0, 0⟩
def Token.zero : Token := ⟨0, false, 0, false⟩
def Pred.zero : Pred := ⟨0, 0⟩

/-- Lane l of a row. -/
def Row.cell (r : Row) (l : Nat) : RegCell := r.getD l RegCell.zero

def Team.path (tm : Team) (f : Bool) : Path := if f then tm.p1 else tm.p0
def Team.setPath (tm : Team) (f : Bool) (p : Path) : Team := if f then { tm with p1 := p } else { tm with p0 := p }
def Team.vrow (tm : Team) (r : Nat) : Row := tgetD tm.v r []
def Team.sreg (tm : Team) (r : Nat) : RegCell := tgetD tm.s r RegCell.zero
/-- p7 reads true with its doubt bit clear (R45). -/
def Team.pred (tm : Team) (p : Nat) : Pred := if p = 7 then ⟨allLanes, 0⟩ else tgetD tm.p p Pred.zero
def Team.bank (tm : Team) : Bank → Tbl Token
  | .normal => tm.tokN
  | .trap => tm.tokT
def Team.setBank (tm : Team) (b : Bank) (t : Tbl Token) : Team :=
  match b with
  | .normal => { tm with tokN := t }
  | .trap => { tm with tokT := t }
def Team.tok (tm : Team) (b : Bank) (k : Nat) : Token := tgetD (tm.bank b) k Token.zero
def Team.setTok (tm : Team) (b : Bank) (k : Nat) (t : Token) : Team := tm.setBank b (tset (tm.bank b) k t)
/-- INH of TCAUSE: a handler runs (R384). -/
def Team.inH (tm : Team) : Bool := tm.tcause.getLsbD 31
/-- The current bank (R105, R114). -/
def Team.curBank (tm : Team) : Bank := if tm.inH then .trap else .normal

/-! ### MODE (R187), BUDG (R184), BSTAT (R204) -/

def mRnd (m : Word) : Nat := bitsOf m.toNat 0 3
def mGfl (m : Word) : Nat := bitsOf m.toNat 9 2
def mGcl (m : Word) : Nat := bitsOf m.toNat 11 2
def mHr (m : Word) : Nat := bitsOf m.toNat 13 2
def mRetry (m : Word) : Nat := bitsOf m.toNat 15 2
def mBt (m : Word) : Bool := m.getLsbD 17
def mChk (m : Word) : Bool := m.getLsbD 18
def mDtrap (m : Word) : Bool := m.getLsbD 19
def mFtz (m : Word) : Bool := m.getLsbD 20
def mProg (m : Word) : Bool := m.getLsbD 21
def mSet (m : Word) (lo len v : Nat) : Word := BitVec.ofNat 32 (setBits m.toNat lo len v)
def mSetGears (m : Word) (gfl gcl : Nat) : Word := mSet (mSet m 9 2 gfl) 11 2 gcl

/-- A written MODE: reserved bits zero, RND 0 and 7 stored as RNE (R50), GCL raised to GFL (R188). -/
def modeNorm (m : Word) : Word :=
  let m := m &&& 0x003FFE07
  let m := if mRnd m = 0 ∨ mRnd m = 7 then mSet m 0 3 1 else m
  if mGfl m > mGcl m then mSet m 11 2 (mGfl m) else m

/-- The rounding mode of a selection (R50). -/
def rmode (m : Word) (r : RndSel) : RMode :=
  match r with
  | .rne => .rne | .rtz => .rtz | .rdn => .rdn | .rup => .rup | .rna => .rna | .rsr => .rsr
  | .dflt => match mRnd m with
    | 2 => .rtz | 3 => .rdn | 4 => .rup | 5 => .rna | 6 => .rsr | _ => .rne

/-- A written BUDG: reserved bits zero, FLOOR in its one form (R184). -/
def budgNorm (b : Word) : Word :=
  BitVec.ofNat 32 (bitsOf b.toNat 16 6 * 2 ^ 16 + (ebNorm (b.setWidth 16)).toNat)
def bFloor (b : Word) : Half := b.setWidth 16
def bRel (b : Word) : Nat := bitsOf b.toNat 16 6
/-- r of R185: 2^-e, and 0 for e = 63. -/
def bR (b : Word) : Q := if bRel b = 63 then Q.zero else Q.pow2 (-(bRel b : Int))

def bsSet (b : Dword) (lo len v : Nat) : Dword := BitVec.ofNat 64 (setBits b.toNat lo len v)
def bsTry (b : Dword) : Nat := bitsOf b.toNat 14 2

/-- The generator of lane l at creation (R86). -/
def genInit (lane teamid gidx : Nat) : Word :=
  0x9E3779B9 ^^^ BitVec.ofNat 32 (lane * 2 ^ 24) ^^^ BitVec.ofNat 32 (teamid * 2 ^ 16) ^^^ BitVec.ofNat 32 (gidx % 2 ^ 16)

/-! ### Countdowns of a team that stands still (R34) -/

def Countdown.freeze (n : Nat) : Countdown → Countdown
  | .stall c => if c ≤ n then .none else .frozen false (c - n)
  | .dly c => if c ≤ n then .none else .frozen true (c - n)
  | c => c
def Countdown.thaw (n : Nat) : Countdown → Countdown
  | .frozen false k => .stall (n + k)
  | .frozen true k => .dly (n + k)
  | c => c

/-- Countdowns of both paths changed. -/
def Team.mapCd (tm : Team) (f : Countdown → Countdown) : Team :=
  { tm with p0 := { tm.p0 with cd := f tm.p0.cd }, p1 := { tm.p1 with cd := f tm.p1.cd } }

/-! ### Landing of writes -/

/-- A row with lane updates applied; both in ascending lane order. -/
def mergeRow : List Nat → Row → List LaneUpd → Row
  | [], _, _ => []
  | l :: ns, old, us =>
    let c := old.headD RegCell.zero
    match us with
    | u :: us' =>
      if u.lane = l then ⟨u.val.getD c.val, u.bnd.getD c.bnd⟩ :: mergeRow ns old.tail us'
      else c :: mergeRow ns old.tail us
    | [] => c :: mergeRow ns old.tail []

/-- Names of register lanes in hazard lists: vector lanes, scalars, predicate lanes. -/
def keyV (r l : Nat) : Nat := r * 64 + l
def keyS (r : Nat) : Nat := 2 ^ 16 + r
def keyP (p l : Nat) : Nat := 2 ^ 17 + p * 64 + l
def keyExm : Nat := 2 ^ 18

/-- The register lanes that a write covers. -/
def Upd.keys : Upd → List Nat
  | .vec r ls => ls.map (fun u => keyV r u.lane)
  | .sca r _ _ => [keyS r]
  | .prd p m _ _ => (lanesOf m).map (keyP p)
  | .exm _ => [keyExm]

/-- Applies a register write. A write to p7 is discarded (R45). An EXM write goes to each running path of the given
name, masked by its PMASK and EXITED (R122, R128). -/
def Team.apply (tm : Team) (pid : Nat) : Upd → Team
  | .vec r ls => { tm with v := tset tm.v r (mergeRow lanes (tm.vrow r) ls) }
  | .sca r x b =>
    let c := tm.sreg r
    { tm with s := tset tm.s r ⟨x.getD c.val, b.getD c.bnd⟩ }
  | .prd p m t d =>
    if p = 7 then tm
    else
      let o := tm.pred p
      { tm with p := tset tm.p p ⟨(o.t &&& ~~~m) ||| (t &&& m), (o.d &&& ~~~m) ||| (d &&& m)⟩ }
  | .exm v =>
    let f (p : Path) : Path := if p.pid = pid ∧ !p.ended then { p with exm := v &&& p.pmask &&& ~~~tm.exited } else p
    { tm with p0 := f tm.p0, p1 := if tm.split then f tm.p1 else tm.p1 }

/-- The write changes something (R38). -/
def Team.changes (tm : Team) (pid : Nat) (u : Upd) : Bool :=
  let tm' := tm.apply pid u
  tm'.v ≠ tm.v || tm'.s ≠ tm.s || tm'.p ≠ tm.p || tm'.p0.exm ≠ tm.p0.exm || tm'.p1.exm ≠ tm.p1.exm

/-- Clears the spin counter of the path of the given name (R38). -/
def Team.unspin (tm : Team) (pid : Nat) : Team :=
  let f (p : Path) : Path := if p.pid = pid then { p with spin := 0 } else p
  { tm with p0 := f tm.p0, p1 := f tm.p1 }

/-- A completion at a token (R109). -/
def Token.post (t : Token) (err : Option Nat) : Token :=
  let t := if t.count ≥ 255 then { t with ovf := true } else { t with count := t.count + 1 }
  match err with
  | none => t
  | some c => if t.err then t else { t with err := true, cause := c }

def Team.post (tm : Team) (b : Bank) (k : Nat) (err : Option Nat) : Team :=
  tm.setTok b k ((tm.tok b k).post err)

def State.modTeam (s : State) (t : Nat) (f : Team → Team) : State := { s with teams := tmod s.teams t f }

/-- The lanes of dst, written by a write of ks or before it. -/
def clashOf (ks dst clash : List Nat) : List Nat :=
  ks.filter (fun k => dst.contains k && !clash.contains k) ++ clash

/-- The claim of a path that holds inside a token-class instruction (R100). -/
def Path.claimed (p : Path) : Option Claim := match p.hold with | .inside .. => p.claim | _ => none

/-- Marks, in a claim of the path, the destination lanes that a write overlaps (R111). -/
def Path.clash (p : Path) (ks : List Nat) : Path :=
  match p.claimed with
  | none => p
  | some c => { p with claim := some { c with clash := clashOf ks c.dst c.clash } }

/-- Marks, in every outstanding operation of the team and in those that held instructions will make, the destination
lanes that a write overlaps (R111). -/
def State.clash (s : State) (t : Nat) (ks : List Nat) : State :=
  let s := if s.ops.isEmpty then s
    else { s with ops := tmap s.ops (fun _ o => if o.team = t then { o with clash := clashOf ks o.dst o.clash } else o) }
  s.modTeam t (fun tm => { tm with p0 := tm.p0.clash ks, p1 := tm.p1.clash ks })

/-- The write overwrites a corrupted register word (R397), which is whole again. -/
def Upd.mends (u : Upd) : ErrSite → Bool
  | .vreg _ r l => u.keys.contains (keyV r l)
  | .sreg _ r => u.keys.contains (keyS r)
  | .pred _ p => match u with | .prd q m _ _ => q = p && m = allLanes | _ => false
  | _ => false

/-- Lands one write of team t. -/
def State.landUpd (s : State) (t pid : Nat) (u : Upd) : State :=
  let s := s.modTeam t (fun tm =>
    let tm' := { tm.apply pid u with corrupt := tm.corrupt.filter (fun c => !u.mends c) }
    if tm.changes pid u then tm'.unspin pid else tm')
  s.clash t u.keys

/-- `kset` (R118), before the counts that arrive in its clk. -/
def Token.kset (v : Nat) : Token := { Token.zero with count := v }
/-- `kadd` (R118), before the counts that arrive in its clk: what is missing to zero, they make up. -/
def Token.kadd (t : Token) (d : Int) : Token :=
  { t with count := min (t.count + d).toNat 255, ovf := t.ovf || decide (255 < t.count + d) }

def State.land (s : State) (t : Nat) (p : Pend) : State :=
  match p.act with
  | .upd u => s.landUpd t p.pid u
  | .post b k e => s.modTeam t (fun tm => tm.post b k e)
  | .kset b k v => s.modTeam t (fun tm =>
    { tm.setTok b k (Token.kset v) with corrupt := tm.corrupt.filter (· ≠ .token t k (b = .trap)) })
  | .kadd b k d => s.modTeam t (fun tm => tm.setTok b k ((tm.tok b k).kadd d))

/-- The error of a completion, without its count. -/
def Token.mark (t : Token) (err : Option Nat) : Token := { t.post err with count := t.count, ovf := t.ovf }

/-- What is due, with the counts that a `kadd` below zero takes up made errors without counts (R118). -/
def State.landPosts (s : State) (t : Nat) : List (Bank × Nat × Nat) → List Pend → State
  | _, [] => s
  | ds, p :: ps =>
    match p.act with
    | .post b k e =>
      if ds.any (fun d => d.1 = b && d.2.1 = k && 0 < d.2.2) then
        let s := s.modTeam t (fun tm => tm.setTok b k ((tm.tok b k).mark e))
        s.landPosts t (ds.map (fun d => if d.1 = b ∧ d.2.1 = k then (d.1, d.2.1, d.2.2 - 1) else d)) ps
      else (s.land t p).landPosts t ds ps
    | _ => (s.land t p).landPosts t ds ps

/-- What a `kadd` of the list leaves below zero (R118). -/
def Team.debts (tm : Team) (ps : List Pend) : List (Bank × Nat × Nat) :=
  ps.filterMap (fun p => match p.act with
    | .kadd b k d => some (b, k, (-((tm.tok b k).count + d)).toNat)
    | _ => none)

/-- A token's own change comes before the counts of its clk (R118). -/
def Pend.isTok (p : Pend) : Bool := match p.act with | .kset .. | .kadd .. => true | _ => false

/-- Lands everything of team t that is due at clk n: `kset` and `kadd`, then the rest in issue order (R104, R118). -/
def State.landDue (s : State) (t n : Nat) : State :=
  match tget s.teams t with
  | none => s
  | some tm =>
    let now := tm.pend.filter (fun p => p.due ≤ n)
    let s := s.modTeam t (fun tm => { tm with pend := tm.pend.filter (fun p => n < p.due) })
    let first := now.filter Pend.isTok
    (first.foldl (fun s p => s.land t p) s).landPosts t (tm.debts first) (now.filter (fun p => !p.isTok))

/-- Lands everything in flight for team t, clk by clk: the drain of R34 and R114. -/
def State.drain (s : State) (t : Nat) : State :=
  (List.range 17).foldl (fun s j => s.landDue t (s.clk + j)) s

/-- Queues a pending effect of team t. -/
def State.pendAdd (s : State) (t : Nat) (p : Pend) : State :=
  s.modTeam t (fun tm => { tm with pend := tm.pend ++ [p] })

end Sys2Proof.Machine
end

