-- ==== Sys2Proof/Machine/Translate.lean ====
section
/-! DEFINITION. Page tables, walks and faults (chapter 13). -/

namespace Sys2Proof.Machine

/-! ### PTROOT (R329) -/

def ptV (r : Dword) : Bool := r.getLsbD 63
def ptPrv (r : Dword) : Bool := r.getLsbD 62
def ptSzen (r : Dword) : Nat := bitsOf r.toNat 57 5
def ptN (r : Dword) : Nat := bitsOf r.toNat 51 6
def ptBase (r : Dword) : Nat := bitsOf r.toNat 0 45 * 128
/-- LOG2B from 10 to 32, a base aligned to the table, reserved bits zero. -/
def ptMalformed (r : Dword) : Bool :=
  ptN r < 10 || ptN r > 32 || bitsOf r.toNat 45 5 ≠ 0 || ptBase r % (128 * 2 ^ ptN r) ≠ 0
/-- The context has a page table. One whose PTROOT is malformed is walked with its fields as they stand (log entry 34); its
launches retire with BADLEVEL (R329). -/
def State.hasTable (s : State) (c : Nat) : Bool := ptV (s.ctx c).ptroot
/-- PTROOT.PRV (R329). -/
def State.prv (s : State) (c : Nat) : Bool := ptPrv (s.ctx c).ptroot

/-! ### Page table entries (R330, R332, R333) -/

/-- The shift of page size z (R330). -/
def pageShift : Nat → Nat
  | 0 => 12 | 1 => 16 | 2 => 21 | 3 => 25 | _ => 30

def pteV (p : Quad) : Bool := p.getLsbD 127
def pteSize (p : Quad) : Nat := bitsOf p.toNat 124 3
def pteCls (p : Quad) : Nat := bitsOf p.toNat 122 2
def pteW (p : Quad) : Bool := p.getLsbD 121
def pteBnd (p : Quad) : Bool := p.getLsbD 120
def pteChk (p : Quad) : Bool := p.getLsbD 119
def pteCmp (p : Quad) : Bool := p.getLsbD 118
def pteAbs (p : Quad) : Bool := p.getLsbD 117
def pteKey (p : Quad) : Nat := bitsOf p.toNat 104 12
def pteLayer (p : Quad) : Nat := bitsOf p.toNat 92 12
def ptePpn (p : Quad) : Nat := bitsOf p.toNat 44 40
def pteTag (p : Quad) : Nat := bitsOf p.toNat 0 44

/-- Bytes of the page. -/
def pteBytes (p : Quad) : Nat := 2 ^ pageShift (pteSize p)

/-- The page maps va. -/
def pteCovers (p : Quad) (va : Nat) : Bool := pteV p && pteTag p = va / pteBytes p

/-- The physical address of va (R332). -/
def ptePa (p : Quad) (va : Nat) : Nat := ptePpn p * 4096 + va % pteBytes p

/-- A PTE with V = 1 is malformed (R333). -/
def State.pteMalformed (s : State) (p : Quad) : Bool :=
  let n := p.toNat
  let base := ptePpn p * 4096
  let last := base + pteBytes p - 1
  let c := s.carve
  let off := base % 2 ^ 36
  let inHbm : Bool := match homeOf base, homeOf last with
    | .stack a, .stack b => a == b
    | _, _ => false
  let placeBad : Bool :=
    base % pteBytes p ≠ 0
      || (match homeOf base, homeOf last with
          | .stack _, .stack _ => false | .host, .host => false | .host, .pool => false | .pool, .pool => false
          | _, _ => true)
      || (inHbm && off + pteBytes p > 2 ^ 36 - c)
      || ((pteBnd p || pteCmp p) && (!inHbm || off + pteBytes p > min (8 * c) (2 ^ 36 - c)))
  bitsOf n 116 1 ≠ 0 || bitsOf n 84 8 ≠ 0 || pteSize p > 4
    || (pteLayer p ≠ 0 && pteCls p ≠ 1)
    || (!pteAbs p && placeBad)
    || (pteBnd p && pteCmp p)
    || (pteCls p = 1 && pteW p)
    || (pteAbs p && pteCls p ≠ 1)
    || (pteCmp p && pteW p)

/-! ### Walks (R331, R333) -/

/-- XOR of the n-bit chunks of v, at most k of them. -/
def fold (n : Nat) : Nat → Nat → Nat
  | 0, _ => 0
  | k + 1, v => (v % 2 ^ n) ^^^ fold n k (v / 2 ^ n)

/-- The address of the bucket that probe j of size z reads for va. -/
def bucketAddr (r : Dword) (z va j : Nat) : Nat :=
  let n := ptN r
  let vpn := va / 2 ^ pageShift z
  let h := (fold n 5 vpn ^^^ (z * 2 ^ (n - 3))) % 2 ^ n
  ptBase r + 128 * ((h + j) % 2 ^ n)

/-- The PTE at a physical address. -/
def State.pteAt (s : State) (pa : Nat) : Quad := BitVec.ofNat 128 (ofBytes (cellsGet s.mem pa 16))

/-- What a walk finds. -/
inductive Walk where
  | miss | bad (p : Quad) | hit (p : Quad)
  deriving DecidableEq, Repr

/-- Reads a bucket: the first malformed PTE of its eight, or else the lowest match. -/
def State.bucket (s : State) (a z va : Nat) : Walk :=
  let ps := (List.range 8).map (fun i => s.pteAt (a + 16 * i))
  match ps.find? (fun p => pteV p && s.pteMalformed p) with
  | some p => .bad p
  | none =>
    match ps.find? (fun p => pteV p && pteSize p = z && pteTag p = va / 2 ^ pageShift z) with
    | some p => .hit p
    | none => .miss

/-- The first result of a list of probes. -/
def firstWalk : List (Unit → Walk) → Walk
  | [] => .miss
  | f :: fs => match f () with
    | .miss => firstWalk fs
    | w => w

/-- The probes of one size. -/
def State.walkSize (s : State) (r : Dword) (va z : Nat) : Walk :=
  firstWalk ((List.range 8).map (fun j => fun _ => s.bucket (bucketAddr r z va j) z va))

/-- The page sizes that PTROOT enables. -/
def sizesOf (r : Dword) : List Nat := (List.range 5).filter (fun z => (ptSzen r).testBit z)

/-- A walk for va in context c (R331); a context without a table maps nothing. -/
def State.walk (s : State) (c va : Nat) : Walk :=
  if !s.hasTable c then .miss
  else
    let r := (s.ctx c).ptroot
    firstWalk ((sizesOf r).map (fun z => fun _ => s.walkSize r va z))

/-- Every translation that an access may use: the walk's, one through another page size (R331), and the PTEs that TLBs
may still hold (R334). -/
def State.choices (s : State) (c va : Nat) : List Walk :=
  let w := s.walk c va
  let r := (s.ctx c).ptroot
  let others : List Walk := match w with
    | .hit p => ((sizesOf r).filter (fun z => pteSize p < z)).filterMap (fun z =>
        match s.walkSize r va z with | .hit q => some (.hit q) | _ => none)
    | _ => []
  let old := (s.tlb.filter (fun e => e.1 = c && pteCovers e.2 va && Walk.hit e.2 ≠ w)).map (fun e => Walk.hit e.2)
  w :: (others ++ old)

/-- One of several, by a free choice when there is more than one. -/
def State.pick {α : Type} (s : State) (xs : List α) (d : α) : α × State :=
  match xs with
  | [] => (d, s)
  | [x] => (x, s)
  | x :: _ => (xs.getD (Config.freeNat s.free % xs.length) x, { s with free := s.free + 1 })

/-- Installs a PTE in the TLBs (R334). -/
def State.tlbAdd (s : State) (c : Nat) (p : Quad) : State :=
  if s.tlb.contains (c, p) then s else { s with tlb := (c, p) :: s.tlb }

/-- Translates va for context c. -/
def State.translate (s : State) (c va : Nat) : Walk × State :=
  let r := (s.ctx c).ptroot
  let s := if s.hasTable c && !ptMalformed r then s.touch (ptBase r) (128 * 2 ^ ptN r) else s
  let (w, s) := s.pick (s.choices c va) .miss
  match w with
  | .hit p => (w, s.tlbAdd c p)
  | _ => (w, s)

/-- The home stack of a page that is not present (R338 ABSENT). -/
def State.homeAbsent (s : State) (pa : Nat) : Bool :=
  match homeOf pa with
  | .stack n => !s.present n
  | _ => false

/-! ### Faults (R335, R336) -/

/-- EN, K and BASE of FQCFG and HQCFG. -/
def rqEn (r : Dword) : Bool := r.getLsbD 63
def rqSlots (r : Dword) : Nat := 2 ^ (bitsOf r.toNat 40 4 + 6)
def rqBase (r : Dword) : Nat := bitsOf r.toNat 0 40 * 4096
/-- FTMO of FQCFG. -/
def fqTmo (r : Dword) : Nat := bitsOf r.toNat 44 19

/-- V of the ring record at pa. -/
def State.recFull (s : State) (pa : Nat) : Bool := (cellGet s.mem (pa + 31)).getLsbD 7

/-- The fault record (R336). -/
def PFault.record (f : PFault) : Nat :=
  2 ^ 255 + f.kind * 2 ^ 245 + f.req * 2 ^ 242 + f.ctx * 2 ^ 236 + f.core * 2 ^ 229 + f.pte.toNat * 2 ^ 64
    + f.page * 4096 % 2 ^ 56

/-- Writes the records of faults that wait for one, in order, as far as the ring has free records. -/
def State.flushFaults (s : State) : State :=
  let step (a : State × List PFault) (f : PFault) : State × List PFault :=
    let s := a.1
    let pa := rqBase s.fqcfg + 32 * (s.fqIdx % rqSlots s.fqcfg)
    if f.rt0.isSome ∨ !rqEn s.fqcfg ∨ s.recFull pa then (s, a.2 ++ [f])
    else
      let s := s.touch pa 32
      let s := s.writePhys none 0 pa (toBytes f.record 32) 2
      ({ s with fqIdx := s.fqIdx + 1 }, a.2 ++ [{ f with rt0 := some s.rt }])
  let r := s.faults.foldl step (s, [])
  { r.1 with faults := r.2 }

/-- Reports a fault of context c at va (R335). False: it is declined at once, since EN = 0. -/
def State.raiseFault (s : State) (c va kind req core : Nat) (pte : Quad) : Bool × State :=
  if !rqEn s.fqcfg then (false, s)
  else if s.faults.any (fun f => f.ctx = c && f.page = va / 4096) then (true, s.flushFaults)
  else
    let f : PFault := { ctx := c, page := va / 4096, kind := kind, req := req, core := core, pte := pte, rt0 := none }
    (true, State.flushFaults { s with faults := s.faults ++ [f] })

end Sys2Proof.Machine
end

