-- ==== Sys2Proof/Machine/Hub.lean ====
section
/-! DEFINITION. What the hub does for the others: looks at virtual addresses, signals (R364), queue halts (R361),
halters (R388-R391), residency requests (R348), and the retirement of teams, groups and launches (R33, R216, R372). -/

namespace Sys2Proof.Machine

/-! ### Looking at a virtual address (R265, R338, R354) -/

/-- What an access of a context at a virtual address finds; `link` is an engine's, for a home behind a port that is
down (R434). -/
inductive Look where
  | ok (pa : Nat) (p : Quad)
  | miss
  | bad (p : Quad)
  | layer (l : Nat) (p : Quad)
  | absent (p : Quad)
  | perm (sub : Nat)
  | link
  deriving DecidableEq, Repr

/-- The permission violation of a write or RMW to a page (R338). -/
def ptePerm (p : Quad) : Option Nat :=
  if pteCls p = 1 then some 7 else if pteCmp p then some 8 else if !pteW p then some 6 else none

/-- What a translation means for a read, or for a write. -/
def State.lookAt (s : State) (w : Walk) (va : Nat) (write : Bool) : Look :=
  match w with
  | .miss => .miss
  | .bad p => .bad p
  | .hit p =>
    match (if write then ptePerm p else none) with
    | some k => .perm k
    | none =>
      if pteAbs p then .layer (pteLayer p) p
      else if s.homeAbsent (ptePa p va) then .absent p
      else .ok (ptePa p va) p

def State.look (s : State) (c va : Nat) (write : Bool) : Look × State :=
  let (w, s) := s.translate c va
  (s.lookAt w va write, s)

/-- Reports the fault of a look; false when it is declined at once. -/
def State.report (s : State) (c va req core : Nat) : Look → Bool × State
  | .bad p => s.raiseFault c va 1 req core p
  | _ => s.raiseFault c va 0 req core 0

/-- A fault of the page is outstanding. -/
def State.faulting (s : State) (c page : Nat) : Bool := s.faults.any (fun f => f.ctx = c && f.page = page)

/-! ### Cores and groups -/

/-- The matrix unit at reset: nothing queued, the lease free. -/
def MatrixU.atReset : MatrixU where
  queues := []
  rr := 0
  accAt := none
  acc := []
  tiles := []
  holder := none
  waiting := []
  saving := none
  rel := none
  evt := 0
  spu := 0
  rc0 := 0
  rc1 := 0
  fail := false

/-- A core at reset (R235, R393). -/
def Core.atReset : Core where
  l1 := []
  ibuf := []
  side := []
  mx := MatrixU.atReset
  mxcfg := 1
  sbcfg := 0
  bank := .idle
  image := none
  cycOff := 0
  slot := none

def State.core (s : State) (n : Nat) : Core := tgetD s.cores n Core.atReset
def State.modCore (s : State) (n : Nat) (f : Core → Core) : State := { s with cores := tset s.cores n (f (s.core n)) }
/-- EN of SBCFG: shadow mode (R26, R393). -/
def Core.shadow (c : Core) : Bool := c.sbcfg.getLsbD 63
/-- ACT of SBCFG. -/
def Core.act (c : Core) : Bool := c.sbcfg.getLsbD 62
def Core.busy (c : Core) : Bool := c.sbcfg.getLsbD 58
/-- The lease is free, granted or given up in the matrix unit of core n. -/
def State.modMx (s : State) (n : Nat) (f : MatrixU → MatrixU) : State :=
  s.modCore n (fun c => { c with mx := f c.mx })

/-- Group g gives up the lease, if it holds it (R216). -/
def State.leaseDrop (s : State) (n g : Nat) : State :=
  s.modMx n (fun m => if m.holder = some g then { m with holder := none, rel := none } else m)

/-! ### Physical records written by the hub -/

/-- Writes one aligned record of `n` bytes at a physical address for context c. -/
def State.hubWrite (s : State) (c : Option Nat) (k pa v n : Nat) : State :=
  (s.touch pa n).writePhys c k pa (toBytes v n) 3

/-! ### Halters (R388-R391) -/

def Master.code : Master → Nat
  | .team _ => 0 | .copyCtx _ => 1 | .decCtx _ => 1 | .queue _ => 2 | .session _ => 3

/-- The halter record (R390). -/
def Halter.record (h : Halter) : Nat :=
  2 ^ 255 + h.mst.code * 2 ^ 252 + h.hc * 2 ^ 248 + h.sub * 2 ^ 244 + h.ctx * 2 ^ 238 + h.core * 2 ^ 231
    + h.slot * 2 ^ 223 + h.inh.toNat * 2 ^ 222 + h.ocs * 2 ^ 218 + h.osub * 2 ^ 214 + h.pc.toNat * 2 ^ 72
    + h.hid * 2 ^ 48

/-- The event record of a halter (R445); how DATA holds HID and cause is free (log entry 4). -/
def State.recordHalter (s : State) (h : Halter) : State :=
  let core := match h.mst with | .team _ | .copyCtx _ | .decCtx _ => true | _ => false
  s.record 8 7 (if core then h.core else 0x7F) (if core then s.physOf h.core % 17 else 0x1F) 9 (Config.boxPack 7 h.hid h.hc)

/-- Writes the records of halters that wait for one, as far as the ring has free records (R336, R390). -/
def State.flushHalters (s : State) : State :=
  let step (a : State × List Halter) (h : Halter) : State × List Halter :=
    let s := a.1
    let pa := rqBase s.hqcfg + 32 * (s.hqIdx % rqSlots s.hqcfg)
    if h.told ∨ !rqEn s.hqcfg ∨ s.recFull pa then (s, a.2 ++ [h])
    else (State.recordHalter { s.hubWrite none 0 pa h.record 32 with hqIdx := s.hqIdx + 1 } h, a.2 ++ [{ h with told := true }])
  let r := s.halters.foldl step (s, [])
  { r.1 with halters := r.2 }

/-- The first of n, n + 1, … that no outstanding halter uses. -/
def freshHid (hs : List Halter) : Nat → Nat → Nat
  | 0, n => n
  | k + 1, n => if hs.any (fun h => h.hid = n % 2 ^ 16) then freshHid hs k (n + 1) else n % 2 ^ 16

/-- Records a halter. The identifier is free, but for being unique among those outstanding (log entry 4). -/
def State.addHalter (s : State) (h : Halter) : State :=
  let hid := freshHid s.halters s.halters.length (Config.freeNat s.free % 2 ^ 16)
  State.flushHalters { s with halters := s.halters ++ [{ h with hid := hid, told := false }], free := s.free + 1 }

/-! ### Queues (R359-R361) -/

def Queue.atReset : Queue where
  cfg := 0
  wi := 0
  ri := 0
  stat := 0
  last := 0
  live := []
  page := none
  fate := .open

def State.queue (s : State) (q : Nat) : Queue := tgetD s.queues q Queue.atReset
def State.modQueue (s : State) (q : Nat) (f : Queue → Queue) : State :=
  { s with queues := tset s.queues q (f (s.queue q)) }
def Queue.en (u : Queue) : Bool := u.cfg.getLsbD 63
def Queue.ctx (u : Queue) : Nat := bitsOf u.cfg.toNat 57 6
def Queue.prio (u : Queue) : Nat := bitsOf u.cfg.toNat 53 4
def Queue.log2n (u : Queue) : Nat := bitsOf u.cfg.toNat 49 4
def Queue.base (u : Queue) : Nat := bitsOf u.cfg.toNat 0 49 * 128
/-- HLT of QSTAT. -/
def Queue.halted (u : Queue) : Bool := u.stat.getLsbD 31

/-- Hardware sets a bit that a write of one clears (R6). -/
def State.w1cSet (s : State) (w : W1c) : State := { s with w1cAt := (w, s.clk) :: s.w1cAt.filter (fun e => e.1 ≠ w) }
/-- It did so in this clk: a clearing write of the same clk leaves the bit set. -/
def State.w1cNow (s : State) (w : W1c) : Bool := s.w1cAt.contains (w, s.clk)

/-- Halts queue q with cause hcs; RINGFLT and SIGFLT are halters (R361). With reporting off the halter is discarded,
and the queue stays halted. -/
def State.queueHalt (s : State) (q hcs : Nat) : State :=
  let s := (s.w1cSet (.hlt q)).modQueue q (fun u =>
    { u with stat := BitVec.ofNat 32 (2 ^ 31 + hcs * 2 ^ 28 + bitsOf u.stat.toNat 0 8) })
  if (hcs = 2 ∨ hcs = 3) ∧ rqEn s.hqcfg then
    s.addHalter { hid := 0, mst := .queue q, hc := 1, sub := hcs, ctx := (s.queue q).ctx, core := 0, slot := 0
                  inh := false, ocs := 0, osub := 0, pc := 0, told := false }
  else s

/-- Packet idx of queue q ends with a status: LST keeps the last error (R361). -/
def State.packetEnd (s : State) (q idx code : Nat) : State :=
  s.modQueue q (fun u =>
    { u with live := u.live.filter (fun p => p.idx ≠ idx)
             last := if u.ri.toNat = (idx + 1) % 2 ^ 32 then code else u.last
             stat := if code = 0 then u.stat else BitVec.ofNat 32 (setBits u.stat.toNat 0 8 code) })

/-! ### Signals (R364) -/

/-- What became of an access of the hub. -/
inductive Did where
  | done | held (page : Nat) | failed
  deriving DecidableEq, Repr

/-- Writes a signal of context c at va: VALUE becomes the maximum, or the saturating sum with `add`. -/
def State.writeSignal (s : State) (c va val code cause : Nat) (add : Bool) : Did × State :=
  if 2 ^ 56 ≤ va then (.failed, s) else
  let (l, s) := s.look c va true
  match l with
  | .ok pa p =>
    let old := ofBytes (cellsGet s.mem pa 8)
    let v := if add then min (old + val) (2 ^ 64 - 1) else max old val
    let rec_ := v + code * 2 ^ 64 + cause * 2 ^ 76
    let s := s.writeLine (some c) (pteCls p) (pteKey p) (lineOf pa) (lineAdd [] (pa % 128) (toBytes rec_ 16) 0) (pteBnd p) false
    (.done, s)
  | .miss | .bad _ =>
    let (held, s) := s.report c va 0 0 l
    (if held then .held (va / 4096) else .failed, s)
  | _ => (.failed, s)

/-! ### Residency requests (R348) -/

/-- The residency of layer l of the model of context c. -/
def State.layerOf (s : State) (c l : Nat) : Option Layer := (tget s.models c).bind (fun m => m.layers[l]?)
def State.modLayer (s : State) (c l : Nat) (f : Layer → Layer) : State :=
  { s with models := tmod s.models c (fun m => { m with layers := m.layers.modify l f }) }

/-- A request for a layer: an ABSENT layer becomes ARRIVING and queues; a demand turns a queued hint into a demand. -/
def State.request (s : State) (c l : Nat) (demand : Bool) (named : List Nat) : State :=
  match s.layerOf c l with
  | none => s
  | some y =>
    match y.st with
    | .absent =>
      let s := s.modLayer c l (fun y => { y with st := .arriving, frames := [] })
      { s with swaps := s.swaps ++ [{ id := s.nextReq, ctx := c, layer := l, demand := demand, named := named }]
               nextReq := s.nextReq + 1 }
    | .arriving =>
      if demand then
        { s with swaps := s.swaps.map (fun r => if r.ctx = c ∧ r.layer = l then { r with demand := true } else r) }
      else s
    | _ => s

/-- HTMO of the model of context c, in rt ticks; 0 for none (R342). -/
def State.htmo (s : State) (c : Nat) : Nat := ((tget s.models c).map (fun m => m.htmo)).getD 0 * 1024

/-! ### Launches (R372) -/

/-- An error of a launch: the first in time, and the lower code within one clk (R364). -/
def State.launchErr (s : State) (l code cause : Nat) : State :=
  { s with launches := tmod s.launches l (fun x =>
      match x.first with
      | none => { x with first := some (s.clk, code, cause) }
      | some (t, k, _) => if t = s.clk ∧ code < k then { x with first := some (t, code, cause) } else x) }

/-- CODE and CAUSE of a launch. -/
def Launch.status (x : Launch) : Nat × Nat := match x.first with | none => (0, 0) | some (_, k, c) => (k, c)

/-- Some core's side log holds an entry of the launch. -/
def State.sideOf (s : State) (l : Nat) : Bool := s.cores.any (fun c => c.2.side.any (fun e => e.launch = l))

/-- Every team of the launch has been placed and has retired. -/
def Launch.allRetired (x : Launch) : Bool := x.placed = x.nGroups && x.alive = 0

/-- Writes the signal of launch l if it is due and not yet written (R372); a held write stays due. -/
def State.launchSignal (s : State) (l : Nat) : State :=
  match tget s.launches l with
  | none => s
  | some x =>
    let due := !x.sigDone && x.allRetired && (x.rel.isNone || !s.sideOf l) && !(x.sigPage.map (s.faulting x.ctx)).getD false
    match due, x.sig with
    | true, some (va, v) =>
      let (k, c) := x.status
      let (d, s) := s.writeSignal x.ctx va v k c false
      match d with
      | .done => { s with launches := tmod s.launches l (fun x => { x with sigDone := true }) }
      | .held p => { s with launches := tmod s.launches l (fun x => { x with sigPage := some p }) }
      | .failed => State.queueHalt { s with launches := tmod s.launches l (fun x => { x with sigDone := true }) } x.queue 3
    | true, none => { s with launches := tmod s.launches l (fun x => { x with sigDone := true }) }
    | false, _ => s

/-- The launch took an error of a DRAINING team in this clk: it completes in a later one (R377). -/
def Launch.late (x : Launch) (clk : Nat) : Bool := x.first.any (fun e => e.1 = clk && e.2.1 = 6)

/-- Launch l becomes complete when every team has retired and its side-log entries are settled (R372). -/
def State.launchEnd (s : State) (l : Nat) : State :=
  match tget s.launches l with
  | none => s
  | some x =>
    if !x.complete && x.allRetired && !s.sideOf l then
      State.packetEnd { s with launches := tmod s.launches l (fun x => { x with complete := true }) } x.queue x.idx x.status.1
    else s

/-- Writes the signal of launch l and completes it, as far as either is due (R372). -/
def State.launchCheck (s : State) (l : Nat) : State :=
  match tget s.launches l with
  | none => s
  | some x => if x.late s.clk then s else (s.launchSignal l).launchEnd l

/-! ### Retirement (R33, R216) -/

/-- Frees a group whose last team has gone: scratchpad, barriers, engine contexts, and the lease. -/
def State.groupCheck (s : State) (g : Nat) : State :=
  if s.teams.any (fun t => t.2.group = g) then s
  else
    match tget s.groups g with
    | none => s
    | some x => State.leaseDrop { s with groups := tdel s.groups g } x.core g

/-- A team of the group has retired, for a cluster or stack barrier record; the last one frees the record (R424). -/
def State.wideGone (s : State) (w : Option Nat) : State :=
  match w with
  | none => s
  | some i =>
    match tget s.wide i with
    | none => s
    | some b =>
      if b.exp ≤ b.gone + 1 then { s with wide := tdel s.wide i }
      else { s with wide := tset s.wide i { b with gone := b.gone + 1 } }

/-- Frees a team, and with it what its group and its launch held for it. A side-log entry that was discarded, which no
release of the team has reported, is recorded in the launch (R286). -/
def State.freeTeam (s : State) (t : Nat) : State :=
  match tget s.teams t with
  | none => s
  | some tm =>
    let s := if tm.sideLost then s.launchErr tm.launch 7 0 else s
    let s := { s with teams := tdel s.teams t }
    let s := s.modMx tm.core (fun m => { m with waiting := m.waiting.filter (fun r =>
      r.group ≠ tm.group || s.teams.any (fun u => u.2.group = tm.group)) })
    let s := match tget s.groups tm.group with
      | some g => (s.wideGone g.cluster).wideGone g.stackB
      | none => s
    let s := s.groupCheck tm.group
    let s := { s with launches := tmod s.launches tm.launch (fun x =>
      { x with alive := x.alive - 1, retired := x.retired + 1 }) }
    s.launchCheck tm.launch

/-- Some core's side log holds an entry of team t. -/
def State.sideTeam (s : State) (t : Nat) : Bool := s.cores.any (fun c => c.2.side.any (fun e => e.team = t))

/-- A DRAINING team whose operations have all completed retires (R33): not in the clk of its last exit while a
permission violation of an entry of the side log may still halt it (R34). -/
def State.retireCheck (s : State) (t : Nat) : State :=
  match tget s.teams t with
  | some tm =>
    if tm.life = .draining ∧ !s.ops.any (fun o => o.2.team = t) ∧ !(tm.drainAt = s.clk && s.sideTeam t) then s.freeTeam t else s
  | none => s

/-- Every DRAINING team that may retire does. -/
def State.retireAll (s : State) : State :=
  (s.teams.filter (fun t => t.2.life = .draining)).foldl (fun s t => s.retireCheck t.1) s

/-- A team whose lanes are all discarded: it only waits for its operations, and an open task is gone with its version
(R203, R391). -/
def Team.discarded (tm : Team) : Team :=
  let gone (p : Path) : Path := { p with ended := true, hold := .free, claim := none }
  { tm with life := .draining, split := false, p0 := gone tm.p0, p1 := gone tm.p1, exited := allLanes, task := none, intr := none
            pendTrap := none, perm := none }

/-- Discards a HALTERED team (R391): its launch records DISCARD; its halter is gone, and so is its group's lease (R216). It
is freed as at retirement, when its operations have completed. -/
def State.discardTeam (s : State) (t : Nat) : State :=
  match tget s.teams t with
  | none => s
  | some tm =>
    let s := { s with halters := s.halters.filter (fun h => h.mst ≠ Master.team t) }
    (((s.leaseDrop tm.core tm.group).launchErr tm.launch 8 0).modTeam t Team.discarded).retireCheck t

/-- The slot number of a halter record: 64 times the quadrant, and the slot. -/
def Team.slotNo (tm : Team) : Nat := 64 * tm.quad + tm.slot

/-- Halters team t, which resumes at pc; with reporting off, it is discarded at once (R390). -/
def State.haltTeam (s : State) (t : Nat) (f : Bool) (hc sub ocs osub : Nat) (hval : Dword) (pc : BitVec 64) : State :=
  match tget s.teams t with
  | none => s
  | some tm =>
    let s := s.modTeam t (fun tm => { tm.setPath f { tm.path f with pc := pc, hold := .free } with
                                        life := .haltered, hval := hval, perm := none, pendTrap := none })
    if rqEn s.hqcfg then
      s.addHalter { hid := 0, mst := .team t, hc := hc, sub := sub, ctx := tm.ctx, core := tm.core, slot := tm.slotNo
                    inh := tm.inH, ocs := ocs, osub := osub, pc := pc.setWidth 56, told := false }
    else s.discardTeam t

end Sys2Proof.Machine
end

