-- ==== Sys2Proof/Machine/Fetch.lean ====
section
/-! DEFINITION. Instruction fetch through translation and the instruction buffer (R40, R41), and its holds. -/

namespace Sys2Proof.Machine

/-- What a fetch gives. -/
inductive Fetch (α : Type) where
  | got (x : α)
  | hold (page layer : Option Nat)
  | trap (c : Cause) (sub : Nat) (val : Nat)
  deriving DecidableEq, Repr

/-- The buffer line of a context and virtual line. -/
def Core.ibufLine (c : Core) (ctx vline : Nat) : Option L1Line := c.ibuf.find? (fun l => l.ctx = ctx && l.vline = vline)

/-- The line leaves the instruction buffer. -/
def State.ibufDrop (s : State) (n ctx vline : Nat) : State :=
  s.modCore n (fun c => { c with ibuf := c.ibuf.filter (fun l => !(l.ctx = ctx && l.vline = vline)) })

/-- The 32-bit word at pa, as the buffer serves it: the form of memory, or the older form of the buffer line where the
two differ, by a free choice (R40). -/
def State.codeWord (s : State) (old : Option L1Line) (pa k : Nat) : List Byte × State :=
  let (now, s) := s.readBytes pa 4 k
  match old with
  | none => (now, s)
  | some l =>
    let was := (l.data.drop (pa % 128)).take 4
    if was = now then (now, s)
    else (if Config.freeNat s.free % 2 = 0 then was else now, { s with free := s.free + 1 })

/-- Reads one code word for a path of team tm, with the events of R41 in their order; `st` is the page that held the fetch so
far and the fate of that hold, which the word on that page meets. TVAL of a trap is the word's address (log entry 26). -/
def State.fetchWord (s : State) (tm : Team) (st : Option (Nat × Fate)) (va : Nat) : Fetch (List Byte) × State :=
  let met : Fate := match st with | some (p, f) => if p = va / 4096 then f else .open | none => .open
  if 2 ^ 56 ≤ va then (.trap .xlat 0 va, s)
  else if met = .declined then (.trap .xlat 2 va, s)
  else if met = .failed then (.trap .swapf 1 va, s)
  else if met = .timeout then (.trap .swapf 0 va, s)
  else
    let (w, s) := s.translate tm.ctx va
    match w with
    | .miss | .bad _ =>
      let (held, s) := s.report tm.ctx va 6 tm.core (s.lookAt w va false)
      (if held then .hold (some (va / 4096)) none else .trap .xlat 2 va, s)
    | .hit p =>
      if pteCmp p then (.trap .xlat 4 va, s)
      else match s.lookAt w va false with
        | .layer l _ =>
          if (s.layerOf tm.ctx l).map (fun y => y.st) = some .failed then (.trap .swapf 1 va, s)
          else (.hold (some (va / 4096)) (some l), s.request tm.ctx l true [])
        | .absent _ => (.trap .xlat 5 va, s)
        | .ok pa _ =>
          let line := lineOf pa
          let k := pteKey p
          if s.poisoned line k then (.trap .ecc 5 0, s)
          else
            let old := (s.core tm.core).ibufLine tm.ctx (va / 128)
            if old.any (fun l => l.poison) then (.trap .ecc 4 0, s.ibufDrop tm.core tm.ctx (va / 128))
            else
            let s := if old.isSome then s else s.cacheRead (tm.core / 16) tm.ctx (pteCls p) line
            if old.isNone && s.replicaBad (tm.core / 16) line then (.trap .ecc 5 0, s) else
            let (bs, s) := s.codeWord old pa k
            let s := if old.isSome then s else
              s.modCore tm.core (fun c =>
                { c with ibuf := { ctx := tm.ctx, vline := va / 128, cls := pteCls p, data := cellsGet s.mem (line * 128) 128
                                   lbr := 0, poison := false } :: c.ibuf })
            (.got bs, s)
        | _ => (.trap .xlat 2 va, s)

/-- Reads the three words of the instruction at pc (R40). -/
def State.fetchInst (s : State) (tm : Team) (st : Option (Nat × Fate)) (pc : Nat) : Fetch Inst96 × State :=
  let step (a : Fetch (List Byte) × State) (j : Nat) : Fetch (List Byte) × State :=
    match a.1 with
    | .got bs =>
      let (r, s) := a.2.fetchWord tm st (pc + 4 * j)
      (match r with | .got cs => .got (bs ++ cs) | r => r, s)
    | _ => a
  let (r, s) := [0, 1, 2].foldl step (.got [], s)
  (match r with
   | .got bs => .got (BitVec.ofNat 96 (ofBytes bs))
   | .hold p l => .hold p l
   | .trap c k v => .trap c k v, s)

/-- What legality depends on besides the word (R44, R45, R317, R320). -/
def State.decCtx (s : State) (tm : Team) : DecCtx :=
  match tget s.groups tm.group with
  | some g => ⟨tm.nRegs, tm.topTeam, g.nbar, g.cluster.isSome, g.stackB.isSome⟩
  | none => ⟨tm.nRegs, tm.topTeam, 0, false, false⟩

/-- The instruction that stands at pc, looked at without a trace: none where a fetch would not give one. -/
def State.peek (s : State) (tm : Team) (pc : Nat) : Option Instr :=
  match (s.fetchInst tm none pc).1 with
  | .got w => (decode (s.decCtx tm) w).toOption
  | _ => none

end Sys2Proof.Machine
end

