-- ==== Sys2Proof/Machine/Paths.lean ====
section
/-! DEFINITION. Paths and the reconvergence stack (R122-R129): views, run_path, path_end, complete_join, fuse, demotion
(R38, R127); the closing of a versioned task (R199, R203). -/

namespace Sys2Proof.Machine

/-- An address as the 54 bits of a stack entry, and back (R124). -/
def toEntryPc (a : BitVec 64) : BitVec 54 := a.extractLsb' 2 54
def ofEntryPc (a : BitVec 54) : BitVec 64 := (a.setWidth 64) <<< 2

/-! ### Views (R125); the list holds the most recent entry first -/

/-- The most recent entry of the view of fragment f, the stack without it, and how many entries lie below it. -/
def popView (split f : Bool) : List Entry → Option (Entry × List Entry × Nat)
  | [] => none
  | e :: r =>
    if !split || e.spl || e.frag = f then some (e, r, r.length)
    else (popView split f r).map (fun x => (x.1, e :: x.2.1, x.2.2))

/-- The view of fragment f. -/
def viewOf (split f : Bool) : List Entry → List Entry
  | [] => []
  | e :: r => if !split then e :: r else if e.spl then e :: r else if e.frag = f then e :: viewOf split f r else viewOf split f r

/-- The stack with entry x inserted directly above the most recent JOIN of the view of fragment f (R127). -/
def insertAboveJoin (split f : Bool) (x : Entry) : List Entry → List Entry
  | [] => [x]
  | e :: r =>
    if (!split || e.spl || e.frag = f) && e.kind = .join then x :: e :: r else e :: insertAboveJoin split f x r

/-- The stack with the top entry of the view of fragment f replaced. -/
def setTop (split f : Bool) (x : Entry) : List Entry → List Entry
  | [] => []
  | e :: r => if !split || e.spl || e.frag = f then x :: r else e :: setTop split f x r

/-- The stack with the first corrupted entry that fragment f meets marked no longer. -/
def mendFirst (split f : Bool) : List Entry → List Entry
  | [] => []
  | e :: r => if (!split || e.spl || e.frag = f) && e.bad then { e with bad := false } :: r else e :: mendFirst split f r

/-- A push by fragment f (R125). -/
def Team.push (tm : Team) (f : Bool) (e : Entry) : Team := { tm with stack := { e with frag := tm.split && f } :: tm.stack }

/-! ### Tasks -/

/-- A task is open for the team's own instructions: not for those of a handler (R197). -/
def Team.inTask (tm : Team) : Option Task := if tm.inH then none else tm.task

/-- Closes the task without commit: the version goes, GFL and GCL return, XAB is set (R197, R199, R203, R210). -/
def Team.abortTask (tm : Team) : Team :=
  match tm.task with
  | none => tm
  | some k => { tm with task := none, mode := mSetGears tm.mode (mGfl k.mode) (mGcl k.mode)
                        bstat := bsSet (bsSet tm.bstat 13 1 0) 11 1 1 }

/-! ### Moving along the stack -/

/-- Why a move along the stack cannot be made: DSTACK REFILL (R126), TASKOP STACK (R197), or ECC, for a corrupted entry
(R397). -/
inductive PErr where
  | refill | stack | ecc
  deriving DecidableEq, Repr

/-- The procedures of R125. `same`: the path goes on as the path that it was, since it neither ended nor fused nor handed
over; an EXM write in flight then lands on it (R128), and its spin counter stays (R38). -/
inductive Go where
  | run (pc : BitVec 64) (m : Mask) (same : Bool)
  | ended
  | join (e : Entry) (same : Bool)
  | fuse
  deriving DecidableEq, Repr

/-- The header of the `rjoin` in which path p waits at the split JOIN (R136). -/
def Path.joinHdr (p : Path) : Option Hdr :=
  match p.hold with
  | .inside (.rjoin h) .. => some h
  | .inside (.rjoinTo h _ _) .. => some h
  | _ => none

/-- Path p waits at the split JOIN inside its `rjoin` (R136). -/
def Path.atJoin (p : Path) : Bool := p.joinHdr.isSome

/-- The clk from which a path may issue (R101). -/
def Countdown.until : Countdown → Nat
  | .none => 0 | .stall c => c | .dly c => c | .frozen _ _ => 0

/-- The clk from which the team may issue after a fusion in clk n, as far as path p says: its countdown, and the STALL of
an `rjoin` whose hold ends here (R101, R129). -/
def Path.joinUntil (p : Path) (n : Nat) : Nat :=
  match p.joinHdr with
  | some h => max p.cd.until (n + 1 + h.sc.stall.toNat)
  | none => p.cd.until

/-- The post of the `rjoin` in which path p waits, whose hold ends in clk n (R106). -/
def State.joinPost (s : State) (t : Nat) (b : Bank) (p : Path) (n : Nat) : State :=
  match p.joinHdr.bind (fun h => h.sc.post) with
  | some k => s.pendAdd t ⟨n + 2, 0, .post b k.toNat none⟩
  | none => s

/-- The entry at height `ix` may be popped: not one below the snapshot of an open task, by an instruction of the attempt
(R197). -/
def Team.mayPop (tm : Team) (ix : Nat) : Bool :=
  match tm.inTask with
  | none => true
  | some k => k.stack.length ≤ ix

/-- The last lane has exited: the team drains, and an open task closes without commit (R33, R203). -/
def State.drainTeam (s : State) (t : Nat) (f : Bool) : State :=
  let s := s.modTeam t (fun tm =>
    let tm := tm.abortTask
    { tm.setPath f { tm.path f with ended := true, hold := .free } with life := .draining, drainAt := s.clk })
  s.retireCheck t

/-- The procedures of R125 for fragment f of team t, on `fuel` moves. DEDUCED: a path that ends with an empty view and SPILL above 0
needs a spilled entry and raises REFILL, in `exit` too (R126; log entry 24). -/
def State.go : Nat → State → Nat → Bool → Go → Except PErr State
  | 0, s, _, _, _ => .ok s
  | k + 1, s, t, f, g =>
    match tget s.teams t with
    | none => .ok s
    | some tm =>
      match g with
      | .run pc m same =>
        let e := m &&& ~~~tm.exited
        let p := if same then tm.path f else { tm.path f with pid := s.nextPid, spin := 0, demoted := false }
        let s := { s.modTeam t (fun tm => tm.setPath f { p with pc := pc, exm := e, pmask := e, hold := .free, ended := false })
          with nextPid := if same then s.nextPid else s.nextPid + 1 }
        if e = 0 then s.go k t f .ended else .ok s
      | .ended =>
        match popView tm.split f tm.stack with
        | none =>
          if 0 < tm.spill then .error .refill
          else if tm.inH then .ok s
          else .ok (s.drainTeam t f)
        | some (e, rest, ix) =>
          let s' := s.modTeam t (fun tm => { tm with stack := rest })
          if e.bad then .error .ecc
          else if e.kind = .join ∧ e.spl then
            let s := s.modTeam t (fun tm => tm.setPath f { tm.path f with ended := true, hold := .free })
            if (tm.path (!f)).ended || (tm.path (!f)).atJoin then s.go k t f .fuse else .ok s
          else if !tm.mayPop ix then .error .stack
          else if e.kind = .path then s'.go k t f (.run (ofEntryPc e.pc) e.mask false)
          else if !e.used then s'.go k t f .ended
          else s'.go k t f (.join e false)
      | .join e same =>
        let s := match s.peek tm (ofEntryPc e.pc).toNat with
          | some (.rjoinTo _ d _) => s.landUpd t 0 (.prd d.toNat (e.mask &&& ~~~tm.exited) 0 0)
          | _ => s
        s.go k t f (.run (ofEntryPc e.pc + 12) e.mask same)
      | .fuse =>
        match popView true false (tm.stack.dropWhile (fun e => !e.spl)) with
        | none => .ok s
        | some (e, rest, ix) =>
          if !tm.mayPop ix then .error .stack
          else
            let c := max (tm.p0.joinUntil s.clk) (tm.p1.joinUntil s.clk)
            let p := if tm.p0.ended then tm.p1 else tm.p0
            let s := (s.joinPost t tm.curBank (tm.path (!f)) s.clk).modTeam t (fun tm =>
              { tm with split := false, stack := rest
                        p0 := { p with cd := if c ≤ s.clk then .none else .stall c, ended := false, hold := .free } })
            let s := { s with ops := tmap s.ops (fun _ o => if o.team = t then { o with frag := 0 } else o) }
            s.go k t false (.join e false)

/-- Enough moves for any stack: each takes an entry away, but for a fusing and its join. -/
def State.walkStack (s : State) (t : Nat) (f : Bool) (g : Go) : Except PErr State :=
  let n := match tget s.teams t with | none => 0 | some tm => tm.stack.length
  s.go (3 * n + 8) t f g

/-! ### Demotion (R38, R127) -/

/-- Demotes the running path of fragment f. DEDUCED: it hands over, so an EXM write of the path in flight is discarded (R128; log
entry 24). -/
def State.demote (s : State) (t : Nat) (f : Bool) : Except PErr State :=
  match tget s.teams t with
  | none => .ok s
  | some tm =>
    let p := tm.path f
    let s := s.modTeam t (fun tm => tm.setPath f { tm.path f with spin := 0 })
    match popView tm.split f tm.stack with
    | some (e, rest, ix) =>
      if e.bad then .error .ecc
      else if e.kind = .path then
        if !tm.mayPop ix then .error .stack
        else
          let x : Entry := { kind := .path, used := false, spl := false, frag := tm.split && f
                             pc := toEntryPc p.pc, mask := p.pmask &&& ~~~tm.exited, bad := false }
          let s := s.modTeam t (fun tm => { tm with stack := insertAboveJoin tm.split f x rest })
          s.walkStack t f (.run (ofEntryPc e.pc) e.mask false)
      else .ok (lone s tm)
    | none => .ok (lone s tm)
where
  lone (s : State) (tm : Team) : State :=
    if tm.split ∧ !(tm.path (!f)).ended then
      s.modTeam t (fun tm =>
        let tm := tm.setPath f { tm.path f with demoted := true }
        tm.setPath (!f) { tm.path (!f) with demoted := false })
    else s

/-- A demotion lifts when the sibling waits inside an instruction, or has ended (R38). -/
def State.liftSibling (s : State) (t : Nat) (f : Bool) : State :=
  s.modTeam t (fun tm =>
    let p := tm.path f
    let waits := p.ended || (match p.hold with | .free => false | _ => true)
    if waits then tm.setPath (!f) { tm.path (!f) with demoted := false } else tm)

/-- A taken branch to `target` from `pc` (R38): counts towards the spin detector, which demotes at 64 with PROG = 0. -/
def State.tookBranch (s : State) (t : Nat) (f : Bool) (pc target : BitVec 64) : Except PErr State :=
  match tget s.teams t with
  | none => .ok s
  | some tm =>
    if pc.toNat < target.toNat ∨ mProg tm.mode then .ok s
    else
      let n := (tm.path f).spin + 1
      let s := s.modTeam t (fun tm => tm.setPath f { tm.path f with spin := n })
      if 64 ≤ n then s.demote t f else .ok s

end Sys2Proof.Machine
end

