-- ==== Sys2Proof/Machine/Ops.lean ====
section
/-! DEFINITION. The shared operations of issue: hazards and the checking scoreboard (R103-R113), taking a trap and the
return from it (R378-R406), breaches and re-runs (R199-R201), the completion of token-class operations (R106-R112), and
`State.issue`, the frame that every instruction's meaning fills in. -/

namespace Sys2Proof.Machine

/-! ### Ports -/

/-- Team state that is no register and that an instruction reads (R397): a token of the normal or of the current bank, the
records of a descriptor. -/
inductive Aux where
  | tok (normal : Bool) (k : Nat)
  | desc (n : Nat) (scale : Bool)
  deriving DecidableEq, Repr

/-- An operand of an instruction: its field encoding, whether it is written, its registers, and other state that it reads. -/
structure Port where
  enc : BitVec 10
  wr  : Bool
  vs  : List Nat
  ss  : List Nat
  ps  : List Nat
  exm : Bool
  aux : List Aux
  deriving DecidableEq, Repr

/-- The port of an operand of n registers; none for operands that are no register. -/
def opPort (wr : Bool) (n : Nat) (o : Opnd) : List Port :=
  match o with
  | .v k => [⟨o.code, wr, (List.range n).map (k.toNat + ·), [], [], false, []⟩]
  | .s k => [⟨o.code, wr, [], (List.range n).map (k.toNat + ·), [], false, []⟩]
  | .x (.p k) => if k = 7 then [] else [⟨o.code, wr, [], [], [k.toNat], false, []⟩]
  | .x .exm => [⟨o.code, wr, [], [], [], true, []⟩]
  | _ => []

/-- A source, and a destination, of n registers. -/
def rd (n : Nat) (o : Opnd) : List Port := opPort false n o
def wr (n : Nat) (o : Opnd) : List Port := opPort true n o
/-- A predicate source and destination. -/
def rdPred (p : BitVec 3) : List Port := rd 1 (.x (.p p))
def wrPred (p : BitVec 3) : List Port := wr 1 (.x (.p p))
/-- A token that an instruction reads, and the records of a descriptor. -/
def rdTok (normal : Bool) (k : Nat) : List Port := [⟨0, false, [], [], [], false, [.tok normal k]⟩]
def rdDesc (n : Nat) : List Port := [⟨0, false, [], [], [], false, [.desc n false, .desc n true]⟩]
/-- Registers of an element of type t. -/
def tyN (t : Ty) : Nat := if t.w64 then 2 else 1

/-- The port covers the register lane of a key, within the effective mask e. -/
def Port.hit (po : Port) (e : Mask) (key : Nat) : Bool :=
  if key < 2 ^ 16 then po.vs.contains (key / 64) && lane e (key % 64)
  else if key < 2 ^ 17 then po.ss.contains (key - 2 ^ 16)
  else if key < 2 ^ 18 then po.ps.contains ((key - 2 ^ 17) / 64) && lane e ((key - 2 ^ 17) % 64)
  else po.exm

/-- Pending fixed-latency writes of the team that a path of the given name may read ahead of: every register write, and
the path's own writes of EXM (R103, R122, R128). -/
def Team.pendUpds (tm : Team) (pid : Nat) : List Upd :=
  tm.pend.filterMap (fun p => match p.act with
    | .upd (.exm v) => if p.pid = pid then some (.exm v) else none
    | .upd u => some u
    | _ => none)

/-- The destination lanes of operations that the team's held instructions will make (R100, R113). -/
def Team.claimedLanes (tm : Team) : List Nat :=
  [tm.p0, tm.p1].flatMap (fun p => (p.claimed.map (fun c => c.dst)).getD [])

/-- A lane of the port is still due from an outstanding token-class operation (R113). -/
def State.tokenHit (s : State) (t : Nat) (tm : Team) (e : Mask) (po : Port) : Bool :=
  s.ops.any (fun o => o.2.team = t && o.2.dst.any (po.hit e)) || tm.claimedLanes.any (po.hit e)

/-- The first UNDERWAIT of an instruction of the path `pid` (R113): its sub-code and the offending operand's encoding. -/
def State.underwait (s : State) (t : Nat) (tm : Team) (pid : Nat) (e : Mask) : List Port → Option (Nat × BitVec 10)
  | [] => none
  | po :: ps =>
    if po.wr then (if s.tokenHit t tm e po then some (2, po.enc) else s.underwait t tm pid e ps)
    else if (tm.pendUpds pid).any (fun u => u.keys.any (po.hit e)) then some (0, po.enc)
    else if s.tokenHit t tm e po then some (1, po.enc)
    else s.underwait t tm pid e ps

/-! ### Under-waited reads (R111) -/

/-- What a known write gives a register lane. -/
def Upd.cellAt (u : Upd) (key : Nat) : Option RegCell :=
  match u with
  | .vec r ls => if key < 2 ^ 16 && key / 64 = r then
      (ls.find? (fun x => x.lane = key % 64)).bind (fun x => match x.val, x.bnd with | some v, some b => some ⟨v, b⟩ | _, _ => none)
    else none
  | .sca r v b => if key = keyS r then (match v, b with | some v, some b => some ⟨v, b⟩ | _, _ => none) else none
  | _ => none

/-- What an outstanding operation's write gives a destination lane that reads as `old`: its result where that is known,
and nothing new while the operation has still to be performed, or where it has failed (R108, R111). -/
def Op.newCell (o : Op) (key : Nat) (old : RegCell) : RegCell :=
  match o.work with
  | .done us => (us.findSome? (fun (u : Upd) => u.cellAt key)).getD old
  | _ => old

/-- Old or new, chosen for the value and for the bound on their own. -/
def mixCell (old new : RegCell) (n : Nat) : RegCell :=
  ⟨if Config.freeNat (n + 1) % 2 = 0 then old.val else new.val, if Config.freeNat (n + 2) % 2 = 0 then old.bnd else new.bnd⟩

/-- A register lane changed. -/
def Team.mapKey (tm : Team) (key : Nat) (f : RegCell → RegCell) : Team :=
  if key < 2 ^ 16 then
    let r := key / 64
    let row := tm.vrow r
    { tm with v := tset tm.v r (lanes.map (fun l => if l = key % 64 then f (row.cell l) else row.cell l)) }
  else { tm with s := tset tm.s (key - 2 ^ 16) (f (tm.sreg (key - 2 ^ 16))) }

/-- The team's registers as a reader sees them that does not wait for outstanding operations (R111). -/
def State.readView (s : State) (t : Nat) (tm : Team) : Team × State :=
  let hs := (s.ops.filter (fun o => o.2.team = t)).flatMap (fun o => o.2.dst.map (fun k => (o.2, k)))
  if hs.isEmpty then (tm, s)
  else
    let r := hs.foldl (fun (a : Team × Nat) (h : Op × Nat) =>
      (a.1.mapKey h.2 (fun old => mixCell old (h.1.newCell h.2 old) a.2), a.2 + 3)) (tm, s.free)
    (r.1, { s with free := r.2 })

/-! ### Causes -/

/-- The codes of R378. -/
def Cause.code : Cause → Nat
  | .illop => 1 | .underwait => 2 | .breach => 3 | .kerr => 4 | .kovf => 5 | .illconv => 6 | .dstack => 7 | .xlat => 8
  | .swapf => 9 | .align => 10 | .priv => 11 | .taskop => 12 | .ecc => 13 | .trap => 15

/-! ### Taking a trap (R379-R386) -/

/-- V and ENTRY of THCFG (R381). -/
def thV (r : Dword) : Bool := r.getLsbD 63
def thEntry (r : Dword) : BitVec 64 := (r.setWidth 56).setWidth 64

/-- An entry as 128 bits (R124). -/
def Entry.bits (e : Entry) : Nat :=
  (match e.kind with | .join => 1 | .path => 2) * 2 ^ 126 + e.used.toNat * 2 ^ 125 + e.spl.toNat * 2 ^ 124
    + e.frag.toNat * 2 ^ 123 + e.pc.toNat * 2 ^ 64 + e.mask.toNat

/-- The entry that 128 bits hold; none for a reserved KIND or a non-zero reserved field (R126). -/
def Entry.ofBits (n : Nat) : Option Entry :=
  let k := n / 2 ^ 126 % 4
  if (k = 1 ∨ k = 2) ∧ bitsOf n 118 5 = 0 then
    some { kind := if k = 1 then .join else .path, used := n.testBit 125, spl := n.testBit 124, frag := n.testBit 123
           pc := BitVec.ofNat 54 (n / 2 ^ 64), mask := BitVec.ofNat 64 n, bad := false }
  else none

/-- The stack status word (R126). -/
def Team.stackWord (tm : Team) : Nat := tm.spill * 2 ^ 16 + tm.stack.length

/-- The first 640 bytes of the trap frame (R383). -/
def Team.frame (tm : Team) (f : Bool) : List Byte :=
  let p := tm.path f
  let status := tm.stackWord + tm.split.toNat * 2 ^ 32 + f.toNat * 2 ^ 33
  let ents := tm.stack.reverse.flatMap (fun e => toBytes e.bits 16)
  toBytes status 8 ++ toBytes p.exm.toNat 8 ++ toBytes p.pmask.toNat 8 ++ List.replicate 104 0
    ++ ents ++ List.replicate (512 - ents.length) 0

/-- Drops the L1 line of (context, virtual line) from core n. -/
def State.l1Drop (s : State) (n c vline : Nat) : State :=
  s.modCore n (fun x => { x with l1 := x.l1.filter (fun l => !(l.ctx = c && l.vline = vline)) })

/-- Writes the five lines of a trap frame at va, as stores of the team with exact data. -/
def State.writeFrame (s : State) (tm : Team) (va pa : Nat) (p : Quad) (bs : List Byte) : State :=
  (List.range 5).foldl (fun s j =>
    let s := s.writeLine (some tm.ctx) (pteCls p) (pteKey p) (lineOf pa + j) (lineAdd [] 0 ((bs.drop (128 * j)).take 128) 0) (pteBnd p) true
    s.l1Drop tm.core tm.ctx (va / 128 + j)) s

/-- The team as its handler starts (R382). -/
def Team.enterHandler (tm : Team) (x : PendTrap) (entry : BitVec 64) (pid clk : Nat) : Team :=
  let f := x.frag
  let p := tm.path f
  let sib := tm.path (!f)
  let held := match sib.hold with | .inside .. => true | _ => false
  let frag : Nat := if tm.split ∧ !sib.ended then
    2 ^ 127 + held.toNat * 2 ^ 118 + (toEntryPc sib.pc).toNat * 2 ^ 64 + sib.exm.toNat else 0
  let m := if p.exm = 0 then p.pmask &&& ~~~tm.exited else p.exm
  let tm := tm.setPath f { p with pid := pid, pc := entry, exm := m, pmask := m, hold := .free, spin := 0
                                  demoted := false, cd := .stall (clk + 16) }
  { tm with tfrag := BitVec.ofNat 128 frag
            tcause := BitVec.ofNat 32 (2 ^ 31 + x.sub % 16 * 2 ^ 8 + x.cause.code)
            tepc := x.epc, tval := x.val, tokT := [], stack := [], spill := 0
            intr := some ⟨f, tm.split, p⟩, pendTrap := none }

/-- Tries the entry of a pending trap: writes the frame and starts the handler, or holds on a fault (R382). -/
def State.trapTry (s : State) (t : Nat) : State :=
  match tget s.teams t with
  | none => s
  | some tm =>
    match tm.pendTrap with
    | none => s
    | some x =>
      let va := tm.tfr.toNat
      let epc := x.epc.setWidth 64
      let (l, s) := s.look tm.ctx va true
      match l with
      | .ok pa p =>
        let s := s.writeFrame tm va pa p (tm.frame x.frag)
        let entry := thEntry (s.ctx tm.ctx).thcfg
        { s.modTeam t (fun tm => tm.enterHandler x entry s.nextPid s.clk) with nextPid := s.nextPid + 1 }
      | .miss | .bad _ =>
        let (held, s) := s.report tm.ctx va 7 tm.core l
        if held then s else s.haltTeam t x.frag 4 0 x.cause.code x.sub x.val epc
      | .perm k => s.haltTeam t x.frag 1 k 0 0 (BitVec.ofNat 64 va) epc
      | _ => s.haltTeam t x.frag 4 0 x.cause.code x.sub x.val epc

/-- Takes a trap of fragment f of team t (R382): DOUBLE inside a handler, NOHND without one. `epc` is what TEPC takes. -/
def State.takeTrap (s : State) (t : Nat) (f : Bool) (c : Cause) (sub : Nat) (val : Dword) (epc : BitVec 64) : State :=
  match tget s.teams t with
  | none => s
  | some tm =>
    if tm.inH then s.haltTeam t f 0 0 c.code sub val (tm.path f).pc
    else if !thV (s.ctx tm.ctx).thcfg then s.haltTeam t f 3 0 c.code sub val epc
    else
      let s := s.drain t
      let s := s.modTeam t (fun tm => { tm.setPath f { tm.path f with hold := .free } with
        pendTrap := some { frag := f, cause := c, sub := sub, val := val, epc := epc.setWidth 56 } })
      s.trapTry t

/-! ### The return from a trap (R385, R406) -/

/-- What the frame read of a return gives. -/
inductive FrameRead where
  | got (spill : Nat) (fexm : Mask) (stack : List Entry)
  | malformed
  | hold (page layer : Option Nat)
  | trap (c : Cause) (sub val : Nat)
  deriving DecidableEq, Repr

/-- Reads STATUS, FEXM and ENT at TFR (R126, R383). A non-zero reserved field of the status word is malformed too (R7), as
a DEPTH above 32 is: the two lie beside each other. -/
def State.readFrame (s : State) (tm : Team) (fate : Fate) : FrameRead × State :=
  let va := tm.tfr.toNat
  match fate with
  | .declined => (.trap .xlat 2 va, s)
  | .timeout => (.trap .swapf 0 va, s)
  | .failed => (.trap .swapf 1 va, s)
  | .open =>
    let (l, s) := s.look tm.ctx va false
    match l with
    | .ok pa p =>
      if pteCmp p then (.trap .xlat 4 va, s)
      else if (List.range 5).any (fun j => s.poisoned (lineOf pa + j) (pteKey p)) then (.trap .kerr 1 va, s)
      else
        let (bs, s) := (List.range 5).foldl (fun (a : List Byte × State) j =>
          let (x, s) := (a.2.cacheRead (tm.core / 16) tm.ctx (pteCls p) (lineOf pa + j)).readBytes (pa + 128 * j) 128 (pteKey p)
          (a.1 ++ x, s)) ([], s)
        let status := ofBytes (bs.take 8)
        let depth := status % 2 ^ 16
        let ents := (List.range depth).map (fun i => Entry.ofBits (ofBytes ((bs.drop (128 + 16 * i)).take 16)))
        if 32 < depth || ents.any (fun e => e.isNone) then (.malformed, s)
        else (.got (bitsOf status 16 16) (BitVec.ofNat 64 (ofBytes ((bs.drop 8).take 8))) (ents.filterMap id).reverse, s)
    | .miss | .bad _ =>
      let (held, s) := s.report tm.ctx va 7 tm.core l
      (if held then .hold (some (va / 4096)) none else .trap .xlat 2 va, s)
    | .layer l _ =>
      if (s.layerOf tm.ctx l).map (fun y => y.st) = some .failed then (.trap .swapf 1 va, s)
      else (.hold none (some l), s.request tm.ctx l true [])
    | .absent _ => (.trap .xlat 5 va, s)
    | .perm _ | .link => (.trap .xlat 2 va, s)

/-- The team with path P, the stack and the normal bank restored (R406); `out` joins EXITED first (R385). -/
def Team.restore (tm : Team) (spill : Nat) (fexm : Mask) (stack : List Entry) (out : Mask) : Team :=
  match tm.intr with
  | none => tm
  | some x =>
    let ex := tm.exited ||| out
    let q := tm.path x.frag
    let tm := tm.setPath x.frag { x.path with pc := tm.tepc.setWidth 64, exm := fexm &&& x.path.pmask &&& ~~~ex
                                              hold := .free, cd := .none, lastIssue := q.lastIssue }
    { tm with exited := ex, stack := stack, spill := spill, tcause := tm.tcause &&& 0x7FFFFFFF, intr := none }

/-! ### Breaches and re-runs of a versioned task (R199-R201) -/

/-- A core's version lines beyond the guarantee of 32 for each open task (R196). -/
def State.extraLines (s : State) (core : Nat) : Nat :=
  foldOver s.teams 0 (fun n e => if e.2.core = core then n + (match e.2.task with | some k => k.lines.length - 32 | none => 0) else n)
def State.openTasks (s : State) (core : Nat) : Nat :=
  (s.teams.filter (fun e => e.2.core = core && e.2.task.isSome)).length

/-- BSTAT at a breach (R204). -/
def Team.recordBreach (tm : Team) (sub blane : Nat) : Team :=
  { tm with bstat := bsSet (bsSet (bsSet (bsSet tm.bstat 28 1 1) 25 3 sub) 23 2 (mGfl tm.mode)) 16 7 blane }

/-- The tokens of R200: the snapshot's, with the posts of operations issued before the task. -/
def Task.tokens (k : Task) : Tbl Token :=
  k.pre.foldl (fun ts p => tset ts p.1 ((tgetD ts p.1 Token.zero).post p.2)) k.toks

/-- The team at the start of a re-run (R199, R201). -/
def Team.rerunFrom (tm : Team) (k : Task) (c : Nat) (r : Rerun) (pid clk : Nat) : Team :=
  let gears : Word → Word := fun m => match r with
    | .breach _ _ => mSetGears m (k.floor + 1) (max (mGcl m) (k.floor + 1))
    | .capacity => mSetGears m 3 3
  let try_ := match r with | .breach _ _ => k.try_ + 1 | .capacity => k.try_
  let rtot := min (bitsOf tm.bstat.toNat 32 32 + (match r with | .breach _ _ => 1 | .capacity => 0)) (2 ^ 32 - 1)
  let bs := bsSet (bsSet tm.bstat 32 32 rtot) 14 2 try_
  let p := tm.p0
  { tm with
    split := false
    p0 := { p with pid := pid, pc := k.pc.setWidth 64 + 12, exm := k.exm &&& ~~~tm.exited
                   pmask := k.pmask &&& ~~~tm.exited, cd := .stall (max (c + 16) (clk + 1)), hold := .free, spin := 0
                   demoted := false, ended := false, lastIssue := max p.lastIssue tm.p1.lastIssue }
    stack := k.stack, spill := k.spill, p := k.preds, gens := k.gens, mode := gears k.mode, budg := k.budg
    tokN := k.tokens
    bstat := (match r with | .breach _ _ => bs | .capacity => bsSet bs 12 1 1)
    task := some { k with floor := (match r with | .breach _ _ => k.floor + 1 | .capacity => 3), try_ := try_
                          nonspec := (match r with | .breach _ _ => k.nonspec | .capacity => true)
                          breach := none, lines := [], rerun := none } }

/-- Starts the re-run of team t once every operation of the attempt has completed. -/
def State.rerunTry (s : State) (t : Nat) : State :=
  match tget s.teams t with
  | none => s
  | some tm =>
    match tm.task with
    | some k =>
      match k.rerun with
      | some (c, r) =>
        if s.ops.any (fun o => o.2.team = t && k.firstOp ≤ o.1) then s
        else
          let s := s.drain t
          { s.modTeam t (fun tm => tm.rerunFrom k c r s.nextPid s.clk) with nextPid := s.nextPid + 1 }
      | none => s
    | none => s

/-- Asks for a re-run: every fragment stops. The version goes once the attempt's operations have ended (R199). -/
def State.rerunAsk (s : State) (t : Nat) (r : Rerun) : State :=
  let s := s.modTeam t (fun tm => match tm.task with
    | some k => { tm with task := some { k with rerun := some (s.clk, r), breach := none }
                          p0 := { tm.p0 with hold := .free }, p1 := { tm.p1 with hold := .free } }
    | none => tm)
  s.rerunTry t

/-- A breach that is acted on at fragment f (R199); `blane` is the lowest breaching lane or row. -/
def State.breach (s : State) (t : Nat) (f : Bool) (sub : Nat) (val : Dword) (blane : Nat) : State :=
  match tget s.teams t with
  | none => s
  | some tm =>
    let pc := (tm.path f).pc
    if tm.inH then s.takeTrap t f .breach sub val pc
    else
      let s := s.modTeam t (fun tm => tm.recordBreach sub blane)
      match tm.task with
      | none => s.takeTrap t f .breach sub val pc
      | some k =>
        if k.try_ = mRetry k.mode ∨ k.floor = 3 ∨ k.nonspec then
          (s.modTeam t Team.abortTask).takeTrap t f .breach sub val pc
        else s.rerunAsk t (.breach sub blane)

/-! ### Completion of token-class operations (R106-R112) -/

/-- A register update as it lands for an operation of path `pid` whose lanes were written meanwhile: such a lane holds
either write. -/
def State.landClash (s : State) (t pid : Nat) (clash : List Nat) (u : Upd) : State :=
  match tget s.teams t with
  | none => s
  | some tm =>
    let keep (n : Nat) : Bool := Config.freeNat n % 2 = 0
    match u with
    | .vec r ls =>
      if clash.isEmpty then s.landUpd t pid u
      else
        let ls' := ls.map (fun x =>
          if clash.contains (keyV r x.lane) then
            let old := (tm.vrow r).cell x.lane
            let n := s.free + 2 * x.lane
            { x with val := x.val.map (fun v => if keep n then old.val else v)
                     bnd := x.bnd.map (fun b => if keep (n + 1) then old.bnd else b) }
          else x)
        State.landUpd { s with free := s.free + 128 } t pid (.vec r ls')
    | .sca r v b =>
      if clash.contains (keyS r) then
        let old := tm.sreg r
        State.landUpd { s with free := s.free + 2 } t pid
          (.sca r (v.map (fun v => if keep s.free then old.val else v)) (b.map (fun b => if keep (s.free + 1) then old.bnd else b)))
      else s.landUpd t pid u
    | u => s.landUpd t pid u

/-- Finishes operation id: its destinations are written when it succeeds, its token is posted for the next clk, its
error is recorded in the launch of a DRAINING team (R33), and what waited for it goes on. After such an error the team
retires in a later clk (R377). -/
def State.opFinish (s : State) (id : Nat) (us : List Upd) (err : Option Nat) : State :=
  match tget s.ops id with
  | none => s
  | some o =>
    let s := { s with ops := tdel s.ops id }
    match tget s.teams o.team with
    | none => s
    | some tm =>
      let s := if err.isNone then us.foldl (fun s u => s.landClash o.team o.pid o.clash u) s else s
      let s := match o.post with
        | none => s
        | some (b, k) =>
          let s := s.pendAdd o.team ⟨s.clk + 1, 0, .post b k err⟩
          s.modTeam o.team (fun tm => match tm.task with
            | some x => if b = Bank.normal ∧ id < x.firstOp then { tm with task := some { x with pre := x.pre ++ [(k, err)] } } else tm
            | none => tm)
      let s := match err with
        | some c => if tm.life = Life.draining then s.launchErr tm.launch 6 c else s
        | none => s
      if tm.life = Life.draining ∧ err.isSome then s else (s.rerunTry o.team).retireCheck o.team

/-- A held instruction of the team has issued before operation id, and its operation will post the same token (R107). -/
def State.claimsPost (s : State) (id : Nat) (o : Op) : Bool :=
  match tget s.teams o.team with
  | none => false
  | some tm => [tm.p0, tm.p1].any (fun p =>
      p.claimed.any (fun c => decide (c.num < id) && c.cunit = o.cunit && c.post = o.post))

/-- No earlier operation of the same team and unit is outstanding that posts the same token (R107). -/
def State.postOrder (s : State) (id : Nat) : Bool :=
  match tget s.ops id with
  | none => false
  | some o => o.post.isNone ||
    (!s.ops.any (fun p => p.1 < id && p.2.team = o.team && p.2.cunit = o.cunit && p.2.post = o.post) && !s.claimsPost id o)

/-- A timer of tmo rt ticks has run out that started in clk c0 at rt tick r0: an event in the expiry clk still wins. -/
def State.pastTmo (s : State) (c0 r0 tmo : Nat) : Bool :=
  c0 < s.clk && (tmo < s.rt - r0 || (s.rt - r0 = tmo && 100 ≤ s.rtPhase))

/-! ### Issue -/

/-- How an instruction completes (R102). -/
inductive Cls where
  | fixed (l : Nat)
  | issue
  | token (u : CUnit)
  deriving DecidableEq, Repr

/-- What an instruction that holds its fragment keeps (R100): see `Hold.inside`, whose list starts with the effective
mask at issue. -/
structure Held where
  clk0  : Nat
  rt0   : Nat
  cap   : List Nat
  stage : Nat
  pages : List Nat
  layer : Option Nat
  fate  : Fate
  deriving DecidableEq, Repr

/-- What a meaning works from: the team as it stands, its registers as they read (R111), the path, the effective mask,
and the hold that the instruction is in. -/
structure X where
  t    : Nat
  f    : Bool
  late : Bool
  tm   : Team
  rd   : Team
  p    : Path
  h    : Hdr
  e    : Mask
  st   : Option Held
  deriving DecidableEq, Repr

/-- What a meaning answers. -/
inductive Res where
  /-- Fixed latency: the writes, which land L clk after issue. -/
  | fixed (s : State) (us : List Upd)
  /-- Issue class: the effect is made, the next instruction follows. -/
  | issue (s : State)
  /-- `dly`: as `issue`, n clk more. -/
  | delay (s : State) (n : Nat)
  /-- Issue class: the meaning has moved the paths itself. -/
  | moved (s : State)
  /-- Token class: the operation enters its unit. -/
  | token (s : State) (o : Op)
  /-- The same, and the path is demoted (R38). -/
  | demote (s : State) (o : Op)
  /-- The next instruction follows; the operation that the instruction made posts for itself. -/
  | resume (s : State)
  /-- The instruction holds its fragment. -/
  | hold (s : State) (w : Held)
  /-- A precise trap. -/
  | trap (s : State) (c : Cause) (sub : Nat) (val : Dword)
  /-- The team has been stopped, halted or re-run. -/
  | stop (s : State)
  deriving DecidableEq, Repr

/-- The guard's lanes (R47). -/
def Team.guard (tm : Team) (g : Guard) : Mask := if g.neg then ~~~(tm.pred g.p.toNat).t else (tm.pred g.p.toNat).t

/-- The state of the inline wait (R110). -/
inductive WaitRes where
  | ok | waits | kovf | kerr (c : Nat)
  deriving DecidableEq, Repr

def Token.wait (k : Token) (thr : Nat) : WaitRes :=
  if k.ovf then .kovf else if k.count < thr then .waits else if k.err then .kerr k.cause else .ok

/-- TVAL of KOVF and KERR (R110). -/
def waitVal (b : Bank) (k : Nat) : Dword := BitVec.ofNat 64 (k + (if b = .normal then 32 else 0))

def Team.inlineWait (tm : Team) (h : Hdr) : WaitRes :=
  match h.sc.wait with
  | none => .ok
  | some (k, thr) => (tm.tok tm.curBank k.toNat).wait thr.toNat

/-- The countdown after an instruction that ends in clk c with STALL n (R101). -/
def stallCd (c n : Nat) : Countdown := .stall (c + 1 + n)

/-- The clk in which the issue stage's next post of a token is seen that would be seen in clk `due`: not before the
team's earlier posts of that token (R107; log entry 31). -/
def Team.postDue (tm : Team) (b : Bank) (k due : Nat) : Nat :=
  tm.pend.foldl (fun d p => match p.act with | .post b' k' _ => if b' = b ∧ k' = k then max d p.due else d | _ => d) due

/-- Queues the post of an Issue-class or fixed-latency instruction, seen from clk `due` on (R106, R107). -/
def State.postAt (s : State) (x : X) (due : Nat) : State :=
  match x.h.sc.post with
  | none => s
  | some k => s.pendAdd x.t ⟨x.tm.postDue x.tm.curBank k.toNat due, 0, .post x.tm.curBank k.toNat none⟩

/-- What an instruction that goes on after a hold has of its operation. -/
def X.claim (x : X) : Option Claim := if x.st.isSome then x.p.claim else none

/-- The number of the operation that an instruction makes now: in issue order, so that one that held keeps the number of
its issue (R107). -/
def X.opNum (x : X) (s : State) : Nat := (x.claim.map (fun c => c.num)).getD s.nextOp

/-- Enters an operation of the instruction, which posts as its scheduling fields say. -/
def State.addOp (s : State) (x : X) (o : Op) : State :=
  let o := { o with post := x.h.sc.post.map (fun (k : BitVec 5) => (x.tm.curBank, k.toNat)) }
  match x.claim with
  | some c => { s with ops := tset s.ops c.num { o with clash := c.clash } }
  | none => { s with ops := tset s.ops s.nextOp o, nextOp := s.nextOp + 1 }

/-- The register lanes that the ports write under a mask. -/
def portKeys (e : Mask) (ps : List Port) : List Nat :=
  (ps.filter (fun p => p.wr)).flatMap (fun p =>
    p.vs.flatMap (fun r => (lanesOf e).map (keyV r)) ++ p.ss.map keyS ++ p.ps.flatMap (fun q => (lanesOf e).map (keyP q)))

/-- The fragment that holds inside x claims no operation, as its own has been made. -/
def State.unclaim (s : State) (x : X) : State := s.modTeam x.t (fun tm => tm.setPath x.f { tm.path x.f with claim := none })

/-- A token-class instruction that starts to hold its fragment claims its operation (R100, R107, R113). -/
def State.claimAt (s : State) (x : X) (cls : Cls) (ps : List Port) : State :=
  match x.st, cls with
  | none, .token u =>
    let c : Claim := { num := s.nextOp, cunit := u, post := x.h.sc.post.map (fun (k : BitVec 5) => (x.tm.curBank, k.toNat))
                       dst := portKeys x.e ps, clash := [] }
    { s.modTeam x.t (fun tm => tm.setPath x.f { tm.path x.f with claim := some c }) with nextOp := s.nextOp + 1 }
  | none, _ => s.unclaim x
  | some _, _ => s

/-- Moves fragment f to the next instruction. -/
def State.advance (s : State) (x : X) (extra : Nat) : State :=
  let n := x.h.sc.stall.toNat
  s.modTeam x.t (fun tm => tm.setPath x.f { tm.path x.f with
    pc := x.p.pc + 12, hold := .free
    cd := if extra = 0 then stallCd s.clk n else .dly (s.clk + 1 + n + extra) })

/-- STALL after an instruction that moved the paths: each running path that the fragment left carries it (R101). -/
def State.stallMoved (s : State) (x : X) : State :=
  let n := x.h.sc.stall.toNat
  s.modTeam x.t (fun tm =>
    let st (p : Path) : Path := { p with cd := if p.cd.until < s.clk + 1 + n then stallCd s.clk n else p.cd }
    if !tm.split then { tm with p0 := st tm.p0 }
    else if x.tm.split then tm.setPath x.f (st (tm.path x.f))
    else { tm with p0 := st tm.p0, p1 := st tm.p1 })

/-- Carries out a meaning's answer (R101, R102, R106). -/
def State.retire (s0 : State) (i : Instr) (x : X) (cls : Cls) (ps : List Port) (r : Res) : State :=
  match r with
  | .fixed s us =>
    match cls with
    | .fixed l =>
      let s := us.foldl (fun s u => s.pendAdd x.t ⟨s0.clk + l, x.p.pid, .upd u⟩) s
      (s.postAt x (s0.clk + l + 1)).advance x 0
    | _ => s
  | .issue s => ((s.advance x 0).postAt x (s0.clk + 2)).liftSibling x.t x.f
  | .delay s n => (s.advance x n).postAt x (s0.clk + 2)
  | .moved s => ((s.stallMoved x).postAt x (s0.clk + 2)).liftSibling x.t x.f
  | .token s o => (s.addOp x o).advance x 0
  | .demote s o =>
    match ((s.addOp x o).advance x 0).demote x.t x.f with
    | .ok s => s
    | .error .refill => s.takeTrap x.t x.f .dstack 1 0 x.p.pc
    | .error .ecc => (s.modTeam x.t (fun tm => { tm with stack := mendFirst tm.split x.f tm.stack })).takeTrap x.t x.f .ecc 3 0 x.p.pc
    | .error .stack => (s.modTeam x.t Team.abortTask).takeTrap x.t x.f .taskop 4 0 x.p.pc
  | .resume s => (s.advance x 0).liftSibling x.t x.f
  | .hold s w =>
    let s := (if s.nextOp = s0.nextOp then s.claimAt x cls ps else s).modTeam x.t (fun tm => tm.setPath x.f { tm.path x.f with
      hold := .inside i w.clk0 w.rt0 (x.e.toNat :: w.cap) w.stage w.pages w.layer w.fate })
    s.liftSibling x.t x.f
  | .trap s c sub val => s.takeTrap x.t x.f c sub val (if c = .trap then x.p.pc + 12 else x.p.pc)
  | .stop s => s

/-- An operation with nothing to do but to complete. -/
def X.op (x : X) (s : State) (u : CUnit) (dst : List Nat) (w : Work) : Op where
  at_ := s.clk
  team := x.t
  frag := if x.tm.split then 1 + x.f.toNat else 0
  pid := x.p.pid
  cunit := u
  post := none
  inH := x.tm.inH
  dst := dst
  clash := []
  casPid := none
  lines := 0
  inVer := false
  work := w

/-- What an instruction does whose effective mask is empty (R49). -/
def X.guardedOff (x : X) (cls : Cls) (s : State) : Res :=
  match cls with
  | .fixed _ => .fixed s []
  | .issue => .issue s
  | .token u => if x.h.sc.post.isNone then .issue s else .token s (x.op s u [] (.done []))

/-- A port reads the corrupted team state at a site. -/
def Team.auxReads (tm : Team) (a : Aux) (c : ErrSite) : Bool :=
  match a, c with
  | .tok normal k, .token _ j tr => j = k && decide (tr = !(normal || decide (tm.curBank = .normal)))
  | .desc n sc, .desc _ m sc' => m = n && sc' == sc
  | _, _ => false

/-- The error that corrupted team state raises at its first reader (R397): the operands of an instruction, its guard and
other state that it reads. -/
def Team.eccHit (tm : Team) (h : Hdr) (e : Mask) (ps : List Port) : Option (ErrSite × Nat) :=
  tm.corrupt.findSome? (fun c =>
    match c with
    | .vreg _ r l => if ps.any (fun po => !po.wr && po.vs.contains r) && lane e l then some (c, 0) else none
    | .sreg _ r => if e ≠ 0 && ps.any (fun po => !po.wr && po.ss.contains r) then some (c, 1) else none
    | .pred _ p =>
      if (rdPred h.g.p).any (fun po => po.ps.contains p) || (e ≠ 0 && ps.any (fun po => !po.wr && po.ps.contains p)) then
        some (c, 3) else none
    | c => if e ≠ 0 && ps.any (fun po => po.aux.any (fun a => tm.auxReads a c)) then some (c, 3) else none)

/-- The corrupted token of an inline wait (R397). -/
def Team.eccWait (tm : Team) (h : Hdr) : Option ErrSite :=
  match h.sc.wait with
  | none => none
  | some (k, _) => tm.corrupt.find? (fun c => match c with | .token _ j tr => j = k.toNat && tr = decide (tm.curBank = .trap) | _ => false)

/-- The team takes ECC for corrupted state (R397), which is marked no longer. -/
def State.eccTrap (s : State) (x : X) (c : ErrSite) (sub : Nat) : State :=
  (s.modTeam x.t (fun tm => { tm with corrupt := tm.corrupt.filter (· ≠ c) })).takeTrap x.t x.f .ecc sub 0 x.p.pc

/-- Marks the issue of the fragment in its quadrant (R100, R375). -/
def State.slotUse (s : State) (t : Nat) (f : Bool) (tm : Team) : State :=
  let s := { s with quads := tset s.quads (tm.core * 4 + tm.quad) ⟨s.clk, some (t, f)⟩ }
  s.modTeam t (fun tm => tm.setPath f { tm.path f with lastIssue := s.clk })

/-- The team's fragment f takes part in issue: resident, not parked by a trap, not stopped for a re-run. -/
def Team.runs (tm : Team) (f : Bool) : Bool :=
  tm.life = .resident && !(tm.path f).ended && (tm.split || !f) && tm.pendTrap.isNone
    && (match tm.intr with | some x => x.frag = f | none => true)
    && (match tm.task with | some k => k.rerun.isNone | none => true)

/-- The team's core swaps its banks or is taken over by the spare, or its context is about to roll back: nothing issues
(R394, R401, R427). -/
def State.stopped (s : State) (tm : Team) : Bool :=
  (s.undoOf tm.ctx).due || s.takeoverDue tm.core || (match (s.core tm.core).bank with | .swap _ => true | _ => false)

/-- The checks that stand before the effect of an instruction, in the order of R60, R110, R113 and R197; the meaning
follows them. `ps` are its register operands in the order D, A, B, IMM; `always` instructions act with an empty
effective mask as well; `tk` instructions raise TASKOP inside a task. -/
def State.issueNew (s : State) (i : Instr) (x : X) (cls : Cls) (ps : List Port) (always tk : Bool)
    (body : X → State → Res) : State :=
  match x.tm.perm with
  | some (sub, va) => s.haltTeam x.t x.f 1 sub 0 0 (BitVec.ofNat 64 va) x.p.pc
  | none =>
    match x.tm.eccWait x.h with
    | some c => s.eccTrap x c 3
    | none =>
    match x.tm.inlineWait x.h with
    | .waits => s
    | .kovf => s.takeTrap x.t x.f .kovf 0 (waitVal x.tm.curBank ((x.h.sc.wait.map (fun w => w.1.toNat)).getD 0)) x.p.pc
    | .kerr c => s.takeTrap x.t x.f .kerr c (waitVal x.tm.curBank ((x.h.sc.wait.map (fun w => w.1.toNat)).getD 0)) x.p.pc
    | .ok =>
      let uw := if mChk x.tm.mode ∧ x.e ≠ 0 then s.underwait x.t x.tm x.p.pid x.e (ps ++ rdPred x.h.g.p) else none
      match uw with
      | some (sub, enc) => s.takeTrap x.t x.f .underwait sub (enc.setWidth 64) x.p.pc
      | none =>
        if tk ∧ x.e ≠ 0 ∧ x.tm.inTask.isSome then
          (s.modTeam x.t Team.abortTask).takeTrap x.t x.f .taskop 0 0 x.p.pc
        else
          match x.tm.eccHit x.h x.e ps with
          | some (c, sub) => s.eccTrap x c sub
          | none =>
            let s := s.slotUse x.t x.f x.tm
            if x.e = 0 ∧ !always then s.retire i x cls ps (x.guardedOff cls s)
            else
              let (rv, s) := s.readView x.t x.tm
              s.retire i x cls ps (body { x with rd := rv } s)

/-- Issues instruction i for the fragment that `cur` names, or goes on with it where it holds that fragment. With no
such fragment nothing happens, nor while the fault that it waits for is outstanding (R335). -/
def State.issue (s : State) (i : Instr) (h : Hdr) (cls : Cls) (ps : List Port) (always tk : Bool)
    (body : X → State → Res) : State :=
  match s.cur with
  | none => s
  | some (t, f, late) =>
    let s := { s with cur := none }
    match tget s.teams t with
    | none => s
    | some tm =>
      if !tm.runs f || s.stopped tm then s
      else
        let p := tm.path f
        let x : X := { t := t, f := f, late := late, tm := tm, rd := tm, p := p, h := h, e := p.exm &&& tm.guard h.g, st := none }
        match p.hold with
        | .inside j clk0 rt0 cap stage pages layer fate =>
          if fate = .open && pages.any (s.faulting tm.ctx) then s
          else if j = i then
            let (rv, s) := s.readView t tm
            let x : X := { x with rd := rv, e := BitVec.ofNat 64 (cap.headD 0)
                                  st := some ⟨clk0, rt0, cap.tail, stage, pages, layer, fate⟩ }
            s.retire i x cls ps (body x s)
          else s
        | _ => s.issueNew i x cls ps always tk body

/-- The answer of a step: a fault when an agent used an address that does not exist. -/
def answer (s : State) : Host.Outcome State Fault Refusal := if s.hole then .fault .reservedPa else .next s

/-- The meaning of an instruction, as an answer. -/
def instr (i : Instr) (h : Hdr) (cls : Cls) (ps : List Port) (body : X → State → Res) (s : State) :
    Host.Outcome State Fault Refusal := answer (s.issue i h cls ps false false body)

/-! ### Helpers for meanings -/

/-- A new hold at its first issue. -/
def X.hold (x : X) (s : State) (stage : Nat) (cap : List Nat) : Res :=
  match x.st with
  | none => .hold s ⟨s.clk, s.rt, cap, stage, [], none, .open⟩
  | some w => .hold s { w with stage := stage, cap := cap }

/-- A hold on pages or a layer, whose fate is open again. -/
def X.holdOn (x : X) (s : State) (stage : Nat) (cap : List Nat) (pages : List Nat) (layer : Option Nat) : Res :=
  match x.st with
  | none => .hold s ⟨s.clk, s.rt, cap, stage, pages, layer, .open⟩
  | some w => .hold s { w with stage := stage, cap := cap, pages := pages, layer := layer, fate := .open }

/-- The stage that a hold has reached; 0 before any. -/
def X.stage (x : X) : Nat := match x.st with | none => 0 | some w => w.stage

/-- The answer to an error of the reconvergence stack: DSTACK REFILL, ECC for a corrupted entry, or TASKOP STACK, which
closes the task. -/
def X.stackErr (x : X) (s : State) (e : PErr) : Res :=
  match e with
  | .refill => .trap s .dstack 1 0
  | .ecc => .trap (s.modTeam x.t (fun tm => { tm with stack := mendFirst tm.split x.f tm.stack })) .ecc 3 0
  | .stack => .trap (if x.tm.inH then s else s.modTeam x.t Team.abortTask) .taskop 4 0

/-- A stack move's answer. -/
def X.move (x : X) (s0 : State) (r : Except PErr State) : Res :=
  match r with
  | .ok s => .moved s
  | .error e => x.stackErr s0 e

/-- Clears the spin counter of the issuing path (R38). -/
def State.unspin (s : State) (x : X) : State := s.modTeam x.t (fun tm => tm.unspin x.p.pid)

end Sys2Proof.Machine
end

