-- ==== Sys2Proof/Machine/Operands.lean ====
section
/-! DEFINITION. Operand forms (R42-R46, R78, R79, R145-R147): the elements that sources supply and the writes that
results make. -/

namespace Sys2Proof.Machine

/-- An element: its bits and its bound. -/
structure El where
  x : Nat
  b : Half
  deriving DecidableEq, Repr

/-! ### Special registers as sources (R22, R23, R31, R43) -/

/-- The product of some dimensions. -/
def prodDims (ds : List Nat) : Nat := ds.foldl (· * ·) 1

/-- IDXk of lane l (R22): the digit of LANEID, TEAMID or the group's linear index that level k names. -/
def Team.idx (tm : Team) (k l : Nat) : Nat :=
  let base := if k < tm.topTeam then 0 else if k < tm.topGroup then tm.topTeam else tm.topGroup
  let n := if k < tm.topTeam then l else if k < tm.topGroup then tm.teamid else tm.gidx
  n / prodDims ((tm.dims.drop base).take (k - base)) % tm.dims.getD k 1

/-- An integer special register in lane l. -/
def Team.special (tm : Team) (r : Special) (l : Nat) : Nat :=
  match r with
  | .laneid => l
  | .teamid => tm.teamid
  | .stkid => tm.core / 16
  | .coreln => tm.core
  | .ctxid => tm.ctx
  | .modelid => tm.modelid.toNat
  | .idx k => tm.idx k.toNat l
  | .dim k => tm.dims.getD k.toNat 1
  | _ => 0

/-! ### Sources -/

/-- A register lane: a vector register's lane l, or a scalar register. -/
def Team.cell (tm : Team) (o : Opnd) (j l : Nat) : RegCell :=
  match o with
  | .v k => (tm.vrow (k.toNat + j)).cell l
  | .s k => tm.sreg (k.toNat + j)
  | _ => RegCell.zero

/-- A 32-bit register lane, or a pair with the larger of its bounds (R78). -/
def Team.el (tm : Team) (o : Opnd) (w64 : Bool) (l : Nat) : El :=
  let a := tm.cell o 0 l
  if w64 then
    let c := tm.cell o 1 l
    ⟨a.val.toNat + c.val.toNat * 2 ^ 32, if a.bnd.toNat < c.bnd.toNat then c.bnd else a.bnd⟩
  else ⟨a.val.toNat, a.bnd⟩

/-- An integer or bit source of 32 or 64 bits in lane l (R46, R145). -/
def Team.int (tm : Team) (o : Opnd) (w64 : Bool) (l : Nat) : El :=
  match o with
  | .i w => ⟨trunc w.toInt (if w64 then 64 else 32), 0⟩
  | .x r => ⟨tm.special r l % 2 ^ 32, 0⟩
  | o => tm.el o w64 l

/-- An inline operand converted to a float type (R46). -/
def inlineFlt (t : Ty) (w : BitVec 8) : Nat :=
  let F := Ty.fmt t
  F.enc (.fin (w.toInt < 0) w.toInt.natAbs 0)

/-- A floating-point source in lane l: a packed 16-bit inline stands in both slots (R145). -/
def Team.flt (tm : Team) (o : Opnd) (t : Ty) (l : Nat) : El :=
  match o with
  | .i w => let n := inlineFlt t w; ⟨if t.isF16 then n + n * 2 ^ 16 else n, 0⟩
  | o => tm.el o t.w64 l

/-- Slot q of an element of type t (R79). -/
def slotOf (t : Ty) (x q : Nat) : Nat := bitsOf x (t.bits * q) t.bits

/-- A 64-bit address or mask in lane l: a pair, or a sign-extended inline. -/
def Team.wide (tm : Team) (o : Opnd) (l : Nat) : Nat := (tm.int o true l).x

/-! ### Results (R147) -/

/-- The lanes that an instruction computes: the lowest of E stands for a uniform form. -/
def X.work (x : X) (d : Opnd) : List Nat :=
  match d with
  | .s _ => (lowest x.e).toList
  | _ => lanesOf x.e

/-- The writes of computed elements to D. -/
def dstUpds (d : Opnd) (w64 : Bool) (rs : List (Nat × El)) : List Upd :=
  let lo (e : El) : Word := BitVec.ofNat 32 e.x
  let hi (e : El) : Word := BitVec.ofNat 32 (e.x / 2 ^ 32)
  match d with
  | .v k =>
    .vec k.toNat (rs.map (fun r => ⟨r.1, some (lo r.2), some r.2.b⟩))
      :: (if w64 then [.vec (k.toNat + 1) (rs.map (fun r => ⟨r.1, some (hi r.2), some r.2.b⟩))] else [])
  | .s k =>
    match rs.head? with
    | none => []
    | some r => .sca k.toNat (some (lo r.2)) (some r.2.b)
        :: (if w64 then [.sca (k.toNat + 1) (some (hi r.2)) (some r.2.b)] else [])
  | _ => []

/-- The register lanes of n registers from D that an operation will write. -/
def dstKeys (d : Opnd) (n : Nat) (e : Mask) : List Nat :=
  match d with
  | .v k => (List.range n).flatMap (fun j => (lanesOf e).map (keyV (k.toNat + j)))
  | .s k => if e = 0 then [] else (List.range n).map (fun j => keyS (k.toNat + j))
  | _ => []

/-- A fixed-latency result, one element a lane. -/
def vecOp (d : Opnd) (w64 : Bool) (f : X → Nat → El) (x : X) (s : State) : Res :=
  .fixed s (dstUpds d w64 ((x.work d).map (fun l => (l, f x l))))

/-- The generator of lane l (R86). -/
def Team.gen (tm : Team) (l : Nat) : Word := tm.gens.getD l 0

/-- The team's generators with those of some lanes replaced. -/
def Team.setGens (tm : Team) (gs : List (Nat × Word)) : Team :=
  { tm with gens := lanes.map (fun l => match gs.find? (fun g => g.1 = l) with | some g => g.2 | none => tm.gen l) }

/-- A fixed-latency result whose lanes draw from their generators. -/
def vecOpG (d : Opnd) (w64 : Bool) (f : X → Nat → Word → El × Word) (x : X) (s : State) : Res :=
  let rs := (x.work d).map (fun l => (l, f x l (x.tm.gen l)))
  let s := s.modTeam x.t (fun tm => tm.setGens (rs.map (fun r => (r.1, r.2.2))))
  .fixed s (dstUpds d w64 (rs.map (fun r => (r.1, r.2.1))))

/-- A token-class result that is known at issue (R108): D is written at completion. -/
def tokOpG (u : CUnit) (d : Opnd) (w64 : Bool) (f : X → Nat → Word → El × Word) (x : X) (s : State) : Res :=
  let rs := (x.work d).map (fun l => (l, f x l (x.tm.gen l)))
  let s := s.modTeam x.t (fun tm => tm.setGens (rs.map (fun r => (r.1, r.2.2))))
  .token s (x.op s u (dstKeys d (if w64 then 2 else 1) x.e) (.done (dstUpds d w64 (rs.map (fun r => (r.1, r.2.1))))))

def tokOp (u : CUnit) (d : Opnd) (w64 : Bool) (f : X → Nat → El) (x : X) (s : State) : Res :=
  .token s (x.op s u (dstKeys d (if w64 then 2 else 1) x.e) (.done (dstUpds d w64 ((x.work d).map (fun l => (l, f x l))))))

/-- A predicate result: truth and doubt by lane of E. -/
def predOp (d : BitVec 3) (f : X → Nat → Bool × Bool) (x : X) (s : State) : Res :=
  let rs := (lanesOf x.e).map (fun l => (l, f x l))
  let m (g : Bool × Bool → Bool) : Mask := BitVec.ofNat 64 (rs.foldl (fun a r => if g r.2 then a + 2 ^ r.1 else a) 0)
  .fixed s [.prd d.toNat x.e (m Prod.fst) (m Prod.snd)]

end Sys2Proof.Machine
end

