-- ==== Sys2Proof/Machine/Flags.lean ====
section
/-! DEFINITION. What goes with a value: bound rules (R91-R94, R148), doubt (R98, R99), breaches (R185), truncated
products and gears (R189-R193). -/

namespace Sys2Proof.Machine

/-- A computed bound: 0xFF00 under MODE.BT = 0 (R94). -/
def computed (bt : Bool) (b : Half) : Half := if bt then b else 0xFF00

/-- BT of the instruction's MODE. -/
def X.bt (x : X) : Bool := mBt x.tm.mode
def X.ftz (x : X) : Bool := mFtz x.tm.mode

/-- Product terms |a|·b(b) + |b|·b(a) + b(a)·b(b) (R91). -/
def prodTerms (a : Q) (ba : Half) (b : Q) (bb : Half) : Half :=
  ebAdd (ebAdd (ebMul (ebUp a.abs) bb) (ebMul (ebUp b.abs) ba)) (ebMul ba bb)

/-- The bound of a bit operation: exact sources give an exact result (R157). -/
def bitBound (bs : List Half) : Half := if bs.all (· = 0) then 0 else 0xFF00

/-! ### Integers (R77, R148) -/

/-- The value of bits of an integer type of width w. -/
def tyInt (t : Ty) (x : Nat) : Int := if t.signed then sext x t.bits else x
/-- range(TY). -/
def tyMin (t : Ty) : Int := if t.signed then -(2 ^ (t.bits - 1) : Int) else 0
def tyMax (t : Ty) : Int := if t.signed then 2 ^ (t.bits - 1) - 1 else 2 ^ t.bits - 1
def tyClamp (t : Ty) (v : Int) : Int := max (tyMin t) (min v (tyMax t))
def tyFits (t : Ty) (v : Int) : Bool := tyMin t ≤ v && v ≤ tyMax t

/-- An exact integer result under wrapping or `.sat`, and its bound from the propagated part `b` (R148, R151). -/
def intResult (bt : Bool) (t : Ty) (sat : Bool) (v : Int) (b : Half) : El :=
  if sat then
    let r := tyClamp t v
    ⟨trunc r t.bits, computed bt (ebAdd b (ebUp (Q.ofInt (v - r)).abs))⟩
  else ⟨trunc v t.bits, computed bt (if tyFits t v then b else 0xFF00)⟩

/-! ### Comparison and doubt (R98, R164, R173) -/

def cmpHolds (c : Cmp) (a b : Q) : Bool :=
  match c with
  | .eq => a.eq b | .ne => !a.eq b | .lt => a.lt b | .le => a.le b | .gt => b.lt a | .ge => b.le a

/-- Some x' and y' within the bounds compare otherwise than x and y; the interval of x - y decides. -/
def doubtful (c : Cmp) (x : Q) (bx : Half) (y : Q) (by_ : Half) : Bool :=
  if ebUnb bx || ebUnb by_ then true
  else
    let d := x.sub y
    let r := (ebVal bx).add (ebVal by_)
    let lo := d.sub r
    let hi := d.add r
    let z := Q.zero
    match c with
    | .eq | .ne => if d.isZero then !r.isZero else lo.le z && z.le hi
    | .lt | .ge => if d.lt z then z.le hi else lo.lt z
    | .gt | .le => if z.lt d then lo.le z else z.lt hi

/-! ### Exact float arithmetic (R82, R169, R170) -/

/-- An exact value with NaN, infinities, and the sign of a zero. -/
inductive Ex where
  | nan | inf (neg : Bool) | num (q : Q) (zneg : Bool)
  deriving DecidableEq, Repr

def Ex.of : FVal → Ex
  | .nan => .nan
  | .inf n => .inf n
  | .fin n m e => .num (FVal.fin n m e).q n
def Ex.neg : Ex → Bool
  | .nan => false
  | .inf n => n
  | .num q z => if q.isZero then z else q.n < 0
def Ex.fin : Ex → Bool
  | .num .. => true
  | _ => false
def Ex.q : Ex → Q
  | .num q _ => q
  | _ => Q.zero

def Ex.mul (a b : Ex) : Ex :=
  let n := a.neg != b.neg
  match a, b with
  | .nan, _ => .nan
  | _, .nan => .nan
  | .inf _, .num q _ => if q.isZero then .nan else .inf n
  | .num q _, .inf _ => if q.isZero then .nan else .inf n
  | .inf _, .inf _ => .inf n
  | .num p _, .num q _ => .num (p.mul q) n

/-- The sum; an exact zero of opposite signs is -0 under RDN (R169). -/
def Ex.add (m : RMode) (a b : Ex) : Ex :=
  match a, b with
  | .nan, _ => .nan
  | _, .nan => .nan
  | .inf n, .inf k => if n = k then .inf n else .nan
  | .inf n, .num .. => .inf n
  | .num .., .inf n => .inf n
  | .num p _, .num q _ => .num (p.add q) (if a.neg = b.neg then a.neg else m = .rdn)

def Ex.flip : Ex → Ex
  | .nan => .nan
  | .inf n => .inf (!n)
  | .num q z => .num q.neg (!z)

/-- Rounds an exact value into a format; a non-finite value is unbounded (R93). -/
def Ex.round (F : Fmt) (m : RMode) (ftz : Bool) (g : Word) : Ex → Rnd
  | .nan => ⟨.nan, 0xFF00, g⟩
  | .inf n => ⟨.inf n, 0xFF00, g⟩
  | .num q z => roundQ F m ftz z g q

/-- A rounded result of type t: bits, and the bound b + ρ, unbounded for a non-finite result. -/
def Rnd.out (r : Rnd) (bt : Bool) (F : Fmt) (b : Half) : El :=
  ⟨F.enc r.z, computed bt (if r.z.isFin then ebAdd b r.rho else 0xFF00)⟩

/-! ### Breaches (R185) -/

/-- val(FLOOR) + r·|v|; a non-finite v contributes nothing. -/
def allowance (budg : Word) (v : Ex) : Q :=
  let f := ebVal (bFloor budg)
  if v.fin then f.add ((bR budg).mul v.q.abs) else f

/-- The element breaches the budget. -/
def breaches (mode budg : Word) (v : Ex) (b : Half) : Bool :=
  mBt mode && b ≠ 0 && bFloor budg ≠ 0xFF00 && (ebUnb b || (allowance budg v).lt (ebVal b))

/-- The elements of a register lane or pair of type t, as exact values. -/
def elemVals (t : Ty) (x : Nat) : List Ex :=
  if t.isFlt then
    let F := Ty.fmt t
    if t.isF16 then [Ex.of (F.dec (slotOf t x 0)), Ex.of (F.dec (slotOf t x 1))] else [Ex.of (F.dec x)]
  else [.num (Q.ofInt (tyInt t x)) false]

/-! ### Gears (R189-R193) -/

/-- q of R190: significant bits that a truncated product keeps; none for an exact product. -/
def truncBits (t : Ty) (g : Nat) : Option Nat :=
  if 2 ≤ g then none
  else match t, g with
    | .f64, 1 => some 45 | .f64, _ => some 26
    | .f32, 1 => some 20 | .f32, _ => some 12
    | .f16, 1 => some 10 | .f16, _ => some 7
    | .bf16, 1 => some 7 | .bf16, _ => some 5
    | .e4m3, 1 => some 6 | .e4m3, _ => some 4
    | .e5m2, 1 => some 5 | .e5m2, _ => some 4
    | _, _ => none

/-- trunc_sig (R190). -/
def truncSig (v : Q) (q : Nat) : Q :=
  if v.isZero then v
  else
    let k : Int := q - 1 - v.log2
    let n := (v.scale k).1
    Q.dy (if v.n < 0 then -(n : Int) else n) (-k)

def Ex.truncProd (p : Ex) (t : Ty) (g : Nat) : Ex :=
  match p, truncBits t g with
  | .num q z, some n => .num (truncSig q n) z
  | p, _ => p

/-- c_g (R190). -/
def gearC (t : Ty) (g : Nat) : Q :=
  match truncBits t g with
  | none => Q.zero
  | some q => Q.pow2 (1 - (q : Int))

/-- HR as a fraction (R187). -/
def headroom (mode : Word) : Q := Q.pow2 (-(1 + mHr mode : Int))

/-- A governed element: the sum of |a||b| of its products, M, and base; none where it places no condition (R193). -/
structure Gov where
  sum  : Q
  m    : Q
  base : Option Q
  deriving DecidableEq, Repr

/-- The element qualifies at gear g. -/
def Gov.qualifies (v : Gov) (mode budg : Word) (t : Ty) (g : Nat) : Bool :=
  let inc := (gearC t g).mul v.sum
  match v.base with
  | none => inc.isZero
  | some b =>
    let alw := (ebVal (bFloor budg)).add ((bR budg).mul v.m)
    inc.le ((headroom mode).mul ((alw.sub b).max Q.zero))

/-- The first gear from g up to the ceiling at which every element qualifies; the ceiling when none does. -/
def pickGear (ok : Nat → Bool) (gcl : Nat) : Nat → Nat → Nat
  | 0, _ => gcl
  | k + 1, g => if gcl < g then gcl else if ok g then g else pickGear ok gcl k (g + 1)

/-- The gear of a governed or forced instruction (R51, R193). -/
def gearOf (mode budg : Word) (sel : GearSel) (ok : Nat → Bool) : Nat :=
  match sel with
  | .gov => if !mBt mode || bFloor budg = 0xFF00 then mGfl mode else pickGear ok (mGcl mode) 4 (mGfl mode)
  | .g0 => max 0 (mGfl mode)
  | .g1 => max 1 (mGfl mode)
  | .g2 => max 2 (mGfl mode)
  | .g3 => 3

/-- Sum of bounds as an exact number; none when one is unbounded. -/
def bVal (b : Half) : Option Q := if ebUnb b then none else some (ebVal b)

/-- |x|·b(y) + |y|·b(x) + b(x)·b(y) in exact reals (R193). -/
def baseTerm (x : Q) (bx : Half) (y : Q) (by_ : Half) : Option Q :=
  match bVal bx, bVal by_ with
  | some u, some v => some (((x.abs.mul v).add (y.abs.mul u)).add (u.mul v))
  | _, _ => none

end Sys2Proof.Machine
end

