-- ==== Sys2Proof/Machine/Order.lean ====
section
/-! DEFINITION. Releases and acquires (R276, R281, R286), `fence` (R290). -/

namespace Sys2Proof.Machine

/-- Number of a scope (R54). -/
def Scope.num : Scope → Nat
  | .team => 0 | .grp => 1 | .clu => 2 | .stk => 3 | .dev => 4 | .sys => 5

/-- The operation was issued by the path of fragment f, or by one that has joined it (R276). -/
def Op.ofPath (o : Op) (split f : Bool) : Bool := !split || o.frag = 0 || o.frag = 1 + f.toNat

/-- The operation makes memory accesses of its team: those of the memory unit, tile fetches, and `mst` writes (R273). -/
def Op.accesses (o : Op) : Bool := o.cunit = .mem || o.cunit = .matrix

/-- It reads: a load, an `atom`, or a tile fetch. -/
def Op.reads (o : Op) : Bool := (o.cunit = .mem && o.dst ≠ []) || o.cunit = .matrix

/-- Fragment f of team t has an outstanding operation that satisfies q. -/
def State.pathBusy (s : State) (t : Nat) (f : Bool) (q : Op → Bool) : Bool :=
  match tget s.teams t with
  | none => false
  | some tm => s.ops.any (fun o => o.2.team = t && o.2.ofPath tm.split f && q o.2)

/-- An acquire at grp scope or wider discards the context's L1 lines of the core, weights apart (R281). -/
def State.acquireL1 (s : State) (core ctx : Nat) : State :=
  s.modCore core (fun c => { c with l1 := c.l1.filter (fun l => l.ctx ≠ ctx || l.cls = 1) })

/-- The acquire of team x.t at a scope, once its reads have completed. -/
def State.acquire (s : State) (x : X) (sc : Nat) : State := if sc = 0 then s else s.acquireL1 x.tm.core x.tm.ctx

/-- The path of x waits for operations that satisfy q; inside a task, for none whose accesses lie in the version (R290). -/
def X.pathWaits (x : X) (s : State) (q : Op → Bool) : Bool :=
  s.pathBusy x.t x.f (fun o => q o && !(o.inVer && x.tm.inTask.isSome))

/-- The release of R281 at a scope: it holds in a stage until it is done, raises XLAT SIDELOG after a loss, and then
goes on with k. -/
def X.releasing (x : X) (s : State) (sc stage : Nat) (cap : List Nat) (k : State → Res) : Res :=
  if 1 ≤ sc ∧ x.tm.sideLost then .trap (s.modTeam x.t (fun tm => { tm with sideLost := false })) .xlat 3 0
  else if x.pathWaits s Op.accesses || (1 ≤ sc && s.sideTeam x.t) then x.hold s stage cap
  else k s

/-- The acquire of R281: it holds until the path's reads have completed. -/
def X.acquiring (x : X) (s : State) (sc stage : Nat) (cap : List Nat) (k : State → Res) : Res :=
  if x.pathWaits s Op.reads then x.hold s stage cap else k (s.acquire x sc)

/-- `fence` (R290). -/
def execFence (h : Hdr) (scope : Scope) (ord : Ord) (s : State) : Host.Outcome State Fault Refusal :=
  instr (.fence h scope ord) h .issue [] (fun x s =>
    let sc := Scope.num scope
    let acq (s : State) : Res := if ord = .rel then .issue s else x.acquiring s sc 0 [] .issue
    if ord = .acq then acq s else x.releasing s sc 0 [] acq) s

end Sys2Proof.Machine
end

