-- ==== Sys2Proof/Machine/Barriers.lean ====
section
/-! DEFINITION. Named barriers, timelines, and the condition blocks of `waitc` and `yield` (R307-R314, R320-R325). -/

namespace Sys2Proof.Machine

/-! ### Barriers -/

def State.group (s : State) (g : Nat) : Option Group := tget s.groups g
def State.modGroup (s : State) (g : Nat) (f : Group → Group) : State := { s with groups := tmod s.groups g f }
def Group.modBar (g : Group) (n : Nat) (f : Barrier → Barrier) : Group := { g with bars := tmod g.bars n f }

/-- A barrier at placement (R307). -/
def Barrier.fresh (exp : Nat) : Barrier where
  exp := exp
  arr := 0
  txb := 0
  byt := 0
  err := false
  cause := 0
  ph := 0
  lerr := false
  lcause := 0
  lshort := false
  lbyt := 0
  held := []
  inn := []
  tclk := 0
  told := 0
  initAt := none

/-- A 32-bit transaction count saturates at ±(2^31 − 1) (R307). -/
def txbSat (v : Int) : Int := max (-(2 ^ 31 - 1)) (min v (2 ^ 31 - 1))

/-- TXB changes by v in clk c; `told` keeps what it was before that clk. -/
def Barrier.addTxb (b : Barrier) (c : Nat) (v : Int) : Barrier :=
  { b with txb := txbSat (b.txb + v), tclk := c, told := if b.tclk = c then b.told else b.txb }

/-- Engine bytes written under the barrier (R309). -/
def Barrier.bytes (b : Barrier) (c n : Nat) : Barrier :=
  { b.addTxb c (-(n : Int)) with byt := min (b.byt + n) (2 ^ 32 - 1) }

/-- TXB as it stood up to the clk before c. -/
def Barrier.txbAt (b : Barrier) (c : Nat) : Int := if b.tclk = c then b.told else b.txb

/-- An arrival joins those that have not counted. -/
def Barrier.arrive (b : Barrier) (a : Arrive) : Barrier := { b with held := b.held ++ [a] }

/-- Counts one arrival. -/
def Barrier.count (b : Barrier) (a : Arrive) : Barrier :=
  { b with arr := b.arr + 1
           inn := match a.pid with | some p => if a.wait then p :: b.inn else b.inn | none => b.inn
           err := b.err || a.err.isSome
           cause := match a.err with | some c => if b.err then b.cause else c | none => b.cause }

/-- The arrivals that may count in clk c: those held. After a `bar.init` in that clk, an arrival that was held from before
waits for the next clk (R312). -/
def Barrier.ready (b : Barrier) (c : Nat) : List Arrive := b.held.filter (fun a => b.initAt ≠ some c || a.at_ = c)
def Barrier.late (b : Barrier) (c : Nat) : List Arrive := b.held.filter (fun a => !(b.initAt ≠ some c || a.at_ = c))

/-- The end of clk c at a barrier: arrivals count up to EXP, and a complete phase ends (R309, R310, R312). -/
def Barrier.clkEnd (b : Barrier) (c : Nat) : Barrier :=
  let n := b.exp - b.arr
  let b : Barrier := { ((b.ready c).take n).foldl Barrier.count b with held := b.late c ++ (b.ready c).drop n }
  if b.arr = b.exp ∧ (b.txb ≤ 0 ∨ b.err) then
    { b with
             lerr := b.err, lcause := b.cause, lshort := decide (0 < b.txb), lbyt := b.byt, arr := 0, txb := 0, byt := 0,
             err := false, cause := 0, ph := b.ph + 1, inn := [] }
  else b

/-- The same for a cluster or stack barrier (R311). -/
def WideBar.clkEnd (b : WideBar) : WideBar :=
  let n := b.exp - b.arr
  let now := b.held.take n
  let b : WideBar :=
    { b with arr := b.arr + now.length, held := b.held.drop n
             inn := now.filterMap (fun a => if a.wait then a.pid else none) ++ b.inn }
  if b.arr = b.exp then { b with arr := 0, ph := b.ph + 1, inn := [] } else b

/-- Barrier n as a team sees it: one of its group's, the cluster barrier 16, or the stack barrier 17. -/
inductive BarRef where
  | grp (n : Nat)
  | wide (id : Nat)
  | none
  deriving DecidableEq, Repr

def Group.barRef (g : Group) (n : Nat) : BarRef :=
  if n < 16 then (if n < g.nbar then .grp n else .none)
  else if n = 16 then (match g.cluster with | some i => .wide i | Option.none => .none)
  else if n = 17 then (match g.stackB with | some i => .wide i | Option.none => .none)
  else .none

def X.barRef (x : X) (s : State) (n : Nat) : BarRef :=
  match s.group x.tm.group with
  | some g => g.barRef n
  | Option.none => .none

/-- ILLOP of an operand field with a value, that of a scalar (R316, R320). -/
def badField (s : State) (sub v : Nat) : Res := .trap s .illop sub (BitVec.ofNat 64 v)

/-- A 32-bit number operand: a scalar, or an inline value. -/
def X.num (x : X) (o : Opnd) : Nat := (x.rd.int o false 0).x

/-- `bar.init` (R320). -/
def execBarInit (h : Hdr) (a b : Opnd) (s : State) : Host.Outcome State Fault Refusal :=
  answer (s.issue (.barInit h a b) h .issue (rd 1 a ++ rd 1 b) false true (fun x s =>
    let n := x.num a
    let c := x.num b
    match x.barRef s n with
    | .grp n =>
      if c = 0 ∨ 1023 < c then badField s 7 c
      else
        .issue (s.modGroup x.tm.group (fun g => g.modBar n (fun b =>
          { b with exp := c, arr := 0, txb := 0, byt := 0, err := false, cause := 0, tclk := 0, told := 0, initAt := some s.clk })))
    | _ => badField s 6 n))

/-- `bar.exp` (R320). -/
def execBarExp (h : Hdr) (a b : Opnd) (s : State) : Host.Outcome State Fault Refusal :=
  answer (s.issue (.barExp h a b) h .issue (rd 1 a ++ rd 1 b) false true (fun x s =>
    let n := x.num a
    let c := x.num b
    match x.barRef s n with
    | .grp n =>
      if 2 ^ 31 ≤ c then badField s 7 c
      else .issue (s.modGroup x.tm.group (fun g => g.modBar n (fun b => b.addTxb s.clk c)))
    | _ => badField s 6 n))

/-- Arrivals that a barrier has counted or is about to count, and EXP. -/
def State.barLoad (s : State) (g : Nat) (r : BarRef) : Nat × Nat :=
  match r with
  | .grp n => match (s.group g).bind (fun g => tget g.bars n) with
    | some b => (b.arr + (b.ready s.clk).length, b.exp) | Option.none => (0, 0)
  | .wide i => match tget s.wide i with | some b => (b.arr + b.held.length, b.exp) | Option.none => (0, 0)
  | .none => (0, 0)

def State.barArrive (s : State) (g : Nat) (r : BarRef) (a : Arrive) : State :=
  match r with
  | .grp n => s.modGroup g (fun g => g.modBar n (fun b => b.arrive a))
  | .wide i => { s with wide := tmod s.wide i (fun b => { b with held := b.held ++ [a] }) }
  | .none => s

/-- Path pid still waits at the barrier. -/
def State.barWaits (s : State) (g : Nat) (r : BarRef) (pid : Nat) : Bool :=
  match r with
  | .grp n => match (s.group g).bind (fun g => tget g.bars n) with
    | some b => b.inn.contains pid || b.held.any (fun a => a.pid = some pid) | Option.none => false
  | .wide i => match tget s.wide i with
    | some b => b.inn.contains pid || b.held.any (fun a => a.pid = some pid) | Option.none => false
  | .none => false

/-- `bar.arv` (R308, R309, R320): release, arrival, and with WAIT the acquire after its phase. -/
def execBarArv (h : Hdr) (scope : Scope) (a : Opnd) (wait : Bool) (s : State) : Host.Outcome State Fault Refusal :=
  answer (s.issue (.barArv h scope a wait) h .issue (rd 1 a) false true (fun x s =>
    let n := match x.st with | some w => w.cap.headD 0 | none => x.num a
    let r := x.barRef s n
    let sc := Scope.num scope
    let after (s : State) : Res := if wait then x.acquiring s sc 1 [n] .issue else .issue s
    if x.stage = 1 then (if s.barWaits x.tm.group r x.p.pid then x.hold s 1 [n] else after s)
    else if (n = 16 ∧ sc < 2) ∨ (n = 17 ∧ sc < 3) then .trap s .illop 1 0
    else if r = .none then badField s 6 n
    else
      x.releasing s sc 0 [n] (fun s =>
        let s := s.unspin x
        let (arr, exp) := s.barLoad x.tm.group r
        let stays := wait || decide (exp ≤ arr)
        let s := s.barArrive x.tm.group r ⟨s.clk, if stays then some x.p.pid else none, wait, none⟩
        if stays then x.hold s 1 [n] else .issue s)))

/-- `bar.rd` (R321). -/
def execBarRd (h : Hdr) (d a : Opnd) (sel : BitVec 8) (s : State) : Host.Outcome State Fault Refusal :=
  instr (.barRd h d a sel) h (.fixed 4) (wr 2 d ++ rd 1 a) (fun x s =>
    let n := x.num a
    let out (v : Nat) : Res := .fixed s (dstUpds d true ((x.work d).map (fun l => (l, ⟨v, 0⟩))))
    match x.barRef s n with
    | .grp n =>
      match (s.group x.tm.group).bind (fun g => tget g.bars n) with
      | some b =>
        if sel = 0 then out (trunc (b.txbAt s.clk) 32 * 2 ^ 32 + b.ph.toNat * 2 ^ 16 + b.arr % 2 ^ 10 * 2 ^ 6)
        else out (b.lbyt * 2 ^ 32 + b.lcause * 2 ^ 28 + b.lerr.toNat * 2 ^ 27 + b.lshort.toNat * 2 ^ 26 + b.exp % 2 ^ 10)
      | Option.none => badField s 6 n
    | .wide i =>
      match tget s.wide i with
      | some b => if sel = 0 then out (b.arr * 2 ^ 32 + b.ph.toNat * 2 ^ 16) else out (b.exp * 2 ^ 32)
      | Option.none => badField s 6 n
    | .none => badField s 6 n) s

/-! ### Timelines (R313, R314, R321, R322) -/

/-- The value of timeline n of a group. -/
def Group.timeline (g : Group) (n : Nat) : Nat :=
  if n = 0 then g.copy.tl else if n = 1 then g.dec.tl else tgetD g.tls n 0

/-- The status word of R314. -/
def Group.status (g : Group) (n : Nat) : Nat :=
  if n = 0 then g.copy.lfop % 2 ^ 32 * 2 ^ 32 + g.copy.lcause * 2 ^ 28 + g.copy.chn.toNat * 2 ^ 23
  else if n = 1 then
    g.dec.lfop % 2 ^ 32 * 2 ^ 32 + g.dec.lcause * 2 ^ 28 + g.dec.derr * 2 ^ 24 + min g.dec.blk (2 ^ 20 - 1)
  else 0

/-- What `tl.rd` sees of tl0 and tl1 from the next clk on (R321): value, accepted count and status word, by selector. -/
def Group.look (g : Group) : Group :=
  { g with seen := [g.copy.tl, g.dec.tl, g.copy.acc, g.dec.acc, g.status 0, g.status 1] }

/-- `tl.rd` (R321). -/
def execTlRd (h : Hdr) (d a : Opnd) (sel : BitVec 8) (s : State) : Host.Outcome State Fault Refusal :=
  instr (.tlRd h d a sel) h (.fixed 4) (wr 2 d ++ rd 1 a) (fun x s =>
    let n := x.num a
    match s.group x.tm.group with
    | some g =>
      if 7 < n then badField s 6 n
      else
        let v := if n < 2 then g.seen.getD (2 * sel.toNat + n) 0 else if sel = 0 then g.timeline n else 0
        .fixed s (dstUpds d true ((x.work d).map (fun l => (l, ⟨v, 0⟩))))
    | none => badField s 6 n) s

/-- `tl.sig` (R322): the release, and the value that is seen from the next clk on. -/
def execTlSig (h : Hdr) (scope : Scope) (a b : Opnd) (add : Bool) (s : State) : Host.Outcome State Fault Refusal :=
  answer (s.issue (.tlSig h scope a b add) h .issue (rd 1 a ++ rd 2 b) false true (fun x s =>
    let n := match x.st with | some w => w.cap.headD 0 | none => x.num a
    let v := match x.st with | some w => w.cap.getD 1 0 | none => x.rd.wide b 0
    if n < 2 ∨ 7 < n then badField s 6 n
    else
      x.releasing s (Scope.num scope) 0 [n, v] (fun s =>
        .issue ((s.unspin x).modGroup x.tm.group (fun g => { g with tlq := g.tlq ++ [(n, v, add)] })))))

/-- The end of a clk at a group's timelines: `tl.sig` values, and the engines' completed numbers (R297, R313). -/
def Group.tlEnd (g : Group) : Group :=
  let tls := g.tlq.foldl (fun t (q : Nat × Nat × Bool) =>
    let o := tgetD t q.1 0
    tset t q.1 (if q.2.2 then min (o + q.2.1) (2 ^ 64 - 1) else max o q.2.1)) g.tls
  let run (n : Nat) (fin : List Nat) : Nat := (List.range fin.length).foldl (fun n _ => if fin.contains (n + 1) then n + 1 else n) n
  let c := run g.copy.tl g.copy.fin
  { g with tls := tls, tlq := [], copy := { g.copy with tl := c, fin := g.copy.fin.filter (fun n => c < n) } }

/-- The end of a clk at every barrier and timeline. -/
def State.barEnd (s : State) : State :=
  { s with groups := tmap s.groups (fun _ g => { g.tlEnd.look with bars := tmap g.bars (fun _ b => b.clkEnd s.clk) })
           wide := tmap s.wide (fun _ b => b.clkEnd) }

/-! ### Condition blocks (R323) -/

/-- A condition. -/
inductive Cond where
  | token (normal : Bool) (k thr : Nat)
  | barrier (n v scope : Nat)
  | timeline (n v scope : Nat)
  | memory (va cmp opnd scope : Nat)
  | layer (l : Nat)
  deriving DecidableEq, Repr

/-- Reads the conditions of a block; an error is the index of the offending word. `i` counts the words before. -/
def condParse : Nat → List Nat → Except Nat (List Cond)
  | _, [] => .ok []
  | i, w :: ws =>
    let kind := bitsOf w 60 4
    let sc := bitsOf w 57 3
    let arg := bitsOf w 0 56
    let plain (ok : Bool) (c : Cond) : Except Nat (List Cond) :=
      if ok ∧ bitsOf w 56 1 = 0 then (condParse (i + 1) ws).map (c :: ·) else .error i
    match kind with
    | 1 => plain (decide (sc = 0 ∧ bitsOf arg 16 40 = 0 ∧ bitsOf arg 6 2 = 0))
        (.token (arg.testBit 5) (arg % 32) (bitsOf arg 8 8))
    | 2 => plain (decide (sc ≤ 5 ∧ bitsOf arg 32 24 = 0 ∧ bitsOf arg 5 11 = 0)) (.barrier (arg % 32) (bitsOf arg 16 16) sc)
    | 3 => plain (decide (sc ≤ 5 ∧ bitsOf arg 3 5 = 0)) (.timeline (arg % 8) (bitsOf arg 8 48) sc)
    | 4 =>
      match ws with
      | [] => .error i
      | u :: ws =>
        if 5 < sc ∨ bitsOf w 56 1 ≠ 0 then .error i
        else if bitsOf u 32 30 ≠ 0 then .error (i + 1)
        else (condParse (i + 2) ws).map (Cond.memory arg (bitsOf u 62 2) (u % 2 ^ 32) sc :: ·)
    | 5 => plain (decide (sc = 0 ∧ bitsOf arg 12 44 = 0)) (.layer (arg % 2 ^ 12))
    | _ => .error i

/-- The words that a condition takes. -/
def Cond.words : Cond → Nat
  | .memory .. => 2
  | _ => 1

/-- The condition names something that exists for the team. -/
def Cond.valid (c : Cond) (x : X) (s : State) : Bool :=
  match c with
  | .barrier n _ sc => x.barRef s n ≠ .none && decide ((if n = 16 then 2 else if n = 17 then 3 else 1) ≤ sc)
  | .layer l => match tget s.models x.tm.ctx with | some m => decide (l < m.layers.length) | none => false
  | _ => true

/-- The first error of a block at issue: cause, sub-code, TVAL. -/
def condError (x : X) (s : State) : Nat → List Cond → Option Nat
  | _, [] => none
  | i, c :: cs => if c.valid x s then condError x s (i + c.words) cs else some i

/-- The block's words in s registers from `a` (R323). -/
def X.condWords (x : X) (a : Opnd) (n : Nat) : List Nat :=
  match a with
  | .s k => (List.range n).map (fun j => (x.rd.el (.s (k + BitVec.ofNat 6 (2 * j))) true 0).x)
  | _ => []

/-- The memory word of a condition, read at its home (R323); none where it reads as false. A fault is reported once, as
the wait starts. -/
def State.condRead (s : State) (x : X) (va : Nat) : Option Nat × State :=
  let (l, s) := s.look x.tm.ctx va false
  match l with
  | .ok pa p =>
    if pteCmp p || s.poisoned (lineOf pa) (pteKey p) then (none, s)
    else
      let (bs, s) := (s.cacheHome (some x.tm.ctx) (pteCls p) (lineOf pa) false).readBytes pa 4 (pteKey p)
      (some (ofBytes bs), s)
  | .miss | .bad _ => (none, if x.st.isNone then (s.report x.tm.ctx va 5 x.tm.core l).2 else s)
  | _ => (none, s)

/-- Whether a condition holds; a TOKEN condition may trap instead (R110, R323). -/
def Cond.holds (c : Cond) (x : X) (s : State) : WaitRes × State :=
  let tf (b : Bool) : WaitRes := if b then .ok else .waits
  match c with
  | .token normal k thr => ((x.tm.tok (if normal then .normal else x.tm.curBank) k).wait thr, s)
  | .barrier n v _ =>
    let ph : Option (BitVec 16) := match x.barRef s n with
      | .grp n => ((s.group x.tm.group).bind (fun g => tget g.bars n)).map (fun b => b.ph)
      | .wide i => (tget s.wide i).map (fun b => b.ph)
      | .none => Option.none
    (tf (match ph with | some p => let k := (p.toNat + 2 ^ 16 - v) % 2 ^ 16; decide (1 ≤ k ∧ k ≤ 32767) | Option.none => false), s)
  | .timeline n v _ => (tf (match s.group x.tm.group with | some g => decide (v ≤ g.timeline n) | Option.none => false), s)
  | .memory va cmp o _ =>
    let (r, s) := s.condRead x va
    (tf (match r with
      | Option.none => false
      | some w => match cmp with | 0 => decide (w = o) | 1 => decide (w ≠ o) | 2 => decide (o ≤ w) | _ => decide (w < o)), s)
  | .layer l => (tf (match s.layerOf x.tm.ctx l with | some y => y.st = .resident || y.st = .failed | Option.none => false), s)

/-- The acquire scope of a condition. -/
def Cond.scope : Cond → Option Nat
  | .barrier _ _ sc => some sc
  | .timeline _ _ sc => some sc
  | .memory _ _ _ sc => some sc
  | _ => none

/-- What an evaluation of a block gives: a trap of the first TOKEN condition that raises one, or the truth of each
condition, in order. -/
inductive Block where
  | trap (c : Cause) (sub : Nat) (val : Dword)
  | truth (bs : List Bool)
  deriving DecidableEq, Repr

def X.evalBlock (x : X) : List Cond → State → Block × State
  | [], s => (.truth [], s)
  | c :: cs, s =>
    let (r, s) := c.holds x s
    let val : Dword := match c with
      | .token normal k _ => waitVal (if normal then .normal else x.tm.curBank) k
      | _ => 0
    match r with
    | .kovf => (.trap .kovf 0 val, s)
    | .kerr e => (.trap .kerr e val, s)
    | r =>
      match x.evalBlock cs s with
      | (.truth bs, s) => (.truth ((r = .ok) :: bs), s)
      | other => other

/-- The acquires of the conditions that held (R324). -/
def X.acquireBlock (x : X) (s : State) (cs : List Cond) (bs : List Bool) : State :=
  (cs.zip bs).foldl (fun s p => match p.1.scope with | some sc => if p.2 then s.acquire x sc else s | none => s) s

/-- The issue checks of a block, and then k with its words and conditions. -/
def X.withBlock (x : X) (s : State) (a : Opnd) (n : Nat) (k : List Nat → List Cond → Res) : Res :=
  let ws := x.condWords a n
  match condParse 0 ws with
  | .error i => badField s 6 i
  | .ok cs =>
    match condError x s 0 cs with
    | some i => badField s 6 i
    | none =>
      match cs.find? (fun c => match c with | .memory va .. => decide (va % 4 ≠ 0) | _ => false) with
      | some (.memory va ..) => .trap s .align 0 (BitVec.ofNat 64 va)
      | _ => k ws cs

/-- The conditions of a block that holds its words. -/
def condsOf (ws : List Nat) : List Cond := match condParse 0 ws with | .ok cs => cs | .error _ => []

/-- Writes D of `waitc` at once. -/
def X.waitOut (x : X) (s : State) (d : Option (BitVec 3)) (late : Bool) : Res :=
  match d with
  | none => .issue s
  | some d => .issue (s.landUpd x.t x.p.pid (.prd d.toNat x.e (if late then x.e else 0) 0))

/-- The truth of conditions as a number, and back. -/
def bitsOfTruth (bs : List Bool) : Nat := bs.foldr (fun b n => b.toNat + 2 * n) 0
def truthOf (n : Nat) : List Bool := (List.range 4).map (fun j => n.testBit j)

/-- The end of a wait that is satisfied with the truth `bs`: the acquires of the conditions that held, in stage 2 and up,
and then k. -/
def X.satisfied (x : X) (s : State) (cs : List Cond) (bs : List Bool) (cap : List Nat) (k : State → Res) : Res :=
  if (cs.zip bs).any (fun p => p.2 && (p.1.scope).isSome) then
    x.acquiring s 0 (2 + bitsOfTruth bs) cap (fun s => k (x.acquireBlock s cs bs))
  else k s

/-- A timeout of tmo rt ticks has come to the wait of x; `end_` tells that the clk is at its end, so that nothing more in
the clk of expiry can win (R312). -/
def X.waitDue (x : X) (s : State) (tmo : Nat) (end_ : Bool) : Bool :=
  tmo ≠ 2 ^ 32 - 1 && (tmo = 0 || (match x.st with
    | some w => if end_ then decide (tmo ≤ s.rt - w.rt0) else s.pastTmo w.clk0 w.rt0 tmo
    | none => false))

/-- One evaluation of a `waitc` (R312, R324). The hold keeps the timeout and the words. Its stage 1 is an expiry that fell in
a parked interval and takes effect now (R34); from 2 up the wait is satisfied, and acquires. The evaluation at the end of a clk
(`late`) sees what the clk brought, and what it finds to hold ends the wait in the next. -/
def X.waitStep (x : X) (s : State) (d : Option (BitVec 3)) (all : Bool) (tmo : Nat) (ws : List Nat) : Res :=
  let cs := condsOf ws
  let done (s : State) : Res := x.waitOut s d false
  if x.stage = 1 then x.waitOut s d true
  else if 2 ≤ x.stage then x.satisfied s cs (truthOf (x.stage - 2)) (tmo :: ws) done
  else
    match x.evalBlock cs s with
    | (.trap c sub val, s) => .trap s c sub val
    | (.truth bs, s) =>
      let end_ := x.late && x.st.isSome
      if (if all then bs.all id else bs.any id) then
        (if end_ then x.hold s (2 + bitsOfTruth bs) (tmo :: ws) else x.satisfied s cs bs (tmo :: ws) done)
      else if x.waitDue s tmo end_ then x.waitOut s d true
      else x.hold s 0 (tmo :: ws)

/-- `waitc` in both forms (R324). -/
def waitcOp (i : Instr) (h : Hdr) (d : Option (BitVec 3)) (a b : Opnd) (n : BitVec 2) (all : Bool) (s : State) :
    Host.Outcome State Fault Refusal :=
  let ps := ((d.map wrPred).getD []) ++ rd (2 * (n.toNat + 1)) a ++ rd 1 b
  instr i h .issue ps (fun x s =>
    match x.st with
    | some w => x.waitStep s d all (w.cap.headD 0) w.cap.tail
    | none => x.withBlock s a (n.toNat + 1) (fun ws _ => x.waitStep s d all (x.num b) ws)) s

/-- A `waitc`: its header, and whether it waits for every condition. -/
def waitcOf : Instr → Option (Hdr × Bool)
  | .waitcAny h .. => some (h, false)
  | .waitcAll h .. => some (h, true)
  | _ => none

/-- The hold of path f of a parked team, whose `waitc` has expired in this clk: unless its conditions hold now, the expiry
stands, and takes effect once the team is swapped in (R34, R396). -/
def State.parkedWait (s : State) (t : Nat) (tm : Team) (f : Bool) : Hold :=
  let p := tm.path f
  match p.hold with
  | .inside i c0 r0 cap 0 pg ly fate =>
    match waitcOf i with
    | some (h, all) =>
      let x : X := { t := t, f := f, late := true, tm := tm, rd := tm, p := p, h := h, e := BitVec.ofNat 64 (cap.headD 0)
                     st := some ⟨c0, r0, cap.tail, 0, pg, ly, fate⟩ }
      if !x.waitDue s (cap.getD 1 0) true then p.hold
      else
        match (x.evalBlock (condsOf (cap.drop 2)) s).1 with
        | .trap .. => p.hold
        | .truth bs => .inside i c0 r0 cap (if (if all then bs.all id else bs.any id) then 2 + bitsOfTruth bs else 1) pg ly fate
    | none => p.hold
  | h => h

/-- The expiries of parked teams in this clk (R34). -/
def State.parkedWaits (s : State) : State :=
  { s with teams := s.teams.map (fun t => if t.2.life ≠ .parked then t else
      (t.1, { t.2 with p0 := { t.2.p0 with hold := s.parkedWait t.1 t.2 false }
                       p1 := { t.2.p1 with hold := s.parkedWait t.1 t.2 true } })) }

/-- `waitc.any` (R324). -/
def execWaitcAny (h : Hdr) (d : Option (BitVec 3)) (a b : Opnd) (n : BitVec 2) (s : State) :
    Host.Outcome State Fault Refusal :=
  waitcOp (.waitcAny h d a b n) h d a b n false s
/-- `waitc.all` (R324). -/
def execWaitcAll (h : Hdr) (d : Option (BitVec 3)) (a b : Opnd) (n : BitVec 2) (s : State) :
    Host.Outcome State Fault Refusal :=
  waitcOp (.waitcAll h d a b n) h d a b n true s

/-- `yield` (R325): it goes on at the continuation as soon as a condition holds. -/
def execYield (h : Hdr) (a : Opnd) (n : BitVec 2) (disp : BitVec 20) (s : State) : Host.Outcome State Fault Refusal :=
  instr (.yield h a n disp) h .issue (rd (2 * (n.toNat + 1)) a) (fun x s =>
    let go (ws : List Nat) : Res :=
      let cs := condsOf ws
      let done (s : State) : Res := .moved (s.modTeam x.t (fun tm =>
        tm.setPath x.f { tm.path x.f with pc := x.p.pc + (disp.signExtend 64 <<< 2), hold := .free }))
      if 2 ≤ x.stage then x.satisfied s cs (truthOf (x.stage - 2)) ws done
      else
        match x.evalBlock cs s with
        | (.trap c sub val, s) => .trap s c sub val
        | (.truth bs, s) => if bs.any id then x.satisfied s cs bs ws done else x.hold s 0 ws
    match x.st with
    | some w => go w.cap
    | none => x.withBlock s a (n.toNat + 1) (fun ws _ => go ws)) s

end Sys2Proof.Machine
end

