-- ==== Sys2Proof/Machine/Version.lean ====
section
/-! DEFINITION. The version of an open task (R196): its lines, reads through them, and the commit (R202, R287). -/

namespace Sys2Proof.Machine

/-- The byte at an offset of a version line, if the version holds it. -/
def VLine.byte (v : VLine) (off : Nat) : Option Byte := tget v.bytes off

/-- The 32 word bounds of a line as its version shows them, over the bounds in memory: a word that the version holds in
part keeps the larger bound. -/
def VLine.merged (v : VLine) (mem : List Half) : List Half :=
  mem.zipIdx.map (fun (x, j) =>
    match tget v.bnds j with
    | none => x
    | some b => if (List.range 4).all (fun i => (v.byte (4 * j + i)).isSome) then b else ebMax x b)

/-- The bound of word w as a load reads it from the version, encoded as a record is (R256). -/
def VLine.bound (v : VLine) (mem : List Half) (w : Nat) : Half := recBound (recEncode (v.merged mem)) w

/-- A line operation placed in the version. -/
def VLine.write (v : VLine) (mem : List Half) (w : LineW) : VLine :=
  let old := (List.range 32).map (v.bound mem)
  let new := mergeBounds old w
  let touched := (List.range 32).filter (fun j => (List.range 4).any (fun i => (tget w (4 * j + i)).isSome))
  { v with bytes := w.foldl (fun t (e : Nat × Byte × Half) => tset t e.1 e.2.1) v.bytes
           bnds := touched.foldl (fun t j => tset t j (new.getD j 0)) v.bnds }

/-- The version line of the open task of a team, for its own accesses (R203). -/
def Team.vline (tm : Team) (line : Nat) : Option VLine :=
  match tm.inTask with
  | some k => tget k.lines line
  | none => none

/-- The team's stores go to its version (R196, R201). -/
def Team.versions (tm : Team) : Bool :=
  match tm.inTask with
  | some k => !k.nonspec
  | none => false

/-- A version line can be allocated for a task of core n that holds `have_` lines (R196). -/
def State.lineFree (s : State) (core have_ : Nat) : Bool :=
  have_ < 32 || s.extraLines core < 2048 - 32 * s.openTasks core

/-- Performs one version line at its home. -/
def State.commitLine (s : State) (tm : Team) (line : Nat) (v : VLine) : State :=
  let w : LineW := v.bytes.map (fun e => (e.1, (e.2, (tget v.bnds (e.1 / 4)).getD 0)))
  let s := s.writeLine (some tm.ctx) (pteCls v.pte) (pteKey v.pte) line w (pteBnd v.pte) true
  let s := if v.poison then s.setPoison line true else s
  s.l1Drop tm.core tm.ctx v.vline

/-- The commit of a version: every line at once (R202, R287). -/
def State.commit (s : State) (tm : Team) (k : Task) : State :=
  k.lines.foldl (fun s e => s.commitLine tm e.1 e.2) s

/-- Closes the task with a commit, or after a non-speculative re-run (R201, R202). -/
def Team.closeTask (tm : Team) : Team :=
  match tm.task with
  | none => tm
  | some k => { tm with task := none, mode := mSetGears tm.mode (mGfl k.mode) (mGcl k.mode), bstat := bsSet tm.bstat 13 1 0 }

end Sys2Proof.Machine
end

