-- ==== Sys2Proof/Machine/Access.lean ====
section
/-! DEFINITION. Data accesses: windows (R245, R246), L1 (R249, R250), compressed blocks (R259, R260), reads, writes and
read-modify-writes at their place, and the side log (R286). -/

namespace Sys2Proof.Machine

/-! ### Windows -/

/-- The window of a generic address (R245). -/
inductive Win where
  | glob | stack (o : Nat) | scratch (o : Nat) | none
  deriving DecidableEq, Repr

def winOf (a : Nat) : Win :=
  if a < 2 ^ 56 then .glob
  else if 0xFE00000000000000 ≤ a ∧ a < 0xFE00000001000000 then .stack (a - 0xFE00000000000000)
  else if 0xFF00000000000000 ≤ a ∧ a < 0xFF00000000080000 then .scratch (a - 0xFF00000000000000)
  else .none

/-- Bytes of scratchpad of the team's group. -/
def X.alloc (x : X) (s : State) : Nat := match s.group x.tm.group with | some g => g.alloc | Option.none => 0

/-- The XLAT sub-code of an access of n bytes at a (R245, R338). -/
def X.winErr (x : X) (s : State) (a n : Nat) : Option Nat :=
  match winOf a with
  | .none => some 0
  | .glob => if 2 ^ 56 < a + n then some 1 else Option.none
  | .stack o => if x.tm.sl < o + n then some 1 else Option.none
  | .scratch o => if x.alloc s < o + n then some 1 else Option.none

/-- The number that alignment is checked on: the offset, in the stack window (R264). -/
def alignOf (a : Nat) : Nat := match winOf a with | .stack o => o | _ => a

/-- The global address of byte o of lane l's stack (R246). -/
def Team.stackVa (tm : Team) (l o : Nat) : Nat := tm.sb + 64 * tm.sl * tm.linear + 256 * (o / 4) + 4 * l + o % 4

/-- A run of bytes before translation. -/
inductive Run where
  | va (va len : Nat)
  | scr (off len : Nat)
  deriving DecidableEq, Repr

/-- Cuts [va, va+n) at multiples of m. -/
def cutAt (m : Nat) (f : Nat → Nat → Run) : Nat → Nat → Nat → List Run
  | 0, _, _ => []
  | _ + 1, _, 0 => []
  | k + 1, a, n => let j := min (m - a % m) n; f a j :: cutAt m f k (a + j) (n - j)

/-- The runs of n bytes at generic address a of lane l. -/
def Team.runs_ (tm : Team) (l a n : Nat) : List Run :=
  match winOf a with
  | .glob => cutAt 128 .va n a n
  | .stack o => cutAt 4 (fun o n => .va (tm.stackVa l o) n) n o n
  | .scratch o => [.scr o n]
  | .none => []

/-! ### Scratchpad -/

def State.scrGet (s : State) (g off : Nat) : Byte :=
  match s.group g with
  | some x => (tget x.scr off).getD (Config.scratchInit g off)
  | Option.none => Config.scratchInit g off

def State.scrSet (s : State) (g off : Nat) (bs : List Byte) : State :=
  s.modGroup g (fun x =>
    { x with scr := (bs.zipIdx).foldl (fun t b => tset t (off + b.2) b.1) x.scr
             ecc := x.ecc.filter (fun w => decide (4 * w < off ∨ off + bs.length < 4 * w + 4)) })

/-- A word of scratchpad with an uncorrectable error that an access covers (R397): group and word. -/
def State.scrEcc (s : State) (ks : List Chunk) : Option (Nat × Nat) :=
  ks.findSome? (fun k => match k.at_ with
    | .scr g off => ((s.group g).bind (fun x => x.ecc.find? (fun w => decide (off < 4 * w + 4 ∧ 4 * w < off + k.len)))).map (fun w => (g, w))
    | _ => Option.none)

/-- The first read of such a word: ECC SCRATCH, once. -/
def State.scrTrap (s : State) (e : Nat × Nat) : Res :=
  .trap (s.modGroup e.1 (fun x => { x with ecc := x.ecc.filter (· ≠ e.2) })) .ecc 2 0

/-! ### The side log (R286) -/

/-- A write that keeps bits, over the old bytes and bound of its run: a word with a kept bit keeps a larger bound
(R262). -/
def Wr.onto (w : Wr) (old : List Byte) (ob : Half) : Wr :=
  if w.keep.isEmpty then w
  else
    { w with bs := ((old.zip w.bs).zip w.keep).map (fun p => (p.1.1 &&& p.2) ||| (p.1.2 &&& ~~~p.2)), keep := []
             bnd := if w.keep.all (· = 0) then w.bnd else ebMax w.bnd ob }

/-- What an L1 line holds after a write of its team's core (R250); one that covers the line clears its poison (R253). -/
def L1Line.store (l : L1Line) (w : LineW) (bounded : Bool) : L1Line :=
  { l with data := l.data.zipIdx.map (fun p => match tget w p.2 with | some (b, _) => b | Option.none => p.1)
           lbr := if bounded then recEncode (mergeBounds ((List.range 32).map (recBound l.lbr)) w) else l.lbr
           poison := l.poison && w.length ≠ 128 }

/-- Changes the L1 line of (context, virtual line) in core n. -/
def State.l1Mod (s : State) (core ctx vline : Nat) (f : L1Line → L1Line) : State :=
  s.modCore core (fun c => { c with l1 := c.l1.map (fun l => if l.ctx = ctx ∧ l.vline = vline then f l else l) })

/-- A write at the home by a team of core n: the L1 line of the core follows. -/
def State.writeTeam (s : State) (core ctx vline line : Nat) (p : Quad) (w : LineW) : State :=
  let s := s.writeLine (some ctx) (pteCls p) (pteKey p) line w (pteBnd p) true
  s.l1Mod core ctx vline (fun l => l.store w (pteBnd p))

/-! ### Writes -/

/-- The writes of one instruction, by line: the line operation, with its PTE and virtual line. -/
abbrev LineOps := Tbl (LineW × Quad × Nat)

def lineOps (ws : List Wr) : LineOps :=
  ws.foldl (fun t w =>
    match w.c.at_ with
    | .mem va pa p =>
      let o := (tgetD t (lineOf pa) ([], p, va / 128)).1
      tset t (lineOf pa) (lineAdd o (pa % 128) w.bs w.bnd, p, va / 128)
    | _ => t) []

/-- The lines that writes poison, physical and virtual. -/
def psnLines (ws : List Wr) : List (Nat × Nat) :=
  (ws.filter (fun w => w.psn)).filterMap (fun w => match w.c.at_ with | .mem va pa _ => some (lineOf pa, va / 128) | _ => Option.none)

/-- Bits that a write keeps are read at its place. -/
def State.settle (s : State) (v : Nat → Option VLine) (w : Wr) : Wr × State :=
  if w.keep.isEmpty then (w, s)
  else
    match w.c.at_ with
    | .scr g off => (w.onto ((List.range w.c.len).map (fun j => s.scrGet g (off + j))) 0, s)
    | .side _ => (w, s)
    | .mem _ pa p =>
      let (old, s) := s.readBytes pa w.c.len (pteKey p)
      let mem := s.wordBounds (lineOf pa)
      match v (lineOf pa) with
      | Option.none => (w.onto old (mem.getD (pa % 128 / 4) 0), s)
      | some v => (w.onto (old.zipIdx.map (fun q => (v.byte (pa % 128 + q.2)).getD q.1)) (v.bound mem (pa % 128 / 4)), s)

def State.settleAll (s : State) (v : Nat → Option VLine) (ws : List Wr) : List Wr × State :=
  ws.foldl (fun (a : List Wr × State) w => let (w, s) := a.2.settle v w; (a.1 ++ [w], s)) ([], s)

/-- Performs the writes of a team's store outside a task (R247, R250, R280). -/
def State.performWrites (s : State) (core ctx : Nat) (ws : List Wr) : State :=
  let (ws, s) := s.settleAll (fun _ => Option.none) ws
  let s := ws.foldl (fun s w => match w.c.at_ with | .scr g off => s.scrSet g off w.bs | _ => s) s
  let s := (lineOps ws).foldl (fun s e => s.writeTeam core ctx e.2.2.2 e.1 e.2.2.1 e.2.1) s
  (psnLines ws).foldl (fun s n => (s.setPoison n.1 true).l1Mod core ctx n.2 (fun l => { l with poison := true })) s

/-! ### Read-modify-writes -/

/-- The new value of an RMW of type t (R292), and the generator afterwards. -/
def atNew (t : Ty) (op : AtOp) (m : RMode) (ftz : Bool) (old b c : Nat) (g : Word) : Nat × Word :=
  match op with
  | .add => ((old + b) % 2 ^ t.bits, g)
  | .min => (if tyInt t b < tyInt t old then b else old, g)
  | .max => (if tyInt t old < tyInt t b then b else old, g)
  | .and => (old &&& b, g)
  | .or => (old ||| b, g)
  | .xor => (old ^^^ b, g)
  | .exch => (b, g)
  | .cas => (if old = c then b else old, g)
  | .fadd =>
    let F := Ty.fmt t
    let u := flushIn F (ftz && Ty.flushes t) (F.dec old) 0
    let v := flushIn F (ftz && Ty.flushes t) (F.dec b) 0
    let r := (Ex.add m (.of u.1) (.of v.1)).round F m (ftz && Ty.flushes t) g
    (F.enc r.z, r.g)

/-- The rounding mode of a selection that names it. -/
def namedMode (r : RndSel) : RMode := rmode 0 r

/-- Splits bytes over the chunks of an access. -/
def splitOver : List Chunk → List Byte → List (Chunk × List Byte)
  | [], _ => []
  | c :: cs, bs => (c, bs.take c.len) :: splitOver cs (bs.drop c.len)

/-- One RMW of a lane at its place, for a context (R275, R292, R293): old value, its bound, and whether a line was
poisoned, in which case nothing is written. -/
def State.rmw (s : State) (core ctx : Nat) (t : Ty) (op : AtOp) (m : RMode) (ftz : Bool) (r : Rmw) :
    (Nat × Half × Bool) × State :=
  let read (a : (List Byte × Half × Bool) × State) (c : Chunk) : (List Byte × Half × Bool) × State :=
    match c.at_ with
    | .scr g off => ((a.1.1 ++ (List.range c.len).map (fun j => a.2.scrGet g (off + j)), a.1.2), a.2)
    | .mem _ pa p =>
      let (bs, s) := a.2.readBytes pa c.len (pteKey p)
      let b := if pteBnd p then recBound (s.recGet (lineOf pa)) (pa % 128 / 4) else 0
      let b := if pteBnd p ∧ c.len = 8 then ebMax b (recBound (s.recGet (lineOf pa)) (pa % 128 / 4 + 1)) else b
      ((a.1.1 ++ bs, ebMax a.1.2.1 b, a.1.2.2 || s.poisoned (lineOf pa) (pteKey p)), s)
    | .side _ => a
  let ((bs, b, bad), s) := r.at_.foldl read (([], 0, false), s)
  if bad then ((0, 0, true), s)
  else
    let old := ofBytes bs
    let (new, _) := atNew t op m ftz old r.b.toNat r.c.toNat r.gen
    let s := (splitOver r.at_ (toBytes new t.bytes)).foldl (fun s (c, bs) =>
      match c.at_ with
      | .scr g off => s.scrSet g off bs
      | .mem va pa p =>
        let s := s.writeLine (some ctx) (pteCls p) (pteKey p) (lineOf pa) (lineAdd [] (pa % 128) bs 0) (pteBnd p) false
        s.l1Drop core ctx (va / 128)
      | .side _ => s) s
    ((old, b, false), s)

/-- What became of a replay. -/
inductive Replay where
  | done | waits | refused (sub : Nat) | lost
  deriving DecidableEq, Repr

/-- A run of the side log's line at its physical address. -/
def Chunk.placed (c : Chunk) (pa : Nat) (p : Quad) : Chunk :=
  match c.at_ with
  | .side va => { c with at_ := .mem va (pa / 128 * 128 + va % 128) p }
  | _ => c

/-- Performs one side-log entry at its home, if its page is mapped and takes the write (R286). -/
def State.replayEntry (s : State) (core : Nat) (e : SideEntry) : Replay × State :=
  let (l, s) := s.look e.ctx (e.vline * 128) true
  match l with
  | .ok pa p =>
    let s := s.performWrites core e.ctx (e.ws.map (fun w => { w with c := w.c.placed pa p }))
    let s := match e.red with
      | some (t, op, r, ftz, rs) => rs.foldl (fun (s : State) (x : Rmw) =>
          (s.rmw core e.ctx t op (namedMode r) ftz { x with at_ := x.at_.map (fun (c : Chunk) => c.placed pa p) }).2) s
      | Option.none => s
    (.done, s.l1Drop core e.ctx e.vline)
  | .perm k => (.refused k, s)
  | .miss | .bad _ =>
    let (held, s) := s.report e.ctx (e.vline * 128) 1 core l
    (if held then .waits else .lost, s)
  | .absent _ | .link => (.lost, s)
  | .layer _ _ => (.waits, s)

/-- Takes entry `id` out of the side log of core n. -/
def State.sideDel (s : State) (n id : Nat) : State :=
  s.modCore n (fun c => { c with side := c.side.filter (fun e => e.id ≠ id) })

/-- A lost side-log entry: the team raises XLAT SIDELOG at its next release, or its launch records it (R286). -/
def State.sideLoss (s : State) (team launch : Nat) : State :=
  match tget s.teams team with
  | some tm => if tm.life = Life.draining then s.launchErr launch 7 0 else s.modTeam team (fun tm => { tm with sideLost := true })
  | Option.none => s.launchErr launch 7 0

/-- Discards entry e of core n, whose page is declined or whose home is absent (R286, R338). -/
def State.sideDrop (s : State) (n : Nat) (e : SideEntry) : State := ((s.sideDel n e.id).sideLoss e.team e.launch).launchCheck e.launch

/-- Replays entry e, the oldest of its line; a refused one halters its team (R286), in the clk of its last exit too
(R34). -/
def State.replay (s : State) (n : Nat) (e : SideEntry) : State :=
  let (r, s) := s.replayEntry n e
  match r with
  | .done => (s.sideDel n e.id).launchCheck e.launch
  | .waits => s
  | .lost => s.sideDrop n e
  | .refused k =>
    let s := s.sideDel n e.id
    let s := match tget s.teams e.team with
      | some tm =>
        if tm.life = Life.draining then
          (if tm.drainAt = s.clk then s.haltTeam e.team false 1 k 0 0 (BitVec.ofNat 64 e.la) tm.p0.pc else s.launchErr e.launch 7 0)
        else if tm.perm.isSome then s else s.modTeam e.team (fun tm => { tm with perm := some (k, e.la) })
      | Option.none => s.launchErr e.launch 7 0
    s.launchCheck e.launch

/-- Replays every entry of one line of a context, oldest first, as far as its page is mapped. -/
def State.replayLine (s : State) (n ctx vline : Nat) : State :=
  ((s.core n).side.filter (fun e => e.ctx = ctx && e.vline = vline)).foldl (fun s e =>
    if (s.core n).side.any (fun y => y.ctx = ctx && y.vline = vline && y.id < e.id) then s else s.replay n e) s

/-! ### Translation of runs -/

/-- Why an access cannot be made. -/
inductive Bad where
  | look (va : Nat) (l : Look)
  deriving DecidableEq, Repr

/-- Looks at a virtual address; one look serves all runs of a page that has a single translation. -/
def State.lookRun (s : State) (cache : List (Nat × Walk)) (ctx va : Nat) (write : Bool) : Look × List (Nat × Walk) × State :=
  match cache.find? (fun e => e.1 = va / 4096) with
  | some e => (s.lookAt e.2 va write, cache, s)
  | Option.none =>
    let one := (s.choices ctx va).length ≤ 1
    let (w, s) := s.translate ctx va
    (s.lookAt w va write, if one then (va / 4096, w) :: cache else cache, s)

/-- An entry of the side log is the team's. -/
def State.sideOwn (s : State) (tm : Team) (e : SideEntry) : Bool :=
  (tget s.teams e.team).any (fun y => y.launch = tm.launch && y.linear = tm.linear)

/-- What an entry says of the byte at va: nothing, that it is not known yet (a `red`, or bits that a store keeps), or the
byte with its bound and poison. -/
def SideEntry.byteAt (e : SideEntry) (va : Nat) : Option (Option (Byte × Half × Bool)) :=
  let in_ (c : Chunk) : Option Nat := match c.at_ with
    | .side a => if a ≤ va ∧ va < a + c.len then some (va - a) else Option.none
    | _ => Option.none
  if (match e.red with | some (_, _, _, _, rs) => rs.any (fun r => r.at_.any (fun c => (in_ c).isSome)) | Option.none => false) then some Option.none
  else e.ws.reverse.findSome? (fun w => (in_ w.c).map (fun j =>
    if w.keep.any (· ≠ 0) then Option.none else (w.bs[j]?).map (fun b => (b, w.bnd, w.psn))))

/-- The byte at va of the team's newest pending entry that covers it (R286). -/
def State.sideByte (s : State) (tm : Team) (va : Nat) : Option (Option (Byte × Half × Bool)) :=
  ((s.core tm.core).side.reverse.filter (fun e => e.ctx = tm.ctx && s.sideOwn tm e)).findSome? (fun e => e.byteAt va)

/-- Bytes that pending store entries of the team give in whole; none where some byte is not theirs to give. -/
def State.sideRead (s : State) (tm : Team) (va n : Nat) : Option (List (Byte × Half × Bool)) :=
  (List.range n).mapM (fun j => (s.sideByte tm (va + j)).join)

/-- The chunks of runs, or the first look that is not ok; with `plain` a compressed page is not. Pending side-log entries of a line that is reached are
replayed first, so that the access follows them at the home; a read of a page without translation that they cover takes
its bytes from them (R286). -/
def State.resolve (s : State) (tm : Team) (write plain : Bool) (cache : List (Nat × Walk)) :
    List Run → Except Bad (List Chunk) × List (Nat × Walk) × State
  | [] => (.ok [], cache, s)
  | .scr off n :: rs =>
    match s.resolve tm write plain cache rs with
    | (.ok cs, c, s) => (.ok (⟨.scr tm.group off, n⟩ :: cs), c, s)
    | e => e
  | .va va n :: rs =>
    let (l, cache, s) := s.lookRun cache tm.ctx va write
    match l with
    | .ok pa p =>
      if plain && pteCmp p then (.error (.look va (.ok pa p)), cache, s) else
      let s := if (s.core tm.core).side.any (fun e => e.ctx = tm.ctx && e.vline = va / 128) then
          s.replayLine tm.core tm.ctx (va / 128) else s
      match s.resolve tm write plain cache rs with
      | (.ok cs, c, s) => (.ok (⟨.mem va pa p, n⟩ :: cs), c, s)
      | e => e
    | l =>
      let miss := match l with | .miss | .bad _ => true | _ => false
      if miss && !write && (s.sideRead tm va n).isSome then
        match s.resolve tm write plain cache rs with
        | (.ok cs, c, s) => (.ok (⟨.side va, n⟩ :: cs), c, s)
        | e => e
      else (.error (.look va l), cache, s)

/-! ### Reads -/

/-- Drops the least recently used line of a set, of 128, beyond its 16 ways: 256 KiB (R249, R250). The list is in order of
use. -/
def trimSet (l1 : List L1Line) (x : L1Line) : List L1Line :=
  if l1.length ≤ 16 then l1
  else
    let st (l : L1Line) : Nat := Config.l1Set l.ctx l.vline % 128
    let mine := l1.filter (fun l => st l = st x)
    if mine.length ≤ 16 then l1
    else match mine.getLast? with
      | some v => l1.filter (fun l => !(l.ctx = v.ctx && l.vline = v.vline))
      | Option.none => l1

/-- The L1 line of an access, filled on a miss (R250). -/
def State.l1Line (s : State) (core ctx va pa : Nat) (p : Quad) : L1Line × State :=
  let c := s.core core
  match c.l1.find? (fun l => l.ctx = ctx && l.vline = va / 128) with
  | some l =>
    (l, s.modCore core (fun c => { c with l1 := l :: c.l1.filter (fun x => !(x.ctx = ctx && x.vline = va / 128)) }))
  | Option.none =>
    let line := lineOf pa
    let s := s.cacheRead (core / 16) ctx (pteCls p) line
    let (bs, s) := s.readBytes (line * 128) 128 (pteKey p)
    let l : L1Line := { ctx := ctx, vline := va / 128, cls := pteCls p, data := bs
                        lbr := if pteBnd p || pteCmp p then s.recGet line else 0, poison := s.poisoned line (pteKey p) || s.replicaBad (core / 16) line }
    (l, s.modCore core (fun c => { c with l1 := trimSet (l :: c.l1) l }))

/-- The bound of n bytes at offset off of a line with word bounds bs (R255). -/
def boundOver (bs : Nat → Half) (off n : Nat) : Half :=
  (List.range (ceilDiv (off % 4 + n) 4)).foldl (fun b j => ebMax b (bs (off / 4 + j))) 0

/-- The bytes of an expanded block (R259): `get` gives byte i of its slot. -/
def expand (meth base : Nat) (get : Nat → Byte) (i : Nat) : Byte :=
  let w := i / 4
  let word : Nat := match meth with
    | 1 => 0
    | 2 => trunc ((base : Int) + sext (get w).toNat 8) 32
    | _ => trunc ((base : Int) + sext (ofBytes [get (2 * w), get (2 * w + 1)]) 16) 32
  if meth = 0 then get i else BitVec.ofNat 8 (word / 2 ^ (8 * (i % 4)))

/-- Lines that a method reads. -/
def methLines : Nat → Nat
  | 0 => 4 | 1 => 0 | 2 => 1 | _ => 2

/-- Bytes of a compressed page read by `ldc` (R260): bytes and poison. A malformed tag reads as poison. -/
def State.readComp (s : State) (core ctx va pa n : Nat) (p : Quad) : (List Byte × Bool) × State :=
  let bva := va / 512 * 512
  let bpa := pa / 512 * 512
  let held : Option L1Line := (s.core core).l1.find? (fun l => l.ctx = ctx && l.vline = bva / 128)
  let tag : Nat := (held.map (fun l => l.lbr.toNat)).getD (s.recGet (lineOf bpa)).toNat
  let meth : Nat := bitsOf tag 32 4
  if 2 ^ 36 ≤ tag ∨ 3 < meth then ((List.replicate n 0, true), s)
  else
    let (ls, s) := (List.range (methLines meth)).foldl (fun (a : List L1Line × State) j =>
      let (l, s) := a.2.l1Line core ctx (bva + 128 * j) (bpa + 128 * j) p
      (a.1 ++ [l], s)) (([] : List L1Line), s)
    let data := ls.flatMap (fun l => l.data)
    let get (i : Nat) : Byte := data.getD i 0
    (((List.range n).map (fun j => expand meth (tag % 2 ^ 32) get (va % 512 + j)), ls.any (fun l => l.poison)), s)

/-- Reads one chunk for team tm: bytes, bound, poison (R255, R266, R267). Its open task's version lies over memory. -/
def State.readChunk (s : State) (tm : Team) (via : Via) (c : Chunk) : (List Byte × Half × Bool) × State :=
  match c.at_ with
  | .scr g off => (((List.range c.len).map (fun j => s.scrGet g (off + j)), 0, false), s)
  | .side va =>
    let bs := (s.sideRead tm va c.len).getD []
    ((bs.map (fun b => b.1), bs.foldl (fun m b => ebMax m b.2.1) 0, bs.any (fun b => b.2.2)), s)
  | .mem va pa p =>
    if via = .comp ∧ pteCmp p then
      let ((bs, bad), s) := s.readComp tm.core tm.ctx va pa c.len p
      ((bs, 0, bad), s)
    else
      let line := lineOf pa
      let ((bs, rec_, bad), s) : (List Byte × Quad × Bool) × State :=
        if via = .l1 ∨ via = .comp then
          let (l, s) := s.l1Line tm.core tm.ctx va pa p
          (((l.data.drop (pa % 128)).take c.len, l.lbr, l.poison), s)
        else
          let s := if via = .next then s.cacheRead (tm.core / 16) tm.ctx (pteCls p) line else s
          let (bs, s) := s.readBytes pa c.len (pteKey p)
          ((bs, s.recGet line, s.poisoned line (pteKey p) || (via = .next && s.replicaBad (tm.core / 16) line)), s)
      match tm.vline line with
      | Option.none => ((bs, if pteBnd p then boundOver (recBound rec_) (pa % 128) c.len else 0, bad), s)
      | some v =>
        let mem := (List.range 32).map (recBound rec_)
        ((bs.zipIdx.map (fun q => (v.byte (pa % 128 + q.2)).getD q.1),
          if pteBnd p then boundOver (v.bound mem) (pa % 128) c.len else 0, bad || v.poison), s)

/-- Reads the chunks of one access. -/
def State.readAcc (s : State) (tm : Team) (via : Via) (cs : List Chunk) : (List Byte × Half × Bool) × State :=
  cs.foldl (fun (a : (List Byte × Half × Bool) × State) c =>
    let ((bs, b, bad), s) := a.2.readChunk tm via c
    ((a.1.1 ++ bs, ebMax a.1.2.1 b, a.1.2.2 || bad), s)) (([], 0, false), s)

/-! ### The version -/

/-- Places line operations in the version of the open task; false when a line is needed and none is free (R196). -/
def State.placeVersion (s : State) (t : Nat) (ops : LineOps) (poison : List (Nat × Nat)) : Bool × State :=
  ops.foldl (fun (a : Bool × State) e =>
    if !a.1 then a
    else
      match tget a.2.teams t with
      | Option.none => a
      | some tm =>
        match tm.task with
        | Option.none => a
        | some k =>
          let mem := a.2.wordBounds e.1
          let put (v : VLine) : State :=
            let v : VLine := { v.write mem e.2.1 with poison := v.poison || poison.any (fun n => n.1 = e.1) }
            a.2.modTeam t (fun tm => { tm with task := some { k with lines := tset k.lines e.1 v } })
          match tget k.lines e.1 with
          | some v => (true, put v)
          | Option.none =>
            if a.2.lineFree tm.core k.lines.length then
              (true, put { vline := e.2.2.2, pte := e.2.2.1, bytes := [], bnds := [], poison := false })
            else (false, a.2)) (true, s)

end Sys2Proof.Machine
end

