-- ==== Sys2Proof/Machine/Memory.lean ====
section
/-! DEFINITION. Loads, stores, prefetches and cache operations (R254-R272, R286, R337, R354). -/

namespace Sys2Proof.Machine

/-! ### Addresses -/

/-- addr(l) of R264. -/
def X.addr (x : X) (a b : Opnd) (off : BitVec 20) (l : Nat) : Nat :=
  let ix : Int := match b with
    | .i _ => 0
    | b => sext (x.rd.int b false l).x 32
  trunc ((x.rd.wide a l : Nat) + ix + off.toInt) 64

/-- Number of elements of VAR. -/
def cntN : Cnt → Nat
  | .c1 => 1 | .c2 => 2 | .c4 => 4

/-- The operand k registers on. -/
def opPlus (o : Opnd) (k : Nat) : Opnd :=
  match o with
  | .v n => .v (n + BitVec.ofNat 8 k)
  | .s n => .s (n + BitVec.ofNat 6 k)
  | o => o

/-- An index port, if the field names a register. -/
def rdIndex (b : Opnd) : List Port := rd 1 b

/-- Window checks (lowest lane first), then alignment to m, of n bytes at each address (R265). -/
def X.addrErr (x : X) (s : State) (n m : Nat) (as : List Nat) : Option (Cause × Nat × Nat) :=
  match as.findSome? (fun a => (x.winErr s a n).map (fun k => (k, a))) with
  | some (k, a) => some (.xlat, k, a)
  | none => (as.find? (fun a => alignOf a % m ≠ 0)).map (fun a => (.align, 0, a))

/-! ### Descriptors (R222-R224) -/

def TileDesc.zero : TileDesc := ⟨0, 0⟩
def Team.desc (tm : Team) (n : Nat) : TileDesc := tgetD tm.td n TileDesc.zero
def TileDesc.v (d : TileDesc) : Bool := d.tile.getLsbD 127
def TileDesc.cls (d : TileDesc) : Nat := bitsOf d.tile.toNat 125 2
def TileDesc.colMaj (d : TileDesc) : Bool := d.tile.getLsbD 124
def TileDesc.ty (d : TileDesc) : Option Ty := Ty.ofCode (BitVec.ofNat 4 (bitsOf d.tile.toNat 120 4))
def TileDesc.stride (d : TileDesc) : Nat := bitsOf d.tile.toNat 92 20 * 16
def TileDesc.cols (d : TileDesc) : Nat := bitsOf d.tile.toNat 78 14 + 1
def TileDesc.rows (d : TileDesc) : Nat := bitsOf d.tile.toNat 64 14 + 1
def TileDesc.base (d : TileDesc) : Nat := bitsOf d.tile.toNat 0 56
def TileDesc.en (d : TileDesc) : Bool := d.scale.getLsbD 31
def TileDesc.off (d : TileDesc) : Nat := bitsOf d.scale.toNat 0 19
/-- Runs of the descriptor, and elements of a run. -/
def TileDesc.nRuns (d : TileDesc) : Nat := if d.colMaj then d.cols else d.rows
def TileDesc.runLen (d : TileDesc) : Nat := if d.colMaj then d.rows else d.cols
/-- Bytes of n elements of type t in a run. -/
def runBytes (t : Ty) (n : Nat) : Nat := n * t.bits / 8

/-- The runs of a descriptor of type t. -/
def TileDesc.runAddrs (d : TileDesc) (t : Ty) : List (Nat × Nat) :=
  (List.range d.nRuns).map (fun r => (d.base + d.stride * r, runBytes t d.runLen))

/-- What a queued `mma` has still to read; these are reads of its team, issued with it (R229). -/
def MCmd.reads (c : MCmd) : List (Nat × Nat) :=
  let of (t : Ty) (o : MOp) (d : TileDesc) : List (Nat × Nat) := match o with | .td _ => d.runAddrs t | .tile _ => []
  match c.i with
  | .mma _ t _ _ a b _ _ => of t a c.tdA ++ of t b c.tdB
  | _ => []

/-! ### Order among operations of one team (R277) -/

/-- Two runs share a byte. -/
def Chunk.meets (c d : Chunk) : Bool :=
  match c.at_, d.at_ with
  | .scr g o, .scr k p => g = k && decide (o < p + d.len) && decide (p < o + c.len)
  | .mem _ o _, .mem _ p _ => decide (o < p + d.len) && decide (p < o + c.len)
  | _, _ => false

/-- A run that a pending side-log entry covers. -/
def Chunk.isSide (c : Chunk) : Bool := match c.at_ with | .side _ => true | _ => false

/-- The runs that an operation has still to access. -/
def Work.chunks : Work → List Chunk
  | .load _ _ _ _ accs => accs.flatMap (fun a => a.chunks)
  | .store ws _ => ws.map (fun w => w.c)
  | .atom _ _ _ _ _ rs => rs.flatMap (fun r => r.at_)
  | _ => []

/-- An access of the operation goes over a CXL port that is down (R434). A line that L1 holds does not. -/
def State.unlinked (s : State) (tm : Team) (w : Work) : Bool :=
  let inL1 (va : Nat) : Bool := match w with
    | .load .l1 .. => (s.core tm.core).l1.any (fun l => l.ctx = tm.ctx && l.vline = va / 128)
    | _ => false
  w.chunks.any (fun k => match k.at_ with | .mem va pa _ => s.linkDown pa && !inL1 va | _ => false)

/-- The first n bytes of a run of context ctx, from page to page, as physical runs; pages without translation have none. -/
def State.physRuns (s : State) (ctx : Nat) : Nat → Nat → Nat → List (Nat × Nat)
  | 0, _, _ => []
  | _ + 1, _, 0 => []
  | k + 1, va, n =>
    let j := min (4096 - va % 4096) n
    (match s.walk ctx va with | .hit p => [(ptePa p va, j)] | _ => []) ++ s.physRuns ctx k (va + j) (n - j)

/-- A run of global bytes of context ctx meets a chunk. -/
def State.meetsRun (s : State) (ctx : Nat) (c : Chunk) (r : Nat × Nat) : Bool :=
  match c.at_ with
  | .mem _ pa _ => (s.physRuns ctx (r.2 / 4096 + 2) r.1 r.2).any (fun q => decide (pa < q.1 + q.2) && decide (q.1 < pa + c.len))
  | _ => false

/-- An operation of the team that was issued before operation n still has to access some byte of the runs; `mma` reads
at its execution (R229, R277). -/
def State.behind (s : State) (t n : Nat) (cs : List Chunk) : Bool :=
  s.ops.any (fun o => decide (o.1 < n) && o.2.team = t && o.2.work.chunks.any (fun c => cs.any c.meets)) ||
  (match tget s.teams t with
   | some tm =>
     let mx := (s.core tm.core).mx
     (mx.acc ++ mx.queues.flatMap (fun q => q.2)).any (fun c => decide (c.op < n) && c.team = t &&
       c.reads.any (fun r => cs.any (fun k => s.meetsRun tm.ctx k r)))
   | none => false)

/-- The lines of global memory that chunks touch: a line operation each (R265). -/
def lineCount (cs : List Chunk) : Nat :=
  ((cs.filterMap (fun c => match c.at_ with
    | .mem _ pa _ => some (pa / 128)
    | .side va => some (2 ^ 56 + va / 128)
    | .scr _ _ => none)).eraseDups).length

/-- The memory unit of core n has n line operations free, of its 1024 (R265). -/
def State.lineRoom (s : State) (core n : Nat) : Bool :=
  foldOver s.ops n (fun k o => match tget s.teams o.2.team with | some tm => if tm.core = core then k + o.2.lines else k | none => k) ≤ 1024

/-- Each byte of the chunks lies in the version of the team's open task. -/
def Team.inVersion (tm : Team) (cs : List Chunk) : Bool :=
  tm.inTask.isSome && cs.all (fun c => match c.at_ with
    | .mem _ pa _ => (List.range c.len).all (fun j => ((tm.vline (lineOf pa)).bind (fun v => v.byte (pa % 128 + j))).isSome)
    | _ => false)

/-! ### Loads (R264-R267) -/

/-- The bits that a load writes for an element: narrow integers are extended (R264). -/
def loadExt (t : Ty) (x : Nat) : Nat := if t.signed ∧ t.bits < 32 then trunc (sext x t.bits) 32 else x

/-- The register writes of a load: n elements a lane. -/
def loadUpds (d : Opnd) (t : Ty) (n : Nat) (rs : List (Nat × List El)) : List Upd :=
  (List.range n).flatMap (fun j =>
    dstUpds (opPlus d (j * tyN t)) t.w64 (rs.map (fun r => (r.1, r.2.getD j ⟨0, 0⟩))))

/-- Reads every element of a load, lane-major, in order. -/
def State.readAll (s : State) (tm : Team) (via : Via) (t : Ty) : List Acc → List (Nat × El) × Bool × State
  | [] => ([], false, s)
  | a :: as =>
    let ((bs, b, bad), s) := s.readAcc tm via a.chunks
    let (rs, bad', s) := s.readAll tm via t as
    ((a.lane, ⟨loadExt t (ofBytes bs), b⟩) :: rs, bad || bad', s)

/-- The elements by lane. -/
def byLane (n : Nat) : Nat → List (Nat × El) → List (Nat × List El)
  | 0, _ => []
  | _ + 1, [] => []
  | k + 1, (l, e) :: rs => (l, e :: (rs.take (n - 1)).map Prod.snd) :: byLane n k (rs.drop (n - 1))

/-- Performs a load of team tm: what its operation has left to do (R253). -/
def State.doLoad (s : State) (tm : Team) (via : Via) (t : Ty) (d : Opnd) (n : Nat) (accs : List Acc) : Work × State :=
  let (rs, bad, s) := s.readAll tm via t accs
  (if bad then .fail 1 else .done (loadUpds d t n (byLane n rs.length rs)), s)

/-- The accesses of (lane, lane address, address, bytes), translated in order; an error names the lane's address. -/
def State.resolveAll (s : State) (tm : Team) (write plain : Bool) (cache : List (Nat × Walk)) :
    List (Nat × Nat × Nat × Nat) → Except (Nat × Bad) (List Acc) × State
  | [] => (.ok [], s)
  | (l, la, a, n) :: rs =>
    match s.resolve tm write plain cache (tm.runs_ l a n) with
    | (.error b, _, s) => (.error (la, b), s)
    | (.ok cs, cache, s) =>
      match s.resolveAll tm write plain cache rs with
      | (.ok accs, s) => (.ok (⟨l, cs⟩ :: accs), s)
      | e => e

/-- What the accesses that cannot be made met, in order. -/
def State.badAll (s : State) (tm : Team) (write plain : Bool) (cache : List (Nat × Walk)) :
    List (Nat × Nat × Nat × Nat) → List (Nat × Bad) × State
  | [] => ([], s)
  | (l, la, a, n) :: rs =>
    match s.resolve tm write plain cache (tm.runs_ l a n) with
    | (r, cache, s) =>
      let (bs, s) := s.badAll tm write plain cache rs
      (match r with | .error b => (la, b) :: bs | .ok _ => bs, s)

/-- The fate that a hold has met for a 4 KiB page. -/
def X.declinedPage (x : X) : Option Nat :=
  match x.st with
  | some w => if w.fate = .declined then w.pages.head? else none
  | none => none

/-- A run has bytes in [va, va + n). -/
def Run.within (va n : Nat) : Run → Bool
  | .va a k => decide (a < va + n) && decide (va < a + k)
  | .scr _ _ => false

/-- The lane address of the first access with bytes in [va, va + n), or else of the first access. -/
def Team.laneAt (tm : Team) (items : List (Nat × Nat × Nat × Nat)) (va n : Nat) : Nat :=
  let at_ := (items.find? (fun i => (tm.runs_ i.1 i.2.2.1 i.2.2.2).any (Run.within va n))).orElse (fun _ => items.head?)
  (at_.map (fun i => i.2.1)).getD 0

/-- The trap of a held read that has met its fate, whatever the page or the layer is by now (R335, R351, R354, R355):
sub-codes and TVAL as R337 and R354 give them. -/
def X.fateTrap (x : X) (s : State) (items : List (Nat × Nat × Nat × Nat)) : Option Res :=
  match x.st with
  | none => none
  | some w =>
    let layer : Nat :=
      match w.layer.bind (s.layerOf x.tm.ctx) with
      | some y => x.tm.laneAt items (bitsOf y.entry.toNat 0 56) ((bitsOf y.entry.toNat 88 20 + 1) * 4096)
      | none => x.tm.laneAt items 0 0
    match w.fate with
    | .open => none
    | .declined => some (.trap s .xlat 2 (BitVec.ofNat 64 (x.tm.laneAt items (w.pages.headD 0 * 4096) 4096)))
    | .timeout => some (.trap s .swapf 0 (BitVec.ofNat 64 layer))
    | .failed => some (.trap s .swapf 1 (BitVec.ofNat 64 layer))

/-- Misses and malformed PTEs among what accesses met: the lane address, the virtual address and the look (R335). -/
def misses (bs : List (Nat × Bad)) : List (Nat × Nat × Look) :=
  bs.filterMap (fun b => match b.2 with
    | .look va .miss => some (b.1, va, .miss)
    | .look va (.bad p) => some (b.1, va, .bad p)
    | _ => none)

/-- Reports the faults of misses (R335): whether all are reported, and the pages. -/
def State.reportAll (s : State) (tm : Team) (req : Nat) (ms : List (Nat × Nat × Look)) : Bool × List Nat × State :=
  let r := ms.foldl (fun (a : Bool × State) m =>
    let (held, s) := a.2.report tm.ctx m.2.1 req tm.core m.2.2
    (a.1 && held, s)) (true, s)
  (r.1, (ms.map (fun m => m.2.1 / 4096)).eraseDups, r.2)

/-- What ends a read that met `b` at lane address la, whatever its other lanes met: COMPR, ABSENT, a failed layer, a link
that is down, or a permission violation; none for a hold. -/
def X.endRead (x : X) (s : State) (la : Nat) (b : Bad) : Option Res :=
  match b with
  | .look _ l =>
    match l with
    | .miss | .bad _ => none
    | .layer n _ =>
      if (s.layerOf x.tm.ctx n).map (fun y => y.st) = some .failed then some (.trap s .swapf 1 (BitVec.ofNat 64 la)) else none
    | .absent _ => some (.trap s .xlat 5 (BitVec.ofNat 64 la))
    | .link => some (.token s (x.op s .mem [] (.fail 4)))
    | .ok _ _ => some (.trap s .xlat 4 (BitVec.ofNat 64 la))
    | .perm k => some (.token (s.modTeam x.t (fun tm => { tm with perm := some (k, la) })) (x.op s .mem [] (.fail 6)))

/-- The absent layers among what accesses met. -/
def layersOf (bs : List (Nat × Bad)) : List Nat :=
  (bs.filterMap (fun b => match b.2 with | .look _ (.layer n _) => some n | _ => none)).eraseDups

/-- A read, or an `atom`, that cannot be made (R265, R337, R338, R354); `bs` is what the accesses of its lanes met, if not
what they should, in order. Every absent layer is requested and every fault is reported. -/
def X.badRead (x : X) (s : State) (stage : Nat) (cap : List Nat) (bs : List (Nat × Bad)) : Res :=
  match bs.findSome? (fun b => x.endRead s b.1 b.2) with
  | some r => r
  | none =>
    let ms := misses bs
    let s := (layersOf bs).foldl (fun s n => s.request x.tm.ctx n true []) s
    let (held, pages, s) := s.reportAll x.tm 0 ms
    if held then x.holdOn s stage cap pages (layersOf bs).head?
    else .trap s .xlat 2 (BitVec.ofNat 64 ((ms.map (fun m => m.1)).headD 0))

/-- A load of each lane of the work list (R264-R267). -/
def X.load (x : X) (s : State) (via : Via) (t : Ty) (c : Cnt) (d a b : Opnd) (off : BitVec 20) : Res :=
  let n := cntN c
  let size := t.bytes
  let ls := x.work d
  let go (as : List Nat) : Res :=
    let items := (ls.zip as).flatMap (fun p => (List.range n).map (fun j => (p.1, p.2, p.2 + j * size, size)))
    match x.fateTrap s items with
    | some r => r
    | none =>
    let (r, s) := s.resolveAll x.tm false (via ≠ .comp) [] items
    match r with
    | .error _ =>
      let (bs, s) := s.badAll x.tm false (via ≠ .comp) [] items
      x.badRead s 0 as bs
    | .ok accs =>
      let cs := accs.flatMap (fun a => a.chunks)
      match s.scrEcc cs with
      | some e => s.scrTrap e
      | none =>
      let keys := dstKeys d (n * tyN t) x.e
      let early := s.behind x.t (x.opNum s) cs || s.unlinked x.tm (.load via t d n accs)
      if !s.lineRoom x.tm.core (lineCount cs) || (early && cs.any Chunk.isSide) then x.hold s 0 as
      else
        let (w, s) : Work × State :=
          if early || (x.late && !cs.any Chunk.isSide) then (.load via t d n accs, s) else s.doLoad x.tm via t d n accs
        let o := { x.op s .mem keys w with lines := lineCount cs, inVer := x.tm.inVersion cs }
        if via = .home ∧ mProg x.tm.mode then .demote s o else .token s o
  match x.st with
  | some w => go w.cap
  | none =>
    let as := ls.map (x.addr a b off)
    match x.addrErr s (n * size) (n * size) as with
    | some (k, sub, v) => .trap s k sub (BitVec.ofNat 64 v)
    | none => go as

/-- Ports of a load. -/
def loadPorts (t : Ty) (c : Cnt) (d a b : Opnd) : List Port := wr (cntN c * tyN t) d ++ rd 2 a ++ rdIndex b

/-- `ld` (R266). -/
def execLd (h : Hdr) (ty : Ty) (n : Cnt) (d a b : Opnd) (off : BitVec 20) (s : State) : Host.Outcome State Fault Refusal :=
  instr (.ld h ty n d a b off) h (.token .mem) (loadPorts ty n d a b) (fun x s => x.load s .l1 ty n d a b off) s
/-- `ldb` (R266). -/
def execLdb (h : Hdr) (ty : Ty) (n : Cnt) (d a b : Opnd) (off : BitVec 20) (s : State) : Host.Outcome State Fault Refusal :=
  instr (.ldb h ty n d a b off) h (.token .mem) (loadPorts ty n d a b) (fun x s => x.load s .next ty n d a b off) s
/-- `ldp` (R266). -/
def execLdp (h : Hdr) (ty : Ty) (d a b : Opnd) (off : BitVec 20) (s : State) : Host.Outcome State Fault Refusal :=
  instr (.ldp h ty d a b off) h (.token .mem) (loadPorts ty .c1 d a b) (fun x s => x.load s .home ty .c1 d a b off) s
/-- `ldc` (R267). -/
def execLdc (h : Hdr) (ty : Ty) (n : Cnt) (d a b : Opnd) (off : BitVec 20) (s : State) : Host.Outcome State Fault Refusal :=
  instr (.ldc h ty n d a b off) h (.token .mem) (loadPorts ty n d a b) (fun x s => x.load s .comp ty n d a b off) s

/-! ### Stores (R186, R196, R264, R268-R270, R286) -/

/-- Bytes that a lane stores at an address: the lane and its address, the lanes whose element breaches the budget as a
mask, the data, the bits to keep, the bound, and whether the line is written as poisoned. Where bits are kept, the bound of
the word is known at its place only: `xs` gives the lanes whose elements it is checked against (R262), as bits of type `ty`. -/
structure Piece where
  lane : Nat
  la   : Nat
  addr : Nat
  br   : Nat
  bs   : List Byte
  keep : List Byte
  bnd  : Half
  psn  : Bool
  ty   : Ty
  xs   : List (Nat × Nat)
  deriving DecidableEq, Repr

/-- A piece as the numbers that a hold keeps. -/
def Piece.enc (p : Piece) : List Nat :=
  [p.lane, p.la, p.addr, p.br, p.bs.length, ofBytes p.bs, p.keep.length, ofBytes p.keep, p.bnd.toNat, p.psn.toNat, p.ty.code.toNat,
    p.xs.length] ++ p.xs.flatMap (fun x => [x.1, x.2])

/-- Pairs of numbers. -/
def pairsOf : List Nat → List (Nat × Nat)
  | a :: b :: r => (a, b) :: pairsOf r
  | _ => []

/-- The pieces that a hold keeps, at most `fuel` of them. -/
def piecesFrom : Nat → List Nat → List Piece
  | k + 1, l :: la :: a :: br :: n :: v :: m :: kv :: b :: q :: ty :: x :: r =>
    ⟨l, la, a, br, toBytes v n, toBytes kv m, BitVec.ofNat 16 b, q = 1, (Ty.ofCode (BitVec.ofNat 4 ty)).getD .n32,
      pairsOf (r.take (2 * x))⟩ :: piecesFrom k (r.drop (2 * x))
  | _, _ => []
def piecesOf (ns : List Nat) : List Piece := piecesFrom ns.length ns

/-- A piece's part on one run, at its generic address, and what that finds. -/
structure Part where
  p    : Piece
  addr : Nat
  at_  : Place
  bs   : List Byte
  keep : List Byte
  look : Look
  deriving DecidableEq, Repr

/-- The runs of a piece with their generic addresses and bytes. -/
def cutBytes : Nat → List Run → List Byte → List Byte → List (Nat × Run × List Byte × List Byte)
  | _, [], _, _ => []
  | a, r :: rs, bs, ks =>
    let n := match r with | .va _ n => n | .scr _ n => n
    (a, r, bs.take n, ks.take n) :: cutBytes (a + n) rs (bs.drop n) (ks.drop n)

/-- Translates the parts of pieces for a write. A line with side-log entries of the team is replayed first (R286). -/
def State.resolveParts (s : State) (tm : Team) (cache : List (Nat × Walk)) :
    List (Piece × Nat × Run × List Byte × List Byte) → List Part × State
  | [] => ([], s)
  | (p, a, .scr off _, bs, ks) :: rs =>
    let (ps, s) := s.resolveParts tm cache rs
    (⟨p, a, .scr tm.group off, bs, ks, .ok 0 0⟩ :: ps, s)
  | (p, a, .va va _, bs, ks) :: rs =>
    let (l, cache, s) := s.lookRun cache tm.ctx va true
    let (at_, s) : Place × State := match l with
      | .ok pa q =>
        (.mem va pa q, if (s.core tm.core).side.any (fun e => e.ctx = tm.ctx && e.vline = va / 128) then
          s.replayLine tm.core tm.ctx (va / 128) else s)
      | _ => (.side va, s)
    let (ps, s) := s.resolveParts tm cache rs
    (⟨p, a, at_, bs, ks, l⟩ :: ps, s)

def Part.va (p : Part) : Nat := match p.at_ with | .side va => va | .mem va _ _ => va | .scr _ _ => 0
def Part.wr (p : Part) : Wr := ⟨⟨p.at_, p.bs.length⟩, p.bs, p.keep, p.p.bnd, p.p.psn⟩
/-- The page of the part is a checked page. -/
def Part.checked (p : Part) : Bool := match p.at_ with | .mem _ _ q => pteChk q | _ => false
/-- The part's translation is not known. -/
def Part.unknown (p : Part) : Bool := match p.look with | .miss => true | .bad _ => true | _ => false
/-- The part's home is absent, which counts as a declined fault (R338). -/
def Part.lost (p : Part) : Bool := match p.look with | .absent _ => true | _ => false

/-- The part as a piece of its own. -/
def Part.piece (p : Part) : Piece := { p.p with addr := p.addr, bs := p.bs, keep := p.keep }
/-- The part has bytes on a 4 KiB page. -/
def Part.onPage (p : Part) (page : Nat) : Bool := match p.at_ with | .scr _ _ => false | _ => p.va / 4096 = page

/-- Adds an entry to the side log of core n (R286). -/
def State.sideAdd (s : State) (n : Nat) (e : SideEntry) : State :=
  { s.modCore n (fun c => { c with side := c.side ++ [{ e with id := s.nextReq }] }) with nextReq := s.nextReq + 1 }

/-- Enters writes of one line at an unmapped address in the side log, and reports the fault; a fault that is declined
at once discards the entry (R286, R335). -/
def State.sideEnter (s : State) (t : Nat) (tm : Team) (va la : Nat) (l : Look) (ws : List Wr)
    (red : Option (Ty × AtOp × RndSel × Bool × List Rmw)) : State :=
  let (held, s) := s.report tm.ctx va 1 tm.core l
  if held then s.sideAdd tm.core ⟨0, t, tm.ctx, tm.launch, va / 128, la, ws, red⟩ else s.sideLoss t tm.launch

/-- The parts by virtual line, in order of their first part. -/
def groupLines : List Part → Tbl (List Part)
  | [] => []
  | p :: ps =>
    let t := groupLines ps
    tset t (p.va / 128) (p :: tgetD t (p.va / 128) [])

/-- The end of a store's operation: with the error of a poisoned `mst` (R220). -/
def endWork (err : Option Nat) : Work := match err with | none => .done [] | some c => .fail c

/-- The unit and the error of the store that x makes: those of `mst`, or a plain store's. -/
structure StUnit where
  u   : CUnit
  err : Option Nat
  deriving DecidableEq, Repr

/-- The value of an element as it stands in memory, for the budget. -/
def memVal (t : Ty) (v : Nat) : Ex := (elemVals t (v % 2 ^ t.bits)).headD .nan

/-- A store's hold with what it has still to write. -/
def X.holdParts (x : X) (s : State) (stage : Nat) (ps : List Part) : Res :=
  x.holdOn s stage (ps.flatMap (fun p => p.piece.enc)) [] none

/-- The writes of a store become an operation: performed now, or when it completes. -/
def X.storeOp (x : X) (s : State) (k : StUnit) (stage : Nat) (ps : List Part) (n : Nat) : Res :=
  let ws := ps.map Part.wr
  let cs := ws.map (fun w => w.c)
  if k.u = .mem ∧ !s.lineRoom x.tm.core (lineCount cs) then x.holdParts s stage ps
  else
    let o (s : State) (w : Work) : Op := { x.op s k.u [] w with lines := if k.u = .mem then lineCount cs + n else 0 }
    if x.late || s.behind x.t (x.opNum s) cs || s.unlinked x.tm (.store ws k.err) then .token s (o s (.store ws k.err))
    else
      let s := s.performWrites x.tm.core x.tm.ctx ws
      .token s (o s (endWork k.err))

/-- A store of pieces outside a task, or in a non-speculative re-run: mapped lines are written, others enter the side
log as far as it has room (R265, R286). -/
def X.storePlain (x : X) (s : State) (k : StUnit) (stage : Nat) (ps : List Part) : Res :=
  let (lost, ps) := ps.partition Part.lost
  let (miss, ok) := ps.partition Part.unknown
  let lines := groupLines miss
  let room := 128 - (s.core x.tm.core).side.length
  let (now, later) := (lines.take room, lines.drop room)
  let s := if lost.isEmpty then s else s.sideLoss x.t x.tm.launch
  let enter (s : State) : State := now.foldl (fun s e =>
    match e.2 with
    | [] => s
    | p :: _ => s.sideEnter x.t x.tm p.va p.p.la p.look (e.2.map Part.wr) none) s
  let ws := ok.map Part.wr
  if later.isEmpty then x.storeOp (enter s) k stage ok lines.length
  else if s.behind x.t (x.opNum s) (ws.map (fun w => w.c)) || s.unlinked x.tm (.store ws k.err) then x.holdParts s stage ps
  else x.holdParts ((enter s).performWrites x.tm.core x.tm.ctx ws) stage (later.flatMap (fun e => e.2))

/-- The lanes of the parts whose elements breach the budget, under the bounds of the words as the parts leave them: those
of `p.br`, and of a word with kept bits those that breach under its own bound (R262, R270). -/
def X.partsBreach (x : X) (s : State) (ps : List Part) : Nat :=
  ps.foldl (fun m p =>
    let b := if p.p.xs.isEmpty then (0 : Half) else (s.settle (fun line => x.tm.vline line) p.wr).1.bnd
    let more := p.p.xs.foldl (fun n e =>
      if breaches x.tm.mode x.tm.budg (memVal p.p.ty e.2) b then n ||| 2 ^ e.1 else n) 0
    m ||| p.p.br ||| more) 0

/-- A store of pieces inside a task: global lines go to the version, scratchpad at once (R196). -/
def X.storeTask (x : X) (s : State) (k : StUnit) (ps : List Part) : Res :=
  let m : Mask := BitVec.ofNat 64 (x.partsBreach s ps)
  let s := if m = 0 then s else s.modTeam x.t (fun tm => match tm.task with
    | some k => { tm with task := some { k with breach := some ((k.breach.getD 0) ||| m) } }
    | none => tm)
  let (ws, s) := s.settleAll (fun line => x.tm.vline line) (ps.map Part.wr)
  let (fits, s) := s.placeVersion x.t (lineOps ws) (psnLines ws)
  if !fits then .stop (s.rerunAsk x.t .capacity)
  else
    let s := s.performWrites x.tm.core x.tm.ctx (ws.filter (fun w => match w.c.at_ with | .scr _ _ => true | _ => false))
    .token s { x.op s k.u [] (endWork k.err) with inVer := true }

/-- A store of parts that have their translations, as far as those are known. -/
def X.storeParts (x : X) (s : State) (k : StUnit) (stage : Nat) (ps : List Part) : Res :=
  match ps.findSome? (fun p => match p.look with | .perm j => some (j, p.p.la) | _ => none) with
  | some (j, la) =>
    .token (s.modTeam x.t (fun tm => { tm with perm := some (j, la) })) (x.op s k.u [] (.fail 6))
  | none =>
    let must (p : Part) : Bool := p.unknown && (x.tm.versions || p.p.br ≠ 0 || !p.p.xs.isEmpty)
    let declined (p : Part) : Res := .trap (s.modTeam x.t Team.abortTask) .xlat 2 (BitVec.ofNat 64 p.p.la)
    match (if x.tm.versions then ps.find? Part.lost else none), ps.find? must with
    | some p, _ => declined p
    | none, some p =>
      let (held, pages, s) := s.reportAll x.tm 1 ((ps.filter must).map (fun p => (p.p.la, p.va, p.look)))
      if held then x.holdOn s stage (ps.flatMap (fun p => p.piece.enc)) pages none
      else if x.tm.versions then declined p
      else x.storePlain s k stage ps
    | none, none =>
      let m : Mask := BitVec.ofNat 64 (x.partsBreach s (ps.filter Part.checked))
      if m ≠ 0 then .stop (s.breach x.t x.f 1 m ((lowest m).getD 0))
      else if x.tm.versions then
        (if s.behind x.t (x.opNum s) (ps.map (fun p => p.wr.c)) then x.holdParts s stage ps else x.storeTask s k ps)
      else x.storePlain s k stage ps

/-- A store of pieces, captured at issue; it holds in a stage. The parts on a page that was declined to it are discarded
(R337). -/
def X.storeAs (x : X) (s : State) (k : StUnit) (stage : Nat) (pcs : List Piece) : Res :=
  let (ps, s) := s.resolveParts x.tm []
    (pcs.flatMap (fun p => (cutBytes p.addr (x.tm.runs_ p.lane p.addr p.bs.length) p.bs p.keep).map (fun r => (p, r))))
  match x.declinedPage with
  | none => x.storeParts s k stage ps
  | some page =>
    let gone (p : Part) : Bool := p.onPage page
    x.storeParts s k stage (ps.map (fun p => if gone p then { p with look := .absent 0 } else p))

/-- A store instruction of the memory unit. -/
def X.store (x : X) (s : State) (pcs : List Piece) : Res := x.storeAs s ⟨.mem, none⟩ 0 pcs

/-- Checks the addresses of pieces, and stores. -/
def X.storeNew (x : X) (s : State) (err : Option (Cause × Nat × Nat)) (pcs : List Piece) : Res :=
  match err with
  | some (k, sub, v) => .trap s k sub (BitVec.ofNat 64 v)
  | none => (x.store (s.unspin x) pcs)

/-- The pieces of `st`. -/
def X.stPieces (x : X) (t : Ty) (n : Nat) (d : Opnd) (ls as : List Nat) : List Piece :=
  (ls.zip as).flatMap (fun p => (List.range n).map (fun j =>
    let e := x.rd.el (opPlus d (j * tyN t)) t.w64 p.1
    { lane := p.1, la := p.2, addr := p.2 + j * t.bytes
      br := if breaches x.tm.mode x.tm.budg (memVal t e.x) e.b then 2 ^ p.1 else 0
      bs := toBytes e.x t.bytes, keep := [], bnd := e.b, psn := false, ty := t, xs := [] }))

/-- `st` (R268), and the PLAIN form of `stc`. -/
def X.st_ (x : X) (s : State) (t : Ty) (c : Cnt) (d a b : Opnd) (off : BitVec 20) : Res :=
  match x.st with
  | some w => x.store s (piecesOf w.cap)
  | none =>
    let n := cntN c
    let ls := x.work d
    let as := ls.map (x.addr a b off)
    x.storeNew s (x.addrErr s (n * t.bytes) (n * t.bytes) as) (x.stPieces t n d ls as)

/-- `st` (R268). -/
def execSt (h : Hdr) (ty : Ty) (n : Cnt) (d a b : Opnd) (off : BitVec 20) (s : State) : Host.Outcome State Fault Refusal :=
  instr (.st h ty n d a b off) h (.token .mem) (rd (cntN n * tyN ty) d ++ rd 2 a ++ rdIndex b)
    (fun x s => x.st_ s ty n d a b off) s

/-- The pieces of `stm`: one a byte that B enables (R269). -/
def X.stmPieces (x : X) (n : Nat) (d b : Opnd) (ls as : List Nat) : List Piece :=
  (ls.zip as).flatMap (fun p =>
    let en := (x.rd.int b false p.1).x
    (List.range (4 * n)).filterMap (fun j =>
      if en.testBit j then
        let e := x.rd.el (opPlus d (j / 4)) false p.1
        some { lane := p.1, la := p.2, addr := (p.2 + j) % 2 ^ 64
               br := if breaches x.tm.mode x.tm.budg (memVal .n32 e.x) e.b then 2 ^ p.1 else 0
               bs := [BitVec.ofNat 8 (e.x / 2 ^ (8 * (j % 4)))], keep := [], bnd := e.b, psn := false, ty := .n32, xs := [] }
      else none))

/-- `stm` (R269). -/
def execStm (h : Hdr) (n : Cnt) (d a b : Opnd) (off : BitVec 20) (s : State) : Host.Outcome State Fault Refusal :=
  instr (.stm h n d a b off) h (.token .mem) (rd (cntN n) d ++ rd 2 a ++ rd 1 b) (fun x s =>
    match x.st with
    | some w => x.store s (piecesOf w.cap)
    | none =>
      let ls := x.work d
      let as := ls.map (x.addr a (.i 0) off)
      let pcs := x.stmPieces (cntN n) d b ls as
      let err := pcs.findSome? (fun p => (x.winErr s p.addr 1).map (fun k => (Cause.xlat, k, p.la)))
      x.storeNew s err pcs) s

/-! ### stc (R261-R263, R270) -/

/-- The save form of layer n for the team (R270). -/
def State.asf (s : State) (ctx n : Nat) : Nat :=
  match s.layerOf ctx n with
  | some y => bitsOf y.entry.toNat 210 2
  | none => 0

/-- x of lane l: its value, and its bound. -/
def X.actVal (x : X) (t : Ty) (d : Opnd) (l : Nat) : FVal × Half :=
  let e := x.rd.el d false l
  ((Ty.fmt t).dec (slotOf t e.x 0), e.b)
/-- x of lane l as it stands, a NaN included (R82). -/
def X.actRaw (x : X) (t : Ty) (d : Opnd) (l : Nat) : Nat := slotOf t (x.rd.el d false l).x 0

/-- |v| + b, the terms rounded up one after the other as R91 has it; unbounded when v is not finite. Log entry 32. -/
def actBound (v : FVal × Half) : Half := if v.1.isFin then ebAdd (ebUp v.1.q.abs) v.2 else 0xFF00

/-- The pieces of the SIGN form (R262): a word of which some lane is active. -/
def X.signPieces (x : X) (t : Ty) (d : Opnd) (l0 a : Nat) : List Piece :=
  (List.range 2).filterMap (fun w =>
    let ls := (lanesOf x.e).filter (fun l => l / 32 = w)
    let m := ls.foldl (fun n l => n + 2 ^ (l % 32)) 0
    let v := ls.foldl (fun n l => n + (if (x.actRaw t d l).testBit (t.bits - 1) then 2 ^ (l % 32) else 0)) 0
    let b := computed x.bt (ls.foldl (fun b l => ebMax b (actBound (x.actVal t d l))) 0)
    if ls.isEmpty then none
    else some
      { lane := l0, la := a, addr := a + 4 * w
        br := ls.foldl (fun n l => if breaches x.tm.mode x.tm.budg (memVal t (x.actRaw t d l)) b then n ||| 2 ^ l else n) 0
        bs := toBytes v 4, keep := toBytes (2 ^ 32 - 1 - m) 4, bnd := b, psn := false, ty := t
        xs := if m = 2 ^ 32 - 1 then [] else ls.map (fun l => (l, x.actRaw t d l)) })

/-- One MX4 block (R263): its scale byte, its 32 elements, and the bounds of its four words. -/
structure MxBlock where
  scale : Nat
  els   : List Nat
  bnds  : List Half
  deriving DecidableEq, Repr

/-- The exponent of a block whose largest magnitude is m. -/
def mxExp (m : Q) : Int := if m.isZero then -127 else max (-127) (min (m.log2 - 2) 127)

/-- A block of 32 values. DEDUCED: the bound of an element is rounded up once, over the exact sum that R263 writes inside
round_up_eb16 (log entry 32). -/
def mxBlock (xs : List (FVal × Half)) : MxBlock :=
  if xs.any (fun v => !v.1.isFin) then ⟨255, xs.map (fun _ => 0), List.replicate 4 0xFF00⟩
  else
    let e := mxExp (xs.foldl (fun m v => m.max v.1.q.abs) Q.zero)
    let rs := xs.map (fun v => (roundQ e2m1F .rne false v.1.neg 0 (v.1.q.shl (-e))).z)
    let bs := (xs.zip rs).map (fun p =>
      if ebUnb p.1.2 then 0xFF00 else ebUp ((p.1.1.q.sub (p.2.q.shl e)).abs.add (ebVal p.1.2)))
    ⟨(e + 127).toNat, rs.map e2m1F.enc, (List.range 4).map (fun w => ((bs.drop (8 * w)).take 8).foldl ebMax 0)⟩

/-- The 32 values of block k; a lane outside E counts as +0. -/
def X.mxVals (x : X) (t : Ty) (d : Opnd) (k : Nat) : List (FVal × Half) :=
  (List.range 32).map (fun j => if lane x.e (32 * k + j) then x.actVal t d (32 * k + j) else (.zero false, 0))

/-- The pieces of the MX4 form (R263). -/
def X.mxPieces (x : X) (t : Ty) (d : Opnd) (l0 a : Nat) : List Piece :=
  let vs := (List.range 2).map (x.mxVals t d)
  let ks := vs.map mxBlock
  let words := ks.zipIdx.flatMap (fun (k, i) => (List.range 4).map (fun w =>
    let els := (k.els.drop (8 * w)).take 8
    let bnd := computed x.bt (k.bnds.getD w 0)
    let val (j : Nat) : Ex := if k.scale = 255 then .nan
      else .of (match e2m1F.dec (els.getD j 0) with | .fin n m e => .fin n m (e + k.scale - 127) | v => v)
    { lane := l0, la := a, addr := a + 16 * i + 4 * w
      br := ((List.range 8).map (fun j => 32 * i + 8 * w + j)).foldl (fun n l =>
        if lane x.e l && breaches x.tm.mode x.tm.budg (val (l % 8)) bnd then n ||| 2 ^ l else n) 0
      bs := toBytes (els.foldr (fun n acc => n + 16 * acc) 0) 4, keep := [], bnd := bnd, psn := false, ty := t, xs := [] : Piece }))
  words ++ [{ lane := l0, la := a, addr := a + 32, br := 0
              bs := ks.map (fun k => BitVec.ofNat 8 k.scale), keep := [], bnd := 0, psn := false, ty := t, xs := [] }]

/-- The one address that a SIGN or MX4 form writes at. -/
def X.unitAddr (x : X) (a : Opnd) (off : BitVec 20) : Nat × Nat :=
  let l0 := (lowest x.e).getD 0
  (l0, x.addr a (.i 0) off l0)

/-- A SIGN or MX4 store of n bytes aligned to m. -/
def X.stUnit (x : X) (s : State) (a : Opnd) (off : BitVec 20) (n m : Nat) (pcs : Nat → Nat → List Piece) : Res :=
  match x.st with
  | some w => x.store s (piecesOf w.cap)
  | none =>
    let (l0, ad) := x.unitAddr a off
    match a with
    | .s _ => x.storeNew s (x.addrErr s n m [ad]) (pcs l0 ad)
    | _ => .trap s .illop 6 0

/-- `stc` (R270). -/
def execStc (h : Hdr) (ty : Ty) (d a b : Opnd) (off : BitVec 20) (s : State) : Host.Outcome State Fault Refusal :=
  instr (.stc h ty d a b off) h (.token .mem) (rd 1 d ++ rd 2 a ++ rd 1 b) (fun x s =>
    match s.asf x.tm.ctx (x.num b) with
    | 1 => x.stUnit s a off 8 8 (x.signPieces ty d)
    | 2 => x.stUnit s a off 34 64 (x.mxPieces ty d)
    | _ => x.st_ s ty .c1 d a (.i 0) off) s

/-! ### pref, cinv, cwb (R271, R272) -/

/-- The global addresses that the lanes of E name: those of the global and stack windows. -/
def X.globals (x : X) (a b : Opnd) (off : BitVec 20) : List Nat :=
  (lanesOf x.e).filterMap (fun l =>
    let ad := x.addr a b off l
    match winOf ad with
    | .glob => some ad
    | .stack o => if o < x.tm.sl then some (x.tm.stackVa l o) else none
    | _ => none)

/-- A prefetch of one address: fills the home L2, the RDC or the hub cache, and L1 on request; never holds or faults (R271). -/
def State.prefetch (s : State) (core ctx : Nat) (l1 : Bool) (va : Nat) : State :=
  let (l, s) := s.look ctx va false
  match l with
  | .ok pa p =>
    if s.poisoned (lineOf pa) (pteKey p) then s
    else
      let s := s.cacheRead (core / 16) ctx (pteCls p) (lineOf pa)
      if l1 && !s.replicaBad (core / 16) (lineOf pa) then (s.l1Line core ctx va pa p).2 else s
  | _ => s

/-- The line of one address is written from L2 or the hub cache to its memory; an address without translation does nothing
(R272). -/
def State.writeBack (s : State) (ctx va : Nat) : State :=
  let (l, s) := s.look ctx va false
  match l with
  | .ok pa _ => s.cacheClean (fun x => x.line = lineOf pa)
  | _ => s

/-- What an operation of the memory unit without destination or data does at its completion. -/
def State.cacheWork (s : State) (core ctx : Nat) (w : Work) : State :=
  match w with
  | .pref l1 vas => vas.foldl (fun s va => s.prefetch core ctx l1 va) s
  | .cinv none => s.modCore core (fun c => { c with l1 := [] })
  | .cinv (some vls) => vls.foldl (fun s v => s.l1Drop core ctx v) s
  | .cwb none => s.cacheClean (fun x => x.ctx = some ctx)
  | .cwb (some vas) => vas.foldl (fun s va => s.writeBack ctx va) s
  | _ => s

/-- Enters such an operation: its work is done at once, or at completion. -/
def X.cacheOp (x : X) (s : State) (w : Work) : Res :=
  if x.late then .token s (x.op s .mem [] w) else .token (s.cacheWork x.tm.core x.tm.ctx w) (x.op s .mem [] (.done []))

/-- `pref.l2` (R271). -/
def execPrefL2 (h : Hdr) (a b : Opnd) (off : BitVec 20) (s : State) : Host.Outcome State Fault Refusal :=
  instr (.prefL2 h a b off) h (.token .mem) (rd 2 a ++ rdIndex b) (fun x s => x.cacheOp s (.pref false (x.globals a b off))) s
/-- `pref.l1` (R271). -/
def execPrefL1 (h : Hdr) (a b : Opnd) (off : BitVec 20) (s : State) : Host.Outcome State Fault Refusal :=
  instr (.prefL1 h a b off) h (.token .mem) (rd 2 a ++ rdIndex b) (fun x s => x.cacheOp s (.pref true (x.globals a b off))) s
/-- `cinv.line` (R272). -/
def execCinvLine (h : Hdr) (a b : Opnd) (off : BitVec 20) (s : State) : Host.Outcome State Fault Refusal :=
  instr (.cinvLine h a b off) h (.token .mem) (rd 2 a ++ rdIndex b)
    (fun x s => x.cacheOp s (.cinv (some ((x.globals a b off).map (· / 128))))) s
/-- `cinv.all` (R272). -/
def execCinvAll (h : Hdr) (s : State) : Host.Outcome State Fault Refusal :=
  instr (.cinvAll h) h (.token .mem) [] (fun x s => x.cacheOp s (.cinv none)) s
/-- `cwb.line` (R272). -/
def execCwbLine (h : Hdr) (a b : Opnd) (off : BitVec 20) (s : State) : Host.Outcome State Fault Refusal :=
  instr (.cwbLine h a b off) h (.token .mem) (rd 2 a ++ rdIndex b) (fun x s => x.cacheOp s (.cwb (some (x.globals a b off)))) s
/-- `cwb.all` (R272). -/
def execCwbAll (h : Hdr) (s : State) : Host.Outcome State Fault Refusal :=
  instr (.cwbAll h) h (.token .mem) [] (fun x s => x.cacheOp s (.cwb none)) s

end Sys2Proof.Machine
end

