-- ==== Sys2Proof/Machine/Atomics.lean ====
section
/-! DEFINITION. `atom` and `red` (R291-R294). -/

namespace Sys2Proof.Machine

/-- The selection that names a rounding mode. -/
def selOf : RMode → RndSel
  | .rne => .rne | .rtz => .rtz | .rdn => .rdn | .rup => .rup | .rna => .rna | .rsr => .rsr

/-- The operand of an atomic in lane l. -/
def X.atSrc (x : X) (t : Ty) (o : Opnd) (l : Nat) : Nat :=
  match t with
  | .f32 | .f64 => (x.rd.flt o t l).x
  | _ => (x.rd.int o t.w64 l).x

/-- What one lane brings: lane, address, operand, compare operand, generator. -/
structure AtLane where
  lane : Nat
  addr : Nat
  b    : Nat
  c    : Nat
  gen  : Word
  deriving DecidableEq, Repr

def AtLane.enc (a : AtLane) : List Nat := [a.lane, a.addr, a.b, a.c, a.gen.toNat]
def atLanesOf : List Nat → List AtLane
  | l :: a :: b :: c :: g :: r => ⟨l, a, b, c, BitVec.ofNat 32 g⟩ :: atLanesOf r
  | _ => []

/-- The parameters of an atomic: `d` is the destination of `atom`. `begun` tells that part of a `red` has been performed,
and `bad` that a lane of that part met a poisoned line. -/
structure AtArg where
  ty    : Ty
  op    : AtOp
  m     : RndSel
  ftz   : Bool
  d     : Option Opnd
  sc    : Nat
  acq   : Bool
  begun : Bool
  bad   : Bool
  deriving DecidableEq, Repr

/-- The stage in which an atomic holds with its lanes, its release done. -/
def AtArg.stage (g : AtArg) : Nat := if g.bad then 4 else if g.begun then 3 else 2

/-- Performs the RMWs of an atomic, in ascending lane order, for a team of a core and context (R292, R294). The Bool
says that a compare failed in every lane. -/
def State.doAtom (s : State) (core ctx : Nat) (ty : Ty) (op : AtOp) (m : RndSel) (ftz : Bool) (d : Option Opnd)
    (rs : List Rmw) : Work × Bool × State :=
  let r := rs.foldl (fun (a : List (Nat × El) × Bool × State) (x : Rmw) =>
    let ((old, b, bad), s) := a.2.2.rmw core ctx ty op (namedMode m) ftz x
    (a.1 ++ [(x.lane, ⟨old, b⟩)], a.2.1 || bad, s)) ([], false, s)
  let failed := op = .cas && (r.1.zip rs).all (fun p => decide (p.1.2.x ≠ p.2.c.toNat % 2 ^ ty.bits))
  (if r.2.1 then .fail 1 else .done (match d with | some d => dstUpds d ty.w64 r.1 | none => []), failed, r.2.2)

def AtLane.rmw (l : AtLane) (cs : List Chunk) : Rmw := ⟨l.lane, cs, BitVec.ofNat 64 l.b, BitVec.ofNat 64 l.c, l.gen⟩

/-- The lanes' generators step once where an atomic rounds at random (R86, R292): as it is performed, so that a trap finds
them as they were (R379). -/
def State.atGens (s : State) (x : X) (g : AtArg) (ls : List AtLane) : State :=
  if g.m = .rsr ∧ g.op = .fadd ∧ !g.begun then s.modTeam x.t (fun tm => tm.setGens (ls.map (fun l => (l.lane, genStep l.gen)))) else s

/-- The operation of an atomic of lanes ls on its places: performed now, or when it completes; an acquire waits for it. -/
def X.atomOp (x : X) (s : State) (g : AtArg) (ls : List AtLane) (rs : List Rmw) : Res :=
  let cs := rs.flatMap (fun r => r.at_)
  match s.scrEcc cs with
  | some e => s.scrTrap e
  | none =>
  let wait : Work := .atom g.ty g.op g.m g.ftz g.d rs
  let early := s.behind x.t (x.opNum s) cs || s.unlinked x.tm wait
  if !s.lineRoom x.tm.core (lineCount cs) || (early && g.bad) then x.hold s g.stage (ls.flatMap AtLane.enc)
  else
    let s := s.atGens x g ls
    let (w, failed, s) : Work × Bool × State :=
      if early || (x.late && !g.bad) then (wait, true, s)
      else s.doAtom x.tm.core x.tm.ctx g.ty g.op g.m g.ftz g.d rs
    let keys := match g.d with | some d => dstKeys d (tyN g.ty) x.e | none => []
    let o := { x.op s .mem keys (if g.bad then .fail 1 else w) with
                 casPid := if failed && g.op = .cas && mProg x.tm.mode then some x.p.pid else none
                 lines := lineCount cs }
    if g.acq then x.holdOn ((s.addOp x o).unclaim x) 1 [x.opNum s] [] none else .token s o

/-- The places of lanes one by one. -/
def State.resolveEach (s : State) (tm : Team) (n : Nat) (cache : List (Nat × Walk)) :
    List AtLane → List (AtLane × Except Bad (List Chunk)) × State
  | [] => ([], s)
  | l :: ls =>
    let (r, cache, s) := s.resolve tm true false cache (tm.runs_ l.lane l.addr n)
    let (rs, s) := s.resolveEach tm n cache ls
    ((l, r) :: rs, s)

/-- `red` on places of which some are not mapped: those enter the side log by line, as far as it has room (R286, R294). -/
def X.redSide (x : X) (s : State) (g : AtArg) (ls : List AtLane) (ok : List Rmw) (miss : List (AtLane × Nat × Look)) (lost : Bool) : Res :=
  let s := if lost then s.sideLoss x.t x.tm.launch else s
  let lines := miss.foldl (fun (t : Tbl (List (AtLane × Nat × Look))) p =>
    tset t (p.2.1 / 128) (tgetD t (p.2.1 / 128) [] ++ [p])) []
  let room := 128 - (s.core x.tm.core).side.length
  let enter (s : State) : State := (lines.take room).foldl (fun s e =>
    match e.2 with
    | [] => s
    | p :: _ => s.sideEnter x.t x.tm p.2.1 p.1.addr p.2.2 []
        (some (g.ty, g.op, g.m, g.ftz, e.2.map (fun q => q.1.rmw [⟨.side q.2.1, g.ty.bytes⟩])))) s
  let later := (lines.drop room).flatMap (fun e => e.2.map Prod.fst)
  let stay := ls.filter (fun l => ok.any (fun r => r.lane = l.lane) || miss.any (fun m => m.1.lane = l.lane))
  let cs := ok.flatMap (fun r => r.at_)
  if later.isEmpty then
    (match s.scrEcc cs with
     | some e => s.scrTrap e
     | none => x.atomOp (enter s) g (stay.filter (fun l => ok.any (fun r => r.lane = l.lane))) ok)
  else
    match s.scrEcc cs with
    | some e => s.scrTrap e
    | none =>
      if s.behind x.t (x.opNum s) cs || s.unlinked x.tm (.atom g.ty g.op g.m g.ftz g.d ok) then
        x.holdOn s g.stage (stay.flatMap AtLane.enc) [] none
      else
        let s := (enter s).atGens x g ls
        let (w, _, s) := s.doAtom x.tm.core x.tm.ctx g.ty g.op g.m g.ftz g.d ok
        let g := { g with begun := true, bad := g.bad || w = Work.fail 1 }
        x.holdOn s g.stage (later.flatMap AtLane.enc) [] none

/-- `red` after its release. A 64-bit `red` on the stack, whose words lie on two lines, holds on a fault as a load does (R294). -/
def X.redGo (x : X) (s : State) (g : AtArg) (ls : List AtLane) : Res :=
  let wide (l : AtLane) : Bool := g.ty.w64 && (match winOf l.addr with | .stack _ => true | _ => false)
  match x.fateTrap s ((ls.filter wide).map (fun l => (l.lane, l.addr, l.addr, g.ty.bytes))) with
  | some r => r
  | none =>
  let (rs, s) := s.resolveEach x.tm g.ty.bytes [] ls
  let cap := ls.flatMap AtLane.enc
  let bad : List (AtLane × Bad) := rs.filterMap (fun r => match r.2 with | .error b => some (r.1, b) | .ok _ => none)
  let ok : List Rmw := rs.filterMap (fun r => match r.2 with | .ok cs => some (r.1.rmw cs) | .error _ => none)
  match bad.find? (fun b => match b.2 with | .look _ (.perm _) => true | _ => false) with
  | some (l, b) => x.badRead s g.stage cap [(l.addr, b)]
  | none =>
    match bad.filter (fun b => wide b.1 && (match b.2 with | .look _ .miss => true | .look _ (.bad _) => true | _ => false)) with
    | b :: bs => x.badRead s g.stage cap ((b :: bs).map (fun b => (b.1.addr, b.2)))
    | [] =>
      let miss := bad.filterMap (fun b => match b.2 with
        | .look va .miss => some (b.1, va, Look.miss) | .look va (.bad p) => some (b.1, va, Look.bad p) | _ => none)
      let lost := bad.any (fun b => match b.2 with | .look _ (.absent _) => true | _ => false)
      x.redSide s g ls ok miss lost

/-- `atom` after its release. -/
def X.atomGo (x : X) (s : State) (g : AtArg) (ls : List AtLane) : Res :=
  let items := ls.map (fun l => (l.lane, l.addr, l.addr, g.ty.bytes))
  match x.fateTrap s items with
  | some r => r
  | none =>
    let (r, s) := s.resolveAll x.tm true false [] items
    match r with
    | .error _ =>
      let (bs, s) := s.badAll x.tm true false [] items
      x.badRead s 2 (ls.flatMap AtLane.enc) bs
    | .ok accs => x.atomOp s g ls ((ls.zip accs).map (fun p => p.1.rmw p.2.chunks))

/-- An atomic (R292): the release of rel and ar first, then the RMWs; with acq or ar it holds until its operation and every
earlier read of the path have completed, and acquires (R281). -/
def X.atomic (x : X) (s : State) (g : AtArg) (rel : Bool) (a b c : Opnd) : Res :=
  let go (g : AtArg) (ls : List AtLane) (s : State) : Res := if g.d.isSome then x.atomGo s g ls else x.redGo s g ls
  let start (ls : List AtLane) (s : State) : Res :=
    if rel then x.releasing s g.sc 0 (ls.flatMap AtLane.enc) (go g ls) else go g ls s
  match x.st with
  | some w =>
    let ls := atLanesOf w.cap
    if w.stage = 1 then
      (if s.ops.any (fun o => o.1 = w.cap.headD 0) then x.hold s 1 w.cap else x.acquiring s g.sc 1 w.cap .resume)
    else if w.stage = 2 then go g ls s
    else if w.stage = 3 then go { g with begun := true } ls s
    else if w.stage = 4 then go { g with begun := true, bad := true } ls s
    else start ls s
  | none =>
    let lanes := match g.d with | some d => x.work d | none => lanesOf x.e
    let ls : List AtLane := lanes.map (fun l =>
      ⟨l, x.rd.wide a l, x.atSrc g.ty b l, x.atSrc g.ty c l, x.tm.gen l⟩)
    match x.addrErr s g.ty.bytes g.ty.bytes (ls.map (fun l => l.addr)) with
    | some (k, sub, v) => .trap s k sub (BitVec.ofNat 64 v)
    | none => start ls (s.unspin x)

/-- The parameters of an atomic issued by x. -/
def X.atArg (x : X) (ty : Ty) (op : AtOp) (r : RndSel) (scope : Scope) (acq : Bool) (d : Option Opnd) : AtArg :=
  ⟨ty, op, selOf (rmode x.tm.mode r), x.ftz, d, Scope.num scope, acq, false, false⟩

/-- `atom` (R291). -/
def execAtom (h : Hdr) (ty : Ty) (op : AtOp) (r : RndSel) (scope : Scope) (ord : Ord) (d a b c : Opnd) (s : State) :
    Host.Outcome State Fault Refusal :=
  answer (s.issue (.atom h ty op r scope ord d a b c) h (.token .mem)
    (wr (tyN ty) d ++ rd 2 a ++ rd (tyN ty) b ++ (if op = .cas then rd (tyN ty) c else [])) false true
    (fun x s => x.atomic s (x.atArg ty op r scope (ord = .acq || ord = .ar) (some d)) (ord = .rel || ord = .ar) a b c))

/-- `red` (R291). -/
def execRed (h : Hdr) (ty : Ty) (op : AtOp) (r : RndSel) (scope : Scope) (rel : Bool) (a b : Opnd) (s : State) :
    Host.Outcome State Fault Refusal :=
  answer (s.issue (.red h ty op r scope rel a b) h (.token .mem) (rd 2 a ++ rd (tyN ty) b) false true
    (fun x s => x.atomic s (x.atArg ty op r scope false none) rel a b (.i 0)))

end Sys2Proof.Machine
end

