-- ==== Sys2Proof/Machine/Crc.lean ====
section
/-! DEFINITION. CRC-32C (R301), and rim sessions as their users see them (R435, R436). -/

namespace Sys2Proof.Machine

/-! ### CRC-32C (R301) -/

/-- One bit of crc_step. -/
def crcBit (c : Word) : Word := (c >>> 1) ^^^ (if c.getLsbD 0 then 0x82F63B78 else 0)

/-- crc_step of R301. -/
def crcStep (c : Word) (x : Byte) : Word := (List.range 8).foldl (fun c _ => crcBit c) (c ^^^ x.setWidth 32)

/-- The register after bytes. -/
def crcRun (c : Word) (bs : List Byte) : Word := bs.foldl crcStep c

/-- CRC-32C of bytes. -/
def crc32c (bs : List Byte) : Word := crcRun 0xFFFFFFFF bs ^^^ 0xFFFFFFFF

/-! ### Sessions (R436) -/

def Session.atReset : Session := { ctl := 0, epoch := 0, ctr := 0, frames := [], rx := 0, early := [], fails := 0, held := [], closed := [], halted := false }
def State.session (s : State) (n : Nat) : Session := tgetD s.sessions n Session.atReset
def State.modSession (s : State) (n : Nat) (f : Session → Session) : State :=
  { s with sessions := tset s.sessions n (f (s.session n)) }
/-- ST of SESCTL: 0 DOWN, 1 SETUP, 2 UP, 3 FAILED. -/
def Session.st (x : Session) : Nat := bitsOf x.ctl.toNat 61 2
def Session.ctx (x : Session) : Nat := bitsOf x.ctl.toNat 55 6
/-- PERM: the peer may read, the peer may write, collectives are allowed. -/
def Session.mayRead (x : Session) : Bool := x.ctl.getLsbD 54
def Session.mayWrite (x : Session) : Bool := x.ctl.getLsbD 53
def Session.mayColl (x : Session) : Bool := x.ctl.getLsbD 52
def Session.ports (x : Session) : Nat := bitsOf x.ctl.toNat 40 12
/-- Give-up time in rt ticks. -/
def Session.giveup (x : Session) : Nat := (if x.ctl.toNat % 2 ^ 18 = 0 then 4096 else x.ctl.toNat % 2 ^ 18) * 1024

/-- Session n carries requests of context c (R437). -/
def State.sessionFor (s : State) (n c : Nat) : Bool := (s.session n).st = 2 && (s.session n).ctx = c

/-- Frames that n bytes of data take: at most eight flits of 128 bytes in each, and one frame at least (R435). -/
def framesFor (n : Nat) : Nat := max 1 (ceilDiv n 1024)

/-- Bytes of data that a message carries. -/
def RimMsg.bytes : RimMsg → Nat
  | .put _ _ bs _ => bs.length
  | .data bs => bs.length
  | .contrib _ m => 4 * m.elems.length
  | .result _ _ es => 4 * es.length
  | .get .. | .swapGet .. | .refuse => 0

/-- Sends a message as the next frames of session n. -/
def State.rimSend (s : State) (n : Nat) (m : RimMsg) : State :=
  s.modSession n (fun x =>
    let k := framesFor m.bytes
    { x with frames := x.frames ++ (List.range k).map (fun j => ⟨x.ctr + j, x.epoch, s.rt, s.rt, false, j, m, []⟩)
             ctr := x.ctr + k })

/-- Frames of the peer with n bytes of data are delivered, the next in counter order (R435). -/
def State.rimTook (s : State) (n len : Nat) : State := s.modSession n (fun x => { x with rx := x.rx + framesFor len })

/-- Session n is haltered, with the sub-code of the refused request, until HRESP answers (R437); with reporting off the
answer comes at once (R390, log entry 7). -/
def State.sessionHalt (s : State) (n sub : Nat) : State :=
  if rqEn s.hqcfg then
    (s.modSession n (fun x => { x with halted := true })).addHalter
      { hid := 0, mst := .session n, hc := 1, sub := sub, ctx := (s.session n).ctx, core := 0, slot := 0
        inh := false, ocs := 0, osub := 0, pc := 0, told := false }
  else s

/-- A request of a peer over session n that is refused: the peer is told, and the session halts (R437). -/
def State.peerRefuse (s : State) (n sub : Nat) : State := (s.rimSend n .refuse).sessionHalt n sub

/-- Takes back the unanswered messages of session n that satisfy q. -/
def State.rimDrop (s : State) (n : Nat) (q : RimMsg → Bool) : State :=
  s.modSession n (fun x => { x with frames := x.frames.filter (fun f => !q f.msg) })

end Sys2Proof.Machine
end

