-- ==== Sys2Proof/Machine/Copies.lean ====
section
/-! DEFINITION. The copy engine (R295-R301, R316-R318): acceptance and completion of commands. -/

namespace Sys2Proof.Machine

/-! ### Checks at issue (R317, R318) -/

/-- The first byte of n bytes at address a that lies outside its window, and the XLAT sub-code. -/
def X.outside (x : X) (s : State) (a n : Nat) : Option (Nat × Nat) :=
  let past (base lim o : Nat) : Option (Nat × Nat) := if lim < o + n then some (max a (base + lim), 1) else none
  if n = 0 then none
  else match winOf a with
    | .none => some (a, 0)
    | .glob => past 0 (2 ^ 56) a
    | .stack o => past 0xFE00000000000000 x.tm.sl o
    | .scratch o => past 0xFF00000000000000 (x.alloc s) o

/-- The lowest failing byte of several ranges. -/
def lowestBad : List (Option (Nat × Nat)) → Option (Nat × Nat)
  | [] => none
  | none :: r => lowestBad r
  | some b :: r => match lowestBad r with
    | none => some b
    | some c => if c.1 < b.1 then some c else some b

/-- A local range of n bytes at generic address a of lane l, as addresses that need no lane: pairs of address and
length. -/
def Team.pieces (tm : Team) (l a n : Nat) : List (Nat × Nat) :=
  match winOf a with
  | .stack o => (List.range (ceilDiv n 4)).map (fun j => (tm.stackVa l (o + 4 * j), min 4 (n - 4 * j)))
  | _ => if n = 0 then [] else [(a, n)]

/-- Segments that pair the pieces of a source and of a destination of n bytes, each a local range or a peer's. -/
def mkSegs : Nat → List (CopyEnd × Nat) → List (CopyEnd × Nat) → List Seg
  | 0, _, _ => []
  | _ + 1, [], _ => []
  | _ + 1, _, [] => []
  | k + 1, (a, n) :: as, (b, m) :: bs =>
    let j := min n m
    let rest (e : CopyEnd) (l : Nat) (r : List (CopyEnd × Nat)) : List (CopyEnd × Nat) :=
      if l = j then r else (match e with | .local_ v => .local_ (v + j) | .peer v => .peer (v + j), l - j) :: r
    ⟨a, b, j⟩ :: mkSegs k (rest a n as) (rest b m bs)

def CopyEnd.addr : CopyEnd → Nat
  | .local_ a => a
  | .peer a => a
def CopyEnd.plus (j : Nat) : CopyEnd → CopyEnd
  | .local_ a => .local_ (a + j)
  | .peer a => .peer (a + j)

/-- The line of an address of a segment, and whether it is the peer's. -/
def CopyEnd.line : CopyEnd → Bool × Nat
  | .local_ a => (false, a / 128)
  | .peer a => (true, a / 128)

/-- Cuts a segment where its source or its destination reaches the next line. -/
def cutSeg : Nat → Seg → List Seg
  | 0, _ => []
  | k + 1, ⟨a, b, n⟩ =>
    if n = 0 then []
    else
      let j := min n (min (128 - a.addr % 128) (128 - b.addr % 128))
      ⟨a, b, j⟩ :: cutSeg k ⟨a.plus j, b.plus j, n - j⟩

/-- One transfer: source, destination and size at generic addresses, for lane l; `sp` and `dp` mark a peer's address. -/
def Team.segs (tm : Team) (l src dst n : Nat) (sp dp : Bool) : List Seg :=
  let e (p : Bool) (a : Nat) : List (CopyEnd × Nat) :=
    if p then (if n = 0 then [] else [(.peer a, n)]) else (tm.pieces l a n).map (fun q => (.local_ q.1, q.2))
  (mkSegs (n + 1) (e sp src) (e dp dst)).flatMap (fun g => cutSeg g.size g)

/-- SES, PEER, ARV, BEN and BID of the option value (R317). -/
def optSes (o : BitVec 20) : Nat := bitsOf o.toNat 7 13
def optPeer (o : BitVec 20) : Bool := o.getLsbD 6
def optBar (o : BitVec 20) : Option (Nat × Bool) :=
  if o.getLsbD 4 then some (o.toNat % 16, o.getLsbD 5) else none

/-! ### Acceptance (R296, R301) -/

/-- The copy context with a command of operation id accepted. -/
def CopyCtx.accept (c : CopyCtx) (id : Nat) (r : CopyReq) : CopyCtx :=
  let chained := match r.kind with | .cont => true | .last _ => true | _ => false
  let fresh := chained && !c.chn
  let ch := if fresh then c.chain + 1 else c.chain
  let cmd : CopyCmd := { num := c.acc + 1, op := id, kind := r.kind, parts := r.segs.map (fun g => ⟨g, none, false⟩)
                         ses := r.ses, bar := r.bar, chain := ch
                         page := none, layer := none, fate := .open, reqAt := none, answer := none, failed := none }
  { c with acc := c.acc + 1, cmds := c.cmds ++ [cmd], chain := ch
           chn := match r.kind with | .cont => true | .last _ => false | _ => c.chn
           chains := if fresh then tset c.chains ch ⟨0xFFFFFFFF, [], none⟩ else c.chains }

/-- Inserts an entry behind those of its quadrant and of lower ones. -/
def byQuad {α : Type} (x : Nat × α) : List (Nat × α) → List (Nat × α)
  | [] => [x]
  | y :: ys => if x.1 < y.1 then x :: y :: ys else y :: byQuad x ys

/-- The commands of a clk take their numbers, in ascending quadrant order (R296). -/
def CopyCtx.acceptAll (c : CopyCtx) : CopyCtx :=
  (c.newq.foldl (fun q x => byQuad x q) []).foldl (fun c x => c.accept x.2.1 x.2.2) { c with newq := [] }

/-- Entries of the context's queue (R296). -/
def CopyCtx.load (c : CopyCtx) : Nat := c.cmds.length + c.newq.length

/-- A copy instruction once its checks are made: accepted if the queue has room, or it holds (R296). -/
def X.copyIn (x : X) (s : State) (r : CopyReq) (cap : List Nat) : Res :=
  match s.group x.tm.group with
  | none => x.hold s 0 cap
  | some g =>
    if 64 ≤ g.copy.load then x.hold s 0 cap
    else
      let s := (s.unspin x).modGroup x.tm.group (fun g =>
        { g with copy := { g.copy with newq := g.copy.newq ++ [(x.tm.quad, x.opNum s, r)] } })
      .token s (x.op s .copy [] .engine)

/-- A peer address is checked only for its width, and for alignment (R318); one past 56 bits is outside the window
(log entry 33). -/
def peerWide (a : Nat) : Option (Nat × Nat) := if 2 ^ 56 ≤ a then some (a, 0) else none

/-- The copies of lanes: (lane, destination, source, size), with their checks at alignment m; `sp` and `dp` mark peer
addresses. -/
def X.copy (x : X) (s : State) (kind : CopyKind) (opt : BitVec 20) (ses : Bool) (m : Nat) (sizeAligned sp dp : Bool)
    (ts : List (Nat × Nat × Nat × Nat)) : Res :=
  let bad := lowestBad (ts.flatMap (fun t =>
    [if dp then peerWide t.2.1 else x.outside s t.2.1 t.2.2.2, if sp then peerWide t.2.2.1 else x.outside s t.2.2.1 t.2.2.2]))
  let mis := ts.findSome? (fun t =>
    if alignOf t.2.1 % m ≠ 0 then some t.2.1
    else if alignOf t.2.2.1 % m ≠ 0 then some t.2.2.1
    else if sizeAligned && t.2.2.2 % m ≠ 0 then some t.2.2.2 else none)
  match bad, mis with
  | some (v, k), _ => .trap s .xlat k (BitVec.ofNat 64 v)
  | none, some v => .trap s .align 0 (BitVec.ofNat 64 v)
  | none, none =>
    x.copyIn s ⟨kind, if ses then some (optSes opt) else none, optBar opt
                , ts.flatMap (fun t => x.tm.segs t.1 t.2.2.1 t.2.1 t.2.2.2 sp dp)⟩
      (ts.flatMap (fun t => [t.1, t.2.1, t.2.2.1, t.2.2.2]))

/-- The captured transfers of a held copy. -/
def transfersOf : List Nat → List (Nat × Nat × Nat × Nat)
  | l :: d :: a :: n :: r => (l, d, a, n) :: transfersOf r
  | _ => []

/-- The transfers of a copy: captured, or from its operands. -/
def X.transfers (x : X) (ts : List (Nat × Nat × Nat × Nat)) : List (Nat × Nat × Nat × Nat) :=
  match x.st with
  | some w => transfersOf w.cap
  | none => ts

def cplBytes : CplZ → Nat
  | .b4 => 4 | .b8 => 8 | .b16 => 16

/-- `cpl` (R318). -/
def execCpl (h : Hdr) (z : CplZ) (d a : Opnd) (opt : BitVec 20) (s : State) : Host.Outcome State Fault Refusal :=
  answer (s.issue (.cpl h z d a opt) h (.token .copy) (rd 2 d ++ rd 2 a) false true (fun x s =>
    x.copy s .cpl opt false (cplBytes z) false false false
      (x.transfers ((lanesOf x.e).map (fun l => (l, x.rd.wide d l, x.rd.wide a l, cplBytes z))))))

/-- The one transfer of a copy that acts once for the team. -/
def X.oneTransfer (x : X) (d a : Opnd) (n : Nat) : List (Nat × Nat × Nat × Nat) :=
  x.transfers [((lowest x.e).getD 0, x.rd.wide d 0, x.rd.wide a 0, n)]

/-- `cpb` (R318). -/
def execCpb (h : Hdr) (d a b : Opnd) (opt : BitVec 20) (s : State) : Host.Outcome State Fault Refusal :=
  answer (s.issue (.cpb h d a b opt) h (.token .copy) (rd 2 d ++ rd 2 a ++ rd 1 b) false true (fun x s =>
    x.copy s .cpb opt false 16 true false false (x.oneTransfer d a (x.num b))))

/-- The chain forms: the size is the first register of B, the expected CRC the second. -/
def X.chainCopy (x : X) (s : State) (last : Bool) (d a b : Opnd) (opt : BitVec 20) : Res :=
  let crc : Word := BitVec.ofNat 32 (match x.st with | some w => w.cap.getD 4 0 | none => x.rd.wide b 0 / 2 ^ 32)
  let r := x.copy s (if last then .last crc else .cont) opt (optPeer opt) 16 true (optPeer opt) false
    (x.oneTransfer d a (x.rd.wide b 0 % 2 ^ 32))
  match r with
  | .hold s w => .hold s { w with cap := w.cap.take 4 ++ [crc.toNat] }
  | r => r

/-- `cpc.cont` (R301, R318). -/
def execCpcCont (h : Hdr) (d a b : Opnd) (opt : BitVec 20) (s : State) : Host.Outcome State Fault Refusal :=
  answer (s.issue (.cpcCont h d a b opt) h (.token .copy) (rd 2 d ++ rd 2 a ++ rd 2 b) false true
    (fun x s => x.chainCopy s false d a b opt))
/-- `cpc.last` (R301, R318). -/
def execCpcLast (h : Hdr) (d a b : Opnd) (opt : BitVec 20) (s : State) : Host.Outcome State Fault Refusal :=
  answer (s.issue (.cpcLast h d a b opt) h (.token .copy) (rd 2 d ++ rd 2 a ++ rd 2 b) false true
    (fun x s => x.chainCopy s true d a b opt))
/-- `cpx.put` (R318). -/
def execCpxPut (h : Hdr) (d a b : Opnd) (opt : BitVec 20) (s : State) : Host.Outcome State Fault Refusal :=
  answer (s.issue (.cpxPut h d a b opt) h (.token .copy) (rd 2 d ++ rd 2 a ++ rd 1 b) false true (fun x s =>
    x.copy s .put opt true 16 true false true (x.oneTransfer d a (x.num b))))
/-- `cpx.get` (R318). -/
def execCpxGet (h : Hdr) (d a b : Opnd) (opt : BitVec 20) (s : State) : Host.Outcome State Fault Refusal :=
  answer (s.issue (.cpxGet h d a b opt) h (.token .copy) (rd 2 d ++ rd 2 a ++ rd 1 b) false true (fun x s =>
    x.copy s .get opt true 16 true true false (x.oneTransfer d a (x.num b))))

/-! ### Accesses of engines (R298-R300) -/

/-- The runs of n bytes at a global or scratchpad address. -/
def engRuns (a n : Nat) : List Run :=
  match winOf a with
  | .scratch o => [.scr o n]
  | _ => cutAt 128 .va n a n

/-- Translates runs for an engine of context c and group g. -/
def State.engResolve (s : State) (c g : Nat) (write : Bool) (cache : List (Nat × Walk)) :
    List Run → Except (Nat × Look) (List Chunk) × List (Nat × Walk) × State
  | [] => (.ok [], cache, s)
  | .scr off n :: rs =>
    match s.engResolve c g write cache rs with
    | (.ok cs, e, s) => (.ok (⟨.scr g off, n⟩ :: cs), e, s)
    | e => e
  | .va va n :: rs =>
    let (l, cache, s) := s.lookRun cache c va write
    match l with
    | .ok pa p =>
      if s.linkDown pa then (.error (va, .link), cache, s) else
      match s.engResolve c g write cache rs with
      | (.ok cs, e, s) => (.ok (⟨.mem va pa p, n⟩ :: cs), e, s)
      | e => e
    | l => (.error (va, l), cache, s)

/-- A byte that an engine has read: value, bound, and whether its line is poisoned. -/
structure EByte where
  x   : Byte
  b   : Half
  bad : Bool
  deriving DecidableEq, Repr

/-- Reads a run at its home (R298, R299). -/
def State.engRead (s : State) (k : Chunk) : List EByte × State :=
  match k.at_ with
  | .scr g off => ((List.range k.len).map (fun j =>
      ⟨s.scrGet g (off + j), 0, (s.scrEcc [⟨.scr g (off + j), 1⟩]).isSome⟩), s)
  | .mem _ pa p =>
    let (bs, s) := s.readBytes pa k.len (pteKey p)
    let r := s.recGet (lineOf pa)
    let bad := s.poisoned (lineOf pa) (pteKey p)
    (bs.zipIdx.map (fun q => ⟨q.1, if pteBnd p then recBound r ((pa + q.2) % 128 / 4) else 0, bad⟩), s)
  | .side _ => ([], s)

/-- Reads the runs of an access of context c, or of an agent without one. -/
def State.engReadAll (s : State) (c : Option Nat) (ks : List Chunk) : List EByte × State :=
  ks.foldl (fun (a : List EByte × State) k =>
    let s := match k.at_ with | .mem _ pa p => a.2.cacheHome c (pteCls p) (lineOf pa) false | _ => a.2
    let (bs, s) := s.engRead k
    (a.1 ++ bs, s)) ([], s)

/-- The bytes of each run. -/
def splitBytes : List Chunk → List EByte → List (Chunk × List EByte)
  | [], _ => []
  | k :: ks, bs => (k, bs.take k.len) :: splitBytes ks (bs.drop k.len)

/-- One line operation of an engine: bytes by offset, the PTE, and whether a byte of a poisoned line reaches it. -/
structure EngLine where
  w   : LineW
  p   : Quad
  bad : Bool
  deriving DecidableEq, Repr

def engLines (ws : List (Chunk × List EByte)) : Tbl EngLine :=
  ws.foldl (fun t e =>
    match e.1.at_ with
    | .mem _ pa p =>
      let o := tgetD t (lineOf pa) ⟨[], p, false⟩
      let w := (e.2.zipIdx).foldl (fun w q => tset w (pa % 128 + q.2) (q.1.x, q.1.b)) o.w
      tset t (lineOf pa) { o with w := w, bad := o.bad || e.2.any (fun b => b.bad) }
    | _ => t) []

/-- Performs an engine's writes for context c (R298-R300); `gives` tells whether its bytes carry bounds. Bytes of a
poisoned line poison their destination lines, and do not enter scratchpad. -/
def State.engWrite (s : State) (c : Nat) (gives : Bool) (ws : List (Chunk × List EByte)) : State :=
  let s := ws.foldl (fun s e =>
    match e.1.at_ with
    | .scr g off => (e.2.zipIdx).foldl (fun s q => if q.1.bad then s else s.scrSet g (off + q.2) [q.1.x]) s
    | _ => s) s
  (engLines ws).foldl (fun s e =>
    let s := s.writeLine (some c) (pteCls e.2.p) (pteKey e.2.p) e.1 e.2.w (pteBnd e.2.p) gives
    if e.2.bad then s.setPoison e.1 true else s) s

/-- Bytes that such writes write. -/
def engCount (ws : List (Chunk × List EByte)) : Nat :=
  ws.foldl (fun n e => n + (match e.1.at_ with
    | .scr _ _ => (e.2.filter (fun b => !b.bad)).length
    | _ => e.2.length)) 0

/-- What a fault or refusal at an engine's access means (R300). -/
inductive EngBad where
  | hold (page layer : Option Nat)
  | fail (cause : Nat)
  deriving DecidableEq, Repr

/-- How an engine's hold that has its fate ends: a declined page with the cause given, a layer that has failed with SWAPF
(R300). The fate stands, whatever has come meanwhile (R335, R351). -/
def Fate.engFail (cause : Nat) : Fate → Option Nat
  | .open => none
  | .declined => some cause
  | .timeout | .failed => some 2

/-- The outcome of a look that is not ok; req is the requester code of R336, core its core. -/
def State.engBad (s : State) (c req core va : Nat) (l : Look) : EngBad × State :=
  match l with
  | .miss | .bad _ =>
    let (held, s) := s.report c va req core l
    (if held then .hold (some (va / 4096)) none else .fail 6, s)
  | .layer n _ =>
    if (s.layerOf c n).map (fun y => y.st) = some .failed then (.fail 2, s)
    else (.hold none (some n), s.request c n true [])
  | .link => (.fail 4, s)
  | _ => (.fail 6, s)

/-! ### Ends of engine operations -/

/-- The team of an operation lies in a spilled bank: its port holds the completion (R395). -/
def State.spilledOp (s : State) (o : Op) : Bool :=
  match tget s.teams o.team with
  | some tm => ((tget s.groups tm.group).map (fun g => g.spilled)).getD false
  | none => false

/-- Operation id of an engine ends: it completes now, or after those that R107 puts before it; that of a spilled team
after the next FILL (R395). -/
def State.engineEnd (s : State) (id : Nat) (err : Option Nat) : State :=
  let w : Work := match err with | none => .done [] | some c => .fail c
  let s := { s with ops := tmod s.ops id (fun o => { o with work := w }) }
  if s.postOrder id && !((tget s.ops id).any s.spilledOp) then s.opFinish id [] err else s

/-- The chain register once the completed bytes that now lead the chain are taken in (R301): those before the first
command of the chain that is still outstanding. -/
def Chain.run (k : Chain) (out : List Nat) : Chain :=
  let ready := k.ahead.filter (fun e => out.all (fun n => e.1 < n))
  { k with c := ready.foldl (fun c e => crcRun c e.2) k.c
           ahead := k.ahead.filter (fun e => !out.all (fun n => e.1 < n)) }

/-- Entries in acceptance order. -/
def insertBytes (n : Nat) (bs : List Byte) : List (Nat × List Byte) → List (Nat × List Byte)
  | [] => [(n, bs)]
  | e :: r => if n < e.1 then (n, bs) :: e :: r else e :: insertBytes n bs r

/-- The commands of a chain that are outstanding, but for n. -/
def CopyCtx.outOf (c : CopyCtx) (ch n : Nat) : List Nat :=
  (c.cmds.filter (fun m => m.chain = ch && m.num ≠ n &&
    (match m.kind with | .cont => true | .last _ => true | _ => false))).map (fun m => m.num)

/-- The source bytes that a command has read. -/
def CopyCmd.src (m : CopyCmd) : List Byte := m.parts.flatMap (fun p => (p.bs.getD []).map Prod.fst)

/-- The chain of a completing `cpc`, and the command's own cause. -/
def CopyCtx.chainEnd (c : CopyCtx) (m : CopyCmd) (err : Option Nat) : CopyCtx × Option Nat :=
  let k := tgetD c.chains m.chain ⟨0xFFFFFFFF, [], none⟩
  let k : Chain := { k with ahead := insertBytes m.num m.src k.ahead, bad := if k.bad.isSome then k.bad else err }
  let k := k.run (c.outOf m.chain m.num)
  match m.kind with
  | .cont => ({ c with chains := tset c.chains m.chain k }, err)
  | .last want =>
    ({ c with chains := tdel c.chains m.chain },
     if k.bad.isSome then k.bad else if k.c ^^^ 0xFFFFFFFF = want then none else some 3)
  | _ => (c, err)

/-- Bytes that command m has written are subtracted from its barrier (R309). -/
def State.copyBytes (s : State) (g : Nat) (m : CopyCmd) (n : Nat) : State :=
  match m.bar with
  | none => s
  | some (b, _) => s.modGroup g (fun x => x.modBar b (fun b => b.bytes s.clk n))

/-- A command completes (R297): its chain, its arrival, its number, its token. -/
def State.copyEnd (s : State) (g : Nat) (m : CopyCmd) (err : Option Nat) : State :=
  match s.group g with
  | none => s
  | some x =>
    let (c, err) := x.copy.chainEnd m err
    let c := { c with cmds := c.cmds.filter (fun y => y.num ≠ m.num), fin := m.num :: c.fin
                      lfop := if err.isSome then m.num else c.lfop, lcause := err.getD c.lcause }
    let s := s.modGroup g (fun x => { x with copy := c })
    let s := match m.bar with
      | some (n, true) => s.modGroup g (fun x => x.modBar n (fun b => b.arrive ⟨s.clk, none, false, err⟩))
      | _ => s
    s.engineEnd m.op err

/-! ### Line operations (R296-R300) -/

/-- Changes command n of group g. -/
def State.modCmd (s : State) (g n : Nat) (f : CopyCmd → CopyCmd) : State :=
  s.modGroup g (fun x => { x with copy := { x.copy with cmds := x.copy.cmds.map (fun m => if m.num = n then f m else m) } })

def CopyCmd.size (m : CopyCmd) : Nat := m.parts.foldl (fun n p => n + p.seg.size) 0

/-- The first address at the peer. -/
def CopyCmd.peerVa (m : CopyCmd) (e : Seg → CopyEnd) : Nat :=
  (m.parts.findSome? (fun p => match e p.seg with | .peer a => some a | .local_ _ => none)).getD 0

/-- A line operation of a command: it reads a line of the source, or writes one of the destination. -/
inductive LineAct where
  | read (line : Nat)
  | write (line : Nat)
  deriving DecidableEq, Repr

/-- Parts that a line operation is about. -/
def LineAct.of : LineAct → CopyPart → Bool
  | .read l, p => p.bs.isNone && p.seg.src.line = (false, l)
  | .write l, p => p.seg.dst.line = (false, l)

/-- The line operations that a command may make: it reads a line of its source once, and writes a line of its destination
once all that it brings there has been read. -/
def CopyCmd.acts (m : CopyCmd) : List LineAct :=
  let lines (ps : List CopyPart) (e : Seg → CopyEnd) : List Nat :=
    (ps.filterMap (fun p => if (e p.seg).line.1 then none else some (e p.seg).line.2)).eraseDups
  (lines (m.parts.filter (fun p => p.bs.isNone)) (fun g => g.src)).map LineAct.read
    ++ ((lines (m.parts.filter (fun p => !p.done)) (fun g => g.dst)).filter (fun l =>
          m.parts.all (fun p => !((LineAct.write l).of p) || p.bs.isSome))).map LineAct.write

/-- Runs of local ends of parts. -/
def partRuns (e : Seg → CopyEnd) (ps : List CopyPart) : List Run :=
  ps.flatMap (fun p => match e p.seg with | .local_ a => engRuns a p.seg.size | .peer _ => [])

/-- The command holds, or fails. -/
def State.copyBad (s : State) (g : Nat) (m : CopyCmd) (va : Nat) (l : Look) (c core : Nat) : State :=
  match s.engBad c 2 core va l with
  | (.hold p y, s) => s.modCmd g m.num (fun m => { m with page := p, layer := y, fate := .open })
  | (.fail e, s) => s.copyEnd g m (some e)

/-- Bytes given to parts in order. -/
def fillParts (f : CopyPart → Bool) : List CopyPart → List EByte → List CopyPart
  | [], _ => []
  | p :: ps, bs =>
    if f p then { p with bs := some ((bs.take p.seg.size).map (fun b => (b.x, b.b, b.bad))) } :: fillParts f ps (bs.drop p.seg.size)
    else p :: fillParts f ps bs

/-- A command that no longer holds. -/
def CopyCmd.freed (m : CopyCmd) : CopyCmd := { m with page := none, layer := none, fate := .open }

/-- Reads a line of the source, at one instant (R298). -/
def State.copyRead (s : State) (g : Nat) (m : CopyCmd) (c core : Nat) (a : LineAct) : State :=
  let (r, _, s) := s.engResolve c g false [] (partRuns (fun x => x.src) (m.parts.filter a.of))
  match r with
  | .error (va, l) => s.copyBad g m va l c core
  | .ok ks =>
    let (bs, s) := s.engReadAll (some c) ks
    (s.modCore core (fun k => { k with slot := some g })).modCmd g m.num (fun m =>
      { m.freed with parts := fillParts a.of m.parts bs })

/-- The bytes of parts that have been read. -/
def partBytes (ps : List CopyPart) : List EByte := ps.flatMap (fun p => (p.bs.getD []).map (fun b => ⟨b.1, b.2.1, b.2.2⟩))

/-- Writes a line of the destination; bytes of a peer carry no bounds (R298, R299). -/
def State.copyWrite (s : State) (g : Nat) (m : CopyCmd) (c core : Nat) (a : LineAct) : State :=
  let ps := m.parts.filter a.of
  let (d, _, s) := s.engResolve c g true [] (partRuns (fun x => x.dst) ps)
  match d with
  | .error (va, l) => s.copyBad g m va l c core
  | .ok ks =>
    let ws := splitBytes ks (partBytes ps)
    let s := (s.engWrite c m.ses.isNone ws).copyBytes g m (engCount ws)
    s.modCmd g m.num (fun m => { m.freed with parts := m.parts.map (fun p => if a.of p then { p with done := true } else p) })

/-- What a command ends with when nothing has stopped it: POISON if a line that it read was poisoned (R300). -/
def CopyCmd.result (m : CopyCmd) : Option Nat := if (partBytes m.parts).any (fun b => b.bad) then some 1 else none

/-- A command that has no line operation to make: it asks the peer, or takes the peer's answer, or completes. -/
def State.copyNext (s : State) (g : Nat) (m : CopyCmd) (c : Nat) : State :=
  let mark (s : State) : State := s.modCmd g m.num (fun m => { m with reqAt := some s.rt })
  match m.ses, m.answer with
  | none, _ => s.copyEnd g m m.result
  | some n, ans =>
    if m.size = 0 then s.copyEnd g m none
    else if m.kind = .put then
      (match ans with
       | some _ => (s.copyBytes g m m.size).copyEnd g m m.result
       | none =>
         if m.reqAt.isSome then s
         else if !s.sessionFor n c then s.copyEnd g m (some 6)
         else
           let va := m.peerVa (fun x => x.dst)
           let bs := partBytes m.parts
           mark (s.rimSend n (.put m.op va (bs.map (fun b => b.x))
             (((bs.zipIdx.filter (fun b => b.1.bad)).map (fun b => (va + b.2) / 128)).eraseDups))))
    else if m.parts.all (fun p => p.bs.isSome) then s.copyEnd g m none
    else match ans with
      | some bs => s.modCmd g m.num (fun m => { m with parts := fillParts (fun _ => true) m.parts (bs.map (fun x => ⟨x, 0, false⟩)) })
      | none =>
        if m.reqAt.isSome then s
        else if !s.sessionFor n c then s.copyEnd g m (some 6)
        else mark (s.rimSend n (.get m.op (m.peerVa (fun x => x.src)) m.size))

/-- The command is issued in an earlier clk, and nothing holds it in the engine. -/
def State.copyFree (s : State) (c : Nat) (m : CopyCmd) : Bool :=
  !(match tget s.ops m.op with | some o => decide (s.clk ≤ o.at_) | none => false)
    && (m.fate ≠ .open || (!(m.page.map (s.faulting c)).getD false
          && !(m.layer.map (fun l => decide ((s.layerOf c l).map (fun y => y.st) = some .arriving))).getD false))

/-- Source lines that a command has read and not yet passed on. -/
def CopyCmd.inFlight (m : CopyCmd) : Nat :=
  if m.reqAt.isSome then 0
  else ((m.parts.filter (fun p => p.bs.isSome && !p.done)).map (fun p => p.seg.src.line)).eraseDups.length

/-- Copy slots in use on a core, of 512 (R296). -/
def State.slotsUsed (s : State) (core : Nat) : Nat :=
  s.groups.foldl (fun n g => if g.2.core = core then n + g.2.copy.cmds.foldl (fun n m => n + m.inFlight) 0 else n) 0

/-- A context has a line operation that waits for a slot. -/
def State.wantsSlot (s : State) (g : Group) : Bool :=
  !g.copy.halted && g.copy.cmds.any (fun m => s.copyFree g.ctx m && m.acts.any (fun a => match a with | .read _ => true | .write _ => false))

/-- Context g is granted the next copy slot of its core: round-robin among those that have work waiting (R296). -/
def State.slotTurn (s : State) (core g : Nat) : Bool :=
  let ws := (s.groups.filter (fun x => x.2.core = core && s.wantsSlot x.2)).map Prod.fst
  let next := match (s.core core).slot with
    | some l => (ws.find? (fun k => decide (l < k))).orElse (fun _ => ws.head?)
    | none => ws.head?
  decide (s.slotsUsed core < 512) && next = some g

/-- One line operation of command m of group g of context c, or its next move when it has none to make. -/
def State.copyStep (s : State) (g : Nat) (m : CopyCmd) (c core line : Nat) : State :=
  match m.failed.orElse (fun _ => m.fate.engFail 6) with
  | some e => s.copyEnd g m (some e)
  | none =>
    match m.acts[line]? with
    | some (.read l) => if s.slotTurn core g then s.copyRead g m c core (.read l) else s
    | some (.write l) => s.copyWrite g m c core (.write l)
    | none => if m.acts.isEmpty then s.copyNext g m c else s

/-- `COPY_COMMAND_COMPLETE` (R297): a command of a group goes on by one of its line operations, or completes. A `.last`
waits for the earlier commands of its chain. -/
def execCopyCommandComplete (group : Nat) (turn : CopyTurn) (s : State) : Host.Outcome State Fault Refusal :=
  answer (match s.group group with
    | none => s
    | some g =>
      match g.copy.cmds.find? (fun m => m.num = turn.n), g.copy.halted with
      | some m, false =>
        let waits := m.acts.isEmpty && (match m.kind with | .last _ => !(g.copy.outOf m.chain m.num).isEmpty | _ => false)
        if !s.copyFree g.ctx m || waits then s else s.copyStep group m g.ctx g.core turn.line
      | _, _ => s)

end Sys2Proof.Machine
end

