-- ==== Sys2Proof/Machine/Integer.lean ====
section
/-! DEFINITION. Integer, bit, comparison, selection, move and address instructions (R151-R168). -/

namespace Sys2Proof.Machine

/-- The integer operands a and b of type t in lane l. -/
def X.i (x : X) (t : Ty) (o : Opnd) (l : Nat) : El := x.rd.int o t.w64 l
/-- A count, position or length: a 32-bit source (R145). -/
def X.n32 (x : X) (o : Opnd) (l : Nat) : El := x.rd.int o false l

/-- A two-source integer or bit instruction. -/
def int2 (i : Instr) (h : Hdr) (t : Ty) (d a b : Opnd) (f : Bool → El → El → El) (s : State) :
    Host.Outcome State Fault Refusal :=
  instr i h (.fixed 4) (wr (tyN t) d ++ rd (tyN t) a ++ rd (tyN t) b)
    (vecOp d t.w64 (fun x l => f x.bt (x.i t a l) (x.i t b l))) s

/-- A one-source integer or bit instruction. -/
def int1 (i : Instr) (h : Hdr) (t : Ty) (d a : Opnd) (f : Bool → El → El) (s : State) :
    Host.Outcome State Fault Refusal :=
  instr i h (.fixed 4) (wr (tyN t) d ++ rd (tyN t) a) (vecOp d t.w64 (fun x l => f x.bt (x.i t a l))) s

/-- A three-source integer or bit instruction; `cn` registers in the fourth operand. -/
def int3 (i : Instr) (h : Hdr) (t : Ty) (d a b c : Opnd) (bw cw : Bool) (f : Bool → El → El → El → El) (s : State) :
    Host.Outcome State Fault Refusal :=
  let n (w : Bool) : Nat := if w then 2 else 1
  instr i h (.fixed 4) (wr (tyN t) d ++ rd (tyN t) a ++ rd (n bw) b ++ rd (n cw) c)
    (vecOp d t.w64 (fun x l => f x.bt (x.i t a l) (x.rd.int b bw l) (x.rd.int c cw l))) s

/-! ### Arithmetic (R151-R156) -/

def addEl (t : Ty) (sat : Bool) (bt : Bool) (a b : El) : El :=
  intResult bt t sat (tyInt t a.x + tyInt t b.x) (ebAdd a.b b.b)
def subEl (t : Ty) (sat : Bool) (bt : Bool) (a b : El) : El :=
  intResult bt t sat (tyInt t a.x - tyInt t b.x) (ebAdd a.b b.b)

/-- `add` (R151). -/
def execAdd (h : Hdr) (ty : Ty) (sat : Bool) (d a b : Opnd) (s : State) : Host.Outcome State Fault Refusal :=
  int2 (.add h ty sat d a b) h ty d a b (addEl ty sat) s
/-- `sub` (R151). -/
def execSub (h : Hdr) (ty : Ty) (sat : Bool) (d a b : Opnd) (s : State) : Host.Outcome State Fault Refusal :=
  int2 (.sub h ty sat d a b) h ty d a b (subEl ty sat) s

/-- The product terms of integer operands (R152). -/
def intProd (t : Ty) (a b : El) : Half := prodTerms (Q.ofInt (tyInt t a.x)) a.b (Q.ofInt (tyInt t b.x)) b.b

/-- floor(A · B / 2^w). -/
def mulHigh (t : Ty) (a b : El) : Int := (tyInt t a.x * tyInt t b.x) / (2 ^ t.bits : Int)
/-- The bound of `mulh`. -/
def mulHighBound (t : Ty) (a b : El) : Half :=
  let p := intProd t a b
  if p = 0 then 0 else ebAdd (ebMul p (ebUp (Q.pow2 (-(t.bits : Int))))) 0x7F00

def mulEl (t : Ty) (bt : Bool) (a b : El) : El := intResult bt t false (tyInt t a.x * tyInt t b.x) (intProd t a b)
def mulhEl (t : Ty) (bt : Bool) (a b : El) : El := ⟨trunc (mulHigh t a b) t.bits, computed bt (mulHighBound t a b)⟩

/-- `mul` (R152). -/
def execMul (h : Hdr) (ty : Ty) (d a b : Opnd) (s : State) : Host.Outcome State Fault Refusal :=
  int2 (.mul h ty d a b) h ty d a b (mulEl ty) s
/-- `mulh` (R152). -/
def execMulh (h : Hdr) (ty : Ty) (d a b : Opnd) (s : State) : Host.Outcome State Fault Refusal :=
  int2 (.mulh h ty d a b) h ty d a b (mulhEl ty) s

def madEl (t : Ty) (sat : Bool) (bt : Bool) (a b c : El) : El :=
  intResult bt t sat (tyInt t a.x * tyInt t b.x + tyInt t c.x) (ebAdd (intProd t a b) c.b)
def madhEl (t : Ty) (bt : Bool) (a b c : El) : El :=
  intResult bt t false (mulHigh t a b + tyInt t c.x) (ebAdd (mulHighBound t a b) c.b)

/-- `mad` (R153). -/
def execMad (h : Hdr) (ty : Ty) (sat : Bool) (d a b c : Opnd) (s : State) : Host.Outcome State Fault Refusal :=
  int3 (.mad h ty sat d a b c) h ty d a b c ty.w64 ty.w64 (madEl ty sat) s
/-- `madh` (R153). -/
def execMadh (h : Hdr) (ty : Ty) (d a b c : Opnd) (s : State) : Host.Outcome State Fault Refusal :=
  int3 (.madh h ty d a b c) h ty d a b c ty.w64 ty.w64 (madhEl ty) s

/-- Quotient and remainder of R154: (q, m). -/
def divide (t : Ty) (a b : El) : Int × Int :=
  let x := tyInt t a.x
  let y := tyInt t b.x
  if y = 0 then (-1, x)
  else if t.signed ∧ x = tyMin t ∧ y = -1 then (x, 0)
  else (Int.tdiv x y, x - Int.tdiv x y * y)

/-- The bound of `div`, or of `rem` (R154). -/
def divideBound (t : Ty) (remainder : Bool) (a b : El) : Half :=
  let x := tyInt t a.x
  let y := tyInt t b.x
  let qy := (Q.ofInt y).abs
  let special := y = 0 || (t.signed && x = tyMin t && y = -1)
  if special || ebUnb a.b || ebUnb b.b || qy.le (ebVal b.b) then 0xFF00
  else if a.b = 0 ∧ b.b = 0 then 0
  else if remainder then ebUp (((Q.ofInt (divide t a b).2).abs.add qy).add (ebVal b.b))
  else
    let num := ((Q.ofInt x).abs.mul (ebVal b.b)).add (qy.mul (ebVal a.b))
    ebAdd (ebUp (num.div (qy.mul (qy.sub (ebVal b.b))))) 0x7F00

def divEl (t : Ty) (bt : Bool) (a b : El) : El := ⟨trunc (divide t a b).1 t.bits, computed bt (divideBound t false a b)⟩
def remEl (t : Ty) (bt : Bool) (a b : El) : El := ⟨trunc (divide t a b).2 t.bits, computed bt (divideBound t true a b)⟩

/-- A token-class integer instruction of two sources. -/
def idiv2 (i : Instr) (h : Hdr) (t : Ty) (d a b : Opnd) (f : Bool → El → El → El) (s : State) :
    Host.Outcome State Fault Refusal :=
  instr i h (.token .idiv) (wr (tyN t) d ++ rd (tyN t) a ++ rd (tyN t) b)
    (tokOp .idiv d t.w64 (fun x l => f x.bt (x.i t a l) (x.i t b l))) s

/-- `div` (R154). -/
def execDiv (h : Hdr) (ty : Ty) (d a b : Opnd) (s : State) : Host.Outcome State Fault Refusal :=
  idiv2 (.div h ty d a b) h ty d a b (divEl ty) s
/-- `rem` (R154). -/
def execRem (h : Hdr) (ty : Ty) (d a b : Opnd) (s : State) : Host.Outcome State Fault Refusal :=
  idiv2 (.rem h ty d a b) h ty d a b (remEl ty) s

def minEl (t : Ty) (bt : Bool) (a b : El) : El :=
  ⟨if tyInt t b.x < tyInt t a.x then b.x else a.x, computed bt (ebMax a.b b.b)⟩
def maxEl (t : Ty) (bt : Bool) (a b : El) : El :=
  ⟨if tyInt t a.x < tyInt t b.x then b.x else a.x, computed bt (ebMax a.b b.b)⟩

/-- `min` (R155). -/
def execMin (h : Hdr) (ty : Ty) (d a b : Opnd) (s : State) : Host.Outcome State Fault Refusal :=
  int2 (.min h ty d a b) h ty d a b (minEl ty) s
/-- `max` (R155). -/
def execMax (h : Hdr) (ty : Ty) (d a b : Opnd) (s : State) : Host.Outcome State Fault Refusal :=
  int2 (.max h ty d a b) h ty d a b (maxEl ty) s

/-- `abs` (R156). -/
def execAbs (h : Hdr) (ty : Ty) (sat : Bool) (d a : Opnd) (s : State) : Host.Outcome State Fault Refusal :=
  int1 (.abs h ty sat d a) h ty d a (fun bt a => intResult bt ty sat (tyInt ty a.x).natAbs a.b) s
/-- `neg` (R156). -/
def execNeg (h : Hdr) (ty : Ty) (sat : Bool) (d a : Opnd) (s : State) : Host.Outcome State Fault Refusal :=
  int1 (.neg h ty sat d a) h ty d a (fun bt a => intResult bt ty sat (-(tyInt ty a.x)) a.b) s

/-! ### Bits and fields (R157-R163) -/

/-- A bit result with the bound of R157. -/
def bitEl (bt : Bool) (x : Nat) (bs : List Half) : El := ⟨x, computed bt (bitBound bs)⟩

/-- `and` (R158). -/
def execAnd (h : Hdr) (ty : Ty) (d a b : Opnd) (s : State) : Host.Outcome State Fault Refusal :=
  int2 (.and h ty d a b) h ty d a b (fun bt a b => bitEl bt (a.x &&& b.x) [a.b, b.b]) s
/-- `or` (R158). -/
def execOr (h : Hdr) (ty : Ty) (d a b : Opnd) (s : State) : Host.Outcome State Fault Refusal :=
  int2 (.or h ty d a b) h ty d a b (fun bt a b => bitEl bt (a.x ||| b.x) [a.b, b.b]) s
/-- `xor` (R158). -/
def execXor (h : Hdr) (ty : Ty) (d a b : Opnd) (s : State) : Host.Outcome State Fault Refusal :=
  int2 (.xor h ty d a b) h ty d a b (fun bt a b => bitEl bt (a.x ^^^ b.x) [a.b, b.b]) s
/-- `not` (R158). -/
def execNot (h : Hdr) (ty : Ty) (d a : Opnd) (s : State) : Host.Outcome State Fault Refusal :=
  int1 (.not h ty d a) h ty d a (fun bt a => bitEl bt (2 ^ ty.bits - 1 - a.x) [a.b]) s
/-- `andn` (R158). -/
def execAndn (h : Hdr) (ty : Ty) (d a b : Opnd) (s : State) : Host.Outcome State Fault Refusal :=
  int2 (.andn h ty d a b) h ty d a b (fun bt a b => bitEl bt (a.x &&& (2 ^ ty.bits - 1 - b.x)) [a.b, b.b]) s

/-- A shift by a 32-bit count (R159). -/
def shift2 (i : Instr) (h : Hdr) (t : Ty) (d a b : Opnd) (f : Nat → Nat → Nat → Nat) (s : State) :
    Host.Outcome State Fault Refusal :=
  instr i h (.fixed 4) (wr (tyN t) d ++ rd (tyN t) a ++ rd 1 b)
    (vecOp d t.w64 (fun x l =>
      let u := x.i t a l
      let c := x.n32 b l
      bitEl x.bt (f t.bits u.x c.x) [u.b, c.b])) s

def shlBits (w x c : Nat) : Nat := if c < w then x * 2 ^ c % 2 ^ w else 0
def shrBits (w x c : Nat) : Nat := if c < w then x / 2 ^ c else 0
def sarBits (w x c : Nat) : Nat := trunc (sext x w / (2 ^ (min c w) : Int)) w
def rolBits (w x c : Nat) : Nat := (x * 2 ^ (c % w) % 2 ^ w) + x / 2 ^ (w - c % w)

/-- `shl` (R159). -/
def execShl (h : Hdr) (ty : Ty) (d a b : Opnd) (s : State) : Host.Outcome State Fault Refusal :=
  shift2 (.shl h ty d a b) h ty d a b shlBits s
/-- `shr` (R159). -/
def execShr (h : Hdr) (ty : Ty) (d a b : Opnd) (s : State) : Host.Outcome State Fault Refusal :=
  shift2 (.shr h ty d a b) h ty d a b shrBits s
/-- `sar` (R159). -/
def execSar (h : Hdr) (ty : Ty) (d a b : Opnd) (s : State) : Host.Outcome State Fault Refusal :=
  shift2 (.sar h ty d a b) h ty d a b sarBits s
/-- `rol` (R159). -/
def execRol (h : Hdr) (ty : Ty) (d a b : Opnd) (s : State) : Host.Outcome State Fault Refusal :=
  shift2 (.rol h ty d a b) h ty d a b rolBits s

/-- cat(A, B) shifted left, and right (R160). -/
def fshLBits (w a b c : Nat) : Nat := (a * 2 ^ w + b) * 2 ^ (c % w) % 2 ^ (2 * w) / 2 ^ w
def fshRBits (w a b c : Nat) : Nat := (a * 2 ^ w + b) / 2 ^ (c % w) % 2 ^ w

/-- `fsh.l` (R160). -/
def execFshL (h : Hdr) (ty : Ty) (d a b c : Opnd) (s : State) : Host.Outcome State Fault Refusal :=
  int3 (.fshL h ty d a b c) h ty d a b c ty.w64 false
    (fun bt a b c => bitEl bt (fshLBits ty.bits a.x b.x c.x) [a.b, b.b, c.b]) s
/-- `fsh.r` (R160). -/
def execFshR (h : Hdr) (ty : Ty) (d a b c : Opnd) (s : State) : Host.Outcome State Fault Refusal :=
  int3 (.fshR h ty d a b c) h ty d a b c ty.w64 false
    (fun bt a b c => bitEl bt (fshRBits ty.bits a.x b.x c.x) [a.b, b.b, c.b]) s

def popBits (w x : Nat) : Nat := (List.range w).foldl (fun n i => n + (x.testBit i).toNat) 0
def clzBits (w x : Nat) : Nat := if x = 0 then w else w - 1 - Nat.log2 x
/-- The number of zero bits below the lowest set bit, within n bits from bit i up. -/
def ctzFrom (x : Nat) : Nat → Nat → Nat
  | 0, i => i
  | n + 1, i => if x.testBit i then i else ctzFrom x n (i + 1)
def ctzBits (w x : Nat) : Nat := ctzFrom x w 0
def brevBits (w x : Nat) : Nat := (List.range w).foldl (fun a i => if x.testBit i then a + 2 ^ (w - 1 - i) else a) 0

/-- `popc` (R161). -/
def execPopc (h : Hdr) (ty : Ty) (d a : Opnd) (s : State) : Host.Outcome State Fault Refusal :=
  int1 (.popc h ty d a) h ty d a (fun bt a => bitEl bt (popBits ty.bits a.x) [a.b]) s
/-- `clz` (R161). -/
def execClz (h : Hdr) (ty : Ty) (d a : Opnd) (s : State) : Host.Outcome State Fault Refusal :=
  int1 (.clz h ty d a) h ty d a (fun bt a => bitEl bt (clzBits ty.bits a.x) [a.b]) s
/-- `ctz` (R161). -/
def execCtz (h : Hdr) (ty : Ty) (d a : Opnd) (s : State) : Host.Outcome State Fault Refusal :=
  int1 (.ctz h ty d a) h ty d a (fun bt a => bitEl bt (ctzBits ty.bits a.x) [a.b]) s
/-- `brev` (R161). -/
def execBrev (h : Hdr) (ty : Ty) (d a : Opnd) (s : State) : Host.Outcome State Fault Refusal :=
  int1 (.brev h ty d a) h ty d a (fun bt a => bitEl bt (brevBits ty.bits a.x) [a.b]) s

/-- n bits of A from position p, extended as `bfx` extends them (R162). -/
def bfxBits (t : Ty) (a p n : Nat) : Nat :=
  let w := t.bits
  let n := min n w
  let wide : Int := if t.signed then sext a w else a
  if n = 0 then 0
  else
    let f := trunc (wide / (2 ^ p : Int)) n
    if t.signed then trunc (sext f n) w else f

/-- A with the field of R163 replaced. -/
def bfiBits (w a b p n : Nat) : Nat :=
  let n := min (min n w) (w - p)
  if w ≤ p then a else setBits a p n b % 2 ^ w

/-- `bfx` (R162). -/
def execBfx (h : Hdr) (ty : Ty) (d a b c : Opnd) (s : State) : Host.Outcome State Fault Refusal :=
  int3 (.bfx h ty d a b c) h ty d a b c false false
    (fun bt a b c => bitEl bt (bfxBits ty a.x (b.x % 256) (c.x % 256)) [a.b, b.b, c.b]) s
/-- `bfi` (R163). -/
def execBfi (h : Hdr) (ty : Ty) (d a b c : Opnd) (s : State) : Host.Outcome State Fault Refusal :=
  int3 (.bfi h ty d a b c) h ty d a b c ty.w64 false
    (fun bt a b c => bitEl bt (bfiBits ty.bits a.x b.x (c.x % 256) (bitsOf c.x 8 8)) [a.b, b.b, c.b]) s

/-! ### Comparison, selection, moves, addresses (R164-R168) -/

/-- `setp` (R98, R164). -/
def execSetp (h : Hdr) (ty : Ty) (c : Cmp) (d : BitVec 3) (a b : Opnd) (s : State) : Host.Outcome State Fault Refusal :=
  instr (.setp h ty c d a b) h (.fixed 4) (wrPred d ++ rd (tyN ty) a ++ rd (tyN ty) b)
    (predOp d (fun x l =>
      let u := x.i ty a l
      let v := x.i ty b l
      let p := Q.ofInt (tyInt ty u.x)
      let q := Q.ofInt (tyInt ty v.x)
      (cmpHolds c p q, x.bt && doubtful c p u.b q v.b))) s

/-- The lane of `sel` (R165). -/
def selEl (bt t d : Bool) (a b : El) : El :=
  let y := if t then a else b
  if !d then y
  else if a.x = b.x then ⟨y.x, computed bt (ebMax a.b b.b)⟩
  else ⟨y.x, 0xFF00⟩

/-- `sel` (R165). -/
def execSel (h : Hdr) (ty : Ty) (d a b : Opnd) (p : BitVec 3) (s : State) : Host.Outcome State Fault Refusal :=
  instr (.sel h ty d a b p) h (.fixed 4) (wr (tyN ty) d ++ rd (tyN ty) a ++ rd (tyN ty) b ++ rdPred p)
    (vecOp d ty.w64 (fun x l =>
      let q := x.rd.pred p.toNat
      selEl x.bt (lane q.t l) (lane q.d l) (x.i ty a l) (x.i ty b l))) s

/-- `mov` (R166). -/
def execMov (h : Hdr) (ty : Ty) (d a : Opnd) (s : State) : Host.Outcome State Fault Refusal :=
  instr (.mov h ty d a) h (.fixed 2) (wr (tyN ty) d ++ rd (tyN ty) a) (vecOp d ty.w64 (fun x l => x.i ty a l)) s

/-- `movi` (R167). -/
def execMovi (h : Hdr) (ty : Ty) (d : Opnd) (imm : BitVec 20) (s : State) : Host.Outcome State Fault Refusal :=
  instr (.movi h ty d imm) h (.fixed 2) (wr (tyN ty) d) (vecOp d ty.w64 (fun _ _ => ⟨trunc imm.toInt ty.bits, 0⟩)) s

/-- `movh` (R167): it reads D. -/
def execMovh (h : Hdr) (d : Opnd) (imm : BitVec 16) (s : State) : Host.Outcome State Fault Refusal :=
  instr (.movh h d imm) h (.fixed 2) (wr 1 d ++ rd 1 d)
    (vecOp d false (fun x l =>
      let o := x.rd.el d false l
      bitEl x.bt (imm.toNat * 2 ^ 16 + o.x % 2 ^ 16) [o.b])) s

/-- `lea` (R168). -/
def execLea (h : Hdr) (sh : BitVec 2) (d a b : Opnd) (s : State) : Host.Outcome State Fault Refusal :=
  instr (.lea h sh d a b) h (.fixed 4) (wr 2 d ++ rd 2 a ++ rd 1 b)
    (vecOp d true (fun x l =>
      let u := x.rd.int a true l
      let v := x.n32 b l
      let k := 2 ^ sh.toNat
      intResult x.bt .n64 false ((u.x : Int) + sext v.x 32 * k) (ebAdd u.b (ebMul v.b (ebUp (Q.ofInt k)))))) s

end Sys2Proof.Machine
end

