-- ==== Sys2Proof/Machine/Sfu.lean ====
section
/-! DEFINITION. The special functions (R178): enclosures of the exact real functions at growing precision, from which
the correctly rounded value and the propagated bound term are read off. -/

namespace Sys2Proof.Machine

/-- An enclosure lo ≤ x ≤ hi. -/
abbrev Encl := Q × Q

/-- A real by its enclosures: at precision p the enclosure has a width of about 2^-p; lo = hi where x is known
exactly. -/
abbrev RealA := Nat → Encl

/-- The precisions that are tried. -/
def precs : List Nat := [128, 256, 512, 1024, 2048, 4096]

/-- The largest r with r^2 ≤ n, found bit by bit from bit b down. -/
def isqrtFrom (n : Nat) : Nat → Nat → Nat
  | 0, r => r
  | b + 1, r => isqrtFrom n b (if (r + 2 ^ b) * (r + 2 ^ b) ≤ n then r + 2 ^ b else r)

def isqrt (n : Nat) : Nat := isqrtFrom n (Nat.log2 n / 2 + 1) 0

/-- atanh(num/den) * 2^p from below, for num/den ≤ 1/3, over the terms i, i+1, …. -/
def atanhSum (num den : Nat) : Nat → Nat → Nat → Nat
  | 0, _, _ => 0
  | k + 1, i, t => t / (2 * i + 1) + atanhSum num den k (i + 1) (t * num * num / (den * den))

/-- Bounds of atanh(num/den) * 2^p. -/
def atanhI (num den p : Nat) : Nat × Nat :=
  let n := p / 3 + 4
  let s := atanhSum num den n 0 (2 ^ p * num / den)
  (s, s + 3 * n + 4)

/-- Bounds of atan(1/k) * 2^p: alternating terms. -/
def atanSum (k : Nat) : Nat → Nat → Nat → Int
  | 0, _, _ => 0
  | j + 1, i, t => (if i % 2 = 0 then 1 else -1) * ((t / (2 * i + 1) : Nat) : Int) + atanSum k j (i + 1) (t / (k * k))

def atanI (k p : Nat) : Int × Int :=
  let n := p / 4 + 4
  let s := atanSum k n 0 (2 ^ p / k)
  (s - 3 * n - 4, s + 3 * n + 4)

/-- Bounds of pi * 2^p. -/
def piI (p : Nat) : Int × Int :=
  let a := atanI 5 p
  let b := atanI 239 p
  (16 * a.1 - 4 * b.2, 16 * a.2 - 4 * b.1)

/-- Bounds of ln 2 * 2^p. -/
def ln2I (p : Nat) : Nat × Nat :=
  let a := atanhI 1 3 p
  (2 * a.1, 2 * a.2)

/-- The sum of the terms of exp from term i on, from below. -/
def expSum (y p : Nat) : Nat → Nat → Nat → Nat
  | 0, _, _ => 0
  | k + 1, i, t => t + expSum y p k (i + 1) (t * y / (2 ^ p * (i + 1)))

/-- Bounds of exp(y) * 2^p for y between lo and hi over 2^p, both at most 1. -/
def expI (lo hi p : Nat) : Nat × Nat :=
  let n := p / 3 + 40
  (expSum lo p n 0 (2 ^ p), expSum hi p n 0 (2 ^ p) + 2 * n + 4)

/-- Alternating sum of the terms t, t * y^2 / ((i+1)(i+2)), … of sine or cosine. -/
def trigSum (y2 p : Nat) : Nat → Nat → Nat → Int
  | 0, _, _ => 0
  | k + 1, i, t => (t : Int) - trigSum y2 p k (i + 2) (t * y2 / (2 ^ p * (i + 1) * (i + 2)))

/-- |x| at precision p as a whole number of 2^-p, from below and above. -/
def Q.fix (x : Q) (p : Nat) : Nat × Nat :=
  let (q, r) := x.scale p
  (q, if r then q + 1 else q)

/-- 2^x for a number x that is not too large. -/
def exp2A (x : Q) : RealA := fun p =>
  let n := x.floor
  let fr := x.sub (Q.ofInt n)
  if fr.isZero then (Q.pow2 n, Q.pow2 n)
  else
    let (lo, hi) := fr.fix p
    let l := ln2I p
    let e := expI (lo * l.1 / 2 ^ p) (hi * l.2 / 2 ^ p + 1) p
    (Q.dy e.1 (n - p), Q.dy e.2 (n - p))

/-- log2(x), x > 0. -/
def log2A (x : Q) : RealA := fun p =>
  let e := x.log2
  let m := x.shl (-e)
  let d := m.sub (Q.ofInt 1)
  if d.isZero then (Q.ofInt e, Q.ofInt e)
  else
    -- m in (1, 2): ln m = 2 atanh((m - 1) / (m + 1))
    let r := d.div (m.add (Q.ofInt 1))
    let num := r.n.natAbs * p2 r.e
    let den := r.d * p2 (-r.e)
    let a := atanhI num den p
    let l := ln2I p
    let lo := 2 * a.1 * 2 ^ p / l.2
    let hi := 2 * a.2 * 2 ^ p / l.1 + 1
    ((Q.ofInt e).add (Q.dy lo (-p)), (Q.ofInt e).add (Q.dy hi (-p)))

/-- sqrt(x), x ≥ 0. -/
def sqrtA (x : Q) : RealA := fun p =>
  let (n, more) := x.scale (2 * p : Nat)
  let r := isqrt n
  if r * r = n && !more then (Q.dy r (-p), Q.dy r (-p)) else (Q.dy r (-p), Q.dy (r + 1 : Nat) (-p))

/-- 1 / sqrt(x), x > 0. -/
def rsqrtA (x : Q) : RealA := sqrtA ((Q.ofInt 1).div x)

/-- |sin x| or |cos x| with its sign, for x > 0; `c` asks for cosine. The sign is that of the lower end. -/
def trigA (c : Bool) (x : Q) : Nat → Bool × Encl := fun p =>
  let w := p + (max 0 (x.log2 + 8)).toNat + 160
  let pi := piI w
  let x2 : Int := 2 * (x.scale w).1
  let n := (2 * x2 / pi.1 + 1) / 2
  -- r * 2^(w+1)
  let lo := x2 - n * pi.2
  let hi := x2 - n * pi.1 + 2
  let m := w + 1
  let negR := lo < 0
  let a := if negR then (-hi).toNat else lo.toNat
  let wid := (hi - lo).toNat + (if negR && hi > 0 then hi.toNat else 0)
  let k := (n % 4).toNat
  let useCos := (k % 2 = 1) != c
  let y2 := a * a / 2 ^ m
  let t := m / 3 + 40
  let s := if useCos then trigSum y2 m t 0 (2 ^ m) else trigSum y2 m t 1 a
  let er : Int := 4 * t + 8 + 2 * wid
  let neg0 := if c then k = 1 || k = 2 else k = 2 || k = 3
  let neg := neg0 != (!useCos && negR)
  -- cosine from an odd quadrant is the sine of r, with the sign of r turned
  (neg, (Q.dy (max 0 (s - er)) (-m), Q.dy (s + er) (-m)))

/-- tanh(x) for x > 0. -/
def tanhA (x : Q) : RealA := fun p =>
  if (Q.ofInt 64).lt x then ((Q.ofInt 1).sub (Q.pow2 (-180)), (Q.ofInt 1).sub (Q.pow2 (-400)))
  else
    -- e^(2x) = 2^(2x / ln 2)
    let l := ln2I p
    let y := x.shl 1
    let ylo := y.div (Q.dy l.2 (-p))
    let yhi := y.div (Q.dy l.1 (-p))
    let elo := (exp2A (Q.dy (ylo.scale p).1 (-p)) p).1
    let ehi := (exp2A (Q.dy ((yhi.scale p).1 + 1 : Nat) (-p)) p).2
    let one := Q.ofInt 1
    let f (v : Q) : Q := (v.sub one).div (v.add one)
    let cut (v : Q) (up : Nat) : Q := Q.dy ((v.scale (p : Nat)).1 + up : Nat) (-p)
    (cut (f elo) 0, cut (f ehi) 1)

/-- The scaled form of a positive real at 2^k, k = max(binade, emin) - f, from its first enclosure that decides it. -/
def decideScaled (F : Fmt) (a : RealA) : List Nat → Int × Scaled
  | [] => (F.emin - F.f, ⟨0, 1, true⟩)
  | p :: ps =>
    let (lo, hi) := a p
    if lo.eq hi then
      let k := max lo.log2 F.emin - F.f
      (k, lo.scaled k)
    else if lo.n ≤ 0 then decideScaled F a ps
    else
      let k := max lo.log2 F.emin - F.f
      let sl := lo.scaled k
      let sh := hi.scaled k
      if max hi.log2 F.emin - F.f = k && sl.q = sh.q && sl.f = sh.f then (k, { sl with more := true })
      else decideScaled F a ps

/-- A positive real that is not above the largest finite value, rounded in mode m with sign neg. -/
def roundA (F : Fmt) (m : RMode) (ftz neg : Bool) (g : Word) (a : RealA) : Rnd :=
  let g' := genAfter m g
  let (k, s) := decideScaled F a precs
  let (z, rho) := roundScaled F m ftz neg g' k s
  ⟨z, rho, g'⟩

/-- round_up_eb16 of a non-negative real, from its first enclosure that decides it (R90). -/
def ebUpA (a : RealA) : List Nat → Half
  | [] => 0xFF00
  | p :: ps =>
    let (lo, hi) := a p
    let h := ebUp (hi.max Q.zero)
    if lo.eq hi || ebUp (lo.max Q.zero) = h || h = 0x0100 then h else ebUpA a ps

/-- The difference of two reals. -/
def subA (a b : RealA) : RealA := fun p =>
  let x := a p
  let y := b p
  (x.1.sub y.2, x.2.sub y.1)

end Sys2Proof.Machine
end

