-- ==== Sys2Proof/Machine/Float.lean ====
section
/-! DEFINITION. Floating-point, special-function, dot-product, conversion and packing instructions (R169-R182). -/

namespace Sys2Proof.Machine

/-- Latency of the Float class (R102). -/
def fltLat (t : Ty) : Nat := if t = .f64 then 10 else 6

/-- Slot q of a float source in lane l, flushed under MODE.FTZ (R83), with its bound. -/
def X.fv (x : X) (t : Ty) (o : Opnd) (l q : Nat) : FVal × Half :=
  let e := x.rd.flt o t l
  flushIn (Ty.fmt t) (x.ftz && Ty.flushes t) ((Ty.fmt t).dec (if t.isF16 then slotOf t e.x q else e.x)) e.b

/-- The same without the flush. -/
def X.fraw (x : X) (t : Ty) (o : Opnd) (l q : Nat) : FVal × Half :=
  let e := x.rd.flt o t l
  ((Ty.fmt t).dec (if t.isF16 then slotOf t e.x q else e.x), e.b)

/-- FTZ as it concerns results of type t. -/
def X.ftzFor (x : X) (t : Ty) : Bool := x.ftz && Ty.flushes t

/-- The slots of a lane of type t, slot 0 first, with one generator (R146, R147). -/
def slotwise (t : Ty) (f : Nat → Word → El × Word) (g : Word) : El × Word :=
  if t.isF16 then
    let a := f 0 g
    let b := f 1 a.2
    (⟨a.1.x + b.1.x * 2 ^ 16, ebMax a.1.b b.1.b⟩, b.2)
  else f 0 g

/-- A float instruction that rounds: its element is computed from the lane, the slot and the generator. -/
def fltOpG (i : Instr) (h : Hdr) (t : Ty) (d : Opnd) (ps : List Port) (f : X → Nat → Nat → Word → El × Word) (s : State) :
    Host.Outcome State Fault Refusal :=
  instr i h (.fixed (fltLat t)) (wr (tyN t) d ++ ps)
    (vecOpG d t.w64 (fun x l g => slotwise t (fun q g => f x l q g) g)) s

/-- A float instruction that draws nothing. -/
def fltOp (i : Instr) (h : Hdr) (t : Ty) (d : Opnd) (ps : List Port) (f : X → Nat → Nat → El) (s : State) :
    Host.Outcome State Fault Refusal :=
  fltOpG i h t d ps (fun x l q g => (f x l q, g)) s

/-- Rounds an exact value into type t and gives bits, the bound b + ρ and the generator. -/
def roundEl (x : X) (t : Ty) (m : RMode) (v : Ex) (b : Half) (g : Word) : El × Word :=
  let r := v.round (Ty.fmt t) m (x.ftzFor t) g
  (r.out x.bt (Ty.fmt t) b, r.g)

/-- m of an instruction (R50). -/
def X.rm (x : X) (r : RndSel) : RMode := rmode x.tm.mode r

/-! ### Addition and multiplication (R169, R170) -/

/-- `fadd` (R169). -/
def execFadd (h : Hdr) (ty : Ty) (r : RndSel) (d a b : Opnd) (s : State) : Host.Outcome State Fault Refusal :=
  fltOpG (.fadd h ty r d a b) h ty d (rd (tyN ty) a ++ rd (tyN ty) b) (fun x l q g =>
    let u := x.fv ty a l q
    let v := x.fv ty b l q
    roundEl x ty (x.rm r) (Ex.add (x.rm r) (.of u.1) (.of v.1)) (ebAdd u.2 v.2) g) s
/-- `fsub` (R169). -/
def execFsub (h : Hdr) (ty : Ty) (r : RndSel) (d a b : Opnd) (s : State) : Host.Outcome State Fault Refusal :=
  fltOpG (.fsub h ty r d a b) h ty d (rd (tyN ty) a ++ rd (tyN ty) b) (fun x l q g =>
    let u := x.fv ty a l q
    let v := x.fv ty b l q
    roundEl x ty (x.rm r) (Ex.add (x.rm r) (.of u.1) (.of v.1.flip)) (ebAdd u.2 v.2) g) s

/-- The governed terms of an element with factor pairs `ps` and addend z (R193). -/
def govOf (ps : List ((FVal × Half) × (FVal × Half))) (z : Option (FVal × Half)) : Option Gov :=
  let fin := ps.all (fun p => p.1.1.isFin && p.2.1.isFin) && (match z with | some c => c.1.isFin | none => true)
  if !fin then none
  else
    let sum := ps.foldl (fun a p => a.add (p.1.1.q.abs.mul p.2.1.q.abs)) Q.zero
    let base := ps.foldl (fun (a : Option Q) p =>
      match a, baseTerm p.1.1.q p.1.2 p.2.1.q p.2.2 with | some u, some v => some (u.add v) | _, _ => none) (some Q.zero)
    match z with
    | none => some ⟨sum, sum, base⟩
    | some c =>
      some ⟨sum, sum.add c.1.q.abs, match base, bVal c.2 with | some u, some v => some (u.add v) | _, _ => none⟩

/-- The gear of a vector instruction: chosen once, over every element of every lane (R193). -/
def X.gear (x : X) (t : Ty) (sel : GearSel) (d : Opnd) (el : Nat → Nat → Option Gov) : Nat :=
  let gs := (x.work d).flatMap (fun l => (if t.isF16 then [0, 1] else [0]).filterMap (el l))
  gearOf x.tm.mode x.tm.budg sel (fun g => gs.all (fun v => v.qualifies x.tm.mode x.tm.budg t g))

/-- `fmul` (R170, R191). -/
def execFmul (h : Hdr) (ty : Ty) (r : RndSel) (gs : GearSel) (d a b : Opnd) (s : State) :
    Host.Outcome State Fault Refusal :=
  instr (.fmul h ty r gs d a b) h (.fixed (fltLat ty)) (wr (tyN ty) d ++ rd (tyN ty) a ++ rd (tyN ty) b)
    (fun x s =>
      let k := x.gear ty gs d (fun l q => govOf [(x.fv ty a l q, x.fv ty b l q)] none)
      vecOpG d ty.w64 (fun x l g => slotwise ty (fun q g =>
        let u := x.fv ty a l q
        let v := x.fv ty b l q
        let p := (Ex.mul (.of u.1) (.of v.1)).truncProd ty k
        let gam := ebUp ((gearC ty k).mul (u.1.q.abs.mul v.1.q.abs))
        roundEl x ty (x.rm r) p (ebAdd (prodTerms u.1.q u.2 v.1.q v.2) gam) g) g) x s) s

/-- `ffma` (R170, R191). -/
def execFfma (h : Hdr) (ty : Ty) (r : RndSel) (gs : GearSel) (d a b c : Opnd) (s : State) :
    Host.Outcome State Fault Refusal :=
  instr (.ffma h ty r gs d a b c) h (.fixed (fltLat ty))
    (wr (tyN ty) d ++ rd (tyN ty) a ++ rd (tyN ty) b ++ rd (tyN ty) c)
    (fun x s =>
      let k := x.gear ty gs d (fun l q => govOf [(x.fv ty a l q, x.fv ty b l q)] (some (x.fv ty c l q)))
      vecOpG d ty.w64 (fun x l g => slotwise ty (fun q g =>
        let u := x.fv ty a l q
        let v := x.fv ty b l q
        let z := x.fv ty c l q
        let p := (Ex.mul (.of u.1) (.of v.1)).truncProd ty k
        let gam := ebUp ((gearC ty k).mul (u.1.q.abs.mul v.1.q.abs))
        roundEl x ty (x.rm r) (Ex.add (x.rm r) p (.of z.1))
          (ebAdd (ebAdd (prodTerms u.1.q u.2 v.1.q v.2) z.2) gam) g) g) x s) s

/-! ### Minimum, maximum, signs, comparison (R171-R173) -/

/-- a below b, for numbers, with -0 below +0. -/
def numLt (a b : FVal) : Bool :=
  match a, b with
  | .inf n, .inf k => n && !k
  | .inf n, _ => n
  | _, .inf k => !k
  | a, b => if a.isZero && b.isZero then a.neg && !b.neg else a.q.lt b.q

/-- `fmin` and `fmax` of two elements (R171). -/
def minmax (F : Fmt) (bt greater canon : Bool) (u v : FVal × Half) : El :=
  let z : FVal :=
    if u.1.isNan && v.1.isNan then .nan
    else if u.1.isNan then (if canon then .nan else v.1)
    else if v.1.isNan then (if canon then .nan else u.1)
    else if (if greater then numLt u.1 v.1 else numLt v.1 u.1) then v.1 else u.1
  ⟨F.enc z, computed bt (if z.isFin then ebMax u.2 v.2 else 0xFF00)⟩

/-- `fmin` (R171). -/
def execFmin (h : Hdr) (ty : Ty) (nan : Bool) (d a b : Opnd) (s : State) : Host.Outcome State Fault Refusal :=
  fltOp (.fmin h ty nan d a b) h ty d (rd (tyN ty) a ++ rd (tyN ty) b)
    (fun x l q => minmax (Ty.fmt ty) x.bt false nan (x.fv ty a l q) (x.fv ty b l q)) s
/-- `fmax` (R171). -/
def execFmax (h : Hdr) (ty : Ty) (nan : Bool) (d a b : Opnd) (s : State) : Host.Outcome State Fault Refusal :=
  fltOp (.fmax h ty nan d a b) h ty d (rd (tyN ty) a ++ rd (tyN ty) b)
    (fun x l q => minmax (Ty.fmt ty) x.bt true nan (x.fv ty a l q) (x.fv ty b l q)) s

/-- The bits of slot q of a source, and the bound of its lane. -/
def X.fbits (x : X) (t : Ty) (o : Opnd) (l q : Nat) : El :=
  let e := x.rd.flt o t l
  ⟨if t.isF16 then slotOf t e.x q else e.x, e.b⟩

/-- `fabs` (R172): copies the bound. -/
def execFabs (h : Hdr) (ty : Ty) (d a : Opnd) (s : State) : Host.Outcome State Fault Refusal :=
  fltOp (.fabs h ty d a) h ty d (rd (tyN ty) a)
    (fun x l q => let e := x.fbits ty a l q; ⟨e.x % 2 ^ (ty.bits - 1), e.b⟩) s
/-- `fneg` (R172): copies the bound. -/
def execFneg (h : Hdr) (ty : Ty) (d a : Opnd) (s : State) : Host.Outcome State Fault Refusal :=
  fltOp (.fneg h ty d a) h ty d (rd (tyN ty) a)
    (fun x l q => let e := x.fbits ty a l q; ⟨e.x ^^^ 2 ^ (ty.bits - 1), e.b⟩) s

/-- The relation of two numbers, infinities among them; -0 equals +0. -/
def numHolds (c : Cmp) (a b : FVal) : Bool :=
  let eq := numLt a b = false && numLt b a = false || (a.isZero && b.isZero)
  let lt := numLt a b && !(a.isZero && b.isZero)
  let gt := numLt b a && !(a.isZero && b.isZero)
  match c with
  | .eq => eq | .ne => !eq | .lt => lt | .le => lt || eq | .gt => gt | .ge => gt || eq

/-- Truth and doubt of `fsetp` (R98, R173). -/
def fcmp (c : FCmp) (u v : FVal × Half) : Bool × Bool :=
  let un := u.1.isNan || v.1.isNan
  let unb := ebUnb u.2 || ebUnb v.2
  let dbt (k : Cmp) : Bool := unb || (u.1.isFin && v.1.isFin && doubtful k u.1.q u.2 v.1.q v.2)
  match c with
  | .o k => (!un && numHolds k u.1 v.1, dbt k)
  | .num => (!un, unb)
  | .u k => (un || numHolds k u.1 v.1, dbt k)
  | .nan => (un, unb)

/-- `fsetp` (R173): slot 0 of the 16-bit types. -/
def execFsetp (h : Hdr) (ty : Ty) (c : FCmp) (d : BitVec 3) (a b : Opnd) (s : State) : Host.Outcome State Fault Refusal :=
  instr (.fsetp h ty c d a b) h (.fixed 4) (wrPred d ++ rd (tyN ty) a ++ rd (tyN ty) b)
    (predOp d (fun x l =>
      let r := fcmp c (x.fv ty a l 0) (x.fv ty b l 0)
      (r.1, x.bt && r.2))) s

/-! ### Scaling, exponents, integral rounding, classes (R174-R177) -/

/-- `fscl` (R174). Beyond ±5000 every scale overflows, or underflows, alike. -/
def execFscl (h : Hdr) (ty : Ty) (r : RndSel) (d a b : Opnd) (s : State) : Host.Outcome State Fault Refusal :=
  fltOpG (.fscl h ty r d a b) h ty d (rd (tyN ty) a ++ rd 1 b) (fun x l q g =>
    let u := x.fv ty a l q
    let n := x.n32 b l
    let k := max (-5000) (min 5000 (sext n.x 32))
    let v : Ex := match Ex.of u.1 with | .num p z => .num (p.shl k) z | e => e
    let b := if n.b ≠ 0 ∨ ebUnb u.2 then 0xFF00 else ebUp ((ebVal u.2).shl k)
    roundEl x ty (x.rm r) v b g) s

/-- The element of `fxpn` (R175). -/
def fxpnEl (t : Ty) (bt : Bool) (u : FVal × Half) : El :=
  let F := Ty.fmt t
  match u.1 with
  | .nan => ⟨F.cnan, 0xFF00⟩
  | .inf _ => ⟨F.enc (.inf false), 0xFF00⟩
  | .fin _ 0 _ => ⟨F.enc (.inf true), 0xFF00⟩
  | v =>
    let a := v.q.abs
    let e := a.log2
    let b := if u.2 = 0 then 0
      else if ebUnb u.2 || a.le (ebVal u.2) then 0xFF00
      else ebUp (Q.ofInt (max ((a.add (ebVal u.2)).log2 - e) (e - (a.sub (ebVal u.2)).log2)))
    ⟨F.enc (.fin (e < 0) e.natAbs 0), computed bt b⟩

/-- `fxpn` (R175). -/
def execFxpn (h : Hdr) (ty : Ty) (d a : Opnd) (s : State) : Host.Outcome State Fault Refusal :=
  fltOp (.fxpn h ty d a) h ty d (rd (tyN ty) a) (fun x l q => fxpnEl ty x.bt (x.fv ty a l q)) s

/-- The element of `frnd` (R176). -/
def frndEl (t : Ty) (bt : Bool) (m : RMode) (u : FVal × Half) (g : Word) : El × Word :=
  let F := Ty.fmt t
  match u.1 with
  | .nan => (⟨F.cnan, 0xFF00⟩, g)
  | .inf n => (⟨F.enc (.inf n), 0xFF00⟩, g)
  | v =>
    let (n, g) := roundInt m g v.q
    let b := if u.2 ≠ 0 then ebAdd u.2 0x7F00
      else if m = .rsr then ebUp ((Q.ofInt n).sub v.q).abs else 0
    (⟨F.enc (.fin v.neg n.natAbs 0), computed bt b⟩, g)

/-- `frnd` (R176). -/
def execFrnd (h : Hdr) (ty : Ty) (r : RndSel) (d a : Opnd) (s : State) : Host.Outcome State Fault Refusal :=
  fltOpG (.frnd h ty r d a) h ty d (rd (tyN ty) a) (fun x l q g => frndEl ty x.bt (x.rm r) (x.fv ty a l q) g) s

/-- The class bits of an encoding (R177). -/
def classBits (F : Fmt) (x : Nat) : Nat :=
  match F.dec x with
  | .nan => if x.testBit (F.f - 1) then 2 ^ 9 else 2 ^ 8
  | .inf n => if n then 2 ^ 0 else 2 ^ 7
  | .fin n 0 _ => if n then 2 ^ 3 else 2 ^ 4
  | v =>
    if F.isSub v then (if v.neg then 2 ^ 2 else 2 ^ 5) else (if v.neg then 2 ^ 1 else 2 ^ 6)

/-- `fclass` (R177). -/
def execFclass (h : Hdr) (ty : Ty) (d a : Opnd) (s : State) : Host.Outcome State Fault Refusal :=
  instr (.fclass h ty d a) h (.fixed (fltLat ty)) (wr 1 d ++ rd (tyN ty) a)
    (vecOp d false (fun x l =>
      let F := Ty.fmt ty
      let e := x.rd.flt a ty l
      let c := if ty.isF16 then classBits F (slotOf ty e.x 0) + classBits F (slotOf ty e.x 1) * 2 ^ 16
               else classBits F e.x
      bitEl x.bt c [e.b])) s

/-! ### Division, roots and functions (R178) -/

/-- A special-function instruction of one element a lane. -/
def sfuOp (i : Instr) (h : Hdr) (t : Ty) (d : Opnd) (ps : List Port) (f : X → Nat → Word → El × Word) (s : State) :
    Host.Outcome State Fault Refusal :=
  instr i h (.token .sfu) (wr (tyN t) d ++ ps) (tokOpG .sfu d t.w64 f) s

/-- An exact special result: a NaN or infinity is unbounded, a finite one carries b. -/
def sfuFix (t : Ty) (bt : Bool) (z : FVal) (b : Half) (g : Word) : El × Word :=
  (⟨(Ty.fmt t).enc z, computed bt (if z.isFin then b else 0xFF00)⟩, g)

/-- A rounded result with propagated part b. -/
def sfuOut (t : Ty) (bt : Bool) (r : Rnd) (b : Half) : El × Word := (r.out bt (Ty.fmt t) b, r.g)

/-- One exact term of a finite bound; unbounded when `unb`. -/
def term (unb : Bool) (b : Half) (q : Half) : Half := if unb || ebUnb b then 0xFF00 else if b = 0 then 0 else q

/-- `frcp` of an element. -/
def frcpEl (t : Ty) (bt ftz : Bool) (u : FVal × Half) (g : Word) : El × Word :=
  match u.1 with
  | .nan => sfuFix t bt .nan 0 g
  | .inf n => sfuFix t bt (.zero n) (term false u.2 0) g
  | .fin n 0 _ => sfuFix t bt (.inf n) 0 g
  | v =>
    let a := v.q.abs
    let b := ebVal u.2
    sfuOut t bt (roundQ (Ty.fmt t) .rne ftz false g ((Q.ofInt 1).div v.q))
      (term (a.le b) u.2 (ebUp (b.div (a.mul (a.sub b)))))

/-- `frsq` of an element. -/
def frsqEl (t : Ty) (bt ftz : Bool) (u : FVal × Half) (g : Word) : El × Word :=
  match u.1 with
  | .nan => sfuFix t bt .nan 0 g
  | .inf n => if n then sfuFix t bt .nan 0 g else sfuFix t bt (.zero false) (term false u.2 0) g
  | .fin n 0 _ => sfuFix t bt (.inf n) 0 g
  | v =>
    if v.neg then sfuFix t bt .nan 0 g
    else
      let a := v.q
      let b := ebVal u.2
      sfuOut t bt (roundA (Ty.fmt t) .rne ftz false g (rsqrtA a))
        (term (a.le b) u.2 (ebUpA (subA (rsqrtA (a.sub b)) (rsqrtA a)) precs))

/-- `fsqrt` of an element. -/
def fsqrtEl (t : Ty) (bt ftz : Bool) (m : RMode) (u : FVal × Half) (g : Word) : El × Word :=
  match u.1 with
  | .nan => sfuFix t bt .nan 0 g
  | .inf n => sfuFix t bt (if n then .nan else .inf false) 0 g
  | .fin n 0 _ => sfuFix t bt (.zero n) (if u.2 = 0 then 0 else 0xFF00) (genAfter m g)
  | v =>
    if v.neg then sfuFix t bt .nan 0 g
    else
      let a := v.q
      let b := ebVal u.2
      sfuOut t bt (roundA (Ty.fmt t) m ftz false g (sqrtA a))
        (term (a.le b) u.2 (ebUpA (subA (sqrtA a) (sqrtA (a.sub b))) precs))

/-- `fdiv` of two elements. DEDUCED: a zero or infinite result of an infinity performs no rounding that draws under RSR (log
entry 25). -/
def fdivEl (t : Ty) (bt ftz : Bool) (m : RMode) (u v : FVal × Half) (g : Word) : El × Word :=
  let n := u.1.neg != v.1.neg
  let unb := ebUnb u.2 || ebUnb v.2
  match u.1, v.1 with
  | .nan, _ => sfuFix t bt .nan 0 g
  | _, .nan => sfuFix t bt .nan 0 g
  | .inf _, .inf _ => sfuFix t bt .nan 0 g
  | .inf _, _ => sfuFix t bt (.inf n) 0 g
  | _, .inf _ => sfuFix t bt (.zero n) (if unb then 0xFF00 else 0) g
  | x, y =>
    if y.isZero then sfuFix t bt (if x.isZero then .nan else .inf n) 0 g
    else
      let p := x.q.abs
      let q := y.q.abs
      let bq := ebVal v.2
      let b := if unb || q.le bq then 0xFF00
               else ebUp (((p.mul bq).add (q.mul (ebVal u.2))).div (q.mul (q.sub bq)))
      sfuOut t bt (roundQ (Ty.fmt t) m ftz n g (x.q.div y.q)) b

/-- 2^x below every number that the bound of `fexp2` can tell from zero. -/
def exp2Low (x : Q) : RealA := if x.lt (Q.ofInt (-400)) then fun _ => (Q.zero, Q.pow2 (-400)) else exp2A x

/-- `fexp2` of an element. -/
def fexp2El (bt ftz : Bool) (u : FVal × Half) (g : Word) : El × Word :=
  match u.1 with
  | .nan => sfuFix .f32 bt .nan 0 g
  | .inf n => sfuFix .f32 bt (if n then .zero false else .inf false) (term false u.2 0) g
  | v =>
    let x := v.q
    let y := x.add (ebVal u.2)
    let b := term ((Q.ofInt 129).le y) u.2
      (if y.lt (Q.ofInt (-126)) then 0x0100 else ebUpA (subA (exp2A y) (exp2Low x)) precs)
    if (Q.ofInt 128).le x then sfuFix .f32 bt (.inf false) 0 g
    else if x.lt (Q.ofInt (-151)) then
      let r := roundScaled f32F .rne ftz false g (-149) ⟨0, 0, true⟩
      sfuOut .f32 bt ⟨r.1, r.2, g⟩ b
    else sfuOut .f32 bt (roundA f32F .rne ftz false g (exp2A x)) b

/-- `flog2` of an element. -/
def flog2El (bt ftz : Bool) (u : FVal × Half) (g : Word) : El × Word :=
  match u.1 with
  | .nan => sfuFix .f32 bt .nan 0 g
  | .inf n => sfuFix .f32 bt (if n then .nan else .inf false) 0 g
  | .fin _ 0 _ => sfuFix .f32 bt (.inf true) 0 g
  | v =>
    if v.neg then sfuFix .f32 bt .nan 0 g
    else
      let x := v.q
      let b := ebVal u.2
      let p := term (x.le b) u.2 (ebUpA (log2A (x.div (x.sub b))) precs)
      let one := Q.ofInt 1
      if x.eq one then sfuFix .f32 bt (.zero false) p g
      else if x.lt one then sfuOut .f32 bt (roundA f32F .rne ftz true g (log2A (one.div x))) p
      else sfuOut .f32 bt (roundA f32F .rne ftz false g (log2A x)) p

/-- min(b(x), 2) (R178). -/
def minTwo (b : Half) : Half := term false b (ebUp ((ebVal b).min (Q.ofInt 2)))

/-- `fsin` and `fcos` of an element. -/
def trigEl (bt ftz c : Bool) (u : FVal × Half) (g : Word) : El × Word :=
  match u.1 with
  | .nan => sfuFix .f32 bt .nan 0 g
  | .inf _ => sfuFix .f32 bt .nan 0 g
  | .fin n 0 _ => sfuFix .f32 bt (if c then .fin false 1 0 else .zero n) (minTwo u.2) g
  | v =>
    let f := trigA c v.q.abs
    let neg := (f 256).1 != (!c && v.neg)
    sfuOut .f32 bt (roundA f32F .rne ftz neg g (fun p => (f p).2)) (minTwo u.2)

/-- `ftanh` of an element. -/
def ftanhEl (bt ftz : Bool) (u : FVal × Half) (g : Word) : El × Word :=
  match u.1 with
  | .nan => sfuFix .f32 bt .nan 0 g
  | .inf n => sfuFix .f32 bt (.fin n 1 0) (minTwo u.2) g
  | .fin n 0 _ => sfuFix .f32 bt (.zero n) (minTwo u.2) g
  | v => sfuOut .f32 bt (roundA f32F .rne ftz v.neg g (tanhA v.q.abs)) (minTwo u.2)

/-- `frcp` (R178). -/
def execFrcp (h : Hdr) (ty : Ty) (d a : Opnd) (s : State) : Host.Outcome State Fault Refusal :=
  sfuOp (.frcp h ty d a) h ty d (rd (tyN ty) a) (fun x l g => frcpEl ty x.bt x.ftz (x.fv ty a l 0) g) s
/-- `frsq` (R178). -/
def execFrsq (h : Hdr) (ty : Ty) (d a : Opnd) (s : State) : Host.Outcome State Fault Refusal :=
  sfuOp (.frsq h ty d a) h ty d (rd (tyN ty) a) (fun x l g => frsqEl ty x.bt x.ftz (x.fv ty a l 0) g) s
/-- `fsqrt` (R178). -/
def execFsqrt (h : Hdr) (ty : Ty) (r : RndSel) (d a : Opnd) (s : State) : Host.Outcome State Fault Refusal :=
  sfuOp (.fsqrt h ty r d a) h ty d (rd (tyN ty) a) (fun x l g => fsqrtEl ty x.bt x.ftz (x.rm r) (x.fv ty a l 0) g) s
/-- `fdiv` (R178). -/
def execFdiv (h : Hdr) (ty : Ty) (r : RndSel) (d a b : Opnd) (s : State) : Host.Outcome State Fault Refusal :=
  sfuOp (.fdiv h ty r d a b) h ty d (rd (tyN ty) a ++ rd (tyN ty) b)
    (fun x l g => fdivEl ty x.bt x.ftz (x.rm r) (x.fv ty a l 0) (x.fv ty b l 0) g) s
/-- `fexp2` (R178). -/
def execFexp2 (h : Hdr) (d a : Opnd) (s : State) : Host.Outcome State Fault Refusal :=
  sfuOp (.fexp2 h d a) h .f32 d (rd 1 a) (fun x l g => fexp2El x.bt x.ftz (x.fv .f32 a l 0) g) s
/-- `flog2` (R178). -/
def execFlog2 (h : Hdr) (d a : Opnd) (s : State) : Host.Outcome State Fault Refusal :=
  sfuOp (.flog2 h d a) h .f32 d (rd 1 a) (fun x l g => flog2El x.bt x.ftz (x.fv .f32 a l 0) g) s
/-- `fsin` (R178). -/
def execFsin (h : Hdr) (d a : Opnd) (s : State) : Host.Outcome State Fault Refusal :=
  sfuOp (.fsin h d a) h .f32 d (rd 1 a) (fun x l g => trigEl x.bt x.ftz false (x.fv .f32 a l 0) g) s
/-- `fcos` (R178). -/
def execFcos (h : Hdr) (d a : Opnd) (s : State) : Host.Outcome State Fault Refusal :=
  sfuOp (.fcos h d a) h .f32 d (rd 1 a) (fun x l g => trigEl x.bt x.ftz true (x.fv .f32 a l 0) g) s
/-- `ftanh` (R178). -/
def execFtanh (h : Hdr) (d a : Opnd) (s : State) : Host.Outcome State Fault Refusal :=
  sfuOp (.ftanh h d a) h .f32 d (rd 1 a) (fun x l g => ftanhEl x.bt x.ftz (x.fv .f32 a l 0) g) s

/-! ### Dot products (R179) -/

/-- Element i of a packed source of n elements, with the lane's bound; 16-bit elements flush. -/
def X.dotv (x : X) (t : Ty) (o : Opnd) (l i : Nat) : FVal × Half :=
  let e := x.rd.flt o t l
  flushIn (Ty.fmt t) (x.ftzFor t) ((Ty.fmt t).dec (slotOf t e.x i)) e.b

/-- `fdot2` and `fdot4`: n products and an f32 addend, one rounding (R179, R191). -/
def fdot (i : Instr) (h : Hdr) (t : Ty) (n : Nat) (r : RndSel) (gs : GearSel) (d a b c : Opnd) (s : State) :
    Host.Outcome State Fault Refusal :=
  instr i h (.fixed 6) (wr 1 d ++ rd 1 a ++ rd 1 b ++ rd 1 c)
    (fun x s =>
      let pairs (l : Nat) := (List.range n).map (fun i => (x.dotv t a l i, x.dotv t b l i))
      let els := (x.work d).filterMap (fun l => govOf (pairs l) (some (x.fv .f32 c l 0)))
      let k := gearOf x.tm.mode x.tm.budg gs (fun g => els.all (fun v => v.qualifies x.tm.mode x.tm.budg t g))
      vecOpG d false (fun x l g =>
        let ps := pairs l
        let z := x.fv .f32 c l 0
        let v := ps.foldl (fun acc p => Ex.add (x.rm r) acc ((Ex.mul (.of p.1.1) (.of p.2.1)).truncProd t k)) (Ex.of z.1)
        let sum := ps.foldl (fun acc p => acc.add (p.1.1.q.abs.mul p.2.1.q.abs)) Q.zero
        let bs := ps.foldl (fun acc p =>
          ebAdd (ebAdd (ebAdd acc (ebMul (ebUp p.1.1.q.abs) p.2.2)) (ebMul (ebUp p.2.1.q.abs) p.1.2)) (ebMul p.1.2 p.2.2)) 0
        roundEl x .f32 (x.rm r) v (ebAdd (ebAdd bs z.2) (ebUp ((gearC t k).mul sum))) g) x s) s

/-- `fdot2` (R179). -/
def execFdot2 (h : Hdr) (ty : Ty) (r : RndSel) (g : GearSel) (d a b c : Opnd) (s : State) :
    Host.Outcome State Fault Refusal := fdot (.fdot2 h ty r g d a b c) h ty 2 r g d a b c s
/-- `fdot4` (R179). -/
def execFdot4 (h : Hdr) (ty : Ty) (r : RndSel) (g : GearSel) (d a b c : Opnd) (s : State) :
    Host.Outcome State Fault Refusal := fdot (.fdot4 h ty r g d a b c) h ty 4 r g d a b c s

/-! ### Conversion and packing (R88, R180-R182) -/

def isFloat (t : Ty) : Bool := t.isFlt || t.isF8

/-- The bits of type t in a register lane of 32 bits: narrow integers extended, narrow floats in slot 0 (R180). -/
def widen (t : Ty) (x : Nat) : Nat :=
  if t.signed && t.bits < 32 then trunc (sext x t.bits) 32 else x

/-- An integer v converted to a type (R88): bits and ρ. -/
def cvtInt (t : Ty) (m : RMode) (ftz : Bool) (v : Int) (g : Word) : Nat × Half × Word :=
  if isFloat t then
    let r := roundQ (Ty.fmt t) m (ftz && Ty.flushes t) false g (Q.ofInt v)
    ((Ty.fmt t).enc r.z, if r.z.isFin then r.rho else 0xFF00, r.g)
  else
    let z := tyClamp t v
    (trunc z t.bits, ebUp (Q.ofInt (v - z)).abs, g)

/-- The rounding term of a conversion to an integer that is not clamped (R92). -/
def intRho (m : RMode) (v : Q) (n : Int) : Half :=
  if v.eq (Q.ofInt n) && (v.scaled 0).exact then 0 else match m with | .rne => 0x7E00 | .rna => 0x7E00 | _ => 0x7F00

/-- A float v of type `src` converted to a type (R87, R88): bits, ρ (unbounded for a NaN or infinite source). -/
def cvtFlt (t : Ty) (m : RMode) (ftz : Bool) (v : FVal) (g : Word) : Nat × Half × Word :=
  if isFloat t then
    let F := Ty.fmt t
    match v with
    | .fin n _ _ =>
      let r := roundQ F m (ftz && Ty.flushes t) n g v.q
      (F.enc r.z, if r.z.isFin then r.rho else 0xFF00, r.g)
    | v => (F.enc v, 0xFF00, g)
  else match v with
    | .nan => (0, 0xFF00, g)
    | .inf n => (trunc (if n then tyMin t else tyMax t) t.bits, 0xFF00, g)
    | v =>
      let (n, g) := roundInt m g v.q
      let z := tyClamp t n
      (trunc z t.bits, if z = n then intRho m v.q n else ebUp (v.q.sub (Q.ofInt z)).abs, g)

/-- The lane of `cvt` (R180). DEDUCED: a widening conversion copies the bound of a NaN and of an infinity too (log entry 19). -/
def cvtEl (x : X) (t src : Ty) (m : RMode) (a : Opnd) (l : Nat) (g : Word) : El × Word :=
  let e := if isFloat src then x.rd.flt a src l else x.rd.int a src.w64 l
  let raw := e.x % 2 ^ src.bits
  if isFloat src then
    let v := flushIn (Ty.fmt src) (x.ftzFor src) ((Ty.fmt src).dec raw) e.b
    let wider := isFloat t && src.bits < t.bits
    let r := cvtFlt t (if wider then .rne else m) x.ftz v.1 g
    if wider && (r.2.1 = 0 || !v.1.isFin) then (⟨widen t r.1, if v.2 = e.b then v.2 else computed x.bt v.2⟩, g)
    else (⟨widen t r.1, computed x.bt (ebAdd v.2 r.2.1)⟩, r.2.2)
  else
    let r := cvtInt t m x.ftz (tyInt src raw) g
    (⟨widen t r.1, computed x.bt (ebAdd e.b r.2.1)⟩, r.2.2)

/-- `cvt` (R180). -/
def execCvt (h : Hdr) (ty src : Ty) (r : RndSel) (d a : Opnd) (s : State) : Host.Outcome State Fault Refusal :=
  instr (.cvt h ty src r d a) h (.fixed 6) (wr (tyN ty) d ++ rd (tyN src) a)
    (vecOpG d ty.w64 (fun x l g => cvtEl x ty src (x.rm r) a l g)) s

/-- `pack` (R181): it reads D. -/
def execPack (h : Hdr) (ty : Ty) (q : BitVec 3) (d a : Opnd) (s : State) : Host.Outcome State Fault Refusal :=
  instr (.pack h ty q d a) h (.fixed 6) (wr 1 d ++ rd 1 d ++ rd 1 a)
    (vecOp d false (fun x l =>
      let o := x.rd.el d false l
      let v := x.rd.int a false l
      ⟨setBits o.x (ty.bits * q.toNat) ty.bits v.x, computed x.bt (ebMax o.b v.b)⟩)) s

/-- `unpack` (R182): copies the bound. -/
def execUnpack (h : Hdr) (ty : Ty) (q : BitVec 3) (d a : Opnd) (s : State) : Host.Outcome State Fault Refusal :=
  instr (.unpack h ty q d a) h (.fixed 6) (wr 1 d ++ rd 1 a)
    (vecOp d false (fun x l =>
      let v := x.rd.int a false l
      ⟨widen ty (slotOf ty v.x q.toNat), v.b⟩)) s

end Sys2Proof.Machine
end

