-- ==== Sys2Proof/Machine/Collective.lean ====
section
/-! DEFINITION. Collectives over rim sessions (R439-R443): `coll`, its contributions, results and timers. -/

namespace Sys2Proof.Machine

/-! ### The descriptor (R439) -/

abbrev CollDesc := BitVec 512

def CollDesc.f (d : CollDesc) (lo n : Nat) : Nat := bitsOf d.toNat lo n
def CollDesc.hdr (d : CollDesc) : Nat := CollDesc.f d 392 56
def CollDesc.mtab (d : CollDesc) : Nat := CollDesc.f d 328 56
def CollDesc.seq (d : CollDesc) : Nat := CollDesc.f d 288 32
def CollDesc.root (d : CollDesc) : Nat := CollDesc.f d 280 8
def CollDesc.rank (d : CollDesc) : Nat := CollDesc.f d 272 8
def CollDesc.nmem (d : CollDesc) : Nat := CollDesc.f d 264 8
def CollDesc.count (d : CollDesc) : Nat := CollDesc.f d 224 32
def CollDesc.dst (d : CollDesc) : Nat := CollDesc.f d 144 56
def CollDesc.src (d : CollDesc) : Nat := CollDesc.f d 80 56

/-- A malformed descriptor; HDR must be a multiple of 32. -/
def CollDesc.bad (d : CollDesc) : Bool :=
  CollDesc.f d 448 64 ≠ 0 || CollDesc.f d 384 8 ≠ 0 || CollDesc.f d 320 8 ≠ 0 || CollDesc.f d 256 8 ≠ 0
    || CollDesc.f d 200 24 ≠ 0 || CollDesc.f d 136 8 ≠ 0 || CollDesc.f d 0 80 ≠ 0
    || CollDesc.count d = 0 || CollDesc.count d % 32 ≠ 0 || CollDesc.nmem d < 2 || 64 < CollDesc.nmem d
    || CollDesc.nmem d ≤ CollDesc.rank d || CollDesc.nmem d ≤ CollDesc.root d || CollDesc.hdr d % 32 ≠ 0

/-! ### Elements and forms (R440) -/

/-- An element of TY as f32 bits. -/
def collElem (bf : Bool) (n : Nat) : Word := BitVec.ofNat 32 (if bf then n * 65536 else n)

/-- Elements of `bf16` or f32 from bytes. -/
def collElems (bf : Bool) : Nat → List Byte → List Word
  | 0, _ => []
  | k + 1, bs =>
    let n := if bf then 2 else 4
    collElem bf (ofBytes (bs.take n)) :: collElems bf k (bs.drop n)

/-- 2^e scaled blocks: every element rounded to a format of the block's scale. -/
def mxDecode (F : Fmt) (e : Int) (xs : List FVal) : List FVal :=
  xs.map (fun v =>
    match (roundQ F .rne false v.neg 0 (v.q.shl (-e))).z with
    | .fin n m k => .fin n m (k + e)
    | z => z)

/-- The exponent of a SIGN block: log2 of the mean magnitude, rounded to an integer; a tie cannot arise. -/
def signExp (xs : List FVal) : Int :=
  let mean := (xs.foldl (fun a v => a.add v.q.abs) Q.zero).shl (-5)
  if mean.isZero then -127
  else
    let n := mean.log2
    let e := if (Q.pow2 (2 * n + 1)).lt (mean.mul mean) then n + 1 else n
    max (-127) (min e 127)

/-- A block of 32 elements as the root decodes it from form cf. -/
def collBlock (cf : Nat) (ws : List Word) : List Word :=
  let xs := ws.map (fun w => f32F.dec w.toNat)
  let out (vs : List FVal) : List Word := vs.map (fun v => BitVec.ofNat 32 (f32F.enc v))
  if cf = 0 then ws
  else if xs.any (fun v => !v.isFin) then out (xs.map (fun _ => .nan))
  else
    let big := xs.foldl (fun m v => m.max v.q.abs) Q.zero
    match cf with
    | 1 => out (mxDecode e4m3F (if big.isZero then -127 else max (-127) (min (big.log2 - 8) 127)) xs)
    | 2 => out (mxDecode e2m1F (mxExp big) xs)
    | _ => out (xs.map (fun v => .fin v.neg 1 (signExp xs)))

/-- A contribution as the root decodes it, block by block. -/
def collDecode (cf : Nat) : Nat → List Word → List Word
  | 0, _ => []
  | k + 1, ws => collBlock cf (ws.take 32) ++ collDecode cf k (ws.drop 32)

/-! ### The round (R441) -/

/-- acc + x, rounded to f32. -/
def collAdd (a x : Word) : Word :=
  BitVec.ofNat 32 (f32F.enc (((Ex.of (f32F.dec a.toNat)).add .rne (.of (f32F.dec x.toNat))).round f32F .rne false 0).z)

def collMaxOf (a x : Word) : Word :=
  BitVec.ofNat 32 (minmax f32F true true false (f32F.dec a.toNat, 0) (f32F.dec x.toNat, 0)).x

/-- Combines vectors element by element. -/
def collZip (f : Word → Word → Word) (xs ys : List Word) : List Word := List.zipWith f xs ys

/-- f32 bits as an element of TY: rounded once for `.sum` and `.max`, moved unchanged otherwise. -/
def collOut (bf : Bool) (kind : Nat) (w : Word) : Word :=
  if !bf then w
  else if kind < 2 then
    BitVec.ofNat 32 (bf16F.enc ((Ex.of (f32F.dec w.toNat)).round bf16F .rne false 0).z * 65536)
  else w &&& 0xFFFF0000

/-- The result of a round: the vectors of the contributors by rank, the root's own among them. -/
def collResult (kind n count root : Nat) (vs : Tbl (List Word)) : List Word :=
  match kind with
  | 0 => vs.foldl (fun a v => collZip collAdd a v.2) (List.replicate count 0)
  | 1 => match vs with
    | [] => []
    | v :: r => r.foldl (fun a v => collZip collMaxOf a v.2) v.2
  | 2 => (List.range n).flatMap (fun r => (tget vs r).getD (List.replicate count 0))
  | _ => tgetD vs root []

/-- The result header (R442). -/
def collHeader (ncon seq cmask : Nat) : Nat := ncon * 2 ^ 128 + seq * 2 ^ 96 + cmask

def State.modColl (s : State) (id : Nat) (f : Coll → Coll) : State := { s with colls := tmod s.colls id f }

/-- Operation id of the collective engine ends. -/
def State.collEnd (s : State) (id : Nat) (err : Option Nat) : State :=
  State.engineEnd { s with colls := tdel s.colls id } id err

/-- The timer of a member has run out; it starts as `coll` issues, and an event in the expiry clk still wins. -/
def State.collPast (s : State) (k : Coll) : Bool := (k.tmo.map (s.pastTmo k.clk0 k.rt0)).getD false

/-- The sessions of the other members, with their ranks. -/
def Coll.peers (k : Coll) (d : CollDesc) : List (Nat × Nat) :=
  (k.mtab.zipIdx.map (fun e => (e.2, e.1))).filter (fun e => e.1 ≠ CollDesc.rank d)

/-- The root ends its round: the result goes to every contributor, the round is over on every session. -/
def State.collClose (s : State) (id : Nat) (k : Coll) (d : CollDesc) : State :=
  let vs := k.got.foldl (fun t g => tset t g.1 g.2.elems) (tset [] (CollDesc.rank d) k.src)
  let cmask := vs.foldl (fun n v => n + 2 ^ v.1) 0
  let es := (collResult k.kind (CollDesc.nmem d) (CollDesc.count d) (CollDesc.root d) vs).map (collOut k.bf k.kind)
  let s := (k.peers d).foldl (fun s p =>
    let s := s.modSession p.2 (fun x => { x with closed := CollDesc.seq d :: x.closed })
    if k.got.any (fun g => g.1 = p.1) then s.rimSend p.2 (.result (CollDesc.seq d) cmask es) else s) s
  s.modColl id (fun k => { k with res := some (cmask, es) })

/-- Ends the round when every rank has contributed, or the timer has run out. -/
def State.collCheck (s : State) (id : Nat) : State :=
  match tget s.colls id with
  | some k =>
    match k.desc, k.res with
    | some d, none =>
      if CollDesc.rank d = CollDesc.root d ∧ (k.got.length + 1 = CollDesc.nmem d ∨ s.collPast k) then s.collClose id k d else s
    | _, _ => s
  | none => s

/-- A contribution of rank r over session n reaches the root's member id, when it belongs to its round: it counts if
its kind, type, form and count are the root's. -/
def State.collTake (s : State) (id n r : Nat) (m : CollMsg) : State :=
  match tget s.colls id with
  | some k =>
    match k.desc with
    | some d =>
      let ok := m.kind = k.kind && m.bf == k.bf && m.cf = k.cf && m.count = CollDesc.count d && m.elems.length = m.count
        && k.mtab[r]? = some n && r ≠ CollDesc.rank d && !k.got.any (fun g => g.1 = r)
      if ok then (s.modColl id (fun k => { k with got := k.got ++ [(r, m)] })).collCheck id else s
    | none => s
  | none => s

/-! ### The engine (R443) -/

/-- A failure cause of an engine access, among those that R443 lists. -/
def collCause (c : Nat) : Nat := if c = 2 then 6 else c

/-- An access that is not possible now: the member holds, or fails. -/
def State.collBad (s : State) (id : Nat) (k : Coll) (va : Nat) (l : Look) : State :=
  match s.engBad k.ctx 2 k.core va l with
  | (.hold p y, s) => s.modColl id (fun k => { k with page := p, layer := y, fate := .open })
  | (.fail e, s) => s.collEnd id (some (collCause e))

/-- Reads n bytes at va for the member: PERM beyond the address space, POISON for a poisoned line. -/
def State.collRead (s : State) (id : Nat) (k : Coll) (va n : Nat) (next : List Byte → State → State) : State :=
  if 2 ^ 56 < va + n then s.collEnd id (some 6)
  else
    match s.engResolve k.ctx 0 false [] (engRuns va n) with
    | (.error (va, l), _, s) => s.collBad id k va l
    | (.ok ks, _, s) =>
      let (bs, s) := s.engReadAll (some k.ctx) ks
      if bs.any (fun b => b.bad) then s.collEnd id (some 1) else next (bs.map (fun b => b.x)) s

/-- The member has read its descriptor, its table and its contribution. -/
def State.collStart (s : State) (id : Nat) (k : Coll) (d : CollDesc) (mtab : List Nat) (src : List Word) : State :=
  let k : Coll := { k with desc := some d, mtab := mtab, src := src, page := none, layer := none, fate := .open }
  let root := CollDesc.rank d = CollDesc.root d
  let peers := if root then k.peers d else (k.peers d).filter (fun p => p.1 = CollDesc.root d)
  if peers.any (fun p => !(s.sessionFor p.2 k.ctx && (s.session p.2).mayColl)) then s.collEnd id (some 6)
  else
    let s := s.modColl id (fun _ => k)
    if root then
      let seq := CollDesc.seq d
      let early := peers.flatMap (fun p => ((s.session p.2).held.filter (fun m => m.seq = seq)).map (fun m => (p, m)))
      let s := peers.foldl (fun s p => s.modSession p.2 (fun x =>
        { x with held := x.held.filter (fun m => m.seq ≠ seq), closed := x.closed.filter (· ≠ seq) })) s
      State.collCheck (early.foldl (fun s e => s.collTake id e.1.2 e.1.1 e.2) s) id
    else
      let m : CollMsg := { seq := CollDesc.seq d, kind := k.kind, bf := k.bf, cf := k.cf, count := CollDesc.count d
                           elems := collDecode k.cf (CollDesc.count d / 32) src }
      peers.foldl (fun s p => s.rimSend p.2 (.contrib (CollDesc.rank d) m)) s

/-- Writes the result and its header, and ends the member. -/
def State.collFinish (s : State) (id : Nat) (k : Coll) (d : CollDesc) (cmask : Nat) (es : List Word) : State :=
  let data := es.flatMap (fun w => if k.bf then toBytes (w.toNat / 65536) 2 else toBytes w.toNat 4)
  let ncon := ((List.range 64).filter (fun r => cmask.testBit r)).length
  let head := toBytes (collHeader ncon (CollDesc.seq d) cmask) 32
  if 2 ^ 56 < CollDesc.dst d + data.length ∨ 2 ^ 56 < CollDesc.hdr d + 32 then s.collEnd id (some 6)
  else
    match s.engResolve k.ctx 0 true [] (engRuns (CollDesc.dst d) data.length ++ engRuns (CollDesc.hdr d) 32) with
    | (.error (va, l), _, s) => s.collBad id k va l
    | (.ok ks, _, s) =>
      let s := s.engWrite k.ctx false (splitBytes ks ((data ++ head).map (fun x => ⟨x, 0, false⟩)))
      s.collEnd id none

/-- One move of member id: it reads what it contributes, or writes its result. -/
def State.collStep (s : State) (id : Nat) : State :=
  match tget s.colls id with
  | none => s
  | some k =>
    if k.fate = .open ∧ (k.page.map (s.faulting k.ctx)).getD false then s
    else if k.fate ≠ .open then s.collEnd id ((k.fate.engFail 6).map collCause)
    else
      match k.desc, k.res with
      | none, _ =>
        s.collRead id k k.va 64 (fun bs s =>
          let d : CollDesc := BitVec.ofNat 512 (ofBytes bs)
          if CollDesc.bad d then s.collEnd id (some 6)
          else s.collRead id k (CollDesc.mtab d) (2 * CollDesc.nmem d) (fun ts s =>
            let mtab := (List.range (CollDesc.nmem d)).map (fun r => ofBytes ((ts.drop (2 * r)).take 2))
            s.collRead id k (CollDesc.src d) (CollDesc.count d * (if k.bf then 2 else 4)) (fun xs s =>
              s.collStart id k d mtab (collElems k.bf (CollDesc.count d) xs))))
      | some d, some (cmask, es) => s.collFinish id k d cmask es
      | some _, none => s

/-! ### Instructions and events -/

/-- The four forms of `coll` (R443): kind 0 sum, 1 max, 2 gath, 3 bcst. -/
def coll (i : Instr) (h : Hdr) (ty : Ty) (kind cf : Nat) (a b : Opnd) (s : State) : Host.Outcome State Fault Refusal :=
  answer (s.issue i h (.token .coll) (rd 2 a ++ rd 1 b) false true (fun x s =>
    let va := x.rd.wide a 0
    let t := (x.rd.int b false 0).x
    if 2 ^ 56 ≤ va then .trap s .xlat 0 (BitVec.ofNat 64 va)
    else if va % 64 ≠ 0 then .trap s .align 0 (BitVec.ofNat 64 va)
    else
      let k : Coll := { ctx := x.tm.ctx, core := x.tm.core, kind := kind, bf := ty = .bf16, cf := cf, va := va, desc := none
                        clk0 := s.clk, rt0 := s.rt, tmo := if t = 2 ^ 32 - 1 then none else some t, mtab := [], src := []
                        got := [], res := none, page := none, layer := none, fate := .open }
      .token { s with colls := tset s.colls (x.opNum s) k } (x.op s .coll [] .coll)))

/-- `coll.sum` (R443). -/
def execCollSum (h : Hdr) (ty : Ty) (a b : Opnd) (cf : BitVec 2) (s : State) : Host.Outcome State Fault Refusal :=
  coll (.collSum h ty a b cf) h ty 0 cf.toNat a b s
/-- `coll.max` (R443). -/
def execCollMax (h : Hdr) (ty : Ty) (a b : Opnd) (s : State) : Host.Outcome State Fault Refusal :=
  coll (.collMax h ty a b) h ty 1 0 a b s
/-- `coll.gath` (R443). -/
def execCollGath (h : Hdr) (ty : Ty) (a b : Opnd) (s : State) : Host.Outcome State Fault Refusal :=
  coll (.collGath h ty a b) h ty 2 0 a b s
/-- `coll.bcst` (R443). -/
def execCollBcst (h : Hdr) (ty : Ty) (a b : Opnd) (s : State) : Host.Outcome State Fault Refusal :=
  coll (.collBcst h ty a b) h ty 3 0 a b s

/-- The root's member of context c whose round has number seq and takes contributions. -/
def State.collRoot (s : State) (c seq : Nat) : Option Nat :=
  (s.colls.find? (fun e => e.2.ctx = c && e.2.res.isNone && !s.collPast e.2 &&
    (match e.2.desc with | some d => CollDesc.seq d = seq && CollDesc.rank d = CollDesc.root d | none => false))).map Prod.fst

/-- `COLL_CONTRIBUTION` (R441): it counts in the root's round, waits for it, or is discarded. -/
def execCollContribution (session rank : Nat) (msg : CollMsg) (s : State) : Host.Outcome State Fault Refusal :=
  let x := s.session session
  answer (
    if x.st ≠ 2 ∨ x.halted then s
    else if !x.mayColl then s.peerRefuse session 0
    else
      let s := s.rimTook session (4 * msg.elems.length)
      match s.collRoot x.ctx msg.seq with
      | some id => s.collTake id session rank msg
      | none =>
        if x.closed.contains msg.seq ∨ 64 ≤ x.held.length then s
        else s.modSession session (fun x => { x with held := x.held ++ [msg] }))

/-- `COLL_TIMER_EXPIRY` (R441): the root's round ends, or a member that has no result yet times out. -/
def execCollTimerExpiry (op : Nat) (s : State) : Host.Outcome State Fault Refusal :=
  answer (match tget s.colls op with
    | some k =>
      if !s.collPast k ∨ k.res.isSome then s
      else
        match k.desc with
        | some d => if CollDesc.rank d = CollDesc.root d then s.collCheck op else s.collEnd op (some 5)
        | none => s
    | none => s)

/-- `COLL_RESULT` (R441): a member other than the root receives the round's result. -/
def execCollResult (op cmask : Nat) (elems : List (BitVec 32)) (s : State) : Host.Outcome State Fault Refusal :=
  answer (match tget s.colls op with
    | some k =>
      match k.desc, k.res with
      | some d, none =>
        let n := (if k.kind = 2 then CollDesc.nmem d else 1) * CollDesc.count d
        if CollDesc.rank d = CollDesc.root d ∨ s.collPast k ∨ 2 ^ 64 ≤ cmask ∨ !cmask.testBit (CollDesc.rank d)
          ∨ elems.length ≠ n then s
        else
          let s := match (k.peers d).find? (fun p => p.1 = CollDesc.root d) with
            | some p => s.rimTook p.2 (4 * n)
            | none => s
          s.modColl op (fun k => { k with res := some (cmask, elems.map (fun w => if k.bf then w &&& 0xFFFF0000 else w)) })
      | _, _ => s
    | none => s)

end Sys2Proof.Machine
end

