-- ==== Sys2Proof/Machine/Residency.lean ====
section
/-! DEFINITION. Model residency: frames, requests, arrivals, evictions (R343-R355), and `lbind`, `lrel`, `lhint`, `lstat`
(R356-R358). -/

namespace Sys2Proof.Machine

/-! ### Layer entries (R343, R344) -/

def Layer.crc (y : Layer) : Word := BitVec.ofNat 32 (bitsOf y.entry.toNat 224 32)
def Layer.key (y : Layer) : Nat := bitsOf y.entry.toNat 212 12
def Layer.src (y : Layer) : Nat := bitsOf y.entry.toNat 208 2
def Layer.ses (y : Layer) : Nat := bitsOf y.entry.toNat 195 13
def Layer.saddr (y : Layer) : Nat := bitsOf y.entry.toNat 128 56
def Layer.size (y : Layer) : Nat := (bitsOf y.entry.toNat 88 20 + 1) * 4096
def Layer.base (y : Layer) : Nat := bitsOf y.entry.toNat 0 56
/-- NP of R344. -/
def Layer.np (y : Layer) : Nat := ceilDiv y.size (2 ^ 21)
/-- The virtual addresses of the layer's pages. -/
def Layer.pages (y : Layer) : List Nat := (List.range y.np).map (fun i => y.base + 2 ^ 21 * i)

/-! ### Frames (R345); frame f lies at physical address f · 2 MiB -/

/-- EN, NFR and FBASE of RPCFG. -/
def rpEn (r : Dword) : Bool := r.getLsbD 63
def rpNfr (r : Dword) : Nat := bitsOf r.toNat 48 15
def rpBase (r : Dword) : Nat := bitsOf r.toNat 21 15

/-- The frames of the pool of stack n; none when it is not in use. -/
def State.pool (s : State) (n : Nat) : List Nat :=
  let r := (s.stack n).rpcfg
  if rpEn r && s.present n then (List.range (rpNfr r)).map (fun j => n * 2 ^ 15 + rpBase r + j) else []

/-- The frames that layers hold, or an eviction that has not ended (R353). -/
def State.framesUsed (s : State) : List Nat :=
  s.models.flatMap (fun m => m.2.layers.flatMap (fun y => y.frames)) ++ ((s.leaving.map (fun v => v.frames)).getD [])

/-- The frame that R345 selects next, given the frames in use. -/
def State.nextFrame (s : State) (used : List Nat) : Option Nat :=
  let free := (List.range 8).map (fun n => (s.pool n).filter (fun f => !used.contains f))
  let best := free.foldl (fun (b : List Nat) p => if b.length < p.length then p else b) []
  best.head?

/-- n frames, one after another. -/
def State.takeFrames (s : State) : Nat → List Nat → Option (List Nat)
  | 0, _ => some []
  | n + 1, used =>
    match s.nextFrame used with
    | none => none
    | some f => (s.takeFrames n (f :: used)).map (f :: ·)

/-! ### PTEs of a layer -/

/-- The PTE slots that a walk for va may read, in its order. -/
def State.pteSlots (s : State) (c va : Nat) : List Nat :=
  let r := (s.ctx c).ptroot
  (sizesOf r).flatMap (fun z => (List.range 8).flatMap (fun j => (List.range 8).map (fun i => bucketAddr r z va j + 16 * i)))

/-- The PTE that maps va, and its physical address. -/
def State.findPte (s : State) (c va : Nat) : Option (Nat × Quad) :=
  match s.walk c va with
  | .hit p => ((s.pteSlots c va).find? (fun a => s.pteAt a = p)).map (fun a => (a, p))
  | _ => none

/-- A PTE as R344 asks for it. -/
def ptePageOk (p : Quad) (l : Nat) : Bool :=
  pteSize p = 2 && pteCls p = 1 && !pteW p && pteAbs p && pteLayer p = l

/-- Writes a PTE. -/
def State.setPte (s : State) (a : Nat) (p : Nat) : State := s.hubWrite none 0 a p 16

/-- ABS, KEY and PPN of a PTE changed. -/
def pteResident (p : Quad) (key frame : Nat) : Nat :=
  setBits (setBits (setBits p.toNat 117 1 0) 104 12 key) 44 40 (frame * 512)
def pteAbsent (p : Quad) : Nat := setBits p.toNat 117 1 1

/-- Drops the TLB entries of context c for a page, and its lines in L1 and in the instruction buffer of every core (R340). -/
def State.dropPage (s : State) (c va n : Nat) : State :=
  let out (l : L1Line) : Bool := l.ctx = c && decide (va ≤ l.vline * 128) && decide (l.vline * 128 < va + n)
  { s with tlb := s.tlb.filter (fun e => !(e.1 = c && pteCovers e.2 va))
           cores := tmap s.cores (fun _ k => { k with l1 := k.l1.filter (fun l => !out l), ibuf := k.ibuf.filter (fun l => !out l) }) }

/-- Drops everything of a layer's pages. -/
def State.dropLayer (s : State) (c : Nat) (y : Layer) : State := y.pages.foldl (fun s va => s.dropPage c va (2 ^ 21)) s

/-! ### Eviction (R353) -/

/-- The operations in progress that use a translation to one of the frames. -/
def State.frameUsers (s : State) (fs : List Nat) : List Nat :=
  (s.ops.filter (fun o => match o.2.work with
    | .load _ _ _ _ accs => accs.any (fun a => a.chunks.any (fun k => match k.at_ with
      | .mem _ pa _ => fs.contains (pa / 2 ^ 21)
      | _ => false))
    | _ => false)).map Prod.fst

/-- A layer is ABSENT: ABS is set in its PTEs, its translations and lines are dropped, and it has no frames (R353). -/
def State.evict (s : State) (c l : Nat) : State :=
  match s.layerOf c l with
  | none => s
  | some y =>
    let s := y.pages.foldl (fun s va => match s.findPte c va with
      | some (a, p) => s.setPte a (pteAbsent p)
      | none => s) s
    (s.dropLayer c y).modLayer c l (fun y => { y with st := .absent, frames := [] })

/-- The key of R352, step 2. -/
def evictKey (cur n l : Nat) : Nat := if l ≤ cur then cur - l + n else l - cur

/-- What orders victims (R352): the least is evicted first. -/
structure Victim where
  ctx   : Nat
  layer : Nat
  prio  : Nat
  key   : Nat
  use   : Nat
  deriving DecidableEq, Repr

def Victim.before (a b : Victim) : Bool :=
  if a.prio ≠ b.prio then a.prio < b.prio
  else if a.key ≠ b.key then b.key < a.key
  else if a.use ≠ b.use then a.use < b.use
  else if a.ctx ≠ b.ctx then a.ctx < b.ctx
  else a.layer < b.layer

/-- The layers that request r may evict (R352), `gone` apart. -/
def State.victims (s : State) (r : SwapReq) (gone : List (Nat × Nat)) : List Victim :=
  let mine := tget s.models r.ctx
  s.models.flatMap (fun m => m.2.layers.zipIdx.filterMap (fun (y, l) =>
    let may := r.demand || (match mine with
      | some x => decide (m.2.prio < x.prio) || (m.1 = r.ctx && decide (l < x.cur) && !r.named.contains l)
      | none => false)
    if y.st = .resident && y.pin = 0 && may && !gone.contains (m.1, l) then
      some ⟨m.1, l, m.2.prio, evictKey m.2.cur m.2.layers.length l, y.use⟩
    else none))

/-- The first victim. -/
def firstVictim : List Victim → Option Victim
  | [] => none
  | v :: vs => match firstVictim vs with
    | none => some v
    | some w => if w.before v then some w else some v

/-- The layers to evict so that n frames are free, in order; none when the evictions that R352 allows do not suffice. -/
def State.plan (s : State) (r : SwapReq) : Nat → Nat → List (Nat × Nat) → Option (List (Nat × Nat))
  | 0, _, _ => none
  | k + 1, need, gone =>
    let used := (s.models.flatMap (fun m => m.2.layers.zipIdx.flatMap (fun (y, l) =>
      if gone.contains (m.1, l) then [] else y.frames)))
    let free := ((List.range 8).flatMap s.pool).filter (fun f => !used.contains f)
    if need ≤ free.length then some gone
    else match firstVictim (s.victims r gone) with
      | none => none
      | some v => s.plan r k need (gone ++ [(v.ctx, v.layer)])

/-! ### Failure and arrival (R349, R351) -/

/-- The operations of `lbind` that wait for a layer end. -/
def State.bindEnd (s : State) (c l : Nat) (w : Work) : State :=
  { s with ops := tmap s.ops (fun _ o => if o.work = .lbind c l then { o with work := w } else o) }

/-- A hold on layer l that is still open is failed. -/
def failIf (l : Nat) (y : Option Nat) (f : Fate) : Fate := if y = some l ∧ f = .open then .failed else f
def Hold.failLayer (l : Nat) : Hold → Hold
  | .inside i c r cap st ps y f => .inside i c r cap st ps y (failIf l y f)
  | .fetch r p y f => .fetch r p y (failIf l y f)
  | .free => .free

/-- Every access of context c that is held on layer l has met its failure (R351, R354). -/
def State.failHolds (s : State) (c l : Nat) : State :=
  { s with teams := tmap s.teams (fun _ tm => if tm.ctx ≠ c then tm else
             { tm with p0 := { tm.p0 with hold := tm.p0.hold.failLayer l }, p1 := { tm.p1 with hold := tm.p1.hold.failLayer l } })
           groups := tmap s.groups (fun _ g => if g.ctx ≠ c then g else
             { g with copy := { g.copy with cmds := g.copy.cmds.map (fun m => { m with fate := failIf l m.layer m.fate }) }
                      dec := { g.dec with streams := g.dec.streams.map (fun m => { m with fate := failIf l m.layer m.fate }) } })
           colls := tmap s.colls (fun _ k => if k.ctx ≠ c then k else { k with fate := failIf l k.layer k.fate })
           cores := tmap s.cores (fun _ k => { k with mx := { k.mx with acc := k.mx.acc.map (fun m =>
             if (tget s.teams m.team).any (fun tm => tm.ctx = c) then { m with fate := failIf l m.layer m.fate } else m) } }) }

/-- An arrival fails (R351). -/
def State.layerFail (s : State) (c l cause : Nat) : State :=
  match s.layerOf c l with
  | none => s
  | some y =>
    if y.st ≠ .arriving then s
    else
      let s := s.modLayer c l (fun y => { y with st := .failed, fcause := cause, frames := [] })
      let s := { s with swaps := s.swaps.filter (fun r => !(r.ctx = c && r.layer = l)) }
      let s := if y.src = 2 then
          s.rimDrop y.ses (fun m => match m with | .swapGet _ d k _ _ => d = c && k = l | _ => false) else s
      (s.bindEnd c l (.fail 2)).failHolds c l

/-- A page of the layer is missing or breaks R344. -/
def State.noPte (s : State) (c l : Nat) (y : Layer) : Bool :=
  !y.pages.all (fun va => match s.findPte c va with | some (_, p) => ptePageOk p l | none => false)

/-- Starts the fetch of a layer's image, from step 2 of R349 on: a peer is asked for it (R351). -/
def State.fetchImage (s : State) (c l : Nat) (y : Layer) : State :=
  if y.src ≠ 2 then (if s.linkDown y.saddr then s.layerFail c l 4 else s)
  else if !s.sessionFor y.ses c then s.layerFail c l 4
  else State.rimSend { s with nextOp := s.nextOp + 1 } y.ses (.swapGet s.nextOp c l y.saddr y.size)

/-- Bytes of an image written from byte `off` on into the layer's frames, encrypted under KEY, with EXACT records for the
pages that `bnd` names bounded (R349). -/
def State.writeImage (s : State) (y : Layer) (bnd : List Bool) (off : Nat) (bs : List Byte) : State :=
  (List.range (ceilDiv bs.length 128)).foldl (fun s j =>
    let a := off + 128 * j
    match y.frames[a / 2 ^ 21]? with
    | some f => s.writeLine none 1 y.key (lineOf (f * 2 ^ 21 + a % 2 ^ 21)) (lineAdd [] 0 ((bs.drop (128 * j)).take 128) 0) (bnd.getD (a / 2 ^ 21) false) true
    | none => s) s

/-- The image as the frames hold it. -/
def State.readImage (s : State) (y : Layer) : List Byte :=
  (List.range y.np).flatMap (fun i => match y.frames[i]? with
    | some f => cellsGet s.mem (f * 2 ^ 21) (min (2 ^ 21) (y.size - i * 2 ^ 21))
    | none => [])

/-- BND of each page of a list. -/
def State.pagesBnd (s : State) (c : Nat) (vas : List Nat) : List Bool :=
  vas.map (fun va => match s.findPte c va with | some (_, p) => pteBnd p | none => false)

/-- A layer whose image has arrived becomes RESIDENT (R349, steps 5 and 6). -/
def State.layerResident (s : State) (c l : Nat) (y : Layer) : State :=
  let s := (y.pages.zip y.frames).foldl (fun s (va, f) => match s.findPte c va with
    | some (a, p) => s.setPte a (pteResident p y.key f)
    | none => s) s
  let s := s.dropLayer c y
  let s := s.modLayer c l (fun y => { y with st := .resident, gen := (y.gen + 1) % 2 ^ 16, use := s.useCnt })
  State.bindEnd { s with useCnt := s.useCnt + 1 } c l (.done [])

/-- The image of a layer has been fetched (R349). -/
def State.layerArrive (s : State) (c l : Nat) : State :=
  match s.layerOf c l with
  | none => s
  | some y =>
    let waits := (s.session y.ses).frames.any (fun f => match f.msg with | .swapGet _ d k _ _ => d = c && k = l | _ => false)
    if y.st ≠ .arriving ∨ y.frames = [] ∨ (y.src = 2 ∧ waits) then s
    else
      let local_ := y.src ≠ 2
      if local_ ∧ (linesOver y.saddr y.size).any (fun n => s.poison.contains n) then s.layerFail c l 2
      else
        let bnd := s.pagesBnd c y.pages
        let pad := List.replicate (y.np * 2 ^ 21 - y.size) 0
        let bs := if local_ then cellsGet s.mem y.saddr y.size else s.readImage y
        let s := if local_ then s.writeImage y bnd 0 (bs ++ pad) else s.writeImage y bnd y.size pad
        if crc32c bs = y.crc then s.layerResident c l y
        else if y.rtry < 3 then
          (s.modLayer c l (fun y => { y with rtry := y.rtry + 1 })).fetchImage c l { y with rtry := y.rtry + 1 }
        else s.layerFail c l 1

/-- `LAYER_ARRIVAL_COMPLETE` (R349). -/
def execLayerArrivalComplete (ctx layer : Nat) (s : State) : Host.Outcome State Fault Refusal :=
  answer (s.layerArrive ctx layer)

/-- A link tag failure: re-fetched at most three times (R349, R351). -/
def State.layerTag (s : State) (c l : Nat) : State :=
  match s.layerOf c l with
  | none => s
  | some y =>
    if y.st ≠ .arriving ∨ y.frames = [] then s
    else if y.rtry < 3 then
      (s.modLayer c l (fun y => { y with rtry := y.rtry + 1 })).fetchImage c l { y with rtry := y.rtry + 1 }
    else s.layerFail c l 3

/-- `LAYER_ARRIVAL_FAILURE` (R351): causes that come from outside: POISON, TAG, UNREACH and ABORT. -/
def execLayerArrivalFailure (ctx layer cause : Nat) (s : State) : Host.Outcome State Fault Refusal :=
  answer (if cause = 3 then s.layerTag ctx layer
          else if cause = 2 ∨ cause = 4 ∨ cause = 7 then s.layerFail ctx layer cause else s)

/-! ### The swap engine (R348) -/

/-- Request a starts before request b. -/
def State.startsBefore (s : State) (a b : SwapReq) : Bool :=
  let prio (r : SwapReq) : Nat := ((tget s.models r.ctx).map (fun m => m.prio)).getD 0
  if a.demand ≠ b.demand then a.demand
  else if prio a ≠ prio b then prio b < prio a
  else a.id < b.id

/-- Requests in start order, by insertion. -/
def State.insertReq (s : State) (r : SwapReq) : List SwapReq → List SwapReq
  | [] => [r]
  | x :: xs => if s.startsBefore r x then r :: x :: xs else x :: s.insertReq r xs

def State.startOrder (s : State) : List SwapReq := s.swaps.foldl (fun q r => s.insertReq r q) []

/-- Arrivals in progress. -/
def State.arrivals (s : State) : Nat :=
  s.models.foldl (fun n m => n + (m.2.layers.filter (fun y => y.st = .arriving && y.frames ≠ [])).length) 0

def State.unqueue (s : State) (r : SwapReq) : State := { s with swaps := s.swaps.filter (fun x => x.id ≠ r.id) }

/-- The evictions of a request end once the accesses that used a dropped translation have completed: the frames are
free, and the request takes its own and fetches the image (R348, R349, R353). -/
def State.swapEnd (s : State) : State :=
  match s.leaving with
  | none => s
  | some v =>
    if v.ops.any (fun n => (tget s.ops n).isSome) then s
    else
      let s := { s with leaving := none }
      match v.req with
      | none => s
      | some r =>
        match s.layerOf r.ctx r.layer with
        | none => s
        | some y =>
          match s.takeFrames y.np s.framesUsed with
          | none => { s with swaps := s.swaps ++ [r] }
          | some fs =>
            let s := s.modLayer r.ctx r.layer (fun y => { y with frames := fs, rtry := 0 })
            if s.noPte r.ctx r.layer y then s.layerFail r.ctx r.layer 5 else s.fetchImage r.ctx r.layer { y with frames := fs }

/-- Starts the first request that can start: its victims are evicted (R352, R353). -/
def State.swapStart (s : State) : List SwapReq → State
  | [] => s
  | r :: rs =>
    match s.layerOf r.ctx r.layer with
    | none => s.unqueue r
    | some y =>
      let total := ((List.range 8).flatMap s.pool).length
      if total < y.np then (s.unqueue r).layerFail r.ctx r.layer 6
      else
        match s.plan r (total + 1) y.np [] with
        | none =>
          if r.demand then s.swapStart rs
          else (s.unqueue r).modLayer r.ctx r.layer (fun y => { y with st := .absent })
        | some out =>
          let fs := out.flatMap (fun v => match s.layerOf v.1 v.2 with | some z => z.frames | none => [])
          let ids := s.frameUsers fs
          let s := out.foldl (fun s v => s.evict v.1 v.2) s
          State.swapEnd { s.unqueue r with leaving := some ⟨some r, fs, ids⟩ }

/-- `SWAP_REQUEST_START` (R348): the engine has up to 16 arrivals in progress. It starts a request, or goes on with the one
whose evictions have ended. -/
def execSwapRequestStart (s : State) : Host.Outcome State Fault Refusal :=
  answer (if s.leaving.isSome then s.swapEnd else if 16 ≤ s.arrivals then s else s.swapStart s.startOrder)

/-! ### Residency words (R346) -/

def lstateCode : LState → Nat
  | .absent => 0 | .arriving => 1 | .resident => 2 | .failed => 3

/-- The residency word of a layer. -/
def Layer.word (y : Layer) : Nat :=
  y.gen * 2 ^ 48 + y.pin * 2 ^ 32 + y.fcause * 2 ^ 28 + y.rtry * 2 ^ 26 + lstateCode y.st

/-- A write of a residency word by system software: PIN, and FAILED to ABSENT (R346). -/
def State.residencyWrite (s : State) (ctx layer : Nat) (val : Dword) : State :=
  s.modLayer ctx layer (fun y =>
    let y := { y with pin := bitsOf val.toNat 32 16 }
    if y.st = .failed ∧ val.toNat % 4 = 0 then { y with st := .absent, fcause := 0, rtry := 0 } else y)

/-- `RESIDENCY_WORD_WRITE` (R346). -/
def execResidencyWordWrite (ctx layer : Nat) (val : Dword) (s : State) : Host.Outcome State Fault Refusal :=
  answer (s.residencyWrite ctx layer val)

/-! ### Instructions (R356-R358) -/

/-- The context of model A and the layer B, or the offending field and value (R356). -/
def X.layerArg (x : X) (s : State) (a b : Nat) : Except (Nat × Nat) (Nat × Nat) :=
  let mdl := x.tm.modelid.getLsbD 31
  let own := mdl && x.tm.modelid.toNat % 2 ^ 16 = a
  let c : Option Nat :=
    if own then some x.tm.ctx
    else if mdl && s.prv x.tm.ctx then (s.models.find? (fun m => m.2.mnum = a)).map Prod.fst
    else none
  match c with
  | none => .error (6, a)
  | some c => if b < ((tget s.models c).map (fun m => m.layers.length)).getD 0 then .ok (c, b) else .error (7, b)

/-- Hint requests for layers from l to h - 1 of context c. -/
def State.hints (s : State) (c l h : Nat) (named : List Nat) : State :=
  (List.range (h - l)).foldl (fun s j => s.request c (l + j) false named) s

/-- `lbind` once its layer's pin count has room (R357). -/
def X.bind (x : X) (s : State) (c l : Nat) (rty : Bool) : Res :=
  match tget s.models c, s.layerOf c l with
  | some m, some y =>
    if 65535 ≤ y.pin then x.hold s 0 [c, l]
    else
      let n := m.layers.length
      let s := { s with models := tmod s.models c (fun m => { m with cur := l }), useCnt := s.useCnt + 1 }
      let s := s.modLayer c l (fun y =>
        let y := { y with pin := y.pin + 1, use := s.useCnt - 1 }
        if y.st = .failed ∧ rty then { y with st := .absent, fcause := 0, rtry := 0 } else y)
      let st := if y.st = .failed ∧ rty then LState.absent else y.st
      let s := s.request c l true []
      let top := min (l + m.la + 1) n
      let s := s.hints c (l + 1) top ((List.range (top - (l + 1))).map (fun j => l + 1 + j))
      let w : Work := match st with | .resident => .done [] | .failed => .fail 2 | _ => .lbind c l
      .token s (x.op s .resid [] w)
  | _, _ => .token s (x.op s .resid [] (.fail 2))

/-- `lbind` (R357). -/
def execLbind (h : Hdr) (a b : Opnd) (rty : Bool) (s : State) : Host.Outcome State Fault Refusal :=
  answer (s.issue (.lbind h a b rty) h (.token .resid) (rd 1 a ++ rd 1 b) false true (fun x s =>
    match x.st with
    | some w => x.bind s (w.cap.headD 0) (w.cap.getD 1 0) rty
    | none =>
      match x.layerArg s (x.num a) (x.num b) with
      | .error (k, v) => badField s k v
      | .ok (c, l) => x.bind s c l rty))

/-- `lrel` (R358). -/
def execLrel (h : Hdr) (a b : Opnd) (s : State) : Host.Outcome State Fault Refusal :=
  answer (s.issue (.lrel h a b) h (.token .resid) (rd 1 a ++ rd 1 b) false true (fun x s =>
    match x.layerArg s (x.num a) (x.num b) with
    | .error (k, v) => badField s k v
    | .ok (c, l) =>
      let s := s.modLayer c l (fun y => { y with pin := y.pin - 1 })
      .token s (x.op s .resid [] (.done []))))

/-- `lhint` (R358). -/
def execLhint (h : Hdr) (a b : Opnd) (nm1 : BitVec 8) (s : State) : Host.Outcome State Fault Refusal :=
  instr (.lhint h a b nm1) h (.token .resid) (rd 1 a ++ rd 1 b) (fun x s =>
    match x.layerArg s (x.num a) (x.num b) with
    | .error (k, v) => badField s k v
    | .ok (c, l) =>
      let n := ((tget s.models c).map (fun m => m.layers.length)).getD 0
      let s := s.hints c l (min (l + nm1.toNat + 1) n) []
      .token s (x.op s .resid [] (.done []))) s

/-- `lstat` (R358). -/
def execLstat (h : Hdr) (d a b : Opnd) (s : State) : Host.Outcome State Fault Refusal :=
  instr (.lstat h d a b) h (.token .resid) (wr 2 d ++ rd 1 a ++ rd 1 b) (fun x s =>
    match x.layerArg s (x.num a) (x.num b) with
    | .error (k, v) => badField s k v
    | .ok (c, l) =>
      let v := ((s.layerOf c l).map Layer.word).getD 0
      let us := dstUpds d true ((x.work d).map (fun l => (l, ⟨v, 0⟩)))
      .token s (x.op s .resid (dstKeys d 2 x.e) (.done us))) s

end Sys2Proof.Machine
end

