-- ==== Sys2Proof/Machine/Tandem.lean ====
section
/-! DEFINITION. The tandem exchange `txch` (R430, R431) and its timeout. -/

namespace Sys2Proof.Machine

/-- A waiting exchange, as its operation holds it. -/
structure Waiting where
  op   : Nat
  team : Nat
  core : Nat
  ctx  : Nat
  at_  : Nat
  pair : Nat
  em   : Mask
  d    : Nat
  n    : Nat
  rows : List Row
  rt0  : Nat
  tmo  : Option Nat
  deriving DecidableEq, Repr

/-- The tandem table of a stack, oldest first (R430). -/
def State.tandem (s : State) (stack : Nat) : List Waiting :=
  s.ops.filterMap (fun o =>
    match o.2.work, tget s.teams o.2.team with
    | .txch pair em d n rows rt0 tmo, some tm =>
      if tm.core / 16 = stack then some ⟨o.1, o.2.team, tm.core, tm.ctx, o.2.at_, pair, em, d, n, rows, rt0, tmo⟩ else none
    | _, _ => none)

/-- A waiting exchange whose timer has run out. -/
def State.expired (s : State) (w : Waiting) : Bool := (w.tmo.map (s.pastTmo w.at_ w.rt0)).getD false

/-- The oldest entry that an exchange of a team of core n of context c with this pair id matches (R430). -/
def State.partner (s : State) (c core pair : Nat) : Option Waiting :=
  (s.tandem (core / 16)).find? (fun w => w.ctx = c && w.pair = pair && w.core ≠ core && !s.expired w)

/-- Rows of one side as the writes of the other, in the lanes of m. -/
def exchUpds (m : Mask) (d : Nat) (rows : List Row) : List Upd :=
  rows.zipIdx.map (fun r => .vec (d + r.2) ((lanesOf m).map (fun l =>
    let c := Row.cell r.1 l
    ⟨l, some c.val, some c.bnd⟩)))

/-- Rows as values that a held instruction keeps. -/
def encRows (rows : List Row) : List Nat :=
  rows.flatMap (fun r => lanes.map (fun l => (Row.cell r l).val.toNat * 65536 + (Row.cell r l).bnd.toNat))
def decRows : Nat → List Nat → List Row
  | 0, _ => []
  | n + 1, xs => (xs.take 64).map (fun x => ⟨BitVec.ofNat 32 (x / 65536), BitVec.ofNat 16 x⟩) :: decRows n (xs.drop 64)

/-- `txch` (R431). DESIGN CHOICE: a lane of D that an outstanding operation is due to write raises TOKEN, for its read, before WAW
(log entry 24). A full table holds the fragment; the timer runs from issue. -/
def execTxch (h : Hdr) (d : BitVec 8) (a b : Opnd) (nm1 : BitVec 4) (s : State) : Host.Outcome State Fault Refusal :=
  let n := nm1.toNat + 1
  answer (s.issue (.txch h d a b nm1) h (.token .tandem) (rd n (.v d) ++ wr n (.v d) ++ rd 1 a ++ rd 1 b) false true
    (fun x s =>
      let cap := match x.st with
        | some w => w.cap
        | none => (x.rd.int a false 0).x % 65536 :: (x.rd.int b false 0).x
            :: encRows ((List.range n).map (fun i => x.rd.vrow (d.toNat + i)))
      let pair := cap.headD 0
      let t := cap.getD 1 0
      let tmo : Option Nat := if t = 2 ^ 32 - 1 then none else some t
      let rows := decRows n (cap.drop 2)
      let rt0 := match x.st with | some w => w.rt0 | none => s.rt
      let clk0 := match x.st with | some w => w.clk0 | none => s.clk
      let op (w : Work) : Op := x.op s .tandem (dstKeys (.v d) n x.e) w
      if (tmo.map (s.pastTmo clk0 rt0)).getD false then .token s (op (.fail 5))
      else
        match s.partner x.tm.ctx x.tm.core pair with
        | some y =>
          let m := x.e &&& y.em
          let err : Option Nat := if n = y.n then none else some 6
          let mine : Work := .both (exchUpds m d.toNat y.rows) err y.op
          let yours : Work := .both (exchUpds m y.d rows) err (x.opNum s)
          .token { s with ops := tmod s.ops y.op (fun o => { o with work := yours }) } (op mine)
        | none =>
          if 256 ≤ (s.tandem (x.tm.core / 16)).length then x.hold s 0 cap
          else .token s (op (.txch pair x.e d.toNat n rows rt0 tmo))))

/-- `TXCH_TIMEOUT` (R431): the entry of operation id leaves the table, and the operation fails with TIMEOUT. -/
def execTxchTimeout (op : Nat) (s : State) : Host.Outcome State Fault Refusal :=
  answer (match tget s.ops op with
    | some o =>
      match o.work with
      | .txch _ _ _ _ _ rt0 (some t) =>
        if s.pastTmo o.at_ rt0 t then { s with ops := tmod s.ops op (fun o => { o with work := .fail 5 }) } else s
      | _ => s
    | none => s)

end Sys2Proof.Machine
end

