-- ==== Sys2Proof/Machine/Complete.lean ====
section
/-! DEFINITION. `TOKEN_COMPLETION` (R106-R108), with what an operation still does when it completes, and
`SIDE_LOG_REPLAY` (R286). -/

namespace Sys2Proof.Machine

/-! ### tinv (R340) -/

/-- PTEs of context c that a page invalidation of va drops, or may have been read through. -/
def State.pagesOf (s : State) (c va : Nat) : List Quad :=
  (s.tlb.filter (fun e => e.1 = c && pteCovers e.2 va)).map Prod.snd
    ++ (match s.walk c va with | .hit p => [p] | _ => [])

/-- The operations in progress that use a translation that a `tinv` drops: of a page, of a context, or any. -/
def State.tinvUsers (s : State) (c : Option Nat) (va : Option Nat) : List Nat :=
  (s.ops.filter (fun o =>
    (match tget s.teams o.2.team with | some tm => (match c with | some c => tm.ctx = c | none => true) | none => false) &&
    o.2.work.chunks.any (fun k => match k.at_ with
      | .mem _ _ p => (match va with | some v => pteCovers p v | none => true)
      | _ => false))).map Prod.fst

/-- Drops the translations of a page, of a context, or all of them, with the lines that L1 and the instruction buffers
hold through them. -/
def State.tinvDo (s : State) (c : Option Nat) (va : Option Nat) : State :=
  match c, va with
  | some c, some v => (s.pagesOf c v).foldl (fun s p => s.dropPage c (v / pteBytes p * pteBytes p) (pteBytes p)) s
  | some c, none =>
    { s with tlb := s.tlb.filter (fun e => e.1 ≠ c)
             cores := tmap s.cores (fun _ k => { k with l1 := k.l1.filter (fun l => l.ctx ≠ c), ibuf := k.ibuf.filter (fun l => l.ctx ≠ c) }) }
  | none, _ => { s with tlb := [], cores := tmap s.cores (fun _ k => { k with l1 := [], ibuf := [] }) }

/-- A `tinv` drops, and completes once the accesses that used what it dropped have (R340). -/
def State.tinvPerform (s : State) (id : Nat) (c : Option Nat) (va : Option Nat) : State :=
  let ids := s.tinvUsers c va
  let s := s.tinvDo c va
  if ids.isEmpty then s.opFinish id [] none else { s with ops := tmod s.ops id (fun o => { o with work := .drop ids }) }

/-! ### Exchanges (R431) -/

/-- The exchanges that complete in one clk with operation id: its partner, and those that R107 puts before either of
them; none when one of those is still waiting. -/
def State.exchSet (s : State) : Nat → List Nat → List Nat → Option (List Nat)
  | 0, _, acc => some acc
  | _ + 1, [], acc => some acc
  | n + 1, id :: todo, acc =>
    if acc.contains id then s.exchSet n todo acc
    else
      match tget s.ops id with
      | none => s.exchSet n todo acc
      | some o =>
        match o.work with
        | .both _ _ peer =>
          let before := s.ops.filter (fun p => decide (p.1 < id) && p.2.team = o.team && p.2.cunit = o.cunit
            && o.post.isSome && p.2.post = o.post)
          s.exchSet n (peer :: (before.map Prod.fst ++ todo)) (id :: acc)
        | .done _ | .fail _ => s.exchSet n todo (id :: acc)
        | _ => none

/-- Finishes operation id as its work says. -/
def State.finishKnown (s : State) (id : Nat) : State :=
  match tget s.ops id with
  | none => s
  | some o =>
    match o.work with
    | .done us => s.opFinish id us none
    | .fail c => s.opFinish id [] (some c)
    | .both us err _ => s.opFinish id us err
    | _ => s

/-- The core of an operation's team is being taken over by the spare (R427). -/
def State.movingOp (s : State) (o : Op) : Bool := (tget s.teams o.team).any (fun tm => s.takeoverDue tm.core)

/-- An exchange that has met its partner completes on both sides, once neither is spilled or moves to a spare (R395, R429). -/
def State.exchEnd (s : State) (id : Nat) : State :=
  match s.exchSet (4 * s.ops.length + 4) [id] [] with
  | none => s
  | some ids =>
    if s.ops.any (fun o => ids.contains o.1 && (s.spilledOp o.2 || s.movingOp o.2)) then s
    else (s.ops.filter (fun o => ids.contains o.1)).foldl (fun s o => s.finishKnown o.1) s

/-! ### TOKEN_COMPLETION -/

/-- A compare-and-swap whose comparison failed in every lane demotes its path, if that path still runs (R38). -/
def State.casDemote (s : State) (o : Op) : State :=
  match o.casPid, tget s.teams o.team with
  | some pid, some tm =>
    if tm.inH then s
    else if tm.p0.pid = pid ∧ !tm.p0.ended then (match s.demote o.team false with | .ok s => s | .error _ => s)
    else if tm.split ∧ tm.p1.pid = pid ∧ !tm.p1.ended then (match s.demote o.team true with | .ok s => s | .error _ => s)
    else s
  | _, _ => s

/-- The team as the accesses of operation id see it: those of a handler without the task of the path that it interrupted,
those of an attempt with its version whatever runs now, those issued before a task without it (R196, R203). -/
def Team.asOf (tm : Team) (id : Nat) (o : Op) : Team :=
  { tm with intr := if o.inH then tm.intr else none, task := if o.inH then none else tm.task.filter (fun k => k.firstOp ≤ id) }

/-- Performs what operation id of team tm still has to do, and finishes it. -/
def State.perform (s : State) (id : Nat) (o : Op) (tm : Team) : State :=
  match o.work with
  | .load via ty d n accs =>
    let (w, s) := s.doLoad (tm.asOf id o) via ty d n accs
    (match w with | .done us => s.opFinish id us none | .fail c => s.opFinish id [] (some c) | _ => s)
  | .store ws err => (s.performWrites tm.core tm.ctx ws).opFinish id [] err
  | .atom ty op m ftz d rs =>
    let (w, failed, s) := s.doAtom tm.core tm.ctx ty op m ftz d rs
    let s := match w with | .done us => s.opFinish id us none | .fail c => s.opFinish id [] (some c) | _ => s
    if failed then s.casDemote o else s
  | .pref .. | .cinv .. | .cwb .. => (s.cacheWork tm.core tm.ctx o.work).opFinish id [] none
  | .tinvPage c va => s.tinvPerform id (some c) (some va)
  | .tinvCtx c => s.tinvPerform id (some c) none
  | .tinvAll => s.tinvPerform id none none
  | .drop ids => if ids.any (fun n => (tget s.ops n).isSome) then s else s.opFinish id [] none
  | .done _ | .fail _ => (s.finishKnown id).casDemote o
  | .engine | .lbind .. | .txch .. | .both .. | .coll => s

/-- `TOKEN_COMPLETION` (R106): an operation issued in an earlier clk completes, when its unit's order (R107) and its
team's earlier accesses to the same bytes (R277) allow. -/
def execTokenCompletion (op : Nat) (s : State) : Host.Outcome State Fault Refusal :=
  answer (match tget s.ops op with
    | none => s
    | some o =>
      if s.clk ≤ o.at_ then s
      else
        match o.work, tget s.teams o.team with
        | .coll, _ => s.collStep op
        | .both .., _ => s.exchEnd op
        | w, some tm =>
          let held := (o.cunit = .resid || o.cunit = .coll || o.cunit = .tandem || o.cunit = .dec) && s.spilledOp o
          if !s.postOrder op || held || s.behind o.team op w.chunks then s
          else if s.unlinked tm w then s.opFinish op [] (some 4) else s.perform op o tm
        | _, none => { s with ops := tdel s.ops op })

/-- `SIDE_LOG_REPLAY` (R286): an entry whose line has no older entry is replayed at its home, or discarded. -/
def execSideLogReplay (core entry : Nat) (s : State) : Host.Outcome State Fault Refusal :=
  let side := (s.core core).side
  answer (match side.find? (fun e => e.id = entry) with
    | none => s
    | some e =>
      if side.any (fun y => y.ctx = e.ctx && y.vline = e.vline && y.id < e.id) || s.faulting e.ctx (e.vline * 128 / 4096) then s
      else s.replay core e)

end Sys2Proof.Machine
end

