-- ==== Sys2Proof/Machine/Control.lean ====
section
/-! DEFINITION. Issue, branches, calls, joins and EXM (R116, R117, R130-R137), `trap`, `brk`, `rti` (R404-R406). -/

namespace Sys2Proof.Machine

/-- `nop` (R116): its guard is not read. -/
def execNop (h : Hdr) (s : State) : Host.Outcome State Fault Refusal :=
  instr (.nop h) { h with g := ⟨false, 7⟩ } .issue [] (fun _ s => .issue s) s

/-- `dly` (R117). -/
def execDly (h : Hdr) (n : BitVec 19) (s : State) : Host.Outcome State Fault Refusal :=
  instr (.dly h n) h .issue [] (fun _ s => .delay s n.toNat) s

/-! ### Branches and calls (R130-R133) -/

/-- PC + 4 · sext(IMM, 64) (R53). -/
def X.target (x : X) (disp : BitVec 20) : BitVec 64 := x.p.pc + (disp.signExtend 64 <<< 2)

/-- Moves the path to pc. -/
def State.goTo (s : State) (x : X) (pc : BitVec 64) : State :=
  s.modTeam x.t (fun tm => tm.setPath x.f { tm.path x.f with pc := pc, hold := .free })

/-- A path that moves to `pc` by a taken branch. -/
def X.jump (x : X) (s : State) (pc : BitVec 64) : Res :=
  x.move s ((s.goTo x pc).tookBranch x.t x.f x.p.pc pc)

/-- A path that falls through. -/
def X.fall (x : X) (s : State) : Res := .moved (s.goTo x (x.p.pc + 12))

/-- Lanes of EXM where the guard's predicate is doubtful, under MODE.DTRAP (R130). -/
def X.doubt (x : X) : Mask := if mDtrap x.tm.mode then (x.tm.pred x.h.g.p.toNat).d &&& x.p.exm else 0

/-- The checks of R130 that every branch shares, and then its own. -/
def X.branch (x : X) (s : State) (k : State → Res) : Res :=
  if x.doubt ≠ 0 then .stop (s.breach x.t x.f 4 x.doubt ((lowest x.doubt).getD 0)) else k s

/-- The JOIN that a divergent branch opens: top(P), unused (R130). -/
def X.openJoin (x : X) (s : State) (k : Entry → Res) : Res :=
  match popView x.tm.split x.f x.tm.stack with
  | none => if 0 < x.tm.spill then .trap s .dstack 1 0 else .trap s .illconv 1 0
  | some (j, _, _) => if j.bad then x.stackErr s .ecc else if j.kind = .join ∧ !j.used then k j else .trap s .illconv 1 0

/-- A divergent branch may split the team (R123). -/
def Team.maySplit (tm : Team) : Bool :=
  !tm.split && !tm.stack.any (fun e => e.kind = .path) && tm.spill = 0 && !tm.inH

/-- The split of a team at a divergent `bra` (R131): fragment 0 falls through, fragment 1, the new path `pid`, is taken.
An EXM write in flight lands on both (R128). -/
def Team.splitAt (tm : Team) (pid : Nat) (j : Entry) (pc : BitVec 64) (n t : Mask) : Team :=
  let p := tm.p0
  let both (w : Pend) : List Pend := match w.act with
    | .upd (.exm _) => if w.pid = p.pid then [w, { w with pid := pid }] else [w]
    | _ => [w]
  { tm with split := true, pend := tm.pend.flatMap both
            stack := setTop false false { j with used := true, spl := true } tm.stack
            p0 := { p with pc := p.pc + 12, exm := n, pmask := n, hold := .free }
            p1 := { p with pid := pid, pc := pc, exm := t, pmask := t, hold := .free, spin := 0, demoted := false } }

/-- The serialised divergence of fragment f (R131, R132): the groups after the first wait as PATH entries. -/
def Team.serialise (tm : Team) (f : Bool) (j : Entry) (first : BitVec 64 × Mask) (rest : List (BitVec 64 × Mask)) : Team :=
  let tm := { tm with stack := setTop tm.split f { j with used := true } tm.stack }
  let tm := rest.reverse.foldl (fun tm g =>
    tm.push f { kind := .path, used := false, spl := false, frag := false, pc := toEntryPc g.1, mask := g.2, bad := false }) tm
  tm.setPath f { tm.path f with pc := first.1, exm := first.2, pmask := first.2, hold := .free }

/-- `bra` (R131). -/
def execBra (h : Hdr) (disp : BitVec 20) (s : State) : Host.Outcome State Fault Refusal :=
  answer (s.issue (.bra h disp) h .issue [] true false (fun x s =>
    x.branch s (fun s =>
      let target := x.target disp
      let t := x.e
      let n := x.p.exm &&& ~~~t
      if h.g = ⟨true, 7⟩ then x.fall s
      else if n = 0 then x.jump s target
      else if t = 0 then x.fall s
      else
        x.openJoin s (fun j =>
          if x.tm.maySplit then
            let s' := { s.modTeam x.t (fun tm => tm.splitAt s.nextPid j target n t) with nextPid := s.nextPid + 1 }
            x.move s (s'.tookBranch x.t true x.p.pc target)
          else if 32 ≤ x.tm.stack.length then .trap s .dstack 0 1
          else
            x.move s ((s.modTeam x.t (fun tm => tm.serialise x.f j (target, t) [(x.p.pc + 12, n)])).tookBranch
              x.t x.f x.p.pc target)))))

/-- Adds a lane to its group, the groups in ascending order of destination. -/
def addGroup (l : Nat) (pc : BitVec 64) : List (BitVec 64 × Mask) → List (BitVec 64 × Mask)
  | [] => [(pc, 1 <<< l)]
  | (q, m) :: gs =>
    if pc.toNat < q.toNat then (pc, 1 <<< l) :: (q, m) :: gs
    else if pc = q then (q, m ||| (1 <<< l)) :: gs
    else (q, m) :: addGroup l pc gs

/-- `brx` (R132). -/
def execBrx (h : Hdr) (a : Opnd) (s : State) : Host.Outcome State Fault Refusal :=
  answer (s.issue (.brx h a) h .issue (rd 2 a) true false (fun x s =>
    x.branch s (fun s =>
      let dst (l : Nat) : Nat := x.rd.wide a l
      match (lanesOf x.e).find? (fun l => dst l % 4 ≠ 0) with
      | some l => .trap s .align 0 (BitVec.ofNat 64 (dst l))
      | none =>
        let gs := (lanesOf x.p.exm).foldl (fun gs l =>
          addGroup l (if lane x.e l then BitVec.ofNat 64 (dst l) else x.p.pc + 12) gs) []
        match gs with
        | [] => x.fall s
        | [g] => x.jump s g.1
        | g :: gs =>
          x.openJoin s (fun j =>
            if 32 < x.tm.stack.length + gs.length then .trap s .dstack 0 (BitVec.ofNat 64 gs.length)
            else x.move s ((s.modTeam x.t (fun tm => tm.serialise x.f j g gs)).tookBranch x.t x.f x.p.pc g.1)))))

/-- A transfer of the whole path, or none of it (R133); `link` writes the return address to s62:s63. -/
def X.transfer (x : X) (s : State) (target : BitVec 64) (link : Bool) : Res :=
  if x.e = 0 then x.fall s
  else if target.toNat % 4 ≠ 0 then .trap s .align 0 target
  else if x.e ≠ x.p.exm then .trap s .illconv 3 0
  else
    let back := x.p.pc + 12
    let s' := if link then
        (s.landUpd x.t x.p.pid (.sca 62 (some (back.setWidth 32)) (some 0))).landUpd x.t x.p.pid
          (.sca 63 (some ((back >>> 32).setWidth 32)) (some 0))
      else s
    x.move s ((s'.goTo x target).tookBranch x.t x.f x.p.pc target)

/-- `call` (R133). -/
def execCall (h : Hdr) (disp : BitVec 20) (s : State) : Host.Outcome State Fault Refusal :=
  answer (s.issue (.call h disp) h .issue (wr 2 (.s 62)) true false (fun x s =>
    x.branch s (fun s => x.transfer s (x.target disp) true)) )

/-- `calx` (R133). -/
def execCalx (h : Hdr) (a : Opnd) (s : State) : Host.Outcome State Fault Refusal :=
  answer (s.issue (.calx h a) h .issue (wr 2 (.s 62) ++ rd 2 a) true false (fun x s =>
    x.branch s (fun s => x.transfer s (BitVec.ofNat 64 (x.rd.wide a 0)) true)))

/-- `ret` (R133). DESIGN CHOICE: TVAL of an UNDERWAIT of the implicit s62:s63 is the encoding of s62, here and in `call` and `calx`
(log entry 24). -/
def execRet (h : Hdr) (s : State) : Host.Outcome State Fault Refusal :=
  answer (s.issue (.ret h) h .issue (rd 2 (.s 62)) true false (fun x s =>
    x.transfer s (BitVec.ofNat 64 (x.rd.wide (.s 62) 0)) false))

/-! ### The return from a handler (R385, R406) -/

/-- path_end by the handler's own return, which acts outside an open task (R197, R203): no entry is below its reach. -/
def State.walkOut (s : State) (t : Nat) (f : Bool) : Except PErr State :=
  let stack (es : List Entry) (s : State) : State :=
    s.modTeam t (fun tm => { tm with task := tm.task.map (fun k => { k with stack := es }) })
  match (tget s.teams t).bind (fun tm => tm.task) with
  | some k => ((stack [] s).walkStack t f .ended).map (stack k.stack)
  | none => s.walkStack t f .ended

/-- The whole of `rti` for path P; `leaves` is a handler's `exit` that empties its EXM, which then ends P. -/
def X.handlerReturn (x : X) (s : State) (leaves : Bool) : Res :=
  let drained := !s.ops.any (fun o => o.2.team = x.t && o.2.inH)
  if x.tm.tepc.toNat % 4 ≠ 0 then .trap s .align 0 (x.tm.tepc.setWidth 64)
  else if x.stage = 0 then (if drained then x.hold s 1 [s.clk + 16] else x.hold s 0 [])
  else if s.clk < ((x.st.map (fun w => w.cap.headD 0)).getD 0) then x.hold s 1 ((x.st.map (fun w => w.cap)).getD [])
  else
    let cap := (x.st.map (fun w => w.cap)).getD []
    let (r, s') := s.readFrame x.tm ((x.st.map (fun w => w.fate)).getD .open)
    match r with
    | .hold page layer => x.holdOn s' 1 cap page.toList layer
    | .trap c k v => .trap s' c k (BitVec.ofNat 64 v)
    | .malformed => .stop (s'.haltTeam x.t x.f 0 0 14 0 (x.tm.tfr.setWidth 64) x.p.pc)
    | .got spill fexm stack =>
      let out := match x.tm.intr with | some y => if leaves then y.path.pmask else 0 | none => 0
      let s2 := s'.modTeam x.t (fun tm => tm.restore spill fexm stack out)
      match tget s2.teams x.t with
      | some tm => if (tm.path x.f).exm = 0 then x.move s' (s2.walkOut x.t x.f) else .moved s2
      | none => .moved s2

/-- `rti` (R406). -/
def execRti (h : Hdr) (s : State) : Host.Outcome State Fault Refusal :=
  instr (.rti h) h .issue [] (fun x s => if x.tm.inH then x.handlerReturn s false else .trap s .priv 2 0) s

/-! ### exit, rcv and rjoin (R134-R136) -/

/-- `exit` (R134, R385). An instruction that leaves EXM as it stands does nothing. -/
def execExit (h : Hdr) (s : State) : Host.Outcome State Fault Refusal :=
  answer (s.issue (.exit h) h .issue [] true true (fun x s =>
    let m := x.p.exm &&& ~~~x.e
    if x.e = 0 ∧ m ≠ 0 then .issue s
    else if x.tm.inTask.isSome then .trap (s.modTeam x.t Team.abortTask) .taskop 0 0
    else if m = 0 ∧ x.tm.inH then x.handlerReturn s true
    else
      let out := x.e ||| (if m = 0 then x.p.pmask else 0)
      let s' := s.modTeam x.t (fun tm => { tm.setPath x.f { tm.path x.f with exm := m } with exited := tm.exited ||| out })
      if m ≠ 0 then .issue s' else x.move s (s'.walkStack x.t x.f .ended)))

/-- `rcv` (R135). -/
def execRcv (h : Hdr) (disp : BitVec 20) (s : State) : Host.Outcome State Fault Refusal :=
  instr (.rcv h disp) h .issue [] (fun x s =>
    if 32 ≤ x.tm.stack.length then .trap s .dstack 0 1
    else
      .issue (s.modTeam x.t (fun tm => tm.push x.f
        { kind := .join, used := false, spl := false, frag := false, pc := toEntryPc (x.target disp)
          mask := x.p.pmask &&& ~~~tm.exited, bad := false }))) s

/-- The sibling of fragment f waits at the split JOIN, or has ended. -/
def X.siblingDone (x : X) : Bool := (x.tm.path (!x.f)).ended || (x.tm.path (!x.f)).atJoin

/-- `rjoin` and `rjoin.to` (R136): `tmo` is the timeout of the timed form, `d` its predicate. -/
def X.join (x : X) (s : State) (d : Option (BitVec 3)) (tmo : Nat) : Res :=
  match x.st with
  | some w =>
    if x.siblingDone then x.move s (s.walkStack x.t x.f .fuse)
    else match d with
      | some d =>
        if w.cap.headD 0 ≤ s.rt - w.rt0 then .issue (s.landUpd x.t x.p.pid (.prd d.toNat x.p.exm x.p.exm 0))
        else x.hold s 0 w.cap
      | none => x.hold s 0 w.cap
  | none =>
    match (viewOf x.tm.split x.f x.tm.stack).find? (fun e => e.kind = .join), popView x.tm.split x.f x.tm.stack with
    | some j, some (e, rest, ix) =>
      let s' := s.modTeam x.t (fun tm => { tm with stack := rest })
      if e.bad || j.bad then x.stackErr s .ecc
      else if ofEntryPc j.pc ≠ x.p.pc then .trap s .illconv 2 0
      else if e.kind = .path then
        (if x.tm.mayPop ix then x.move s (s'.walkStack x.t x.f (.run (ofEntryPc e.pc) e.mask false)) else x.stackErr s .stack)
      else if !e.spl then
        (if x.tm.mayPop ix then x.move s (s'.walkStack x.t x.f (.join e true)) else x.stackErr s .stack)
      else if x.siblingDone then x.move s (s.walkStack x.t x.f .fuse)
      else x.hold s 0 [tmo]
    | _, _ => if 0 < x.tm.spill then .trap s .dstack 1 0 else .trap s .illconv 1 0

/-- `rjoin` (R136). -/
def execRjoin (h : Hdr) (s : State) : Host.Outcome State Fault Refusal :=
  answer (s.issue (.rjoin h) h .issue [] true false (fun x s => x.join s none 0))

/-- `rjoin.to` (R136). -/
def execRjoinTo (h : Hdr) (d : BitVec 3) (a : Opnd) (s : State) : Host.Outcome State Fault Refusal :=
  answer (s.issue (.rjoinTo h d a) h .issue (wrPred d ++ rd 1 a) true false
    (fun x s => x.join s (some d) (x.rd.int a false 0).x))

/-! ### exm (R137) -/

/-- The mask that `exm.rd` selects. -/
def X.selMask (x : X) (w : BitVec 8) : Mask :=
  if w = 0 then x.p.exm else if w = 1 then x.p.pmask &&& ~~~x.tm.exited else x.tm.exited

/-- `exm.rd` (R137). -/
def execExmRd (h : Hdr) (d : Opnd) (w : BitVec 8) (s : State) : Host.Outcome State Fault Refusal :=
  instr (.exmRd h d w) h (.fixed 4) (wr 2 d ++ (if w = 0 then rd 1 (.x .exm) else []))
    (vecOp d true (fun x _ => ⟨(x.selMask w).toNat, 0⟩)) s

/-- A write form of `exm`. DEDUCED: under MODE.CHK its old EXM is a source where the new value depends on it, with TVAL 0x300 (log
entry 24). -/
def exmWrite (i : Instr) (h : Hdr) (a : Opnd) (old : Bool) (f : Mask → Mask → Mask) (s : State) :
    Host.Outcome State Fault Refusal :=
  instr i h (.fixed 4) (rd 2 a ++ (if old then rd 1 (.x .exm) else []))
    (fun x s => .fixed s [.exm (f x.p.exm (BitVec.ofNat 64 (x.rd.wide a 0)))]) s

/-- `exm.wr` (R137). -/
def execExmWr (h : Hdr) (a : Opnd) (s : State) : Host.Outcome State Fault Refusal :=
  exmWrite (.exmWr h a) h a false (fun _ v => v) s
/-- `exm.and` (R137). -/
def execExmAnd (h : Hdr) (a : Opnd) (s : State) : Host.Outcome State Fault Refusal :=
  exmWrite (.exmAnd h a) h a true (fun e v => e &&& v) s
/-- `exm.or` (R137). -/
def execExmOr (h : Hdr) (a : Opnd) (s : State) : Host.Outcome State Fault Refusal :=
  exmWrite (.exmOr h a) h a true (fun e v => e ||| v) s

/-! ### trap and brk (R404, R405) -/

/-- `trap` (R404). -/
def execTrap (h : Hdr) (imm : BitVec 20) (s : State) : Host.Outcome State Fault Refusal :=
  instr (.trap h imm) h .issue [] (fun _ s => .trap s .trap 0 (imm.signExtend 64)) s

/-- `brk` (R405): it completes as an Issue-class instruction, STALL and POST included (R49, R106), and its team halters. -/
def execBrk (h : Hdr) (imm : BitVec 20) (s : State) : Host.Outcome State Fault Refusal :=
  instr (.brk h imm) h .issue [] (fun x s =>
    .stop ((((s.advance x 0).postAt x (s.clk + 2)).modTeam x.t (fun tm => { tm with tval := imm.signExtend 64 })).haltTeam
      x.t x.f 2 0 0 0 (imm.signExtend 64) (x.p.pc + 12))) s

end Sys2Proof.Machine
end

