-- ==== Sys2Proof/Machine/Expiry.lean ====
section
/-! DEFINITION. The end of a fragment's countdowns and holds: expiries of STALL and `dly` (R101, R117), of `rjoin.to`
(R136) and `waitc` (R324), re-activation of a `yield` (R325), and the timeout of a held load (R354). -/

namespace Sys2Proof.Machine

/-- Fragment f of team t, if it is running. -/
def State.runningPath (s : State) (t : Nat) (f : Bool) : Option (Team × Path) :=
  match tget s.teams t with
  | some tm => if tm.runs f then some (tm, tm.path f) else none
  | none => none

/-- Ends a countdown that has run out. -/
def State.cdEnd (s : State) (t : Nat) (f dly : Bool) : State :=
  match s.runningPath t f with
  | some (_, p) =>
    let out : Bool := match p.cd with
      | .stall n => !dly && decide (n ≤ s.clk)
      | .dly n => dly && decide (n ≤ s.clk)
      | _ => false
    if out then s.modTeam t (fun tm => tm.setPath f { tm.path f with cd := .none }) else s
  | none => s

/-- `DLY_EXPIRY` (R117). -/
def execDlyExpiry (team : Nat) (f : Bool) (s : State) : Host.Outcome State Fault Refusal := answer (s.cdEnd team f true)
/-- `STALL_EXPIRY` (R101). -/
def execStallExpiry (team : Nat) (f : Bool) (s : State) : Host.Outcome State Fault Refusal := answer (s.cdEnd team f false)

/-- Goes on with the instruction that holds fragment f of team t, where `k` knows it. -/
def State.resumeHeld (s : State) (t : Nat) (f : Bool) (k : Instr → Option (State → Host.Outcome State Fault Refusal)) :
    Host.Outcome State Fault Refusal :=
  match s.runningPath t f with
  | some (_, p) =>
    match p.hold with
    | .inside i _ _ _ _ _ _ _ =>
      match k i with
      | some g => g { s with cur := some (t, f, false) }
      | none => answer s
    | _ => answer s
  | none => answer s

/-- The timer of the held `rjoin.to` of path f has run out in an earlier clk: in the clk of expiry the sibling may still
arrive, and the end of that clk decides (R136). -/
def State.joinPast (s : State) (team : Nat) (f : Bool) : Bool :=
  match s.runningPath team f with
  | some (_, p) => (match p.hold with | .inside _ c0 r0 cap _ _ _ _ => s.pastTmo c0 r0 (cap.getD 1 0) | _ => false)
  | none => false

/-- `RJOIN_TIMEOUT_EXPIRY` (R136): the held `rjoin.to` is looked at again. -/
def execRjoinTimeoutExpiry (team : Nat) (f : Bool) (s : State) : Host.Outcome State Fault Refusal :=
  if s.joinPast team f then
    s.resumeHeld team f (fun i => match i with | .rjoinTo h d a => some (execRjoinTo h d a) | _ => none)
  else answer s
/-- `YIELD_REACTIVATION` (R325): the conditions of a held `yield` are evaluated. -/
def execYieldReactivation (team : Nat) (f : Bool) (s : State) : Host.Outcome State Fault Refusal :=
  s.resumeHeld team f (fun i => match i with | .yield h a n disp => some (execYield h a n disp) | _ => none)
/-- The conditions and the timer of a held `waitc` are looked at. -/
def State.waitcAgain (s : State) (team : Nat) (f : Bool) : Host.Outcome State Fault Refusal :=
  s.resumeHeld team f (fun i => match i with
    | .waitcAny h d a b n => some (execWaitcAny h d a b n)
    | .waitcAll h d a b n => some (execWaitcAll h d a b n)
    | _ => none)
/-- `WAITC_SATISFIED` (R324). -/
def execWaitcSatisfied (team : Nat) (f : Bool) (s : State) : Host.Outcome State Fault Refusal := s.waitcAgain team f
/-- `WAITC_TIMEOUT_EXPIRY` (R312, R324). -/
def execWaitcTimeoutExpiry (team : Nat) (f : Bool) (s : State) : Host.Outcome State Fault Refusal := s.waitcAgain team f

/-- A hold on a layer of context c that has lasted HTMO, by its start (R354). The arrival wins in the clk of expiry. -/
def State.holdPast (s : State) (c clk0 rt0 : Nat) (layer : Option Nat) (fate : Fate) : Bool :=
  match layer with
  | none => false
  | some l =>
    fate = .open && s.htmo c ≠ 0 && s.pastTmo clk0 rt0 (s.htmo c)
      && ((s.layerOf c l).map (fun y => decide (y.st = .arriving ∨ y.st = .absent))).getD false

/-- The hold of a path of context c, with its timeout if that has come. -/
def State.timeHold (s : State) (c : Nat) (h : Hold) : Hold :=
  match h with
  | .inside i c0 r0 cap st pg ly ft => if s.holdPast c c0 r0 ly ft then .inside i c0 r0 cap st pg ly .timeout else h
  | .fetch r0 pg ly ft => if s.holdPast c 0 r0 ly ft then .fetch r0 pg ly .timeout else h
  | .free => h

/-- `LOAD_HOLD_TIMEOUT` (R354): the hold has timed out; its instruction raises SWAPF TIMEOUT as it goes on. -/
def execLoadHoldTimeout (team : Nat) (f : Bool) (s : State) : Host.Outcome State Fault Refusal :=
  answer (s.modTeam team (fun tm => tm.setPath f { tm.path f with hold := s.timeHold tm.ctx (tm.path f).hold }))

end Sys2Proof.Machine
end

