-- ==== Sys2Proof/Machine/Dcz.lean ====
section
/-! DEFINITION. The decompression engine (R302-R306, R319). -/

namespace Sys2Proof.Machine

/-! ### The ring word (R302) -/

def ringEbid (r : Dword) : Nat := bitsOf r.toNat 44 4
def ringFbid (r : Dword) : Nat := bitsOf r.toNat 40 4
def ringSlots (r : Dword) : Nat := bitsOf r.toNat 36 4 + 1
def ringSlot (r : Dword) : Nat := (bitsOf r.toNat 19 12 + 1) * 128
def ringBase (r : Dword) : Nat := bitsOf r.toNat 0 19
/-- A reserved bit is set, the two barriers are one, or one of them is not declared. -/
def ringBad (r : Dword) (nbar : Nat) : Bool :=
  bitsOf r.toNat 48 16 ≠ 0 || bitsOf r.toNat 31 5 ≠ 0 || ringEbid r = ringFbid r
    || decide (nbar ≤ ringEbid r) || decide (nbar ≤ ringFbid r)

/-- Streams of the context, those of this clk with them. -/
def DecCtxt.load (d : DecCtxt) : Nat := d.streams.length + d.newq.length

/-- `dcz` (R319). -/
def execDcz (h : Hdr) (d a : Opnd) (s : State) : Host.Outcome State Fault Refusal :=
  answer (s.issue (.dcz h d a) h (.token .dec) (rd 2 d ++ rd 2 a) false true (fun x s =>
    let r : Dword := BitVec.ofNat 64 (match x.st with | some w => w.cap.headD 0 | none => x.rd.wide d 0)
    let v := match x.st with | some w => w.cap.getD 1 0 | none => x.rd.wide a 0
    match s.group x.tm.group with
    | none => x.hold s 0 [r.toNat, v]
    | some g =>
      if ringBad r g.nbar then badField s 5 r.toNat
      else if g.alloc < ringBase r + ringSlots r * ringSlot r then
        .trap s .xlat 1 (BitVec.ofNat 64 (0xFF00000000000000 + max (ringBase r) g.alloc))
      else if 2 ^ 56 ≤ v then .trap s .xlat 0 (BitVec.ofNat 64 v)
      else if ringBase r % 128 ≠ 0 then .trap s .align 0 (BitVec.ofNat 64 (ringBase r))
      else if v % 16 ≠ 0 then .trap s .align 0 (BitVec.ofNat 64 v)
      else if 64 ≤ g.dec.load then x.hold s 0 [r.toNat, v]
      else
        let st : Stream := { num := 0, op := x.opNum s, ring := r, next := v, blk := 0, p0 := none
                             page := none, layer := none, fate := .open }
        let s := s.modGroup x.tm.group (fun g => { g with dec := { g.dec with newq := g.dec.newq ++ [(x.tm.quad, st)] } })
        .token s (x.op s .dec [] .engine)))

/-- The streams of a clk take their numbers, in ascending quadrant order (R296, R305). -/
def DecCtxt.acceptAll (d : DecCtxt) : DecCtxt :=
  (d.newq.foldl (fun q x => byQuad x q) []).foldl (fun d x =>
    { d with acc := d.acc + 1, streams := d.streams ++ [{ x.2 with num := d.acc + 1 }] }) { d with newq := [] }

/-- The engine commands that were issued in this clk are accepted (R296). -/
def State.acceptAll (s : State) : State :=
  { s with groups := tmap s.groups (fun _ g => { g with copy := g.copy.acceptAll, dec := g.dec.acceptAll }) }

/-! ### Block headers (R303) -/

def hdrCrc (n : Nat) : Word := BitVec.ofNat 32 (bitsOf n 64 32)
def hdrIn (n : Nat) : Nat := bitsOf n 32 32
def hdrOut (n : Nat) : Nat := bitsOf n 0 20
def hdrStored (n : Nat) : Bool := n.testBit 25
def hdrLast (n : Nat) : Bool := n.testBit 24
/-- HEADER of R306. -/
def hdrBad (n slot : Nat) : Bool :=
  bitsOf n 96 32 ≠ 0 || bitsOf n 26 6 ≠ 0 || bitsOf n 20 4 ≠ 0
    || hdrOut n = 0 || decide (slot < hdrOut n) || hdrIn n = 0 || decide (2 ^ 21 < hdrIn n)
    || (hdrStored n && hdrIn n ≠ hdrOut n) || (!hdrStored n && decide (hdrIn n < 128))

/-! ### Huffman codes (R304) -/

/-- The code length of symbol s. -/
def codeLen (pay : List Byte) (s : Nat) : Nat :=
  let b := (pay.getD (s / 2) 0).toNat
  if s % 2 = 0 then b % 16 else b / 16

/-- Symbols in order of length, then of value. -/
def codeSyms (pay : List Byte) : List (Nat × Nat) :=
  (List.range 15).flatMap (fun l => ((List.range 256).filter (fun s => codeLen pay s = l + 1)).map (fun s => (l + 1, s)))

/-- Canonical codes: (length, code, symbol). -/
def codesFrom : Nat → Nat → List (Nat × Nat) → List (Nat × Nat × Nat)
  | _, _, [] => []
  | code, len, (l, s) :: r =>
    let c := code * 2 ^ (l - len)
    (l, c, s) :: codesFrom (c + 1) l r

def codeTable (pay : List Byte) : List (Nat × Nat × Nat) := codesFrom 0 0 (codeSyms pay)

/-- TABLE of R306: no code, or an over-full set of lengths. -/
def tableBad (syms : List (Nat × Nat)) : Bool :=
  syms.isEmpty || decide (2 ^ 15 < syms.foldl (fun n e => n + 2 ^ (15 - e.1)) 0)

/-- The bits of bytes, from bit 0 of each byte upward. -/
def bitsOfBytes (bs : List Byte) : List Bool := bs.flatMap (fun b => (List.range 8).map b.getLsbD)

/-- Decodes n symbols: the bytes, and the DERR code that stopped it. -/
def huff (tab : List (Nat × Nat × Nat)) : List Bool → Nat → Nat → Nat → List Byte × Nat
  | _, 0, _, _ => ([], 0)
  | [], _ + 1, _, _ => ([], 5)
  | b :: bs, n + 1, len, code =>
    let c := 2 * code + b.toNat
    match tab.find? (fun e => e.1 = len + 1 && e.2.1 = c) with
    | some e => let (r, k) := huff tab bs n 0 0; (BitVec.ofNat 8 e.2.2 :: r, k)
    | none => if len + 1 = 15 then ([], 4) else huff tab bs (n + 1) (len + 1) c

/-- The bytes that a block decodes to, and its DERR code (R304, R306). -/
def decodeBlock (h : Nat) (pay : List Byte) : List Byte × Nat :=
  if hdrStored h then (pay.take (hdrOut h), 0)
  else
    let syms := codeSyms pay
    if tableBad syms then ([], 3) else huff (codesFrom 0 0 syms) (bitsOfBytes (pay.drop 128)) (hdrOut h) 0 0

/-! ### Blocks (R305) -/

/-- Changes the first stream of group g. -/
def State.modStream (s : State) (g : Nat) (f : Stream → Stream) : State :=
  s.modGroup g (fun x => { x with dec := { x.dec with streams := match x.dec.streams with | [] => [] | a :: r => f a :: r } })

/-- The stream ends (R305). -/
def State.streamEnd (s : State) (g : Nat) (st : Stream) (err : Option Nat) (derr : Nat) : State :=
  let s := s.modGroup g (fun x => { x with dec := { x.dec with
    streams := x.dec.streams.filter (fun y => y.num ≠ st.num), tl := st.num
    lfop := if err.isSome then st.num else x.dec.lfop
    lcause := err.getD x.dec.lcause, derr := if err.isSome then derr else x.dec.derr } })
  s.engineEnd st.op err

/-- A block ends: its bytes are written to the slot, the engine arrives at FULL, and the stream goes on or ends. -/
def State.blockEnd (s : State) (g : Nat) (st : Stream) (out : List Byte) (err : Option Nat) (derr : Nat) (last : Bool)
    (next : Nat) : State :=
  let slot := ringBase st.ring + st.blk % ringSlots st.ring * ringSlot st.ring
  let s := s.scrSet g slot out
  let s := s.modGroup g (fun x => x.modBar (ringFbid st.ring) (fun b =>
    (b.bytes s.clk out.length).arrive ⟨s.clk, none, false, err⟩))
  let s := s.modGroup g (fun x => { x with dec := { x.dec with at_ := s.clk, blk := st.blk + (if out.isEmpty then 0 else 1) } })
  let st := { st with blk := st.blk + 1, next := next }
  if err.isSome ∨ last then s.streamEnd g st err derr
  else s.modStream g (fun _ => { st with page := none, layer := none, fate := .open })

/-- Reads n bytes of a stream; `k` goes on with them. -/
def State.dczRead (s : State) (g : Nat) (st : Stream) (c core va n : Nat) (k : List EByte → State → State) : State :=
  let (r, _, s) := s.engResolve c g false [] (engRuns va n)
  match r with
  | .ok ks => let (bs, s) := s.engReadAll (some c) ks; k bs s
  | .error (va, l) =>
    match s.engBad c 3 core va l with
    | (.hold p y, s) => s.modStream g (fun _ => { st with page := p, layer := y, fate := .open })
    | (.fail e, s) => s.blockEnd g st [] (some e) 0 false st.next

/-- One block of a stream whose back-pressure is satisfied. A hold that has its fate ends it (R300). -/
def State.dczBlock (s : State) (g : Nat) (st : Stream) (c core : Nat) : State :=
  match st.fate.engFail 6 with
  | some e => s.blockEnd g st [] (some e) 0 false st.next
  | none => s.dczRead g st c core st.next 16 (fun hb s =>
    if hb.any (fun b => b.bad) then s.blockEnd g st [] (some 1) 0 false st.next
    else
      let h := ofBytes (hb.map (fun b => b.x))
      if hdrBad h (ringSlot st.ring) then s.blockEnd g st [] (some 3) 2 false st.next
      else
        s.dczRead g st c core (st.next + 16) (hdrIn h) (fun pb s =>
          if pb.any (fun b => b.bad) then s.blockEnd g st [] (some 1) 0 false st.next
          else
            let next := alignUp (st.next + 16 + hdrIn h) 16
            let (out, derr) := decodeBlock h (pb.map (fun b => b.x))
            let derr := if derr = 0 ∧ crc32c out ≠ hdrCrc h then 1 else derr
            s.blockEnd g st out (if derr = 0 then none else some 3) derr (hdrLast h) next))

/-- The phase of barrier n of a group. -/
def Group.phase (g : Group) (n : Nat) : BitVec 16 := ((tget g.bars n).map (fun b => b.ph)).getD 0

/-- `DCZ_BLOCK` (R305): the oldest stream of a group samples EMPTY as it starts, and goes on by one block once a slot is
free. -/
def execDczBlock (group : Nat) (s : State) : Host.Outcome State Fault Refusal :=
  answer (match s.group group with
    | none => s
    | some g =>
      match g.dec.streams with
      | [] => s
      | st :: _ =>
        let young := match tget s.ops st.op with | some o => decide (s.clk ≤ o.at_) | none => false
        if g.dec.halted || g.dec.susp || g.spilled || young || decide (s.clk ≤ g.dec.at_) || (st.page.map (s.faulting g.ctx)).getD false then s
        else
          let now := g.phase (ringEbid st.ring)
          let p0 := st.p0.getD now
          let s := if st.p0.isNone then s.modGroup group (fun g => { g with dec := { g.dec with blk := 0 } }) else s
          let st := { st with p0 := some p0 }
          let n := ringSlots st.ring
          if n ≤ st.blk ∧ (now - p0).toNat < st.blk - n + 1 then s.modStream group (fun _ => st)
          else s.dczBlock group st g.ctx g.core)

end Sys2Proof.Machine
end

