-- ==== Sys2Proof/Machine/Launch.lean ====
section
/-! DEFINITION. Launches: level words (R19-R22), launch records and their checks (R370, R371), curve order (R373), and
the distributor (R25-R29, R374, R422-R424), with the creation of groups and teams (R86, R120, R308, R383). -/

namespace Sys2Proof.Machine

/-! ### Level words (R19-R21) -/

def lvDim (w : Word) : Nat := w.toNat % 2 ^ 24 + 1
def lvDom (w : Word) : Nat := bitsOf w.toNat 24 3
def lvScope (w : Word) : Nat := bitsOf w.toNat 27 3
def lvGang (w : Word) : Bool := w.getLsbD 30

/-- top(D) of R20. -/
def topOf (lv : List Word) (d : Nat) : Option Nat :=
  ((List.range lv.length).filter (fun k => lvDom (lv.getD k 0) = d)).getLast?

/-- The product of DIMk over a ≤ k < b. -/
def dimsOf (lv : List Word) (a b : Nat) : Nat := prodDims (((lv.drop a).take (b - a)).map lvDim)

/-- Some DOM is below the one before it. -/
def domsFall : List Word → Bool
  | a :: b :: r => decide (lvDom b < lvDom a) || domsFall (b :: r)
  | _ => false

/-- SCOPE of a level is legal (R18, R21). -/
def lvScopeOk (w : Word) : Bool :=
  let d := lvDom w
  let n := d - 1
  if d = 0 ∨ d = 1 ∨ d = 5 then decide (lvScope w = n) else decide (n ≤ lvScope w ∧ lvScope w ≤ 4)

/-- The conditions of R21; `all` is the eight level words, `stacks` the present stacks that the affinity mask names. -/
def levelsOk (all : List Word) (nlv stks : Nat) : Bool :=
  let lv := all.take nlv
  (all.drop nlv).all (· = 0) && lv.all (fun w => !w.getLsbD 31 && decide (lvDom w ≤ 5) && lvScopeOk w)
    && (lv.head?).any (fun w => lvDom w = 0) && !domsFall lv
    && (match topOf lv 1, topOf lv 2 with
        | some tt, some tg =>
          let teams := dimsOf lv tt tg
          dimsOf lv 0 tt = 64 && decide (1 ≤ teams ∧ teams ≤ 256)
            && (match topOf lv 3 with | none => true | some k => decide (dimsOf lv tg k ≤ 4))
            && (match topOf lv 4 with | none => true | some k => decide (dimsOf lv k nlv ≤ stks))
            && (match topOf lv 5 with | none => true | some k => dimsOf lv k nlv = 1)
            && decide (dimsOf lv 0 nlv ≤ 2 ^ 40)
        | _, _ => false)

/-- The group partition levels, from the highest (R20, R308). -/
def partsOf (lv : List Word) : List Nat :=
  match topOf lv 2 with
  | none => []
  | some tg => ((List.range tg).filter (fun k => lvDom (lv.getD k 0) = 2)).reverse

/-- EXP of the level barriers of a group, from barrier 0 (R308). -/
def levelExps (lv : List Word) (teams : Nat) : List Nat :=
  match topOf lv 2 with
  | none => []
  | some tg => teams :: (partsOf lv).flatMap (fun k => let q := dimsOf lv k tg; List.replicate q (teams / q))

/-! ### What a launch's level words give -/

def Launch.top (x : Launch) (d : Nat) : Nat := (topOf x.levels d).getD 0
/-- Teams per group. -/
def Launch.teams (x : Launch) : Nat := dimsOf x.levels (x.top 1) (x.top 2)
/-- Groups per cluster; 1 without a cluster level. -/
def Launch.perCluster (x : Launch) : Nat := match topOf x.levels 3 with | none => 1 | some k => dimsOf x.levels (x.top 2) k
/-- Groups per stack instance, when there is a stack level. -/
def Launch.perStack (x : Launch) : Option Nat := (topOf x.levels 4).map (fun k => dimsOf x.levels (x.top 2) k)
/-- Groups per gang instance, when a gang level governs (R28). -/
def Launch.perGang (x : Launch) : Option Nat :=
  match ((List.range x.levels.length).filter (fun k => lvGang (x.levels.getD k 0))).getLast? with
  | some k => if 4 ≤ lvDom (x.levels.getD k 0) then some (dimsOf x.levels (x.top 2) k) else none
  | none => none

/-! ### Curve order (R373) -/

/-- The bits of x at the even positions, those of y at the odd ones. -/
def morton : Nat → Nat → Nat → Nat
  | 0, _, _ => 0
  | n + 1, x, y => x % 2 + 2 * (y % 2) + 4 * morton n (x / 2) (y / 2)

/-- One turn of `hilbert_d`; s = 2^(i-1). -/
def hilbertLoop (k : Nat) : Nat → Nat → Nat → Nat → Nat
  | 0, _, _, d => d
  | i + 1, x, y, d =>
    let rx := x.testBit i
    let ry := y.testBit i
    let d := d + 2 ^ i * 2 ^ i * ((3 * rx.toNat) ^^^ ry.toNat)
    if ry then hilbertLoop k i x y d
    else if rx then hilbertLoop k i (2 ^ k - 1 - y) (2 ^ k - 1 - x) d
    else hilbertLoop k i y x d

/-- The least k with n ≤ 2^k. -/
def log2Up (n : Nat) : Nat := ((List.range 64).find? (fun k => n ≤ 2 ^ k)).getD 64

/-- The key of g among n groups or clusters, for grid width w. -/
def curveKey (curve w n : Nat) (tab : List Byte) (g : Nat) : Nat :=
  let x := g % w
  let y := g / w
  match curve with
  | 0 => g
  | 1 => morton 40 x y
  | 2 => let k := log2Up (max w (ceilDiv n w)); hilbertLoop k k x y 0
  | _ => 256 * (g / 256) + (tab.findIdx (fun b => b.toNat = g % 256))

def insertKey (key : Nat → Nat) (x : Nat) : List Nat → List Nat
  | [] => [x]
  | y :: r => if key x ≤ key y then x :: y :: r else y :: insertKey key x r

/-- 0 to n - 1 in ascending order of a key. -/
def sortedBy (key : Nat → Nat) (n : Nat) : List Nat := (List.range n).foldr (insertKey key) []

/-! ### Room on a core (R25, R26) -/

/-- Groups in the active bank of a core. -/
def State.bankGroups (s : State) (core : Nat) : List (Nat × Group) :=
  s.groups.filter (fun g => g.2.core = core && !g.2.spilled && g.2.bank = (s.core core).act)

/-- Teams of a quadrant of the active bank. -/
def State.quadTeams (s : State) (core q : Nat) : List Team :=
  ((s.teams.map Prod.snd).filter (fun t => t.core = core && t.quad = q
    && ((tget s.groups t.group).map (fun g => !g.spilled && g.bank = (s.core core).act)).getD false))

/-- A group of the launch fits the core as it stands. -/
def State.fits (s : State) (core : Nat) (x : Launch) : Bool :=
  let half := if (s.core core).shadow then 2 else 1
  let gs := s.bankGroups core
  decide (gs.length < 64 / half) && decide (foldOver gs 0 (fun n g => n + g.2.alloc) + x.scr ≤ 2 ^ 19 / half)
    && (List.range 4).all (fun q =>
      let ts := s.quadTeams core q
      let c := (x.teams + 3 - q) / 4
      decide (foldOver ts 0 (fun n t => n + t.nRegs) + c * x.nRegs ≤ 2048 / half) && decide (ts.length + c ≤ 64 / half))

/-- The machine with no group on any core, every allowed stack ready (R27, R29). -/
def State.emptied (s : State) : State :=
  { s with groups := [], teams := [], wide := [], placeAt := []
           stks := tmap s.stks (fun _ c => { c with vrdy := !c.vrst })
           cores := tmap s.cores (fun _ c => { c with bank := .idle }) }

/-- A stack is allowed: present, named by the mask, its V die not held in reset (R27, R422). -/
def State.allowed (s : State) (aff st : Nat) : Bool := s.present st && aff.testBit st && !(s.stack st).vrst

/-- The cores that may take groups of a launch now, in the cyclic order of R374; `only` names one stack, `shut` lists
stacks that a gang holds (R29). -/
def State.coresFor (s : State) (x : Launch) (only : Option Nat) (shut : List Nat) : List Nat :=
  let ok (n : Nat) : Bool := s.allowed x.aff (n / 16) && (s.stack (n / 16)).vrdy && !shut.contains (n / 16)
    && (match only with | some k => decide (n / 16 = k) | none => true)
    && (match (s.core n).bank with | .swap _ => false | _ => true) && !s.takeoverDue n
  let all := (List.range 128).filter ok
  all.filter (fun n => x.lastCore ≤ n) ++ all.filter (fun n => n < x.lastCore)

/-! ### Creation (R33, R86, R120, R308, R383) -/

def CopyCtx.atReset : CopyCtx where
  newq := []
  acc := 0
  tl := 0
  fin := []
  cmds := []
  lfop := 0
  lcause := 0
  chn := false
  chain := 0
  chains := []
  halted := false

def DecCtxt.atReset : DecCtxt where
  newq := []
  acc := 0
  tl := 0
  streams := []
  lfop := 0
  lcause := 0
  derr := 0
  blk := 0
  at_ := 0
  susp := false
  halted := false

/-- The barriers of a group: its level barriers, then the free ones. -/
def Launch.bars (x : Launch) : Tbl Barrier :=
  let es := levelExps x.levels x.teams
  (List.range x.nbar).map (fun n => (n, Barrier.fresh (es.getD n x.teams)))

/-- A path at creation; with `wait`, it issues only when the other groups of its cluster are placed, so many clk later
(R18, R374; log entry 22). -/
def Path.fresh (pid : Nat) (pc : Nat) (clk wait : Nat) (ended : Bool) : Path where
  pid := pid
  pc := BitVec.ofNat 64 pc
  exm := if ended then 0 else allLanes
  pmask := if ended then 0 else allLanes
  cd := if wait = 0 then .none else .stall (clk + wait)
  hold := .free
  claim := none
  spin := 0
  demoted := false
  lastIssue := clk
  ended := ended

/-- MODELID (R31). -/
def State.modelid (s : State) (c : Nat) : Word :=
  match tget s.models c with
  | some m => BitVec.ofNat 32 (2 ^ 31 + m.mnum)
  | none => 0

/-- The first free team slot of a quadrant. -/
def State.freeSlot (s : State) (core q : Nat) : Nat :=
  let c := s.core core
  let base := if c.shadow && c.act then 32 else 0
  ((List.range 64).find? (fun j => !(s.quadTeams core q).any (fun t => t.slot = base + j))).getD 0 + base

/-- Team t of group gid, the launch's group g, as it is created on a core. -/
def State.newTeam (s : State) (l : Nat) (x : Launch) (gid g core wait t : Nat) : Team :=
  let tt := x.top 1
  let tg := x.top 2
  let linear := g * x.teams + t
  let dims := (List.range 8).map (fun k => match x.levels[k]? with | some w => lvDim w | none => 1)
  let frames := alignUp (x.sb + 64 * x.sl * (x.teams * x.nGroups)) 1024
  { life := .resident, launch := l, group := gid, ctx := x.ctx, core := core, quad := t % 4
    slot := s.freeSlot core (t % 4), teamid := t, linear := linear, nRegs := x.nRegs, topTeam := tt, topGroup := tg
    dims := dims, gidx := g, modelid := s.modelid x.ctx, sb := x.sb, sl := x.sl, v := []
    s := x.args.zipIdx.map (fun a => (a.2, ⟨a.1, 0⟩)), p := []
    gens := lanes.map (fun k => genInit k t g), exited := 0, split := false
    p0 := Path.fresh s.nextPid x.entry s.clk wait false, p1 := Path.fresh s.nextPid x.entry s.clk 0 true
    stack := [], spill := 0, tokN := [], tokT := [], pend := [], mode := modeNorm x.mode, budg := budgNorm x.budg
    bstat := 0, task := none, tcause := 0, tepc := 0, tval := 0
    tfr := BitVec.ofNat 56 (frames + 1024 * linear), tfrag := 0, intr := none, pendTrap := none, perm := none
    sideLost := false, drainAt := 0, hval := 0, td := [], corrupt := [] }

/-- Places the launch's group g on a core, as a member of a cluster and of a stack instance. -/
def State.placeGroup (s : State) (l : Nat) (x : Launch) (g core wait : Nat) (cluster stackB : Option Nat) : State :=
  let gid := s.nextGroup
  let grp : Group :=
    { launch := l, ctx := x.ctx, core := core, bank := (s.core core).act, spilled := false, alloc := x.scr
      nbar := x.nbar, cluster := cluster, stackB := stackB, scr := [], ecc := [], bars := x.bars
      copy := CopyCtx.atReset, dec := DecCtxt.atReset, tls := [], tlq := [], seen := [], saved := none }
  let s := { s with groups := tset s.groups gid grp, nextGroup := gid + 1 }
  let s := (List.range x.teams).foldl (fun (s : State) t =>
    { s with teams := tset s.teams s.nextTeam (s.newTeam l x gid g core wait t)
             nextTeam := s.nextTeam + 1, nextPid := s.nextPid + 1 }) s
  { s with launches := tmod s.launches l (fun y =>
             { y with lastCore := core, placed := y.placed + 1, alive := y.alive + x.teams })
           placeAt := tset s.placeAt (core / 16) s.clk }

/-! ### Placing units (R25, R29, R374, R423, R424) -/

/-- The record of a stack instance of launch l on stack st: the one it holds, or a new one while the stack has one
free. -/
def State.stackBar (s : State) (l : Nat) (x : Launch) (st groups : Nat) : Option (Nat × State) :=
  match s.wide.find? (fun w => w.2.launch = l && w.2.stack = some st) with
  | some w => some (w.1, s)
  | none =>
    if 64 ≤ (s.wide.filter (fun w => w.2.stack = some st)).length then none
    else
      let b : WideBar := { launch := l, stack := some st, gone := 0, exp := groups * x.teams, arr := 0, ph := 0, held := [], inn := [] }
      some (s.nextWide, { s with wide := tset s.wide s.nextWide b, nextWide := s.nextWide + 1 })

/-- The first stack of a cyclic order with k cores that fit, and its k lowest. -/
def State.clusterCores (s : State) (x : Launch) (k : Nat) (cores : List Nat) : Option (List Nat) :=
  cores.findSome? (fun n =>
    let fit := (List.range 16).filter (fun j => cores.contains (n / 16 * 16 + j) && s.fits (n / 16 * 16 + j) x)
    if k ≤ fit.length then some ((fit.take k).map (n / 16 * 16 + ·)) else none)

/-- Places the next of the cluster's groups that launch l has still to place. -/
def State.placeRestOf (s : State) (l : Nat) : State :=
  match tget s.launches l with
  | none => s
  | some x =>
    match x.rest with
    | [] => s
    | (g, core, cl, sb) :: r =>
      let s := s.placeGroup l x g core r.length (some cl) sb
      { s with launches := tmod s.launches l (fun y => { y with rest := r }) }

/-- Groups of a cluster are still to be placed on stack st. -/
def State.restOn (s : State) (st : Nat) : Bool := s.launches.any (fun x => x.2.rest.any (fun r => r.2.1 / 16 = st))

/-- The distributor has placed a group on stack st in this clk, or is placing a cluster there (R374). -/
def State.stackBusy (s : State) (st : Nat) : Bool := tget s.placeAt st = some s.clk || s.restOn st

/-- Places unit u of launch l, a group or a cluster; none if it does not fit now. With `paced`, a stack takes at most
one group in a clk, so that the other groups of a cluster follow in the next clks. -/
def State.placeUnit (s : State) (l u : Nat) (shut : List Nat) (paced : Bool) : Option State :=
  match tget s.launches l with
  | none => none
  | some x =>
    let k := x.perCluster
    let only : Option Nat := x.perStack.map (fun n => x.insts.getD (u * k / n) 8)
    let bar : Option (Option Nat × State) := match x.perStack, only with
      | some n, some st => (s.stackBar l x st n).map (fun r => (some r.1, r.2))
      | _, _ => some (none, s)
    match bar with
    | none => none
    | some (stackB, s) =>
      let cores := s.coresFor x only shut
      let late (st : Nat) : Bool := paced && s.stackBusy st
      if (topOf x.levels 3).isNone then
        match cores.find? (fun n => s.fits n x) with
        | none => none
        | some n => if late (n / 16) then none else some (s.placeGroup l x u n 0 none stackB)
      else
        match s.clusterCores x k cores with
        | none => none
        | some ns =>
          if late (ns.headD 0 / 16) then none
          else
            let b : WideBar := { launch := l, stack := none, gone := 0, exp := k * x.teams, arr := 0, ph := 0, held := [], inn := [] }
            let s := { s with wide := tset s.wide s.nextWide b, nextWide := s.nextWide + 1 }
            let gs := ns.zipIdx.map (fun n => (u * k + n.2, n.1, s.nextWide - 1, stackB))
            if paced then
              some (State.placeRestOf { s with launches := tmod s.launches l (fun y => { y with rest := gs }) } l)
            else some (gs.foldl (fun s g => s.placeGroup l x g.1 g.2.1 0 (some g.2.2.1) g.2.2.2) s)

/-- Places units one after the other, each where the rules put it. -/
def State.placeUnits (s : State) (l : Nat) (shut : List Nat) (us : List Nat) : Option State :=
  us.foldl (fun s u => s.bind (fun s => s.placeUnit l u shut false)) (some s)

/-- The units of the gang instance that unit u belongs to. -/
def Launch.gangUnits (x : Launch) (n u : Nat) : List Nat :=
  x.order.filter (fun v => v * x.perCluster / n = u * x.perCluster / n)

/-- Places what comes next of launch l: its next unit, or the gang instance of that unit in one step. -/
def State.placeNext (s : State) (l : Nat) (shut : List Nat) (paced : Bool) : Option State :=
  match tget s.launches l with
  | none => none
  | some x =>
    match x.order with
    | [] => none
    | u :: _ =>
      let us := match x.perGang with | none => [u] | some n => x.gangUnits n u
      let r := match x.perGang with
        | none => s.placeUnit l u shut paced
        | some _ =>
          if paced && (List.range 8).any (fun st => x.aff.testBit st && s.stackBusy st) then none else s.placeUnits l shut us
      r.map (fun s => { s with gangHold := s.gangHold.filter (· ≠ l)
                               launches := tmod s.launches l (fun x => { x with order := x.order.filter (fun v => !us.contains v) }) })

/-! ### The distributor (R29, R366, R374) -/

/-- PRIO of the queue of launch l. -/
def State.launchPrio (s : State) (l : Nat) : Nat := match tget s.launches l with | none => 0 | some x => (s.queue x.queue).prio

/-- How far packet idx lies behind RI of its queue: the greater, the earlier it was started. -/
def Queue.age (u : Queue) (idx : Nat) : Nat := (u.ri - BitVec.ofNat 32 idx).toNat

/-- An earlier LAUNCH of the same queue still reads its record or has groups to place (R366). -/
def State.launchBehind (s : State) (x : Launch) : Bool :=
  let u := s.queue x.queue
  s.launches.any (fun y => y.2.queue = x.queue && !(y.2.order.isEmpty && y.2.rest.isEmpty) && decide (u.age x.idx < u.age y.2.idx))
    || u.live.any (fun p => p.st = .reading && decide (u.age x.idx < u.age p.idx))

/-- The launches that the distributor may serve, in the order in which it serves them. -/
def State.serveOrder (s : State) : List Nat :=
  let ready := (s.launches.filter (fun x => !x.2.order.isEmpty && !s.launchBehind x.2 && !(s.undoOf x.2.ctx).due)).map Prod.fst
  (List.range 16).flatMap (fun i =>
    let p := 15 - i
    let mine := ready.filter (fun l => s.launchPrio l = p)
    match tget s.dist p with
    | none => mine
    | some k => mine.filter (fun l => k < l) ++ mine.filter (fun l => l ≤ k))

/-- The stacks that gangs which do not fit keep from launch l (R29). -/
def State.shutFor (s : State) (l : Nat) : List Nat :=
  (List.range 8).filter (fun st => s.gangHold.any (fun h => h ≠ l && decide (s.launchPrio l ≤ s.launchPrio h)
    && ((tget s.launches h).map (fun y => s.allowed y.aff st)).getD false))

/-- The next gang instance of launch l lacks a stack barrier record, and its stack has none free: the launch waits for it,
and the others go on (R424). -/
def State.recordShort (s : State) (l : Nat) (x : Launch) : Bool :=
  match x.order.head?, x.perGang, x.perStack with
  | some u, some g, some n =>
    (x.gangUnits g u).any (fun v => (s.stackBar l x (x.insts.getD (v * x.perCluster / n) 8) n).isNone)
  | _, _, _ => false

/-- Notes each launch whose next gang instance does not fit; one that another gang keeps from a stack is not tried, nor one
that waits for a barrier record. -/
def State.gangCheck (s : State) : State :=
  s.serveOrder.foldl (fun s l =>
    match tget s.launches l with
    | some x =>
      if x.perGang.isSome && !s.gangHold.contains l && (s.shutFor l).all (fun st => !x.aff.testBit st)
          && !s.recordShort l x && (s.placeNext l [] false).isNone then { s with gangHold := s.gangHold ++ [l] } else s
    | none => s) s

/-- A launch in the midst of placing a cluster, on a stack that has taken no group in this clk. -/
def State.restNext (s : State) : Option (Nat × State) :=
  (s.launches.find? (fun x => !(s.undoOf x.2.ctx).due && (x.2.rest.head?).any (fun r =>
    !s.takeoverDue r.2.1 && tget s.placeAt (r.2.1 / 16) ≠ some s.clk))).map
    (fun x => (x.1, s.placeRestOf x.1))

/-- The next placement: the launch that it serves, and the state after it. -/
def State.nextPlacement (s : State) : Option (Nat × State) :=
  s.restNext.orElse (fun _ => s.serveOrder.findSome? (fun l => (s.placeNext l (s.shutFor l) true).map (fun t => (l, t))))

/-- `GROUP_PLACEMENT` (R25-R29, R374): the distributor places the next group, cluster or gang instance, if it serves
this launch next. -/
def execGroupPlacement (launch : Nat) (s : State) : Host.Outcome State Fault Refusal :=
  let s := s.gangCheck
  answer (match s.nextPlacement with
    | some (l, t) => if l = launch then { t with dist := tset t.dist (s.launchPrio l) l } else s
    | none => s)

/-! ### Launch records (R370, R371) -/

/-- A permutation of 0 to 255. -/
def isPermutation (t : List Byte) : Bool := decide (t.length = 256) && (List.range 256).all (fun i => t.any (fun b => b.toNat = i))

/-- The record or its curve table is malformed (R370, R371). -/
def recordBad (r : Nat) (tab : List Byte) : Bool :=
  bitsOf r 56 8 ≠ 0 || bitsOf r 360 8 ≠ 0 || bitsOf r 504 8 ≠ 0 || bitsOf r 537 39 ≠ 0 || bitsOf r 632 392 ≠ 0
    || bitsOf r 0 2 ≠ 0 || (if bitsOf r 358 2 = 3 then !isPermutation tab else bitsOf r 576 56 ≠ 0)

/-- The launch that a well-formed record describes; `allowed` are the stacks that it may use. -/
def launchOf (q idx ctx r : Nat) (args : List Word) (tab : List Byte) (allowed : List Nat) (rel : Option Nat)
    (sig : Option (Nat × Nat)) : Launch :=
  let lv := (List.range (bitsOf r 320 3 + 1)).map (fun k => BitVec.ofNat 32 (bitsOf r (64 + 32 * k) 32))
  let tg := (topOf lv 2).getD 0
  let ng := dimsOf lv tg lv.length
  let units := match topOf lv 3 with | none => ng | some k => dimsOf lv k lv.length
  { queue := q, idx := idx, ctx := ctx, levels := lv, entry := bitsOf r 0 56
    nRegs := 8 * (bitsOf r 323 5 + 1), args := args, nbar := bitsOf r 335 5
    scr := 1024 * bitsOf r 340 10, aff := bitsOf r 350 8, mode := BitVec.ofNat 32 (bitsOf r 384 32)
    budg := BitVec.ofNat 32 (bitsOf r 416 32), sb := bitsOf r 448 56, sl := bitsOf r 512 25, rel := rel, sig := sig
    sigDone := false, sigPage := none, rest := [], order := sortedBy (curveKey (bitsOf r 358 2) (bitsOf r 368 16 + 1) units tab) units
    insts := allowed, nGroups := ng, placed := 0, lastCore := 0, alive := 0, retired := 0, first := none
    complete := false }

/-- Check 3 of R371 fails. Stack instances count against the allowed stacks (R423); where every named stack is held in
reset, check 5 gives NOFIT (R422; log entry 22). -/
def State.badLevel (s : State) (c r : Nat) : Bool :=
  let nlv := bitsOf r 320 3 + 1
  let all := (List.range 8).map (fun k => BitVec.ofNat 32 (bitsOf r (64 + 32 * k) 32))
  let lv := all.take nlv
  let aff := bitsOf r 350 8
  let free := ((List.range 8).filter (s.allowed aff)).length
  let named := ((List.range 8).filter (fun st => s.present st && aff.testBit st)).length
  let teams := dimsOf lv ((topOf lv 1).getD 0) ((topOf lv 2).getD 0)
  let nbar := bitsOf r 335 5
  !levelsOk all nlv (if free = 0 then named else free) || !s.hasTable c || 64 < bitsOf r 328 7 || 512 < bitsOf r 340 10 || 16 < nbar
    || 2 ^ 24 < bitsOf r 512 25 || bitsOf r 512 2 ≠ 0
    || (!(partsOf lv).isEmpty && decide (nbar < (levelExps lv teams).length))
    || (match topOf lv 4 with | some k => decide (2 ^ 32 - 1 < dimsOf lv ((topOf lv 1).getD 0) k) | none => false)

/-- Check 5: no allowed stack has enough cores that take a group of x when empty, or a stack instance has no stack. -/
def State.noFit (s : State) (x : Launch) : Bool :=
  let e := s.emptied
  !(List.range 8).any (fun st => s.allowed x.aff st &&
      decide (x.perCluster ≤ ((List.range 16).filter (fun j => e.fits (16 * st + j) x)).length))
    || (match x.perStack with | some n => decide (x.insts.length * n < x.nGroups) | none => false)

/-- Check 6: some gang instance of x does not fit on the allowed cores when they are empty. -/
def State.gangNoFit (s : State) (x : Launch) : Bool :=
  match x.perGang with
  | none => false
  | some n =>
    let e := s.emptied
    let e := { e with launches := tset e.launches e.nextLaunch x }
    (List.range (x.nGroups / n)).any (fun j =>
      (e.placeUnits e.nextLaunch [] (x.gangUnits n (j * n / x.perCluster))).isNone)

/-- The checks 2 to 6 of R371, in order: the status of the first that fails. -/
def State.launchFails (s : State) (r : Nat) (tab : List Byte) (x : Launch) : Option Nat :=
  if recordBad r tab then some 5
  else if s.badLevel x.ctx r then some 1
  else if !(List.range 8).any (fun st => s.present st && x.aff.testBit st) then some 4
  else if s.noFit x then some 2
  else if s.gangNoFit x then some 3
  else none

/-- The start acquire of a launch (R368): on every allowed core the context's L1 lines, weights apart, and its lines in
the instruction buffers. -/
def State.startAcquire (s : State) (c aff : Nat) : State :=
  ((List.range 128).filter (fun n => s.allowed aff (n / 16))).foldl (fun s n =>
    (s.acquireL1 n c).modCore n (fun k => { k with ibuf := k.ibuf.filter (fun l => l.ctx ≠ c) })) s

end Sys2Proof.Machine
end

