-- ==== Sys2Proof/Machine/Queues.lean ====
section
/-! DEFINITION. User queues and their packets (R359-R372). -/

namespace Sys2Proof.Machine

/-! ### Reads by the hub (R266, R361, R371) -/

inductive HubRead where
  | got (bs : List Byte)
  | hold (page : Option Nat)
  | bad
  deriving DecidableEq, Repr

/-- Reads n bytes at va in context c at their homes; `page` and `fate` are the page whose fault held the read so far,
and how that fault ended. -/
def State.hubRead (s : State) (c va n : Nat) (page : Option Nat) (fate : Fate) : HubRead × State :=
  let pages : List Nat := (List.range ((va + n - 1) / 4096 + 1 - va / 4096)).map (fun j => va / 4096 + j)
  if 2 ^ 56 < va + n then (.bad, s)
  else if fate = .declined ∧ page.any pages.contains then (.bad, s)
  else if (page.map (s.faulting c)).getD false then (.hold page, s)
  else
    match s.engResolve c 0 false [] (cutAt 128 .va n va n) with
    | (.error (v, l), _, s) =>
      let (b, s) := s.engBad c 0 0 v l
      (match b with | .hold p _ => .hold p | .fail _ => .bad, s)
    | (.ok ks, _, s) =>
      let (bs, s) := s.engReadAll (some c) ks
      let comp := ks.any (fun k => match k.at_ with | .mem _ _ p => pteCmp p | _ => false)
      if comp || bs.any (fun b => b.bad) then (.bad, s) else (.got (bs.map (fun b => b.x)), s)

/-! ### Packets (R362, R363) -/

def pkType (k : Nat) : Nat := k % 256
def pkOrd (k : Nat) : Bool := k.testBit 8
def pkAcq (k : Nat) : Bool := k.testBit 9
def pkRel (k : Nat) : Bool := k.testBit 10
def pkRsc (k : Nat) : Nat := bitsOf k 14 3
/-- 64-bit word j of a packet. -/
def pkWord (k j : Nat) : Nat := bitsOf k (64 * j) 64

def scopeBad (on : Bool) (v : Nat) : Bool := if on then decide (v ≠ 4 ∧ v ≠ 5) else decide (v ≠ 0)
def sigBad (a : Nat) : Bool := decide (2 ^ 56 ≤ a) || decide (a % 16 ≠ 0)

/-- A malformed packet (R362, R363). -/
def pkMalformed (k : Nat) : Bool :=
  bitsOf k 17 47 ≠ 0 || scopeBad (pkRel k) (pkRsc k) || scopeBad (pkAcq k) (bitsOf k 11 3)
    || (match pkType k with
        | 1 => decide (2 ^ 56 ≤ pkWord k 1) || decide (pkWord k 1 % 128 ≠ 0) || sigBad (pkWord k 2) || bitsOf k 256 256 ≠ 0
        | 2 => pkWord k 1 = 0 || sigBad (pkWord k 1) || sigBad (pkWord k 3) || sigBad (pkWord k 5) || bitsOf k 480 32 ≠ 0
        | 3 => sigBad (pkWord k 1) || bitsOf k 193 319 ≠ 0
        | 4 => sigBad (pkWord k 1) || bitsOf k 192 320 ≠ 0
        | _ => true)

/-- The signal of a packet and its value: none for SIG 0, for a misaligned one, and for the types that have none. -/
def pkSig (k : Nat) : Option (Nat × Nat) :=
  let j := match pkType k with | 1 => some 2 | 3 => some 1 | 4 => some 1 | _ => none
  j.bind (fun j => if pkWord k j = 0 ∨ pkWord k j % 16 ≠ 0 then none else some (pkWord k j, pkWord k (j + 1)))

/-- The conditions of a WAIT. -/
def pkConds (k : Nat) : List (Nat × Nat) :=
  ([1, 3, 5].map (fun j => (pkWord k j, pkWord k (j + 1)))).filter (fun c => c.1 ≠ 0)

/-! ### Ends of packets (R361, R364, R367) -/

def State.modLive (s : State) (q idx : Nat) (f : Live → Live) : State :=
  s.modQueue q (fun u => { u with live := u.live.map (fun v => if v.idx = idx then f v else v) })
def State.liveOf (s : State) (q idx : Nat) : Option Live := (s.queue q).live.find? (fun v => v.idx = idx)

/-- A live packet holds on a page. -/
def Live.held (v : Live) (page : Option Nat) : Live := { v with page := page, fate := .open }

/-- A LAUNCH that ends here without becoming complete was rejected: its status stands from now on for the packet behind it,
whether or not its signal is written yet (R366). -/
def State.rejected (s : State) (q idx ty code : Nat) : State :=
  if ty = 1 then s.modQueue q (fun u => { u with last := if u.ri.toNat = (idx + 1) % 2 ^ 32 then code else u.last }) else s

/-- Packet idx of queue q ends with a code: its signal is written, or holds; a write that fails halts the queue. -/
def State.endStep (s : State) (q idx code cause : Nat) : State :=
  match s.liveOf q idx with
  | none => s
  | some v =>
    let k := ofBytes v.pkt
    let c := (s.queue q).ctx
    let v : Live := match v.st with
      | .ending _ _ => v
      | _ => { v with st := .ending code cause, page := none, fate := .open }
    let s := (s.modLive q idx (fun _ => v)).rejected q idx (pkType k) code
    match pkSig k with
    | none => s.packetEnd q idx code
    | some (va, val) =>
      if (v.page.map (s.faulting c)).getD false then s
      else if v.fate = .declined ∧ v.page = some (va / 4096) then (s.queueHalt q 3).packetEnd q idx code
      else
        let (d, s) := s.writeSignal c va val code cause (pkType k = 3 && code = 0 && k.testBit 192)
        match d with
        | .done => s.packetEnd q idx code
        | .held p => s.modLive q idx (fun v => v.held (some p))
        | .failed => (s.queueHalt q 3).packetEnd q idx code

/-! ### LAUNCH (R368, R371) -/

/-- A started LAUNCH reads its record, makes its checks, and becomes active. -/
def State.launchRead (s : State) (q : Nat) (v : Live) : State :=
  let k := ofBytes v.pkt
  let c := (s.queue q).ctx
  let rec_ := pkWord k 1
  let stop (s : State) : HubRead → State
    | .hold p => s.modLive q v.idx (fun v => if v.page = p then v else v.held p)
    | _ => s.endStep q v.idx 5 0
  match s.hubRead c rec_ 128 v.page v.fate with
  | (.got bs, s) =>
    let r := ofBytes bs
    match s.hubRead c (rec_ + 128) (4 * bitsOf r 328 7) v.page v.fate with
    | (.got as, s) =>
      match (if bitsOf r 358 2 = 3 then s.hubRead c (bitsOf r 576 56) 256 v.page v.fate else (.got [], s)) with
      | (.got tab, s) =>
        let args := (List.range (bitsOf r 328 7)).map (fun i => BitVec.ofNat 32 (ofBytes ((as.drop (4 * i)).take 4)))
        let aff := bitsOf r 350 8
        let x := launchOf q v.idx c r args tab ((List.range 8).filter (s.allowed aff))
          (if pkRel k then some (pkRsc k) else none) (pkSig k)
        match s.launchFails r tab x with
        | some code => s.endStep q v.idx code 0
        | none =>
          let s := if pkAcq k || pkOrd k then s.startAcquire c aff else s
          let l := s.nextLaunch
          let s := { s with launches := tset s.launches l x, nextLaunch := l + 1 }
          s.modLive q v.idx (fun v => { v with st := .launch l, page := none, fate := .open })
      | (h, s) => stop s h
    | (h, s) => stop s h
  | (h, s) => stop s h

/-! ### WAIT (R369) -/

/-- Reads the conditions of a WAIT in order, up to the first that does not hold: whether all hold, whether a signal's
CODE is not OK, and the page that holds a read. -/
def State.waitLook (s : State) (c : Nat) (v : Live) (bad : Bool) : List (Nat × Nat) → (Bool × Bool × Option Nat) × State
  | [] => ((true, bad, none), s)
  | (va, x) :: r =>
    match s.hubRead c va 16 v.page v.fate with
    | (.got bs, s) =>
      let n := ofBytes bs
      if n % 2 ^ 64 < x then ((false, bad, none), s) else s.waitLook c v (bad || bitsOf n 64 8 ≠ 0) r
    | (.hold p, s) => ((false, bad, p), s)
    | (.bad, s) => ((false, bad, none), s)

/-- Evaluates an armed WAIT: it ends when its conditions hold; with `tmo`, it ends when its time is over and they do
not. -/
def State.waitStep (s : State) (q : Nat) (tmo : Bool) (v : Live) : State :=
  match v.st with
  | .wait rt0 =>
    let k := ofBytes v.pkt
    let ((all, bad, page), s) := s.waitLook (s.queue q).ctx v false (pkConds k)
    let n := bitsOf k 448 32 * 1024
    if all then (if tmo then s else s.packetEnd q v.idx (if bad then 9 else 0))
    else if tmo && n ≠ 0 && s.pastTmo 0 rt0 n then s.packetEnd q v.idx 10
    else match page with
      | some p => if v.page = some p then s else s.modLive q v.idx (fun v => v.held (some p))
      | none => s
  | _ => s

/-! ### SIGNAL and CKPT (R369) -/

/-- Launch packets of a queue that have not ended, by index. -/
def Queue.launching (u : Queue) : List Nat :=
  (u.live.filter (fun v => match v.st with | .launch _ => true | .reading => true | _ => false)).map (fun v => v.idx)

/-- The same of every queue of a context. -/
def State.ctxLaunching (s : State) (c : Nat) : List (Nat × Nat) :=
  (s.queues.filter (fun u => u.2.ctx = c)).flatMap (fun u => u.2.launching.map (fun i => (u.1, i)))

/-- Every launch packet that a SIGNAL or a CKPT waits for has ended. -/
def State.allEnded (s : State) (after : List (Nat × Nat)) : Bool := after.all (fun p => (s.liveOf p.1 p.2).isNone)

/-- A started packet goes on as far as it can, the evaluation of a WAIT apart. -/
def State.liveStep (s : State) (q : Nat) (v : Live) : State :=
  match v.st with
  | .reading => s.launchRead q v
  | .launch _ => s
  | .wait _ => s
  | .signal after => if s.allEnded after then s.endStep q v.idx 0 0 else s
  | .ckpt after => if s.allEnded after && !(s.undoOf (s.queue q).ctx).en then s.endStep q v.idx 0 0 else s
  | .ending code cause => s.endStep q v.idx code cause

/-! ### Starting packets (R360, R361, R365, R366) -/

/-- A queue whose ring is overrun, or whose context has no page table, halts. -/
def State.queueCheck (s : State) (q : Nat) : State :=
  let u := s.queue q
  if !u.en || u.halted then s
  else if 2 ^ u.log2n < (u.wi - u.ri).toNat then s.queueHalt q 1
  else if !ptV (s.ctx u.ctx).ptroot then s.queueHalt q 4
  else s

/-- A LAUNCH of the queue that reads its record is held by a fault, and holds the queue (R371). -/
def Queue.recordHeld (u : Queue) : Bool := u.live.any (fun v => v.st = .reading && v.page.isSome)

/-- The processor may look at the queue's packet at RI. -/
def State.served (s : State) (q : Nat) : Bool :=
  let u := s.queue q
  u.en && !u.halted && u.ri ≠ u.wi && !(s.undoOf u.ctx).due && !u.recordHeld

/-- The packet at RI: a kept one that is started again (R401), or the ring's. -/
def State.packetAt (s : State) (q : Nat) : HubRead × State :=
  let u := s.queue q
  match (s.undoOf u.ctx).replay with
  | (k, bs) :: _ => (if k = q then .got bs else .hold none, s)
  | [] => s.hubRead u.ctx (u.base + 64 * (u.ri.toNat % 2 ^ u.log2n)) 64 u.page u.fate

/-- Reads the packet at RI of a served queue, and notes a hold or halts where that fails. -/
def State.pollSlot (s : State) (q : Nat) : State :=
  if !s.served q then s
  else
    match s.packetAt q with
    | (.got _, s) => s
    | (.hold p, s) => if (s.queue q).page = p then s else s.modQueue q (fun u => { u with page := p, fate := .open })
    | (.bad, s) => (s.modQueue q (fun u => { u with page := none, fate := .open })).queueHalt q 2

/-- The packet waits for the one before it in its queue (R366); CKPT always does (R369). -/
def State.ordWaits (s : State) (q k : Nat) : Bool :=
  let u := s.queue q
  (pkOrd k || pkType k = 4) && u.live.any (fun v => v.idx = (u.ri - 1).toNat &&
    !(pkType (ofBytes v.pkt) = 1 && (match v.st with | .ending _ _ => true | _ => false)))

/-- A checkpoint of context c is wanted: no launch of the context starts (R369, R408). -/
def State.ckptWaits (s : State) (c : Nat) : Bool :=
  (s.undoOf c).ckpt || s.queues.any (fun u => u.2.ctx = c && u.2.live.any (fun v => match v.st with | .ckpt _ => true | _ => false))

/-- The packet at RI, if it may start. -/
def State.startable (s : State) (q : Nat) : Option Nat :=
  if !s.served q then none
  else
    match (s.packetAt q).1 with
    | .got bs =>
      let k := ofBytes bs
      if s.ordWaits q k || (pkType k = 1 && s.ckptWaits (s.queue q).ctx) then none else some k
    | _ => none

/-- The queue whose packet processor p starts next (R365). -/
def State.processorPick (s : State) (p : Nat) : Option Nat :=
  let ready := ((tkeys s.queues).filter (fun q => q % 8 = p)).filter (fun q => (s.startable q).isSome)
  let top := foldOver ready 0 (fun n q => max n (s.queue q).prio)
  let best := ready.filter (fun q => (s.queue q).prio = top)
  match tget s.procs p with
  | none => best.head?
  | some (k, c) => if s.clk < c + 128 then none else (best.filter (fun q => k < q) ++ best.filter (fun q => q ≤ k)).head?

/-- What a packet that starts is doing first. -/
def State.startSt (s : State) (q k : Nat) : LiveSt :=
  let u := s.queue q
  if pkMalformed k then .ending 5 0
  else if (pkOrd k || pkType k = 4) && u.last ≠ 0 then .ending 9 0
  else match pkType k with
    | 1 => .reading
    | 2 => .wait s.rt
    | 3 => .signal (if pkRel k then u.launching.map (fun i => (q, i)) else [])
    | _ => .ckpt (s.ctxLaunching u.ctx)

/-- Starts the packet at RI of queue q, of the types that `want` names, if its processor picks it. -/
def State.packetStart (s : State) (q : Nat) (want : Nat → Bool) : State :=
  let s := s.pollSlot q
  match s.startable q with
  | none => s
  | some k =>
    if s.processorPick (q % 8) ≠ some q ∨ !want (pkType k) then s
    else
      let u := s.queue q
      let n := s.undoOf u.ctx
      let bs := toBytes k 64
      let v : Live := { idx := u.ri.toNat, pkt := bs, st := s.startSt q k, page := none, fate := .open }
      let s := s.modQueue q (fun u => { u with ri := u.ri + 1, live := u.live ++ [v], page := none, fate := .open })
      let s := { s with procs := tset s.procs (q % 8) (q, s.clk)
                        undo := if n.en then tset s.undo u.ctx { n with replay := n.replay.tail } else s.undo }
      ((s.keepPacket u.ctx q bs).liveStep q v).waitStep q false v

/-- `LAUNCH_PACKET_START` (R365); it also takes the packets of reserved TYPE, which end malformed. -/
def execLaunchPacketStart (q : Nat) (s : State) : Host.Outcome State Fault Refusal :=
  answer (s.packetStart q (fun t => t ≠ 2 && t ≠ 3 && t ≠ 4))
/-- `WAIT_PACKET_START` (R365, R369). -/
def execWaitPacketStart (q : Nat) (s : State) : Host.Outcome State Fault Refusal := answer (s.packetStart q (· = 2))
/-- `SIGNAL_PACKET_START` (R365, R369). -/
def execSignalPacketStart (q : Nat) (s : State) : Host.Outcome State Fault Refusal := answer (s.packetStart q (· = 3))
/-- `CKPT_PACKET_START` (R365, R369, R400). -/
def execCkptPacketStart (q : Nat) (s : State) : Host.Outcome State Fault Refusal := answer (s.packetStart q (· = 4))

/-- Evaluates every armed WAIT of queue q. -/
def State.waitsStep (s : State) (q : Nat) (tmo : Bool) : State :=
  (s.queue q).live.foldl (fun s v => s.waitStep q tmo v) s

/-- `WAIT_PACKET_END` (R369): WAITs whose conditions hold end. -/
def execWaitPacketEnd (q : Nat) (s : State) : Host.Outcome State Fault Refusal := answer (s.waitsStep q false)
/-- `WAIT_PACKET_TIMEOUT` (R369): WAITs whose time is over end, unless their conditions hold. -/
def execWaitPacketTimeout (q : Nat) (s : State) : Host.Outcome State Fault Refusal := answer (s.waitsStep q true)

/-- `QUEUE_NOTIFY` (R360): a write of WI. -/
def execQueueNotify (q wi : Nat) (s : State) : Host.Outcome State Fault Refusal :=
  answer (if q < 1024 then (s.modQueue q (fun u => { u with wi := BitVec.ofNat 32 wi })).queueCheck q else s)

/-- Clears a halt: service resumes at RI, and a halter of the queue is answered (R361). -/
def State.queueResume (s : State) (q : Nat) : State :=
  let s := s.modQueue q (fun u => { u with stat := u.stat &&& 0xFF, page := none, fate := .open })
  State.queueCheck { s with halters := s.halters.filter (fun h => h.mst ≠ .queue q) } q

/-- A write of 1 to HLT (R361); a halt that falls in its clk stands (R6). -/
def State.hltClear (s : State) (q : Nat) : State := if (s.queue q).halted && !s.w1cNow (.hlt q) then s.queueResume q else s

/-- `QSTAT_HLT_CLEAR` (R361). -/
def execQstatHltClear (q : Nat) (s : State) : Host.Outcome State Fault Refusal := answer (s.hltClear q)

/-- Every armed WAIT is evaluated, as after each write at a signal's home (R369). -/
def State.watch (s : State) : State := (tkeys s.queues).foldl (fun s q => s.waitsStep q false) s

/-- The same, if memory has changed since `m`. -/
def State.watchFrom (s : State) (m : List Host.Cell) : State := if s.mem = m then s else s.watch

/-- Every started packet goes on, and launches write signals that are due: the hub's part of the end of a clk. -/
def State.hubPoll (s : State) : State :=
  let s := (tkeys s.launches).foldl (fun s l => (s.launchCheck l).watchFrom s.mem) s
  let s := (tkeys s.queues).foldl (fun s q => (s.queue q).live.foldl (fun s v => (s.liveStep q v).watchFrom s.mem) s) s
  (tkeys s.queues).foldl (fun s q => (s.waitsStep q false).waitsStep q true) s

end Sys2Proof.Machine
end

