-- ==== Sys2Proof/Machine/Models.lean ====
section
/-! DEFINITION. Model descriptors: writes of MDESC (R341-R343). -/

namespace Sys2Proof.Machine

/-- A pending packet of queue u, in slot i of its ring, reads as a LAUNCH (R360, R362). -/
def State.slotLaunches (s : State) (u : Queue) (i : Nat) : Bool :=
  match (s.look u.ctx (u.base + 64 * (i % 2 ^ u.log2n)) false).1 with
  | .ok pa _ => pkType (ofBytes (cellsGet s.mem pa 1)) = 1
  | _ => false

/-- A launch of the context is queued (R341, R377): groups to place, a record to read, a LAUNCH packet that is pending, or
one that a rollback starts again. -/
def State.ctxQueued (s : State) (c : Nat) : Bool :=
  s.launches.any (fun l => l.2.ctx = c && !l.2.order.isEmpty)
    || s.queues.any (fun u => u.2.ctx = c && (u.2.live.any (fun v => v.st = .reading)
        || (List.range (min (u.2.wi - u.2.ri).toNat (2 ^ u.2.log2n))).any (fun i => s.slotLaunches u.2 (u.2.ri.toNat + i))))
    || (s.undoOf c).replay.any (fun p => pkType (ofBytes p.2) = 1)

/-- The context has a launch queued, or a team that is PENDING, RESIDENT, PARKED or HALTERED (R341). -/
def State.ctxBusy (s : State) (c : Nat) : Bool :=
  s.ctxQueued c || s.teams.any (fun t => t.2.ctx = c && t.2.life ≠ .draining && t.2.life ≠ .retired)

/-- A layer entry is malformed in itself (R343). -/
def entryBad (e : Nat) : Bool :=
  let y : Layer := { entry := BitVec.ofNat 256 e, gen := 0, pin := 0, fcause := 0, rtry := 0, st := .absent, use := 0, frames := [] }
  let home (h : Home) : Bool := homeOf y.saddr = h && homeOf (y.saddr + y.size - 1) = h
  bitsOf e 184 11 ≠ 0 || bitsOf e 108 20 ≠ 0 || bitsOf e 56 32 ≠ 0 || y.saddr % 16 ≠ 0 || y.base % 2 ^ 21 ≠ 0
    || (match y.src with | 0 => !home .host || y.ses ≠ 0 | 1 => !home .pool || y.ses ≠ 0 | 2 => false | _ => true)

/-- The ranges of two layers of a list overlap. -/
def layersOverlap : List Layer → Bool
  | [] => false
  | a :: r => r.any (fun b => decide (a.base < b.base + b.size) && decide (b.base < a.base + a.size)) || layersOverlap r

/-- The model that a descriptor describes; none when it is malformed (R342, R343). -/
def State.readModel (s : State) (pa : Nat) : Option Model :=
  let h := ofBytes (cellsGet s.mem pa 32)
  let n := bitsOf h 96 12 + 1
  let es := (List.range n).map (fun l => ofBytes (cellsGet s.mem (pa + 32 + 32 * l) 32))
  let ys := es.map (fun e => ({ entry := BitVec.ofNat 256 e, gen := 0, pin := 0, fcause := 0, rtry := 0, st := .absent
                                use := 0, frames := [] } : Layer))
  let lines := linesOver pa (32 + 32 * n)
  if bitsOf h 128 128 ≠ 0 ∨ bitsOf h 0 68 ≠ 0 ∨ es.any entryBad ∨ layersOverlap ys ∨ lines.any (s.poisoned · 0) then none
  else some { mnum := bitsOf h 112 16, prio := bitsOf h 108 4, la := bitsOf h 88 8, htmo := bitsOf h 68 20, cur := 0, layers := ys }

/-- Discards the model of context c: its frames are free, ABS stands in its PTEs, its words and requests are gone. -/
def State.dropModel (s : State) (c : Nat) : State :=
  match tget s.models c with
  | none => s
  | some m =>
    let s := m.layers.zipIdx.foldl (fun s (y, l) =>
      let s := if y.src = 2 then
          s.rimDrop y.ses (fun m => match m with | .swapGet _ d k _ _ => d = c && k = l | _ => false) else s
      s.evict c l) s
    { s with models := tdel s.models c, swaps := s.swaps.filter (fun r => r.ctx ≠ c) }

def State.modCtx (s : State) (c : Nat) (f : CtxCfg → CtxCfg) : State := { s with ctxs := tset s.ctxs c (f (s.ctx c)) }

/-- MDESC takes V, ERR and PA. -/
def State.setMdesc (s : State) (c : Nat) (v : Bool) (err pa : Nat) : State :=
  s.modCtx c (fun r => { r with mdesc := BitVec.ofNat 64 (v.toNat * 2 ^ 63 + err * 2 ^ 60 + pa) })

/-- A write of MDESC (R341). -/
def State.mdescWrite (s : State) (c : Nat) (val : Dword) : State :=
  let pa := bitsOf val.toNat 5 47 * 32
  let old := (s.ctx c).mdesc.toNat
  if 64 ≤ c then s
  else if s.ctxBusy c then s.modCtx c (fun r => { r with mdesc := BitVec.ofNat 64 (setBits old 60 3 2) })
  else
    let s := s.dropModel c
    if !val.getLsbD 63 then s.setMdesc c false 0 pa
    else
      let s := s.touch pa 32
      match s.readModel pa with
      | none => s.setMdesc c false 1 pa
      | some m =>
        let s := s.touch (pa + 32) (32 * m.layers.length)
        if s.models.any (fun k => k.2.mnum = m.mnum) then s.setMdesc c false 3 pa
        else State.setMdesc { s with models := tset s.models c m } c true 0 pa

/-- `MDESC_WRITE_ENABLE` (R341): a write with V = 1. -/
def execMdescWriteEnable (ctx : Nat) (val : Dword) (s : State) : Host.Outcome State Fault Refusal :=
  answer (if val.getLsbD 63 then s.mdescWrite ctx val else s)
/-- `MDESC_WRITE_DISABLE` (R341): a write with V = 0. -/
def execMdescWriteDisable (ctx : Nat) (val : Dword) (s : State) : Host.Outcome State Fault Refusal :=
  answer (if val.getLsbD 63 then s else s.mdescWrite ctx val)

end Sys2Proof.Machine
end

