-- ==== Sys2Proof/Machine/Faults.lean ====
section
/-! DEFINITION. Answers to faults (R335-R337) and to halters (R388-R391), and trap entries that had to wait (R382). -/

namespace Sys2Proof.Machine

/-! ### Declined faults (R337) -/

def declinedIf (page : Nat) (p : Option Nat) (f : Fate) : Fate := if p = some page then .declined else f

def Hold.decline (page : Nat) : Hold → Hold
  | .inside i c r cap st ps l f =>
    if ps.contains page then .inside i c r cap st [page] l .declined else .inside i c r cap st ps l f
  | .fetch r p l f => .fetch r p l (declinedIf page p f)
  | .free => .free

/-- A team's held paths on a declined page. -/
def Team.decline (page : Nat) (tm : Team) : Team :=
  { tm with p0 := { tm.p0 with hold := tm.p0.hold.decline page }, p1 := { tm.p1 with hold := tm.p1.hold.decline page } }

def Group.decline (page : Nat) (g : Group) : Group :=
  { g with copy := { g.copy with cmds := g.copy.cmds.map (fun m => { m with fate := declinedIf page m.page m.fate }) }
           dec := { g.dec with streams := g.dec.streams.map (fun m => { m with fate := declinedIf page m.page m.fate }) } }

def Queue.decline (page : Nat) (u : Queue) : Queue :=
  { u with fate := declinedIf page u.page u.fate
           live := u.live.map (fun v => { v with fate := declinedIf page v.page v.fate }) }

def Coll.decline (page : Nat) (k : Coll) : Coll := { k with fate := declinedIf page k.page k.fate }

/-- Matrix commands of context c on a declined page. -/
def State.declineCmd (s : State) (c page : Nat) (m : MCmd) : MCmd :=
  match tget s.teams m.team with
  | some tm => if tm.ctx = c then { m with fate := declinedIf page m.page m.fate } else m
  | none => m

/-- The fault of a page ends declined, for every requester that it holds. -/
def State.declineAll (s : State) (c page : Nat) : State :=
  let s :=
    { s with teams := tmap s.teams (fun _ tm => if tm.ctx = c then tm.decline page else tm)
             groups := tmap s.groups (fun _ g => if g.ctx = c then g.decline page else g)
             queues := tmap s.queues (fun _ u => if u.ctx = c then u.decline page else u)
             colls := tmap s.colls (fun _ k => if k.ctx = c then k.decline page else k)
             cores := tmap s.cores (fun _ k => { k with mx :=
               { k.mx with queues := tmap k.mx.queues (fun _ q => q.map (s.declineCmd c page))
                           acc := k.mx.acc.map (s.declineCmd c page) } }) }
  let s := s.teams.foldl (fun s t =>
    match t.2.pendTrap with
    | some x => if t.2.ctx = c ∧ t.2.tfr.toNat / 4096 = page then
        s.haltTeam t.1 x.frag 4 0 x.cause.code x.sub x.val (x.epc.setWidth 64) else s
    | none => s) s
  let s := (tkeys s.cores).foldl (fun s n =>
    ((s.core n).side.filter (fun e => e.ctx = c && e.vline / 32 = page)).foldl (fun s e => s.sideDrop n e) s) s
  (tkeys s.launches).foldl (fun s l =>
    match tget s.launches l with
    | some x =>
      match x.sig with
      | some _ => if !x.sigDone && x.ctx = c && x.sigPage = some page then
          State.queueHalt { s with launches := tset s.launches l { x with sigDone := true } } x.queue 3 else s
      | none => s
    | none => s) s

/-! ### FRESP (R335, R336) -/

/-- The fault of a page that has its record, and so can be answered. -/
def State.faultOf (s : State) (c va : Nat) : Option PFault :=
  s.faults.find? (fun f => f.ctx = c && f.page = va / 4096 && f.rt0.isSome)
def State.faultDel (s : State) (c va : Nat) : State :=
  { s with faults := s.faults.filter (fun f => !(f.ctx = c && f.page = va / 4096)) }

/-- A fault ends: its requesters walk again, or it is declined for them. -/
def State.faultEnd (s : State) (c va : Nat) (decline : Bool) : State :=
  match s.faultOf c va with
  | none => s
  | some _ =>
    let s := s.faultDel c va
    if decline then s.declineAll c (va / 4096) else s

/-- `FRESP_RETRY` (R335): the held requesters walk again as they go on. -/
def execFrespRetry (ctx va : Nat) (s : State) : Host.Outcome State Fault Refusal := answer (s.faultEnd ctx va false)
/-- `FRESP_DECLINE` (R335, R337). -/
def execFrespDecline (ctx va : Nat) (s : State) : Host.Outcome State Fault Refusal := answer (s.faultEnd ctx va true)
/-- `FAULT_ANSWER_TIMEOUT` (R335): no answer within FTMO. -/
def execFaultAnswerTimeout (ctx va : Nat) (s : State) : Host.Outcome State Fault Refusal :=
  answer (match s.faultOf ctx va with
    | some f =>
      if fqTmo s.fqcfg ≠ 0 ∧ s.pastTmo 0 (f.rt0.getD 0) (fqTmo s.fqcfg * 1024) then s.faultEnd ctx va true else s
    | none => s)

/-- `TRAP_ENTRY` (R382): a trap whose frame write was held goes on. -/
def execTrapEntry (team : Nat) (s : State) : Host.Outcome State Fault Refusal :=
  answer (match tget s.teams team with
    | some tm =>
      if tm.life = .resident && !s.stopped tm && !s.faulting tm.ctx (tm.tfr.toNat / 4096) then s.trapTry team else s
    | none => s)

/-! ### HRESP (R388, R391) -/

/-- The commands of a haltered engine context complete with ABORT. -/
def State.discardCopies (s : State) (g : Nat) : State :=
  match s.group g with
  | none => s
  | some x => x.copy.cmds.foldl (fun s m => s.copyEnd g m (some 7)) s

def State.discardStreams (s : State) (g : Nat) : State :=
  match s.group g with
  | none => s
  | some x => x.dec.streams.foldl (fun s m => s.streamEnd g m (some 7) 0) s

/-- The state in which a released team goes on: DRAINING when it had no path left, parked if its bank is not the active
one. -/
def State.freeLife (s : State) (tm : Team) : Life :=
  if tm.p0.ended && (!tm.split || tm.p1.ended) then .draining
  else match tget s.groups tm.group with
  | some g => if g.spilled || g.bank ≠ (s.core tm.core).act then .parked else .resident
  | none => .resident

/-- An answer to a halter. -/
def State.answerHalter (s : State) (h : Halter) (release : Bool) : State :=
  let s := { s with halters := s.halters.filter (fun x => x.hid ≠ h.hid) }
  match h.mst with
  | .team t => if release then s.modTeam t (fun tm => { tm with life := s.freeLife tm }) else s.discardTeam t
  | .copyCtx g =>
    let s := if release then s else s.discardCopies g
    s.modGroup g (fun x => { x with copy := { x.copy with halted := false } })
  | .decCtx g =>
    let s := if release then s else s.discardStreams g
    s.modGroup g (fun x => { x with dec := { x.dec with halted := false } })
  | .queue q => if release then s.queueResume q else s
  | .session n => s.modSession n (fun x => { x with halted := false })

/-- The core of the team that a halter froze is being taken over by the spare (R429). -/
def State.halterMoves (s : State) (h : Halter) : Bool :=
  match h.mst with
  | .team t => (tget s.teams t).any (fun tm => s.takeoverDue tm.core)
  | .copyCtx g | .decCtx g => (tget s.groups g).any (fun x => s.takeoverDue x.core)
  | _ => false

/-- An answer to a halter by its HID. A rollback that is due wins (R402); an answer for a core that is being taken over
applies when that has ended (R429). -/
def State.hresp (s : State) (hid : Nat) (release : Bool) : State :=
  match s.halters.find? (fun h => h.hid = hid) with
  | some h =>
    if (s.undoOf h.ctx).due then s
    else if s.halterMoves h then { s with answers := s.answers ++ [(hid, release)] }
    else s.answerHalter h release
  | none => s

/-- The answers that may apply now do. -/
def State.flushAnswers (s : State) : State :=
  let as := s.answers
  as.foldl (fun s a => s.hresp a.1 a.2) { s with answers := [] }

/-- `HRESP_RELEASE` (R391). -/
def execHrespRelease (hid : Nat) (s : State) : Host.Outcome State Fault Refusal := answer (s.hresp hid true)
/-- `HRESP_DISCARD` (R391). -/
def execHrespDiscard (hid : Nat) (s : State) : Host.Outcome State Fault Refusal := answer (s.hresp hid false)

end Sys2Proof.Machine
end

