-- ==== Sys2Proof/Machine/Errors.lean ====
section
/-! DEFINITION. Counted errors (R425-R428), their records in the black box (R445), and the path that an uncorrectable error of a context
starts (R397). -/

namespace Sys2Proof.Machine

/-! ### Records about physical units (R445) -/

/-- Source, logical core, physical core and UNIT of a physical unit. -/
def State.unitPlace (s : State) : ErrUnit → Nat × Nat × Nat × Nat
  | .core p => (p / 17, (s.logicalOf p).getD 0x7F, p % 17, 0)
  | .matrix p => (p / 17, (s.logicalOf p).getD 0x7F, p % 17, 1)
  | .link n _ _ => (n, 0x7F, 0x1F, 5)
  | .spoke n => (n, 0x7F, 0x1F, 6)
  | .rimPort _ => (8, 0x7F, 0x1F, 7)
  | .hbm n => (n, 0x7F, 0x1F, 4)
  | .slice n _ => (n, 0x7F, 0x1F, 2)
  | .rdc n => (n, 0x7F, 0x1F, 3)
  | .cxlPort _ => (8, 0x7F, 0x1F, 8)
  | .hub => (8, 0x7F, 0x1F, 9)

/-- A record about a physical unit. -/
def State.recordUnit (s : State) (u : ErrUnit) (kind data : Nat) : State :=
  let (src, l, p, n) := s.unitPlace u
  s.record src kind l p n data

/-! ### Counting (R425, R426) -/

/-- The unit that an error of a unit counts against: a matrix unit's count against its core. -/
def countUnit : ErrUnit → ErrUnit
  | .matrix p => .core p
  | u => u

def State.errOf (s : State) (u : ErrUnit) : ErrCount := ((s.errs.find? (fun e => e.1 = u)).map Prod.snd).getD ⟨[], false⟩
def State.setErr (s : State) (u : ErrUnit) (c : ErrCount) : State :=
  { s with errs := (u, c) :: s.errs.filter (fun e => e.1 ≠ u) }

/-- WIN in rt ticks, and NTH, of ERRCFG. -/
def State.errWin (s : State) : Nat := bitsOf s.errcfg.toNat 48 16 * 1024
def State.errNth (s : State) : Nat := bitsOf s.errcfg.toNat 40 8

/-- Some n of the times, newest first, fall within w rt ticks. -/
def burst (w n : Nat) : List Nat → Bool
  | [] => false
  | t :: ts => (match (t :: ts)[n - 1]? with | some u => decide (t < u + w) | none => false) || burst w n ts

/-- Countdowns of the teams of core n that are RESIDENT change: they stand still, or go on (R427). -/
def State.coreCd (s : State) (n : Nat) (f : Countdown → Countdown) : State :=
  { s with teams := tmap s.teams (fun _ tm => if tm.core = n ∧ tm.life = .resident then tm.mapCd f else tm) }

/-- A unit is marked lasting. Where its stack has the spare, the spare begins to take a core over (R427), but for a second
core (R428, R429). A spare that is marked is no longer available, for a core that it is taking over either (R428). -/
def State.markLasting (s : State) (u : ErrUnit) : State :=
  if (s.errOf u).lasting then s
  else
    let s := s.setErr u { s.errOf u with lasting := true }
    let s := s.recordUnit u 4 0
    match u with
    | .core p =>
      let c := s.stack (p / 17)
      (match s.logicalOf p with
       | none =>
         if c.spav ∧ !c.ret (p % 17) then
           let map := setBits (setBits c.map.toNat 126 1 0) (100 + p % 17) 1 1
           let s := s.modStack (p / 17) (fun c => { c with map := BitVec.ofNat 128 map, taking := none })
           match c.taking with
           | some k => s.coreCd k.1 (Countdown.thaw s.clk)
           | none => s
         else s
       | some n =>
         if c.spav ∧ c.taking.isNone then
           (s.modStack (p / 17) (fun c => { c with taking := some (n, s.clk) })).coreCd n (Countdown.freeze s.clk)
         else s)
    | _ => s

/-- Marks a unit whose counted errors are dense enough. -/
def State.lastingCheck (s : State) (u : ErrUnit) : State :=
  if burst s.errWin s.errNth (s.errOf u).times then s.markLasting u else s

/-- Counts an error against its unit; the latest 255, the most that NTH can ask for, are kept. -/
def State.countError (s : State) (u : ErrUnit) : State :=
  let u := countUnit u
  let c := s.errOf u
  State.lastingCheck (s.setErr u { c with times := (s.rt :: c.times).take 255 }) u

/-! ### Uncorrectable errors of a context (R397, R402) -/

/-- The context takes the uncorrectable-error path: with rollback on, a rollback is due. -/
def State.ctxError (s : State) (c : Nat) : State :=
  let u := s.undoOf c
  if u.en then { s with undo := tset s.undo c { u with due := true } } else s

end Sys2Proof.Machine
end

