-- ==== Sys2Proof/Machine/MatrixNum.lean ====
section
/-! DEFINITION. Numbers of the matrix unit: accumulator tiles (R95, R218-R221), summation (R96), row bounds (R230,
R231), the governor of `mma` (R193). -/

namespace Sys2Proof.Machine

/-! ### Tiles (R218, R219) -/

def TileRow.zero : TileRow := ⟨List.replicate 64 0, 0, 0, false⟩
def Tile.zero : Tile := ⟨0, []⟩
def Tile.row (t : Tile) (i : Nat) : TileRow := tgetD t.rows i TileRow.zero
def MatrixU.tile (m : MatrixU) (n : Nat) : Tile := tgetD m.tiles n Tile.zero
def MatrixU.setTile (m : MatrixU) (n : Nat) (t : Tile) : MatrixU := { m with tiles := tset m.tiles n t }

/-- The format that a tag names, and the tag of a gear (R95). -/
def tagFmt : Nat → Fmt
  | 1 => a32F | 2 => a24F | _ => a48F
def gearTag : Nat → Nat
  | 3 => 0 | 0 => 2 | _ => 1

/-- The value of a cell, and a cell of a value. -/
def cellVal (tag : Nat) (c : BitVec 48) : FVal := (tagFmt tag).dec (c.toNat / 2 ^ (48 - (tagFmt tag).w))
def cellOf (tag : Nat) (v : FVal) : BitVec 48 := BitVec.ofNat 48 ((tagFmt tag).enc v * 2 ^ (48 - (tagFmt tag).w))

/-- RES of cells (R219). -/
def residue (cs : List (BitVec 48)) : Nat := cs.foldl (fun n c => n + c.toNat) 0 % 3

/-- A row of cells with its bound and poison. -/
def mkRow (cs : List (BitVec 48)) (rb : Half) (psn : Bool) : TileRow := ⟨cs, rb, residue cs, psn⟩

/-- The residue check of a row that is read fails (R219). -/
def TileRow.wrong (r : TileRow) : Bool := residue r.cells ≠ r.res
/-- The row as a reading command uses it (R219). -/
def TileRow.checked (r : TileRow) : TileRow := if r.wrong then { r with psn := true } else r
def Tile.check (t : Tile) (i : Nat) : Tile :=
  let r := t.row i
  if r.checked = r then t else { t with rows := tset t.rows i r.checked }

/-- An exact value rounded into format F with RNE. -/
def rneTo (F : Fmt) (x : Ex) : Rnd := x.round F .rne false 0

/-- A row converted to another tag, and its conversion term (R221), unbounded when a finite cell overflows. -/
def convRow (from_ to_ : Nat) (r : TileRow) : List (BitVec 48) × Half :=
  let ps := r.cells.map (fun c =>
    let v := cellVal from_ c
    let z := (rneTo (tagFmt to_) (.of v)).z
    (cellOf to_ z, if !v.isFin then (0 : Half) else if z.isFin then ebUp (v.q.sub z.q).abs else 0xFF00))
  (ps.map Prod.fst, ps.foldl (fun m p => ebMax m p.2) 0)

/-- The rows of a tile. -/
def tileRows : List Nat := List.range 128

/-- The tile converted to a tag, and X of every row; rows from m up take X into RB (R221), a bound that EB16 arithmetic
forms, so unbounded under BT = 0 (R94). -/
def Tile.convert (t : Tile) (bt : Bool) (to_ m : Nat) : Tile × List Half :=
  if t.tag = to_ then (t, tileRows.map (fun _ => (0 : Half)))
  else
    let rs := tileRows.map (fun i =>
      let r := t.row i
      let (cs, x) := convRow t.tag to_ r
      (i, mkRow cs (if m ≤ i ∧ x ≠ 0 then computed bt (ebAdd r.rb x) else r.rb) r.psn, x))
    (⟨to_, rs.map (fun r => (r.1, r.2.1))⟩, rs.map (fun r => r.2.2))

/-! ### Elements (R223, R224) -/

/-- An element of A or B: its value before scaling, the exponent of its scale, and its bound with the scale applied;
none for an unbounded one. -/
structure MEl where
  v : Ex
  e : Int
  b : Option Q
  deriving DecidableEq, Repr

def MEl.zero : MEl := ⟨.num Q.zero false, 0, some Q.zero⟩
/-- |v| with its scale. -/
def MEl.mag (x : MEl) : Q := (x.v.q.abs).shl x.e

/-- An element of type t from its bits, bound and scale byte (R84). -/
def mkEl (t : Ty) (bits : Nat) (b : Half) (scale : Nat) : MEl :=
  let e : Int := (scale : Int) - 127
  ⟨if scale = 255 then .nan else .of ((Ty.fmt t).dec bits), e, (bVal b).map (fun q => q.shl e)⟩

/-- Element j of a run of bytes with bounds. -/
def runEl (t : Ty) (bs : List Byte) (bb : List Half) (j : Nat) : Nat × Half :=
  if t.bits = 4 then (bitsOf ((bs.getD (j / 2) 0).toNat) (4 * (j % 2)) 4, bb.getD (j / 2) 0)
  else
    let n := t.bytes
    (ofBytes ((bs.drop (n * j)).take n), ((bb.drop (n * j)).take n).foldl ebMax 0)

/-- Elements of a summation group (R96). -/
def groupLen (t : Ty) : Nat :=
  match t with
  | .e4m3 | .e5m2 => 4
  | .e2m1 => 8
  | _ => 2

/-- Cuts a list into groups of n. -/
def chunksOf {α : Type} (n : Nat) : Nat → List α → List (List α)
  | 0, _ => []
  | k + 1, xs => if xs.isEmpty then [] else xs.take n :: chunksOf n k (xs.drop n)

/-! ### Summation (R96, R190) -/

/-- A running cell: its value, whether a product was truncated inexactly, whether a rounding was inexact, and the
largest exact value rounded. -/
structure Acc96 where
  acc   : FVal
  trunc : Bool
  inex  : Bool
  m     : Q
  deriving DecidableEq, Repr

/-- One rounding of the sum. -/
def Acc96.round (a : Acc96) (F : Fmt) (x : Ex) : FVal × Acc96 :=
  let r := rneTo F x
  (r.z, { a with inex := a.inex || (x.fin && r.rho ≠ 0), m := if x.fin then a.m.max x.q.abs else a.m })

/-- A product at gear g. -/
def gearProd (t : Ty) (g : Nat) (a b : MEl) : Ex × Bool :=
  let p := a.v.mul b.v
  let q := p.truncProd t g
  (q, q.fin && !(q.q.eq p.q))

/-- One group of products added to the cell. -/
def Acc96.group (a : Acc96) (F : Fmt) (t : Ty) (g : Nat) (ps : List (MEl × MEl)) : Acc96 :=
  match ps with
  | [] => a
  | (x, y) :: r =>
    let p0 := gearProd t g x y
    let (s, tr) := r.foldl (fun (c : Ex × Bool) e =>
      let p := gearProd t g e.1 e.2
      (c.1.add .rne p.1, c.2 || p.2)) p0
    let s : Ex := match s with | .num q z => .num (q.shl (x.e + y.e)) z | s => s
    let (tv, a) := Acc96.round { a with trunc := a.trunc || tr } F s
    let (z, a) := a.round F ((Ex.of a.acc).add .rne (.of tv))
    { a with acc := z }

/-- acc(i, j) of R239. -/
def sumCell (F : Fmt) (t : Ty) (g : Nat) (acc : FVal) (as bs : List MEl) : Acc96 :=
  (chunksOf (groupLen t) as.length (as.zip bs)).foldl (fun a ps => a.group F t g ps) ⟨acc, false, false, Q.zero⟩

/-! ### Row bounds (R230) -/

/-- What the columns of one destination tile contribute: bB(k) and Bmax(k). -/
structure TileB where
  cols : List (List MEl)
  bmax : List Q
  bb   : List (Option Q)
  deriving DecidableEq, Repr

def optMax (a b : Option Q) : Option Q :=
  match a, b with
  | some x, some y => some (x.max y)
  | _, _ => none

/-- The columns of B of a destination tile. -/
def mkTileB (k : Nat) (cols : List (List MEl)) : TileB where
  cols := cols
  bmax := cols.foldl (fun m c => (m.zip c).map (fun p => p.1.max p.2.mag)) (List.replicate k Q.zero)
  bb := cols.foldl (fun m c => (m.zip c).map (fun p => optMax p.1 p.2.b)) (List.replicate k (some Q.zero))

/-- bA(i). -/
def rowBA (as : List MEl) : Option Q := as.foldl (fun m x => optMax m x.b) (some Q.zero)

/-- S_i. -/
def rowS (as : List MEl) (t : TileB) : Q := (as.zip t.bmax).foldl (fun n p => n.add (p.1.mag.mul p.2)) Q.zero

/-- P_i; none when a source bound is unbounded. -/
def rowP (as : List MEl) (t : TileB) : Option Q :=
  match rowBA as with
  | none => none
  | some ba => (as.zip (t.bmax.zip t.bb)).foldl (fun (n : Option Q) p =>
      match n, p.2.2 with
      | some n, some bb => some (((n.add (p.1.mag.mul bb)).add (ba.mul p.2.1)).add (ba.mul bb))
      | _, _ => none) (some Q.zero)

/-- u_g (R192) and η_g (R230) of a tag. -/
def accU : Nat → Q
  | 0 => Q.pow2 (-38) | 2 => Q.pow2 (-16) | _ => Q.pow2 (-24)
def accEta : Nat → Q
  | 0 => Q.pow2 (-548) | 2 => Q.pow2 (-142) | _ => Q.pow2 (-150)

/-- The new row bound (R230). -/
def rowBound (bt : Bool) (old x : Half) (as : List MEl) (t : TileB) (ty : Ty) (g n : Nat) (cells : List Acc96) : Half :=
  let bad := cells.any (fun c => !c.acc.isFin)
  match rowP as t with
  | none => 0xFF00
  | some p =>
    if !bt || bad || ebUnb old then 0xFF00
    else
      let gi := if cells.any (fun c => c.trunc) then (gearC ty g).mul (rowS as t) else Q.zero
      let m := cells.foldl (fun m c => m.max c.m) Q.zero
      let tag := gearTag g
      let qi := if cells.any (fun c => c.inex) then
          (Q.ofInt (2 * n)).mul (((accU tag).mul m).add (accEta tag)) else Q.zero
      ebSum [old, x, ebUp p, ebUp gi, ebUp qi]

/-! ### The governor (R193, R231) -/

/-- Row i of a destination tile qualifies at gear g; `cells` are the accumulator cells that the `mma` writes. -/
def rowQualifies (mode budg : Word) (ty : Ty) (g n : Nat) (old x : Half) (as : List MEl) (t : TileB)
    (cells : List FVal) : Bool :=
  if as.any (fun a => !a.v.fin) || t.cols.any (fun c => c.any (fun b => !b.v.fin)) || cells.any (fun c => !c.isFin) then true
  else
    let s := rowS as t
    let r := cells.foldl (fun m c => m.max c.q.abs) Q.zero
    let inc := ((gearC ty g).mul s).add ((Q.ofInt (2 * n)).mul ((accU (gearTag g)).mul (s.add r)))
    let base : Half := match rowP as t with | none => 0xFF00 | some p => ebSum [old, x, ebUp p]
    if ebUnb base then inc.isZero
    else
      let alw := (ebVal (bFloor budg)).add ((bR budg).mul (s.add r))
      inc.le ((headroom mode).mul ((alw.sub (ebVal base)).max Q.zero))

/-! ### mma on tiles (R239) -/

/-- The operands of an `mma` as numbers: rows of A with their poison, and columns of B. -/
structure MmaIn where
  ty   : Ty
  as   : List (List MEl)
  apsn : List Bool
  bs   : List (List MEl)
  deriving DecidableEq, Repr

/-- K. -/
def MmaIn.k (x : MmaIn) : Nat := ((x.as.head?).map List.length).getD 0

/-- One row of a destination tile. -/
def mmaRow (x : MmaIn) (bt : Bool) (g tag : Nat) (t : TileB) (xi : Half) (as : List MEl) (psn : Bool) (old : TileRow) : TileRow :=
  let F := tagFmt tag
  let cs := (t.cols.zip old.cells).map (fun p => sumCell F x.ty g (cellVal tag p.2) as p.1)
  let cells := cs.map (fun c => cellOf tag c.acc) ++ old.cells.drop t.cols.length
  mkRow cells (rowBound bt old.rb xi as t x.ty g (x.k / groupLen x.ty) cs) (old.psn || psn)

/-- One destination tile. -/
def mmaTile (x : MmaIn) (bt : Bool) (g : Nat) (t : TileB) (tile : Tile) : Tile :=
  let m := x.as.length
  let (tile, xs) := tile.convert bt (gearTag g) m
  let rows := (x.as.zip (x.apsn.zip xs)).zipIdx.map (fun (p, i) =>
    (i, mmaRow x bt g (gearTag g) t p.2.2 p.1 p.2.1 (tile.row i)))
  { tile with rows := rows.foldl (fun t r => tset t r.1 r.2) tile.rows }

/-- The gear of an `mma` (R51, R193). -/
def mmaGear (x : MmaIn) (sel : GearSel) (mode budg : Word) (ts : List (TileB × Tile)) : Nat :=
  gearOf mode budg sel (fun g => ts.all (fun p =>
    let xs := (p.2.convert true (gearTag g) 128).2
    (x.as.zip xs).zipIdx.all (fun (q, i) =>
      let r := p.2.row i
      rowQualifies mode budg x.ty g (x.k / groupLen x.ty) r.rb q.2 q.1 p.1
        ((r.cells.take p.1.cols.length).map (cellVal p.2.tag)))))

/-- The destination tiles after an `mma`. `x` has the operands as they stand, from which the gear is chosen, and `ins` those
that are read once the destination tiles are in the format of a gear (R193, R239). -/
def mmaTiles (x : MmaIn) (ins : Nat → MmaIn) (sel : GearSel) (mode budg : Word) (ts : List Tile) : List Tile :=
  let ps := ((chunksOf 64 ts.length x.bs).map (mkTileB x.k)).zip ts
  let g := mmaGear x sel mode budg ps
  let y := ins g
  (((chunksOf 64 ts.length y.bs).map (mkTileB y.k)).zip ts).map (fun p => mmaTile y (mBt mode) g p.1 p.2)

end Sys2Proof.Machine
end

