-- ==== Sys2Proof/Machine/Matrix.lean ====
section
/-! DEFINITION. The matrix instructions at issue (R212, R215, R236-R244): checks, descriptors, the lease, the queues. -/

namespace Sys2Proof.Machine

/-! ### Commands -/

/-- What a command captures at issue, as numbers that a hold keeps. -/
def MCmd.enc (c : MCmd) : List Nat :=
  [c.b, c.mode.toNat, c.budg.toNat, c.tdA.tile.toNat, c.tdA.scale.toNat, c.tdB.tile.toNat, c.tdB.scale.toNat]
    ++ c.rows.flatMap (fun r => r.flatMap (fun x => [x.val.toNat, x.bnd.toNat]))

def cellsOf : List Nat → List RegCell
  | v :: b :: r => ⟨BitVec.ofNat 32 v, BitVec.ofNat 16 b⟩ :: cellsOf r
  | _ => []

/-- A command of the team, with what it captures. -/
def X.mcmd (x : X) (i : Instr) (b : Nat) (rows : List Row) (tdA tdB : TileDesc) : MCmd where
  op := 0
  clk0 := 0
  team := x.t
  group := x.tm.group
  i := i
  b := b
  rows := rows
  mode := x.tm.mode
  budg := x.tm.budg
  tdA := tdA
  tdB := tdB
  g5 := false
  blk := 0
  got := []
  scA := []
  scB := []
  spoilt := []
  page := none
  layer := none
  fate := .open

/-- The command that a hold keeps. -/
def X.mcmdOf (x : X) (i : Instr) (cap : List Nat) : MCmd :=
  { x.mcmd i (cap.headD 0) (chunksOf 64 256 (cellsOf (cap.drop 7))) ⟨BitVec.ofNat 128 (cap.getD 3 0), BitVec.ofNat 32 (cap.getD 4 0)⟩
      ⟨BitVec.ofNat 128 (cap.getD 5 0), BitVec.ofNat 32 (cap.getD 6 0)⟩ with
    mode := BitVec.ofNat 32 (cap.getD 1 0), budg := BitVec.ofNat 32 (cap.getD 2 0) }

/-- Commands waiting in the queue of quadrant q. -/
def MatrixU.queue (m : MatrixU) (q : Nat) : List MCmd := tgetD m.queues q []

/-- A command joins the queue of its quadrant. -/
def State.mEnqueue (s : State) (core quad : Nat) (c : MCmd) : State :=
  s.modMx core (fun m => { m with queues := tset m.queues quad (m.queue quad ++ [c]) })

/-- A request for the lease, once for each team of the group (R215). -/
def State.leaseAsk (s : State) (core : Nat) (r : LeaseReq) : State :=
  s.modMx core (fun m => if m.waiting.any (fun w => w.group = r.group && w.team = r.team) then m
    else { m with waiting := m.waiting ++ [r] })

/-- A command at issue (R212): a tile command waits for the lease, every command for room in its queue. `sync` is `mst`,
which goes on holding until it has executed. -/
def X.submit (x : X) (s : State) (tile sync : Bool) (keys : List Nat) (c : MCmd) : Res :=
  let m := (s.core x.tm.core).mx
  let clk := match x.st with | some w => w.clk0 | none => s.clk
  if tile ∧ m.holder ≠ some x.tm.group then
    x.hold (s.leaseAsk x.tm.core ⟨x.tm.group, clk, x.tm.quad, x.tm.teamid⟩) 0 c.enc
  else if 32 ≤ (m.queue x.tm.quad).length then x.hold s 0 c.enc
  else
    let s' := s.mEnqueue x.tm.core x.tm.quad { c with op := x.opNum s, clk0 := clk }
    if sync then x.hold s' 2 [x.opNum s]
    else .token s' (x.op s .matrix keys .engine)

/-- A matrix instruction: a mask that is neither empty nor full raises ILLCONV MASK (R48, R212). -/
def matrixInstr (i : Instr) (h : Hdr) (ps : List Port) (body : X → State → Res) (s : State) :
    Host.Outcome State Fault Refusal :=
  let bad : Option (Nat × Bool × BitVec 64) := match s.cur with
    | none => none
    | some (t, f, _) => match tget s.teams t with
      | none => none
      | some tm =>
        let p := tm.path f
        let e := p.exm &&& tm.guard h.g
        let fresh := match p.hold with | .inside .. => false | _ => true
        if fresh && tm.runs f && tm.perm.isNone && e ≠ 0 && e ≠ allLanes then some (t, f, p.pc) else none
  match bad with
  | some (t, f, pc) => answer (State.takeTrap { s with cur := none } t f .illconv 0 0 pc)
  | none => answer (s.issue i h (.token .matrix) ps false false body)

/-- ILLOP of a matrix check: field sub-code and reason (R236). -/
def mBad (s : State) (sub reason : Nat) : Res := .trap s .illop sub (BitVec.ofNat 64 reason)

/-! ### mtd and msd (R237, R238) -/

/-- SHAPE of R237: the shape word is malformed. -/
def shapeBad (w : Nat) : Bool :=
  let cls := bitsOf w 62 2
  let colMaj := w.testBit 61
  let stride := bitsOf w 28 20 * 16
  let cols := bitsOf w 14 14 + 1
  let rows := bitsOf w 0 14 + 1
  let run := if colMaj then rows else cols
  bitsOf w 48 9 ≠ 0 || cls = 3 || stride = 0
    || (match Ty.ofCode (BitVec.ofNat 4 (bitsOf w 57 4)) with
        | none => true
        | some t =>
          !(if cls = 2 then t.isMst else t.isMma) || decide (stride < runBytes t run + (if t.bits = 4 then run % 2 else 0))
            || (t.bits = 4 && run % 2 = 1))

/-- The tile record of a base and a shape word. -/
def tileRecord (base w : Nat) : Quad :=
  BitVec.ofNat 128 (2 ^ 127 + bitsOf w 62 2 * 2 ^ 125 + bitsOf w 61 1 * 2 ^ 124 + bitsOf w 57 4 * 2 ^ 120
    + bitsOf w 28 20 * 2 ^ 92 + bitsOf w 14 14 * 2 ^ 78 + bitsOf w 0 14 * 2 ^ 64 + base)

/-- Writes the tile or the scale record of a descriptor, which later instructions of the team see at once (R236); a corrupted
record is whole again (R397). -/
def State.setDesc (s : State) (t n : Nat) (scale : Bool) (f : TileDesc → TileDesc) : State :=
  s.modTeam t (fun tm => { tm with td := tset tm.td n (f (tm.desc n)), corrupt := tm.corrupt.filter (· ≠ .desc t n scale) })

/-- `mtd` (R237). -/
def execMtd (h : Hdr) (d : BitVec 4) (a b : Opnd) (s : State) : Host.Outcome State Fault Refusal :=
  let i : Instr := .mtd h d a b
  matrixInstr i h (rd 2 a ++ rd 2 b) (fun x s =>
    match x.st with
    | some w => x.submit s false false [] (x.mcmdOf i w.cap)
    | none =>
      let base := x.rd.wide a 0
      let w := x.rd.wide b 0
      if shapeBad w then mBad s 7 1
      else if 2 ^ 56 ≤ base then .trap s .xlat 0 (BitVec.ofNat 64 base)
      else if base % 16 ≠ 0 then .trap s .align 0 (BitVec.ofNat 64 base)
      else
        let s := s.setDesc x.t d.toNat false (fun r => { r with tile := tileRecord base w })
        x.submit s false false [] (x.mcmd i 0 [] .zero .zero)) s

/-- `msd` (R238). -/
def execMsd (h : Hdr) (d : BitVec 4) (a : Opnd) (en : Bool) (s : State) : Host.Outcome State Fault Refusal :=
  let i : Instr := .msd h d a en
  matrixInstr i h (if en then rd 1 a else []) (fun x s =>
    match x.st with
    | some w => x.submit s false false [] (x.mcmdOf i w.cap)
    | none =>
      let v := x.num a
      if en ∧ (2 ^ 19 ≤ v ∨ v % 128 ≠ 0) then .trap s .align 0 (BitVec.ofNat 64 v)
      else
        let s := s.setDesc x.t d.toNat true (fun r => { r with scale := if en then BitVec.ofNat 32 (2 ^ 31 + v) else 0 })
        x.submit s false false [] (x.mcmd i 0 [] .zero .zero)) s

/-! ### mma (R239) -/

/-- UNSET, CLASS, TYPE of a descriptor (R236). -/
def descBad (d : TileDesc) (cls : Nat) (t : Ty) : Option Nat :=
  if !d.v then some 9 else if d.cls ≠ cls then some 2 else if d.ty ≠ some t then some 3 else none

/-- SCALE: scales with a 16-bit type, or a scale tile of `per` bytes a block outside the group's scratchpad. -/
def scaleBad (d : TileDesc) (t : Ty) (per k alloc : Nat) : Bool :=
  d.en && (t.isF16 || decide (alloc < d.off + per * ceilDiv k 32))

/-- The A operand of an `mma`: M, K and the first check that fails. -/
def X.mmaA (x : X) (s : State) (t : Ty) (a : MOp) (tA : Nat) : (Nat × Nat) × Option Nat :=
  match a with
  | .tile n => ((128, 64 * tA), if 16 < n.toNat + tA then some 5 else none)
  | .td n =>
    let d := x.tm.desc n.toNat
    ((d.rows, d.cols),
      match descBad d 0 t with
      | some k => some k
      | none => if scaleBad d t 128 d.cols (x.alloc s) then some 7 else if 128 < d.rows then some 8 else none)

/-- The B operand: K, N and the first check that fails; destination tiles start at aD. -/
def X.mmaB (x : X) (s : State) (t : Ty) (aD : Nat) (b : MOp) (tB : Nat) : (Nat × Nat) × Option Nat :=
  match b with
  | .tile n =>
    let lo := n.toNat
    ((128, 64 * tB),
      if 16 < lo + tB then some 5 else if lo < aD + tB ∧ aD < lo + tB then some 6 else none)
  | .td n =>
    let d := x.tm.desc n.toNat
    ((d.rows, d.cols),
      match descBad d 1 t with
      | some k => some k
      | none => if scaleBad d t 256 d.rows (x.alloc s) then some 7 else if 256 < d.cols then some 8 else none)

/-- The operand carries scales. -/
def X.scaled (x : X) (o : MOp) : Bool := match o with | .td n => (x.tm.desc n.toNat).en | .tile _ => false

/-- The descriptor that an operand names. -/
def X.descOf (x : X) (o : MOp) : TileDesc := match o with | .td n => x.tm.desc n.toNat | .tile _ => .zero

/-- An operand of an `mma` as a port: the records of a descriptor. -/
def rdMOp (o : MOp) : List Port := match o with | .td n => rdDesc n.toNat | .tile _ => []

/-- `mma` (R239). -/
def execMma (h : Hdr) (ty : Ty) (g : GearSel) (d : BitVec 4) (a b : MOp) (tA tB : BitVec 2) (s : State) :
    Host.Outcome State Fault Refusal :=
  let i : Instr := .mma h ty g d a b tA tB
  matrixInstr i h (rdMOp a ++ rdMOp b) (fun x s =>
    match x.st with
    | some w => x.submit s true false [] (x.mcmdOf i w.cap)
    | none =>
      let ((_, kA), badA) := x.mmaA s ty a (tA.toNat + 1)
      let ((kB, n), badB) := x.mmaB s ty d.toNat b (tB.toNat + 1)
      match badA, badB with
      | some k, _ => mBad s 6 k
      | none, some k => mBad s 7 k
      | none, none =>
        if kA ≠ kB ∨ kA % groupLen ty ≠ 0 ∨ ((x.scaled a || x.scaled b) ∧ kA % 32 ≠ 0) then mBad s 7 4
        else if 16 < d.toNat + ceilDiv n 64 then mBad s 5 5
        else x.submit s true false [] (x.mcmd i 0 [] (x.descOf a) (x.descOf b))) s

/-! ### mz, mrd, mwr, mst, mstat (R240-R244) -/

/-- `mz` (R240). -/
def execMz (h : Hdr) (mask : BitVec 16) (rel : Bool) (s : State) : Host.Outcome State Fault Refusal :=
  let i : Instr := .mz h mask rel
  matrixInstr i h [] (fun x s =>
    match x.st with
    | some w => x.submit s true false [] (x.mcmdOf i w.cap)
    | none => x.submit s true false [] (x.mcmd i 0 [] .zero .zero)) s

/-- Registers of n rows of type t. -/
def rowRegs (t : Ty) (nm1 : BitVec 7) : Nat := if t.isF16 then (nm1.toNat + 1) / 2 else nm1.toNat + 1

/-- `mrd` (R241). -/
def execMrd (h : Hdr) (ty : Ty) (r : RndSel) (d : BitVec 8) (a : BitVec 4) (b : Opnd) (nm1 : BitVec 7) (s : State) :
    Host.Outcome State Fault Refusal :=
  let i : Instr := .mrd h ty r d a b nm1
  matrixInstr i h (wr (rowRegs ty nm1) (.v d) ++ rd 1 b) (fun x s =>
    let keys := dstKeys (.v d) (rowRegs ty nm1) x.e
    match x.st with
    | some w => x.submit s true false keys (x.mcmdOf i w.cap)
    | none => x.submit s true false keys (x.mcmd i (x.num b % 128) [] .zero .zero)) s

/-- `mwr` (R242). -/
def execMwr (h : Hdr) (ty : Ty) (d : BitVec 4) (a : BitVec 8) (b : Opnd) (nm1 : BitVec 7) (s : State) :
    Host.Outcome State Fault Refusal :=
  let i : Instr := .mwr h ty d a b nm1
  matrixInstr i h (rd (rowRegs ty nm1) (.v a) ++ rd 1 b) (fun x s =>
    match x.st with
    | some w => x.submit s true false [] (x.mcmdOf i w.cap)
    | none =>
      let rows : List Row := (List.range (rowRegs ty nm1)).map (fun j =>
        lanes.map (fun l => (x.rd.vrow (a.toNat + j)).cell l))
      x.submit s true false [] (x.mcmd i (x.num b % 128) rows .zero .zero)) s

/-- An element of an OUT descriptor past the global window. -/
def TileDesc.beyond (d : TileDesc) (t : Ty) : Option Nat :=
  let last := d.base + d.stride * (d.nRuns - 1) + runBytes t d.runLen
  if 2 ^ 56 < last then some (max d.base (2 ^ 56)) else none

/-- `mst` (R243): stage 2 waits for the conversion, stage 3 has its result, stages 4 and 5 store it without and with
poisoned lines, stage 6 has failed. -/
def execMst (h : Hdr) (ty : Ty) (r : RndSel) (d a : BitVec 4) (s : State) : Host.Outcome State Fault Refusal :=
  let i : Instr := .mst h ty r d a
  matrixInstr i h (rdDesc d.toNat) (fun x s =>
    let store (psn : Bool) (s : State) (ps : List Piece) : Res :=
      x.storeAs s ⟨.matrix, if psn then some 1 else none⟩ (if psn then 5 else 4) ps
    match x.st with
    | some w =>
      if w.stage = 0 then x.submit s true true [] (x.mcmdOf i w.cap)
      else if w.stage = 2 then x.hold s 2 w.cap
      else if w.stage = 3 then
        let row := w.cap.headD 0
        if row ≠ 0 then .stop (s.breach x.t x.f 2 (BitVec.ofNat 64 (row - 1)) (row - 1))
        else
          let ps := piecesOf (w.cap.drop 66)
          let s := s.modTeam x.t (fun tm => { tm with gens := ((w.cap.drop 2).take 64).map (BitVec.ofNat 32) })
          store (w.cap.getD 1 0 = 1) (s.unspin x) ps
      else if w.stage = 6 then .token s (x.op s .matrix [] (.fail (w.cap.headD 7)))
      else store (w.stage = 5) s (piecesOf w.cap)
    | none =>
      let t := x.tm.desc d.toNat
      match descBad t 2 ty with
      | some k => mBad s 5 k
      | none =>
        if 128 < t.rows ∨ 256 < t.cols then mBad s 5 8
        else if 16 < a.toNat + ceilDiv t.cols 64 then mBad s 6 5
        else match t.beyond ty with
          | some v => .trap s .xlat 1 (BitVec.ofNat 64 v)
          | none => x.submit s true true [] (x.mcmd i 0 [] t .zero)) s

/-- `mstat` (R244). -/
def execMstat (h : Hdr) (d : Opnd) (sel : BitVec 8) (b : Opnd) (s : State) : Host.Outcome State Fault Refusal :=
  let i : Instr := .mstat h d sel b
  matrixInstr i h (wr 1 d ++ (if 2 ≤ sel.toNat then rd 1 b else [])) (fun x s =>
    let keys := dstKeys d 1 x.e
    match x.st with
    | some w => x.submit s false false keys (x.mcmdOf i w.cap)
    | none => x.submit s false false keys (x.mcmd i (if 2 ≤ sel.toNat then x.num b % 16 else 0) [] .zero .zero)) s

end Sys2Proof.Machine
end

