-- ==== Sys2Proof/Machine/MatrixExec.lean ====
section
/-! DEFINITION. The matrix unit at work (R212-R233, R239-R244): acceptance, execution, the lease, tile saves. -/

namespace Sys2Proof.Machine

/-! ### Ends of commands -/

/-- A command of a token ends, with what it writes or its error. -/
def State.mxEnd (s : State) (id : Nat) (us : List Upd) (err : Option Nat) : State :=
  let w : Work := match err with | none => .done us | some c => .fail c
  let s := { s with ops := tmod s.ops id (fun o => { o with work := w }) }
  if s.postOrder id then s.opFinish id us err else s

/-- The `mst` that a path holds for goes to a stage, with what its hold keeps from now on. -/
def State.mstGo (s : State) (c : MCmd) (stage : Nat) (cap : List Nat) : State :=
  s.modTeam c.team (fun tm =>
    let go (p : Path) : Path := match p.hold with
      | .inside i c0 r0 old 2 pg ly ft =>
        if i = c.i ∧ old.tail = [c.op] then { p with hold := .inside i c0 r0 (old.headD 0 :: cap) stage pg ly ft } else p
      | _ => p
    { tm with p0 := go tm.p0, p1 := go tm.p1 })

/-- A command fails. -/
def State.mxFail (s : State) (c : MCmd) (cause : Nat) : State :=
  match c.i with
  | .mst .. => s.mstGo c 6 [cause]
  | _ => s.mxEnd c.op [] (some cause)

/-- Tile instructions (R215). -/
def isTile : Instr → Bool
  | .mz .. | .mma .. | .mrd .. | .mwr .. | .mst .. => true
  | _ => false

/-! ### Acceptance (R212, R213) -/

/-- Group g has a tile command with a number up to n queued or accepted. -/
def MatrixU.tileUpTo (m : MatrixU) (g n : Nat) : Bool :=
  let p (c : MCmd) : Bool := c.group = g && isTile c.i && c.op ≤ n
  m.acc.any p || m.queues.any (fun q => q.2.any p)

/-- The release of the lease that an accepted `mz` asked for takes effect (R216). -/
def State.relCheck (s : State) (core : Nat) : State :=
  s.modMx core (fun m =>
    match m.rel, m.holder with
    | some n, some g => if m.tileUpTo g n then m else { m with holder := none, rel := none }
    | _, _ => m)

/-- The head of queue q may be accepted: a tile command needs the lease, before a release that stands in front of it. -/
def MatrixU.takes (m : MatrixU) (q : Nat) : Option MCmd :=
  match m.queue q with
  | [] => none
  | c :: _ =>
    if !isTile c.i then some c
    else if m.holder = some c.group && (match m.rel with | some n => c.op ≤ n | none => true) then some c
    else none

/-- The quadrants in round-robin order from the one after the last. -/
def MatrixU.order (m : MatrixU) : List Nat := (List.range 4).map (fun j => (m.rr + j) % 4)

/-- Heads that need the lease and whose group does not hold it ask for it again (R216). -/
def State.askAgain (s : State) (core : Nat) : State :=
  (List.range 4).foldl (fun s q =>
    match (s.core core).mx.queue q with
    | c :: _ =>
      if isTile c.i ∧ (s.core core).mx.holder ≠ some c.group then
        match tget s.teams c.team with
        | some tm => s.leaseAsk core ⟨c.group, c.clk0, q, tm.teamid⟩
        | none => s
      else s
    | [] => s) s

/-- `MATRIX_COMMAND_ACCEPT` (R212, R213): the unit takes one command, at most one a clk. `mtd` and `msd` complete with it. -/
def execMatrixCommandAccept (core : Nat) (s : State) : Host.Outcome State Fault Refusal :=
  let s := s.askAgain core
  let m := (s.core core).mx
  answer (if m.accAt = some s.clk then s else match m.order.find? (fun q => (m.takes q).isSome) with
    | none => s
    | some q =>
      match m.takes q with
      | none => s
      | some c =>
        let c := { c with g5 := (s.core core).mxcfg.getLsbD 1 }
        let s := s.modMx core (fun m => { m with queues := tset m.queues q (m.queue q).tail, rr := (q + 1) % 4, accAt := some s.clk })
        if m.fail then (s.mxFail c 7).relCheck core
        else
          match c.i with
          | .mtd .. | .msd .. => s.mxEnd c.op [] none
          | .mz _ _ true => s.modMx core (fun m => { m with acc := m.acc ++ [c], rel := some c.op })
          | _ => s.modMx core (fun m => { m with acc := m.acc ++ [c] }))

/-! ### The lease (R215, R217) -/

/-- An older request (R215). -/
def LeaseReq.before (a b : LeaseReq) : Bool :=
  a.clk < b.clk || (a.clk = b.clk && (a.quad < b.quad || (a.quad = b.quad && a.team < b.team)))

/-- A tile command of group g is queued. -/
def MatrixU.queuedTile (m : MatrixU) (g : Nat) : Bool := m.queues.any (fun q => q.2.any (fun c => c.group = g && isTile c.i))

/-- Group g lies in bank b of the core. -/
def State.inBank (s : State) (core g : Nat) (b : Bool) : Bool :=
  (tget s.groups g).any (fun x => x.core = core && !x.spilled && (!(s.core core).shadow || x.bank == b))

/-- Requests that may be granted: of groups in the active bank, and of groups with a queued tile command; while an
outgoing bank's commands drain, of its own queued commands alone (R217). -/
def State.leaseWaits (s : State) (core : Nat) : List LeaseReq :=
  let m := (s.core core).mx
  m.waiting.filter (fun r => match m.saving with
    | some b => m.queuedTile r.group && s.inBank core r.group b
    | none => m.queuedTile r.group || s.inBank core r.group (s.core core).act)

/-- `LEASE_GRANT` (R215, R217): the oldest request takes the free lease, once the tile commands accepted before it have
executed; its tiles are clear, or its saved ones. -/
def execLeaseGrant (core : Nat) (s : State) : Host.Outcome State Fault Refusal :=
  let m := (s.core core).mx
  answer (
    if m.holder.isSome then s
    else
      match s.leaseWaits core with
      | [] => s
      | r :: rs =>
        let r := rs.foldl (fun b r => if r.before b then r else b) r
        match tget s.groups r.group with
        | none => s
        | some g =>
          if m.acc.any (fun c => isTile c.i && c.group ≠ r.group) then s
          else
            let s := s.modMx core (fun m => { m with holder := some r.group, tiles := g.saved.getD [], rel := none
                                                     waiting := m.waiting.filter (fun w => w.group ≠ r.group) })
            { s with groups := tset s.groups r.group { g with saved := none } })

/-- `TILE_SPILL` (R217): every queued command of the outgoing teams has executed; the tiles of an outgoing holder are saved
and the lease is free. -/
def execTileSpill (core : Nat) (s : State) : Host.Outcome State Fault Refusal :=
  let m := (s.core core).mx
  answer (match m.saving with
    | none => s
    | some b =>
      let busy (c : MCmd) : Bool := s.inBank core c.group b
      if m.acc.any busy ∨ m.queues.any (fun q => q.2.any busy) then s
      else
        let out := m.holder.filter (fun g => s.inBank core g b)
        let s := match out.bind (fun g => (tget s.groups g).map (fun x => (g, x))) with
          | some (g, x) => { s with groups := tset s.groups g { x with saved := some m.tiles } }
          | none => s
        s.modMx core (fun m => { m with saving := none, rel := if out.isSome then none else m.rel
                                        holder := if out.isSome then none else m.holder }))

/-! ### Operands of mma (R223-R228, R239) -/

/-- The runs of an operand that K-block n needs (R227); `b` tells operand B. -/
def TileDesc.blockRuns (d : TileDesc) (t : Ty) (b : Bool) (n : Nat) : List (Nat × Nat) :=
  let k := if b then d.rows else d.cols
  let w := min 32 (k - 32 * n)
  if d.colMaj == b then (d.runAddrs t).map (fun r => (r.1 + runBytes t (32 * n), runBytes t w))
  else ((d.runAddrs t).drop (32 * n)).take w

/-- The lines of runs. -/
def runLines (rs : List (Nat × Nat)) : List Nat :=
  (rs.flatMap (fun r => if r.2 = 0 then [] else (List.range ((r.1 + r.2 - 1) / 128 - r.1 / 128 + 1)).map (fun j => r.1 / 128 + j))).eraseDups

/-- The slice and set in whose order a core's fetch unit pins a line (R227): the RDC counts as slice 16. -/
def pinKey (core pa : Nat) : Nat :=
  match homeOf pa with
  | .stack n => if n = core / 16 then sliceOf pa * 2048 + setOf pa else 16 * 2048 + setOf pa
  | _ => 16 * 2048 + setOf pa

/-- Lines with their place, in pinning order. -/
def pinSort (core : Nat) : List (Bool × Nat × Chunk) → List (Bool × Nat × Chunk)
  | [] => []
  | x :: xs =>
    let key (y : Bool × Nat × Chunk) : Nat := match y.2.2.at_ with | .mem _ pa _ => pinKey core pa | _ => 0
    let rec put : List (Bool × Nat × Chunk) → List (Bool × Nat × Chunk)
      | [] => [x]
      | y :: ys => if key x ≤ key y then x :: y :: ys else y :: put ys
    put (pinSort core xs)

/-- What the fetch of a K-block gives: its lines, a hold, or the command's failure. -/
inductive Fetched where
  | got (ls : List GotLine)
  | hold (page layer : Option Nat)
  | fail (cause : Nat)
  deriving DecidableEq, Repr

/-- The team's own writes lie over what its tile fetch reads: its side-log entries are replayed, and the version of the
open task is seen, unless a handler issued the command (R196, R203, R229, R277). -/
def State.teamRead (s : State) (c : MCmd) (k : Chunk) : List EByte × State :=
  match k.at_, tget s.teams c.team with
  | .mem va pa p, some tm =>
    let s := if (s.core tm.core).side.any (fun e => e.ctx = tm.ctx && e.vline = va / 128) then
        s.replayLine tm.core tm.ctx (va / 128) else s
    let s := s.cacheRead (tm.core / 16) tm.ctx (pteCls p) (lineOf pa)
    let (bs, s) := s.engRead k
    let bs := bs.map (fun b => { b with bad := b.bad || s.replicaBad (tm.core / 16) (lineOf pa) })
    let inH := match tget s.ops c.op with | some o => o.inH | none => false
    let line := lineOf pa
    match (if inH then none else tm.task.bind (fun t => tget t.lines line)) with
    | none => (bs, s)
    | some v =>
      let mem := (List.range 32).map (recBound (s.recGet line))
      (bs.zipIdx.map (fun q =>
        let off := pa % 128 + q.2
        ⟨(v.byte off).getD q.1.x, if pteBnd p then v.bound mem (off / 4) else 0, q.1.bad || v.poison⟩), s)
  | _, _ => s.engRead k

/-- The descriptor operands of an `mma` that its command names. -/
def MCmd.tds (c : MCmd) : List (Bool × TileDesc) :=
  match c.i with
  | .mma _ _ _ _ a b _ _ =>
    (match a with | .td _ => [(false, c.tdA)] | .tile _ => []) ++ (match b with | .td _ => [(true, c.tdB)] | .tile _ => [])
  | _ => []

/-- K-blocks that an `mma` fetches. -/
def MCmd.blocks (c : MCmd) : Nat := (c.tds.head?.map (fun d => ceilDiv (if d.1 then d.2.rows else d.2.cols) 32)).getD 0

/-- The tile fetch of K-block `c.blk` (R226-R229): its pages are translated, then its lines pinned in their order and
read. The pins are held together until the block's products are formed, so no write to these lines falls between one of
them and another; the model takes the pinning and the release of a block in one step (log entry 28). A line that an
earlier block has read keeps its instant. -/
def State.fetchBlock (s : State) (ctx core : Nat) (t : Ty) (c : MCmd) : Fetched × State :=
  if c.tds.any (fun d => (d.2.runAddrs t).any (fun r => 2 ^ 56 < r.1 + r.2)) then (.fail 7, s)
  else
    let need := c.tds.flatMap (fun d => (runLines (d.2.blockRuns t d.1 c.blk)).filterMap (fun v =>
      if c.got.any (fun l => l.b = d.1 && l.vline = v) then none else some (d.1, v)))
    match c.fate.engFail 7 with
    | some e => (.fail e, s)
    | none =>
      match s.engResolve ctx c.group false [] (need.map (fun n => .va (128 * n.2) 128)) with
      | (.error (va, l), _, s) =>
        match s.engBad ctx 4 core va l with
        | (.hold p y, s) => (.hold p y, s)
        | (.fail e, s) => (.fail (if e = 2 ∨ e = 4 then e else 7), s)
      | (.ok ks, _, s) =>
        if ks.any (fun k => match k.at_ with | .mem _ _ p => pteCmp p | _ => false) then (.fail 7, s)
        else if s.behind c.team c.op ks then (.hold none none, s)
        else
          let (ls, s) := (pinSort core ((need.zip ks).map (fun p => (p.1.1, p.1.2, p.2)))).foldl (fun (a : List GotLine × State) n =>
            let (bs, s) := a.2.teamRead c n.2.2
            (⟨n.1, n.2.1, bs.map (fun b => (b.x, b.b, b.bad))⟩ :: a.1, s)) (([] : List GotLine), s)
          if ls.any (fun l => l.bs.any (fun b => b.2.2)) then (.fail 1, s) else (.got ls, s)

/-- The bytes and bounds of a run of an operand, from the lines read. -/
def gotRun (got : List GotLine) (b : Bool) (r : Nat × Nat) : List Byte × List Half :=
  let bs := (runLines [r]).flatMap (fun v => ((got.find? (fun l => l.b = b && l.vline = v)).map (fun l => l.bs)).getD [])
  let bs := (bs.drop (r.1 % 128)).take r.2
  (bs.map Prod.fst, bs.map (fun x => x.2.1))

/-- The bytes of a descriptor's scale tile (R224), for k elements along K: `per` bytes a block of 32. -/
def State.scaleBytes (s : State) (g : Nat) (d : TileDesc) (per k : Nat) : List Byte :=
  if d.en then (List.range (per * ceilDiv k 32)).map (fun i => s.scrGet g (d.off + i)) else []

/-- A scale byte of the command lies in a corrupted word (R397). -/
def State.scaleEcc (s : State) (c : MCmd) : Bool :=
  c.tds.any (fun d => d.2.en && (s.scrEcc [⟨.scr c.group d.2.off, (if d.1 then 256 * ceilDiv d.2.rows 32 else 128 * ceilDiv d.2.cols 32)⟩]).isSome)

/-- Scale bytes as an `mma` reads them while it executes: one that changed meanwhile is old or new, each by itself (R225). -/
def mixBytes (n : Nat) (old new : List Byte) : List Byte :=
  (new.zip old).zipIdx.map (fun p => if Config.freeNat (n + p.2) % 2 = 0 then p.1.1 else p.1.2)

/-- Element (r, c) of a fetched operand, with its scale byte. -/
def fetchedEl (t : Ty) (d : TileDesc) (runs : List (List Byte × List Half)) (scale r c : Nat) : MEl :=
  let (bs, bb) := runs.getD (if d.colMaj then c else r) ([], [])
  let (x, b) := runEl t bs bb (if d.colMaj then r else c)
  mkEl t x b scale

/-- The scale byte of block j at index i (R224); 127 stands for 1. -/
def scaleAt (sc : List Byte) (per i j : Nat) : Nat := match sc[per * j + i]? with | some b => b.toNat | none => 127

/-- A cell of a tile row as an element of type t: rounded with RNE, its bound the row's and the rounding's. -/
def tileEl (t : Ty) (tag : Nat) (r : TileRow) (j : Nat) : MEl :=
  let z := rneTo (Ty.fmt t) (.of (cellVal tag (r.cells.getD j 0)))
  let v := (Ty.fmt t).dec ((Ty.fmt t).enc z.z)
  ⟨.of v, 0, bVal (if v.isFin then ebAdd r.rb z.rho else 0xFF00)⟩

/-- Rows of A, with their poison. -/
def mmaAs (m : MatrixU) (t : Ty) (c : MCmd) (a : MOp) (tA : Nat) : List (List MEl × Bool) :=
  match a with
  | .td _ =>
    let d := c.tdA
    let runs := (d.runAddrs t).map (gotRun c.got false)
    (List.range d.rows).map (fun i =>
      ((List.range d.cols).map (fun k => fetchedEl t d runs (scaleAt c.scA 128 i (k / 32)) i k), false))
  | .tile n =>
    tileRows.map (fun i =>
      let rs := (List.range tA).map (fun q => ((m.tile (n.toNat + q)).tag, ((m.tile (n.toNat + q)).row i).checked))
      (rs.flatMap (fun r => lanes.map (tileEl t r.1 r.2)), rs.any (fun r => r.2.psn)))

/-- Columns of B. -/
def mmaBs (m : MatrixU) (t : Ty) (c : MCmd) (b : MOp) (tB : Nat) : List (List MEl) :=
  match b with
  | .td _ =>
    let d := c.tdB
    let runs := (d.runAddrs t).map (gotRun c.got true)
    (List.range d.cols).map (fun j =>
      (List.range d.rows).map (fun k => fetchedEl t d runs (scaleAt c.scB 256 j (k / 32)) k j))
  | .tile n =>
    (List.range (64 * tB)).map (fun j =>
      let x := m.tile (n.toNat + j / 64)
      tileRows.map (fun k => tileEl t x.tag (x.row k) (j % 64)))

/-- Column c of the destination tiles as a faulty unit computed it (R234): free cells, poisoned rows, in the tiles whose
column c the `mma` writes; `cols` is N. -/
def spoil (c rows cols n : Nat) (ts : List Tile) : List Tile :=
  ts.zipIdx.map (fun (t, q) =>
    if cols ≤ 64 * q + c then t
    else { t with rows := (List.range rows).foldl (fun rs i =>
        let r := t.row i
        let cs := r.cells.zipIdx.map (fun x =>
          if x.2 = c then BitVec.ofNat 48 (Config.freeNat (n + (q * 128 + i))) else x.1)
        tset rs i (mkRow cs r.rb true)) t.rows })

/-! ### Execution (R213, R219, R220, R239-R244) -/

/-- The command at the head of the accepted ones is done. -/
def State.mxPop (s : State) (core : Nat) : State :=
  State.relCheck (s.modMx core (fun m => { m with acc := m.acc.tail })) core

def State.setTiles (s : State) (core : Nat) (n : Nat) (ts : List Tile) : State :=
  s.modMx core (fun m => ts.zipIdx.foldl (fun m t => m.setTile (n + t.2) t.1) m)

/-- A residue mismatch is counted (R232, R426). -/
def State.countMismatch (s : State) (core c : Nat) : State :=
  let p := s.physOf core
  let s := s.modMx core (fun m => { m with evt := min (m.evt + 1) 255 })
  (s.recordUnit (.matrix p) 1 c).countError (.matrix p)

/-- Column c is retired to the lower free spare (R232). -/
def State.retireCol (s : State) (core c : Nat) : State :=
  let s := s.modMx core (fun m => if m.spu = 0 then { m with spu := 1, rc0 := c } else { m with spu := 2, rc1 := c })
  s.recordUnit (.matrix (s.physOf core)) 3 c

/-- A fault of the array in column c while an `mma` computes a summation group (R232-R234), after which so many
computations of the same group mismatch too: each is counted, and the result left as computed, the column retired, or,
with no spare free, the group computed again, up to two times. True: the unit has failed. -/
def State.mismatch (s : State) (core c : Nat) (g5 : Bool) : Nat → Bool × State
  | 0 =>
    let s := s.countMismatch core c
    if g5 then (false, s)
    else if !(s.core core).mxcfg.getLsbD 0 then (true, s)
    else (false, if (s.core core).mx.spu < 2 then s.retireCol core c else s)
  | k + 1 =>
    let s := s.countMismatch core c
    if g5 then (false, s)
    else if !(s.core core).mxcfg.getLsbD 0 then (true, s)
    else if (s.core core).mx.spu < 2 then (s.retireCol core c).mismatch core c g5 k
    else (decide (k ≠ 0), if k = 0 then s.countMismatch core c else (s.countMismatch core c).countMismatch core c)

/-- The mismatches of one step of an `mma`, in turn, until the unit fails. -/
def State.mismatches (s : State) (core : Nat) (g5 : Bool) : List (Nat × Nat) → Bool × State
  | [] => (false, s)
  | (c, more) :: ms =>
    match s.mismatch core c g5 more with
    | (true, s) => (true, s)
    | (false, s) => s.mismatches core g5 ms

/-- The unit fails (R233): its contexts take the error path, the core is marked lasting, every command fails. -/
def State.mxUnitFail (s : State) (core : Nat) : State :=
  let m := (s.core core).mx
  let cmds := m.acc ++ m.queues.flatMap (fun q => q.2)
  let gs := m.holder.toList ++ cmds.map (fun c => c.group)
  let ctxs := (gs.filterMap (fun g => (tget s.groups g).map (fun x => x.ctx))).eraseDups
  let s := s.recordUnit (.matrix (s.physOf core)) 2 0
  let s := s.modMx core (fun m => { m with fail := true, acc := [] })
  let s := m.acc.foldl (fun s c => s.mxFail c 7) s
  (ctxs.foldl State.ctxError (s.markLasting (.core (s.physOf core)))).relCheck core

/-- Rows of tile n that a command reads are checked: a mismatch poisons its row and counts as a soft error (R219). -/
def State.checkRows (s : State) (core n : Nat) (rows : List Nat) : State :=
  let t := (s.core core).mx.tile n
  let s := s.modMx core (fun m => m.setTile n (rows.foldl Tile.check (m.tile n)))
  let u := ErrUnit.matrix (s.physOf core)
  (rows.filter (fun i => (t.row i).wrong)).foldl (fun s i => (s.recordUnit u 2 i).countError u) s

/-- The oldest accepted command changes. -/
def State.modHead (s : State) (core : Nat) (c : MCmd) : State := s.modMx core (fun m => { m with acc := c :: m.acc.tail })

/-- Computes an `mma` whose operands are fetched (R239): the rows that it reads are checked, the destination tiles take
the format of the gear, then A is read, and the destination rows are written. -/
def State.mmaRun (s : State) (core : Nat) (c : MCmd) (ty : Ty) (g : GearSel) (d : Nat) (a b : MOp) (tA tB : Nat) : State :=
  let nOf (m : MatrixU) : MmaIn :=
    let as := mmaAs m ty c a tA
    { ty := ty, as := as.map Prod.fst, apsn := as.map Prod.snd, bs := mmaBs m ty c b tB }
  let x := nOf (s.core core).mx
  let dest := (List.range (ceilDiv x.bs.length 64)).map (fun q => d + q)
  let s := dest.foldl (fun s n => s.checkRows core n (List.range x.as.length)) s
  let s := match a with
    | .tile n => (List.range tA).foldl (fun (s : State) q => s.checkRows core (n.toNat + q) tileRows) s
    | .td _ => s
  let m := (s.core core).mx
  let ins (g : Nat) : MmaIn := nOf (dest.foldl (fun m n => m.setTile n ((m.tile n).convert (mBt c.mode) (gearTag g) x.as.length).1) m)
  let out := mmaTiles (nOf m) ins g c.mode c.budg (dest.map m.tile)
  let (out, n) := c.spoilt.foldl (fun (o : List Tile × Nat) col => (spoil col x.as.length x.bs.length o.2 o.1, o.2 + 512)) (out, s.free)
  ((({ s with free := n }).setTiles core d out).mxEnd c.op [] none).mxPop core

/-- One step of an `mma` (R227, R239): the fetch of its next K-block, or, when all are in, its computation. -/
def State.runMma (s : State) (core ctx : Nat) (c : MCmd) (bad : List (Nat × Nat)) (ty : Ty) (g : GearSel) (d : Nat) (a b : MOp)
    (tA tB : Nat) : State :=
  match s.mismatches core c.g5 bad with
  | (true, s) => s.mxUnitFail core
  | (false, s) =>
    let c := { c with spoilt := if c.g5 then (c.spoilt ++ bad.map Prod.fst).eraseDups else [] }
    let kA := c.tdA.cols
    let kB := c.tdB.rows
    if s.scaleEcc c then (s.mxFail c 1).mxPop core
    else if c.blk < c.blocks then
      match s.fetchBlock ctx core ty c with
      | (.hold p y, s) => s.modHead core { c with page := p, layer := y, fate := .open }
      | (.fail e, s) => (s.mxFail c e).mxPop core
      | (.got ls, s) =>
        let c := if c.blk = 0 then { c with scA := s.scaleBytes c.group c.tdA 128 kA, scB := s.scaleBytes c.group c.tdB 256 kB } else c
        s.modHead core { c with blk := c.blk + 1, got := ls ++ c.got, page := none, layer := none, fate := .open }
    else
      let c := { c with scA := mixBytes s.free c.scA (s.scaleBytes c.group c.tdA 128 kA)
                        scB := mixBytes (s.free + c.scA.length) c.scB (s.scaleBytes c.group c.tdB 256 kB) }
      ({ s with free := s.free + c.scA.length + c.scB.length }).mmaRun core c ty g d a b tA tB

/-- One rounding of a cell for lane l of a team's generators. -/
def cellOut (t : Ty) (m : RMode) (bt : Bool) (tag : Nat) (r : TileRow) (l : Nat) (g : Word) : El × Word :=
  let z := (Ex.of (cellVal tag (r.cells.getD l 0))).round (Ty.fmt t) m false g
  (z.out bt (Ty.fmt t) r.rb, z.g)

/-- Executes `mrd` (R241). -/
def State.runMrd (s : State) (core : Nat) (c : MCmd) (ty : Ty) (r : RndSel) (d a n : Nat) : State :=
  let s := s.checkRows core a ((List.range n).map (fun i => (c.b + i) % 128))
  let t := (s.core core).mx.tile a
  if (List.range n).any (fun i => (t.row ((c.b + i) % 128)).psn) then (s.mxEnd c.op [] (some 1)).mxPop core
  else
    match tget s.teams c.team with
    | none => s.mxPop core
    | some tm =>
      let m := rmode c.mode r
      let bt := mBt c.mode
      let one (i l : Nat) (g : Word) : El × Word :=
        if ty.isF16 then
          let (x, g) := cellOut ty m bt t.tag (t.row ((c.b + 2 * i) % 128)) l g
          let (y, g) := cellOut ty m bt t.tag (t.row ((c.b + 2 * i + 1) % 128)) l g
          (⟨x.x + y.x * 2 ^ 16, ebMax x.b y.b⟩, g)
        else cellOut ty m bt t.tag (t.row ((c.b + i) % 128)) l g
      let k := if ty.isF16 then n / 2 else n
      let cols := lanes.map (fun l => (List.range k).foldl (fun (a : List El × Word) i =>
        let (x, g) := one i l a.2
        (a.1 ++ [x], g)) ([], tm.gen l))
      let us := (List.range k).map (fun i => Upd.vec (d + i) (lanes.map (fun l =>
        let x := ((cols.getD l ([], 0)).1).getD i ⟨0, 0⟩
        ⟨l, some (BitVec.ofNat 32 x.x), some x.b⟩)))
      let s := s.modTeam c.team (fun tm => { tm with gens := cols.map Prod.snd })
      (s.mxEnd c.op us none).mxPop core

/-- Executes `mwr` (R242). -/
def State.runMwr (s : State) (core : Nat) (c : MCmd) (ty : Ty) (d n : Nat) : State :=
  let t := (s.core core).mx.tile d
  let row (i : Nat) : TileRow :=
    let ps := lanes.map (fun l =>
      let x := Row.cell (c.rows.getD (if ty.isF16 then i / 2 else i) []) l
      let bits := if ty.isF16 then slotOf ty x.val.toNat (i % 2) else x.val.toNat
      let z := rneTo (tagFmt t.tag) (.of ((Ty.fmt ty).dec bits))
      (cellOf t.tag z.z, computed (mBt c.mode) (if z.z.isFin then ebAdd x.bnd z.rho else 0xFF00)))
    mkRow (ps.map Prod.fst) (ps.foldl (fun b p => ebMax b p.2) 0) false
  let t := { t with rows := (List.range n).foldl (fun rs i => tset rs ((c.b + i) % 128) (row i)) t.rows }
  ((s.setTiles core d [t]).mxEnd c.op [] none).mxPop core

/-- An element of `mst`: its row, its address, its bits and bound, and the poison of its row. -/
structure OutEl where
  i    : Nat
  addr : Nat
  x    : El
  psn  : Bool
  deriving DecidableEq, Repr

/-- The elements of an `mst` in row-major order, and the generators after them (R243). -/
def mstEls (ty : Ty) (m : RMode) (bt : Bool) (d : TileDesc) (tile : Nat → Tile) (gens : List Word) : List OutEl × List Word :=
  (List.range d.rows).foldl (fun (a : List OutEl × List Word) i =>
    (List.range d.cols).foldl (fun (a : List OutEl × List Word) j =>
      let t := tile (j / 64)
      let (x, g) := cellOut ty m bt t.tag (t.row i) (j % 64) (a.2.getD (j % 64) 0)
      let ad := if d.colMaj then d.base + d.stride * j + ty.bytes * i else d.base + d.stride * i + ty.bytes * j
      (a.1 ++ [⟨i, ad, x, (t.row i).psn⟩], a.2.set (j % 64) g)) a) ([], gens)

/-- Executes `mst` up to its stores, which its path makes (R243). -/
def State.runMst (s : State) (core : Nat) (c : MCmd) (ty : Ty) (r : RndSel) (a : Nat) : State :=
  let d := c.tdA
  let s := (List.range (ceilDiv d.cols 64)).foldl (fun s q => s.checkRows core (a + q) (List.range d.rows)) s
  match tget s.teams c.team with
  | none => s.mxPop core
  | some tm =>
    let m := (s.core core).mx
    let (es, gs) := mstEls ty (rmode c.mode r) (mBt c.mode) d (fun q => m.tile (a + q)) (lanes.map tm.gen)
    let bad := es.find? (fun e => breaches c.mode c.budg (.of ((Ty.fmt ty).dec e.x.x)) e.x.b)
    let ps : List Piece := es.map (fun e => { lane := 0, la := e.addr, addr := e.addr, br := 0, ty := ty, xs := []
                                              bs := toBytes e.x.x ty.bytes, keep := [], bnd := e.x.b, psn := e.psn })
    let psn := es.any (fun e => e.psn)
    let cap := (match bad with | some e => e.i + 1 | none => 0) :: psn.toNat :: gs.map (fun g => g.toNat)
    (s.mstGo c 3 (cap ++ ps.flatMap Piece.enc)).mxPop core

/-- The status word (R244). -/
def State.mxStatus (s : State) (core g : Nat) : Nat :=
  let x := s.core core
  let m := x.mx
  (x.mxcfg.getLsbD 1).toNat * 2 ^ 31 + m.fail.toNat * 2 ^ 30 + m.evt * 2 ^ 22 + m.spu * 2 ^ 20 + m.rc1 * 2 ^ 14 + m.rc0 * 2 ^ 8
    + (if m.holder = some g then 2 ^ 7 else 0)

/-- The row word (R244). -/
def TileRow.word (r : TileRow) : Nat := r.psn.toNat * 2 ^ 18 + r.res * 2 ^ 16 + r.rb.toNat

/-- Executes `mstat` (R244). -/
def State.runMstat (s : State) (core : Nat) (c : MCmd) (d : Opnd) (sel : Nat) : State :=
  let m := (s.core core).mx
  let own := m.holder = some c.group
  let v (l : Nat) : Nat :=
    match sel with
    | 0 => s.mxStatus core c.group
    | 1 => if own then (List.range 16).foldl (fun n t => n + (m.tile t).tag * 2 ^ (2 * t)) 0 else 0
    | k => if own then ((m.tile c.b).row (64 * (k - 2) + l)).word else 0
  (s.mxEnd c.op (dstUpds d false (lanes.map (fun l => (l, ⟨v l, 0⟩)))) none).mxPop core

/-- `MATRIX_COMMAND_EXECUTE` (R213): the oldest accepted command executes, or goes on waiting for its fetch. `mismatch`
lists columns whose residue check fails while an `mma` computes, each with the number of mismatches that follow in the
computations of the same group that it calls for. -/
def execMatrixCommandExecute (core : Nat) (mismatch : List (Nat × Nat)) (s : State) : Host.Outcome State Fault Refusal :=
  answer (match (s.core core).mx.acc with
    | [] => s
    | c :: _ =>
      let ctx := ((tget s.groups c.group).map (fun g => g.ctx)).getD 0
      if (c.page.map (s.faulting ctx)).getD false then s
      else
        match c.i with
        | .mma _ ty g d a b tA tB =>
          s.runMma core ctx c (mismatch.filter (fun col => col.1 < 64)) ty g d.toNat a b (tA.toNat + 1) (tB.toNat + 1)
        | .mz _ mask _ =>
          let ts := (List.range 16).filter (fun t => mask.getLsbD t)
          ((ts.foldl (fun s t => s.setTiles core t [.zero]) s).mxEnd c.op [] none).mxPop core
        | .mrd _ ty r d a _ nm1 => s.runMrd core c ty r d.toNat a.toNat (nm1.toNat + 1)
        | .mwr _ ty d _ _ nm1 => s.runMwr core c ty d.toNat (nm1.toNat + 1)
        | .mst _ ty r _ a => s.runMst core c ty r a.toNat
        | .mstat _ d sel _ => s.runMstat core c d sel.toNat
        | _ => s.mxPop core)

end Sys2Proof.Machine
end

