-- ==== Sys2Proof/Machine/System.lean ====
section
/-! DEFINITION. `mfs`, `mts`, `tinv` and `ckpt` (R340, R407, R408). -/

namespace Sys2Proof.Machine

/-! ### Special registers (R43, R115, R384, R407) -/

/-- KSTAT of a bank (R115). -/
def Team.kstat (tm : Team) (b : Bank) : Nat :=
  (List.range 32).foldl (fun n k => n + (tm.tok b k).ovf.toNat * 2 ^ k + (tm.tok b k).err.toNat * 2 ^ (32 + k)) 0

/-- A write of ones to KSTAT clears (R115). -/
def Team.clearKstat (tm : Team) (b : Bank) (v : Nat) : Team :=
  (List.range 32).foldl (fun tm k =>
    let t := tm.tok b k
    let t := if v.testBit k then { t with ovf := false } else t
    let t := if v.testBit (32 + k) then { t with err := false, cause := 0 } else t
    tm.setTok b k t) tm

/-- The special register as lane l reads it in clk s.clk. -/
def X.sysVal (x : X) (s : State) (r : SysReg) (l : Nat) : Nat :=
  match r with
  | .gen => (x.tm.gen l).toNat
  | .sp .exm => x.p.exm.toNat
  | .sp .mode => x.tm.mode.toNat
  | .sp .budg => x.tm.budg.toNat
  | .sp .bstat => x.tm.bstat.toNat
  | .sp .kstat => x.tm.kstat x.tm.curBank
  | .sp .cyc => (s.clk + (s.core x.tm.core).cycOff.toNat) % 2 ^ 64
  | .sp .rtick => s.rt % 2 ^ 64
  | .sp .tcause => x.tm.tcause.toNat
  | .sp .tepc => x.tm.tepc.toNat
  | .sp .tval => x.tm.tval.toNat
  | .sp .tfr => x.tm.tfr.toNat
  | .sp .tfrag => x.tm.tfrag.toNat
  | .sp r => x.tm.special r l

/-- Registers that a special register fills (R407). -/
def sysWidth : SysReg → Nat
  | .sp .exm | .sp .kstat | .sp .bstat | .sp .tepc | .sp .tfr | .sp .cyc | .sp .rtick | .sp .tval => 2
  | .sp .tfrag => 4
  | _ => 1

/-- `mfs` (R407). -/
def execMfs (h : Hdr) (d : Opnd) (r : SysReg) (s : State) : Host.Outcome State Fault Refusal :=
  instr (.mfs h d r) h (.fixed 4) (wr (sysWidth r) d ++ (if r = .sp .exm then rd 1 (.x .exm) else [])) (fun x s =>
    let v (l : Nat) : Nat := x.sysVal s r l
    match d, sysWidth r with
    | .s k, 4 => .fixed s ((List.range 4).map (fun j => .sca (k.toNat + j) (some (BitVec.ofNat 32 (v 0 / 2 ^ (32 * j)))) (some 0)))
    | d, n => .fixed s (dstUpds d (n = 2) ((x.work d).map (fun l => (l, ⟨v l, 0⟩))))) s

/-- A write of MODE: it clears the team's spin counters and lifts its demotions, those of an interrupted path with them (R37,
R188). -/
def Team.writeMode (tm : Team) (v : Word) : Team :=
  let f (p : Path) : Path := { p with spin := 0, demoted := false }
  { tm with mode := modeNorm v, p0 := f tm.p0, p1 := f tm.p1, intr := tm.intr.map (fun i => { i with path := f i.path }) }

/-- The RW fields of BSTAT (R204). -/
def bstatRw : Dword := 0xFFFFFFFF1FFF0000

/-- `mts` (R407). -/
def execMts (h : Hdr) (r : SysReg) (a : Opnd) (s : State) : Host.Outcome State Fault Refusal :=
  instr (.mts h r a) h .issue (rd (sysWidth r) a) (fun x s =>
    let v32 : Word := BitVec.ofNat 32 (x.rd.int a false 0).x
    let v : Dword := BitVec.ofNat 64 (x.rd.wide a 0)
    let on (f : Team → Team) : Res := .issue (s.modTeam x.t f)
    match r with
    | .gen => on (fun tm => tm.setGens ((lanesOf x.e).map (fun l => (l, genNorm (BitVec.ofNat 32 (x.rd.int a false l).x)))))
    | .sp .mode => on (fun tm => tm.writeMode v32)
    | .sp .budg => on (fun tm => { tm with budg := budgNorm v32 })
    | .sp .exm => .issue (s.pendAdd x.t ⟨s.clk + 4, x.p.pid, .upd (.exm v)⟩)
    | .sp .kstat => on (fun tm => tm.clearKstat tm.curBank v.toNat)
    | .sp .bstat => on (fun tm => { tm with bstat := (v &&& bstatRw) ||| (tm.bstat &&& ~~~bstatRw) })
    | .sp .tepc => if v.toNat % 4 ≠ 0 then .trap s .align 0 v else on (fun tm => { tm with tepc := v.setWidth 56 })
    | .sp .tfr =>
      if 2 ^ 56 ≤ v.toNat then .trap s .xlat 0 v
      else if v.toNat % 1024 ≠ 0 then .trap s .align 0 v
      else on (fun tm => { tm with tfr := v.setWidth 56 })
    | .sp .cyc =>
      if !s.prv x.tm.ctx then .trap s .priv 1 0
      else .issue (s.modCore x.tm.core (fun c => { c with cycOff := v - BitVec.ofNat 64 s.clk }))
    | _ => .issue s) s

/-! ### tinv (R340) -/

/-- The checks of `tinv` after TASKOP, and its operation. -/
def tinv (i : Instr) (h : Hdr) (ps : List Port) (ctx : X → Option Nat) (w : X → Nat → Work) (s : State) :
    Host.Outcome State Fault Refusal :=
  answer (s.issue i h (.token .sys) ps false true (fun x s =>
    let c := (ctx x).getD 0
    if !s.prv x.tm.ctx then .trap s .priv 0 0
    else if 63 < c then .trap s .illop 7 0
    else .token s (x.op s .sys [] (w x c))))

/-- `tinv.page` (R340). -/
def execTinvPage (h : Hdr) (a b : Opnd) (s : State) : Host.Outcome State Fault Refusal :=
  tinv (.tinvPage h a b) h (rd 2 a ++ rd 1 b) (fun x => some (x.rd.int b false 0).x)
    (fun x c => .tinvPage c (x.rd.wide a 0 % 2 ^ 56)) s
/-- `tinv.ctx` (R340). -/
def execTinvCtx (h : Hdr) (b : Opnd) (s : State) : Host.Outcome State Fault Refusal :=
  tinv (.tinvCtx h b) h (rd 1 b) (fun x => some (x.rd.int b false 0).x) (fun _ c => .tinvCtx c) s
/-- `tinv.all` (R340). -/
def execTinvAll (h : Hdr) (s : State) : Host.Outcome State Fault Refusal :=
  tinv (.tinvAll h) h [] (fun _ => none) (fun _ _ => .tinvAll) s

/-! ### ckpt (R408) -/

/-- Launches of a context that are not complete. -/
def State.activeOf (s : State) (c : Nat) : List Nat :=
  (s.launches.filter (fun l => l.2.ctx = c && !l.2.complete)).map Prod.fst

/-- A request for a checkpoint of context c (R400, R408). -/
def State.askCkpt (s : State) (c : Nat) : State :=
  if (s.undoOf c).en then
    { s with undo := tset s.undo c { s.undoOf c with ckpt := true, before := s.activeOf c } }
  else s

/-- `ckpt` (R408): the hub accepts the request as it issues. -/
def execCkpt (h : Hdr) (d : Option (BitVec 6)) (s : State) : Host.Outcome State Fault Refusal :=
  let o : Option Opnd := d.map (fun k => .s k)
  answer (s.issue (.ckpt h d) h (.token .sys) ((o.map (wr 2)).getD []) false true (fun x s =>
    let u := s.undoOf x.tm.ctx
    let v := if u.en then (u.int_ + 1) % 2 ^ 32 else 0
    .token (s.askCkpt x.tm.ctx) (x.op s .sys ((o.map (fun o => dstKeys o 2 x.e)).getD [])
      (.done ((o.map (fun o => dstUpds o true [(0, ⟨v, 0⟩)])).getD [])))))

end Sys2Proof.Machine
end

