-- ==== Sys2Proof/Machine/Rollback.lean ====
section
/-! DEFINITION. Uncorrectable errors (R397), rollback intervals (R398-R400, R408), rollback (R401, R402), and the spare's
takeover (R426-R429). -/

namespace Sys2Proof.Machine

def State.setUndo (s : State) (c : Nat) (u : Undo) : State := { s with undo := tset s.undo c u }

/-! ### Intervals (R398, R400) -/

/-- The queues of a context. -/
def State.ctxQueues (s : State) (c : Nat) : List Nat := (s.queues.filter (fun u => u.2.ctx = c)).map Prod.fst

/-- Interval INT + 1 of context c opens: entries and kept packets go, each queue's RI is recorded. -/
def State.openInterval (s : State) (c : Nat) : State :=
  let u := s.undoOf c
  let cfg := setBits (setBits (setBits u.cfg.toNat 0 32 (u.int_ + 1)) 61 2 1) 63 1 1
  s.setUndo c { u with cfg := BitVec.ofNat 64 cfg, log := [], kept := [], ckpt := false, before := []
                       ri := (s.ctxQueues c).map (fun q => (q, (s.queue q).ri)) }

/-- The CKPT packets of a context that wait for the interval write their signals. -/
def State.ckptEnd (s : State) (c : Nat) : State :=
  (s.ctxQueues c).foldl (fun s q => (s.queue q).live.foldl (fun s v =>
    match v.st with
    | .ckpt _ => s.endStep q v.idx 0 0
    | _ => s) s) s

/-- Operations of a context that have not completed, or side-log entries of it. -/
def State.ctxWrites (s : State) (c : Nat) : Bool :=
  s.ops.any (fun o => match tget s.teams o.2.team with | some tm => tm.ctx = c | none => false)
    || s.cores.any (fun k => k.2.side.any (fun e => e.ctx = c))

/-- `INTERVAL_OPEN` (R400, R408): a checkpoint is wanted, and no launch of the context is active. -/
def execIntervalOpen (ctx : Nat) (s : State) : Host.Outcome State Fault Refusal :=
  let u := s.undoOf ctx
  let before := u.before.all (fun l => match tget s.launches l with | some x => x.complete | none => true)
  answer (if u.en && !u.due && s.ckptWaits ctx && before && (s.activeOf ctx).isEmpty && (s.ctxLaunching ctx).isEmpty
              && !s.ctxWrites ctx then (s.openInterval ctx).ckptEnd ctx
          else s)

/-- `RBCFG_ENABLE` (R398): a write of EN from 0 to 1 opens interval INT + 1 at once. -/
def execRbcfgEnable (ctx : Nat) (s : State) : Host.Outcome State Fault Refusal :=
  answer (if ctx < 64 && !(s.undoOf ctx).en then s.openInterval ctx else s)

/-! ### Uncorrectable errors (R397, R426) -/

/-- What a corrupted word reads as is free (log entry 4); the first read of it raises ECC. -/
def Team.corruptBy (tm : Team) (site : ErrSite) (n : Nat) : Team :=
  let cell : RegCell := ⟨Config.freeWord n, BitVec.ofNat 16 (Config.freeNat n)⟩
  let tm := { tm with corrupt := site :: tm.corrupt.filter (· ≠ site) }
  match site with
  | .vreg _ r l => tm.mapKey (keyV r l) (fun _ => cell)
  | .sreg _ r => tm.mapKey (keyS r) (fun _ => cell)
  | .pred _ p => { tm with p := tset tm.p p ⟨BitVec.ofNat 64 (Config.freeNat n), BitVec.ofNat 64 (Config.freeNat (n + 1))⟩ }
  | .token _ k tr =>
    let v := Config.freeNat n
    tm.setTok (if tr then .trap else .normal) k ⟨v % 256, v.testBit 8, v / 2 ^ 10 % 16, v.testBit 9⟩
  | .desc _ k sc =>
    let d := tm.desc k
    { tm with td := tset tm.td k (if sc then { d with scale := Config.freeWord n }
                                  else { d with tile := BitVec.ofNat 128 (Config.freeNat n) }) }
  | _ => tm

/-- A stack entry is struck: its address and mask are free, and the first walk that meets it takes ECC. -/
def Team.corruptEntry (tm : Team) (height n : Nat) : Team :=
  let bad (e : Entry) : Entry :=
    { e with pc := BitVec.ofNat 54 (Config.freeNat n), mask := BitVec.ofNat 64 (Config.freeNat (n + 1)), bad := true }
  { tm with stack := tm.stack.modify (tm.stack.length - 1 - height) bad }

/-- Whether a site holds state of context c, and the logical core it is on. -/
def State.siteOf (s : State) (c : Nat) (site : ErrSite) : Option Nat :=
  let ofTeam (t : Nat) : Option Nat := (tget s.teams t).bind (fun tm => if tm.ctx = c then some tm.core else none)
  match site with
  | .vreg t r _ => (tget s.teams t).bind (fun tm => if tm.ctx = c ∧ r < tm.nRegs then some tm.core else none)
  | .sreg t r => if r < 64 then ofTeam t else none
  | .pred t p => if p < 7 then ofTeam t else none
  | .token t k _ => if k < 32 then ofTeam t else none
  | .entry t j => (tget s.teams t).bind (fun tm => if tm.ctx = c ∧ j < tm.stack.length then some tm.core else none)
  | .desc t k _ => if k < 16 then ofTeam t else none
  | .scratch g off => (tget s.groups g).bind (fun x => if x.ctx = c ∧ off < x.alloc then some x.core else none)
  | .ibuf n v => if ((s.core n).ibufLine c v).isSome then some n else none
  | .l1 n v => if (s.core n).l1.any (fun l => l.ctx = c && l.vline = v) then some n else none
  | .undo _ | .line _ | .replica .. => none
  | .matrix n => if (s.core n).mx.holder.any (fun g => (tget s.groups g).any (fun x => x.ctx = c))
                   || ((s.core n).mx.acc ++ (s.core n).mx.queues.flatMap (fun q => q.2)).any
                        (fun m => (tget s.teams m.team).any (fun tm => tm.ctx = c)) then some n else none

/-- Corrupted state of context c, with rollback off. -/
def State.corrupt (s : State) (c : Nat) (site : ErrSite) : State :=
  let s := { s with free := s.free + 2 }
  match site with
  | .vreg t _ _ | .sreg t _ | .pred t _ | .token t _ _ | .desc t _ _ => s.modTeam t (fun tm => tm.corruptBy site (s.free - 2))
  | .entry t j => s.modTeam t (fun tm => tm.corruptEntry j (s.free - 2))
  | .ibuf n v => s.modCore n (fun k => { k with ibuf := k.ibuf.map (fun (l : L1Line) => if l.ctx = c ∧ l.vline = v then { l with poison := true } else l) })
  | .scratch g off =>
    (s.scrSet g (off / 4 * 4) (toBytes (Config.freeWord (s.free - 2)).toNat 4)).modGroup g (fun x => { x with ecc := off / 4 :: x.ecc })
  | .matrix _ | .l1 .. | .undo _ | .line _ | .replica .. => s

/-- The site lies in a memory of the core whose errors count against it (R426). -/
def siteCounts : ErrSite → Bool
  | .vreg .. | .sreg .. | .scratch .. | .ibuf .. | .l1 .. => true
  | _ => false

/-- The undo region of home h holds something of context c: the interval can no longer be restored (R402). -/
def State.undoStruck (s : State) (c h : Nat) : State :=
  let u := s.undoOf c
  if u.st = 1 ∧ 0 < u.usedAt h then
    let s := if h < 8 then s.recordUnit (.hbm h) 2 0 else s.record 8 2 0x7F 0x1F 9 0
    (s.setUndo c (u.setSt 3)).ctxError c
  else s

/-- A line at its home is struck: its L2 slice, where that holds it, or its HBM4, or the hub cache (R253). -/
def State.lineStruck (s : State) (line : Nat) : State :=
  match homeOf (line * 128) with
  | .stack n =>
    if s.present n then
      let held := (tgetD s.caches.l2 (l2Key n line) []).any (fun x => x.line = line)
      State.setPoison (s.recordUnit (if held then .slice n (sliceOf (line * 128)) else .hbm n) 2 (line * 128)) line true
    else s
  | .host | .pool =>
    if s.caches.hub.any (fun x => x.line = line) then State.setPoison (s.recordUnit .hub 2 (line * 128)) line true else s
  | _ => s

/-- The replica of a line that the RDC of stack n holds is struck (R253). -/
def State.replicaStruck (s : State) (n line : Nat) : State :=
  if (tgetD s.caches.rdc n []).any (fun x => x.line = line) then
    let s := s.recordUnit (.rdc n) 2 (line * 128)
    { s with caches := { s.caches with rdc := tmod s.caches.rdc n (fun ls => ls.map (fun x => if x.line = line then { x with psn := true } else x)) } }
  else s

/-- `UNCORRECTABLE_ERROR` (R397): counted where R426 says so, recorded, and the context rolls back, or its state is
marked. A line is poisoned at its home, or as L1 or an RDC holds it (R253), and a matrix unit fails (R233); an error in an
undo region fails the rollback (R402). -/
def execUncorrectableError (ctx : Nat) (site : ErrSite) (s : State) : Host.Outcome State Fault Refusal :=
  answer (match site with
    | .undo h => s.undoStruck ctx h
    | .line n => s.lineStruck n
    | .replica st n => s.replicaStruck st n
    | .matrix n => if (s.siteOf ctx site).isSome then s.mxUnitFail n else s
    | _ =>
      match s.siteOf ctx site with
      | none => s
      | some n =>
        let p : ErrUnit := .core (s.physOf n)
        let s := s.recordUnit p 2 0
        let s := if siteCounts site then s.countError p else s
        match site with
        | .l1 n v => s.modCore n (fun k => { k with l1 := k.l1.map (fun (l : L1Line) =>
            if l.ctx = ctx ∧ l.vline = v then { l with poison := true } else l) })
        | _ => if (s.undoOf ctx).en then s.ctxError ctx else s.corrupt ctx site)

/-! ### The spare's takeover (R427) -/

/-- The spare of a stack: the physical core that is not retired and that LMAP does not name. -/
def State.spareOf (s : State) (st : Nat) : Option Nat :=
  (List.range 17).find? (fun p => !(s.stack st).ret p && (s.logicalOf (17 * st + p)).isNone)

/-- Loads held on a layer or a page are withdrawn: they issue again (R395, R427). -/
def Path.withdraw (p : Path) : Path :=
  match p.hold with
  | .inside (.ld ..) .. | .inside (.ldb ..) .. | .inside (.ldp ..) .. | .inside (.ldc ..) .. => { p with hold := .free }
  | _ => p

/-- The team's state as it is copied or spilled: what was in flight has landed. -/
def State.settleTeam (s : State) (t : Nat) : State :=
  (s.drain t).modTeam t (fun tm => { tm with p0 := tm.p0.withdraw, p1 := tm.p1.withdraw })

/-- The spare takes logical core n (R427): its state is copied, but for the lines of L1 and of the instruction buffer, and
its teams go on. -/
def State.takeover (s : State) (n : Nat) : State :=
  match s.spareOf (n / 16) with
  | none => s
  | some p =>
    let st := n / 16
    let old := s.physOf n
    let ts := (s.teams.filter (fun t => t.2.core = n)).map Prod.fst
    let s := ts.foldl State.settleTeam s
    let map := (s.stack st).map.toNat
    let map := setBits (setBits (setBits map (5 * (n % 16)) 5 p) (100 + old % 17) 1 1) 126 1 0
    let s := s.modStack st (fun c => { c with map := BitVec.ofNat 128 map, taking := none })
    let s := (s.modMx n (fun m => { m with spu := 0, rc0 := 0, rc1 := 0, fail := false })).coreCd n (Countdown.thaw s.clk)
    let s := s.modCore n (fun k => { k with l1 := [], ibuf := [] })
    (s.recordUnit (.core (17 * st + p)) 5 0).flushAnswers

/-- A swap of the core's banks that was written before the spare began to take the core over goes first (R429). -/
def State.swapFirst (s : State) (n : Nat) : Bool :=
  match (s.core n).bank, (s.stack (n / 16)).taking with
  | .swap c, some k => decide (c ≤ k.2)
  | _, _ => false

/-- The operations of the core's teams have completed, but for those that their agents or engines hold, which go on after
the takeover (R395, R427). -/
def State.coreQuiet (s : State) (n : Nat) : Bool :=
  s.ops.all (fun o =>
    (match o.2.cunit with | .mem | .sfu | .idiv | .sys => false | _ => true)
      || !(tget s.teams o.2.team).any (fun tm => tm.core = n))

/-- `SPARE_TAKEOVER` (R427, R429): after a swap of the core's banks in progress, and inside a rollback that is due. -/
def execSpareTakeover (core : Nat) (s : State) : Host.Outcome State Fault Refusal :=
  answer (if s.takeoverDue core && !s.swapFirst core && s.coreQuiet core && !s.undo.any (fun u => u.2.due) then
    s.takeover core else s)

/-! ### Rollback (R401, R402) -/

/-- The context's teams go, with everything that acts for them: groups, operations, engine commands, collectives,
leases, barrier records, side-log entries, launches whose signal is not written yet, and halters; a session that such a
halter froze goes on (log entry 6). -/
def State.dropTeams (s : State) (c : Nat) : State :=
  let mine (t : Nat) : Bool := match tget s.teams t with | some tm => tm.ctx = c | none => false
  let ids := (s.ops.filter (fun o => mine o.2.team)).map Prod.fst
  let gs := (s.groups.filter (fun g => g.2.ctx = c)).map Prod.fst
  let ls := (s.launches.filter (fun l => l.2.ctx = c && !(l.2.complete && l.2.sigDone))).map Prod.fst
  let ss := s.halters.filterMap (fun h => if h.ctx = c then (match h.mst with | .session n => some n | _ => none) else none)
  let dead (m : RimMsg) : Bool := match m with
    | .put op _ _ _ => ids.contains op
    | .get op _ _ => ids.contains op
    | _ => false
  let mx (m : MatrixU) : MatrixU :=
    let q (c : MCmd) : Bool := !gs.contains c.group
    let free (g : Option Nat) : Option Nat := g.filter (fun g => !gs.contains g)
    { m with queues := tmap m.queues (fun _ cs => cs.filter q), acc := m.acc.filter q, holder := free m.holder
             rel := if (free m.holder).isNone then none else m.rel
             waiting := m.waiting.filter (fun r => !gs.contains r.group) }
  { s with
    teams := s.teams.filter (fun t => t.2.ctx ≠ c)
    groups := s.groups.filter (fun g => g.2.ctx ≠ c)
    ops := s.ops.filter (fun o => !ids.contains o.1)
    colls := s.colls.filter (fun k => k.2.ctx ≠ c)
    wide := s.wide.filter (fun w => !ls.contains w.2.launch)
    launches := s.launches.filter (fun l => !ls.contains l.1)
    gangHold := s.gangHold.filter (fun l => !ls.contains l)
    sessions := tmap s.sessions (fun n x => { x with frames := x.frames.filter (fun f => !dead f.msg)
                                                     halted := x.halted && !ss.contains n })
    cores := tmap s.cores (fun _ k => { k with mx := mx k.mx, side := k.side.filter (fun e => e.ctx ≠ c)
                                               image := k.image.map (fun im => im.filter (fun g => !gs.contains g)) })
    halters := s.halters.filter (fun h => h.ctx ≠ c) }

/-- The context's swap requests that have not started are cancelled: their layers are ABSENT again; pins are cleared
(R355). -/
def State.dropRequests (s : State) (c : Nat) : State :=
  let ls := ((s.swaps ++ (s.leaving.bind (fun v => v.req)).toList).filter (fun r => r.ctx = c)).map (fun r => r.layer)
  { s with swaps := s.swaps.filter (fun r => r.ctx ≠ c)
           leaving := s.leaving.map (fun v => { v with req := v.req.filter (fun r => r.ctx ≠ c) })
           models := tmod s.models c (fun m => { m with layers := m.layers.zipIdx.map (fun y =>
             { y.1 with pin := 0, st := if ls.contains y.2 then .absent else y.1.st }) }) }

/-- A logged line of context c is restored at its home, data and record together, as its key wrote it; its replicas go. -/
def State.restoreLine (s : State) (c : Nat) (l : UndoLine) : State :=
  let s := (s.recSet l.line l.lbr).cacheWrite (some c) 0 l.line
  let keys := match l.key with | some k => tset s.lineKey l.line k | none => tdel s.lineKey l.line
  State.setPoison { s with mem := cellsSet s.mem (l.line * 128) l.data, lineKey := keys } l.line l.poison

/-- The context's lines leave every L1 and instruction buffer. -/
def State.dropLines (s : State) (c : Nat) : State :=
  { s with cores := tmap s.cores (fun _ k => { k with l1 := k.l1.filter (fun l => l.ctx ≠ c), ibuf := k.ibuf.filter (fun l => l.ctx ≠ c) }) }

/-- A queue as the interval found it: RI returns, and the packets started since then are forgotten. -/
def Queue.rewind (u : Queue) (ri : BitVec 32) : Queue :=
  let since (v : Live) : Bool := decide ((BitVec.ofNat 32 v.idx - ri).toNat < (u.ri - ri).toNat)
  let isLaunch (v : Live) : Bool := match v.st with | .launch _ => true | .reading => true | _ => false
  { u with ri := ri, last := 0, live := u.live.filter (fun v => !since v && !isLaunch v), page := none, fate := .open }

/-- Rolls context c back. -/
def State.rollback (s : State) (c : Nat) : State :=
  let u := s.undoOf c
  let s := (s.dropTeams c).dropRequests c
  if u.st = 1 then
    let s := (u.log.foldl (fun s l => s.restoreLine c l) s).dropLines c
    let s := ((List.range 128).filter s.takeoverDue).foldl State.takeover s
    let s := (s.ctxQueues c).foldl (fun s q => match u.ri.find? (fun e => e.1 = q) with
      | some e => s.modQueue q (fun x => x.rewind e.2)
      | none => s) s
    let s := s.setUndo c { u with kept := [], replay := u.kept ++ u.replay, ckpt := false, before := [], due := false }
    s.record 8 8 0x7F 0x1F 9 (Config.boxPack 8 c 1)
  else
    let s := (s.ctxQueues c).foldl (fun s q => s.modQueue q (fun x => { x with cfg := x.cfg &&& 0x7FFFFFFFFFFFFFFF })) s
    let s := s.setUndo c { (u.setSt 3) with kept := [], replay := [], ckpt := false, before := [], due := false }
    s.record 8 8 0x7F 0x1F 9 (Config.boxPack 8 c 3)

/-- `ROLLBACK` (R401, R402): of a context with an uncorrectable error. -/
def execRollback (ctx : Nat) (s : State) : Host.Outcome State Fault Refusal :=
  answer (if (s.undoOf ctx).due then s.rollback ctx else s)

end Sys2Proof.Machine
end

