-- ==== Sys2Proof/Machine/Banks.lean ====
section
/-! DEFINITION. Shadow banks: swap, spill and fill (R34, R315, R393-R396). -/

namespace Sys2Proof.Machine

/-- SBCFG of core n with a field replaced. -/
def Core.setSb (c : Core) (lo len v : Nat) : Core := { c with sbcfg := BitVec.ofNat 64 (setBits c.sbcfg.toNat lo len v) }
/-- AREA of SBCFG, in units of 4 MiB. -/
def Core.area (c : Core) : Nat := bitsOf c.sbcfg.toNat 22 30

/-- The core starts work on its banks: BUSY is set and ERR cleared. -/
def State.bankStart (s : State) (n : Nat) (w : BankWork) : State :=
  s.modCore n (fun c => { (c.setSb 58 1 1).setSb 56 2 0 with bank := w })

/-- That work ends, with ERR. -/
def State.bankEnd (s : State) (n err : Nat) : State :=
  s.modCore n (fun c => { (c.setSb 58 1 0).setSb 56 2 err with bank := .idle })

/-- Shadow mode is on and nothing is in progress (R393). -/
def State.bankFree (s : State) (n : Nat) : Bool := n < 128 && (s.core n).shadow && !(s.core n).busy

/-- `SHADOW_SWAP` (R393, R394): a write of SWAP. -/
def execShadowSwap (core : Nat) (s : State) : Host.Outcome State Fault Refusal :=
  answer (if s.bankFree core then s.bankStart core (.swap s.clk) else s)
/-- `SHADOW_SPILL` (R393, R395): a write of SPILL. -/
def execShadowSpill (core : Nat) (s : State) : Host.Outcome State Fault Refusal :=
  answer (if s.bankFree core then s.bankStart core .spill else s)
/-- `SHADOW_FILL` (R393, R395): a write of FILL. -/
def execShadowFill (core : Nat) (s : State) : Host.Outcome State Fault Refusal :=
  answer (if s.bankFree core then s.bankStart core .fill else s)

/-! ### The swap (R34, R394) -/

/-- A team of the core at the exchange: outgoing ones park, incoming ones are RESIDENT; their countdowns go on, but for a
core that the spare is taking over (R427). -/
def Team.exchange (tm : Team) (clk : Nat) (out taking : Bool) : Team :=
  if out then (if tm.life = .resident then { tm.mapCd (Countdown.freeze clk) with life := .parked } else tm)
  else if tm.life = .parked then { (if taking then tm else tm.mapCd (Countdown.thaw clk)) with life := .resident } else tm

/-- The banks of core n are exchanged. -/
def State.exchangeBanks (s : State) (n : Nat) : State :=
  let act := (s.core n).act
  let out (g : Nat) : Bool := (tget s.groups g).any (fun x => x.bank = act)
  let inn (g : Nat) : Bool := (tget s.groups g).any (fun x => x.bank ≠ act && !x.spilled)
  let s := ((s.teams.filter (fun t => t.2.core = n && out t.2.group)).map Prod.fst).foldl State.drain s
  let s :=
    { s with teams := tmap s.teams (fun _ tm =>
               if tm.core ≠ n then tm else if out tm.group then tm.exchange s.clk true (s.takeoverDue n)
               else if inn tm.group then tm.exchange s.clk false (s.takeoverDue n) else tm)
             groups := tmap s.groups (fun _ g =>
               if g.core ≠ n || g.spilled then g else { g with dec := { g.dec with susp := g.bank = act } }) }
  let s := s.modMx n (fun m => { m with saving := if m.holder.any out then some act else m.saving })
  (s.modCore n (fun c => c.setSb 62 1 (!act).toNat)).bankEnd n 0

/-- `SWAP_BANK_ACTIVATE` (R394, R429): 96 clk after the swap was written. One that was written after the spare began to take
the core over waits for it. -/
def execSwapBankActivate (core : Nat) (s : State) : Host.Outcome State Fault Refusal :=
  answer (match (s.core core).bank with
    | .swap c => if c + 96 ≤ s.clk && (!s.takeoverDue core || s.swapFirst core) then s.exchangeBanks core else s
    | _ => s)

/-! ### Spill and fill (R395) -/

/-- The groups in the parked bank of core n. -/
def State.parkedGroups (s : State) (n : Nat) : List Nat :=
  (s.groups.filter (fun g => g.2.core = n && !g.2.spilled && g.2.bank ≠ (s.core n).act)).map Prod.fst

/-- What a spill waits for has ended: copies, the tile save, and the operations that do not stay with their agent. -/
def State.spillReady (s : State) (n : Nat) : Bool :=
  let gs := s.parkedGroups n
  let stays (o : Op) : Bool := match o.cunit with | .resid | .tandem | .coll | .dec => true | _ => false
  gs.all (fun g => (tget s.groups g).all (fun x => x.copy.cmds.isEmpty && x.copy.newq.isEmpty && x.dec.newq.isEmpty)) && (s.core n).mx.saving ≠ some (!(s.core n).act)
    && s.ops.all (fun o => stays o.2 || !(tget s.teams o.2.team).any (fun tm => gs.contains tm.group))

/-- The lines of a spill area hold the image, which no key reads (log entry 8). -/
def State.sealArea (s : State) (area : Nat) : State :=
  let lo := area * 2 ^ 22 / 128
  let hi := lo + 2 ^ 15
  { s with lineKey := s.lineKey.filter (fun e => e.1 < lo) ++ (List.range (2 ^ 15)).map (fun j => (lo + j, 4096, 0))
                        ++ s.lineKey.filter (fun e => hi ≤ e.1) }

/-- The parked bank of core n is written to AREA and is empty. -/
def State.spillDo (s : State) (n : Nat) : State :=
  let gs := s.parkedGroups n
  let s := ((s.teams.filter (fun t => gs.contains t.2.group)).map Prod.fst).foldl State.settleTeam s
  let s := { s with groups := tmap s.groups (fun g x => if gs.contains g then { x with spilled := true } else x) }
  (s.sealArea (s.core n).area).modCore n (fun c => { c with image := some gs })

/-- The image of core n is lost: its teams are gone, and their contexts take the error path (R395, R397). -/
def State.imageLost (s : State) (n : Nat) (gs : List Nat) : State :=
  let ctxs := (s.groups.filterMap (fun g => if gs.contains g.1 then some g.2.ctx else none)).eraseDups
  let gone (t : Nat) : Bool := (tget s.teams t).any (fun tm => gs.contains tm.group)
  let s := (ctxs.foldl State.ctxError s).modCore n (fun c => { c with image := none })
  { s with ops := s.ops.filter (fun o => !gone o.2.team), teams := s.teams.filter (fun t => !gs.contains t.2.group)
           groups := s.groups.filter (fun g => !gs.contains g.1) }

/-- The image of core n is read back into the parked bank. -/
def State.fillDo (s : State) (n : Nat) (gs : List Nat) : State :=
  let bank := !(s.core n).act
  { s.modCore n (fun c => { c with image := none }) with
    groups := tmap s.groups (fun g x => if gs.contains g then { x with spilled := false, bank := bank } else x)
    teams := tmap s.teams (fun _ tm => if gs.contains tm.group then { tm with slot := tm.slot % 32 + 32 * bank.toNat } else tm) }

/-- `SPILL_FILL_COMPLETE` (R395): the transfer ends; a fault leaves the bank unchanged. A spill over an image, and a
fill without one or into a bank that holds a group, end as with a fault (log entry 8). -/
def execSpillFillComplete (core : Nat) (crcOk faultFree : Bool) (s : State) : Host.Outcome State Fault Refusal :=
  let c := s.core core
  answer (match c.bank with
    | .spill =>
      if !s.spillReady core then s
      else if !faultFree || c.image.isSome then s.bankEnd core 2
      else (s.spillDo core).bankEnd core 0
    | .fill =>
      match c.image with
      | none => s.bankEnd core 2
      | some gs =>
        if !faultFree || !(s.parkedGroups core).isEmpty then s.bankEnd core 2
        else if crcOk then (s.fillDo core gs).bankEnd core 0
        else (s.imageLost core gs).bankEnd core 1
    | _ => s)

end Sys2Proof.Machine
end

