-- ==== Sys2Proof/Machine/Links.lean ====
section
/-! DEFINITION. Rim links and sessions (R435-R437), and the payload injector of the rim port (R459, R460). -/

namespace Sys2Proof.Machine

/-! ### The payload injector (R459, R460) -/

def injArm (r : Dword) : Bool := r.getLsbD 63
def injSes (r : Dword) : Nat := bitsOf r.toNat 49 13
def injBit (r : Dword) : Nat := bitsOf r.toNat 46 3
def injOff (r : Dword) : Nat := bitsOf r.toNat 0 43

/-- A session leaves UP: an injector armed for it is disarmed. -/
def State.injLeave (s : State) (n : Nat) : State :=
  if injArm s.riminj ∧ injSes s.riminj = n then { s with riminj := s.riminj &&& 0x7FFFFFFFFFFFFFFF } else s

/-- A write of RIMINJ: DONE is cleared by a 1, unless it was set in the same clk (R6); the other fields are taken unless the injector is armed. -/
def State.injWrite (s : State) (v : Dword) : State :=
  let done := s.riminj.getLsbD 62 && (!v.getLsbD 62 || s.w1cNow .injDone)
  let base := if injArm s.riminj then s.riminj.toNat else v.toNat &&& 0x3FFFC7FFFFFFFFFF
  let r := setBits (setBits base 63 1 (injArm v).toNat) 62 1 done.toNat
  { s with riminj := BitVec.ofNat 64 r, rimOff := if injArm v && !injArm s.riminj then 0 else s.rimOff }

/-- `RIMINJ_ARM` (R459). -/
def execRiminjArm (val : Dword) (s : State) : Host.Outcome State Fault Refusal := answer (s.injWrite val)

/-- Read data that session n returns, as it is placed into frames: the armed injector flips its bit. -/
def State.inject (s : State) (n : Nat) (bs : List Byte) : List Byte × State :=
  if injArm s.riminj ∧ injSes s.riminj = n then
    let k := injOff s.riminj - s.rimOff
    let next := s.rimOff + bs.length
    if s.rimOff ≤ injOff s.riminj ∧ injOff s.riminj < next then
      (bs.modify k (fun b => b ^^^ BitVec.ofNat 8 (2 ^ injBit s.riminj)),
       { s.w1cSet .injDone with rimOff := next, riminj := BitVec.ofNat 64 (setBits (setBits s.riminj.toNat 63 1 0) 62 1 1) })
    else (bs, { s with rimOff := next })
  else (bs, s)

/-! ### Ends of what a session carries (R437) -/

/-- Changes the copy command of operation id. -/
def State.modCmdOp (s : State) (id : Nat) (f : CopyCmd → CopyCmd) : State :=
  { s with groups := tmap s.groups (fun _ g =>
      { g with copy := { g.copy with cmds := g.copy.cmds.map (fun m => if m.op = id then f m else m) } }) }

/-- A member's pending work goes over session n: to any other member from the root, to the root from the others. -/
def Coll.uses (k : Coll) (n : Nat) : Bool :=
  match k.desc with
  | some d => (k.peers d).any (fun p => p.2 = n && (CollDesc.rank d = CollDesc.root d || p.1 = CollDesc.root d))
  | none => false

/-- Everything pending of session n ends: copies and collectives with LINK, swap fetches with `cause`. -/
def State.sessionDrop (s : State) (n cause : Nat) : State :=
  let x := s.session n
  let s := s.modSession n (fun x => { x with frames := [], early := [], held := [], fails := 0 })
  let dropCmd (c : Nat) (m : CopyCmd) : CopyCmd :=
    if m.ses = some n ∧ c = x.ctx ∧ m.answer.isNone ∧ m.failed.isNone then { m with failed := some 4 } else m
  let dropGrp (g : Group) : Group := { g with copy := { g.copy with cmds := g.copy.cmds.map (dropCmd g.ctx) } }
  let s := { s with groups := tmap s.groups (fun _ g => dropGrp g) }
  let s := (s.colls.filter (fun k => k.2.ctx = x.ctx && k.2.uses n && k.2.res.isNone)).foldl (fun s k => s.collEnd k.1 (some 4)) s
  x.frames.foldl (fun s f => match f.msg with
    | .swapGet _ c l _ _ => s.layerFail c l cause
    | _ => s) s

/-- ST and V of SESCTL. -/
def Session.setSt (x : Session) (st : Nat) : Session :=
  { x with ctl := BitVec.ofNat 64 (setBits (setBits x.ctl.toNat 61 2 st) 63 1 (if st = 2 then 1 else 0)) }

/-- Session n fails; `tag` when tags failed. -/
def State.sessionFail (s : State) (n : Nat) (tag : Bool) : State :=
  (((s.sessionDrop n (if tag then 3 else 4)).modSession n (fun x => x.setSt 3))).injLeave n

/-! ### Frames (R435) -/

/-- The frame of a counter is acknowledged: an answer may still be to come. -/
def ackFrames (ctr : Nat) : List RimFrame → List RimFrame
  | [] => []
  | f :: r =>
    if f.ctr ≠ ctr then f :: ackFrames ctr r
    else match f.msg with
      | .put .. | .get .. | .swapGet .. => { f with acked := true } :: r
      | _ => r

/-- The message asks something of the peer under operation id. -/
def RimMsg.asks (id : Nat) : RimMsg → Bool
  | .put op _ _ _ => op = id
  | .get op _ _ => op = id
  | .swapGet op _ _ _ _ => op = id
  | _ => false

/-- The frames of operation id leave session n. -/
def State.frameDone (s : State) (n id : Nat) : State := s.rimDrop n (RimMsg.asks id)

/-- The frame by which session n asks under operation id. -/
def State.askedFor (s : State) (n id : Nat) : Option RimFrame := (s.session n).frames.find? (fun f => f.msg.asks id)

/-- The whole data of a read has come. -/
def State.rimWhole (s : State) (n id : Nat) (m : RimMsg) (bs : List Byte) : State :=
  let s := s.frameDone n id
  match m with
  | .get .. => s.modCmdOp id (fun m => { m with answer := some bs })
  | .swapGet _ c l _ _ =>
    (match s.layerOf c l with
     | some y => if y.st = .arriving then s.writeImage y (s.pagesBnd c y.pages) 0 bs else s
     | none => s)
  | _ => s

/-- Bytes that a read asks for. -/
def RimMsg.len : RimMsg → Nat
  | .get _ _ len => len
  | .swapGet _ _ _ _ len => len
  | _ => 0

/-- Data of a read, a frame at most: it joins what has come before. -/
def State.rimData (s : State) (n id : Nat) (bs : List Byte) : State :=
  match s.askedFor n id with
  | none => s
  | some f =>
    let all := f.got ++ bs
    if 1024 < bs.length ∨ f.msg.len < all.length then s
    else if all.length = f.msg.len then s.rimWhole n id f.msg all
    else s.modSession n (fun x => { x with frames := x.frames.map (fun f => if f.msg.asks id then { f with got := all } else f) })

/-- The peer refuses. -/
def State.rimRefused (s : State) (n id : Nat) : State :=
  match s.askedFor n id with
  | some f =>
    (match f.msg with
     | .swapGet _ c l _ _ => (s.frameDone n id).layerFail c l 4
     | _ => (s.frameDone n id).modCmdOp id (fun m => { m with failed := some 6 }))
  | none => s

/-- What a frame carries takes effect. -/
def State.rimDeliver (s : State) (n : Nat) (payload : RimPayload) : State :=
  match payload with
  | .ack c => s.modSession n (fun x => { x with frames := ackFrames c x.frames })
  | .data op bs => s.rimData n op bs
  | .putDone op =>
    (match s.askedFor n op with
     | some f => (match f.msg with
       | .put .. => (s.frameDone n op).modCmdOp op (fun m => { m with answer := some [] })
       | _ => s)
     | none => s)
  | .refused op => s.rimRefused n op

/-- Intact frames that have come before their turn are delivered as far as they follow in counter order (R435). -/
def State.rimFlush : Nat → Nat → State → State
  | 0, _, s => s
  | k + 1, n, s =>
    let x := s.session n
    match x.early.find? (fun e => e.1 = x.rx) with
    | none => s
    | some e =>
      (State.rimDeliver (s.modSession n (fun x => { x with rx := x.rx + 1, early := x.early.filter (fun y => y.1 ≠ e.1) })) n e.2).rimFlush k n

/-- The frames of every session that are next are delivered. -/
def State.flushRims (s : State) : State :=
  (tkeys s.sessions).foldl (fun s n => s.rimFlush (s.session n).early.length n) s

/-- `RIM_FRAME_RECEIVE` (R435, R437): an intact frame is taken in, and delivered in its turn; a frame that was delivered
before is only acknowledged again. An acknowledgement has no turn. Four tag failures in a row fail the session. -/
def execRimFrameReceive (session : Nat) (head : RimHead) (payload : RimPayload) (s : State) : Host.Outcome State Fault Refusal :=
  let x := s.session session
  answer (
    if x.st ≠ 2 then s
    else if !head.tagOk then
      (if 3 ≤ x.fails then s.sessionFail session true else s.modSession session (fun x => { x with fails := x.fails + 1 }))
    else
      let s := s.modSession session (fun x => { x with fails := 0 })
      match payload with
      | .ack c => s.rimDeliver session (.ack c)
      | p =>
        if head.ctr < x.rx ∨ x.early.any (fun e => e.1 = head.ctr) then s
        else State.rimFlush (x.early.length + 1) session (s.modSession session (fun x => { x with early := x.early ++ [(head.ctr, p)] })))

/-- The lowest port of a session that is up. -/
def State.portOf (s : State) (x : Session) : Option Nat := (List.range 12).find? (fun p => x.ports.testBit p && !s.rimDown.contains p)

/-- `RIM_FRAME_RESEND` (R435, R444): frames that have waited 2048 rt ticks for their acknowledgement are sent again. -/
def execRimFrameResend (session : Nat) (s : State) : Host.Outcome State Fault Refusal :=
  let x := s.session session
  let late (f : RimFrame) : Bool := !f.acked && decide (2048 ≤ s.rt - f.sent)
  answer (match s.portOf x with
    | none => s
    | some p =>
      if x.st ≠ 2 then s
      else
        let n := (x.frames.filter late).length
        let s := s.modSession session (fun x => { x with frames := x.frames.map (fun f => if late f then { f with sent := s.rt } else f) })
        (List.range n).foldl (fun s _ => (s.recordUnit (.rimPort p) 6 0).countError (.rimPort p)) s)

/-- `RIM_GIVEUP` (R437): a frame has had no acknowledgement for the give-up time. -/
def execRimGiveup (session : Nat) (s : State) : Host.Outcome State Fault Refusal :=
  let x := s.session session
  answer (if x.st = 2 ∧ x.frames.any (fun f => !f.acked && decide (x.giveup ≤ s.rt - f.first)) then s.sessionFail session false else s)

/-- `RIM_PORT_DOWN` (R436): its sessions' frames go over their other ports. -/
def execRimPortDown (port : Nat) (s : State) : Host.Outcome State Fault Refusal :=
  answer (if port < 12 ∧ !s.rimDown.contains port then { s with rimDown := port :: s.rimDown } else s)
/-- `RIM_PORT_UP` (R436). -/
def execRimPortUp (port : Nat) (s : State) : Host.Outcome State Fault Refusal :=
  answer { s with rimDown := s.rimDown.filter (· ≠ port) }

/-! ### Requests of a peer (R257, R437) -/

/-- A peer's write at its home: no bound, and not logged for the context (R399, R401). -/
def State.peerWrite (s : State) (ks : List Chunk) (bs : List Byte) : State :=
  (engLines (splitBytes ks (bs.map (fun b => ⟨b, 0, false⟩)))).foldl (fun s e =>
    s.writeLine none (pteCls e.2.p) (pteKey e.2.p) e.1 e.2.w (pteBnd e.2.p) false) s

/-- `PEER_REQUEST` (R437): served over the peer context's mapping, or refused, which halters the session. Poisoned data
is not sent: the peer is refused without a halter (log entry 9). -/
def execPeerRequest (session : Nat) (req : PeerReq) (s : State) : Host.Outcome State Fault Refusal :=
  let x := s.session session
  answer (
    if x.st ≠ 2 ∨ x.halted then s
    else
      let s := s.rimTook session (match req with | .read .. => 0 | .write _ bs => bs.length)
      match req with
      | .read va n =>
        if !x.mayRead ∨ 2 ^ 56 < va + n then s.peerRefuse session 0
        else
          (match s.engResolve x.ctx 0 false [] (cutAt 128 .va n va n) with
           | (.error _, _, s) => s.peerRefuse session 0
           | (.ok ks, _, s) =>
             if ks.any (fun k => match k.at_ with | .mem _ _ p => pteCmp p | _ => false) then s.peerRefuse session 0
             else
               let (bs, s) := s.engReadAll none ks
               if bs.any (fun b => b.bad) then s.rimSend session .refuse
               else
                 let (out, s) := s.inject session (bs.map (fun b => b.x))
                 s.rimSend session (.data out))
      | .write va bs =>
        if !x.mayWrite ∨ 2 ^ 56 < va + bs.length then s.peerRefuse session 6
        else
          (match s.engResolve x.ctx 0 true [] (cutAt 128 .va bs.length va bs.length) with
           | (.error _, _, s) => s.peerRefuse session 6
           | (.ok ks, _, s) => (s.peerWrite ks bs).rimSend session (.data [])))

/-! ### SESCTL (R436) -/

/-- The fields of SESCTL that a write gives, ST and V apart. -/
def sesFields (v : Dword) : Nat := v.toNat % 2 ^ 61

/-- A write of SESCTL: the fields are taken while ST is DOWN; V asks for the session, or ends it. A session that is
torn down ends what it carries as a failed one does (log entry 9). -/
def State.sesWrite (s : State) (n : Nat) (v : Dword) : State :=
  let x := s.session n
  if 8192 ≤ n then s
  else
    let s := if x.st = 0 then s.modSession n (fun x => { x with ctl := BitVec.ofNat 64 (sesFields v) }) else s
    if v.getLsbD 63 then (if x.st = 0 ∨ x.st = 3 then s.modSession n (fun x => x.setSt 1) else s)
    else if x.st = 0 then s
    else ((s.sessionDrop n 4).modSession n (fun x => x.setSt 0)).injLeave n

/-- `SESSION_SETUP` (R436): V is written 1. -/
def execSessionSetup (session : Nat) (val : Dword) (s : State) : Host.Outcome State Fault Refusal :=
  answer (if val.getLsbD 63 then s.sesWrite session val else s)
/-- `SESSION_TEARDOWN` (R436): V is written 0. -/
def execSessionTeardown (session : Nat) (s : State) : Host.Outcome State Fault Refusal :=
  let v := (s.session session).ctl.toNat % 2 ^ 61
  answer (s.sesWrite session (BitVec.ofNat 64 v))
/-- `SESSION_SETUP_COMPLETE` (R436): the agreement with the peer has ended. -/
def execSessionSetupComplete (session : Nat) (ok : Bool) (s : State) : Host.Outcome State Fault Refusal :=
  answer (if (s.session session).st = 1 then
      s.modSession session (fun x => { x.setSt (if ok then 2 else 3) with
        epoch := x.epoch + 1, ctr := 0, frames := [], rx := 0, early := [], fails := 0, held := [], closed := [] })
    else s)
/-- `SESSION_REKEY` (R436): EPOCH rises, and the frames in flight are sent again under it. -/
def execSessionRekey (session : Nat) (s : State) : Host.Outcome State Fault Refusal :=
  answer (if (s.session session).st = 2 then
      s.modSession session (fun x => { x with
        epoch := x.epoch + 1, ctr := x.frames.length, rx := 0, early := []
        frames := x.frames.zipIdx.map (fun f => { f.1 with ctr := f.2, epoch := x.epoch + 1, sent := s.rt }) })
    else s)

end Sys2Proof.Machine
end

