-- ==== Sys2Proof/Machine/Package.lean ====
section
/-! DEFINITION. The package from outside: host and pool agents (R433, R434), keys and identity (R438, R446, R447), resets
(R448), stack power (R449) and power management (R16, R450). -/

namespace Sys2Proof.Machine

/-! ### Host and pool agents (R433, R434) -/

/-- The physical addresses of PTEs that memory lists: those whose top byte, with V, is listed. -/
def State.ptesIn (s : State) (r : Dword) : List Nat :=
  let lo := ptBase r
  (s.mem.filter (fun c => c.1 % 16 = 15 && c.2.getLsbD 7 && decide (lo + 15 ≤ c.1) && decide (c.1 < lo + 128 * 2 ^ ptN r))).map
    (fun c => c.1 - 15)

/-- A bounded page of some context holds pa (R257). -/
def State.pageBounded (s : State) (pa : Nat) : Bool :=
  (tkeys s.ctxs).any (fun c => s.hasTable c && (s.ptesIn (s.ctx c).ptroot).any (fun a =>
    let p := s.pteAt a
    let base := ptePpn p * 4096
    !s.pteMalformed p && pteBnd p && !pteAbs p && decide (base ≤ pa) && decide (pa < base + pteBytes p)))

/-- An agent outside the package reaches pa: host and pool memory, and HBM4 of a present stack below its carve-out. -/
def State.exposed (s : State) (pa : Nat) : Bool :=
  match homeOf pa with
  | .stack n => s.present n && decide (pa % 2 ^ 36 < 2 ^ 36 - s.carve) && !s.cxlDown.contains 0
  | .host => true
  | .pool => true
  | _ => false

/-- The hub cache gives up its copy of a line of host or pool memory that an agent outside writes. -/
def State.hostCached (s : State) (pa : Nat) : State :=
  match homeOf pa with | .stack _ => s | _ => s.hubDrop (lineOf pa)

/-- Writes of such an agent, cut at lines; they carry no bounds (R257) and no memory key. -/
def State.hostLines (s : State) (pa : Nat) (bs : List Byte) : Nat → State
  | 0 => s
  | fuel + 1 =>
    if bs.isEmpty then s
    else
      let n := min (128 - pa % 128) bs.length
      let s := if s.exposed pa then
          State.hostCached (s.writeLine none 0 0 (lineOf pa) (lineAdd [] (pa % 128) (bs.take n) 0) (s.pageBounded pa) false) pa else s
      s.hostLines (pa + n) (bs.drop n) fuel

/-- `HOST_WRITE` (R433, R257). -/
def execHostWrite (pa : Nat) (bytes : List Byte) (s : State) : Host.Outcome State Fault Refusal :=
  answer (s.hostLines pa bytes bytes.length)

/-- `HOST_SNOOP` (R433): the hub cache answers with the line as its home has it and gives up ownership; no data changes. -/
def execHostSnoop (pa : Nat) (s : State) : Host.Outcome State Fault Refusal := answer (s.hubDrop (lineOf pa))

/-- `CXL_POISON` (R434). -/
def execCxlPoison (pa lines : Nat) (s : State) : Host.Outcome State Fault Refusal :=
  answer ((List.range lines).foldl (fun s j =>
    if s.exposed (pa + 128 * j) then s.setPoison (lineOf (pa + 128 * j)) true else s) s)

/-- Arrivals whose source lies behind a port that is down fail. -/
def State.unreach (s : State) : State :=
  s.models.foldl (fun s m => m.2.layers.zipIdx.foldl (fun s y =>
    if y.1.st = .arriving ∧ y.1.frames ≠ [] ∧ y.1.src ≠ 2 ∧ s.linkDown y.1.saddr then s.layerFail m.1 y.2 4 else s) s) s

/-- A run of a context's virtual bytes has its home behind a port that is down. -/
def State.runDown (s : State) (c : Nat) (r : Run) : Bool :=
  match r with
  | .va va _ => (match s.findPte c va with | some (_, p) => s.linkDown (ptePa p va) | none => false)
  | .scr .. => false

/-- A copy command has a line to read or to write behind a port that is down. -/
def State.copyDown (s : State) (c : Nat) (m : CopyCmd) : Bool :=
  (partRuns (fun x => x.src) (m.parts.filter (fun p => p.bs.isNone)) ++ partRuns (fun x => x.dst) (m.parts.filter (fun p => !p.done))).any
    (s.runDown c)

/-- Every operation that is pending on a port that is down ends with LINK (R434): token-class operations, copies in progress
and arrivals. -/
def State.endPending (s : State) : State :=
  let s := { s with
    ops := tmap s.ops (fun _ o => match tget s.teams o.team with
      | some tm => if s.unlinked tm o.work then { o with work := .fail 4 } else o
      | none => o)
    groups := tmap s.groups (fun _ g => { g with copy := { g.copy with cmds := g.copy.cmds.map (fun (m : CopyCmd) =>
      if m.failed.isNone && s.copyDown g.ctx m then { m with failed := some 4 } else m) } }) }
  s.unreach

/-- `CXL_LINK_DOWN` (R434): the link goes down, or a completion times out and it stays up; every operation that is pending on
the port ends with LINK. While the link is down, what comes to it does too, as it completes (`State.unlinked`,
`State.engResolve`). -/
def execCxlLinkDown (drop : CxlDrop) (s : State) : Host.Outcome State Fault Refusal :=
  answer (if drop.port < 4 ∧ !s.cxlDown.contains drop.port then
      let t := State.endPending { s with cxlDown := drop.port :: s.cxlDown }
      if drop.stays then { t with cxlDown := s.cxlDown } else t
    else s)

/-! ### Keys and identity (R438, R447) -/

/-- `SPDM_PSK_EXCHANGE` (R447). -/
def execSpdmPskExchange (s : State) : Host.Outcome State Fault Refusal := answer { s with spdm := true }
/-- `SPDM_KEY_LOAD` (R438, R447): within a secured session only; key 0 is the null key. -/
def execSpdmKeyLoad (key : Nat) (s : State) : Host.Outcome State Fault Refusal :=
  answer (if s.spdm ∧ 1 ≤ key ∧ key < 4096 then { s with keys := tset s.keys key (s.keyGen + 1), keyGen := s.keyGen + 1 } else s)
/-- `SPDM_KEY_ERASE` (R438, R447). -/
def execSpdmKeyErase (key : Nat) (s : State) : Host.Outcome State Fault Refusal :=
  answer (if s.spdm ∧ 1 ≤ key ∧ key < 4096 then { s with keys := tdel s.keys key } else s)

/-- A signature takes one leaf; once the 2^20 leaves are spent the answer is an error (R447). -/
def State.sign (s : State) : State := if s.leaf < 2 ^ 20 then { s with leaf := s.leaf + 1 } else s
/-- `SPDM_CHALLENGE` (R447). -/
def execSpdmChallenge (s : State) : Host.Outcome State Fault Refusal := answer s.sign
/-- `SPDM_MEASUREMENTS` (R447). -/
def execSpdmMeasurements (s : State) : Host.Outcome State Fault Refusal := answer s.sign

/-! ### Resets (R419, R446, R448) -/

/-- STKMAP as boot firmware writes it, from the die test: PRES, and which physical cores work (R419, R420). -/
def bootMap (pres : Bool) (good : BitVec 17) : Quad :=
  let ws := (List.range 17).filter (fun p => good.getLsbD p)
  if !pres || ws.length < 16 then 0
  else
    let lmap := (ws.take 16).zipIdx.foldl (fun n (p, i) => n + p * 2 ^ (5 * i)) 0
    BitVec.ofNat 128 (2 ^ 127 + (decide (ws.length = 17)).toNat * 2 ^ 126 + (2 ^ 17 - 1 - good.toNat) * 2 ^ 100 + lmap)

/-- The reset state with what no reset loses: the black box, fuses, the time since cold reset apart, host and pool
memory, and the model's own counters. -/
def State.base (s : State) : State :=
  { State.reset with
    boxes := s.boxes, leaf := s.leaf, keyGen := s.keyGen, nextLaunch := s.nextLaunch, nextTeam := s.nextTeam
    nextGroup := s.nextGroup, nextWide := s.nextWide, nextOp := s.nextOp, nextPid := s.nextPid, useCnt := s.useCnt
    nextReq := s.nextReq, script := s.script, free := s.free }

/-- Lines and cells of host and pool memory. -/
def outside (a : Nat) : Bool := match homeOf a with | .stack _ => false | _ => true

/-- The records of a reset, and of the firmware image accepted; its SVN is free (log entry 4). -/
def State.bootRecords (s : State) (cold fwOk : Bool) : State :=
  let s := s.record 8 10 0x7F 0x1F 9 cold.toNat
  if fwOk then { s.record 8 9 0x7F 0x1F 9 (Config.freeNat s.free % 64) with free := s.free + 1 }
  else { s with recovery := true }

/-- `COLD_RESET` (R448, R419): `fwOk` tells whether the firmware verifies, `present` and `good` what the die test finds.
In recovery no stack is brought up. -/
def execColdReset (fwOk : Bool) (present : BitVec 8) (good : List (BitVec 17)) (s : State) : Host.Outcome State Fault Refusal :=
  let stk (n : Nat) : StackCfg :=
    { StackCfg.atReset with map := if fwOk then bootMap (present.getLsbD n) (good.getD n 0) else 0 }
  let s : State :=
    { s.base with mem := s.mem.filter (fun c => outside c.1), poison := s.poison.filter (fun l => outside (l * 128))
                  lineKey := s.lineKey.filter (fun l => outside (l.1 * 128))
                  stks := (List.range 8).map (fun n => (n, stk n)) }
  answer (s.bootRecords true fwOk)

/-- What warm reset keeps of a core: column retirements, and CYC, which counts since cold reset. -/
def Core.warm (c : Core) : Core :=
  { Core.atReset with cycOff := c.cycOff, mx := { MatrixU.atReset with spu := c.mx.spu, rc0 := c.mx.rc0, rc1 := c.mx.rc1 } }

/-- `WARM_RESET` (R448). Memory keys are lost with the other registers (log entry 12). -/
def execWarmReset (fwOk : Bool) (s : State) : Host.Outcome State Fault Refusal :=
  let t : State :=
    { s.base with clk := s.clk, rt := s.rt, rtPhase := s.rtPhase, mem := s.mem, poison := s.poison, lineKey := s.lineKey
                  brcfg := s.brcfg, stks := tmap s.stks (fun _ c => { StackCfg.atReset with map := c.map })
                  cores := tmap s.cores (fun _ c => c.warm)
                  errs := (s.errs.filter (fun e => e.2.lasting)).map (fun e => (e.1, ⟨[], true⟩)) }
  answer (t.bootRecords false fwOk)

/-- `MODULE_POWER_OFF` (R445): everything is lost but fuses and what lies outside the module. -/
def execModulePowerOff (s : State) : Host.Outcome State Fault Refusal :=
  answer { s.base with power := false, boxes := [], mem := s.mem.filter (fun c => outside c.1)
                       poison := s.poison.filter (fun l => outside (l * 128))
                       lineKey := s.lineKey.filter (fun l => outside (l.1 * 128)) }

/-- A cell of a carve-out of C bytes. -/
def inCarve (c a : Nat) : Bool := match homeOf a with | .stack _ => decide (2 ^ 36 - c ≤ a % 2 ^ 36) | _ => false

/-- `BRCFG_LOCK` (R258): boot firmware writes SIZE and LOCK, and every record as zero. -/
def execBrcfgLock (size : BitVec 2) (s : State) : Host.Outcome State Fault Refusal :=
  answer (if s.brcfg.getLsbD 2 then s
    else
      let s := { s with brcfg := BitVec.ofNat 32 (4 + size.toNat) }
      { s with mem := s.mem.filter (fun c => !inCarve s.carve c.1) })

/-! ### Stack power (R422, R449) -/

/-- Some core of the stack holds a group, in either bank or spilled. -/
def State.stackHolds (s : State) (n : Nat) : Bool := s.groups.any (fun g => g.2.core / 16 = n)

/-- A V die in reset: its cores' registers and caches are at reset; column retirements stay (log entry 12). -/
def Core.vReset (c : Core) : Core := { c.warm with side := c.side }

/-- A write of VRST = 1: refused while the die holds a group. Takeovers that are due complete first. -/
def State.vrstSet (s : State) (n : Nat) : State :=
  let s := ((List.range 16).map (16 * n + ·)).foldl (fun s k => if s.takeoverDue k then s.takeover k else s) s
  if (s.stack n).vrst then s
  else if s.stackHolds n then (s.w1cSet (.ref n)).modStack n (fun c => { c with ref := true })
  else
    let s := s.modStack n (fun c => { c with vrst := true, vrdy := false })
    { s with cores := tmap s.cores (fun k c => if k / 16 = n then c.vReset else c) }

/-- `STKPWR_VRST_SET` (R449). -/
def execStkpwrVrstSet (stack : Nat) (s : State) : Host.Outcome State Fault Refusal :=
  answer (if s.present stack then s.vrstSet stack else s)
/-- `STKPWR_VRST_CLEAR` (R449). -/
def execStkpwrVrstClear (stack : Nat) (s : State) : Host.Outcome State Fault Refusal :=
  answer (if s.present stack then s.modStack stack (fun c => { c with vrst := false }) else s)
/-- `VRDY_READY` (R449): the die is out of reset. -/
def execVrdyReady (stack : Nat) (s : State) : Host.Outcome State Fault Refusal :=
  answer (if s.present stack && !(s.stack stack).vrst then s.modStack stack (fun c => { c with vrdy := true }) else s)

/-! ### Power management (R16, R450) -/

/-- CAP of PWRCFG. -/
def State.cap (s : State) : Nat := bitsOf s.pwrcfg.toNat 52 12

/-- FCLK of PWRCFG, in MHz. -/
def State.fclk (s : State) : Nat := bitsOf s.pwrcfg.toNat 16 14

/-- `POWER_WINDOW` (R16): a window of 100,000 rt ticks has ended. Power held the cap, the new supply lies in the DVFS
range, and the clock runs; the arguments are the management's choice. The part of an rt tick that has passed stays the same
(R5). -/
def execPowerWindow (pavg vcore fclk : Nat) (s : State) : Host.Outcome State Fault Refusal :=
  answer (if (s.window + 1) * 100000 ≤ s.rt ∧ pavg ≤ s.capNow ∧ 450 ≤ vcore ∧ vcore ≤ 750 ∧ 0 < fclk ∧ fclk < 2 ^ 14 then
      { s with pwrcfg := BitVec.ofNat 64 (s.cap * 2 ^ 52 + pavg * 2 ^ 40 + vcore * 2 ^ 30 + fclk * 2 ^ 16)
               capNow := s.cap, window := s.window + 1, rtPhase := s.rtPhase * fclk / s.fclk }
    else s)

end Sys2Proof.Machine
end

