-- ==== Sys2Proof/Machine/Network.lean ====
section
/-! DEFINITION. The on-package network (R410-R418): its map, routes, flits, credits and arbitration, and the hub's crossbar.
Packets carry no data here: data and order are what the memory rules say (R416; log entry 35). -/

namespace Sys2Proof.Machine

/-! ### The map (R410) -/

/-- What is attached to a stop. -/
inductive StopUnit where
  | core (n : Nat) | slice (n : Nat) | mc (n : Nat) | gateway
  deriving DecidableEq, Repr

/-- The stops in the order of 6 · y + x. -/
def stopMap : List StopUnit :=
  [.core 0, .slice 0, .core 1, .slice 1, .core 2, .slice 2]
    ++ [.slice 3, .core 3, .slice 4, .core 4, .slice 5, .core 5]
    ++ [.core 6, .slice 6, .mc 0, .gateway, .core 7, .slice 7]
    ++ [.slice 8, .core 8, .core 16, .mc 1, .slice 9, .core 9]
    ++ [.core 10, .slice 10, .core 11, .slice 11, .core 12, .slice 12]
    ++ [.slice 13, .core 13, .slice 14, .core 14, .slice 15, .core 15]

/-- The stop of a unit. -/
def stopOf (u : StopUnit) : Nat := stopMap.findIdx (fun x => x = u)

/-- The gateway's stop. -/
def gwStop : Nat := stopOf .gateway

/-! ### Routes (R411) -/

/-- The ports of a stop, as outputs and as inputs: along the row up and down, along the column up and down, the unit at the
stop, and the gateway's spoke. -/
def pXp : Nat := 0
def pXm : Nat := 1
def pYp : Nat := 2
def pYm : Nat := 3
def pUnit : Nat := 4
def pSpoke : Nat := 5

/-- The direction along a ring of 6 from a to b: true towards increasing coordinates, which is also the way when both are 3
hops. -/
def ringUp (a b : Nat) : Bool := decide ((b + 6 - a) % 6 ≤ 3)

/-- Hops along a ring. -/
def ringHops (a b : Nat) : Nat := min ((b + 6 - a) % 6) ((a + 6 - b) % 6)

/-- The output port of stop n towards stop d: along the row first, then along the column. -/
def outPort (n d : Nat) : Nat :=
  if n % 6 ≠ d % 6 then (if ringUp (n % 6) (d % 6) then pXp else pXm)
  else if n / 6 ≠ d / 6 then (if ringUp (n / 6) (d / 6) then pYp else pYm)
  else pUnit

/-- The stop at the other end of a link port. -/
def neighbour (n p : Nat) : Nat :=
  let x := n % 6
  let y := n / 6
  if p = pXp then 6 * y + (x + 1) % 6
  else if p = pXm then 6 * y + (x + 5) % 6
  else if p = pYp then 6 * ((y + 1) % 6) + x
  else 6 * ((y + 5) % 6) + x

/-- The stops of a route, on at most `fuel` hops. -/
def route : Nat → Nat → Nat → List Nat
  | 0, _, _ => []
  | k + 1, n, d => if outPort n d = pUnit then [] else neighbour n (outPort n d) :: route k (neighbour n (outPort n d)) d

/-! ### Packets (R412, R413) -/

/-- Flits of a packet. -/
def PacketKind.flits : PacketKind → Nat
  | .readReq | .writeAck | .inval | .credit | .barrier => 1
  | .readRsp | .lineWrite | .copyLine | .tandem => 2

/-- The virtual channels that carry a packet. -/
def PacketKind.uses (k : PacketKind) (v : VC) : Bool :=
  match k with
  | .readReq => v = .req || v = .bulk
  | .writeAck => v = .rsp || v = .coh
  | .inval => v = .coh
  | .credit | .barrier => true
  | .readRsp => v = .rsp || v = .bulk
  | .lineWrite => v = .req || v = .bulk
  | .copyLine | .tandem => v = .bulk

/-- The flits of a packet in their order. -/
def Packet.flits (p : Packet) : List Flit :=
  (List.range p.kind.flits).map (fun j => ⟨p, j = 0, j + 1 = p.kind.flits, 0⟩)

/-- The crossbar's node. -/
def hubNode : Nat := 37 * 8

/-- The node and input port where packets of an end enter. -/
def NetEnd.entry : NetEnd → NetPort
  | .stop s n => ⟨37 * s + n, pUnit⟩
  | .hub p => ⟨hubNode, p⟩

/-- The output port of a node towards an end; the crossbar's outputs 0 to 7 are the spokes. -/
def nodeOut (node : Nat) (d : NetEnd) : Nat :=
  if node = hubNode then (match d with | .stop s _ => s | .hub p => p)
  else
    let n := node % 37
    let home := match d with | .stop s m => if s = node / 37 then some m else none | .hub _ => none
    match home with
    | some m => outPort n m
    | none => if n = gwStop then pSpoke else outPort n gwStop

/-- The input port at the far end of an output; none where packets are consumed. -/
def farEnd (o : NetPort) : Option NetPort :=
  if o.node = hubNode then (if o.port < 8 then some ⟨37 * o.port + gwStop, pSpoke⟩ else none)
  else if o.port = pUnit then none
  else if o.port = pSpoke then some ⟨hubNode, o.node / 37⟩
  else some ⟨o.node / 37 * 37 + neighbour (o.node % 37) o.port, o.port⟩

/-- A flit that goes from input i to output o enters a ring: from the unit or the spoke, or by a turn from a row to a column
(R414). An input port is numbered as the output at the other end of its link. -/
def entersRing (node i o : Nat) : Bool := node ≠ hubNode && o < 4 && decide (i / 2 ≠ o / 2)

/-- The order in which the channels are served (R415). -/
def vcOrder : List VC := [.coh, .rsp, .req, .bulk]

/-! ### Buffers and counts (R413) -/

def Net.buf (t : Net) (p : NetPort) (v : VC) : List Flit :=
  ((t.bufs.find? (fun e => e.1 = p && e.2.1 = v)).map (fun e => e.2.2)).getD []
def Net.setBuf (t : Net) (p : NetPort) (v : VC) (fs : List Flit) : Net :=
  let rest := t.bufs.filter (fun e => !(e.1 = p && e.2.1 = v))
  { t with bufs := if fs.isEmpty then rest else (p, v, fs) :: rest }
/-- The packet that holds an output's VC. -/
def Net.ownerOf (t : Net) (p : NetPort) (v : VC) : Option Nat := (t.owner.find? (fun e => e.1 = p && e.2.1 = v)).map (fun e => e.2.2)
def Net.setOwner (t : Net) (p : NetPort) (v : VC) (x : Option Nat) : Net :=
  let rest := t.owner.filter (fun e => !(e.1 = p && e.2.1 = v))
  { t with owner := match x with | some k => (p, v, k) :: rest | none => rest }
/-- The free-buffer count of an output's VC. -/
def Net.freeOf (t : Net) (p : NetPort) (v : VC) : Nat := ((t.free.find? (fun e => e.1 = p && e.2.1 = v)).map (fun e => e.2.2)).getD 4
def Net.setFree (t : Net) (p : NetPort) (v : VC) (n : Nat) : Net :=
  let rest := t.free.filter (fun e => !(e.1 = p && e.2.1 = v))
  { t with free := if n = 4 then rest else (p, v, n) :: rest }
def Net.turnOf (t : Net) (p : NetPort) (v : VC) : Option Nat := (t.turn.find? (fun e => e.1 = p && e.2.1 = v)).map (fun e => e.2.2)
def Net.setTurn (t : Net) (p : NetPort) (v : VC) (i : Nat) : Net :=
  { t with turn := (p, v, i) :: t.turn.filter (fun e => !(e.1 = p && e.2.1 = v)) }

/-- The output whose count an input's buffers stand behind. -/
def upstream (p : NetPort) : Option NetPort :=
  if p.node = hubNode then (if p.port < 8 then some ⟨37 * p.port + gwStop, pSpoke⟩ else none)
  else if p.port = pUnit then none
  else if p.port = pSpoke then some ⟨hubNode, p.node / 37⟩
  else
    let back := if p.port % 2 = 0 then p.port + 1 else p.port - 1
    some ⟨p.node / 37 * 37 + neighbour (p.node % 37) back, p.port⟩

/-! ### One clk (R414, R415) -/

/-- The flit at the front of an input's VC goes to output o, and may be sent: the VC is its packet's or free for a head, and the
buffers downstream are as many as its way asks for. -/
def Net.canSend (t : Net) (o : NetPort) (i : Nat) (v : VC) : Bool :=
  match t.buf ⟨o.node, i⟩ v with
  | [] => false
  | f :: _ =>
    let mine := match t.ownerOf o v with | some k => k = f.pkt.id | none => f.head
    nodeOut o.node f.pkt.dst = o.port && mine
      && (match farEnd o with
          | none => true
          | some _ => decide ((if entersRing o.node i o.port then 2 else 1) ≤ t.freeOf o v))

/-- Inputs of a node. -/
def inputsOf (node : Nat) : List Nat := if node = hubNode then List.range 25 else List.range 6

/-- The inputs of a node in turn after the one served last. -/
def inTurnOf (node : Nat) (last : Option Nat) : List Nat :=
  match last with
  | none => inputsOf node
  | some k => (inputsOf node).filter (fun i => decide (k < i)) ++ (inputsOf node).filter (fun i => decide (i ≤ k))

/-- The input that output o serves in a VC: round-robin. -/
def Net.inputFor (t : Net) (o : NetPort) (v : VC) : Option Nat := (inTurnOf o.node (t.turnOf o v)).find? (fun i => t.canSend o i v)

/-- The ready flit of input i has waited 16 clk or more without winning. -/
def Net.aged (t : Net) (o : NetPort) (i : Nat) (v : VC) : Bool :=
  t.canSend o i v && (match t.buf ⟨o.node, i⟩ v with | f :: _ => f.head && decide (16 ≤ f.wait) | [] => false)

/-- What output o of a stop sends in this clk (R415): of a VC whose head has waited 16 clk, or of the first ready VC. -/
def Net.pick (t : Net) (o : NetPort) : Option (Nat × VC) :=
  let old := vcOrder.findSome? (fun v => ((inTurnOf o.node (t.turnOf o v)).find? (fun i => t.aged o i v)).map (fun i => (i, v)))
  old.orElse (fun _ => vcOrder.findSome? (fun v => (t.inputFor o v).map (fun i => (i, v))))

/-- What output o of the crossbar sends (R418): its inputs in turn, one packet at a time. -/
def Net.pickHub (t : Net) (o : NetPort) : Option (Nat × VC) :=
  match t.owner.find? (fun e => e.1 = o) with
  | some (_, v, k) =>
    ((inputsOf o.node).find? (fun i => t.canSend o i v && (match t.buf ⟨o.node, i⟩ v with | f :: _ => f.pkt.id = k | [] => false))).map
      (fun i => (i, v))
  | none =>
    (inTurnOf o.node (t.turnOf o .req)).findSome? (fun i => (vcOrder.find? (fun v => t.canSend o i v)).map (fun v => (i, v)))

/-- Space for a response that its requester has reserved is used (R414). -/
def useRoom (d : NetEnd) : List NetEnd → List NetEnd
  | [] => []
  | e :: r => if e = d then r else e :: useRoom d r

/-- Sends the flit at the front of input i over output o; its buffer is free again, which the sender before learns in the next
clk. -/
def Net.move (t : Net) (o : NetPort) (i : Nat) (v : VC) : Net :=
  match t.buf ⟨o.node, i⟩ v with
  | [] => t
  | f :: r =>
    let t := (t.setBuf ⟨o.node, i⟩ v r).setOwner o v (if f.tail then none else some f.pkt.id)
    let t := t.setTurn o (if o.node = hubNode then .req else v) i
    let t := match upstream ⟨o.node, i⟩ with | some u => { t with back := (u, v) :: t.back } | none => t
    match farEnd o with
    | some p => (t.setFree o v (t.freeOf o v - 1)).setBuf p v (t.buf p v ++ [{ f with wait := 0 }])
    | none => if f.tail then { t with came := t.came ++ [f.pkt] } else t

/-- The outputs to which flits in the buffers go. -/
def Net.outputs (t : Net) : List NetPort :=
  (t.bufs.filterMap (fun e => e.2.2.head?.map (fun f => (⟨e.1.node, nodeOut e.1.node f.pkt.dst⟩ : NetPort)))).eraseDups

/-- The transfers of a clk, all chosen on the network as it stands. -/
def Net.chosen (t : Net) : List (NetPort × Nat × VC) :=
  t.outputs.filterMap (fun o => ((if o.node = hubNode then t.pickHub o else t.pick o)).map (fun p => (o, p.1, p.2)))

/-- Heads that are ready and not sent have waited one clk more. -/
def Net.age (t : Net) (now : List (NetPort × Nat × VC)) : Net :=
  { t with bufs := t.bufs.map (fun e =>
      match e.2.2 with
      | f :: r =>
        let o : NetPort := ⟨e.1.node, nodeOut e.1.node f.pkt.dst⟩
        if f.head && t.canSend o e.1.port e.2.1 && !now.contains (o, e.1.port, e.2.1) then
          (e.1, e.2.1, { f with wait := f.wait + 1 } :: r) else e
      | [] => e) }

/-- Credits come back. -/
def Net.credit (t : Net) : Net :=
  t.back.foldl (fun t e => t.setFree e.1 e.2 (t.freeOf e.1 e.2 + 1)) { t with back := [] }

/-- A packet may leave its source (R414): a response into space reserved for it, a bulk packet into space granted to its
source, and each only where the source has buffers for it. -/
def Net.mayEnter (t : Net) (p : Packet) : Bool :=
  decide ((t.buf p.src.entry p.vc).length + p.kind.flits ≤ 4)
    && (match p.vc with
        | .rsp => t.room.contains p.dst
        | .bulk => t.grants.contains (p.dst, p.src)
        | _ => true)

def useGrant (g : NetEnd × NetEnd) : List (NetEnd × NetEnd) → List (NetEnd × NetEnd)
  | [] => []
  | e :: r => if e = g then r else e :: useGrant g r

/-- A packet enters at its source; a request reserves the space for its response. -/
def Net.enter (t : Net) (p : Packet) : Net :=
  let t := t.setBuf p.src.entry p.vc (t.buf p.src.entry p.vc ++ p.flits)
  match p.vc with
  | .req => { t with room := p.src :: t.room }
  | .rsp => { t with room := useRoom p.dst t.room }
  | .bulk => { t with grants := useGrant (p.dst, p.src) t.grants }
  | .coh => t

/-- The packets that wait at their sources enter in the order in which they were sent, for each source and VC (R416). -/
def Net.enterAll : List Packet → Net → Net
  | [], t => t
  | p :: ps, t =>
    if t.wait.any (fun q => q.src = p.src && q.vc = p.vc) || !t.mayEnter p then Net.enterAll ps { t with wait := t.wait ++ [p] }
    else Net.enterAll ps (t.enter p)

/-- A clk of the network. -/
def Net.tick (t : Net) : Net :=
  let now := t.chosen
  let t := (t.age now).credit
  let t := now.foldl (fun t m => t.move m.1 m.2.1 m.2.2) { t with came := [] }
  Net.enterAll t.wait { t with wait := [] }

/-- An end that exists. -/
def State.hasEnd (s : State) : NetEnd → Bool
  | .stop k n => s.present k && n < 36
  | .hub p => 8 ≤ p && p < 25

/-- A packet is sent: a way leads there, and the channel carries its kind. -/
def State.netSend (s : State) (p : Packet) : State :=
  if s.hasEnd p.src && s.hasEnd p.dst && p.src ≠ p.dst && p.kind.uses p.vc then
    { s with net := { s.net with wait := s.net.wait ++ [p] } } else s

/-- An end grants space for one bulk packet to another. -/
def State.netGrant (s : State) (dst src : NetEnd) : State :=
  if s.hasEnd dst && s.hasEnd src then { s with net := { s.net with grants := s.net.grants ++ [(dst, src)] } } else s

/-- A clk of the package's network. -/
def State.netTick (s : State) : State := { s with net := s.net.tick }

end Sys2Proof.Machine
end

