-- ==== Sys2Proof/Machine/Reliab.lean ====
section
/-! DEFINITION. Soft errors (R444), flit replays (R417), and the write of MXCFG (R235). -/

namespace Sys2Proof.Machine

/-! ### Soft errors -/

/-- The unit exists: its stack is present, and its numbers are in range. -/
def State.hasUnit (s : State) : ErrUnit → Bool
  | .core p => s.present (p / 17)
  | .matrix p => s.present (p / 17)
  | .link n stop port => s.present n && stop < 36 && port < 4
  | .spoke n => s.present n
  | .rimPort p => p < 12
  | .hbm n => s.present n
  | .slice n k => s.present n && k < 16
  | .rdc n => s.present n
  | .cxlPort p => p < 4
  | .hub => true

/-- `CORRECTED_ERROR` (R444, R426): an error in a word of an SRAM or of HBM4 is corrected, counted and recorded. Links
have no words; their replays count (R417). -/
def execCorrectedError (unit : ErrUnit) (info : Nat) (s : State) : Host.Outcome State Fault Refusal :=
  let words := match unit with | .link .. | .spoke _ | .rimPort _ | .cxlPort _ => false | _ => true
  answer (if words && s.hasUnit unit then (s.recordUnit unit 1 info).countError unit else s)

/-- The link that leaves a stop by a port: ports 0 to 3 lead along the rings, port 4 of the gateway to the hub (R412, R418). -/
def linkUnit (stack : Nat) (e : LinkEnd) : ErrUnit := if e.stop = gwStop ∧ e.port = 4 then .spoke stack else .link stack e.stop e.port

/-- `FLIT_REPLAY` (R417): one corrected error against the link, a link of the torus or a spoke. -/
def execFlitReplay (stack : Nat) (link : LinkEnd) (s : State) : Host.Outcome State Fault Refusal :=
  let u := linkUnit stack link
  answer (if s.hasUnit u then (s.recordUnit u 6 0).countError u else s)

/-- `PATROL_SCRUB` (R444): an uncorrectable error poisons its line; a corrected word is written back unchanged. -/
def execPatrolScrub (line : Nat) (bad : Bool) (s : State) : Host.Outcome State Fault Refusal :=
  answer (match homeOf (line * 128) with
    | .stack n => if bad && s.present n then (s.recordUnit (.hbm n) 2 (line * 128)).setPoison line true else s
    | _ => s)

/-! ### MXCFG (R235) -/

/-- A write of MXCFG of logical core n: CLRE clears EVT; G5 and SPEN are stored. -/
def State.mxcfgWrite (s : State) (n : Nat) (val : Dword) : State :=
  if n < 128 ∧ s.present (n / 16) then
    let s := s.modCore n (fun c => { c with mxcfg := val &&& 3 })
    if val.getLsbD 2 then s.modMx n (fun m => { m with evt := 0 }) else s
  else s

/-- `MXCFG_CLRE` (R235): a write with CLRE set. -/
def execMxcfgClre (core : Nat) (val : Dword) (s : State) : Host.Outcome State Fault Refusal :=
  answer (if val.getLsbD 2 then s.mxcfgWrite core val else s)

end Sys2Proof.Machine
end

