-- ==== Sys2Proof/Machine/Tokens.lean ====
section
/-! DEFINITION. The token instructions (R118, R119). -/

namespace Sys2Proof.Machine

/-- The bank that an operand selects. -/
def X.bankOf (x : X) (normal : Bool) : Bank := if normal then .normal else x.tm.curBank

/-- `kwait` (R118): holds until the wait of R110 is satisfied. -/
def execKwait (h : Hdr) (k : BitVec 5) (thr : BitVec 8) (normal : Bool) (s : State) : Host.Outcome State Fault Refusal :=
  instr (.kwait h k thr normal) h .issue (rdTok normal k.toNat) (fun x s =>
    let b := x.bankOf normal
    match (x.tm.tok b k.toNat).wait thr.toNat with
    | .ok => .issue s
    | .waits => x.hold s 0 []
    | .kovf => .trap s .kovf 0 (waitVal b k.toNat)
    | .kerr c => .trap s .kerr c (waitVal b k.toNat)) s

/-- `kset` (R118): seen from the next clk on, with the counts that arrive in this one. -/
def execKset (h : Hdr) (k : BitVec 5) (val : BitVec 8) (normal : Bool) (s : State) : Host.Outcome State Fault Refusal :=
  instr (.kset h k val normal) h .issue [] (fun x s =>
    .issue (s.pendAdd x.t ⟨s.clk + 1, 0, .kset (x.bankOf normal) k.toNat val.toNat⟩)) s

/-- `kadd` (R118): the same. -/
def execKadd (h : Hdr) (k : BitVec 5) (delta : BitVec 8) (normal : Bool) (s : State) : Host.Outcome State Fault Refusal :=
  instr (.kadd h k delta normal) h .issue (rdTok normal k.toNat) (fun x s =>
    .issue (s.pendAdd x.t ⟨s.clk + 1, 0, .kadd (x.bankOf normal) k.toNat delta.toInt⟩)) s

/-- The word of `krd` (R119). -/
def Token.word (t : Token) : Nat := t.cause * 2 ^ 10 + t.ovf.toNat * 2 ^ 9 + t.err.toNat * 2 ^ 8 + t.count

/-- `krd` (R119). -/
def execKrd (h : Hdr) (d : Opnd) (k : BitVec 5) (b : Opnd) (s : State) : Host.Outcome State Fault Refusal :=
  instr (.krd h d k b) h (.fixed 4) (wr 1 d ++ rdTok (b = .i 1) k.toNat)
    (vecOp d false (fun x _ => ⟨(x.tm.tok (x.bankOf (b = .i 1)) k.toNat).word, 0⟩)) s

end Sys2Proof.Machine
end

