-- ==== Sys2Proof/Machine/Space.lean ====
section
/-! DEFINITION. Configuration space (R328): what its registers read as, what writes of them do, and the inspection window
of haltered teams (R392). -/

namespace Sys2Proof.Machine

/-! ### Writes by register -/

/-- Replaces one field of FQCFG or HQCFG: with EN = 0 every outstanding fault is declined (R336). -/
def State.fqWrite (s : State) (v : Dword) : State :=
  let s := { s with fqcfg := v, fqIdx := if rqEn v && !rqEn s.fqcfg then 0 else s.fqIdx }
  if rqEn v then s.flushFaults
  else s.faults.foldl (fun s f => (s.faultDel f.ctx (f.page * 4096)).declineAll f.ctx f.page) s

/-- A write of HQCFG: FTMO reads zero, and with EN = 0 every outstanding halter is answered as DISCARD (R390). -/
def State.hqWrite (s : State) (v : Dword) : State :=
  let v := v &&& 0x80000FFFFFFFFFFF
  let s := { s with hqcfg := v, hqIdx := if rqEn v && !rqEn s.hqcfg then 0 else s.hqIdx }
  if rqEn v then s.flushHalters else s.halters.foldl (fun s h => s.hresp h.hid false) s

/-- FRESP (R336). -/
def State.frespWrite (s : State) (v : Dword) : State :=
  let n := v.toNat
  match n / 2 ^ 62 with
  | 1 => s.faultEnd (bitsOf n 56 6) (n % 2 ^ 56) false
  | 2 => s.faultEnd (bitsOf n 56 6) (n % 2 ^ 56) true
  | _ => s

/-- HRESP (R391). -/
def State.hrespWrite (s : State) (v : Dword) : State :=
  let n := v.toNat
  match n / 2 ^ 62 with
  | 1 => s.hresp (n % 2 ^ 16) true
  | 2 => s.hresp (n % 2 ^ 16) false
  | _ => s

/-- ERRCFG (R425): a written 0 is stored as 1. -/
def State.errWrite (s : State) (v : Dword) : State :=
  let n := v.toNat
  let r := max 1 (bitsOf n 48 16) * 2 ^ 48 + max 1 (bitsOf n 40 8) * 2 ^ 40
  let s := { s with errcfg := BitVec.ofNat 64 r }
  (s.errs.map Prod.fst).foldl State.lastingCheck s

/-- PWRCFG (R450): CAP is clamped; it applies from the next window. -/
def State.pwrWrite (s : State) (v : Dword) : State :=
  let c := min 2100 (max 500 (bitsOf v.toNat 52 12))
  { s with pwrcfg := BitVec.ofNat 64 (setBits s.pwrcfg.toNat 52 12 c) }

/-- BRCFG (R258). -/
def State.brWrite (s : State) (v : Dword) : State :=
  if s.brcfg.getLsbD 2 then s
  else
    let s := { s with brcfg := v.setWidth 32 &&& 7 }
    if v.getLsbD 2 then { s with mem := s.mem.filter (fun c => !inCarve s.carve c.1) } else s

/-- The bits of ULCFG (R398). -/
def ulMask : Dword := 0xFF0FFFFFFFF00000

/-- PTROOT (R329): BUSY, as R341 gives it, while a launch is queued (R377). Queues of a context without a table halt. -/
def State.ptWrite (s : State) (c : Nat) (v : Dword) : State :=
  if s.ctxQueued c then s.modCtx c (fun r => { r with mdesc := BitVec.ofNat 64 (setBits r.mdesc.toNat 60 3 2) })
  else
    let s := s.modCtx c (fun r => { r with ptroot := v &&& 0xFFF81FFFFFFFFFFF })
    (s.ctxQueues c).foldl State.queueCheck s

/-- L2QT (R252): a written value above 16 is stored as 16. -/
def l2Norm (v : Nat) : Word :=
  BitVec.ofNat 32 ((List.range 4).foldl (fun n i => n + min 16 (bitsOf v (5 * i) 5) * 2 ^ (5 * i)) 0)

/-- THCFG (R381). -/
def thNorm (v : Dword) : Dword :=
  let e := v.toNat % 2 ^ 56
  BitVec.ofNat 64 ((if e % 4 = 0 then v.toNat / 2 ^ 63 else 0) * 2 ^ 63 + e)

/-- RBCFG (R398). Rollback turned off ends the interval: nothing is kept (log entry 13). -/
def State.rbWrite (s : State) (c : Nat) (v : Dword) : State :=
  let u := s.undoOf c
  if v.getLsbD 63 then (if u.en then s else s.openInterval c)
  else if u.en then
    s.setUndo c { u with cfg := BitVec.ofNat 64 u.int_, log := [], kept := [], ri := [], ckpt := false, before := []
                         due := false, replay := [] }
  else s

/-- QCFG (R359). -/
def State.qcfgWrite (s : State) (q : Nat) (v : Dword) : State :=
  let u := s.queue q
  let s :=
    if u.en then s.modQueue q (fun u => { u with cfg := BitVec.ofNat 64 (setBits u.cfg.toNat 63 1 (v.toNat / 2 ^ 63)) })
    else s.modQueue q (fun u => { u with cfg := if bitsOf v.toNat 49 4 < 4 then v &&& 0x7FFFFFFFFFFFFFFF else v })
  s.queueCheck q

/-- QPTR (R360): WI is the high half. -/
def State.qptrWrite (s : State) (q : Nat) (v : Dword) : State :=
  (s.modQueue q (fun u => { u with wi := v.extractLsb' 32 32 })).queueCheck q

/-- QSTAT (R361). -/
def State.qstatWrite (s : State) (q : Nat) (v : Dword) : State :=
  if v.getLsbD 31 then s.hltClear q else s

/-- RPCFG (R345): ignored while a frame of the pool is allocated; a pool that reaches the carve-out or the end of the
HBM4 is off. -/
def State.rpWrite (s : State) (n : Nat) (v : Dword) : State :=
  if s.framesUsed.any (fun f => f / 2 ^ 15 = n) then s
  else
    let v := v &&& 0xFFFF000FFFE00000
    let out := decide (2 ^ 36 - s.carve < (rpBase v + rpNfr v) * 2 ^ 21)
    s.modStack n (fun c => { c with rpcfg := if out then v &&& 0x7FFFFFFFFFFFFFFF else v })

/-- STKPWR (R449). -/
def State.stkWrite (s : State) (n : Nat) (v : Dword) : State :=
  let s := if v.getLsbD 30 && !s.w1cNow (.ref n) then s.modStack n (fun c => { c with ref := false }) else s
  if v.getLsbD 31 then s.vrstSet n else s.modStack n (fun c => { c with vrst := false })

/-- SBCFG (R393): EN is ignored while the core holds a group. The first of SWAP, SPILL and FILL is taken; the others find
BUSY. -/
def State.sbWrite (s : State) (n : Nat) (v : Dword) : State :=
  let holds := s.groups.any (fun g => g.2.core = n)
  let s := s.modCore n (fun c =>
    let c := if holds then c else c.setSb 63 1 (v.toNat / 2 ^ 63)
    c.setSb 22 30 (bitsOf v.toNat 22 30))
  if !s.bankFree n then s
  else if v.getLsbD 61 then s.bankStart n (.swap s.clk)
  else if v.getLsbD 60 then s.bankStart n .spill
  else if v.getLsbD 59 then s.bankStart n .fill
  else s

/-! ### The map (R328) -/

/-- A configuration register: its instance is a context, queue, stack, session or core. -/
inductive CfgReg where
  | fqcfg | fresp | hqcfg | hresp | errcfg | pwrcfg | brcfg | ulHub | riminj
  | ptroot (c : Nat) | l2qt (c : Nat) | mdesc (c : Nat) | thcfg (c : Nat) | rbcfg (c : Nat)
  | qcfg (q : Nat) | qptr (q : Nat) | qstat (q : Nat)
  | stkmap (n : Nat) (high : Bool) | rpcfg (n : Nat) | ulcfg (n : Nat) | stkpwr (n : Nat)
  | sesctl (n : Nat) | box (ring slot : Nat) (high : Bool) | layer (c l : Nat)
  | mxcfg (n : Nat) | sbcfg (n : Nat) | window (n off : Nat)
  deriving DecidableEq, Repr

/-- The register at a configuration offset; none where the table assigns none, or for a misaligned access. -/
def cfgAt (o : Nat) : Option CfgReg :=
  if o % 8 ≠ 0 then none
  else if o < 0x48 then [CfgReg.fqcfg, .fresp, .hqcfg, .hresp, .errcfg, .pwrcfg, .brcfg, .ulHub, .riminj][o / 8]?
  else if 0x10000 ≤ o ∧ o < 0x10000 + 0x100 * 64 then
    let c := (o - 0x10000) / 0x100
    [CfgReg.ptroot c, .l2qt c, .mdesc c, .thcfg c, .rbcfg c][o % 0x100 / 8]?
  else if 0x20000 ≤ o ∧ o < 0x20000 + 0x20 * 1024 then
    let q := (o - 0x20000) / 0x20
    [CfgReg.qcfg q, .qptr q, .qstat q][o % 0x20 / 8]?
  else if 0x30000 ≤ o ∧ o < 0x30000 + 0x100 * 8 then
    let n := (o - 0x30000) / 0x100
    [CfgReg.stkmap n false, .stkmap n true, .rpcfg n, .ulcfg n, .stkpwr n][o % 0x100 / 8]?
  else if 0x40000 ≤ o ∧ o < 0x40000 + 8 * 8192 then some (.sesctl ((o - 0x40000) / 8))
  else if 0x100000 ≤ o ∧ o < 0x100000 + 0x10000 * 9 then
    some (.box ((o - 0x100000) / 0x10000) (o % 0x10000 / 16) (o % 16 = 8))
  else if 0x1000000 ≤ o ∧ o < 0x1000000 + 0x8000 * 64 then some (.layer ((o - 0x1000000) / 0x8000) (o % 0x8000 / 8))
  else if 0x10000000 ≤ o ∧ o < 0x10000000 + 0x4000000 * 128 then
    let n := (o - 0x10000000) / 0x4000000
    let d := (o - 0x10000000) % 0x4000000
    if d = 0 then some (.mxcfg n) else if d = 8 then some (.sbcfg n)
    else if 0x2000000 ≤ d then some (.window n (d - 0x2000000)) else none
  else none

/-- A write of a register. Registers of an absent stack, and read-only ones, ignore it (R328, R421). -/
def State.regWrite (s : State) (r : CfgReg) (v : Dword) : State :=
  match r with
  | .fqcfg => s.fqWrite v
  | .fresp => s.frespWrite v
  | .hqcfg => s.hqWrite v
  | .hresp => s.hrespWrite v
  | .errcfg => s.errWrite v
  | .pwrcfg => s.pwrWrite v
  | .brcfg => s.brWrite v
  | .ulHub => { s with ulHub := v &&& ulMask }
  | .riminj => s.injWrite v
  | .ptroot c => s.ptWrite c v
  | .l2qt c => s.modCtx c (fun r => { r with l2qt := l2Norm v.toNat })
  | .mdesc c => s.mdescWrite c v
  | .thcfg c => s.modCtx c (fun r => { r with thcfg := thNorm v })
  | .rbcfg c => s.rbWrite c v
  | .qcfg q => s.qcfgWrite q v
  | .qptr q => s.qptrWrite q v
  | .qstat q => s.qstatWrite q v
  | .stkmap _ _ => s
  | .rpcfg n => if s.present n then s.rpWrite n v else s
  | .ulcfg n => if s.present n then s.modStack n (fun c => { c with ulcfg := v &&& ulMask }) else s
  | .stkpwr n => if s.present n then s.stkWrite n v else s
  | .sesctl n => s.sesWrite n v
  | .box _ _ _ => s
  | .layer c l => s.residencyWrite c l v
  | .mxcfg n => s.mxcfgWrite n v
  | .sbcfg n => if s.present (n / 16) then s.sbWrite n v else s
  | .window _ _ => s

/-- An 8-byte write at a configuration offset. -/
def State.cfgWrite (s : State) (off : Nat) (v : Dword) : State :=
  match cfgAt off with
  | some r => s.regWrite r v
  | none => s

/-- `CONFIG_REGISTER_WRITE` (R328). -/
def execConfigRegisterWrite (off : Nat) (val : Dword) (s : State) : Host.Outcome State Fault Refusal :=
  answer (s.cfgWrite off val)

/-! ### Reads -/

/-- Byte i of a number. -/
def byteAt (n i : Nat) : Nat := n / 2 ^ (8 * i) % 256

/-- The byte at an offset of a haltered team's part of the inspection window (R392). -/
def Team.inspect (tm : Team) (o : Nat) : Nat :=
  if o < 0x10000 then byteAt ((tm.vrow (o / 256)).cell (o % 256 / 4)).val.toNat (o % 4)
  else if o < 0x18000 then byteAt ((tm.vrow ((o - 0x10000) / 128)).cell (o % 128 / 2)).bnd.toNat (o % 2)
  else if o < 0x18200 then
    let c := tm.sreg ((o - 0x18000) / 8)
    byteAt (c.val.toNat + c.bnd.toNat * 2 ^ 32) (o % 8)
  else if o < 0x18280 then
    let p := tm.pred ((o - 0x18200) / 16)
    byteAt (p.t.toNat + p.d.toNat * 2 ^ 64) (o % 16)
  else if o < 0x18380 then
    let k := (o - 0x18280) / 4
    byteAt (tm.tok (if k < 32 then .normal else .trap) (k % 32)).word (o % 4)
  else if o < 0x18800 then
    let d := o - 0x18380
    if d < 40 then
      byteAt ([tm.p0.exm.toNat, tm.p0.pmask.toNat, tm.exited.toNat, tm.p0.pc.toNat, tm.stackWord].getD (d / 8) 0) (d % 8)
    else byteAt (((tm.stack.reverse.map Entry.bits)).getD ((d - 40) / 16) 0) ((d - 40) % 16)
  else if o < 0x18880 then
    byteAt ([tm.mode.toNat, tm.budg.toNat, tm.bstat.toNat, tm.tcause.toNat, tm.tepc.toNat, tm.tval.toNat, tm.tfr.toNat,
             tm.tfrag.toNat].getD ((o - 0x18800) / 16) 0) (o % 16)
  else if o < 0x18888 then byteAt tm.hval.toNat (o - 0x18880)
  else 0

/-- Eight bytes of the inspection window of core n: zero where the slot holds no haltered team. -/
def State.windowRead (s : State) (n off : Nat) : Nat :=
  match s.teams.find? (fun t => t.2.core = n && t.2.life = .haltered && t.2.slotNo = off / 0x20000) with
  | some t => (List.range 8).foldr (fun i a => t.2.inspect (off % 0x20000 + i) + 256 * a) 0
  | none => 0

/-- The record that slot i of a ring holds (R445). -/
def Ring.slot (r : Ring) (i : Nat) : Nat :=
  if r.n = 0 then 0
  else
    let back := (r.n - 1 + 4096 - i % 4096) % 4096
    ((r.recs[back]?).map (fun x => x.2.toNat)).getD 0

/-- What a register reads as; a write-only one, and one of an absent stack, reads zero. -/
def State.regRead (s : State) (r : CfgReg) : Nat :=
  match r with
  | .fqcfg => s.fqcfg.toNat
  | .fresp => 0
  | .hqcfg => s.hqcfg.toNat
  | .hresp => 0
  | .errcfg => s.errcfg.toNat
  | .pwrcfg => s.pwrcfg.toNat
  | .brcfg => s.brcfg.toNat
  | .ulHub => s.ulHub.toNat
  | .riminj => s.riminj.toNat
  | .ptroot c => (s.ctx c).ptroot.toNat
  | .l2qt c => (s.ctx c).l2qt.toNat
  | .mdesc c => (s.ctx c).mdesc.toNat
  | .thcfg c => (s.ctx c).thcfg.toNat
  | .rbcfg c => (s.undoOf c).cfg.toNat
  | .qcfg q => (s.queue q).cfg.toNat
  | .qptr q => (s.queue q).wi.toNat * 2 ^ 32 + (s.queue q).ri.toNat
  | .qstat q => (s.queue q).stat.toNat
  | .stkmap n high => if s.present n then (s.stack n).map.toNat / 2 ^ (64 * high.toNat) % 2 ^ 64 else 0
  | .rpcfg n => if s.present n then (s.stack n).rpcfg.toNat else 0
  | .ulcfg n => if s.present n then (s.stack n).ulcfg.toNat else 0
  | .stkpwr n =>
    let c := s.stack n
    if s.present n then c.vrst.toNat * 2 ^ 31 + c.ref.toNat * 2 ^ 30 + c.vrdy.toNat * 2 ^ 29 else 0
  | .sesctl n => (s.session n).ctl.toNat
  | .box k i high => if k = 8 || s.present k then (s.ring k).slot i / 2 ^ (64 * high.toNat) % 2 ^ 64 else 0
  | .layer c l => ((s.layerOf c l).map Layer.word).getD 0
  | .mxcfg n => if s.present (n / 16) then (s.core n).mxcfg.toNat else 0
  | .sbcfg n => if s.present (n / 16) then (s.core n).sbcfg.toNat else 0
  | .window n off => s.windowRead n off

/-- An 8-byte read at a configuration offset. -/
def State.cfgRead (s : State) (off : Nat) : Dword :=
  match cfgAt off with
  | some r => BitVec.ofNat 64 (s.regRead r)
  | none => 0

end Sys2Proof.Machine
end

