-- ==== Sys2Proof/Machine/Clock.lean ====
section
/-! DEFINITION. What happens in a clk (R100, R104, R106, R375) and how it ends, over the meanings `ex` of the instructions;
`Step.lean` joins the two. Log entry 2 says how the moves of a clk are ordered. -/

namespace Sys2Proof.Machine

/-- The meaning of each instruction, as `exec` gives it. -/
abbrev Exec := Instr → State → Host.Outcome State Fault Refusal

/-- Goes on from a next state. -/
def andThen (o : Host.Outcome State Fault Refusal) (f : State → Host.Outcome State Fault Refusal) :
    Host.Outcome State Fault Refusal :=
  match o with
  | .next s => f s
  | .fault r => .fault r
  | .refused r => .refused r

/-- Several steps one after another. -/
def inTurn (ex : Exec) : List Instr → State → Host.Outcome State Fault Refusal
  | [], s => .next s
  | i :: is, s => andThen (ex i s) (inTurn ex is)

/-! ### Ready fragments (R100) -/

/-- The inline wait of an instruction (R110): token and threshold. -/
def Instr.inlineWait (i : Instr) : Option (Nat × Nat) :=
  match i.fields with
  | some f => if f.wait = 1 then some (f.wtok.toNat, f.wthr.toNat) else none
  | none => none

/-- The next instruction of fragment f does not wait for its token. One that cannot be fetched waits for none. -/
def State.waitOver (s : State) (tm : Team) (f : Bool) : Bool :=
  match s.peek tm (tm.path f).pc.toNat with
  | some i =>
    match Instr.inlineWait i with
    | some (k, n) => decide ((tm.tok tm.curBank k).wait n ≠ .waits) || tm.corrupt.any (fun c => tm.auxReads (.tok false k) c)
    | none => true
  | none => true

/-- A layer that is not there yet. -/
def State.layerAway (s : State) (c l : Nat) : Bool :=
  ((s.layerOf c l).map (fun y => decide (y.st = .absent ∨ y.st = .arriving))).getD false

/-- Fragment f of the team is at an instruction boundary, where nothing holds it. -/
def State.atBoundary (s : State) (tm : Team) (f : Bool) : Bool :=
  let p := tm.path f
  tm.runs f && !s.stopped tm &&
    (match p.hold with | .inside .. => false | _ => true)

/-- The fragment is ready, its demotion apart. -/
def State.pathReady (s : State) (tm : Team) (f : Bool) : Bool :=
  let p := tm.path f
  s.atBoundary tm f && decide (p.cd.until ≤ s.clk) &&
    (match p.hold with
     | .fetch _ page layer fate =>
       decide (fate ≠ .open) || !((page.map (s.faulting tm.ctx)).getD false || (layer.map (s.layerAway tm.ctx)).getD false)
     | _ => s.waitOver tm f)

/-- The fragment is ready: one that is demoted only while its sibling is not (R38). -/
def State.fragReady (s : State) (tm : Team) (f : Bool) : Bool :=
  s.pathReady tm f && !((tm.path f).demoted && tm.split && s.pathReady tm (!f))

/-- The number of a team's quadrant. -/
def Team.quadNo (tm : Team) : Nat := tm.core * 4 + tm.quad

/-- The quadrant has issued in this clk. -/
def State.quadUsed (s : State) (q : Nat) : Bool := match tget s.quads q with | some x => x.used = s.clk | none => false

/-! ### The choice of a quadrant (R375) -/

/-- A ready fragment. -/
structure Cand where
  team : Nat
  f    : Bool
  last : Nat
  tid  : Nat
  deriving DecidableEq, Repr

/-- The ready fragments of quadrant q. -/
def State.cands (s : State) (q : Nat) : List Cand :=
  s.teams.flatMap (fun t =>
    if t.2.quadNo = q then
      ([false, true].filter (s.fragReady t.2)).map (fun f => ⟨t.1, f, (t.2.path f).lastIssue, t.2.teamid⟩)
    else [])

/-- Candidate a precedes b: its last issue lies further in the past; then the lower TEAMID, then fragment 0. -/
def Cand.before (a b : Cand) : Bool :=
  decide (a.last < b.last) || (a.last = b.last && (decide (a.tid < b.tid) || (a.tid = b.tid && (!a.f && b.f))))

/-- The first of them. -/
def oldest : List Cand → Option Cand
  | [] => none
  | c :: cs => match oldest cs with
    | none => some c
    | some d => if d.before c then some d else some c

/-- The fragment that quadrant q issues (R375). -/
def State.quadPick (s : State) (q : Nat) : Option Cand :=
  let cs := s.cands q
  match oldest cs with
  | none => none
  | some o =>
    if o.last + 32 ≤ s.clk then some o
    else
      let again : Option Cand := match (tget s.quads q).bind (fun x => x.last) with
        | some (t, f) => (cs.find? (fun c => c.team = t && c.f = f)).orElse (fun _ => cs.find? (fun c => c.team = t))
        | none => none
      some (again.getD o)

/-- The fragment that issues next in this clk, among the quadrants that have not issued. -/
def State.pickFrag (s : State) : Option (Nat × Bool) :=
  ((s.teams.map (fun t => t.2.quadNo)).filter (fun q => !s.quadUsed q)).findSome? (fun q =>
    (s.quadPick q).map (fun c => (c.team, c.f)))

/-! ### Running a fragment (R40, R41, R60) -/

/-- Fetches, decodes and runs the next instruction of fragment f of team t. -/
def State.fetchRun (ex : Exec) (s : State) (t : Nat) (f late : Bool) (tm : Team) : Host.Outcome State Fault Refusal :=
  let p := tm.path f
  let (rt0, st) : Nat × Option (Nat × Fate) := match p.hold with
    | .fetch r page _ fate => (r, page.map (fun n => (n, fate)))
    | _ => (s.rt, none)
  match s.fetchInst tm st p.pc.toNat with
  | (.got w, s) =>
    let s := s.modTeam t (fun tm => tm.setPath f { tm.path f with hold := .free })
    (match decode (s.decCtx tm) w with
     | .ok i => ex i { s with cur := some (t, f, late) }
     | .error e => answer (s.takeTrap t f .illop e.sub 0 p.pc))
  | (.hold page layer, s) =>
    answer (s.modTeam t (fun tm => tm.setPath f { tm.path f with
      hold := .fetch rt0 page layer .open }))
  | (.trap c k v, s) => answer (s.takeTrap t f c k (BitVec.ofNat 64 v) p.pc)

/-- A team that has met a permission violation halts at its next instruction boundary (R338, R389). -/
def State.permHalt (s : State) (t : Nat) (f : Bool) (tm : Team) : State :=
  match tm.perm with
  | some (k, va) => s.haltTeam t f 1 k 0 0 (BitVec.ofNat 64 va) (tm.path f).pc
  | none => s

/-- Fragment f of team t is the one that its quadrant issues in this clk (R100, R375). -/
def State.issues (s : State) (t : Nat) (f : Bool) (tm : Team) : Bool :=
  !s.quadUsed tm.quadNo && (s.quadPick tm.quadNo).any (fun c => c.team = t && c.f = f)

/-- Runs fragment f of team t if its quadrant has not issued in this clk and chooses it. -/
def State.runFrag (ex : Exec) (s : State) (t : Nat) (f late : Bool) : Host.Outcome State Fault Refusal :=
  match tget s.teams t with
  | none => answer s
  | some tm =>
    if tm.perm.isSome && s.atBoundary tm f then answer (s.permHalt t f tm)
    else if !s.issues t f tm then answer s
    else s.fetchRun ex t f late tm

/-- The first team with a permission violation that is at a boundary. -/
def State.permTeam (s : State) : Option (Nat × Bool) :=
  s.teams.findSome? (fun t =>
    if t.2.perm.isSome then ([false, true].find? (s.atBoundary t.2)).map (fun f => (t.1, f)) else none)

/-! ### The steps that the hardware takes by itself -/

/-- The queue's packet start, by the type that stands at RI. -/
def startsOf (q : Nat) : List Instr := [.launchPacketStart q, .waitPacketStart q, .signalPacketStart q, .ckptPacketStart q]

/-- Steps that need nothing from outside, in the order in which they are tried. -/
def State.autoSteps (s : State) : List Instr :=
  (tkeys s.undo).map Instr.rollback
    ++ (List.range 128).map Instr.spareTakeover
    ++ (tkeys s.cores).flatMap (fun n => [.swapBankActivate n, .spillFillComplete n true true])
    ++ (tkeys s.teams).map Instr.trapEntry
    ++ (tkeys s.ops).flatMap (fun o => [.txchTimeout o, .tokenCompletion o])
    ++ (tkeys s.colls).map Instr.collTimerExpiry
    ++ s.groups.flatMap (fun g => g.2.copy.cmds.map (fun m => .copyCommandComplete g.1 ⟨m.num, 0⟩) ++ [.dczBlock g.1])
    ++ (tkeys s.cores).flatMap (fun n => [.matrixCommandExecute n [], .matrixCommandAccept n, .tileSpill n, .leaseGrant n])
    ++ s.cores.flatMap (fun c => c.2.side.map (fun e => .sideLogReplay c.1 e.id))
    ++ s.models.flatMap (fun m => (List.range m.2.layers.length).map (fun l => .layerArrivalComplete m.1 l))
    ++ [.swapRequestStart]
    ++ (tkeys s.queues).flatMap startsOf
    ++ (tkeys s.launches).map Instr.groupPlacement
    ++ (tkeys s.undo).map Instr.intervalOpen
    ++ (tkeys s.stks).map Instr.vrdyReady

/-- The first of the steps that changes more than the count of free choices. -/
def State.firstStep (ex : Exec) (s : State) : List Instr → Option (Host.Outcome State Fault Refusal)
  | [] => none
  | i :: is =>
    match ex i s with
    | .next t => if { t with free := s.free } = s then s.firstStep ex is else some (.next t)
    | o => some o

/-! ### The end of a clk -/

/-- Holds on layers that have lasted HTMO get their fate (R354). -/
def State.timeHolds (s : State) : State :=
  { s with teams := tmap s.teams (fun _ tm =>
      { tm with p0 := { tm.p0 with hold := s.timeHold tm.ctx tm.p0.hold }, p1 := { tm.p1 with hold := s.timeHold tm.ctx tm.p1.hold } }) }

/-- Expiries that no event of this clk has forestalled. -/
def State.expiries (s : State) : List Instr :=
  s.faults.map (fun f => .faultAnswerTimeout f.ctx (f.page * 4096))
    ++ (tkeys s.ops).map Instr.txchTimeout ++ (tkeys s.colls).map Instr.collTimerExpiry
    ++ (tkeys s.sessions).map Instr.rimFrameResend ++ (tkeys s.sessions).map Instr.rimGiveup

/-- Looks again at what holds fragment f of team t. -/
def State.pollFrag (ex : Exec) (s : State) (t : Nat) (f : Bool) : Host.Outcome State Fault Refusal :=
  match tget s.teams t with
  | some tm =>
    (match (tm.path f).hold with
     | .inside i _ _ _ _ _ _ _ => ex i { s with cur := some (t, f, false) }
     | _ => .next s)
  | none => .next s

/-- Looks again at every held fragment, and at trap entries that had to wait. -/
def State.pollAll (ex : Exec) : List Nat → State → Host.Outcome State Fault Refusal
  | [], s => .next s
  | t :: ts, s =>
    andThen (s.pollFrag ex t false) (fun s => andThen (s.pollFrag ex t true) (fun s =>
      andThen (ex (.trapEntry t) s) (fun s => State.pollAll ex ts s)))

/-- The last look at fragment f of team t in a clk, where a `waitc` holds it (R312). -/
def State.lastWait (ex : Exec) (s : State) (t : Nat) (f : Bool) : Host.Outcome State Fault Refusal :=
  match tget s.teams t with
  | some tm =>
    (match (tm.path f).hold with
     | .inside i _ _ _ _ _ _ _ => if (waitcOf i).isSome then ex i { s with cur := some (t, f, true) } else .next s
     | _ => .next s)
  | none => .next s

def State.lastWaits (ex : Exec) : List Nat → State → Host.Outcome State Fault Refusal
  | [], s => .next s
  | t :: ts, s =>
    andThen (s.lastWait ex t false) (fun s => andThen (s.lastWait ex t true) (State.lastWaits ex ts))

/-- A demotion of a fragment lifts when its sibling waits (R32, R38): it is there, and not ready. -/
def State.liftWaits (s : State) : State :=
  { s with teams := tmap s.teams (fun _ tm =>
      let lift (f : Bool) (tm' : Team) : Team :=
        if (tm.path f).demoted && tm.runs (!f) && !s.pathReady tm (!f) then
          tm'.setPath f { tm'.path f with demoted := false } else tm'
      if tm.split && (tm.p0.demoted || tm.p1.demoted) then lift true (lift false tm) else tm) }

/-- The next clk begins: time passes, what is due lands, and DRAINING teams retire that may (R5, R33, R104, R106). -/
def State.nextClk (s : State) : State :=
  let n := s.rtPhase + 100
  let s := { s with clk := s.clk + 1, rt := s.rt + n / s.fclk, rtPhase := n % s.fclk, cur := none }
  ((tkeys s.teams).foldl (fun s t => s.landDue t s.clk) s).retireAll.liftWaits

/-- The clk ends. -/
def State.tick (ex : Exec) (s : State) : Host.Outcome State Fault Refusal :=
  let s := s.timeHolds
  andThen (inTurn ex s.expiries s) (fun s =>
    andThen (State.pollAll ex (tkeys s.teams) s) (fun s =>
      let s := s.flushRims.acceptAll.barEnd.parkedWaits
      andThen (State.lastWaits ex (tkeys s.teams) s) (fun s =>
        answer (s.flushFaults.flushHalters.hubPoll.gangCheck.netTick.nextClk))))

/-! ### Steps -/

/-- What may happen to a package without power, or in recovery (R446): its resets, and its management. -/
def State.allows (s : State) (i : Instr) : Bool :=
  match i with
  | .coldReset .. => true
  | .warmReset .. | .modulePowerOff | .spdmPskExchange | .spdmKeyLoad _ | .spdmKeyErase _ | .spdmChallenge
  | .spdmMeasurements => s.power
  | _ => s.power && !s.recovery

/-- System software cancels something, which ends with ABORT (log entry 36). A packet whose launch is active is past that. -/
def State.cancel (s : State) : Cancel → State
  | .copy g n => s.modCmd g n (fun m => if m.failed.isNone then { m with failed := some 7 } else m)
  | .stream g n => (match (s.group g).bind (fun x => x.dec.streams.head?) with
    | some st => if st.num = n then s.streamEnd g st (some 7) 0 else s
    | none => s)
  | .tile core op => (match (s.core core).mx.acc.find? (fun c => c.op = op) with
    | some c => State.relCheck ((s.modMx core (fun m => { m with acc := m.acc.filter (fun c => c.op ≠ op) })).mxFail c 7) core
    | none => s)
  | .coll op => if (tget s.colls op).isSome then s.collEnd op (some 7) else s
  | .arrival c l => s.layerFail c l 7
  | .packet q idx => (match s.liveOf q idx with
    | some v => (match v.st with
      | .launch _ | .ending _ _ => s
      | _ => s.endStep q idx 11 0)
    | none => s)

/-- One move of the script (log entry 2). -/
def State.runMove (ex : Exec) (s : State) : Move → Host.Outcome State Fault Refusal
  | .run t f late => s.runFrag ex t f late
  | .event i => if s.allows i then ex i { s with cur := none } else answer s
  | .cancel c => answer (if s.power && !s.recovery then State.cancel { s with cur := none } c else s)
  | .grant d e => answer (if s.power && !s.recovery then s.netGrant d e else s)
  | .send p => answer (if s.power && !s.recovery then s.netSend p else s)
  | .tick => if s.power then s.tick ex else answer s

/-- A halter or an instruction that is due in this clk before it can end (R35, R375). -/
def State.dueFrag (s : State) : Option (Nat × Bool) := s.permTeam.orElse (fun _ => s.pickFrag)

/-- What happens next when the script says nothing: a halter, an instruction, a step of the hardware, the end of the
clk. -/
def State.runFree (ex : Exec) (s : State) : Host.Outcome State Fault Refusal :=
  if !s.power then answer s
  else
    match s.dueFrag with
    | some (t, f) => s.runFrag ex t f false
    | none => (s.firstStep ex s.autoSteps).getD (s.tick ex)

/-- One step of the machine over the meanings `ex`. A scripted end of the clk waits for the instructions that the
quadrants still issue in it. -/
def State.moveNext (ex : Exec) (s : State) : Host.Outcome State Fault Refusal :=
  match s.script with
  | .tick :: ms =>
    (match (if s.power then s.dueFrag else none) with
     | some (t, f) => s.runFrag ex t f false
     | none => State.runMove ex { s with script := ms } .tick)
  | m :: ms => State.runMove ex { s with script := ms } m
  | [] => s.runFree ex

/-- One step of the machine over the meanings `ex`, after which the WAITs look at their signals if memory has changed
(R369). -/
def State.stepWith (ex : Exec) (s : State) : Host.Outcome State Fault Refusal :=
  andThen (s.moveNext ex) (fun t => answer (if t.mem = s.mem then t else t.watch))

/-! ### A state whose next step runs a given word -/

/-- The page of the word: its virtual and physical address, the page table, and its PTE. -/
def fetchVa : Nat := 0x400000
def fetchPa : Nat := 2 ^ 48 + 0x400000
def fetchRoot : Dword := BitVec.ofNat 64 (2 ^ 63 + 2 ^ 57 + 10 * 2 ^ 51 + (2 ^ 48 + 0x800000) / 128)
def fetchPte : Nat := 2 ^ 127 + (fetchPa / 4096) * 2 ^ 44 + fetchVa / 4096

/-- A path about to run at fetchVa. -/
def fetchPath (pid clk : Nat) : Path where
  pid := pid
  pc := BitVec.ofNat 64 fetchVa
  exm := allLanes
  pmask := allLanes
  cd := .none
  hold := .free
  claim := none
  spin := 0
  demoted := false
  lastIssue := clk
  ended := false

/-- A one-team group in slot 0 of core 0, as a launch of context 0 places it. -/
def fetchTeam (s : State) : Team where
  life := .resident
  launch := s.nextLaunch
  group := s.nextGroup
  ctx := 0
  core := 0
  quad := 0
  slot := 0
  teamid := 0
  linear := 0
  nRegs := 256
  topTeam := 1
  topGroup := 2
  dims := [64, 1, 1]
  gidx := 0
  modelid := 0
  sb := 0
  sl := 0
  v := []
  s := []
  p := []
  gens := lanes.map (fun l => genInit l 0 0)
  exited := 0
  split := false
  p0 := fetchPath s.nextPid s.clk
  p1 := { fetchPath s.nextPid s.clk with ended := true }
  stack := []
  spill := 0
  tokN := []
  tokT := []
  pend := []
  mode := 0
  budg := 0
  bstat := 0
  task := none
  tcause := 0
  tepc := 0
  tval := 0
  tfr := 0
  tfrag := 0
  intr := none
  pendTrap := none
  perm := none
  sideLost := false
  drainAt := 0
  hval := 0
  td := []
  corrupt := []

def fetchGroup (s : State) : Group where
  launch := s.nextLaunch
  ctx := 0
  core := 0
  bank := false
  spilled := false
  alloc := 0
  nbar := 16
  cluster := none
  stackB := none
  scr := []
  ecc := []
  bars := []
  copy := CopyCtx.atReset
  dec := DecCtxt.atReset
  tls := []
  tlq := []
  seen := []
  saved := none

/-- The state s with a team whose next instruction is the given word, and a script that runs it. -/
def State.placeWord (s : State) (w : Inst96) : State :=
  let slot := bucketAddr fetchRoot 0 fetchVa 0
  let lines := [lineOf fetchPa, lineOf slot]
  { s with
    power := true, recovery := false, hole := false, cur := none, script := [.run s.nextTeam false false]
    mem := cellsSet (cellsSet s.mem slot (toBytes fetchPte 16)) fetchPa (bytesOfWord w)
    poison := s.poison.filter (fun l => !lines.contains l), lineKey := s.lineKey.filter (fun l => !lines.contains l.1)
    cxlDown := [], tlb := s.tlb.filter (fun e => e.1 ≠ 0)
    ctxs := tset s.ctxs 0 { s.ctx 0 with ptroot := fetchRoot }
    undo := tdel s.undo 0
    teams := tset s.teams s.nextTeam (fetchTeam s), nextTeam := s.nextTeam + 1
    groups := tset s.groups s.nextGroup (fetchGroup s), nextGroup := s.nextGroup + 1
    nextPid := s.nextPid + 1
    cores := tset s.cores 0 { s.core 0 with ibuf := [], bank := .idle }
    stks := tset s.stks 0 { s.stack 0 with taking := none }
    caches := { s.caches with rdc := tdel s.caches.rdc 0 }
    quads := tdel s.quads 0 }

end Sys2Proof.Machine
end

