-- ==== Sys2Proof/Machine/Cross.lean ====
section
/-! DEFINITION. Cross-lane and predicate instructions (R97, R99, R138-R144). -/

namespace Sys2Proof.Machine

/-! ### shfl, rdlane, wrlane, match -/

/-- The lane that `shfl` selects for lane l (R140). -/
def shflLane (m : ShflMode) (l b : Nat) : Int :=
  match m with
  | .idx => (b % 64 : Nat)
  | .up => (l : Int) - b
  | .down => (l : Int) + b
  | .xor => (l ^^^ (b % 64) : Nat)

/-- `shfl` (R140). -/
def execShfl (h : Hdr) (ty : Ty) (m : ShflMode) (d a b : Opnd) (s : State) : Host.Outcome State Fault Refusal :=
  instr (.shfl h ty m d a b) h (.fixed 8) (wr (tyN ty) d ++ rd (tyN ty) a ++ rd 1 b)
    (vecOp d ty.w64 (fun x l =>
      let j := shflLane m l (x.n32 b l).x
      let from_ := if 0 ≤ j ∧ j ≤ 63 ∧ lane x.e j.toNat then j.toNat else l
      x.rd.el a ty.w64 from_)) s

/-- The lane number of `rdlane` and `wrlane`. -/
def X.laneNo (x : X) (b : Opnd) : Nat := (x.rd.int b false 0).x % 64

/-- `rdlane` (R142). -/
def execRdlane (h : Hdr) (ty : Ty) (d a b : Opnd) (s : State) : Host.Outcome State Fault Refusal :=
  instr (.rdlane h ty d a b) h (.fixed 4) (wr (tyN ty) d ++ rd (tyN ty) a ++ rd 1 b)
    (vecOp d ty.w64 (fun x _ => x.rd.el a ty.w64 (x.laneNo b))) s

/-- `wrlane` (R142). -/
def execWrlane (h : Hdr) (ty : Ty) (d a b : Opnd) (s : State) : Host.Outcome State Fault Refusal :=
  instr (.wrlane h ty d a b) h (.fixed 4) (wr (tyN ty) d ++ rd (tyN ty) a ++ rd 1 b) (fun x s =>
    let n := x.laneNo b
    .fixed s (if lane x.e n then dstUpds d ty.w64 [(n, x.rd.int a ty.w64 n)] else [])) s

/-- `match` (R143). -/
def execMatchL (h : Hdr) (ty : Ty) (all : Bool) (d a : Opnd) (s : State) : Host.Outcome State Fault Refusal :=
  instr (.matchL h ty all d a) h (.fixed 8) (wr 2 d ++ rd (tyN ty) a) (fun x s =>
    let els := (lanesOf x.e).map (fun l => (l, x.rd.el a ty.w64 l))
    let b := computed x.bt (bitBound (els.map (fun p => p.2.b)))
    let same (v : Nat) : Nat := els.foldl (fun m p => if p.2.x = v then m + 2 ^ p.1 else m) 0
    .fixed s (dstUpds d true (els.map (fun p =>
      let m := same p.2.x
      (p.1, ⟨if all then (if m = x.e.toNat then m else 0) else m, b⟩))))) s

/-! ### vote and plop -/

/-- The result and the doubt of `.any`, `.all` and `.eq` over the lanes of E (R139). -/
def voteOf (m : VoteMode) (p : Pred) (e : Mask) : Bool × Bool :=
  let t := p.t &&& e
  let dd := p.d &&& e
  let sureT := t &&& ~~~dd
  let sureF := e &&& ~~~p.t &&& ~~~dd
  match m with
  | .any => (t ≠ 0, dd ≠ 0 && sureT = 0)
  | .all => (t = e, dd ≠ 0 && sureF = 0)
  | _ => (t = 0 || t = e, dd ≠ 0 && (sureT = 0 || sureF = 0) && 2 ≤ (lanesOf e).length)

/-- `vote` (R139). -/
def execVote (h : Hdr) (m : VoteMode) (d : Opnd) (a : BitVec 3) (s : State) : Host.Outcome State Fault Refusal :=
  instr (.vote h m d a) h (.fixed 6) (wr (if m = .bal then 2 else 1) d ++ rdPred a) (fun x s =>
    let p := x.rd.pred a.toNat
    match d with
    | .x (.p k) =>
      let (r, q) := voteOf m p x.e
      .fixed s [.prd k.toNat x.e (if r then x.e else 0) (if q then x.e else 0)]
    | d =>
      let b := computed x.bt (if p.d &&& x.e = 0 then 0 else 0xFF00)
      .fixed s (dstUpds d true ((x.work d).map (fun l => (l, ⟨(p.t &&& x.e).toNat, b⟩))))) s

/-- Table bit of `plop` for three inputs (R144). -/
def plopBit (tt : BitVec 8) (a b c : Bool) : Bool := tt.getLsbD (4 * a.toNat + 2 * b.toNat + c.toNat)

/-- The values that an input may take: both when it is doubtful. -/
def mayBe (t d : Bool) : List Bool := if d then [t, !t] else [t]

/-- Truth and doubt of `plop` in one lane (R99, R144). -/
def plopLane (tt : BitVec 8) (a b c : Bool × Bool) : Bool × Bool :=
  let r := plopBit tt a.1 b.1 c.1
  (r, (mayBe a.1 a.2).any (fun x => (mayBe b.1 b.2).any (fun y => (mayBe c.1 c.2).any (fun z => plopBit tt x y z != r))))

/-- `plop` (R144). -/
def execPlop (h : Hdr) (d a b c : BitVec 3) (tt : BitVec 8) (s : State) : Host.Outcome State Fault Refusal :=
  instr (.plop h d a b c tt) h (.fixed 2) (wrPred d ++ rdPred a ++ rdPred b ++ rdPred c)
    (predOp d (fun x l =>
      let v (p : BitVec 3) : Bool × Bool := let q := x.rd.pred p.toNat; (lane q.t l, lane q.d l)
      plopLane tt (v a) (v b) (v c))) s

/-! ### wred and wscan (R97, R141) -/

/-- The two-operand operation of a variant, with a generator. -/
def redOpEl (ty : Ty) (op : RedOp) (m : RMode) (ftz : Bool) (a b : El) (g : Word) : El × Word :=
  if ty = .f32 then
    let F := f32F
    let u := flushIn F ftz (F.dec a.x) a.b
    let v := flushIn F ftz (F.dec b.x) b.b
    match op with
    | .min => (minmax F true false false u v, g)
    | .max => (minmax F true true false u v, g)
    | _ =>
      let r := (Ex.add m (.of u.1) (.of v.1)).round F m ftz g
      (r.out true F (ebAdd u.2 v.2), r.g)
  else
    (match op with
     | .add => addEl ty false true a b
     | .min => minEl ty true a b
     | .max => maxEl ty true a b
     | .and => bitEl true (a.x &&& b.x) [a.b, b.b]
     | .or => bitEl true (a.x ||| b.x) [a.b, b.b]
     | .xor => bitEl true (a.x ^^^ b.x) [a.b, b.b], g)

/-- The identity of an operation (R97). -/
def redId (ty : Ty) (op : RedOp) : Nat :=
  match op with
  | .min => if ty = .f32 then f32F.enc (.inf false) else trunc (tyMax ty) ty.bits
  | .max => if ty = .f32 then f32F.enc (.inf true) else trunc (tyMin ty) ty.bits
  | .and => 2 ^ ty.bits - 1
  | _ => 0

/-- One level of the tree. -/
def redLevel (f : El → El → Word → El × Word) : List (Option El) → Word → List (Option El) × Word
  | x :: y :: r, g =>
    let (z, g) : Option El × Word := match x, y with
      | some a, some b => let c := f a b g; (some c.1, c.2)
      | some a, none => (some a, g)
      | none, y => (y, g)
    let (zs, g) := redLevel f r g
    (z :: zs, g)
  | xs, g => (xs, g)

/-- node(6, 0) over 64 leaves. -/
def redTree (f : El → El → Word → El × Word) (xs : List (Option El)) (g : Word) : Option El × Word :=
  let r := (List.range 6).foldl (fun a _ => redLevel f a.1 a.2) (xs, g)
  (r.1.headD none, r.2)

/-- The leaves up to a lane limit. -/
def X.leaves (x : X) (ty : Ty) (a : Opnd) (keep : Nat → Bool) : List (Option El) :=
  lanes.map (fun l => if lane x.e l && keep l then some (x.rd.el a ty.w64 l) else none)

/-- A tree's result as it is written: the identity, of bound zero, for an empty one. -/
def redOut (bt : Bool) (ty : Ty) (op : RedOp) (r : Option El) : El :=
  match r with
  | some e => ⟨e.x, computed bt e.b⟩
  | none => ⟨redId ty op, computed bt 0⟩

/-- `wred` (R97, R141). -/
def execWred (h : Hdr) (ty : Ty) (op : RedOp) (r : RndSel) (d a : Opnd) (s : State) : Host.Outcome State Fault Refusal :=
  instr (.wred h ty op r d a) h (.fixed 12) (wr (tyN ty) d ++ rd (tyN ty) a) (fun x s =>
    let l0 := (lowest x.e).getD 0
    let (v, g) := redTree (redOpEl ty op (x.rm r) x.ftz) (x.leaves ty a (fun _ => true)) (x.tm.gen l0)
    let s := s.modTeam x.t (fun tm => tm.setGens [(l0, g)])
    .fixed s (dstUpds d ty.w64 ((x.work d).map (fun l => (l, redOut x.bt ty op v))))) s

/-- `wscan` (R97, R141). -/
def execWscan (h : Hdr) (ty : Ty) (op : RedOp) (excl : Bool) (r : RndSel) (d a : Opnd) (s : State) :
    Host.Outcome State Fault Refusal :=
  instr (.wscan h ty op excl r d a) h (.fixed 12) (wr (tyN ty) d ++ rd (tyN ty) a)
    (vecOpG d ty.w64 (fun x l g =>
      let (v, g) := redTree (redOpEl ty op (x.rm r) x.ftz) (x.leaves ty a (fun j => if excl then j < l else j ≤ l)) g
      (redOut x.bt ty op v, g))) s

end Sys2Proof.Machine
end

