-- ==== Sys2Proof/Machine/Tasks.lean ====
section
/-! DEFINITION. Bounds, budgets and versioned tasks (R205-R210). -/

namespace Sys2Proof.Machine

/-- `bget` (R206). -/
def execBget (h : Hdr) (d a : Opnd) (s : State) : Host.Outcome State Fault Refusal :=
  instr (.bget h d a) h (.fixed 4) (wr 1 d ++ rd 1 a)
    (vecOp d false (fun x l => ⟨(x.rd.cell a 0 l).bnd.toNat, 0⟩)) s

/-- A write of shadows alone. -/
def shadowUpds (d : Opnd) (rs : List (Nat × Half)) : List Upd :=
  match d with
  | .v k => [.vec k.toNat (rs.map (fun r => ⟨r.1, none, some r.2⟩))]
  | .s k => (rs.head?.map (fun r => Upd.sca k.toNat none (some r.2))).toList
  | _ => []

/-- `bset` (R207). -/
def execBset (h : Hdr) (set : Bool) (d a : Opnd) (s : State) : Host.Outcome State Fault Refusal :=
  instr (.bset h set d a) h (.fixed 4) (wr 1 d ++ (if set then [] else rd 1 d) ++ rd 1 a) (fun x s =>
    .fixed s (shadowUpds d ((x.work d).map (fun l =>
      let n := ebNorm (BitVec.ofNat 16 (x.n32 a l).x)
      (l, if set then n else ebMax (x.rd.cell d 0 l).bnd n))))) s

/-- The lanes of E in which some element of an operand breaches (R185, R186). -/
def X.breachLanes (x : X) (t : Ty) (a : Opnd) : Mask :=
  maskOf (fun l => lane x.e l && (
    let e := x.rd.el a t.w64 l
    (elemVals t e.x).any (fun v => breaches x.tm.mode x.tm.budg v e.b)))

/-- `bchk` (R208). -/
def execBchk (h : Hdr) (ty : Ty) (a : Opnd) (s : State) : Host.Outcome State Fault Refusal :=
  instr (.bchk h ty a) h .issue (rd (tyN ty) a) (fun x s =>
    let m := x.breachLanes ty a
    if m = 0 then .issue s else .stop (s.breach x.t x.f 0 m ((lowest m).getD 0))) s

/-- `budg.set` (R184, R209). -/
def execBudgSet (h : Hdr) (a : Opnd) (s : State) : Host.Outcome State Fault Refusal :=
  instr (.budgSet h a) h .issue (rd 1 a) (fun x s =>
    .issue (s.modTeam x.t (fun tm => { tm with budg := budgNorm (BitVec.ofNat 32 (x.rd.int a false 0).x) }))) s

/-- `budg.rd` (R209). -/
def execBudgRd (h : Hdr) (d : Opnd) (s : State) : Host.Outcome State Fault Refusal :=
  instr (.budgRd h d) h (.fixed 4) (wr 1 d) (vecOp d false (fun x _ => ⟨x.tm.budg.toNat, 0⟩)) s

/-- The snapshot of `task.b` (R195): fixed-latency posts still in flight count as those of earlier operations (R200). -/
def X.snapshot (x : X) (firstOp : Nat) : Task where
  pc := x.p.pc.setWidth 56
  exm := x.p.exm
  pmask := x.p.pmask
  stack := x.tm.stack
  spill := x.tm.spill
  preds := x.tm.p
  toks := x.tm.tokN
  gens := x.tm.gens
  mode := x.tm.mode
  budg := x.tm.budg
  firstOp := firstOp
  pre := x.tm.pend.filterMap (fun p => match p.act with | .post .normal k e => some (k, e) | _ => none)
  floor := mGfl x.tm.mode
  try_ := 0
  nonspec := false
  breach := none
  lines := []
  rerun := none

/-- TASKOP of a task instruction: an open task of the attempt closes first (R197). -/
def X.taskop (x : X) (s : State) (sub : Nat) : Res :=
  .trap (if x.tm.inH then s else s.modTeam x.t Team.abortTask) .taskop sub 0

/-- `task.b` (R195, R197, R204, R210). -/
def execTaskB (h : Hdr) (s : State) : Host.Outcome State Fault Refusal :=
  instr (.taskB h) h .issue [] (fun x s =>
    if x.tm.inH then x.taskop s 5
    else if x.tm.split then x.taskop s 3
    else if x.tm.task.isSome then x.taskop s 1
    else if x.tm.stack.any (fun e => e.bad) then x.stackErr s .ecc
    else if 64 ≤ s.openTasks x.tm.core then x.hold s 0 []
    else
      .issue (s.modTeam x.t (fun tm => { tm with task := some (x.snapshot s.nextOp), bstat := bsSet tm.bstat 11 5 4 }))) s

/-- `task.e` (R199, R201, R202, R210). -/
def execTaskE (h : Hdr) (s : State) : Host.Outcome State Fault Refusal :=
  instr (.taskE h) h .issue [] (fun x s =>
    match x.tm.inTask with
    | none => x.taskop s 2
    | some k =>
      if x.tm.split then x.taskop s 3
      else if s.ops.any (fun o => o.2.team = x.t && k.firstOp ≤ o.1
          && ((o.2.cunit = .mem && o.2.dst = []) || o.2.cunit = .matrix)) then
        x.hold s 0 []
      else
        match (if k.nonspec then none else k.breach) with
        | some m => .stop (s.breach x.t x.f 3 m ((lowest m).getD 0))
        | none => .issue ((s.commit x.tm k).modTeam x.t Team.closeTask)) s

/-- `task.x` (R199, R210); ABANDON names the lanes of E. -/
def execTaskX (h : Hdr) (retry : Bool) (s : State) : Host.Outcome State Fault Refusal :=
  instr (.taskX h retry) h .issue [] (fun x s =>
    if x.tm.inTask.isNone then x.taskop s 2
    else if x.tm.split then x.taskop s 3
    else if retry then .stop (s.breach x.t x.f 5 x.e ((lowest x.e).getD 0))
    else .issue (s.modTeam x.t Team.abortTask)) s

end Sys2Proof.Machine
end

