-- ==== Sys2Proof/Machine/Dispatch.lean ====
section
/-! DEFINITION. The meaning of every instruction and of every other step of the machine: one arm per constructor. -/

namespace Sys2Proof.Machine

/-- The meaning of each constructor. -/
def exec (i : Instr) (s : State) : Host.Outcome State Fault Refusal :=
  match i with
  | .nop h => Sys2Proof.Machine.execNop h s
  | .dly h n => Sys2Proof.Machine.execDly h n s
  | .bra h disp => Sys2Proof.Machine.execBra h disp s
  | .brx h a => Sys2Proof.Machine.execBrx h a s
  | .call h disp => Sys2Proof.Machine.execCall h disp s
  | .calx h a => Sys2Proof.Machine.execCalx h a s
  | .ret h => Sys2Proof.Machine.execRet h s
  | .exit h => Sys2Proof.Machine.execExit h s
  | .rcv h disp => Sys2Proof.Machine.execRcv h disp s
  | .rjoin h => Sys2Proof.Machine.execRjoin h s
  | .rjoinTo h d a => Sys2Proof.Machine.execRjoinTo h d a s
  | .exmRd h d w => Sys2Proof.Machine.execExmRd h d w s
  | .exmWr h a => Sys2Proof.Machine.execExmWr h a s
  | .exmAnd h a => Sys2Proof.Machine.execExmAnd h a s
  | .exmOr h a => Sys2Proof.Machine.execExmOr h a s
  | .yield h a n disp => Sys2Proof.Machine.execYield h a n disp s
  | .waitcAny h d a b n => Sys2Proof.Machine.execWaitcAny h d a b n s
  | .waitcAll h d a b n => Sys2Proof.Machine.execWaitcAll h d a b n s
  | .kwait h k thr normal => Sys2Proof.Machine.execKwait h k thr normal s
  | .kset h k val normal => Sys2Proof.Machine.execKset h k val normal s
  | .krd h d k b => Sys2Proof.Machine.execKrd h d k b s
  | .kadd h k delta normal => Sys2Proof.Machine.execKadd h k delta normal s
  | .barInit h a b => Sys2Proof.Machine.execBarInit h a b s
  | .barArv h scope a wait => Sys2Proof.Machine.execBarArv h scope a wait s
  | .barExp h a b => Sys2Proof.Machine.execBarExp h a b s
  | .barRd h d a sel => Sys2Proof.Machine.execBarRd h d a sel s
  | .tlRd h d a sel => Sys2Proof.Machine.execTlRd h d a sel s
  | .tlSig h scope a b add => Sys2Proof.Machine.execTlSig h scope a b add s
  | .fence h scope ord => Sys2Proof.Machine.execFence h scope ord s
  | .add h ty sat d a b => Sys2Proof.Machine.execAdd h ty sat d a b s
  | .sub h ty sat d a b => Sys2Proof.Machine.execSub h ty sat d a b s
  | .mul h ty d a b => Sys2Proof.Machine.execMul h ty d a b s
  | .mulh h ty d a b => Sys2Proof.Machine.execMulh h ty d a b s
  | .mad h ty sat d a b c => Sys2Proof.Machine.execMad h ty sat d a b c s
  | .madh h ty d a b c => Sys2Proof.Machine.execMadh h ty d a b c s
  | .div h ty d a b => Sys2Proof.Machine.execDiv h ty d a b s
  | .rem h ty d a b => Sys2Proof.Machine.execRem h ty d a b s
  | .min h ty d a b => Sys2Proof.Machine.execMin h ty d a b s
  | .max h ty d a b => Sys2Proof.Machine.execMax h ty d a b s
  | .abs h ty sat d a => Sys2Proof.Machine.execAbs h ty sat d a s
  | .neg h ty sat d a => Sys2Proof.Machine.execNeg h ty sat d a s
  | .and h ty d a b => Sys2Proof.Machine.execAnd h ty d a b s
  | .or h ty d a b => Sys2Proof.Machine.execOr h ty d a b s
  | .xor h ty d a b => Sys2Proof.Machine.execXor h ty d a b s
  | .not h ty d a => Sys2Proof.Machine.execNot h ty d a s
  | .andn h ty d a b => Sys2Proof.Machine.execAndn h ty d a b s
  | .shl h ty d a b => Sys2Proof.Machine.execShl h ty d a b s
  | .shr h ty d a b => Sys2Proof.Machine.execShr h ty d a b s
  | .sar h ty d a b => Sys2Proof.Machine.execSar h ty d a b s
  | .rol h ty d a b => Sys2Proof.Machine.execRol h ty d a b s
  | .fshL h ty d a b c => Sys2Proof.Machine.execFshL h ty d a b c s
  | .fshR h ty d a b c => Sys2Proof.Machine.execFshR h ty d a b c s
  | .popc h ty d a => Sys2Proof.Machine.execPopc h ty d a s
  | .clz h ty d a => Sys2Proof.Machine.execClz h ty d a s
  | .ctz h ty d a => Sys2Proof.Machine.execCtz h ty d a s
  | .brev h ty d a => Sys2Proof.Machine.execBrev h ty d a s
  | .bfx h ty d a b c => Sys2Proof.Machine.execBfx h ty d a b c s
  | .bfi h ty d a b c => Sys2Proof.Machine.execBfi h ty d a b c s
  | .setp h ty c d a b => Sys2Proof.Machine.execSetp h ty c d a b s
  | .sel h ty d a b p => Sys2Proof.Machine.execSel h ty d a b p s
  | .mov h ty d a => Sys2Proof.Machine.execMov h ty d a s
  | .movi h ty d imm => Sys2Proof.Machine.execMovi h ty d imm s
  | .movh h d imm => Sys2Proof.Machine.execMovh h d imm s
  | .lea h sh d a b => Sys2Proof.Machine.execLea h sh d a b s
  | .fadd h ty r d a b => Sys2Proof.Machine.execFadd h ty r d a b s
  | .fsub h ty r d a b => Sys2Proof.Machine.execFsub h ty r d a b s
  | .fmul h ty r g d a b => Sys2Proof.Machine.execFmul h ty r g d a b s
  | .ffma h ty r g d a b c => Sys2Proof.Machine.execFfma h ty r g d a b c s
  | .fmin h ty nan d a b => Sys2Proof.Machine.execFmin h ty nan d a b s
  | .fmax h ty nan d a b => Sys2Proof.Machine.execFmax h ty nan d a b s
  | .fabs h ty d a => Sys2Proof.Machine.execFabs h ty d a s
  | .fneg h ty d a => Sys2Proof.Machine.execFneg h ty d a s
  | .fsetp h ty c d a b => Sys2Proof.Machine.execFsetp h ty c d a b s
  | .frcp h ty d a => Sys2Proof.Machine.execFrcp h ty d a s
  | .frsq h ty d a => Sys2Proof.Machine.execFrsq h ty d a s
  | .fsqrt h ty r d a => Sys2Proof.Machine.execFsqrt h ty r d a s
  | .fdiv h ty r d a b => Sys2Proof.Machine.execFdiv h ty r d a b s
  | .fexp2 h d a => Sys2Proof.Machine.execFexp2 h d a s
  | .flog2 h d a => Sys2Proof.Machine.execFlog2 h d a s
  | .fsin h d a => Sys2Proof.Machine.execFsin h d a s
  | .fcos h d a => Sys2Proof.Machine.execFcos h d a s
  | .ftanh h d a => Sys2Proof.Machine.execFtanh h d a s
  | .fscl h ty r d a b => Sys2Proof.Machine.execFscl h ty r d a b s
  | .fxpn h ty d a => Sys2Proof.Machine.execFxpn h ty d a s
  | .frnd h ty r d a => Sys2Proof.Machine.execFrnd h ty r d a s
  | .fclass h ty d a => Sys2Proof.Machine.execFclass h ty d a s
  | .fdot2 h ty r g d a b c => Sys2Proof.Machine.execFdot2 h ty r g d a b c s
  | .fdot4 h ty r g d a b c => Sys2Proof.Machine.execFdot4 h ty r g d a b c s
  | .cvt h ty src r d a => Sys2Proof.Machine.execCvt h ty src r d a s
  | .pack h ty q d a => Sys2Proof.Machine.execPack h ty q d a s
  | .unpack h ty q d a => Sys2Proof.Machine.execUnpack h ty q d a s
  | .shfl h ty m d a b => Sys2Proof.Machine.execShfl h ty m d a b s
  | .vote h m d a => Sys2Proof.Machine.execVote h m d a s
  | .wred h ty op r d a => Sys2Proof.Machine.execWred h ty op r d a s
  | .wscan h ty op excl r d a => Sys2Proof.Machine.execWscan h ty op excl r d a s
  | .rdlane h ty d a b => Sys2Proof.Machine.execRdlane h ty d a b s
  | .wrlane h ty d a b => Sys2Proof.Machine.execWrlane h ty d a b s
  | .matchL h ty all d a => Sys2Proof.Machine.execMatchL h ty all d a s
  | .plop h d a b c tt => Sys2Proof.Machine.execPlop h d a b c tt s
  | .bget h d a => Sys2Proof.Machine.execBget h d a s
  | .bset h set d a => Sys2Proof.Machine.execBset h set d a s
  | .bchk h ty a => Sys2Proof.Machine.execBchk h ty a s
  | .budgSet h a => Sys2Proof.Machine.execBudgSet h a s
  | .budgRd h d => Sys2Proof.Machine.execBudgRd h d s
  | .taskB h => Sys2Proof.Machine.execTaskB h s
  | .taskE h => Sys2Proof.Machine.execTaskE h s
  | .taskX h retry => Sys2Proof.Machine.execTaskX h retry s
  | .ld h ty n d a b off => Sys2Proof.Machine.execLd h ty n d a b off s
  | .ldb h ty n d a b off => Sys2Proof.Machine.execLdb h ty n d a b off s
  | .ldp h ty d a b off => Sys2Proof.Machine.execLdp h ty d a b off s
  | .ldc h ty n d a b off => Sys2Proof.Machine.execLdc h ty n d a b off s
  | .st h ty n d a b off => Sys2Proof.Machine.execSt h ty n d a b off s
  | .stm h n d a b off => Sys2Proof.Machine.execStm h n d a b off s
  | .stc h ty d a b off => Sys2Proof.Machine.execStc h ty d a b off s
  | .prefL2 h a b off => Sys2Proof.Machine.execPrefL2 h a b off s
  | .prefL1 h a b off => Sys2Proof.Machine.execPrefL1 h a b off s
  | .cinvLine h a b off => Sys2Proof.Machine.execCinvLine h a b off s
  | .cinvAll h => Sys2Proof.Machine.execCinvAll h s
  | .cwbLine h a b off => Sys2Proof.Machine.execCwbLine h a b off s
  | .cwbAll h => Sys2Proof.Machine.execCwbAll h s
  | .atom h ty op r scope ord d a b c => Sys2Proof.Machine.execAtom h ty op r scope ord d a b c s
  | .red h ty op r scope rel a b => Sys2Proof.Machine.execRed h ty op r scope rel a b s
  | .cpl h z d a opt => Sys2Proof.Machine.execCpl h z d a opt s
  | .cpb h d a b opt => Sys2Proof.Machine.execCpb h d a b opt s
  | .cpcCont h d a b opt => Sys2Proof.Machine.execCpcCont h d a b opt s
  | .cpcLast h d a b opt => Sys2Proof.Machine.execCpcLast h d a b opt s
  | .cpxPut h d a b opt => Sys2Proof.Machine.execCpxPut h d a b opt s
  | .cpxGet h d a b opt => Sys2Proof.Machine.execCpxGet h d a b opt s
  | .dcz h d a => Sys2Proof.Machine.execDcz h d a s
  | .mtd h d a b => Sys2Proof.Machine.execMtd h d a b s
  | .msd h d a en => Sys2Proof.Machine.execMsd h d a en s
  | .mma h ty g d a b tA tB => Sys2Proof.Machine.execMma h ty g d a b tA tB s
  | .mz h mask rel => Sys2Proof.Machine.execMz h mask rel s
  | .mrd h ty r d a b nm1 => Sys2Proof.Machine.execMrd h ty r d a b nm1 s
  | .mwr h ty d a b nm1 => Sys2Proof.Machine.execMwr h ty d a b nm1 s
  | .mst h ty r d a => Sys2Proof.Machine.execMst h ty r d a s
  | .mstat h d sel b => Sys2Proof.Machine.execMstat h d sel b s
  | .lbind h a b rty => Sys2Proof.Machine.execLbind h a b rty s
  | .lrel h a b => Sys2Proof.Machine.execLrel h a b s
  | .lhint h a b nm1 => Sys2Proof.Machine.execLhint h a b nm1 s
  | .lstat h d a b => Sys2Proof.Machine.execLstat h d a b s
  | .txch h d a b nm1 => Sys2Proof.Machine.execTxch h d a b nm1 s
  | .collSum h ty a b cf => Sys2Proof.Machine.execCollSum h ty a b cf s
  | .collMax h ty a b => Sys2Proof.Machine.execCollMax h ty a b s
  | .collGath h ty a b => Sys2Proof.Machine.execCollGath h ty a b s
  | .collBcst h ty a b => Sys2Proof.Machine.execCollBcst h ty a b s
  | .mfs h d r => Sys2Proof.Machine.execMfs h d r s
  | .mts h r a => Sys2Proof.Machine.execMts h r a s
  | .trap h imm => Sys2Proof.Machine.execTrap h imm s
  | .rti h => Sys2Proof.Machine.execRti h s
  | .brk h imm => Sys2Proof.Machine.execBrk h imm s
  | .tinvPage h a b => Sys2Proof.Machine.execTinvPage h a b s
  | .tinvCtx h b => Sys2Proof.Machine.execTinvCtx h b s
  | .tinvAll h => Sys2Proof.Machine.execTinvAll h s
  | .ckpt h d => Sys2Proof.Machine.execCkpt h d s
  | .dlyExpiry team f => Sys2Proof.Machine.execDlyExpiry team f s
  | .stallExpiry team f => Sys2Proof.Machine.execStallExpiry team f s
  | .rjoinTimeoutExpiry team f => Sys2Proof.Machine.execRjoinTimeoutExpiry team f s
  | .yieldReactivation team f => Sys2Proof.Machine.execYieldReactivation team f s
  | .waitcSatisfied team f => Sys2Proof.Machine.execWaitcSatisfied team f s
  | .waitcTimeoutExpiry team f => Sys2Proof.Machine.execWaitcTimeoutExpiry team f s
  | .loadHoldTimeout team f => Sys2Proof.Machine.execLoadHoldTimeout team f s
  | .tokenCompletion op => Sys2Proof.Machine.execTokenCompletion op s
  | .copyCommandComplete group turn => Sys2Proof.Machine.execCopyCommandComplete group turn s
  | .dczBlock group => Sys2Proof.Machine.execDczBlock group s
  | .matrixCommandAccept core => Sys2Proof.Machine.execMatrixCommandAccept core s
  | .matrixCommandExecute core mismatch => Sys2Proof.Machine.execMatrixCommandExecute core mismatch s
  | .leaseGrant core => Sys2Proof.Machine.execLeaseGrant core s
  | .tileSpill core => Sys2Proof.Machine.execTileSpill core s
  | .sideLogReplay core entry => Sys2Proof.Machine.execSideLogReplay core entry s
  | .txchTimeout op => Sys2Proof.Machine.execTxchTimeout op s
  | .collContribution session rank msg => Sys2Proof.Machine.execCollContribution session rank msg s
  | .collTimerExpiry op => Sys2Proof.Machine.execCollTimerExpiry op s
  | .collResult op cmask elems => Sys2Proof.Machine.execCollResult op cmask elems s
  | .swapRequestStart => Sys2Proof.Machine.execSwapRequestStart s
  | .layerArrivalComplete ctx layer => Sys2Proof.Machine.execLayerArrivalComplete ctx layer s
  | .layerArrivalFailure ctx layer cause => Sys2Proof.Machine.execLayerArrivalFailure ctx layer cause s
  | .residencyWordWrite ctx layer val => Sys2Proof.Machine.execResidencyWordWrite ctx layer val s
  | .mdescWriteEnable ctx val => Sys2Proof.Machine.execMdescWriteEnable ctx val s
  | .mdescWriteDisable ctx val => Sys2Proof.Machine.execMdescWriteDisable ctx val s
  | .trapEntry team => Sys2Proof.Machine.execTrapEntry team s
  | .hrespRelease hid => Sys2Proof.Machine.execHrespRelease hid s
  | .hrespDiscard hid => Sys2Proof.Machine.execHrespDiscard hid s
  | .frespRetry ctx va => Sys2Proof.Machine.execFrespRetry ctx va s
  | .frespDecline ctx va => Sys2Proof.Machine.execFrespDecline ctx va s
  | .faultAnswerTimeout ctx va => Sys2Proof.Machine.execFaultAnswerTimeout ctx va s
  | .queueNotify q wi => Sys2Proof.Machine.execQueueNotify q wi s
  | .qstatHltClear q => Sys2Proof.Machine.execQstatHltClear q s
  | .launchPacketStart q => Sys2Proof.Machine.execLaunchPacketStart q s
  | .waitPacketStart q => Sys2Proof.Machine.execWaitPacketStart q s
  | .waitPacketEnd q => Sys2Proof.Machine.execWaitPacketEnd q s
  | .waitPacketTimeout q => Sys2Proof.Machine.execWaitPacketTimeout q s
  | .signalPacketStart q => Sys2Proof.Machine.execSignalPacketStart q s
  | .ckptPacketStart q => Sys2Proof.Machine.execCkptPacketStart q s
  | .groupPlacement launch => Sys2Proof.Machine.execGroupPlacement launch s
  | .intervalOpen ctx => Sys2Proof.Machine.execIntervalOpen ctx s
  | .uncorrectableError ctx site => Sys2Proof.Machine.execUncorrectableError ctx site s
  | .rollback ctx => Sys2Proof.Machine.execRollback ctx s
  | .rbcfgEnable ctx => Sys2Proof.Machine.execRbcfgEnable ctx s
  | .shadowSwap core => Sys2Proof.Machine.execShadowSwap core s
  | .swapBankActivate core => Sys2Proof.Machine.execSwapBankActivate core s
  | .shadowSpill core => Sys2Proof.Machine.execShadowSpill core s
  | .shadowFill core => Sys2Proof.Machine.execShadowFill core s
  | .spillFillComplete core crcOk faultFree => Sys2Proof.Machine.execSpillFillComplete core crcOk faultFree s
  | .mxcfgClre core val => Sys2Proof.Machine.execMxcfgClre core val s
  | .correctedError unit info => Sys2Proof.Machine.execCorrectedError unit info s
  | .spareTakeover core => Sys2Proof.Machine.execSpareTakeover core s
  | .patrolScrub line bad => Sys2Proof.Machine.execPatrolScrub line bad s
  | .flitReplay stack link => Sys2Proof.Machine.execFlitReplay stack link s
  | .rimFrameReceive session head payload => Sys2Proof.Machine.execRimFrameReceive session head payload s
  | .rimFrameResend session => Sys2Proof.Machine.execRimFrameResend session s
  | .rimGiveup session => Sys2Proof.Machine.execRimGiveup session s
  | .rimPortDown port => Sys2Proof.Machine.execRimPortDown port s
  | .rimPortUp port => Sys2Proof.Machine.execRimPortUp port s
  | .peerRequest session req => Sys2Proof.Machine.execPeerRequest session req s
  | .riminjArm val => Sys2Proof.Machine.execRiminjArm val s
  | .sessionSetup session val => Sys2Proof.Machine.execSessionSetup session val s
  | .sessionSetupComplete session ok => Sys2Proof.Machine.execSessionSetupComplete session ok s
  | .sessionTeardown session => Sys2Proof.Machine.execSessionTeardown session s
  | .sessionRekey session => Sys2Proof.Machine.execSessionRekey session s
  | .hostWrite pa bytes => Sys2Proof.Machine.execHostWrite pa bytes s
  | .hostSnoop pa => Sys2Proof.Machine.execHostSnoop pa s
  | .cxlPoison pa lines => Sys2Proof.Machine.execCxlPoison pa lines s
  | .cxlLinkDown drop => Sys2Proof.Machine.execCxlLinkDown drop s
  | .spdmPskExchange => Sys2Proof.Machine.execSpdmPskExchange s
  | .spdmKeyLoad key => Sys2Proof.Machine.execSpdmKeyLoad key s
  | .spdmKeyErase key => Sys2Proof.Machine.execSpdmKeyErase key s
  | .spdmChallenge => Sys2Proof.Machine.execSpdmChallenge s
  | .spdmMeasurements => Sys2Proof.Machine.execSpdmMeasurements s
  | .coldReset fwOk present good => Sys2Proof.Machine.execColdReset fwOk present good s
  | .warmReset fwOk => Sys2Proof.Machine.execWarmReset fwOk s
  | .brcfgLock size => Sys2Proof.Machine.execBrcfgLock size s
  | .stkpwrVrstSet stack => Sys2Proof.Machine.execStkpwrVrstSet stack s
  | .stkpwrVrstClear stack => Sys2Proof.Machine.execStkpwrVrstClear stack s
  | .vrdyReady stack => Sys2Proof.Machine.execVrdyReady stack s
  | .powerWindow pavg vcore fclk => Sys2Proof.Machine.execPowerWindow pavg vcore fclk s
  | .configRegisterWrite off val => Sys2Proof.Machine.execConfigRegisterWrite off val s
  | .modulePowerOff => Sys2Proof.Machine.execModulePowerOff s

end Sys2Proof.Machine
end

