-- ==== Sys2Proof/Machine/Step.lean ====
section
/-! DEFINITION. The step of the machine, and a state whose next step runs a given word. -/

namespace Sys2Proof.Machine

/-- One step: the script's next move, or what the hardware does next (log entry 2). -/
def step (s : State) : Host.Outcome State Fault Refusal := s.stepWith exec

/-- The state s with a team that is about to run the word w (log entry 2). -/
def State.withFetchWord (s : State) (nbits w : Nat) : State := s.placeWord (BitVec.ofNat 96 (w % 2 ^ nbits))

end Sys2Proof.Machine
end

