-- ==== Sys2Proof/Safety.lean ====
section
/-! DEFINITION. What counts as a safe state and a safe run, when an instruction meets nothing that stops it, and the next
state that the rules of issue and completion (R100-R113) give, in the terms that the statements use. -/

namespace Sys2Proof.Machine

/-- No agent of the package has used an address that does not exist, and memory is in its one canonical form. -/
def State.Safe (s : State) : Prop := s.hole = false ∧ Memory.wf s.mem = true

/-- Every state that a run of n steps from s passes through is safe, and the run stops at no fault and no refusal. -/
def SafeRun : Nat → State → Prop
  | 0, s => s.Safe
  | n + 1, s => s.Safe ∧ ∃ t, step s = .next t ∧ SafeRun n t

/-! ### An instruction that nothing stops -/

/-- The fragment that `cur` names: team t, as `tm` gives it, its fragment f, and how its memory effects are performed. -/
structure At where
  t    : Nat
  f    : Bool
  late : Bool
  tm   : Team
  deriving DecidableEq, Repr

/-- The path of the fragment. -/
def At.path (a : At) : Path := a.tm.path a.f

/-- The effective mask of an instruction with header h (R49). -/
def At.mask (a : At) (h : Hdr) : Mask := a.path.exm &&& a.tm.guard h.g

/-- The fragment is there, runs, and is held by nothing (R32, R34, R100); no address that does not exist was used. -/
structure Live0 (s : State) (a : At) : Prop where
  cur  : s.cur = some (a.t, a.f, a.late)
  team : tget s.teams a.t = some a.tm
  runs : a.tm.runs a.f = true
  go   : s.stopped a.tm = false
  free : a.path.hold = .free
  perm : a.tm.perm = none
  hole : s.hole = false

/-- What stands before the effect of an instruction with header h and register operands ps lets it through: its inline
wait is met (R110) and its token is whole (R397), MODE.CHK finds no operand under-waited (R113), the team is not in a task where
`tk` instructions trap (R197), and nothing that it reads is corrupted (R397). -/
structure Clear (s : State) (a : At) (h : Hdr) (ps : List Port) (tk : Bool) : Prop where
  live  : Live0 s a
  mend  : a.tm.eccWait h = none
  wait  : a.tm.inlineWait h = .ok
  under : mChk a.tm.mode = true → s.underwait a.t a.tm a.path.pid (a.mask h) (ps ++ rdPred h.g.p) = none
  task  : tk = true → a.tm.inTask = none
  ecc   : a.tm.eccHit h (a.mask h) ps = none

/-- `Clear`, and some lane is effective (R49): the instruction acts. -/
structure Ready (s : State) (a : At) (h : Hdr) (ps : List Port) : Prop where
  clear : Clear s a h ps false
  acts  : a.mask h ≠ 0

/-- The same for an instruction that raises TASKOP inside a task (R197). -/
structure ReadyOut (s : State) (a : At) (h : Hdr) (ps : List Port) : Prop where
  clear : Clear s a h ps true
  acts  : a.mask h ≠ 0

/-! ### What the meaning works from, and the states that the rules of completion give -/

/-- The quadrant's slot is used in this clk, by this fragment (R100, R375), and nothing is current any more. -/
def State.slotted (s : State) (a : At) : State := State.slotUse { s with cur := none } a.t a.f a.tm

/-- The state beside the effect: the slot is used, and free values that an under-waited read chose are drawn (R111). -/
def State.issued (s : State) (a : At) : State := ((s.slotted a).readView a.t a.tm).2

/-- What the instruction works from: the team as it stands, its registers as they read (R111), its path, its mask. -/
def State.viewAt (s : State) (a : At) (h : Hdr) : X where
  t := a.t
  f := a.f
  late := a.late
  tm := a.tm
  rd := ((s.slotted a).readView a.t a.tm).1
  p := a.path
  h := h
  e := a.mask h
  st := none

/-- The post of an instruction's POST field, due at clk n, or with the team's earlier posts of the token (R106, R107). -/
def At.posts (a : At) (h : Hdr) (n : Nat) : List Pend :=
  match h.sc.post with
  | none => []
  | some k => [⟨a.tm.postDue a.tm.curBank k.toNat n, 0, .post a.tm.curBank k.toNat none⟩]

/-- The team with pending effects ps queued behind those it has (R104, R106). -/
def Team.queue (tm : Team) (ps : List Pend) : Team := { tm with pend := tm.pend ++ ps }

/-- The fragment goes on to the next instruction, after `extra` clk more than STALL says (R101, R117). -/
def At.next (a : At) (h : Hdr) (clk extra : Nat) (tm : Team) : Team :=
  let n := h.sc.stall.toNat
  tm.setPath a.f { tm.path a.f with
    pc := a.path.pc + 12, hold := .free
    cd := if extra = 0 then stallCd clk n else .dly (clk + 1 + n + extra) }

/-- A fixed-latency instruction of latency l with register writes us, issued beside s (R102-R106). -/
def State.fixedNext (s : State) (a : At) (h : Hdr) (l : Nat) (us : List Upd) : State :=
  s.modTeam a.t (fun tm => a.next h s.clk 0
    (tm.queue (us.map (fun u => ⟨s.clk + l, a.path.pid, .upd u⟩) ++ a.posts h (s.clk + l + 1))))

/-- An operation enters its unit, which will post (R106-R108), and the fragment goes on. -/
def State.tokenNext (s : State) (a : At) (h : Hdr) (o : Op) : State :=
  { s with ops := tset s.ops s.nextOp { o with post := h.sc.post.map (fun (k : BitVec 5) => (a.tm.curBank, k.toNat)) }
           nextOp := s.nextOp + 1
           teams := tmod s.teams a.t (a.next h s.clk 0) }

/-- The operation of a token-class instruction at its issue. -/
def At.op (a : At) (s : State) (u : CUnit) (dst : List Nat) (w : Work) : Op where
  at_ := s.clk
  team := a.t
  frag := if a.tm.split then 1 + a.f.toNat else 0
  pid := a.path.pid
  cunit := u
  post := none
  inH := a.tm.inH
  dst := dst
  clash := []
  casPid := none
  lines := 0
  inVer := false
  work := w

/-- An Issue-class instruction whose effect on the team is g (R102, R106): the team, the fragment's move and the post. -/
def State.issueNext (s : State) (a : At) (h : Hdr) (g : Team → Team) : State :=
  s.modTeam a.t (fun tm => a.next h s.clk 0 ((g tm).queue (a.posts h (s.clk + 2))))

/-- A fragment that moves to pc (R101, R106, R130): its mask stays, a countdown that is longer than STALL stays, and its
spin counter becomes `spin` (R38). -/
def State.jumpNext (s : State) (a : At) (h : Hdr) (pc : BitVec 64) (spin : Nat) : State :=
  let n := h.sc.stall.toNat
  s.modTeam a.t (fun tm =>
    (tm.setPath a.f { tm.path a.f with
      pc := pc, hold := .free, spin := spin
      cd := if (tm.path a.f).cd.until < s.clk + 1 + n then stallCd s.clk n else (tm.path a.f).cd }).queue
      (a.posts h (s.clk + 2)))

/-- A taken branch to pc does not count as a spin (R38). -/
def At.onward (a : At) (pc : BitVec 64) : Prop := a.path.pc.toNat < pc.toNat ∨ mProg a.tm.mode = true

/-! ### The ways in which an instruction completes (R102), each for every state in which nothing stops it -/

/-- Instruction i is of fixed latency l and register operands ps: when nothing stops it, exec answers the next state that
R102-R106 give, with the writes that w computes from what the instruction reads. -/
def RunsFixed (i : Instr) (h : Hdr) (l : Nat) (ps : List Port) (w : X → List Upd) : Prop :=
  ∀ (s : State) (a : At), Ready s a h ps →
    exec i s = .next ((s.issued a).fixedNext a h l (w (s.viewAt a h)))

/-- The same for an instruction whose lanes draw from their generators (R86, R90): w gives the lanes' new generators too. -/
def RunsDraws (i : Instr) (h : Hdr) (l : Nat) (ps : List Port) (w : X → List Upd × List (Nat × Word)) : Prop :=
  ∀ (s : State) (a : At), Ready s a h ps →
    exec i s = .next (((s.issued a).modTeam a.t (fun tm => tm.setGens (w (s.viewAt a h)).2)).fixedNext a h l
      (w (s.viewAt a h)).1)

/-- A token-class instruction (R106-R108) whose operation enters unit u, with destination lanes dst and what is left to
do, as `o` computes them from what the instruction reads and the state at its issue. -/
def RunsToken (i : Instr) (h : Hdr) (u : CUnit) (ps : List Port) (o : X → State → List Nat × Work) : Prop :=
  ∀ (s : State) (a : At), Ready s a h ps →
    exec i s = .next ((s.issued a).tokenNext a h
      (a.op (s.issued a) u (o (s.viewAt a h) (s.issued a)).1 (o (s.viewAt a h) (s.issued a)).2))

/-- A token-class instruction whose result is known at issue, with the lanes' new generators (R86, R108). -/
def RunsTokenDraws (i : Instr) (h : Hdr) (u : CUnit) (ps : List Port) (dst : X → List Nat)
    (w : X → List Upd × List (Nat × Word)) : Prop :=
  ∀ (s : State) (a : At), Ready s a h ps →
    exec i s = .next (((s.issued a).modTeam a.t (fun tm => tm.setGens (w (s.viewAt a h)).2)).tokenNext a h
      (a.op (s.issued a) u (dst (s.viewAt a h)) (.done (w (s.viewAt a h)).1)))

/-- An Issue-class instruction (R102) whose effect on its team is g. -/
def RunsIssue (i : Instr) (h : Hdr) (ps : List Port) (g : X → Team → Team) : Prop :=
  ∀ (s : State) (a : At), Ready s a h ps →
    exec i s = .next ((s.issued a).issueNext a h (g (s.viewAt a h)))

/-- Writes of an element to every lane that the instruction computes (R147). -/
def laneWrites (d : Opnd) (w64 : Bool) (f : X → Nat → El) (x : X) : List Upd :=
  dstUpds d w64 ((x.work d).map (fun l => (l, f x l)))

/-- The same, with the generator of each lane drawn from. -/
def laneDraws (d : Opnd) (w64 : Bool) (f : X → Nat → Word → El × Word) (x : X) : List Upd × List (Nat × Word) :=
  let rs := (x.work d).map (fun l => (l, f x l (x.tm.gen l)))
  (dstUpds d w64 (rs.map (fun r => (r.1, r.2.1))), rs.map (fun r => (r.1, r.2.2)))

/-- The write of truth and doubt to a predicate, a lane at a time (R98). -/
def predWrites (d : BitVec 3) (f : X → Nat → Bool × Bool) (x : X) : List Upd :=
  let m (g : Bool × Bool → Bool) : Mask :=
    BitVec.ofNat 64 (((lanesOf x.e).map (fun l => (l, f x l))).foldl (fun a r => if g r.2 then a + 2 ^ r.1 else a) 0)
  [.prd d.toNat x.e (m Prod.fst) (m Prod.snd)]

/-! ### An instruction that holds its fragment, and goes on -/

/-- The fragment is inside instruction i, with what it keeps in w and the effective mask e of its issue, and waits for no
answer of a page (R100, R335). -/
structure Within (s : State) (a : At) (i : Instr) (e : Mask) (w : Held) : Prop where
  cur  : s.cur = some (a.t, a.f, a.late)
  team : tget s.teams a.t = some a.tm
  runs : a.tm.runs a.f = true
  go   : s.stopped a.tm = false
  hold : a.path.hold = .inside i w.clk0 w.rt0 (e.toNat :: w.cap) w.stage w.pages w.layer w.fate
  open_ : w.pages = [] ∨ w.fate ≠ .open
  hole : s.hole = false

/-- The state beside the effect of an instruction that goes on. -/
def State.resumed (s : State) (a : At) : State := (State.readView { s with cur := none } a.t a.tm).2

/-- What the instruction works from. -/
def State.viewIn (s : State) (a : At) (h : Hdr) (e : Mask) (w : Held) : X where
  t := a.t
  f := a.f
  late := a.late
  tm := a.tm
  rd := (State.readView { s with cur := none } a.t a.tm).1
  p := a.path
  h := h
  e := e
  st := some w

/-! ### Waits and releases -/

/-- In state t, fragment a.f of the team stands behind the instruction, with nothing that holds it. -/
def GoneOn (t : State) (a : At) : Prop :=
  ∃ tm, tget t.teams a.t = some tm ∧ (tm.path a.f).pc = a.path.pc + 12 ∧ (tm.path a.f).hold = .free

/-- In state t, the fragment waits inside instruction i, at the same address, in the given stage. -/
def WaitsIn (t : State) (a : At) (i : Instr) (stage : Nat) : Prop :=
  ∃ tm c r cap, tget t.teams a.t = some tm ∧ (tm.path a.f).pc = a.path.pc ∧
    (tm.path a.f).hold = .inside i c r cap stage [] none .open

/-- R323: the words of a condition block at `o` are well formed, name what exists, and memory words are aligned. -/
def BlockOk (x : X) (s : State) (o : Opnd) (n : BitVec 2) (cs : List Cond) : Prop :=
  condParse 0 (x.condWords o (n.toNat + 1)) = .ok cs ∧ condError x s 0 cs = none ∧
    ∀ va c v sc, Cond.memory va c v sc ∈ cs → va % 4 = 0

/-- R281, R290: the path waits for operations that satisfy q; inside a task, for none of whose accesses all lie in the version. -/
def At.pathWaits (a : At) (s : State) (q : Op → Bool) : Bool :=
  s.pathBusy a.t a.f (fun o => q o && !(o.inVer && a.tm.inTask.isSome))

/-- R281: what a release at a scope waits for is done: the path's accesses, and for grp and wider the team's side log
entries, of which none was lost. -/
def Released (s : State) (a : At) (sc : Scope) : Prop :=
  (Scope.num sc = 0 ∨ (a.tm.sideLost = false ∧ s.sideTeam a.t = false)) ∧ a.pathWaits s Op.accesses = false

/-! ### Forms that statements name -/

/-- The register instructions that do nothing but compute from registers: header, class, register operands. -/
def formOf : Instr → Option (Hdr × Cls × List Port)
  | .add h ty _ d a b => some (h, .fixed 4, wr (tyN ty) d ++ rd (tyN ty) a ++ rd (tyN ty) b)
  | .sub h ty _ d a b => some (h, .fixed 4, wr (tyN ty) d ++ rd (tyN ty) a ++ rd (tyN ty) b)
  | .mul h ty d a b => some (h, .fixed 4, wr (tyN ty) d ++ rd (tyN ty) a ++ rd (tyN ty) b)
  | .mulh h ty d a b => some (h, .fixed 4, wr (tyN ty) d ++ rd (tyN ty) a ++ rd (tyN ty) b)
  | .mad h ty _ d a b c => some (h, .fixed 4, wr (tyN ty) d ++ rd (tyN ty) a ++ rd (tyN ty) b ++ rd (tyN ty) c)
  | .madh h ty d a b c => some (h, .fixed 4, wr (tyN ty) d ++ rd (tyN ty) a ++ rd (tyN ty) b ++ rd (tyN ty) c)
  | .min h ty d a b => some (h, .fixed 4, wr (tyN ty) d ++ rd (tyN ty) a ++ rd (tyN ty) b)
  | .max h ty d a b => some (h, .fixed 4, wr (tyN ty) d ++ rd (tyN ty) a ++ rd (tyN ty) b)
  | .abs h ty _ d a => some (h, .fixed 4, wr (tyN ty) d ++ rd (tyN ty) a)
  | .neg h ty _ d a => some (h, .fixed 4, wr (tyN ty) d ++ rd (tyN ty) a)
  | .and h ty d a b => some (h, .fixed 4, wr (tyN ty) d ++ rd (tyN ty) a ++ rd (tyN ty) b)
  | .or h ty d a b => some (h, .fixed 4, wr (tyN ty) d ++ rd (tyN ty) a ++ rd (tyN ty) b)
  | .xor h ty d a b => some (h, .fixed 4, wr (tyN ty) d ++ rd (tyN ty) a ++ rd (tyN ty) b)
  | .not h ty d a => some (h, .fixed 4, wr (tyN ty) d ++ rd (tyN ty) a)
  | .andn h ty d a b => some (h, .fixed 4, wr (tyN ty) d ++ rd (tyN ty) a ++ rd (tyN ty) b)
  | .shl h ty d a b => some (h, .fixed 4, wr (tyN ty) d ++ rd (tyN ty) a ++ rd 1 b)
  | .shr h ty d a b => some (h, .fixed 4, wr (tyN ty) d ++ rd (tyN ty) a ++ rd 1 b)
  | .sar h ty d a b => some (h, .fixed 4, wr (tyN ty) d ++ rd (tyN ty) a ++ rd 1 b)
  | .rol h ty d a b => some (h, .fixed 4, wr (tyN ty) d ++ rd (tyN ty) a ++ rd 1 b)
  | .fshL h ty d a b c => some (h, .fixed 4, wr (tyN ty) d ++ rd (tyN ty) a ++ rd (if ty.w64 then 2 else 1) b ++ rd 1 c)
  | .fshR h ty d a b c => some (h, .fixed 4, wr (tyN ty) d ++ rd (tyN ty) a ++ rd (if ty.w64 then 2 else 1) b ++ rd 1 c)
  | .popc h ty d a => some (h, .fixed 4, wr (tyN ty) d ++ rd (tyN ty) a)
  | .clz h ty d a => some (h, .fixed 4, wr (tyN ty) d ++ rd (tyN ty) a)
  | .ctz h ty d a => some (h, .fixed 4, wr (tyN ty) d ++ rd (tyN ty) a)
  | .brev h ty d a => some (h, .fixed 4, wr (tyN ty) d ++ rd (tyN ty) a)
  | .bfx h ty d a b c => some (h, .fixed 4, wr (tyN ty) d ++ rd (tyN ty) a ++ rd 1 b ++ rd 1 c)
  | .bfi h ty d a b c => some (h, .fixed 4, wr (tyN ty) d ++ rd (tyN ty) a ++ rd (if ty.w64 then 2 else 1) b ++ rd 1 c)
  | .setp h ty _ d a b => some (h, .fixed 4, wrPred d ++ rd (tyN ty) a ++ rd (tyN ty) b)
  | .sel h ty d a b p => some (h, .fixed 4, wr (tyN ty) d ++ rd (tyN ty) a ++ rd (tyN ty) b ++ rdPred p)
  | .mov h ty d a => some (h, .fixed 2, wr (tyN ty) d ++ rd (tyN ty) a)
  | .movi h ty d _ => some (h, .fixed 2, wr (tyN ty) d)
  | .movh h d _ => some (h, .fixed 2, wr 1 d ++ rd 1 d)
  | .lea h _ d a b => some (h, .fixed 4, wr 2 d ++ rd 2 a ++ rd 1 b)
  | .fadd h ty _ d a b => some (h, .fixed (fltLat ty), wr (tyN ty) d ++ (rd (tyN ty) a ++ rd (tyN ty) b))
  | .fsub h ty _ d a b => some (h, .fixed (fltLat ty), wr (tyN ty) d ++ (rd (tyN ty) a ++ rd (tyN ty) b))
  | .fmul h ty _ _ d a b => some (h, .fixed (fltLat ty), wr (tyN ty) d ++ rd (tyN ty) a ++ rd (tyN ty) b)
  | .ffma h ty _ _ d a b c => some (h, .fixed (fltLat ty), wr (tyN ty) d ++ rd (tyN ty) a ++ rd (tyN ty) b ++ rd (tyN ty) c)
  | .fmin h ty _ d a b => some (h, .fixed (fltLat ty), wr (tyN ty) d ++ (rd (tyN ty) a ++ rd (tyN ty) b))
  | .fmax h ty _ d a b => some (h, .fixed (fltLat ty), wr (tyN ty) d ++ (rd (tyN ty) a ++ rd (tyN ty) b))
  | .fabs h ty d a => some (h, .fixed (fltLat ty), wr (tyN ty) d ++ rd (tyN ty) a)
  | .fneg h ty d a => some (h, .fixed (fltLat ty), wr (tyN ty) d ++ rd (tyN ty) a)
  | .fsetp h ty _ d a b => some (h, .fixed 4, wrPred d ++ rd (tyN ty) a ++ rd (tyN ty) b)
  | .fscl h ty _ d a b => some (h, .fixed (fltLat ty), wr (tyN ty) d ++ (rd (tyN ty) a ++ rd 1 b))
  | .fxpn h ty d a => some (h, .fixed (fltLat ty), wr (tyN ty) d ++ rd (tyN ty) a)
  | .frnd h ty _ d a => some (h, .fixed (fltLat ty), wr (tyN ty) d ++ rd (tyN ty) a)
  | .fclass h ty d a => some (h, .fixed (fltLat ty), wr 1 d ++ rd (tyN ty) a)
  | .fdot2 h _ _ _ d a b c => some (h, .fixed 6, wr 1 d ++ rd 1 a ++ rd 1 b ++ rd 1 c)
  | .fdot4 h _ _ _ d a b c => some (h, .fixed 6, wr 1 d ++ rd 1 a ++ rd 1 b ++ rd 1 c)
  | .cvt h ty src _ d a => some (h, .fixed 6, wr (tyN ty) d ++ rd (tyN src) a)
  | .pack h _ _ d a => some (h, .fixed 6, wr 1 d ++ rd 1 d ++ rd 1 a)
  | .unpack h _ _ d a => some (h, .fixed 6, wr 1 d ++ rd 1 a)
  | .shfl h ty _ d a b => some (h, .fixed 8, wr (tyN ty) d ++ rd (tyN ty) a ++ rd 1 b)
  | .rdlane h ty d a b => some (h, .fixed 4, wr (tyN ty) d ++ rd (tyN ty) a ++ rd 1 b)
  | .wrlane h ty d a b => some (h, .fixed 4, wr (tyN ty) d ++ rd (tyN ty) a ++ rd 1 b)
  | .matchL h ty _ d a => some (h, .fixed 8, wr 2 d ++ rd (tyN ty) a)
  | .vote h m d a => some (h, .fixed 6, wr (if m = .bal then 2 else 1) d ++ rdPred a)
  | .plop h d a b c _ => some (h, .fixed 2, wrPred d ++ rdPred a ++ rdPred b ++ rdPred c)
  | .wred h ty _ _ d a => some (h, .fixed 12, wr (tyN ty) d ++ rd (tyN ty) a)
  | .wscan h ty _ _ _ d a => some (h, .fixed 12, wr (tyN ty) d ++ rd (tyN ty) a)
  | .div h ty d a b => some (h, .token .idiv, wr (tyN ty) d ++ rd (tyN ty) a ++ rd (tyN ty) b)
  | .rem h ty d a b => some (h, .token .idiv, wr (tyN ty) d ++ rd (tyN ty) a ++ rd (tyN ty) b)
  | .frcp h ty d a => some (h, .token .sfu, wr (tyN ty) d ++ rd (tyN ty) a)
  | .frsq h ty d a => some (h, .token .sfu, wr (tyN ty) d ++ rd (tyN ty) a)
  | .fsqrt h ty _ d a => some (h, .token .sfu, wr (tyN ty) d ++ rd (tyN ty) a)
  | .fdiv h ty _ d a b => some (h, .token .sfu, wr (tyN ty) d ++ (rd (tyN ty) a ++ rd (tyN ty) b))
  | .fexp2 h d a => some (h, .token .sfu, wr 1 d ++ rd 1 a)
  | .flog2 h d a => some (h, .token .sfu, wr 1 d ++ rd 1 a)
  | .fsin h d a => some (h, .token .sfu, wr 1 d ++ rd 1 a)
  | .fcos h d a => some (h, .token .sfu, wr 1 d ++ rd 1 a)
  | .ftanh h d a => some (h, .token .sfu, wr 1 d ++ rd 1 a)
  | .bget h d a => some (h, .fixed 4, wr 1 d ++ rd 1 a)
  | .bset h set d a => some (h, .fixed 4, wr 1 d ++ (if set then [] else rd 1 d) ++ rd 1 a)
  | .budgRd h d => some (h, .fixed 4, wr 1 d)
  | .krd h d k b => some (h, .fixed 4, wr 1 d ++ rdTok (b = .i 1) k.toNat)
  | .exmRd h d w => some (h, .fixed 4, wr 2 d ++ (if w = 0 then rd 1 (.x .exm) else []))
  | _ => none

/-- What a fetch hold of a path has met: its page, and what became of it (R41). -/
def fetchState (p : Path) : Option (Nat × Fate) :=
  match p.hold with
  | .fetch _ page _ fate => page.map (fun n => (n, fate))
  | _ => none

/-- A store: header, register operands, the fault of its addresses if there is one, and its pieces (R264, R268-R270). -/
def storeForm (s : State) (a : At) (i : Instr) : Option (Hdr × List Port × Option (Cause × Nat × Nat) × List Piece) :=
  match i with
  | .st h ty n d o b off =>
    let x := s.viewAt a h
    let as := (x.work d).map (x.addr o b off)
    some (h, rd (cntN n * tyN ty) d ++ rd 2 o ++ rdIndex b,
      x.addrErr (s.issued a) (cntN n * ty.bytes) (cntN n * ty.bytes) as, x.stPieces ty (cntN n) d (x.work d) as)
  | .stm h n d o b off =>
    let x := s.viewAt a h
    let pcs := x.stmPieces (cntN n) d b (x.work d) ((x.work d).map (x.addr o (.i 0) off))
    some (h, rd (cntN n) d ++ rd 2 o ++ rd 1 b,
      pcs.findSome? (fun p => (x.winErr (s.issued a) p.addr 1).map (fun k => (Cause.xlat, k, p.la))), pcs)
  | .stc h ty d o b off =>
    let x := s.viewAt a h
    let form := (s.issued a).asf a.tm.ctx (x.num b)
    let as := (x.work d).map (x.addr o (.i 0) off)
    let u := x.unitAddr o off
    let ports := rd 1 d ++ rd 2 o ++ rd 1 b
    if form = 1 then
      (if o.isS then some (h, ports, x.addrErr (s.issued a) 8 8 [u.2], x.signPieces ty d u.1 u.2) else none)
    else if form = 2 then
      (if o.isS then some (h, ports, x.addrErr (s.issued a) 34 64 [u.2], x.mxPieces ty d u.1 u.2) else none)
    else some (h, ports, x.addrErr (s.issued a) (1 * ty.bytes) (1 * ty.bytes) as, x.stPieces ty 1 d (x.work d) as)
  | _ => none

/-- The part writes the byte at a physical address. -/
def Part.covers (p : Part) (pa : Nat) : Prop :=
  ∃ va pa0 q, p.at_ = .mem va pa0 q ∧ pa0 ≤ pa ∧ pa < pa0 + p.bs.length

/-- The part changes a bound record that the byte at a physical address belongs to (R256). -/
def Part.bounds (p : Part) (s : State) (pa : Nat) : Prop :=
  ∃ va pa0 q, p.at_ = .mem va pa0 q ∧ pteBnd q = true ∧ s.recAddr (lineOf pa0 * 128) ≤ pa ∧
    pa < s.recAddr (lineOf pa0 * 128) + 16

/-- The writes and generators of `fdot2` and `fdot4` (R179, R191, R193): n products and an f32 addend, one rounding. -/
def dotDraws (t : Ty) (n : Nat) (r : RndSel) (gs : GearSel) (d a b c : Opnd) (x : X) : List Upd × List (Nat × Word) :=
  let pairs (l : Nat) := (List.range n).map (fun i => (x.dotv t a l i, x.dotv t b l i))
  let els := (x.work d).filterMap (fun l => govOf (pairs l) (some (x.fv .f32 c l 0)))
  let k := gearOf x.tm.mode x.tm.budg gs (fun g => els.all (fun v => v.qualifies x.tm.mode x.tm.budg t g))
  laneDraws d false (fun x l g =>
    let ps := pairs l
    let z := x.fv .f32 c l 0
    let v := ps.foldl (fun acc p => Ex.add (x.rm r) acc ((Ex.mul (.of p.1.1) (.of p.2.1)).truncProd t k)) (Ex.of z.1)
    let sum := ps.foldl (fun acc p => acc.add (p.1.1.q.abs.mul p.2.1.q.abs)) Q.zero
    let bs := ps.foldl (fun acc p =>
      ebAdd (ebAdd (ebAdd acc (ebMul (ebUp p.1.1.q.abs) p.2.2)) (ebMul (ebUp p.2.1.q.abs) p.1.2)) (ebMul p.1.2 p.2.2)) 0
    roundEl x .f32 (x.rm r) v (ebAdd (ebAdd bs z.2) (ebUp ((gearC t k).mul sum))) g) x

/-- A branch of the whole path to pc: onwards the spin counter stays, and backwards it grows (R38), below the 64th time. -/
def BranchesTo (i : Instr) (s : State) (a : At) (h : Hdr) (pc : BitVec 64) : Prop :=
  (a.onward pc → exec i s = .next ((s.issued a).jumpNext a h pc a.path.spin)) ∧
  (¬ a.onward pc → a.path.spin + 1 < 64 → exec i s = .next ((s.issued a).jumpNext a h pc (a.path.spin + 1)))

/-- R254, R264-R267, R277: a load whose addresses are in a window and aligned, whose pages translate, and whose scratchpad
words are whole, with line operations to spare (R265), completes: it reads at once, or, behind an operation that it must
follow, when its operation ends. What a pending side-log entry gives (R286) is read at once. -/
def LoadCompletes (i : Instr) (h : Hdr) (via : Via) (ty : Ty) (c : Cnt) (d o b : Opnd) (off : BitVec 20) : Prop :=
  ∀ (s : State) (a : At) (accs : List Acc) (s1 : State), Ready s a h (loadPorts ty c d o b) →
    let x := s.viewAt a h
    let n := cntN c
    let as := (x.work d).map (x.addr o b off)
    x.addrErr (s.issued a) (n * ty.bytes) (n * ty.bytes) as = none →
    (s.issued a).resolveAll a.tm false (via ≠ .comp) [] (((x.work d).zip as).flatMap (fun p =>
      (List.range n).map (fun j => (p.1, p.2, p.2 + j * ty.bytes, ty.bytes)))) = (.ok accs, s1) →
    s1.scrEcc (accs.flatMap (fun k => k.chunks)) = none →
    let cs := accs.flatMap (fun k => k.chunks)
    let early := s1.behind a.t s1.nextOp cs || s1.unlinked a.tm (.load via ty d n accs)
    s1.lineRoom a.tm.core (lineCount cs) = true → (early && cs.any Chunk.isSide) = false →
    let r : Work × State := if early || (a.late && !cs.any Chunk.isSide) then (.load via ty d n accs, s1)
      else s1.doLoad a.tm via ty d n accs
    let op := { a.op r.2 .mem (dstKeys d (n * tyN ty) (a.mask h)) r.1 with lines := lineCount cs, inVer := a.tm.inVersion cs }
    r.2.hole = false →
    (¬ (via = .home ∧ mProg a.tm.mode = true) → exec i s = .next (r.2.tokenNext a h op)) ∧
    (via = .home ∧ mProg a.tm.mode = true → tget r.2.teams a.t = tget (s.issued a).teams a.t →
      (∀ e q k, popView a.tm.split a.f a.tm.stack = some (e, q, k) → e.kind = .join ∧ e.bad = false) →
      ∃ t, exec i s = .next t ∧ GoneOn t a ∧ t.mem = r.2.mem ∧
        tget t.ops r.2.nextOp = some { op with post := h.sc.post.map (fun (k : BitVec 5) => (a.tm.curBank, k.toNat)) })

/-- R247, R264, R277, R280: a store of pieces outside a task whose addresses are good (`err`), whose parts all translate to
pages that take the write, none in breach on a checked page, with line operations to spare (R265), completes: it writes at
once, or, behind an operation that it must follow, when its operation ends. -/
def StoreCompletes (i : Instr) (h : Hdr) (s : State) (a : At) (err : Option (Cause × Nat × Nat)) (pcs : List Piece) : Prop :=
  err = none → a.tm.versions = false →
    ∀ (ps : List Part) (s1 : State),
    ((s.issued a).unspin (s.viewAt a h)).resolveParts a.tm [] (pcs.flatMap (fun p =>
      (cutBytes p.addr (a.tm.runs_ p.lane p.addr p.bs.length) p.bs p.keep).map (fun r => (p, r)))) = (ps, s1) →
    (∀ p ∈ ps, ∃ pa q, p.look = .ok pa q) → (BitVec.ofNat 64 ((s.viewAt a h).partsBreach s1 (ps.filter Part.checked)) : Mask) = 0 →
    s1.hole = false →
    let ws := ps.map Part.wr
    let cs := ws.map (fun w => w.c)
    s1.lineRoom a.tm.core (lineCount cs) = true →
    let slow := a.late || s1.behind a.t s1.nextOp cs || s1.unlinked a.tm (.store ws none)
    let r : Work × State := if slow then (.store ws none, s1)
      else (.done [], s1.performWrites a.tm.core a.tm.ctx ws)
    exec i s = .next (r.2.tokenNext a h { a.op r.2 .mem [] r.1 with lines := lineCount cs })

/-- R271, R272: an operation on caches enters the memory unit, its work done at once or at its end. -/
def CacheCompletes (i : Instr) (h : Hdr) (ps : List Port) (w : X → Work) : Prop :=
  ∀ (s : State) (a : At), Ready s a h ps →
    let r : Work × State := if a.late then (w (s.viewAt a h), s.issued a)
      else (.done [], (s.issued a).cacheWork a.tm.core a.tm.ctx (w (s.viewAt a h)))
    r.2.hole = false → exec i s = .next (r.2.tokenNext a h (a.op (s.issued a) .mem [] r.1))

/-- R275, R281, R291-R294: an atomic of lanes `ls` with parameters g, whose addresses are good, whose release waits for
nothing, whose places `rs` translate and are whole, with line operations to spare (R265), completes: its read-modify-writes
are made in lane order at once, or, behind an operation that it must follow, when its operation ends; its lanes draw where
it rounds at random. An acquiring one then waits for that operation. -/
def AtomicCompletes (i : Instr) (h : Hdr) (s : State) (a : At) (g : AtArg) (ls : List AtLane) (rs : List Rmw) (s0 : State) : Prop :=
  let cs := rs.flatMap (fun r => r.at_)
  s0.scrEcc cs = none → s0.lineRoom a.tm.core (lineCount cs) = true → s0.hole = false →
    let wait : Work := .atom g.ty g.op g.m g.ftz g.d rs
    let s1 := s0.atGens (s.viewAt a h) g ls
    let slow := a.late || s0.behind a.t s0.nextOp cs || s0.unlinked a.tm wait
    let r : Work × Bool × State := if slow then (wait, true, s1) else s1.doAtom a.tm.core a.tm.ctx g.ty g.op g.m g.ftz g.d rs
    let op := { a.op r.2.2 .mem (match g.d with | some d => dstKeys d (tyN g.ty) (a.mask h) | none => []) r.1 with
      casPid := if r.2.1 && g.op = .cas && mProg a.tm.mode then some a.path.pid else none, lines := lineCount cs }
    (g.acq = false → exec i s = .next (r.2.2.tokenNext a h op)) ∧
    (g.acq = true → tget r.2.2.teams a.t = tget s1.teams a.t → (∃ tm, tget s1.teams a.t = some tm) →
      ∃ t tm c k cap, exec i s = .next t ∧ tget t.teams a.t = some tm ∧
        (tm.path a.f).hold = .inside i c k cap 1 [] none .open ∧
        tget t.ops r.2.2.nextOp = some { op with post := h.sc.post.map (fun (k : BitVec 5) => (a.tm.curBank, k.toNat)) } ∧
        t.mem = r.2.2.mem)

/-- The lanes of an atomic. -/
def atLanes (x : X) (g : AtArg) (o b c : Opnd) : List AtLane :=
  (match g.d with | some d => x.work d | none => lanesOf x.e).map (fun l =>
    ⟨l, x.rd.wide o l, x.atSrc g.ty b l, x.atSrc g.ty c l, x.tm.gen l⟩)

/-- R295, R296, R316-R318: a copy whose ranges lie in their windows, aligned, and whose group's queue has room, is
accepted, to be numbered at the end of the clk in ascending quadrant order, its operation in the copy engine; a peer's address
has 56 bits. -/
def CopyCompletes (i : Instr) (h : Hdr) (ps : List Port) (kind : X → CopyKind) (opt : BitVec 20) (ses : Bool) (m : Nat)
    (sz sp dp : Bool) (ts : X → List (Nat × Nat × Nat × Nat)) : Prop :=
  ∀ (s : State) (a : At) (g : Group), ReadyOut s a h ps →
    let x := s.viewAt a h
    let s0 := s.issued a
    (∀ t ∈ ts x, (if dp then peerWide t.2.1 else x.outside s0 t.2.1 t.2.2.2) = none ∧
      (if sp then peerWide t.2.2.1 else x.outside s0 t.2.2.1 t.2.2.2) = none ∧
      alignOf t.2.1 % m = 0 ∧ alignOf t.2.2.1 % m = 0 ∧ (sz = true → t.2.2.2 % m = 0)) →
    s0.group a.tm.group = some g → g.copy.load < 64 →
    exec i s = .next (((s0.unspin x).modGroup a.tm.group (fun g => { g with copy := { g.copy with
      newq := g.copy.newq ++ [(a.tm.quad, s0.nextOp,
        ⟨kind x, if ses then some (optSes opt) else none, optBar opt,
         (ts x).flatMap (fun t => a.tm.segs t.1 t.2.2.1 t.2.1 t.2.2.2 sp dp)⟩)] } })).tokenNext a h
      (a.op s0 .copy [] .engine))

/-- The one transfer of a copy that acts once for its team: lane, destination, source, size. -/
def once (d o : Opnd) (n : X → Nat) (x : X) : List (Nat × Nat × Nat × Nat) :=
  [((lowest x.e).getD 0, x.rd.wide d 0, x.rd.wide o 0, n x)]

/-- R212, R215: a matrix instruction of all 64 lanes, with the lease where its command works on tiles, and with room in
its quadrant's queue, enters its command c there; s1 is the state that its descriptor write leaves. -/
def MatrixEnters (i : Instr) (h : Hdr) (s : State) (a : At) (tile : Bool) (keys : List Nat) (s1 : State) (c : MCmd) : Prop :=
  a.mask h = allLanes → (tile = true → (s1.core a.tm.core).mx.holder = some a.tm.group) →
    ((s1.core a.tm.core).mx.queue a.tm.quad).length < 32 →
    exec i s = .next ((s1.mEnqueue a.tm.core a.tm.quad { c with op := s1.nextOp, clk0 := s.clk }).tokenNext a h
      (a.op s1 .matrix keys .engine))

/-- R382, R384, R404: outside a handler, with a handler set and the frame's page mapped, a trap of fragment f drains the
fragment, writes the frame, and starts the handler: TCAUSE, TEPC, TVAL and TFRAG take the trap, the reconvergence stack
is empty, and the fragment stands at the handler's entry, which it may issue from 16 clk later. -/
def TrapEnters (s t : State) (n : Nat) (f : Bool) (c : Cause) (sub : Nat) (val : Dword) (epc : BitVec 64) : Prop :=
  ∃ tm tm', tget s.teams n = some tm ∧ tget t.teams n = some tm' ∧
    tm'.tcause = BitVec.ofNat 32 (2 ^ 31 + sub % 16 * 2 ^ 8 + c.code) ∧ tm'.tepc = epc.setWidth 56 ∧ tm'.tval = val ∧
    tm'.stack = [] ∧ tm'.spill = 0 ∧ tm'.tokT = [] ∧ tm'.pendTrap = none ∧
    (tm'.path f).pc = thEntry (s.ctx tm.ctx).thcfg ∧ (tm'.path f).cd = .stall (s.clk + 16) ∧
    (tm'.path f).exm = (tm'.path f).pmask ∧ tm'.mode = tm.mode ∧ tm'.life = tm.life

end Sys2Proof.Machine
end

