-- ==== Sys2Proof/Certificates/Slice0/Obligations.lean ====
section
/-! DEFINITION. The statements for the provers. -/

open Sys2Proof Sys2Proof.Machine

/-- R148, R151-R156: `add`, `sub`, `mul`, `mulh`, `mad`, `madh`, `min`, `max`, `abs` and `neg` take 4 clk and write,
in every lane, the exact result narrowed to the type (wrapped, or clamped under `.sat`) with its propagated bound; the
fragment goes on to the next instruction. -/
def Obligations.IntegerArithmeticCompletes : Prop :=
  (∀ h ty sat d a b, RunsFixed (.add h ty sat d a b) h 4 (wr (tyN ty) d ++ rd (tyN ty) a ++ rd (tyN ty) b)
    (laneWrites d ty.w64 (fun x l => intResult x.bt ty sat (tyInt ty (x.i ty a l).x + tyInt ty (x.i ty b l).x)
      (ebAdd (x.i ty a l).b (x.i ty b l).b)))) ∧
  (∀ h ty sat d a b, RunsFixed (.sub h ty sat d a b) h 4 (wr (tyN ty) d ++ rd (tyN ty) a ++ rd (tyN ty) b)
    (laneWrites d ty.w64 (fun x l => intResult x.bt ty sat (tyInt ty (x.i ty a l).x - tyInt ty (x.i ty b l).x)
      (ebAdd (x.i ty a l).b (x.i ty b l).b)))) ∧
  (∀ h ty d a b, RunsFixed (.mul h ty d a b) h 4 (wr (tyN ty) d ++ rd (tyN ty) a ++ rd (tyN ty) b)
    (laneWrites d ty.w64 (fun x l => intResult x.bt ty false (tyInt ty (x.i ty a l).x * tyInt ty (x.i ty b l).x)
      (intProd ty (x.i ty a l) (x.i ty b l))))) ∧
  (∀ h ty d a b, RunsFixed (.mulh h ty d a b) h 4 (wr (tyN ty) d ++ rd (tyN ty) a ++ rd (tyN ty) b)
    (laneWrites d ty.w64 (fun x l =>
      ⟨trunc (tyInt ty (x.i ty a l).x * tyInt ty (x.i ty b l).x / 2 ^ ty.bits) ty.bits,
       computed x.bt (mulHighBound ty (x.i ty a l) (x.i ty b l))⟩))) ∧
  (∀ h ty sat d a b c, RunsFixed (.mad h ty sat d a b c) h 4
    (wr (tyN ty) d ++ rd (tyN ty) a ++ rd (tyN ty) b ++ rd (tyN ty) c)
    (laneWrites d ty.w64 (fun x l => intResult x.bt ty sat
      (tyInt ty (x.i ty a l).x * tyInt ty (x.i ty b l).x + tyInt ty (x.i ty c l).x)
      (ebAdd (intProd ty (x.i ty a l) (x.i ty b l)) (x.i ty c l).b)))) ∧
  (∀ h ty d a b c, RunsFixed (.madh h ty d a b c) h 4
    (wr (tyN ty) d ++ rd (tyN ty) a ++ rd (tyN ty) b ++ rd (tyN ty) c)
    (laneWrites d ty.w64 (fun x l => intResult x.bt ty false
      (tyInt ty (x.i ty a l).x * tyInt ty (x.i ty b l).x / 2 ^ ty.bits + tyInt ty (x.i ty c l).x)
      (ebAdd (mulHighBound ty (x.i ty a l) (x.i ty b l)) (x.i ty c l).b)))) ∧
  (∀ h ty d a b, RunsFixed (.min h ty d a b) h 4 (wr (tyN ty) d ++ rd (tyN ty) a ++ rd (tyN ty) b)
    (laneWrites d ty.w64 (fun x l =>
      ⟨if tyInt ty (x.i ty b l).x < tyInt ty (x.i ty a l).x then (x.i ty b l).x else (x.i ty a l).x,
       computed x.bt (ebMax (x.i ty a l).b (x.i ty b l).b)⟩))) ∧
  (∀ h ty d a b, RunsFixed (.max h ty d a b) h 4 (wr (tyN ty) d ++ rd (tyN ty) a ++ rd (tyN ty) b)
    (laneWrites d ty.w64 (fun x l =>
      ⟨if tyInt ty (x.i ty a l).x < tyInt ty (x.i ty b l).x then (x.i ty b l).x else (x.i ty a l).x,
       computed x.bt (ebMax (x.i ty a l).b (x.i ty b l).b)⟩))) ∧
  (∀ h ty sat d a, RunsFixed (.abs h ty sat d a) h 4 (wr (tyN ty) d ++ rd (tyN ty) a)
    (laneWrites d ty.w64 (fun x l => intResult x.bt ty sat (tyInt ty (x.i ty a l).x).natAbs (x.i ty a l).b))) ∧
  (∀ h ty sat d a, RunsFixed (.neg h ty sat d a) h 4 (wr (tyN ty) d ++ rd (tyN ty) a)
    (laneWrites d ty.w64 (fun x l => intResult x.bt ty sat (-(tyInt ty (x.i ty a l).x)) (x.i ty a l).b)))

/-- R157, R159-R163: shifts, rotations, funnel shifts, counts and bit fields, each with a 32-bit count, position or
length where it takes one. R98, R164-R168: comparison with doubt, selection by a predicate, moves, immediates, and
address arithmetic. -/
def Obligations.ShiftsFieldsAndMovesComplete : Prop :=
  ((∀ h ty d a b, RunsFixed (.shl h ty d a b) h 4 (wr (tyN ty) d ++ rd (tyN ty) a ++ rd 1 b)
     (laneWrites d ty.w64 (fun x l => bitEl x.bt (shlBits ty.bits (x.i ty a l).x (x.n32 b l).x)
       [(x.i ty a l).b, (x.n32 b l).b]))) ∧
   (∀ h ty d a b, RunsFixed (.shr h ty d a b) h 4 (wr (tyN ty) d ++ rd (tyN ty) a ++ rd 1 b)
     (laneWrites d ty.w64 (fun x l => bitEl x.bt (shrBits ty.bits (x.i ty a l).x (x.n32 b l).x)
       [(x.i ty a l).b, (x.n32 b l).b]))) ∧
   (∀ h ty d a b, RunsFixed (.sar h ty d a b) h 4 (wr (tyN ty) d ++ rd (tyN ty) a ++ rd 1 b)
     (laneWrites d ty.w64 (fun x l => bitEl x.bt (sarBits ty.bits (x.i ty a l).x (x.n32 b l).x)
       [(x.i ty a l).b, (x.n32 b l).b]))) ∧
   (∀ h ty d a b, RunsFixed (.rol h ty d a b) h 4 (wr (tyN ty) d ++ rd (tyN ty) a ++ rd 1 b)
     (laneWrites d ty.w64 (fun x l => bitEl x.bt (rolBits ty.bits (x.i ty a l).x (x.n32 b l).x)
       [(x.i ty a l).b, (x.n32 b l).b]))) ∧
   (∀ h ty d a b c, RunsFixed (.fshL h ty d a b c) h 4
     (wr (tyN ty) d ++ rd (tyN ty) a ++ rd (if ty.w64 then 2 else 1) b ++ rd 1 c)
     (laneWrites d ty.w64 (fun x l => bitEl x.bt (fshLBits ty.bits (x.i ty a l).x (x.i ty b l).x (x.n32 c l).x)
       [(x.i ty a l).b, (x.i ty b l).b, (x.n32 c l).b]))) ∧
   (∀ h ty d a b c, RunsFixed (.fshR h ty d a b c) h 4
     (wr (tyN ty) d ++ rd (tyN ty) a ++ rd (if ty.w64 then 2 else 1) b ++ rd 1 c)
     (laneWrites d ty.w64 (fun x l => bitEl x.bt (fshRBits ty.bits (x.i ty a l).x (x.i ty b l).x (x.n32 c l).x)
       [(x.i ty a l).b, (x.i ty b l).b, (x.n32 c l).b]))) ∧
   (∀ h ty d a, RunsFixed (.popc h ty d a) h 4 (wr (tyN ty) d ++ rd (tyN ty) a)
     (laneWrites d ty.w64 (fun x l => bitEl x.bt (popBits ty.bits (x.i ty a l).x) [(x.i ty a l).b]))) ∧
   (∀ h ty d a, RunsFixed (.clz h ty d a) h 4 (wr (tyN ty) d ++ rd (tyN ty) a)
     (laneWrites d ty.w64 (fun x l => bitEl x.bt (clzBits ty.bits (x.i ty a l).x) [(x.i ty a l).b]))) ∧
   (∀ h ty d a, RunsFixed (.ctz h ty d a) h 4 (wr (tyN ty) d ++ rd (tyN ty) a)
     (laneWrites d ty.w64 (fun x l => bitEl x.bt (ctzBits ty.bits (x.i ty a l).x) [(x.i ty a l).b]))) ∧
   (∀ h ty d a, RunsFixed (.brev h ty d a) h 4 (wr (tyN ty) d ++ rd (tyN ty) a)
     (laneWrites d ty.w64 (fun x l => bitEl x.bt (brevBits ty.bits (x.i ty a l).x) [(x.i ty a l).b]))) ∧
   (∀ h ty d a b c, RunsFixed (.bfx h ty d a b c) h 4 (wr (tyN ty) d ++ rd (tyN ty) a ++ rd 1 b ++ rd 1 c)
     (laneWrites d ty.w64 (fun x l =>
       bitEl x.bt (bfxBits ty (x.i ty a l).x ((x.n32 b l).x % 256) ((x.n32 c l).x % 256))
         [(x.i ty a l).b, (x.n32 b l).b, (x.n32 c l).b]))) ∧
   (∀ h ty d a b c, RunsFixed (.bfi h ty d a b c) h 4
     (wr (tyN ty) d ++ rd (tyN ty) a ++ rd (if ty.w64 then 2 else 1) b ++ rd 1 c)
     (laneWrites d ty.w64 (fun x l =>
       bitEl x.bt (bfiBits ty.bits (x.i ty a l).x (x.i ty b l).x ((x.n32 c l).x % 256) (bitsOf (x.n32 c l).x 8 8))
         [(x.i ty a l).b, (x.i ty b l).b, (x.n32 c l).b])))) ∧
  ((∀ h ty c d a b, RunsFixed (.setp h ty c d a b) h 4 (wrPred d ++ rd (tyN ty) a ++ rd (tyN ty) b)
     (predWrites d (fun x l =>
       (cmpHolds c (Q.ofInt (tyInt ty (x.i ty a l).x)) (Q.ofInt (tyInt ty (x.i ty b l).x)),
        x.bt && doubtful c (Q.ofInt (tyInt ty (x.i ty a l).x)) (x.i ty a l).b
          (Q.ofInt (tyInt ty (x.i ty b l).x)) (x.i ty b l).b)))) ∧
   (∀ h ty d a b p, RunsFixed (.sel h ty d a b p) h 4 (wr (tyN ty) d ++ rd (tyN ty) a ++ rd (tyN ty) b ++ rdPred p)
     (laneWrites d ty.w64 (fun x l =>
       let q := x.rd.pred p.toNat
       let y := if lane q.t l then x.i ty a l else x.i ty b l
       if !lane q.d l then y
       else if (x.i ty a l).x = (x.i ty b l).x then ⟨y.x, computed x.bt (ebMax (x.i ty a l).b (x.i ty b l).b)⟩
       else ⟨y.x, 0xFF00⟩))) ∧
   (∀ h ty d a, RunsFixed (.mov h ty d a) h 2 (wr (tyN ty) d ++ rd (tyN ty) a)
     (laneWrites d ty.w64 (fun x l => x.i ty a l))) ∧
   (∀ h ty d imm, RunsFixed (.movi h ty d imm) h 2 (wr (tyN ty) d)
     (laneWrites d ty.w64 (fun _ _ => ⟨trunc imm.toInt ty.bits, 0⟩))) ∧
   (∀ h d imm, RunsFixed (.movh h d imm) h 2 (wr 1 d ++ rd 1 d)
     (laneWrites d false (fun x l =>
       bitEl x.bt (imm.toNat * 2 ^ 16 + (x.rd.el d false l).x % 2 ^ 16) [(x.rd.el d false l).b]))) ∧
   (∀ h sh d a b, RunsFixed (.lea h sh d a b) h 4 (wr 2 d ++ rd 2 a ++ rd 1 b)
     (laneWrites d true (fun x l =>
       intResult x.bt .n64 false (((x.rd.int a true l).x : Int) + sext (x.n32 b l).x 32 * 2 ^ sh.toNat)
         (ebAdd (x.rd.int a true l).b (ebMul (x.n32 b l).b (ebUp (Q.ofInt (2 ^ sh.toNat)))))))))

/-- R83, R147, R169-R173: float addition, multiplication and fused multiply-add with one rounding (under the gear of
R193 for products), minimum and maximum, sign operations and comparison; 6 clk, or 10 for `.f64`, and 4 for `fsetp`.
R174-R177, R179-R182: scaling, exponents, integral rounding, classes, dot products with one rounding, conversion and
packing. -/
def Obligations.FloatInstructionsComplete : Prop :=
  ((∀ h ty r d a b, RunsDraws (.fadd h ty r d a b) h (fltLat ty) (wr (tyN ty) d ++ (rd (tyN ty) a ++ rd (tyN ty) b))
     (laneDraws d ty.w64 (fun x l g => slotwise ty (fun q g =>
       let u := x.fv ty a l q
       let v := x.fv ty b l q
       roundEl x ty (x.rm r) (Ex.add (x.rm r) (.of u.1) (.of v.1)) (ebAdd u.2 v.2) g) g))) ∧
   (∀ h ty r d a b, RunsDraws (.fsub h ty r d a b) h (fltLat ty) (wr (tyN ty) d ++ (rd (tyN ty) a ++ rd (tyN ty) b))
     (laneDraws d ty.w64 (fun x l g => slotwise ty (fun q g =>
       let u := x.fv ty a l q
       let v := x.fv ty b l q
       roundEl x ty (x.rm r) (Ex.add (x.rm r) (.of u.1) (.of v.1.flip)) (ebAdd u.2 v.2) g) g))) ∧
   (∀ h ty r gs d a b, RunsDraws (.fmul h ty r gs d a b) h (fltLat ty) (wr (tyN ty) d ++ rd (tyN ty) a ++ rd (tyN ty) b)
     (fun x =>
       let k := x.gear ty gs d (fun l q => govOf [(x.fv ty a l q, x.fv ty b l q)] none)
       laneDraws d ty.w64 (fun x l g => slotwise ty (fun q g =>
         let u := x.fv ty a l q
         let v := x.fv ty b l q
         roundEl x ty (x.rm r) ((Ex.mul (.of u.1) (.of v.1)).truncProd ty k)
           (ebAdd (prodTerms u.1.q u.2 v.1.q v.2) (ebUp ((gearC ty k).mul (u.1.q.abs.mul v.1.q.abs)))) g) g) x)) ∧
   (∀ h ty r gs d a b c, RunsDraws (.ffma h ty r gs d a b c) h (fltLat ty)
     (wr (tyN ty) d ++ rd (tyN ty) a ++ rd (tyN ty) b ++ rd (tyN ty) c)
     (fun x =>
       let k := x.gear ty gs d (fun l q => govOf [(x.fv ty a l q, x.fv ty b l q)] (some (x.fv ty c l q)))
       laneDraws d ty.w64 (fun x l g => slotwise ty (fun q g =>
         let u := x.fv ty a l q
         let v := x.fv ty b l q
         let z := x.fv ty c l q
         roundEl x ty (x.rm r) (Ex.add (x.rm r) ((Ex.mul (.of u.1) (.of v.1)).truncProd ty k) (.of z.1))
           (ebAdd (ebAdd (prodTerms u.1.q u.2 v.1.q v.2) z.2)
             (ebUp ((gearC ty k).mul (u.1.q.abs.mul v.1.q.abs)))) g) g) x)) ∧
   (∀ h ty nan d a b, RunsDraws (.fmin h ty nan d a b) h (fltLat ty) (wr (tyN ty) d ++ (rd (tyN ty) a ++ rd (tyN ty) b))
     (laneDraws d ty.w64 (fun x l g => slotwise ty (fun q g =>
       (minmax (Ty.fmt ty) x.bt false nan (x.fv ty a l q) (x.fv ty b l q), g)) g))) ∧
   (∀ h ty nan d a b, RunsDraws (.fmax h ty nan d a b) h (fltLat ty) (wr (tyN ty) d ++ (rd (tyN ty) a ++ rd (tyN ty) b))
     (laneDraws d ty.w64 (fun x l g => slotwise ty (fun q g =>
       (minmax (Ty.fmt ty) x.bt true nan (x.fv ty a l q) (x.fv ty b l q), g)) g))) ∧
   (∀ h ty d a, RunsDraws (.fabs h ty d a) h (fltLat ty) (wr (tyN ty) d ++ rd (tyN ty) a)
     (laneDraws d ty.w64 (fun x l g => slotwise ty (fun q g =>
       (⟨(x.fbits ty a l q).x % 2 ^ (ty.bits - 1), (x.fbits ty a l q).b⟩, g)) g))) ∧
   (∀ h ty d a, RunsDraws (.fneg h ty d a) h (fltLat ty) (wr (tyN ty) d ++ rd (tyN ty) a)
     (laneDraws d ty.w64 (fun x l g => slotwise ty (fun q g =>
       (⟨(x.fbits ty a l q).x ^^^ 2 ^ (ty.bits - 1), (x.fbits ty a l q).b⟩, g)) g))) ∧
   (∀ h ty c d a b, RunsFixed (.fsetp h ty c d a b) h 4 (wrPred d ++ rd (tyN ty) a ++ rd (tyN ty) b)
     (predWrites d (fun x l =>
       ((fcmp c (x.fv ty a l 0) (x.fv ty b l 0)).1, x.bt && (fcmp c (x.fv ty a l 0) (x.fv ty b l 0)).2))))) ∧
  ((∀ h ty r d a b, RunsDraws (.fscl h ty r d a b) h (fltLat ty) (wr (tyN ty) d ++ (rd (tyN ty) a ++ rd 1 b))
     (laneDraws d ty.w64 (fun x l g => slotwise ty (fun q g =>
       let u := x.fv ty a l q
       let n := x.n32 b l
       let k := max (-5000) (min 5000 (sext n.x 32))
       roundEl x ty (x.rm r) (match Ex.of u.1 with | .num p z => .num (p.shl k) z | e => e)
         (if n.b ≠ 0 ∨ ebUnb u.2 then 0xFF00 else ebUp ((ebVal u.2).shl k)) g) g))) ∧
   (∀ h ty d a, RunsDraws (.fxpn h ty d a) h (fltLat ty) (wr (tyN ty) d ++ rd (tyN ty) a)
     (laneDraws d ty.w64 (fun x l g => slotwise ty (fun q g => (fxpnEl ty x.bt (x.fv ty a l q), g)) g))) ∧
   (∀ h ty r d a, RunsDraws (.frnd h ty r d a) h (fltLat ty) (wr (tyN ty) d ++ rd (tyN ty) a)
     (laneDraws d ty.w64 (fun x l g => slotwise ty (fun q g => frndEl ty x.bt (x.rm r) (x.fv ty a l q) g) g))) ∧
   (∀ h ty d a, RunsFixed (.fclass h ty d a) h (fltLat ty) (wr 1 d ++ rd (tyN ty) a)
     (laneWrites d false (fun x l =>
       let e := x.rd.flt a ty l
       bitEl x.bt (if ty.isF16 then classBits (Ty.fmt ty) (slotOf ty e.x 0) + classBits (Ty.fmt ty) (slotOf ty e.x 1) * 2 ^ 16
         else classBits (Ty.fmt ty) e.x) [e.b]))) ∧
   (∀ h ty r gs d a b c, RunsDraws (.fdot2 h ty r gs d a b c) h 6 (wr 1 d ++ rd 1 a ++ rd 1 b ++ rd 1 c)
     (dotDraws ty 2 r gs d a b c)) ∧
   (∀ h ty r gs d a b c, RunsDraws (.fdot4 h ty r gs d a b c) h 6 (wr 1 d ++ rd 1 a ++ rd 1 b ++ rd 1 c)
     (dotDraws ty 4 r gs d a b c)) ∧
   (∀ h ty src r d a, RunsDraws (.cvt h ty src r d a) h 6 (wr (tyN ty) d ++ rd (tyN src) a)
     (laneDraws d ty.w64 (fun x l g => cvtEl x ty src (x.rm r) a l g))) ∧
   (∀ h ty q d a, RunsFixed (.pack h ty q d a) h 6 (wr 1 d ++ rd 1 d ++ rd 1 a)
     (laneWrites d false (fun x l =>
       ⟨setBits (x.rd.el d false l).x (ty.bits * q.toNat) ty.bits (x.rd.int a false l).x,
        computed x.bt (ebMax (x.rd.el d false l).b (x.rd.int a false l).b)⟩))) ∧
   (∀ h ty q d a, RunsFixed (.unpack h ty q d a) h 6 (wr 1 d ++ rd 1 a)
     (laneWrites d false (fun x l =>
       ⟨widen ty (slotOf ty (x.rd.int a false l).x q.toNat), (x.rd.int a false l).b⟩))))

/-- R97, R99, R138-R144: lane exchanges read the value of the chosen lane as it stood at issue; votes and matches look
at every lane of the effective mask; reductions and scans combine the lanes in the order of the tree of R97; `plop`
looks its inputs up in a table, with doubt. -/
def Obligations.CrossLaneCompletes : Prop :=
  (∀ h ty m d a b, RunsFixed (.shfl h ty m d a b) h 8 (wr (tyN ty) d ++ rd (tyN ty) a ++ rd 1 b)
    (laneWrites d ty.w64 (fun x l =>
      let j := shflLane m l (x.n32 b l).x
      x.rd.el a ty.w64 (if 0 ≤ j ∧ j ≤ 63 ∧ lane x.e j.toNat then j.toNat else l)))) ∧
  (∀ h ty d a b, RunsFixed (.rdlane h ty d a b) h 4 (wr (tyN ty) d ++ rd (tyN ty) a ++ rd 1 b)
    (laneWrites d ty.w64 (fun x _ => x.rd.el a ty.w64 ((x.rd.int b false 0).x % 64)))) ∧
  (∀ h ty d a b, RunsFixed (.wrlane h ty d a b) h 4 (wr (tyN ty) d ++ rd (tyN ty) a ++ rd 1 b)
    (fun x =>
      let n := (x.rd.int b false 0).x % 64
      if lane x.e n then dstUpds d ty.w64 [(n, x.rd.int a ty.w64 n)] else [])) ∧
  (∀ h ty all d a, RunsFixed (.matchL h ty all d a) h 8 (wr 2 d ++ rd (tyN ty) a)
    (fun x =>
      let els := (lanesOf x.e).map (fun l => (l, x.rd.el a ty.w64 l))
      let same (v : Nat) : Nat := els.foldl (fun m p => if p.2.x = v then m + 2 ^ p.1 else m) 0
      dstUpds d true (els.map (fun p =>
        (p.1, ⟨if all then (if same p.2.x = x.e.toNat then same p.2.x else 0) else same p.2.x,
          computed x.bt (bitBound (els.map (fun p => p.2.b)))⟩))))) ∧
  (∀ h m k a, RunsFixed (.vote h m (.x (.p k)) a) h 6 (wr (if m = .bal then 2 else 1) (.x (.p k)) ++ rdPred a)
    (fun x => [.prd k.toNat x.e (if (voteOf m (x.rd.pred a.toNat) x.e).1 then x.e else 0)
      (if (voteOf m (x.rd.pred a.toNat) x.e).2 then x.e else 0)])) ∧
  (∀ h m d a, (∀ k, d ≠ .x (.p k)) → RunsFixed (.vote h m d a) h 6 (wr (if m = .bal then 2 else 1) d ++ rdPred a)
    (laneWrites d true (fun x _ =>
      ⟨((x.rd.pred a.toNat).t &&& x.e).toNat, computed x.bt (if (x.rd.pred a.toNat).d &&& x.e = 0 then 0 else 0xFF00)⟩))) ∧
  (∀ h d a b c tt, RunsFixed (.plop h d a b c tt) h 2 (wrPred d ++ rdPred a ++ rdPred b ++ rdPred c)
    (predWrites d (fun x l =>
      let v (p : BitVec 3) : Bool × Bool := (lane (x.rd.pred p.toNat).t l, lane (x.rd.pred p.toNat).d l)
      plopLane tt (v a) (v b) (v c)))) ∧
  (∀ h ty op r d a, RunsDraws (.wred h ty op r d a) h 12 (wr (tyN ty) d ++ rd (tyN ty) a)
    (fun x =>
      let l0 := (lowest x.e).getD 0
      let v := redTree (redOpEl ty op (x.rm r) x.ftz) (x.leaves ty a (fun _ => true)) (x.tm.gen l0)
      (dstUpds d ty.w64 ((x.work d).map (fun l => (l, redOut x.bt ty op v.1))), [(l0, v.2)]))) ∧
  (∀ h ty op excl r d a, RunsDraws (.wscan h ty op excl r d a) h 12 (wr (tyN ty) d ++ rd (tyN ty) a)
    (laneDraws d ty.w64 (fun x l g =>
      let v := redTree (redOpEl ty op (x.rm r) x.ftz) (x.leaves ty a (fun j => if excl then j < l else j ≤ l)) g
      (redOut x.bt ty op v.1, v.2))))

/-- R154, R178: division, remainder and the special functions are of the token class: the operation holds its results
until it completes. -/
def Obligations.DivisionAndSpecialFunctionsComplete : Prop :=
  (∀ h ty d a b, RunsToken (.div h ty d a b) h .idiv (wr (tyN ty) d ++ rd (tyN ty) a ++ rd (tyN ty) b)
    (fun x _ => (dstKeys d (if ty.w64 then 2 else 1) x.e, .done (laneWrites d ty.w64 (fun x l =>
      ⟨trunc (divide ty (x.i ty a l) (x.i ty b l)).1 ty.bits,
       computed x.bt (divideBound ty false (x.i ty a l) (x.i ty b l))⟩) x)))) ∧
  (∀ h ty d a b, RunsToken (.rem h ty d a b) h .idiv (wr (tyN ty) d ++ rd (tyN ty) a ++ rd (tyN ty) b)
    (fun x _ => (dstKeys d (if ty.w64 then 2 else 1) x.e, .done (laneWrites d ty.w64 (fun x l =>
      ⟨trunc (divide ty (x.i ty a l) (x.i ty b l)).2 ty.bits,
       computed x.bt (divideBound ty true (x.i ty a l) (x.i ty b l))⟩) x)))) ∧
  (∀ h ty d a, RunsTokenDraws (.frcp h ty d a) h .sfu (wr (tyN ty) d ++ rd (tyN ty) a)
    (fun x => dstKeys d (if ty.w64 then 2 else 1) x.e)
    (laneDraws d ty.w64 (fun x l g => frcpEl ty x.bt x.ftz (x.fv ty a l 0) g))) ∧
  (∀ h ty d a, RunsTokenDraws (.frsq h ty d a) h .sfu (wr (tyN ty) d ++ rd (tyN ty) a)
    (fun x => dstKeys d (if ty.w64 then 2 else 1) x.e)
    (laneDraws d ty.w64 (fun x l g => frsqEl ty x.bt x.ftz (x.fv ty a l 0) g))) ∧
  (∀ h ty r d a, RunsTokenDraws (.fsqrt h ty r d a) h .sfu (wr (tyN ty) d ++ rd (tyN ty) a)
    (fun x => dstKeys d (if ty.w64 then 2 else 1) x.e)
    (laneDraws d ty.w64 (fun x l g => fsqrtEl ty x.bt x.ftz (x.rm r) (x.fv ty a l 0) g))) ∧
  (∀ h ty r d a b, RunsTokenDraws (.fdiv h ty r d a b) h .sfu (wr (tyN ty) d ++ (rd (tyN ty) a ++ rd (tyN ty) b))
    (fun x => dstKeys d (if ty.w64 then 2 else 1) x.e)
    (laneDraws d ty.w64 (fun x l g => fdivEl ty x.bt x.ftz (x.rm r) (x.fv ty a l 0) (x.fv ty b l 0) g))) ∧
  (∀ h d a, RunsTokenDraws (.fexp2 h d a) h .sfu (wr 1 d ++ rd 1 a) (fun x => dstKeys d 1 x.e)
    (laneDraws d false (fun x l g => fexp2El x.bt x.ftz (x.fv .f32 a l 0) g))) ∧
  (∀ h d a, RunsTokenDraws (.flog2 h d a) h .sfu (wr 1 d ++ rd 1 a) (fun x => dstKeys d 1 x.e)
    (laneDraws d false (fun x l g => flog2El x.bt x.ftz (x.fv .f32 a l 0) g))) ∧
  (∀ h d a, RunsTokenDraws (.fsin h d a) h .sfu (wr 1 d ++ rd 1 a) (fun x => dstKeys d 1 x.e)
    (laneDraws d false (fun x l g => trigEl x.bt x.ftz false (x.fv .f32 a l 0) g))) ∧
  (∀ h d a, RunsTokenDraws (.fcos h d a) h .sfu (wr 1 d ++ rd 1 a) (fun x => dstKeys d 1 x.e)
    (laneDraws d false (fun x l g => trigEl x.bt x.ftz true (x.fv .f32 a l 0) g))) ∧
  (∀ h d a, RunsTokenDraws (.ftanh h d a) h .sfu (wr 1 d ++ rd 1 a) (fun x => dstKeys d 1 x.e)
    (laneDraws d false (fun x l g => ftanhEl x.bt x.ftz (x.fv .f32 a l 0) g)))

/-- R184, R185, R206-R209: `bget` reads a shadow as bits, `bset` writes one (the larger of two without `.set`),
`budg.rd` and `budg.set` read and write BUDG, and `bchk` goes on where no element of an effective lane breaches the
budget. -/
def Obligations.BoundsAndBudgetComplete : Prop :=
  (∀ h d a, RunsFixed (.bget h d a) h 4 (wr 1 d ++ rd 1 a)
    (laneWrites d false (fun x l => ⟨(x.rd.cell a 0 l).bnd.toNat, 0⟩))) ∧
  (∀ h set d a, RunsFixed (.bset h set d a) h 4 (wr 1 d ++ (if set then [] else rd 1 d) ++ rd 1 a)
    (fun x => shadowUpds d ((x.work d).map (fun l =>
      let n := ebNorm (BitVec.ofNat 16 (x.n32 a l).x)
      (l, if set then n else ebMax (x.rd.cell d 0 l).bnd n))))) ∧
  (∀ h d, RunsFixed (.budgRd h d) h 4 (wr 1 d) (laneWrites d false (fun x _ => ⟨x.tm.budg.toNat, 0⟩))) ∧
  (∀ h a, RunsIssue (.budgSet h a) h (rd 1 a)
    (fun x tm => { tm with budg := budgNorm (BitVec.ofNat 32 (x.rd.int a false 0).x) })) ∧
  (∀ h ty o s a, Ready s a h (rd (tyN ty) o) →
    (∀ l, lane (a.mask h) l = true → ∀ v ∈ elemVals ty ((s.viewAt a h).rd.el o ty.w64 l).x,
      breaches a.tm.mode a.tm.budg v ((s.viewAt a h).rd.el o ty.w64 l).b = false) →
    exec (.bchk h ty o) s = .next ((s.issued a).issueNext a h (fun tm => tm)))

/-- R195, R197, R199, R202, R210: outside a handler and an open task, on an unsplit team whose stack no error has struck
(R397), and with fewer than 64 open tasks on the core, `task.b` opens a task with the snapshot of the team; `task.e` of a task without breach, whose
stores and matrix commands have completed, commits its version and closes it; `task.x` without RETRY closes it without
commit. -/
def Obligations.TasksComplete : Prop :=
  (∀ h s a, Ready s a h [] → a.tm.inH = false → a.tm.split = false → a.tm.task = none →
    (s.issued a).openTasks a.tm.core < 64 → (∀ e ∈ a.tm.stack, e.bad = false) →
    exec (.taskB h) s = .next ((s.issued a).issueNext a h (fun tm =>
      { tm with task := some ((s.viewAt a h).snapshot s.nextOp), bstat := bsSet tm.bstat 11 5 4 }))) ∧
  (∀ h s a k, Ready s a h [] → a.tm.inTask = some k → a.tm.split = false → k.breach = none →
    (∀ o ∈ s.ops, o.2.team = a.t → k.firstOp ≤ o.1 → ¬ (o.2.cunit = .mem ∧ o.2.dst = []) ∧ o.2.cunit ≠ .matrix) →
    exec (.taskE h) s = .next (((s.issued a).commit a.tm k).issueNext a h Team.closeTask)) ∧
  (∀ h s a k, Ready s a h [] → a.tm.inTask = some k → a.tm.split = false →
    exec (.taskX h false) s = .next ((s.issued a).issueNext a h (fun tm => tm.abortTask)))

/-- R118, R119: `kset` and `kadd` put their change in flight for the next clk, where `kset` sets the count and clears OVF,
ERR and CAUSE, and `kadd` adds to the count, clamped to 0 to 255 with OVF; `krd`, and a `kwait` whose token has reached its
threshold without an error or an overflow, read the token as it stands. R116, R117, R137: `nop` reads no guard and
goes on; `dly` goes on n clk later; `exm.rd` reads EXM, the mask of lanes that have not exited, or EXITED; the other
forms write EXM, which lands after 4 clk. That old EXM counts as a source of `exm.rd`, `exm.and` and `exm.or` is the
model's reading (log entry 24). -/
def Obligations.TokensAndPlainControlComplete : Prop :=
  ((∀ h k v n s a, Ready s a h [] →
     exec (.kset h k v n) s = .next ((s.issued a).issueNext a h (fun tm => tm.queue
       [⟨s.clk + 1, 0, .kset (if n then .normal else a.tm.curBank) k.toNat v.toNat⟩]))) ∧
   (∀ h k d n s a, Ready s a h (rdTok n k.toNat) →
     exec (.kadd h k d n) s = .next ((s.issued a).issueNext a h (fun tm => tm.queue
       [⟨s.clk + 1, 0, .kadd (if n then .normal else a.tm.curBank) k.toNat d.toInt⟩]))) ∧
   (∀ (s : State) (t c p : Nat) (tm : Team) (b : Bank) (k v : Nat) (d : Int), tget s.teams t = some tm →
     (∃ tm', tget (s.land t ⟨c, p, .kset b k v⟩).teams t = some tm' ∧
       tm'.tok b k = { count := v, err := false, cause := 0, ovf := false } ∧ ∀ j, j ≠ k → tm'.tok b j = tm.tok b j) ∧
     (∃ tm', tget (s.land t ⟨c, p, .kadd b k d⟩).teams t = some tm' ∧
       tm'.tok b k = { tm.tok b k with count := min ((tm.tok b k).count + d).toNat 255
                                       ovf := (tm.tok b k).ovf || decide (255 < (tm.tok b k).count + d) } ∧
       ∀ j, j ≠ k → tm'.tok b j = tm.tok b j)) ∧
   (∀ h d k b, RunsFixed (.krd h d k b) h 4 (wr 1 d ++ rdTok (b = .i 1) k.toNat)
     (laneWrites d false (fun x _ =>
       let t := x.tm.tok (if decide (b = .i 1) then .normal else x.tm.curBank) k.toNat
       ⟨t.cause * 2 ^ 10 + t.ovf.toNat * 2 ^ 9 + t.err.toNat * 2 ^ 8 + t.count, 0⟩))) ∧
   (∀ h k thr n s a, Ready s a h (rdTok n k.toNat) →
     let t := a.tm.tok (if n then .normal else a.tm.curBank) k.toNat
     thr.toNat ≤ t.count → t.err = false → t.ovf = false →
     exec (.kwait h k thr n) s = .next ((s.issued a).issueNext a h (fun tm => tm)))) ∧
  ((∀ h s a, Ready s a { h with g := ⟨false, 7⟩ } [] →
     exec (.nop h) s = .next ((s.issued a).issueNext a { h with g := ⟨false, 7⟩ } (fun tm => tm))) ∧
   (∀ h n s a, Ready s a h [] →
     exec (.dly h n) s = .next ((s.issued a).modTeam a.t (fun tm =>
       (a.next h s.clk n.toNat tm).queue (a.posts h (s.clk + 2))))) ∧
   (∀ h d w, RunsFixed (.exmRd h d w) h 4 (wr 2 d ++ (if w = 0 then rd 1 (.x .exm) else []))
     (laneWrites d true (fun x _ =>
       ⟨(if w = 0 then x.p.exm else if w = 1 then x.p.pmask &&& ~~~x.tm.exited else x.tm.exited).toNat, 0⟩))) ∧
   (∀ h o, RunsFixed (.exmWr h o) h 4 (rd 2 o ++ []) (fun x => [.exm (BitVec.ofNat 64 (x.rd.wide o 0))])) ∧
   (∀ h o, RunsFixed (.exmAnd h o) h 4 (rd 2 o ++ rd 1 (.x .exm))
     (fun x => [.exm (x.p.exm &&& BitVec.ofNat 64 (x.rd.wide o 0))])) ∧
   (∀ h o, RunsFixed (.exmOr h o) h 4 (rd 2 o ++ rd 1 (.x .exm))
     (fun x => [.exm (x.p.exm ||| BitVec.ofNat 64 (x.rd.wide o 0))])))

/-- R38, R53, R130-R133: where no lane of the path is doubtful under DTRAP, `bra` moves the whole path to PC + 4·disp
when no lane of EXM is left behind, and falls through when none takes the branch; `brx` moves it to the one
destination of its lanes; `ret` moves it to s63:s62. R133: `call` and `calx` by the whole path write the address of
the next instruction to s62 and s63, with bound zero, and move the path to their target. That `bra` under `!p7` falls
through is the model's reading (log entry 24). -/
def Obligations.BranchesAndCallsComplete : Prop :=
  ((∀ h disp s a, Clear s a h [] false → (s.viewAt a h).doubt = 0 → h.g ≠ ⟨true, 7⟩ → a.path.exm &&& ~~~a.mask h = 0 →
     BranchesTo (.bra h disp) s a h (a.path.pc + (disp.signExtend 64 <<< 2))) ∧
   (∀ h disp s a, Clear s a h [] false → (s.viewAt a h).doubt = 0 → h.g = ⟨true, 7⟩ ∨ (a.mask h = 0 ∧ a.path.exm ≠ 0) →
     exec (.bra h disp) s = .next ((s.issued a).jumpNext a h (a.path.pc + 12) a.path.spin)) ∧
   (∀ h o s a pc, Clear s a h (rd 2 o) false → (s.viewAt a h).doubt = 0 → a.path.exm ≠ 0 → a.mask h = a.path.exm →
     (∀ l < 64, lane a.path.exm l = true → (s.viewAt a h).rd.wide o l = pc) → pc < 2 ^ 64 → pc % 4 = 0 →
     BranchesTo (.brx h o) s a h (BitVec.ofNat 64 pc)) ∧
   (∀ h s a, Clear s a h (rd 2 (.s 62)) false → a.mask h ≠ 0 → a.mask h = a.path.exm →
     (BitVec.ofNat 64 ((s.viewAt a h).rd.wide (.s 62) 0)).toNat % 4 = 0 →
     BranchesTo (.ret h) s a h (BitVec.ofNat 64 ((s.viewAt a h).rd.wide (.s 62) 0)))) ∧
  (∀ (h : Hdr) (s : State) (a : At) (pc : BitVec 64) (i : Instr) (ps : List Port),
     ((∃ disp, i = .call h disp ∧ ps = wr 2 (.s 62) ∧ pc = a.path.pc + (disp.signExtend 64 <<< 2)) ∨
      (∃ o, i = .calx h o ∧ ps = wr 2 (.s 62) ++ rd 2 o ∧ pc = BitVec.ofNat 64 ((s.viewAt a h).rd.wide o 0))) →
     Clear s a h ps false → (s.viewAt a h).doubt = 0 → a.mask h ≠ 0 → a.mask h = a.path.exm → pc.toNat % 4 = 0 →
     a.onward pc ∨ a.path.spin + 1 < 64 →
     ∃ t tm, exec i s = .next t ∧ tget t.teams a.t = some tm ∧ (tm.path a.f).pc = pc ∧
       tm.sreg 62 = ⟨(a.path.pc + 12).setWidth 32, 0⟩ ∧ tm.sreg 63 = ⟨((a.path.pc + 12) >>> 32).setWidth 32, 0⟩ ∧
       (tm.path a.f).exm = a.path.exm ∧ (tm.path a.f).pmask = a.path.pmask ∧ tm.stack = a.tm.stack ∧
       t.mem = s.mem)

/-- R123, R130, R131: a divergent `bra` needs an unused JOIN on top of its view. A team that may split runs on as two
fragments: fragment 0 falls through with the lanes that did not take the branch, fragment 1 starts at the target with
those that did, and the JOIN is marked. A team that may not split goes on at the target with the lanes taken, and the
others wait in a PATH entry above the marked JOIN. -/
def Obligations.DivergentBranchSplitsOrSerialises : Prop :=
  ∀ (h : Hdr) (disp : BitVec 20) (s : State) (a : At) (j : Entry) (r : List Entry) (n : Nat),
    Clear s a h [] false → (s.viewAt a h).doubt = 0 → h.g ≠ ⟨true, 7⟩ →
    a.mask h ≠ 0 → a.path.exm &&& ~~~a.mask h ≠ 0 →
    popView a.tm.split a.f a.tm.stack = some (j, r, n) → j.kind = .join → j.used = false → j.bad = false →
    (a.tm.maySplit = true →
      ∃ t tm, exec (.bra h disp) s = .next t ∧ tget t.teams a.t = some tm ∧ tm.split = true ∧
        tm.p0.pc = a.path.pc + 12 ∧ tm.p0.exm = a.path.exm &&& ~~~a.mask h ∧ tm.p0.pmask = a.path.exm &&& ~~~a.mask h ∧
        tm.p1.pc = a.path.pc + (disp.signExtend 64 <<< 2) ∧ tm.p1.exm = a.mask h ∧ tm.p1.pmask = a.mask h ∧
        tm.p1.pid = s.nextPid ∧ t.nextPid = s.nextPid + 1 ∧
        tm.stack = setTop false false { j with used := true, spl := true } a.tm.stack) ∧
    (a.tm.maySplit = false → a.tm.stack.length < 32 → a.onward (a.path.pc + (disp.signExtend 64 <<< 2)) →
      ∃ t tm, exec (.bra h disp) s = .next t ∧ tget t.teams a.t = some tm ∧ tm.split = a.tm.split ∧
        (tm.path a.f).pc = a.path.pc + (disp.signExtend 64 <<< 2) ∧ (tm.path a.f).exm = a.mask h ∧
        (tm.path a.f).pmask = a.mask h ∧
        tm.stack = ⟨.path, false, false, a.tm.split && a.f, toEntryPc (a.path.pc + 12), a.path.exm &&& ~~~a.mask h, false⟩ ::
          setTop a.tm.split a.f { j with used := true } a.tm.stack)

/-- R134-R136: `exit` takes the effective lanes out of EXM and adds them to EXITED; `rcv` pushes an unused JOIN for
the lanes of the path that have not exited; `rjoin` and `rjoin.to` at the JOIN's address pop it and go on behind it
with its lanes, or run the PATH entry above it. -/
def Obligations.JoinsAndExitComplete : Prop :=
  (∀ h s a, Clear s a h [] true → a.mask h ≠ 0 → a.path.exm &&& ~~~a.mask h ≠ 0 →
    exec (.exit h) s = .next ((s.issued a).issueNext a h (fun tm =>
      { tm.setPath a.f { tm.path a.f with exm := a.path.exm &&& ~~~a.mask h } with exited := tm.exited ||| a.mask h }))) ∧
  (∀ h disp s a, Ready s a h [] → a.tm.stack.length < 32 →
    exec (.rcv h disp) s = .next ((s.issued a).issueNext a h (fun tm => { tm with stack :=
      ⟨.join, false, false, tm.split && a.f, toEntryPc (a.path.pc + (disp.signExtend 64 <<< 2)),
        a.path.pmask &&& ~~~tm.exited, false⟩ :: tm.stack }))) ∧
  (∀ h s a i ps j e r n, (i = .rjoin h ∧ ps = []) ∨ (∃ d o, i = .rjoinTo h d o ∧ ps = wrPred d ++ rd 1 o) →
    Clear s a h ps false → (viewOf a.tm.split a.f a.tm.stack).find? (fun e => e.kind = .join) = some j →
    ofEntryPc j.pc = a.path.pc → popView a.tm.split a.f a.tm.stack = some (e, r, n) → a.tm.mayPop n = true →
    e.mask &&& ~~~a.tm.exited ≠ 0 → (e.kind = .join → e.spl = false) → e.bad = false → j.bad = false →
    ∃ t tm, exec i s = .next t ∧ tget t.teams a.t = some tm ∧ tm.stack = r ∧
      (tm.path a.f).pc = (if e.kind = .path then ofEntryPc e.pc else ofEntryPc e.pc + 12) ∧
      (tm.path a.f).exm = e.mask &&& ~~~a.tm.exited ∧ (tm.path a.f).pmask = e.mask &&& ~~~a.tm.exited ∧
      (tm.path a.f).hold = .free)

/-- R324, R325: `waitc` and `yield` on a well-formed block whose conditions hold (one of them, or all for
`waitc.all`), with the path's reads completed, end at once: `waitc` writes false to D and goes on, `yield` goes to its
continuation; on a block of tokens that do not hold yet, they hold the fragment. -/
def Obligations.WaitsComplete : Prop :=
  (∀ (h : Hdr) (d : Option (BitVec 3)) (o b : Opnd) (n : BitVec 2) (all : Bool) (s : State) (a : At) (cs : List Cond)
      (bs : List Bool) (s1 : State),
    Ready s a h (((d.map wrPred).getD []) ++ rd (2 * (n.toNat + 1)) o ++ rd 1 b) →
    BlockOk (s.viewAt a h) (s.issued a) o n cs → (s.viewAt a h).evalBlock cs (s.issued a) = (.truth bs, s1) →
    (if all then bs.all id else bs.any id) = true → a.pathWaits s1 Op.reads = false → s1.hole = false →
    ∃ t tm, exec (if all then .waitcAll h d o b n else .waitcAny h d o b n) s = .next t ∧ GoneOn t a ∧
      tget t.teams a.t = some tm ∧ ∀ p, d = some p → p ≠ 7 →
        (tm.pred p.toNat).t &&& a.mask h = 0 ∧ (tm.pred p.toNat).d &&& a.mask h = 0) ∧
  (∀ (h : Hdr) (o : Opnd) (n : BitVec 2) (disp : BitVec 20) (s : State) (a : At) (cs : List Cond) (bs : List Bool)
      (s1 : State),
    Ready s a h (rd (2 * (n.toNat + 1)) o) →
    BlockOk (s.viewAt a h) (s.issued a) o n cs → (s.viewAt a h).evalBlock cs (s.issued a) = (.truth bs, s1) →
    bs.any id = true → a.pathWaits s1 Op.reads = false → s1.hole = false →
    ∃ t tm, exec (.yield h o n disp) s = .next t ∧ tget t.teams a.t = some tm ∧
      (tm.path a.f).pc = a.path.pc + (disp.signExtend 64 <<< 2) ∧ (tm.path a.f).hold = .free ∧
      (tm.path a.f).exm = a.path.exm) ∧
  (∀ (h : Hdr) (o : Opnd) (n : BitVec 2) (disp : BitVec 20) (s : State) (a : At) (cs : List Cond) (bs : List Bool)
      (s1 : State),
    Ready s a h (rd (2 * (n.toNat + 1)) o) →
    BlockOk (s.viewAt a h) (s.issued a) o n cs → (s.viewAt a h).evalBlock cs (s.issued a) = (.truth bs, s1) →
    bs.any id = false → s1.hole = false →
    ∃ t, exec (.yield h o n disp) s = .next t ∧ WaitsIn t a (.yield h o n disp) 0)

/-- R281, R290: a `fence` whose accesses have completed, and whose side log has drained, goes on; one that acquires at
grp or wider discards the context's L1 lines of the core. R313, R314, R321, R322: `tl.rd` reads a timeline's value,
its accepted count, or its status word, those of the engines as the end of the clk before left them; `tl.sig` of timelines 2 to 7 releases and puts its value in line for the next
clk. -/
def Obligations.FencesAndTimelinesComplete : Prop :=
  ((∀ h sc s a, Ready s a h [] → Released (s.issued a) a sc →
     exec (.fence h sc .rel) s = .next ((s.issued a).issueNext a h (fun tm => tm))) ∧
   (∀ h sc s a, Ready s a h [] → a.pathWaits (s.issued a) Op.reads = false →
     exec (.fence h sc .acq) s = .next (((s.issued a).acquire (s.viewAt a h) (Scope.num sc)).issueNext a h (fun tm => tm))) ∧
   (∀ h sc s a, Ready s a h [] → Released (s.issued a) a sc →
     exec (.fence h sc .ar) s = .next (((s.issued a).acquire (s.viewAt a h) (Scope.num sc)).issueNext a h (fun tm => tm)))) ∧
  ((∀ h d o sel s a g, Ready s a h (wr 2 d ++ rd 1 o) → (s.issued a).group a.tm.group = some g →
     (s.viewAt a h).num o ≤ 7 →
     exec (.tlRd h d o sel) s = .next ((s.issued a).fixedNext a h 4 (laneWrites d true (fun x _ =>
       ⟨if x.num o < 2 then g.seen.getD (2 * sel.toNat + x.num o) 0 else if sel = 0 then g.timeline (x.num o) else 0, 0⟩)
       (s.viewAt a h)))) ∧
   (∀ (s : State) (n : Nat) (g : Group), tget s.groups n = some g → ∃ g', tget s.barEnd.groups n = some g' ∧
     g'.seen = [g'.timeline 0, g'.timeline 1, g'.copy.acc, g'.dec.acc, g'.status 0, g'.status 1]) ∧
   (∀ h sc o p add s a, ReadyOut s a h (rd 1 o ++ rd 2 p) → Released (s.issued a) a sc →
     2 ≤ (s.viewAt a h).num o → (s.viewAt a h).num o ≤ 7 →
     exec (.tlSig h sc o p add) s = .next ((((s.issued a).unspin (s.viewAt a h)).modGroup a.tm.group (fun g =>
       { g with tlq := g.tlq ++ [((s.viewAt a h).num o, (s.viewAt a h).rd.wide p 0, add)] })).issueNext a h (fun tm => tm))))

/-- R307-R312, R320, R321: `bar.init` sets EXP and clears the phase's counts, `bar.exp` adds to TXB, `bar.arv` without
WAIT at a phase that is not full arrives and goes on, and with WAIT, or at a full phase, arrives and stays; `bar.rd` reads a barrier's
words. -/
def Obligations.BarriersComplete : Prop :=
  (∀ h o p s a n, ReadyOut s a h (rd 1 o ++ rd 1 p) →
    (s.viewAt a h).barRef (s.issued a) ((s.viewAt a h).num o) = .grp n →
    1 ≤ (s.viewAt a h).num p → (s.viewAt a h).num p ≤ 1023 →
    exec (.barInit h o p) s = .next (((s.issued a).modGroup a.tm.group (fun g => g.modBar n (fun b =>
      { b with exp := (s.viewAt a h).num p, arr := 0, txb := 0, byt := 0, err := false, cause := 0, tclk := 0, told := 0,
               initAt := some s.clk }
      ))).issueNext a h (fun tm => tm))) ∧
  (∀ h o p s a n, ReadyOut s a h (rd 1 o ++ rd 1 p) →
    (s.viewAt a h).barRef (s.issued a) ((s.viewAt a h).num o) = .grp n → (s.viewAt a h).num p < 2 ^ 31 →
    exec (.barExp h o p) s = .next (((s.issued a).modGroup a.tm.group (fun g => g.modBar n (fun b =>
      b.addTxb s.clk ((s.viewAt a h).num p)))).issueNext a h (fun tm => tm))) ∧
  (∀ h sc o w s a, ReadyOut s a h (rd 1 o) → Released (s.issued a) a sc →
    (s.viewAt a h).barRef (s.issued a) ((s.viewAt a h).num o) ≠ .none →
    ((s.viewAt a h).num o = 16 → 2 ≤ Scope.num sc) → ((s.viewAt a h).num o = 17 → 3 ≤ Scope.num sc) →
    let r := (s.viewAt a h).barRef (s.issued a) ((s.viewAt a h).num o)
    let s1 := (s.issued a).unspin (s.viewAt a h)
    (w = false → (s1.barLoad a.tm.group r).1 < (s1.barLoad a.tm.group r).2 →
      exec (.barArv h sc o w) s = .next ((s1.barArrive a.tm.group r ⟨s.clk, none, false, none⟩).issueNext a h (fun tm => tm))) ∧
    (w = true ∨ (s1.barLoad a.tm.group r).2 ≤ (s1.barLoad a.tm.group r).1 →
      ∃ t, exec (.barArv h sc o w) s = .next t ∧ WaitsIn t a (.barArv h sc o w) 1 ∧
        t.groups = (s1.barArrive a.tm.group r ⟨s.clk, some a.path.pid, w, none⟩).groups ∧
        t.wide = (s1.barArrive a.tm.group r ⟨s.clk, some a.path.pid, w, none⟩).wide)) ∧
  (∀ h d o sel s a n g b, Ready s a h (wr 2 d ++ rd 1 o) →
    (s.viewAt a h).barRef (s.issued a) ((s.viewAt a h).num o) = .grp n →
    (s.issued a).group a.tm.group = some g → tget g.bars n = some b →
    exec (.barRd h d o sel) s = .next ((s.issued a).fixedNext a h 4 (laneWrites d true (fun _ _ => ⟨if sel = 0 then
      trunc (b.txbAt s.clk) 32 * 2 ^ 32 + b.ph.toNat * 2 ^ 16 + b.arr % 2 ^ 10 * 2 ^ 6 else
      b.lbyt * 2 ^ 32 + b.lcause * 2 ^ 28 + b.lerr.toNat * 2 ^ 27 + b.lshort.toNat * 2 ^ 26 + b.exp % 2 ^ 10, 0⟩)
      (s.viewAt a h)))) ∧
  (∀ h d o sel s a i b, Ready s a h (wr 2 d ++ rd 1 o) →
    (s.viewAt a h).barRef (s.issued a) ((s.viewAt a h).num o) = .wide i → tget (s.issued a).wide i = some b →
    exec (.barRd h d o sel) s = .next ((s.issued a).fixedNext a h 4 (laneWrites d true (fun _ _ => ⟨if sel = 0 then
      b.arr * 2 ^ 32 + b.ph.toNat * 2 ^ 16 else b.exp * 2 ^ 32, 0⟩) (s.viewAt a h))))

/-- R407: `mfs` writes the special register, as every effective lane reads it at issue, to D: one register, a pair, or
four for TFRAG. R37, R115, R184, R188, R204, R384, R407: `mts` of the generators, MODE, BUDG, KSTAT (ones clear),
BSTAT (its RW fields), TEPC and TFR (aligned) acts at once; EXM lands after 4 clk; CYC with privilege restarts the
core's count. -/
def Obligations.SpecialRegistersAreReadAndWritten : Prop :=
  (∀ (h : Hdr) (d : Opnd) (r : SysReg) (s : State) (a : At),
     Ready s a h (wr (sysWidth r) d ++ (if r = .sp .exm then rd 1 (.x .exm) else [])) →
     (r ≠ .sp .tfrag → exec (.mfs h d r) s = .next ((s.issued a).fixedNext a h 4
       (laneWrites d (decide (sysWidth r = 2)) (fun x l => ⟨x.sysVal (s.issued a) r l, 0⟩) (s.viewAt a h)))) ∧
     (∀ k, r = .sp .tfrag → d = .s k → exec (.mfs h d r) s = .next ((s.issued a).fixedNext a h 4
       ((List.range 4).map (fun j => .sca (k.toNat + j)
         (some (BitVec.ofNat 32 (a.tm.tfrag.toNat / 2 ^ (32 * j)))) (some 0))))) ∧
     (r = .sp .cyc → ∀ l, (s.viewAt a h).sysVal (s.issued a) r l =
       (s.clk + (s.core a.tm.core).cycOff.toNat) % 2 ^ 64) ∧
     (r = .sp .rtick → ∀ l, (s.viewAt a h).sysVal (s.issued a) r l = s.rt % 2 ^ 64)) ∧
  ((∀ h o, RunsIssue (.mts h .gen o) h (rd 1 o) (fun x tm =>
     tm.setGens ((lanesOf x.e).map (fun l => (l, genNorm (BitVec.ofNat 32 (x.rd.int o false l).x)))))) ∧
   (∀ h o, RunsIssue (.mts h (.sp .mode) o) h (rd 1 o) (fun x tm => tm.writeMode (BitVec.ofNat 32 (x.num o)))) ∧
   (∀ h o, RunsIssue (.mts h (.sp .budg) o) h (rd 1 o) (fun x tm => { tm with budg := budgNorm (BitVec.ofNat 32 (x.num o)) })) ∧
   (∀ h o, RunsIssue (.mts h (.sp .kstat) o) h (rd 2 o) (fun x tm =>
     tm.clearKstat tm.curBank (BitVec.ofNat 64 (x.rd.wide o 0)).toNat)) ∧
   (∀ h o, RunsIssue (.mts h (.sp .bstat) o) h (rd 2 o) (fun x tm => { tm with
     bstat := (BitVec.ofNat 64 (x.rd.wide o 0) &&& bstatRw) ||| (tm.bstat &&& ~~~bstatRw) })) ∧
   (∀ h o s a, Ready s a h (rd 2 o) →
     let v : Dword := BitVec.ofNat 64 ((s.viewAt a h).rd.wide o 0)
     (exec (.mts h (.sp .exm) o) s = .next ((s.issued a).issueNext a h (fun tm =>
       tm.queue [⟨s.clk + 4, a.path.pid, .upd (.exm v)⟩]))) ∧
     (v.toNat % 4 = 0 → exec (.mts h (.sp .tepc) o) s = .next ((s.issued a).issueNext a h (fun tm =>
       { tm with tepc := v.setWidth 56 }))) ∧
     (v.toNat < 2 ^ 56 → v.toNat % 1024 = 0 → exec (.mts h (.sp .tfr) o) s = .next ((s.issued a).issueNext a h (fun tm =>
       { tm with tfr := v.setWidth 56 }))) ∧
     ((s.issued a).prv a.tm.ctx = true → exec (.mts h (.sp .cyc) o) s = .next (((s.issued a).modCore a.tm.core (fun c =>
       { c with cycOff := v - BitVec.ofNat 64 s.clk })).issueNext a h (fun tm => tm)))))

/-- R251, R252, R284: a stack-homed address has the slice and the set that its bits give; the fill of a set keeps it
within its 16 ways, a context with quota 0 gets none, and one below its quota takes a free way without a victim; neither
a read nor a write of the caches changes memory, and after a write no RDC holds the line. R411, R413-R415, R418: a route
goes along the row, and then along the column, to its end, in at most 6 hops; a flit is sent only where a buffer is free
downstream, and into a ring only where two are; with no head that has waited 16 clk, a channel is served only when the
channels before it have nothing to send; a response leaves its source only into reserved space, and a bulk packet only
into space that was granted. What the network carries, and what caches hold, are as in log entries 35 and 37. -/
def Obligations.NetworkAndCachesFollowTheirRules : Prop :=
  ((∀ pa i, i < 4 → (sliceOf pa).testBit i = (pa.testBit (7 + i) ^^ pa.testBit (22 + i))) ∧
   (∀ pa, sliceOf pa < 16 ∧ setOf pa = pa / 2 ^ 11 % 2 ^ 11) ∧
   (∀ (s : State) (set : List CLine) (x : CLine), set.length ≤ 16 → (s.fillSet set x).length ≤ 16 ∧
     (s.quota x.ctx x.cls = 0 → s.fillSet set x = set) ∧
     ((x.mates set).length < s.quota x.ctx x.cls → set.length < 16 → s.fillSet set x = x :: set)) ∧
   (∀ (s : State) (n c cls line : Nat), (s.cacheRead n c cls line).mem = s.mem) ∧
   (∀ (s : State) (c : Option Nat) (cls line : Nat), (s.cacheWrite c cls line).mem = s.mem ∧
     ∀ e ∈ (s.cacheWrite c cls line).caches.rdc, ∀ x ∈ e.2, x.line ≠ line)) ∧
  ((∀ n < 36, ∀ d < 36, ((n :: route 6 n d).getLast? = some d) ∧
     (route 6 n d).length = ringHops (n % 6) (d % 6) + ringHops (n / 6) (d / 6) ∧ (route 6 n d).length ≤ 6 ∧
     (∀ m ∈ route 6 n d, m / 6 = n / 6 ∨ m % 6 = d % 6)) ∧
   (∀ (t : Net) (o : NetPort) (i : Nat) (v : VC), (o, i, v) ∈ t.chosen → t.canSend o i v = true ∧
     (farEnd o ≠ none → 1 ≤ t.freeOf o v ∧ (entersRing o.node i o.port = true → 2 ≤ t.freeOf o v))) ∧
   (∀ (t : Net) (o : NetPort) (i : Nat) (v : VC), t.pick o = some (i, v) →
     (∀ w, ∀ j ∈ inputsOf o.node, t.aged o j w = false) →
     ∀ w, vcOrder.idxOf w < vcOrder.idxOf v → ∀ j ∈ inputsOf o.node, t.canSend o j w = false) ∧
   (∀ (t : Net) (p : Packet), t.mayEnter p = true → (p.vc = .rsp → p.dst ∈ t.room) ∧
     (p.vc = .bulk → (p.dst, p.src) ∈ t.grants)))

/-- R254, R264-R267: `ld`, `ldb`, `ldp` and `ldc` complete; `ldp` of a team with PROG also gives its fragment's turn
away (R38). R271, R272: `pref`, `cinv` and `cwb` complete; a prefetch never faults, `cinv.line` drops the lines'
copies in L1, and `cinv.all` empties it. How sets of L1 are chosen is open (log entry 5). -/
def Obligations.LoadsAndCacheOperationsComplete : Prop :=
  ((∀ h ty n d a b off, LoadCompletes (.ld h ty n d a b off) h .l1 ty n d a b off) ∧
   (∀ h ty n d a b off, LoadCompletes (.ldb h ty n d a b off) h .next ty n d a b off) ∧
   (∀ h ty d a b off, LoadCompletes (.ldp h ty d a b off) h .home ty .c1 d a b off) ∧
   (∀ h ty n d a b off, LoadCompletes (.ldc h ty n d a b off) h .comp ty n d a b off)) ∧
  ((∀ h o b off, CacheCompletes (.prefL2 h o b off) h (rd 2 o ++ rdIndex b) (fun x => .pref false (x.globals o b off))) ∧
   (∀ h o b off, CacheCompletes (.prefL1 h o b off) h (rd 2 o ++ rdIndex b) (fun x => .pref true (x.globals o b off))) ∧
   (∀ h o b off, CacheCompletes (.cinvLine h o b off) h (rd 2 o ++ rdIndex b)
     (fun x => .cinv (some ((x.globals o b off).map (· / 128))))) ∧
   (∀ h, CacheCompletes (.cinvAll h) h [] (fun _ => .cinv none)) ∧
   (∀ h o b off, CacheCompletes (.cwbLine h o b off) h (rd 2 o ++ rdIndex b) (fun x => .cwb (some (x.globals o b off)))) ∧
   (∀ h, CacheCompletes (.cwbAll h) h [] (fun _ => .cwb none)) ∧
   (∀ (s : State) core ctx, ((s.cacheWork core ctx (.cinv none)).core core).l1 = []) ∧
   (∀ (s : State) core ctx vls, ∀ l ∈ ((s.cacheWork core ctx (.cinv (some vls))).core core).l1, l.ctx = ctx → l.vline ∉ vls))

/-- R264, R268-R270: `st`, `stm`, and the three forms of `stc` complete. -/
def Obligations.StoresComplete : Prop :=
  (∀ h ty n d o b off s a, Ready s a h (rd (cntN n * tyN ty) d ++ rd 2 o ++ rdIndex b) →
    let x := s.viewAt a h
    let as := (x.work d).map (x.addr o b off)
    StoreCompletes (.st h ty n d o b off) h s a (x.addrErr (s.issued a) (cntN n * ty.bytes) (cntN n * ty.bytes) as)
      (x.stPieces ty (cntN n) d (x.work d) as)) ∧
  (∀ h n d o b off s a, Ready s a h (rd (cntN n) d ++ rd 2 o ++ rd 1 b) →
    let x := s.viewAt a h
    let pcs := x.stmPieces (cntN n) d b (x.work d) ((x.work d).map (x.addr o (.i 0) off))
    StoreCompletes (.stm h n d o b off) h s a
      (pcs.findSome? (fun p => (x.winErr (s.issued a) p.addr 1).map (fun k => (Cause.xlat, k, p.la)))) pcs) ∧
  (∀ h ty d o b off s a, Ready s a h (rd 1 d ++ rd 2 o ++ rd 1 b) →
    let x := s.viewAt a h
    let form := (s.issued a).asf a.tm.ctx (x.num b)
    let as := (x.work d).map (x.addr o (.i 0) off)
    let u := x.unitAddr o off
    (form ≠ 1 → form ≠ 2 → StoreCompletes (.stc h ty d o b off) h s a
      (x.addrErr (s.issued a) (1 * ty.bytes) (1 * ty.bytes) as) (x.stPieces ty 1 d (x.work d) as)) ∧
    (∀ k, form = 1 → o = .s k → StoreCompletes (.stc h ty d o b off) h s a
      (x.addrErr (s.issued a) 8 8 [u.2]) (x.signPieces ty d u.1 u.2)) ∧
    (∀ k, form = 2 → o = .s k → StoreCompletes (.stc h ty d o b off) h s a
      (x.addrErr (s.issued a) 34 64 [u.2]) (x.mxPieces ty d u.1 u.2)))

/-- R275, R281, R291-R294: `atom` and `red` complete. That the generator of an `.rsr` addition steps as the operation is
made is the model's reading (log entry 25). -/
def Obligations.AtomicsComplete : Prop :=
  (∀ h ty op r sc ord d o b c s a accs s1,
    ReadyOut s a h (wr (tyN ty) d ++ rd 2 o ++ rd (tyN ty) b ++ (if op = .cas then rd (tyN ty) c else [])) →
    let x := s.viewAt a h
    let g := x.atArg ty op r sc (ord = .acq || ord = .ar) (some d)
    let ls := atLanes x g o b c
    x.addrErr (s.issued a) ty.bytes ty.bytes (ls.map (fun l => l.addr)) = none →
    ((ord = .rel ∨ ord = .ar) → Released ((s.issued a).unspin x) a sc) →
    ((s.issued a).unspin x).resolveAll a.tm true false [] (ls.map (fun l => (l.lane, l.addr, l.addr, ty.bytes))) =
      (.ok accs, s1) →
    AtomicCompletes (.atom h ty op r sc ord d o b c) h s a g ls ((ls.zip accs).map (fun p => p.1.rmw p.2.chunks)) s1) ∧
  (∀ h ty op r sc rel o b s a (cs : List (AtLane × List Chunk)) s1, ReadyOut s a h (rd 2 o ++ rd (tyN ty) b) →
    let x := s.viewAt a h
    let g := x.atArg ty op r sc false none
    let ls := atLanes x g o b (.i 0)
    x.addrErr (s.issued a) ty.bytes ty.bytes (ls.map (fun l => l.addr)) = none →
    (rel = true → Released ((s.issued a).unspin x) a sc) →
    ((s.issued a).unspin x).resolveEach a.tm ty.bytes [] ls = (cs.map (fun c => (c.1, .ok c.2)), s1) → cs.map Prod.fst = ls →
    AtomicCompletes (.red h ty op r sc rel o b) h s a g ls (cs.map (fun c => c.1.rmw c.2)) s1)

/-- R295-R297, R301-R304, R316-R319: the copy instructions and `dcz` complete: their commands enter the engines, whose
contexts number the commands of a clk at its end, in ascending quadrant order. -/
def Obligations.EngineCommandsComplete : Prop :=
  (∀ h z d o opt, CopyCompletes (.cpl h z d o opt) h (rd 2 d ++ rd 2 o) (fun _ => .cpl) opt false (cplBytes z)
    false false false (fun x => (lanesOf x.e).map (fun l => (l, x.rd.wide d l, x.rd.wide o l, cplBytes z)))) ∧
  (∀ h d o b opt, CopyCompletes (.cpb h d o b opt) h (rd 2 d ++ rd 2 o ++ rd 1 b) (fun _ => .cpb) opt false 16
    true false false (once d o (fun x => x.num b))) ∧
  (∀ h d o b opt, CopyCompletes (.cpcCont h d o b opt) h (rd 2 d ++ rd 2 o ++ rd 2 b) (fun _ => .cont) opt (optPeer opt) 16
    true (optPeer opt) false (once d o (fun x => x.rd.wide b 0 % 2 ^ 32))) ∧
  (∀ h d o b opt, CopyCompletes (.cpcLast h d o b opt) h (rd 2 d ++ rd 2 o ++ rd 2 b)
    (fun x => .last (BitVec.ofNat 32 (x.rd.wide b 0 / 2 ^ 32))) opt (optPeer opt) 16
    true (optPeer opt) false (once d o (fun x => x.rd.wide b 0 % 2 ^ 32))) ∧
  (∀ h d o b opt, CopyCompletes (.cpxPut h d o b opt) h (rd 2 d ++ rd 2 o ++ rd 1 b) (fun _ => .put) opt true 16
    true false true (once d o (fun x => x.num b))) ∧
  (∀ h d o b opt, CopyCompletes (.cpxGet h d o b opt) h (rd 2 d ++ rd 2 o ++ rd 1 b) (fun _ => .get) opt true 16
    true true false (once d o (fun x => x.num b))) ∧
  (∀ h d o s a g, ReadyOut s a h (rd 2 d ++ rd 2 o) →
    let x := s.viewAt a h
    let s0 := s.issued a
    let r : Dword := BitVec.ofNat 64 (x.rd.wide d 0)
    let v := x.rd.wide o 0
    s0.group a.tm.group = some g → ringBad r g.nbar = false → ringBase r + ringSlots r * ringSlot r ≤ g.alloc →
    v < 2 ^ 56 → ringBase r % 128 = 0 → v % 16 = 0 → g.dec.load < 64 →
    exec (.dcz h d o) s = .next ((s0.modGroup a.tm.group (fun y => { y with dec := { y.dec with
      newq := y.dec.newq ++ [(a.tm.quad, { num := 0, op := s0.nextOp, ring := r, next := v, blk := 0, p0 := none
                                           page := none, layer := none, fate := .open })] } })).tokenNext a h
      (a.op s0 .dec [] .engine))) ∧
  (∀ (c : CopyCtx) (d : DecCtxt),
    ((∀ x ∈ c.newq, x.1 < 4) → c.acceptAll.acc = c.acc + c.newq.length ∧ c.acceptAll.newq = [] ∧
      c.acceptAll.cmds.map (fun m => m.op) = c.cmds.map (fun m => m.op) ++
        (List.range 4).flatMap (fun q => (c.newq.filter (fun x => x.1 = q)).map (fun x => x.2.1)) ∧
      c.acceptAll.cmds.map (fun m => m.num) = c.cmds.map (fun m => m.num) ++
        (List.range c.newq.length).map (fun j => c.acc + 1 + j)) ∧
    ((∀ x ∈ d.newq, x.1 < 4) → d.acceptAll.acc = d.acc + d.newq.length ∧ d.acceptAll.newq = [] ∧
      d.acceptAll.streams.map (fun m => m.op) = d.streams.map (fun m => m.op) ++
        (List.range 4).flatMap (fun q => (d.newq.filter (fun x => x.1 = q)).map (fun x => x.2.op)) ∧
      d.acceptAll.streams.map (fun m => m.num) = d.streams.map (fun m => m.num) ++
        (List.range d.newq.length).map (fun j => d.acc + 1 + j)))

/-- R212, R236-R242, R244: `mtd` and `msd` write their descriptor at once, and with `mma`, `mz`, `mrd`, `mwr` and
`mstat` enter their command with what it captures: mode, budget, descriptors, rows. R220, R243: `mst` of an OUT
descriptor that fits enters its command and holds until it has executed; with the conversion's result, no row of it in
breach, it stores the pieces as a store does and goes on. The order of the mask check is the model's reading (log
entry 28). -/
def Obligations.MatrixCommandsAndStoresEnter : Prop :=
  ((∀ h d o b s a, Ready s a h (rd 2 o ++ rd 2 b) →
     let x := s.viewAt a h
     shapeBad (x.rd.wide b 0) = false → x.rd.wide o 0 < 2 ^ 56 → x.rd.wide o 0 % 16 = 0 →
     MatrixEnters (.mtd h d o b) h s a false []
       ((s.issued a).setDesc a.t d.toNat false (fun r => { r with tile := tileRecord (x.rd.wide o 0) (x.rd.wide b 0) }))
       (x.mcmd (.mtd h d o b) 0 [] .zero .zero)) ∧
   (∀ h d o en s a, Ready s a h (if en then rd 1 o else []) →
     let x := s.viewAt a h
     (en = true → x.num o < 2 ^ 19 ∧ x.num o % 128 = 0) →
     MatrixEnters (.msd h d o en) h s a false []
       ((s.issued a).setDesc a.t d.toNat true (fun r => { r with scale := if en then BitVec.ofNat 32 (2 ^ 31 + x.num o) else 0 }))
       (x.mcmd (.msd h d o en) 0 [] .zero .zero)) ∧
   (∀ h ty g d o b tA tB s a, Ready s a h (rdMOp o ++ rdMOp b) →
     let x := s.viewAt a h
     let A := x.mmaA (s.issued a) ty o (tA.toNat + 1)
     let B := x.mmaB (s.issued a) ty d.toNat b (tB.toNat + 1)
     A.2 = none → B.2 = none → A.1.2 = B.1.1 → A.1.2 % groupLen ty = 0 →
     ((x.scaled o || x.scaled b) = true → A.1.2 % 32 = 0) → d.toNat + ceilDiv B.1.2 64 ≤ 16 →
     MatrixEnters (.mma h ty g d o b tA tB) h s a true [] (s.issued a)
       (x.mcmd (.mma h ty g d o b tA tB) 0 [] (x.descOf o) (x.descOf b))) ∧
   (∀ h mask rel s a, Ready s a h [] →
     MatrixEnters (.mz h mask rel) h s a true [] (s.issued a) ((s.viewAt a h).mcmd (.mz h mask rel) 0 [] .zero .zero)) ∧
   (∀ h ty r d o b n s a, Ready s a h (wr (rowRegs ty n) (.v d) ++ rd 1 b) →
     MatrixEnters (.mrd h ty r d o b n) h s a true (dstKeys (.v d) (rowRegs ty n) (a.mask h)) (s.issued a)
       ((s.viewAt a h).mcmd (.mrd h ty r d o b n) ((s.viewAt a h).num b % 128) [] .zero .zero)) ∧
   (∀ h ty d o b n s a, Ready s a h (rd (rowRegs ty n) (.v o) ++ rd 1 b) →
     MatrixEnters (.mwr h ty d o b n) h s a true [] (s.issued a)
       ((s.viewAt a h).mcmd (.mwr h ty d o b n) ((s.viewAt a h).num b % 128) ((List.range (rowRegs ty n)).map (fun j =>
         lanes.map (fun l => ((s.viewAt a h).rd.vrow (o.toNat + j)).cell l))) .zero .zero)) ∧
   (∀ h d sel b s a, Ready s a h (wr 1 d ++ (if 2 ≤ sel.toNat then rd 1 b else [])) →
     MatrixEnters (.mstat h d sel b) h s a false (dstKeys d 1 (a.mask h)) (s.issued a)
       ((s.viewAt a h).mcmd (.mstat h d sel b) (if 2 ≤ sel.toNat then (s.viewAt a h).num b % 16 else 0) [] .zero .zero))) ∧
  ((∀ h ty r d o s a, Ready s a h (rdDesc d.toNat) →
     let t := a.tm.desc d.toNat
     let c := (s.viewAt a h).mcmd (.mst h ty r d o) 0 [] t .zero
     a.mask h = allLanes → descBad t 2 ty = none → t.rows ≤ 128 → t.cols ≤ 256 → o.toNat + ceilDiv t.cols 64 ≤ 16 →
     t.beyond ty = none → (s.core a.tm.core).mx.holder = some a.tm.group →
     ((s.core a.tm.core).mx.queue a.tm.quad).length < 32 →
     ∃ t, exec (.mst h ty r d o) s = .next t ∧ WaitsIn t a (.mst h ty r d o) 2 ∧ t.nextOp = s.nextOp + 1 ∧
       ((t.core a.tm.core).mx.queue a.tm.quad) = (s.core a.tm.core).mx.queue a.tm.quad ++ [{ c with op := s.nextOp, clk0 := s.clk }]) ∧
   (∀ h ty r d o s a e w k, Within s a (.mst h ty r d o) e w → a.mask h = allLanes → w.stage = 3 → w.pages = [] →
     w.cap.headD 0 = 0 → a.tm.versions = false → a.path.claim = some k → ∀ (ps : List Part) (s1 : State),
     let cap := w.cap
     (((s.resumed a).modTeam a.t (fun tm =>
         { tm with gens := ((cap.drop 2).take 64).map (BitVec.ofNat 32) })).unspin (s.viewIn a h e w)).resolveParts
       a.tm [] ((piecesOf (cap.drop 66)).flatMap (fun p =>
         (cutBytes p.addr (a.tm.runs_ p.lane p.addr p.bs.length) p.bs p.keep).map (fun r => (p, r)))) = (ps, s1) →
     (∀ p ∈ ps, ∃ pa q, p.look = .ok pa q) →
     (BitVec.ofNat 64 ((s.viewIn a h e w).partsBreach s1 (ps.filter Part.checked)) : Mask) = 0 → s1.hole = false →
     let ws := ps.map Part.wr
     let err : Option Nat := if cap.getD 1 0 = 1 then some 1 else none
     let slow := a.late || s1.behind a.t k.num (ws.map (fun w => w.c)) || s1.unlinked a.tm (.store ws err)
     let r2 : Work × State := if slow then (.store ws err, s1) else (endWork err, s1.performWrites a.tm.core a.tm.ctx ws)
     let op := a.op r2.2 .matrix [] r2.1
     exec (.mst h ty r d o) s = .next ({ r2.2 with ops := tset r2.2.ops k.num { op with
       post := h.sc.post.map (fun (n : BitVec 5) => (a.tm.curBank, n.toNat)), clash := k.clash } }.modTeam a.t (a.next h s.clk 0))))

/-- R340, R408: `tinv` of a context with privilege enters an operation that drops the page's, the context's, or every
translation; `ckpt` puts its request to the hub as it issues, and its operation writes the number of the checkpoint to
come, or 0 without roll-back. Inside a task neither runs (R197). R356-R358: `lbind` pins its layer and asks for it and
for those ahead of it, `lrel` unpins, `lhint` asks ahead, `lstat` reads the layer's word; `lbind` waits for a layer that
is not there yet. -/
def Obligations.TranslationCheckpointAndResidencyComplete : Prop :=
  ((∀ h o p s a, ReadyOut s a h (rd 2 o ++ rd 1 p) → (s.issued a).prv a.tm.ctx = true → (s.viewAt a h).num p ≤ 63 →
    exec (.tinvPage h o p) s = .next ((s.issued a).tokenNext a h (a.op (s.issued a) .sys []
      (.tinvPage ((s.viewAt a h).num p) ((s.viewAt a h).rd.wide o 0 % 2 ^ 56))))) ∧
  (∀ h p s a, ReadyOut s a h (rd 1 p) → (s.issued a).prv a.tm.ctx = true → (s.viewAt a h).num p ≤ 63 →
    exec (.tinvCtx h p) s = .next ((s.issued a).tokenNext a h (a.op (s.issued a) .sys []
      (.tinvCtx ((s.viewAt a h).num p))))) ∧
  (∀ h s a, ReadyOut s a h [] → (s.issued a).prv a.tm.ctx = true →
    exec (.tinvAll h) s = .next ((s.issued a).tokenNext a h (a.op (s.issued a) .sys [] .tinvAll))) ∧
  (∀ h s a, ReadyOut s a h [] →
    exec (.ckpt h none) s = .next (((s.issued a).askCkpt a.tm.ctx).tokenNext a h (a.op (s.issued a) .sys [] (.done [])))) ∧
  (∀ h k s a, ReadyOut s a h (wr 2 (.s k)) →
    let u := s.undoOf a.tm.ctx
    exec (.ckpt h (some k)) s = .next (((s.issued a).askCkpt a.tm.ctx).tokenNext a h (a.op (s.issued a) .sys
      (dstKeys (.s k) 2 (a.mask h))
      (.done (dstUpds (.s k) true [(0, ⟨if u.en then (u.int_ + 1) % 2 ^ 32 else 0, 0⟩)])))))) ∧
  ((∀ h o b rty s a c l m y, ReadyOut s a h (rd 1 o ++ rd 1 b) →
    (s.viewAt a h).layerArg (s.issued a) ((s.viewAt a h).num o) ((s.viewAt a h).num b) = .ok (c, l) →
    tget s.models c = some m → (s.issued a).layerOf c l = some y → y.pin < 65535 →
    let s0 := s.issued a
    let st := if y.st = .failed ∧ rty = true then LState.absent else y.st
    let s1 : State := { s0 with models := tmod s0.models c (fun m => { m with cur := l }), useCnt := s0.useCnt + 1 }
    let s2 := s1.modLayer c l (fun y =>
      let y := { y with pin := y.pin + 1, use := s0.useCnt }
      if y.st = .failed ∧ rty = true then { y with st := .absent, fcause := 0, rtry := 0 } else y)
    let top := min (l + m.la + 1) m.layers.length
    let s3 := (s2.request c l true []).hints c (l + 1) top ((List.range (top - (l + 1))).map (fun j => l + 1 + j))
    s3.hole = false →
    exec (.lbind h o b rty) s = .next (s3.tokenNext a h (a.op s3 .resid []
      (match st with | .resident => .done [] | .failed => .fail 2 | _ => .lbind c l)))) ∧
  (∀ h o b s a c l, ReadyOut s a h (rd 1 o ++ rd 1 b) →
    (s.viewAt a h).layerArg (s.issued a) ((s.viewAt a h).num o) ((s.viewAt a h).num b) = .ok (c, l) →
    exec (.lrel h o b) s = .next (((s.issued a).modLayer c l (fun y => { y with pin := y.pin - 1 })).tokenNext a h
      (a.op (s.issued a) .resid [] (.done [])))) ∧
  (∀ h o b n s a c l m, Ready s a h (rd 1 o ++ rd 1 b) →
    (s.viewAt a h).layerArg (s.issued a) ((s.viewAt a h).num o) ((s.viewAt a h).num b) = .ok (c, l) →
    tget s.models c = some m →
    let s1 := (s.issued a).hints c l (min (l + n.toNat + 1) m.layers.length) []
    s1.hole = false → exec (.lhint h o b n) s = .next (s1.tokenNext a h (a.op s1 .resid [] (.done [])))) ∧
  (∀ h d o b s a c l y, Ready s a h (wr 2 d ++ rd 1 o ++ rd 1 b) →
    (s.viewAt a h).layerArg (s.issued a) ((s.viewAt a h).num o) ((s.viewAt a h).num b) = .ok (c, l) →
    (s.issued a).layerOf c l = some y →
    exec (.lstat h d o b) s = .next ((s.issued a).tokenNext a h (a.op (s.issued a) .resid (dstKeys d 2 (a.mask h))
      (.done (laneWrites d true (fun _ _ => ⟨y.word, 0⟩) (s.viewAt a h)))))))

/-- R431: `txch` whose partner waits exchanges the two teams' registers in the lanes of both masks, or ends both with
REFUSED where their row counts differ; with no partner and room in the table it waits there. R443: each form of
`coll`, with an aligned descriptor address, enters a member of its round, whose timer starts. -/
def Obligations.ExchangesAndCollectivesComplete : Prop :=
  (∀ h d o b nm1 s a, ReadyOut s a h (rd (nm1.toNat + 1) (.v d) ++ wr (nm1.toNat + 1) (.v d) ++ rd 1 o ++ rd 1 b) →
     let x := s.viewAt a h
     let s0 := s.issued a
     let n := nm1.toNat + 1
     let pair := x.num o % 65536
     let t := x.num b
     let tmo : Option Nat := if t = 2 ^ 32 - 1 then none else some t
     let keys := dstKeys (.v d) n (a.mask h)
     (s0.partner a.tm.ctx a.tm.core pair = none → (s0.tandem (a.tm.core / 16)).length < 256 →
       ∃ rows, (∀ i < n, ∀ l < 64, Row.cell (rows.getD i []) l = (x.rd.vrow (d.toNat + i)).cell l) ∧
         exec (.txch h d o b nm1) s = .next (s0.tokenNext a h (a.op s0 .tandem keys
           (.txch pair (a.mask h) d.toNat n rows s.rt tmo)))) ∧
     (∀ y, s0.partner a.tm.ctx a.tm.core pair = some y →
       ∃ rows, (∀ i < n, ∀ l < 64, Row.cell (rows.getD i []) l = (x.rd.vrow (d.toNat + i)).cell l) ∧
         let m := a.mask h &&& y.em
         let err : Option Nat := if n = y.n then none else some 6
         exec (.txch h d o b nm1) s = .next (({ s0 with ops := tmod s0.ops y.op (fun o =>
           { o with work := .both (exchUpds m y.d rows) err s0.nextOp }) } : State).tokenNext a h
           (a.op s0 .tandem keys (.both (exchUpds m d.toNat y.rows) err y.op))))) ∧
  (∀ (h : Hdr) (ty : Ty) (o b : Opnd) (cf : BitVec 2) (s : State) (a : At) (i : Instr) (kind k : Nat),
     ((i = .collSum h ty o b cf ∧ kind = 0 ∧ k = cf.toNat) ∨ (i = .collMax h ty o b ∧ kind = 1 ∧ k = 0) ∨
      (i = .collGath h ty o b ∧ kind = 2 ∧ k = 0) ∨ (i = .collBcst h ty o b ∧ kind = 3 ∧ k = 0)) →
     ReadyOut s a h (rd 2 o ++ rd 1 b) →
     let x := s.viewAt a h
     let s0 := s.issued a
     x.rd.wide o 0 < 2 ^ 56 → x.rd.wide o 0 % 64 = 0 →
     exec i s = .next (({ s0 with colls := (tset s0.colls s0.nextOp
       { ctx := a.tm.ctx, core := a.tm.core, kind := kind, bf := decide (ty = .bf16), cf := k, va := x.rd.wide o 0
         desc := none, clk0 := s.clk, rt0 := s.rt, tmo := if x.num b = 2 ^ 32 - 1 then none else some (x.num b)
         mtab := [], src := [], got := [], res := none, page := none, layer := none, fate := .open }) } : State).tokenNext a h
       (a.op s0 .coll [] .coll)))

/-- R382, R384, R404: `trap` takes a trap with its immediate as TVAL and the next address as TEPC. R385, R406: `rti`
in a handler whose operations have completed waits 16 clk; then, with the frame whole, it restores the interrupted
path at TEPC with the frame's mask, the stack and the normal bank. -/
def Obligations.TrapsAndReturnsComplete : Prop :=
  (∀ h imm s a pa p s1, Ready s a h [] → a.tm.inH = false → thV (s.ctx a.tm.ctx).thcfg = true →
     let s0 := ((s.issued a).drain a.t).modTeam a.t (fun tm => { tm.setPath a.f { tm.path a.f with hold := .free } with
       pendTrap := some { frag := a.f, cause := .trap, sub := 0, val := imm.signExtend 64, epc := (a.path.pc + 12).setWidth 56 } })
     s0.look a.tm.ctx a.tm.tfr.toNat true = (.ok pa p, s1) → s1.hole = false →
     ∃ t, exec (.trap h imm) s = .next t ∧ TrapEnters s t a.t a.f .trap 0 (imm.signExtend 64) (a.path.pc + 12)) ∧
  ((∀ h s a, Ready s a h [] → a.tm.inH = true → a.tm.tepc.toNat % 4 = 0 →
     (s.issued a).ops.any (fun o => o.2.team = a.t && o.2.inH) = false →
     ∃ t, exec (.rti h) s = .next t ∧ WaitsIn t a (.rti h) 1) ∧
   (∀ h s a e w due y spill fexm stack s1, Within s a (.rti h) e w → w.stage = 1 → w.cap = [due] → a.tm.inH = true → a.tm.tepc.toNat % 4 = 0 →
     due ≤ s.clk → a.tm.intr = some y → y.frag = a.f →
     (s.resumed a).readFrame a.tm w.fate = (.got spill fexm stack, s1) → s1.hole = false →
     fexm &&& y.path.pmask &&& ~~~a.tm.exited ≠ 0 →
     ∃ t tm, exec (.rti h) s = .next t ∧ tget t.teams a.t = some tm ∧ tm.inH = false ∧ tm.stack = stack ∧
       tm.spill = spill ∧ (tm.path a.f).pc = a.tm.tepc.setWidth 64 ∧
       (tm.path a.f).exm = fexm &&& y.path.pmask &&& ~~~a.tm.exited ∧ (tm.path a.f).pmask = y.path.pmask ∧
       tm.intr = none ∧ tm.tokN = a.tm.tokN))

/-- R405: `brk` halters its team with cause BRK: TVAL takes the immediate, PC the next address; in a handler it
halters in the same way. -/
def Obligations.BreakHaltersTheTeam : Prop :=
  ∀ (h : Hdr) (imm : BitVec 20) (s : State) (a : At), Ready s a h [] →
    let s1 := (s.issued a).modTeam a.t (fun tm =>
      { a.next h s.clk 0 (tm.queue (a.posts h (s.clk + 2))) with tval := imm.signExtend 64 })
    let t := s1.haltTeam a.t a.f 2 0 0 0 (imm.signExtend 64) (a.path.pc + 12)
    t.hole = false →
      exec (.brk h imm) s = .next t ∧
      (rqEn s.hqcfg = true → ∃ tm y, tget t.teams a.t = some tm ∧ tm.life = .haltered ∧ tm.tval = imm.signExtend 64 ∧
        tm.hval = imm.signExtend 64 ∧ (tm.path a.f).pc = a.path.pc + 12 ∧ tm.v = a.tm.v ∧ tm.s = a.tm.s ∧ tm.p = a.tm.p ∧
        tm.stack = a.tm.stack ∧ tm.tokN = a.tm.tokN ∧ tm.tokT = a.tm.tokT ∧
        y ∈ t.halters ∧ y.mst = .team a.t ∧ y.hc = 2 ∧ y.inh = a.tm.inH ∧ y.pc = (a.path.pc + 12).setWidth 56) ∧
      (Instr.brk h imm).fields = some { Fields.enc h 0xE4 0 0 with imm := imm }

/-- R101, R117, R354: a STALL or `dly` countdown that has run out ends, and one that has not stays; a held load whose
layer has been away for HTMO gets the fate TIMEOUT. R136, R324, R325: a held `rjoin.to` whose time is over writes true
to D and goes on behind itself; a held `waitc` goes on with D false when its conditions hold, and with D true when
they do not and its timer has expired in an earlier clk, or expired while the team was parked (R34); a held `yield` goes to its continuation when a condition
holds. That an event in the clk of expiry comes first is the model's reading (log entry 23). -/
def Obligations.HeldInstructionsExpireAndEnd : Prop :=
  ((∀ (s : State) (t : Nat) (f : Bool) (tm : Team) (n : Nat), s.hole = false → tget s.teams t = some tm →
     tm.runs f = true → n ≤ s.clk →
     ((tm.path f).cd = .dly n → exec (.dlyExpiry t f) s =
       .next (s.modTeam t (fun tm => tm.setPath f { tm.path f with cd := .none }))) ∧
     ((tm.path f).cd = .stall n → exec (.stallExpiry t f) s =
       .next (s.modTeam t (fun tm => tm.setPath f { tm.path f with cd := .none })))) ∧
   (∀ (s : State) (t : Nat) (f : Bool) (tm : Team) (n : Nat), s.hole = false → tget s.teams t = some tm → s.clk < n →
     ((tm.path f).cd = .dly n → exec (.dlyExpiry t f) s = .next s) ∧
     ((tm.path f).cd = .stall n → exec (.stallExpiry t f) s = .next s)) ∧
   (∀ (s : State) (t : Nat) (f : Bool) (tm : Team) (i : Instr) (c0 r0 : Nat) (cap : List Nat) (st : Nat) (pg : List Nat)
       (l : Nat) (y : Layer), s.hole = false → tget s.teams t = some tm →
     (tm.path f).hold = .inside i c0 r0 cap st pg (some l) .open → s.layerOf tm.ctx l = some y →
     (y.st = .arriving ∨ y.st = .absent) → s.htmo tm.ctx ≠ 0 → s.pastTmo c0 r0 (s.htmo tm.ctx) = true →
     exec (.loadHoldTimeout t f) s = .next (s.modTeam t (fun tm =>
       tm.setPath f { tm.path f with hold := .inside i c0 r0 cap st pg (some l) .timeout })))) ∧
  ((∀ (h : Hdr) (d : BitVec 3) (o : Opnd) (s : State) (a : At) (e : Mask) (w : Held),
     Within { s with cur := some (a.t, a.f, false) } a (.rjoinTo h d o) e w →
     (a.tm.path (!a.f)).ended = false → (a.tm.path (!a.f)).atJoin = false →
     s.pastTmo w.clk0 w.rt0 (w.cap.headD 0) = true →
     ∃ t tm, exec (.rjoinTimeoutExpiry a.t a.f) s = .next t ∧ GoneOn t a ∧ tget t.teams a.t = some tm ∧
       (d ≠ 7 → (tm.pred d.toNat).t &&& a.path.exm = a.path.exm ∧ (tm.pred d.toNat).d &&& a.path.exm = 0)) ∧
   (∀ (h : Hdr) (d : Option (BitVec 3)) (o b : Opnd) (n : BitVec 2) (all : Bool) (s : State) (a : At) (e : Mask) (w : Held)
       (bs : List Bool) (s1 : State),
     let i : Instr := if all then .waitcAll h d o b n else .waitcAny h d o b n
     let s0 : State := { s with cur := some (a.t, a.f, false) }
     let held : Bool := if all then bs.all id else bs.any id
     Within s0 a i e w →
     (s0.viewIn a h e w).evalBlock (condsOf w.cap.tail) (s0.resumed a) = (.truth bs, s1) → s1.hole = false →
     (w.stage = 0 → held = true → a.pathWaits s1 Op.reads = false →
       ∃ t tm, exec (.waitcSatisfied a.t a.f) s = .next t ∧ GoneOn t a ∧ tget t.teams a.t = some tm ∧
         ∀ p, d = some p → p ≠ 7 → (tm.pred p.toNat).t &&& e = 0 ∧ (tm.pred p.toNat).d &&& e = 0) ∧
     (w.stage = 0 → held = false → (w.cap.headD 0 = 0 ∨ s1.pastTmo w.clk0 w.rt0 (w.cap.headD 0) = true) →
       w.cap.headD 0 ≠ 2 ^ 32 - 1 →
       ∃ t tm, exec (.waitcTimeoutExpiry a.t a.f) s = .next t ∧ GoneOn t a ∧ tget t.teams a.t = some tm ∧
         ∀ p, d = some p → p ≠ 7 → (tm.pred p.toNat).t &&& e = e ∧ (tm.pred p.toNat).d &&& e = 0)) ∧
   (∀ (h : Hdr) (d : Option (BitVec 3)) (o b : Opnd) (n : BitVec 2) (all : Bool) (s : State) (a : At) (e : Mask) (w : Held),
     let i : Instr := if all then .waitcAll h d o b n else .waitcAny h d o b n
     Within { s with cur := some (a.t, a.f, false) } a i e w → w.stage = 1 →
     ∃ t tm, exec (.waitcTimeoutExpiry a.t a.f) s = .next t ∧ GoneOn t a ∧ tget t.teams a.t = some tm ∧
       ∀ p, d = some p → p ≠ 7 → (tm.pred p.toNat).t &&& e = e ∧ (tm.pred p.toNat).d &&& e = 0) ∧
   (∀ (h : Hdr) (o : Opnd) (n : BitVec 2) (disp : BitVec 20) (s : State) (a : At) (e : Mask) (w : Held) (bs : List Bool)
       (s1 : State),
     let s0 : State := { s with cur := some (a.t, a.f, false) }
     Within s0 a (.yield h o n disp) e w → w.stage < 2 →
     (s0.viewIn a h e w).evalBlock (condsOf w.cap) (s0.resumed a) = (.truth bs, s1) → bs.any id = true →
     a.pathWaits s1 Op.reads = false → s1.hole = false →
     ∃ t tm, exec (.yieldReactivation a.t a.f) s = .next t ∧ tget t.teams a.t = some tm ∧
       (tm.path a.f).pc = a.path.pc + (disp.signExtend 64 <<< 2) ∧ (tm.path a.f).hold = .free))

/-- R106-R108, R277, R286, R431: an operation that is done, was issued in an earlier clk and is first in its unit's
order completes: its registers are written, and its token is posted for the next clk; a failed one posts its error and
writes nothing; an older load reads at its end. A side-log entry with no older one of its line is replayed. An
exchange whose time is over fails with TIMEOUT. When an operation may complete, and when a timer is over, are the
model's readings (log entries 2, 23). -/
def Obligations.OperationsComplete : Prop :=
  (∀ (s : State) (id : Nat) (o : Op) (tm : Team), s.hole = false → tget s.ops id = some o → o.at_ < s.clk →
    tget s.teams o.team = some tm → s.postOrder id = true →
    ((o.cunit = .resid ∨ o.cunit = .coll ∨ o.cunit = .tandem ∨ o.cunit = .dec) → s.spilledOp o = false) → o.casPid = none →
    (∀ us, o.work = .done us → (s.opFinish id us none).hole = false →
      exec (.tokenCompletion id) s = .next (s.opFinish id us none)) ∧
    (∀ c, o.work = .fail c → (s.opFinish id [] (some c)).hole = false →
      exec (.tokenCompletion id) s = .next (s.opFinish id [] (some c))) ∧
    (∀ via ty d n accs us s1, o.work = .load via ty d n accs → s.behind o.team id o.work.chunks = false →
      s.unlinked tm o.work = false → s.doLoad (tm.asOf id o) via ty d n accs = (.done us, s1) →
      (s1.opFinish id us none).hole = false → exec (.tokenCompletion id) s = .next (s1.opFinish id us none))) ∧
  (∀ (s : State) (id : Nat) (o : Op), tget s.ops id = some o → s.clk ≤ o.at_ → s.hole = false →
    exec (.tokenCompletion id) s = .next s) ∧
  (∀ (s : State) (core : Nat) (e : SideEntry), (s.core core).side.find? (fun y => y.id = e.id) = some e →
    (∀ y ∈ (s.core core).side, y.ctx = e.ctx → y.vline = e.vline → e.id ≤ y.id) →
    s.faulting e.ctx (e.vline * 128 / 4096) = false → (s.replay core e).hole = false →
    exec (.sideLogReplay core e.id) s = .next (s.replay core e)) ∧
  (∀ (s : State) (id : Nat) (o : Op) (pair : Nat) (em : Mask) (d n : Nat) (rows : List Row) (rt0 t : Nat),
    s.hole = false → tget s.ops id = some o → o.work = .txch pair em d n rows rt0 (some t) →
    s.pastTmo o.at_ rt0 t = true →
    exec (.txchTimeout id) s = .next { s with ops := tmod s.ops id (fun o => { o with work := .fail 5 }) })

/-- R106, R108: what `opFinish` does to the team of an operation with a token and without clashes: each write lands,
in order, and the completion is posted for the next clk; the operation is gone. -/
def Obligations.CompletionLandsAndPosts : Prop :=
  ∀ (s : State) (id : Nat) (o : Op) (tm : Team) (us : List Upd) (b : Bank) (k : Nat) (err : Option Nat),
    tget s.ops id = some o → tget s.teams o.team = some tm → o.clash = [] → o.post = some (b, k) →
    tm.task = none → tm.life = .resident →
    let s1 := (if err.isNone then us else []).foldl (fun s u => State.landUpd s o.team o.pid u) { s with ops := tdel s.ops id }
    ∃ tm1, tget s1.teams o.team = some tm1 ∧
      tget (s.opFinish id us err).teams o.team = some { tm1 with pend := tm.pend ++ [⟨s.clk + 1, 0, .post b k err⟩] } ∧
      (s.opFinish id us err).ops = s1.ops ∧ tget s1.ops id = none ∧ (s.opFinish id us err).mem = s.mem

/-- R296-R300, R305: a copy command that is neither new nor held goes on by a line operation: where its context has the
turn for a copy slot, it reads a line of its source, and it writes a line of its destination once all that it brings there
has been read; with no line operation left, and no peer to wait for, it completes, with POISON if a line that it read was
poisoned; one that has failed completes with its cause. The decompressor goes on by one block: it waits while its ring is
full, and writes a good block to its slot. When a command acts is the script's choice (log entry 2); what a poisoned copy
still writes is the model's reading (log entry 27). -/
def Obligations.EnginesGoOn : Prop :=
  (∀ (s : State) (gid n line : Nat) (g : Group) (m : CopyCmd), s.group gid = some g →
    g.copy.cmds.find? (fun y => y.num = n) = some m → g.copy.halted = false → s.copyFree g.ctx m = true →
    (∀ crc, m.kind = .last crc → g.copy.outOf m.chain m.num = []) →
    (∀ e, m.failed = some e → (s.copyEnd gid m (some e)).hole = false →
      exec (.copyCommandComplete gid ⟨n, line⟩) s = .next (s.copyEnd gid m (some e))) ∧
    (m.failed = none → m.fate = .open →
      (∀ l ks c1 s1 bs s2, m.acts[line]? = some (.read l) → s.slotTurn g.core gid = true →
        s.engResolve g.ctx gid false [] (partRuns (fun x => x.src) (m.parts.filter (LineAct.of (.read l)))) = (.ok ks, c1, s1) →
        s1.engReadAll (some g.ctx) ks = (bs, s2) → s2.hole = false →
        exec (.copyCommandComplete gid ⟨n, line⟩) s = .next ((s2.modCore g.core (fun k => { k with slot := some gid })).modCmd gid n
          (fun m => { m with parts := fillParts (LineAct.of (.read l)) m.parts bs, page := none, layer := none, fate := .open }))) ∧
      (∀ l ks c1 s1, m.acts[line]? = some (.write l) →
        s.engResolve g.ctx gid true [] (partRuns (fun x => x.dst) (m.parts.filter (LineAct.of (.write l)))) = (.ok ks, c1, s1) →
        let ws := splitBytes ks (partBytes (m.parts.filter (LineAct.of (.write l))))
        let t := ((s1.engWrite g.ctx m.ses.isNone ws).copyBytes gid m (engCount ws)).modCmd gid n (fun m => { m with
          parts := m.parts.map (fun p => if LineAct.of (.write l) p then { p with done := true } else p)
          page := none, layer := none, fate := .open })
        t.hole = false → exec (.copyCommandComplete gid ⟨n, line⟩) s = .next t) ∧
      (m.acts = [] → m.ses = none → (s.copyEnd gid m m.result).hole = false →
        exec (.copyCommandComplete gid ⟨n, line⟩) s = .next (s.copyEnd gid m m.result)) ∧
      (∀ ses bs, m.acts = [] → m.ses = some ses → m.kind = .put → m.size ≠ 0 → m.answer = some bs →
        ((s.copyBytes gid m m.size).copyEnd gid m m.result).hole = false →
        exec (.copyCommandComplete gid ⟨n, line⟩) s = .next ((s.copyBytes gid m m.size).copyEnd gid m m.result)))) ∧
  (∀ (s : State) (gid : Nat) (g : Group) (st : Stream) (r : List Stream), s.group gid = some g →
    g.dec.streams = st :: r → g.dec.halted = false → g.dec.susp = false → g.spilled = false → g.dec.at_ < s.clk → s.hole = false →
    (∀ o, tget s.ops st.op = some o → o.at_ < s.clk) → (∀ p, st.page = some p → s.faulting g.ctx p = false) →
    let now := g.phase (ringEbid st.ring)
    let p0 := st.p0.getD now
    let st1 : Stream := { st with p0 := some p0 }
    let s0 := if st.p0.isNone then s.modGroup gid (fun g => { g with dec := { g.dec with blk := 0 } }) else s
    (ringSlots st.ring ≤ st.blk → (now - p0).toNat < st.blk - ringSlots st.ring + 1 →
      exec (.dczBlock gid) s = .next (s0.modStream gid (fun _ => st1))) ∧
    (∀ ks c1 s1 hb s2 ks' c2 s3 pb s4 out, (st.blk < ringSlots st.ring ∨ st.blk - ringSlots st.ring + 1 ≤ (now - p0).toNat) →
      st.fate = .open →
      s0.engResolve g.ctx gid false [] (engRuns st.next 16) = (.ok ks, c1, s1) → s1.engReadAll (some g.ctx) ks = (hb, s2) →
      let hd := ofBytes (hb.map (fun b => b.x))
      hb.any (fun b => b.bad) = false → hdrBad hd (ringSlot st.ring) = false →
      s2.engResolve g.ctx gid false [] (engRuns (st.next + 16) (hdrIn hd)) = (.ok ks', c2, s3) →
      s3.engReadAll (some g.ctx) ks' = (pb, s4) → pb.any (fun b => b.bad) = false →
      decodeBlock hd (pb.map (fun b => b.x)) = (out, 0) → crc32c out = hdrCrc hd →
      let t := s4.blockEnd gid st1 out none 0 (hdrLast hd) (alignUp (st.next + 16 + hdrIn hd) 16)
      t.hole = false → exec (.dczBlock gid) s = .next t))

/-- R441: a contribution over a session that is up and allows collectives counts in the root's round, or waits for it;
a member whose time is over without a result fails with TIMEOUT, and the root's round ends then; a member that
contributed takes the round's result. What a contribution outside any round meets is a reading of the spec (log entry
9). -/
def Obligations.CollectiveRoundsGoOn : Prop :=
  (∀ (s : State) (n rank : Nat) (msg : CollMsg), s.hole = false → (s.session n).st = 2 → (s.session n).halted = false →
    (s.session n).mayColl = true →
    let s1 := s.rimTook n (4 * msg.elems.length)
    (s.collRoot (s.session n).ctx msg.seq = none → (s.session n).closed.contains msg.seq = false →
      (s.session n).held.length < 64 →
      exec (.collContribution n rank msg) s = .next (s1.modSession n (fun x => { x with held := x.held ++ [msg] }))) ∧
    (∀ id, s.collRoot (s.session n).ctx msg.seq = some id → (s1.collTake id n rank msg).hole = false →
      exec (.collContribution n rank msg) s = .next (s1.collTake id n rank msg))) ∧
  (∀ (s : State) (id : Nat) (k : Coll) (d : CollDesc), tget s.colls id = some k → k.desc = some d → k.res = none →
    s.collPast k = true →
    (CollDesc.rank d ≠ CollDesc.root d → (s.collEnd id (some 5)).hole = false →
      exec (.collTimerExpiry id) s = .next (s.collEnd id (some 5))) ∧
    (CollDesc.rank d = CollDesc.root d → (s.collClose id k d).hole = false →
      exec (.collTimerExpiry id) s = .next (s.collClose id k d))) ∧
  (∀ (s : State) (id cmask : Nat) (es : List (BitVec 32)) (k : Coll) (d : CollDesc), s.hole = false →
    tget s.colls id = some k → k.desc = some d → k.res = none → CollDesc.rank d ≠ CollDesc.root d →
    s.collPast k = false → cmask < 2 ^ 64 → cmask.testBit (CollDesc.rank d) = true →
    es.length = (if k.kind = 2 then CollDesc.nmem d else 1) * CollDesc.count d →
    (∀ p, (k.peers d).find? (fun p => decide (p.1 = CollDesc.root d)) = some p →
      exec (.collResult id cmask es) s = .next ((s.rimTook p.2 (4 * es.length)).modColl id (fun k =>
        { k with res := some (cmask, es.map (fun w => if k.bf then w &&& 0xFFFF0000 else w)) }))) ∧
    ((k.peers d).find? (fun p => decide (p.1 = CollDesc.root d)) = none →
      exec (.collResult id cmask es) s = .next (s.modColl id (fun k =>
        { k with res := some (cmask, es.map (fun w => if k.bf then w &&& 0xFFFF0000 else w)) }))))

/-- R212, R213: once a clk, the unit takes the head of the next quadrant whose head it may take; `mtd` and `msd` complete
with it, the others stand behind those that it has accepted. R215-R217: the oldest request takes a free lease, with its saved
tiles or clear ones, when no tile command of another group is left in the unit; once the commands of the outgoing bank
are done, a save keeps the tiles of its holder, and frees the lease. R235: CLRE clears EVT. -/
def Obligations.MatrixUnitAccepts : Prop :=
  (∀ (s : State) (core q : Nat) (c : MCmd), s.hole = false →
    let s0 := s.askAgain core
    let m := (s0.core core).mx
    (m.accAt = some s0.clk → exec (.matrixCommandAccept core) s = .next s0) ∧
    (m.accAt ≠ some s0.clk → m.order.find? (fun q => (m.takes q).isSome) = some q → m.takes q = some c → m.fail = false →
    let c1 : MCmd := { c with g5 := (s0.core core).mxcfg.getLsbD 1 }
    let s1 := s0.modMx core (fun m =>
      { m with queues := tset m.queues q (m.queue q).tail, rr := (q + 1) % 4, accAt := some s0.clk })
    ((∀ h d o b, c.i ≠ .mtd h d o b) → (∀ h d o en, c.i ≠ .msd h d o en) → (∀ h k, c.i ≠ .mz h k true) →
      exec (.matrixCommandAccept core) s = .next (s1.modMx core (fun m => { m with acc := m.acc ++ [c1] }))) ∧
    (∀ h k, c.i = .mz h k true → exec (.matrixCommandAccept core) s =
      .next (s1.modMx core (fun m => { m with acc := m.acc ++ [c1], rel := some c.op }))) ∧
    ((∃ h d o b, c.i = .mtd h d o b) ∨ (∃ h d o en, c.i = .msd h d o en) → (s1.mxEnd c.op [] none).hole = false →
      exec (.matrixCommandAccept core) s = .next (s1.mxEnd c.op [] none)))) ∧
  (∀ (s : State) (core : Nat) (r : LeaseReq) (g : Group), s.hole = false → (s.core core).mx.holder = none →
    s.leaseWaits core = [r] → tget s.groups r.group = some g →
    (∀ c ∈ (s.core core).mx.acc, isTile c.i = true → c.group = r.group) →
    ∃ t g', exec (.leaseGrant core) s = .next t ∧ (t.core core).mx.holder = some r.group ∧
      (t.core core).mx.rel = none ∧ (t.core core).mx.tiles = g.saved.getD [] ∧ tget t.groups r.group = some g' ∧ g'.saved = none ∧
      (∀ w ∈ (t.core core).mx.waiting, w.group ≠ r.group)) ∧
  (∀ (s : State) (core g : Nat) (b : Bool) (x : Group), s.hole = false → (s.core core).mx.saving = some b →
    (s.core core).mx.holder = some g → s.inBank core g b = true → tget s.groups g = some x →
    (∀ c ∈ (s.core core).mx.acc, s.inBank core c.group b = false) →
    (∀ q ∈ (s.core core).mx.queues, ∀ c ∈ q.2, s.inBank core c.group b = false) →
    ∃ t, exec (.tileSpill core) s = .next t ∧ (t.core core).mx.holder = none ∧ (t.core core).mx.saving = none ∧
      tget t.groups g = some { x with saved := some (s.core core).mx.tiles }) ∧
  (∀ (s : State) (core : Nat) (v : Dword), s.hole = false → core < 128 → s.present (core / 16) = true →
    v.getLsbD 2 = true → ∃ t, exec (.mxcfgClre core v) s = .next t ∧ (t.core core).mxcfg = v &&& 3 ∧
      (t.core core).mx = { (s.core core).mx with evt := 0 })

/-- R213, R227, R239-R244: the oldest accepted command that waits for no page executes: `mz` clears its tiles; `mma`
without a mismatch fetches its next K-block, with the scale bytes at the first, and, when all are in, computes, with scale
bytes that are each as they were or as they are now (R225); `mrd` of whole rows, `mwr`, `mst` and `mstat` act as their
rules say; then the command leaves the unit. That the pins of a K-block and its products take no step of their own is the
model's (log entry 28). -/
def Obligations.MatrixCommandsExecute : Prop :=
  ∀ (s : State) (core : Nat) (c : MCmd) (r : List MCmd) (g : Group), (s.core core).mx.acc = c :: r →
    tget s.groups c.group = some g → (∀ p, c.page = some p → s.faulting g.ctx p = false) →
    (∀ h mask rel, c.i = .mz h mask rel →
      let t := ((((List.range 16).filter (fun t => mask.getLsbD t)).foldl (fun s t => s.setTiles core t [.zero]) s).mxEnd
        c.op [] none).mxPop core
      t.hole = false → exec (.matrixCommandExecute core []) s = .next t) ∧
    (∀ h ty k d a b tA tB, c.i = .mma h ty k d a b tA tB →
      let c0 : MCmd := { c with spoilt := if c.g5 then c.spoilt.eraseDups else [] }
      s.scaleEcc c0 = false →
      (c0.blk < c0.blocks → ∀ ls s1, s.fetchBlock g.ctx core ty c0 = (.got ls, s1) →
        let c1 : MCmd := if c0.blk = 0 then
            { c0 with scA := s1.scaleBytes c.group c.tdA 128 c.tdA.cols, scB := s1.scaleBytes c.group c.tdB 256 c.tdB.rows }
          else c0
        let t := s1.modHead core { c1 with
          blk := c0.blk + 1, got := ls ++ c0.got, page := none, layer := none, fate := .open }
        t.hole = false → exec (.matrixCommandExecute core []) s = .next t) ∧
      (c0.blocks ≤ c0.blk →
        let c1 : MCmd := { c0 with
          scA := mixBytes s.free c.scA (s.scaleBytes c.group c.tdA 128 c.tdA.cols)
          scB := mixBytes (s.free + c.scA.length) c.scB (s.scaleBytes c.group c.tdB 256 c.tdB.rows) }
        let t := State.mmaRun { s with free := s.free + c1.scA.length + c1.scB.length } core c1 ty k d.toNat a b
          (tA.toNat + 1) (tB.toNat + 1)
        t.hole = false → exec (.matrixCommandExecute core []) s = .next t)) ∧
    (∀ h ty rr d a b n, c.i = .mrd h ty rr d a b n → (s.runMrd core c ty rr d.toNat a.toNat (n.toNat + 1)).hole = false →
      exec (.matrixCommandExecute core []) s = .next (s.runMrd core c ty rr d.toNat a.toNat (n.toNat + 1))) ∧
    (∀ h ty d a b n, c.i = .mwr h ty d a b n → (s.runMwr core c ty d.toNat (n.toNat + 1)).hole = false →
      exec (.matrixCommandExecute core []) s = .next (s.runMwr core c ty d.toNat (n.toNat + 1))) ∧
    (∀ h ty rr d a, c.i = .mst h ty rr d a → (s.runMst core c ty rr a.toNat).hole = false →
      exec (.matrixCommandExecute core []) s = .next (s.runMst core c ty rr a.toNat)) ∧
    (∀ h d sel b, c.i = .mstat h d sel b → (s.runMstat core c d sel.toNat).hole = false →
      exec (.matrixCommandExecute core []) s = .next (s.runMstat core c d sel.toNat))

/-- R345, R348, R349, R351, R353: the engine starts the first request; with frames free it walks the layer's pages and
fetches its image, and otherwise waits for the accesses that use a translation which its evictions dropped; a local image that has arrived whole makes its layer RESIDENT, one with a bad CRC after three retries FAILED; an outside
cause fails an arrival, and with it every access that is held on the layer. R346: a write of a residency word sets PIN, and turns FAILED to ABSENT. R341: MDESC of a
context with no launch queued and no team takes a model whose descriptor is well formed and whose number no other
context has, with ERR 0; a malformed one leaves V 0 and ERR MALFORMED, a number in use ERR DUPNUM; V = 0 turns the
model off. A context in use keeps what it has, with ERR BUSY. What counts as a queued launch is the model's reading
(log entry 15). -/
def Obligations.LayersArriveAndModelsChange : Prop :=
  ((∀ (s : State) (r : SwapReq) (rs : List SwapReq) (y : Layer) (fs : List Nat), s.leaving = none → s.arrivals < 16 →
     s.startOrder = r :: rs → s.layerOf r.ctx r.layer = some y → y.np ≤ ((List.range 8).flatMap s.pool).length →
     s.plan r (((List.range 8).flatMap s.pool).length + 1) y.np [] = some [] → s.takeFrames y.np s.framesUsed = some fs →
     let s1 := (s.unqueue r).modLayer r.ctx r.layer (fun y => { y with frames := fs, rtry := 0 })
     let t := if s1.noPte r.ctx r.layer y then s1.layerFail r.ctx r.layer 5
       else s1.fetchImage r.ctx r.layer { y with frames := fs }
     t.hole = false → exec .swapRequestStart s = .next t) ∧
   (∀ (s : State) (v : Leaving), s.hole = false → s.leaving = some v → (∃ n ∈ v.ops, (tget s.ops n).isSome = true) →
     exec .swapRequestStart s = .next s) ∧
   (∀ (s : State) (c l : Nat) (y : Layer), s.layerOf c l = some y → y.st = .arriving → y.frames ≠ [] → y.src ≠ 2 →
     (∀ n ∈ linesOver y.saddr y.size, n ∉ s.poison) →
     let bs := cellsGet s.mem y.saddr y.size
     let s1 := s.writeImage y (s.pagesBnd c y.pages) 0 (bs ++ List.replicate (y.np * 2 ^ 21 - y.size) 0)
     (crc32c bs = y.crc → (s1.layerResident c l y).hole = false →
       exec (.layerArrivalComplete c l) s = .next (s1.layerResident c l y)) ∧
     (crc32c bs ≠ y.crc → y.rtry = 3 → (s1.layerFail c l 1).hole = false →
       exec (.layerArrivalComplete c l) s = .next (s1.layerFail c l 1))) ∧
   (∀ (s : State) (c l k : Nat) (y : Layer), s.hole = false → s.layerOf c l = some y → y.st = .arriving → y.src ≠ 2 →
     (k = 2 ∨ k = 4 ∨ k = 7) →
     ∃ t, exec (.layerArrivalFailure c l k) s = .next t ∧
       t.layerOf c l = some { y with st := .failed, fcause := k, frames := [] } ∧
       (∀ r ∈ t.swaps, ¬ (r.ctx = c ∧ r.layer = l)) ∧
       (∀ id o, tget s.ops id = some o → o.work = .lbind c l → ∃ o', tget t.ops id = some o' ∧ o'.work = .fail 2) ∧
       (∀ n tm, tget s.teams n = some tm → tm.ctx = c → ∃ tm', tget t.teams n = some tm' ∧
         ∀ f, (tm'.path f).hold = (tm.path f).hold.failLayer l)) ∧
   (∀ (s : State) (c l : Nat) (v : Dword), s.hole = false →
     exec (.residencyWordWrite c l v) s = .next (s.modLayer c l (fun y =>
       if y.st = .failed ∧ v.toNat % 4 = 0 then { y with pin := bitsOf v.toNat 32 16, st := .absent, fcause := 0, rtry := 0 }
       else { y with pin := bitsOf v.toNat 32 16 })))) ∧
  ((∀ (s : State) (c : Nat) (v : Dword), c < 64 → s.ctxBusy c = false → v.getLsbD 63 = true →
     let pa := bitsOf v.toNat 5 47 * 32
     let s1 := (s.dropModel c).touch pa 32
     (s1.readModel pa = none → s1.hole = false → exec (.mdescWriteEnable c v) s = .next (s1.setMdesc c false 1 pa)) ∧
     (∀ m, s1.readModel pa = some m → let s2 := s1.touch (pa + 32) (32 * m.layers.length)
       s2.hole = false →
       ((∃ k ∈ s2.models, k.2.mnum = m.mnum) → exec (.mdescWriteEnable c v) s = .next (s2.setMdesc c false 3 pa)) ∧
       ((∀ k ∈ s2.models, k.2.mnum ≠ m.mnum) → exec (.mdescWriteEnable c v) s =
         .next (State.setMdesc { s2 with models := tset s2.models c m } c true 0 pa)))) ∧
   (∀ (s : State) (c : Nat) (v : Dword), c < 64 → s.ctxBusy c = false → v.getLsbD 63 = false → (s.dropModel c).hole = false →
     exec (.mdescWriteDisable c v) s = .next ((s.dropModel c).setMdesc c false 0 (bitsOf v.toNat 5 47 * 32))) ∧
   (∀ (s : State) (c : Nat) (v : Dword), s.hole = false → c < 64 → s.ctxBusy c = true →
     let t := s.modCtx c (fun r => { r with mdesc := BitVec.ofNat 64 (setBits r.mdesc.toNat 60 3 2) })
     (v.getLsbD 63 = true → exec (.mdescWriteEnable c v) s = .next t) ∧
     (v.getLsbD 63 = false → exec (.mdescWriteDisable c v) s = .next t)))

/-- R335-R337, R382, R391: RETRY ends a fault, so that its requesters walk again; DECLINE, and FTMO without an answer,
end it declined for each of them; a trap entry whose frame page is mapped by now goes on. RELEASE lets a haltered team
go on where it stands; DISCARD takes it away; a rollback that is due wins over both (R402), and an answer for a core
that the spare is taking over waits for it (R429). -/
def Obligations.AnswersToFaultsAndHalters : Prop :=
  (∀ (s : State) (c va : Nat) (x : PFault), s.faultOf c va = some x → s.hole = false →
    exec (.frespRetry c va) s = .next (s.faultDel c va) ∧
    (((s.faultDel c va).declineAll c (va / 4096)).hole = false →
      exec (.frespDecline c va) s = .next ((s.faultDel c va).declineAll c (va / 4096)) ∧
      (fqTmo s.fqcfg ≠ 0 → s.pastTmo 0 (x.rt0.getD 0) (fqTmo s.fqcfg * 1024) = true →
        exec (.faultAnswerTimeout c va) s = .next ((s.faultDel c va).declineAll c (va / 4096))))) ∧
  (∀ (s : State) (t : Nat) (tm : Team) (x : PendTrap) (pa : Nat) (p : Quad) (s1 : State), tget s.teams t = some tm →
    tm.pendTrap = some x → tm.life = .resident → s.stopped tm = false → s.faulting tm.ctx (tm.tfr.toNat / 4096) = false →
    s.look tm.ctx tm.tfr.toNat true = (.ok pa p, s1) → s1.hole = false →
    ∃ t', exec (.trapEntry t) s = .next t' ∧ TrapEnters s t' t x.frag x.cause x.sub x.val (x.epc.setWidth 64)) ∧
  (∀ (s : State) (h : Halter) (t : Nat) (tm : Team), s.halters.find? (fun y => y.hid = h.hid) = some h → h.mst = .team t →
    tget s.teams t = some tm →
    ((s.undoOf h.ctx).due = true → s.hole = false →
      exec (.hrespRelease h.hid) s = .next s ∧ exec (.hrespDiscard h.hid) s = .next s) ∧
    ((s.undoOf h.ctx).due = false → s.takeoverDue tm.core = true → s.hole = false →
      exec (.hrespRelease h.hid) s = .next { s with answers := s.answers ++ [(h.hid, true)] } ∧
      exec (.hrespDiscard h.hid) s = .next { s with answers := s.answers ++ [(h.hid, false)] }) ∧
    ((s.undoOf h.ctx).due = false → s.takeoverDue tm.core = false →
    (s.hole = false → exec (.hrespRelease h.hid) s = .next (State.modTeam
      { s with halters := s.halters.filter (fun y => y.hid ≠ h.hid) } t (fun _ =>
        { tm with life := State.freeLife { s with halters := s.halters.filter (fun y => y.hid ≠ h.hid) } tm }))) ∧
    (let t1 := State.discardTeam { s with halters := s.halters.filter (fun y => y.hid ≠ h.hid) } t
     t1.hole = false → exec (.hrespDiscard h.hid) s = .next t1)))

/-- R360, R361, R365, R369: a write of WI is taken; clearing HLT resumes the queue at RI, but for a halt of the same clk, which stands (R6). A processor that picks a
queue takes the packet at its RI, by its type, moves RI on, and the packet goes on as far as it can; a WAIT whose
conditions hold ends OK, or UPSTREAM after an error, and one whose time is over ends TIMEOUT. When a packet starts is
the script's choice (log entry 2). -/
def Obligations.QueuesServePackets : Prop :=
  (∀ (s : State) (q wi : Nat), q < 1024 → (s.queue q).en = false → s.hole = false →
    exec (.queueNotify q wi) s = .next (s.modQueue q (fun u => { u with wi := BitVec.ofNat 32 wi }))) ∧
  (∀ (s : State) (q : Nat), (s.queue q).halted = true → s.hole = false →
    (s.w1cNow (.hlt q) = true → exec (.qstatHltClear q) s = .next s) ∧
    (s.w1cNow (.hlt q) = false → (s.queueResume q).hole = false → exec (.qstatHltClear q) s = .next (s.queueResume q))) ∧
  (∀ (s : State) (q k : Nat) (ev : Instr),
    ((ev = .launchPacketStart q ∧ pkType k ≠ 2 ∧ pkType k ≠ 3 ∧ pkType k ≠ 4) ∨ (ev = .waitPacketStart q ∧ pkType k = 2) ∨
     (ev = .signalPacketStart q ∧ pkType k = 3) ∨ (ev = .ckptPacketStart q ∧ pkType k = 4)) →
    let s1 := s.pollSlot q
    s1.startable q = some k → s1.processorPick (q % 8) = some q →
    let u := s1.queue q
    let n := s1.undoOf u.ctx
    let v : Live := { idx := u.ri.toNat, pkt := toBytes k 64, st := s1.startSt q k, page := none, fate := .open }
    let s2 := s1.modQueue q (fun u => { u with ri := u.ri + 1, live := u.live ++ [v], page := none, fate := .open })
    let s3 : State := { s2 with
      procs := (tset s2.procs (q % 8) (q, s2.clk))
      undo := (if n.en then tset s2.undo u.ctx { n with replay := n.replay.tail } else s2.undo) }
    let t := ((s3.keepPacket u.ctx q (toBytes k 64)).liveStep q v).waitStep q false v
    t.hole = false → exec ev s = .next t) ∧
  (∀ (s : State) (q : Nat) (v : Live) (rt0 : Nat) (all bad : Bool) (page : Option Nat) (s1 : State),
    (s.queue q).live = [v] → v.st = .wait rt0 →
    s.waitLook (s.queue q).ctx v false (pkConds (ofBytes v.pkt)) = ((all, bad, page), s1) → s1.hole = false →
    (all = true → exec (.waitPacketEnd q) s = .next (s1.packetEnd q v.idx (if bad then 9 else 0))) ∧
    (all = false → bitsOf (ofBytes v.pkt) 448 32 ≠ 0 → s1.pastTmo 0 rt0 (bitsOf (ofBytes v.pkt) 448 32 * 1024) = true →
      exec (.waitPacketTimeout q) s = .next (s1.packetEnd q v.idx 10)))

/-- R25, R366, R374: the distributor places what comes next of the launch that it serves, and remembers that launch
for its priority. A launch without cluster, stack instance or gang places its next group on the first core, in the
cyclic order from its last, that the group fits, while that core's stack has taken no group in this clk; a cluster's groups follow in later clks, before
anything else. That they hold their stack meanwhile is the model's reading (log entry 22). -/
def Obligations.GroupsArePlaced : Prop :=
  (∀ (s : State) (l : Nat) (t : State), s.gangCheck.nextPlacement = some (l, t) → t.hole = false →
    exec (.groupPlacement l) s = .next { t with dist := tset t.dist (s.gangCheck.launchPrio l) l }) ∧
  (∀ (s : State) (l : Nat) (x : Launch) (u : Nat) (us : List Nat) (n : Nat), tget s.launches l = some x →
    x.order = u :: us → topOf x.levels 3 = none → x.perStack = none → x.perGang = none → s.gangHold = [] →
    (s.coresFor x none []).find? (fun n => s.fits n x) = some n →
    (s.stackBusy (n / 16) = true → s.placeNext l [] true = none) ∧
    (s.stackBusy (n / 16) = false → s.placeNext l [] true = some { s.placeGroup l x u n 0 none none with
      launches := tmod (s.placeGroup l x u n 0 none none).launches l
        (fun x => { x with order := x.order.filter (fun v => decide (v ≠ u)) }) })) ∧
  (∀ (s : State) (l : Nat) (x : Launch) (g n cl : Nat) (sb : Option Nat) (r : List (Nat × Nat × Nat × Option Nat)),
    s.launches = [(l, x)] → x.rest = (g, n, cl, sb) :: r → (s.undoOf x.ctx).due = false → s.takeoverDue n = false →
    tget s.placeAt (n / 16) ≠ some s.clk →
    s.nextPlacement = some (l, { s.placeGroup l x g n r.length (some cl) sb with
      launches := tmod (s.placeGroup l x g n r.length (some cl) sb).launches l (fun x => { x with rest := r }) }))

/-- R397-R402, R408: writing EN from 0 to 1 opens an interval; a checkpoint that is wanted opens the next one when
nothing of the context is active. An uncorrectable error of a place that counts (R426) is counted; it makes a context with
roll-back due for one, and corrupts the place without it; in L1, at its home or as an RDC holds it, it poisons the line
(R253), and in an undo region it fails the rollback. Rollback of a context in state 1 restores it, and of any other ends roll-back for it. Which events
open an interval is as in log entries 13 and 21. -/
def Obligations.RollbackEventsComplete : Prop :=
  (∀ (s : State) (c : Nat), s.hole = false → c < 64 → (s.undoOf c).en = false →
    exec (.rbcfgEnable c) s = .next (s.openInterval c)) ∧
  (∀ (s : State) (c : Nat), (s.undoOf c).en = true → (s.undoOf c).due = false → s.ckptWaits c = true →
    (∀ l ∈ (s.undoOf c).before, ∀ x, tget s.launches l = some x → x.complete = true) → s.activeOf c = [] →
    s.ctxLaunching c = [] → s.ctxWrites c = false → ((s.openInterval c).ckptEnd c).hole = false →
    exec (.intervalOpen c) s = .next ((s.openInterval c).ckptEnd c)) ∧
  (∀ (s : State) (c n : Nat) (site : ErrSite), s.siteOf c site = some n → (∀ k, site ≠ .matrix k) → (∀ k v, site ≠ .l1 k v) →
    let p : ErrUnit := .core (s.physOf n)
    let s1 := s.recordUnit p 2 0
    let s2 := if siteCounts site then s1.countError p else s1
    ((s2.undoOf c).en = true → (s2.ctxError c).hole = false →
      exec (.uncorrectableError c site) s = .next (s2.ctxError c)) ∧
    ((s2.undoOf c).en = false → (s2.corrupt c site).hole = false →
      exec (.uncorrectableError c site) s = .next (s2.corrupt c site))) ∧
  (∀ (s : State) (c n v : Nat), s.siteOf c (.l1 n v) = some n →
    let p : ErrUnit := .core (s.physOf n)
    let t := ((s.recordUnit p 2 0).countError p).modCore n (fun k => { k with l1 := k.l1.map (fun (l : L1Line) =>
      if l.ctx = c ∧ l.vline = v then { l with poison := true } else l) })
    t.hole = false → exec (.uncorrectableError c (.l1 n v)) s = .next t) ∧
  (∀ (s : State) (c h : Nat), s.hole = false → (s.undoOf c).st = 1 → 0 < (s.undoOf c).usedAt h →
    ∃ t, exec (.uncorrectableError c (.undo h)) s = .next t ∧ (t.undoOf c).st = 3 ∧
      (t.undoOf c).due = ((s.undoOf c).due || (s.undoOf c).en)) ∧
  (∀ (s : State) (c n k : Nat), homeOf (n * 128) = .stack k → s.present k = true → s.hole = false →
    ∃ t, exec (.uncorrectableError c (.line n)) s = .next t ∧ t.mem = s.mem ∧ n ∈ t.poison) ∧
  (∀ (s : State) (c k n : Nat), (tgetD s.caches.rdc k []).any (fun x => x.line = n) = true → s.hole = false →
    ∃ t, exec (.uncorrectableError c (.replica k n)) s = .next t ∧ t.mem = s.mem ∧ t.poison = s.poison ∧
      t.replicaBad k n = true) ∧
  (∀ (s : State) (c n k : Nat), s.siteOf c (.matrix k) = some n → (s.mxUnitFail n).hole = false →
    exec (.uncorrectableError c (.matrix k)) s = .next (s.mxUnitFail n)) ∧
  (∀ (s : State) (c : Nat), (s.undoOf c).due = true → (s.rollback c).hole = false →
    exec (.rollback c) s = .next (s.rollback c) ∧
    (s.answers = [] → ∀ t ∈ (s.rollback c).teams, t.2.ctx ≠ c) ∧
    (s.answers = [] → ∀ g ∈ (s.rollback c).groups, g.2.ctx ≠ c) ∧
    ((s.rollback c).undoOf c).due = false)

/-- R393-R396: SWAP, SPILL and FILL of a core in shadow mode that is not busy start its work; after 96 clk a swap
exchanges the banks, before a takeover that began later (R429); a spill that is ready seals its area and empties the parked bank; a fill whose CRC is right
brings the image back, one whose CRC is wrong loses it, and a fault changes nothing. What an area holds, and when a
spill or fill ends in FAULT, are the model's choices (log entry 8). -/
def Obligations.BankTransfersComplete : Prop :=
  (∀ (s : State) (n : Nat), s.hole = false → n < 128 → (s.core n).shadow = true → (s.core n).busy = false →
    exec (.shadowSwap n) s = .next (s.bankStart n (.swap s.clk)) ∧
    exec (.shadowSpill n) s = .next (s.bankStart n .spill) ∧
    exec (.shadowFill n) s = .next (s.bankStart n .fill)) ∧
  (∀ (s : State) (n c : Nat), (s.core n).bank = .swap c → c + 96 ≤ s.clk →
    (s.takeoverDue n = false ∨ s.swapFirst n = true) → (s.exchangeBanks n).hole = false →
    exec (.swapBankActivate n) s = .next (s.exchangeBanks n)) ∧
  (∀ (s : State) (n : Nat) (crc ok : Bool), s.hole = false → (s.core n).bank = .spill → s.spillReady n = true →
    (ok = true → (s.core n).image = none → (s.spillDo n).hole = false →
      exec (.spillFillComplete n crc ok) s = .next ((s.spillDo n).bankEnd n 0)) ∧
    (ok = false → exec (.spillFillComplete n crc ok) s = .next (s.bankEnd n 2))) ∧
  (∀ (s : State) (n : Nat) (gs : List Nat) (crc ok : Bool), s.hole = false → (s.core n).bank = .fill →
    (s.core n).image = some gs → s.parkedGroups n = [] →
    (ok = true → crc = true → exec (.spillFillComplete n crc ok) s = .next ((s.fillDo n gs).bankEnd n 0)) ∧
    (ok = true → crc = false → exec (.spillFillComplete n crc ok) s = .next ((s.imageLost n gs).bankEnd n 1)) ∧
    (ok = false → exec (.spillFillComplete n crc ok) s = .next (s.bankEnd n 2)))

/-- R417, R426-R429, R444: a corrected error of an existing unit, and a flit replay, are recorded and counted; a scrub
that finds an uncorrectable error records it and poisons the line, and any other changes nothing; the spare takes
over a logical core whose physical core is lasting once the operations of its teams have completed, after a bank swap that
was asked for before. What a scrub records is the model's choice (log entry 17). -/
def Obligations.ReliabilityEventsComplete : Prop :=
  (∀ (s : State) (u : ErrUnit) (info : Nat), s.hole = false → s.hasUnit u = true →
    (∀ n k p, u ≠ .link n k p) → (∀ n, u ≠ .spoke n) → (∀ p, u ≠ .rimPort p) → (∀ p, u ≠ .cxlPort p) →
    exec (.correctedError u info) s = .next ((s.recordUnit u 1 info).countError u)) ∧
  (∀ (s : State) (n k p : Nat), s.hole = false → s.present n = true →
    (k < 36 → p < 4 → exec (.flitReplay n ⟨k, p⟩) s = .next ((s.recordUnit (.link n k p) 6 0).countError (.link n k p))) ∧
    exec (.flitReplay n ⟨gwStop, 4⟩) s = .next ((s.recordUnit (.spoke n) 6 0).countError (.spoke n))) ∧
  (∀ (s : State) (l n : Nat) (bad : Bool), s.hole = false → homeOf (l * 128) = .stack n → s.present n = true →
    (bad = true → exec (.patrolScrub l bad) s = .next ((s.recordUnit (.hbm n) 2 (l * 128)).setPoison l true)) ∧
    (bad = false → exec (.patrolScrub l bad) s = .next s)) ∧
  (∀ (s : State) (n : Nat), s.takeoverDue n = true → s.swapFirst n = false → s.coreQuiet n = true →
    (∀ u ∈ s.undo, u.2.due = false) → (s.takeover n).hole = false → exec (.spareTakeover n) s = .next (s.takeover n))

/-- R435-R437: over a session that is UP, an intact frame clears the count of tag failures and, in the order of the
counters, takes effect: data of a read, a frame at most, the end of a write, or a refusal; one that was delivered before
does nothing more, one that comes early waits, and an acknowledgement has no turn; a bad tag counts, and the fourth in a row fails the session.
Late frames are sent again; one past the give-up time fails the session. A port that goes down or comes up is noted.
-/
def Obligations.RimFramesArrive : Prop :=
  (∀ (s : State) (n : Nat), s.hole = false → (s.session n).st = 2 →
    let s0 := s.modSession n (fun x => { x with fails := 0 })
    let s1 := s.modSession n (fun x => { x with fails := 0, rx := x.rx + 1 })
    (∀ k c, exec (.rimFrameReceive n ⟨k, true⟩ (.ack c)) s =
      .next (s0.modSession n (fun x => { x with frames := ackFrames c x.frames }))) ∧
    ((s.session n).early = [] →
      (∀ f op va len bs, s1.askedFor n op = some f → f.msg = .get op va len → bs.length ≤ 1024 →
        (f.got.length + bs.length = len → exec (.rimFrameReceive n ⟨(s.session n).rx, true⟩ (.data op bs)) s =
          .next ((s1.frameDone n op).modCmdOp op (fun m => { m with answer := some (f.got ++ bs) }))) ∧
        (f.got.length + bs.length < len → exec (.rimFrameReceive n ⟨(s.session n).rx, true⟩ (.data op bs)) s =
          .next (s1.modSession n (fun x => { x with frames := x.frames.map (fun f' =>
            if f'.msg.asks op then { f' with got := f.got ++ bs } else f') })))) ∧
      (∀ f op va bs cs, s1.askedFor n op = some f → f.msg = .put op va bs cs →
        exec (.rimFrameReceive n ⟨(s.session n).rx, true⟩ (.putDone op)) s =
          .next ((s1.frameDone n op).modCmdOp op (fun m => { m with answer := some [] }))) ∧
      (∀ f op va len, s1.askedFor n op = some f → f.msg = .get op va len →
        exec (.rimFrameReceive n ⟨(s.session n).rx, true⟩ (.refused op)) s =
          .next ((s1.frameDone n op).modCmdOp op (fun m => { m with failed := some 6 }))) ∧
      (∀ k p, (∀ c, p ≠ .ack c) → (s.session n).rx < k → exec (.rimFrameReceive n ⟨k, true⟩ p) s =
        .next (s0.modSession n (fun x => { x with early := [(k, p)] })))) ∧
    (∀ k p, (∀ c, p ≠ .ack c) → k < (s.session n).rx → exec (.rimFrameReceive n ⟨k, true⟩ p) s = .next s0) ∧
    (∀ k p, (s.session n).fails < 3 → exec (.rimFrameReceive n ⟨k, false⟩ p) s =
      .next (s.modSession n (fun x => { x with fails := x.fails + 1 }))) ∧
    (∀ k p, 3 ≤ (s.session n).fails → (s.sessionFail n true).hole = false →
      exec (.rimFrameReceive n ⟨k, false⟩ p) s = .next (s.sessionFail n true)) ∧
    (∀ p f, s.portOf (s.session n) = some p → (s.session n).frames = [f] → f.acked = false → 2048 ≤ s.rt - f.sent →
      ∃ t, exec (.rimFrameResend n) s = .next t ∧ (t.session n).frames = [{ f with sent := s.rt }] ∧
        t = ((s.modSession n (fun x => { x with frames := [{ f with sent := s.rt }] })).recordUnit (.rimPort p) 6 0).countError
          (.rimPort p)) ∧
    ((∃ f ∈ (s.session n).frames, f.acked = false ∧ (s.session n).giveup ≤ s.rt - f.first) →
      (s.sessionFail n false).hole = false → exec (.rimGiveup n) s = .next (s.sessionFail n false))) ∧
  (∀ (s : State) (p : Nat), s.hole = false →
    (p < 12 → p ∉ s.rimDown → exec (.rimPortDown p) s = .next { s with rimDown := p :: s.rimDown }) ∧
    exec (.rimPortUp p) s = .next { s with rimDown := s.rimDown.filter (· ≠ p) })

/-- R257, R437: a peer's read over a session that is up and allows it returns the bytes of the mapping, and its write
is made at the homes without bounds. R436, R459: SESCTL with V asks for a session that is DOWN, whose agreement brings
it UP or FAILED; V = 0 ends it; a re-key raises EPOCH and sends the frames again; RIMINJ arms the injector. What a
poisoned read and a teardown do is the model's choice (log entry 9). -/
def Obligations.SessionsServeAndChange : Prop :=
  (∀ (s : State) (n va len : Nat) (ks : List Chunk) (c1 : List (Nat × Walk)) (s1 : State) (bs : List EByte) (s2 : State)
      (out : List Byte) (s3 : State),
    (s.session n).st = 2 → (s.session n).halted = false → (s.session n).mayRead = true → va + len ≤ 2 ^ 56 →
    (s.rimTook n 0).engResolve (s.session n).ctx 0 false [] (cutAt 128 .va len va len) = (.ok ks, c1, s1) →
    (∀ k ∈ ks, ∀ v pa p, k.at_ = .mem v pa p → pteCmp p = false) → s1.engReadAll none ks = (bs, s2) →
    bs.any (fun b => b.bad) = false → s2.inject n (bs.map (fun b => b.x)) = (out, s3) → s3.hole = false →
    exec (.peerRequest n (.read va len)) s = .next (s3.rimSend n (.data out))) ∧
  (∀ (s : State) (n va : Nat) (bs : List Byte) (ks : List Chunk) (c1 : List (Nat × Walk)) (s1 : State),
    (s.session n).st = 2 → (s.session n).halted = false → (s.session n).mayWrite = true → va + bs.length ≤ 2 ^ 56 →
    (s.rimTook n bs.length).engResolve (s.session n).ctx 0 true [] (cutAt 128 .va bs.length va bs.length) = (.ok ks, c1, s1) →
    s1.hole = false → exec (.peerRequest n (.write va bs)) s = .next ((s1.peerWrite ks bs).rimSend n (.data []))) ∧
  (∀ (s : State) (n : Nat) (v : Dword), s.hole = false → n < 8192 →
    (v.getLsbD 63 = true → (s.session n).st = 0 → exec (.sessionSetup n v) s = .next (s.modSession n (fun x =>
      Session.setSt { x with ctl := BitVec.ofNat 64 (v.toNat % 2 ^ 61) } 1))) ∧
    ((s.session n).st = 2 →
      (let t := ((s.sessionDrop n 4).modSession n (fun x => x.setSt 0)).injLeave n
       t.hole = false → exec (.sessionTeardown n) s = .next t) ∧
      exec (.sessionRekey n) s = .next (s.modSession n (fun x => { x with
        epoch := x.epoch + 1, ctr := x.frames.length, rx := 0, early := []
        frames := (x.frames.zipIdx.map (fun f => { f.1 with ctr := f.2, epoch := x.epoch + 1, sent := s.rt })) }))) ∧
    ((s.session n).st = 1 → ∀ ok, ∃ t, exec (.sessionSetupComplete n ok) s = .next t ∧
      (t.session n).st = (if ok then 2 else 3) ∧ (t.session n).epoch = (s.session n).epoch + 1 ∧ (t.session n).ctr = 0 ∧
      (t.session n).frames = [] ∧ (t.session n).rx = 0 ∧ (t.session n).early = []) ∧
    (injArm s.riminj = false → ∃ t, exec (.riminjArm v) s = .next t ∧ injArm t.riminj = v.getLsbD 63 ∧
      injSes t.riminj = injSes v ∧ injBit t.riminj = injBit v ∧ injOff t.riminj = injOff v ∧
      (v.getLsbD 63 = true → t.rimOff = 0)))

/-- R257, R433, R434: a write of the host that stays in one line of memory that it reaches is made there, without
bound and key; a snoop changes no data, and takes the line from the hub cache; poison marks the lines; a port that goes
down, or stays up after a timeout, ends what is pending behind it. R438, R447: the exchange opens a secured session; within one, a key is loaded or erased; a challenge
and a measurement each take one of the 2^20 leaves, and change nothing once they are spent. Which key a host write
carries, and what a port that is down does, are the model's choices (log entries 11, 17). -/
def Obligations.HostPoolAndSecurityEventsComplete : Prop :=
  ((∀ (s : State) (pa : Nat) (bs : List Byte), s.hole = false → bs ≠ [] → pa % 128 + bs.length ≤ 128 → s.exposed pa = true →
     exec (.hostWrite pa bs) s = .next (State.hostCached
       (s.writeLine none 0 0 (lineOf pa) (lineAdd [] (pa % 128) bs 0) (s.pageBounded pa) false) pa)) ∧
   (∀ (s : State) (pa : Nat), s.hole = false → ∃ t, exec (.hostSnoop pa) s = .next t ∧ t.mem = s.mem ∧
     (∀ x ∈ t.caches.hub, x.line ≠ lineOf pa) ∧ t.caches.l2 = s.caches.l2 ∧ t.caches.rdc = s.caches.rdc) ∧
   (∀ (s : State) (pa n : Nat), s.hole = false → (∀ j < n, s.exposed (pa + 128 * j) = true) →
     ∃ t, exec (.cxlPoison pa n) s = .next t ∧ t.mem = s.mem ∧ (∀ j < n, lineOf (pa + 128 * j) ∈ t.poison) ∧
       (∀ l, l ∉ s.poison → (∀ j < n, l ≠ lineOf (pa + 128 * j)) → l ∉ t.poison)) ∧
   (∀ (s : State) (p : Nat), p < 4 → p ∉ s.cxlDown →
     let t := State.endPending { s with cxlDown := p :: s.cxlDown }
     t.hole = false → exec (.cxlLinkDown ⟨p, false⟩) s = .next t ∧
       exec (.cxlLinkDown ⟨p, true⟩) s = .next { t with cxlDown := s.cxlDown })) ∧
  (∀ (s : State), s.hole = false →
     exec .spdmPskExchange s = .next { s with spdm := true } ∧
     (∀ k, s.spdm = true → 1 ≤ k → k < 4096 →
       exec (.spdmKeyLoad k) s = .next { s with keys := tset s.keys k (s.keyGen + 1), keyGen := s.keyGen + 1 } ∧
       exec (.spdmKeyErase k) s = .next { s with keys := tdel s.keys k }) ∧
     (∀ k, s.spdm = false → exec (.spdmKeyLoad k) s = .next s ∧ exec (.spdmKeyErase k) s = .next s) ∧
     (s.leaf < 2 ^ 20 → exec .spdmChallenge s = .next { s with leaf := s.leaf + 1 } ∧
       exec .spdmMeasurements s = .next { s with leaf := s.leaf + 1 }) ∧
     (2 ^ 20 ≤ s.leaf → exec .spdmChallenge s = .next s ∧ exec .spdmMeasurements s = .next s))

/-- R419, R445, R448: a reset with firmware that verifies leaves no team, group, launch, queue or session, and the
registers at their reset values; a warm one keeps memory, BRCFG, STKMAP, column retirements and lasting marks; a cold
one keeps of memory what lies outside the module, and STKMAP is what the die test gives. Power off leaves what lies
outside the module. That a warm reset clears the memory keys, and what a cold reset and power off keep, are the
model's choices (log entries 12, 18). -/
def Obligations.ResetsComplete : Prop :=
  (∀ (s : State), ∃ t, exec (.warmReset true) s = .next t ∧ t.teams = [] ∧ t.groups = [] ∧ t.launches = [] ∧
    t.queues = [] ∧ t.sessions = [] ∧ t.ops = [] ∧ t.halters = [] ∧ t.keys = [] ∧ t.caches = State.reset.caches ∧
    t.net = State.reset.net ∧ t.power = true ∧ t.recovery = false ∧
    t.clk = s.clk ∧ t.rt = s.rt ∧ t.mem = s.mem ∧ t.brcfg = s.brcfg ∧ t.errcfg = State.reset.errcfg ∧
    t.pwrcfg = State.reset.pwrcfg ∧ t.fqcfg = State.reset.fqcfg ∧ t.hqcfg = State.reset.hqcfg ∧
    (∀ n, (t.stack n).map = (s.stack n).map) ∧
    (∀ n, (t.core n).mx.spu = (s.core n).mx.spu ∧ (t.core n).mx.rc0 = (s.core n).mx.rc0 ∧
      (t.core n).mx.rc1 = (s.core n).mx.rc1 ∧ (t.core n).sbcfg = 0 ∧ (t.core n).mxcfg = 1 ∧ (t.core n).l1 = []) ∧
    (∀ e ∈ s.errs, e.2.lasting = true → (e.1, (⟨[], true⟩ : ErrCount)) ∈ t.errs) ∧ (∀ e ∈ t.errs, e.2 = ⟨[], true⟩)) ∧
  (∀ (s : State) (pres : BitVec 8) (good : List (BitVec 17)), ∃ t, exec (.coldReset true pres good) s = .next t ∧
    t.teams = [] ∧ t.groups = [] ∧ t.cores = [] ∧ t.brcfg = State.reset.brcfg ∧ t.errs = [] ∧ t.clk = State.reset.clk ∧
    t.mem = s.mem.filter (fun c => outside c.1) ∧
    (∀ n < 8, (t.stack n).map = bootMap (pres.getLsbD n) (good.getD n 0))) ∧
  (∀ (s : State), ∃ t, exec .modulePowerOff s = .next t ∧ t.power = false ∧ t.boxes = [] ∧ t.leaf = s.leaf ∧
    t.mem = s.mem.filter (fun c => outside c.1))

/-- R16, R258, R449, R450: BRCFG locks once, with every record zero. VRST of a stack that holds no group resets its V
die, and that of a stack that holds one is refused, with REF; VRST 0 lets the die go, which is ready later. A power
window reports power under the cap and takes over CAP. A configuration write acts on the register at its offset. What
a V die loses in reset is the model's choice (log entry 12). -/
def Obligations.ConfigurationEventsComplete : Prop :=
  (∀ (s : State) (size : BitVec 2), s.hole = false →
    (s.brcfg.getLsbD 2 = true → exec (.brcfgLock size) s = .next s) ∧
    (s.brcfg.getLsbD 2 = false → ∃ t, exec (.brcfgLock size) s = .next t ∧ t.brcfg = BitVec.ofNat 32 (4 + size.toNat) ∧
      t.mem = s.mem.filter (fun c => !inCarve t.carve c.1))) ∧
  (∀ (s : State) (n : Nat), s.hole = false → s.present n = true →
    ((s.stack n).vrst = false → (∀ k < 16, s.takeoverDue (16 * n + k) = false) →
      (s.stackHolds n = true →
        exec (.stkpwrVrstSet n) s = .next ((s.w1cSet (.ref n)).modStack n (fun c => { c with ref := true }))) ∧
      (s.stackHolds n = false → ∃ t, exec (.stkpwrVrstSet n) s = .next t ∧ (t.stack n).vrst = true ∧
        (t.stack n).vrdy = false ∧ ∀ k, (t.core k).l1 = if k / 16 = n then [] else (s.core k).l1)) ∧
    exec (.stkpwrVrstClear n) s = .next (s.modStack n (fun c => { c with vrst := false })) ∧
    ((s.stack n).vrst = false → exec (.vrdyReady n) s = .next (s.modStack n (fun c => { c with vrdy := true })))) ∧
  (∀ (s : State) (p v f : Nat), s.hole = false → (s.window + 1) * 100000 ≤ s.rt → p ≤ s.capNow → p < 2 ^ 12 →
    450 ≤ v → v ≤ 750 → 0 < f → f < 2 ^ 14 →
    ∃ t, exec (.powerWindow p v f) s = .next t ∧ t.capNow = s.cap ∧ t.window = s.window + 1 ∧ t.cap = s.cap ∧
      bitsOf t.pwrcfg.toNat 40 12 = p ∧ bitsOf t.pwrcfg.toNat 30 10 = v ∧ bitsOf t.pwrcfg.toNat 16 14 = f ∧
      t.rtPhase = s.rtPhase * f / s.fclk) ∧
  (∀ (s : State) (o : Nat) (v : Dword), (s.cfgWrite o v).hole = false →
    exec (.configRegisterWrite o v) s = .next (s.cfgWrite o v))

/-- R252, R258, R328, R359, R361, R381, R425, R449, R450: what writes of configuration registers leave to be read: a
written 0 of ERRCFG is 1, CAP is clamped, a THCFG with a misaligned ENTRY is off, L2QT is at most 16 a field, QCFG
with LOG2N below 4 stays off, BRCFG is fixed once locked, and REF is cleared by a 1, unless it was set in the same clk. An offset that names no register
reads zero and ignores writes. -/
def Obligations.ConfigurationWritesRead : Prop :=
  ∀ (s : State) (v : Dword),
    ((s.cfgWrite 0x20 v).cfgRead 0x20 =
      BitVec.ofNat 64 (max 1 (bitsOf v.toNat 48 16) * 2 ^ 48 + max 1 (bitsOf v.toNat 40 8) * 2 ^ 40)) ∧
    ((s.cfgWrite 0x28 v).cfgRead 0x28).extractLsb' 52 12 = BitVec.ofNat 12 (min 2100 (max 500 (bitsOf v.toNat 52 12))) ∧
    (s.brcfg.getLsbD 2 = true → s.cfgWrite 0x30 v = s) ∧
    (∀ c < 64, (s.cfgWrite (0x10018 + 0x100 * c) v).cfgRead (0x10018 + 0x100 * c) =
      (if v.toNat % 4 = 0 then v &&& 0x80FFFFFFFFFFFFFF else v &&& 0x00FFFFFFFFFFFFFF)) ∧
    (∀ c < 64, ∀ i < 4, bitsOf ((s.cfgWrite (0x10008 + 0x100 * c) v).cfgRead (0x10008 + 0x100 * c)).toNat (5 * i) 5 =
      min 16 (bitsOf v.toNat (5 * i) 5)) ∧
    (∀ q < 1024, (s.queue q).en = false → bitsOf v.toNat 49 4 < 4 →
      ((s.cfgWrite (0x20000 + 0x20 * q) v).cfgRead (0x20000 + 0x20 * q)).getLsbD 63 = false) ∧
    (∀ n < 8, s.present n = true → v.getLsbD 31 = false → v.getLsbD 30 = true → s.w1cNow (.ref n) = false →
      ((s.cfgWrite (0x30020 + 0x100 * n) v).cfgRead (0x30020 + 0x100 * n)).getLsbD 30 = false) ∧
    (∀ o, cfgAt o = none → s.cfgWrite o v = s ∧ s.cfgRead o = 0)

/-- R59: the all-zero word is `nop` with every scheduling field 0; a word of OP 0 is `nop` exactly when every field
beside the guard and the scheduling fields is zero (and those of a POST or WAIT that is off are, R55); every guard,
STALL, WAIT and POST decodes; `nop` waits for its token, counts its STALL, and posts: nothing else. -/
def Obligations.AllZeroWordIsNop : Prop :=
  (∀ cx, decode cx 0 = .ok (.nop ⟨⟨false, 0⟩, ⟨0, none, none⟩⟩)) ∧
  (∀ cx (f : Fields), f.op = 0 → ((∃ h, decode cx f.toWord = .ok (.nop h)) ↔
    f.var = 0 ∧ f.ty = 0 ∧ f.d = 0 ∧ f.a = 0 ∧ f.b = 0 ∧ f.rnd = 0 ∧ f.gear = 0 ∧ f.imm = 0 ∧
      (f.post = 1 ∨ f.ptok = 0) ∧ (f.wait = 1 ∨ (f.wtok = 0 ∧ f.wthr = 0)))) ∧
  (∀ cx h, ∃ w, encode (.nop h) = some w ∧ decode cx w = .ok (.nop h)) ∧
  (∀ h s a, Ready s a { h with g := ⟨false, 7⟩ } [] →
    exec (.nop h) s = .next ((s.issued a).issueNext a h (fun tm => tm))) ∧
  (∀ h s a, Live0 s a → a.tm.inlineWait h = .waits → exec (.nop h) s = .next { s with cur := none })

/-- R61: the all-ones word is an illegal instruction with sub-code ONES, in every team, before every other check; a
fragment that fetches it takes ILLOP there. -/
def Obligations.AllOnesWordIsReserved : Prop :=
  (∀ cx, decode cx (BitVec.allOnes 96) = .error .ones) ∧ DecErr.sub .ones = 10 ∧
  (∀ (s : State) (t : Nat) (f late : Bool) (ms : List Move) (tm : Team) (s1 : State), s.script = .run t f late :: ms →
    let s0 : State := { s with script := ms }
    tget s.teams t = some tm → tm.perm = none → s0.issues t f tm = true →
    s0.fetchInst tm (fetchState (tm.path f)) (tm.path f).pc.toNat = (.got (BitVec.allOnes 96), s1) →
    let t1 := (s1.modTeam t (fun tm => tm.setPath f { tm.path f with hold := .free })).takeTrap t f .illop 10 0 (tm.path f).pc
    let t2 := if t1.mem = s.mem then t1 else t1.watch
    t1.hole = false → t2.hole = false → step s = .next t2)

/-- R40, R58, R63: words written out from the spec's worked encodings decode to the instructions that they stand for.
-/
def Obligations.SpecWordsDecode : Prop :=
  decode ⟨256, 1, 16, false, false⟩ 0x414720001000024100896080 =
    .ok (.ld ⟨⟨true, 1⟩, ⟨2, some 3, some (2, 4)⟩⟩ .n32 .c1 (.v 8) (.s 4) (.v 2) 16) ∧
  decode ⟨256, 1, 16, false, false⟩ 0x00005000038402004067A043 =
    .ok (.ffma ⟨⟨false, 7⟩, ⟨5, none, none⟩⟩ .f32 .rne .g3 (.v 6) (.v 1) (.v 2) (.v 3)) ∧
  decode ⟨256, 1, 16, false, false⟩ 0x0000000000000000C007A072 = .ok (.bchk ⟨⟨false, 7⟩, ⟨0, none, none⟩⟩ .f32 (.v 3)) ∧
  decode ⟨256, 1, 16, false, false⟩ 0x0000000123000000000700E2 = .ok (.trap ⟨⟨false, 7⟩, ⟨0, none, none⟩⟩ 0x123) ∧
  decode ⟨256, 1, 16, false, false⟩ 0x0000000000000000000700E3 = .ok (.rti ⟨⟨false, 7⟩, ⟨0, none, none⟩⟩) ∧
  decode ⟨256, 1, 16, false, false⟩ 0x000000000100000000000000 = .error .imm

/-- R39, R52-R58, R60: for every well-formed instruction that has a word, decoding its word gives it back, with every
operand at every value that the encoding admits. -/
def Obligations.DecodeOfEncode : Prop :=
  ∀ (cx : DecCtx) (i : Instr) (w : Inst96), i.wf cx = true → encode i = some w → decode cx w = .ok i

/-- R35, R40, R100, R375: when the fragment that its quadrant chooses is next, and its fetch gives a word, the step is
`exec` of the instruction that the word decodes to, run for that fragment, or the trap ILLOP with the name of its first
illegal field; an event of the script that the package's power admits is `exec` of that event. After either, armed WAITs
look at their signals if memory has changed (R369). A scripted end of a clk comes when no fragment is left to issue. The script of moves, and the order of a clk's moves, are the model's (log entry 2). -/
def Obligations.StepRunsTheDecodedInstruction : Prop :=
  (∀ (s : State) (t : Nat) (f late : Bool) (tm : Team) (w : Inst96) (s0 s1 : State),
    (∃ ms, s.script = .run t f late :: ms ∧ s0 = { s with script := ms }) ∨
      ((s.script = [] ∨ ∃ ms, s.script = .tick :: ms) ∧ s.power = true ∧ s.dueFrag = some (t, f) ∧ late = false ∧ s0 = s) →
    tget s.teams t = some tm → tm.perm = none → s0.issues t f tm = true →
    s0.fetchInst tm (fetchState (tm.path f)) (tm.path f).pc.toNat = (.got w, s1) →
    let s2 := s1.modTeam t (fun tm => tm.setPath f { tm.path f with hold := .free })
    let after (o : Host.Outcome State Fault Refusal) := andThen o (fun t => answer (if t.mem = s.mem then t else t.watch))
    (∀ i, decode (s1.decCtx tm) w = .ok i → step s = after (exec i { s2 with cur := some (t, f, late) })) ∧
    (∀ e, decode (s1.decCtx tm) w = .error e → step s = after (answer (s2.takeTrap t f .illop e.sub 0 (tm.path f).pc)))) ∧
  (∀ (s : State) (i : Instr) (ms : List Move), s.script = .event i :: ms → State.allows { s with script := ms } i = true →
    step s = andThen (exec i { s with script := ms, cur := none }) (fun t => answer (if t.mem = s.mem then t else t.watch))) ∧
  (∀ (s : State) (ms : List Move), s.script = .tick :: ms → s.power = true → s.dueFrag = none →
    step s = andThen (State.tick exec { s with script := ms }) (fun t => answer (if t.mem = s.mem then t else t.watch)))

/-- R40, R41: a fetch reads the three words at PC, PC + 4 and PC + 8 into bits 31:0, 63:32 and 95:64, each from
memory, little-endian, through the context's translation, where the buffer holds no older form; outside the global
window, on a compressed page, and on a poisoned line in memory, in the stack's RDC or in the buffer it traps. -/
def Obligations.FetchReadsMemory : Prop :=
  (∀ (s : State) (tm : Team) (st : Option (Nat × Fate)) (pc : Nat) (b0 b1 b2 : List Byte) (s1 s2 s3 : State),
    s.fetchWord tm st pc = (.got b0, s1) → s1.fetchWord tm st (pc + 4) = (.got b1, s2) →
    s2.fetchWord tm st (pc + 8) = (.got b2, s3) → b0.length = 4 → b1.length = 4 → b2.length = 4 →
    ∃ w, s.fetchInst tm st pc = (.got w, s3) ∧ w.extractLsb' 0 32 = BitVec.ofNat 32 (ofBytes b0) ∧
      w.extractLsb' 32 32 = BitVec.ofNat 32 (ofBytes b1) ∧ w.extractLsb' 64 32 = BitVec.ofNat 32 (ofBytes b2)) ∧
  (∀ (s : State) (tm : Team) (st : Option (Nat × Fate)) (va : Nat), 2 ^ 56 ≤ va →
    s.fetchWord tm st va = (.trap .xlat 0 va, s)) ∧
  (∀ (s : State) (tm : Team) (va : Nat) (p q : Quad) (s1 : State) (pa : Nat), va < 2 ^ 56 →
    s.translate tm.ctx va = (.hit p, s1) →
    (pteCmp p = true → s.fetchWord tm none va = (.trap .xlat 4 va, s1)) ∧
    (pteCmp p = false → s1.lookAt (.hit p) va false = .ok pa q →
      (s1.poisoned (lineOf pa) (pteKey p) = true → s.fetchWord tm none va = (.trap .ecc 5 0, s1)) ∧
      (s1.poisoned (lineOf pa) (pteKey p) = false → s1.keyMatches (lineOf pa) (pteKey p) = true →
        (s1.core tm.core).ibufLine tm.ctx (va / 128) = none →
        let s2 := s1.cacheRead (tm.core / 16) tm.ctx (pteCls p) (lineOf pa)
        (s2.replicaBad (tm.core / 16) (lineOf pa) = true → s.fetchWord tm none va = (.trap .ecc 5 0, s2)) ∧
        (s2.replicaBad (tm.core / 16) (lineOf pa) = false →
          ∃ t, s.fetchWord tm none va = (.got (cellsGet s.mem pa 4), t) ∧ t.mem = s.mem)) ∧
      (∀ l, s1.poisoned (lineOf pa) (pteKey p) = false → (s1.core tm.core).ibufLine tm.ctx (va / 128) = some l →
        l.poison = true → s.fetchWord tm none va = (.trap .ecc 4 0, s1.ibufDrop tm.core tm.ctx (va / 128)))))

/-- A step that answers a next state has used no address that does not exist: one that used such an address stops. -/
def Obligations.StepUsesNoMissingAddress : Prop :=
  ∀ (s t : State), step s = .next t → t.hole = false

/-- Memory keeps its one canonical form over every step, so that equal memories are equal data. -/
def Obligations.MemoryStaysCanonical : Prop :=
  ∀ (s t : State), Memory.wf s.mem = true → step s = .next t → Memory.wf t.mem = true

/-- R235, R252, R328, R361, R381, R388, R398, R420, R425, R449 and others: reset leaves no team, group, launch, halter
or fault, memory in its canonical form, and the registers that the spec resets at their values. The clock, memory that
lists nothing, power on with every stack present, and identity maps are the model's choices (log entries 1 and 3). -/
def Obligations.ResetState : Prop :=
  State.reset.Safe ∧ State.reset.teams = [] ∧ State.reset.groups = [] ∧ State.reset.launches = [] ∧
  State.reset.halters = [] ∧ State.reset.faults = [] ∧ State.reset.ops = [] ∧ State.reset.script = [] ∧
  (∀ n, (State.reset.core n).mxcfg = 1 ∧ (State.reset.core n).sbcfg = 0 ∧ (State.reset.core n).l1 = []) ∧
  (∀ c, (State.reset.ctx c).thcfg = 0 ∧ (State.reset.ctx c).ptroot = 0 ∧ (State.reset.ctx c).l2qt = 0x84210 ∧
    (State.reset.undoOf c).en = false) ∧
  State.reset.brcfg = 0 ∧ State.reset.fqcfg = 0 ∧ State.reset.hqcfg = 0 ∧ State.reset.riminj = 0 ∧
  (∀ q, (State.reset.queue q).en = false)

/-- R159: `shl`, `shr`, `sar` and `rol` of OP 0x31 and VAR 0 to 3 write A shifted left, shifted right with zeros or
with its top bit, or rotated left; a count of the width or more leaves 0, 0, copies of the top bit, and the rotation
by its remainder. -/
def Obligations.ShiftsFollowTheirTable : Prop :=
  ∀ (h : Hdr) (ty : Ty) (d a b : Opnd), ty.isBit = true →
    let A (x : X) (l : Nat) : BitVec ty.bits := BitVec.ofNat ty.bits (x.i ty a l).x
    let c (x : X) (l : Nat) : Nat := (x.n32 b l).x
    let ps := wr (tyN ty) d ++ rd (tyN ty) a ++ rd 1 b
    let el (f : X → Nat → BitVec ty.bits) (x : X) (l : Nat) : El := bitEl x.bt (f x l).toNat [(x.i ty a l).b, (x.n32 b l).b]
    let fs (v : Nat) : Fields := { Fields.enc h 0x31 v ty.code with d := d.code, a := a.code, b := b.code }
    (RunsFixed (.shl h ty d a b) h 4 ps (laneWrites d ty.w64 (el (fun x l => A x l <<< c x l))) ∧
      RunsFixed (.shr h ty d a b) h 4 ps (laneWrites d ty.w64 (el (fun x l => A x l >>> c x l))) ∧
      RunsFixed (.sar h ty d a b) h 4 ps (laneWrites d ty.w64 (el (fun x l => (A x l).sshiftRight (c x l)))) ∧
      RunsFixed (.rol h ty d a b) h 4 ps (laneWrites d ty.w64 (el (fun x l => (A x l).rotateLeft (c x l))))) ∧
    ((Instr.shl h ty d a b).fields = some (fs 0) ∧ (Instr.shr h ty d a b).fields = some (fs 1) ∧
      (Instr.sar h ty d a b).fields = some (fs 2) ∧ (Instr.rol h ty d a b).fields = some (fs 3)) ∧
    (∀ (w n : Nat) (v : BitVec w), w ≤ n → v <<< n = 0 ∧ v >>> n = 0 ∧
      v.sshiftRight n = (if v.msb then BitVec.allOnes w else 0) ∧ v.rotateLeft n = v.rotateLeft (n % w))

/-- R155, R158: `min` and `max` write the lesser or greater of A and B, compared as signed or unsigned by the type,
with the larger of their bounds; `and`, `or`, `xor`, `not` and `andn` write the bitwise results; a non-zero B of `not`
is ILLOP B. -/
def Obligations.LogicAndOrderFollowTheirRules : Prop :=
  (∀ (h : Hdr) (ty : Ty) (d a b : Opnd), ty.isInt = true →
    let A (x : X) (l : Nat) : BitVec ty.bits := BitVec.ofNat ty.bits (x.i ty a l).x
    let B (x : X) (l : Nat) : BitVec ty.bits := BitVec.ofNat ty.bits (x.i ty b l).x
    let less (u v : BitVec ty.bits) : Bool := if ty.signed then u.slt v else u.ult v
    let ps := wr (tyN ty) d ++ rd (tyN ty) a ++ rd (tyN ty) b
    let el (f : X → Nat → BitVec ty.bits) (x : X) (l : Nat) : El :=
      ⟨(f x l).toNat, computed x.bt (ebMax (x.i ty a l).b (x.i ty b l).b)⟩
    RunsFixed (.min h ty d a b) h 4 ps (laneWrites d ty.w64 (el (fun x l => if less (B x l) (A x l) then B x l else A x l))) ∧
    RunsFixed (.max h ty d a b) h 4 ps (laneWrites d ty.w64 (el (fun x l => if less (A x l) (B x l) then B x l else A x l))) ∧
    (Instr.min h ty d a b).fields =
      some { Fields.enc h 0x28 0 ty.code with d := d.code, a := a.code, b := b.code } ∧
    (Instr.max h ty d a b).fields =
      some { Fields.enc h 0x29 0 ty.code with d := d.code, a := a.code, b := b.code }) ∧
  (∀ (h : Hdr) (ty : Ty) (d a b : Opnd), ty.isBit = true →
    let A (x : X) (l : Nat) : BitVec ty.bits := BitVec.ofNat ty.bits (x.i ty a l).x
    let B (x : X) (l : Nat) : BitVec ty.bits := BitVec.ofNat ty.bits (x.i ty b l).x
    let ps := wr (tyN ty) d ++ rd (tyN ty) a ++ rd (tyN ty) b
    let el (f : X → Nat → BitVec ty.bits) (x : X) (l : Nat) : El := bitEl x.bt (f x l).toNat [(x.i ty a l).b, (x.i ty b l).b]
    let fs (op : BitVec 8) : Fields := { Fields.enc h op 0 ty.code with d := d.code, a := a.code, b := b.code }
    (RunsFixed (.and h ty d a b) h 4 ps (laneWrites d ty.w64 (el (fun x l => A x l &&& B x l))) ∧
      RunsFixed (.or h ty d a b) h 4 ps (laneWrites d ty.w64 (el (fun x l => A x l ||| B x l))) ∧
      RunsFixed (.xor h ty d a b) h 4 ps (laneWrites d ty.w64 (el (fun x l => A x l ^^^ B x l))) ∧
      RunsFixed (.andn h ty d a b) h 4 ps (laneWrites d ty.w64 (el (fun x l => A x l &&& ~~~B x l))) ∧
      RunsFixed (.not h ty d a) h 4 (wr (tyN ty) d ++ rd (tyN ty) a)
        (laneWrites d ty.w64 (fun x l => bitEl x.bt (~~~A x l).toNat [(x.i ty a l).b]))) ∧
    ((Instr.and h ty d a b).fields = some (fs 0x2C) ∧ (Instr.or h ty d a b).fields = some (fs 0x2D) ∧
      (Instr.xor h ty d a b).fields = some (fs 0x2E) ∧ (Instr.andn h ty d a b).fields = some (fs 0x30) ∧
      (Instr.not h ty d a).fields = some { Fields.enc h 0x2F 0 ty.code with d := d.code, a := a.code }) ∧
    (∀ (cx : DecCtx) (r : BitVec 10), (Instr.not h ty d a).wf cx = true → r ≠ 0 →
      decode cx (Fields.toWord { Fields.enc h 0x2F 0 ty.code with d := d.code, a := a.code, b := r }) = .error .b))

/-- R102, R104, R147: an instruction of `formOf` that nothing stops changes, beside its quadrant's slot, its path's
pc, countdown and last issue, the generators, and what it puts in flight, nothing: no register, flag, token, special
register or byte of memory. What it puts in flight will write register lanes of its destinations in the lanes of its
effective mask and nothing else (and lanes of p7, to which writes are discarded), and post its token. -/
def Obligations.RegisterFormsKeepTheRest : Prop :=
  ∀ (i : Instr) (h : Hdr) (c : Cls) (ps : List Port) (cx : DecCtx) (s : State) (a : At) (t : State),
    formOf i = some (h, c, ps) → i.wf cx = true → Ready s a h ps → exec i s = .next t →
    let writes (k : Nat) : Prop := (keyP 7 0 ≤ k ∧ k < keyP 8 0) ∨ ∃ p ∈ ps, p.wr = true ∧ p.hit (a.mask h) k = true
    t = { s with teams := t.teams, quads := tset s.quads a.tm.quadNo ⟨s.clk, some (a.t, a.f)⟩, cur := none
                 free := t.free, ops := t.ops, nextOp := t.nextOp } ∧
    (∀ n, n ≠ a.t → tget t.teams n = tget s.teams n) ∧ (∀ n, n ≠ s.nextOp → tget t.ops n = tget s.ops n) ∧
    (t.nextOp ≠ s.nextOp → ∃ o, tget t.ops s.nextOp = some o ∧ o.team = a.t ∧ ∀ k ∈ o.dst, writes k) ∧
    ∃ tm ws, tget t.teams a.t = some tm ∧
      tm = { a.tm with p0 := tm.p0, p1 := tm.p1, gens := tm.gens, pend := a.tm.pend ++ ws } ∧
      tm.path (!a.f) = a.tm.path (!a.f) ∧
      tm.path a.f = { a.path with pc := a.path.pc + 12, cd := (tm.path a.f).cd, hold := .free, lastIssue := s.clk } ∧
      ∀ w ∈ ws, s.clk < w.due ∧ ((∃ u, w.act = .upd u ∧ ∀ k ∈ u.keys, writes k) ∨
        ∃ k : BitVec 5, h.sc.post = some k ∧ w.act = .post a.tm.curBank k.toNat none)

/-- R104, R147: when the next clk begins, a team's register lane changes only where a write of it is due; with one
write due, it lands, and everything that is due later stays in flight. A DRAINING team, which runs nothing and may retire
then (R33), is not meant. -/
def Obligations.LandingWritesOnlyWhatIsDue : Prop :=
  ∀ (s : State) (n : Nat) (tm : Team), tget s.teams n = some tm → tm.life ≠ .draining →
    let due (k : Nat) : Prop := ∃ p ∈ tm.pend, p.due ≤ s.clk + 1 ∧ ∃ u, p.act = .upd u ∧ k ∈ u.keys
    (∃ tm', tget s.nextClk.teams n = some tm' ∧ tm'.pend = tm.pend.filter (fun p => decide (s.clk + 1 < p.due)) ∧
      (∀ r l, l < 64 → ¬ due (keyV r l) → (tm'.vrow r).cell l = (tm.vrow r).cell l) ∧
      (∀ r, ¬ due (keyS r) → tm'.sreg r = tm.sreg r) ∧
      (∀ p l, l < 64 → ¬ due (keyP p l) → lane (tm'.pred p).t l = lane (tm.pred p).t l ∧
        lane (tm'.pred p).d l = lane (tm.pred p).d l) ∧
      (¬ due keyExm → ∀ f, (tm'.path f).exm = (tm.path f).exm) ∧
      tm'.mode = tm.mode ∧ tm'.budg = tm.budg ∧ tm'.bstat = tm.bstat ∧ tm'.gens = tm.gens ∧ tm'.exited = tm.exited ∧
      tm'.stack = tm.stack ∧ tm'.tcause = tm.tcause ∧ tm'.tepc = tm.tepc ∧ tm'.tval = tm.tval ∧ tm'.tfr = tm.tfr) ∧
    (∀ c pid r x b, tm.pend = [⟨c, pid, .upd (.sca r (some x) (some b))⟩] → c ≤ s.clk + 1 →
      ∃ tm', tget s.nextClk.teams n = some tm' ∧ tm'.sreg r = ⟨x, b⟩) ∧
    (∀ c pid r l x b, l < 64 → tm.pend = [⟨c, pid, .upd (.vec r [⟨l, some x, some b⟩])⟩] → c ≤ s.clk + 1 →
      ∃ tm', tget s.nextClk.teams n = some tm' ∧ (tm'.vrow r).cell l = ⟨x, b⟩)

/-- R256, R264, R280: a store outside a task, none of whose lines stands in the core's side log, that completes leaves
every byte of memory and scratchpad as it was but those of the parts into which its addresses and data are cut, and,
on bounded pages, the bound records of their lines; a byte of memory to which all parts that cover it give one value
holds that value after a store that does not wait. A load changes no byte of memory or scratchpad. -/
def Obligations.StoresWriteOnlyTheirBytes : Prop :=
  (∀ (i : Instr) (h : Hdr) (ports : List Port) (s : State) (a : At) (err : Option (Cause × Nat × Nat)) (pcs : List Piece)
      (ps : List Part) (s1 t : State),
    storeForm s a i = some (h, ports, err, pcs) → Ready s a h ports → err = none → a.tm.versions = false →
    Memory.wf s.mem = true → (∀ e ∈ (s.core a.tm.core).side, e.ctx ≠ a.tm.ctx) →
    ((s.issued a).unspin (s.viewAt a h)).resolveParts a.tm [] (pcs.flatMap (fun p =>
      (cutBytes p.addr (a.tm.runs_ p.lane p.addr p.bs.length) p.bs p.keep).map (fun r => (p, r)))) = (ps, s1) →
    (∀ p ∈ ps, ∃ pa q, p.look = .ok pa q) →
    (BitVec.ofNat 64 ((s.viewAt a h).partsBreach s1 (ps.filter Part.checked)) : Mask) = 0 →
    exec i s = .next t →
    (∀ pa, (∀ p ∈ ps, ¬ p.covers pa) → (∀ p ∈ ps, ¬ p.bounds s pa) → cellGet t.mem pa = cellGet s.mem pa) ∧
    (∀ g off, (∀ p ∈ ps, ∀ o, p.at_ = .scr g o → ¬ (o ≤ off ∧ off < o + p.bs.length)) → t.scrGet g off = s.scrGet g off) ∧
    (∀ pa b, a.late = false → s1.lineRoom a.tm.core (lineCount (ps.map (fun p => p.wr.c))) = true →
      s1.behind a.t s1.nextOp (ps.map (fun p => p.wr.c)) = false → s1.unlinked a.tm (.store (ps.map Part.wr) none) = false →
      (∃ p ∈ ps, p.covers pa) → (∀ p ∈ ps, ¬ p.bounds s pa) →
      (∀ p ∈ ps, ∀ va pa0 q, p.at_ = .mem va pa0 q → pa0 ≤ pa → pa < pa0 + p.bs.length →
        p.keep = [] ∧ p.bs.getD (pa - pa0) 0 = b) →
      cellGet t.mem pa = b)) ∧
  (∀ (i : Instr) (h : Hdr) (via : Via) (ty : Ty) (c : Cnt) (d o b : Opnd) (off : BitVec 20) (s : State) (a : At)
      (accs : List Acc) (s1 t : State),
    ((i = .ld h ty c d o b off ∧ via = .l1) ∨ (i = .ldb h ty c d o b off ∧ via = .next) ∨
      (i = .ldp h ty d o b off ∧ via = .home ∧ c = .c1) ∨ (i = .ldc h ty c d o b off ∧ via = .comp)) →
    Ready s a h (loadPorts ty c d o b) → (∀ e ∈ (s.core a.tm.core).side, e.ctx ≠ a.tm.ctx) →
    let x := s.viewAt a h
    let n := cntN c
    let as := (x.work d).map (x.addr o b off)
    x.addrErr (s.issued a) (n * ty.bytes) (n * ty.bytes) as = none →
    (s.issued a).resolveAll a.tm false (via ≠ .comp) [] (((x.work d).zip as).flatMap (fun p =>
      (List.range n).map (fun j => (p.1, p.2, p.2 + j * ty.bytes, ty.bytes)))) = (.ok accs, s1) →
    s1.scrEcc (accs.flatMap (fun k => k.chunks)) = none → ¬ (via = .home ∧ mProg a.tm.mode = true) →
    exec i s = .next t → t.mem = s.mem ∧ ∀ g off, t.scrGet g off = s.scrGet g off)

/-- R49, R110, R113, R397, R407: an instruction of `formOf` whose token has overflowed or erred takes KOVF or KERR,
one whose token is not there yet waits, one that reads too early under MODE.CHK takes UNDERWAIT, one that waits for a
corrupted token, or reads a corrupted register, takes ECC, each before any effect; one with no effective lane only posts and goes on. `tinv`, and
`mts` of CYC, without privilege take PRIV. -/
def Obligations.ConventionsTrapBeforeAnyEffect : Prop :=
  (∀ (i : Instr) (h : Hdr) (c : Cls) (ps : List Port) (s : State) (a : At), formOf i = some (h, c, ps) → Live0 s a →
    let s0 : State := { s with cur := none }
    let k : Nat := (h.sc.wait.map (fun w => w.1.toNat)).getD 0
    let trap (c : Cause) (sub : Nat) (v : Dword) : Prop :=
      (s0.takeTrap a.t a.f c sub v a.path.pc).hole = false → exec i s = .next (s0.takeTrap a.t a.f c sub v a.path.pc)
    let ecc (site : ErrSite) (sub : Nat) : Prop :=
      let s1 := s0.modTeam a.t (fun tm => { tm with corrupt := tm.corrupt.filter (· ≠ site) })
      let t := s1.takeTrap a.t a.f .ecc sub 0 a.path.pc
      t.hole = false → exec i s = .next t
    (∀ site, a.tm.eccWait h = some site → ecc site 3) ∧
    (a.tm.eccWait h = none →
      (a.tm.inlineWait h = .waits → exec i s = .next s0) ∧
      (a.tm.inlineWait h = .kovf → trap .kovf 0 (waitVal a.tm.curBank k)) ∧
      (∀ n, a.tm.inlineWait h = .kerr n → trap .kerr n (waitVal a.tm.curBank k)) ∧
      (∀ sub e, a.tm.inlineWait h = .ok → mChk a.tm.mode = true → a.mask h ≠ 0 →
        s0.underwait a.t a.tm a.path.pid (a.mask h) (ps ++ rdPred h.g.p) = some (sub, e) →
        trap .underwait sub (e.setWidth 64)) ∧
      (∀ site sub, a.tm.inlineWait h = .ok →
        (mChk a.tm.mode = true → a.mask h ≠ 0 →
          s0.underwait a.t a.tm a.path.pid (a.mask h) (ps ++ rdPred h.g.p) = none) →
        a.tm.eccHit h (a.mask h) ps = some (site, sub) → ecc site sub)) ∧
    (Clear s a h ps false → a.mask h = 0 →
      (∀ l, c = .fixed l → exec i s = .next ((s.slotted a).fixedNext a h l [])) ∧
      (∀ u, c = .token u → exec i s = .next (if h.sc.post.isNone then (s.slotted a).issueNext a h (fun tm => tm)
        else (s.slotted a).tokenNext a h (a.op s u [] (.done [])))))) ∧
  (∀ (i : Instr) (h : Hdr) (ps : List Port) (sub : Nat) (s : State) (a : At),
    ((∃ o, i = .mts h (.sp .cyc) o ∧ ps = rd 2 o ∧ sub = 1) ∨ (∃ o p, i = .tinvPage h o p ∧ ps = rd 2 o ++ rd 1 p ∧ sub = 0) ∨
      (∃ p, i = .tinvCtx h p ∧ ps = rd 1 p ∧ sub = 0) ∨ (i = .tinvAll h ∧ ps = [] ∧ sub = 0)) →
    ReadyOut s a h ps → s.prv a.tm.ctx = false →
    let t := (s.issued a).takeTrap a.t a.f .priv sub 0 a.path.pc
    t.hole = false → exec i s = .next t)
end

