-- ==== Sys2Proof/Laws/Tbl.lean ====
section
/-! SUPPORT. Tables: what is found after an update. -/

namespace Sys2Proof.Machine

/-- Two updates of one entry are one. -/
@[simp] theorem tmod_tmod {α : Type} (t : Tbl α) (k : Nat) (f g : α → α) :
    tmod (tmod t k f) k g = tmod t k (fun a => g (f a)) := by
  induction t with
  | nil => rfl
  | cons e t ih =>
    obtain ⟨j, b⟩ := e
    by_cases h : j = k <;> simp [tmod, h, ih]

/-- An updated entry reads as the update of what it held. -/
@[simp] theorem tget_tmod_self {α : Type} (t : Tbl α) (k : Nat) (f : α → α) : tget (tmod t k f) k = (tget t k).map f := by
  induction t with
  | nil => rfl
  | cons e t ih =>
    obtain ⟨j, b⟩ := e
    by_cases h : j = k <;> simp [tmod, tget, h, ih]

/-- The other entries stay. -/
theorem tget_tmod_other {α : Type} (t : Tbl α) (k j : Nat) (f : α → α) (h : j ≠ k) : tget (tmod t k f) j = tget t j := by
  induction t with
  | nil => rfl
  | cons e t ih =>
    obtain ⟨i, b⟩ := e
    by_cases hk : i = k
    · simp [tmod, tget, hk, Ne.symm h]
    · rw [tmod, if_neg hk, tget, tget, ih]

/-- An update that changes no entry that is there changes nothing. -/
theorem tmod_same {α : Type} (t : Tbl α) (k : Nat) (f g : α → α) (h : ∀ a, tget t k = some a → f a = g a) :
    tmod t k f = tmod t k g := by
  induction t with
  | nil => rfl
  | cons e t ih =>
    obtain ⟨j, b⟩ := e
    by_cases hk : j = k
    · simp [tmod, hk, h b (by simp [tget, hk])]
    · simp [tmod, hk, ih (fun a ha => h a (by simp [tget, hk, ha]))]

/-- A key that was set reads as what was set. -/
@[simp] theorem tget_tset_self {α : Type} (t : Tbl α) (k : Nat) (a : α) : tget (tset t k a) k = some a := by
  induction t with
  | nil => simp [tset, tget]
  | cons e t ih =>
    obtain ⟨j, b⟩ := e
    by_cases h : k < j
    · simp [tset, tget, h]
    · by_cases h' : k = j
      · simp [tset, tget, h']
      · simp [tset, tget, h, h', Ne.symm h', ih]

/-- The other keys stay. -/
theorem tget_tset_other {α : Type} (t : Tbl α) (k j : Nat) (a : α) (h : j ≠ k) : tget (tset t k a) j = tget t j := by
  induction t with
  | nil => simp [tset, tget, Ne.symm h]
  | cons e t ih =>
    obtain ⟨i, b⟩ := e
    by_cases h1 : k < i
    · simp [tset, tget, h1, Ne.symm h]
    · by_cases h2 : k = i
      · subst h2
        simp [tset, tget, Ne.symm h]
      · rw [tset, if_neg h1, if_neg h2, tget, tget, ih]

@[simp] theorem tgetD_tset_self {α : Type} (t : Tbl α) (k : Nat) (a d : α) : tgetD (tset t k a) k d = a := by
  simp [tgetD]

theorem tgetD_tset_other {α : Type} (t : Tbl α) (k j : Nat) (a d : α) (h : j ≠ k) : tgetD (tset t k a) j d = tgetD t j d := by
  simp [tgetD, tget_tset_other t k j a h]

/-- The mask of no lane. -/
theorem maskOf_none (f : Nat → Bool) (h : ∀ l, f l = false) : maskOf f = 0 := by
  have : ∀ ls : List Nat, ls.foldr (fun l a => if f l then a + 2 ^ l else a) 0 = 0 := by
    intro ls
    induction ls with
    | nil => rfl
    | cons l ls ih => rw [List.foldr_cons, ih, h]; rfl
  rw [maskOf, this]
  rfl

end Sys2Proof.Machine
end

