-- ==== Sys2Proof/Laws/Mem.lean ====
section
/-! SUPPORT. Memory: reads after writes, the canonical form, and what the line operations leave alone. -/

namespace Sys2Proof.Machine

/-! ### Cells -/

/-- A canonical form from lo up is one from any lower address up. -/
theorem cellsFrom_mono {lo hi : Nat} {m : List Host.Cell} (h : cellsFrom hi m = true) (hl : lo ≤ hi) : cellsFrom lo m = true := by
  cases m with
  | nil => rfl
  | cons e t =>
    simp only [cellsFrom, Bool.and_eq_true, decide_eq_true_eq] at h ⊢
    exact ⟨⟨by omega, h.1.2⟩, h.2⟩

/-- Below the first address, memory reads as the default. -/
theorem cellGet_below {lo : Nat} {m : List Host.Cell} (h : cellsFrom lo m = true) (a : Nat) (ha : a < lo) :
    cellGet m a = Config.memDefault := by
  cases m with
  | nil => rfl
  | cons e t =>
    obtain ⟨j, b⟩ := e
    simp only [cellsFrom, Bool.and_eq_true, decide_eq_true_eq] at h
    rw [cellGet, if_neg (by omega), if_pos (by omega)]

/-- One byte written keeps the canonical form. -/
theorem cellSet_from {lo : Nat} {m : List Host.Cell} (h : cellsFrom lo m = true) (a : Nat) (x : Byte) (ha : lo ≤ a) :
    cellsFrom lo (cellSet m a x) = true := by
  induction m generalizing lo with
  | nil => by_cases hx : x = Config.memDefault <;> simp [cellSet, cellsFrom, hx, ha]
  | cons e t ih =>
    obtain ⟨j, b⟩ := e
    simp only [cellsFrom, Bool.and_eq_true, decide_eq_true_eq] at h
    rw [cellSet]
    split
    · split
      · simp [cellsFrom, h]
      · rename_i h1 h2
        simp only [cellsFrom, Bool.and_eq_true, decide_eq_true_eq]
        exact ⟨⟨ha, h2⟩, ⟨by omega, h.1.2⟩, h.2⟩
    · split
      · split
        · exact cellsFrom_mono h.2 (by omega)
        · rename_i h1 h2 h3
          simp only [cellsFrom, Bool.and_eq_true, decide_eq_true_eq]
          exact ⟨⟨ha, h3⟩, by rw [h2]; exact h.2⟩
      · simp only [cellsFrom, Bool.and_eq_true, decide_eq_true_eq]
        exact ⟨⟨h.1.1, h.1.2⟩, ih h.2 (by omega)⟩

/-- One byte written keeps memory canonical. -/
theorem cellSet_wf {m : List Host.Cell} (h : Memory.wf m = true) (a : Nat) (x : Byte) : Memory.wf (cellSet m a x) = true :=
  cellSet_from h a x (Nat.zero_le a)

/-- A read after a write of one byte. -/
theorem cellGet_cellSet {lo : Nat} {m : List Host.Cell} (h : cellsFrom lo m = true) (a b : Nat) (x : Byte) :
    cellGet (cellSet m a x) b = if b = a then x else cellGet m b := by
  induction m generalizing lo with
  | nil =>
    by_cases hx : x = Config.memDefault
    · by_cases hb : b = a <;> simp [cellSet, cellGet, hx, hb]
    · by_cases hb : b = a
      · simp [cellSet, cellGet, hx, hb]
      · simp [cellSet, cellGet, hx, hb, Ne.symm hb]
  | cons e t ih =>
    obtain ⟨j, c⟩ := e
    simp only [cellsFrom, Bool.and_eq_true, decide_eq_true_eq] at h
    rw [cellSet]
    split
    · rename_i h1
      split
      · rename_i h2
        by_cases hb : b = a
        · subst hb
          rw [if_pos rfl, cellGet, if_neg (by omega), if_pos h1, h2]
        · rw [if_neg hb]
      · rename_i h2
        by_cases hb : b = a
        · subst hb; rw [if_pos rfl, cellGet, if_pos rfl]
        · rw [if_neg hb, cellGet, if_neg (Ne.symm hb)]
          by_cases hl : b < a
          · rw [if_pos hl, cellGet, if_neg (by omega), if_pos (by omega)]
          · rw [if_neg hl]
    · split
      · rename_i h1 h2
        subst h2
        split
        · rename_i h3
          by_cases hb : b = a
          · subst hb; rw [if_pos rfl, cellGet_below h.2 b (by omega), h3]
          · rw [if_neg hb, cellGet, if_neg (Ne.symm hb)]
            by_cases hl : b < a
            · rw [if_pos hl, cellGet_below h.2 b (by omega)]
            · rw [if_neg hl]
        · by_cases hb : b = a
          · subst hb; rw [if_pos rfl, cellGet, if_pos rfl]
          · rw [if_neg hb, cellGet, if_neg (Ne.symm hb), cellGet, if_neg (Ne.symm hb)]
      · rename_i h1 h2
        rw [cellGet, ih h.2, cellGet]
        by_cases hj : j = b
        · subst hj; rw [if_pos rfl, if_pos rfl, if_neg (fun hh => h2 hh.symm)]
        · rw [if_neg hj, if_neg hj]
          by_cases hb : b < j
          · rw [if_pos hb, if_pos hb, if_neg (by omega)]
          · rw [if_neg hb, if_neg hb]

/-- Bytes written keep memory canonical. -/
theorem cellsSet_wf {m : List Host.Cell} (h : Memory.wf m = true) (a : Nat) (bs : List Byte) :
    Memory.wf (cellsSet m a bs) = true := by
  induction bs generalizing m a with
  | nil => exact h
  | cons b bs ih => exact ih (cellSet_wf h a b) (a + 1)

/-- A read after a write of bytes. -/
theorem cellGet_cellsSet {m : List Host.Cell} (h : Memory.wf m = true) (a b : Nat) (bs : List Byte) :
    cellGet (cellsSet m a bs) b = if a ≤ b ∧ b < a + bs.length then bs.getD (b - a) 0 else cellGet m b := by
  induction bs generalizing m a with
  | nil => rw [cellsSet, if_neg (by simp only [List.length_nil]; omega)]
  | cons x bs ih =>
    rw [cellsSet, ih (cellSet_wf h a x), cellGet_cellSet h]
    by_cases hb : b = a
    · subst hb
      rw [if_neg (by omega), if_pos rfl, if_pos (by simp only [List.length_cons]; omega), Nat.sub_self]
      rfl
    · rw [if_neg hb]
      by_cases hr : a + 1 ≤ b ∧ b < a + 1 + bs.length
      · rw [if_pos hr, if_pos (by simp only [List.length_cons]; omega)]
        have : b - a = (b - (a + 1)) + 1 := by omega
        rw [this, List.getD_cons_succ]
      · rw [if_neg hr, if_neg (by simp only [List.length_cons]; omega)]

/-- Cells that a condition on addresses keeps are canonical. -/
theorem cells_filter_from {lo : Nat} {m : List Host.Cell} (h : cellsFrom lo m = true) (p : Nat → Bool) :
    cellsFrom lo (m.filter (fun c => p c.1)) = true := by
  induction m generalizing lo with
  | nil => rfl
  | cons e t ih =>
    obtain ⟨j, b⟩ := e
    simp only [cellsFrom, Bool.and_eq_true, decide_eq_true_eq] at h
    rw [List.filter_cons]
    split
    · simp only [cellsFrom, Bool.and_eq_true, decide_eq_true_eq]
      exact ⟨h.1, ih h.2⟩
    · exact cellsFrom_mono (ih h.2) (by omega)

theorem cells_filter_wf {m : List Host.Cell} (h : Memory.wf m = true) (p : Nat → Bool) :
    Memory.wf (m.filter (fun c => p c.1)) = true := cells_filter_from h p

/-- The bytes of a line operation, as cells. -/
theorem lineCells_wf {m : List Host.Cell} (h : Memory.wf m = true) (base : Nat) (w : LineW) :
    Memory.wf (List.foldl (fun m (e : Nat × (Byte × Half)) => cellSet m (base + e.1) e.2.1) m w) = true := by
  induction w generalizing m with
  | nil => exact h
  | cons e w ih => exact ih (cellSet_wf h _ _)

/-- Outside its offsets a line operation leaves every byte. -/
theorem lineCells_other {m : List Host.Cell} (h : Memory.wf m = true) (base b : Nat) (w : LineW)
    (hb : ∀ e ∈ w, b ≠ base + e.1) :
    cellGet (List.foldl (fun m (e : Nat × (Byte × Half)) => cellSet m (base + e.1) e.2.1) m w) b = cellGet m b := by
  induction w generalizing m with
  | nil => rfl
  | cons e w ih =>
    rw [List.foldl_cons, ih (cellSet_wf h _ _) (fun e he => hb e (List.mem_cons_of_mem _ he)), cellGet_cellSet h,
      if_neg (hb e List.mem_cons_self)]

/-! ### Line operations -/

theorem State.recSet_eq (s : State) (line : Nat) (r : Quad) : s.recSet line r = { s with mem := (s.recSet line r).mem } := by
  unfold State.recSet; split <;> (try split) <;> rfl

theorem State.setPoison_eq (s : State) (line : Nat) (b : Bool) :
    s.setPoison line b = { s with poison := (s.setPoison line b).poison } := by
  unfold State.setPoison; split <;> (try split) <;> rfl

theorem State.cacheHome_eq (s : State) (c : Option Nat) (cls line : Nat) (w : Bool) :
    s.cacheHome c cls line w = { s with caches := (s.cacheHome c cls line w).caches } := by
  unfold State.cacheHome; dsimp only; split <;> rfl

theorem State.cacheRead_eq (s : State) (n c cls line : Nat) :
    s.cacheRead n c cls line = { s with caches := (s.cacheRead n c cls line).caches } := by
  unfold State.cacheRead
  dsimp only
  split
  · split
    · exact State.cacheHome_eq _ _ _ _ _
    · split
      · rfl
      · rw [State.cacheHome_eq]
  · exact State.cacheHome_eq _ _ _ _ _

theorem State.cacheWrite_eq (s : State) (c : Option Nat) (cls line : Nat) :
    s.cacheWrite c cls line = { s with caches := (s.cacheWrite c cls line).caches } := by
  unfold State.cacheWrite; dsimp only; rw [State.cacheHome_eq]

theorem State.undoLog_eq (s : State) (c line : Nat) : s.undoLog c line = { s with undo := (s.undoLog c line).undo } := by
  unfold State.undoLog; dsimp only; split <;> (try split) <;> rfl

@[simp] theorem State.recSet_clk (s : State) (line : Nat) (r : Quad) : (s.recSet line r).clk = s.clk := by rw [State.recSet_eq]
@[simp] theorem State.recSet_rt (s : State) (line : Nat) (r : Quad) : (s.recSet line r).rt = s.rt := by rw [State.recSet_eq]
@[simp] theorem State.recSet_rtPhase (s : State) (line : Nat) (r : Quad) : (s.recSet line r).rtPhase = s.rtPhase := by rw [State.recSet_eq]
@[simp] theorem State.recSet_power (s : State) (line : Nat) (r : Quad) : (s.recSet line r).power = s.power := by rw [State.recSet_eq]
@[simp] theorem State.recSet_recovery (s : State) (line : Nat) (r : Quad) : (s.recSet line r).recovery = s.recovery := by rw [State.recSet_eq]
@[simp] theorem State.recSet_poison (s : State) (line : Nat) (r : Quad) : (s.recSet line r).poison = s.poison := by rw [State.recSet_eq]
@[simp] theorem State.recSet_lineKey (s : State) (line : Nat) (r : Quad) : (s.recSet line r).lineKey = s.lineKey := by rw [State.recSet_eq]
@[simp] theorem State.recSet_caches (s : State) (line : Nat) (r : Quad) : (s.recSet line r).caches = s.caches := by rw [State.recSet_eq]
@[simp] theorem State.recSet_keys (s : State) (line : Nat) (r : Quad) : (s.recSet line r).keys = s.keys := by rw [State.recSet_eq]
@[simp] theorem State.recSet_keyGen (s : State) (line : Nat) (r : Quad) : (s.recSet line r).keyGen = s.keyGen := by rw [State.recSet_eq]
@[simp] theorem State.recSet_spdm (s : State) (line : Nat) (r : Quad) : (s.recSet line r).spdm = s.spdm := by rw [State.recSet_eq]
@[simp] theorem State.recSet_leaf (s : State) (line : Nat) (r : Quad) : (s.recSet line r).leaf = s.leaf := by rw [State.recSet_eq]
@[simp] theorem State.recSet_fqcfg (s : State) (line : Nat) (r : Quad) : (s.recSet line r).fqcfg = s.fqcfg := by rw [State.recSet_eq]
@[simp] theorem State.recSet_fqIdx (s : State) (line : Nat) (r : Quad) : (s.recSet line r).fqIdx = s.fqIdx := by rw [State.recSet_eq]
@[simp] theorem State.recSet_hqcfg (s : State) (line : Nat) (r : Quad) : (s.recSet line r).hqcfg = s.hqcfg := by rw [State.recSet_eq]
@[simp] theorem State.recSet_hqIdx (s : State) (line : Nat) (r : Quad) : (s.recSet line r).hqIdx = s.hqIdx := by rw [State.recSet_eq]
@[simp] theorem State.recSet_errcfg (s : State) (line : Nat) (r : Quad) : (s.recSet line r).errcfg = s.errcfg := by rw [State.recSet_eq]
@[simp] theorem State.recSet_pwrcfg (s : State) (line : Nat) (r : Quad) : (s.recSet line r).pwrcfg = s.pwrcfg := by rw [State.recSet_eq]
@[simp] theorem State.recSet_capNow (s : State) (line : Nat) (r : Quad) : (s.recSet line r).capNow = s.capNow := by rw [State.recSet_eq]
@[simp] theorem State.recSet_window (s : State) (line : Nat) (r : Quad) : (s.recSet line r).window = s.window := by rw [State.recSet_eq]
@[simp] theorem State.recSet_brcfg (s : State) (line : Nat) (r : Quad) : (s.recSet line r).brcfg = s.brcfg := by rw [State.recSet_eq]
@[simp] theorem State.recSet_ulHub (s : State) (line : Nat) (r : Quad) : (s.recSet line r).ulHub = s.ulHub := by rw [State.recSet_eq]
@[simp] theorem State.recSet_riminj (s : State) (line : Nat) (r : Quad) : (s.recSet line r).riminj = s.riminj := by rw [State.recSet_eq]
@[simp] theorem State.recSet_rimOff (s : State) (line : Nat) (r : Quad) : (s.recSet line r).rimOff = s.rimOff := by rw [State.recSet_eq]
@[simp] theorem State.recSet_w1cAt (s : State) (line : Nat) (r : Quad) : (s.recSet line r).w1cAt = s.w1cAt := by rw [State.recSet_eq]
@[simp] theorem State.recSet_ctxs (s : State) (line : Nat) (r : Quad) : (s.recSet line r).ctxs = s.ctxs := by rw [State.recSet_eq]
@[simp] theorem State.recSet_stks (s : State) (line : Nat) (r : Quad) : (s.recSet line r).stks = s.stks := by rw [State.recSet_eq]
@[simp] theorem State.recSet_undo (s : State) (line : Nat) (r : Quad) : (s.recSet line r).undo = s.undo := by rw [State.recSet_eq]
@[simp] theorem State.recSet_queues (s : State) (line : Nat) (r : Quad) : (s.recSet line r).queues = s.queues := by rw [State.recSet_eq]
@[simp] theorem State.recSet_procs (s : State) (line : Nat) (r : Quad) : (s.recSet line r).procs = s.procs := by rw [State.recSet_eq]
@[simp] theorem State.recSet_launches (s : State) (line : Nat) (r : Quad) : (s.recSet line r).launches = s.launches := by rw [State.recSet_eq]
@[simp] theorem State.recSet_nextLaunch (s : State) (line : Nat) (r : Quad) : (s.recSet line r).nextLaunch = s.nextLaunch := by rw [State.recSet_eq]
@[simp] theorem State.recSet_gangHold (s : State) (line : Nat) (r : Quad) : (s.recSet line r).gangHold = s.gangHold := by rw [State.recSet_eq]
@[simp] theorem State.recSet_dist (s : State) (line : Nat) (r : Quad) : (s.recSet line r).dist = s.dist := by rw [State.recSet_eq]
@[simp] theorem State.recSet_placeAt (s : State) (line : Nat) (r : Quad) : (s.recSet line r).placeAt = s.placeAt := by rw [State.recSet_eq]
@[simp] theorem State.recSet_teams (s : State) (line : Nat) (r : Quad) : (s.recSet line r).teams = s.teams := by rw [State.recSet_eq]
@[simp] theorem State.recSet_nextTeam (s : State) (line : Nat) (r : Quad) : (s.recSet line r).nextTeam = s.nextTeam := by rw [State.recSet_eq]
@[simp] theorem State.recSet_groups (s : State) (line : Nat) (r : Quad) : (s.recSet line r).groups = s.groups := by rw [State.recSet_eq]
@[simp] theorem State.recSet_nextGroup (s : State) (line : Nat) (r : Quad) : (s.recSet line r).nextGroup = s.nextGroup := by rw [State.recSet_eq]
@[simp] theorem State.recSet_wide (s : State) (line : Nat) (r : Quad) : (s.recSet line r).wide = s.wide := by rw [State.recSet_eq]
@[simp] theorem State.recSet_nextWide (s : State) (line : Nat) (r : Quad) : (s.recSet line r).nextWide = s.nextWide := by rw [State.recSet_eq]
@[simp] theorem State.recSet_cores (s : State) (line : Nat) (r : Quad) : (s.recSet line r).cores = s.cores := by rw [State.recSet_eq]
@[simp] theorem State.recSet_quads (s : State) (line : Nat) (r : Quad) : (s.recSet line r).quads = s.quads := by rw [State.recSet_eq]
@[simp] theorem State.recSet_ops (s : State) (line : Nat) (r : Quad) : (s.recSet line r).ops = s.ops := by rw [State.recSet_eq]
@[simp] theorem State.recSet_nextOp (s : State) (line : Nat) (r : Quad) : (s.recSet line r).nextOp = s.nextOp := by rw [State.recSet_eq]
@[simp] theorem State.recSet_nextPid (s : State) (line : Nat) (r : Quad) : (s.recSet line r).nextPid = s.nextPid := by rw [State.recSet_eq]
@[simp] theorem State.recSet_tlb (s : State) (line : Nat) (r : Quad) : (s.recSet line r).tlb = s.tlb := by rw [State.recSet_eq]
@[simp] theorem State.recSet_faults (s : State) (line : Nat) (r : Quad) : (s.recSet line r).faults = s.faults := by rw [State.recSet_eq]
@[simp] theorem State.recSet_halters (s : State) (line : Nat) (r : Quad) : (s.recSet line r).halters = s.halters := by rw [State.recSet_eq]
@[simp] theorem State.recSet_answers (s : State) (line : Nat) (r : Quad) : (s.recSet line r).answers = s.answers := by rw [State.recSet_eq]
@[simp] theorem State.recSet_models (s : State) (line : Nat) (r : Quad) : (s.recSet line r).models = s.models := by rw [State.recSet_eq]
@[simp] theorem State.recSet_useCnt (s : State) (line : Nat) (r : Quad) : (s.recSet line r).useCnt = s.useCnt := by rw [State.recSet_eq]
@[simp] theorem State.recSet_swaps (s : State) (line : Nat) (r : Quad) : (s.recSet line r).swaps = s.swaps := by rw [State.recSet_eq]
@[simp] theorem State.recSet_leaving (s : State) (line : Nat) (r : Quad) : (s.recSet line r).leaving = s.leaving := by rw [State.recSet_eq]
@[simp] theorem State.recSet_nextReq (s : State) (line : Nat) (r : Quad) : (s.recSet line r).nextReq = s.nextReq := by rw [State.recSet_eq]
@[simp] theorem State.recSet_sessions (s : State) (line : Nat) (r : Quad) : (s.recSet line r).sessions = s.sessions := by rw [State.recSet_eq]
@[simp] theorem State.recSet_rimDown (s : State) (line : Nat) (r : Quad) : (s.recSet line r).rimDown = s.rimDown := by rw [State.recSet_eq]
@[simp] theorem State.recSet_cxlDown (s : State) (line : Nat) (r : Quad) : (s.recSet line r).cxlDown = s.cxlDown := by rw [State.recSet_eq]
@[simp] theorem State.recSet_colls (s : State) (line : Nat) (r : Quad) : (s.recSet line r).colls = s.colls := by rw [State.recSet_eq]
@[simp] theorem State.recSet_errs (s : State) (line : Nat) (r : Quad) : (s.recSet line r).errs = s.errs := by rw [State.recSet_eq]
@[simp] theorem State.recSet_boxes (s : State) (line : Nat) (r : Quad) : (s.recSet line r).boxes = s.boxes := by rw [State.recSet_eq]
@[simp] theorem State.recSet_net (s : State) (line : Nat) (r : Quad) : (s.recSet line r).net = s.net := by rw [State.recSet_eq]
@[simp] theorem State.recSet_cur (s : State) (line : Nat) (r : Quad) : (s.recSet line r).cur = s.cur := by rw [State.recSet_eq]
@[simp] theorem State.recSet_script (s : State) (line : Nat) (r : Quad) : (s.recSet line r).script = s.script := by rw [State.recSet_eq]
@[simp] theorem State.recSet_free (s : State) (line : Nat) (r : Quad) : (s.recSet line r).free = s.free := by rw [State.recSet_eq]
@[simp] theorem State.recSet_hole (s : State) (line : Nat) (r : Quad) : (s.recSet line r).hole = s.hole := by rw [State.recSet_eq]

@[simp] theorem State.setPoison_clk (s : State) (line : Nat) (b : Bool) : (s.setPoison line b).clk = s.clk := by rw [State.setPoison_eq]
@[simp] theorem State.setPoison_rt (s : State) (line : Nat) (b : Bool) : (s.setPoison line b).rt = s.rt := by rw [State.setPoison_eq]
@[simp] theorem State.setPoison_rtPhase (s : State) (line : Nat) (b : Bool) : (s.setPoison line b).rtPhase = s.rtPhase := by rw [State.setPoison_eq]
@[simp] theorem State.setPoison_power (s : State) (line : Nat) (b : Bool) : (s.setPoison line b).power = s.power := by rw [State.setPoison_eq]
@[simp] theorem State.setPoison_recovery (s : State) (line : Nat) (b : Bool) : (s.setPoison line b).recovery = s.recovery := by rw [State.setPoison_eq]
@[simp] theorem State.setPoison_mem (s : State) (line : Nat) (b : Bool) : (s.setPoison line b).mem = s.mem := by rw [State.setPoison_eq]
@[simp] theorem State.setPoison_lineKey (s : State) (line : Nat) (b : Bool) : (s.setPoison line b).lineKey = s.lineKey := by rw [State.setPoison_eq]
@[simp] theorem State.setPoison_caches (s : State) (line : Nat) (b : Bool) : (s.setPoison line b).caches = s.caches := by rw [State.setPoison_eq]
@[simp] theorem State.setPoison_keys (s : State) (line : Nat) (b : Bool) : (s.setPoison line b).keys = s.keys := by rw [State.setPoison_eq]
@[simp] theorem State.setPoison_keyGen (s : State) (line : Nat) (b : Bool) : (s.setPoison line b).keyGen = s.keyGen := by rw [State.setPoison_eq]
@[simp] theorem State.setPoison_spdm (s : State) (line : Nat) (b : Bool) : (s.setPoison line b).spdm = s.spdm := by rw [State.setPoison_eq]
@[simp] theorem State.setPoison_leaf (s : State) (line : Nat) (b : Bool) : (s.setPoison line b).leaf = s.leaf := by rw [State.setPoison_eq]
@[simp] theorem State.setPoison_fqcfg (s : State) (line : Nat) (b : Bool) : (s.setPoison line b).fqcfg = s.fqcfg := by rw [State.setPoison_eq]
@[simp] theorem State.setPoison_fqIdx (s : State) (line : Nat) (b : Bool) : (s.setPoison line b).fqIdx = s.fqIdx := by rw [State.setPoison_eq]
@[simp] theorem State.setPoison_hqcfg (s : State) (line : Nat) (b : Bool) : (s.setPoison line b).hqcfg = s.hqcfg := by rw [State.setPoison_eq]
@[simp] theorem State.setPoison_hqIdx (s : State) (line : Nat) (b : Bool) : (s.setPoison line b).hqIdx = s.hqIdx := by rw [State.setPoison_eq]
@[simp] theorem State.setPoison_errcfg (s : State) (line : Nat) (b : Bool) : (s.setPoison line b).errcfg = s.errcfg := by rw [State.setPoison_eq]
@[simp] theorem State.setPoison_pwrcfg (s : State) (line : Nat) (b : Bool) : (s.setPoison line b).pwrcfg = s.pwrcfg := by rw [State.setPoison_eq]
@[simp] theorem State.setPoison_capNow (s : State) (line : Nat) (b : Bool) : (s.setPoison line b).capNow = s.capNow := by rw [State.setPoison_eq]
@[simp] theorem State.setPoison_window (s : State) (line : Nat) (b : Bool) : (s.setPoison line b).window = s.window := by rw [State.setPoison_eq]
@[simp] theorem State.setPoison_brcfg (s : State) (line : Nat) (b : Bool) : (s.setPoison line b).brcfg = s.brcfg := by rw [State.setPoison_eq]
@[simp] theorem State.setPoison_ulHub (s : State) (line : Nat) (b : Bool) : (s.setPoison line b).ulHub = s.ulHub := by rw [State.setPoison_eq]
@[simp] theorem State.setPoison_riminj (s : State) (line : Nat) (b : Bool) : (s.setPoison line b).riminj = s.riminj := by rw [State.setPoison_eq]
@[simp] theorem State.setPoison_rimOff (s : State) (line : Nat) (b : Bool) : (s.setPoison line b).rimOff = s.rimOff := by rw [State.setPoison_eq]
@[simp] theorem State.setPoison_w1cAt (s : State) (line : Nat) (b : Bool) : (s.setPoison line b).w1cAt = s.w1cAt := by rw [State.setPoison_eq]
@[simp] theorem State.setPoison_ctxs (s : State) (line : Nat) (b : Bool) : (s.setPoison line b).ctxs = s.ctxs := by rw [State.setPoison_eq]
@[simp] theorem State.setPoison_stks (s : State) (line : Nat) (b : Bool) : (s.setPoison line b).stks = s.stks := by rw [State.setPoison_eq]
@[simp] theorem State.setPoison_undo (s : State) (line : Nat) (b : Bool) : (s.setPoison line b).undo = s.undo := by rw [State.setPoison_eq]
@[simp] theorem State.setPoison_queues (s : State) (line : Nat) (b : Bool) : (s.setPoison line b).queues = s.queues := by rw [State.setPoison_eq]
@[simp] theorem State.setPoison_procs (s : State) (line : Nat) (b : Bool) : (s.setPoison line b).procs = s.procs := by rw [State.setPoison_eq]
@[simp] theorem State.setPoison_launches (s : State) (line : Nat) (b : Bool) : (s.setPoison line b).launches = s.launches := by rw [State.setPoison_eq]
@[simp] theorem State.setPoison_nextLaunch (s : State) (line : Nat) (b : Bool) : (s.setPoison line b).nextLaunch = s.nextLaunch := by rw [State.setPoison_eq]
@[simp] theorem State.setPoison_gangHold (s : State) (line : Nat) (b : Bool) : (s.setPoison line b).gangHold = s.gangHold := by rw [State.setPoison_eq]
@[simp] theorem State.setPoison_dist (s : State) (line : Nat) (b : Bool) : (s.setPoison line b).dist = s.dist := by rw [State.setPoison_eq]
@[simp] theorem State.setPoison_placeAt (s : State) (line : Nat) (b : Bool) : (s.setPoison line b).placeAt = s.placeAt := by rw [State.setPoison_eq]
@[simp] theorem State.setPoison_teams (s : State) (line : Nat) (b : Bool) : (s.setPoison line b).teams = s.teams := by rw [State.setPoison_eq]
@[simp] theorem State.setPoison_nextTeam (s : State) (line : Nat) (b : Bool) : (s.setPoison line b).nextTeam = s.nextTeam := by rw [State.setPoison_eq]
@[simp] theorem State.setPoison_groups (s : State) (line : Nat) (b : Bool) : (s.setPoison line b).groups = s.groups := by rw [State.setPoison_eq]
@[simp] theorem State.setPoison_nextGroup (s : State) (line : Nat) (b : Bool) : (s.setPoison line b).nextGroup = s.nextGroup := by rw [State.setPoison_eq]
@[simp] theorem State.setPoison_wide (s : State) (line : Nat) (b : Bool) : (s.setPoison line b).wide = s.wide := by rw [State.setPoison_eq]
@[simp] theorem State.setPoison_nextWide (s : State) (line : Nat) (b : Bool) : (s.setPoison line b).nextWide = s.nextWide := by rw [State.setPoison_eq]
@[simp] theorem State.setPoison_cores (s : State) (line : Nat) (b : Bool) : (s.setPoison line b).cores = s.cores := by rw [State.setPoison_eq]
@[simp] theorem State.setPoison_quads (s : State) (line : Nat) (b : Bool) : (s.setPoison line b).quads = s.quads := by rw [State.setPoison_eq]
@[simp] theorem State.setPoison_ops (s : State) (line : Nat) (b : Bool) : (s.setPoison line b).ops = s.ops := by rw [State.setPoison_eq]
@[simp] theorem State.setPoison_nextOp (s : State) (line : Nat) (b : Bool) : (s.setPoison line b).nextOp = s.nextOp := by rw [State.setPoison_eq]
@[simp] theorem State.setPoison_nextPid (s : State) (line : Nat) (b : Bool) : (s.setPoison line b).nextPid = s.nextPid := by rw [State.setPoison_eq]
@[simp] theorem State.setPoison_tlb (s : State) (line : Nat) (b : Bool) : (s.setPoison line b).tlb = s.tlb := by rw [State.setPoison_eq]
@[simp] theorem State.setPoison_faults (s : State) (line : Nat) (b : Bool) : (s.setPoison line b).faults = s.faults := by rw [State.setPoison_eq]
@[simp] theorem State.setPoison_halters (s : State) (line : Nat) (b : Bool) : (s.setPoison line b).halters = s.halters := by rw [State.setPoison_eq]
@[simp] theorem State.setPoison_answers (s : State) (line : Nat) (b : Bool) : (s.setPoison line b).answers = s.answers := by rw [State.setPoison_eq]
@[simp] theorem State.setPoison_models (s : State) (line : Nat) (b : Bool) : (s.setPoison line b).models = s.models := by rw [State.setPoison_eq]
@[simp] theorem State.setPoison_useCnt (s : State) (line : Nat) (b : Bool) : (s.setPoison line b).useCnt = s.useCnt := by rw [State.setPoison_eq]
@[simp] theorem State.setPoison_swaps (s : State) (line : Nat) (b : Bool) : (s.setPoison line b).swaps = s.swaps := by rw [State.setPoison_eq]
@[simp] theorem State.setPoison_leaving (s : State) (line : Nat) (b : Bool) : (s.setPoison line b).leaving = s.leaving := by rw [State.setPoison_eq]
@[simp] theorem State.setPoison_nextReq (s : State) (line : Nat) (b : Bool) : (s.setPoison line b).nextReq = s.nextReq := by rw [State.setPoison_eq]
@[simp] theorem State.setPoison_sessions (s : State) (line : Nat) (b : Bool) : (s.setPoison line b).sessions = s.sessions := by rw [State.setPoison_eq]
@[simp] theorem State.setPoison_rimDown (s : State) (line : Nat) (b : Bool) : (s.setPoison line b).rimDown = s.rimDown := by rw [State.setPoison_eq]
@[simp] theorem State.setPoison_cxlDown (s : State) (line : Nat) (b : Bool) : (s.setPoison line b).cxlDown = s.cxlDown := by rw [State.setPoison_eq]
@[simp] theorem State.setPoison_colls (s : State) (line : Nat) (b : Bool) : (s.setPoison line b).colls = s.colls := by rw [State.setPoison_eq]
@[simp] theorem State.setPoison_errs (s : State) (line : Nat) (b : Bool) : (s.setPoison line b).errs = s.errs := by rw [State.setPoison_eq]
@[simp] theorem State.setPoison_boxes (s : State) (line : Nat) (b : Bool) : (s.setPoison line b).boxes = s.boxes := by rw [State.setPoison_eq]
@[simp] theorem State.setPoison_net (s : State) (line : Nat) (b : Bool) : (s.setPoison line b).net = s.net := by rw [State.setPoison_eq]
@[simp] theorem State.setPoison_cur (s : State) (line : Nat) (b : Bool) : (s.setPoison line b).cur = s.cur := by rw [State.setPoison_eq]
@[simp] theorem State.setPoison_script (s : State) (line : Nat) (b : Bool) : (s.setPoison line b).script = s.script := by rw [State.setPoison_eq]
@[simp] theorem State.setPoison_free (s : State) (line : Nat) (b : Bool) : (s.setPoison line b).free = s.free := by rw [State.setPoison_eq]
@[simp] theorem State.setPoison_hole (s : State) (line : Nat) (b : Bool) : (s.setPoison line b).hole = s.hole := by rw [State.setPoison_eq]

@[simp] theorem State.undoLog_clk (s : State) (c line : Nat) : (s.undoLog c line).clk = s.clk := by rw [State.undoLog_eq]
@[simp] theorem State.undoLog_rt (s : State) (c line : Nat) : (s.undoLog c line).rt = s.rt := by rw [State.undoLog_eq]
@[simp] theorem State.undoLog_rtPhase (s : State) (c line : Nat) : (s.undoLog c line).rtPhase = s.rtPhase := by rw [State.undoLog_eq]
@[simp] theorem State.undoLog_power (s : State) (c line : Nat) : (s.undoLog c line).power = s.power := by rw [State.undoLog_eq]
@[simp] theorem State.undoLog_recovery (s : State) (c line : Nat) : (s.undoLog c line).recovery = s.recovery := by rw [State.undoLog_eq]
@[simp] theorem State.undoLog_mem (s : State) (c line : Nat) : (s.undoLog c line).mem = s.mem := by rw [State.undoLog_eq]
@[simp] theorem State.undoLog_poison (s : State) (c line : Nat) : (s.undoLog c line).poison = s.poison := by rw [State.undoLog_eq]
@[simp] theorem State.undoLog_lineKey (s : State) (c line : Nat) : (s.undoLog c line).lineKey = s.lineKey := by rw [State.undoLog_eq]
@[simp] theorem State.undoLog_caches (s : State) (c line : Nat) : (s.undoLog c line).caches = s.caches := by rw [State.undoLog_eq]
@[simp] theorem State.undoLog_keys (s : State) (c line : Nat) : (s.undoLog c line).keys = s.keys := by rw [State.undoLog_eq]
@[simp] theorem State.undoLog_keyGen (s : State) (c line : Nat) : (s.undoLog c line).keyGen = s.keyGen := by rw [State.undoLog_eq]
@[simp] theorem State.undoLog_spdm (s : State) (c line : Nat) : (s.undoLog c line).spdm = s.spdm := by rw [State.undoLog_eq]
@[simp] theorem State.undoLog_leaf (s : State) (c line : Nat) : (s.undoLog c line).leaf = s.leaf := by rw [State.undoLog_eq]
@[simp] theorem State.undoLog_fqcfg (s : State) (c line : Nat) : (s.undoLog c line).fqcfg = s.fqcfg := by rw [State.undoLog_eq]
@[simp] theorem State.undoLog_fqIdx (s : State) (c line : Nat) : (s.undoLog c line).fqIdx = s.fqIdx := by rw [State.undoLog_eq]
@[simp] theorem State.undoLog_hqcfg (s : State) (c line : Nat) : (s.undoLog c line).hqcfg = s.hqcfg := by rw [State.undoLog_eq]
@[simp] theorem State.undoLog_hqIdx (s : State) (c line : Nat) : (s.undoLog c line).hqIdx = s.hqIdx := by rw [State.undoLog_eq]
@[simp] theorem State.undoLog_errcfg (s : State) (c line : Nat) : (s.undoLog c line).errcfg = s.errcfg := by rw [State.undoLog_eq]
@[simp] theorem State.undoLog_pwrcfg (s : State) (c line : Nat) : (s.undoLog c line).pwrcfg = s.pwrcfg := by rw [State.undoLog_eq]
@[simp] theorem State.undoLog_capNow (s : State) (c line : Nat) : (s.undoLog c line).capNow = s.capNow := by rw [State.undoLog_eq]
@[simp] theorem State.undoLog_window (s : State) (c line : Nat) : (s.undoLog c line).window = s.window := by rw [State.undoLog_eq]
@[simp] theorem State.undoLog_brcfg (s : State) (c line : Nat) : (s.undoLog c line).brcfg = s.brcfg := by rw [State.undoLog_eq]
@[simp] theorem State.undoLog_ulHub (s : State) (c line : Nat) : (s.undoLog c line).ulHub = s.ulHub := by rw [State.undoLog_eq]
@[simp] theorem State.undoLog_riminj (s : State) (c line : Nat) : (s.undoLog c line).riminj = s.riminj := by rw [State.undoLog_eq]
@[simp] theorem State.undoLog_rimOff (s : State) (c line : Nat) : (s.undoLog c line).rimOff = s.rimOff := by rw [State.undoLog_eq]
@[simp] theorem State.undoLog_w1cAt (s : State) (c line : Nat) : (s.undoLog c line).w1cAt = s.w1cAt := by rw [State.undoLog_eq]
@[simp] theorem State.undoLog_ctxs (s : State) (c line : Nat) : (s.undoLog c line).ctxs = s.ctxs := by rw [State.undoLog_eq]
@[simp] theorem State.undoLog_stks (s : State) (c line : Nat) : (s.undoLog c line).stks = s.stks := by rw [State.undoLog_eq]
@[simp] theorem State.undoLog_queues (s : State) (c line : Nat) : (s.undoLog c line).queues = s.queues := by rw [State.undoLog_eq]
@[simp] theorem State.undoLog_procs (s : State) (c line : Nat) : (s.undoLog c line).procs = s.procs := by rw [State.undoLog_eq]
@[simp] theorem State.undoLog_launches (s : State) (c line : Nat) : (s.undoLog c line).launches = s.launches := by rw [State.undoLog_eq]
@[simp] theorem State.undoLog_nextLaunch (s : State) (c line : Nat) : (s.undoLog c line).nextLaunch = s.nextLaunch := by rw [State.undoLog_eq]
@[simp] theorem State.undoLog_gangHold (s : State) (c line : Nat) : (s.undoLog c line).gangHold = s.gangHold := by rw [State.undoLog_eq]
@[simp] theorem State.undoLog_dist (s : State) (c line : Nat) : (s.undoLog c line).dist = s.dist := by rw [State.undoLog_eq]
@[simp] theorem State.undoLog_placeAt (s : State) (c line : Nat) : (s.undoLog c line).placeAt = s.placeAt := by rw [State.undoLog_eq]
@[simp] theorem State.undoLog_teams (s : State) (c line : Nat) : (s.undoLog c line).teams = s.teams := by rw [State.undoLog_eq]
@[simp] theorem State.undoLog_nextTeam (s : State) (c line : Nat) : (s.undoLog c line).nextTeam = s.nextTeam := by rw [State.undoLog_eq]
@[simp] theorem State.undoLog_groups (s : State) (c line : Nat) : (s.undoLog c line).groups = s.groups := by rw [State.undoLog_eq]
@[simp] theorem State.undoLog_nextGroup (s : State) (c line : Nat) : (s.undoLog c line).nextGroup = s.nextGroup := by rw [State.undoLog_eq]
@[simp] theorem State.undoLog_wide (s : State) (c line : Nat) : (s.undoLog c line).wide = s.wide := by rw [State.undoLog_eq]
@[simp] theorem State.undoLog_nextWide (s : State) (c line : Nat) : (s.undoLog c line).nextWide = s.nextWide := by rw [State.undoLog_eq]
@[simp] theorem State.undoLog_cores (s : State) (c line : Nat) : (s.undoLog c line).cores = s.cores := by rw [State.undoLog_eq]
@[simp] theorem State.undoLog_quads (s : State) (c line : Nat) : (s.undoLog c line).quads = s.quads := by rw [State.undoLog_eq]
@[simp] theorem State.undoLog_ops (s : State) (c line : Nat) : (s.undoLog c line).ops = s.ops := by rw [State.undoLog_eq]
@[simp] theorem State.undoLog_nextOp (s : State) (c line : Nat) : (s.undoLog c line).nextOp = s.nextOp := by rw [State.undoLog_eq]
@[simp] theorem State.undoLog_nextPid (s : State) (c line : Nat) : (s.undoLog c line).nextPid = s.nextPid := by rw [State.undoLog_eq]
@[simp] theorem State.undoLog_tlb (s : State) (c line : Nat) : (s.undoLog c line).tlb = s.tlb := by rw [State.undoLog_eq]
@[simp] theorem State.undoLog_faults (s : State) (c line : Nat) : (s.undoLog c line).faults = s.faults := by rw [State.undoLog_eq]
@[simp] theorem State.undoLog_halters (s : State) (c line : Nat) : (s.undoLog c line).halters = s.halters := by rw [State.undoLog_eq]
@[simp] theorem State.undoLog_answers (s : State) (c line : Nat) : (s.undoLog c line).answers = s.answers := by rw [State.undoLog_eq]
@[simp] theorem State.undoLog_models (s : State) (c line : Nat) : (s.undoLog c line).models = s.models := by rw [State.undoLog_eq]
@[simp] theorem State.undoLog_useCnt (s : State) (c line : Nat) : (s.undoLog c line).useCnt = s.useCnt := by rw [State.undoLog_eq]
@[simp] theorem State.undoLog_swaps (s : State) (c line : Nat) : (s.undoLog c line).swaps = s.swaps := by rw [State.undoLog_eq]
@[simp] theorem State.undoLog_leaving (s : State) (c line : Nat) : (s.undoLog c line).leaving = s.leaving := by rw [State.undoLog_eq]
@[simp] theorem State.undoLog_nextReq (s : State) (c line : Nat) : (s.undoLog c line).nextReq = s.nextReq := by rw [State.undoLog_eq]
@[simp] theorem State.undoLog_sessions (s : State) (c line : Nat) : (s.undoLog c line).sessions = s.sessions := by rw [State.undoLog_eq]
@[simp] theorem State.undoLog_rimDown (s : State) (c line : Nat) : (s.undoLog c line).rimDown = s.rimDown := by rw [State.undoLog_eq]
@[simp] theorem State.undoLog_cxlDown (s : State) (c line : Nat) : (s.undoLog c line).cxlDown = s.cxlDown := by rw [State.undoLog_eq]
@[simp] theorem State.undoLog_colls (s : State) (c line : Nat) : (s.undoLog c line).colls = s.colls := by rw [State.undoLog_eq]
@[simp] theorem State.undoLog_errs (s : State) (c line : Nat) : (s.undoLog c line).errs = s.errs := by rw [State.undoLog_eq]
@[simp] theorem State.undoLog_boxes (s : State) (c line : Nat) : (s.undoLog c line).boxes = s.boxes := by rw [State.undoLog_eq]
@[simp] theorem State.undoLog_net (s : State) (c line : Nat) : (s.undoLog c line).net = s.net := by rw [State.undoLog_eq]
@[simp] theorem State.undoLog_cur (s : State) (c line : Nat) : (s.undoLog c line).cur = s.cur := by rw [State.undoLog_eq]
@[simp] theorem State.undoLog_script (s : State) (c line : Nat) : (s.undoLog c line).script = s.script := by rw [State.undoLog_eq]
@[simp] theorem State.undoLog_free (s : State) (c line : Nat) : (s.undoLog c line).free = s.free := by rw [State.undoLog_eq]
@[simp] theorem State.undoLog_hole (s : State) (c line : Nat) : (s.undoLog c line).hole = s.hole := by rw [State.undoLog_eq]

@[simp] theorem State.cacheHome_clk (s : State) (c : Option Nat) (cls line : Nat) (w : Bool) : (s.cacheHome c cls line w).clk = s.clk := by rw [State.cacheHome_eq]
@[simp] theorem State.cacheHome_rt (s : State) (c : Option Nat) (cls line : Nat) (w : Bool) : (s.cacheHome c cls line w).rt = s.rt := by rw [State.cacheHome_eq]
@[simp] theorem State.cacheHome_rtPhase (s : State) (c : Option Nat) (cls line : Nat) (w : Bool) : (s.cacheHome c cls line w).rtPhase = s.rtPhase := by rw [State.cacheHome_eq]
@[simp] theorem State.cacheHome_power (s : State) (c : Option Nat) (cls line : Nat) (w : Bool) : (s.cacheHome c cls line w).power = s.power := by rw [State.cacheHome_eq]
@[simp] theorem State.cacheHome_recovery (s : State) (c : Option Nat) (cls line : Nat) (w : Bool) : (s.cacheHome c cls line w).recovery = s.recovery := by rw [State.cacheHome_eq]
@[simp] theorem State.cacheHome_mem (s : State) (c : Option Nat) (cls line : Nat) (w : Bool) : (s.cacheHome c cls line w).mem = s.mem := by rw [State.cacheHome_eq]
@[simp] theorem State.cacheHome_poison (s : State) (c : Option Nat) (cls line : Nat) (w : Bool) : (s.cacheHome c cls line w).poison = s.poison := by rw [State.cacheHome_eq]
@[simp] theorem State.cacheHome_lineKey (s : State) (c : Option Nat) (cls line : Nat) (w : Bool) : (s.cacheHome c cls line w).lineKey = s.lineKey := by rw [State.cacheHome_eq]
@[simp] theorem State.cacheHome_keys (s : State) (c : Option Nat) (cls line : Nat) (w : Bool) : (s.cacheHome c cls line w).keys = s.keys := by rw [State.cacheHome_eq]
@[simp] theorem State.cacheHome_keyGen (s : State) (c : Option Nat) (cls line : Nat) (w : Bool) : (s.cacheHome c cls line w).keyGen = s.keyGen := by rw [State.cacheHome_eq]
@[simp] theorem State.cacheHome_spdm (s : State) (c : Option Nat) (cls line : Nat) (w : Bool) : (s.cacheHome c cls line w).spdm = s.spdm := by rw [State.cacheHome_eq]
@[simp] theorem State.cacheHome_leaf (s : State) (c : Option Nat) (cls line : Nat) (w : Bool) : (s.cacheHome c cls line w).leaf = s.leaf := by rw [State.cacheHome_eq]
@[simp] theorem State.cacheHome_fqcfg (s : State) (c : Option Nat) (cls line : Nat) (w : Bool) : (s.cacheHome c cls line w).fqcfg = s.fqcfg := by rw [State.cacheHome_eq]
@[simp] theorem State.cacheHome_fqIdx (s : State) (c : Option Nat) (cls line : Nat) (w : Bool) : (s.cacheHome c cls line w).fqIdx = s.fqIdx := by rw [State.cacheHome_eq]
@[simp] theorem State.cacheHome_hqcfg (s : State) (c : Option Nat) (cls line : Nat) (w : Bool) : (s.cacheHome c cls line w).hqcfg = s.hqcfg := by rw [State.cacheHome_eq]
@[simp] theorem State.cacheHome_hqIdx (s : State) (c : Option Nat) (cls line : Nat) (w : Bool) : (s.cacheHome c cls line w).hqIdx = s.hqIdx := by rw [State.cacheHome_eq]
@[simp] theorem State.cacheHome_errcfg (s : State) (c : Option Nat) (cls line : Nat) (w : Bool) : (s.cacheHome c cls line w).errcfg = s.errcfg := by rw [State.cacheHome_eq]
@[simp] theorem State.cacheHome_pwrcfg (s : State) (c : Option Nat) (cls line : Nat) (w : Bool) : (s.cacheHome c cls line w).pwrcfg = s.pwrcfg := by rw [State.cacheHome_eq]
@[simp] theorem State.cacheHome_capNow (s : State) (c : Option Nat) (cls line : Nat) (w : Bool) : (s.cacheHome c cls line w).capNow = s.capNow := by rw [State.cacheHome_eq]
@[simp] theorem State.cacheHome_window (s : State) (c : Option Nat) (cls line : Nat) (w : Bool) : (s.cacheHome c cls line w).window = s.window := by rw [State.cacheHome_eq]
@[simp] theorem State.cacheHome_brcfg (s : State) (c : Option Nat) (cls line : Nat) (w : Bool) : (s.cacheHome c cls line w).brcfg = s.brcfg := by rw [State.cacheHome_eq]
@[simp] theorem State.cacheHome_ulHub (s : State) (c : Option Nat) (cls line : Nat) (w : Bool) : (s.cacheHome c cls line w).ulHub = s.ulHub := by rw [State.cacheHome_eq]
@[simp] theorem State.cacheHome_riminj (s : State) (c : Option Nat) (cls line : Nat) (w : Bool) : (s.cacheHome c cls line w).riminj = s.riminj := by rw [State.cacheHome_eq]
@[simp] theorem State.cacheHome_rimOff (s : State) (c : Option Nat) (cls line : Nat) (w : Bool) : (s.cacheHome c cls line w).rimOff = s.rimOff := by rw [State.cacheHome_eq]
@[simp] theorem State.cacheHome_w1cAt (s : State) (c : Option Nat) (cls line : Nat) (w : Bool) : (s.cacheHome c cls line w).w1cAt = s.w1cAt := by rw [State.cacheHome_eq]
@[simp] theorem State.cacheHome_ctxs (s : State) (c : Option Nat) (cls line : Nat) (w : Bool) : (s.cacheHome c cls line w).ctxs = s.ctxs := by rw [State.cacheHome_eq]
@[simp] theorem State.cacheHome_stks (s : State) (c : Option Nat) (cls line : Nat) (w : Bool) : (s.cacheHome c cls line w).stks = s.stks := by rw [State.cacheHome_eq]
@[simp] theorem State.cacheHome_undo (s : State) (c : Option Nat) (cls line : Nat) (w : Bool) : (s.cacheHome c cls line w).undo = s.undo := by rw [State.cacheHome_eq]
@[simp] theorem State.cacheHome_queues (s : State) (c : Option Nat) (cls line : Nat) (w : Bool) : (s.cacheHome c cls line w).queues = s.queues := by rw [State.cacheHome_eq]
@[simp] theorem State.cacheHome_procs (s : State) (c : Option Nat) (cls line : Nat) (w : Bool) : (s.cacheHome c cls line w).procs = s.procs := by rw [State.cacheHome_eq]
@[simp] theorem State.cacheHome_launches (s : State) (c : Option Nat) (cls line : Nat) (w : Bool) : (s.cacheHome c cls line w).launches = s.launches := by rw [State.cacheHome_eq]
@[simp] theorem State.cacheHome_nextLaunch (s : State) (c : Option Nat) (cls line : Nat) (w : Bool) : (s.cacheHome c cls line w).nextLaunch = s.nextLaunch := by rw [State.cacheHome_eq]
@[simp] theorem State.cacheHome_gangHold (s : State) (c : Option Nat) (cls line : Nat) (w : Bool) : (s.cacheHome c cls line w).gangHold = s.gangHold := by rw [State.cacheHome_eq]
@[simp] theorem State.cacheHome_dist (s : State) (c : Option Nat) (cls line : Nat) (w : Bool) : (s.cacheHome c cls line w).dist = s.dist := by rw [State.cacheHome_eq]
@[simp] theorem State.cacheHome_placeAt (s : State) (c : Option Nat) (cls line : Nat) (w : Bool) : (s.cacheHome c cls line w).placeAt = s.placeAt := by rw [State.cacheHome_eq]
@[simp] theorem State.cacheHome_teams (s : State) (c : Option Nat) (cls line : Nat) (w : Bool) : (s.cacheHome c cls line w).teams = s.teams := by rw [State.cacheHome_eq]
@[simp] theorem State.cacheHome_nextTeam (s : State) (c : Option Nat) (cls line : Nat) (w : Bool) : (s.cacheHome c cls line w).nextTeam = s.nextTeam := by rw [State.cacheHome_eq]
@[simp] theorem State.cacheHome_groups (s : State) (c : Option Nat) (cls line : Nat) (w : Bool) : (s.cacheHome c cls line w).groups = s.groups := by rw [State.cacheHome_eq]
@[simp] theorem State.cacheHome_nextGroup (s : State) (c : Option Nat) (cls line : Nat) (w : Bool) : (s.cacheHome c cls line w).nextGroup = s.nextGroup := by rw [State.cacheHome_eq]
@[simp] theorem State.cacheHome_wide (s : State) (c : Option Nat) (cls line : Nat) (w : Bool) : (s.cacheHome c cls line w).wide = s.wide := by rw [State.cacheHome_eq]
@[simp] theorem State.cacheHome_nextWide (s : State) (c : Option Nat) (cls line : Nat) (w : Bool) : (s.cacheHome c cls line w).nextWide = s.nextWide := by rw [State.cacheHome_eq]
@[simp] theorem State.cacheHome_cores (s : State) (c : Option Nat) (cls line : Nat) (w : Bool) : (s.cacheHome c cls line w).cores = s.cores := by rw [State.cacheHome_eq]
@[simp] theorem State.cacheHome_quads (s : State) (c : Option Nat) (cls line : Nat) (w : Bool) : (s.cacheHome c cls line w).quads = s.quads := by rw [State.cacheHome_eq]
@[simp] theorem State.cacheHome_ops (s : State) (c : Option Nat) (cls line : Nat) (w : Bool) : (s.cacheHome c cls line w).ops = s.ops := by rw [State.cacheHome_eq]
@[simp] theorem State.cacheHome_nextOp (s : State) (c : Option Nat) (cls line : Nat) (w : Bool) : (s.cacheHome c cls line w).nextOp = s.nextOp := by rw [State.cacheHome_eq]
@[simp] theorem State.cacheHome_nextPid (s : State) (c : Option Nat) (cls line : Nat) (w : Bool) : (s.cacheHome c cls line w).nextPid = s.nextPid := by rw [State.cacheHome_eq]
@[simp] theorem State.cacheHome_tlb (s : State) (c : Option Nat) (cls line : Nat) (w : Bool) : (s.cacheHome c cls line w).tlb = s.tlb := by rw [State.cacheHome_eq]
@[simp] theorem State.cacheHome_faults (s : State) (c : Option Nat) (cls line : Nat) (w : Bool) : (s.cacheHome c cls line w).faults = s.faults := by rw [State.cacheHome_eq]
@[simp] theorem State.cacheHome_halters (s : State) (c : Option Nat) (cls line : Nat) (w : Bool) : (s.cacheHome c cls line w).halters = s.halters := by rw [State.cacheHome_eq]
@[simp] theorem State.cacheHome_answers (s : State) (c : Option Nat) (cls line : Nat) (w : Bool) : (s.cacheHome c cls line w).answers = s.answers := by rw [State.cacheHome_eq]
@[simp] theorem State.cacheHome_models (s : State) (c : Option Nat) (cls line : Nat) (w : Bool) : (s.cacheHome c cls line w).models = s.models := by rw [State.cacheHome_eq]
@[simp] theorem State.cacheHome_useCnt (s : State) (c : Option Nat) (cls line : Nat) (w : Bool) : (s.cacheHome c cls line w).useCnt = s.useCnt := by rw [State.cacheHome_eq]
@[simp] theorem State.cacheHome_swaps (s : State) (c : Option Nat) (cls line : Nat) (w : Bool) : (s.cacheHome c cls line w).swaps = s.swaps := by rw [State.cacheHome_eq]
@[simp] theorem State.cacheHome_leaving (s : State) (c : Option Nat) (cls line : Nat) (w : Bool) : (s.cacheHome c cls line w).leaving = s.leaving := by rw [State.cacheHome_eq]
@[simp] theorem State.cacheHome_nextReq (s : State) (c : Option Nat) (cls line : Nat) (w : Bool) : (s.cacheHome c cls line w).nextReq = s.nextReq := by rw [State.cacheHome_eq]
@[simp] theorem State.cacheHome_sessions (s : State) (c : Option Nat) (cls line : Nat) (w : Bool) : (s.cacheHome c cls line w).sessions = s.sessions := by rw [State.cacheHome_eq]
@[simp] theorem State.cacheHome_rimDown (s : State) (c : Option Nat) (cls line : Nat) (w : Bool) : (s.cacheHome c cls line w).rimDown = s.rimDown := by rw [State.cacheHome_eq]
@[simp] theorem State.cacheHome_cxlDown (s : State) (c : Option Nat) (cls line : Nat) (w : Bool) : (s.cacheHome c cls line w).cxlDown = s.cxlDown := by rw [State.cacheHome_eq]
@[simp] theorem State.cacheHome_colls (s : State) (c : Option Nat) (cls line : Nat) (w : Bool) : (s.cacheHome c cls line w).colls = s.colls := by rw [State.cacheHome_eq]
@[simp] theorem State.cacheHome_errs (s : State) (c : Option Nat) (cls line : Nat) (w : Bool) : (s.cacheHome c cls line w).errs = s.errs := by rw [State.cacheHome_eq]
@[simp] theorem State.cacheHome_boxes (s : State) (c : Option Nat) (cls line : Nat) (w : Bool) : (s.cacheHome c cls line w).boxes = s.boxes := by rw [State.cacheHome_eq]
@[simp] theorem State.cacheHome_net (s : State) (c : Option Nat) (cls line : Nat) (w : Bool) : (s.cacheHome c cls line w).net = s.net := by rw [State.cacheHome_eq]
@[simp] theorem State.cacheHome_cur (s : State) (c : Option Nat) (cls line : Nat) (w : Bool) : (s.cacheHome c cls line w).cur = s.cur := by rw [State.cacheHome_eq]
@[simp] theorem State.cacheHome_script (s : State) (c : Option Nat) (cls line : Nat) (w : Bool) : (s.cacheHome c cls line w).script = s.script := by rw [State.cacheHome_eq]
@[simp] theorem State.cacheHome_free (s : State) (c : Option Nat) (cls line : Nat) (w : Bool) : (s.cacheHome c cls line w).free = s.free := by rw [State.cacheHome_eq]
@[simp] theorem State.cacheHome_hole (s : State) (c : Option Nat) (cls line : Nat) (w : Bool) : (s.cacheHome c cls line w).hole = s.hole := by rw [State.cacheHome_eq]

@[simp] theorem State.cacheRead_clk (s : State) (n c cls line : Nat) : (s.cacheRead n c cls line).clk = s.clk := by rw [State.cacheRead_eq]
@[simp] theorem State.cacheRead_rt (s : State) (n c cls line : Nat) : (s.cacheRead n c cls line).rt = s.rt := by rw [State.cacheRead_eq]
@[simp] theorem State.cacheRead_rtPhase (s : State) (n c cls line : Nat) : (s.cacheRead n c cls line).rtPhase = s.rtPhase := by rw [State.cacheRead_eq]
@[simp] theorem State.cacheRead_power (s : State) (n c cls line : Nat) : (s.cacheRead n c cls line).power = s.power := by rw [State.cacheRead_eq]
@[simp] theorem State.cacheRead_recovery (s : State) (n c cls line : Nat) : (s.cacheRead n c cls line).recovery = s.recovery := by rw [State.cacheRead_eq]
@[simp] theorem State.cacheRead_mem (s : State) (n c cls line : Nat) : (s.cacheRead n c cls line).mem = s.mem := by rw [State.cacheRead_eq]
@[simp] theorem State.cacheRead_poison (s : State) (n c cls line : Nat) : (s.cacheRead n c cls line).poison = s.poison := by rw [State.cacheRead_eq]
@[simp] theorem State.cacheRead_lineKey (s : State) (n c cls line : Nat) : (s.cacheRead n c cls line).lineKey = s.lineKey := by rw [State.cacheRead_eq]
@[simp] theorem State.cacheRead_keys (s : State) (n c cls line : Nat) : (s.cacheRead n c cls line).keys = s.keys := by rw [State.cacheRead_eq]
@[simp] theorem State.cacheRead_keyGen (s : State) (n c cls line : Nat) : (s.cacheRead n c cls line).keyGen = s.keyGen := by rw [State.cacheRead_eq]
@[simp] theorem State.cacheRead_spdm (s : State) (n c cls line : Nat) : (s.cacheRead n c cls line).spdm = s.spdm := by rw [State.cacheRead_eq]
@[simp] theorem State.cacheRead_leaf (s : State) (n c cls line : Nat) : (s.cacheRead n c cls line).leaf = s.leaf := by rw [State.cacheRead_eq]
@[simp] theorem State.cacheRead_fqcfg (s : State) (n c cls line : Nat) : (s.cacheRead n c cls line).fqcfg = s.fqcfg := by rw [State.cacheRead_eq]
@[simp] theorem State.cacheRead_fqIdx (s : State) (n c cls line : Nat) : (s.cacheRead n c cls line).fqIdx = s.fqIdx := by rw [State.cacheRead_eq]
@[simp] theorem State.cacheRead_hqcfg (s : State) (n c cls line : Nat) : (s.cacheRead n c cls line).hqcfg = s.hqcfg := by rw [State.cacheRead_eq]
@[simp] theorem State.cacheRead_hqIdx (s : State) (n c cls line : Nat) : (s.cacheRead n c cls line).hqIdx = s.hqIdx := by rw [State.cacheRead_eq]
@[simp] theorem State.cacheRead_errcfg (s : State) (n c cls line : Nat) : (s.cacheRead n c cls line).errcfg = s.errcfg := by rw [State.cacheRead_eq]
@[simp] theorem State.cacheRead_pwrcfg (s : State) (n c cls line : Nat) : (s.cacheRead n c cls line).pwrcfg = s.pwrcfg := by rw [State.cacheRead_eq]
@[simp] theorem State.cacheRead_capNow (s : State) (n c cls line : Nat) : (s.cacheRead n c cls line).capNow = s.capNow := by rw [State.cacheRead_eq]
@[simp] theorem State.cacheRead_window (s : State) (n c cls line : Nat) : (s.cacheRead n c cls line).window = s.window := by rw [State.cacheRead_eq]
@[simp] theorem State.cacheRead_brcfg (s : State) (n c cls line : Nat) : (s.cacheRead n c cls line).brcfg = s.brcfg := by rw [State.cacheRead_eq]
@[simp] theorem State.cacheRead_ulHub (s : State) (n c cls line : Nat) : (s.cacheRead n c cls line).ulHub = s.ulHub := by rw [State.cacheRead_eq]
@[simp] theorem State.cacheRead_riminj (s : State) (n c cls line : Nat) : (s.cacheRead n c cls line).riminj = s.riminj := by rw [State.cacheRead_eq]
@[simp] theorem State.cacheRead_rimOff (s : State) (n c cls line : Nat) : (s.cacheRead n c cls line).rimOff = s.rimOff := by rw [State.cacheRead_eq]
@[simp] theorem State.cacheRead_w1cAt (s : State) (n c cls line : Nat) : (s.cacheRead n c cls line).w1cAt = s.w1cAt := by rw [State.cacheRead_eq]
@[simp] theorem State.cacheRead_ctxs (s : State) (n c cls line : Nat) : (s.cacheRead n c cls line).ctxs = s.ctxs := by rw [State.cacheRead_eq]
@[simp] theorem State.cacheRead_stks (s : State) (n c cls line : Nat) : (s.cacheRead n c cls line).stks = s.stks := by rw [State.cacheRead_eq]
@[simp] theorem State.cacheRead_undo (s : State) (n c cls line : Nat) : (s.cacheRead n c cls line).undo = s.undo := by rw [State.cacheRead_eq]
@[simp] theorem State.cacheRead_queues (s : State) (n c cls line : Nat) : (s.cacheRead n c cls line).queues = s.queues := by rw [State.cacheRead_eq]
@[simp] theorem State.cacheRead_procs (s : State) (n c cls line : Nat) : (s.cacheRead n c cls line).procs = s.procs := by rw [State.cacheRead_eq]
@[simp] theorem State.cacheRead_launches (s : State) (n c cls line : Nat) : (s.cacheRead n c cls line).launches = s.launches := by rw [State.cacheRead_eq]
@[simp] theorem State.cacheRead_nextLaunch (s : State) (n c cls line : Nat) : (s.cacheRead n c cls line).nextLaunch = s.nextLaunch := by rw [State.cacheRead_eq]
@[simp] theorem State.cacheRead_gangHold (s : State) (n c cls line : Nat) : (s.cacheRead n c cls line).gangHold = s.gangHold := by rw [State.cacheRead_eq]
@[simp] theorem State.cacheRead_dist (s : State) (n c cls line : Nat) : (s.cacheRead n c cls line).dist = s.dist := by rw [State.cacheRead_eq]
@[simp] theorem State.cacheRead_placeAt (s : State) (n c cls line : Nat) : (s.cacheRead n c cls line).placeAt = s.placeAt := by rw [State.cacheRead_eq]
@[simp] theorem State.cacheRead_teams (s : State) (n c cls line : Nat) : (s.cacheRead n c cls line).teams = s.teams := by rw [State.cacheRead_eq]
@[simp] theorem State.cacheRead_nextTeam (s : State) (n c cls line : Nat) : (s.cacheRead n c cls line).nextTeam = s.nextTeam := by rw [State.cacheRead_eq]
@[simp] theorem State.cacheRead_groups (s : State) (n c cls line : Nat) : (s.cacheRead n c cls line).groups = s.groups := by rw [State.cacheRead_eq]
@[simp] theorem State.cacheRead_nextGroup (s : State) (n c cls line : Nat) : (s.cacheRead n c cls line).nextGroup = s.nextGroup := by rw [State.cacheRead_eq]
@[simp] theorem State.cacheRead_wide (s : State) (n c cls line : Nat) : (s.cacheRead n c cls line).wide = s.wide := by rw [State.cacheRead_eq]
@[simp] theorem State.cacheRead_nextWide (s : State) (n c cls line : Nat) : (s.cacheRead n c cls line).nextWide = s.nextWide := by rw [State.cacheRead_eq]
@[simp] theorem State.cacheRead_cores (s : State) (n c cls line : Nat) : (s.cacheRead n c cls line).cores = s.cores := by rw [State.cacheRead_eq]
@[simp] theorem State.cacheRead_quads (s : State) (n c cls line : Nat) : (s.cacheRead n c cls line).quads = s.quads := by rw [State.cacheRead_eq]
@[simp] theorem State.cacheRead_ops (s : State) (n c cls line : Nat) : (s.cacheRead n c cls line).ops = s.ops := by rw [State.cacheRead_eq]
@[simp] theorem State.cacheRead_nextOp (s : State) (n c cls line : Nat) : (s.cacheRead n c cls line).nextOp = s.nextOp := by rw [State.cacheRead_eq]
@[simp] theorem State.cacheRead_nextPid (s : State) (n c cls line : Nat) : (s.cacheRead n c cls line).nextPid = s.nextPid := by rw [State.cacheRead_eq]
@[simp] theorem State.cacheRead_tlb (s : State) (n c cls line : Nat) : (s.cacheRead n c cls line).tlb = s.tlb := by rw [State.cacheRead_eq]
@[simp] theorem State.cacheRead_faults (s : State) (n c cls line : Nat) : (s.cacheRead n c cls line).faults = s.faults := by rw [State.cacheRead_eq]
@[simp] theorem State.cacheRead_halters (s : State) (n c cls line : Nat) : (s.cacheRead n c cls line).halters = s.halters := by rw [State.cacheRead_eq]
@[simp] theorem State.cacheRead_answers (s : State) (n c cls line : Nat) : (s.cacheRead n c cls line).answers = s.answers := by rw [State.cacheRead_eq]
@[simp] theorem State.cacheRead_models (s : State) (n c cls line : Nat) : (s.cacheRead n c cls line).models = s.models := by rw [State.cacheRead_eq]
@[simp] theorem State.cacheRead_useCnt (s : State) (n c cls line : Nat) : (s.cacheRead n c cls line).useCnt = s.useCnt := by rw [State.cacheRead_eq]
@[simp] theorem State.cacheRead_swaps (s : State) (n c cls line : Nat) : (s.cacheRead n c cls line).swaps = s.swaps := by rw [State.cacheRead_eq]
@[simp] theorem State.cacheRead_leaving (s : State) (n c cls line : Nat) : (s.cacheRead n c cls line).leaving = s.leaving := by rw [State.cacheRead_eq]
@[simp] theorem State.cacheRead_nextReq (s : State) (n c cls line : Nat) : (s.cacheRead n c cls line).nextReq = s.nextReq := by rw [State.cacheRead_eq]
@[simp] theorem State.cacheRead_sessions (s : State) (n c cls line : Nat) : (s.cacheRead n c cls line).sessions = s.sessions := by rw [State.cacheRead_eq]
@[simp] theorem State.cacheRead_rimDown (s : State) (n c cls line : Nat) : (s.cacheRead n c cls line).rimDown = s.rimDown := by rw [State.cacheRead_eq]
@[simp] theorem State.cacheRead_cxlDown (s : State) (n c cls line : Nat) : (s.cacheRead n c cls line).cxlDown = s.cxlDown := by rw [State.cacheRead_eq]
@[simp] theorem State.cacheRead_colls (s : State) (n c cls line : Nat) : (s.cacheRead n c cls line).colls = s.colls := by rw [State.cacheRead_eq]
@[simp] theorem State.cacheRead_errs (s : State) (n c cls line : Nat) : (s.cacheRead n c cls line).errs = s.errs := by rw [State.cacheRead_eq]
@[simp] theorem State.cacheRead_boxes (s : State) (n c cls line : Nat) : (s.cacheRead n c cls line).boxes = s.boxes := by rw [State.cacheRead_eq]
@[simp] theorem State.cacheRead_net (s : State) (n c cls line : Nat) : (s.cacheRead n c cls line).net = s.net := by rw [State.cacheRead_eq]
@[simp] theorem State.cacheRead_cur (s : State) (n c cls line : Nat) : (s.cacheRead n c cls line).cur = s.cur := by rw [State.cacheRead_eq]
@[simp] theorem State.cacheRead_script (s : State) (n c cls line : Nat) : (s.cacheRead n c cls line).script = s.script := by rw [State.cacheRead_eq]
@[simp] theorem State.cacheRead_free (s : State) (n c cls line : Nat) : (s.cacheRead n c cls line).free = s.free := by rw [State.cacheRead_eq]
@[simp] theorem State.cacheRead_hole (s : State) (n c cls line : Nat) : (s.cacheRead n c cls line).hole = s.hole := by rw [State.cacheRead_eq]

@[simp] theorem State.cacheWrite_clk (s : State) (c : Option Nat) (cls line : Nat) : (s.cacheWrite c cls line).clk = s.clk := by rw [State.cacheWrite_eq]
@[simp] theorem State.cacheWrite_rt (s : State) (c : Option Nat) (cls line : Nat) : (s.cacheWrite c cls line).rt = s.rt := by rw [State.cacheWrite_eq]
@[simp] theorem State.cacheWrite_rtPhase (s : State) (c : Option Nat) (cls line : Nat) : (s.cacheWrite c cls line).rtPhase = s.rtPhase := by rw [State.cacheWrite_eq]
@[simp] theorem State.cacheWrite_power (s : State) (c : Option Nat) (cls line : Nat) : (s.cacheWrite c cls line).power = s.power := by rw [State.cacheWrite_eq]
@[simp] theorem State.cacheWrite_recovery (s : State) (c : Option Nat) (cls line : Nat) : (s.cacheWrite c cls line).recovery = s.recovery := by rw [State.cacheWrite_eq]
@[simp] theorem State.cacheWrite_mem (s : State) (c : Option Nat) (cls line : Nat) : (s.cacheWrite c cls line).mem = s.mem := by rw [State.cacheWrite_eq]
@[simp] theorem State.cacheWrite_poison (s : State) (c : Option Nat) (cls line : Nat) : (s.cacheWrite c cls line).poison = s.poison := by rw [State.cacheWrite_eq]
@[simp] theorem State.cacheWrite_lineKey (s : State) (c : Option Nat) (cls line : Nat) : (s.cacheWrite c cls line).lineKey = s.lineKey := by rw [State.cacheWrite_eq]
@[simp] theorem State.cacheWrite_keys (s : State) (c : Option Nat) (cls line : Nat) : (s.cacheWrite c cls line).keys = s.keys := by rw [State.cacheWrite_eq]
@[simp] theorem State.cacheWrite_keyGen (s : State) (c : Option Nat) (cls line : Nat) : (s.cacheWrite c cls line).keyGen = s.keyGen := by rw [State.cacheWrite_eq]
@[simp] theorem State.cacheWrite_spdm (s : State) (c : Option Nat) (cls line : Nat) : (s.cacheWrite c cls line).spdm = s.spdm := by rw [State.cacheWrite_eq]
@[simp] theorem State.cacheWrite_leaf (s : State) (c : Option Nat) (cls line : Nat) : (s.cacheWrite c cls line).leaf = s.leaf := by rw [State.cacheWrite_eq]
@[simp] theorem State.cacheWrite_fqcfg (s : State) (c : Option Nat) (cls line : Nat) : (s.cacheWrite c cls line).fqcfg = s.fqcfg := by rw [State.cacheWrite_eq]
@[simp] theorem State.cacheWrite_fqIdx (s : State) (c : Option Nat) (cls line : Nat) : (s.cacheWrite c cls line).fqIdx = s.fqIdx := by rw [State.cacheWrite_eq]
@[simp] theorem State.cacheWrite_hqcfg (s : State) (c : Option Nat) (cls line : Nat) : (s.cacheWrite c cls line).hqcfg = s.hqcfg := by rw [State.cacheWrite_eq]
@[simp] theorem State.cacheWrite_hqIdx (s : State) (c : Option Nat) (cls line : Nat) : (s.cacheWrite c cls line).hqIdx = s.hqIdx := by rw [State.cacheWrite_eq]
@[simp] theorem State.cacheWrite_errcfg (s : State) (c : Option Nat) (cls line : Nat) : (s.cacheWrite c cls line).errcfg = s.errcfg := by rw [State.cacheWrite_eq]
@[simp] theorem State.cacheWrite_pwrcfg (s : State) (c : Option Nat) (cls line : Nat) : (s.cacheWrite c cls line).pwrcfg = s.pwrcfg := by rw [State.cacheWrite_eq]
@[simp] theorem State.cacheWrite_capNow (s : State) (c : Option Nat) (cls line : Nat) : (s.cacheWrite c cls line).capNow = s.capNow := by rw [State.cacheWrite_eq]
@[simp] theorem State.cacheWrite_window (s : State) (c : Option Nat) (cls line : Nat) : (s.cacheWrite c cls line).window = s.window := by rw [State.cacheWrite_eq]
@[simp] theorem State.cacheWrite_brcfg (s : State) (c : Option Nat) (cls line : Nat) : (s.cacheWrite c cls line).brcfg = s.brcfg := by rw [State.cacheWrite_eq]
@[simp] theorem State.cacheWrite_ulHub (s : State) (c : Option Nat) (cls line : Nat) : (s.cacheWrite c cls line).ulHub = s.ulHub := by rw [State.cacheWrite_eq]
@[simp] theorem State.cacheWrite_riminj (s : State) (c : Option Nat) (cls line : Nat) : (s.cacheWrite c cls line).riminj = s.riminj := by rw [State.cacheWrite_eq]
@[simp] theorem State.cacheWrite_rimOff (s : State) (c : Option Nat) (cls line : Nat) : (s.cacheWrite c cls line).rimOff = s.rimOff := by rw [State.cacheWrite_eq]
@[simp] theorem State.cacheWrite_w1cAt (s : State) (c : Option Nat) (cls line : Nat) : (s.cacheWrite c cls line).w1cAt = s.w1cAt := by rw [State.cacheWrite_eq]
@[simp] theorem State.cacheWrite_ctxs (s : State) (c : Option Nat) (cls line : Nat) : (s.cacheWrite c cls line).ctxs = s.ctxs := by rw [State.cacheWrite_eq]
@[simp] theorem State.cacheWrite_stks (s : State) (c : Option Nat) (cls line : Nat) : (s.cacheWrite c cls line).stks = s.stks := by rw [State.cacheWrite_eq]
@[simp] theorem State.cacheWrite_undo (s : State) (c : Option Nat) (cls line : Nat) : (s.cacheWrite c cls line).undo = s.undo := by rw [State.cacheWrite_eq]
@[simp] theorem State.cacheWrite_queues (s : State) (c : Option Nat) (cls line : Nat) : (s.cacheWrite c cls line).queues = s.queues := by rw [State.cacheWrite_eq]
@[simp] theorem State.cacheWrite_procs (s : State) (c : Option Nat) (cls line : Nat) : (s.cacheWrite c cls line).procs = s.procs := by rw [State.cacheWrite_eq]
@[simp] theorem State.cacheWrite_launches (s : State) (c : Option Nat) (cls line : Nat) : (s.cacheWrite c cls line).launches = s.launches := by rw [State.cacheWrite_eq]
@[simp] theorem State.cacheWrite_nextLaunch (s : State) (c : Option Nat) (cls line : Nat) : (s.cacheWrite c cls line).nextLaunch = s.nextLaunch := by rw [State.cacheWrite_eq]
@[simp] theorem State.cacheWrite_gangHold (s : State) (c : Option Nat) (cls line : Nat) : (s.cacheWrite c cls line).gangHold = s.gangHold := by rw [State.cacheWrite_eq]
@[simp] theorem State.cacheWrite_dist (s : State) (c : Option Nat) (cls line : Nat) : (s.cacheWrite c cls line).dist = s.dist := by rw [State.cacheWrite_eq]
@[simp] theorem State.cacheWrite_placeAt (s : State) (c : Option Nat) (cls line : Nat) : (s.cacheWrite c cls line).placeAt = s.placeAt := by rw [State.cacheWrite_eq]
@[simp] theorem State.cacheWrite_teams (s : State) (c : Option Nat) (cls line : Nat) : (s.cacheWrite c cls line).teams = s.teams := by rw [State.cacheWrite_eq]
@[simp] theorem State.cacheWrite_nextTeam (s : State) (c : Option Nat) (cls line : Nat) : (s.cacheWrite c cls line).nextTeam = s.nextTeam := by rw [State.cacheWrite_eq]
@[simp] theorem State.cacheWrite_groups (s : State) (c : Option Nat) (cls line : Nat) : (s.cacheWrite c cls line).groups = s.groups := by rw [State.cacheWrite_eq]
@[simp] theorem State.cacheWrite_nextGroup (s : State) (c : Option Nat) (cls line : Nat) : (s.cacheWrite c cls line).nextGroup = s.nextGroup := by rw [State.cacheWrite_eq]
@[simp] theorem State.cacheWrite_wide (s : State) (c : Option Nat) (cls line : Nat) : (s.cacheWrite c cls line).wide = s.wide := by rw [State.cacheWrite_eq]
@[simp] theorem State.cacheWrite_nextWide (s : State) (c : Option Nat) (cls line : Nat) : (s.cacheWrite c cls line).nextWide = s.nextWide := by rw [State.cacheWrite_eq]
@[simp] theorem State.cacheWrite_cores (s : State) (c : Option Nat) (cls line : Nat) : (s.cacheWrite c cls line).cores = s.cores := by rw [State.cacheWrite_eq]
@[simp] theorem State.cacheWrite_quads (s : State) (c : Option Nat) (cls line : Nat) : (s.cacheWrite c cls line).quads = s.quads := by rw [State.cacheWrite_eq]
@[simp] theorem State.cacheWrite_ops (s : State) (c : Option Nat) (cls line : Nat) : (s.cacheWrite c cls line).ops = s.ops := by rw [State.cacheWrite_eq]
@[simp] theorem State.cacheWrite_nextOp (s : State) (c : Option Nat) (cls line : Nat) : (s.cacheWrite c cls line).nextOp = s.nextOp := by rw [State.cacheWrite_eq]
@[simp] theorem State.cacheWrite_nextPid (s : State) (c : Option Nat) (cls line : Nat) : (s.cacheWrite c cls line).nextPid = s.nextPid := by rw [State.cacheWrite_eq]
@[simp] theorem State.cacheWrite_tlb (s : State) (c : Option Nat) (cls line : Nat) : (s.cacheWrite c cls line).tlb = s.tlb := by rw [State.cacheWrite_eq]
@[simp] theorem State.cacheWrite_faults (s : State) (c : Option Nat) (cls line : Nat) : (s.cacheWrite c cls line).faults = s.faults := by rw [State.cacheWrite_eq]
@[simp] theorem State.cacheWrite_halters (s : State) (c : Option Nat) (cls line : Nat) : (s.cacheWrite c cls line).halters = s.halters := by rw [State.cacheWrite_eq]
@[simp] theorem State.cacheWrite_answers (s : State) (c : Option Nat) (cls line : Nat) : (s.cacheWrite c cls line).answers = s.answers := by rw [State.cacheWrite_eq]
@[simp] theorem State.cacheWrite_models (s : State) (c : Option Nat) (cls line : Nat) : (s.cacheWrite c cls line).models = s.models := by rw [State.cacheWrite_eq]
@[simp] theorem State.cacheWrite_useCnt (s : State) (c : Option Nat) (cls line : Nat) : (s.cacheWrite c cls line).useCnt = s.useCnt := by rw [State.cacheWrite_eq]
@[simp] theorem State.cacheWrite_swaps (s : State) (c : Option Nat) (cls line : Nat) : (s.cacheWrite c cls line).swaps = s.swaps := by rw [State.cacheWrite_eq]
@[simp] theorem State.cacheWrite_leaving (s : State) (c : Option Nat) (cls line : Nat) : (s.cacheWrite c cls line).leaving = s.leaving := by rw [State.cacheWrite_eq]
@[simp] theorem State.cacheWrite_nextReq (s : State) (c : Option Nat) (cls line : Nat) : (s.cacheWrite c cls line).nextReq = s.nextReq := by rw [State.cacheWrite_eq]
@[simp] theorem State.cacheWrite_sessions (s : State) (c : Option Nat) (cls line : Nat) : (s.cacheWrite c cls line).sessions = s.sessions := by rw [State.cacheWrite_eq]
@[simp] theorem State.cacheWrite_rimDown (s : State) (c : Option Nat) (cls line : Nat) : (s.cacheWrite c cls line).rimDown = s.rimDown := by rw [State.cacheWrite_eq]
@[simp] theorem State.cacheWrite_cxlDown (s : State) (c : Option Nat) (cls line : Nat) : (s.cacheWrite c cls line).cxlDown = s.cxlDown := by rw [State.cacheWrite_eq]
@[simp] theorem State.cacheWrite_colls (s : State) (c : Option Nat) (cls line : Nat) : (s.cacheWrite c cls line).colls = s.colls := by rw [State.cacheWrite_eq]
@[simp] theorem State.cacheWrite_errs (s : State) (c : Option Nat) (cls line : Nat) : (s.cacheWrite c cls line).errs = s.errs := by rw [State.cacheWrite_eq]
@[simp] theorem State.cacheWrite_boxes (s : State) (c : Option Nat) (cls line : Nat) : (s.cacheWrite c cls line).boxes = s.boxes := by rw [State.cacheWrite_eq]
@[simp] theorem State.cacheWrite_net (s : State) (c : Option Nat) (cls line : Nat) : (s.cacheWrite c cls line).net = s.net := by rw [State.cacheWrite_eq]
@[simp] theorem State.cacheWrite_cur (s : State) (c : Option Nat) (cls line : Nat) : (s.cacheWrite c cls line).cur = s.cur := by rw [State.cacheWrite_eq]
@[simp] theorem State.cacheWrite_script (s : State) (c : Option Nat) (cls line : Nat) : (s.cacheWrite c cls line).script = s.script := by rw [State.cacheWrite_eq]
@[simp] theorem State.cacheWrite_free (s : State) (c : Option Nat) (cls line : Nat) : (s.cacheWrite c cls line).free = s.free := by rw [State.cacheWrite_eq]
@[simp] theorem State.cacheWrite_hole (s : State) (c : Option Nat) (cls line : Nat) : (s.cacheWrite c cls line).hole = s.hole := by rw [State.cacheWrite_eq]

/-- Two states that differ in memory, poison, the keys of lines, the undo log and what caches hold, alone. -/
def MemOnly (s t : State) : Prop :=
  t = { s with mem := t.mem, poison := t.poison, lineKey := t.lineKey, undo := t.undo, caches := t.caches }

theorem MemOnly.trans {s t u : State} (h : MemOnly s t) (k : MemOnly t u) : MemOnly s u := by
  unfold MemOnly at *
  rw [k, h]

theorem State.recSet_only (s : State) (line : Nat) (r : Quad) : MemOnly s (s.recSet line r) := by
  unfold MemOnly; rw [State.recSet_eq]
theorem State.setPoison_only (s : State) (line : Nat) (b : Bool) : MemOnly s (s.setPoison line b) := by
  unfold MemOnly; rw [State.setPoison_eq]
theorem State.cacheWrite_only (s : State) (c : Option Nat) (cls line : Nat) : MemOnly s (s.cacheWrite c cls line) := by
  unfold MemOnly; rw [State.cacheWrite_eq]
theorem State.undoLog_only (s : State) (c line : Nat) : MemOnly s (s.undoLog c line) := by
  unfold MemOnly; rw [State.undoLog_eq]

/-- A line operation changes memory, poison, the keys of lines, the undo log and what caches hold: nothing else. -/
theorem State.writeLine_eq (s : State) (c : Option Nat) (cls k line : Nat) (w : LineW) (bounded gives : Bool) :
    s.writeLine c cls k line w bounded gives =
      { s with mem := (s.writeLine c cls k line w bounded gives).mem, poison := (s.writeLine c cls k line w bounded gives).poison
               lineKey := (s.writeLine c cls k line w bounded gives).lineKey
               undo := (s.writeLine c cls k line w bounded gives).undo
               caches := (s.writeLine c cls k line w bounded gives).caches } := by
  have hc : ∀ (u : State), MemOnly s u → MemOnly s
      (let s := { u with mem := List.foldl (fun m (e : Nat × (Byte × Half)) => cellSet m (line * 128 + e.1) e.2.1) u.mem w }
       let s := if k = 0 ∧ (tget s.lineKey line).isNone then s
                else { s with lineKey := tset s.lineKey line (k, s.keyGenOf k) }
       if s.keyLoaded k then (if w.length = 128 then s.setPoison line false else s) else s.setPoison line true) := by
    intro u hu
    dsimp only
    have h1 : MemOnly s { u with mem := List.foldl (fun m (e : Nat × (Byte × Half)) => cellSet m (line * 128 + e.1) e.2.1) u.mem w } :=
      hu.trans rfl
    (repeat' split) <;>
      first
        | exact h1
        | exact h1.trans rfl
        | exact h1.trans (State.setPoison_only _ _ _)
  unfold State.writeLine
  apply hc
  have hu : MemOnly s ((match c with | some c => s.undoLog c line | none => s).cacheWrite c cls line) := by
    cases c
    · exact State.cacheWrite_only _ _ _ _
    · exact (State.undoLog_only _ _ _).trans (State.cacheWrite_only _ _ _ _)
  (repeat' split) <;>
    first
      | exact hu
      | exact hu.trans (State.recSet_only _ _ _)

@[simp] theorem State.writeLine_clk (s : State) (c : Option Nat) (cls k line : Nat) (w : LineW) (bounded gives : Bool) : (s.writeLine c cls k line w bounded gives).clk = s.clk := by rw [State.writeLine_eq]
@[simp] theorem State.writeLine_rt (s : State) (c : Option Nat) (cls k line : Nat) (w : LineW) (bounded gives : Bool) : (s.writeLine c cls k line w bounded gives).rt = s.rt := by rw [State.writeLine_eq]
@[simp] theorem State.writeLine_rtPhase (s : State) (c : Option Nat) (cls k line : Nat) (w : LineW) (bounded gives : Bool) : (s.writeLine c cls k line w bounded gives).rtPhase = s.rtPhase := by rw [State.writeLine_eq]
@[simp] theorem State.writeLine_power (s : State) (c : Option Nat) (cls k line : Nat) (w : LineW) (bounded gives : Bool) : (s.writeLine c cls k line w bounded gives).power = s.power := by rw [State.writeLine_eq]
@[simp] theorem State.writeLine_recovery (s : State) (c : Option Nat) (cls k line : Nat) (w : LineW) (bounded gives : Bool) : (s.writeLine c cls k line w bounded gives).recovery = s.recovery := by rw [State.writeLine_eq]
@[simp] theorem State.writeLine_keys (s : State) (c : Option Nat) (cls k line : Nat) (w : LineW) (bounded gives : Bool) : (s.writeLine c cls k line w bounded gives).keys = s.keys := by rw [State.writeLine_eq]
@[simp] theorem State.writeLine_keyGen (s : State) (c : Option Nat) (cls k line : Nat) (w : LineW) (bounded gives : Bool) : (s.writeLine c cls k line w bounded gives).keyGen = s.keyGen := by rw [State.writeLine_eq]
@[simp] theorem State.writeLine_spdm (s : State) (c : Option Nat) (cls k line : Nat) (w : LineW) (bounded gives : Bool) : (s.writeLine c cls k line w bounded gives).spdm = s.spdm := by rw [State.writeLine_eq]
@[simp] theorem State.writeLine_leaf (s : State) (c : Option Nat) (cls k line : Nat) (w : LineW) (bounded gives : Bool) : (s.writeLine c cls k line w bounded gives).leaf = s.leaf := by rw [State.writeLine_eq]
@[simp] theorem State.writeLine_fqcfg (s : State) (c : Option Nat) (cls k line : Nat) (w : LineW) (bounded gives : Bool) : (s.writeLine c cls k line w bounded gives).fqcfg = s.fqcfg := by rw [State.writeLine_eq]
@[simp] theorem State.writeLine_fqIdx (s : State) (c : Option Nat) (cls k line : Nat) (w : LineW) (bounded gives : Bool) : (s.writeLine c cls k line w bounded gives).fqIdx = s.fqIdx := by rw [State.writeLine_eq]
@[simp] theorem State.writeLine_hqcfg (s : State) (c : Option Nat) (cls k line : Nat) (w : LineW) (bounded gives : Bool) : (s.writeLine c cls k line w bounded gives).hqcfg = s.hqcfg := by rw [State.writeLine_eq]
@[simp] theorem State.writeLine_hqIdx (s : State) (c : Option Nat) (cls k line : Nat) (w : LineW) (bounded gives : Bool) : (s.writeLine c cls k line w bounded gives).hqIdx = s.hqIdx := by rw [State.writeLine_eq]
@[simp] theorem State.writeLine_errcfg (s : State) (c : Option Nat) (cls k line : Nat) (w : LineW) (bounded gives : Bool) : (s.writeLine c cls k line w bounded gives).errcfg = s.errcfg := by rw [State.writeLine_eq]
@[simp] theorem State.writeLine_pwrcfg (s : State) (c : Option Nat) (cls k line : Nat) (w : LineW) (bounded gives : Bool) : (s.writeLine c cls k line w bounded gives).pwrcfg = s.pwrcfg := by rw [State.writeLine_eq]
@[simp] theorem State.writeLine_capNow (s : State) (c : Option Nat) (cls k line : Nat) (w : LineW) (bounded gives : Bool) : (s.writeLine c cls k line w bounded gives).capNow = s.capNow := by rw [State.writeLine_eq]
@[simp] theorem State.writeLine_window (s : State) (c : Option Nat) (cls k line : Nat) (w : LineW) (bounded gives : Bool) : (s.writeLine c cls k line w bounded gives).window = s.window := by rw [State.writeLine_eq]
@[simp] theorem State.writeLine_brcfg (s : State) (c : Option Nat) (cls k line : Nat) (w : LineW) (bounded gives : Bool) : (s.writeLine c cls k line w bounded gives).brcfg = s.brcfg := by rw [State.writeLine_eq]
@[simp] theorem State.writeLine_ulHub (s : State) (c : Option Nat) (cls k line : Nat) (w : LineW) (bounded gives : Bool) : (s.writeLine c cls k line w bounded gives).ulHub = s.ulHub := by rw [State.writeLine_eq]
@[simp] theorem State.writeLine_riminj (s : State) (c : Option Nat) (cls k line : Nat) (w : LineW) (bounded gives : Bool) : (s.writeLine c cls k line w bounded gives).riminj = s.riminj := by rw [State.writeLine_eq]
@[simp] theorem State.writeLine_rimOff (s : State) (c : Option Nat) (cls k line : Nat) (w : LineW) (bounded gives : Bool) : (s.writeLine c cls k line w bounded gives).rimOff = s.rimOff := by rw [State.writeLine_eq]
@[simp] theorem State.writeLine_w1cAt (s : State) (c : Option Nat) (cls k line : Nat) (w : LineW) (bounded gives : Bool) : (s.writeLine c cls k line w bounded gives).w1cAt = s.w1cAt := by rw [State.writeLine_eq]
@[simp] theorem State.writeLine_ctxs (s : State) (c : Option Nat) (cls k line : Nat) (w : LineW) (bounded gives : Bool) : (s.writeLine c cls k line w bounded gives).ctxs = s.ctxs := by rw [State.writeLine_eq]
@[simp] theorem State.writeLine_stks (s : State) (c : Option Nat) (cls k line : Nat) (w : LineW) (bounded gives : Bool) : (s.writeLine c cls k line w bounded gives).stks = s.stks := by rw [State.writeLine_eq]
@[simp] theorem State.writeLine_queues (s : State) (c : Option Nat) (cls k line : Nat) (w : LineW) (bounded gives : Bool) : (s.writeLine c cls k line w bounded gives).queues = s.queues := by rw [State.writeLine_eq]
@[simp] theorem State.writeLine_procs (s : State) (c : Option Nat) (cls k line : Nat) (w : LineW) (bounded gives : Bool) : (s.writeLine c cls k line w bounded gives).procs = s.procs := by rw [State.writeLine_eq]
@[simp] theorem State.writeLine_launches (s : State) (c : Option Nat) (cls k line : Nat) (w : LineW) (bounded gives : Bool) : (s.writeLine c cls k line w bounded gives).launches = s.launches := by rw [State.writeLine_eq]
@[simp] theorem State.writeLine_nextLaunch (s : State) (c : Option Nat) (cls k line : Nat) (w : LineW) (bounded gives : Bool) : (s.writeLine c cls k line w bounded gives).nextLaunch = s.nextLaunch := by rw [State.writeLine_eq]
@[simp] theorem State.writeLine_gangHold (s : State) (c : Option Nat) (cls k line : Nat) (w : LineW) (bounded gives : Bool) : (s.writeLine c cls k line w bounded gives).gangHold = s.gangHold := by rw [State.writeLine_eq]
@[simp] theorem State.writeLine_dist (s : State) (c : Option Nat) (cls k line : Nat) (w : LineW) (bounded gives : Bool) : (s.writeLine c cls k line w bounded gives).dist = s.dist := by rw [State.writeLine_eq]
@[simp] theorem State.writeLine_placeAt (s : State) (c : Option Nat) (cls k line : Nat) (w : LineW) (bounded gives : Bool) : (s.writeLine c cls k line w bounded gives).placeAt = s.placeAt := by rw [State.writeLine_eq]
@[simp] theorem State.writeLine_teams (s : State) (c : Option Nat) (cls k line : Nat) (w : LineW) (bounded gives : Bool) : (s.writeLine c cls k line w bounded gives).teams = s.teams := by rw [State.writeLine_eq]
@[simp] theorem State.writeLine_nextTeam (s : State) (c : Option Nat) (cls k line : Nat) (w : LineW) (bounded gives : Bool) : (s.writeLine c cls k line w bounded gives).nextTeam = s.nextTeam := by rw [State.writeLine_eq]
@[simp] theorem State.writeLine_groups (s : State) (c : Option Nat) (cls k line : Nat) (w : LineW) (bounded gives : Bool) : (s.writeLine c cls k line w bounded gives).groups = s.groups := by rw [State.writeLine_eq]
@[simp] theorem State.writeLine_nextGroup (s : State) (c : Option Nat) (cls k line : Nat) (w : LineW) (bounded gives : Bool) : (s.writeLine c cls k line w bounded gives).nextGroup = s.nextGroup := by rw [State.writeLine_eq]
@[simp] theorem State.writeLine_wide (s : State) (c : Option Nat) (cls k line : Nat) (w : LineW) (bounded gives : Bool) : (s.writeLine c cls k line w bounded gives).wide = s.wide := by rw [State.writeLine_eq]
@[simp] theorem State.writeLine_nextWide (s : State) (c : Option Nat) (cls k line : Nat) (w : LineW) (bounded gives : Bool) : (s.writeLine c cls k line w bounded gives).nextWide = s.nextWide := by rw [State.writeLine_eq]
@[simp] theorem State.writeLine_cores (s : State) (c : Option Nat) (cls k line : Nat) (w : LineW) (bounded gives : Bool) : (s.writeLine c cls k line w bounded gives).cores = s.cores := by rw [State.writeLine_eq]
@[simp] theorem State.writeLine_quads (s : State) (c : Option Nat) (cls k line : Nat) (w : LineW) (bounded gives : Bool) : (s.writeLine c cls k line w bounded gives).quads = s.quads := by rw [State.writeLine_eq]
@[simp] theorem State.writeLine_ops (s : State) (c : Option Nat) (cls k line : Nat) (w : LineW) (bounded gives : Bool) : (s.writeLine c cls k line w bounded gives).ops = s.ops := by rw [State.writeLine_eq]
@[simp] theorem State.writeLine_nextOp (s : State) (c : Option Nat) (cls k line : Nat) (w : LineW) (bounded gives : Bool) : (s.writeLine c cls k line w bounded gives).nextOp = s.nextOp := by rw [State.writeLine_eq]
@[simp] theorem State.writeLine_nextPid (s : State) (c : Option Nat) (cls k line : Nat) (w : LineW) (bounded gives : Bool) : (s.writeLine c cls k line w bounded gives).nextPid = s.nextPid := by rw [State.writeLine_eq]
@[simp] theorem State.writeLine_tlb (s : State) (c : Option Nat) (cls k line : Nat) (w : LineW) (bounded gives : Bool) : (s.writeLine c cls k line w bounded gives).tlb = s.tlb := by rw [State.writeLine_eq]
@[simp] theorem State.writeLine_faults (s : State) (c : Option Nat) (cls k line : Nat) (w : LineW) (bounded gives : Bool) : (s.writeLine c cls k line w bounded gives).faults = s.faults := by rw [State.writeLine_eq]
@[simp] theorem State.writeLine_halters (s : State) (c : Option Nat) (cls k line : Nat) (w : LineW) (bounded gives : Bool) : (s.writeLine c cls k line w bounded gives).halters = s.halters := by rw [State.writeLine_eq]
@[simp] theorem State.writeLine_answers (s : State) (c : Option Nat) (cls k line : Nat) (w : LineW) (bounded gives : Bool) : (s.writeLine c cls k line w bounded gives).answers = s.answers := by rw [State.writeLine_eq]
@[simp] theorem State.writeLine_models (s : State) (c : Option Nat) (cls k line : Nat) (w : LineW) (bounded gives : Bool) : (s.writeLine c cls k line w bounded gives).models = s.models := by rw [State.writeLine_eq]
@[simp] theorem State.writeLine_useCnt (s : State) (c : Option Nat) (cls k line : Nat) (w : LineW) (bounded gives : Bool) : (s.writeLine c cls k line w bounded gives).useCnt = s.useCnt := by rw [State.writeLine_eq]
@[simp] theorem State.writeLine_swaps (s : State) (c : Option Nat) (cls k line : Nat) (w : LineW) (bounded gives : Bool) : (s.writeLine c cls k line w bounded gives).swaps = s.swaps := by rw [State.writeLine_eq]
@[simp] theorem State.writeLine_leaving (s : State) (c : Option Nat) (cls k line : Nat) (w : LineW) (bounded gives : Bool) : (s.writeLine c cls k line w bounded gives).leaving = s.leaving := by rw [State.writeLine_eq]
@[simp] theorem State.writeLine_nextReq (s : State) (c : Option Nat) (cls k line : Nat) (w : LineW) (bounded gives : Bool) : (s.writeLine c cls k line w bounded gives).nextReq = s.nextReq := by rw [State.writeLine_eq]
@[simp] theorem State.writeLine_sessions (s : State) (c : Option Nat) (cls k line : Nat) (w : LineW) (bounded gives : Bool) : (s.writeLine c cls k line w bounded gives).sessions = s.sessions := by rw [State.writeLine_eq]
@[simp] theorem State.writeLine_rimDown (s : State) (c : Option Nat) (cls k line : Nat) (w : LineW) (bounded gives : Bool) : (s.writeLine c cls k line w bounded gives).rimDown = s.rimDown := by rw [State.writeLine_eq]
@[simp] theorem State.writeLine_cxlDown (s : State) (c : Option Nat) (cls k line : Nat) (w : LineW) (bounded gives : Bool) : (s.writeLine c cls k line w bounded gives).cxlDown = s.cxlDown := by rw [State.writeLine_eq]
@[simp] theorem State.writeLine_colls (s : State) (c : Option Nat) (cls k line : Nat) (w : LineW) (bounded gives : Bool) : (s.writeLine c cls k line w bounded gives).colls = s.colls := by rw [State.writeLine_eq]
@[simp] theorem State.writeLine_errs (s : State) (c : Option Nat) (cls k line : Nat) (w : LineW) (bounded gives : Bool) : (s.writeLine c cls k line w bounded gives).errs = s.errs := by rw [State.writeLine_eq]
@[simp] theorem State.writeLine_boxes (s : State) (c : Option Nat) (cls k line : Nat) (w : LineW) (bounded gives : Bool) : (s.writeLine c cls k line w bounded gives).boxes = s.boxes := by rw [State.writeLine_eq]
@[simp] theorem State.writeLine_net (s : State) (c : Option Nat) (cls k line : Nat) (w : LineW) (bounded gives : Bool) : (s.writeLine c cls k line w bounded gives).net = s.net := by rw [State.writeLine_eq]
@[simp] theorem State.writeLine_cur (s : State) (c : Option Nat) (cls k line : Nat) (w : LineW) (bounded gives : Bool) : (s.writeLine c cls k line w bounded gives).cur = s.cur := by rw [State.writeLine_eq]
@[simp] theorem State.writeLine_script (s : State) (c : Option Nat) (cls k line : Nat) (w : LineW) (bounded gives : Bool) : (s.writeLine c cls k line w bounded gives).script = s.script := by rw [State.writeLine_eq]
@[simp] theorem State.writeLine_free (s : State) (c : Option Nat) (cls k line : Nat) (w : LineW) (bounded gives : Bool) : (s.writeLine c cls k line w bounded gives).free = s.free := by rw [State.writeLine_eq]
@[simp] theorem State.writeLine_hole (s : State) (c : Option Nat) (cls k line : Nat) (w : LineW) (bounded gives : Bool) : (s.writeLine c cls k line w bounded gives).hole = s.hole := by rw [State.writeLine_eq]

theorem State.recSet_wf {s : State} (h : Memory.wf s.mem = true) (line : Nat) (r : Quad) :
    Memory.wf (s.recSet line r).mem = true := by
  unfold State.recSet
  split
  · split
    · exact h
    · exact cellsSet_wf h _ _
  · exact h

/-- A line operation keeps memory canonical. -/
theorem State.writeLine_wf {s : State} (h : Memory.wf s.mem = true) (c : Option Nat) (cls k line : Nat) (w : LineW)
    (bounded gives : Bool) : Memory.wf (s.writeLine c cls k line w bounded gives).mem = true := by
  have hc : ∀ (u : State), Memory.wf u.mem = true → Memory.wf
      (let s := { u with mem := List.foldl (fun m (e : Nat × (Byte × Half)) => cellSet m (line * 128 + e.1) e.2.1) u.mem w }
       let s := if k = 0 ∧ (tget s.lineKey line).isNone then s
                else { s with lineKey := tset s.lineKey line (k, s.keyGenOf k) }
       if s.keyLoaded k then (if w.length = 128 then s.setPoison line false else s) else s.setPoison line true).mem = true := by
    intro u hu
    have h1 := lineCells_wf hu (line * 128) w
    dsimp only
    (repeat' split) <;> (try rw [State.setPoison_mem]) <;> exact h1
  have hu : Memory.wf ((match c with | some c => s.undoLog c line | none => s).cacheWrite c cls line).mem = true := by
    cases c <;> simp [h]
  unfold State.writeLine
  apply hc
  (repeat' split) <;>
    first
      | exact hu
      | exact State.recSet_wf hu _ _

/-- Bytes that the hub writes at a physical address change memory, poison, the keys of lines, the undo log and what caches hold. -/
theorem State.writePhys_eq (s : State) (c : Option Nat) (k pa : Nat) (bs : List Byte) (n : Nat) :
    s.writePhys c k pa bs n =
      { s with mem := (s.writePhys c k pa bs n).mem, poison := (s.writePhys c k pa bs n).poison
               lineKey := (s.writePhys c k pa bs n).lineKey, undo := (s.writePhys c k pa bs n).undo
               caches := (s.writePhys c k pa bs n).caches } := by
  induction n generalizing s pa bs with
  | zero => rfl
  | succ n ih =>
    unfold State.writePhys
    split
    · rfl
    · dsimp only
      rw [ih, State.writeLine_eq]

theorem State.writePhys_wf {s : State} (h : Memory.wf s.mem = true) (c : Option Nat) (k pa : Nat) (bs : List Byte) (n : Nat) :
    Memory.wf (s.writePhys c k pa bs n).mem = true := by
  induction n generalizing s pa bs with
  | zero => exact h
  | succ n ih =>
    unfold State.writePhys
    split
    · exact h
    · exact ih (State.writeLine_wf h _ _ _ _ _ _ _) _ _

@[simp] theorem State.writePhys_clk (s : State) (c : Option Nat) (k pa : Nat) (bs : List Byte) (n : Nat) : (s.writePhys c k pa bs n).clk = s.clk := by rw [State.writePhys_eq]
@[simp] theorem State.writePhys_rt (s : State) (c : Option Nat) (k pa : Nat) (bs : List Byte) (n : Nat) : (s.writePhys c k pa bs n).rt = s.rt := by rw [State.writePhys_eq]
@[simp] theorem State.writePhys_rtPhase (s : State) (c : Option Nat) (k pa : Nat) (bs : List Byte) (n : Nat) : (s.writePhys c k pa bs n).rtPhase = s.rtPhase := by rw [State.writePhys_eq]
@[simp] theorem State.writePhys_power (s : State) (c : Option Nat) (k pa : Nat) (bs : List Byte) (n : Nat) : (s.writePhys c k pa bs n).power = s.power := by rw [State.writePhys_eq]
@[simp] theorem State.writePhys_recovery (s : State) (c : Option Nat) (k pa : Nat) (bs : List Byte) (n : Nat) : (s.writePhys c k pa bs n).recovery = s.recovery := by rw [State.writePhys_eq]
@[simp] theorem State.writePhys_keys (s : State) (c : Option Nat) (k pa : Nat) (bs : List Byte) (n : Nat) : (s.writePhys c k pa bs n).keys = s.keys := by rw [State.writePhys_eq]
@[simp] theorem State.writePhys_keyGen (s : State) (c : Option Nat) (k pa : Nat) (bs : List Byte) (n : Nat) : (s.writePhys c k pa bs n).keyGen = s.keyGen := by rw [State.writePhys_eq]
@[simp] theorem State.writePhys_spdm (s : State) (c : Option Nat) (k pa : Nat) (bs : List Byte) (n : Nat) : (s.writePhys c k pa bs n).spdm = s.spdm := by rw [State.writePhys_eq]
@[simp] theorem State.writePhys_leaf (s : State) (c : Option Nat) (k pa : Nat) (bs : List Byte) (n : Nat) : (s.writePhys c k pa bs n).leaf = s.leaf := by rw [State.writePhys_eq]
@[simp] theorem State.writePhys_fqcfg (s : State) (c : Option Nat) (k pa : Nat) (bs : List Byte) (n : Nat) : (s.writePhys c k pa bs n).fqcfg = s.fqcfg := by rw [State.writePhys_eq]
@[simp] theorem State.writePhys_fqIdx (s : State) (c : Option Nat) (k pa : Nat) (bs : List Byte) (n : Nat) : (s.writePhys c k pa bs n).fqIdx = s.fqIdx := by rw [State.writePhys_eq]
@[simp] theorem State.writePhys_hqcfg (s : State) (c : Option Nat) (k pa : Nat) (bs : List Byte) (n : Nat) : (s.writePhys c k pa bs n).hqcfg = s.hqcfg := by rw [State.writePhys_eq]
@[simp] theorem State.writePhys_hqIdx (s : State) (c : Option Nat) (k pa : Nat) (bs : List Byte) (n : Nat) : (s.writePhys c k pa bs n).hqIdx = s.hqIdx := by rw [State.writePhys_eq]
@[simp] theorem State.writePhys_errcfg (s : State) (c : Option Nat) (k pa : Nat) (bs : List Byte) (n : Nat) : (s.writePhys c k pa bs n).errcfg = s.errcfg := by rw [State.writePhys_eq]
@[simp] theorem State.writePhys_pwrcfg (s : State) (c : Option Nat) (k pa : Nat) (bs : List Byte) (n : Nat) : (s.writePhys c k pa bs n).pwrcfg = s.pwrcfg := by rw [State.writePhys_eq]
@[simp] theorem State.writePhys_capNow (s : State) (c : Option Nat) (k pa : Nat) (bs : List Byte) (n : Nat) : (s.writePhys c k pa bs n).capNow = s.capNow := by rw [State.writePhys_eq]
@[simp] theorem State.writePhys_window (s : State) (c : Option Nat) (k pa : Nat) (bs : List Byte) (n : Nat) : (s.writePhys c k pa bs n).window = s.window := by rw [State.writePhys_eq]
@[simp] theorem State.writePhys_brcfg (s : State) (c : Option Nat) (k pa : Nat) (bs : List Byte) (n : Nat) : (s.writePhys c k pa bs n).brcfg = s.brcfg := by rw [State.writePhys_eq]
@[simp] theorem State.writePhys_ulHub (s : State) (c : Option Nat) (k pa : Nat) (bs : List Byte) (n : Nat) : (s.writePhys c k pa bs n).ulHub = s.ulHub := by rw [State.writePhys_eq]
@[simp] theorem State.writePhys_riminj (s : State) (c : Option Nat) (k pa : Nat) (bs : List Byte) (n : Nat) : (s.writePhys c k pa bs n).riminj = s.riminj := by rw [State.writePhys_eq]
@[simp] theorem State.writePhys_rimOff (s : State) (c : Option Nat) (k pa : Nat) (bs : List Byte) (n : Nat) : (s.writePhys c k pa bs n).rimOff = s.rimOff := by rw [State.writePhys_eq]
@[simp] theorem State.writePhys_w1cAt (s : State) (c : Option Nat) (k pa : Nat) (bs : List Byte) (n : Nat) : (s.writePhys c k pa bs n).w1cAt = s.w1cAt := by rw [State.writePhys_eq]
@[simp] theorem State.writePhys_ctxs (s : State) (c : Option Nat) (k pa : Nat) (bs : List Byte) (n : Nat) : (s.writePhys c k pa bs n).ctxs = s.ctxs := by rw [State.writePhys_eq]
@[simp] theorem State.writePhys_stks (s : State) (c : Option Nat) (k pa : Nat) (bs : List Byte) (n : Nat) : (s.writePhys c k pa bs n).stks = s.stks := by rw [State.writePhys_eq]
@[simp] theorem State.writePhys_queues (s : State) (c : Option Nat) (k pa : Nat) (bs : List Byte) (n : Nat) : (s.writePhys c k pa bs n).queues = s.queues := by rw [State.writePhys_eq]
@[simp] theorem State.writePhys_procs (s : State) (c : Option Nat) (k pa : Nat) (bs : List Byte) (n : Nat) : (s.writePhys c k pa bs n).procs = s.procs := by rw [State.writePhys_eq]
@[simp] theorem State.writePhys_launches (s : State) (c : Option Nat) (k pa : Nat) (bs : List Byte) (n : Nat) : (s.writePhys c k pa bs n).launches = s.launches := by rw [State.writePhys_eq]
@[simp] theorem State.writePhys_nextLaunch (s : State) (c : Option Nat) (k pa : Nat) (bs : List Byte) (n : Nat) : (s.writePhys c k pa bs n).nextLaunch = s.nextLaunch := by rw [State.writePhys_eq]
@[simp] theorem State.writePhys_gangHold (s : State) (c : Option Nat) (k pa : Nat) (bs : List Byte) (n : Nat) : (s.writePhys c k pa bs n).gangHold = s.gangHold := by rw [State.writePhys_eq]
@[simp] theorem State.writePhys_dist (s : State) (c : Option Nat) (k pa : Nat) (bs : List Byte) (n : Nat) : (s.writePhys c k pa bs n).dist = s.dist := by rw [State.writePhys_eq]
@[simp] theorem State.writePhys_placeAt (s : State) (c : Option Nat) (k pa : Nat) (bs : List Byte) (n : Nat) : (s.writePhys c k pa bs n).placeAt = s.placeAt := by rw [State.writePhys_eq]
@[simp] theorem State.writePhys_teams (s : State) (c : Option Nat) (k pa : Nat) (bs : List Byte) (n : Nat) : (s.writePhys c k pa bs n).teams = s.teams := by rw [State.writePhys_eq]
@[simp] theorem State.writePhys_nextTeam (s : State) (c : Option Nat) (k pa : Nat) (bs : List Byte) (n : Nat) : (s.writePhys c k pa bs n).nextTeam = s.nextTeam := by rw [State.writePhys_eq]
@[simp] theorem State.writePhys_groups (s : State) (c : Option Nat) (k pa : Nat) (bs : List Byte) (n : Nat) : (s.writePhys c k pa bs n).groups = s.groups := by rw [State.writePhys_eq]
@[simp] theorem State.writePhys_nextGroup (s : State) (c : Option Nat) (k pa : Nat) (bs : List Byte) (n : Nat) : (s.writePhys c k pa bs n).nextGroup = s.nextGroup := by rw [State.writePhys_eq]
@[simp] theorem State.writePhys_wide (s : State) (c : Option Nat) (k pa : Nat) (bs : List Byte) (n : Nat) : (s.writePhys c k pa bs n).wide = s.wide := by rw [State.writePhys_eq]
@[simp] theorem State.writePhys_nextWide (s : State) (c : Option Nat) (k pa : Nat) (bs : List Byte) (n : Nat) : (s.writePhys c k pa bs n).nextWide = s.nextWide := by rw [State.writePhys_eq]
@[simp] theorem State.writePhys_cores (s : State) (c : Option Nat) (k pa : Nat) (bs : List Byte) (n : Nat) : (s.writePhys c k pa bs n).cores = s.cores := by rw [State.writePhys_eq]
@[simp] theorem State.writePhys_quads (s : State) (c : Option Nat) (k pa : Nat) (bs : List Byte) (n : Nat) : (s.writePhys c k pa bs n).quads = s.quads := by rw [State.writePhys_eq]
@[simp] theorem State.writePhys_ops (s : State) (c : Option Nat) (k pa : Nat) (bs : List Byte) (n : Nat) : (s.writePhys c k pa bs n).ops = s.ops := by rw [State.writePhys_eq]
@[simp] theorem State.writePhys_nextOp (s : State) (c : Option Nat) (k pa : Nat) (bs : List Byte) (n : Nat) : (s.writePhys c k pa bs n).nextOp = s.nextOp := by rw [State.writePhys_eq]
@[simp] theorem State.writePhys_nextPid (s : State) (c : Option Nat) (k pa : Nat) (bs : List Byte) (n : Nat) : (s.writePhys c k pa bs n).nextPid = s.nextPid := by rw [State.writePhys_eq]
@[simp] theorem State.writePhys_tlb (s : State) (c : Option Nat) (k pa : Nat) (bs : List Byte) (n : Nat) : (s.writePhys c k pa bs n).tlb = s.tlb := by rw [State.writePhys_eq]
@[simp] theorem State.writePhys_faults (s : State) (c : Option Nat) (k pa : Nat) (bs : List Byte) (n : Nat) : (s.writePhys c k pa bs n).faults = s.faults := by rw [State.writePhys_eq]
@[simp] theorem State.writePhys_halters (s : State) (c : Option Nat) (k pa : Nat) (bs : List Byte) (n : Nat) : (s.writePhys c k pa bs n).halters = s.halters := by rw [State.writePhys_eq]
@[simp] theorem State.writePhys_answers (s : State) (c : Option Nat) (k pa : Nat) (bs : List Byte) (n : Nat) : (s.writePhys c k pa bs n).answers = s.answers := by rw [State.writePhys_eq]
@[simp] theorem State.writePhys_models (s : State) (c : Option Nat) (k pa : Nat) (bs : List Byte) (n : Nat) : (s.writePhys c k pa bs n).models = s.models := by rw [State.writePhys_eq]
@[simp] theorem State.writePhys_useCnt (s : State) (c : Option Nat) (k pa : Nat) (bs : List Byte) (n : Nat) : (s.writePhys c k pa bs n).useCnt = s.useCnt := by rw [State.writePhys_eq]
@[simp] theorem State.writePhys_swaps (s : State) (c : Option Nat) (k pa : Nat) (bs : List Byte) (n : Nat) : (s.writePhys c k pa bs n).swaps = s.swaps := by rw [State.writePhys_eq]
@[simp] theorem State.writePhys_leaving (s : State) (c : Option Nat) (k pa : Nat) (bs : List Byte) (n : Nat) : (s.writePhys c k pa bs n).leaving = s.leaving := by rw [State.writePhys_eq]
@[simp] theorem State.writePhys_nextReq (s : State) (c : Option Nat) (k pa : Nat) (bs : List Byte) (n : Nat) : (s.writePhys c k pa bs n).nextReq = s.nextReq := by rw [State.writePhys_eq]
@[simp] theorem State.writePhys_sessions (s : State) (c : Option Nat) (k pa : Nat) (bs : List Byte) (n : Nat) : (s.writePhys c k pa bs n).sessions = s.sessions := by rw [State.writePhys_eq]
@[simp] theorem State.writePhys_rimDown (s : State) (c : Option Nat) (k pa : Nat) (bs : List Byte) (n : Nat) : (s.writePhys c k pa bs n).rimDown = s.rimDown := by rw [State.writePhys_eq]
@[simp] theorem State.writePhys_cxlDown (s : State) (c : Option Nat) (k pa : Nat) (bs : List Byte) (n : Nat) : (s.writePhys c k pa bs n).cxlDown = s.cxlDown := by rw [State.writePhys_eq]
@[simp] theorem State.writePhys_colls (s : State) (c : Option Nat) (k pa : Nat) (bs : List Byte) (n : Nat) : (s.writePhys c k pa bs n).colls = s.colls := by rw [State.writePhys_eq]
@[simp] theorem State.writePhys_errs (s : State) (c : Option Nat) (k pa : Nat) (bs : List Byte) (n : Nat) : (s.writePhys c k pa bs n).errs = s.errs := by rw [State.writePhys_eq]
@[simp] theorem State.writePhys_boxes (s : State) (c : Option Nat) (k pa : Nat) (bs : List Byte) (n : Nat) : (s.writePhys c k pa bs n).boxes = s.boxes := by rw [State.writePhys_eq]
@[simp] theorem State.writePhys_net (s : State) (c : Option Nat) (k pa : Nat) (bs : List Byte) (n : Nat) : (s.writePhys c k pa bs n).net = s.net := by rw [State.writePhys_eq]
@[simp] theorem State.writePhys_cur (s : State) (c : Option Nat) (k pa : Nat) (bs : List Byte) (n : Nat) : (s.writePhys c k pa bs n).cur = s.cur := by rw [State.writePhys_eq]
@[simp] theorem State.writePhys_script (s : State) (c : Option Nat) (k pa : Nat) (bs : List Byte) (n : Nat) : (s.writePhys c k pa bs n).script = s.script := by rw [State.writePhys_eq]
@[simp] theorem State.writePhys_free (s : State) (c : Option Nat) (k pa : Nat) (bs : List Byte) (n : Nat) : (s.writePhys c k pa bs n).free = s.free := by rw [State.writePhys_eq]
@[simp] theorem State.writePhys_hole (s : State) (c : Option Nat) (k pa : Nat) (bs : List Byte) (n : Nat) : (s.writePhys c k pa bs n).hole = s.hole := by rw [State.writePhys_eq]

/-- Memory after reset is canonical. -/
theorem reset_wf : Memory.wf State.reset.mem = true := rfl

end Sys2Proof.Machine
end

