-- ==== Sys2Proof/Laws/State.lean ====
section
/-! SUPPORT. What the small updates of State and of Team leave in each field. -/

namespace Sys2Proof.Machine

/-! ### `State.modTeam` -/

@[simp] theorem State.modTeam_clk (s : State) (t : Nat) (f : Team → Team) : (s.modTeam t f).clk = s.clk := rfl
@[simp] theorem State.modTeam_rt (s : State) (t : Nat) (f : Team → Team) : (s.modTeam t f).rt = s.rt := rfl
@[simp] theorem State.modTeam_rtPhase (s : State) (t : Nat) (f : Team → Team) : (s.modTeam t f).rtPhase = s.rtPhase := rfl
@[simp] theorem State.modTeam_power (s : State) (t : Nat) (f : Team → Team) : (s.modTeam t f).power = s.power := rfl
@[simp] theorem State.modTeam_recovery (s : State) (t : Nat) (f : Team → Team) : (s.modTeam t f).recovery = s.recovery := rfl
@[simp] theorem State.modTeam_mem (s : State) (t : Nat) (f : Team → Team) : (s.modTeam t f).mem = s.mem := rfl
@[simp] theorem State.modTeam_poison (s : State) (t : Nat) (f : Team → Team) : (s.modTeam t f).poison = s.poison := rfl
@[simp] theorem State.modTeam_lineKey (s : State) (t : Nat) (f : Team → Team) : (s.modTeam t f).lineKey = s.lineKey := rfl
@[simp] theorem State.modTeam_caches (s : State) (t : Nat) (f : Team → Team) : (s.modTeam t f).caches = s.caches := rfl
@[simp] theorem State.modTeam_keys (s : State) (t : Nat) (f : Team → Team) : (s.modTeam t f).keys = s.keys := rfl
@[simp] theorem State.modTeam_keyGen (s : State) (t : Nat) (f : Team → Team) : (s.modTeam t f).keyGen = s.keyGen := rfl
@[simp] theorem State.modTeam_spdm (s : State) (t : Nat) (f : Team → Team) : (s.modTeam t f).spdm = s.spdm := rfl
@[simp] theorem State.modTeam_leaf (s : State) (t : Nat) (f : Team → Team) : (s.modTeam t f).leaf = s.leaf := rfl
@[simp] theorem State.modTeam_fqcfg (s : State) (t : Nat) (f : Team → Team) : (s.modTeam t f).fqcfg = s.fqcfg := rfl
@[simp] theorem State.modTeam_fqIdx (s : State) (t : Nat) (f : Team → Team) : (s.modTeam t f).fqIdx = s.fqIdx := rfl
@[simp] theorem State.modTeam_hqcfg (s : State) (t : Nat) (f : Team → Team) : (s.modTeam t f).hqcfg = s.hqcfg := rfl
@[simp] theorem State.modTeam_hqIdx (s : State) (t : Nat) (f : Team → Team) : (s.modTeam t f).hqIdx = s.hqIdx := rfl
@[simp] theorem State.modTeam_errcfg (s : State) (t : Nat) (f : Team → Team) : (s.modTeam t f).errcfg = s.errcfg := rfl
@[simp] theorem State.modTeam_pwrcfg (s : State) (t : Nat) (f : Team → Team) : (s.modTeam t f).pwrcfg = s.pwrcfg := rfl
@[simp] theorem State.modTeam_capNow (s : State) (t : Nat) (f : Team → Team) : (s.modTeam t f).capNow = s.capNow := rfl
@[simp] theorem State.modTeam_window (s : State) (t : Nat) (f : Team → Team) : (s.modTeam t f).window = s.window := rfl
@[simp] theorem State.modTeam_brcfg (s : State) (t : Nat) (f : Team → Team) : (s.modTeam t f).brcfg = s.brcfg := rfl
@[simp] theorem State.modTeam_ulHub (s : State) (t : Nat) (f : Team → Team) : (s.modTeam t f).ulHub = s.ulHub := rfl
@[simp] theorem State.modTeam_riminj (s : State) (t : Nat) (f : Team → Team) : (s.modTeam t f).riminj = s.riminj := rfl
@[simp] theorem State.modTeam_rimOff (s : State) (t : Nat) (f : Team → Team) : (s.modTeam t f).rimOff = s.rimOff := rfl
@[simp] theorem State.modTeam_w1cAt (s : State) (t : Nat) (f : Team → Team) : (s.modTeam t f).w1cAt = s.w1cAt := rfl
@[simp] theorem State.modTeam_ctxs (s : State) (t : Nat) (f : Team → Team) : (s.modTeam t f).ctxs = s.ctxs := rfl
@[simp] theorem State.modTeam_stks (s : State) (t : Nat) (f : Team → Team) : (s.modTeam t f).stks = s.stks := rfl
@[simp] theorem State.modTeam_undo (s : State) (t : Nat) (f : Team → Team) : (s.modTeam t f).undo = s.undo := rfl
@[simp] theorem State.modTeam_queues (s : State) (t : Nat) (f : Team → Team) : (s.modTeam t f).queues = s.queues := rfl
@[simp] theorem State.modTeam_procs (s : State) (t : Nat) (f : Team → Team) : (s.modTeam t f).procs = s.procs := rfl
@[simp] theorem State.modTeam_launches (s : State) (t : Nat) (f : Team → Team) : (s.modTeam t f).launches = s.launches := rfl
@[simp] theorem State.modTeam_nextLaunch (s : State) (t : Nat) (f : Team → Team) : (s.modTeam t f).nextLaunch = s.nextLaunch := rfl
@[simp] theorem State.modTeam_gangHold (s : State) (t : Nat) (f : Team → Team) : (s.modTeam t f).gangHold = s.gangHold := rfl
@[simp] theorem State.modTeam_dist (s : State) (t : Nat) (f : Team → Team) : (s.modTeam t f).dist = s.dist := rfl
@[simp] theorem State.modTeam_placeAt (s : State) (t : Nat) (f : Team → Team) : (s.modTeam t f).placeAt = s.placeAt := rfl
@[simp] theorem State.modTeam_teams (s : State) (t : Nat) (f : Team → Team) : (s.modTeam t f).teams = tmod s.teams t f := rfl
@[simp] theorem State.modTeam_nextTeam (s : State) (t : Nat) (f : Team → Team) : (s.modTeam t f).nextTeam = s.nextTeam := rfl
@[simp] theorem State.modTeam_groups (s : State) (t : Nat) (f : Team → Team) : (s.modTeam t f).groups = s.groups := rfl
@[simp] theorem State.modTeam_nextGroup (s : State) (t : Nat) (f : Team → Team) : (s.modTeam t f).nextGroup = s.nextGroup := rfl
@[simp] theorem State.modTeam_wide (s : State) (t : Nat) (f : Team → Team) : (s.modTeam t f).wide = s.wide := rfl
@[simp] theorem State.modTeam_nextWide (s : State) (t : Nat) (f : Team → Team) : (s.modTeam t f).nextWide = s.nextWide := rfl
@[simp] theorem State.modTeam_cores (s : State) (t : Nat) (f : Team → Team) : (s.modTeam t f).cores = s.cores := rfl
@[simp] theorem State.modTeam_quads (s : State) (t : Nat) (f : Team → Team) : (s.modTeam t f).quads = s.quads := rfl
@[simp] theorem State.modTeam_ops (s : State) (t : Nat) (f : Team → Team) : (s.modTeam t f).ops = s.ops := rfl
@[simp] theorem State.modTeam_nextOp (s : State) (t : Nat) (f : Team → Team) : (s.modTeam t f).nextOp = s.nextOp := rfl
@[simp] theorem State.modTeam_nextPid (s : State) (t : Nat) (f : Team → Team) : (s.modTeam t f).nextPid = s.nextPid := rfl
@[simp] theorem State.modTeam_tlb (s : State) (t : Nat) (f : Team → Team) : (s.modTeam t f).tlb = s.tlb := rfl
@[simp] theorem State.modTeam_faults (s : State) (t : Nat) (f : Team → Team) : (s.modTeam t f).faults = s.faults := rfl
@[simp] theorem State.modTeam_halters (s : State) (t : Nat) (f : Team → Team) : (s.modTeam t f).halters = s.halters := rfl
@[simp] theorem State.modTeam_answers (s : State) (t : Nat) (f : Team → Team) : (s.modTeam t f).answers = s.answers := rfl
@[simp] theorem State.modTeam_models (s : State) (t : Nat) (f : Team → Team) : (s.modTeam t f).models = s.models := rfl
@[simp] theorem State.modTeam_useCnt (s : State) (t : Nat) (f : Team → Team) : (s.modTeam t f).useCnt = s.useCnt := rfl
@[simp] theorem State.modTeam_swaps (s : State) (t : Nat) (f : Team → Team) : (s.modTeam t f).swaps = s.swaps := rfl
@[simp] theorem State.modTeam_leaving (s : State) (t : Nat) (f : Team → Team) : (s.modTeam t f).leaving = s.leaving := rfl
@[simp] theorem State.modTeam_nextReq (s : State) (t : Nat) (f : Team → Team) : (s.modTeam t f).nextReq = s.nextReq := rfl
@[simp] theorem State.modTeam_sessions (s : State) (t : Nat) (f : Team → Team) : (s.modTeam t f).sessions = s.sessions := rfl
@[simp] theorem State.modTeam_rimDown (s : State) (t : Nat) (f : Team → Team) : (s.modTeam t f).rimDown = s.rimDown := rfl
@[simp] theorem State.modTeam_cxlDown (s : State) (t : Nat) (f : Team → Team) : (s.modTeam t f).cxlDown = s.cxlDown := rfl
@[simp] theorem State.modTeam_colls (s : State) (t : Nat) (f : Team → Team) : (s.modTeam t f).colls = s.colls := rfl
@[simp] theorem State.modTeam_errs (s : State) (t : Nat) (f : Team → Team) : (s.modTeam t f).errs = s.errs := rfl
@[simp] theorem State.modTeam_boxes (s : State) (t : Nat) (f : Team → Team) : (s.modTeam t f).boxes = s.boxes := rfl
@[simp] theorem State.modTeam_net (s : State) (t : Nat) (f : Team → Team) : (s.modTeam t f).net = s.net := rfl
@[simp] theorem State.modTeam_cur (s : State) (t : Nat) (f : Team → Team) : (s.modTeam t f).cur = s.cur := rfl
@[simp] theorem State.modTeam_script (s : State) (t : Nat) (f : Team → Team) : (s.modTeam t f).script = s.script := rfl
@[simp] theorem State.modTeam_free (s : State) (t : Nat) (f : Team → Team) : (s.modTeam t f).free = s.free := rfl
@[simp] theorem State.modTeam_hole (s : State) (t : Nat) (f : Team → Team) : (s.modTeam t f).hole = s.hole := rfl

/-! ### `State.modCore` -/

@[simp] theorem State.modCore_clk (s : State) (n : Nat) (f : Core → Core) : (s.modCore n f).clk = s.clk := rfl
@[simp] theorem State.modCore_rt (s : State) (n : Nat) (f : Core → Core) : (s.modCore n f).rt = s.rt := rfl
@[simp] theorem State.modCore_rtPhase (s : State) (n : Nat) (f : Core → Core) : (s.modCore n f).rtPhase = s.rtPhase := rfl
@[simp] theorem State.modCore_power (s : State) (n : Nat) (f : Core → Core) : (s.modCore n f).power = s.power := rfl
@[simp] theorem State.modCore_recovery (s : State) (n : Nat) (f : Core → Core) : (s.modCore n f).recovery = s.recovery := rfl
@[simp] theorem State.modCore_mem (s : State) (n : Nat) (f : Core → Core) : (s.modCore n f).mem = s.mem := rfl
@[simp] theorem State.modCore_poison (s : State) (n : Nat) (f : Core → Core) : (s.modCore n f).poison = s.poison := rfl
@[simp] theorem State.modCore_lineKey (s : State) (n : Nat) (f : Core → Core) : (s.modCore n f).lineKey = s.lineKey := rfl
@[simp] theorem State.modCore_caches (s : State) (n : Nat) (f : Core → Core) : (s.modCore n f).caches = s.caches := rfl
@[simp] theorem State.modCore_keys (s : State) (n : Nat) (f : Core → Core) : (s.modCore n f).keys = s.keys := rfl
@[simp] theorem State.modCore_keyGen (s : State) (n : Nat) (f : Core → Core) : (s.modCore n f).keyGen = s.keyGen := rfl
@[simp] theorem State.modCore_spdm (s : State) (n : Nat) (f : Core → Core) : (s.modCore n f).spdm = s.spdm := rfl
@[simp] theorem State.modCore_leaf (s : State) (n : Nat) (f : Core → Core) : (s.modCore n f).leaf = s.leaf := rfl
@[simp] theorem State.modCore_fqcfg (s : State) (n : Nat) (f : Core → Core) : (s.modCore n f).fqcfg = s.fqcfg := rfl
@[simp] theorem State.modCore_fqIdx (s : State) (n : Nat) (f : Core → Core) : (s.modCore n f).fqIdx = s.fqIdx := rfl
@[simp] theorem State.modCore_hqcfg (s : State) (n : Nat) (f : Core → Core) : (s.modCore n f).hqcfg = s.hqcfg := rfl
@[simp] theorem State.modCore_hqIdx (s : State) (n : Nat) (f : Core → Core) : (s.modCore n f).hqIdx = s.hqIdx := rfl
@[simp] theorem State.modCore_errcfg (s : State) (n : Nat) (f : Core → Core) : (s.modCore n f).errcfg = s.errcfg := rfl
@[simp] theorem State.modCore_pwrcfg (s : State) (n : Nat) (f : Core → Core) : (s.modCore n f).pwrcfg = s.pwrcfg := rfl
@[simp] theorem State.modCore_capNow (s : State) (n : Nat) (f : Core → Core) : (s.modCore n f).capNow = s.capNow := rfl
@[simp] theorem State.modCore_window (s : State) (n : Nat) (f : Core → Core) : (s.modCore n f).window = s.window := rfl
@[simp] theorem State.modCore_brcfg (s : State) (n : Nat) (f : Core → Core) : (s.modCore n f).brcfg = s.brcfg := rfl
@[simp] theorem State.modCore_ulHub (s : State) (n : Nat) (f : Core → Core) : (s.modCore n f).ulHub = s.ulHub := rfl
@[simp] theorem State.modCore_riminj (s : State) (n : Nat) (f : Core → Core) : (s.modCore n f).riminj = s.riminj := rfl
@[simp] theorem State.modCore_rimOff (s : State) (n : Nat) (f : Core → Core) : (s.modCore n f).rimOff = s.rimOff := rfl
@[simp] theorem State.modCore_w1cAt (s : State) (n : Nat) (f : Core → Core) : (s.modCore n f).w1cAt = s.w1cAt := rfl
@[simp] theorem State.modCore_ctxs (s : State) (n : Nat) (f : Core → Core) : (s.modCore n f).ctxs = s.ctxs := rfl
@[simp] theorem State.modCore_stks (s : State) (n : Nat) (f : Core → Core) : (s.modCore n f).stks = s.stks := rfl
@[simp] theorem State.modCore_undo (s : State) (n : Nat) (f : Core → Core) : (s.modCore n f).undo = s.undo := rfl
@[simp] theorem State.modCore_queues (s : State) (n : Nat) (f : Core → Core) : (s.modCore n f).queues = s.queues := rfl
@[simp] theorem State.modCore_procs (s : State) (n : Nat) (f : Core → Core) : (s.modCore n f).procs = s.procs := rfl
@[simp] theorem State.modCore_launches (s : State) (n : Nat) (f : Core → Core) : (s.modCore n f).launches = s.launches := rfl
@[simp] theorem State.modCore_nextLaunch (s : State) (n : Nat) (f : Core → Core) : (s.modCore n f).nextLaunch = s.nextLaunch := rfl
@[simp] theorem State.modCore_gangHold (s : State) (n : Nat) (f : Core → Core) : (s.modCore n f).gangHold = s.gangHold := rfl
@[simp] theorem State.modCore_dist (s : State) (n : Nat) (f : Core → Core) : (s.modCore n f).dist = s.dist := rfl
@[simp] theorem State.modCore_placeAt (s : State) (n : Nat) (f : Core → Core) : (s.modCore n f).placeAt = s.placeAt := rfl
@[simp] theorem State.modCore_teams (s : State) (n : Nat) (f : Core → Core) : (s.modCore n f).teams = s.teams := rfl
@[simp] theorem State.modCore_nextTeam (s : State) (n : Nat) (f : Core → Core) : (s.modCore n f).nextTeam = s.nextTeam := rfl
@[simp] theorem State.modCore_groups (s : State) (n : Nat) (f : Core → Core) : (s.modCore n f).groups = s.groups := rfl
@[simp] theorem State.modCore_nextGroup (s : State) (n : Nat) (f : Core → Core) : (s.modCore n f).nextGroup = s.nextGroup := rfl
@[simp] theorem State.modCore_wide (s : State) (n : Nat) (f : Core → Core) : (s.modCore n f).wide = s.wide := rfl
@[simp] theorem State.modCore_nextWide (s : State) (n : Nat) (f : Core → Core) : (s.modCore n f).nextWide = s.nextWide := rfl
@[simp] theorem State.modCore_cores (s : State) (n : Nat) (f : Core → Core) : (s.modCore n f).cores = tset s.cores n (f (s.core n)) := rfl
@[simp] theorem State.modCore_quads (s : State) (n : Nat) (f : Core → Core) : (s.modCore n f).quads = s.quads := rfl
@[simp] theorem State.modCore_ops (s : State) (n : Nat) (f : Core → Core) : (s.modCore n f).ops = s.ops := rfl
@[simp] theorem State.modCore_nextOp (s : State) (n : Nat) (f : Core → Core) : (s.modCore n f).nextOp = s.nextOp := rfl
@[simp] theorem State.modCore_nextPid (s : State) (n : Nat) (f : Core → Core) : (s.modCore n f).nextPid = s.nextPid := rfl
@[simp] theorem State.modCore_tlb (s : State) (n : Nat) (f : Core → Core) : (s.modCore n f).tlb = s.tlb := rfl
@[simp] theorem State.modCore_faults (s : State) (n : Nat) (f : Core → Core) : (s.modCore n f).faults = s.faults := rfl
@[simp] theorem State.modCore_halters (s : State) (n : Nat) (f : Core → Core) : (s.modCore n f).halters = s.halters := rfl
@[simp] theorem State.modCore_answers (s : State) (n : Nat) (f : Core → Core) : (s.modCore n f).answers = s.answers := rfl
@[simp] theorem State.modCore_models (s : State) (n : Nat) (f : Core → Core) : (s.modCore n f).models = s.models := rfl
@[simp] theorem State.modCore_useCnt (s : State) (n : Nat) (f : Core → Core) : (s.modCore n f).useCnt = s.useCnt := rfl
@[simp] theorem State.modCore_swaps (s : State) (n : Nat) (f : Core → Core) : (s.modCore n f).swaps = s.swaps := rfl
@[simp] theorem State.modCore_leaving (s : State) (n : Nat) (f : Core → Core) : (s.modCore n f).leaving = s.leaving := rfl
@[simp] theorem State.modCore_nextReq (s : State) (n : Nat) (f : Core → Core) : (s.modCore n f).nextReq = s.nextReq := rfl
@[simp] theorem State.modCore_sessions (s : State) (n : Nat) (f : Core → Core) : (s.modCore n f).sessions = s.sessions := rfl
@[simp] theorem State.modCore_rimDown (s : State) (n : Nat) (f : Core → Core) : (s.modCore n f).rimDown = s.rimDown := rfl
@[simp] theorem State.modCore_cxlDown (s : State) (n : Nat) (f : Core → Core) : (s.modCore n f).cxlDown = s.cxlDown := rfl
@[simp] theorem State.modCore_colls (s : State) (n : Nat) (f : Core → Core) : (s.modCore n f).colls = s.colls := rfl
@[simp] theorem State.modCore_errs (s : State) (n : Nat) (f : Core → Core) : (s.modCore n f).errs = s.errs := rfl
@[simp] theorem State.modCore_boxes (s : State) (n : Nat) (f : Core → Core) : (s.modCore n f).boxes = s.boxes := rfl
@[simp] theorem State.modCore_net (s : State) (n : Nat) (f : Core → Core) : (s.modCore n f).net = s.net := rfl
@[simp] theorem State.modCore_cur (s : State) (n : Nat) (f : Core → Core) : (s.modCore n f).cur = s.cur := rfl
@[simp] theorem State.modCore_script (s : State) (n : Nat) (f : Core → Core) : (s.modCore n f).script = s.script := rfl
@[simp] theorem State.modCore_free (s : State) (n : Nat) (f : Core → Core) : (s.modCore n f).free = s.free := rfl
@[simp] theorem State.modCore_hole (s : State) (n : Nat) (f : Core → Core) : (s.modCore n f).hole = s.hole := rfl

/-! ### `State.modCtx` -/

@[simp] theorem State.modCtx_clk (s : State) (c : Nat) (f : CtxCfg → CtxCfg) : (s.modCtx c f).clk = s.clk := rfl
@[simp] theorem State.modCtx_rt (s : State) (c : Nat) (f : CtxCfg → CtxCfg) : (s.modCtx c f).rt = s.rt := rfl
@[simp] theorem State.modCtx_rtPhase (s : State) (c : Nat) (f : CtxCfg → CtxCfg) : (s.modCtx c f).rtPhase = s.rtPhase := rfl
@[simp] theorem State.modCtx_power (s : State) (c : Nat) (f : CtxCfg → CtxCfg) : (s.modCtx c f).power = s.power := rfl
@[simp] theorem State.modCtx_recovery (s : State) (c : Nat) (f : CtxCfg → CtxCfg) : (s.modCtx c f).recovery = s.recovery := rfl
@[simp] theorem State.modCtx_mem (s : State) (c : Nat) (f : CtxCfg → CtxCfg) : (s.modCtx c f).mem = s.mem := rfl
@[simp] theorem State.modCtx_poison (s : State) (c : Nat) (f : CtxCfg → CtxCfg) : (s.modCtx c f).poison = s.poison := rfl
@[simp] theorem State.modCtx_lineKey (s : State) (c : Nat) (f : CtxCfg → CtxCfg) : (s.modCtx c f).lineKey = s.lineKey := rfl
@[simp] theorem State.modCtx_caches (s : State) (c : Nat) (f : CtxCfg → CtxCfg) : (s.modCtx c f).caches = s.caches := rfl
@[simp] theorem State.modCtx_keys (s : State) (c : Nat) (f : CtxCfg → CtxCfg) : (s.modCtx c f).keys = s.keys := rfl
@[simp] theorem State.modCtx_keyGen (s : State) (c : Nat) (f : CtxCfg → CtxCfg) : (s.modCtx c f).keyGen = s.keyGen := rfl
@[simp] theorem State.modCtx_spdm (s : State) (c : Nat) (f : CtxCfg → CtxCfg) : (s.modCtx c f).spdm = s.spdm := rfl
@[simp] theorem State.modCtx_leaf (s : State) (c : Nat) (f : CtxCfg → CtxCfg) : (s.modCtx c f).leaf = s.leaf := rfl
@[simp] theorem State.modCtx_fqcfg (s : State) (c : Nat) (f : CtxCfg → CtxCfg) : (s.modCtx c f).fqcfg = s.fqcfg := rfl
@[simp] theorem State.modCtx_fqIdx (s : State) (c : Nat) (f : CtxCfg → CtxCfg) : (s.modCtx c f).fqIdx = s.fqIdx := rfl
@[simp] theorem State.modCtx_hqcfg (s : State) (c : Nat) (f : CtxCfg → CtxCfg) : (s.modCtx c f).hqcfg = s.hqcfg := rfl
@[simp] theorem State.modCtx_hqIdx (s : State) (c : Nat) (f : CtxCfg → CtxCfg) : (s.modCtx c f).hqIdx = s.hqIdx := rfl
@[simp] theorem State.modCtx_errcfg (s : State) (c : Nat) (f : CtxCfg → CtxCfg) : (s.modCtx c f).errcfg = s.errcfg := rfl
@[simp] theorem State.modCtx_pwrcfg (s : State) (c : Nat) (f : CtxCfg → CtxCfg) : (s.modCtx c f).pwrcfg = s.pwrcfg := rfl
@[simp] theorem State.modCtx_capNow (s : State) (c : Nat) (f : CtxCfg → CtxCfg) : (s.modCtx c f).capNow = s.capNow := rfl
@[simp] theorem State.modCtx_window (s : State) (c : Nat) (f : CtxCfg → CtxCfg) : (s.modCtx c f).window = s.window := rfl
@[simp] theorem State.modCtx_brcfg (s : State) (c : Nat) (f : CtxCfg → CtxCfg) : (s.modCtx c f).brcfg = s.brcfg := rfl
@[simp] theorem State.modCtx_ulHub (s : State) (c : Nat) (f : CtxCfg → CtxCfg) : (s.modCtx c f).ulHub = s.ulHub := rfl
@[simp] theorem State.modCtx_riminj (s : State) (c : Nat) (f : CtxCfg → CtxCfg) : (s.modCtx c f).riminj = s.riminj := rfl
@[simp] theorem State.modCtx_rimOff (s : State) (c : Nat) (f : CtxCfg → CtxCfg) : (s.modCtx c f).rimOff = s.rimOff := rfl
@[simp] theorem State.modCtx_w1cAt (s : State) (c : Nat) (f : CtxCfg → CtxCfg) : (s.modCtx c f).w1cAt = s.w1cAt := rfl
@[simp] theorem State.modCtx_ctxs (s : State) (c : Nat) (f : CtxCfg → CtxCfg) : (s.modCtx c f).ctxs = tset s.ctxs c (f (s.ctx c)) := rfl
@[simp] theorem State.modCtx_stks (s : State) (c : Nat) (f : CtxCfg → CtxCfg) : (s.modCtx c f).stks = s.stks := rfl
@[simp] theorem State.modCtx_undo (s : State) (c : Nat) (f : CtxCfg → CtxCfg) : (s.modCtx c f).undo = s.undo := rfl
@[simp] theorem State.modCtx_queues (s : State) (c : Nat) (f : CtxCfg → CtxCfg) : (s.modCtx c f).queues = s.queues := rfl
@[simp] theorem State.modCtx_procs (s : State) (c : Nat) (f : CtxCfg → CtxCfg) : (s.modCtx c f).procs = s.procs := rfl
@[simp] theorem State.modCtx_launches (s : State) (c : Nat) (f : CtxCfg → CtxCfg) : (s.modCtx c f).launches = s.launches := rfl
@[simp] theorem State.modCtx_nextLaunch (s : State) (c : Nat) (f : CtxCfg → CtxCfg) : (s.modCtx c f).nextLaunch = s.nextLaunch := rfl
@[simp] theorem State.modCtx_gangHold (s : State) (c : Nat) (f : CtxCfg → CtxCfg) : (s.modCtx c f).gangHold = s.gangHold := rfl
@[simp] theorem State.modCtx_dist (s : State) (c : Nat) (f : CtxCfg → CtxCfg) : (s.modCtx c f).dist = s.dist := rfl
@[simp] theorem State.modCtx_placeAt (s : State) (c : Nat) (f : CtxCfg → CtxCfg) : (s.modCtx c f).placeAt = s.placeAt := rfl
@[simp] theorem State.modCtx_teams (s : State) (c : Nat) (f : CtxCfg → CtxCfg) : (s.modCtx c f).teams = s.teams := rfl
@[simp] theorem State.modCtx_nextTeam (s : State) (c : Nat) (f : CtxCfg → CtxCfg) : (s.modCtx c f).nextTeam = s.nextTeam := rfl
@[simp] theorem State.modCtx_groups (s : State) (c : Nat) (f : CtxCfg → CtxCfg) : (s.modCtx c f).groups = s.groups := rfl
@[simp] theorem State.modCtx_nextGroup (s : State) (c : Nat) (f : CtxCfg → CtxCfg) : (s.modCtx c f).nextGroup = s.nextGroup := rfl
@[simp] theorem State.modCtx_wide (s : State) (c : Nat) (f : CtxCfg → CtxCfg) : (s.modCtx c f).wide = s.wide := rfl
@[simp] theorem State.modCtx_nextWide (s : State) (c : Nat) (f : CtxCfg → CtxCfg) : (s.modCtx c f).nextWide = s.nextWide := rfl
@[simp] theorem State.modCtx_cores (s : State) (c : Nat) (f : CtxCfg → CtxCfg) : (s.modCtx c f).cores = s.cores := rfl
@[simp] theorem State.modCtx_quads (s : State) (c : Nat) (f : CtxCfg → CtxCfg) : (s.modCtx c f).quads = s.quads := rfl
@[simp] theorem State.modCtx_ops (s : State) (c : Nat) (f : CtxCfg → CtxCfg) : (s.modCtx c f).ops = s.ops := rfl
@[simp] theorem State.modCtx_nextOp (s : State) (c : Nat) (f : CtxCfg → CtxCfg) : (s.modCtx c f).nextOp = s.nextOp := rfl
@[simp] theorem State.modCtx_nextPid (s : State) (c : Nat) (f : CtxCfg → CtxCfg) : (s.modCtx c f).nextPid = s.nextPid := rfl
@[simp] theorem State.modCtx_tlb (s : State) (c : Nat) (f : CtxCfg → CtxCfg) : (s.modCtx c f).tlb = s.tlb := rfl
@[simp] theorem State.modCtx_faults (s : State) (c : Nat) (f : CtxCfg → CtxCfg) : (s.modCtx c f).faults = s.faults := rfl
@[simp] theorem State.modCtx_halters (s : State) (c : Nat) (f : CtxCfg → CtxCfg) : (s.modCtx c f).halters = s.halters := rfl
@[simp] theorem State.modCtx_answers (s : State) (c : Nat) (f : CtxCfg → CtxCfg) : (s.modCtx c f).answers = s.answers := rfl
@[simp] theorem State.modCtx_models (s : State) (c : Nat) (f : CtxCfg → CtxCfg) : (s.modCtx c f).models = s.models := rfl
@[simp] theorem State.modCtx_useCnt (s : State) (c : Nat) (f : CtxCfg → CtxCfg) : (s.modCtx c f).useCnt = s.useCnt := rfl
@[simp] theorem State.modCtx_swaps (s : State) (c : Nat) (f : CtxCfg → CtxCfg) : (s.modCtx c f).swaps = s.swaps := rfl
@[simp] theorem State.modCtx_leaving (s : State) (c : Nat) (f : CtxCfg → CtxCfg) : (s.modCtx c f).leaving = s.leaving := rfl
@[simp] theorem State.modCtx_nextReq (s : State) (c : Nat) (f : CtxCfg → CtxCfg) : (s.modCtx c f).nextReq = s.nextReq := rfl
@[simp] theorem State.modCtx_sessions (s : State) (c : Nat) (f : CtxCfg → CtxCfg) : (s.modCtx c f).sessions = s.sessions := rfl
@[simp] theorem State.modCtx_rimDown (s : State) (c : Nat) (f : CtxCfg → CtxCfg) : (s.modCtx c f).rimDown = s.rimDown := rfl
@[simp] theorem State.modCtx_cxlDown (s : State) (c : Nat) (f : CtxCfg → CtxCfg) : (s.modCtx c f).cxlDown = s.cxlDown := rfl
@[simp] theorem State.modCtx_colls (s : State) (c : Nat) (f : CtxCfg → CtxCfg) : (s.modCtx c f).colls = s.colls := rfl
@[simp] theorem State.modCtx_errs (s : State) (c : Nat) (f : CtxCfg → CtxCfg) : (s.modCtx c f).errs = s.errs := rfl
@[simp] theorem State.modCtx_boxes (s : State) (c : Nat) (f : CtxCfg → CtxCfg) : (s.modCtx c f).boxes = s.boxes := rfl
@[simp] theorem State.modCtx_net (s : State) (c : Nat) (f : CtxCfg → CtxCfg) : (s.modCtx c f).net = s.net := rfl
@[simp] theorem State.modCtx_cur (s : State) (c : Nat) (f : CtxCfg → CtxCfg) : (s.modCtx c f).cur = s.cur := rfl
@[simp] theorem State.modCtx_script (s : State) (c : Nat) (f : CtxCfg → CtxCfg) : (s.modCtx c f).script = s.script := rfl
@[simp] theorem State.modCtx_free (s : State) (c : Nat) (f : CtxCfg → CtxCfg) : (s.modCtx c f).free = s.free := rfl
@[simp] theorem State.modCtx_hole (s : State) (c : Nat) (f : CtxCfg → CtxCfg) : (s.modCtx c f).hole = s.hole := rfl

/-! ### `State.modQueue` -/

@[simp] theorem State.modQueue_clk (s : State) (q : Nat) (f : Queue → Queue) : (s.modQueue q f).clk = s.clk := rfl
@[simp] theorem State.modQueue_rt (s : State) (q : Nat) (f : Queue → Queue) : (s.modQueue q f).rt = s.rt := rfl
@[simp] theorem State.modQueue_rtPhase (s : State) (q : Nat) (f : Queue → Queue) : (s.modQueue q f).rtPhase = s.rtPhase := rfl
@[simp] theorem State.modQueue_power (s : State) (q : Nat) (f : Queue → Queue) : (s.modQueue q f).power = s.power := rfl
@[simp] theorem State.modQueue_recovery (s : State) (q : Nat) (f : Queue → Queue) : (s.modQueue q f).recovery = s.recovery := rfl
@[simp] theorem State.modQueue_mem (s : State) (q : Nat) (f : Queue → Queue) : (s.modQueue q f).mem = s.mem := rfl
@[simp] theorem State.modQueue_poison (s : State) (q : Nat) (f : Queue → Queue) : (s.modQueue q f).poison = s.poison := rfl
@[simp] theorem State.modQueue_lineKey (s : State) (q : Nat) (f : Queue → Queue) : (s.modQueue q f).lineKey = s.lineKey := rfl
@[simp] theorem State.modQueue_caches (s : State) (q : Nat) (f : Queue → Queue) : (s.modQueue q f).caches = s.caches := rfl
@[simp] theorem State.modQueue_keys (s : State) (q : Nat) (f : Queue → Queue) : (s.modQueue q f).keys = s.keys := rfl
@[simp] theorem State.modQueue_keyGen (s : State) (q : Nat) (f : Queue → Queue) : (s.modQueue q f).keyGen = s.keyGen := rfl
@[simp] theorem State.modQueue_spdm (s : State) (q : Nat) (f : Queue → Queue) : (s.modQueue q f).spdm = s.spdm := rfl
@[simp] theorem State.modQueue_leaf (s : State) (q : Nat) (f : Queue → Queue) : (s.modQueue q f).leaf = s.leaf := rfl
@[simp] theorem State.modQueue_fqcfg (s : State) (q : Nat) (f : Queue → Queue) : (s.modQueue q f).fqcfg = s.fqcfg := rfl
@[simp] theorem State.modQueue_fqIdx (s : State) (q : Nat) (f : Queue → Queue) : (s.modQueue q f).fqIdx = s.fqIdx := rfl
@[simp] theorem State.modQueue_hqcfg (s : State) (q : Nat) (f : Queue → Queue) : (s.modQueue q f).hqcfg = s.hqcfg := rfl
@[simp] theorem State.modQueue_hqIdx (s : State) (q : Nat) (f : Queue → Queue) : (s.modQueue q f).hqIdx = s.hqIdx := rfl
@[simp] theorem State.modQueue_errcfg (s : State) (q : Nat) (f : Queue → Queue) : (s.modQueue q f).errcfg = s.errcfg := rfl
@[simp] theorem State.modQueue_pwrcfg (s : State) (q : Nat) (f : Queue → Queue) : (s.modQueue q f).pwrcfg = s.pwrcfg := rfl
@[simp] theorem State.modQueue_capNow (s : State) (q : Nat) (f : Queue → Queue) : (s.modQueue q f).capNow = s.capNow := rfl
@[simp] theorem State.modQueue_window (s : State) (q : Nat) (f : Queue → Queue) : (s.modQueue q f).window = s.window := rfl
@[simp] theorem State.modQueue_brcfg (s : State) (q : Nat) (f : Queue → Queue) : (s.modQueue q f).brcfg = s.brcfg := rfl
@[simp] theorem State.modQueue_ulHub (s : State) (q : Nat) (f : Queue → Queue) : (s.modQueue q f).ulHub = s.ulHub := rfl
@[simp] theorem State.modQueue_riminj (s : State) (q : Nat) (f : Queue → Queue) : (s.modQueue q f).riminj = s.riminj := rfl
@[simp] theorem State.modQueue_rimOff (s : State) (q : Nat) (f : Queue → Queue) : (s.modQueue q f).rimOff = s.rimOff := rfl
@[simp] theorem State.modQueue_w1cAt (s : State) (q : Nat) (f : Queue → Queue) : (s.modQueue q f).w1cAt = s.w1cAt := rfl
@[simp] theorem State.modQueue_ctxs (s : State) (q : Nat) (f : Queue → Queue) : (s.modQueue q f).ctxs = s.ctxs := rfl
@[simp] theorem State.modQueue_stks (s : State) (q : Nat) (f : Queue → Queue) : (s.modQueue q f).stks = s.stks := rfl
@[simp] theorem State.modQueue_undo (s : State) (q : Nat) (f : Queue → Queue) : (s.modQueue q f).undo = s.undo := rfl
@[simp] theorem State.modQueue_queues (s : State) (q : Nat) (f : Queue → Queue) : (s.modQueue q f).queues = tset s.queues q (f (s.queue q)) := rfl
@[simp] theorem State.modQueue_procs (s : State) (q : Nat) (f : Queue → Queue) : (s.modQueue q f).procs = s.procs := rfl
@[simp] theorem State.modQueue_launches (s : State) (q : Nat) (f : Queue → Queue) : (s.modQueue q f).launches = s.launches := rfl
@[simp] theorem State.modQueue_nextLaunch (s : State) (q : Nat) (f : Queue → Queue) : (s.modQueue q f).nextLaunch = s.nextLaunch := rfl
@[simp] theorem State.modQueue_gangHold (s : State) (q : Nat) (f : Queue → Queue) : (s.modQueue q f).gangHold = s.gangHold := rfl
@[simp] theorem State.modQueue_dist (s : State) (q : Nat) (f : Queue → Queue) : (s.modQueue q f).dist = s.dist := rfl
@[simp] theorem State.modQueue_placeAt (s : State) (q : Nat) (f : Queue → Queue) : (s.modQueue q f).placeAt = s.placeAt := rfl
@[simp] theorem State.modQueue_teams (s : State) (q : Nat) (f : Queue → Queue) : (s.modQueue q f).teams = s.teams := rfl
@[simp] theorem State.modQueue_nextTeam (s : State) (q : Nat) (f : Queue → Queue) : (s.modQueue q f).nextTeam = s.nextTeam := rfl
@[simp] theorem State.modQueue_groups (s : State) (q : Nat) (f : Queue → Queue) : (s.modQueue q f).groups = s.groups := rfl
@[simp] theorem State.modQueue_nextGroup (s : State) (q : Nat) (f : Queue → Queue) : (s.modQueue q f).nextGroup = s.nextGroup := rfl
@[simp] theorem State.modQueue_wide (s : State) (q : Nat) (f : Queue → Queue) : (s.modQueue q f).wide = s.wide := rfl
@[simp] theorem State.modQueue_nextWide (s : State) (q : Nat) (f : Queue → Queue) : (s.modQueue q f).nextWide = s.nextWide := rfl
@[simp] theorem State.modQueue_cores (s : State) (q : Nat) (f : Queue → Queue) : (s.modQueue q f).cores = s.cores := rfl
@[simp] theorem State.modQueue_quads (s : State) (q : Nat) (f : Queue → Queue) : (s.modQueue q f).quads = s.quads := rfl
@[simp] theorem State.modQueue_ops (s : State) (q : Nat) (f : Queue → Queue) : (s.modQueue q f).ops = s.ops := rfl
@[simp] theorem State.modQueue_nextOp (s : State) (q : Nat) (f : Queue → Queue) : (s.modQueue q f).nextOp = s.nextOp := rfl
@[simp] theorem State.modQueue_nextPid (s : State) (q : Nat) (f : Queue → Queue) : (s.modQueue q f).nextPid = s.nextPid := rfl
@[simp] theorem State.modQueue_tlb (s : State) (q : Nat) (f : Queue → Queue) : (s.modQueue q f).tlb = s.tlb := rfl
@[simp] theorem State.modQueue_faults (s : State) (q : Nat) (f : Queue → Queue) : (s.modQueue q f).faults = s.faults := rfl
@[simp] theorem State.modQueue_halters (s : State) (q : Nat) (f : Queue → Queue) : (s.modQueue q f).halters = s.halters := rfl
@[simp] theorem State.modQueue_answers (s : State) (q : Nat) (f : Queue → Queue) : (s.modQueue q f).answers = s.answers := rfl
@[simp] theorem State.modQueue_models (s : State) (q : Nat) (f : Queue → Queue) : (s.modQueue q f).models = s.models := rfl
@[simp] theorem State.modQueue_useCnt (s : State) (q : Nat) (f : Queue → Queue) : (s.modQueue q f).useCnt = s.useCnt := rfl
@[simp] theorem State.modQueue_swaps (s : State) (q : Nat) (f : Queue → Queue) : (s.modQueue q f).swaps = s.swaps := rfl
@[simp] theorem State.modQueue_leaving (s : State) (q : Nat) (f : Queue → Queue) : (s.modQueue q f).leaving = s.leaving := rfl
@[simp] theorem State.modQueue_nextReq (s : State) (q : Nat) (f : Queue → Queue) : (s.modQueue q f).nextReq = s.nextReq := rfl
@[simp] theorem State.modQueue_sessions (s : State) (q : Nat) (f : Queue → Queue) : (s.modQueue q f).sessions = s.sessions := rfl
@[simp] theorem State.modQueue_rimDown (s : State) (q : Nat) (f : Queue → Queue) : (s.modQueue q f).rimDown = s.rimDown := rfl
@[simp] theorem State.modQueue_cxlDown (s : State) (q : Nat) (f : Queue → Queue) : (s.modQueue q f).cxlDown = s.cxlDown := rfl
@[simp] theorem State.modQueue_colls (s : State) (q : Nat) (f : Queue → Queue) : (s.modQueue q f).colls = s.colls := rfl
@[simp] theorem State.modQueue_errs (s : State) (q : Nat) (f : Queue → Queue) : (s.modQueue q f).errs = s.errs := rfl
@[simp] theorem State.modQueue_boxes (s : State) (q : Nat) (f : Queue → Queue) : (s.modQueue q f).boxes = s.boxes := rfl
@[simp] theorem State.modQueue_net (s : State) (q : Nat) (f : Queue → Queue) : (s.modQueue q f).net = s.net := rfl
@[simp] theorem State.modQueue_cur (s : State) (q : Nat) (f : Queue → Queue) : (s.modQueue q f).cur = s.cur := rfl
@[simp] theorem State.modQueue_script (s : State) (q : Nat) (f : Queue → Queue) : (s.modQueue q f).script = s.script := rfl
@[simp] theorem State.modQueue_free (s : State) (q : Nat) (f : Queue → Queue) : (s.modQueue q f).free = s.free := rfl
@[simp] theorem State.modQueue_hole (s : State) (q : Nat) (f : Queue → Queue) : (s.modQueue q f).hole = s.hole := rfl

/-! ### `State.modGroup` -/

@[simp] theorem State.modGroup_clk (s : State) (g : Nat) (f : Group → Group) : (s.modGroup g f).clk = s.clk := rfl
@[simp] theorem State.modGroup_rt (s : State) (g : Nat) (f : Group → Group) : (s.modGroup g f).rt = s.rt := rfl
@[simp] theorem State.modGroup_rtPhase (s : State) (g : Nat) (f : Group → Group) : (s.modGroup g f).rtPhase = s.rtPhase := rfl
@[simp] theorem State.modGroup_power (s : State) (g : Nat) (f : Group → Group) : (s.modGroup g f).power = s.power := rfl
@[simp] theorem State.modGroup_recovery (s : State) (g : Nat) (f : Group → Group) : (s.modGroup g f).recovery = s.recovery := rfl
@[simp] theorem State.modGroup_mem (s : State) (g : Nat) (f : Group → Group) : (s.modGroup g f).mem = s.mem := rfl
@[simp] theorem State.modGroup_poison (s : State) (g : Nat) (f : Group → Group) : (s.modGroup g f).poison = s.poison := rfl
@[simp] theorem State.modGroup_lineKey (s : State) (g : Nat) (f : Group → Group) : (s.modGroup g f).lineKey = s.lineKey := rfl
@[simp] theorem State.modGroup_caches (s : State) (g : Nat) (f : Group → Group) : (s.modGroup g f).caches = s.caches := rfl
@[simp] theorem State.modGroup_keys (s : State) (g : Nat) (f : Group → Group) : (s.modGroup g f).keys = s.keys := rfl
@[simp] theorem State.modGroup_keyGen (s : State) (g : Nat) (f : Group → Group) : (s.modGroup g f).keyGen = s.keyGen := rfl
@[simp] theorem State.modGroup_spdm (s : State) (g : Nat) (f : Group → Group) : (s.modGroup g f).spdm = s.spdm := rfl
@[simp] theorem State.modGroup_leaf (s : State) (g : Nat) (f : Group → Group) : (s.modGroup g f).leaf = s.leaf := rfl
@[simp] theorem State.modGroup_fqcfg (s : State) (g : Nat) (f : Group → Group) : (s.modGroup g f).fqcfg = s.fqcfg := rfl
@[simp] theorem State.modGroup_fqIdx (s : State) (g : Nat) (f : Group → Group) : (s.modGroup g f).fqIdx = s.fqIdx := rfl
@[simp] theorem State.modGroup_hqcfg (s : State) (g : Nat) (f : Group → Group) : (s.modGroup g f).hqcfg = s.hqcfg := rfl
@[simp] theorem State.modGroup_hqIdx (s : State) (g : Nat) (f : Group → Group) : (s.modGroup g f).hqIdx = s.hqIdx := rfl
@[simp] theorem State.modGroup_errcfg (s : State) (g : Nat) (f : Group → Group) : (s.modGroup g f).errcfg = s.errcfg := rfl
@[simp] theorem State.modGroup_pwrcfg (s : State) (g : Nat) (f : Group → Group) : (s.modGroup g f).pwrcfg = s.pwrcfg := rfl
@[simp] theorem State.modGroup_capNow (s : State) (g : Nat) (f : Group → Group) : (s.modGroup g f).capNow = s.capNow := rfl
@[simp] theorem State.modGroup_window (s : State) (g : Nat) (f : Group → Group) : (s.modGroup g f).window = s.window := rfl
@[simp] theorem State.modGroup_brcfg (s : State) (g : Nat) (f : Group → Group) : (s.modGroup g f).brcfg = s.brcfg := rfl
@[simp] theorem State.modGroup_ulHub (s : State) (g : Nat) (f : Group → Group) : (s.modGroup g f).ulHub = s.ulHub := rfl
@[simp] theorem State.modGroup_riminj (s : State) (g : Nat) (f : Group → Group) : (s.modGroup g f).riminj = s.riminj := rfl
@[simp] theorem State.modGroup_rimOff (s : State) (g : Nat) (f : Group → Group) : (s.modGroup g f).rimOff = s.rimOff := rfl
@[simp] theorem State.modGroup_w1cAt (s : State) (g : Nat) (f : Group → Group) : (s.modGroup g f).w1cAt = s.w1cAt := rfl
@[simp] theorem State.modGroup_ctxs (s : State) (g : Nat) (f : Group → Group) : (s.modGroup g f).ctxs = s.ctxs := rfl
@[simp] theorem State.modGroup_stks (s : State) (g : Nat) (f : Group → Group) : (s.modGroup g f).stks = s.stks := rfl
@[simp] theorem State.modGroup_undo (s : State) (g : Nat) (f : Group → Group) : (s.modGroup g f).undo = s.undo := rfl
@[simp] theorem State.modGroup_queues (s : State) (g : Nat) (f : Group → Group) : (s.modGroup g f).queues = s.queues := rfl
@[simp] theorem State.modGroup_procs (s : State) (g : Nat) (f : Group → Group) : (s.modGroup g f).procs = s.procs := rfl
@[simp] theorem State.modGroup_launches (s : State) (g : Nat) (f : Group → Group) : (s.modGroup g f).launches = s.launches := rfl
@[simp] theorem State.modGroup_nextLaunch (s : State) (g : Nat) (f : Group → Group) : (s.modGroup g f).nextLaunch = s.nextLaunch := rfl
@[simp] theorem State.modGroup_gangHold (s : State) (g : Nat) (f : Group → Group) : (s.modGroup g f).gangHold = s.gangHold := rfl
@[simp] theorem State.modGroup_dist (s : State) (g : Nat) (f : Group → Group) : (s.modGroup g f).dist = s.dist := rfl
@[simp] theorem State.modGroup_placeAt (s : State) (g : Nat) (f : Group → Group) : (s.modGroup g f).placeAt = s.placeAt := rfl
@[simp] theorem State.modGroup_teams (s : State) (g : Nat) (f : Group → Group) : (s.modGroup g f).teams = s.teams := rfl
@[simp] theorem State.modGroup_nextTeam (s : State) (g : Nat) (f : Group → Group) : (s.modGroup g f).nextTeam = s.nextTeam := rfl
@[simp] theorem State.modGroup_groups (s : State) (g : Nat) (f : Group → Group) : (s.modGroup g f).groups = tmod s.groups g f := rfl
@[simp] theorem State.modGroup_nextGroup (s : State) (g : Nat) (f : Group → Group) : (s.modGroup g f).nextGroup = s.nextGroup := rfl
@[simp] theorem State.modGroup_wide (s : State) (g : Nat) (f : Group → Group) : (s.modGroup g f).wide = s.wide := rfl
@[simp] theorem State.modGroup_nextWide (s : State) (g : Nat) (f : Group → Group) : (s.modGroup g f).nextWide = s.nextWide := rfl
@[simp] theorem State.modGroup_cores (s : State) (g : Nat) (f : Group → Group) : (s.modGroup g f).cores = s.cores := rfl
@[simp] theorem State.modGroup_quads (s : State) (g : Nat) (f : Group → Group) : (s.modGroup g f).quads = s.quads := rfl
@[simp] theorem State.modGroup_ops (s : State) (g : Nat) (f : Group → Group) : (s.modGroup g f).ops = s.ops := rfl
@[simp] theorem State.modGroup_nextOp (s : State) (g : Nat) (f : Group → Group) : (s.modGroup g f).nextOp = s.nextOp := rfl
@[simp] theorem State.modGroup_nextPid (s : State) (g : Nat) (f : Group → Group) : (s.modGroup g f).nextPid = s.nextPid := rfl
@[simp] theorem State.modGroup_tlb (s : State) (g : Nat) (f : Group → Group) : (s.modGroup g f).tlb = s.tlb := rfl
@[simp] theorem State.modGroup_faults (s : State) (g : Nat) (f : Group → Group) : (s.modGroup g f).faults = s.faults := rfl
@[simp] theorem State.modGroup_halters (s : State) (g : Nat) (f : Group → Group) : (s.modGroup g f).halters = s.halters := rfl
@[simp] theorem State.modGroup_answers (s : State) (g : Nat) (f : Group → Group) : (s.modGroup g f).answers = s.answers := rfl
@[simp] theorem State.modGroup_models (s : State) (g : Nat) (f : Group → Group) : (s.modGroup g f).models = s.models := rfl
@[simp] theorem State.modGroup_useCnt (s : State) (g : Nat) (f : Group → Group) : (s.modGroup g f).useCnt = s.useCnt := rfl
@[simp] theorem State.modGroup_swaps (s : State) (g : Nat) (f : Group → Group) : (s.modGroup g f).swaps = s.swaps := rfl
@[simp] theorem State.modGroup_leaving (s : State) (g : Nat) (f : Group → Group) : (s.modGroup g f).leaving = s.leaving := rfl
@[simp] theorem State.modGroup_nextReq (s : State) (g : Nat) (f : Group → Group) : (s.modGroup g f).nextReq = s.nextReq := rfl
@[simp] theorem State.modGroup_sessions (s : State) (g : Nat) (f : Group → Group) : (s.modGroup g f).sessions = s.sessions := rfl
@[simp] theorem State.modGroup_rimDown (s : State) (g : Nat) (f : Group → Group) : (s.modGroup g f).rimDown = s.rimDown := rfl
@[simp] theorem State.modGroup_cxlDown (s : State) (g : Nat) (f : Group → Group) : (s.modGroup g f).cxlDown = s.cxlDown := rfl
@[simp] theorem State.modGroup_colls (s : State) (g : Nat) (f : Group → Group) : (s.modGroup g f).colls = s.colls := rfl
@[simp] theorem State.modGroup_errs (s : State) (g : Nat) (f : Group → Group) : (s.modGroup g f).errs = s.errs := rfl
@[simp] theorem State.modGroup_boxes (s : State) (g : Nat) (f : Group → Group) : (s.modGroup g f).boxes = s.boxes := rfl
@[simp] theorem State.modGroup_net (s : State) (g : Nat) (f : Group → Group) : (s.modGroup g f).net = s.net := rfl
@[simp] theorem State.modGroup_cur (s : State) (g : Nat) (f : Group → Group) : (s.modGroup g f).cur = s.cur := rfl
@[simp] theorem State.modGroup_script (s : State) (g : Nat) (f : Group → Group) : (s.modGroup g f).script = s.script := rfl
@[simp] theorem State.modGroup_free (s : State) (g : Nat) (f : Group → Group) : (s.modGroup g f).free = s.free := rfl
@[simp] theorem State.modGroup_hole (s : State) (g : Nat) (f : Group → Group) : (s.modGroup g f).hole = s.hole := rfl

/-! ### `State.modStack` -/

@[simp] theorem State.modStack_clk (s : State) (n : Nat) (f : StackCfg → StackCfg) : (s.modStack n f).clk = s.clk := rfl
@[simp] theorem State.modStack_rt (s : State) (n : Nat) (f : StackCfg → StackCfg) : (s.modStack n f).rt = s.rt := rfl
@[simp] theorem State.modStack_rtPhase (s : State) (n : Nat) (f : StackCfg → StackCfg) : (s.modStack n f).rtPhase = s.rtPhase := rfl
@[simp] theorem State.modStack_power (s : State) (n : Nat) (f : StackCfg → StackCfg) : (s.modStack n f).power = s.power := rfl
@[simp] theorem State.modStack_recovery (s : State) (n : Nat) (f : StackCfg → StackCfg) : (s.modStack n f).recovery = s.recovery := rfl
@[simp] theorem State.modStack_mem (s : State) (n : Nat) (f : StackCfg → StackCfg) : (s.modStack n f).mem = s.mem := rfl
@[simp] theorem State.modStack_poison (s : State) (n : Nat) (f : StackCfg → StackCfg) : (s.modStack n f).poison = s.poison := rfl
@[simp] theorem State.modStack_lineKey (s : State) (n : Nat) (f : StackCfg → StackCfg) : (s.modStack n f).lineKey = s.lineKey := rfl
@[simp] theorem State.modStack_caches (s : State) (n : Nat) (f : StackCfg → StackCfg) : (s.modStack n f).caches = s.caches := rfl
@[simp] theorem State.modStack_keys (s : State) (n : Nat) (f : StackCfg → StackCfg) : (s.modStack n f).keys = s.keys := rfl
@[simp] theorem State.modStack_keyGen (s : State) (n : Nat) (f : StackCfg → StackCfg) : (s.modStack n f).keyGen = s.keyGen := rfl
@[simp] theorem State.modStack_spdm (s : State) (n : Nat) (f : StackCfg → StackCfg) : (s.modStack n f).spdm = s.spdm := rfl
@[simp] theorem State.modStack_leaf (s : State) (n : Nat) (f : StackCfg → StackCfg) : (s.modStack n f).leaf = s.leaf := rfl
@[simp] theorem State.modStack_fqcfg (s : State) (n : Nat) (f : StackCfg → StackCfg) : (s.modStack n f).fqcfg = s.fqcfg := rfl
@[simp] theorem State.modStack_fqIdx (s : State) (n : Nat) (f : StackCfg → StackCfg) : (s.modStack n f).fqIdx = s.fqIdx := rfl
@[simp] theorem State.modStack_hqcfg (s : State) (n : Nat) (f : StackCfg → StackCfg) : (s.modStack n f).hqcfg = s.hqcfg := rfl
@[simp] theorem State.modStack_hqIdx (s : State) (n : Nat) (f : StackCfg → StackCfg) : (s.modStack n f).hqIdx = s.hqIdx := rfl
@[simp] theorem State.modStack_errcfg (s : State) (n : Nat) (f : StackCfg → StackCfg) : (s.modStack n f).errcfg = s.errcfg := rfl
@[simp] theorem State.modStack_pwrcfg (s : State) (n : Nat) (f : StackCfg → StackCfg) : (s.modStack n f).pwrcfg = s.pwrcfg := rfl
@[simp] theorem State.modStack_capNow (s : State) (n : Nat) (f : StackCfg → StackCfg) : (s.modStack n f).capNow = s.capNow := rfl
@[simp] theorem State.modStack_window (s : State) (n : Nat) (f : StackCfg → StackCfg) : (s.modStack n f).window = s.window := rfl
@[simp] theorem State.modStack_brcfg (s : State) (n : Nat) (f : StackCfg → StackCfg) : (s.modStack n f).brcfg = s.brcfg := rfl
@[simp] theorem State.modStack_ulHub (s : State) (n : Nat) (f : StackCfg → StackCfg) : (s.modStack n f).ulHub = s.ulHub := rfl
@[simp] theorem State.modStack_riminj (s : State) (n : Nat) (f : StackCfg → StackCfg) : (s.modStack n f).riminj = s.riminj := rfl
@[simp] theorem State.modStack_rimOff (s : State) (n : Nat) (f : StackCfg → StackCfg) : (s.modStack n f).rimOff = s.rimOff := rfl
@[simp] theorem State.modStack_w1cAt (s : State) (n : Nat) (f : StackCfg → StackCfg) : (s.modStack n f).w1cAt = s.w1cAt := rfl
@[simp] theorem State.modStack_ctxs (s : State) (n : Nat) (f : StackCfg → StackCfg) : (s.modStack n f).ctxs = s.ctxs := rfl
@[simp] theorem State.modStack_stks (s : State) (n : Nat) (f : StackCfg → StackCfg) : (s.modStack n f).stks = tset s.stks n (f (s.stack n)) := rfl
@[simp] theorem State.modStack_undo (s : State) (n : Nat) (f : StackCfg → StackCfg) : (s.modStack n f).undo = s.undo := rfl
@[simp] theorem State.modStack_queues (s : State) (n : Nat) (f : StackCfg → StackCfg) : (s.modStack n f).queues = s.queues := rfl
@[simp] theorem State.modStack_procs (s : State) (n : Nat) (f : StackCfg → StackCfg) : (s.modStack n f).procs = s.procs := rfl
@[simp] theorem State.modStack_launches (s : State) (n : Nat) (f : StackCfg → StackCfg) : (s.modStack n f).launches = s.launches := rfl
@[simp] theorem State.modStack_nextLaunch (s : State) (n : Nat) (f : StackCfg → StackCfg) : (s.modStack n f).nextLaunch = s.nextLaunch := rfl
@[simp] theorem State.modStack_gangHold (s : State) (n : Nat) (f : StackCfg → StackCfg) : (s.modStack n f).gangHold = s.gangHold := rfl
@[simp] theorem State.modStack_dist (s : State) (n : Nat) (f : StackCfg → StackCfg) : (s.modStack n f).dist = s.dist := rfl
@[simp] theorem State.modStack_placeAt (s : State) (n : Nat) (f : StackCfg → StackCfg) : (s.modStack n f).placeAt = s.placeAt := rfl
@[simp] theorem State.modStack_teams (s : State) (n : Nat) (f : StackCfg → StackCfg) : (s.modStack n f).teams = s.teams := rfl
@[simp] theorem State.modStack_nextTeam (s : State) (n : Nat) (f : StackCfg → StackCfg) : (s.modStack n f).nextTeam = s.nextTeam := rfl
@[simp] theorem State.modStack_groups (s : State) (n : Nat) (f : StackCfg → StackCfg) : (s.modStack n f).groups = s.groups := rfl
@[simp] theorem State.modStack_nextGroup (s : State) (n : Nat) (f : StackCfg → StackCfg) : (s.modStack n f).nextGroup = s.nextGroup := rfl
@[simp] theorem State.modStack_wide (s : State) (n : Nat) (f : StackCfg → StackCfg) : (s.modStack n f).wide = s.wide := rfl
@[simp] theorem State.modStack_nextWide (s : State) (n : Nat) (f : StackCfg → StackCfg) : (s.modStack n f).nextWide = s.nextWide := rfl
@[simp] theorem State.modStack_cores (s : State) (n : Nat) (f : StackCfg → StackCfg) : (s.modStack n f).cores = s.cores := rfl
@[simp] theorem State.modStack_quads (s : State) (n : Nat) (f : StackCfg → StackCfg) : (s.modStack n f).quads = s.quads := rfl
@[simp] theorem State.modStack_ops (s : State) (n : Nat) (f : StackCfg → StackCfg) : (s.modStack n f).ops = s.ops := rfl
@[simp] theorem State.modStack_nextOp (s : State) (n : Nat) (f : StackCfg → StackCfg) : (s.modStack n f).nextOp = s.nextOp := rfl
@[simp] theorem State.modStack_nextPid (s : State) (n : Nat) (f : StackCfg → StackCfg) : (s.modStack n f).nextPid = s.nextPid := rfl
@[simp] theorem State.modStack_tlb (s : State) (n : Nat) (f : StackCfg → StackCfg) : (s.modStack n f).tlb = s.tlb := rfl
@[simp] theorem State.modStack_faults (s : State) (n : Nat) (f : StackCfg → StackCfg) : (s.modStack n f).faults = s.faults := rfl
@[simp] theorem State.modStack_halters (s : State) (n : Nat) (f : StackCfg → StackCfg) : (s.modStack n f).halters = s.halters := rfl
@[simp] theorem State.modStack_answers (s : State) (n : Nat) (f : StackCfg → StackCfg) : (s.modStack n f).answers = s.answers := rfl
@[simp] theorem State.modStack_models (s : State) (n : Nat) (f : StackCfg → StackCfg) : (s.modStack n f).models = s.models := rfl
@[simp] theorem State.modStack_useCnt (s : State) (n : Nat) (f : StackCfg → StackCfg) : (s.modStack n f).useCnt = s.useCnt := rfl
@[simp] theorem State.modStack_swaps (s : State) (n : Nat) (f : StackCfg → StackCfg) : (s.modStack n f).swaps = s.swaps := rfl
@[simp] theorem State.modStack_leaving (s : State) (n : Nat) (f : StackCfg → StackCfg) : (s.modStack n f).leaving = s.leaving := rfl
@[simp] theorem State.modStack_nextReq (s : State) (n : Nat) (f : StackCfg → StackCfg) : (s.modStack n f).nextReq = s.nextReq := rfl
@[simp] theorem State.modStack_sessions (s : State) (n : Nat) (f : StackCfg → StackCfg) : (s.modStack n f).sessions = s.sessions := rfl
@[simp] theorem State.modStack_rimDown (s : State) (n : Nat) (f : StackCfg → StackCfg) : (s.modStack n f).rimDown = s.rimDown := rfl
@[simp] theorem State.modStack_cxlDown (s : State) (n : Nat) (f : StackCfg → StackCfg) : (s.modStack n f).cxlDown = s.cxlDown := rfl
@[simp] theorem State.modStack_colls (s : State) (n : Nat) (f : StackCfg → StackCfg) : (s.modStack n f).colls = s.colls := rfl
@[simp] theorem State.modStack_errs (s : State) (n : Nat) (f : StackCfg → StackCfg) : (s.modStack n f).errs = s.errs := rfl
@[simp] theorem State.modStack_boxes (s : State) (n : Nat) (f : StackCfg → StackCfg) : (s.modStack n f).boxes = s.boxes := rfl
@[simp] theorem State.modStack_net (s : State) (n : Nat) (f : StackCfg → StackCfg) : (s.modStack n f).net = s.net := rfl
@[simp] theorem State.modStack_cur (s : State) (n : Nat) (f : StackCfg → StackCfg) : (s.modStack n f).cur = s.cur := rfl
@[simp] theorem State.modStack_script (s : State) (n : Nat) (f : StackCfg → StackCfg) : (s.modStack n f).script = s.script := rfl
@[simp] theorem State.modStack_free (s : State) (n : Nat) (f : StackCfg → StackCfg) : (s.modStack n f).free = s.free := rfl
@[simp] theorem State.modStack_hole (s : State) (n : Nat) (f : StackCfg → StackCfg) : (s.modStack n f).hole = s.hole := rfl

/-! ### `State.modSession` -/

@[simp] theorem State.modSession_clk (s : State) (n : Nat) (f : Session → Session) : (s.modSession n f).clk = s.clk := rfl
@[simp] theorem State.modSession_rt (s : State) (n : Nat) (f : Session → Session) : (s.modSession n f).rt = s.rt := rfl
@[simp] theorem State.modSession_rtPhase (s : State) (n : Nat) (f : Session → Session) : (s.modSession n f).rtPhase = s.rtPhase := rfl
@[simp] theorem State.modSession_power (s : State) (n : Nat) (f : Session → Session) : (s.modSession n f).power = s.power := rfl
@[simp] theorem State.modSession_recovery (s : State) (n : Nat) (f : Session → Session) : (s.modSession n f).recovery = s.recovery := rfl
@[simp] theorem State.modSession_mem (s : State) (n : Nat) (f : Session → Session) : (s.modSession n f).mem = s.mem := rfl
@[simp] theorem State.modSession_poison (s : State) (n : Nat) (f : Session → Session) : (s.modSession n f).poison = s.poison := rfl
@[simp] theorem State.modSession_lineKey (s : State) (n : Nat) (f : Session → Session) : (s.modSession n f).lineKey = s.lineKey := rfl
@[simp] theorem State.modSession_caches (s : State) (n : Nat) (f : Session → Session) : (s.modSession n f).caches = s.caches := rfl
@[simp] theorem State.modSession_keys (s : State) (n : Nat) (f : Session → Session) : (s.modSession n f).keys = s.keys := rfl
@[simp] theorem State.modSession_keyGen (s : State) (n : Nat) (f : Session → Session) : (s.modSession n f).keyGen = s.keyGen := rfl
@[simp] theorem State.modSession_spdm (s : State) (n : Nat) (f : Session → Session) : (s.modSession n f).spdm = s.spdm := rfl
@[simp] theorem State.modSession_leaf (s : State) (n : Nat) (f : Session → Session) : (s.modSession n f).leaf = s.leaf := rfl
@[simp] theorem State.modSession_fqcfg (s : State) (n : Nat) (f : Session → Session) : (s.modSession n f).fqcfg = s.fqcfg := rfl
@[simp] theorem State.modSession_fqIdx (s : State) (n : Nat) (f : Session → Session) : (s.modSession n f).fqIdx = s.fqIdx := rfl
@[simp] theorem State.modSession_hqcfg (s : State) (n : Nat) (f : Session → Session) : (s.modSession n f).hqcfg = s.hqcfg := rfl
@[simp] theorem State.modSession_hqIdx (s : State) (n : Nat) (f : Session → Session) : (s.modSession n f).hqIdx = s.hqIdx := rfl
@[simp] theorem State.modSession_errcfg (s : State) (n : Nat) (f : Session → Session) : (s.modSession n f).errcfg = s.errcfg := rfl
@[simp] theorem State.modSession_pwrcfg (s : State) (n : Nat) (f : Session → Session) : (s.modSession n f).pwrcfg = s.pwrcfg := rfl
@[simp] theorem State.modSession_capNow (s : State) (n : Nat) (f : Session → Session) : (s.modSession n f).capNow = s.capNow := rfl
@[simp] theorem State.modSession_window (s : State) (n : Nat) (f : Session → Session) : (s.modSession n f).window = s.window := rfl
@[simp] theorem State.modSession_brcfg (s : State) (n : Nat) (f : Session → Session) : (s.modSession n f).brcfg = s.brcfg := rfl
@[simp] theorem State.modSession_ulHub (s : State) (n : Nat) (f : Session → Session) : (s.modSession n f).ulHub = s.ulHub := rfl
@[simp] theorem State.modSession_riminj (s : State) (n : Nat) (f : Session → Session) : (s.modSession n f).riminj = s.riminj := rfl
@[simp] theorem State.modSession_rimOff (s : State) (n : Nat) (f : Session → Session) : (s.modSession n f).rimOff = s.rimOff := rfl
@[simp] theorem State.modSession_w1cAt (s : State) (n : Nat) (f : Session → Session) : (s.modSession n f).w1cAt = s.w1cAt := rfl
@[simp] theorem State.modSession_ctxs (s : State) (n : Nat) (f : Session → Session) : (s.modSession n f).ctxs = s.ctxs := rfl
@[simp] theorem State.modSession_stks (s : State) (n : Nat) (f : Session → Session) : (s.modSession n f).stks = s.stks := rfl
@[simp] theorem State.modSession_undo (s : State) (n : Nat) (f : Session → Session) : (s.modSession n f).undo = s.undo := rfl
@[simp] theorem State.modSession_queues (s : State) (n : Nat) (f : Session → Session) : (s.modSession n f).queues = s.queues := rfl
@[simp] theorem State.modSession_procs (s : State) (n : Nat) (f : Session → Session) : (s.modSession n f).procs = s.procs := rfl
@[simp] theorem State.modSession_launches (s : State) (n : Nat) (f : Session → Session) : (s.modSession n f).launches = s.launches := rfl
@[simp] theorem State.modSession_nextLaunch (s : State) (n : Nat) (f : Session → Session) : (s.modSession n f).nextLaunch = s.nextLaunch := rfl
@[simp] theorem State.modSession_gangHold (s : State) (n : Nat) (f : Session → Session) : (s.modSession n f).gangHold = s.gangHold := rfl
@[simp] theorem State.modSession_dist (s : State) (n : Nat) (f : Session → Session) : (s.modSession n f).dist = s.dist := rfl
@[simp] theorem State.modSession_placeAt (s : State) (n : Nat) (f : Session → Session) : (s.modSession n f).placeAt = s.placeAt := rfl
@[simp] theorem State.modSession_teams (s : State) (n : Nat) (f : Session → Session) : (s.modSession n f).teams = s.teams := rfl
@[simp] theorem State.modSession_nextTeam (s : State) (n : Nat) (f : Session → Session) : (s.modSession n f).nextTeam = s.nextTeam := rfl
@[simp] theorem State.modSession_groups (s : State) (n : Nat) (f : Session → Session) : (s.modSession n f).groups = s.groups := rfl
@[simp] theorem State.modSession_nextGroup (s : State) (n : Nat) (f : Session → Session) : (s.modSession n f).nextGroup = s.nextGroup := rfl
@[simp] theorem State.modSession_wide (s : State) (n : Nat) (f : Session → Session) : (s.modSession n f).wide = s.wide := rfl
@[simp] theorem State.modSession_nextWide (s : State) (n : Nat) (f : Session → Session) : (s.modSession n f).nextWide = s.nextWide := rfl
@[simp] theorem State.modSession_cores (s : State) (n : Nat) (f : Session → Session) : (s.modSession n f).cores = s.cores := rfl
@[simp] theorem State.modSession_quads (s : State) (n : Nat) (f : Session → Session) : (s.modSession n f).quads = s.quads := rfl
@[simp] theorem State.modSession_ops (s : State) (n : Nat) (f : Session → Session) : (s.modSession n f).ops = s.ops := rfl
@[simp] theorem State.modSession_nextOp (s : State) (n : Nat) (f : Session → Session) : (s.modSession n f).nextOp = s.nextOp := rfl
@[simp] theorem State.modSession_nextPid (s : State) (n : Nat) (f : Session → Session) : (s.modSession n f).nextPid = s.nextPid := rfl
@[simp] theorem State.modSession_tlb (s : State) (n : Nat) (f : Session → Session) : (s.modSession n f).tlb = s.tlb := rfl
@[simp] theorem State.modSession_faults (s : State) (n : Nat) (f : Session → Session) : (s.modSession n f).faults = s.faults := rfl
@[simp] theorem State.modSession_halters (s : State) (n : Nat) (f : Session → Session) : (s.modSession n f).halters = s.halters := rfl
@[simp] theorem State.modSession_answers (s : State) (n : Nat) (f : Session → Session) : (s.modSession n f).answers = s.answers := rfl
@[simp] theorem State.modSession_models (s : State) (n : Nat) (f : Session → Session) : (s.modSession n f).models = s.models := rfl
@[simp] theorem State.modSession_useCnt (s : State) (n : Nat) (f : Session → Session) : (s.modSession n f).useCnt = s.useCnt := rfl
@[simp] theorem State.modSession_swaps (s : State) (n : Nat) (f : Session → Session) : (s.modSession n f).swaps = s.swaps := rfl
@[simp] theorem State.modSession_leaving (s : State) (n : Nat) (f : Session → Session) : (s.modSession n f).leaving = s.leaving := rfl
@[simp] theorem State.modSession_nextReq (s : State) (n : Nat) (f : Session → Session) : (s.modSession n f).nextReq = s.nextReq := rfl
@[simp] theorem State.modSession_sessions (s : State) (n : Nat) (f : Session → Session) : (s.modSession n f).sessions = tset s.sessions n (f (s.session n)) := rfl
@[simp] theorem State.modSession_rimDown (s : State) (n : Nat) (f : Session → Session) : (s.modSession n f).rimDown = s.rimDown := rfl
@[simp] theorem State.modSession_cxlDown (s : State) (n : Nat) (f : Session → Session) : (s.modSession n f).cxlDown = s.cxlDown := rfl
@[simp] theorem State.modSession_colls (s : State) (n : Nat) (f : Session → Session) : (s.modSession n f).colls = s.colls := rfl
@[simp] theorem State.modSession_errs (s : State) (n : Nat) (f : Session → Session) : (s.modSession n f).errs = s.errs := rfl
@[simp] theorem State.modSession_boxes (s : State) (n : Nat) (f : Session → Session) : (s.modSession n f).boxes = s.boxes := rfl
@[simp] theorem State.modSession_net (s : State) (n : Nat) (f : Session → Session) : (s.modSession n f).net = s.net := rfl
@[simp] theorem State.modSession_cur (s : State) (n : Nat) (f : Session → Session) : (s.modSession n f).cur = s.cur := rfl
@[simp] theorem State.modSession_script (s : State) (n : Nat) (f : Session → Session) : (s.modSession n f).script = s.script := rfl
@[simp] theorem State.modSession_free (s : State) (n : Nat) (f : Session → Session) : (s.modSession n f).free = s.free := rfl
@[simp] theorem State.modSession_hole (s : State) (n : Nat) (f : Session → Session) : (s.modSession n f).hole = s.hole := rfl

/-! ### `State.pendAdd` -/

@[simp] theorem State.pendAdd_clk (s : State) (t : Nat) (p : Pend) : (s.pendAdd t p).clk = s.clk := rfl
@[simp] theorem State.pendAdd_rt (s : State) (t : Nat) (p : Pend) : (s.pendAdd t p).rt = s.rt := rfl
@[simp] theorem State.pendAdd_rtPhase (s : State) (t : Nat) (p : Pend) : (s.pendAdd t p).rtPhase = s.rtPhase := rfl
@[simp] theorem State.pendAdd_power (s : State) (t : Nat) (p : Pend) : (s.pendAdd t p).power = s.power := rfl
@[simp] theorem State.pendAdd_recovery (s : State) (t : Nat) (p : Pend) : (s.pendAdd t p).recovery = s.recovery := rfl
@[simp] theorem State.pendAdd_mem (s : State) (t : Nat) (p : Pend) : (s.pendAdd t p).mem = s.mem := rfl
@[simp] theorem State.pendAdd_poison (s : State) (t : Nat) (p : Pend) : (s.pendAdd t p).poison = s.poison := rfl
@[simp] theorem State.pendAdd_lineKey (s : State) (t : Nat) (p : Pend) : (s.pendAdd t p).lineKey = s.lineKey := rfl
@[simp] theorem State.pendAdd_caches (s : State) (t : Nat) (p : Pend) : (s.pendAdd t p).caches = s.caches := rfl
@[simp] theorem State.pendAdd_keys (s : State) (t : Nat) (p : Pend) : (s.pendAdd t p).keys = s.keys := rfl
@[simp] theorem State.pendAdd_keyGen (s : State) (t : Nat) (p : Pend) : (s.pendAdd t p).keyGen = s.keyGen := rfl
@[simp] theorem State.pendAdd_spdm (s : State) (t : Nat) (p : Pend) : (s.pendAdd t p).spdm = s.spdm := rfl
@[simp] theorem State.pendAdd_leaf (s : State) (t : Nat) (p : Pend) : (s.pendAdd t p).leaf = s.leaf := rfl
@[simp] theorem State.pendAdd_fqcfg (s : State) (t : Nat) (p : Pend) : (s.pendAdd t p).fqcfg = s.fqcfg := rfl
@[simp] theorem State.pendAdd_fqIdx (s : State) (t : Nat) (p : Pend) : (s.pendAdd t p).fqIdx = s.fqIdx := rfl
@[simp] theorem State.pendAdd_hqcfg (s : State) (t : Nat) (p : Pend) : (s.pendAdd t p).hqcfg = s.hqcfg := rfl
@[simp] theorem State.pendAdd_hqIdx (s : State) (t : Nat) (p : Pend) : (s.pendAdd t p).hqIdx = s.hqIdx := rfl
@[simp] theorem State.pendAdd_errcfg (s : State) (t : Nat) (p : Pend) : (s.pendAdd t p).errcfg = s.errcfg := rfl
@[simp] theorem State.pendAdd_pwrcfg (s : State) (t : Nat) (p : Pend) : (s.pendAdd t p).pwrcfg = s.pwrcfg := rfl
@[simp] theorem State.pendAdd_capNow (s : State) (t : Nat) (p : Pend) : (s.pendAdd t p).capNow = s.capNow := rfl
@[simp] theorem State.pendAdd_window (s : State) (t : Nat) (p : Pend) : (s.pendAdd t p).window = s.window := rfl
@[simp] theorem State.pendAdd_brcfg (s : State) (t : Nat) (p : Pend) : (s.pendAdd t p).brcfg = s.brcfg := rfl
@[simp] theorem State.pendAdd_ulHub (s : State) (t : Nat) (p : Pend) : (s.pendAdd t p).ulHub = s.ulHub := rfl
@[simp] theorem State.pendAdd_riminj (s : State) (t : Nat) (p : Pend) : (s.pendAdd t p).riminj = s.riminj := rfl
@[simp] theorem State.pendAdd_rimOff (s : State) (t : Nat) (p : Pend) : (s.pendAdd t p).rimOff = s.rimOff := rfl
@[simp] theorem State.pendAdd_w1cAt (s : State) (t : Nat) (p : Pend) : (s.pendAdd t p).w1cAt = s.w1cAt := rfl
@[simp] theorem State.pendAdd_ctxs (s : State) (t : Nat) (p : Pend) : (s.pendAdd t p).ctxs = s.ctxs := rfl
@[simp] theorem State.pendAdd_stks (s : State) (t : Nat) (p : Pend) : (s.pendAdd t p).stks = s.stks := rfl
@[simp] theorem State.pendAdd_undo (s : State) (t : Nat) (p : Pend) : (s.pendAdd t p).undo = s.undo := rfl
@[simp] theorem State.pendAdd_queues (s : State) (t : Nat) (p : Pend) : (s.pendAdd t p).queues = s.queues := rfl
@[simp] theorem State.pendAdd_procs (s : State) (t : Nat) (p : Pend) : (s.pendAdd t p).procs = s.procs := rfl
@[simp] theorem State.pendAdd_launches (s : State) (t : Nat) (p : Pend) : (s.pendAdd t p).launches = s.launches := rfl
@[simp] theorem State.pendAdd_nextLaunch (s : State) (t : Nat) (p : Pend) : (s.pendAdd t p).nextLaunch = s.nextLaunch := rfl
@[simp] theorem State.pendAdd_gangHold (s : State) (t : Nat) (p : Pend) : (s.pendAdd t p).gangHold = s.gangHold := rfl
@[simp] theorem State.pendAdd_dist (s : State) (t : Nat) (p : Pend) : (s.pendAdd t p).dist = s.dist := rfl
@[simp] theorem State.pendAdd_placeAt (s : State) (t : Nat) (p : Pend) : (s.pendAdd t p).placeAt = s.placeAt := rfl
@[simp] theorem State.pendAdd_teams (s : State) (t : Nat) (p : Pend) : (s.pendAdd t p).teams = tmod s.teams t (fun tm => { tm with pend := tm.pend ++ [p] }) := rfl
@[simp] theorem State.pendAdd_nextTeam (s : State) (t : Nat) (p : Pend) : (s.pendAdd t p).nextTeam = s.nextTeam := rfl
@[simp] theorem State.pendAdd_groups (s : State) (t : Nat) (p : Pend) : (s.pendAdd t p).groups = s.groups := rfl
@[simp] theorem State.pendAdd_nextGroup (s : State) (t : Nat) (p : Pend) : (s.pendAdd t p).nextGroup = s.nextGroup := rfl
@[simp] theorem State.pendAdd_wide (s : State) (t : Nat) (p : Pend) : (s.pendAdd t p).wide = s.wide := rfl
@[simp] theorem State.pendAdd_nextWide (s : State) (t : Nat) (p : Pend) : (s.pendAdd t p).nextWide = s.nextWide := rfl
@[simp] theorem State.pendAdd_cores (s : State) (t : Nat) (p : Pend) : (s.pendAdd t p).cores = s.cores := rfl
@[simp] theorem State.pendAdd_quads (s : State) (t : Nat) (p : Pend) : (s.pendAdd t p).quads = s.quads := rfl
@[simp] theorem State.pendAdd_ops (s : State) (t : Nat) (p : Pend) : (s.pendAdd t p).ops = s.ops := rfl
@[simp] theorem State.pendAdd_nextOp (s : State) (t : Nat) (p : Pend) : (s.pendAdd t p).nextOp = s.nextOp := rfl
@[simp] theorem State.pendAdd_nextPid (s : State) (t : Nat) (p : Pend) : (s.pendAdd t p).nextPid = s.nextPid := rfl
@[simp] theorem State.pendAdd_tlb (s : State) (t : Nat) (p : Pend) : (s.pendAdd t p).tlb = s.tlb := rfl
@[simp] theorem State.pendAdd_faults (s : State) (t : Nat) (p : Pend) : (s.pendAdd t p).faults = s.faults := rfl
@[simp] theorem State.pendAdd_halters (s : State) (t : Nat) (p : Pend) : (s.pendAdd t p).halters = s.halters := rfl
@[simp] theorem State.pendAdd_answers (s : State) (t : Nat) (p : Pend) : (s.pendAdd t p).answers = s.answers := rfl
@[simp] theorem State.pendAdd_models (s : State) (t : Nat) (p : Pend) : (s.pendAdd t p).models = s.models := rfl
@[simp] theorem State.pendAdd_useCnt (s : State) (t : Nat) (p : Pend) : (s.pendAdd t p).useCnt = s.useCnt := rfl
@[simp] theorem State.pendAdd_swaps (s : State) (t : Nat) (p : Pend) : (s.pendAdd t p).swaps = s.swaps := rfl
@[simp] theorem State.pendAdd_leaving (s : State) (t : Nat) (p : Pend) : (s.pendAdd t p).leaving = s.leaving := rfl
@[simp] theorem State.pendAdd_nextReq (s : State) (t : Nat) (p : Pend) : (s.pendAdd t p).nextReq = s.nextReq := rfl
@[simp] theorem State.pendAdd_sessions (s : State) (t : Nat) (p : Pend) : (s.pendAdd t p).sessions = s.sessions := rfl
@[simp] theorem State.pendAdd_rimDown (s : State) (t : Nat) (p : Pend) : (s.pendAdd t p).rimDown = s.rimDown := rfl
@[simp] theorem State.pendAdd_cxlDown (s : State) (t : Nat) (p : Pend) : (s.pendAdd t p).cxlDown = s.cxlDown := rfl
@[simp] theorem State.pendAdd_colls (s : State) (t : Nat) (p : Pend) : (s.pendAdd t p).colls = s.colls := rfl
@[simp] theorem State.pendAdd_errs (s : State) (t : Nat) (p : Pend) : (s.pendAdd t p).errs = s.errs := rfl
@[simp] theorem State.pendAdd_boxes (s : State) (t : Nat) (p : Pend) : (s.pendAdd t p).boxes = s.boxes := rfl
@[simp] theorem State.pendAdd_net (s : State) (t : Nat) (p : Pend) : (s.pendAdd t p).net = s.net := rfl
@[simp] theorem State.pendAdd_cur (s : State) (t : Nat) (p : Pend) : (s.pendAdd t p).cur = s.cur := rfl
@[simp] theorem State.pendAdd_script (s : State) (t : Nat) (p : Pend) : (s.pendAdd t p).script = s.script := rfl
@[simp] theorem State.pendAdd_free (s : State) (t : Nat) (p : Pend) : (s.pendAdd t p).free = s.free := rfl
@[simp] theorem State.pendAdd_hole (s : State) (t : Nat) (p : Pend) : (s.pendAdd t p).hole = s.hole := rfl

/-! ### `Team.setPath` -/

@[simp] theorem Team.setPath_life (tm : Team) (f : Bool) (p : Path) : (tm.setPath f p).life = tm.life := by
  cases f <;> rfl
@[simp] theorem Team.setPath_drainAt (tm : Team) (f : Bool) (p : Path) : (tm.setPath f p).drainAt = tm.drainAt := by
  cases f <;> rfl
@[simp] theorem Team.setPath_launch (tm : Team) (f : Bool) (p : Path) : (tm.setPath f p).launch = tm.launch := by
  cases f <;> rfl
@[simp] theorem Team.setPath_group (tm : Team) (f : Bool) (p : Path) : (tm.setPath f p).group = tm.group := by
  cases f <;> rfl
@[simp] theorem Team.setPath_ctx (tm : Team) (f : Bool) (p : Path) : (tm.setPath f p).ctx = tm.ctx := by
  cases f <;> rfl
@[simp] theorem Team.setPath_core (tm : Team) (f : Bool) (p : Path) : (tm.setPath f p).core = tm.core := by
  cases f <;> rfl
@[simp] theorem Team.setPath_quad (tm : Team) (f : Bool) (p : Path) : (tm.setPath f p).quad = tm.quad := by
  cases f <;> rfl
@[simp] theorem Team.setPath_slot (tm : Team) (f : Bool) (p : Path) : (tm.setPath f p).slot = tm.slot := by
  cases f <;> rfl
@[simp] theorem Team.setPath_teamid (tm : Team) (f : Bool) (p : Path) : (tm.setPath f p).teamid = tm.teamid := by
  cases f <;> rfl
@[simp] theorem Team.setPath_linear (tm : Team) (f : Bool) (p : Path) : (tm.setPath f p).linear = tm.linear := by
  cases f <;> rfl
@[simp] theorem Team.setPath_nRegs (tm : Team) (f : Bool) (p : Path) : (tm.setPath f p).nRegs = tm.nRegs := by
  cases f <;> rfl
@[simp] theorem Team.setPath_topTeam (tm : Team) (f : Bool) (p : Path) : (tm.setPath f p).topTeam = tm.topTeam := by
  cases f <;> rfl
@[simp] theorem Team.setPath_topGroup (tm : Team) (f : Bool) (p : Path) : (tm.setPath f p).topGroup = tm.topGroup := by
  cases f <;> rfl
@[simp] theorem Team.setPath_dims (tm : Team) (f : Bool) (p : Path) : (tm.setPath f p).dims = tm.dims := by
  cases f <;> rfl
@[simp] theorem Team.setPath_gidx (tm : Team) (f : Bool) (p : Path) : (tm.setPath f p).gidx = tm.gidx := by
  cases f <;> rfl
@[simp] theorem Team.setPath_modelid (tm : Team) (f : Bool) (p : Path) : (tm.setPath f p).modelid = tm.modelid := by
  cases f <;> rfl
@[simp] theorem Team.setPath_sb (tm : Team) (f : Bool) (p : Path) : (tm.setPath f p).sb = tm.sb := by
  cases f <;> rfl
@[simp] theorem Team.setPath_sl (tm : Team) (f : Bool) (p : Path) : (tm.setPath f p).sl = tm.sl := by
  cases f <;> rfl
@[simp] theorem Team.setPath_v (tm : Team) (f : Bool) (p : Path) : (tm.setPath f p).v = tm.v := by
  cases f <;> rfl
@[simp] theorem Team.setPath_s (tm : Team) (f : Bool) (p : Path) : (tm.setPath f p).s = tm.s := by
  cases f <;> rfl
@[simp] theorem Team.setPath_p (tm : Team) (f : Bool) (p : Path) : (tm.setPath f p).p = tm.p := by
  cases f <;> rfl
@[simp] theorem Team.setPath_gens (tm : Team) (f : Bool) (p : Path) : (tm.setPath f p).gens = tm.gens := by
  cases f <;> rfl
@[simp] theorem Team.setPath_exited (tm : Team) (f : Bool) (p : Path) : (tm.setPath f p).exited = tm.exited := by
  cases f <;> rfl
@[simp] theorem Team.setPath_split (tm : Team) (f : Bool) (p : Path) : (tm.setPath f p).split = tm.split := by
  cases f <;> rfl
@[simp] theorem Team.setPath_p0 (tm : Team) (f : Bool) (p : Path) : (tm.setPath f p).p0 = if f = false then p else tm.p0 := by
  cases f <;> rfl
@[simp] theorem Team.setPath_p1 (tm : Team) (f : Bool) (p : Path) : (tm.setPath f p).p1 = if f = true then p else tm.p1 := by
  cases f <;> rfl
@[simp] theorem Team.setPath_stack (tm : Team) (f : Bool) (p : Path) : (tm.setPath f p).stack = tm.stack := by
  cases f <;> rfl
@[simp] theorem Team.setPath_spill (tm : Team) (f : Bool) (p : Path) : (tm.setPath f p).spill = tm.spill := by
  cases f <;> rfl
@[simp] theorem Team.setPath_tokN (tm : Team) (f : Bool) (p : Path) : (tm.setPath f p).tokN = tm.tokN := by
  cases f <;> rfl
@[simp] theorem Team.setPath_tokT (tm : Team) (f : Bool) (p : Path) : (tm.setPath f p).tokT = tm.tokT := by
  cases f <;> rfl
@[simp] theorem Team.setPath_pend (tm : Team) (f : Bool) (p : Path) : (tm.setPath f p).pend = tm.pend := by
  cases f <;> rfl
@[simp] theorem Team.setPath_mode (tm : Team) (f : Bool) (p : Path) : (tm.setPath f p).mode = tm.mode := by
  cases f <;> rfl
@[simp] theorem Team.setPath_budg (tm : Team) (f : Bool) (p : Path) : (tm.setPath f p).budg = tm.budg := by
  cases f <;> rfl
@[simp] theorem Team.setPath_bstat (tm : Team) (f : Bool) (p : Path) : (tm.setPath f p).bstat = tm.bstat := by
  cases f <;> rfl
@[simp] theorem Team.setPath_task (tm : Team) (f : Bool) (p : Path) : (tm.setPath f p).task = tm.task := by
  cases f <;> rfl
@[simp] theorem Team.setPath_tcause (tm : Team) (f : Bool) (p : Path) : (tm.setPath f p).tcause = tm.tcause := by
  cases f <;> rfl
@[simp] theorem Team.setPath_tepc (tm : Team) (f : Bool) (p : Path) : (tm.setPath f p).tepc = tm.tepc := by
  cases f <;> rfl
@[simp] theorem Team.setPath_tval (tm : Team) (f : Bool) (p : Path) : (tm.setPath f p).tval = tm.tval := by
  cases f <;> rfl
@[simp] theorem Team.setPath_tfr (tm : Team) (f : Bool) (p : Path) : (tm.setPath f p).tfr = tm.tfr := by
  cases f <;> rfl
@[simp] theorem Team.setPath_tfrag (tm : Team) (f : Bool) (p : Path) : (tm.setPath f p).tfrag = tm.tfrag := by
  cases f <;> rfl
@[simp] theorem Team.setPath_intr (tm : Team) (f : Bool) (p : Path) : (tm.setPath f p).intr = tm.intr := by
  cases f <;> rfl
@[simp] theorem Team.setPath_pendTrap (tm : Team) (f : Bool) (p : Path) : (tm.setPath f p).pendTrap = tm.pendTrap := by
  cases f <;> rfl
@[simp] theorem Team.setPath_perm (tm : Team) (f : Bool) (p : Path) : (tm.setPath f p).perm = tm.perm := by
  cases f <;> rfl
@[simp] theorem Team.setPath_sideLost (tm : Team) (f : Bool) (p : Path) : (tm.setPath f p).sideLost = tm.sideLost := by
  cases f <;> rfl
@[simp] theorem Team.setPath_hval (tm : Team) (f : Bool) (p : Path) : (tm.setPath f p).hval = tm.hval := by
  cases f <;> rfl
@[simp] theorem Team.setPath_td (tm : Team) (f : Bool) (p : Path) : (tm.setPath f p).td = tm.td := by
  cases f <;> rfl
@[simp] theorem Team.setPath_corrupt (tm : Team) (f : Bool) (p : Path) : (tm.setPath f p).corrupt = tm.corrupt := by
  cases f <;> rfl
@[simp] theorem Team.setPath_path (tm : Team) (f g : Bool) (p : Path) :
    (tm.setPath f p).path g = if g = f then p else tm.path g := by
  cases f <;> cases g <;> rfl

end Sys2Proof.Machine
end

