-- ==== Sys2Proof/Laws/Issue.lean ====
section
/-! SUPPORT. What `State.issue` and `instr` do with an instruction that nothing stops: one lemma for each way in which a
meaning answers. -/

namespace Sys2Proof.Machine

/-! ### What the frame of issue leaves alone -/

@[simp] theorem State.readView_hole (s : State) (t : Nat) (tm : Team) : ((s.readView t tm).2).hole = s.hole := by
  unfold State.readView; dsimp only; split <;> rfl
@[simp] theorem State.readView_clk (s : State) (t : Nat) (tm : Team) : ((s.readView t tm).2).clk = s.clk := by
  unfold State.readView; dsimp only; split <;> rfl
@[simp] theorem State.readView_teams (s : State) (t : Nat) (tm : Team) : ((s.readView t tm).2).teams = s.teams := by
  unfold State.readView; dsimp only; split <;> rfl
@[simp] theorem State.slotted_hole (s : State) (a : At) : (s.slotted a).hole = s.hole := rfl
@[simp] theorem State.slotted_clk (s : State) (a : At) : (s.slotted a).clk = s.clk := rfl
@[simp] theorem State.issued_hole (s : State) (a : At) : (s.issued a).hole = s.hole := by simp [State.issued]
@[simp] theorem State.issued_clk (s : State) (a : At) : (s.issued a).clk = s.clk := by simp [State.issued]

/-- The state beside the effect differs from the state before in the current fragment, the quadrant's slot, the path's
latest issue, and the free values that have been drawn: in nothing else. -/
theorem State.issued_eq (s : State) (a : At) : s.issued a =
    { s with cur := none
             quads := tset s.quads (a.tm.core * 4 + a.tm.quad) ⟨s.clk, some (a.t, a.f)⟩
             teams := tmod s.teams a.t (fun tm => tm.setPath a.f { tm.path a.f with lastIssue := s.clk })
             free := (s.issued a).free } := by
  unfold State.issued State.readView; dsimp only; split <;> rfl

theorem State.issued_team {s : State} {a : At} (h : Live0 s a) :
    tget (s.issued a).teams a.t = some (a.tm.setPath a.f { a.path with lastIssue := s.clk }) := by
  rw [State.issued_eq]
  simp [h.team, At.path]

/-! ### Issue -/

/-- Which fragment is current is nothing to R113. -/
theorem State.underwait_cur (s : State) (c : Option (Nat × Bool × Bool)) (t : Nat) (tm : Team) (pid : Nat) (e : Mask) (ps : List Port) :
    State.underwait { s with cur := c } t tm pid e ps = s.underwait t tm pid e ps := by
  induction ps with
  | nil => rfl
  | cons p q ih => simp only [State.underwait]; rw [ih]; rfl

/-- The state that an instruction which nothing stops is carried out in. -/
theorem State.issue_clear {s : State} {a : At} {h : Hdr} {ps : List Port} {tk : Bool} (r : Clear s a h ps tk)
    (i : Instr) (cls : Cls) (always : Bool) (body : X → State → Res) (ha : a.mask h ≠ 0 ∨ always = true) :
    s.issue i h cls ps always tk body =
      (s.issued a).retire i { s.viewAt a h with rd := a.tm } cls ps (body (s.viewAt a h) (s.issued a)) := by
  have hl := r.live
  have hs : State.stopped { s with cur := none } a.tm = false := hl.go
  unfold State.issue
  simp only [hl.cur, hl.team, hl.runs, hs]
  have hf : (a.tm.path a.f).hold = .free := hl.free
  simp only [hf, Bool.not_true, Bool.or_self, Bool.false_eq_true, if_false]
  unfold State.issueNew
  have hu : (if mChk a.tm.mode = true ∧ a.mask h ≠ 0 then
      State.underwait { s with cur := none } a.t a.tm (a.tm.path a.f).pid (a.mask h) (ps ++ rdPred h.g.p) else none) = none := by
    split
    · rename_i hc
      rw [State.underwait_cur]
      exact r.under hc.1
    · rfl
  have he : (a.tm.path a.f).exm &&& a.tm.guard h.g = a.mask h := rfl
  simp only [hl.perm, r.mend, r.wait, he, hu, r.ecc]
  have ht : ¬ (tk = true ∧ a.mask h ≠ 0 ∧ a.tm.inTask.isSome = true) := by
    rintro ⟨h1, -, h2⟩
    rw [r.task h1] at h2
    simp at h2
  rw [if_neg ht, if_neg (fun hh => ha.elim (fun h1 => h1 hh.1) (fun h2 => by simp [h2] at hh))]
  rfl

/-! ### Queued effects -/

@[simp] theorem Team.queue_nil (tm : Team) : tm.queue [] = tm := by simp [Team.queue]
@[simp] theorem Team.queue_queue (tm : Team) (p q : List Pend) : (tm.queue p).queue q = tm.queue (p ++ q) := by
  simp [Team.queue]
@[simp] theorem Team.queue_path (tm : Team) (p : List Pend) (f : Bool) : (tm.queue p).path f = tm.path f := rfl
theorem Team.queue_setPath (tm : Team) (p : List Pend) (f : Bool) (q : Path) :
    (tm.queue p).setPath f q = (tm.setPath f q).queue p := by cases f <;> rfl

theorem State.pendAdd_eq (s : State) (t : Nat) (p : Pend) : s.pendAdd t p = s.modTeam t (fun tm => tm.queue [p]) := rfl

@[simp] theorem State.modTeam_same (s : State) (t : Nat) : s.modTeam t (fun tm => tm) = s := by
  have e : ∀ T : Tbl Team, tmod T t (fun tm => tm) = T := by
    intro T
    induction T with
    | nil => rfl
    | cons e T ih => obtain ⟨j, b⟩ := e; by_cases hj : j = t <;> simp [tmod, hj, ih]
  simp [State.modTeam, e]

@[simp] theorem State.modTeam_modTeam (s : State) (t : Nat) (f g : Team → Team) :
    (s.modTeam t f).modTeam t g = s.modTeam t (fun tm => g (f tm)) := by
  simp [State.modTeam]

theorem State.pendAdds (us : List Pend) (s : State) (t : Nat) :
    us.foldl (fun s p => s.pendAdd t p) s = s.modTeam t (fun tm => tm.queue us) := by
  induction us generalizing s with
  | nil => simp
  | cons u us ih => rw [List.foldl_cons, ih, State.pendAdd_eq, State.modTeam_modTeam]; simp

/-! ### How a meaning's answer is carried out -/

/-- The view of an instruction at issue names the fragment, its team, its path and its header. -/
structure X.Of (x : X) (a : At) (h : Hdr) : Prop where
  t  : x.t = a.t
  f  : x.f = a.f
  h  : x.h = h
  tm : x.tm = a.tm
  p  : x.p = a.path

theorem State.advance_eq {x : X} {a : At} {h : Hdr} (hx : x.Of a h) (s : State) (n : Nat) :
    s.advance x n = s.modTeam a.t (a.next h s.clk n) := by
  obtain ⟨ht, hf, hh, htm, hp⟩ := hx
  unfold State.advance At.next
  rw [ht, hf, hh, hp]

theorem State.postAt_eq {x : X} {a : At} {h : Hdr} (hx : x.Of a h) (s : State) (n : Nat) :
    s.postAt x n = s.modTeam a.t (fun tm => tm.queue (a.posts h n)) := by
  obtain ⟨ht, hf, hh, htm, hp⟩ := hx
  unfold State.postAt At.posts
  rw [hh, ht, htm]
  cases h.sc.post <;> simp [State.pendAdd_eq]

theorem At.next_queue (a : At) (h : Hdr) (c n : Nat) (tm : Team) (p : List Pend) :
    (a.next h c n tm).queue p = a.next h c n (tm.queue p) := by
  simp [At.next, Team.queue_setPath]

/-- A fixed-latency answer: its writes land after l clk, its post is seen one clk later, and the next instruction
follows. -/
theorem State.retire_fixed {x : X} {a : At} {h : Hdr} (hx : x.Of a h) (i : Instr) (l : Nat) (ps : List Port) (us : List Upd) (s s0 : State)
    (h0 : s0.clk = s.clk) : s0.retire i x (.fixed l) ps (.fixed s us) = s.fixedNext a h l us := by
  have hc : ∀ (us : List Upd) (s' : State), us.foldl (fun s u => s.pendAdd x.t ⟨s0.clk + l, x.p.pid, .upd u⟩) s' =
      s'.modTeam x.t (fun tm => tm.queue (us.map (fun u => ⟨s0.clk + l, x.p.pid, .upd u⟩))) := by
    intro us s'
    rw [← State.pendAdds, List.foldl_map]
  simp only [State.retire, hc]
  simp only [State.postAt_eq hx, State.advance_eq hx, State.modTeam_modTeam, State.fixedNext, Team.queue_queue, h0, hx.t,
    hx.p, State.modTeam_clk]

/-- A token-class answer: the operation enters its unit, and the next instruction follows. -/
theorem State.retire_token {x : X} {a : At} {h : Hdr} (hx : x.Of a h) (i : Instr) (cls : Cls) (ps : List Port) (o : Op) (s s0 : State)
    (hc : x.claim = none) : s0.retire i x cls ps (.token s o) = s.tokenNext a h o := by
  simp only [State.retire, State.advance_eq hx]
  simp only [State.addOp, hc, State.tokenNext, State.modTeam, hx.h, hx.tm]

/-- The sibling stays as it is behind a fragment that runs on. -/
theorem State.liftSibling_next (a : At) (h : Hdr) (c : Nat) (g : Team → Team) (s : State)
    (he : ∀ tm, tget s.teams a.t = some tm → ((g tm).path a.f).ended = false) :
    (s.modTeam a.t (fun tm => a.next h c 0 (g tm))).liftSibling a.t a.f = s.modTeam a.t (fun tm => a.next h c 0 (g tm)) := by
  unfold State.liftSibling
  rw [State.modTeam_modTeam]
  unfold State.modTeam
  congr 1
  apply tmod_same
  intro tm htm
  have := he tm htm
  cases hf : a.f <;> simp_all [At.next, Team.path, Team.setPath]

/-- An Issue-class answer: the effect on the team is made, and the next instruction follows. -/
theorem State.retire_issue {x : X} {a : At} {h : Hdr} (hx : x.Of a h) (i : Instr) (cls : Cls) (ps : List Port) (g : Team → Team)
    (s s0 : State) (h0 : s0.clk = s.clk) (he : ∀ tm, tget s.teams a.t = some tm → ((g tm).path a.f).ended = false) :
    s0.retire i x cls ps (.issue (s.modTeam a.t g)) = s.issueNext a h g := by
  simp only [State.retire, State.advance_eq hx, State.postAt_eq hx, State.modTeam_modTeam, State.modTeam_clk, h0, hx.t, hx.f,
    At.next_queue]
  exact State.liftSibling_next a h s.clk (fun tm => (g tm).queue (a.posts h (s.clk + 2))) s he

/-- The same for an effect beside the team. -/
theorem State.retire_issue' {x : X} {a : At} {h : Hdr} (hx : x.Of a h) (i : Instr) (cls : Cls) (ps : List Port) (s s0 : State)
    (h0 : s0.clk = s.clk) (he : ∀ tm, tget s.teams a.t = some tm → (tm.path a.f).ended = false) :
    s0.retire i x cls ps (.issue s) = s.issueNext a h (fun tm => tm) := by
  have := State.retire_issue hx i cls ps (fun tm => tm) s s0 h0 he
  rwa [State.modTeam_same] at this

/-- The view of an instruction that nothing stops. -/
theorem State.viewAt_of (s : State) (a : At) (h : Hdr) : X.Of { s.viewAt a h with rd := a.tm } a h := ⟨rfl, rfl, rfl, rfl, rfl⟩

@[simp] theorem State.fixedNext_hole (s : State) (a : At) (h : Hdr) (l : Nat) (us : List Upd) :
    (s.fixedNext a h l us).hole = s.hole := rfl
@[simp] theorem State.tokenNext_hole (s : State) (a : At) (h : Hdr) (o : Op) : (s.tokenNext a h o).hole = s.hole := rfl
@[simp] theorem State.issueNext_hole (s : State) (a : At) (h : Hdr) (g : Team → Team) :
    (s.issueNext a h g).hole = s.hole := rfl

/-- The fragment of an instruction that nothing stops has not ended. -/
theorem Live0.running {s : State} {a : At} (r : Live0 s a) : (a.tm.path a.f).ended = false := by
  have := r.runs
  simp only [Team.runs, Bool.and_eq_true, Bool.not_eq_true'] at this
  exact this.1.1.1.1.2

/-- Nor has it after an update that leaves paths alone. -/
theorem Live0.running_after {s : State} {a : At} (r : Live0 s a) (s1 : State) (g : Team → Team)
    (ht : tget s1.teams a.t = (tget (s.issued a).teams a.t).map g) (he : ∀ tm, (tm.path a.f).ended = false → ((g tm).path a.f).ended = false) :
    ∀ tm, tget s1.teams a.t = some tm → (tm.path a.f).ended = false := by
  intro tm htm
  rw [ht, State.issued_team r] at htm
  cases htm
  apply he
  have := r.running
  cases hf : a.f <;> simp_all [At.path, Team.path, Team.setPath]

/-! ### `instr` -/

theorem Ready.hole {s : State} {a : At} {h : Hdr} {ps : List Port} (r : Ready s a h ps) : s.hole = false := r.clear.live.hole

/-- What `instr` answers for an instruction that nothing stops. -/
theorem instr_ready {s : State} {a : At} {h : Hdr} {ps : List Port} (r : Ready s a h ps) (i : Instr) (cls : Cls)
    (body : X → State → Res) : instr i h cls ps body s =
      answer ((s.issued a).retire i { s.viewAt a h with rd := a.tm } cls ps (body (s.viewAt a h) (s.issued a))) := by
  rw [instr, State.issue_clear r.clear i cls false body (.inl r.acts)]

/-- A fixed-latency instruction that nothing stops. -/
theorem instr_fixed {s : State} {a : At} {h : Hdr} {ps : List Port} (r : Ready s a h ps) (i : Instr) (l : Nat)
    (body : X → State → Res) (us : List Upd) (hb : body (s.viewAt a h) (s.issued a) = .fixed (s.issued a) us) :
    instr i h (.fixed l) ps body s = .next ((s.issued a).fixedNext a h l us) := by
  rw [instr_ready r, hb, State.retire_fixed (s.viewAt_of a h) i l ps us _ _ rfl]
  simp [answer, r.hole]

/-- A fixed-latency instruction that also changes the team at once. -/
theorem instr_fixed_mod {s : State} {a : At} {h : Hdr} {ps : List Port} (r : Ready s a h ps) (i : Instr) (l : Nat)
    (body : X → State → Res) (us : List Upd) (g : Team → Team)
    (hb : body (s.viewAt a h) (s.issued a) = .fixed ((s.issued a).modTeam a.t g) us) :
    instr i h (.fixed l) ps body s = .next (((s.issued a).modTeam a.t g).fixedNext a h l us) := by
  rw [instr_ready r, hb, State.retire_fixed (s.viewAt_of a h) i l ps us ((s.issued a).modTeam a.t g) (s.issued a) rfl]
  simp [answer, r.hole]

/-- A token-class instruction that nothing stops. -/
theorem instr_token {s : State} {a : At} {h : Hdr} {ps : List Port} (r : Ready s a h ps) (i : Instr) (cls : Cls)
    (body : X → State → Res) (o : Op) (s1 : State) (hb : body (s.viewAt a h) (s.issued a) = .token s1 o)
    (h1 : s1.hole = false) : instr i h cls ps body s = .next (s1.tokenNext a h o) := by
  rw [instr_ready r, hb, State.retire_token (s.viewAt_of a h) _ _ _ _ _ _ rfl]
  simp [answer, h1]

/-- An Issue-class instruction that nothing stops and that changes the team. -/
theorem instr_issue {s : State} {a : At} {h : Hdr} {ps : List Port} (r : Ready s a h ps) (i : Instr) (cls : Cls)
    (body : X → State → Res) (g : Team → Team) (he : ∀ tm, (tm.path a.f).ended = false → ((g tm).path a.f).ended = false)
    (hb : body (s.viewAt a h) (s.issued a) = .issue ((s.issued a).modTeam a.t g)) :
    instr i h cls ps body s = .next ((s.issued a).issueNext a h g) := by
  rw [instr_ready r, hb, State.retire_issue (s.viewAt_of a h) i cls ps g _ _ rfl]
  · simp [answer, r.hole]
  · intro tm htm
    exact he tm (r.clear.live.running_after (s.issued a) (fun tm => tm) (by simp) (fun _ h => h) tm htm)

/-- What `State.issue` answers for an Issue-class instruction that nothing stops and whose effect leads to s1. -/
theorem issue_issue {s : State} {a : At} {h : Hdr} {ps : List Port} {tk : Bool} (r : Clear s a h ps tk) (i : Instr)
    (cls : Cls) (always : Bool) (body : X → State → Res) (s1 : State) (ha : a.mask h ≠ 0 ∨ always = true)
    (hb : body (s.viewAt a h) (s.issued a) = .issue s1) (h1 : s1.hole = false) (hc : s1.clk = s.clk)
    (he : ∀ tm, tget s1.teams a.t = some tm → (tm.path a.f).ended = false) :
    answer (s.issue i h cls ps always tk body) = .next (s1.issueNext a h (fun tm => tm)) := by
  rw [State.issue_clear r i cls always body ha, hb, State.retire_issue' (s.viewAt_of a h) i cls ps s1 _ (by simp [hc]) he]
  simp [answer, h1]

/-- What `State.issue` answers for a token-class instruction that nothing stops. -/
theorem issue_token {s : State} {a : At} {h : Hdr} {ps : List Port} {tk : Bool} (r : Clear s a h ps tk) (i : Instr)
    (cls : Cls) (always : Bool) (body : X → State → Res) (o : Op) (s1 : State) (ha : a.mask h ≠ 0 ∨ always = true)
    (hb : body (s.viewAt a h) (s.issued a) = .token s1 o) (h1 : s1.hole = false) :
    answer (s.issue i h cls ps always tk body) = .next (s1.tokenNext a h o) := by
  rw [State.issue_clear r i cls always body ha, hb, State.retire_token (s.viewAt_of a h) _ _ _ _ _ _ rfl]
  simp [answer, h1]

end Sys2Proof.Machine
end

