-- ==== Sys2Proof/Laws/Moves.lean ====
section
/-! SUPPORT. What a fragment that moves to another address leads to (R101, R130). -/

namespace Sys2Proof.Machine

/-- An answer that has moved one fragment of a team whose split has not changed. -/
theorem State.retire_moved {x : X} {a : At} {h : Hdr} (hx : x.Of a h) (i : Instr) (cls : Cls) (ps : List Port) (pc : BitVec 64) (sp : Nat)
    (s s0 : State) (h0 : s0.clk = s.clk) (hf : a.tm.split = false → a.f = false)
    (ht : ∀ tm, tget s.teams a.t = some tm → tm.split = a.tm.split ∧ (tm.path a.f).ended = false) :
    s0.retire i x cls ps (.moved (s.modTeam a.t (fun tm => tm.setPath a.f { tm.path a.f with pc := pc, hold := .free, spin := sp })))
      = s.jumpNext a h pc sp := by
  obtain ⟨xt, xf, xh, xtm, xp⟩ := hx
  simp only [State.retire]
  rw [State.postAt_eq ⟨xt, xf, xh, xtm, xp⟩]
  unfold State.stallMoved State.liftSibling State.jumpNext
  simp only [xt, xf, xh, xtm, State.modTeam_modTeam, State.modTeam_clk, h0]
  unfold State.modTeam
  congr 1
  apply tmod_same
  intro tm htm
  obtain ⟨h1, h2⟩ := ht tm htm
  cases hs : a.tm.split
  · have := hf hs
    simp_all [Team.setPath, Team.path, Team.queue]
  · cases hff : a.f <;> simp_all [Team.setPath, Team.path, Team.queue]

/-- The current fragment of a team that is not split is fragment 0. -/
theorem Live0.frag {s : State} {a : At} (r : Live0 s a) : a.tm.split = false → a.f = false := by
  have := r.runs
  simp only [Team.runs, Bool.and_eq_true, Bool.or_eq_true, Bool.not_eq_true'] at this
  intro hs
  rcases this.1.1.1.2 with h | h
  · simp [hs] at h
  · exact h

theorem Live0.issued_team' {s : State} {a : At} (r : Live0 s a) (tm : Team) (htm : tget (s.issued a).teams a.t = some tm) :
    tm.split = a.tm.split ∧ (tm.path a.f).ended = false := by
  refine ⟨?_, r.running_after (s.issued a) (fun tm => tm) (by simp) (fun _ h => h) tm htm⟩
  rw [State.issued_team r] at htm
  cases htm
  simp

/-- A fragment that falls through, or jumps onwards, keeps its spin counter (R38). -/
theorem tmod_spin {s : State} {a : At} (r : Live0 s a) (pc : BitVec 64) :
    (s.issued a).modTeam a.t (fun tm => tm.setPath a.f { tm.path a.f with pc := pc, hold := .free }) =
    (s.issued a).modTeam a.t (fun tm => tm.setPath a.f { tm.path a.f with pc := pc, hold := .free, spin := a.path.spin }) := by
  unfold State.modTeam
  congr 1
  apply tmod_same
  intro tm htm
  rw [State.issued_team r] at htm
  cases htm
  simp [At.path]

@[simp] theorem State.jumpNext_hole (s : State) (a : At) (h : Hdr) (pc : BitVec 64) (n : Nat) :
    (s.jumpNext a h pc n).hole = s.hole := rfl

/-- What `State.issue` answers for a branch that nothing stops and whose path falls through. -/
theorem issue_fall {s : State} {a : At} {h : Hdr} {ps : List Port} {tk : Bool} (r : Clear s a h ps tk) (i : Instr)
    (cls : Cls) (always : Bool) (body : X → State → Res) (ha : a.mask h ≠ 0 ∨ always = true)
    (hb : body (s.viewAt a h) (s.issued a) = (s.viewAt a h).fall (s.issued a)) :
    answer (s.issue i h cls ps always tk body) = .next ((s.issued a).jumpNext a h (a.path.pc + 12) a.path.spin) := by
  rw [State.issue_clear r i cls always body ha, hb]
  have e : (s.viewAt a h).fall (s.issued a) = .moved ((s.issued a).modTeam a.t (fun tm =>
      tm.setPath a.f { tm.path a.f with pc := a.path.pc + 12, hold := .free })) := rfl
  rw [e, tmod_spin r.live, State.retire_moved (s.viewAt_of a h) i cls ps _ _ (s.issued a) (s.issued a) rfl r.live.frag
    r.live.issued_team']
  simp [answer, r.live.hole]

/-- What `State.issue` answers for a branch that nothing stops and whose path jumps onwards (R38). -/
theorem issue_jump {s : State} {a : At} {h : Hdr} {ps : List Port} {tk : Bool} (r : Clear s a h ps tk) (i : Instr)
    (cls : Cls) (always : Bool) (body : X → State → Res) (pc : BitVec 64) (ha : a.mask h ≠ 0 ∨ always = true)
    (hb : body (s.viewAt a h) (s.issued a) = (s.viewAt a h).jump (s.issued a) pc) (hp : a.onward pc) :
    answer (s.issue i h cls ps always tk body) = .next ((s.issued a).jumpNext a h pc a.path.spin) := by
  rw [State.issue_clear r i cls always body ha, hb]
  have hg : ∀ tm, tget ((s.issued a).goTo (s.viewAt a h) pc).teams a.t = some tm → tm.mode = a.tm.mode := by
    intro tm htm
    have : ((s.issued a).goTo (s.viewAt a h) pc).teams = tmod (s.issued a).teams a.t (fun tm =>
      tm.setPath a.f { tm.path a.f with pc := pc, hold := .free }) := rfl
    rw [this, tget_tmod_self, State.issued_team r.live] at htm
    cases htm
    simp
  have hgot : ∃ tm, tget ((s.issued a).goTo (s.viewAt a h) pc).teams a.t = some tm := by
    have : ((s.issued a).goTo (s.viewAt a h) pc).teams = tmod (s.issued a).teams a.t (fun tm =>
      tm.setPath a.f { tm.path a.f with pc := pc, hold := .free }) := rfl
    rw [this, tget_tmod_self, State.issued_team r.live]
    exact ⟨_, rfl⟩
  have ht : ((s.issued a).goTo (s.viewAt a h) pc).tookBranch a.t a.f a.path.pc pc = .ok ((s.issued a).goTo (s.viewAt a h) pc) := by
    obtain ⟨tm, htm⟩ := hgot
    unfold State.tookBranch
    rw [htm]
    have := hg tm htm
    simp only [this]
    exact if_pos hp
  have e : (s.viewAt a h).jump (s.issued a) pc = .moved ((s.issued a).modTeam a.t (fun tm =>
      tm.setPath a.f { tm.path a.f with pc := pc, hold := .free })) := by
    unfold X.jump X.move
    have : ((s.issued a).goTo (s.viewAt a h) pc).tookBranch (s.viewAt a h).t (s.viewAt a h).f (s.viewAt a h).p.pc pc =
      .ok ((s.issued a).goTo (s.viewAt a h) pc) := ht
    rw [this]
    rfl
  rw [e, tmod_spin r.live, State.retire_moved (s.viewAt_of a h) i cls ps _ _ (s.issued a) (s.issued a) rfl r.live.frag
    r.live.issued_team']
  simp [answer, r.live.hole]

/-- What `State.issue` answers for a branch that nothing stops and whose path jumps back, below the 64th time (R38). -/
theorem issue_jump_back {s : State} {a : At} {h : Hdr} {ps : List Port} {tk : Bool} (r : Clear s a h ps tk) (i : Instr)
    (cls : Cls) (always : Bool) (body : X → State → Res) (pc : BitVec 64) (ha : a.mask h ≠ 0 ∨ always = true)
    (hb : body (s.viewAt a h) (s.issued a) = (s.viewAt a h).jump (s.issued a) pc) (hp : ¬ a.onward pc)
    (hn : a.path.spin + 1 < 64) :
    answer (s.issue i h cls ps always tk body) = .next ((s.issued a).jumpNext a h pc (a.path.spin + 1)) := by
  rw [State.issue_clear r i cls always body ha, hb]
  have hteams : ((s.issued a).goTo (s.viewAt a h) pc).teams = tmod (s.issued a).teams a.t (fun tm =>
      tm.setPath a.f { tm.path a.f with pc := pc, hold := .free }) := rfl
  have hgot : ∃ tm, tget ((s.issued a).goTo (s.viewAt a h) pc).teams a.t = some tm ∧ tm.mode = a.tm.mode ∧
      (tm.path a.f).spin = a.path.spin := by
    rw [hteams, tget_tmod_self, State.issued_team r.live]
    exact ⟨_, rfl, by simp, by simp⟩
  have ht : ((s.issued a).goTo (s.viewAt a h) pc).tookBranch a.t a.f a.path.pc pc =
      .ok ((s.issued a).modTeam a.t (fun tm => tm.setPath a.f { tm.path a.f with
        pc := pc, hold := .free, spin := a.path.spin + 1 })) := by
    obtain ⟨tm, htm, hm, hs⟩ := hgot
    unfold State.tookBranch
    rw [htm]
    have h1 : ¬ (a.path.pc.toNat < pc.toNat ∨ mProg tm.mode = true) := by rw [hm]; exact hp
    have h2 : ¬ 64 ≤ a.path.spin + 1 := by omega
    simp only [h1, if_false, hs, h2]
    congr 1
    unfold State.goTo
    rw [show (s.viewAt a h).t = a.t from rfl, show (s.viewAt a h).f = a.f from rfl, State.modTeam_modTeam]
    congr 1
    funext tm
    cases a.f <;> rfl
  have e : (s.viewAt a h).jump (s.issued a) pc = .moved ((s.issued a).modTeam a.t (fun tm => tm.setPath a.f
      { tm.path a.f with pc := pc, hold := .free, spin := a.path.spin + 1 })) := by
    unfold X.jump X.move
    have : ((s.issued a).goTo (s.viewAt a h) pc).tookBranch (s.viewAt a h).t (s.viewAt a h).f (s.viewAt a h).p.pc pc = _ := ht
    rw [this]
  rw [e, State.retire_moved (s.viewAt_of a h) i cls ps _ _ (s.issued a) (s.issued a) rfl r.live.frag r.live.issued_team']
  simp [answer, r.live.hole]

/-- A `.moved` answer changes, in the team, countdowns, demotions and queued effects alone. -/
theorem State.retire_moved_team {x : X} {a : At} {h : Hdr} (hx : x.Of a h) (i : Instr) (cls : Cls) (ps : List Port) (s s0 : State) (tm : Team)
    (ht : tget s.teams a.t = some tm) : ∃ c0 c1 d0 d1 pd,
    tget (s0.retire i x cls ps (.moved s)).teams a.t = some { tm with
      p0 := { tm.p0 with cd := c0, demoted := d0 }, p1 := { tm.p1 with cd := c1, demoted := d1 }, pend := pd } := by
  simp only [State.retire, State.postAt_eq hx]
  unfold State.stallMoved State.liftSibling
  simp only [hx.t, State.modTeam_modTeam, State.modTeam_teams, tget_tmod_self, ht, Option.map_some]
  rcases tm with ⟨_, _, _, _, _, _, _, _, _, _, _, _, _, _, _, _, _, _, _, _, _, _, sp, p0, p1⟩
  cases sp <;> cases hs : x.tm.split <;> cases hf : x.f <;>
    simp only [Team.setPath, Team.path, Team.queue, Bool.not_true, Bool.not_false, Bool.false_eq_true, if_true, if_false] <;>
    (repeat' split) <;> exact ⟨_, _, _, _, _, rfl⟩

/-- It changes nothing but the team. -/
theorem State.retire_moved_eq {x : X} {a : At} {h : Hdr} (hx : x.Of a h) (i : Instr) (cls : Cls) (ps : List Port) (s s0 : State) :
    s0.retire i x cls ps (.moved s) = { s with teams := (s0.retire i x cls ps (.moved s)).teams } := by
  simp only [State.retire, State.postAt_eq hx]
  rfl

end Sys2Proof.Machine
end

