-- ==== Sys2Proof/Laws/Effects.lean ====
section
/-! SUPPORT. What the effects of single instructions leave alone: commits of a version, landed register writes. -/

namespace Sys2Proof.Machine

/-! ### The commit of a version (R202) -/

@[simp] theorem State.l1Drop_teams (s : State) (n c v : Nat) : (s.l1Drop n c v).teams = s.teams := rfl
@[simp] theorem State.l1Drop_clk (s : State) (n c v : Nat) : (s.l1Drop n c v).clk = s.clk := rfl
@[simp] theorem State.l1Drop_hole (s : State) (n c v : Nat) : (s.l1Drop n c v).hole = s.hole := rfl

theorem State.commitLine_same (s : State) (tm : Team) (line : Nat) (v : VLine) :
    (s.commitLine tm line v).teams = s.teams ∧ (s.commitLine tm line v).clk = s.clk ∧ (s.commitLine tm line v).hole = s.hole := by
  unfold State.commitLine
  dsimp only
  split <;> simp

theorem State.commit_same (s : State) (tm : Team) (k : Task) :
    (s.commit tm k).teams = s.teams ∧ (s.commit tm k).clk = s.clk ∧ (s.commit tm k).hole = s.hole := by
  unfold State.commit
  generalize k.lines = ls
  induction ls generalizing s with
  | nil => exact ⟨rfl, rfl, rfl⟩
  | cons e ls ih =>
    rw [List.foldl_cons]
    obtain ⟨h1, h2, h3⟩ := ih (s.commitLine tm e.1 e.2)
    obtain ⟨g1, g2, g3⟩ := s.commitLine_same tm e.1 e.2
    exact ⟨h1.trans g1, h2.trans g2, h3.trans g3⟩

/-! ### Landed writes (R104, R111) -/

/-- A team whose held instructions have marked the lanes that a write overlaps. -/
def Team.clash (tm : Team) (ks : List Nat) : Team := { tm with p0 := tm.p0.clash ks, p1 := tm.p1.clash ks }

/-- A write marks the outstanding operations that it overlaps, and what its team's held instructions claim: nothing else. -/
theorem State.clash_eq (s : State) (t : Nat) (ks : List Nat) : s.clash t ks =
    { s with teams := tmod s.teams t (fun tm => tm.clash ks), ops := (s.clash t ks).ops } := by
  unfold State.clash; dsimp only; split <;> rfl

/-- A landed write changes its team, and the marks of outstanding operations that it overlaps: nothing else. -/
theorem State.landUpd_eq (s : State) (t pid : Nat) (u : Upd) : s.landUpd t pid u =
    { s with teams := tmod s.teams t (fun tm =>
               let tm' := { tm.apply pid u with corrupt := tm.corrupt.filter (fun c => !u.mends c) }
               Team.clash (if tm.changes pid u then tm'.unspin pid else tm') u.keys)
             ops := (s.landUpd t pid u).ops } := by
  unfold State.landUpd
  dsimp only
  rw [State.clash_eq, State.modTeam_teams, tmod_tmod]
  rfl

end Sys2Proof.Machine
end

