-- ==== Sys2Proof/Laws/Holds.lean ====
section
/-! SUPPORT. Instructions that hold their fragment, releases, and taken branches. -/

namespace Sys2Proof.Machine

@[simp] theorem State.issued_groups (s : State) (a : At) : (s.issued a).groups = s.groups := by rw [State.issued_eq]
@[simp] theorem State.issued_wide (s : State) (a : At) : (s.issued a).wide = s.wide := by rw [State.issued_eq]
@[simp] theorem State.issued_mem (s : State) (a : At) : (s.issued a).mem = s.mem := by rw [State.issued_eq]
@[simp] theorem State.issued_rt (s : State) (a : At) : (s.issued a).rt = s.rt := by rw [State.issued_eq]

/-! ### Taken branches and scalars that land at once -/

/-- A taken branch below the limit of R38 changes only the spin counter of the fragment. -/
theorem State.took (s : State) (t : Nat) (f : Bool) (pc target : BitVec 64) (tm : Team)
    (ht : tget s.teams t = some tm)
    (hc : pc.toNat < target.toNat ∨ mProg tm.mode = true ∨ (tm.path f).spin + 1 < 64) :
   ∃ n, s.tookBranch t f pc target = .ok (s.modTeam t (fun tm => tm.setPath f { tm.path f with spin := n })) := by
  unfold State.tookBranch
  rw [ht]
  show ∃ n, (if pc.toNat < target.toNat ∨ mProg tm.mode = true then _ else _) = _
  by_cases h1 : pc.toNat < target.toNat ∨ mProg tm.mode = true
  · rw [if_pos h1]
    refine ⟨(tm.path f).spin, ?_⟩
    congr 1
    symm
    have : s.modTeam t (fun tm' => tm'.setPath f { tm'.path f with spin := (tm.path f).spin }) = s.modTeam t (fun tm => tm) := by
      unfold State.modTeam
      congr 1
      apply tmod_same
      intro tm' h'
      rw [ht] at h'; cases h'
      cases f <;> rfl
    rw [this, State.modTeam_same]
  · rw [if_neg h1]
    have : (tm.path f).spin + 1 < 64 := by
      rcases hc with h | h | h
      · exact absurd (.inl h) h1
      · exact absurd (.inr h) h1
      · exact h
    rw [if_neg (by omega)]
    exact ⟨_, rfl⟩

/-- What a landed write marks in a path is its claim: nothing else. -/
theorem Path.clash_eq (p : Path) (ks : List Nat) : p.clash ks = { p with claim := (p.clash ks).claim } := by
  unfold Path.clash; split <;> rfl

@[simp] theorem Team.clash_path (tm : Team) (ks : List Nat) (f : Bool) : (tm.clash ks).path f = (tm.path f).clash ks := by
  cases f <;> rfl

/-- The paths of a team in which a write of path pid has landed: at most the spin counter and the claim differ. -/
theorem Team.landed_path (tm : Team) (pid : Nat) (ks : List Nat) (c : Bool) (f : Bool) :
    ∃ sp cl, sp ≤ (tm.path f).spin ∧
      (Team.clash (if c = true then tm.unspin pid else tm) ks).path f = { tm.path f with spin := sp, claim := cl } := by
  rw [Team.clash_path, Path.clash_eq]
  cases c
  · exact ⟨(tm.path f).spin, _, Nat.le_refl _, rfl⟩
  · refine ⟨if (tm.path f).pid = pid then 0 else (tm.path f).spin, (((tm.unspin pid).path f).clash ks).claim, by split <;> simp, ?_⟩
    have : (tm.unspin pid).path f = { tm.path f with spin := if (tm.path f).pid = pid then 0 else (tm.path f).spin } := by
      cases f <;> simp only [Team.unspin, Team.path, Bool.false_eq_true, if_true, if_false] <;> split <;> rfl
    simp only [if_true]
    rw [this]

/-- A landed scalar, with its bound, in its team. -/
theorem State.landUpd_sca_team (s : State) (t pid r : Nat) (v : Word) (b : Half) (tm : Team) (ht : tget s.teams t = some tm) :
    ∃ tm', tget (s.landUpd t pid (.sca r (some v) (some b))).teams t = some tm' ∧ tm'.s = tset tm.s r ⟨v, b⟩ ∧
      (∀ f, ∃ sp cl, sp ≤ (tm.path f).spin ∧ tm'.path f = { tm.path f with spin := sp, claim := cl }) ∧
      tm'.stack = tm.stack ∧ tm'.mode = tm.mode ∧ tm'.split = tm.split := by
  rw [State.landUpd_eq]
  simp only [tget_tmod_self, ht, Option.map_some]
  refine ⟨_, rfl, ?_, fun f => ?_, ?_⟩
  · split <;> rfl
  · obtain ⟨sp, cl, h1, h2⟩ := Team.landed_path
      { tm.apply pid (.sca r (some v) (some b)) with corrupt := tm.corrupt.filter (fun c => !(Upd.sca r (some v) (some b)).mends c) }
      pid (Upd.sca r (some v) (some b)).keys (tm.changes pid (.sca r (some v) (some b))) f
    refine ⟨sp, cl, ?_, ?_⟩
    · cases f <;> exact h1
    · cases f <;> exact h2
  · split <;> exact ⟨rfl, rfl, rfl⟩
@[simp] theorem State.landUpd_mem (s : State) (t pid : Nat) (u : Upd) : (s.landUpd t pid u).mem = s.mem := by rw [State.landUpd_eq]
@[simp] theorem State.landUpd_hole (s : State) (t pid : Nat) (u : Upd) : (s.landUpd t pid u).hole = s.hole := by rw [State.landUpd_eq]

/-- A landed predicate, in its team. -/
theorem State.landUpd_prd_team (s : State) (t pid p : Nat) (m x y : Mask) (tm : Team) (ht : tget s.teams t = some tm) :
    ∃ tm', tget (s.landUpd t pid (.prd p m x y)).teams t = some tm' ∧ tm'.stack = tm.stack ∧ tm'.exited = tm.exited ∧
      tm'.mode = tm.mode ∧ tm'.split = tm.split ∧
      (∀ f, ∃ sp cl, sp ≤ (tm.path f).spin ∧ tm'.path f = { tm.path f with spin := sp, claim := cl }) ∧
      (p ≠ 7 → tm'.pred p = ⟨((tm.pred p).t &&& ~~~m) ||| (x &&& m), ((tm.pred p).d &&& ~~~m) ||| (y &&& m)⟩) := by
  rw [State.landUpd_eq]
  simp only [tget_tmod_self, ht, Option.map_some]
  refine ⟨_, rfl, ?_⟩
  have key : ∀ tm1 : Team, tm1 = tm.apply pid (.prd p m x y) →
      tm1.stack = tm.stack ∧ tm1.exited = tm.exited ∧ tm1.mode = tm.mode ∧ tm1.split = tm.split ∧
      (∀ f, tm1.path f = tm.path f) ∧
      (p ≠ 7 → tm1.pred p = ⟨((tm.pred p).t &&& ~~~m) ||| (x &&& m), ((tm.pred p).d &&& ~~~m) ||| (y &&& m)⟩) := by
    intro tm1 h1
    change tm1 = if p = 7 then tm else
      { tm with p := tset tm.p p ⟨((tm.pred p).t &&& ~~~m) ||| (x &&& m), ((tm.pred p).d &&& ~~~m) ||| (y &&& m)⟩ } at h1
    by_cases h7 : p = 7
    · rw [if_pos h7] at h1
      subst h1
      simp [h7]
    · rw [if_neg h7] at h1
      subst h1
      refine ⟨rfl, rfl, rfl, rfl, fun f => by cases f <;> rfl, fun _ => ?_⟩
      simp only [Team.pred, h7, if_false, tgetD_tset_self]
  obtain ⟨g1, g2, g3, g4, g5, g6⟩ := key _ rfl
  have path : ∀ (q : List ErrSite) (f : Bool), Team.path { tm.apply pid (.prd p m x y) with corrupt := q } f = tm.path f := by
    intro q f; rw [← g5 f]; cases f <;> rfl
  have paths : ∀ f, ∃ sp cl, sp ≤ (tm.path f).spin ∧ Team.path (Team.clash
      (if tm.changes pid (.prd p m x y) = true then
        Team.unspin { tm.apply pid (.prd p m x y) with corrupt := tm.corrupt.filter (fun c => !(Upd.prd p m x y).mends c) } pid
      else { tm.apply pid (.prd p m x y) with corrupt := tm.corrupt.filter (fun c => !(Upd.prd p m x y).mends c) })
      (Upd.prd p m x y).keys) f = { tm.path f with spin := sp, claim := cl } := by
    intro f
    have := Team.landed_path
      { tm.apply pid (.prd p m x y) with corrupt := tm.corrupt.filter (fun c => !(Upd.prd p m x y).mends c) }
      pid (Upd.prd p m x y).keys (tm.changes pid (.prd p m x y)) f
    rwa [path] at this
  refine ⟨?_, ?_, ?_, ?_, paths, ?_⟩
  all_goals (split <;> assumption)

/-- One move of `run` along the stack (R125). -/
theorem State.go_run (k : Nat) (s : State) (t : Nat) (f : Bool) (pc : BitVec 64) (m : Mask) (tm : Team)
    (ht : tget s.teams t = some tm) (hm : m &&& ~~~tm.exited ≠ 0) : s.go (k + 1) t f (.run pc m false) = .ok
      { s.modTeam t (fun tm' => tm'.setPath f { tm.path f with
          pc := pc, exm := m &&& ~~~tm.exited, pmask := m &&& ~~~tm.exited, pid := s.nextPid, spin := 0, demoted := false,
          hold := .free, ended := false }) with nextPid := s.nextPid + 1 } := by
  unfold State.go
  simp only [ht, hm, if_false, Bool.false_eq_true]

/-- The same for a path that goes on as itself behind a JOIN. -/
theorem State.go_run_same (k : Nat) (s : State) (t : Nat) (f : Bool) (pc : BitVec 64) (m : Mask) (tm : Team)
    (ht : tget s.teams t = some tm) (hm : m &&& ~~~tm.exited ≠ 0) : s.go (k + 1) t f (.run pc m true) = .ok
      (s.modTeam t (fun tm' => tm'.setPath f { tm.path f with
          pc := pc, exm := m &&& ~~~tm.exited, pmask := m &&& ~~~tm.exited, hold := .free, ended := false })) := by
  unfold State.go
  simp only [ht, hm, if_false, if_true]
  rfl

/-! ### Effects beside the team -/

/-- An Issue-class instruction outside a task whose effect leaves the teams alone. -/
theorem out_issue {s : State} {a : At} {h : Hdr} {ps : List Port} (r : ReadyOut s a h ps) (i : Instr)
    (cls : Cls) (body : X → State → Res) (s1 : State)
    (hb : body (s.viewAt a h) (s.issued a) = .issue s1) (h1 : s1.hole = false) (hc : s1.clk = s.clk)
    (ht : s1.teams = (s.issued a).teams) :
    answer (s.issue i h cls ps false true body) = .next (s1.issueNext a h (fun tm => tm)) := by
  refine issue_issue r.clear i cls false body s1 (.inl r.acts) hb h1 hc ?_
  intro tm htm
  rw [ht] at htm
  exact (r.clear.live.issued_team' tm htm).2

/-- An Issue-class instruction whose effect leaves the teams alone. -/
theorem instr_done {s : State} {a : At} {h : Hdr} {ps : List Port} (r : Ready s a h ps) (i : Instr)
    (cls : Cls) (body : X → State → Res) (s1 : State)
    (hb : body (s.viewAt a h) (s.issued a) = .issue s1) (h1 : s1.hole = false) (hc : s1.clk = s.clk)
    (ht : s1.teams = (s.issued a).teams) :
    instr i h cls ps body s = .next (s1.issueNext a h (fun tm => tm)) := by
  refine issue_issue r.clear i cls false body s1 (.inl r.acts) hb h1 hc ?_
  intro tm htm
  rw [ht] at htm
  exact (r.clear.live.issued_team' tm htm).2

/-! ### Holds (R100) -/

/-- The claim of a held instruction touches its path's claim and the count of operations: nothing else. -/
theorem State.claimAt_eq (s : State) (x : X) (cls : Cls) (ps : List Port) : ∃ cl : Team → Option Claim, s.claimAt x cls ps =
    { s.modTeam x.t (fun tm => tm.setPath x.f { tm.path x.f with claim := cl tm }) with nextOp := (s.claimAt x cls ps).nextOp } := by
  unfold State.claimAt
  split
  · exact ⟨fun _ => some _, rfl⟩
  · exact ⟨fun _ => none, rfl⟩
  · refine ⟨fun tm => (tm.path x.f).claim, ?_⟩
    have : s.modTeam x.t (fun tm => tm.setPath x.f { tm.path x.f with claim := (tm.path x.f).claim }) = s := by
      have e : (fun tm : Team => tm.setPath x.f { tm.path x.f with claim := (tm.path x.f).claim }) = fun tm => tm := by
        funext tm
        cases x.f <;> rfl
      rw [e, State.modTeam_same]
    rw [this]

/-- An answer that holds the fragment: the team with the hold, the claim of its operation, and nothing else. -/
theorem State.retire_hold {x : X} {a : At} {h : Hdr} (hx : x.Of a h) (i : Instr) (cls : Cls) (ps : List Port) (s s0 : State)
    (w : Held) (tm : Team) (ht : tget s.teams a.t = some tm) : ∃ tm',
    tget (s0.retire i x cls ps (.hold s w)).teams a.t = some tm' ∧ tm'.stack = tm.stack ∧
    (tm'.path a.f).pc = (tm.path a.f).pc ∧ (tm'.path a.f).exm = (tm.path a.f).exm ∧
    (tm'.path a.f).hold = .inside i w.clk0 w.rt0 (x.e.toNat :: w.cap) w.stage w.pages w.layer w.fate ∧
    (s0.retire i x cls ps (.hold s w)) = { s with teams := (s0.retire i x cls ps (.hold s w)).teams
                                                  nextOp := (s0.retire i x cls ps (.hold s w)).nextOp } := by
  obtain ⟨cl, hc⟩ : ∃ cl : Team → Option Claim, (if s.nextOp = s0.nextOp then s.claimAt x cls ps else s) =
      { s.modTeam x.t (fun tm => tm.setPath x.f { tm.path x.f with claim := cl tm }) with
        nextOp := (if s.nextOp = s0.nextOp then s.claimAt x cls ps else s).nextOp } := by
    split
    · exact s.claimAt_eq x cls ps
    · refine ⟨fun tm => (tm.path x.f).claim, ?_⟩
      have e : (fun tm : Team => tm.setPath x.f { tm.path x.f with claim := (tm.path x.f).claim }) = fun tm => tm := by
        funext tm
        cases x.f <;> rfl
      rw [e, State.modTeam_same]
  simp only [State.retire]
  generalize hg : (if s.nextOp = s0.nextOp then s.claimAt x cls ps else s) = s' at hc ⊢
  generalize s'.nextOp = n at hc
  subst hc
  unfold State.liftSibling
  simp only [hx.t, hx.f, State.modTeam, tmod_tmod, tget_tmod_self, ht, Option.map_some]
  refine ⟨_, rfl, ?_⟩
  cases hf : a.f <;> simp only [Team.setPath, Team.path, Bool.not_true, Bool.not_false, Bool.false_eq_true, if_true, if_false]
  all_goals (split <;> exact ⟨rfl, rfl, rfl, rfl, trivial⟩)

/-- What `State.issue` answers for an instruction that nothing stops and that holds its fragment in s1. -/
theorem issue_hold {s : State} {a : At} {h : Hdr} {ps : List Port} {tk : Bool} (r : Clear s a h ps tk) (i : Instr)
    (cls : Cls) (always : Bool) (body : X → State → Res) (s1 : State) (stage : Nat) (cap : List Nat)
    (ha : a.mask h ≠ 0 ∨ always = true)
    (hb : body (s.viewAt a h) (s.issued a) = (s.viewAt a h).hold s1 stage cap) (h1 : s1.hole = false) (tm : Team)
    (ht : tget s1.teams a.t = some tm) : ∃ t tm', answer (s.issue i h cls ps always tk body) = .next t ∧
      tget t.teams a.t = some tm' ∧ tm'.stack = tm.stack ∧
      (tm'.path a.f).pc = (tm.path a.f).pc ∧ (tm'.path a.f).exm = (tm.path a.f).exm ∧
      (tm'.path a.f).hold = .inside i s1.clk s1.rt ((a.mask h).toNat :: cap) stage [] none .open ∧
      t = { s1 with teams := t.teams, nextOp := t.nextOp } := by
  rw [State.issue_clear r i cls always body ha, hb]
  have e : (s.viewAt a h).hold s1 stage cap = .hold s1 ⟨s1.clk, s1.rt, cap, stage, [], none, .open⟩ := rfl
  rw [e]
  obtain ⟨tm', g1, g2, g3, g4, g5, g6⟩ :=
    State.retire_hold (s.viewAt_of a h) i cls ps s1 (s.issued a) ⟨s1.clk, s1.rt, cap, stage, [], none, .open⟩ tm ht
  refine ⟨_, tm', ?_, g1, g2, g3, g4, g5, g6⟩
  unfold answer
  rw [if_neg]
  rw [g6]
  simp [h1]

/-- The state that an instruction which goes on is carried out in. -/
theorem State.issue_within {s : State} {a : At} {h : Hdr} {i : Instr} {e : Mask} {w : Held} (r : Within s a i e w)
    (ps : List Port) (cls : Cls) (always tk : Bool) (body : X → State → Res) :
    s.issue i h cls ps always tk body =
      (s.resumed a).retire i (s.viewIn a h e w) cls ps (body (s.viewIn a h e w) (s.resumed a)) := by
  have hs : State.stopped { s with cur := none } a.tm = false := r.go
  unfold State.issue
  simp only [r.cur, r.team, r.runs, hs]
  have hf : (a.tm.path a.f).hold = .inside i w.clk0 w.rt0 (e.toNat :: w.cap) w.stage w.pages w.layer w.fate := r.hold
  simp only [hf, Bool.not_true, Bool.or_self, Bool.false_eq_true, if_false]
  rw [if_neg]
  · simp only [if_true, List.headD_cons, List.tail_cons, BitVec.ofNat_toNat, BitVec.setWidth_eq]
    rfl
  · rcases r.open_ with h | h
    · simp [h]
    · simp [h]

@[simp] theorem State.resumed_hole (s : State) (a : At) : (s.resumed a).hole = s.hole := by simp [State.resumed]
@[simp] theorem State.resumed_clk (s : State) (a : At) : (s.resumed a).clk = s.clk := by simp [State.resumed]
@[simp] theorem State.resumed_teams (s : State) (a : At) : (s.resumed a).teams = s.teams := by simp [State.resumed]

/-! ### What looking at memory leaves alone -/

/-- Nothing that a team, a group, a core or an operation holds differs, nor the time. -/
structure Aside (s t : State) : Prop where
  teams  : t.teams = s.teams
  clk    : t.clk = s.clk
  rt     : t.rt = s.rt
  ops    : t.ops = s.ops
  cores  : t.cores = s.cores
  groups : t.groups = s.groups
  wide   : t.wide = s.wide
  cur    : t.cur = s.cur

theorem Aside.refl (s : State) : Aside s s := ⟨rfl, rfl, rfl, rfl, rfl, rfl, rfl, rfl⟩
theorem Aside.trans {s t u : State} (h : Aside s t) (k : Aside t u) : Aside s u :=
  ⟨k.teams.trans h.teams, k.clk.trans h.clk, k.rt.trans h.rt, k.ops.trans h.ops, k.cores.trans h.cores,
   k.groups.trans h.groups, k.wide.trans h.wide, k.cur.trans h.cur⟩
theorem MemOnly.aside {s t : State} (h : MemOnly s t) : Aside s t := by
  unfold MemOnly at h; rw [h]; exact ⟨rfl, rfl, rfl, rfl, rfl, rfl, rfl, rfl⟩

theorem State.writePhys_only (s : State) (c : Option Nat) (k pa : Nat) (bs : List Byte) (n : Nat) :
    MemOnly s (s.writePhys c k pa bs n) := State.writePhys_eq ..

theorem State.touch_aside (s : State) (pa n : Nat) : Aside s (s.touch pa n) := by
  unfold State.touch; dsimp only; split <;> exact ⟨rfl, rfl, rfl, rfl, rfl, rfl, rfl, rfl⟩
theorem State.pick_aside {α : Type} (s : State) (xs : List α) (d : α) : Aside s (s.pick xs d).2 := by
  unfold State.pick; split <;> exact ⟨rfl, rfl, rfl, rfl, rfl, rfl, rfl, rfl⟩
theorem State.tlbAdd_aside (s : State) (c : Nat) (p : Quad) : Aside s (s.tlbAdd c p) := by
  unfold State.tlbAdd; split <;> exact ⟨rfl, rfl, rfl, rfl, rfl, rfl, rfl, rfl⟩
theorem State.translate_aside (s : State) (c va : Nat) : Aside s (s.translate c va).2 := by
  unfold State.translate
  dsimp only
  have h1 : Aside s (if s.hasTable c && !ptMalformed (s.ctx c).ptroot then s.touch (ptBase (s.ctx c).ptroot) (128 * 2 ^ ptN (s.ctx c).ptroot) else s) := by
    split
    · exact State.touch_aside ..
    · exact Aside.refl s
  generalize (if s.hasTable c && !ptMalformed (s.ctx c).ptroot then s.touch (ptBase (s.ctx c).ptroot) (128 * 2 ^ ptN (s.ctx c).ptroot) else s) = s1 at h1 ⊢
  have h2 := h1.trans (State.pick_aside s1 (s1.choices c va) .miss)
  split
  · exact h2.trans (State.tlbAdd_aside ..)
  · exact h2
theorem State.cacheHome_aside (s : State) (c : Option Nat) (cls line : Nat) (w : Bool) : Aside s (s.cacheHome c cls line w) := by
  rw [State.cacheHome_eq]; exact ⟨rfl, rfl, rfl, rfl, rfl, rfl, rfl, rfl⟩
theorem State.look_aside (s : State) (c va : Nat) (w : Bool) : Aside s (s.look c va w).2 := s.translate_aside c va
theorem State.readBytes_aside (s : State) (pa n k : Nat) : Aside s (s.readBytes pa n k).2 := by
  unfold State.readBytes; split <;> exact ⟨rfl, rfl, rfl, rfl, rfl, rfl, rfl, rfl⟩
theorem State.flushFaults_aside (s : State) : Aside s s.flushFaults := by
  unfold State.flushFaults
  dsimp only
  have key : ∀ (fs : List PFault) (a : State × List PFault), Aside s a.1 →
      Aside s (fs.foldl (fun (a : State × List PFault) (f : PFault) =>
        let s := a.1
        let pa := rqBase s.fqcfg + 32 * (s.fqIdx % rqSlots s.fqcfg)
        if f.rt0.isSome ∨ !rqEn s.fqcfg ∨ s.recFull pa then (s, a.2 ++ [f])
        else
          let s := s.touch pa 32
          let s := s.writePhys none 0 pa (toBytes f.record 32) 2
          ({ s with fqIdx := s.fqIdx + 1 }, a.2 ++ [{ f with rt0 := some s.rt }])) a).1 := by
    intro fs
    induction fs with
    | nil => exact fun a h => h
    | cons f fs ih =>
      intro a h
      rw [List.foldl_cons]
      apply ih
      dsimp only
      split
      · exact h
      · have := (h.trans (State.touch_aside a.1 (rqBase a.1.fqcfg + 32 * (a.1.fqIdx % rqSlots a.1.fqcfg)) 32)).trans
          (State.writePhys_only _ none 0 (rqBase a.1.fqcfg + 32 * (a.1.fqIdx % rqSlots a.1.fqcfg)) (toBytes f.record 32) 2).aside
        exact ⟨this.teams, this.clk, this.rt, this.ops, this.cores, this.groups, this.wide, this.cur⟩
  have := key s.faults (s, []) (Aside.refl s)
  exact ⟨this.teams, this.clk, this.rt, this.ops, this.cores, this.groups, this.wide, this.cur⟩
theorem State.raiseFault_aside (s : State) (c va kind req core : Nat) (pte : Quad) :
    Aside s (s.raiseFault c va kind req core pte).2 := by
  unfold State.raiseFault
  split
  · exact Aside.refl s
  · split
    · exact State.flushFaults_aside s
    · have := State.flushFaults_aside
        { s with faults := s.faults ++ [{ ctx := c, page := va / 4096, kind := kind, req := req, core := core, pte := pte, rt0 := none }] }
      exact ⟨this.teams, this.clk, this.rt, this.ops, this.cores, this.groups, this.wide, this.cur⟩
theorem State.report_aside (s : State) (c va req core : Nat) (l : Look) : Aside s (s.report c va req core l).2 := by
  unfold State.report; split <;> exact State.raiseFault_aside ..

/-! ### The evaluation of a condition block (R323) -/

theorem State.condRead_aside (s : State) (x : X) (va : Nat) : Aside s (s.condRead x va).2 := by
  unfold State.condRead
  have h := s.look_aside x.tm.ctx va false
  split
  rename_i l s1 e
  rw [e] at h
  split
  · split
    · exact h
    · exact (h.trans (State.cacheHome_aside ..)).trans (State.readBytes_aside ..)
  · dsimp only; split
    · exact h.trans (State.report_aside ..)
    · exact h
  · dsimp only; split
    · exact h.trans (State.report_aside ..)
    · exact h
  · exact h

theorem Cond.holds_aside (c : Cond) (x : X) (s : State) : Aside s (c.holds x s).2 := by
  unfold Cond.holds
  cases c
  case memory va cmp o sc => exact s.condRead_aside x va
  all_goals exact Aside.refl s

theorem X.evalBlock_aside (x : X) (cs : List Cond) (s : State) : Aside s (x.evalBlock cs s).2 := by
  induction cs generalizing s with
  | nil => exact Aside.refl s
  | cons c cs ih =>
    unfold X.evalBlock
    have h := c.holds_aside x s
    generalize c.holds x s = r at h ⊢
    obtain ⟨w, s1⟩ := r
    have h2 := h.trans (ih s1)
    cases w
    case kovf => exact h
    case kerr => exact h
    all_goals
      dsimp only
      generalize x.evalBlock cs s1 = q at h2 ⊢
      obtain ⟨b, s2⟩ := q
      cases b <;> exact h2

theorem State.acquire_same (s : State) (x : X) (sc : Nat) : (s.acquire x sc).teams = s.teams ∧
    (s.acquire x sc).clk = s.clk ∧ (s.acquire x sc).hole = s.hole ∧ (s.acquire x sc).rt = s.rt := by
  unfold State.acquire State.acquireL1; split <;> simp

theorem X.acquireBlock_same (x : X) (s : State) (cs : List Cond) (bs : List Bool) :
    (x.acquireBlock s cs bs).teams = s.teams ∧ (x.acquireBlock s cs bs).clk = s.clk ∧
    (x.acquireBlock s cs bs).hole = s.hole := by
  unfold X.acquireBlock
  generalize cs.zip bs = ps
  induction ps generalizing s with
  | nil => exact ⟨rfl, rfl, rfl⟩
  | cons p ps ih =>
    rw [List.foldl_cons]
    have h : ∀ s1 : State, s1.teams = s.teams ∧ s1.clk = s.clk ∧ s1.hole = s.hole →
        (ps.foldl (fun s p => match p.1.scope with | some sc => if p.2 then s.acquire x sc else s | none => s) s1).teams = s.teams ∧
        (ps.foldl (fun s p => match p.1.scope with | some sc => if p.2 then s.acquire x sc else s | none => s) s1).clk = s.clk ∧
        (ps.foldl (fun s p => match p.1.scope with | some sc => if p.2 then s.acquire x sc else s | none => s) s1).hole = s.hole := by
      intro s1 h1
      obtain ⟨g1, g2, g3⟩ := ih s1
      exact ⟨g1.trans h1.1, g2.trans h1.2.1, g3.trans h1.2.2⟩
    apply h
    split
    · split
      · rename_i sc _ _
        obtain ⟨g1, g2, g3, -⟩ := s.acquire_same x sc
        exact ⟨g1, g2, g3⟩
      · exact ⟨rfl, rfl, rfl⟩
    · exact ⟨rfl, rfl, rfl⟩

/-! ### Blocks, waits and releases that nothing stops -/

/-- A release that waits for nothing, in any state. -/
theorem releasing_any (x : X) (a : At) (s : State) (sc : Scope) (r : Released s a sc) (h1 : x.tm = a.tm) (h2 : x.t = a.t) (h3 : x.f = a.f) (cap : List Nat) (k : State → Res) :
    x.releasing s (Scope.num sc) 0 cap k = k s := by
  unfold X.releasing
  have hb : x.pathWaits s Op.accesses = false := by
    have := r.2
    unfold At.pathWaits at this
    unfold X.pathWaits
    rw [h1, h2, h3]
    exact this
  rw [h1, h2]
  have g1 : ¬ (1 ≤ Scope.num sc ∧ a.tm.sideLost = true) := by
    rintro ⟨h1, h2⟩
    rcases r.1 with h | h
    · omega
    · exact absurd h2 (by simp [h.1])
  rw [if_neg g1]
  have h2 : (decide (1 ≤ Scope.num sc) && s.sideTeam a.t) = false := by
    rcases r.1 with h | h
    · simp [h]
    · simp [h.2]
  rw [hb, h2]
  rfl

/-- A release that waits for nothing. -/
theorem releasing_ok {s : State} {a : At} {h : Hdr} {sc : Scope} (r : Released (s.issued a) a sc) (k : State → Res) (n : Nat) (cap : List Nat) :
    (s.viewAt a h).releasing (s.issued a) (Scope.num sc) n cap k = k (s.issued a) := by
  unfold X.releasing
  have h1 : ¬ (1 ≤ Scope.num sc ∧ (s.viewAt a h).tm.sideLost = true) := by
    rintro ⟨h1, h2⟩
    rcases r.1 with h | h
    · omega
    · exact absurd h2 (by simp [State.viewAt, h.1])
  rw [if_neg h1]
  have hb : (s.viewAt a h).pathWaits (s.issued a) Op.accesses = false := r.2
  have h2 : (decide (1 ≤ Scope.num sc) && (s.issued a).sideTeam (s.viewAt a h).t) = false := by
    rcases r.1 with h | h
    · simp [h]
    · simp [State.viewAt, h.2]
  rw [hb, h2]
  rfl

/-- A well-formed block goes on with its words and conditions. -/
theorem withBlock_ok (s : State) (a : At) (h : Hdr) (o : Opnd) (n : BitVec 2) (cs : List Cond) (hb : BlockOk (s.viewAt a h) (s.issued a) o n cs)
   (k : List Nat → List Cond → Res) : (s.viewAt a h).withBlock (s.issued a) o (n.toNat + 1) k = k ((s.viewAt a h).condWords o (n.toNat + 1)) cs := by
  obtain ⟨h1, h2, h3⟩ := hb
  unfold X.withBlock
  dsimp only
  rw [h1]; dsimp only; rw [h2]; dsimp only
  split
  · rename_i va _ _ sc heq
    have hm := List.mem_of_find?_eq_some heq
    have := List.find?_some heq
    simp [h3 va _ _ sc hm] at this
  · rfl

/-- A wait that is satisfied, with the path's reads completed. -/
theorem satisfied_ok (s : State) (a : At) (h : Hdr) (s1 : State) (cs : List Cond) (bs : List Bool) (cap : List Nat)
  (hp : a.pathWaits s1 Op.reads = false) (k : State → Res) :
  (s.viewAt a h).satisfied s1 cs bs cap k = k (if (cs.zip bs).any (fun p => p.2 && (p.1.scope).isSome) then (s.viewAt a h).acquireBlock s1 cs bs else s1) := by
  unfold X.satisfied
  split
  · unfold X.acquiring
    have hw : (s.viewAt a h).pathWaits s1 Op.reads = false := hp
    rw [if_neg (by simp [hw])]
    rfl
  · rfl

end Sys2Proof.Machine
end

