-- ==== Sys2Proof/Laws/Access.lean ====
section
/-! SUPPORT. Loads, stores, cache operations and atomics that nothing stops: what their meanings answer. -/

namespace Sys2Proof.Machine

/-! ### Loads -/

/-- A first issue finds no fate of a hold. -/
@[simp] theorem X.fateTrap_new {x : X} (s : State) (items : List (Nat × Nat × Nat × Nat)) (hst : x.st = none) : x.fateTrap s items = none := by
  unfold X.fateTrap; rw [hst]

/-- A load that goes on: its accesses resolve, its scratchpad words are whole, and it has line operations. -/
theorem X.load_ok {x : X} {s : State} {via : Via} {t : Ty} {c : Cnt} {d a b : Opnd} {off : BitVec 20} {accs : List Acc}
    {s1 : State} (hst : x.st = none)
    (he : x.addrErr s (cntN c * t.bytes) (cntN c * t.bytes) ((x.work d).map (x.addr a b off)) = none)
    (hr : s.resolveAll x.tm false (via ≠ .comp) [] (((x.work d).zip ((x.work d).map (x.addr a b off))).flatMap (fun p =>
      (List.range (cntN c)).map (fun j => (p.1, p.2, p.2 + j * t.bytes, t.bytes)))) = (.ok accs, s1))
    (hs : s1.scrEcc (accs.flatMap (fun a => a.chunks)) = none)
    (hl : s1.lineRoom x.tm.core (lineCount (accs.flatMap (fun a => a.chunks))) = true)
    (hn : ((s1.behind x.t (x.opNum s1) (accs.flatMap (fun a => a.chunks)) || s1.unlinked x.tm (.load via t d (cntN c) accs)) &&
      (accs.flatMap (fun a => a.chunks)).any Chunk.isSide) = false) :
    x.load s via t c d a b off =
      (let n := cntN c
       let cs := accs.flatMap (fun a => a.chunks)
       let early := s1.behind x.t (x.opNum s1) cs || s1.unlinked x.tm (.load via t d n accs)
       let r : Work × State := if early || (x.late && !cs.any Chunk.isSide) then (.load via t d n accs, s1)
         else s1.doLoad x.tm via t d n accs
       let o := { x.op r.2 .mem (dstKeys d (n * tyN t) x.e) r.1 with lines := lineCount cs, inVer := x.tm.inVersion cs }
       if via = .home ∧ mProg x.tm.mode then .demote r.2 o else .token r.2 o) := by
  unfold X.load
  simp only [hst, he, X.fateTrap_new _ _ hst, hr, hs, hl, hn]
  rfl

/-- A demotion from a stack whose view has no PATH on top leaves the fragment where it is (R38). -/
theorem State.demote_alone {s : State} {t : Nat} {f : Bool} {tm : Team} (ht : tget s.teams t = some tm)
    (hp : ∀ e q k, popView tm.split f tm.stack = some (e, q, k) → e.kind = .join ∧ e.bad = false) :
    ∃ s' tm', s.demote t f = .ok s' ∧ s' = { s with teams := s'.teams } ∧ tget s'.teams t = some tm' ∧
      (tm'.path f).pc = (tm.path f).pc ∧ (tm'.path f).hold = (tm.path f).hold := by
  have hlone : ∃ s' tm', State.demote.lone t f (s.modTeam t (fun tm => tm.setPath f { tm.path f with spin := 0 })) tm = s' ∧
      s' = { s with teams := s'.teams } ∧ tget s'.teams t = some tm' ∧
      (tm'.path f).pc = (tm.path f).pc ∧ (tm'.path f).hold = (tm.path f).hold := by
    unfold State.demote.lone
    dsimp only
    split
    · refine ⟨_, _, rfl, rfl, by simp only [State.modTeam_modTeam, State.modTeam_teams, tget_tmod_self, ht, Option.map_some]; rfl, ?_, ?_⟩
      all_goals (cases hf : f <;> simp [Team.setPath, Team.path])
    · refine ⟨_, _, rfl, rfl, by simp only [State.modTeam_teams, tget_tmod_self, ht, Option.map_some]; rfl, ?_, ?_⟩
      all_goals (cases hf : f <;> simp [Team.setPath, Team.path])
  obtain ⟨s', tm', l1, l2⟩ := hlone
  refine ⟨s', tm', ?_, l2⟩
  unfold State.demote
  rw [ht]
  dsimp only
  cases hq : popView tm.split f tm.stack with
  | none => dsimp only; rw [l1]
  | some q =>
    obtain ⟨e, q, k⟩ := q
    dsimp only
    rw [if_neg (by simp [(hp e q k hq).2]), if_neg (by rw [(hp e q k hq).1]; decide), l1]

/-! ### Stores -/

/-- A store outside a task whose parts all translate to pages that take the write, none in breach on a checked page. -/
theorem X.storeAs_ok {x : X} {s : State} {k : StUnit} {stage : Nat} {pcs : List Piece} {ps : List Part} {s1 : State}
    (hd : x.declinedPage = none) (hv : x.tm.versions = false)
    (hr : s.resolveParts x.tm [] (pcs.flatMap (fun p =>
      (cutBytes p.addr (x.tm.runs_ p.lane p.addr p.bs.length) p.bs p.keep).map (fun r => (p, r)))) = (ps, s1))
    (hl : ∀ p ∈ ps, ∃ pa q, p.look = .ok pa q)
    (hb : (BitVec.ofNat 64 (x.partsBreach s1 (ps.filter Part.checked)) : Mask) = 0) :
    x.storeAs s k stage pcs = x.storeOp s1 k stage ps 0 := by
  unfold X.storeAs
  rw [hr]
  dsimp only
  rw [hd]
  dsimp only
  unfold X.storeParts
  have h1 : ps.findSome? (fun p => match p.look with | .perm j => some (j, p.p.la) | _ => none) = none := by
    rw [List.findSome?_eq_none_iff]
    intro p hp
    obtain ⟨pa, q, e⟩ := hl p hp
    simp [e]
  have hu : ∀ p ∈ ps, p.unknown = false := by
    intro p hp
    obtain ⟨pa, q, e⟩ := hl p hp
    simp [Part.unknown, e]
  have hw : ∀ p ∈ ps, p.lost = false := by
    intro p hp
    obtain ⟨pa, q, e⟩ := hl p hp
    simp [Part.lost, e]
  have h4 : ps.find? (fun p => p.unknown && (x.tm.versions || p.p.br ≠ 0 || !p.p.xs.isEmpty)) = none := by
    rw [List.find?_eq_none]
    intro p hp
    simp [hu p hp]
  have hpart : ∀ q : Part → Bool, (∀ p ∈ ps, q p = false) → ps.partition q = ([], ps) := by
    intro q hq
    rw [List.partition_eq_filter_filter]
    congr 1
    · rw [List.filter_eq_nil_iff]
      intro p hp
      simp [hq p hp]
    · rw [List.filter_eq_self]
      intro p hp
      simp [hq p hp]
  split
  · rename_i heq
    exact absurd (h1.symm.trans heq) (by simp)
  · rw [hv] at h4 ⊢
    simp only [Bool.false_eq_true, if_false, h4, hb, ne_eq, not_true_eq_false]
    unfold X.storePlain
    rw [hpart _ hw]
    dsimp only
    rw [hpart _ hu]
    simp [groupLines]

/-- A store's operation outside a task: performed now, or when it completes. -/
theorem X.storeOp_ok {x : X} {s : State} {stage : Nat} {ps : List Part}
    (hl : s.lineRoom x.tm.core (lineCount ((ps.map Part.wr).map (fun w => w.c))) = true) :
    x.storeOp s ⟨.mem, none⟩ stage ps 0 =
      (let ws := ps.map Part.wr
       let cs := ws.map (fun w => w.c)
       let slow := x.late || s.behind x.t (x.opNum s) cs || s.unlinked x.tm (.store ws none)
       let r : Work × State := if slow then (.store ws none, s) else (.done [], s.performWrites x.tm.core x.tm.ctx ws)
       .token r.2 { x.op r.2 .mem [] r.1 with lines := lineCount cs }) := by
  unfold X.storeOp
  dsimp only
  rw [if_neg (by rw [hl]; simp)]
  simp only [if_true, Nat.add_zero]
  split <;> rfl

@[simp] theorem State.l1Mod_hole (s : State) (n c v : Nat) (f : L1Line → L1Line) : (s.l1Mod n c v f).hole = s.hole := rfl
@[simp] theorem State.l1Mod_teams (s : State) (n c v : Nat) (f : L1Line → L1Line) : (s.l1Mod n c v f).teams = s.teams := rfl
@[simp] theorem State.l1Mod_clk (s : State) (n c v : Nat) (f : L1Line → L1Line) : (s.l1Mod n c v f).clk = s.clk := rfl
@[simp] theorem State.l1Mod_mem (s : State) (n c v : Nat) (f : L1Line → L1Line) : (s.l1Mod n c v f).mem = s.mem := rfl

/-- Writes leave the teams, the time and the flag of reserved addresses alone. -/
theorem State.performWrites_same (s : State) (core ctx : Nat) (ws : List Wr) :
    (s.performWrites core ctx ws).hole = s.hole ∧ (s.performWrites core ctx ws).teams = s.teams ∧
    (s.performWrites core ctx ws).clk = s.clk := by
  have hset : ∀ (ws : List Wr) (a : List Wr × State), (a.2.hole = s.hole ∧ a.2.teams = s.teams ∧ a.2.clk = s.clk) →
      let r := ws.foldl (fun (a : List Wr × State) w => let (w, s) := a.2.settle (fun _ => none) w; (a.1 ++ [w], s)) a
      (r.2.hole = s.hole ∧ r.2.teams = s.teams ∧ r.2.clk = s.clk) := by
    intro ws
    induction ws with
    | nil => exact fun a h => h
    | cons w ws ih =>
      intro a h
      apply ih
      dsimp only
      unfold State.settle
      split
      · exact h
      · split
        · exact h
        · exact h
        · dsimp only
          have : ∀ pa n k, (a.2.readBytes pa n k).2.hole = a.2.hole ∧ (a.2.readBytes pa n k).2.teams = a.2.teams ∧ (a.2.readBytes pa n k).2.clk = a.2.clk := by
            intro pa n k; unfold State.readBytes; split <;> exact ⟨rfl, rfl, rfl⟩
          obtain ⟨g1, g2, g3⟩ := this (by assumption) w.c.len (pteKey (by assumption))
          exact ⟨g1.trans h.1, g2.trans h.2.1, g3.trans h.2.2⟩
  have h0 := hset ws ([], s) ⟨rfl, rfl, rfl⟩
  unfold State.performWrites State.settleAll
  dsimp only at h0 ⊢
  generalize List.foldl (fun (a : List Wr × State) w => ((a.1 ++ [(a.2.settle (fun _ => none) w).1], (a.2.settle (fun _ => none) w).2) : List Wr × State)) ([], s) ws = r at h0 ⊢
  obtain ⟨ws1, s0⟩ := r
  have h1 : ∀ (ws : List Wr) (u : State), (u.hole = s.hole ∧ u.teams = s.teams ∧ u.clk = s.clk) →
      let r := ws.foldl (fun s w => match w.c.at_ with | .scr g off => s.scrSet g off w.bs | _ => s) u
      (r.hole = s.hole ∧ r.teams = s.teams ∧ r.clk = s.clk) := by
    intro ws
    induction ws with
    | nil => exact fun a h => h
    | cons w ws ih =>
      intro u h
      apply ih
      dsimp only
      split
      · exact h
      · exact h
  have h2 : ∀ (ls : LineOps) (u : State), (u.hole = s.hole ∧ u.teams = s.teams ∧ u.clk = s.clk) →
      let r := ls.foldl (fun s e => s.writeTeam core ctx e.2.2.2 e.1 e.2.2.1 e.2.1) u
      (r.hole = s.hole ∧ r.teams = s.teams ∧ r.clk = s.clk) := by
    intro ls
    induction ls with
    | nil => exact fun a h => h
    | cons w ws ih =>
      intro u h
      apply ih
      unfold State.writeTeam
      simpa using h
  have h3 : ∀ (ls : List (Nat × Nat)) (u : State), (u.hole = s.hole ∧ u.teams = s.teams ∧ u.clk = s.clk) →
      let r := ls.foldl (fun s n => (s.setPoison n.1 true).l1Mod core ctx n.2 (fun l => { l with poison := true })) u
      (r.hole = s.hole ∧ r.teams = s.teams ∧ r.clk = s.clk) := by
    intro ls
    induction ls with
    | nil => exact fun a h => h
    | cons w ws ih =>
      intro u h
      apply ih
      dsimp only
      rw [State.setPoison_eq]
      exact h
  exact h3 _ _ (h2 _ _ (h1 _ _ h0))

theorem State.scrSet_same (s : State) (g off : Nat) (bs : List Byte) : (s.scrSet g off bs).hole = s.hole ∧
    (s.scrSet g off bs).teams = s.teams ∧ (s.scrSet g off bs).clk = s.clk := ⟨rfl, rfl, rfl⟩

theorem State.readBytes_hole (s : State) (pa n k : Nat) : (s.readBytes pa n k).2.hole = s.hole := by
  unfold State.readBytes; split <;> rfl

/-! ### Atomics -/

/-- A property of states that every step of a fold keeps. -/
theorem foldl_keeps {α β : Type} {P : β → Prop} {f : β → α → β} (h : ∀ b a, P b → P (f b a)) (xs : List α) (b : β)
    (hb : P b) : P (xs.foldl f b) := by
  induction xs generalizing b with
  | nil => exact hb
  | cons x xs ih => exact ih _ (h b x hb)

/-- A read-modify-write leaves the teams, the time and the flag of reserved addresses alone. -/
theorem State.rmw_same (s : State) (core ctx : Nat) (t : Ty) (op : AtOp) (m : RMode) (ftz : Bool) (r : Rmw) :
    (s.rmw core ctx t op m ftz r).2.hole = s.hole ∧ (s.rmw core ctx t op m ftz r).2.teams = s.teams ∧
    (s.rmw core ctx t op m ftz r).2.clk = s.clk := by
  unfold State.rmw
  dsimp only
  split
  · refine foldl_keeps (P := fun a : (List Byte × Half × Bool) × State =>
      a.2.hole = s.hole ∧ a.2.teams = s.teams ∧ a.2.clk = s.clk) ?_ _ _ ⟨rfl, rfl, rfl⟩
    intro a c h
    split
    · exact h
    · have := State.readBytes_aside a.2 (by assumption) c.len (pteKey (by assumption))
      exact ⟨(State.readBytes_hole ..).trans h.1, this.teams.trans h.2.1, this.clk.trans h.2.2⟩
    · exact h
  · refine foldl_keeps (P := fun u : State => u.hole = s.hole ∧ u.teams = s.teams ∧ u.clk = s.clk) ?_ _ _ ?_
    · intro u c h
      split
      · exact h
      · simpa using h
      · exact h
    · refine foldl_keeps (P := fun a : (List Byte × Half × Bool) × State =>
        a.2.hole = s.hole ∧ a.2.teams = s.teams ∧ a.2.clk = s.clk) ?_ _ _ ⟨rfl, rfl, rfl⟩
      intro a c h
      split
      · exact h
      · have := State.readBytes_aside a.2 (by assumption) c.len (pteKey (by assumption))
        exact ⟨(State.readBytes_hole ..).trans h.1, this.teams.trans h.2.1, this.clk.trans h.2.2⟩
      · exact h

theorem State.doAtom_same (s : State) (core ctx : Nat) (t : Ty) (op : AtOp) (m : RndSel) (ftz : Bool) (d : Option Opnd)
    (rs : List Rmw) : (s.doAtom core ctx t op m ftz d rs).2.2.hole = s.hole ∧
    (s.doAtom core ctx t op m ftz d rs).2.2.teams = s.teams ∧ (s.doAtom core ctx t op m ftz d rs).2.2.clk = s.clk := by
  unfold State.doAtom
  dsimp only
  refine foldl_keeps (P := fun a : List (Nat × El) × Bool × State => a.2.2.hole = s.hole ∧ a.2.2.teams = s.teams ∧ a.2.2.clk = s.clk)
    ?_ rs ([], false, s) ⟨rfl, rfl, rfl⟩
  intro a r h
  dsimp only
  obtain ⟨g1, g2, g3⟩ := a.2.2.rmw_same core ctx t op (namedMode m) ftz r
  exact ⟨g1.trans h.1, g2.trans h.2.1, g3.trans h.2.2⟩

/-- `atom` on places that all translate. -/
theorem X.atomGo_ok {x : X} {s s1 : State} {g : AtArg} {ls : List AtLane} {accs : List Acc} (hst : x.st = none)
    (hr : s.resolveAll x.tm true false [] (ls.map (fun l => (l.lane, l.addr, l.addr, g.ty.bytes))) = (.ok accs, s1)) :
    x.atomGo s g ls = x.atomOp s1 g ls ((ls.zip accs).map (fun p => p.1.rmw p.2.chunks)) := by
  unfold X.atomGo
  dsimp only
  rw [X.fateTrap_new _ _ hst, hr]

/-- `red` on places that all translate. -/
theorem X.redGo_ok {x : X} {s s1 : State} {g : AtArg} {ls : List AtLane} {cs : List (AtLane × List Chunk)} (hst : x.st = none)
    (hls : cs.map Prod.fst = ls)
    (hr : s.resolveEach x.tm g.ty.bytes [] ls = (cs.map (fun c => (c.1, .ok c.2)), s1))
    (he : s1.scrEcc ((cs.map (fun c => c.1.rmw c.2)).flatMap (fun r => r.at_)) = none) :
    x.redGo s g ls = x.atomOp s1 g ls (cs.map (fun c => c.1.rmw c.2)) := by
  have hm : ∀ l ∈ ls, (cs.map (fun c => c.1.rmw c.2)).any (fun r => r.lane = l.lane) = true := by
    intro l hl
    rw [← hls, List.mem_map] at hl
    obtain ⟨c, hc, rfl⟩ := hl
    rw [List.any_eq_true]
    exact ⟨_, List.mem_map_of_mem hc, by simp [AtLane.rmw]⟩
  have hf : ls.filter (fun l => (cs.map (fun c => c.1.rmw c.2)).any (fun r => r.lane = l.lane)) = ls := by
    rw [List.filter_eq_self]; exact hm
  unfold X.redGo
  dsimp only
  rw [X.fateTrap_new _ _ hst, hr]
  dsimp only
  simp only [List.filterMap_map, Function.comp_def, List.filterMap_eq_map', List.filterMap_none, List.find?_nil, List.filter_nil,
    List.filterMap_nil, List.any_nil]
  unfold X.redSide
  simp only [List.foldl_nil, List.drop_nil, List.take_nil, List.flatMap_nil, List.isEmpty_nil, if_true, List.any_nil, Bool.or_false,
    he, Bool.false_eq_true, if_false]
  rw [hf, hf]

end Sys2Proof.Machine
end

