-- ==== Sys2Proof/Laws/Coding.lean ====
section
/-! SUPPORT. The word and its fields (R39), and each code with what it names: the pieces of decode and encode. -/

namespace Sys2Proof

/-- Splitting a joined word gives its fields. -/
theorem Fields.ofWord_toWord (f : Fields) : Fields.ofWord f.toWord = f := by
  cases f
  simp (disch := decide) only [Fields.ofWord, Fields.toWord, BitVec.extractLsb'_append_eq_of_le,
    BitVec.extractLsb'_append_eq_of_add_le]
  simp only [Nat.reduceSub, BitVec.extractLsb'_eq_self, Nat.sub_self]

/-- Decoding a joined word decodes its fields, unless its opcode is 0xFF. -/
theorem decode_toWord (cx : DecCtx) (f : Fields) (h : f.op ≠ 0xFF) : decode cx f.toWord = decodeFields cx f := by
  have : f.toWord ≠ BitVec.allOnes 96 := by
    intro e
    apply h
    have := Fields.ofWord_toWord f
    rw [e] at this
    rw [← this]
    rfl
  unfold decode
  rw [if_neg this, Fields.ofWord_toWord]

@[simp] theorem Opnd.ofCode_code (o : Opnd) : Opnd.ofCode o.code = some o := by
  cases o with
  | v n => revert n; decide +kernel
  | s n => revert n; decide +kernel
  | i n => revert n; decide +kernel
  | x r => cases r <;> first | rfl | (rename_i n; revert n; decide +kernel)

@[simp] theorem Ty.ofCode_code (t : Ty) : Ty.ofCode t.code = some t := by cases t <;> rfl
@[simp] theorem RndSel.ofCode_code (r : RndSel) : RndSel.ofCode r.code = some r := by cases r <;> rfl
@[simp] theorem GearSel.ofCode_code (g : GearSel) : GearSel.ofCode g.code = some g := by cases g <;> rfl

namespace Fields

/-- The guard and scheduling fields read back (R47, R55). -/
@[simp] theorem hdr_enc (h : Hdr) (op : BitVec 8) (v : BitVec 4) (t : BitVec 4) (d a b : BitVec 10) (r g : BitVec 3)
    (n : BitVec 20) : Fields.hdr ⟨op, v, t, BitVec.ofBool h.g.neg ++ h.g.p, d, a, b, r, g, n, h.sc.stall,
      BitVec.ofBool h.sc.post.isSome, h.sc.post.getD 0#5, BitVec.ofBool h.sc.wait.isSome,
      (Option.map Prod.fst h.sc.wait).getD 0#5, (Option.map Prod.snd h.sc.wait).getD 0#4⟩ = .ok h := by
  rcases h with ⟨⟨neg, p⟩, ⟨st, po, wa⟩⟩
  have e : ∀ (n : Bool) (p : BitVec 3), (BitVec.ofBool n ++ p)[3] = n ∧ (BitVec.ofBool n ++ p).setWidth 3 = p := by decide
  cases po <;> rcases wa with _ | ⟨a, b⟩ <;> simp [Fields.hdr, need, bind, Except.bind, e]

@[simp] theorem fld_code (e : DecErr) (o : Opnd) (p : Opnd → Bool) (h : p o = true) : fld e o.code p = .ok o := by
  simp [fld, h]
@[simp] theorem pred_pF (e : DecErr) (n : BitVec 3) : pred e (pF n) = .ok n := by simp [pred, pF]
@[simp] theorem tok_kF (e : DecErr) (n : BitVec 5) : tok e (kF n) = .ok n := by simp [tok, kF]
@[simp] theorem tdF_tdC (e : DecErr) (n : BitVec 4) : tdF e (tdC n) = .ok n := by simp [tdF, tdC]
@[simp] theorem tileF_aC (e : DecErr) (n : BitVec 4) : tileF e (aC n) = .ok n := by simp [tileF, aC]
@[simp] theorem mop_code (e : DecErr) (m : MOp) : mop e m.code = .ok m := by cases m <;> simp [mop, MOp.code, tdC, aC]
@[simp] theorem vreg_code (e : DecErr) (n : BitVec 8) (p : BitVec 8 → Bool) (h : p n = true) :
    vreg e (Opnd.code (.v n)) p = .ok n := by simp [vreg, h]
@[simp] theorem inl_code (e : DecErr) (n : BitVec 8) (p : BitVec 8 → Bool) (h : p n = true) :
    inl e (Opnd.code (.i n)) p = .ok n := by simp [inl, h]

end Fields

end Sys2Proof
end

