-- ==== Sys2Proof/Laws/Forms.lean ====
section
/-! SUPPORT. The register instructions of `formOf` share one shape of meaning. -/

namespace Sys2Proof.Machine

/-- The meaning of an instruction of `formOf` is an answer to the shared checks of issue. -/
theorem formOf_instr {i : Instr} {h : Hdr} {c : Cls} {ps : List Port} (hf : formOf i = some (h, c, ps)) :
    ∃ body, ∀ s, exec i s = instr i h c ps body s := by
  cases i <;> simp only [formOf, reduceCtorEq, Option.some.injEq, Prod.mk.injEq] at hf <;>
    (obtain ⟨rfl, rfl, rfl⟩ := hf; exact ⟨_, fun s => rfl⟩)

/-- Of a fragment that nothing holds, an instruction starts with the shared checks. -/
theorem State.issue_new {s : State} {a : At} (r : Live0 s a) (i : Instr) (h : Hdr) (c : Cls) (ps : List Port)
    (always tk : Bool) (body : X → State → Res) : s.issue i h c ps always tk body =
      State.issueNew { s with cur := none } i { t := a.t, f := a.f, late := a.late, tm := a.tm, rd := a.tm, p := a.path
                                                h := h, e := a.mask h, st := none } c ps always tk body := by
  unfold State.issue
  simp only [r.cur]
  simp only [r.team, r.runs, Bool.not_true, Bool.false_or, show State.stopped { s with cur := none } a.tm = false from r.go,
    Bool.false_eq_true, if_false]
  have := r.free
  unfold At.path at this
  rw [this]
  rfl

end Sys2Proof.Machine
end

