-- ==== Sys2Proof/Laws/Land.lean ====
section
/-! SUPPORT. What landing does to a team (R104, R106, R114): registers, predicates, EXM, tokens, and nothing else. -/

namespace Sys2Proof.Machine

/-- A team after writes and posts have landed in it. -/
def Landed (tm tm' : Team) : Prop :=
  tm' = { tm with v := tm'.v, s := tm'.s, p := tm'.p, tokN := tm'.tokN, tokT := tm'.tokT, pend := tm'.pend
                  corrupt := tm'.corrupt
                  p0 := { tm.p0 with exm := tm'.p0.exm, spin := tm'.p0.spin, claim := tm'.p0.claim }
                  p1 := { tm.p1 with exm := tm'.p1.exm, spin := tm'.p1.spin, claim := tm'.p1.claim } }

theorem Landed.refl (tm : Team) : Landed tm tm := rfl

theorem Landed.trans {a b c : Team} (h : Landed a b) (k : Landed b c) : Landed a c := by
  unfold Landed at h k ⊢
  rw [k, h]

theorem Landed.apply (tm : Team) (pid : Nat) (u : Upd) : Landed tm (tm.apply pid u) := by
  cases u with
  | vec r ls => rfl
  | sca r x b => rfl
  | prd p m t d =>
    unfold Team.apply
    dsimp only
    split <;> rfl
  | exm v =>
    unfold Landed Team.apply
    dsimp only
    rw [Team.mk.injEq]
    simp only [true_and, and_true]
    constructor <;> split <;> (try split) <;> rfl

theorem Landed.unspin (tm : Team) (pid : Nat) : Landed tm (tm.unspin pid) := by
  unfold Landed Team.unspin
  rw [Team.mk.injEq]
  simp only [true_and, and_true]
  constructor <;> split <;> rfl

theorem Landed.clash (tm : Team) (ks : List Nat) : Landed tm (tm.clash ks) := by
  unfold Landed Team.clash Path.clash
  rw [Team.mk.injEq]
  simp only [true_and, and_true]
  constructor <;> split <;> rfl

theorem Landed.setTok (tm : Team) (b : Bank) (k : Nat) (t : Token) : Landed tm (tm.setTok b k t) := by
  cases b <;> rfl

/-- A landed write changes its team as `Landed` says. -/
theorem State.landUpd_landed (s : State) (t pid : Nat) (u : Upd) (tm : Team) (ht : tget s.teams t = some tm) :
    ∃ tm', tget (s.landUpd t pid u).teams t = some tm' ∧ Landed tm tm' := by
  rw [State.landUpd_eq]
  simp only [tget_tmod_self, ht, Option.map_some]
  refine ⟨_, rfl, ?_⟩
  have h1 := Landed.apply tm pid u
  have h2 : Landed (tm.apply pid u) { tm.apply pid u with corrupt := tm.corrupt.filter (fun c => !u.mends c) } := rfl
  refine Landed.trans ?_ (Landed.clash _ _)
  split
  · exact (h1.trans h2).trans (Landed.unspin _ pid)
  · exact h1.trans h2

theorem State.land_landed (s : State) (t : Nat) (p : Pend) (tm : Team) (ht : tget s.teams t = some tm) :
    ∃ tm', tget (s.land t p).teams t = some tm' ∧ Landed tm tm' := by
  unfold State.land
  split
  · exact s.landUpd_landed t p.pid _ tm ht
  all_goals
    rw [State.modTeam_teams, tget_tmod_self, ht]
    refine ⟨_, rfl, ?_⟩
    first
      | exact Landed.setTok ..
      | (dsimp only [Option.map_some]; rename_i b _ _ _; cases b <;> rfl)

theorem State.lands_landed (t : Nat) (ps : List Pend) : ∀ (s : State) (tm : Team), tget s.teams t = some tm →
    ∃ tm', tget (ps.foldl (fun s p => s.land t p) s).teams t = some tm' ∧ Landed tm tm' := by
  induction ps with
  | nil => exact fun s tm ht => ⟨tm, ht, Landed.refl tm⟩
  | cons p ps ih =>
    intro s tm ht
    obtain ⟨tm1, h1, l1⟩ := s.land_landed t p tm ht
    obtain ⟨tm2, h2, l2⟩ := ih _ _ h1
    exact ⟨tm2, h2, l1.trans l2⟩

theorem State.landPosts_landed (t : Nat) (ps : List Pend) : ∀ (ds : List (Bank × Nat × Nat)) (s : State) (tm : Team),
    tget s.teams t = some tm → ∃ tm', tget (s.landPosts t ds ps).teams t = some tm' ∧ Landed tm tm' := by
  induction ps with
  | nil => intro ds s tm ht; exact ⟨tm, ht, Landed.refl tm⟩
  | cons p ps ih =>
    intro ds s tm ht
    unfold State.landPosts
    split
    · rename_i b k e he
      split
      · obtain ⟨tm2, h2, l2⟩ := ih (ds.map (fun d => if d.1 = b ∧ d.2.1 = k then (d.1, d.2.1, d.2.2 - 1) else d))
          (s.modTeam t (fun tm => tm.setTok b k ((tm.tok b k).mark e))) _ (by rw [State.modTeam_teams, tget_tmod_self, ht]; rfl)
        exact ⟨tm2, h2, (Landed.setTok ..).trans l2⟩
      · obtain ⟨tm1, h1, l1⟩ := s.land_landed t p tm ht
        obtain ⟨tm2, h2, l2⟩ := ih ds _ _ h1
        exact ⟨tm2, h2, l1.trans l2⟩
    · obtain ⟨tm1, h1, l1⟩ := s.land_landed t p tm ht
      obtain ⟨tm2, h2, l2⟩ := ih ds _ _ h1
      exact ⟨tm2, h2, l1.trans l2⟩

theorem State.landDue_landed (s : State) (t n : Nat) (tm : Team) (ht : tget s.teams t = some tm) :
    ∃ tm', tget (s.landDue t n).teams t = some tm' ∧ Landed tm tm' := by
  unfold State.landDue
  simp only [ht]
  obtain ⟨tm1, h1, l1⟩ := State.lands_landed t ((tm.pend.filter (fun p => p.due ≤ n)).filter Pend.isTok)
    (s.modTeam t (fun tm => { tm with pend := tm.pend.filter (fun p => n < p.due) })) _
    (by rw [State.modTeam_teams, tget_tmod_self, ht]; rfl)
  obtain ⟨tm2, h2, l2⟩ := State.landPosts_landed t ((tm.pend.filter (fun p => p.due ≤ n)).filter (fun p => !p.isTok))
    (tm.debts ((tm.pend.filter (fun p => p.due ≤ n)).filter Pend.isTok)) _ _ h1
  exact ⟨tm2, h2, Landed.trans (b := { tm with pend := tm.pend.filter (fun p => n < p.due) }) rfl (l1.trans l2)⟩

/-- Everything in flight of a team has landed. -/
theorem State.drain_landed (s : State) (t : Nat) (tm : Team) (ht : tget s.teams t = some tm) :
    ∃ tm', tget (s.drain t).teams t = some tm' ∧ Landed tm tm' := by
  unfold State.drain
  generalize List.range 17 = js
  generalize hc : s.clk = c
  clear hc
  induction js generalizing s tm with
  | nil => exact ⟨tm, ht, Landed.refl tm⟩
  | cons j js ih =>
    rw [List.foldl_cons]
    obtain ⟨tm1, h1, l1⟩ := s.landDue_landed t (s.clk + j) tm ht
    obtain ⟨tm2, h2, l2⟩ := ih (s.landDue t (s.clk + j)) tm1 h1
    exact ⟨tm2, h2, l1.trans l2⟩

/-- The state beside the teams and the marks of the operations. -/
def Landing (s t : State) : Prop := t = { s with teams := t.teams, ops := t.ops }

theorem Landing.refl (s : State) : Landing s s := rfl
theorem Landing.trans {a b c : State} (h : Landing a b) (k : Landing b c) : Landing a c := by
  unfold Landing at h k ⊢
  rw [k, h]

theorem State.land_landing (s : State) (t : Nat) (p : Pend) : Landing s (s.land t p) := by
  unfold State.land
  split
  · rw [State.landUpd_eq]; rfl
  all_goals rfl

theorem State.lands_landing (t : Nat) (ps : List Pend) : ∀ (s : State), Landing s (ps.foldl (fun s p => s.land t p) s) := by
  induction ps with
  | nil => exact fun s => rfl
  | cons p ps ih => exact fun s => (s.land_landing t p).trans (ih _)

theorem State.landPosts_landing (t : Nat) (ps : List Pend) : ∀ (ds : List (Bank × Nat × Nat)) (s : State),
    Landing s (s.landPosts t ds ps) := by
  induction ps with
  | nil => intro ds s; rfl
  | cons p ps ih =>
    intro ds s
    unfold State.landPosts
    split
    · split
      · exact Landing.trans (b := s.modTeam t _) rfl (ih _ _)
      · exact (s.land_landing t p).trans (ih _ _)
    · exact (s.land_landing t p).trans (ih _ _)

theorem State.landDue_landing (s : State) (t n : Nat) : Landing s (s.landDue t n) := by
  unfold State.landDue
  split
  · rfl
  · dsimp only
    exact Landing.trans (b := s.modTeam t _) rfl ((State.lands_landing t _ _).trans (State.landPosts_landing t _ _ _))

theorem State.drain_landing (s : State) (t : Nat) : Landing s (s.drain t) := by
  unfold State.drain
  generalize List.range 17 = js
  induction js generalizing s with
  | nil => rfl
  | cons j js ih =>
    rw [List.foldl_cons]
    exact (s.landDue_landing t (s.clk + j)).trans (ih _)

end Sys2Proof.Machine
end

