-- ==== Sys2Proof/Laws/PerInstr.lean ====
section
/-! SUPPORT. Laws stated per constructor of `Instr`: a program instruction has a word, one of the machine's other steps
has none. -/

namespace Sys2Proof.Laws.Coded

/-- The constructor stands for a word of a program. -/
def isProgram : Instr → Bool
  | .dlyExpiry .. => false
  | .stallExpiry .. => false
  | .rjoinTimeoutExpiry .. => false
  | .yieldReactivation .. => false
  | .waitcSatisfied .. => false
  | .waitcTimeoutExpiry .. => false
  | .loadHoldTimeout .. => false
  | .tokenCompletion .. => false
  | .copyCommandComplete .. => false
  | .dczBlock .. => false
  | .matrixCommandAccept .. => false
  | .matrixCommandExecute .. => false
  | .leaseGrant .. => false
  | .tileSpill .. => false
  | .sideLogReplay .. => false
  | .txchTimeout .. => false
  | .collContribution .. => false
  | .collTimerExpiry .. => false
  | .collResult .. => false
  | .swapRequestStart => false
  | .layerArrivalComplete .. => false
  | .layerArrivalFailure .. => false
  | .residencyWordWrite .. => false
  | .mdescWriteEnable .. => false
  | .mdescWriteDisable .. => false
  | .trapEntry .. => false
  | .hrespRelease .. => false
  | .hrespDiscard .. => false
  | .frespRetry .. => false
  | .frespDecline .. => false
  | .faultAnswerTimeout .. => false
  | .queueNotify .. => false
  | .qstatHltClear .. => false
  | .launchPacketStart .. => false
  | .waitPacketStart .. => false
  | .waitPacketEnd .. => false
  | .waitPacketTimeout .. => false
  | .signalPacketStart .. => false
  | .ckptPacketStart .. => false
  | .groupPlacement .. => false
  | .intervalOpen .. => false
  | .uncorrectableError .. => false
  | .rollback .. => false
  | .rbcfgEnable .. => false
  | .shadowSwap .. => false
  | .swapBankActivate .. => false
  | .shadowSpill .. => false
  | .shadowFill .. => false
  | .spillFillComplete .. => false
  | .mxcfgClre .. => false
  | .correctedError .. => false
  | .spareTakeover .. => false
  | .patrolScrub .. => false
  | .flitReplay .. => false
  | .rimFrameReceive .. => false
  | .rimFrameResend .. => false
  | .rimGiveup .. => false
  | .rimPortDown .. => false
  | .rimPortUp .. => false
  | .peerRequest .. => false
  | .riminjArm .. => false
  | .sessionSetup .. => false
  | .sessionSetupComplete .. => false
  | .sessionTeardown .. => false
  | .sessionRekey .. => false
  | .hostWrite .. => false
  | .hostSnoop .. => false
  | .cxlPoison .. => false
  | .cxlLinkDown .. => false
  | .spdmPskExchange => false
  | .spdmKeyLoad .. => false
  | .spdmKeyErase .. => false
  | .spdmChallenge => false
  | .spdmMeasurements => false
  | .coldReset .. => false
  | .warmReset .. => false
  | .brcfgLock .. => false
  | .stkpwrVrstSet .. => false
  | .stkpwrVrstClear .. => false
  | .vrdyReady .. => false
  | .powerWindow .. => false
  | .configRegisterWrite .. => false
  | .modulePowerOff => false
  | _ => true

/-- Program instructions, and only they, have a word. -/
def Statement (i : Instr) : Prop := (encode i).isSome = isProgram i

theorem nop (h : Hdr) : Statement (.nop h) := rfl
theorem dly (h : Hdr) (n : BitVec 19) : Statement (.dly h n) := rfl
theorem bra (h : Hdr) (disp : BitVec 20) : Statement (.bra h disp) := rfl
theorem brx (h : Hdr) (a : Opnd) : Statement (.brx h a) := rfl
theorem call (h : Hdr) (disp : BitVec 20) : Statement (.call h disp) := rfl
theorem calx (h : Hdr) (a : Opnd) : Statement (.calx h a) := rfl
theorem ret (h : Hdr) : Statement (.ret h) := rfl
theorem exit (h : Hdr) : Statement (.exit h) := rfl
theorem rcv (h : Hdr) (disp : BitVec 20) : Statement (.rcv h disp) := rfl
theorem rjoin (h : Hdr) : Statement (.rjoin h) := rfl
theorem rjoinTo (h : Hdr) (d : BitVec 3) (a : Opnd) : Statement (.rjoinTo h d a) := rfl
theorem exmRd (h : Hdr) (d : Opnd) (w : BitVec 8) : Statement (.exmRd h d w) := rfl
theorem exmWr (h : Hdr) (a : Opnd) : Statement (.exmWr h a) := rfl
theorem exmAnd (h : Hdr) (a : Opnd) : Statement (.exmAnd h a) := rfl
theorem exmOr (h : Hdr) (a : Opnd) : Statement (.exmOr h a) := rfl
theorem yield (h : Hdr) (a : Opnd) (n : BitVec 2) (disp : BitVec 20) : Statement (.yield h a n disp) := rfl
theorem waitcAny (h : Hdr) (d : Option (BitVec 3)) (a : Opnd) (b : Opnd) (n : BitVec 2) : Statement (.waitcAny h d a b n) := rfl
theorem waitcAll (h : Hdr) (d : Option (BitVec 3)) (a : Opnd) (b : Opnd) (n : BitVec 2) : Statement (.waitcAll h d a b n) := rfl
theorem kwait (h : Hdr) (k : BitVec 5) (thr : BitVec 8) (normal : Bool) : Statement (.kwait h k thr normal) := rfl
theorem kset (h : Hdr) (k : BitVec 5) (val : BitVec 8) (normal : Bool) : Statement (.kset h k val normal) := rfl
theorem krd (h : Hdr) (d : Opnd) (k : BitVec 5) (b : Opnd) : Statement (.krd h d k b) := rfl
theorem kadd (h : Hdr) (k : BitVec 5) (delta : BitVec 8) (normal : Bool) : Statement (.kadd h k delta normal) := rfl
theorem barInit (h : Hdr) (a : Opnd) (b : Opnd) : Statement (.barInit h a b) := rfl
theorem barArv (h : Hdr) (scope : Scope) (a : Opnd) (wait : Bool) : Statement (.barArv h scope a wait) := rfl
theorem barExp (h : Hdr) (a : Opnd) (b : Opnd) : Statement (.barExp h a b) := rfl
theorem barRd (h : Hdr) (d : Opnd) (a : Opnd) (sel : BitVec 8) : Statement (.barRd h d a sel) := rfl
theorem tlRd (h : Hdr) (d : Opnd) (a : Opnd) (sel : BitVec 8) : Statement (.tlRd h d a sel) := rfl
theorem tlSig (h : Hdr) (scope : Scope) (a : Opnd) (b : Opnd) (add : Bool) : Statement (.tlSig h scope a b add) := rfl
theorem fence (h : Hdr) (scope : Scope) (ord : Ord) : Statement (.fence h scope ord) := rfl
theorem add (h : Hdr) (ty : Ty) (sat : Bool) (d : Opnd) (a : Opnd) (b : Opnd) : Statement (.add h ty sat d a b) := rfl
theorem sub (h : Hdr) (ty : Ty) (sat : Bool) (d : Opnd) (a : Opnd) (b : Opnd) : Statement (.sub h ty sat d a b) := rfl
theorem mul (h : Hdr) (ty : Ty) (d : Opnd) (a : Opnd) (b : Opnd) : Statement (.mul h ty d a b) := rfl
theorem mulh (h : Hdr) (ty : Ty) (d : Opnd) (a : Opnd) (b : Opnd) : Statement (.mulh h ty d a b) := rfl
theorem mad (h : Hdr) (ty : Ty) (sat : Bool) (d : Opnd) (a : Opnd) (b : Opnd) (c : Opnd) : Statement (.mad h ty sat d a b c) := rfl
theorem madh (h : Hdr) (ty : Ty) (d : Opnd) (a : Opnd) (b : Opnd) (c : Opnd) : Statement (.madh h ty d a b c) := rfl
theorem div (h : Hdr) (ty : Ty) (d : Opnd) (a : Opnd) (b : Opnd) : Statement (.div h ty d a b) := rfl
theorem rem (h : Hdr) (ty : Ty) (d : Opnd) (a : Opnd) (b : Opnd) : Statement (.rem h ty d a b) := rfl
theorem min (h : Hdr) (ty : Ty) (d : Opnd) (a : Opnd) (b : Opnd) : Statement (.min h ty d a b) := rfl
theorem max (h : Hdr) (ty : Ty) (d : Opnd) (a : Opnd) (b : Opnd) : Statement (.max h ty d a b) := rfl
theorem abs (h : Hdr) (ty : Ty) (sat : Bool) (d : Opnd) (a : Opnd) : Statement (.abs h ty sat d a) := rfl
theorem neg (h : Hdr) (ty : Ty) (sat : Bool) (d : Opnd) (a : Opnd) : Statement (.neg h ty sat d a) := rfl
theorem and (h : Hdr) (ty : Ty) (d : Opnd) (a : Opnd) (b : Opnd) : Statement (.and h ty d a b) := rfl
theorem or (h : Hdr) (ty : Ty) (d : Opnd) (a : Opnd) (b : Opnd) : Statement (.or h ty d a b) := rfl
theorem xor (h : Hdr) (ty : Ty) (d : Opnd) (a : Opnd) (b : Opnd) : Statement (.xor h ty d a b) := rfl
theorem not (h : Hdr) (ty : Ty) (d : Opnd) (a : Opnd) : Statement (.not h ty d a) := rfl
theorem andn (h : Hdr) (ty : Ty) (d : Opnd) (a : Opnd) (b : Opnd) : Statement (.andn h ty d a b) := rfl
theorem shl (h : Hdr) (ty : Ty) (d : Opnd) (a : Opnd) (b : Opnd) : Statement (.shl h ty d a b) := rfl
theorem shr (h : Hdr) (ty : Ty) (d : Opnd) (a : Opnd) (b : Opnd) : Statement (.shr h ty d a b) := rfl
theorem sar (h : Hdr) (ty : Ty) (d : Opnd) (a : Opnd) (b : Opnd) : Statement (.sar h ty d a b) := rfl
theorem rol (h : Hdr) (ty : Ty) (d : Opnd) (a : Opnd) (b : Opnd) : Statement (.rol h ty d a b) := rfl
theorem fshL (h : Hdr) (ty : Ty) (d : Opnd) (a : Opnd) (b : Opnd) (c : Opnd) : Statement (.fshL h ty d a b c) := rfl
theorem fshR (h : Hdr) (ty : Ty) (d : Opnd) (a : Opnd) (b : Opnd) (c : Opnd) : Statement (.fshR h ty d a b c) := rfl
theorem popc (h : Hdr) (ty : Ty) (d : Opnd) (a : Opnd) : Statement (.popc h ty d a) := rfl
theorem clz (h : Hdr) (ty : Ty) (d : Opnd) (a : Opnd) : Statement (.clz h ty d a) := rfl
theorem ctz (h : Hdr) (ty : Ty) (d : Opnd) (a : Opnd) : Statement (.ctz h ty d a) := rfl
theorem brev (h : Hdr) (ty : Ty) (d : Opnd) (a : Opnd) : Statement (.brev h ty d a) := rfl
theorem bfx (h : Hdr) (ty : Ty) (d : Opnd) (a : Opnd) (b : Opnd) (c : Opnd) : Statement (.bfx h ty d a b c) := rfl
theorem bfi (h : Hdr) (ty : Ty) (d : Opnd) (a : Opnd) (b : Opnd) (c : Opnd) : Statement (.bfi h ty d a b c) := rfl
theorem setp (h : Hdr) (ty : Ty) (c : Cmp) (d : BitVec 3) (a : Opnd) (b : Opnd) : Statement (.setp h ty c d a b) := rfl
theorem sel (h : Hdr) (ty : Ty) (d : Opnd) (a : Opnd) (b : Opnd) (p : BitVec 3) : Statement (.sel h ty d a b p) := rfl
theorem mov (h : Hdr) (ty : Ty) (d : Opnd) (a : Opnd) : Statement (.mov h ty d a) := rfl
theorem movi (h : Hdr) (ty : Ty) (d : Opnd) (imm : BitVec 20) : Statement (.movi h ty d imm) := rfl
theorem movh (h : Hdr) (d : Opnd) (imm : BitVec 16) : Statement (.movh h d imm) := rfl
theorem lea (h : Hdr) (sh : BitVec 2) (d : Opnd) (a : Opnd) (b : Opnd) : Statement (.lea h sh d a b) := rfl
theorem fadd (h : Hdr) (ty : Ty) (r : RndSel) (d : Opnd) (a : Opnd) (b : Opnd) : Statement (.fadd h ty r d a b) := rfl
theorem fsub (h : Hdr) (ty : Ty) (r : RndSel) (d : Opnd) (a : Opnd) (b : Opnd) : Statement (.fsub h ty r d a b) := rfl
theorem fmul (h : Hdr) (ty : Ty) (r : RndSel) (g : GearSel) (d : Opnd) (a : Opnd) (b : Opnd) : Statement (.fmul h ty r g d a b) := rfl
theorem ffma (h : Hdr) (ty : Ty) (r : RndSel) (g : GearSel) (d : Opnd) (a : Opnd) (b : Opnd) (c : Opnd) : Statement (.ffma h ty r g d a b c) := rfl
theorem fmin (h : Hdr) (ty : Ty) (nan : Bool) (d : Opnd) (a : Opnd) (b : Opnd) : Statement (.fmin h ty nan d a b) := rfl
theorem fmax (h : Hdr) (ty : Ty) (nan : Bool) (d : Opnd) (a : Opnd) (b : Opnd) : Statement (.fmax h ty nan d a b) := rfl
theorem fabs (h : Hdr) (ty : Ty) (d : Opnd) (a : Opnd) : Statement (.fabs h ty d a) := rfl
theorem fneg (h : Hdr) (ty : Ty) (d : Opnd) (a : Opnd) : Statement (.fneg h ty d a) := rfl
theorem fsetp (h : Hdr) (ty : Ty) (c : FCmp) (d : BitVec 3) (a : Opnd) (b : Opnd) : Statement (.fsetp h ty c d a b) := rfl
theorem frcp (h : Hdr) (ty : Ty) (d : Opnd) (a : Opnd) : Statement (.frcp h ty d a) := rfl
theorem frsq (h : Hdr) (ty : Ty) (d : Opnd) (a : Opnd) : Statement (.frsq h ty d a) := rfl
theorem fsqrt (h : Hdr) (ty : Ty) (r : RndSel) (d : Opnd) (a : Opnd) : Statement (.fsqrt h ty r d a) := rfl
theorem fdiv (h : Hdr) (ty : Ty) (r : RndSel) (d : Opnd) (a : Opnd) (b : Opnd) : Statement (.fdiv h ty r d a b) := rfl
theorem fexp2 (h : Hdr) (d : Opnd) (a : Opnd) : Statement (.fexp2 h d a) := rfl
theorem flog2 (h : Hdr) (d : Opnd) (a : Opnd) : Statement (.flog2 h d a) := rfl
theorem fsin (h : Hdr) (d : Opnd) (a : Opnd) : Statement (.fsin h d a) := rfl
theorem fcos (h : Hdr) (d : Opnd) (a : Opnd) : Statement (.fcos h d a) := rfl
theorem ftanh (h : Hdr) (d : Opnd) (a : Opnd) : Statement (.ftanh h d a) := rfl
theorem fscl (h : Hdr) (ty : Ty) (r : RndSel) (d : Opnd) (a : Opnd) (b : Opnd) : Statement (.fscl h ty r d a b) := rfl
theorem fxpn (h : Hdr) (ty : Ty) (d : Opnd) (a : Opnd) : Statement (.fxpn h ty d a) := rfl
theorem frnd (h : Hdr) (ty : Ty) (r : RndSel) (d : Opnd) (a : Opnd) : Statement (.frnd h ty r d a) := rfl
theorem fclass (h : Hdr) (ty : Ty) (d : Opnd) (a : Opnd) : Statement (.fclass h ty d a) := rfl
theorem fdot2 (h : Hdr) (ty : Ty) (r : RndSel) (g : GearSel) (d : Opnd) (a : Opnd) (b : Opnd) (c : Opnd) : Statement (.fdot2 h ty r g d a b c) := rfl
theorem fdot4 (h : Hdr) (ty : Ty) (r : RndSel) (g : GearSel) (d : Opnd) (a : Opnd) (b : Opnd) (c : Opnd) : Statement (.fdot4 h ty r g d a b c) := rfl
theorem cvt (h : Hdr) (ty : Ty) (src : Ty) (r : RndSel) (d : Opnd) (a : Opnd) : Statement (.cvt h ty src r d a) := rfl
theorem pack (h : Hdr) (ty : Ty) (q : BitVec 3) (d : Opnd) (a : Opnd) : Statement (.pack h ty q d a) := rfl
theorem unpack (h : Hdr) (ty : Ty) (q : BitVec 3) (d : Opnd) (a : Opnd) : Statement (.unpack h ty q d a) := rfl
theorem shfl (h : Hdr) (ty : Ty) (m : ShflMode) (d : Opnd) (a : Opnd) (b : Opnd) : Statement (.shfl h ty m d a b) := rfl
theorem vote (h : Hdr) (m : VoteMode) (d : Opnd) (a : BitVec 3) : Statement (.vote h m d a) := rfl
theorem wred (h : Hdr) (ty : Ty) (op : RedOp) (r : RndSel) (d : Opnd) (a : Opnd) : Statement (.wred h ty op r d a) := rfl
theorem wscan (h : Hdr) (ty : Ty) (op : RedOp) (excl : Bool) (r : RndSel) (d : Opnd) (a : Opnd) : Statement (.wscan h ty op excl r d a) := rfl
theorem rdlane (h : Hdr) (ty : Ty) (d : Opnd) (a : Opnd) (b : Opnd) : Statement (.rdlane h ty d a b) := rfl
theorem wrlane (h : Hdr) (ty : Ty) (d : Opnd) (a : Opnd) (b : Opnd) : Statement (.wrlane h ty d a b) := rfl
theorem matchL (h : Hdr) (ty : Ty) (all : Bool) (d : Opnd) (a : Opnd) : Statement (.matchL h ty all d a) := rfl
theorem plop (h : Hdr) (d : BitVec 3) (a : BitVec 3) (b : BitVec 3) (c : BitVec 3) (tt : BitVec 8) : Statement (.plop h d a b c tt) := rfl
theorem bget (h : Hdr) (d : Opnd) (a : Opnd) : Statement (.bget h d a) := rfl
theorem bset (h : Hdr) (set : Bool) (d : Opnd) (a : Opnd) : Statement (.bset h set d a) := rfl
theorem bchk (h : Hdr) (ty : Ty) (a : Opnd) : Statement (.bchk h ty a) := rfl
theorem budgSet (h : Hdr) (a : Opnd) : Statement (.budgSet h a) := rfl
theorem budgRd (h : Hdr) (d : Opnd) : Statement (.budgRd h d) := rfl
theorem taskB (h : Hdr) : Statement (.taskB h) := rfl
theorem taskE (h : Hdr) : Statement (.taskE h) := rfl
theorem taskX (h : Hdr) (retry : Bool) : Statement (.taskX h retry) := rfl
theorem ld (h : Hdr) (ty : Ty) (n : Cnt) (d : Opnd) (a : Opnd) (b : Opnd) (off : BitVec 20) : Statement (.ld h ty n d a b off) := rfl
theorem ldb (h : Hdr) (ty : Ty) (n : Cnt) (d : Opnd) (a : Opnd) (b : Opnd) (off : BitVec 20) : Statement (.ldb h ty n d a b off) := rfl
theorem ldp (h : Hdr) (ty : Ty) (d : Opnd) (a : Opnd) (b : Opnd) (off : BitVec 20) : Statement (.ldp h ty d a b off) := rfl
theorem ldc (h : Hdr) (ty : Ty) (n : Cnt) (d : Opnd) (a : Opnd) (b : Opnd) (off : BitVec 20) : Statement (.ldc h ty n d a b off) := rfl
theorem st (h : Hdr) (ty : Ty) (n : Cnt) (d : Opnd) (a : Opnd) (b : Opnd) (off : BitVec 20) : Statement (.st h ty n d a b off) := rfl
theorem stm (h : Hdr) (n : Cnt) (d : Opnd) (a : Opnd) (b : Opnd) (off : BitVec 20) : Statement (.stm h n d a b off) := rfl
theorem stc (h : Hdr) (ty : Ty) (d : Opnd) (a : Opnd) (b : Opnd) (off : BitVec 20) : Statement (.stc h ty d a b off) := rfl
theorem prefL2 (h : Hdr) (a : Opnd) (b : Opnd) (off : BitVec 20) : Statement (.prefL2 h a b off) := rfl
theorem prefL1 (h : Hdr) (a : Opnd) (b : Opnd) (off : BitVec 20) : Statement (.prefL1 h a b off) := rfl
theorem cinvLine (h : Hdr) (a : Opnd) (b : Opnd) (off : BitVec 20) : Statement (.cinvLine h a b off) := rfl
theorem cinvAll (h : Hdr) : Statement (.cinvAll h) := rfl
theorem cwbLine (h : Hdr) (a : Opnd) (b : Opnd) (off : BitVec 20) : Statement (.cwbLine h a b off) := rfl
theorem cwbAll (h : Hdr) : Statement (.cwbAll h) := rfl
theorem atom (h : Hdr) (ty : Ty) (op : AtOp) (r : RndSel) (scope : Scope) (ord : Ord) (d : Opnd) (a : Opnd) (b : Opnd) (c : Opnd) : Statement (.atom h ty op r scope ord d a b c) := rfl
theorem red (h : Hdr) (ty : Ty) (op : AtOp) (r : RndSel) (scope : Scope) (rel : Bool) (a : Opnd) (b : Opnd) : Statement (.red h ty op r scope rel a b) := rfl
theorem cpl (h : Hdr) (z : CplZ) (d : Opnd) (a : Opnd) (opt : BitVec 20) : Statement (.cpl h z d a opt) := rfl
theorem cpb (h : Hdr) (d : Opnd) (a : Opnd) (b : Opnd) (opt : BitVec 20) : Statement (.cpb h d a b opt) := rfl
theorem cpcCont (h : Hdr) (d : Opnd) (a : Opnd) (b : Opnd) (opt : BitVec 20) : Statement (.cpcCont h d a b opt) := rfl
theorem cpcLast (h : Hdr) (d : Opnd) (a : Opnd) (b : Opnd) (opt : BitVec 20) : Statement (.cpcLast h d a b opt) := rfl
theorem cpxPut (h : Hdr) (d : Opnd) (a : Opnd) (b : Opnd) (opt : BitVec 20) : Statement (.cpxPut h d a b opt) := rfl
theorem cpxGet (h : Hdr) (d : Opnd) (a : Opnd) (b : Opnd) (opt : BitVec 20) : Statement (.cpxGet h d a b opt) := rfl
theorem dcz (h : Hdr) (d : Opnd) (a : Opnd) : Statement (.dcz h d a) := rfl
theorem mtd (h : Hdr) (d : BitVec 4) (a : Opnd) (b : Opnd) : Statement (.mtd h d a b) := rfl
theorem msd (h : Hdr) (d : BitVec 4) (a : Opnd) (en : Bool) : Statement (.msd h d a en) := rfl
theorem mma (h : Hdr) (ty : Ty) (g : GearSel) (d : BitVec 4) (a : MOp) (b : MOp) (tA : BitVec 2) (tB : BitVec 2) : Statement (.mma h ty g d a b tA tB) := rfl
theorem mz (h : Hdr) (mask : BitVec 16) (rel : Bool) : Statement (.mz h mask rel) := rfl
theorem mrd (h : Hdr) (ty : Ty) (r : RndSel) (d : BitVec 8) (a : BitVec 4) (b : Opnd) (nm1 : BitVec 7) : Statement (.mrd h ty r d a b nm1) := rfl
theorem mwr (h : Hdr) (ty : Ty) (d : BitVec 4) (a : BitVec 8) (b : Opnd) (nm1 : BitVec 7) : Statement (.mwr h ty d a b nm1) := rfl
theorem mst (h : Hdr) (ty : Ty) (r : RndSel) (d : BitVec 4) (a : BitVec 4) : Statement (.mst h ty r d a) := rfl
theorem mstat (h : Hdr) (d : Opnd) (sel : BitVec 8) (b : Opnd) : Statement (.mstat h d sel b) := rfl
theorem lbind (h : Hdr) (a : Opnd) (b : Opnd) (rty : Bool) : Statement (.lbind h a b rty) := rfl
theorem lrel (h : Hdr) (a : Opnd) (b : Opnd) : Statement (.lrel h a b) := rfl
theorem lhint (h : Hdr) (a : Opnd) (b : Opnd) (nm1 : BitVec 8) : Statement (.lhint h a b nm1) := rfl
theorem lstat (h : Hdr) (d : Opnd) (a : Opnd) (b : Opnd) : Statement (.lstat h d a b) := rfl
theorem txch (h : Hdr) (d : BitVec 8) (a : Opnd) (b : Opnd) (nm1 : BitVec 4) : Statement (.txch h d a b nm1) := rfl
theorem collSum (h : Hdr) (ty : Ty) (a : Opnd) (b : Opnd) (cf : BitVec 2) : Statement (.collSum h ty a b cf) := rfl
theorem collMax (h : Hdr) (ty : Ty) (a : Opnd) (b : Opnd) : Statement (.collMax h ty a b) := rfl
theorem collGath (h : Hdr) (ty : Ty) (a : Opnd) (b : Opnd) : Statement (.collGath h ty a b) := rfl
theorem collBcst (h : Hdr) (ty : Ty) (a : Opnd) (b : Opnd) : Statement (.collBcst h ty a b) := rfl
theorem mfs (h : Hdr) (d : Opnd) (r : SysReg) : Statement (.mfs h d r) := rfl
theorem mts (h : Hdr) (r : SysReg) (a : Opnd) : Statement (.mts h r a) := rfl
theorem trap (h : Hdr) (imm : BitVec 20) : Statement (.trap h imm) := rfl
theorem rti (h : Hdr) : Statement (.rti h) := rfl
theorem brk (h : Hdr) (imm : BitVec 20) : Statement (.brk h imm) := rfl
theorem tinvPage (h : Hdr) (a : Opnd) (b : Opnd) : Statement (.tinvPage h a b) := rfl
theorem tinvCtx (h : Hdr) (b : Opnd) : Statement (.tinvCtx h b) := rfl
theorem tinvAll (h : Hdr) : Statement (.tinvAll h) := rfl
theorem ckpt (h : Hdr) (d : Option (BitVec 6)) : Statement (.ckpt h d) := rfl
theorem dlyExpiry (team : Nat) (f : Bool) : Statement (.dlyExpiry team f) := rfl
theorem stallExpiry (team : Nat) (f : Bool) : Statement (.stallExpiry team f) := rfl
theorem rjoinTimeoutExpiry (team : Nat) (f : Bool) : Statement (.rjoinTimeoutExpiry team f) := rfl
theorem yieldReactivation (team : Nat) (f : Bool) : Statement (.yieldReactivation team f) := rfl
theorem waitcSatisfied (team : Nat) (f : Bool) : Statement (.waitcSatisfied team f) := rfl
theorem waitcTimeoutExpiry (team : Nat) (f : Bool) : Statement (.waitcTimeoutExpiry team f) := rfl
theorem loadHoldTimeout (team : Nat) (f : Bool) : Statement (.loadHoldTimeout team f) := rfl
theorem tokenCompletion (op : Nat) : Statement (.tokenCompletion op) := rfl
theorem copyCommandComplete (group : Nat) (turn : CopyTurn) : Statement (.copyCommandComplete group turn) := rfl
theorem dczBlock (group : Nat) : Statement (.dczBlock group) := rfl
theorem matrixCommandAccept (core : Nat) : Statement (.matrixCommandAccept core) := rfl
theorem matrixCommandExecute (core : Nat) (mismatch : List (Nat × Nat)) : Statement (.matrixCommandExecute core mismatch) := rfl
theorem leaseGrant (core : Nat) : Statement (.leaseGrant core) := rfl
theorem tileSpill (core : Nat) : Statement (.tileSpill core) := rfl
theorem sideLogReplay (core : Nat) (entry : Nat) : Statement (.sideLogReplay core entry) := rfl
theorem txchTimeout (op : Nat) : Statement (.txchTimeout op) := rfl
theorem collContribution (session : Nat) (rank : Nat) (msg : CollMsg) : Statement (.collContribution session rank msg) := rfl
theorem collTimerExpiry (op : Nat) : Statement (.collTimerExpiry op) := rfl
theorem collResult (op : Nat) (cmask : Nat) (elems : List (BitVec 32)) : Statement (.collResult op cmask elems) := rfl
theorem swapRequestStart : Statement .swapRequestStart := rfl
theorem layerArrivalComplete (ctx : Nat) (layer : Nat) : Statement (.layerArrivalComplete ctx layer) := rfl
theorem layerArrivalFailure (ctx : Nat) (layer : Nat) (cause : Nat) : Statement (.layerArrivalFailure ctx layer cause) := rfl
theorem residencyWordWrite (ctx : Nat) (layer : Nat) (val : Dword) : Statement (.residencyWordWrite ctx layer val) := rfl
theorem mdescWriteEnable (ctx : Nat) (val : Dword) : Statement (.mdescWriteEnable ctx val) := rfl
theorem mdescWriteDisable (ctx : Nat) (val : Dword) : Statement (.mdescWriteDisable ctx val) := rfl
theorem trapEntry (team : Nat) : Statement (.trapEntry team) := rfl
theorem hrespRelease (hid : Nat) : Statement (.hrespRelease hid) := rfl
theorem hrespDiscard (hid : Nat) : Statement (.hrespDiscard hid) := rfl
theorem frespRetry (ctx : Nat) (va : Nat) : Statement (.frespRetry ctx va) := rfl
theorem frespDecline (ctx : Nat) (va : Nat) : Statement (.frespDecline ctx va) := rfl
theorem faultAnswerTimeout (ctx : Nat) (va : Nat) : Statement (.faultAnswerTimeout ctx va) := rfl
theorem queueNotify (q : Nat) (wi : Nat) : Statement (.queueNotify q wi) := rfl
theorem qstatHltClear (q : Nat) : Statement (.qstatHltClear q) := rfl
theorem launchPacketStart (q : Nat) : Statement (.launchPacketStart q) := rfl
theorem waitPacketStart (q : Nat) : Statement (.waitPacketStart q) := rfl
theorem waitPacketEnd (q : Nat) : Statement (.waitPacketEnd q) := rfl
theorem waitPacketTimeout (q : Nat) : Statement (.waitPacketTimeout q) := rfl
theorem signalPacketStart (q : Nat) : Statement (.signalPacketStart q) := rfl
theorem ckptPacketStart (q : Nat) : Statement (.ckptPacketStart q) := rfl
theorem groupPlacement (launch : Nat) : Statement (.groupPlacement launch) := rfl
theorem intervalOpen (ctx : Nat) : Statement (.intervalOpen ctx) := rfl
theorem uncorrectableError (ctx : Nat) (site : ErrSite) : Statement (.uncorrectableError ctx site) := rfl
theorem rollback (ctx : Nat) : Statement (.rollback ctx) := rfl
theorem rbcfgEnable (ctx : Nat) : Statement (.rbcfgEnable ctx) := rfl
theorem shadowSwap (core : Nat) : Statement (.shadowSwap core) := rfl
theorem swapBankActivate (core : Nat) : Statement (.swapBankActivate core) := rfl
theorem shadowSpill (core : Nat) : Statement (.shadowSpill core) := rfl
theorem shadowFill (core : Nat) : Statement (.shadowFill core) := rfl
theorem spillFillComplete (core : Nat) (crcOk : Bool) (faultFree : Bool) : Statement (.spillFillComplete core crcOk faultFree) := rfl
theorem mxcfgClre (core : Nat) (val : Dword) : Statement (.mxcfgClre core val) := rfl
theorem correctedError (unit : ErrUnit) (info : Nat) : Statement (.correctedError unit info) := rfl
theorem spareTakeover (core : Nat) : Statement (.spareTakeover core) := rfl
theorem patrolScrub (line : Nat) (bad : Bool) : Statement (.patrolScrub line bad) := rfl
theorem flitReplay (stack : Nat) (link : LinkEnd) : Statement (.flitReplay stack link) := rfl
theorem rimFrameReceive (session : Nat) (head : RimHead) (payload : RimPayload) : Statement (.rimFrameReceive session head payload) := rfl
theorem rimFrameResend (session : Nat) : Statement (.rimFrameResend session) := rfl
theorem rimGiveup (session : Nat) : Statement (.rimGiveup session) := rfl
theorem rimPortDown (port : Nat) : Statement (.rimPortDown port) := rfl
theorem rimPortUp (port : Nat) : Statement (.rimPortUp port) := rfl
theorem peerRequest (session : Nat) (req : PeerReq) : Statement (.peerRequest session req) := rfl
theorem riminjArm (val : Dword) : Statement (.riminjArm val) := rfl
theorem sessionSetup (session : Nat) (val : Dword) : Statement (.sessionSetup session val) := rfl
theorem sessionSetupComplete (session : Nat) (ok : Bool) : Statement (.sessionSetupComplete session ok) := rfl
theorem sessionTeardown (session : Nat) : Statement (.sessionTeardown session) := rfl
theorem sessionRekey (session : Nat) : Statement (.sessionRekey session) := rfl
theorem hostWrite (pa : Nat) (bytes : List Byte) : Statement (.hostWrite pa bytes) := rfl
theorem hostSnoop (pa : Nat) : Statement (.hostSnoop pa) := rfl
theorem cxlPoison (pa : Nat) (lines : Nat) : Statement (.cxlPoison pa lines) := rfl
theorem cxlLinkDown (drop : CxlDrop) : Statement (.cxlLinkDown drop) := rfl
theorem spdmPskExchange : Statement .spdmPskExchange := rfl
theorem spdmKeyLoad (key : Nat) : Statement (.spdmKeyLoad key) := rfl
theorem spdmKeyErase (key : Nat) : Statement (.spdmKeyErase key) := rfl
theorem spdmChallenge : Statement .spdmChallenge := rfl
theorem spdmMeasurements : Statement .spdmMeasurements := rfl
theorem coldReset (fwOk : Bool) (present : BitVec 8) (good : List (BitVec 17)) : Statement (.coldReset fwOk present good) := rfl
theorem warmReset (fwOk : Bool) : Statement (.warmReset fwOk) := rfl
theorem brcfgLock (size : BitVec 2) : Statement (.brcfgLock size) := rfl
theorem stkpwrVrstSet (stack : Nat) : Statement (.stkpwrVrstSet stack) := rfl
theorem stkpwrVrstClear (stack : Nat) : Statement (.stkpwrVrstClear stack) := rfl
theorem vrdyReady (stack : Nat) : Statement (.vrdyReady stack) := rfl
theorem powerWindow (pavg : Nat) (vcore : Nat) (fclk : Nat) : Statement (.powerWindow pavg vcore fclk) := rfl
theorem configRegisterWrite (off : Nat) (val : Dword) : Statement (.configRegisterWrite off val) := rfl
theorem modulePowerOff : Statement .modulePowerOff := rfl

end Sys2Proof.Laws.Coded
end

