-- ==== Sys2Proof/Tests/Slice0.lean ====
section
/-! SUPPORT. Tests of the model: words written out from the spec's encodings, ill-formed terms, the spec's worked
examples one step at a time, and for each statement a state that meets its hypotheses. -/

namespace Sys2Proof.Machine.Tests

set_option Elab.async false

/-! ### Words (R39, R42-R58), each packed by hand from the fields that the instruction's entry gives -/

def H : Hdr := ⟨⟨false, 7⟩, ⟨0, none, none⟩⟩
def HP (n : BitVec 5) : Hdr := ⟨⟨false, 7⟩, ⟨0, some n, none⟩⟩
/-- The table limits: 256 registers, IDX0 alone lane-varying, every barrier. -/
def cx : DecCtx := ⟨256, 1, 16, true, true⟩
def reads (ws : List (Inst96 × Instr)) : Bool := ws.all (fun r => decide (decode cx r.1 = .ok r.2))

/-- R116, R117, R131-R137, R324, R325: words of issue and control; the first of R59. -/
theorem test_words_control : reads [
    (0x000000000000000000000000, .nop ⟨⟨false, 0⟩, ⟨0, none, none⟩⟩),
    (0x000007FFFF00000000070001, .dly H 0x7FFFF),
    (0x00000FFFFF00000000070002, .bra H 0xFFFFF),
    (0x000000000000004180070003, .brx H (.s 6)),
    (0x000001234500000000070004, .call H 0x12345),
    (0x000000000000004F80070005, .calx H (.s 62)),
    (0x000000000000000000070006, .ret H),
    (0x000000000000000000070007, .exit H),
    (0x000000000700000000070008, .rcv H 7),
    (0x000000000000000000070009, .rjoin H),
    (0x0000000000000040F4270109, .rjoinTo H 2 (.s 3)),
    (0x00000000000000805087000A, .exmRd H (.s 8) 1),
    (0x00000000000000428007010A, .exmWr H (.s 10)),
    (0x00000000000000BFC007020A, .exmAnd H (.i 0xFF)),
    (0x00000000000000408007030A, .exmOr H (.s 2)),
    (0x00000000030201420007000B, .yield H (.s 8) 0 3),
    (0x000000000102FF413417000C, .waitcAny H (some 1) (.s 4) (.i 0xFF) 1),
    (0x00000000030109410007010C, .waitcAll H none (.s 4) (.s 9) 3)] = true := by decide +kernel

/-- R118, R119, R290, R320-R322: words of tokens, barriers, timelines and fences. -/
theorem test_words_ordering : reads [
    (0x00000000020000D8C0070010, .kwait H 3 2 false),
    (0x00000001FF0000DFC0070011, .kset H 31 0xFF true),
    (0x00000000000201D880470012, .krd H (.v 4) 2 (.i 1)),
    (0x00000000800000D940070013, .kadd H 5 0x80 false),
    (0x0000000000010383C0070014, .barInit H (.i 15) (.s 3)),
    (0x000000000100008400070415, .barArv H .dev (.i 16) true),
    (0x000000000002404040070016, .barExp H (.s 1) (.i 64)),
    (0x000000000002018450C70017, .barRd H (.s 12) (.i 17) 1),
    (0x0000000000020281C0270018, .tlRd H (.v 2) (.i 7) 2),
    (0x000000000101048080070519, .tlSig H .sys (.i 2) (.s 4) true),
    (0x00000000010000000007011A, .fence H .grp .acq)] = true := by decide +kernel

/-- R151-R156: words of integer arithmetic. -/
theorem test_words_integer : reads [
    (0x000000000002804140372020, .add H .i32 false (.v 3) (.s 5) (.i 0x80)),
    (0x000000000002804140376121, .sub H .n32 true (.v 3) (.s 5) (.i 0x80)),
    (0x000000000002804140372022, .mul H .i32 (.v 3) (.s 5) (.i 0x80)),
    (0x000000000002804140376023, .mulh H .n32 (.v 3) (.s 5) (.i 0x80)),
    (0x000000000002804140372026, .div H .i32 (.v 3) (.s 5) (.i 0x80)),
    (0x000000000002804140376027, .rem H .n32 (.v 3) (.s 5) (.i 0x80)),
    (0x000000000002804140372028, .min H .i32 (.v 3) (.s 5) (.i 0x80)),
    (0x000000000002804140376029, .max H .n32 (.v 3) (.s 5) (.i 0x80)),
    (0x000000010A01080180473124, .mad H .i64 true (.v 4) (.v 6) (.s 8) (.s 10)),
    (0x000000000A01080180477025, .madh H .n64 (.v 4) (.v 6) (.s 8) (.v 10)),
    (0x00000000000000409017212A, .abs H .i32 true (.s 1) (.s 2)),
    (0x00000000000000010027302B, .neg H .i64 false (.v 2) (.v 4))] = true := by decide +kernel

/-- R157-R168: words of bit operations, comparison and moves. -/
theorem test_words_bits : reads [
    (0x00000000000280414037602C, .and H .n32 (.v 3) (.s 5) (.i 0x80)),
    (0x00000000000280414037602D, .or H .n32 (.v 3) (.s 5) (.i 0x80)),
    (0x00000000000280414037602E, .xor H .n32 (.v 3) (.s 5) (.i 0x80)),
    (0x000000000002804140376030, .andn H .n32 (.v 3) (.s 5) (.i 0x80)),
    (0x000000000002804140376031, .shl H .n32 (.v 3) (.s 5) (.i 0x80)),
    (0x000000000002804140376131, .shr H .n32 (.v 3) (.s 5) (.i 0x80)),
    (0x000000000002804140376231, .sar H .n32 (.v 3) (.s 5) (.i 0x80)),
    (0x000000000002804140376331, .rol H .n32 (.v 3) (.s 5) (.i 0x80)),
    (0x00000000000000010027702F, .not H .n64 (.v 2) (.v 4)),
    (0x000000020302804140376032, .fshL H .n32 (.v 3) (.s 5) (.i 0x80) (.i 3)),
    (0x000000030102804140376132, .fshR H .n32 (.v 3) (.s 5) (.i 0x80) (.x .laneid)),
    (0x000000000000000200976033, .popc H .n32 (.v 9) (.v 8)),
    (0x000000000000000200976133, .clz H .n32 (.v 9) (.v 8)),
    (0x000000000000000200976233, .ctz H .n32 (.v 9) (.v 8)),
    (0x000000000000000200976333, .brev H .n32 (.v 9) (.v 8)),
    (0x000000020802804140372034, .bfx H .i32 (.v 3) (.s 5) (.i 0x80) (.i 8)),
    (0x000000010902804140376035, .bfi H .n32 (.v 3) (.s 5) (.i 0x80) (.s 9)),
    (0x000000000002070074672536, .setp H .i32 .ge 6 (.v 1) (.i 7)),
    (0x000000034102804140376037, .sel H .n32 (.v 3) (.s 5) (.i 0x80) 1),
    (0x00000000000000C4C0176038, .mov H .n32 (.v 1) (.x (.dim 3))),
    (0x00000FFFFB00000010677039, .movi H .n64 (.s 6) 0xFFFFB),
    (0x000000FEDC0000000057603A, .movh H (.v 5) 0xFEDC),
    (0x00000000000001410027733B, .lea H 3 (.v 2) (.s 4) (.v 1))] = true := by decide +kernel

/-- R169-R182: words of the floating-point instructions. -/
theorem test_words_float : reads [
    (0x00000000000405010037A040, .fadd H .f32 .rne (.v 3) (.v 4) (.v 5)),
    (0x000000000008050100378041, .fsub H .f16 .rtz (.v 3) (.v 4) (.v 5)),
    (0x00000000002C050100379042, .fmul H .bf16 .rdn .g0 (.v 3) (.v 4) (.v 5)),
    (0x00000001069805010037A043, .ffma H .f32 .rsr .g3 (.v 3) (.v 4) (.v 5) (.s 6)),
    (0x00000000000005010037A144, .fmin H .f32 true (.v 3) (.v 4) (.v 5)),
    (0x00000000000005010037A045, .fmax H .f32 false (.v 3) (.v 4) (.v 5)),
    (0x00000000000000010037A046, .fabs H .f32 (.v 3) (.v 4)),
    (0x00000000000000010027B047, .fneg H .f64 (.v 2) (.v 4)),
    (0x00000000000005013417AD48, .fsetp H .f32 (.u .ge) 1 (.v 4) (.v 5)),
    (0x00000000000000010037A049, .frcp H .f32 (.v 3) (.v 4)),
    (0x00000000000000010037A04A, .frsq H .f32 (.v 3) (.v 4)),
    (0x000000000000000100378053, .fxpn H .f16 (.v 3) (.v 4)),
    (0x00000000000000010037A055, .fclass H .f32 (.v 3) (.v 4)),
    (0x00000000001000010037A04B, .fsqrt H .f32 .rup (.v 3) (.v 4)),
    (0x00000000001405010037A04C, .fdiv H .f32 .rna (.v 3) (.v 4) (.v 5)),
    (0x00000000000000010037A04D, .fexp2 H (.v 3) (.v 4)),
    (0x00000000000000010037A04E, .flog2 H (.v 3) (.v 4)),
    (0x00000000000000010037A04F, .fsin H (.v 3) (.v 4)),
    (0x00000000000000010037A050, .fcos H (.v 3) (.v 4)),
    (0x00000000000000010037A051, .ftanh H (.v 3) (.v 4)),
    (0x00000000000005010037A052, .fscl H .f32 .dflt (.v 3) (.v 4) (.v 5)),
    (0x00000000000800010037A054, .frnd H .f32 .rtz (.v 3) (.v 4)),
    (0x000000000640050100378056, .fdot2 H .f16 .dflt .g1 (.v 3) (.v 4) (.v 5) (.v 6)),
    (0x00000000066005010037D057, .fdot4 H .e5m2 .dflt .g2 (.v 3) (.v 4) (.v 5) (.v 6)),
    (0x00000000000000010037A860, .cvt H .f32 .f16 .dflt (.v 3) (.v 4)),
    (0x00000000000000010037C361, .pack H .e4m3 3 (.v 3) (.v 4)),
    (0x00000000000000010037E762, .unpack H .e2m1 7 (.v 3) (.v 4))] = true := by decide +kernel

/-- R138-R144: words of the cross-lane instructions. -/
theorem test_words_lanes : reads [
    (0x000000000002010100376368, .shfl H .n32 .xor (.v 3) (.v 4) (.i 1)),
    (0x00000000000000D0D0270269, .vote H .bal (.s 2) 3),
    (0x00000000000000011027226A, .wred H .i32 .max .dflt (.s 2) (.v 4)),
    (0x00000000000400010037A86B, .wscan H .f32 .add true .rne (.v 3) (.v 4)),
    (0x00000000000209011037606C, .rdlane H .n32 (.s 3) (.v 4) (.i 9)),
    (0x00000000000209410037606D, .wrlane H .n32 (.v 3) (.s 4) (.i 9)),
    (0x00000000000000014027616E, .matchL H .n32 true (.v 2) (.v 5)),
    (0x0000025B440343D0B417006F, .plop H 1 2 3 4 0x96)] = true := by decide +kernel

/-- R206-R210: words of bounds, budget and tasks. -/
theorem test_words_bounds : reads [
    (0x000000000000000100370070, .bget H (.v 3) (.v 4)),
    (0x000000000000008240370171, .bset H true (.v 3) (.i 9)),
    (0x0000000000000000C007A072, .bchk H .f32 (.v 3)),
    (0x0000000000000040C0070073, .budgSet H (.s 3)),
    (0x000000000000000010370173, .budgRd H (.s 3)),
    (0x000000000000000000070074, .taskB H),
    (0x000000000000000000070075, .taskE H),
    (0x000000000100000000070076, .taskX H true)] = true := by decide +kernel

/-- R264-R272, R291-R294: words of memory accesses and atomics. -/
theorem test_words_memory : reads [
    (0x00000FFFF002004100476180, .ld H .n32 .c2 (.v 4) (.s 4) (.i 0) 0xFFFF0),
    (0x00000FFFF00200410047A281, .st H .f32 .c4 (.v 4) (.s 4) (.i 0) 0xFFFF0),
    (0x00000FFFF00200410047A082, .ldb H .f32 .c1 (.v 4) (.s 4) (.i 0) 0xFFFF0),
    (0x00000FFFF002004100472083, .ldp H .i32 (.v 4) (.s 4) (.i 0) 0xFFFF0),
    (0x00000FFFF002004100476184, .stm H .c2 (.v 4) (.s 4) (.i 0) 0xFFFF0),
    (0x000000000200010180479085, .ldc H .bf16 .c1 (.v 4) (.v 6) (.v 1) 2),
    (0x00000FFFF002004100478086, .stc H .f16 (.v 4) (.s 4) (.i 0) 0xFFFF0),
    (0x00000FFFF002004100070087, .prefL2 H (.s 4) (.i 0) 0xFFFF0),
    (0x00000FFFF002004100070187, .prefL1 H (.s 4) (.i 0) 0xFFFF0),
    (0x00000FFFF002004100070088, .cinvLine H (.s 4) (.i 0) 0xFFFF0),
    (0x000000000000000000070188, .cinvAll H),
    (0x00000FFFF002004100070089, .cwbLine H (.s 4) (.i 0) 0xFFFF0),
    (0x000000000000000000070189, .cwbAll H),
    (0x0000007005000441003767A0, .atom H .n32 .cas .dflt .dev .ar (.v 3) (.s 4) (.v 4) (.v 5)),
    (0x00000054000404410007A8A1, .red H .f32 .fadd .rne .sys true (.s 4) (.v 4))] = true := by decide +kernel

/-- R237-R244, R317-R319: words of copies and of the matrix unit. -/
theorem test_words_engines : reads [
    (0x0000000032000001002701B0, .cpl H .b8 (.v 2) (.v 4) 0x32),
    (0x0009000032010841904700B1, .cpb (HP 4) (.s 4) (.s 6) (.s 8) 0x32),
    (0x0000000000010841904700B2, .cpcCont H (.s 4) (.s 6) (.s 8) 0),
    (0x00000003C0010841904701B2, .cpcLast H (.s 4) (.s 6) (.s 8) 0x3C0),
    (0x0000000080021041904700B3, .cpxPut H (.s 4) (.s 6) (.i 16) 0x80),
    (0x0000000080021041904701B3, .cpxGet H (.s 4) (.s 6) (.i 16) 0x80),
    (0x0000000000000041904700B4, .dcz H (.s 4) (.s 6)),
    (0x0000000000010841383700C0, .mtd H 3 (.s 4) (.s 8)),
    (0x0000000001000041383700C1, .msd H 3 (.s 4) true),
    (0x00050000002381E0394790C2, .mma (HP 2) .bf16 .g0 4 (.td 0) (.td 1) 0 0),
    (0x000000000C039CE6390780C2, .mma H .f16 .gov 0 (.tile 8) (.tile 12) 0 3),
    (0x000001F00F000000000700C3, .mz H 0xF00F true),
    (0x00000000050101E48087A0C4, .mrd H .f32 .dflt 8 2 (.s 1) 5),
    (0x0000000001020302392790C5, .mwr H .bf16 2 8 (.i 3) 1),
    (0x00000000000400E57827C0C6, .mst H .e4m3 .rne 2 5),
    (0x0000000000020080804700C7, .mstat H (.v 4) 2 (.i 0))] = true := by decide +kernel

/-- R340, R357, R405-R408, R431, R443: words of residency, exchanges, collectives and the system instructions. -/
theorem test_words_system : reads [
    (0x000B000000020740800700D0, .lbind (HP 5) (.s 2) (.i 7) false),
    (0x0000000000020740800700D1, .lrel H (.s 2) (.i 7)),
    (0x00000000FF020740800700D2, .lhint H (.s 2) (.i 7) 0xFF),
    (0x0000000000020740906700D3, .lstat H (.s 6) (.s 2) (.i 7)),
    (0x000D00000002FF81408300D8, .txch ⟨⟨false, 3⟩, ⟨0, some 6, none⟩⟩ 8 (.i 5) (.i 0xFF) 0),
    (0x000F00000102FF410007A0D9, .collSum (HP 7) .f32 (.s 4) (.i 0xFF) 1),
    (0x0000000000010741000791D9, .collMax H .bf16 (.s 4) (.s 7)),
    (0x0000000000010741000792D9, .collGath H .bf16 (.s 4) (.s 7)),
    (0x0000000000010741000793D9, .collBcst H .bf16 (.s 4) (.s 7)),
    (0x00000000000000C8914700E0, .mfs H (.s 20) (.sp .tepc)),
    (0x00000000000201C0414700E0, .mfs H (.v 20) .gen),
    (0x0000000000000080F18700E1, .mts H (.sp .mode) (.i 3)),
    (0x0000000123000000000700E2, .trap H 0x123),
    (0x0000000000000000000700E3, .rti H),
    (0x00000FFFFF000000000700E4, .brk H 0xFFFFF),
    (0x0005000000010641000700E5, .tinvPage (HP 2) (.s 4) (.s 6)),
    (0x0000000000010600000701E5, .tinvCtx H (.s 6)),
    (0x0000000000000000000702E5, .tinvAll H),
    (0x0000000000000000106700E6, .ckpt H (some 6))] = true := by decide +kernel

/-- The words that the spec assembles itself: R63's `ld`, `kwait` (05), `rjoin.to` (R136), `ffma` (07), `task.b` (R210),
`stm` (10), `cpb` (R318), `mfs` (R407). -/
theorem test_spec_words : reads [
    (0x414720001000024100896080, .ld ⟨⟨true, 1⟩, ⟨2, some 3, some (2, 4)⟩⟩ .n32 .c1 (.v 8) (.s 4) (.v 2) 16),
    (0x00000000020000D8C0070010, .kwait H 3 2 false),
    (0x000000000000008CB4270109, .rjoinTo H 2 (.i 50)),
    (0x00005000038402004067A043, .ffma ⟨⟨false, 7⟩, ⟨5, none, none⟩⟩ .f32 .rne .g3 (.v 6) (.v 1) (.v 2) (.v 3)),
    (0x000000000000000000070074, .taskB H),
    (0x0003000003000C4100876184, .stm (HP 1) .c2 (.v 8) (.s 4) (.v 12) 3),
    (0x0009000032010841904700B1, .cpb (HP 4) (.s 4) (.s 6) (.s 8) 0x32),
    (0x00000000000000C8914700E0, .mfs H (.s 20) (.sp .tepc))] = true := by decide +kernel

/-- R60, R61: the first illegal field names the refusal; the all-ones word comes before every field. -/
theorem test_refusals : [
    (0xFFFFFFFFFFFFFFFFFFFFFFFF, DecErr.ones), (0x00000000000000000007000D, .op), (0x000000000000000000070100, .var),
    (0x000000000000000000071000, .ty), (0x00000000001C000000070000, .rnd), (0x000000000020000000070000, .gear),
    (0x000000000000000000170000, .d), (0x000000000000000040070000, .a), (0x000000000000010000070000, .b),
    (0x000000000100000000070000, .imm), (0x000200000000000000070000, .sched)].all (fun r =>
      decide (decode cx r.1 = .error r.2)) = true := by decide +kernel

/-! ### Ill-formed terms: one for each check of well-formedness (R42-R46, R57, R145 and the entries) -/

def refused (is : List Instr) : Bool := is.all (fun i => !i.wf cx)

theorem test_ill_formed_control : refused [
    .brx H (.s 5), .brx H (.i 4), .calx H (.v 4), .rjoinTo H 1 (.v 2), .exmRd H (.v 3) 0, .exmRd H (.s 2) 3,
    .exmWr H (.v 2), .exmAnd H (.s 3), .exmOr H (.x .exm), .yield H (.s 3) 0 1, .yield H (.s 58) 3 1, .waitcAny H none (.i 4) (.i 1) 0,
    .waitcAll H none (.s 4) (.v 1) 0, .krd H (.i 1) 0 (.v 0), .krd H (.s 1) 0 (.i 2), .barInit H (.i 16) (.i 1),
    .barInit H (.i 0) (.i 0), .barArv H .team (.i 0) false, .barArv H .grp (.i 16) false, .barArv H .stk (.i 18) false,
    .barExp H (.v 0) (.i 1), .barExp H (.i 0) (.i 0xFF), .barRd H (.s 3) (.i 0) 0, .barRd H (.s 2) (.i 0) 2, .tlRd H (.s 2) (.i 8) 0,
    .tlRd H (.s 2) (.i 0) 3, .tlSig H .grp (.i 1) (.i 1) false, .tlSig H .grp (.i 2) (.s 1) false, .fence H .grp .relaxed] = true := by decide +kernel

theorem test_ill_formed_vector : refused [
    .add H .i8 false (.v 0) (.v 1) (.v 2), .add H .i64 false (.v 1) (.v 2) (.v 4), .sub H .i32 false (.s 0) (.v 1) (.s 2),
    .mul H .i32 (.v 0) (.x .exm) (.v 2), .mad H .i32 false (.s 0) (.s 1) (.s 2) (.x .laneid), .abs H .n32 false (.v 0) (.v 1),
    .and H .i32 (.v 0) (.v 1) (.v 2), .not H .n64 (.v 0) (.x .laneid), .shl H .n64 (.v 0) (.v 2) (.x .mode),
    .fshL H .n32 (.v 0) (.v 1) (.v 2) (.x .cyc), .bfx H .f32 (.v 0) (.v 1) (.v 2) (.i 1), .setp H .f32 .eq 1 (.v 0) (.v 1),
    .sel H .n32 (.s 0) (.s 1) (.s 2) 1, .movi H .i32 (.v 0) 1, .movh H (.x .exm) 1, .lea H 0 (.v 0) (.v 3) (.v 1),
    .fadd H .i32 .rne (.v 0) (.v 1) (.v 2), .ffma H .f64 .rne .gov (.v 0) (.v 2) (.v 4) (.v 7), .fabs H .f32 (.v 0) (.x .laneid),
    .fclass H .f32 (.i 1) (.v 0), .fsetp H .n32 .num 1 (.v 0) (.v 1), .frcp H .f16 (.v 0) (.v 1), .fdiv H .bf16 .rne (.v 0) (.v 1) (.v 2),
    .fexp2 H (.s 0) (.v 1), .fscl H .f32 .rne (.v 0) (.v 1) (.x .exm), .fdot2 H .f32 .rne .gov (.v 0) (.v 1) (.v 2) (.v 3),
    .fdot4 H .e4m3 .rne .gov (.v 0) (.i 1) (.v 2) (.v 3), .cvt H .f32 .f32 .rne (.v 0) (.v 1), .cvt H .f32 .n8 .rne (.v 0) (.i 1),
    .pack H .n32 0 (.v 0) (.v 1), .pack H .f16 2 (.v 0) (.v 1), .unpack H .n8 4 (.v 0) (.v 1), .shfl H .n32 .idx (.s 0) (.v 1) (.i 0),
    .vote H .any (.s 0) 1, .vote H .bal (.s 1) 1, .wred H .f32 .xor .dflt (.s 0) (.v 1), .wred H .i32 .add .rne (.s 0) (.v 1),
    .wscan H .i32 .add false .dflt (.s 0) (.v 1), .rdlane H .n32 (.v 0) (.v 1) (.i 0), .wrlane H .n32 (.v 0) (.v 1) (.i 0),
    .matchL H .n32 false (.v 1) (.v 2), .bget H (.s 0) (.v 1), .bset H false (.i 0) (.v 1), .bchk H .n8 (.v 0), .bchk H .f64 (.v 1),
    .budgSet H (.v 0), .budgRd H (.i 0)] = true := by decide +kernel

theorem test_ill_formed_memory : refused [
    .ld H .n64 .c4 (.v 0) (.s 4) (.i 0) 0, .ld H .e4m3 .c1 (.v 0) (.s 4) (.i 0) 0, .ld H .n32 .c2 (.v 1) (.s 4) (.i 0) 0,
    .ld H .n32 .c1 (.s 0) (.v 4) (.i 0) 0, .st H .n32 .c1 (.v 0) (.s 5) (.i 0) 0, .st H .n32 .c1 (.v 0) (.s 4) (.i 1) 0,
    .ldp H .f32 (.v 0) (.s 4) (.i 0) 0, .stm H .c4 (.v 2) (.s 4) (.i 1) 0, .stm H .c1 (.v 2) (.s 4) (.x .laneid) 0,
    .stc H .f64 (.v 0) (.s 4) (.i 1) 0, .stc H .f32 (.v 0) (.s 4) (.v 1) 0, .prefL1 H (.s 3) (.i 0) 0, .cinvLine H (.s 4) (.i 2) 0,
    .atom H .f32 .add .dflt .grp .relaxed (.v 0) (.s 4) (.v 1) (.v 0), .atom H .n32 .fadd .dflt .grp .relaxed (.v 0) (.s 4) (.v 1) (.v 0),
    .atom H .n32 .add .rne .grp .relaxed (.v 0) (.s 4) (.v 1) (.v 0), .atom H .n32 .add .dflt .grp .relaxed (.v 0) (.s 4) (.v 1) (.v 2),
    .atom H .n32 .cas .dflt .grp .relaxed (.v 0) (.s 4) (.v 1) (.x .exm), .red H .n32 .exch .dflt .grp false (.s 4) (.v 1),
    .red H .n32 .cas .dflt .grp false (.s 4) (.v 1)] = true := by decide +kernel

theorem test_ill_formed_engines : refused [
    .cpl H .b8 (.v 1) (.v 4) 0, .cpl H .b8 (.v 0) (.v 4) 0x40, .cpb H (.v 4) (.s 6) (.s 8) 0, .cpb H (.s 4) (.s 6) (.s 8) 0x20,
    .cpb H (.s 4) (.s 6) (.s 8) 0x03, .cpb H (.s 4) (.s 6) (.s 8) 0x80, .cpcLast H (.s 4) (.s 6) (.i 8) 0, .cpxPut H (.s 4) (.s 6) (.v 8) 0,
    .dcz H (.s 4) (.v 6), .mtd H 0 (.s 5) (.s 6), .msd H 0 (.i 1) true, .mma H .f32 .gov 0 (.td 0) (.td 1) 0 0,
    .mma H .f16 .gov 0 (.td 0) (.td 1) 1 0, .mma H .f16 .gov 0 (.tile 0) (.td 1) 3 1, .mrd H .e4m3 .dflt 0 0 (.i 0) 0,
    .mrd H .f32 .dflt 255 0 (.i 0) 1, .mrd H .f16 .dflt 0 0 (.i 0) 0, .mwr H .bf16 0 0 (.v 1) 1, .mst H .e2m1 .dflt 0 0,
    .mstat H (.s 0) 2 (.i 0), .mstat H (.v 0) 4 (.v 0), .mstat H (.v 0) 0 (.i 1), .lbind H (.v 0) (.i 0) false, .lrel H (.i 0) (.v 0),
    .lstat H (.s 1) (.i 0) (.i 0), .txch H 250 (.i 0) (.i 0) 9, .txch H 0 (.v 0) (.i 0) 0, .collSum H .f16 (.s 4) (.i 1) 0,
    .collMax H .f32 (.s 5) (.i 1), .mfs H (.s 1) (.sp .tepc), .mfs H (.s 0) (.sp .laneid), .mfs H (.v 0) (.sp .tfrag),
    .mfs H (.v 0) (.sp (.p 1)), .mts H (.sp .teamid) (.s 0), .mts H .gen (.s 0), .mts H (.sp .mode) (.v 0), .mts H (.sp .cyc) (.i 0),
    .tinvPage H (.s 5) (.i 0), .tinvCtx H (.v 0), .ckpt H (some 3)] = true := by decide +kernel

/-- R44, R45, R317, R320: n_regs, the levels and the barriers of the launch decide too: a register at n_regs, IDX1 in a uniform
form, a barrier past the declared ones, inline and in OPT, and those of a cluster and a stack that are absent. -/
theorem test_limits_of_the_launch :
    (Instr.mov H .n32 (.v 8) (.v 7)).wf ⟨8, 1, 3, true, false⟩ = false ∧ (Instr.mov H .n32 (.v 7) (.v 6)).wf ⟨8, 1, 3, true, false⟩ = true ∧
    (Instr.mov H .n32 (.s 0) (.x (.idx 1))).wf ⟨8, 2, 3, true, false⟩ = false ∧
    (Instr.mov H .n32 (.s 0) (.x (.idx 1))).wf ⟨8, 1, 3, true, false⟩ = true ∧
    [Instr.barInit H (.i 3) (.i 1), .barArv H .stk (.i 17) false, .cpb H (.s 4) (.s 6) (.s 8) 0x13].all (fun i =>
      !i.wf ⟨8, 1, 3, true, false⟩) = true ∧
    [Instr.barInit H (.i 2) (.i 1), .barArv H .clu (.i 16) false, .cpb H (.s 4) (.s 6) (.s 8) 0x12].all (fun i =>
      i.wf ⟨8, 1, 3, true, false⟩) = true ∧
    (Instr.barArv H .clu (.i 16) false).wf ⟨8, 1, 3, false, false⟩ = false := by
  decide +kernel

/-! ### A small world: one team of context 0 on core 0, at its first instruction, and one page of memory that it may write -/

/-- A team with the given lanes, rows and scalars; MODE has RND = RNE and BT (R187). -/
def team (m : Mask) (v : Tbl Row) (s : Tbl RegCell) : Team :=
  let p : Path := { fetchPath 0 0 with exm := m, pmask := m }
  { fetchTeam State.reset with v := v, s := s, mode := 0x20001, tfr := 0x500000, p0 := p, p1 := { p with ended := true, pid := 1 } }

/-- The PTE of a 4 KiB page at virtual and physical address 0x500000 that may be written and carries bounds (R332). -/
def pte : Nat := 2 ^ 127 + 2 ^ 121 + 2 ^ 120 + 0x500 * 2 ^ 44 + 0x500

/-- The team's fragment is about to run, with its handler at 0x401000 and its trap frame at 0x500000; its group has 1 KiB of scratchpad and three barriers. -/
def world (tm : Team) : State :=
  let s := State.reset.withFetchWord 96 0
  let g : Group := { fetchGroup State.reset with
    alloc := 1024, bars := [(0, ⟨1, 0, 0, 0, false, 0, 0, false, 0, false, 0, [], [], 0, 0, none⟩)] }
  { s with script := [], cur := some (0, false, false), teams := [(0, tm)], groups := [(0, g)], brcfg := 5
           mem := cellsSet s.mem (bucketAddr fetchRoot 0 0x500000 0) (toBytes pte 16)
           ctxs := tset s.ctxs 0 { s.ctx 0 with thcfg := BitVec.ofNat 64 (2 ^ 63 + 0x401000) } }

/-- A register of n lanes. -/
def reg (cs : List (Nat × Nat)) : Row := cs.map (fun c => ⟨BitVec.ofNat 32 c.1, BitVec.ofNat 16 c.2⟩)
def sca (n : Nat) (b : Nat := 0) : RegCell := ⟨BitVec.ofNat 32 n, BitVec.ofNat 16 b⟩

/-- The team after an instruction, with what it put in flight landed, in its operations too. -/
def after (tm : Team) (i : Instr) : Option Team :=
  match exec i (world tm) with
  | .next t => (tget t.teams 0).map (fun tm =>
      let tm := (tget (tm.pend.foldl (fun s p => s.land 0 p) t).teams 0).getD tm
      let vs := t.ops.flatMap (fun o => match o.2.work with | .done us => us | _ => [])
      vs.foldl (fun tm u => tm.apply 0 u) tm)
  | _ => none

/-- Lane l of vector register r: value and bound. -/
def lv (o : Option Team) (r l : Nat) : Option (Nat × Nat) := o.map (fun tm =>
  (((tm.vrow r).cell l).val.toNat, ((tm.vrow r).cell l).bnd.toNat))
def sv (o : Option Team) (r : Nat) : Option Nat := o.map (fun tm => (tm.sreg r).val.toNat)
def pv (o : Option Team) (p : Nat) : Option (Nat × Nat) := o.map (fun tm => ((tm.pred p).t.toNat, (tm.pred p).d.toNat))

/-! ### Results: the spec's worked examples, and results by hand from the rules named -/

/-- R59: the word of zeros runs as the first instruction after reset, and the PC moves on by 12 bytes (R40). -/
theorem test_nop_runs : (match step (State.reset.withFetchWord 96 0) with
    | .next s => s.teams.map (fun t => t.2.p0.pc)
    | _ => []) = [0x40000C] := by decide +kernel

/-- R151: 0x7FFFFFFF + 1 wraps, and clamps under `.sat`; wrapped, its bound is unbounded. -/
theorem test_add_wraps_and_clamps :
    lv (after (team 1 [(1, reg [(0x7FFFFFFF, 0)]), (2, reg [(1, 0)])] []) (.add H .i32 false (.v 3) (.v 1) (.v 2))) 3 0
      = some (0x80000000, 0xFF00) ∧
    (lv (after (team 1 [(1, reg [(0x7FFFFFFF, 0)]), (2, reg [(1, 0)])] []) (.add H .i32 true (.v 3) (.v 1) (.v 2))) 3 0).map
      Prod.fst = some 0x7FFFFFFF := by decide +kernel

/-- R47: a lane outside the mask keeps its register; R148: sub, in the other lane. -/
theorem test_sub_in_its_lanes :
    let o := after (team 2 [(1, reg [(5, 0), (5, 0)]), (3, reg [(9, 0), (9, 0)])] []) (.sub H .n32 false (.v 3) (.v 1) (.i 7))
    lv o 3 0 = some (9, 0) ∧ (lv o 3 1).map Prod.fst = some 0xFFFFFFFE := by decide +kernel

/-- R152, R153: low and high halves, and a 64-bit multiply-add over pairs. -/
theorem test_products :
    (lv (after (team 1 [(1, reg [(0xFFFFFFFF, 0)])] []) (.mul H .n32 (.v 3) (.v 1) (.v 1))) 3 0).map Prod.fst = some 1 ∧
    (lv (after (team 1 [(1, reg [(0xFFFFFFFF, 0)])] []) (.mulh H .n32 (.v 3) (.v 1) (.v 1))) 3 0).map Prod.fst
      = some 0xFFFFFFFE ∧
    (lv (after (team 1 [(1, reg [(0xFFFFFFFF, 0)])] []) (.mulh H .i32 (.v 3) (.v 1) (.v 1))) 3 0).map Prod.fst = some 0 ∧
    (let o := after (team 1 [(2, reg [(0, 0)]), (3, reg [(1, 0)])] []) (.mad H .n64 false (.v 4) (.v 2) (.i 2) (.i 0xFF))
     ((lv o 4 0).map Prod.fst, (lv o 5 0).map Prod.fst) = (some 0xFFFFFFFF, some 1)) := by decide +kernel

/-- R154: division by zero, signed overflow, and the sign of a remainder. -/
theorem test_division_corners :
    lv (after (team 1 [(1, reg [(7, 0)])] []) (.div H .i32 (.v 3) (.v 1) (.i 0))) 3 0 = some (0xFFFFFFFF, 0xFF00) ∧
    lv (after (team 1 [(1, reg [(0x80000000, 0)])] []) (.div H .i32 (.v 3) (.v 1) (.i 0xFF))) 3 0
      = some (0x80000000, 0xFF00) ∧
    lv (after (team 1 [(1, reg [(0xFFFFFFF9, 0)])] []) (.rem H .i32 (.v 3) (.v 1) (.i 2))) 3 0 = some (0xFFFFFFFF, 0) := by
  decide +kernel

/-- R159, R160, R161: shifts by the width and more, a funnel shift, and counts of zero. -/
theorem test_shifts_and_counts :
    let tm := team 1 [(1, reg [(0x80000001, 0)]), (2, reg [(40, 0)])] []
    (lv (after tm (.shl H .n32 (.v 3) (.v 1) (.i 32))) 3 0).map Prod.fst = some 0 ∧
    (lv (after tm (.sar H .n32 (.v 3) (.v 1) (.v 2))) 3 0).map Prod.fst = some 0xFFFFFFFF ∧
    (lv (after tm (.rol H .n32 (.v 3) (.v 1) (.i 33))) 3 0).map Prod.fst = some 3 ∧
    (lv (after tm (.popc H .n32 (.v 3) (.v 1))) 3 0).map Prod.fst = some 2 ∧
    (lv (after tm (.clz H .n32 (.v 3) (.i 0))) 3 0).map Prod.fst = some 32 ∧
    (lv (after tm (.ctz H .n64 (.v 4) (.i 0))) 4 0).map Prod.fst = some 64 ∧
    (lv (after tm (.brev H .n32 (.v 3) (.v 1))) 3 0).map Prod.fst = some 0x80000001 := by decide +kernel

/-- R162: a field that runs past the word is filled with its top bit for a signed type, with zeros for an unsigned one. -/
theorem test_bfx_past_the_word :
    (lv (after (team 1 [(1, reg [(0xA0000000, 0)])] []) (.bfx H .i32 (.v 3) (.v 1) (.i 28) (.i 8))) 3 0).map Prod.fst
      = some 0xFFFFFFFA ∧
    (lv (after (team 1 [(1, reg [(0xA0000000, 0)])] []) (.bfx H .n32 (.v 3) (.v 1) (.i 28) (.i 8))) 3 0).map Prod.fst
      = some 0xA := by decide +kernel

/-- R166-R168: an immediate is sign-extended, `movh` keeps the low half, `lea` scales a signed index. -/
theorem test_moves_and_lea :
    let tm := team 1 [(4, reg [(0x1000, 0)]), (5, reg [(0, 0)]), (6, reg [(0xFFFFFFFF, 0)])] []
    (sv (after tm (.movi H .n64 (.s 6) 0xFFFFB)) 7) = some 0xFFFFFFFF ∧
    (lv (after tm (.movh H (.v 4) 0x4040)) 4 0).map Prod.fst = some 0x40401000 ∧
    (lv (after tm (.lea H 3 (.v 8) (.v 4) (.v 6))) 8 0).map Prod.fst = some 0xFF8 := by decide +kernel

/-- 04, "Example: one addition" (R92): value and bound under RNE, under RTZ, and with a bound on both operands. -/
theorem test_fadd_example :
    let tm (b : Nat) := team 1 [(1, reg [(0x3F800000, 0x6B00)]), (2, reg [(0x33C00000, b)])] []
    lv (after (tm 0) (.fadd H .f32 .rne (.v 3) (.v 1) (.v 2))) 3 0 = some (0x3F800001, 0x6B10) ∧
    lv (after (tm 0) (.fadd H .f32 .rtz (.v 3) (.v 1) (.v 2))) 3 0 = some (0x3F800000, 0x6B20) ∧
    lv (after (tm 0x6100) (.fadd H .f32 .rne (.v 3) (.v 1) (.v 2))) 3 0 = some (0x3F800001, 0x6B11) := by decide +kernel

/-- 07, "Worked example: one fused multiply-add" (R170). -/
theorem test_ffma_example :
    lv (after (team 1 [(1, reg [(0x40400000, 0x6B00)]), (2, reg [(0x3F000000, 0)]), (3, reg [(0x30800000, 0)])] [])
      (.ffma H .f32 .rne .g3 (.v 6) (.v 1) (.v 2) (.v 3))) 6 0 = some (0x3FC00000, 0x6A20) := by decide +kernel

/-- 08, "cancellation caught by a retry" (R190-R193): the governed `ffma` at gear 0, and at gear 1 after the retry. -/
theorem test_governed_ffma_example :
    let tm (m : Nat) : Team := { team 1 [(1, reg [(0x40400000, 0)]), (2, reg [(0x40A00000, 0)]), (4, reg [(0xC16FF000, 0)])] []
      with budg := BitVec.ofNat 32 (4 * 2 ^ 16), mode := BitVec.ofNat 32 (0x20001 + 3 * 2 ^ 11 + 2 ^ 13 + 2 ^ 15 + m * 2 ^ 9) }
    lv (after (tm 0) (.ffma H .f32 .rne .gov (.v 3) (.v 1) (.v 2) (.v 4))) 3 0 = some (0x3B800000, 0x77E0) ∧
    lv (after (tm 1) (.ffma H .f32 .rne .gov (.v 3) (.v 1) (.v 2) (.v 4))) 3 0 = some (0x3B800000, 0x6FE0) := by
  decide +kernel

/-- 07, the example of R180: `cvt.e4m3` of 500.0 and of 450.0 saturates. -/
theorem test_cvt_example :
    lv (after (team 1 [(4, reg [(0x43FA0000, 0)])] []) (.cvt H .e4m3 .f32 .rne (.v 5) (.v 4))) 5 0 = some (0x7E, 0x84A0) ∧
    lv (after (team 1 [(4, reg [(0x43E10000, 0)])] []) (.cvt H .e4m3 .f32 .rne (.v 5) (.v 4))) 5 0 = some (0x7E, 0x8000) := by
  decide +kernel

/-- 04, the example of R98: `fsetp.lt` with a doubtful and a safe comparison. -/
theorem test_fsetp_doubt_example :
    let tm := team 3 [(4, reg [(0x3F800000, 0x6B00), (0x3F800000, 0x6B00)]), (5, reg [(0x3F800002, 0), (0x3F800010, 0)])] []
    pv (after tm (.fsetp H .f32 (.o .lt) 2 (.v 4) (.v 5))) 2 = some (3, 1) := by decide +kernel

/-- R174, R175, R178: `frcp` of 2, `fsqrt` of 4, `fexp2` of 3, and `frnd` of 2.5 to even. -/
theorem test_special_functions :
    let tm := team 1 [(1, reg [(0x40000000, 0)]), (2, reg [(0x40800000, 0)]), (3, reg [(0x40400000, 0)]), (4, reg [(0x40200000, 0)])] []
    (lv (after tm (.frcp H .f32 (.v 5) (.v 1))) 5 0).map Prod.fst = some 0x3F000000 ∧
    (lv (after tm (.fsqrt H .f32 .rne (.v 5) (.v 2))) 5 0).map Prod.fst = some 0x40000000 ∧
    (lv (after tm (.fexp2 H (.v 5) (.v 3))) 5 0).map Prod.fst = some 0x41000000 ∧
    (lv (after tm (.frnd H .f32 .rne (.v 5) (.v 4))) 5 0).map Prod.fst = some 0x40000000 := by decide +kernel

/-- R138-R143: the lane named by `shfl.xor`, a ballot, a sum over lanes, a scan before each lane, one lane read. -/
theorem test_lanes :
    let tm : Team := { team 3 [(1, reg [(10, 0), (20, 0)])] [] with p := [(1, ⟨2, 0⟩)] }
    (lv (after tm (.shfl H .n32 .xor (.v 2) (.v 1) (.i 1))) 2 0).map Prod.fst = some 20 ∧
    sv (after tm (.vote H .bal (.s 2) 1)) 2 = some 2 ∧
    sv (after tm (.wred H .n32 .add .dflt (.s 2) (.v 1))) 2 = some 30 ∧
    (lv (after tm (.wscan H .n32 .add true .dflt (.v 2) (.v 1))) 2 1).map Prod.fst = some 10 ∧
    sv (after tm (.rdlane H .n32 (.s 2) (.v 1) (.i 1))) 2 = some 20 := by decide +kernel

/-- 06, R144: table 0x80 is AND of three predicates, and 0xFE is OR. -/
theorem test_plop_tables :
    let tm : Team := { team 15 [] [] with p := [(1, ⟨0b1100, 0⟩), (2, ⟨0b1010, 0⟩), (3, ⟨0b1111, 0⟩)] }
    (pv (after tm (.plop H 4 1 2 3 0x80)) 4).map Prod.fst = some 0b1000 ∧
    (pv (after tm (.plop H 4 1 2 2 0xFE)) 4).map Prod.fst = some 0b1110 := by decide +kernel

/-- 02, the example of R22: IDX0 to IDX5 of lane 17 of team 5 of group 81, and R407 for `mfs`. -/
theorem test_idx_example :
    let tm : Team := { team 1 [] [] with dims := [64, 2, 4, 2, 96, 1], topTeam := 2, topGroup := 4, teamid := 5, gidx := 81 }
    let tm : Team := { tm with topTeam := 1, topGroup := 3 }
    [0, 1, 2, 3, 4, 5].map (fun k => tm.idx k 17) = [17, 1, 2, 1, 40, 0] ∧
    sv (after { tm with tepc := 0x123456789ABC } (.mfs H (.s 20) (.sp .tepc))) 21 = some 0x1234 := by decide +kernel

/-- 06, "a split and a timed join" (R131): a divergent `bra` at a JOIN splits the team, fragment 0 falls through. -/
theorem test_bra_splits :
    let tm : Team := { team allLanes [] [] with p := [(1, ⟨0xFFFFFFFF, 0⟩)], stack := [⟨.join, false, false, false, 0x100009, allLanes, false⟩] }
    (after tm (.bra ⟨⟨false, 1⟩, ⟨0, none, none⟩⟩ 9)).map (fun t =>
      (t.split, t.p0.pc, t.p0.exm, t.p1.pc, t.p1.exm)) =
      some (true, 0x40000C, 0xFFFFFFFF00000000, 0x400024, 0xFFFFFFFF) := by decide +kernel

/-- R118, R119: `kset`, then `kadd` past 255 saturates with OVF; `krd` lays COUNT, OVF out. -/
theorem test_tokens :
    let tm : Team := { team 1 [] [] with tokN := [(4, ⟨250, false, 0, false⟩)] }
    ((after tm (.kadd H 4 9 false)).map (fun t => t.tok .normal 4)) = some ⟨255, false, 0, true⟩ ∧
    ((after tm (.kset H 4 3 false)).map (fun t => t.tok .normal 4)) = some ⟨3, false, 0, false⟩ ∧
    sv (after tm (.krd H (.s 1) 4 (.i 0))) 1 = some 250 := by decide +kernel

/-- R264, R247: a store to the scratchpad window, and what the window then holds; R265: a byte past the allocation. -/
theorem test_scratchpad_store :
    let tm (a : Nat) := team 1 [(1, reg [(0x11223344, 0)])] [(4, sca a), (5, sca 0xFF000000)]
    (match exec (.st H .n16 .c1 (.v 1) (.s 4) (.i 0) 0) (world (tm 0x20)) with
      | .next t => [t.scrGet 0 0x20, t.scrGet 0 0x21] | _ => []) = [0x44, 0x33] ∧
    ((after (tm 0x400) (.st H .n16 .c1 (.v 1) (.s 4) (.i 0) 0)).map (fun t => (t.tcause, t.tval))) =
      some (0x80000108, 0xFF00000000000400) := by decide +kernel

/-- 10, "a byte-masked store into a bounded line" (R256, R269): bytes 5 to 8 of the line, and its record. -/
theorem test_stm_example :
    let tm := team 1 [(8, reg [(0x44332211, 0)]), (9, reg [(0x88776655, 0x7000)]), (12, reg [(0x3C, 0)])] [(4, sca 0x500000), (5, sca 0)]
    (match exec (.stm (HP 1) .c2 (.v 8) (.s 4) (.v 12) 3) (world tm) with
      | .next t => (cellsGet t.mem 0x500004 6, ofBytes (cellsGet t.mem (t.recAddr 0x500000) 16)) | _ => ([], 0)) =
      ([0, 0x33, 0x44, 0x55, 0x66, 0], 0x800070000000000000000000000001B0) := by decide +kernel

/-- R292: `atom.add` answers the old value and leaves the sum. -/
theorem test_atom_add :
    let tm := team 1 [(4, reg [(5, 0)])] [(4, sca 0x500000), (5, sca 0)]
    (match exec (.atom H .n32 .add .dflt .grp .relaxed (.v 3) (.s 4) (.v 4) (.v 0))
        { world tm with mem := cellsSet (world tm).mem 0x500000 [37] } with
      | .next t => (cellsGet t.mem 0x500000 1, t.ops.map (fun o => o.2.work)) | _ => ([], [])) =
      ([42], [.done [.vec 3 [⟨0, some 37, some 0⟩]]]) := by decide +kernel

/-- 13, "where a VA is probed" (R331): the first bucket for 4 KiB and for 2 MiB pages. -/
theorem test_bucket_example :
    let r : Dword := BitVec.ofNat 64 (2 ^ 63 + 0b00101 * 2 ^ 57 + 16 * 2 ^ 51)
    bucketAddr r 0 0x123456789000 0 = 0x226680 ∧ bucketAddr r 2 0x123456789000 0 = 128 * 0xE222 ∧
    bucketAddr r 0 0x123456789000 6 = 128 * 0x44D3 := by decide +kernel

/-- R251: slice 0xF XOR 3 of an address, its set; R411: 3 hops either way go up, the row comes first. -/
theorem test_slice_and_route : sliceOf 0x00C00780 = 0xC ∧ setOf 0x3FFFFF = 0x7FF ∧ route 6 0 21 = [1, 2, 3, 9, 15, 21] ∧
    route 6 21 1 = [20, 19, 25, 31, 1] := by decide +kernel

/-- R301: CRC-32C of the nine bytes "123456789". -/
theorem test_crc_example : crc32c [0x31, 0x32, 0x33, 0x34, 0x35, 0x36, 0x37, 0x38, 0x39] = 0xE3069283 := by decide +kernel

/-- 09, "one row bound at gear 0" (R190, R230): every cell holds 32.0, and the row bound is 0x8008. -/
theorem test_mma_example :
    let one : MEl := ⟨.of (.fin false 1 0), 0, some Q.zero⟩
    let b : MEl := ⟨.of (.fin false 65 (-6)), 0, some (Q.pow2 (-10))⟩
    let x : MmaIn := ⟨.bf16, [List.replicate 32 one], [false], [List.replicate 32 b, List.replicate 32 b]⟩
    (mmaTiles x (fun _ => x) .g0 0x20001 0 [.zero]).map (fun t => (t.tag, f32F.enc (cellVal t.tag ((t.row 0).cells.getD 1 0)), (t.row 0).rb)) =
      [(2, 0x42000000, 0x8008)] := by decide +kernel

/-- 18, "a round with a silent member" (R440): 1.0 and 2.0 pass form 2 unchanged, and their sum is 3.0. -/
theorem test_collective_example :
    (collBlock 2 (List.replicate 32 0x40000000)).getD 31 0 = 0x40000000 ∧ collAdd 0x3F800000 0x40000000 = 0x40400000 := by
  decide +kernel

/-- R382, R384: `trap` with a handler set: TCAUSE, TEPC and TVAL, and the handler's entry as the next PC. -/
theorem test_trap_enters :
    (after (team 1 [] []) (.trap H 0x123)).map (fun t => (t.tcause, t.tepc, t.tval, t.p0.pc)) =
      some (0x8000000F, 0x40000C, 0x123, 0x401000) := by decide +kernel
/-! ### Hypotheses: for each statement, states and operands that meet them all together -/

/-- What `Clear` asks for, computed. -/
def clearB (s : State) (a : At) (h : Hdr) (ps : List Port) (tk : Bool) : Bool :=
  decide (s.cur = some (a.t, a.f, a.late)) && decide (tget s.teams a.t = some a.tm) && a.tm.runs a.f && !s.stopped a.tm &&
    decide (a.path.hold = .free) && decide (a.tm.perm = none) && !s.hole && decide (a.tm.inlineWait h = .ok) &&
    (!mChk a.tm.mode || decide (s.underwait a.t a.tm a.path.pid (a.mask h) (ps ++ rdPred h.g.p) = none)) &&
    (!tk || decide (a.tm.inTask = none)) && decide (a.tm.eccHit h (a.mask h) ps = none) && decide (a.tm.eccWait h = none)

theorem clear_of {s : State} {a : At} {h : Hdr} {ps : List Port} {tk : Bool} (e : clearB s a h ps tk = true) :
    Clear s a h ps tk := by
  simp only [clearB, Bool.and_eq_true, Bool.or_eq_true, decide_eq_true_eq, Bool.not_eq_true'] at e
  obtain ⟨⟨⟨⟨⟨⟨⟨⟨⟨⟨⟨a1, a2⟩, a3⟩, a4⟩, a5⟩, a6⟩, a7⟩, a8⟩, a9⟩, a10⟩, a11⟩, a12⟩ := e
  exact ⟨⟨a1, a2, a3, a4, a5, a6, a7⟩, a12, a8, fun c => a9.resolve_left (by simp [c]), fun c => a10.resolve_left (by simp [c]), a11⟩

def readyB (s : State) (a : At) (h : Hdr) (ps : List Port) (tk : Bool) : Bool := clearB s a h ps tk && decide (a.mask h ≠ 0)

theorem ready_of {s : State} {a : At} {h : Hdr} {ps : List Port} (e : readyB s a h ps false = true) : Ready s a h ps := by
  simp only [readyB, Bool.and_eq_true, decide_eq_true_eq] at e
  exact ⟨clear_of e.1, e.2⟩

theorem readyOut_of {s : State} {a : At} {h : Hdr} {ps : List Port} (e : readyB s a h ps true = true) : ReadyOut s a h ps := by
  simp only [readyB, Bool.and_eq_true, decide_eq_true_eq] at e
  exact ⟨clear_of e.1, e.2⟩

/-- The fragment of a team in its world. -/
def here (tm : Team) : At := ⟨0, false, false, tm⟩

/-- A team of two lanes, whose token 3 counts 15, and an instruction that waits for it, and posts. -/
def tm0 : Team := { team 3 [(1, reg [(6, 0), (7, 0)])] [(4, sca 0x500000), (5, sca 0)] with tokN := [(3, ⟨15, false, 0, false⟩)] }
def H1 : Hdr := ⟨⟨false, 7⟩, ⟨15, some 31, some (3, 15)⟩⟩
/-- Register operands of every kind. -/
def P1 : List Port := wr 2 (.v 254) ++ rd 1 (.v 1) ++ rd 2 (.s 62) ++ rd 1 (.i 0) ++ rdPred 1

theorem meets_ready : Ready (world tm0) (here tm0) H1 P1 := ready_of (by decide +kernel)
theorem meets_readyOut : ReadyOut (world tm0) (here tm0) H1 P1 := readyOut_of (by decide +kernel)
theorem meets_IntegerArithmeticCompletes : Ready (world tm0) (here tm0) H1 (wr 1 (.v 3) ++ rd 1 (.v 1) ++ rd 1 (.v 1)) :=
  ready_of (by decide +kernel)
theorem meets_ShiftsFieldsAndMovesComplete : Ready (world tm0) (here tm0) H1 (wr 2 (.v 2) ++ rd 2 (.v 4) ++ rd 1 (.v 1)) :=
  ready_of (by decide +kernel)
theorem meets_FloatInstructionsComplete : Ready (world tm0) (here tm0) H1 (wr 1 (.v 3) ++ (rd 1 (.v 1) ++ rd 1 (.i 1))) :=
  ready_of (by decide +kernel)
theorem meets_CrossLaneCompletes : Ready (world tm0) (here tm0) H1 (wr 2 (.s 2) ++ rdPred 1) ∧
    (∀ k, Opnd.s 2 ≠ .x (.p k)) := ⟨ready_of (by decide +kernel), nofun⟩
theorem meets_DivisionAndSpecialFunctionsComplete : Ready (world tm0) (here tm0) H1 (wr 1 (.v 3) ++ rd 1 (.v 1)) :=
  ready_of (by decide +kernel)
theorem meets_ShiftsFollowTheirTable : Ty.isBit .n64 = true ∧ Ready (world tm0) (here tm0) H1 (wr 2 (.v 2) ++ rd 2 (.v 4) ++ rd 1 (.v 1)) ∧
    64 ≤ 64 := ⟨rfl, ready_of (by decide +kernel), le_refl 64⟩
theorem meets_LogicAndOrderFollowTheirRules : Ty.isInt .i64 = true ∧ Ty.isBit .n32 = true ∧
    Ready (world tm0) (here tm0) H1 (wr 1 (.v 3) ++ rd 1 (.v 1) ++ rd 1 (.v 1)) ∧ (Instr.not H1 .n32 (.v 3) (.v 1)).wf cx = true ∧
    (1 : BitVec 10) ≠ 0 := ⟨rfl, rfl, ready_of (by decide +kernel), by decide +kernel, by decide⟩

/-- `bchk` of a value without bound. -/
theorem meets_BoundsAndBudgetComplete : Ready (world tm0) (here tm0) H1 (rd 1 (.s 4)) ∧
    ∀ l, lane ((here tm0).mask H1) l = true → ∀ v ∈ elemVals .i32 (((world tm0).viewAt (here tm0) H1).rd.el (.s 4) false l).x,
      breaches tm0.mode tm0.budg v (((world tm0).viewAt (here tm0) H1).rd.el (.s 4) false l).b = false := by
  refine ⟨ready_of (by decide +kernel), fun l _ => ?_⟩
  exact (by decide +kernel : ∀ v ∈ elemVals .i32 (((world tm0).viewAt (here tm0) H1).rd.el (.s 4) false 0).x,
      breaches tm0.mode tm0.budg v (((world tm0).viewAt (here tm0) H1).rd.el (.s 4) false 0).b = false)

/-- An open task whose attempt has begun with the next operation. -/
def task0 : Task where
  pc := 0x400000
  exm := 3
  pmask := 3
  stack := []
  spill := 0
  preds := []
  toks := []
  gens := []
  mode := 0
  budg := 0
  firstOp := 0
  pre := []
  floor := 0
  try_ := 0
  nonspec := false
  breach := none
  lines := []
  rerun := none
def tmT : Team := { tm0 with task := some task0 }

theorem meets_TasksComplete :
    (Ready (world tm0) (here tm0) H1 [] ∧ tm0.inH = false ∧ tm0.split = false ∧ tm0.task = none ∧
      ((world tm0).issued (here tm0)).openTasks 0 < 64 ∧ ∀ e ∈ tm0.stack, e.bad = false) ∧
    (Ready (world tmT) (here tmT) H1 [] ∧ tmT.inTask = some task0 ∧ tmT.split = false ∧ task0.breach = none ∧
      ∀ o ∈ (world tmT).ops, o.2.team = 0 → task0.firstOp ≤ o.1 → ¬ (o.2.cunit = .mem ∧ o.2.dst = []) ∧ o.2.cunit ≠ .matrix) :=
  ⟨⟨ready_of (by decide +kernel), by decide +kernel⟩, ready_of (by decide +kernel), by decide +kernel⟩

theorem meets_TokensAndPlainControlComplete : Ready (world tm0) (here tm0) H1 [] ∧
    (let t := tm0.tok tm0.curBank 3; (15 : BitVec 8).toNat ≤ t.count ∧ t.err = false ∧ t.ovf = false) :=
  ⟨ready_of (by decide +kernel), by decide +kernel⟩

/-- A guard on a predicate that is false in every lane, and one that is never. -/
def Hp : Hdr := ⟨⟨false, 1⟩, ⟨0, none, none⟩⟩
def Hn : Hdr := ⟨⟨true, 7⟩, ⟨0, none, none⟩⟩
def tmB : Team := { tm0 with p0 := { tm0.p0 with spin := 62 } }

theorem meets_BranchesAndCallsComplete :
    (Clear (world tmB) (here tmB) H1 [] false ∧ ((world tmB).viewAt (here tmB) H1).doubt = 0 ∧ H1.g ≠ ⟨true, 7⟩ ∧
      (here tmB).path.exm &&& ~~~(here tmB).mask H1 = 0 ∧ (here tmB).onward ((here tmB).path.pc + ((1 : BitVec 20).signExtend 64 <<< 2)) ∧
      ¬ (here tmB).onward ((here tmB).path.pc + ((0xFFFFF : BitVec 20).signExtend 64 <<< 2)) ∧ (here tmB).path.spin + 1 < 64) ∧
    (Clear (world tm0) (here tm0) Hn [] false ∧ ((world tm0).viewAt (here tm0) Hn).doubt = 0 ∧ Hn.g = ⟨true, 7⟩) ∧
    (Clear (world tm0) (here tm0) Hp [] false ∧ ((world tm0).viewAt (here tm0) Hp).doubt = 0 ∧ (here tm0).mask Hp = 0 ∧
      (here tm0).path.exm ≠ 0) ∧
    (Clear (world tm0) (here tm0) H1 (rd 2 (.s 4)) false ∧ (here tm0).mask H1 = (here tm0).path.exm ∧
      (∀ l < 64, lane (here tm0).path.exm l = true → ((world tm0).viewAt (here tm0) H1).rd.wide (.s 4) l = 0x500000) ∧
      0x500000 % 4 = 0) ∧
    (Clear (world tm0) (here tm0) H1 (rd 2 (.s 62)) false ∧
      (BitVec.ofNat 64 (((world tm0).viewAt (here tm0) H1).rd.wide (.s 62) 0)).toNat % 4 = 0) ∧
    (Clear (world tm0) (here tm0) H1 (wr 2 (.s 62) ++ rd 2 (.s 4)) false ∧
      (here tm0).onward (BitVec.ofNat 64 (((world tm0).viewAt (here tm0) H1).rd.wide (.s 4) 0))) := by
  refine ⟨⟨clear_of ?_, ?_⟩, ⟨clear_of ?_, ?_⟩, ⟨clear_of ?_, ?_⟩, ⟨clear_of ?_, ?_⟩, ⟨clear_of ?_, ?_⟩, clear_of ?_, ?_⟩ <;>
    (try simp only [At.onward]) <;> decide +kernel


theorem pair_of {α β : Type} {r : α × β} {v : α} {P : β → Prop} (h : r.1 = v) (p : P r.2) : ∃ b, r = (v, b) ∧ P b :=
  ⟨r.2, Prod.ext h rfl, p⟩

/-- A team at a divergent branch, with an unused JOIN of its own address on top: it may split; with 30 entries below the
JOIN it may not. -/
def join0 : Entry := ⟨.join, false, false, false, 0x100000, 3, false⟩
def path0 : Entry := ⟨.path, false, false, false, 0x100040, 2, false⟩
def tmD : Team := { tm0 with p := [(1, ⟨1, 0⟩)], stack := [join0] }
def tmN : Team := { tmD with stack := join0 :: List.replicate 30 path0 }
def tmP : Team := { tmD with stack := [path0, join0] }

theorem meets_DivergentBranchSplitsOrSerialises :
    (Clear (world tmD) (here tmD) Hp [] false ∧ ((world tmD).viewAt (here tmD) Hp).doubt = 0 ∧ Hp.g ≠ ⟨true, 7⟩ ∧
      (here tmD).mask Hp ≠ 0 ∧ (here tmD).path.exm &&& ~~~(here tmD).mask Hp ≠ 0 ∧
      popView tmD.split false tmD.stack = some (join0, [], 0) ∧ join0.kind = .join ∧ join0.used = false ∧ join0.bad = false ∧ tmD.maySplit = true) ∧
    (Clear (world tmN) (here tmN) Hp [] false ∧ ((world tmN).viewAt (here tmN) Hp).doubt = 0 ∧ (here tmN).mask Hp ≠ 0 ∧
      (here tmN).path.exm &&& ~~~(here tmN).mask Hp ≠ 0 ∧
      popView tmN.split false tmN.stack = some (join0, List.replicate 30 path0, 30) ∧ tmN.maySplit = false ∧
      tmN.stack.length < 32 ∧ (here tmN).onward ((here tmN).path.pc + ((1 : BitVec 20).signExtend 64 <<< 2))) := by
  refine ⟨⟨clear_of ?_, ?_⟩, clear_of ?_, ?_⟩ <;> (try simp only [At.onward]) <;> decide +kernel

theorem meets_JoinsAndExitComplete :
    (Clear (world tmD) (here tmD) Hp [] true ∧ (here tmD).mask Hp ≠ 0 ∧ (here tmD).path.exm &&& ~~~(here tmD).mask Hp ≠ 0) ∧
    (Ready (world tmN) (here tmN) H1 [] ∧ tmN.stack.length < 32) ∧
    (Clear (world tmD) (here tmD) H1 (wrPred 2 ++ rd 1 (.i 50)) false ∧
      (viewOf tmD.split false tmD.stack).find? (fun e => e.kind = .join) = some join0 ∧ ofEntryPc join0.pc = (here tmD).path.pc ∧
      popView tmD.split false tmD.stack = some (join0, [], 0) ∧ tmD.mayPop 0 = true ∧ join0.mask &&& ~~~tmD.exited ≠ 0 ∧
      join0.spl = false ∧ join0.bad = false) ∧
    (Clear (world tmP) (here tmP) H1 [] false ∧
      (viewOf tmP.split false tmP.stack).find? (fun e => e.kind = .join) = some join0 ∧
      popView tmP.split false tmP.stack = some (path0, [join0], 1) ∧ tmP.mayPop 1 = true ∧ path0.mask &&& ~~~tmP.exited ≠ 0 ∧
      path0.kind ≠ .join ∧ path0.bad = false) := by
  refine ⟨⟨clear_of ?_, ?_⟩, ⟨ready_of ?_, ?_⟩, ⟨clear_of ?_, ?_⟩, clear_of ?_, ?_⟩ <;> decide +kernel

/-- A team with a condition block in s8 and s9: token 3 at least thr. -/
def tmW (thr : Nat) : Team := { tm0 with s := tm0.s ++ [(8, sca (3 + thr * 256)), (9, sca 0x10000000)] }

theorem meets_WaitsComplete :
    (Ready (world (tmW 15)) (here (tmW 15)) H1 (wrPred 1 ++ rd 2 (.s 8) ++ rd 1 (.i 50)) ∧
      BlockOk ((world (tmW 15)).viewAt (here (tmW 15)) H1) ((world (tmW 15)).issued (here (tmW 15))) (.s 8) 0 [.token false 3 15] ∧
      ∃ s1, ((world (tmW 15)).viewAt (here (tmW 15)) H1).evalBlock [.token false 3 15] ((world (tmW 15)).issued (here (tmW 15)))
        = (.truth [true], s1) ∧ (here (tmW 15)).pathWaits s1 Op.reads = false ∧ s1.hole = false) ∧
    (Ready (world (tmW 16)) (here (tmW 16)) H1 (rd 2 (.s 8)) ∧
      BlockOk ((world (tmW 16)).viewAt (here (tmW 16)) H1) ((world (tmW 16)).issued (here (tmW 16))) (.s 8) 0 [.token false 3 16] ∧
      ∃ s1, ((world (tmW 16)).viewAt (here (tmW 16)) H1).evalBlock [.token false 3 16] ((world (tmW 16)).issued (here (tmW 16)))
        = (.truth [false], s1) ∧ s1.hole = false) :=
  ⟨⟨ready_of (by decide +kernel), ⟨by decide +kernel, by decide +kernel, by simp⟩,
    pair_of (by decide +kernel) ⟨by decide +kernel, by decide +kernel⟩⟩,
   ready_of (by decide +kernel), ⟨by decide +kernel, by decide +kernel, by simp⟩, pair_of (by decide +kernel) (by decide +kernel)⟩

/-- A group with cluster and stack barriers. -/
def world2 (tm : Team) : State :=
  let w (st : Option Nat) : WideBar := ⟨0, st, 0, 2, 0, 0, [], []⟩
  let s := world tm
  { s with wide := [(0, w none), (1, w (some 0))], groups := s.groups.map (fun g => (g.1, { g.2 with cluster := some 0, stackB := some 1 })) }
def tmK : Team := { tm0 with s := tm0.s ++ [(6, sca 1023), (7, sca 0x7FFFFFFF)] }

theorem meets_FencesAndTimelinesComplete :
    (Ready (world tm0) (here tm0) H1 [] ∧ Released ((world tm0).issued (here tm0)) (here tm0) .sys ∧
      (here tm0).pathWaits ((world tm0).issued (here tm0)) Op.reads = false ∧ (tget (world tm0).groups 0).isSome = true) ∧
    (Ready (world tm0) (here tm0) H1 (wr 2 (.s 2) ++ rd 1 (.i 7)) ∧ (∃ g, ((world tm0).issued (here tm0)).group tm0.group = some g) ∧
      ((world tm0).viewAt (here tm0) H1).num (.i 7) ≤ 7) ∧
    (ReadyOut (world tm0) (here tm0) H1 (rd 1 (.i 2) ++ rd 2 (.s 4)) ∧ 2 ≤ ((world tm0).viewAt (here tm0) H1).num (.i 2) ∧
      2 ≤ ((world tm0).viewAt (here tm0) H1).num (.i 7) ∧ ((world tm0).viewAt (here tm0) H1).num (.i 7) ≤ 7) := by
  refine ⟨⟨ready_of ?_, by unfold Released; decide +kernel, ?_⟩, ⟨ready_of ?_, Option.isSome_iff_exists.mp ?_, ?_⟩, readyOut_of ?_, ?_⟩ <;>
    decide +kernel

theorem meets_BarriersComplete :
    (ReadyOut (world tmK) (here tmK) H1 (rd 1 (.i 15) ++ rd 1 (.s 6)) ∧
      ((world tmK).viewAt (here tmK) H1).barRef ((world tmK).issued (here tmK)) 15 = .grp 15 ∧
      ((world tmK).viewAt (here tmK) H1).num (.s 6) = 1023 ∧ ((world tmK).viewAt (here tmK) H1).num (.i 1) = 1 ∧
      ((world tmK).viewAt (here tmK) H1).num (.s 7) < 2 ^ 31) ∧
    (ReadyOut (world2 tmK) (here tmK) H1 (rd 1 (.i 0)) ∧ Released ((world2 tmK).issued (here tmK)) (here tmK) .dev ∧
      [0, 16, 17].all (fun n => decide (((world2 tmK).viewAt (here tmK) H1).barRef ((world2 tmK).issued (here tmK)) n ≠ .none)) = true ∧
      2 ≤ Scope.num .clu ∧ 3 ≤ Scope.num .stk ∧
      (((world2 tmK).issued (here tmK)).barLoad tmK.group (.grp 0)).1 < (((world2 tmK).issued (here tmK)).barLoad tmK.group (.grp 0)).2) ∧
    (Ready (world2 tmK) (here tmK) H1 (wr 2 (.s 2) ++ rd 1 (.i 0)) ∧
      (∃ g, ((world2 tmK).issued (here tmK)).group tmK.group = some g ∧ (tget g.bars 0).isSome = true) ∧
      ((world2 tmK).viewAt (here tmK) H1).barRef ((world2 tmK).issued (here tmK)) 17 = .wide 1 ∧
      (tget ((world2 tmK).issued (here tmK)).wide 1).isSome = true) := by
  refine ⟨⟨readyOut_of ?_, ?_⟩, ⟨readyOut_of ?_, by unfold Released; decide +kernel, ?_⟩, ready_of ?_, ⟨_, rfl, ?_⟩, ?_⟩ <;> decide +kernel

/-- A world whose context has privilege (PTROOT.PRV). -/
def worldP (tm : Team) : State := { world tm with ctxs := tset (world tm).ctxs 0 { (world tm).ctx 0 with ptroot := fetchRoot ||| 2 ^ 62 } }

theorem meets_SpecialRegistersAreReadAndWritten :
    Ready (worldP tm0) (here tm0) H1 (wr (sysWidth (.sp .exm)) (.s 2) ++ rd 1 (.x .exm)) ∧
    Ready (worldP tm0) (here tm0) H1 (wr (sysWidth (.sp .tfrag)) (.s 4)) ∧
    (Ready (worldP tm0) (here tm0) H1 (rd 2 (.s 4)) ∧
      (let v : Dword := BitVec.ofNat 64 (((worldP tm0).viewAt (here tm0) H1).rd.wide (.s 4) 0)
       v.toNat % 4 = 0 ∧ v.toNat < 2 ^ 56 ∧ v.toNat % 1024 = 0) ∧
      ((worldP tm0).issued (here tm0)).prv tm0.ctx = true) := by
  refine ⟨ready_of ?_, ready_of ?_, ready_of ?_, ?_⟩ <;> decide +kernel

theorem meets_TranslationCheckpointAndResidencyComplete_translation :
    ReadyOut (worldP tm0) (here tm0) H1 (rd 2 (.s 4) ++ rd 1 (.i 63)) ∧ ((worldP tm0).issued (here tm0)).prv tm0.ctx = true ∧
    ((worldP tm0).viewAt (here tm0) H1).num (.i 63) ≤ 63 ∧ ReadyOut (worldP tm0) (here tm0) H1 (wr 2 (.s 62)) := by
  refine ⟨readyOut_of ?_, ?_, ?_, readyOut_of ?_⟩ <;> decide +kernel

/-- r is a value v with a state s, of which P holds. -/
def yields {ε α β : Type} (r : Except ε α × β) (P : α → β → Bool) : Bool :=
  match r with
  | (.ok v, s) => P v s
  | _ => false

theorem yields_spec {ε α β : Type} {r : Except ε α × β} {P : α → β → Bool} (h : yields r P = true) :
    ∃ v s, r = (.ok v, s) ∧ P v s = true := by
  obtain ⟨r, s⟩ := r
  cases r <;> first | exact ⟨_, _, rfl, h⟩ | cases h

/-- What a load from [s4 + index + off] asks for beside `Ready`: good addresses, pages that translate, whole scratchpad. -/
def loads (s : State) (a : At) (h : Hdr) (via : Via) (ty : Ty) (c : Cnt) (d o b : Opnd) (off : BitVec 20)
    (P : List Acc → State → Bool) : Bool :=
  let x := s.viewAt a h
  let n := cntN c
  let as := (x.work d).map (x.addr o b off)
  decide (x.addrErr (s.issued a) (n * ty.bytes) (n * ty.bytes) as = none) &&
  yields ((s.issued a).resolveAll a.tm false (via ≠ .comp) [] (((x.work d).zip as).flatMap (fun p =>
    (List.range n).map (fun j => (p.1, p.2, p.2 + j * ty.bytes, ty.bytes))))) (fun accs s1 =>
      let cs := accs.flatMap (fun k => k.chunks)
      decide (s1.scrEcc cs = none) && s1.lineRoom a.tm.core (lineCount cs) && !cs.any Chunk.isSide && P accs s1)

/-- A team under PROG at a JOIN. -/
def tmG : Team := { tmD with mode := tm0.mode ||| 0x200000 }

theorem meets_LoadsAndCacheOperationsComplete_loads :
    (Ready (world tm0) (here tm0) H1 (loadPorts .n32 .c2 (.v 10) (.s 4) (.v 6)) ∧
      loads (world tm0) (here tm0) H1 .l1 .n32 .c2 (.v 10) (.s 4) (.v 6) 0xFF8 (fun accs s1 =>
        !((world tm0).issued (here tm0)).hole && !(s1.doLoad tm0 .l1 .n32 (.v 10) 2 accs).2.hole) = true) ∧
    (Ready (world tmG) (here tmG) H1 (loadPorts .n32 .c1 (.v 10) (.s 4) (.i 0)) ∧ mProg tmG.mode = true ∧
      (∀ e q k, popView tmG.split false tmG.stack = some (e, q, k) → e.kind = .join ∧ e.bad = false) ∧
      loads (world tmG) (here tmG) H1 .home .n32 .c1 (.v 10) (.s 4) (.i 0) 0 (fun accs s1 =>
        !(s1.doLoad tmG .home .n32 (.v 10) 1 accs).2.hole &&
        decide (tget (s1.doLoad tmG .home .n32 (.v 10) 1 accs).2.teams 0 = tget ((world tmG).issued (here tmG)).teams 0)) = true) := by
  refine ⟨⟨ready_of ?_, ?_⟩, ready_of ?_, rfl, fun e q k h => ?_, ?_⟩
  · decide +kernel
  · decide +kernel
  · decide +kernel
  · cases h; exact ⟨rfl, rfl⟩
  · decide +kernel

theorem meets_LoadsAndCacheOperationsComplete_caches : Ready (world tm0) (here tm0) H1 (rd 2 (.s 4) ++ rdIndex (.v 6)) ∧
    (((world tm0).issued (here tm0)).cacheWork 0 0
      (.cinv (some ((((world tm0).viewAt (here tm0) H1).globals (.s 4) (.v 6) 0x7FFFF).map (· / 128))))).hole = false :=
  ⟨ready_of (by decide +kernel), by decide +kernel⟩

/-- What a store asks for beside `Ready`: good addresses, parts whose pages take the write, none in breach. -/
def stores (s : State) (a : At) (i : Instr) : Bool :=
  match storeForm s a i with
  | some (h, ps, err, pcs) =>
    let r := ((s.issued a).unspin (s.viewAt a h)).resolveParts a.tm [] (pcs.flatMap (fun p =>
      (cutBytes p.addr (a.tm.runs_ p.lane p.addr p.bs.length) p.bs p.keep).map (fun r => (p, r))))
    readyB s a h ps false && decide (err = none) && !a.tm.versions &&
      r.1.all (fun p => match p.look with | .ok _ _ => true | _ => false) &&
      decide ((BitVec.ofNat 64 ((s.viewAt a h).partsBreach r.2 (r.1.filter Part.checked)) : Mask) = 0) &&
      r.2.lineRoom a.tm.core (lineCount (r.1.map (fun p => p.wr.c))) && !r.1.isEmpty && !r.2.hole
  | none => false

/-- A world in which the team's model, number 5, has one layer of each activation form, and the base of a bit window lies in s8. -/
def entryOf (f : Nat) : Layer := ⟨BitVec.ofNat 256 (f * 2 ^ 210), 0, 0, 0, 0, .resident, 0, []⟩
def tmL : Team := { tm0 with modelid := 0x80000005 }
def worldL (tm : Team) : State := { world tm with models := [(0, ⟨5, 0, 1, 0, 0, [entryOf 0, entryOf 1, entryOf 2]⟩)] }

theorem meets_StoresComplete :
    [Instr.st H1 .n32 .c2 (.v 10) (.s 4) (.v 6) 0xFF8, .stm H1 .c4 (.v 10) (.s 4) (.i 0xFF) 0, .stc H1 .f32 (.v 6) (.s 4) (.i 0) 0,
      .stc H1 .f32 (.v 6) (.s 4) (.i 1) 8, .stc H1 .f32 (.v 6) (.s 4) (.i 2) 64].all (stores (worldL tmL) (here tmL)) = true ∧
    [0, 1, 2].map (fun n => ((worldL tmL).issued (here tmL)).asf 0 n) = [0, 1, 2] := by
  constructor <;> decide +kernel

/-- What an `atom` or `red` of one lane asks for beside `ReadyOut`. -/
theorem meets_AtomicsComplete :
    let x := (world tm0).viewAt (here tm0) H1
    let g := x.atArg .f32 .fadd .rsr .grp true (some (.v 10))
    let g2 := x.atArg .n64 .xor .dflt .sys false none
    let s0 := (world tm0).issued (here tm0)
    let ls := atLanes x g (.s 4) (.v 6) (.i 0)
    let ls2 := atLanes x g2 (.s 4) (.v 6) (.i 0)
    (ReadyOut (world tm0) (here tm0) H1 (wr 1 (.v 10) ++ rd 2 (.s 4) ++ rd 1 (.v 6) ++ rd 1 (.i 7)) ∧
      x.addrErr s0 4 4 (ls.map (fun l => l.addr)) = none ∧ Released (s0.unspin x) (here tm0) .sys ∧
      yields ((s0.unspin x).resolveAll tm0 true false [] (ls.map (fun l => (l.lane, l.addr, l.addr, 4)))) (fun accs s1 =>
          let rs := (ls.zip accs).map (fun p => p.1.rmw p.2.chunks)
          let s2 := s1.atGens x g ls
          decide (s1.scrEcc (rs.flatMap (fun r => r.at_)) = none) && s1.lineRoom 0 (lineCount (rs.flatMap (fun r => r.at_))) &&
            !s1.hole && decide (rs.length = 2) && (tget s2.teams 0).isSome &&
            decide (tget (s2.doAtom 0 0 g.ty g.op g.m g.ftz g.d rs).2.2.teams 0 = tget s2.teams 0)) = true) ∧
    (ReadyOut (world tm0) (here tm0) H1 (rd 2 (.s 4) ++ rd 2 (.v 6)) ∧
      x.addrErr s0 8 8 (ls2.map (fun l => l.addr)) = none ∧ Released (s0.unspin x) (here tm0) .sys ∧
      (let r := (s0.unspin x).resolveEach tm0 8 [] ls2
       r.1.all (fun c => match c.2 with | .ok cs => decide (r.2.scrEcc cs = none) | _ => false) = true ∧ r.1.length = 2 ∧
         r.1.map Prod.fst = ls2 ∧ r.2.lineRoom 0 4 = true ∧ r.2.hole = false)) := by
  refine ⟨⟨readyOut_of ?_, ?_, ?_, ?_⟩, readyOut_of ?_, ?_, ?_, ?_⟩ <;> (try unfold Released) <;> decide +kernel

/-- A group with 16 barriers, whose copies are aligned at 0 of the scratchpad (s10) and 0x500000 (s4). -/
def tmC : Team := { tm0 with s := tm0.s ++ [(10, sca 0), (11, sca 0xFF000000), (12, sca 0), (13, sca 0xF070),
  (14, sca 16), (15, sca 0xFFFFFFFF)] }

theorem meets_EngineCommandsComplete :
    let x := (world tmC).viewAt (here tmC) H1
    let s0 := (world tmC).issued (here tmC)
    (ReadyOut (world tmC) (here tmC) H1 (rd 2 (.s 10) ++ rd 2 (.s 4) ++ rd 2 (.s 14)) ∧
      (∀ t ∈ (lanesOf x.e).map (fun l => (l, x.rd.wide (.s 10) l, x.rd.wide (.s 4) l, cplBytes .b16)),
        x.outside s0 t.2.1 t.2.2.2 = none ∧ x.outside s0 t.2.2.1 t.2.2.2 = none ∧ alignOf t.2.1 % 16 = 0 ∧
        alignOf t.2.2.1 % 16 = 0) ∧
      (∀ t ∈ once (.s 10) (.s 4) (fun x => x.rd.wide (.s 14) 0 % 2 ^ 32) x,
        x.outside s0 t.2.1 t.2.2.2 = none ∧ x.outside s0 t.2.2.1 t.2.2.2 = none ∧ alignOf t.2.1 % 16 = 0 ∧
        alignOf t.2.2.1 % 16 = 0 ∧ t.2.2.2 % 16 = 0 ∧ peerWide t.2.2.1 = none) ∧
      (∀ t ∈ once (.s 4) (.s 10) (fun x => x.rd.wide (.s 14) 0 % 2 ^ 32) x, peerWide t.2.1 = none ∧
        x.outside s0 t.2.2.1 t.2.2.2 = none) ∧
      ∃ g, s0.group tmC.group = some g ∧ g.copy.load < 64) ∧
    (ReadyOut (world tmC) (here tmC) H1 (rd 2 (.s 12) ++ rd 2 (.s 4)) ∧
      (let r : Dword := BitVec.ofNat 64 (x.rd.wide (.s 12) 0)
       ∃ g, s0.group tmC.group = some g ∧ ringBad r g.nbar = false ∧
        ringBase r + ringSlots r * ringSlot r ≤ g.alloc ∧ ringSlots r * ringSlot r = 1024 ∧ x.rd.wide (.s 4) 0 < 2 ^ 56 ∧
        ringBase r % 128 = 0 ∧ x.rd.wide (.s 4) 0 % 16 = 0 ∧ g.dec.load < 64)) ∧
    (∀ q ∈ [(3, 5), (0, 6), (3, 7)], (q.1 : Nat) < 4) := by
  refine ⟨⟨readyOut_of ?_, ?_, ?_, ?_, _, rfl, ?_⟩, ⟨readyOut_of ?_, _, rfl, ?_⟩, ?_⟩ <;> decide +kernel

/-- A team of all 64 lanes, and a world in which its group holds the lease. -/
def shape (c : Nat) (ty : Ty) (rows cols stride : Nat) : Nat :=
  c * 2 ^ 62 + ty.code.toNat * 2 ^ 57 + (stride / 16) * 2 ^ 28 + (cols - 1) * 2 ^ 14 + (rows - 1)
def withDescs (ds : Tbl TileDesc) : Team := { team allLanes [] [(4, sca 0x500000), (5, sca 0),
  (6, sca (shape 0 .bf16 128 64 128 % 2 ^ 32)), (7, sca (shape 0 .bf16 128 64 128 / 2 ^ 32)), (8, sca 0x7FF80)] with td := ds }
def worldM (tm : Team) : State :=
  let s := world tm
  { s with cores := tset s.cores 0 { s.core 0 with mx := { (s.core 0).mx with holder := some 0 } } }
/-- The record of class c, bf16 or f32, `rows` by `cols`, row-major, at a base. -/
def desc (c : Nat) (ty : Ty) (rows cols stride base : Nat) : TileDesc :=
  ⟨tileRecord base (shape c ty rows cols stride), 0⟩
def tmM : Team := withDescs [(1, desc 0 .bf16 128 64 128 0x500000), (2, desc 1 .bf16 64 256 512 0x500000),
  (3, desc 2 .f32 128 256 1024 (2 ^ 56 - 128 * 1024))]
/-- Room for one more command in the quadrant's queue. -/
def room (s : State) : Bool := decide (((s.core 0).mx.queue 0).length < 32)

theorem meets_MatrixCommandsAndStoresEnter_commands :
    let s := worldM tmM
    let a := here tmM
    let x := s.viewAt a H
    let A := x.mmaA (s.issued a) .bf16 (.td 1) 1
    let B := x.mmaB (s.issued a) .bf16 12 (.td 2) 1
    (Ready s a H (rd 2 (.s 4) ++ rd 2 (.s 6)) ∧ shapeBad (x.rd.wide (.s 6) 0) = false ∧ x.rd.wide (.s 4) 0 < 2 ^ 56 ∧ x.rd.wide (.s 4) 0 % 16 = 0) ∧
    (Ready s a H (rd 1 (.s 8)) ∧ x.num (.s 8) < 2 ^ 19 ∧ x.num (.s 8) % 128 = 0) ∧
    (Ready s a H [] ∧ A.2 = none ∧ B.2 = none ∧ A.1.2 = B.1.1 ∧ A.1.2 % groupLen .bf16 = 0 ∧
      (x.scaled (.td 1) || x.scaled (.td 2)) = false ∧ 12 + ceilDiv B.1.2 64 = 16) ∧
    Ready s a H (wr (rowRegs .f32 3) (.v 252) ++ rd 1 (.s 8)) ∧ Ready s a H (wr 1 (.v 2) ++ rd 1 (.i 15)) ∧
    a.mask H = allLanes ∧ (s.core a.tm.core).mx.holder = some a.tm.group ∧ room s = true := by
  refine ⟨⟨ready_of ?_, ?_⟩, ⟨ready_of ?_, ?_⟩, ⟨ready_of ?_, ?_⟩, ready_of ?_, ready_of ?_, ?_⟩ <;> decide +kernel

/-- The team inside `mst` with its conversion's result: one piece of four bytes for lane 0. -/
def mst3 : Held := ⟨0, 0, [0, 1] ++ List.replicate 64 9 ++ [0, 0x500000, 0x500000, 1, 4, 0x3F800000, 0, 0, 0x6B00, 1, 10, 0], 3, [], none, .open⟩
def inside (i : Instr) (w : Held) (tm : Team) : Team :=
  tm.setPath false { tm.path false with hold := .inside i w.clk0 w.rt0 ((tm.path false).exm.toNat :: w.cap) w.stage w.pages w.layer w.fate }
def withinB (s : State) (a : At) (i : Instr) (e : Mask) (w : Held) : Bool :=
  decide (s.cur = some (a.t, a.f, a.late)) && decide (tget s.teams a.t = some a.tm) && a.tm.runs a.f && !s.stopped a.tm &&
    decide (a.path.hold = .inside i w.clk0 w.rt0 (e.toNat :: w.cap) w.stage w.pages w.layer w.fate) &&
    decide (w.pages = [] ∨ w.fate ≠ .open) && !s.hole

theorem within_of {s : State} {a : At} {i : Instr} {e : Mask} {w : Held} (h : withinB s a i e w = true) : Within s a i e w := by
  simp only [withinB, Bool.and_eq_true, decide_eq_true_eq, Bool.not_eq_true'] at h
  obtain ⟨⟨⟨⟨⟨⟨a1, a2⟩, a3⟩, a4⟩, a5⟩, a6⟩, a7⟩ := h
  exact ⟨a1, a2, a3, a4, a5, a6, a7⟩

def storeTile : Instr := .mst H .f32 .rsr 3 12
def tmS : Team := inside storeTile mst3 (tmM.setPath false { tmM.path false with claim := some ⟨0, .matrix, none, [], []⟩ })

theorem meets_MatrixCommandsAndStoresEnter_stores :
    (let t := tmM.desc 3
     Ready (worldM tmM) (here tmM) H [] ∧ (here tmM).mask H = allLanes ∧ descBad t 2 .f32 = none ∧ t.rows = 128 ∧ t.cols = 256 ∧
      12 + ceilDiv t.cols 64 = 16 ∧ t.beyond .f32 = none ∧ room (worldM tmM) = true) ∧
    (Within (worldM tmS) (here tmS) storeTile allLanes mst3 ∧ (here tmS).mask H = allLanes ∧ tmS.versions = false ∧
      (let r := ((((worldM tmS).resumed (here tmS)).modTeam 0 (fun tm =>
          { tm with gens := ((mst3.cap.drop 2).take 64).map (BitVec.ofNat 32) })).unspin ((worldM tmS).viewIn (here tmS) H allLanes mst3)).resolveParts
            tmS [] ((piecesOf (mst3.cap.drop 66)).flatMap (fun p =>
              (cutBytes p.addr (tmS.runs_ p.lane p.addr p.bs.length) p.bs p.keep).map (fun r => (p, r))))
       r.1.length = 1 ∧ r.1.all (fun p => match p.look with | .ok _ _ => true | _ => false) = true ∧
         (BitVec.ofNat 64 (((worldM tmS).viewIn (here tmS) H allLanes mst3).partsBreach r.2 (r.1.filter Part.checked)) : Mask) = 0 ∧
         r.2.hole = false ∧ mst3.cap.headD 0 = 0 ∧ (here tmS).path.claim.isSome = true)) := by
  refine ⟨⟨ready_of ?_, ?_⟩, within_of ?_, ?_⟩ <;> decide +kernel

theorem meets_TranslationCheckpointAndResidencyComplete_residency :
    let x := (worldL tmL).viewAt (here tmL) H
    let s0 := (worldL tmL).issued (here tmL)
    ReadyOut (worldL tmL) (here tmL) H (rd 1 (.i 5) ++ rd 1 (.i 2)) ∧ Ready (worldL tmL) (here tmL) H (wr 2 (.s 2) ++ rd 1 (.i 5) ++ rd 1 (.i 2)) ∧
    x.layerArg s0 (x.num (.i 5)) (x.num (.i 2)) = .ok (0, 2) ∧
    (∃ m, tget (worldL tmL).models 0 = some m ∧
      (let s1 : State := { s0 with models := tmod s0.models 0 (fun m => { m with cur := 2 }), useCnt := s0.useCnt + 1 }
       let s2 := s1.modLayer 0 2 (fun y => { y with pin := y.pin + 1, use := s0.useCnt })
       let top := min (2 + m.la + 1) m.layers.length
       ((s2.request 0 2 true []).hints 0 3 top ((List.range (top - 3)).map (fun j => 3 + j))).hole = false) ∧
      (s0.hints 0 2 (min (2 + 255 + 1) m.layers.length) []).hole = false) ∧
    ∃ y, s0.layerOf 0 2 = some y ∧ y.pin < 65535 := by
  refine ⟨readyOut_of ?_, ready_of ?_, ?_, ⟨_, rfl, ?_⟩, _, rfl, ?_⟩ <;> decide +kernel

/-- The partner of pair 9 waits on core 1 (operation 7, of a team there). -/
def worldX (tm : Team) : State :=
  let s := world tm
  { s with teams := s.teams ++ [(1, { tm with core := 1 })], nextOp := 8
           ops := [(7, ⟨0, 1, 0, 2, .tandem, none, false, [], [], none, 0, false, .txch 9 3 1 2 [[], []] 0 (some 5)⟩)] }
def tmX : Team := { tm0 with s := tm0.s ++ [(8, sca 0x5FFFC0)] }

theorem meets_ExchangesAndCollectivesComplete :
    (ReadyOut (worldX tmX) (here tmX) H1 (rd 4 (.v 252) ++ wr 4 (.v 252) ++ rd 1 (.i 9) ++ rd 1 (.i 0x3FF)) ∧
      ((worldX tmX).issued (here tmX)).partner 0 0 8 = none ∧ (((worldX tmX).issued (here tmX)).tandem 0).length < 256 ∧
      (((worldX tmX).issued (here tmX)).partner 0 0 9).isSome = true) ∧
    (ReadyOut (worldX tmX) (here tmX) H1 (rd 2 (.s 8) ++ rd 1 (.i 0x3FF)) ∧
      ((worldX tmX).viewAt (here tmX) H1).rd.wide (.s 8) 0 = 0x5FFFC0) := by
  refine ⟨⟨readyOut_of ?_, ?_⟩, readyOut_of ?_, ?_⟩ <;> decide +kernel

/-- A read request on its way from stop 0 of stack 0 to stop 9, and a bulk line and a response that may enter. -/
def pkt (k : PacketKind) (v : VC) : Packet := ⟨1, .stop 0 0, .stop 0 9, k, v⟩
def net0 : Net := { Net.empty with bufs := [(⟨0, pUnit⟩, .req, (pkt .readReq .req).flits)], room := [.stop 0 9], grants := [(.stop 0 9, .stop 0 0)] }

theorem meets_NetworkAndCachesFollowTheirRules :
    net0.chosen = [(⟨0, pXp⟩, pUnit, .req)] ∧ farEnd ⟨0, pXp⟩ ≠ none ∧ entersRing 0 pUnit pXp = true ∧
    (net0.pick ⟨0, pXp⟩ = some (pUnit, .req) ∧ [VC.req, .rsp, .coh, .bulk].all (fun w => (inputsOf 0).all (fun j => !net0.aged ⟨0, pXp⟩ j w)) =
      true ∧ vcOrder.idxOf .coh < vcOrder.idxOf .req) ∧
    [(PacketKind.readRsp, VC.rsp), (.copyLine, .bulk)].all (fun p => net0.mayEnter (pkt p.1 p.2)) = true ∧
    (let s : State := { State.reset with ctxs := [(0, { State.reset.ctx 0 with l2qt := 0 })] }
     ([] : List CLine).length ≤ 16 ∧ s.quota (some 0) 0 = 0 ∧
      (CLine.mates [] ⟨5, some 0, 0, false, false⟩).length < State.reset.quota (some 0) 0) := by decide +kernel

/-- A page is found. -/
def found (r : Look × State) : Bool := (match r.1 with | .ok _ _ => true | _ => false) && !r.2.hole

theorem found_spec {r : Look × State} (h : found r = true) : ∃ pa p s1, r = (.ok pa p, s1) ∧ s1.hole = false := by
  obtain ⟨l, s⟩ := r
  cases l <;> simp_all [found]

/-- A handler whose interrupted path is at 0x400100, its frame with an empty stack and a mask of two lanes. -/
def tmRti (n : Nat) : Team :=
  let tm := { tm0 with tcause := 0x8000000D, tepc := 0x400100, intr := some ⟨false, false, { tm0.p0 with exm := 0 }⟩ }
  if n = 0 then tm else inside (.rti H) ⟨0, 0, [0], 1, [], none, .open⟩ tm
def worldR (tm : Team) : State := { world tm with mem := cellSet (world tm).mem 0x500008 3 }

theorem meets_TrapsAndReturnsComplete :
    (Ready (world tm0) (here tm0) H1 [] ∧ tm0.inH = false ∧ thV ((world tm0).ctx 0).thcfg = true ∧
      found (((((world tm0).issued (here tm0)).drain 0).modTeam 0 (fun tm => { tm.setPath false { tm.path false with hold := .free } with
        pendTrap := some { frag := false, cause := .trap, sub := 0, val := (0x80000 : BitVec 20).signExtend 64, epc := 0x40000C } })).look
          0 0x500000 true) = true) ∧
    (Ready (worldR (tmRti 0)) (here (tmRti 0)) H [] ∧ (tmRti 0).inH = true ∧ (tmRti 0).tepc.toNat % 4 = 0 ∧
      ((worldR (tmRti 0)).issued (here (tmRti 0))).ops.any (fun o => o.2.team = 0 && o.2.inH) = false) ∧
    (Within (worldR (tmRti 1)) (here (tmRti 1)) (.rti H) 3 ⟨0, 0, [0], 1, [], none, .open⟩ ∧
      ∃ y, (tmRti 1).intr = some y ∧ y.frag = false ∧ ∃ s1,
        ((worldR (tmRti 1)).resumed (here (tmRti 1))).readFrame (tmRti 1) .open = (.got 0 3 [], s1) ∧ s1.hole = false ∧
          (3 : Mask) &&& y.path.pmask &&& ~~~(tmRti 1).exited ≠ 0) := by
  refine ⟨⟨ready_of ?_, ?_⟩, ⟨ready_of ?_, ?_⟩, within_of ?_, _, rfl, rfl, pair_of ?_ ?_⟩ <;> decide +kernel

/-- The halter queue is on. -/
def worldH (tm : Team) : State := { world tm with hqcfg := BitVec.ofNat 64 (2 ^ 63 + 0x600) }

theorem meets_BreakHaltersTheTeam : Ready (worldH tm0) (here tm0) H1 [] ∧ rqEn (worldH tm0).hqcfg = true ∧
    ((((worldH tm0).issued (here tm0)).modTeam 0 (fun tm =>
      { (here tm0).next H1 0 0 (tm.queue ((here tm0).posts H1 2)) with tval := 9 })).haltTeam 0 false 2 0 0 0 9 0x40000C).hole = false :=
  ⟨ready_of (by decide +kernel), by decide +kernel⟩

/-- The paths of a team with a countdown, and a world at clk 5, rt 100. -/
def cdTeam (c : Countdown) : Team := { tm0 with p0 := { tm0.p0 with cd := c } }
def at5 (s : State) : State := { s with clk := 5, rt := 100, cur := none }

theorem meets_HeldInstructionsExpireAndEnd_countdowns :
    [5, 6].all (fun n => !(at5 (world (cdTeam (.stall n)))).hole && (cdTeam (.dly n)).runs false) = true ∧
    (at5 (world tm0)).clk = 5 := by decide +kernel

def loadHeld : Held := ⟨4, 0, [], 0, [], some 1, .open⟩
theorem meets_HeldInstructionsExpireAndEnd_timeout :
    let tm := inside (.ld H .n32 .c1 (.v 2) (.s 4) (.i 0) 0) loadHeld tmL
    let s : State := { at5 (world tm) with rt := 1025, models := [(0, ⟨5, 0, 1, 1, 0, [entryOf 0, { entryOf 1 with st := .arriving }]⟩)] }
    s.hole = false ∧ tget s.teams 0 = some tm ∧ (∃ y, s.layerOf tm.ctx 1 = some y ∧ y.st = .arriving) ∧ s.htmo tm.ctx ≠ 0 ∧
      s.pastTmo 4 0 (s.htmo tm.ctx) = true := ⟨by decide +kernel, by decide +kernel, ⟨_, rfl, rfl⟩, by decide +kernel⟩

/-- A fragment held in `rjoin.to`, the other running; paths held in `waitc` and `yield` on token 3 at 15 or 16. -/
def held (s : Nat) (cap : List Nat) : Held := ⟨4, 0, cap, s, [], none, .open⟩
def tmJ : Team := { inside (.rjoinTo H 3 (.i 50)) (held 0 [50]) tm0 with split := true, p1 := { tm0.p1 with ended := false } }
def word (n : Nat) : Nat := 2 ^ 60 + n * 256 + 3
def wcAll : Instr := .waitcAll H (some 2) (.s 8) (.i 50) 1
def yld : Instr := .yield H (.s 8) 1 0xFFFFF
def tmI (i : Instr) (w : Held) : Team := inside i w tm0
def cur5 (tm : Team) : State := { at5 (world tm) with cur := some (0, false, false) }

theorem meets_HeldInstructionsExpireAndEnd_ends :
    (Within (cur5 tmJ) (here tmJ) (.rjoinTo H 3 (.i 50)) 3 (held 0 [50]) ∧ (tmJ.path true).ended = false ∧
      (tmJ.path true).atJoin = false ∧ (at5 (world tmJ)).pastTmo 4 0 50 = true) ∧
    (let w := held 0 [50, word 16, word 15]
     let tm := tmI (.waitcAny H (some 2) (.s 8) (.i 50) 1) w
     Within (cur5 tm) (here tm) (.waitcAny H (some 2) (.s 8) (.i 50) 1) 3 w ∧
      ∃ s1, ((cur5 tm).viewIn (here tm) H 3 w).evalBlock (condsOf w.cap.tail) ((cur5 tm).resumed (here tm)) =
        (.truth [false, true], s1) ∧ s1.hole = false ∧ (here tm).pathWaits s1 Op.reads = false) ∧
    (let w := held 0 [50, word 15, word 16]
     let tm := tmI wcAll w
     Within (cur5 tm) (here tm) wcAll 3 w ∧
      ∃ s1, ((cur5 tm).viewIn (here tm) H 3 w).evalBlock (condsOf w.cap.tail) ((cur5 tm).resumed (here tm)) =
        (.truth [true, false], s1) ∧ s1.hole = false ∧ s1.pastTmo 4 0 50 = true) ∧
    (let w := held 1 [50, word 15, word 16]
     Within (cur5 (tmI wcAll w)) (here (tmI wcAll w)) wcAll 3 w) ∧
    (let w := held 0 [word 16, word 15]
     let tm := tmI yld w
     Within (cur5 tm) (here tm) yld 3 w ∧
      ∃ s1, ((cur5 tm).viewIn (here tm) H 3 w).evalBlock (condsOf w.cap) ((cur5 tm).resumed (here tm)) =
        (.truth [false, true], s1) ∧ (here tm).pathWaits s1 Op.reads = false ∧ s1.hole = false) := by
  refine ⟨⟨within_of ?_, ?_⟩, ⟨within_of ?_, pair_of ?_ ?_⟩, ⟨within_of ?_, pair_of ?_ ?_⟩, within_of ?_, within_of ?_, pair_of ?_ ?_⟩ <;>
    decide +kernel

/-- Operations of the team in clk 0, at clk 5: done, failed, a load, an exchange. -/
def op0 (u : CUnit) (w : Work) : Op := ⟨4, 0, 0, 0, u, some (.normal, 3), false, [], [], none, 0, false, w⟩
def scrAcc : Acc := ⟨0, [⟨.scr 0 0, 4⟩]⟩
def ops5 : Tbl Op := [(1, op0 .sfu (.done [.sca 2 (some 1) none])), (2, op0 .resid (.fail 2)),
  (3, op0 .mem (.load .l1 .n32 (.v 2) 1 [scrAcc])), (4, op0 .tandem (.txch 9 3 1 2 [[], []] 0 (some 100)))]
def s5 : State := { at5 (world tm0) with ops := ops5, rt := 101 }

theorem meets_OperationsComplete :
    s5.hole = false ∧ [1, 2, 3].all (fun id => s5.postOrder id) = true ∧ s5.spilledOp (op0 .resid (.fail 2)) = false ∧
    (s5.opFinish 1 [.sca 2 (some 1) none] none).hole = false ∧ (s5.opFinish 2 [] (some 2)).hole = false ∧
    (s5.behind 0 3 (op0 .mem (.load .l1 .n32 (.v 2) 1 [scrAcc])).work.chunks = false ∧
      s5.unlinked tm0 (.load .l1 .n32 (.v 2) 1 [scrAcc]) = false ∧
      ∃ us s1, s5.doLoad tm0 .l1 .n32 (.v 2) 1 [scrAcc] = (.done us, s1) ∧ (s1.opFinish 3 us none).hole = false) ∧
    s5.pastTmo 4 0 100 = true ∧
    (tget ops5 1).isSome ∧ (at5 (world tm0)).clk ≤ 5 ∧ tget s5.teams 0 = some tm0 := by
  refine ⟨?_, ?_, ?_, ?_, ?_, ⟨?_, ?_, ?_⟩, ?_, ?_⟩
  case refine_8 => exact ⟨_, _, rfl, by decide +kernel⟩
  all_goals decide +kernel

/-- A side-log entry of the team's page, the oldest of its line. -/
def sideE : SideEntry := ⟨3, 0, 0, 0, 0xA000, 0x500000, [], none⟩
theorem meets_OperationsComplete_replay :
    let s : State := { world tm0 with cores := [(0, { (world tm0).core 0 with side := [sideE, { sideE with id := 4 }] })] }
    (s.core 0).side.find? (fun y => y.id = sideE.id) = some sideE ∧
    (∀ y ∈ (s.core 0).side, y.ctx = sideE.ctx → y.vline = sideE.vline → sideE.id ≤ y.id) ∧
    s.faulting sideE.ctx (sideE.vline * 128 / 4096) = false ∧ (s.replay 0 sideE).hole = false := by decide +kernel

theorem meets_CompletionLandsAndPosts :
    tget s5.ops 1 = some (op0 .sfu (.done [.sca 2 (some 1) none])) ∧ tget s5.teams 0 = some tm0 ∧ tm0.task = none ∧
    tm0.life = .resident := by decide +kernel

/-! Engines: the group's copy of a line from the page to its scratchpad, a failed one, and a stored block of 16 bytes. -/

/-- A part of a copy: not read yet, read, or written. -/
def part (st : Nat) (d : CopyEnd) : CopyPart :=
  ⟨⟨.local_ 0x500000, d, 16⟩, if st = 0 then none else some (List.replicate 16 (0, 0, false)), st = 2⟩
def cpCmd (n st : Nat) (e : Option Nat) : CopyCmd :=
  ⟨n, 90 + n, .cpb, [part st (.local_ 0xFF00000000000000)], none, some (0, true), 0, none, none, .open, none, none, e⟩
/-- A put whose peer has answered. -/
def cpPut : CopyCmd := ⟨5, 95, .put, [part 1 (.peer 0x1000)], some 3, some (0, true), 0, none, none, .open, some 0, some [], none⟩
def ring0 : Dword := 0x0000F07000000000
def stream (blk : Nat) : Stream := ⟨1, 90, ring0, 0x500000, blk, none, none, none, .open⟩
def blockHdr : Nat := 16 + 3 * 2 ^ 24 + 16 * 2 ^ 32 + (crc32c (List.replicate 16 0)).toNat * 2 ^ 64
def worldE (blk : Nat) : State :=
  let s := at5 (world tm0)
  let g : Group := { fetchGroup State.reset with
    alloc := 1024
    copy := { CopyCtx.atReset with acc := 5, cmds := [cpCmd 1 0 none, cpCmd 2 0 (some 3), cpCmd 3 1 none, cpCmd 4 2 none, cpPut] }
    dec := { DecCtxt.atReset with acc := 1, streams := [stream blk] } }
  { s with groups := [(0, g)], mem := cellsSet s.mem 0x500000 (toBytes blockHdr 16) }
/-- Line operation 0 of a command is a of its engine's line, and its runs translate. -/
def lineOp (s : State) (m : CopyCmd) (a : LineAct) (w : Bool) (e : Seg → CopyEnd) (P : List Chunk → State → Bool) : Bool :=
  decide (m.acts[0]? = some a) && (match s.engResolve 0 0 w [] (partRuns e (m.parts.filter a.of)) with
    | (.ok ks, _, s1) => P ks s1
    | _ => false)
/-- A block, as its rule computes it, meets no missing address. -/
def decodes (s : State) (st : Stream) : Bool :=
  match s.engResolve 0 0 false [] (engRuns st.next 16) with
  | (.ok ks, _, s1) =>
    let h := s1.engReadAll (some 0) ks
    let hd := ofBytes (h.1.map (fun b => b.x))
    !h.1.any (fun b => b.bad) && !hdrBad hd (ringSlot st.ring) &&
    (match h.2.engResolve 0 0 false [] (engRuns (st.next + 16) (hdrIn hd)) with
    | (.ok ks', _, s3) =>
      let p := s3.engReadAll (some 0) ks'
      let o := decodeBlock hd (p.1.map (fun b => b.x))
      !p.1.any (fun b => b.bad) && decide (o.2 = 0) && decide (crc32c o.1 = hdrCrc hd) &&
        !(p.2.blockEnd 0 { st with p0 := some 0 } o.1 none 0 (hdrLast hd) (alignUp (st.next + 16 + hdrIn hd) 16)).hole
    | _ => false)
  | _ => false

theorem meets_EnginesGoOn_copies :
    (∃ g, (worldE 0).group 0 = some g ∧ [cpCmd 1 0 none, cpCmd 2 0 (some 3), cpCmd 3 1 none, cpCmd 4 2 none, cpPut].all (fun m =>
        decide (g.copy.cmds.find? (fun y => y.num = m.num) = some m) && (worldE 0).copyFree g.ctx m) = true ∧
      g.copy.halted = false ∧ g.core = 0) ∧
    ((worldE 0).copyEnd 0 (cpCmd 2 0 (some 3)) (some 3)).hole = false ∧
    (worldE 0).slotTurn 0 0 = true ∧
    lineOp (worldE 0) (cpCmd 1 0 none) (.read (0x500000 / 128)) false (fun x => x.src) (fun ks s1 =>
      !(s1.engReadAll (some 0) ks).2.hole && decide ((s1.engReadAll (some 0) ks).1.length = 16)) = true ∧
    lineOp (worldE 0) (cpCmd 3 1 none) (.write (0xFF00000000000000 / 128)) true (fun x => x.dst) (fun ks s1 =>
      let ws := splitBytes ks (partBytes (cpCmd 3 1 none).parts)
      !((s1.engWrite 0 true ws).copyBytes 0 (cpCmd 3 1 none) (engCount ws)).hole && decide (engCount ws = 16)) = true ∧
    ((cpCmd 4 2 none).acts = [] ∧ ((worldE 0).copyEnd 0 (cpCmd 4 2 none) (cpCmd 4 2 none).result).hole = false) ∧
    (cpPut.acts = [] ∧ cpPut.size ≠ 0 ∧ (((worldE 0).copyBytes 0 cpPut 16).copyEnd 0 cpPut cpPut.result).hole = false) := by
  refine ⟨⟨_, rfl, ?_⟩, ?_⟩ <;> decide +kernel

theorem meets_EnginesGoOn_blocks :
    (∃ g, (worldE 0).group 0 = some g ∧ g.dec.streams = [stream 0] ∧ g.dec.halted = false ∧ g.dec.susp = false ∧ g.spilled = false ∧
      g.dec.at_ < (worldE 0).clk ∧ tget (worldE 0).ops 90 = none ∧ g.phase (ringEbid ring0) = 0) ∧
    decodes ((worldE 0).modGroup 0 (fun g => { g with dec := { g.dec with blk := 0 } })) (stream 0) = true ∧
    -- a full ring: eight slots, eight blocks, no phase of EMPTY since
    (ringSlots ring0 ≤ 8 ∧ ((0 : BitVec 16) - 0).toNat < 8 - ringSlots ring0 + 1 ∧
      ∃ g, (worldE 8).group 0 = some g ∧ g.dec.streams = [stream 8]) := by
  refine ⟨⟨_, rfl, ?_⟩, ?_, ?_, ?_, _, rfl, ?_⟩ <;> decide +kernel

/-- A session that is UP and allows everything, of context 0, and a root of two members, a leaf, and a late member. -/
def sess (st : Nat) : Session := { Session.atReset with ctl := BitVec.ofNat 64 (2 ^ 63 + st * 2 ^ 61 + 7 * 2 ^ 52) }
def cdesc (rank : Nat) : CollDesc := BitVec.ofNat 512 (77 * 2 ^ 288 + rank * 2 ^ 272 + 2 * 2 ^ 264 + 32 * 2 ^ 224 + 0x500000 * 2 ^ 80)
def member (rank : Nat) (tmo : Option Nat) : Coll :=
  ⟨0, 0, 0, false, 0, 0x500000, some (cdesc rank), 0, 0, tmo, [3, 3], List.replicate 32 0, [], none, none, none, .open⟩
def cmsg (seq : Nat) : CollMsg := ⟨seq, 0, false, 0, 32, List.replicate 32 0⟩
def worldK : State :=
  { at5 (world tm0) with sessions := [(3, sess 2)], colls := [(1, member 0 none), (2, member 1 none), (3, member 0 (some 99)),
      (4, member 1 (some 99))] }

theorem meets_CollectiveRoundsGoOn :
    worldK.hole = false ∧ (worldK.session 3).st = 2 ∧ (worldK.session 3).halted = false ∧ (worldK.session 3).mayColl = true ∧
    (worldK.collRoot 0 78 = none ∧ (worldK.session 3).closed.contains 78 = false ∧ (worldK.session 3).held.length < 64) ∧
    (worldK.collRoot 0 (cmsg 77).seq = some 1 ∧ (worldK.collTake 1 3 1 (cmsg 77)).hole = false) ∧
    (worldK.collPast (member 0 (some 99)) = true ∧ CollDesc.rank (cdesc 0) = CollDesc.root (cdesc 0) ∧
      (worldK.collClose 3 (member 0 (some 99)) (cdesc 0)).hole = false) ∧
    (worldK.collPast (member 1 (some 99)) = true ∧ CollDesc.rank (cdesc 1) ≠ CollDesc.root (cdesc 1) ∧
      (worldK.collEnd 4 (some 5)).hole = false) ∧
    (worldK.collPast (member 1 none) = false ∧ Nat.testBit 2 (CollDesc.rank (cdesc 1)) = true ∧
      (List.replicate 32 (0 : Word)).length = 1 * CollDesc.count (cdesc 1)) := by decide +kernel

/-! The matrix unit -/

def mcmd (op : Nat) (i : Instr) : MCmd :=
  ⟨op, 0, 0, 0, i, 0, [], 0x20001, 0, desc 0 .bf16 16 16 32 0x500000, desc 1 .bf16 16 16 32 0x500200, false, 0, [], [], [], [],
    none, none, .open⟩
def withMx (f : MatrixU → MatrixU) : State :=
  let s := worldM tmM
  { s with cur := none, cores := tset s.cores 0 { s.core 0 with mx := f (s.core 0).mx } }
def queued (i : Instr) : State := withMx (fun m => { m with queues := [(2, [mcmd 4 i])] })

theorem meets_MatrixUnitAccepts :
    [Instr.mrd H .f32 .dflt 2 3 (.i 0) 3, .mz H 0xFFFF true, .mtd H 15 (.s 4) (.s 6), .msd H 0 (.i 0) false].all (fun i =>
      let m := (((queued i).askAgain 0).core 0).mx
      decide (m.accAt ≠ some (queued i).clk) && decide (m.order.find? (fun q => (m.takes q).isSome) = some 2) && decide (m.takes 2 = some (mcmd 4 i)) && !m.fail &&
        !(queued i).hole && !((((queued i).askAgain 0).modMx 0 (fun m => { m with queues := tset m.queues 2 [], rr := 3 })).mxEnd 4 [] none).hole)
      = true ∧
    ((withMx (fun m => { m with accAt := some 0 })).askAgain 0).clk = 0 ∧
    (let s := withMx (fun m => { m with holder := none, waiting := [⟨0, 0, 0, 0⟩], acc := [mcmd 4 (.mz H 0xFFFF false)] })
     s.hole = false ∧ (s.core 0).mx.holder = none ∧ s.leaseWaits 0 = [⟨0, 0, 0, 0⟩] ∧ (tget s.groups 0).isSome ∧
       ∀ c ∈ (s.core 0).mx.acc, isTile c.i = true → c.group = 0) ∧
    (let s := withMx (fun m => { m with saving := some false })
     s.hole = false ∧ (s.core 0).mx.saving = some false ∧ (s.core 0).mx.holder = some 0 ∧ s.inBank 0 0 false = true ∧
       (tget s.groups 0).isSome ∧ (s.core 0).mx.acc = [] ∧ (s.core 0).mx.queues = []) ∧
    (127 < 128 ∧ (world tm0).present (127 / 16) = true ∧ (7 : Dword).getLsbD 2 = true) := by decide +kernel

def accepted (i : Instr) : State := withMx (fun m => { m with acc := [mcmd 4 i] })
def mmaI : Instr := .mma H .bf16 .g3 15 (.td 1) (.td 2) 0 0

theorem meets_MatrixCommandsExecute :
    (∃ g, tget (accepted mmaI).groups 0 = some g) ∧ ((accepted mmaI).core 0).mx.acc = [mcmd 4 mmaI] ∧
    (let s := accepted (.mz H 0xFFFF true)
     (((((List.range 16).filter (fun t => (0xFFFF : BitVec 16).getLsbD t)).foldl (fun s t => s.setTiles 0 t [.zero]) s).mxEnd 4 [] none).mxPop
        0).hole = false) ∧
    (accepted mmaI).scaleEcc (mcmd 4 mmaI) = false ∧ (mcmd 4 mmaI).blk < (mcmd 4 mmaI).blocks ∧
    (match (accepted mmaI).fetchBlock 0 0 .bf16 (mcmd 4 mmaI) with
     | (.got ls, s1) =>
       let c : MCmd := { mcmd 4 mmaI with blk := 1, got := ls }
       let t := withMx (fun m => { m with acc := [c] })
       !(s1.modHead 0 c).hole && decide (c.blocks ≤ c.blk) && decide ((mmaAs (t.core 0).mx .bf16 c (.td 1) 1).length = 16) &&
         !(t.mmaRun 0 c .bf16 .g3 15 (.td 1) (.td 2) 1 1).hole
     | _ => false) = true ∧
    ((accepted (.mrd H .f32 .dflt 252 3 (.i 127) 3)).runMrd 0 (mcmd 4 (.mrd H .f32 .dflt 252 3 (.i 127) 3)) .f32 .dflt 252 3 4).hole = false ∧
    ((accepted (.mwr H .f32 15 252 (.i 127) 3)).runMwr 0 (mcmd 4 (.mwr H .f32 15 252 (.i 127) 3)) .f32 15 4).hole = false ∧
    ((accepted (.mst H .f32 .dflt 3 12)).runMst 0 (mcmd 4 (.mst H .f32 .dflt 3 12)) .f32 .dflt 12).hole = false ∧
    ((accepted (.mstat H (.v 2) 2 (.i 15))).runMstat 0 (mcmd 4 (.mstat H (.v 2) 2 (.i 15))) (.v 2) 2).hole = false := by
  refine ⟨⟨_, rfl⟩, ?_⟩
  decide +kernel

/-! Layers and models -/

/-- A layer of context 0: 4 KiB of zeros at a host address, for a page of 2 MiB at 0x600000. -/
def hostLayer (crc : Nat) (st : LState) (r : Nat) (fs : List Nat) : Layer :=
  ⟨BitVec.ofNat 256 (0x600000 + (2 ^ 48 + 0x1000000) * 2 ^ 128 + crc * 2 ^ 224), 0, 0, 0, r, st, 0, fs⟩
def layerPte : Nat := 2 ^ 127 + 2 * 2 ^ 124 + 1 * 2 ^ 122 + 2 ^ 117 + 3
/-- A page table with pages of 2 MiB. -/
def root2 : Dword := fetchRoot ||| BitVec.ofNat 64 (2 ^ 59)
def memY : List Host.Cell := cellsSet (world tm0).mem (bucketAddr root2 2 0x600000 0) (toBytes layerPte 16)
def ctxsY : Tbl CtxCfg := tset (world tm0).ctxs 0 { (world tm0).ctx 0 with ptroot := root2 }
def worldY (y : Layer) (sw : List SwapReq) : State :=
  let s := at5 (world tm0)
  { s with
    ctxs := ctxsY, mem := memY
    stks := tset s.stks 0 { s.stack 0 with rpcfg := BitVec.ofNat 64 (2 ^ 63 + 2 ^ 48 + 2 ^ 21 * 5) }
    models := [(0, ⟨5, 0, 1, 0, 0, [y]⟩)], swaps := sw }

theorem worldY_mem (y : Layer) (sw : List SwapReq) : (worldY y sw).mem = memY := rfl
theorem worldY_ctxs (y : Layer) (sw : List SwapReq) : (worldY y sw).ctxs = ctxsY := rfl

theorem writeImage_same (s : State) (y : Layer) (b : List Bool) (n : Nat) (bs : List Byte) :
    (s.writeImage y b n bs).hole = s.hole ∧ (s.writeImage y b n bs).ctxs = s.ctxs ∧ (s.writeImage y b n bs).models = s.models := by
  unfold State.writeImage
  refine foldl_keeps (P := fun u : State => u.hole = s.hole ∧ u.ctxs = s.ctxs ∧ u.models = s.models) ?_ _ _ ⟨rfl, rfl, rfl⟩
  intro u j h
  dsimp only
  split <;> simp [h]

/-- A record of 16 bytes at a meets no missing address. -/
def missing (a : Nat) : Bool := match homeOf a with | .reserved => true | .config => true | _ => false
def touchable (a : Nat) : Bool := !(missing a || missing (a + 16 - 1))

theorem touch_ctxs (s : State) (a n : Nat) : (s.touch a n).ctxs = s.ctxs := by
  unfold State.touch
  dsimp only
  split <;> rfl

theorem setPte_hole (s : State) (a p : Nat) (h : touchable a = true) : (s.setPte a p).hole = s.hole := by
  unfold State.setPte State.hubWrite
  rw [State.writePhys_hole]
  have h : ¬ (missing a || missing (a + 16 - 1)) = true := by
    unfold touchable at h
    exact (Bool.not_eq_true _).mpr ((Bool.not_eq_true' _).mp h)
  exact congrArg State.hole (if_neg h)

theorem dropLayer_hole (s : State) (c : Nat) (y : Layer) : (s.dropLayer c y).hole = s.hole :=
  foldl_keeps (P := fun u : State => u.hole = s.hole) (f := fun s va => s.dropPage c va (2 ^ 21)) (fun _ _ h => h) _ _ rfl

theorem end_hole (u : State) (c l : Nat) (f : Layer → Layer) (h : u.hole = false) :
    (State.bindEnd { u.modLayer c l f with useCnt := (u.modLayer c l f).useCnt + 1 } c l (.done [])).hole = false := h

theorem layerResident_hole (s : State) (y : Layer) (h : s.hole = false)
    (hp : ∀ va ∈ y.pages, ∀ a ∈ s.pteSlots 0 va, touchable a = true) : (s.layerResident 0 0 y).hole = false := by
  have h1 : ∀ (zs : List (Nat × Nat)), (∀ z ∈ zs, z.1 ∈ y.pages) → ∀ u : State, u.hole = false → u.ctxs = s.ctxs →
      (zs.foldl (fun s (va, f) => match s.findPte 0 va with
        | some (a, p) => s.setPte a (pteResident p y.key f)
        | none => s) u).hole = false := by
    intro zs
    induction zs with
    | nil => intro _ u hu _; exact hu
    | cons z zs ih =>
      obtain ⟨va, f⟩ := z
      intro hz u hu hc
      refine ih (fun z hz' => hz z (.tail _ hz')) _ ?_ ?_
      · dsimp only
        split
        · rename_i a p hf
          have : a ∈ s.pteSlots 0 va := by
            unfold State.findPte at hf
            split at hf
            · obtain ⟨b, hb, he⟩ := Option.map_eq_some_iff.mp hf
              cases he
              have := List.mem_of_find?_eq_some hb
              unfold State.pteSlots State.ctx at this ⊢
              rwa [hc] at this
            · cases hf
          rw [setPte_hole _ _ _ (hp _ (hz (va, f) (.head _)) a this), hu]
        · exact hu
      · dsimp only
        split
        · unfold State.setPte State.hubWrite
          rw [State.writePhys_ctxs, touch_ctxs, hc]
        · exact hc
  have h2 := h1 (y.pages.zip y.frames) (fun z hz => (List.of_mem_zip hz).1) s h rfl
  exact end_hole _ 0 0 (fun z => { z with st := .resident, gen := (z.gen + 1) % 2 ^ 16, use := State.useCnt _ })
    ((dropLayer_hole _ 0 y).trans h2)

theorem layerFail_hole (s : State) (c l k : Nat) (h : s.hole = false) (hs : ∀ y, s.layerOf c l = some y → y.src ≠ 2) :
    (s.layerFail c l k).hole = false := by
  unfold State.layerFail
  split
  · exact h
  · rename_i y hy
    split
    · exact h
    · dsimp only
      rw [if_neg (hs y hy)]
      exact h

/-- The request at the head, its layer, and an arrival that is whole or not. -/
theorem meets_LayersArriveAndModelsChange_start :
    let s := worldY (hostLayer 0 .arriving 0 []) [⟨1, 0, 0, true, []⟩]
    s.leaving = none ∧ s.takeFrames 1 s.framesUsed = some [5] ∧
    s.arrivals < 16 ∧ s.startOrder = [⟨1, 0, 0, true, []⟩] ∧ s.layerOf 0 0 = some (hostLayer 0 .arriving 0 []) ∧
    1 ≤ ((List.range 8).flatMap s.pool).length ∧ (hostLayer 0 .arriving 0 []).np = 1 ∧
    s.plan ⟨1, 0, 0, true, []⟩ (((List.range 8).flatMap s.pool).length + 1) 1 [] = some [] ∧
    (let s1 := (s.unqueue ⟨1, 0, 0, true, []⟩).modLayer 0 0 (fun y => { y with frames := [5], rtry := 0 })
     s1.noPte 0 0 (hostLayer 0 .arriving 0 []) = false ∧
     (s1.fetchImage 0 0 { hostLayer 0 .arriving 0 [] with frames := [5] }).hole = false) := by decide +kernel

/-- Evictions that wait for a load. -/
theorem meets_LayersArriveAndModelsChange_leaving :
    let v : Leaving := ⟨some ⟨1, 0, 0, true, []⟩, [5], [1]⟩
    let s : State := { s5 with leaving := some v }
    s.hole = false ∧ s.leaving = some v ∧ ∃ n ∈ v.ops, (tget s.ops n).isSome = true :=
  ⟨by decide +kernel, rfl, 1, by decide, by decide +kernel⟩

def arriving (c r : Nat) : Layer := hostLayer c .arriving r [5]
def image (c r : Nat) : List Byte := cellsGet (worldY (arriving c r) []).mem (arriving c r).saddr (arriving c r).size
def written (c r : Nat) : State := (worldY (arriving c r) []).writeImage (arriving c r)
  ((worldY (arriving c r) []).pagesBnd 0 (arriving c r).pages) 0
  (image c r ++ List.replicate ((arriving c r).np * 2 ^ 21 - (arriving c r).size) 0)
/-- What both ends of an arrival ask for. -/
def arrives (c r : Nat) : Prop :=
  let y := arriving c r
  let s := worldY y []
  s.layerOf 0 0 = some y ∧ y.st = .arriving ∧ y.frames ≠ [] ∧ y.src ≠ 2 ∧
  (∀ n ∈ linesOver y.saddr y.size, n ∉ s.poison)

/-- A field of n bits at p, of a number whose other bits lie below p and from k on. -/
theorem field_of (lo c k p m n : Nat) (h : lo < 2 ^ p) (hm : m < 2 ^ n) (hk : k = n + p) (j : Nat) :
    bitsOf (lo + m * 2 ^ p + c * 2 ^ (k + j)) p n = m := by
  unfold bitsOf
  have : lo + m * 2 ^ p + c * 2 ^ (k + j) = lo + (m + c * 2 ^ j * 2 ^ n) * 2 ^ p := by
    subst hk
    rw [Nat.add_mul, Nat.add_assoc, Nat.mul_assoc, Nat.mul_assoc, ← Nat.pow_add, ← Nat.pow_add]
    congr 4
    omega
  rw [this, Nat.add_mul_div_right _ _ (by positivity), Nat.div_eq_of_lt h, Nat.zero_add, Nat.add_mul_mod_self_right,
    Nat.mod_eq_of_lt hm]

theorem arriving_entry (c r : Nat) :
    (arriving c r).entry = BitVec.ofNat 256 (0x600000 + (2 ^ 48 + 0x1000000) * 2 ^ 128 + c * 2 ^ 224) := rfl

theorem arriving_num (c r : Nat) (h : c < 2 ^ 32) :
    (arriving c r).entry.toNat = 0x600000 + (2 ^ 48 + 0x1000000) * 2 ^ 128 + c * 2 ^ 224 := by
  rw [arriving_entry, BitVec.toNat_ofNat, Nat.mod_eq_of_lt (by omega)]
theorem num_src (c : Nat) : bitsOf (0x600000 + (2 ^ 48 + 0x1000000) * 2 ^ 128 + c * 2 ^ 224) 208 2 = 0 := by
  have := field_of (0x600000 + (2 ^ 48 + 0x1000000) * 2 ^ 128) c 210 208 0 2 (by norm_num) (by norm_num) rfl 14
  rwa [Nat.zero_mul, Nat.add_zero] at this
theorem num_saddr (c : Nat) : bitsOf (0x600000 + (2 ^ 48 + 0x1000000) * 2 ^ 128 + c * 2 ^ 224) 128 56 = 2 ^ 48 + 0x1000000 :=
  field_of 0x600000 c 184 128 (2 ^ 48 + 0x1000000) 56 (by norm_num) (by norm_num) rfl 40
theorem num_base (c : Nat) : bitsOf (0x600000 + (2 ^ 48 + 0x1000000) * 2 ^ 128 + c * 2 ^ 224) 0 56 = 0x600000 := by
  have := field_of 0 ((2 ^ 48 + 0x1000000) * 2 ^ 72 + c * 2 ^ 168) 56 0 0x600000 56 (by norm_num) (by norm_num) rfl 0
  rwa [Nat.zero_add, Nat.add_mul, Nat.mul_assoc _ (2 ^ 72), Nat.mul_assoc c, ← Nat.pow_add, ← Nat.pow_add, pow_zero, Nat.mul_one,
    ← Nat.add_assoc] at this
theorem src_eq (y : Layer) : y.src = bitsOf y.entry.toNat 208 2 := rfl
theorem arriving_src (c r : Nat) (h : c < 2 ^ 32) : (arriving c r).src = 0 :=
  (src_eq _).trans ((congrArg (fun n => bitsOf n 208 2) (arriving_num c r h)).trans (num_src c))
theorem saddr_eq (y : Layer) : y.saddr = bitsOf y.entry.toNat 128 56 := rfl
theorem arriving_saddr (c r : Nat) (h : c < 2 ^ 32) : (arriving c r).saddr = 2 ^ 48 + 0x1000000 :=
  (saddr_eq _).trans ((congrArg (fun n => bitsOf n 128 56) (arriving_num c r h)).trans (num_saddr c))
theorem base_eq (y : Layer) : y.base = bitsOf y.entry.toNat 0 56 := rfl
theorem arriving_base (c r : Nat) (h : c < 2 ^ 32) : (arriving c r).base = 0x600000 :=
  (base_eq _).trans ((congrArg (fun n => bitsOf n 0 56) (arriving_num c r h)).trans (num_base c))
theorem arriving_size (c r : Nat) (h : c < 2 ^ 32) : (arriving c r).size = 4096 := by
  unfold Layer.size
  rw [arriving_num c r h]
  unfold bitsOf
  omega
theorem arriving_crc (c r : Nat) (h : c < 2 ^ 32) : (arriving c r).crc = BitVec.ofNat 32 c := by
  unfold Layer.crc
  rw [arriving_num c r h]
  unfold bitsOf
  exact congrArg (BitVec.ofNat 32) (by omega)
theorem arriving_fields (c r : Nat) (h : c < 2 ^ 32) : (arriving c r).src = 0 ∧ (arriving c r).size = 4096 ∧
    (arriving c r).saddr = 2 ^ 48 + 0x1000000 ∧ (arriving c r).base = 0x600000 ∧ (arriving c r).crc = BitVec.ofNat 32 c :=
  ⟨arriving_src c r h, arriving_size c r h, arriving_saddr c r h, arriving_base c r h, arriving_crc c r h⟩

theorem meets_arrives (c r : Nat) (h : c < 2 ^ 32) : arrives c r := by
  obtain ⟨h1, _, _, _, _⟩ := arriving_fields c r h
  exact ⟨rfl, rfl, nofun, by omega, fun n _ h => nomatch h⟩

/-- The image is all zeros; an entry with their CRC arrives, one with another CRC does not. -/
theorem image_zeros (c r : Nat) (h : c < 2 ^ 32) : image c r = List.replicate 4096 Config.memDefault := by
  obtain ⟨h1, h2, h3, h4, h5⟩ := arriving_fields c r h
  have hm : ∀ (m : List Host.Cell) (a : Nat), (∀ e ∈ m, e.1 < a) → cellGet m a = Config.memDefault := by
    intro m a
    induction m with
    | nil => intro _; rfl
    | cons e m ih =>
      intro hl
      have := hl e (.head _)
      unfold cellGet
      rw [if_neg (by omega), if_neg (by omega)]
      exact ih (fun e he => hl e (.tail _ he))
  have hw : ∀ e ∈ memY, e.1 < 2 ^ 48 + 0x1000000 := by decide +kernel
  have hz : ∀ n, cellsGet memY (2 ^ 48 + 0x1000000) n = List.replicate n Config.memDefault := by
    intro n
    refine List.eq_replicate_iff.mpr ⟨by simp [cellsGet], fun b hb => ?_⟩
    obtain ⟨j, _, rfl⟩ := List.mem_map.mp hb
    exact hm _ _ (fun e he => Nat.lt_of_lt_of_le (hw e he) (Nat.le_add_right ..))
  unfold image
  rw [h2, h3, worldY_mem, hz]

theorem meets_LayersArriveAndModelsChange_arrival : ∃ c d,
    (arrives c 0 ∧ crc32c (image c 0) = (arriving c 0).crc ∧ ((written c 0).layerResident 0 0 (arriving c 0)).hole = false) ∧
    (arrives d 3 ∧ crc32c (image d 3) ≠ (arriving d 3).crc ∧ (arriving d 3).rtry = 3 ∧ ((written d 3).layerFail 0 0 1).hole = false) := by
  generalize hk : crc32c (List.replicate 4096 Config.memDefault) = k
  have hl := k.isLt
  have hd : (k.toNat + 1) % 2 ^ 32 < 2 ^ 32 := Nat.mod_lt _ (by omega)
  obtain ⟨a1, a2, a3, a4, a5⟩ := arriving_fields _ 0 hl
  obtain ⟨b1, b2, b3, b4, b5⟩ := arriving_fields _ 3 hd
  refine ⟨k.toNat, (k.toNat + 1) % 2 ^ 32,
    ⟨meets_arrives _ _ hl, ?_, layerResident_hole _ _ ((writeImage_same ..).1.trans rfl) ?_⟩,
    meets_arrives _ _ hd, ?_, rfl, layerFail_hole _ _ _ _ ((writeImage_same ..).1.trans rfl) ?_⟩
  · rw [image_zeros _ _ hl, hk, a5]; simp
  · have : (written k.toNat 0).pteSlots 0 = (worldY (arriving 0 0) []).pteSlots 0 := by
      unfold State.pteSlots State.ctx written
      rw [(writeImage_same ..).2.1, worldY_ctxs, worldY_ctxs]
    have hn : (arriving k.toNat 0).np = 1 := by unfold Layer.np ceilDiv; rw [a2]; rfl
    intro va hv
    unfold Layer.pages at hv
    rw [hn, a4] at hv
    obtain rfl : va = 0x600000 := by simpa using hv
    rw [this]
    exact (by decide +kernel : ∀ a ∈ (worldY (arriving 0 0) []).pteSlots 0 0x600000, touchable a = true)
  · rw [image_zeros _ _ hd, hk, b5]
    intro e
    have := congrArg BitVec.toNat e
    simp only [BitVec.toNat_ofNat] at this
    omega
  · unfold State.layerOf written
    rw [(writeImage_same ..).2.2]
    intro y hy
    cases hy
    omega

theorem meets_LayersArriveAndModelsChange_failure :
    let s : State := { worldY (hostLayer 0 .arriving 0 [5]) [⟨1, 0, 0, true, []⟩] with ops := [(1, op0 .resid (.lbind 0 0))] }
    s.hole = false ∧ s.layerOf 0 0 = some (hostLayer 0 .arriving 0 [5]) ∧ (hostLayer 0 .arriving 0 [5]).src ≠ 2 ∧
    tget s.ops 1 = some (op0 .resid (.lbind 0 0)) ∧ tget s.teams 0 = some tm0 ∧ tm0.ctx = 0 := by
  decide +kernel

/-- A model descriptor at 0x600000: model 5 with one layer at a host address; a malformed one; and what MDESC is written. -/
def mdescAt (bad : Nat) (ms : Tbl Model) : State :=
  let s := at5 (world tm0)
  { s with teams := [], models := ms
           mem := cellsSet s.mem 0x600000 (toBytes (5 * 2 ^ 112 + bad) 32 ++ toBytes (2 ^ 48 * 2 ^ 128) 32) }
def mdescV : Dword := BitVec.ofNat 64 (2 ^ 63 + 0x600000)
theorem meets_LayersArriveAndModelsChange_models :
    let pa := 0x600000
    let s1 (s : State) : State := (s.dropModel 63).touch pa 32
    let other : Tbl Model := [(62, ⟨5, 0, 1, 0, 0, [entryOf 0]⟩)]
    bitsOf mdescV.toNat 5 47 * 32 = pa ∧ mdescV.getLsbD 63 = true ∧
    ((mdescAt 1 []).ctxBusy 63 = false ∧ (s1 (mdescAt 1 [])).readModel pa = none ∧ (s1 (mdescAt 1 [])).hole = false) ∧
    (∃ m, (s1 (mdescAt 0 other)).readModel pa = some m ∧ ((s1 (mdescAt 0 other)).touch (pa + 32) 32).hole = false ∧
      (∃ k ∈ (s1 (mdescAt 0 other)).models, k.2.mnum = m.mnum) ∧ (s1 (mdescAt 0 [])).readModel pa = some m ∧
      (∀ k ∈ (s1 (mdescAt 0 [])).models, k.2.mnum ≠ m.mnum)) ∧
    ((mdescAt 0 []).dropModel 63).hole = false ∧ (at5 (world tm0)).ctxBusy 0 = true := by
  refine ⟨?_, ?_, ?_, ⟨_, rfl, ?_⟩, ?_⟩ <;> decide +kernel

/-- A fault of the trap frame's page, whose answer is late; a team that waits for it; a haltered team. -/
def tmTrap : Team := { tm0 with pendTrap := some ⟨false, .illop, 3, 7, 0x400000⟩ }
def worldF : State :=
  let s := at5 (world tmTrap)
  { s with faults := [⟨0, 0x700, 1, 0, 0, 0, some 0⟩], rt := 1025, fqcfg := BitVec.ofNat 64 (2 ^ 63 + 2 ^ 44 + 0x600)
           teams := s.teams ++ [(1, { tm0 with life := .haltered, slot := 1 })]
           halters := [⟨0, .team 1, 2, 0, 0, 0, 1, false, 0, 0, 0x40000C, true⟩] }
theorem meets_AnswersToFaultsAndHalters :
    (∃ x, worldF.faultOf 0 0x700FFF = some x ∧ ((worldF.faultDel 0 0x700FFF).declineAll 0 0x700).hole = false ∧
      fqTmo worldF.fqcfg ≠ 0 ∧ worldF.pastTmo 0 (x.rt0.getD 0) (fqTmo worldF.fqcfg * 1024) = true) ∧
    (tget worldF.teams 0 = some tmTrap ∧ tmTrap.life = .resident ∧ worldF.stopped tmTrap = false ∧
      worldF.faulting 0 (tmTrap.tfr.toNat / 4096) = false ∧ found (worldF.look 0 tmTrap.tfr.toNat true) = true) ∧
    (∃ h, worldF.halters.find? (fun y => y.hid = 0) = some h ∧ h.mst = .team 1 ∧ h.ctx = 0 ∧ (tget worldF.teams 1).isSome = true ∧
      (State.discardTeam { worldF with halters := [] } 1).hole = false) ∧ worldF.hole = false ∧
    -- no rollback is due, one is, and the spare is taking the core over
    ((worldF.undoOf 0).due = false ∧ worldF.takeoverDue 0 = false) ∧
    ({ worldF with undo := [(0, ⟨0, [], [], [], false, [], true, []⟩)] }.undoOf 0).due = true ∧
    { worldF with stks := [(0, { StackCfg.atReset with taking := some (0, 3) })] }.takeoverDue 0 = true := by
  refine ⟨⟨_, rfl, ?_⟩, ?_, ⟨_, rfl, ?_⟩, ?_⟩ <;> decide +kernel

/-- Queue 3 of context 0 with one packet at 0x500000. -/
def qcfg : Dword := BitVec.ofNat 64 (2 ^ 63 + 4 * 2 ^ 49 + 0x500000 / 128)
def worldQ (k : Nat) : State :=
  let s := at5 (world tm0)
  { s with mem := cellsSet s.mem 0x500000 (toBytes k 64), queues := [(3, ⟨qcfg, 1, 0, 0, 0, [], none, .open⟩)] }
/-- The packet starts, and goes on as far as it can. -/
def starts (k : Nat) : Bool :=
  let s1 := (worldQ k).pollSlot 3
  let u := s1.queue 3
  let n := s1.undoOf u.ctx
  let v : Live := { idx := u.ri.toNat, pkt := toBytes k 64, st := s1.startSt 3 k, page := none, fate := .open }
  let s2 := s1.modQueue 3 (fun u => { u with ri := u.ri + 1, live := u.live ++ [v], page := none, fate := .open })
  let s3 : State := { s2 with
    procs := (tset s2.procs (3 % 8) (3, s2.clk))
    undo := (if n.en then tset s2.undo u.ctx { n with replay := n.replay.tail } else s2.undo) }
  decide (s1.startable 3 = some k) && decide (s1.processorPick (3 % 8) = some 3) &&
    !(((s3.keepPacket u.ctx 3 (toBytes k 64)).liveStep 3 v).waitStep 3 false v).hole
def waiting (v rt0 : Nat) : State :=
  { worldQ (2 + 0x500040 * 2 ^ 64 + v * 2 ^ 128 + 2 ^ 448) with
    rt := 1025, queues := [(3, ⟨qcfg, 1, 1, 0, 0,
      [⟨0, toBytes (2 + 0x500040 * 2 ^ 64 + v * 2 ^ 128 + 2 ^ 448) 64, .wait rt0, none, .open⟩], none, .open⟩)] }

theorem meets_QueuesServePackets :
    ((world tm0).queue 1023).en = false ∧
    (let s : State := { worldQ 9 with queues := [(3, ⟨qcfg, 1, 0, 0x80000000, 0, [], none, .open⟩)] }
     (s.queue 3).halted = true ∧ s.w1cNow (.hlt 3) = false ∧ (s.queueResume 3).hole = false ∧
      { s with w1cAt := [(.hlt 3, s.clk)] }.w1cNow (.hlt 3) = true) ∧
    [1 + 0x500080 * 2 ^ 64, 9, 2 + 0x500040 * 2 ^ 64 + 7 * 2 ^ 128, 3 + 0x500040 * 2 ^ 64 + 7 * 2 ^ 128, 4].all starts = true ∧
    [1 + 0x500080 * 2 ^ 64, 9, 2 + 0x500040 * 2 ^ 64 + 7 * 2 ^ 128, 3 + 0x500040 * 2 ^ 64 + 7 * 2 ^ 128, 4].map pkType = [1, 9, 2, 3, 4] ∧
    (∃ v, ((waiting 0 0).queue 3).live = [v] ∧ v.st = .wait 0 ∧ ∃ s1,
      (waiting 0 0).waitLook 0 v false (pkConds (ofBytes v.pkt)) = ((true, false, none), s1) ∧ s1.hole = false) ∧
    (∃ v, ((waiting 8 0).queue 3).live = [v] ∧ v.st = .wait 0 ∧ ∃ s1,
      (waiting 8 0).waitLook 0 v false (pkConds (ofBytes v.pkt)) = ((false, false, none), s1) ∧ s1.hole = false ∧
        bitsOf (ofBytes v.pkt) 448 32 ≠ 0 ∧ s1.pastTmo 0 0 (bitsOf (ofBytes v.pkt) 448 32 * 1024) = true) := by
  refine ⟨?_, ?_, ?_, ?_, ⟨_, rfl, rfl, pair_of ?_ ?_⟩, _, rfl, rfl, pair_of ?_ ?_⟩ <;> decide +kernel

/-- A launch of four groups of one team, of queue 3. -/
def launch0 : Launch :=
  ⟨3, 0, 0, [63, 0x01000000, 0x02000003], 0x400000, 32, [], 1, 1024, 1, 0x20001, 0, 0, 0, none, none, false, none, [], [2, 3], [], 4,
    2, 0, 2, 0, none, false⟩
def worldG : State :=
  let s := worldQ 9
  { s with launches := [(0, launch0)], stks := tset s.stks 0 { s.stack 0 with vrst := false, vrdy := true } }
theorem meets_GroupsArePlaced :
    (∃ t, worldG.gangCheck.nextPlacement = some (0, t) ∧ t.hole = false) ∧
    (tget worldG.launches 0 = some launch0 ∧ launch0.order = [2, 3] ∧ topOf launch0.levels 3 = none ∧ launch0.perStack = none ∧
      launch0.perGang = none ∧ worldG.gangHold = [] ∧ (worldG.coresFor launch0 none []).find? (fun n => worldG.fits n launch0) = some 0 ∧
      worldG.stackBusy 0 = false) ∧
    (let s : State := { worldG with placeAt := [(0, worldG.clk)] }
     (s.coresFor launch0 none []).find? (fun n => s.fits n launch0) = some 0 ∧ s.gangHold = [] ∧ s.stackBusy 0 = true) ∧
    (let s : State := { worldG with launches := [(0, { launch0 with rest := [(1, 0, 0, none)] })] }
     s.launches = [(0, { launch0 with rest := [(1, 0, 0, none)] })] ∧ (s.undoOf 0).due = false ∧ s.takeoverDue 0 = false ∧
      tget s.placeAt 0 ≠ some s.clk) := by
  have h : worldG.gangCheck.nextPlacement.any (fun r => decide (r.1 = 0) && !r.2.hole) = true := by decide +kernel
  refine ⟨?_, by decide +kernel⟩
  cases e : worldG.gangCheck.nextPlacement with
  | none => rw [e] at h; cases h
  | some r =>
    rw [e] at h
    obtain ⟨n, t⟩ := r
    simp only [Option.any, Bool.and_eq_true, decide_eq_true_eq, Bool.not_eq_true'] at h
    exact ⟨t, by rw [h.1], h.2⟩

/-- Roll-back of context 0 on, in state 1, due or wanting a checkpoint. -/
def undo1 (ckpt due : Bool) : Undo := ⟨BitVec.ofNat 64 (2 ^ 63 + 2 ^ 61), [], [], [], ckpt, [], due, []⟩
def worldU (u : Undo) : State := { at5 (world tm0) with undo := [(0, u)] }

/-- A core with a line in L1. -/
def withL1 : State :=
  let s := at5 (world tm0)
  { s with cores := [(0, { s.core 0 with l1 := [⟨0, 5, 0, List.replicate 128 0, 0, false⟩] })] }

theorem meets_RollbackEventsComplete :
    ((world tm0).undoOf 63).en = false ∧
    (let s := worldU (undo1 true false)
     (s.undoOf 0).en = true ∧ (s.undoOf 0).due = false ∧ s.ckptWaits 0 = true ∧ (s.undoOf 0).before = [] ∧ s.activeOf 0 = [] ∧
      s.ctxLaunching 0 = [] ∧ s.ctxWrites 0 = false ∧ ((s.openInterval 0).ckptEnd 0).hole = false) ∧
    (let s := worldU (undo1 false false)
     [ErrSite.vreg 0 31 63, .sreg 0 63, .pred 0 6, .token 0 31 true, .desc 0 15 true, .scratch 0 1020].all (fun e =>
        decide (s.siteOf 0 e = some 0)) = true ∧
      (s.undoOf 0).en = true ∧ ((s.recordUnit (.core (s.physOf 0)) 2 0).ctxError 0).hole = false ∧
      (((s.recordUnit (.core (s.physOf 0)) 2 0).countError (.core (s.physOf 0))).ctxError 0).hole = false) ∧
    (let s := at5 (world { tm0 with stack := [join0] })
     s.siteOf 0 (.sreg 0 63) = some 0 ∧ s.siteOf 0 (.entry 0 0) = some 0 ∧ (s.undoOf 0).en = false ∧
      (((s.recordUnit (.core (s.physOf 0)) 2 0).countError (.core (s.physOf 0))).corrupt 0 (.sreg 0 63)).hole = false) ∧
    (let s := withL1
     s.siteOf 0 (.l1 0 5) = some 0 ∧ (((s.recordUnit (.core (s.physOf 0)) 2 0).countError (.core (s.physOf 0))).modCore 0 (fun k =>
        { k with l1 := k.l1.map (fun (l : L1Line) => if l.ctx = 0 ∧ l.vline = 5 then { l with poison := true } else l) })).hole = false) ∧
    (let s := worldU { undo1 false false with log := [⟨5, none, [], 0, false⟩] }
     s.hole = false ∧ (s.undoOf 0).st = 1 ∧ 0 < (s.undoOf 0).usedAt 0) ∧
    (let s := at5 (world tm0)
     homeOf (5 * 128) = .stack 0 ∧ s.present 0 = true ∧ s.hole = false) ∧
    (let s : State := { at5 (world tm0) with caches := ⟨[], [(7, [⟨5, none, 0, false, false⟩])], []⟩ }
     (tgetD s.caches.rdc 7 []).any (fun x => x.line = 5) = true ∧ s.hole = false) ∧
    ((worldM tmM).siteOf 0 (.matrix 0) = some 0 ∧ ((worldM tmM).mxUnitFail 0).hole = false) ∧
    (((worldU (undo1 false true)).undoOf 0).due = true ∧ ((worldU (undo1 false true)).rollback 0).hole = false ∧
      (worldU (undo1 false true)).answers = []) := by
  decide +kernel

/-- Core 0 in shadow mode, with the group in its active or in its parked bank. -/
def worldB (w : BankWork) (im : Option (List Nat)) (bank : Bool) : State :=
  let s := at5 (world tm0)
  { s with cores := [(0, { s.core 0 with sbcfg := BitVec.ofNat 64 (2 ^ 63), bank := w, image := im })]
           groups := tmap s.groups (fun _ g => { g with bank := bank }) }
theorem meets_BankTransfersComplete :
    (((worldB .idle none false).core 0).shadow = true ∧ ((worldB .idle none false).core 0).busy = false ∧ (127 : Nat) < 128) ∧
    (let s : State := { worldB (.swap 5) none false with clk := 101 }
     (s.core 0).bank = .swap 5 ∧ 5 + 96 ≤ s.clk ∧ (s.exchangeBanks 0).hole = false ∧ s.takeoverDue 0 = false ∧
      { s with stks := [(0, { StackCfg.atReset with taking := some (0, 5) })] }.swapFirst 0 = true) ∧
    (let s := worldB .spill none true
     (s.core 0).bank = .spill ∧ s.spillReady 0 = true ∧ (s.core 0).image = none ∧ (s.spillDo 0).hole = false) ∧
    (let s := worldB .fill (some [0]) false
     (s.core 0).bank = .fill ∧ (s.core 0).image = some [0] ∧ s.parkedGroups 0 = []) := by decide +kernel

theorem meets_ReliabilityEventsComplete :
    let s := at5 (world tm0)
    let l : State := { s with stks := [(7, { StackCfg.atReset with taking := some (127, 3) })] }
    s.hole = false ∧ [ErrUnit.core 135, .matrix 0, .hbm 7, .slice 7 15, .rdc 7, .hub].all (fun u => s.hasUnit u) = true ∧ s.present 7 = true ∧
    homeOf ((2 ^ 32 - 1) * 128) = .stack 7 ∧
    (l.takeoverDue 127 = true ∧ l.swapFirst 127 = false ∧ l.coreQuiet 127 = true ∧ l.undo = [] ∧ (l.takeover 127).hole = false) := by
  decide +kernel

/-- Session 3 with frames to its peer: a get and a put that are unanswered. -/
def frame (m : RimMsg) (sent : Nat) : RimFrame := ⟨0, 1, sent, 0, false, 0, m, []⟩
def worldS (st fails : Nat) (fs : List RimFrame) : State :=
  { at5 (world tm0) with rt := 2048, sessions := [(3, { sess st with
      ctl := (sess st).ctl ||| BitVec.ofNat 64 (2 ^ 40 + 1), fails := fails, frames := fs })] }
theorem meets_RimFramesArrive :
    (let s := worldS 2 0 [frame (.get 7 0x1000 2) 0, frame (.put 8 0x1000 [1] []) 0]
     let s1 := s.modSession 3 (fun x => { x with fails := 0, rx := x.rx + 1 })
     s1.askedFor 3 7 = some (frame (.get 7 0x1000 2) 0) ∧ (s.session 3).early = [] ∧ (frame (.get 7 0x1000 2) 0).got = [] ∧
      s1.askedFor 3 8 = some (frame (.put 8 0x1000 [1] []) 0)) ∧
    ((worldS 2 2 []).session 3).st = 2 ∧ ((worldS 2 2 []).session 3).fails < 3 ∧ ((worldS 2 2 []).session 3).rx = 0 ∧
    ((((worldS 2 2 []).modSession 3 (fun x => { x with rx := 4 })).session 3).rx = 4) ∧
    (3 ≤ ((worldS 2 3 []).session 3).fails ∧ ((worldS 2 3 []).sessionFail 3 true).hole = false) ∧
    (let s := worldS 2 0 [frame .refuse 0]
     s.portOf (s.session 3) = some 0 ∧ (s.session 3).frames = [frame .refuse 0] ∧ (frame .refuse 0).acked = false ∧
      2048 ≤ s.rt - (frame .refuse 0).sent) ∧
    (let s := worldS 2 0 [frame .refuse 0]
     (∃ f ∈ (s.session 3).frames, f.acked = false ∧ (s.session 3).giveup ≤ s.rt - f.first) ∧ (s.sessionFail 3 false).hole = false) ∧
    (11 < 12 ∧ 11 ∉ (worldS 2 0 []).rimDown) := by decide +kernel

/-- What a request of a peer asks for. -/
def served (s : State) (va len : Nat) (write : Bool) : Bool :=
  match (s.rimTook 3 (if write then len else 0)).engResolve 0 0 write [] (cutAt 128 .va len va len) with
  | (.ok ks, _, s1) =>
    let r := s1.engReadAll none ks
    ks.all (fun k => match k.at_ with | .mem _ _ p => !pteCmp p | _ => true) && !s1.hole && !r.1.any (fun b => b.bad) &&
      decide ((r.2.inject 3 (r.1.map (fun b => b.x))).2.hole = false) && !ks.isEmpty
  | _ => false
theorem meets_SessionsServeAndChange :
    (((worldS 2 0 []).session 3).st = 2 ∧ ((worldS 2 0 []).session 3).halted = false ∧ ((worldS 2 0 []).session 3).mayRead = true ∧
      ((worldS 2 0 []).session 3).mayWrite = true ∧ ((worldS 2 0 []).session 3).ctx = 0 ∧ 0x500F81 + 127 ≤ 2 ^ 56 ∧
      served (worldS 2 0 []) 0x500F81 127 false = true ∧ served (worldS 2 0 []) 0x500F81 127 true = true) ∧
    (((worldS 0 0 []).session 8191).st = 0 ∧ (0xFFFFFFFFFFFFFFFF : Dword).getLsbD 63 = true) ∧
    ((((worldS 2 0 []).sessionDrop 3 4).modSession 3 (fun x => x.setSt 0)).injLeave 3).hole = false ∧
    ((worldS 1 0 []).session 3).st = 1 ∧ injArm (worldS 1 0 []).riminj = false := by decide +kernel

theorem meets_HostPoolAndSecurityEventsComplete :
    let s := at5 (world tm0)
    (s.hole = false ∧ [0].length ≠ 0 ∧ 0x50007F % 128 + [0].length ≤ 128 ∧ s.exposed 0x50007F = true) ∧
    (∀ j < 2, s.exposed (2 ^ 48 + 128 * j) = true) ∧
    (3 < 4 ∧ 3 ∉ s.cxlDown ∧ (State.endPending { s with cxlDown := 3 :: s.cxlDown }).hole = false) ∧
    ({ s with spdm := true }.spdm = true ∧ (1 ≤ 4095 ∧ 4095 < 4096) ∧ s.spdm = false ∧
      { s with leaf := 2 ^ 20 - 1 }.leaf < 2 ^ 20 ∧ 2 ^ 20 ≤ { s with leaf := 2 ^ 20 }.leaf) := by decide +kernel

/-- Stack 0 powered, with or without a group; the end of a power window. -/
def worldV (held : Bool) : State :=
  let s := at5 (world tm0)
  { s with stks := tset s.stks 0 { s.stack 0 with vrst := false }, groups := if held then s.groups else [], rt := 100000 }
theorem meets_ConfigurationEventsComplete :
    ((worldV true).hole = false ∧ (worldV true).brcfg.getLsbD 2 = true ∧ State.reset.brcfg.getLsbD 2 = false) ∧
    ((worldV true).present 0 = true ∧ ((worldV true).stack 0).vrst = false ∧ (∀ k < 16, (worldV true).takeoverDue (16 * 0 + k) = false) ∧
      (worldV true).stackHolds 0 = true ∧ (worldV false).stackHolds 0 = false ∧
      (∀ k < 16, (worldV false).takeoverDue (16 * 0 + k) = false)) ∧
    (((worldV true).window + 1) * 100000 ≤ (worldV true).rt ∧ 2100 ≤ (worldV true).capNow ∧ 2100 < 2 ^ 12 ∧ 450 ≤ 450 ∧ 450 ≤ 750 ∧
      0 < 1 ∧ 1 < 2 ^ 14) ∧
    ((worldV true).cfgWrite 0x20000 5).hole = false := by decide +kernel

theorem meets_ConfigurationWritesRead :
    (worldV true).brcfg.getLsbD 2 = true ∧ ((worldV true).queue 1023).en = false ∧ bitsOf (0x8006000000000000 : Dword).toNat 49 4 < 4 ∧
    (worldV true).present 7 = true ∧ (worldV true).w1cNow (.ref 7) = false ∧ (0x40000000 : Dword).getLsbD 31 = false ∧ (0x40000000 : Dword).getLsbD 30 = true ∧
    cfgAt 0x48 = none := by decide +kernel

/-- Token 3, overflowed, erred or short. -/
def tmTok (k : Token) : Team := { tm0 with tokN := [(3, k)] }

/-- `nop` at its wait; the all-ones word and a `mov` about to run, by the script and by the scheduler. -/
theorem meets_AllZeroWordIsNop : Ready (world tm0) (here tm0) { H1 with g := ⟨false, 7⟩ } [] ∧
    Live0 (world (tmTok ⟨14, false, 0, false⟩)) (here (tmTok ⟨14, false, 0, false⟩)) ∧ (tmTok ⟨14, false, 0, false⟩).inlineWait H1 = .waits :=
  ⟨ready_of (by decide +kernel), (ready_of (ps := []) (h := H) (by decide +kernel)).clear.live, by decide +kernel⟩

def placed (w : Nat) : State := State.reset.withFetchWord 96 w
/-- The fetch of the team's word gives w. -/
def fetches (s : State) (w : Inst96) (P : Except DecErr Instr → Bool) : Bool :=
  match tget s.teams 0 with
  | some tm =>
    match s.fetchInst tm (fetchState (tm.path false)) (tm.path false).pc.toNat with
    | (.got v, s1) => P (decode (s1.decCtx tm) w) && decide (v = w) && decide (tm.perm = none) && s.issues 0 false tm &&
        !((s1.modTeam 0 (fun tm => tm.setPath false { tm.path false with hold := .free })).takeTrap 0 false .illop 10 0 (tm.path false).pc).hole
    | _ => false
  | none => false

theorem meets_AllOnesWordIsReserved : (placed (2 ^ 96 - 1)).script = [.run 0 false false] ∧
    fetches { placed (2 ^ 96 - 1) with script := [] } (BitVec.allOnes 96) (fun e => decide (e = .error .ones)) = true := by decide +kernel

theorem meets_DecodeOfEncode : (Instr.ffma H1 .f32 .rne .g3 (.v 252) (.v 1) (.s 62) (.i 0x3FF)).wf cx = true ∧
    (encode (Instr.ffma H1 .f32 .rne .g3 (.v 252) (.v 1) (.s 62) (.i 0x3FF))).isSome = true := by decide +kernel

theorem meets_StepRunsTheDecodedInstruction :
    ((placed 0).script = [.run 0 false false] ∧
      fetches { placed 0 with script := [] } 0 (fun e => decide (e = .ok (.nop ⟨⟨false, 0⟩, ⟨0, none, none⟩⟩))) = true) ∧
    (let s : State := { placed 0x000000000100000000000000 with script := [] }
     s.script = [] ∧ s.power = true ∧ s.dueFrag = some (0, false) ∧
      fetches s 0x000000000100000000000000 (fun e => decide (e = .error .imm)) = true) ∧
    (State.reset.power = true ∧ State.reset.dueFrag = none) ∧
    (let s : State := { placed 0 with script := [.event (.hostSnoop 0)] }
     State.allows { s with script := [] } (.hostSnoop 0) = true) := by decide +kernel

/-- A fetch of its three words, of a compressed page, and of a poisoned line. -/
def fetchOk (s : State) (va : Nat) : Bool :=
  match tget s.teams 0 with
  | some tm => (match s.fetchWord tm (fetchState (tm.path false)) va with | (.got b, s1) => decide (b.length = 4) && !s1.hole | _ => false)
  | none => false
/-- The page at 0x500000 compressed, and not to be written. -/
def worldCmp : State :=
  { world tm0 with mem := cellsSet (world tm0).mem (bucketAddr fetchRoot 0 0x500000 0) (toBytes (2 ^ 127 + 2 ^ 118 + 0x500 * 2 ^ 44 + 0x500) 16) }

theorem meets_FetchReadsMemory :
    [0x400000, 0x400004, 0x400008].all (fetchOk (placed 0)) = true ∧
    (∃ p s1, (placed 0).translate 0 0x400000 = (.hit p, s1) ∧ pteCmp p = false ∧
      s1.lookAt (.hit p) 0x400000 false = .ok (2 ^ 48 + 0x400000) p ∧
      s1.poisoned (lineOf (2 ^ 48 + 0x400000)) (pteKey p) = false ∧ s1.keyMatches (lineOf (2 ^ 48 + 0x400000)) (pteKey p) = true ∧
      (s1.core 0).ibufLine 0 (0x400000 / 128) = none ∧
      (s1.cacheRead 0 0 (pteCls p) (lineOf (2 ^ 48 + 0x400000))).replicaBad 0 (lineOf (2 ^ 48 + 0x400000)) = false) ∧
    (2 ^ 56 ≤ 2 ^ 56) ∧
    -- a compressed page; a line poisoned in memory, in the stack's RDC, and in the buffer
    (match worldCmp.translate 0 0x500000 with | (.hit p, _) => pteCmp p | _ => false) = true ∧
    ({ placed 0 with poison := [lineOf (2 ^ 48 + 0x400000)] }.poisoned (lineOf (2 ^ 48 + 0x400000)) 0 = true ∧
      { placed 0 with caches := ⟨[], [(0, [⟨lineOf (2 ^ 48 + 0x400000), some 0, 0, false, true⟩])], []⟩ }.replicaBad 0
        (lineOf (2 ^ 48 + 0x400000)) = true ∧
      { (placed 0).core 0 with ibuf := [⟨0, 0x400000 / 128, 0, [], 0, true⟩] }.ibufLine 0 (0x400000 / 128) =
        some ⟨0, 0x400000 / 128, 0, [], 0, true⟩) := by
  refine ⟨by decide +kernel, ⟨BitVec.ofNat 128 fetchPte, ((placed 0).translate 0 0x400000).2, Prod.ext ?_ rfl, ?_⟩, le_refl _, ?_⟩ <;>
    decide +kernel

theorem meets_StepUsesNoMissingAddress_and_MemoryStaysCanonical : Memory.wf (placed 0).mem = true ∧ (match step (placed 0) with | .next t => Memory.wf t.mem && !t.hole | _ => false) =
    true := by decide +kernel

def addI : Instr := .add H1 .i32 true (.v 3) (.v 1) (.i 0x3FF)
theorem meets_RegisterFormsKeepTheRest : formOf addI = some (H1, .fixed 4, wr 1 (.v 3) ++ rd 1 (.v 1) ++ rd 1 (.i 0x3FF)) ∧
    addI.wf cx = true ∧ Ready (world tm0) (here tm0) H1 (wr 1 (.v 3) ++ rd 1 (.v 1) ++ rd 1 (.i 0x3FF)) ∧
    (match exec addI (world tm0) with | .next _ => true | _ => false) = true := by
  refine ⟨rfl, ?_, ready_of ?_, ?_⟩ <;> decide +kernel

theorem meets_LandingWritesOnlyWhatIsDue :
    let tm (u : Upd) : Team := { tm0 with pend := [⟨1, 0, .upd u⟩] }
    tget (world (tm (.sca 63 (some 1) (some 2)))).teams 0 = some (tm (.sca 63 (some 1) (some 2))) ∧ tm0.life ≠ .draining ∧
    (1 ≤ (world tm0).clk + 1 ∧ 63 < 64) ∧
    tget (world (tm (.vec 255 [⟨63, some 1, some 2⟩]))).teams 0 = some (tm (.vec 255 [⟨63, some 1, some 2⟩])) := by decide +kernel

/-- A store of two bytes pairs in two lanes, and a load; each goes on. -/
def stI : Instr := .st H1 .n32 .c2 (.v 10) (.s 4) (.v 6) 0xFF8
theorem meets_StoresWriteOnlyTheirBytes :
    stores (world tm0) (here tm0) stI = true ∧ Memory.wf (world tm0).mem = true ∧ ((world tm0).core 0).side = [] ∧
    (match exec stI (world tm0) with | .next _ => true | _ => false) = true ∧
    (let r := (((world tm0).issued (here tm0)).unspin ((world tm0).viewAt (here tm0) H1)).resolveParts tm0 []
      ((match storeForm (world tm0) (here tm0) stI with | some f => f.2.2.2 | none => ([] : List Piece)).flatMap (fun (p : Piece) =>
        (cutBytes p.addr (tm0.runs_ p.lane p.addr p.bs.length) p.bs p.keep).map (fun r => (p, r))))
     r.2.lineRoom 0 (lineCount (r.1.map (fun p => p.wr.c))) = true ∧ r.2.behind 0 r.2.nextOp (r.1.map (fun p => p.wr.c)) = false ∧ r.2.unlinked tm0 (.store (r.1.map Part.wr) none) = false ∧
     r.1.any (fun p => match p.at_ with | .mem _ pa _ => decide (pa = 0x500FF8) && decide (p.keep = []) | _ => false) = true) ∧
    (match exec (.ld H1 .n32 .c2 (.v 10) (.s 4) (.v 6) 0xFF8) (world tm0) with | .next _ => true | _ => false) = true := by
  decide +kernel

/-- A register read too early; a register with an error. -/
def tmChk : Team := { tm0 with mode := tm0.mode ||| 0x40000, pend := [⟨4, 0, .upd (.vec 1 [⟨0, some 1, none⟩])⟩] }
def tmEcc : Team := { tm0 with corrupt := [.vreg 0 1 0] }
theorem meets_ConventionsTrapBeforeAnyEffect :
    (formOf addI).isSome = true ∧
    [(⟨14, false, 0, false⟩, WaitRes.waits), (⟨255, false, 0, true⟩, .kovf), (⟨15, true, 5, false⟩, .kerr 5)].all (fun k =>
      decide ((tmTok k.1).inlineWait H1 = k.2)) = true ∧
    [(⟨255, false, 0, true⟩ : Token), ⟨15, true, 5, false⟩].all (fun k =>
      !({ world (tmTok k) with cur := none }.takeTrap 0 false .kovf 0 3 0x400000).hole) = true ∧
    (mChk tmChk.mode = true ∧ (here tmChk).mask H1 ≠ 0 ∧
      ((world tmChk).underwait 0 tmChk 0 ((here tmChk).mask H1) (wr 1 (.v 3) ++ rd 1 (.v 1) ++ rd 1 (.i 0x3FF) ++ rdPred 7)).isSome = true) ∧
    ((tmEcc.eccHit H1 ((here tmEcc).mask H1) (wr 1 (.v 3) ++ rd 1 (.v 1))).isSome = true ∧ mChk tmEcc.mode = false ∧
      tmEcc.eccWait H1 = none ∧ ({ tm0 with corrupt := [.token 0 3 false] } : Team).eccWait H1 = some (.token 0 3 false)) ∧
    (Clear (world tm0) (here tm0) Hp [] false ∧ (here tm0).mask Hp = 0) ∧
    (ReadyOut (world tm0) (here tm0) H1 (rd 2 (.s 4) ++ rd 1 (.i 4)) ∧ (world tm0).prv tm0.ctx = false ∧
      (((world tm0).issued (here tm0)).takeTrap 0 false .priv 1 0 0x400000).hole = false) := by
  refine ⟨?_, ?_, ?_, ?_, ?_, ⟨clear_of ?_, ?_⟩, readyOut_of ?_, ?_⟩ <;> decide +kernel

end Sys2Proof.Machine.Tests
end

section
/-! PROOFS. What the events of a queue answer: notices of WI, resumes, starts and ends of packets (R360-R369). -/

namespace Sys2Proof.Machine

/-! ### Boards: what an entry reads as after its own update -/

@[simp] theorem State.queue_modQueue_self (s : State) (q : Nat) (f : Queue → Queue) :
    (s.modQueue q f).queue q = f (s.queue q) := tgetD_tset_self ..

@[simp] theorem State.ctx_modCtx_self (s : State) (c : Nat) (f : CtxCfg → CtxCfg) :
    (s.modCtx c f).ctx c = f (s.ctx c) := tgetD_tset_self ..

@[simp] theorem State.stack_modStack_self (s : State) (n : Nat) (f : StackCfg → StackCfg) :
    (s.modStack n f).stack n = f (s.stack n) := tgetD_tset_self ..

/-! ### Answers -/

theorem answer_of_hole_false {s : State} (h : s.hole = false) : answer s = .next s := by simp [answer, h]

/-! ### Queues: checks, ends and resumes (R360, R361) -/

/-- A queue that is off is never halted by its check. -/
theorem State.queueCheck_of_off {s : State} {q : Nat} (h : (s.queue q).en = false) : s.queueCheck q = s := by
  simp [State.queueCheck, h]

@[simp] theorem State.packetEnd_hole (s : State) (q idx code : Nat) : (s.packetEnd q idx code).hole = s.hole := rfl

/-- A clearing write of HLT resumes a halted queue. -/
theorem State.hltClear_of_halted {s : State} {q : Nat} (hq : (s.queue q).halted = true) (hw : s.w1cNow (.hlt q) = false) :
    s.hltClear q = s.queueResume q := by
  simp [State.hltClear, hq, hw]

/-- A halt of the same clk stands (R6). -/
theorem State.hltClear_of_now {s : State} {q : Nat} (hw : s.w1cNow (.hlt q) = true) : s.hltClear q = s := by
  simp [State.hltClear, hw]

/-! ### Packets start (R365) -/

/-- Queue q, whose slot has been read, starts the packet k at its RI: RI moves on, the processor and the kept packets of a
roll-back remember it, and it goes on as far as it can. -/
def State.startPacket (s : State) (q k : Nat) : State :=
  let u := s.queue q
  let n := s.undoOf u.ctx
  let v : Live := { idx := u.ri.toNat, pkt := toBytes k 64, st := s.startSt q k, page := none, fate := .open }
  let s := s.modQueue q (fun u => { u with ri := u.ri + 1, live := u.live ++ [v], page := none, fate := .open })
  let s : State := { s with
    procs := tset s.procs (q % 8) (q, s.clk)
    undo := if n.en then tset s.undo u.ctx { n with replay := n.replay.tail } else s.undo }
  ((s.keepPacket u.ctx q (toBytes k 64)).liveStep q v).waitStep q false v

/-- A start event of the packet's type starts the packet that may start in the queue that the processor picks. -/
theorem State.packetStart_of_pick {s : State} {q k : Nat} {want : Nat → Bool} (hk : (s.pollSlot q).startable q = some k)
    (hp : (s.pollSlot q).processorPick (q % 8) = some q) (hw : want (pkType k) = true) :
    s.packetStart q want = (s.pollSlot q).startPacket q k := by
  simp only [State.packetStart, hk, hp, hw, ne_eq, not_true_eq_false, Bool.not_true, Bool.false_eq_true, or_self, if_false]
  rfl

/-! ### WAITs end (R369) -/

/-- The evaluation of the WAITs of a queue with one live packet is that packet's. -/
theorem State.waitsStep_of_single {s : State} {q : Nat} {v : Live} (tmo : Bool) (h : (s.queue q).live = [v]) :
    s.waitsStep q tmo = s.waitStep q tmo v := by
  simp [State.waitsStep, h]

section
variable {s s1 : State} {q rt0 : Nat} {v : Live} {bad : Bool} {page : Option Nat}

/-- A WAIT whose conditions hold ends OK, or UPSTREAM after an error. -/
theorem State.waitStep_of_held (hv : v.st = .wait rt0)
    (hl : s.waitLook (s.queue q).ctx v false (pkConds (ofBytes v.pkt)) = ((true, bad, page), s1)) :
    s.waitStep q false v = s1.packetEnd q v.idx (if bad then 9 else 0) := by
  simp [State.waitStep, hv, hl]

/-- A WAIT whose time is over, and whose conditions do not hold, ends TIMEOUT. -/
theorem State.waitStep_of_late (hv : v.st = .wait rt0)
    (hl : s.waitLook (s.queue q).ctx v false (pkConds (ofBytes v.pkt)) = ((false, bad, page), s1))
    (hn : bitsOf (ofBytes v.pkt) 448 32 ≠ 0)
    (ht : s1.pastTmo 0 rt0 (bitsOf (ofBytes v.pkt) 448 32 * 1024) = true) :
    s.waitStep q true v = s1.packetEnd q v.idx 10 := by
  have hn' : bitsOf (ofBytes v.pkt) 448 32 * 1024 ≠ 0 := Nat.mul_ne_zero hn (by decide)
  simp only [State.waitStep, hv, hl, ht, hn', Bool.false_eq_true, if_false, Bool.and_true, ne_eq,
    not_false_eq_true, decide_true, if_true]

end

/-! ### The events of a queue -/

theorem exec_queueNotify_of_off {s : State} {q : Nat} (wi : Nat) (hq : q < 1024) (he : (s.queue q).en = false)
    (hh : s.hole = false) :
    exec (.queueNotify q wi) s = .next (s.modQueue q (fun u => { u with wi := BitVec.ofNat 32 wi })) := by
  show answer (if q < 1024 then (s.modQueue q (fun u => { u with wi := BitVec.ofNat 32 wi })).queueCheck q else s) = _
  rw [if_pos hq, State.queueCheck_of_off (by simpa [Queue.en] using he), answer_of_hole_false (by simpa using hh)]

theorem exec_qstatHltClear (s : State) (q : Nat) : exec (.qstatHltClear q) s = answer (s.hltClear q) := rfl

/-- Each of the four start events starts a packet of its types. -/
theorem exec_startEvent_of_pick {s : State} {q k : Nat} {ev : Instr}
    (hev : (ev = .launchPacketStart q ∧ pkType k ≠ 2 ∧ pkType k ≠ 3 ∧ pkType k ≠ 4) ∨
      (ev = .waitPacketStart q ∧ pkType k = 2) ∨ (ev = .signalPacketStart q ∧ pkType k = 3) ∨
      (ev = .ckptPacketStart q ∧ pkType k = 4))
    (hk : (s.pollSlot q).startable q = some k) (hp : (s.pollSlot q).processorPick (q % 8) = some q) :
    exec ev s = answer ((s.pollSlot q).startPacket q k) := by
  obtain ⟨want, he, hw⟩ : ∃ want, exec ev s = answer (s.packetStart q want) ∧ want (pkType k) = true := by
    rcases hev with ⟨rfl, h2, h3, h4⟩ | ⟨rfl, h⟩ | ⟨rfl, h⟩ | ⟨rfl, h⟩
    · exact ⟨_, rfl, by simp [h2, h3, h4]⟩
    · exact ⟨_, rfl, by simp [h]⟩
    · exact ⟨_, rfl, by simp [h]⟩
    · exact ⟨_, rfl, by simp [h]⟩
  rw [he, State.packetStart_of_pick hk hp hw]

theorem exec_waitPacketEnd_of_single {s : State} {q : Nat} {v : Live} (h : (s.queue q).live = [v]) :
    exec (.waitPacketEnd q) s = answer (s.waitStep q false v) := congrArg answer (State.waitsStep_of_single false h)

theorem exec_waitPacketTimeout_of_single {s : State} {q : Nat} {v : Live} (h : (s.queue q).live = [v]) :
    exec (.waitPacketTimeout q) s = answer (s.waitStep q true v) := congrArg answer (State.waitsStep_of_single true h)

/-- Settles O35: each event of a queue answers with its operation, and no end of a packet uses an address. -/
theorem queuesServePackets : Obligations.QueuesServePackets := by
  refine ⟨fun s q wi => exec_queueNotify_of_off wi, fun s q hq hh => ⟨fun hw => ?_, fun hw hr => ?_⟩, ?_, ?_⟩
  · rw [exec_qstatHltClear, State.hltClear_of_now hw, answer_of_hole_false hh]
  · rw [exec_qstatHltClear, State.hltClear_of_halted hq hw, answer_of_hole_false hr]
  · intro s q k ev hev s1 hk hp u n v s2 s3 t ht
    rw [exec_startEvent_of_pick hev hk hp]
    exact answer_of_hole_false ht
  · intro s q v rt0 all bad page s1 hlive hv hl hh
    refine ⟨?_, ?_⟩
    · rintro rfl
      rw [exec_waitPacketEnd_of_single hlive, State.waitStep_of_held hv hl, answer_of_hole_false (by simpa using hh)]
    · rintro rfl hn ht
      rw [exec_waitPacketTimeout_of_single hlive, State.waitStep_of_late hv hl hn ht,
        answer_of_hole_false (by simpa using hh)]

end Sys2Proof.Machine
end

section
/-! PROOFS. What configuration registers read as after a write (R328). -/

namespace Sys2Proof.Machine

/-! ### The map of configuration space (R328) -/

/-- Register j of context c. -/
theorem cfgAt_ctx {o c j : Nat} (ho : o = 0x10000 + 0x100 * c + 8 * j) (hc : c < 64) (hj : j < 32) :
    cfgAt o = [CfgReg.ptroot c, .l2qt c, .mdesc c, .thcfg c, .rbcfg c][j]? := by
  have h1 : ¬ o % 8 ≠ 0 := by omega
  have h2 : ¬ o < 0x48 := by omega
  have h3 : 0x10000 ≤ o ∧ o < 0x10000 + 0x100 * 64 := by omega
  have h4 : (o - 0x10000) / 0x100 = c := by omega
  have h5 : o % 0x100 / 8 = j := by omega
  rw [cfgAt, if_neg h1, if_neg h2, if_pos h3, h4, h5]

/-- Register j of queue q. -/
theorem cfgAt_queue {o q j : Nat} (ho : o = 0x20000 + 0x20 * q + 8 * j) (hq : q < 1024) (hj : j < 4) :
    cfgAt o = [CfgReg.qcfg q, .qptr q, .qstat q][j]? := by
  have h1 : ¬ o % 8 ≠ 0 := by omega
  have h2 : ¬ o < 0x48 := by omega
  have h3 : ¬ (0x10000 ≤ o ∧ o < 0x10000 + 0x100 * 64) := by omega
  have h4 : 0x20000 ≤ o ∧ o < 0x20000 + 0x20 * 1024 := by omega
  have h5 : (o - 0x20000) / 0x20 = q := by omega
  have h6 : o % 0x20 / 8 = j := by omega
  rw [cfgAt, if_neg h1, if_neg h2, if_neg h3, if_pos h4, h5, h6]

/-- Register j of stack n. -/
theorem cfgAt_stack {o n j : Nat} (ho : o = 0x30000 + 0x100 * n + 8 * j) (hn : n < 8) (hj : j < 32) :
    cfgAt o = [CfgReg.stkmap n false, .stkmap n true, .rpcfg n, .ulcfg n, .stkpwr n][j]? := by
  have h1 : ¬ o % 8 ≠ 0 := by omega
  have h2 : ¬ o < 0x48 := by omega
  have h3 : ¬ (0x10000 ≤ o ∧ o < 0x10000 + 0x100 * 64) := by omega
  have h4 : ¬ (0x20000 ≤ o ∧ o < 0x20000 + 0x20 * 1024) := by omega
  have h5 : 0x30000 ≤ o ∧ o < 0x30000 + 0x100 * 8 := by omega
  have h6 : (o - 0x30000) / 0x100 = n := by omega
  have h7 : o % 0x100 / 8 = j := by omega
  rw [cfgAt, if_neg h1, if_neg h2, if_neg h3, if_neg h4, if_pos h5, h6, h7]

/-- An access of an assigned offset is one of its register. -/
theorem State.cfgWrite_of_reg {o : Nat} {r : CfgReg} (h : cfgAt o = some r) (s : State) (v : Dword) :
    s.cfgWrite o v = s.regWrite r v := by simp [State.cfgWrite, h]

theorem State.cfgRead_cfgWrite {o : Nat} {r : CfgReg} (h : cfgAt o = some r) (s : State) (v : Dword) :
    (s.cfgWrite o v).cfgRead o = BitVec.ofNat 64 ((s.regWrite r v).regRead r) := by
  simp [State.cfgWrite_of_reg h, State.cfgRead, h]

/-- An offset without a register ignores writes and reads zero. -/
theorem State.cfgWrite_of_none {o : Nat} (h : cfgAt o = none) (s : State) (v : Dword) :
    s.cfgWrite o v = s ∧ s.cfgRead o = 0 := by simp [State.cfgWrite, State.cfgRead, h]

/-! ### ERRCFG (R425) -/

@[simp] theorem State.recordUnit_errcfg (s : State) (u : ErrUnit) (k d : Nat) : (s.recordUnit u k d).errcfg = s.errcfg := rfl
@[simp] theorem State.setErr_errcfg (s : State) (u : ErrUnit) (c : ErrCount) : (s.setErr u c).errcfg = s.errcfg := rfl
@[simp] theorem State.coreCd_errcfg (s : State) (n : Nat) (f : Countdown → Countdown) : (s.coreCd n f).errcfg = s.errcfg := rfl

/-- Marking a unit leaves ERRCFG, whether or not a spare is there to take a core over. -/
@[simp] theorem State.markLasting_errcfg (s : State) (u : ErrUnit) : (s.markLasting u).errcfg = s.errcfg := by
  unfold State.markLasting
  split
  · rfl
  · have hm : ((s.setErr u { s.errOf u with lasting := true }).recordUnit u 4 0).errcfg = s.errcfg := by simp
    dsimp only
    generalize (s.setErr u { s.errOf u with lasting := true }).recordUnit u 4 0 = m at hm ⊢
    cases u with
    | core p =>
      dsimp only
      split
      · split
        · split <;> simpa using hm
        · exact hm
      · split
        · simpa using hm
        · exact hm
    | _ => exact hm

@[simp] theorem State.lastingCheck_errcfg (s : State) (u : ErrUnit) : (s.lastingCheck u).errcfg = s.errcfg := by
  unfold State.lastingCheck
  split
  · exact s.markLasting_errcfg u
  · rfl

theorem State.lastingChecks_errcfg (us : List ErrUnit) (s : State) : (us.foldl State.lastingCheck s).errcfg = s.errcfg := by
  induction us generalizing s with
  | nil => rfl
  | cons u us ih => rw [List.foldl_cons, ih, State.lastingCheck_errcfg]

/-- A written 0 is stored as 1. -/
theorem State.errWrite_errcfg (s : State) (v : Dword) : (s.errWrite v).errcfg =
    BitVec.ofNat 64 (max 1 (bitsOf v.toNat 48 16) * 2 ^ 48 + max 1 (bitsOf v.toNat 40 8) * 2 ^ 40) :=
  State.lastingChecks_errcfg ..

/-! ### PWRCFG, THCFG, L2QT, QCFG and STKPWR -/

/-- A field that was set reads as what was set. -/
theorem bitsOf_setBits (x lo len v : Nat) : bitsOf (setBits x lo len v) lo len = v % 2 ^ len := by
  have h : setBits x lo len v = x % 2 ^ lo + 2 ^ lo * (v % 2 ^ len + 2 ^ len * (x / 2 ^ (lo + len))) := by
    rw [setBits, pow_add]; ring
  rw [bitsOf, h, Nat.add_mul_div_left _ _ (by positivity), Nat.div_eq_of_lt (Nat.mod_lt _ (by positivity)), Nat.zero_add,
    Nat.add_mul_mod_self_left, Nat.mod_mod]

/-- Bits 63:52 of a doubleword whose field there was set. -/
theorem extractLsb'_ofNat_setBits (x v : Nat) :
    (BitVec.ofNat 64 (setBits x 52 12 v)).extractLsb' 52 12 = BitVec.ofNat 12 v := by
  have hf := bitsOf_setBits x 52 12 v
  apply BitVec.eq_of_toNat_eq
  rw [BitVec.extractLsb'_toNat, BitVec.toNat_ofNat, BitVec.toNat_ofNat, Nat.shiftRight_eq_div_pow, ← hf]
  generalize setBits x 52 12 v = n
  simp only [bitsOf]
  omega

/-- CAP is clamped (R450). -/
theorem State.pwrWrite_cap (s : State) (v : Dword) : (s.pwrWrite v).pwrcfg.extractLsb' 52 12 =
    BitVec.ofNat 12 (min 2100 (max 500 (bitsOf v.toNat 52 12))) :=
  extractLsb'_ofNat_setBits s.pwrcfg.toNat _

/-- The low 56 bits of a doubleword. -/
theorem toNat_and_low56 (v : Dword) : (v &&& 0x00FFFFFFFFFFFFFF).toNat = v.toNat % 2 ^ 56 :=
  Nat.and_two_pow_sub_one_eq_mod v.toNat 56

/-- The low 56 bits of a doubleword and its top bit. -/
theorem toNat_and_top_low56 (v : Dword) : (v &&& 0x80FFFFFFFFFFFFFF).toNat = v.toNat / 2 ^ 63 * 2 ^ 63 + v.toNat % 2 ^ 56 := by
  have hlow : v.toNat % 2 ^ 56 < 2 ^ 63 := by omega
  have htop : v.toNat &&& 2 ^ 63 = 2 ^ 63 * (v.toNat / 2 ^ 63) := by
    have hv := v.isLt
    rw [Nat.and_two_pow, Nat.toNat_testBit]
    omega
  calc (v &&& 0x80FFFFFFFFFFFFFF).toNat = v.toNat &&& (2 ^ 63 ||| (2 ^ 56 - 1)) := rfl
    _ = 2 ^ 63 * (v.toNat / 2 ^ 63) ||| v.toNat % 2 ^ 56 := by
        rw [Nat.and_or_distrib_left, htop, Nat.and_two_pow_sub_one_eq_mod]
    _ = v.toNat / 2 ^ 63 * 2 ^ 63 + v.toNat % 2 ^ 56 := by
        rw [← Nat.two_pow_add_eq_or_of_lt hlow, Nat.mul_comm]

/-- A misaligned ENTRY turns THCFG off; the reserved bits are zero (R381). -/
theorem thNorm_eq (v : Dword) :
    thNorm v = if v.toNat % 4 = 0 then v &&& 0x80FFFFFFFFFFFFFF else v &&& 0x00FFFFFFFFFFFFFF := by
  have hv := v.isLt
  have he : v.toNat % 2 ^ 56 % 4 = v.toNat % 4 := Nat.mod_mod_of_dvd _ (by decide)
  apply BitVec.eq_of_toNat_eq
  rw [thNorm, BitVec.toNat_ofNat, he]
  split
  · rw [toNat_and_top_low56]
    omega
  · rw [toNat_and_low56]
    omega

/-- Four fields of five bits, side by side, read as themselves. -/
theorem bitsOf_fields {a b c d n : Nat} (ha : a ≤ 16) (hb : b ≤ 16) (hc : c ≤ 16) (hd : d ≤ 16)
    (hn : n = a + b * 2 ^ 5 + c * 2 ^ 10 + d * 2 ^ 15) :
    bitsOf n 0 5 = a ∧ bitsOf n 5 5 = b ∧ bitsOf n 10 5 = c ∧ bitsOf n 15 5 = d := by
  simp only [bitsOf]
  omega

/-- L2QT holds its four fields side by side. -/
theorem l2Norm_toNat (v : Nat) : (l2Norm v).toNat = min 16 (bitsOf v 0 5) + min 16 (bitsOf v 5 5) * 2 ^ 5 +
    min 16 (bitsOf v 10 5) * 2 ^ 10 + min 16 (bitsOf v 15 5) * 2 ^ 15 := by
  have h : l2Norm v = BitVec.ofNat 32 (0 + min 16 (bitsOf v 0 5) * 2 ^ 0 + min 16 (bitsOf v 5 5) * 2 ^ 5 +
    min 16 (bitsOf v 10 5) * 2 ^ 10 + min 16 (bitsOf v 15 5) * 2 ^ 15) := rfl
  rw [h, BitVec.toNat_ofNat, Nat.mod_eq_of_lt] <;> omega

/-- Each field of L2QT is at most 16 (R252). -/
theorem bitsOf_l2Norm (v : Nat) {i : Nat} (hi : i < 4) :
    bitsOf (l2Norm v).toNat (5 * i) 5 = min 16 (bitsOf v (5 * i) 5) := by
  obtain ⟨h0, h1, h2, h3⟩ := bitsOf_fields (min_le_left 16 _) (min_le_left 16 _) (min_le_left 16 _) (min_le_left 16 _)
    (l2Norm_toNat v)
  interval_cases i
  · exact h0
  · exact h1
  · exact h2
  · exact h3

/-- QCFG of a queue that is off, written with LOG2N below 4, stays off (R359). -/
theorem State.qcfgWrite_stays_off {s : State} {q : Nat} {v : Dword} (he : (s.queue q).en = false)
    (hv : bitsOf v.toNat 49 4 < 4) : ((s.qcfgWrite q v).queue q).en = false := by
  have hoff : (v &&& 0x7FFFFFFFFFFFFFFF).getLsbD 63 = false := by simp
  simp only [State.qcfgWrite, he, hv, Bool.false_eq_true, if_false, if_true]
  rw [State.queueCheck_of_off] <;> rw [State.queue_modQueue_self] <;> exact hoff

/-- A 1 clears REF, unless it was set in the same clk (R449, R6). -/
theorem State.stkWrite_ref {s : State} {n : Nat} {v : Dword} (h31 : v.getLsbD 31 = false) (h30 : v.getLsbD 30 = true)
    (hw : s.w1cNow (.ref n) = false) : ((s.stkWrite n v).stack n).ref = false := by
  simp only [State.stkWrite, h31, h30, hw, Bool.not_false, Bool.and_true, Bool.false_eq_true, if_true, if_false,
    State.stack_modStack_self]

/-- Bit 30 of STKPWR is REF. -/
theorem State.stkpwr_bit30 {s : State} {n : Nat} (hr : (s.stack n).ref = false) :
    (BitVec.ofNat 64 (s.regRead (.stkpwr n))).getLsbD 30 = false := by
  simp only [State.regRead, hr]
  cases s.present n <;> cases (s.stack n).vrst <;> cases (s.stack n).vrdy <;> decide

/-- Settles O45: register by register. -/
theorem configurationWritesRead : Obligations.ConfigurationWritesRead := by
  intro s v
  refine ⟨?_, ?_, ?_, ?_, ?_, ?_, ?_, fun o ho => State.cfgWrite_of_none ho s v⟩
  · have h : cfgAt 0x20 = some .errcfg := rfl
    rw [State.cfgRead_cfgWrite h]
    show BitVec.ofNat 64 (s.errWrite v).errcfg.toNat = _
    rw [State.errWrite_errcfg, BitVec.ofNat_toNat, BitVec.setWidth_eq]
  · have h : cfgAt 0x28 = some .pwrcfg := rfl
    rw [State.cfgRead_cfgWrite h]
    show (BitVec.ofNat 64 (s.pwrWrite v).pwrcfg.toNat).extractLsb' 52 12 = _
    rw [BitVec.ofNat_toNat, BitVec.setWidth_eq, State.pwrWrite_cap]
  · intro hl
    have h : cfgAt 0x30 = some .brcfg := rfl
    rw [State.cfgWrite_of_reg h]
    exact if_pos hl
  · intro c hc
    have h : cfgAt (0x10018 + 0x100 * c) = some (.thcfg c) := cfgAt_ctx (j := 3) (by omega) hc (by decide)
    rw [State.cfgRead_cfgWrite h, ← thNorm_eq]
    simp [State.regWrite, State.regRead]
  · intro c hc i hi
    have h : cfgAt (0x10008 + 0x100 * c) = some (.l2qt c) := cfgAt_ctx (j := 1) (by omega) hc (by decide)
    rw [State.cfgRead_cfgWrite h, ← bitsOf_l2Norm _ hi, BitVec.toNat_ofNat, Nat.mod_eq_of_lt]
    · simp [State.regWrite, State.regRead]
    · exact (BitVec.isLt _).trans (by decide)
  · intro q hq he hv
    have h : cfgAt (0x20000 + 0x20 * q) = some (.qcfg q) := cfgAt_queue (j := 0) (by omega) hq (by decide)
    rw [State.cfgRead_cfgWrite h]
    simpa [State.regWrite, State.regRead, Queue.en] using State.qcfgWrite_stays_off he hv
  · intro n hn hp h31 h30 hw
    have h : cfgAt (0x30020 + 0x100 * n) = some (.stkpwr n) := cfgAt_stack (j := 4) (by omega) hn (by decide)
    rw [State.cfgRead_cfgWrite h]
    apply State.stkpwr_bit30
    simpa [State.regWrite, hp] using State.stkWrite_ref h31 h30 hw

end Sys2Proof.Machine
end

section
/-! PROOFS. BRCFG's lock, VRST of a stack, the end of a power window, and configuration writes (R16, R258, R328, R449,
R450). -/

namespace Sys2Proof.Machine

/-! ### Tables mapped over -/

/-- A mapped table holds at each key the image of what it held. -/
@[simp] theorem tget_tmap {α : Type} (t : Tbl α) (f : Nat → α → α) (k : Nat) : tget (tmap t f) k = (tget t k).map (f k) := by
  induction t with
  | nil => rfl
  | cons e t ih =>
    obtain ⟨j, b⟩ := e
    by_cases h : j = k
    · simp [tmap, tget, h]
    · simpa [tmap, tget, h] using ih

/-- What is read through g, which the default has too, is read through g from the image of the entry. -/
theorem apply_tgetD_tmap {α β : Type} (g : α → β) {t : Tbl α} (f : Nat → α → α) {k : Nat} {d : α} (hd : g (f k d) = g d) :
    g (tgetD (tmap t f) k d) = g (f k (tgetD t k d)) := by
  simp only [tgetD, tget_tmap]
  cases tget t k with
  | none => exact hd.symm
  | some a => rfl

/-! ### BRCFG (R258) -/

theorem exec_brcfgLock_of_locked {s : State} (size : BitVec 2) (hl : s.brcfg.getLsbD 2 = true) (hh : s.hole = false) :
    exec (.brcfgLock size) s = .next s := by
  show answer (if s.brcfg.getLsbD 2 then s else _) = _
  rw [if_pos hl, answer_of_hole_false hh]

/-- BRCFG with its lock and a size. -/
def State.lockedAt (s : State) (size : BitVec 2) : State := { s with brcfg := BitVec.ofNat 32 (4 + size.toNat) }

theorem exec_brcfgLock_of_unlocked {s : State} (size : BitVec 2) (hl : s.brcfg.getLsbD 2 = false) (hh : s.hole = false) :
    exec (.brcfgLock size) s =
      .next { s.lockedAt size with mem := s.mem.filter (fun c => !inCarve (s.lockedAt size).carve c.1) } := by
  show answer (if s.brcfg.getLsbD 2 then s else _) = _
  rw [if_neg (Bool.eq_false_iff.mp hl)]
  exact answer_of_hole_false hh

/-! ### VRST (R449) -/

/-- Takeovers that are not due do not come. -/
theorem State.foldl_takeover_of_none_due {s : State} {ks : List Nat} (h : ∀ k ∈ ks, s.takeoverDue k = false) :
    ks.foldl (fun s k => if s.takeoverDue k then s.takeover k else s) s = s := by
  induction ks with
  | nil => rfl
  | cons k ks ih =>
    have hk : s.takeoverDue k = false := h k List.mem_cons_self
    simpa [hk] using ih (fun j hj => h j (List.mem_cons_of_mem k hj))

/-- Core k, when the V die of stack n goes into reset. -/
def vResetAt (n k : Nat) (c : Core) : Core := if k / 16 = n then c.vReset else c

theorem vResetAt_l1 (n k : Nat) (c : Core) : (vResetAt n k c).l1 = if k / 16 = n then [] else c.l1 := by
  unfold vResetAt
  split <;> rfl

/-- The V die of stack n goes into reset, with its cores. -/
def State.vReset (s : State) (n : Nat) : State :=
  { s.modStack n (fun c => { c with vrst := true, vrdy := false }) with
    cores := tmap s.cores (vResetAt n) }

@[simp] theorem State.vReset_hole (s : State) (n : Nat) : (s.vReset n).hole = s.hole := rfl

@[simp] theorem State.vReset_stack (s : State) (n : Nat) :
    (s.vReset n).stack n = { s.stack n with vrst := true, vrdy := false } :=
  s.stack_modStack_self n (fun c => { c with vrst := true, vrdy := false })

/-- The cores of the stack lose their L1 contents; the others keep theirs. -/
theorem State.vReset_l1 (s : State) (n k : Nat) :
    ((s.vReset n).core k).l1 = if k / 16 = n then [] else (s.core k).l1 := by
  have hd : (vResetAt n k Core.atReset).l1 = Core.atReset.l1 := by rw [vResetAt_l1]; exact ite_self _
  calc ((s.vReset n).core k).l1
      = (vResetAt n k (s.core k)).l1 := apply_tgetD_tmap Core.l1 (vResetAt n) hd
    _ = if k / 16 = n then [] else (s.core k).l1 := vResetAt_l1 n k (s.core k)

/-- VRST of a die out of reset, with no takeover due, is refused with REF while the stack holds a group, and else resets
the die. -/
theorem State.vrstSet_of_out {s : State} {n : Nat} (hv : (s.stack n).vrst = false)
    (ht : ∀ k < 16, s.takeoverDue (16 * n + k) = false) : s.vrstSet n =
      if s.stackHolds n then (s.w1cSet (.ref n)).modStack n (fun c => { c with ref := true }) else s.vReset n := by
  have hf := State.foldl_takeover_of_none_due (s := s) (ks := (List.range 16).map (16 * n + ·)) (by simpa using ht)
  unfold State.vrstSet
  rw [hf, if_neg (Bool.eq_false_iff.mp hv)]
  rfl

theorem exec_stkpwrVrstSet_of_present {s : State} {n : Nat} (hp : s.present n = true) :
    exec (.stkpwrVrstSet n) s = answer (s.vrstSet n) := congrArg answer (if_pos hp)

theorem exec_stkpwrVrstClear_of_present {s : State} {n : Nat} (hp : s.present n = true) :
    exec (.stkpwrVrstClear n) s = answer (s.modStack n (fun c => { c with vrst := false })) := congrArg answer (if_pos hp)

theorem exec_vrdyReady_of_out {s : State} {n : Nat} (hp : s.present n = true) (hv : (s.stack n).vrst = false) :
    exec (.vrdyReady n) s = answer (s.modStack n (fun c => { c with vrdy := true })) :=
  congrArg answer (if_pos (by simp [hp, hv]))

/-! ### Power windows (R16, R450) -/

/-- PWRCFG of CAP, PAVG, VCORE and FCLK, each within its field, reads as them. -/
theorem bitsOf_pwrcfg {c p v f : Nat} (hc : c < 2 ^ 12) (hp : p < 2 ^ 12) (hv : v < 2 ^ 10) (hf : f < 2 ^ 14) :
    let w := (BitVec.ofNat 64 (c * 2 ^ 52 + p * 2 ^ 40 + v * 2 ^ 30 + f * 2 ^ 16)).toNat
    bitsOf w 52 12 = c ∧ bitsOf w 40 12 = p ∧ bitsOf w 30 10 = v ∧ bitsOf w 16 14 = f := by
  simp only [BitVec.toNat_ofNat, bitsOf]
  omega

/-- A window ends: PWRCFG reports, CAP applies, and rt's phase is counted in the new clock. -/
def State.windowEnd (s : State) (p v f : Nat) : State :=
  { s with pwrcfg := BitVec.ofNat 64 (s.cap * 2 ^ 52 + p * 2 ^ 40 + v * 2 ^ 30 + f * 2 ^ 16)
           capNow := s.cap, window := s.window + 1, rtPhase := s.rtPhase * f / s.fclk }

theorem exec_powerWindow_of_due {s : State} {p v f : Nat} (h : (s.window + 1) * 100000 ≤ s.rt ∧ p ≤ s.capNow ∧ 450 ≤ v ∧
    v ≤ 750 ∧ 0 < f ∧ f < 2 ^ 14) : exec (.powerWindow p v f) s = answer (s.windowEnd p v f) := by
  show execPowerWindow p v f s = _
  rw [execPowerWindow, if_pos h, State.windowEnd]

theorem State.windowEnd_pwrcfg (s : State) (p v f : Nat) : (s.windowEnd p v f).pwrcfg =
    BitVec.ofNat 64 (s.cap * 2 ^ 52 + p * 2 ^ 40 + v * 2 ^ 30 + f * 2 ^ 16) := rfl

/-- The four fields of PWRCFG at the end of a window. -/
theorem State.windowEnd_fields (s : State) {p v f : Nat} (hp : p < 2 ^ 12) (hv : v < 2 ^ 10) (hf : f < 2 ^ 14) :
    (s.windowEnd p v f).cap = s.cap ∧ bitsOf (s.windowEnd p v f).pwrcfg.toNat 40 12 = p ∧
      bitsOf (s.windowEnd p v f).pwrcfg.toNat 30 10 = v ∧ bitsOf (s.windowEnd p v f).pwrcfg.toNat 16 14 = f := by
  have hc : s.cap < 2 ^ 12 := Nat.mod_lt _ (by positivity)
  rw [State.cap, State.windowEnd_pwrcfg]
  exact bitsOf_pwrcfg hc hp hv hf

/-- Settles O44: a locked BRCFG stays and an unlocked one locks; VRST finds its stack in use or resets it; a power window
that is due ends with its four fields; a configuration write is the write at its offset. -/
theorem configurationEventsComplete : Obligations.ConfigurationEventsComplete := by
  refine ⟨fun s size hh => ⟨fun hl => exec_brcfgLock_of_locked size hl hh, fun hl =>
      ⟨_, exec_brcfgLock_of_unlocked size hl hh, rfl, rfl⟩⟩,
    fun s n hh hp => ⟨fun hv ht => ?_, ?_, fun hv => ?_⟩, ?_, fun s o v => answer_of_hole_false⟩
  · rw [exec_stkpwrVrstSet_of_present hp, State.vrstSet_of_out hv ht]
    refine ⟨fun hg => ?_, fun hg => ⟨s.vReset n, ?_, by simp, by simp, s.vReset_l1 n⟩⟩
    · rw [if_pos hg]
      exact answer_of_hole_false hh
    · rw [if_neg (Bool.eq_false_iff.mp hg), answer_of_hole_false (by simpa using hh)]
  · rw [exec_stkpwrVrstClear_of_present hp, answer_of_hole_false (by simpa using hh)]
  · rw [exec_vrdyReady_of_out hp hv, answer_of_hole_false (by simpa using hh)]
  · intro s p v f hh hw hcap hp hv hv' hf hf'
    obtain ⟨hcap', hpavg, hvcore, hfclk⟩ := s.windowEnd_fields hp (show v < 2 ^ 10 by omega) hf'
    refine ⟨s.windowEnd p v f, ?_, rfl, rfl, hcap', hpavg, hvcore, hfclk, rfl⟩
    rw [exec_powerWindow_of_due ⟨hw, hcap, hv, hv', hf, hf'⟩]
    exact answer_of_hole_false hh

end Sys2Proof.Machine
end

section
/-! PROOFS. What a step does with the next move: it runs the fragment that issues, lets the event happen, or ends the clk
(R35, R40, R100, R375). -/

namespace Sys2Proof.Machine

/-! ### Running a fragment -/

/-- A fetch that gives a word runs the instruction that it decodes to for the fragment, or takes ILLOP with the name of the
first illegal field. -/
theorem State.fetchRun_of_got {ex : Exec} {s s1 : State} {t : Nat} {f late : Bool} {tm : Team} {w : Inst96}
    (hw : s.fetchInst tm (fetchState (tm.path f)) (tm.path f).pc.toNat = (.got w, s1)) :
    let s2 := s1.modTeam t (fun tm => tm.setPath f { tm.path f with hold := .free })
    (∀ i, decode (s1.decCtx tm) w = .ok i → s.fetchRun ex t f late tm = ex i { s2 with cur := some (t, f, late) }) ∧
    (∀ e, decode (s1.decCtx tm) w = .error e →
      s.fetchRun ex t f late tm = answer (s2.takeTrap t f .illop e.sub 0 (tm.path f).pc)) := by
  intro s2
  have hctx : s2.decCtx tm = s1.decCtx tm := rfl
  unfold fetchState at hw
  unfold State.fetchRun
  refine ⟨fun i hd => ?_, fun e hd => ?_⟩ <;> rw [← hctx] at hd
  · cases hh : (tm.path f).hold <;> simp only [hh] at hw ⊢ <;> simp only [hw, hd, s2]
  · cases hh : (tm.path f).hold <;> simp only [hh] at hw ⊢ <;> simp only [hw, hd, s2]

/-- A fragment without a permission violation that its quadrant chooses fetches and runs. -/
theorem State.runFrag_of_issues {ex : Exec} {s : State} {t : Nat} {f late : Bool} {tm : Team}
    (ht : tget s.teams t = some tm) (hp : tm.perm = none) (hi : s.issues t f tm = true) :
    s.runFrag ex t f late = s.fetchRun ex t f late tm := by
  simp [State.runFrag, ht, hp, hi]

/-! ### The next move -/

theorem State.moveNext_of_run {ex : Exec} {s : State} {t : Nat} {f late : Bool} {ms : List Move}
    (h : s.script = .run t f late :: ms) : s.moveNext ex = State.runFrag ex { s with script := ms } t f late := by
  simp only [State.moveNext, h]
  rfl

/-- The fragment that is due comes first, without a script and before a scripted end of the clk. -/
theorem State.moveNext_of_due {ex : Exec} {s : State} {t : Nat} {f : Bool}
    (hs : s.script = [] ∨ ∃ ms, s.script = .tick :: ms) (hp : s.power = true) (hd : s.dueFrag = some (t, f)) :
    s.moveNext ex = s.runFrag ex t f false := by
  rcases hs with h | ⟨ms, h⟩
  · simp [State.moveNext, h, State.runFree, hp, hd]
  · simp [State.moveNext, h, hp, hd]

theorem State.moveNext_of_event {ex : Exec} {s : State} {i : Instr} {ms : List Move} (h : s.script = .event i :: ms)
    (ha : State.allows { s with script := ms } i = true) : s.moveNext ex = ex i { s with script := ms, cur := none } := by
  simp only [State.moveNext, h, State.runMove, ha, if_true]

theorem State.moveNext_of_tick {ex : Exec} {s : State} {ms : List Move} (h : s.script = .tick :: ms) (hp : s.power = true)
    (hd : s.dueFrag = none) : s.moveNext ex = State.tick ex { s with script := ms } := by
  simp only [State.moveNext, h, hp, hd, State.runMove, if_true]

/-- A step is its move, after which the WAITs look at their signals if memory has changed (R369). -/
theorem step_of_move {s : State} {o : Host.Outcome State Fault Refusal} (h : s.moveNext exec = o) :
    step s = andThen o (fun t => answer (if t.mem = s.mem then t else t.watch)) := by
  rw [← h]
  rfl

/-- Settles O50: the next move is the fragment's, the event's, or the end of the clk. -/
theorem stepRunsTheDecodedInstruction : Obligations.StepRunsTheDecodedInstruction := by
  refine ⟨?_, fun s i ms h ha => step_of_move (State.moveNext_of_event h ha),
    fun s ms h hp hd => step_of_move (State.moveNext_of_tick h hp hd)⟩
  intro s t f late tm w s0 s1 hs ht hp hi hw s2 after
  obtain ⟨hmove, hteams⟩ : s.moveNext exec = s0.runFrag exec t f late ∧ s0.teams = s.teams := by
    rcases hs with ⟨ms, h, rfl⟩ | ⟨h, hpow, hdue, rfl, rfl⟩
    · exact ⟨State.moveNext_of_run h, rfl⟩
    · exact ⟨State.moveNext_of_due h hpow hdue, rfl⟩
  rw [State.runFrag_of_issues (hteams ▸ ht) hp hi] at hmove
  obtain ⟨hok, herr⟩ := State.fetchRun_of_got (ex := exec) (t := t) (late := late) hw
  exact ⟨fun i hd => step_of_move (hmove.trans (hok i hd)), fun e hd => step_of_move (hmove.trans (herr e hd))⟩

end Sys2Proof.Machine
end

section
/-! PROOFS. Where the distributor places the next group (R25, R366, R374). -/

namespace Sys2Proof.Machine

/-! ### Placing a group -/

/-- Creating the teams of a group holds no gang back. -/
@[simp] theorem State.placeGroup_gangHold (s : State) (l : Nat) (x : Launch) (g core wait : Nat) (cluster stackB : Option Nat) :
    (s.placeGroup l x g core wait cluster stackB).gangHold = s.gangHold := by
  unfold State.placeGroup
  refine foldl_keeps (P := fun u : State => u.gangHold = s.gangHold) ?_ _ _ rfl
  exact fun _ _ h => h

section
variable {s : State} {l u n : Nat} {x : Launch} {us : List Nat}

/-- A group of a launch without cluster and stack level goes to the first core that it fits, unless that core's stack
is busy. -/
theorem State.placeUnit_of_plain (hx : tget s.launches l = some x) (hc : topOf x.levels 3 = none) (hs : x.perStack = none)
    (hn : (s.coresFor x none []).find? (fun n => s.fits n x) = some n) :
    s.placeUnit l u [] true = if s.stackBusy (n / 16) = true then none else some (s.placeGroup l x u n 0 none none) := by
  simp [State.placeUnit, hx, hc, hs, hn]

/-- What comes next of a launch without a gang is its next unit. -/
theorem State.placeNext_of_plain (hx : tget s.launches l = some x) (ho : x.order = u :: us) (hg : x.perGang = none) :
    s.placeNext l [] true = (s.placeUnit l u [] true).map (fun t => { t with
      gangHold := t.gangHold.filter (· ≠ l)
      launches := tmod t.launches l (fun x => { x with order := x.order.filter (fun v => decide (v ≠ u)) }) }) := by
  have hmem : (fun v => !([u] : List Nat).contains v) = fun v => decide (v ≠ u) := by
    funext v
    simp
  simp only [State.placeNext, hx, ho, hg, hmem]

end

/-! ### The rest of a cluster -/

section
variable {s : State} {l g n cl : Nat} {x : Launch} {sb : Option Nat} {r : List (Nat × Nat × Nat × Option Nat)}

theorem State.placeRestOf_of_rest (hx : tget s.launches l = some x) (hr : x.rest = (g, n, cl, sb) :: r) :
    s.placeRestOf l = { s.placeGroup l x g n r.length (some cl) sb with
      launches := tmod (s.placeGroup l x g n r.length (some cl) sb).launches l (fun x => { x with rest := r }) } := by
  simp only [State.placeRestOf, hx, hr]

/-- A launch that is alone, in the midst of a cluster, on a stack that has taken no group in this clk, is served next. -/
theorem State.restNext_of_single (hs : s.launches = [(l, x)]) (hr : x.rest = (g, n, cl, sb) :: r)
    (hd : (s.undoOf x.ctx).due = false) (ht : s.takeoverDue n = false) (hp : tget s.placeAt (n / 16) ≠ some s.clk) :
    s.restNext = some (l, s.placeRestOf l) := by
  simp [State.restNext, hs, hr, hd, ht, hp]

/-- The rest of a cluster comes before anything else. -/
theorem State.nextPlacement_of_restNext {p : Nat × State} (h : s.restNext = some p) : s.nextPlacement = some p := by
  simp [State.nextPlacement, h]

end

/-! ### The event -/

/-- The placement of the launch that the distributor serves is remembered for its priority. -/
theorem exec_groupPlacement_of_next {s t : State} {l : Nat} (h : s.gangCheck.nextPlacement = some (l, t)) :
    exec (.groupPlacement l) s = answer { t with dist := tset t.dist (s.gangCheck.launchPrio l) l } := by
  show execGroupPlacement l s = _
  simp only [execGroupPlacement, h, if_true]

/-- Settles O36: the event's answer, the next group of a plain launch, and the next group of a cluster's rest. -/
theorem groupsArePlaced : Obligations.GroupsArePlaced := by
  refine ⟨fun s l t hn hh => ?_, fun s l x u us n hx ho hc hs hg hhold hn => ⟨fun hb => ?_, fun hb => ?_⟩,
    fun s l x g n cl sb r hl hr hd ht hp => ?_⟩
  · rw [exec_groupPlacement_of_next hn]
    exact answer_of_hole_false hh
  · rw [State.placeNext_of_plain hx ho hg, State.placeUnit_of_plain hx hc hs hn, if_pos hb]
    rfl
  · have hkeep : (s.placeGroup l x u n 0 none none).gangHold.filter (· ≠ l) =
        (s.placeGroup l x u n 0 none none).gangHold := by simp [hhold]
    rw [State.placeNext_of_plain hx ho hg, State.placeUnit_of_plain hx hc hs hn, if_neg (by simp [hb]), Option.map_some, hkeep]
  · have hx : tget s.launches l = some x := by simp [hl, tget]
    rw [State.nextPlacement_of_restNext (State.restNext_of_single hl hr hd ht hp), State.placeRestOf_of_rest hx hr]

end Sys2Proof.Machine
end

section
/-! PROOFS. What `mfs` reads and `mts` writes, register by register (R37, R115, R184, R188, R204, R384, R407). -/

namespace Sys2Proof.Machine

/-! ### mfs -/

/-- TFRAG alone fills four registers. -/
theorem sysWidth_eq_four {r : SysReg} (h : sysWidth r = 4) : r = .sp .tfrag := by
  cases r with
  | gen => cases h
  | sp r =>
    cases r with
    | tfrag => rfl
    | _ => cases h

section
variable {s : State} {a : At} {h : Hdr} {d : Opnd} {r : SysReg}
  (hr : Ready s a h (wr (sysWidth r) d ++ (if r = .sp .exm then rd 1 (.x .exm) else [])))
include hr

/-- `mfs` of a register other than TFRAG writes one element a lane. -/
theorem exec_mfs_of_ne_tfrag (hne : r ≠ .sp .tfrag) : exec (.mfs h d r) s = .next ((s.issued a).fixedNext a h 4
    (laneWrites d (decide (sysWidth r = 2)) (fun x l => ⟨x.sysVal (s.issued a) r l, 0⟩) (s.viewAt a h))) := by
  refine instr_fixed hr _ 4 _ _ ?_
  have h4 : sysWidth r ≠ 4 := fun h => hne (sysWidth_eq_four h)
  dsimp only
  split
  · exact absurd ‹_› h4
  · rfl

end

/-- `mfs` of TFRAG writes four scalar registers. -/
theorem exec_mfs_tfrag {s : State} {a : At} {h : Hdr} {k : BitVec 6}
    (hr : Ready s a h (wr (sysWidth (.sp .tfrag)) (.s k))) : exec (.mfs h (.s k) (.sp .tfrag)) s =
      .next ((s.issued a).fixedNext a h 4 ((List.range 4).map (fun j => .sca (k.toNat + j)
        (some (BitVec.ofNat 32 (a.tm.tfrag.toNat / 2 ^ (32 * j)))) (some 0)))) :=
  instr_fixed (by simpa using hr) _ 4 _ _ rfl

/-- CYC counts from the offset that the core keeps. -/
theorem State.viewAt_cyc (s : State) (a : At) (h : Hdr) (l : Nat) : (s.viewAt a h).sysVal (s.issued a) (.sp .cyc) l =
    (s.clk + (s.core a.tm.core).cycOff.toNat) % 2 ^ 64 := by
  have hcore : (s.issued a).core a.tm.core = s.core a.tm.core := by
    rw [State.issued_eq]
    rfl
  show ((s.issued a).clk + ((s.issued a).core a.tm.core).cycOff.toNat) % 2 ^ 64 = _
  rw [hcore, State.issued_clk]

theorem State.viewAt_rtick (s : State) (a : At) (h : Hdr) (l : Nat) :
    (s.viewAt a h).sysVal (s.issued a) (.sp .rtick) l = s.rt % 2 ^ 64 := by
  show (s.issued a).rt % 2 ^ 64 = _
  rw [State.issued_rt]

/-! ### mts -/

/-- A meaning that answers an effect g on its own team, which ends no path, runs as an Issue-class instruction. -/
theorem runsIssue_of_body {i : Instr} {h : Hdr} {ps : List Port} {body : X → State → Res} {g : X → Team → Team}
    (hi : ∀ s, exec i s = instr i h .issue ps body s) (hb : ∀ x s, body x s = .issue (s.modTeam x.t (g x)))
    (he : ∀ x tm f, ((g x tm).path f).ended = (tm.path f).ended) : RunsIssue i h ps g := by
  intro s a hr
  rw [hi]
  exact instr_issue hr i .issue body _ (fun tm ht => (he _ tm a.f).trans ht) (hb _ _)

/-- A write of MODE ends no path. -/
theorem Team.writeMode_ended (tm : Team) (v : Word) (f : Bool) : ((tm.writeMode v).path f).ended = (tm.path f).ended := by
  cases f <;> rfl

/-- Clearing bits of KSTAT touches tokens alone. -/
theorem Team.clearKstat_path (tm : Team) (b : Bank) (v : Nat) (f : Bool) : (tm.clearKstat b v).path f = tm.path f := by
  refine foldl_keeps (P := fun u : Team => u.path f = tm.path f) (fun u k hu => ?_) _ _ rfl
  rw [← hu]
  cases b <;> rfl

section
variable {s : State} {a : At} {h : Hdr} {o : Opnd} {v : Dword} (hr : Ready s a h (rd 2 o))
  (hv : BitVec.ofNat 64 ((s.viewAt a h).rd.wide o 0) = v)
include hr hv

/-- EXM is written 4 clk later. -/
theorem exec_mts_exm : exec (.mts h (.sp .exm) o) s = .next ((s.issued a).issueNext a h (fun tm =>
    tm.queue [⟨s.clk + 4, a.path.pid, .upd (.exm v)⟩])) := by
  subst hv
  refine instr_issue hr _ .issue _ _ (fun _ ht => ht) ?_
  rw [← State.issued_clk s a]
  rfl

theorem exec_mts_tepc_of_aligned (hal : v.toNat % 4 = 0) : exec (.mts h (.sp .tepc) o) s =
    .next ((s.issued a).issueNext a h (fun tm => { tm with tepc := v.setWidth 56 })) := by
  subst hv
  exact instr_issue hr _ .issue _ _ (fun _ ht => ht) (if_neg (not_not_intro hal))

theorem exec_mts_tfr_of_aligned (hw : v.toNat < 2 ^ 56) (hal : v.toNat % 1024 = 0) : exec (.mts h (.sp .tfr) o) s =
    .next ((s.issued a).issueNext a h (fun tm => { tm with tfr := v.setWidth 56 })) := by
  subst hv
  exact instr_issue hr _ .issue _ _ (fun _ ht => ht) ((if_neg (Nat.not_le_of_lt hw)).trans (if_neg (not_not_intro hal)))

/-- CYC restarts in a context with privilege. -/
theorem exec_mts_cyc_of_prv (hp : (s.issued a).prv a.tm.ctx = true) : exec (.mts h (.sp .cyc) o) s =
    .next (((s.issued a).modCore a.tm.core (fun c => { c with cycOff := v - BitVec.ofNat 64 s.clk })).issueNext a h
      (fun tm => tm)) := by
  subst hv
  refine instr_done hr _ .issue _ _ ?_ (by simp [hr.hole]) (by simp) rfl
  rw [← State.issued_clk s a]
  exact if_neg (by simp [State.viewAt, hp])

end

/-- Settles O15: `mfs` of one, two and four registers, and `mts` register by register. -/
theorem specialRegistersAreReadAndWritten : Obligations.SpecialRegistersAreReadAndWritten := by
  refine ⟨fun h d r s a hr => ⟨exec_mfs_of_ne_tfrag hr, ?_, ?_, ?_⟩, ?_, ?_, ?_, ?_, ?_, fun h o s a hr =>
    ⟨exec_mts_exm hr rfl, exec_mts_tepc_of_aligned hr rfl, exec_mts_tfr_of_aligned hr rfl, exec_mts_cyc_of_prv hr rfl⟩⟩
  · rintro k rfl rfl
    exact exec_mfs_tfrag (by simpa using hr)
  · rintro rfl
    exact s.viewAt_cyc a h
  · rintro rfl
    exact s.viewAt_rtick a h
  · exact fun h o => runsIssue_of_body (fun _ => rfl) (fun _ _ => rfl) (fun _ _ _ => rfl)
  · exact fun h o => runsIssue_of_body (fun _ => rfl) (fun _ _ => rfl) (fun _ tm f => tm.writeMode_ended _ f)
  · exact fun h o => runsIssue_of_body (fun _ => rfl) (fun _ _ => rfl) (fun _ _ _ => rfl)
  · exact fun h o => runsIssue_of_body (fun _ => rfl) (fun _ _ => rfl)
      (fun _ tm f => congrArg Path.ended (tm.clearKstat_path _ _ f))
  · exact fun h o => runsIssue_of_body (fun _ => rfl) (fun _ _ => rfl) (fun _ _ _ => rfl)

end Sys2Proof.Machine
end

section
/-! PROOFS. Branches, calls and returns of a whole path (R38, R53, R130-R133). -/

namespace Sys2Proof.Machine

/-! ### Lanes of a mask -/

theorem lane_of_mem_lanesOf {m : Mask} {l : Nat} (h : l ∈ lanesOf m) : l < 64 ∧ lane m l = true := by
  simpa [lanesOf, lanes] using h

/-- A mask with a lane lists one. -/
theorem lanesOf_ne_nil {m : Mask} (h : m ≠ 0) : lanesOf m ≠ [] := by
  intro he
  apply h
  apply BitVec.eq_of_getLsbD_eq
  intro i hi
  have hn : ¬ i ∈ lanesOf m := by simp [he]
  simpa [lanesOf, lanes, hi, lane] using hn

/-! ### Branches -/

/-- A branch of a path without doubtful lanes goes on with its own checks (R130). -/
theorem X.branch_of_no_doubt {x : X} (h : x.doubt = 0) (s : State) (k : State → Res) : x.branch s k = k s := by
  simp [X.branch, h]

/-- The two ways of R38 in which a branch whose path jumps completes. -/
theorem branchesTo_of_jump {i : Instr} {s : State} {a : At} {h : Hdr} {ps : List Port} {body : X → State → Res}
    {pc : BitVec 64} (r : Clear s a h ps false) (hi : exec i s = answer (s.issue i h .issue ps true false body))
    (hb : body (s.viewAt a h) (s.issued a) = (s.viewAt a h).jump (s.issued a) pc) : BranchesTo i s a h pc := by
  refine ⟨fun ho => ?_, fun ho hn => ?_⟩
  · rw [hi, issue_jump r i .issue true body pc (.inr rfl) hb ho]
  · rw [hi, issue_jump_back r i .issue true body pc (.inr rfl) hb ho hn]

section
variable {s : State} {a : At} {h : Hdr} {disp : BitVec 20}

/-- `bra` that leaves no lane behind moves the path (R131). -/
theorem exec_bra_of_whole (r : Clear s a h [] false) (hd : (s.viewAt a h).doubt = 0) (hg : h.g ≠ ⟨true, 7⟩)
    (hn : a.path.exm &&& ~~~a.mask h = 0) : BranchesTo (.bra h disp) s a h (a.path.pc + (disp.signExtend 64 <<< 2)) := by
  refine branchesTo_of_jump r rfl ?_
  dsimp only
  rw [X.branch_of_no_doubt hd, if_neg hg]
  exact if_pos hn

/-- `bra` that no lane takes falls through (R131). -/
theorem exec_bra_of_none (r : Clear s a h [] false) (hd : (s.viewAt a h).doubt = 0)
    (hn : h.g = ⟨true, 7⟩ ∨ (a.mask h = 0 ∧ a.path.exm ≠ 0)) :
    exec (.bra h disp) s = .next ((s.issued a).jumpNext a h (a.path.pc + 12) a.path.spin) := by
  refine issue_fall r _ .issue true _ (.inr rfl) ?_
  rw [X.branch_of_no_doubt hd]
  rcases hn with hg | ⟨hm, he⟩
  · exact if_pos hg
  · by_cases hg : h.g = ⟨true, 7⟩
    · exact if_pos hg
    · have hleft : (s.viewAt a h).p.exm &&& ~~~(s.viewAt a h).e ≠ 0 := by
        show a.path.exm &&& ~~~a.mask h ≠ 0
        rwa [hm, show (~~~0 : Mask) = BitVec.allOnes 64 from rfl, BitVec.and_allOnes]
      dsimp only
      rw [if_neg hg, if_neg hleft]
      exact if_pos hm

/-! ### brx -/

/-- Lanes of one destination form one group, whatever lanes it has already. -/
theorem foldl_addGroup_same {pc : BitVec 64} {dst : Nat → BitVec 64} (ls : List Nat) (m : Mask) (h : ∀ l ∈ ls, dst l = pc) :
    ∃ m', ls.foldl (fun gs l => addGroup l (dst l) gs) [(pc, m)] = [(pc, m')] := by
  induction ls generalizing m with
  | nil => exact ⟨m, rfl⟩
  | cons l ls ih =>
    obtain ⟨hl, hls⟩ := List.forall_mem_cons.mp h
    have hadd : addGroup l (dst l) [(pc, m)] = [(pc, m ||| (1 <<< l))] := by simp [addGroup, hl]
    rw [List.foldl_cons, hadd]
    exact ih _ hls

/-- The groups of lanes that all go to one destination. -/
theorem groups_of_same {pc : BitVec 64} {dst : Nat → BitVec 64} {ls : List Nat} (hne : ls ≠ [])
    (h : ∀ l ∈ ls, dst l = pc) : ∃ m, ls.foldl (fun gs l => addGroup l (dst l) gs) [] = [(pc, m)] := by
  cases ls with
  | nil => exact absurd rfl hne
  | cons l ls =>
    obtain ⟨hl, hls⟩ := List.forall_mem_cons.mp h
    rw [List.foldl_cons, addGroup, hl]
    exact foldl_addGroup_same ls _ hls

/-- `brx` of a whole path whose lanes go to one aligned address moves it there (R132). -/
theorem exec_brx_of_same {o : Opnd} {pc : Nat} (r : Clear s a h (rd 2 o) false) (hd : (s.viewAt a h).doubt = 0)
    (he : a.path.exm ≠ 0) (hm : a.mask h = a.path.exm)
    (hpc : ∀ l < 64, lane a.path.exm l = true → (s.viewAt a h).rd.wide o l = pc) (hal : pc % 4 = 0) :
    BranchesTo (.brx h o) s a h (BitVec.ofNat 64 pc) := by
  refine branchesTo_of_jump r rfl ?_
  have hx : (s.viewAt a h).p.exm = a.path.exm := rfl
  have hxe : (s.viewAt a h).e = a.path.exm := hm
  have hdst : ∀ l ∈ lanesOf a.path.exm, lane a.path.exm l = true ∧ (s.viewAt a h).rd.wide o l = pc := by
    intro l hl
    obtain ⟨h64, hlane⟩ := lane_of_mem_lanesOf hl
    exact ⟨hlane, hpc l h64 hlane⟩
  have halign : (lanesOf a.path.exm).find? (fun l => decide ((s.viewAt a h).rd.wide o l % 4 ≠ 0)) = none := by
    rw [List.find?_eq_none]
    intro l hl
    simp [(hdst l hl).2, hal]
  obtain ⟨m, hgroups⟩ := groups_of_same (pc := BitVec.ofNat 64 pc) (lanesOf_ne_nil he)
    (dst := fun l => if lane a.path.exm l then BitVec.ofNat 64 ((s.viewAt a h).rd.wide o l) else (s.viewAt a h).p.pc + 12)
    (fun l hl => by rw [if_pos (hdst l hl).1, (hdst l hl).2])
  dsimp only
  rw [X.branch_of_no_doubt hd]
  simp only [hx, hxe, halign, hgroups]

/-! ### Returns -/

/-- A transfer by the whole path, without a return address, is a jump (R133). -/
theorem X.transfer_of_whole {x : X} {pc : BitVec 64} (s : State) (h0 : x.e ≠ 0) (he : x.e = x.p.exm) (hal : pc.toNat % 4 = 0) :
    x.transfer s pc false = x.jump s pc := by
  rw [X.transfer, if_neg h0, if_neg (not_not_intro hal), if_neg (not_not_intro he)]
  rfl

/-- `ret` by the whole path moves it to s63:s62. -/
theorem exec_ret_of_whole (r : Clear s a h (rd 2 (.s 62)) false) (h0 : a.mask h ≠ 0) (he : a.mask h = a.path.exm)
    (hal : (BitVec.ofNat 64 ((s.viewAt a h).rd.wide (.s 62) 0)).toNat % 4 = 0) :
    BranchesTo (.ret h) s a h (BitVec.ofNat 64 ((s.viewAt a h).rd.wide (.s 62) 0)) :=
  branchesTo_of_jump r rfl (X.transfer_of_whole _ h0 he hal)

end

/-! ### Calls -/

/-- The return address `back` lands in s62 and s63 of team t, with bound zero. -/
def State.linkTo (s : State) (t pid : Nat) (back : BitVec 64) : State :=
  (s.landUpd t pid (.sca 62 (some (back.setWidth 32)) (some 0))).landUpd t pid
    (.sca 63 (some ((back >>> 32).setWidth 32)) (some 0))

@[simp] theorem State.linkTo_mem (s : State) (t pid : Nat) (back : BitVec 64) : (s.linkTo t pid back).mem = s.mem := by
  simp [State.linkTo]

@[simp] theorem State.linkTo_hole (s : State) (t pid : Nat) (back : BitVec 64) : (s.linkTo t pid back).hole = s.hole := by
  simp [State.linkTo]

/-- A call by the whole path writes the return address and then branches (R133). -/
theorem X.transfer_link_of_whole {x : X} {pc : BitVec 64} (s : State) (h0 : x.e ≠ 0) (he : x.e = x.p.exm)
    (hal : pc.toNat % 4 = 0) : x.transfer s pc true =
      x.move s (((s.linkTo x.t x.p.pid (x.p.pc + 12)).goTo x pc).tookBranch x.t x.f x.p.pc pc) := by
  rw [X.transfer, if_neg h0, if_neg (not_not_intro hal), if_neg (not_not_intro he)]
  rfl

/-- In the team, s62 and s63 have the return address; the stack, MODE and the masks of the paths stay, and no spin counter
grows. -/
theorem State.linkTo_team {s : State} {t : Nat} {tm : Team} (pid : Nat) (back : BitVec 64) (ht : tget s.teams t = some tm) :
    ∃ tm', tget (s.linkTo t pid back).teams t = some tm' ∧ tm'.sreg 62 = ⟨back.setWidth 32, 0⟩ ∧
      tm'.sreg 63 = ⟨(back >>> 32).setWidth 32, 0⟩ ∧ tm'.stack = tm.stack ∧ tm'.mode = tm.mode ∧
      ∀ f, (tm'.path f).spin ≤ (tm.path f).spin ∧ (tm'.path f).exm = (tm.path f).exm ∧
        (tm'.path f).pmask = (tm.path f).pmask := by
  obtain ⟨tm1, ht1, hs1, hp1, hst1, hmo1, -⟩ := s.landUpd_sca_team t pid 62 (back.setWidth 32) 0 tm ht
  obtain ⟨tm2, ht2, hs2, hp2, hst2, hmo2, -⟩ := State.landUpd_sca_team _ t pid 63 ((back >>> 32).setWidth 32) 0 tm1 ht1
  refine ⟨tm2, ht2, ?_, ?_, hst2.trans hst1, hmo2.trans hmo1, fun f => ?_⟩
  · rw [Team.sreg, hs2, tgetD_tset_other _ _ _ _ _ (by decide), hs1, tgetD_tset_self]
  · rw [Team.sreg, hs2, tgetD_tset_self]
  · obtain ⟨sp1, cl1, hle1, he1⟩ := hp1 f
    obtain ⟨sp2, cl2, hle2, he2⟩ := hp2 f
    rw [he1] at hle2 he2
    rw [he2]
    exact ⟨hle2.trans hle1, rfl, rfl⟩

/-- The path's move to pc, in its team. -/
theorem State.goTo_team {s : State} {x : X} {tm : Team} (pc : BitVec 64) (ht : tget s.teams x.t = some tm) :
    tget (s.goTo x pc).teams x.t = some (tm.setPath x.f { tm.path x.f with pc := pc, hold := .free }) := by
  rw [State.goTo, State.modTeam_teams, tget_tmod_self, ht, Option.map_some]

/-- A taken branch to pc, below the limit of R38, moves the path there: of the team nothing but the path's address, hold and
spin counter differs. -/
theorem X.move_goTo {x : X} {s1 : State} {tm : Team} {pc : BitVec 64} (s0 : State) (ht : tget s1.teams x.t = some tm)
    (hc : x.p.pc.toNat < pc.toNat ∨ mProg tm.mode = true ∨ (tm.path x.f).spin + 1 < 64) :
    ∃ n, x.move s0 ((s1.goTo x pc).tookBranch x.t x.f x.p.pc pc) =
      .moved (s1.modTeam x.t (fun tm => tm.setPath x.f { tm.path x.f with pc := pc, hold := .free, spin := n })) := by
  obtain ⟨n, hn⟩ := State.took (s1.goTo x pc) x.t x.f x.p.pc pc _ (State.goTo_team pc ht) (by simpa using hc)
  refine ⟨n, ?_⟩
  rw [hn, X.move, State.goTo, State.modTeam_modTeam]
  congr 2
  funext tm
  cases x.f <;> rfl

/-- An answer that has changed one team by g is the next state: beside countdowns, demotions and queued effects, the team is
as g left it. -/
theorem answer_retire_moved {x : X} {a : At} {h : Hdr} (hx : x.Of a h) (i : Instr) (cls : Cls) (ps : List Port)
    {s : State} (s0 : State) {tm : Team} (g : Team → Team) (ht : tget s.teams a.t = some tm) (hh : s.hole = false) :
    ∃ t tm', answer (s0.retire i x cls ps (.moved (s.modTeam a.t g))) = .next t ∧ tget t.teams a.t = some tm' ∧
      tm'.s = (g tm).s ∧ tm'.stack = (g tm).stack ∧ t.mem = s.mem ∧
      ∀ f, ∃ c d, tm'.path f = { (g tm).path f with cd := c, demoted := d } := by
  have hg : tget (s.modTeam a.t g).teams a.t = some (g tm) := by
    rw [State.modTeam_teams, tget_tmod_self, ht, Option.map_some]
  have heq := State.retire_moved_eq hx i cls ps (s.modTeam a.t g) s0
  obtain ⟨c0, c1, d0, d1, pd, hget⟩ := State.retire_moved_team hx i cls ps (s.modTeam a.t g) s0 _ hg
  refine ⟨_, _, answer_of_hole_false ?_, hget, rfl, rfl, ?_, fun f => ?_⟩
  · rw [heq]
    exact hh
  · rw [heq]
    rfl
  · cases f
    · exact ⟨c0, d0, rfl⟩
    · exact ⟨c1, d1, rfl⟩

/-- What a call leads to: the path at pc with its masks, the return address in s62 and s63, the stack and memory as they
were. -/
def CallsTo (i : Instr) (s : State) (a : At) (pc : BitVec 64) : Prop :=
  ∃ t tm, exec i s = .next t ∧ tget t.teams a.t = some tm ∧ (tm.path a.f).pc = pc ∧
    tm.sreg 62 = ⟨(a.path.pc + 12).setWidth 32, 0⟩ ∧ tm.sreg 63 = ⟨((a.path.pc + 12) >>> 32).setWidth 32, 0⟩ ∧
    (tm.path a.f).exm = a.path.exm ∧ (tm.path a.f).pmask = a.path.pmask ∧ tm.stack = a.tm.stack ∧ t.mem = s.mem

/-- A call by the whole path whose branch does not demote it (R38, R133). -/
theorem callsTo_of_transfer {i : Instr} {s : State} {a : At} {h : Hdr} {ps : List Port} {body : X → State → Res}
    {pc : BitVec 64} (r : Clear s a h ps false) (hi : exec i s = answer (s.issue i h .issue ps true false body))
    (hb : body (s.viewAt a h) (s.issued a) = (s.viewAt a h).transfer (s.issued a) pc true)
    (h0 : a.mask h ≠ 0) (he : a.mask h = a.path.exm) (hal : pc.toNat % 4 = 0)
    (hn : a.onward pc ∨ a.path.spin + 1 < 64) : CallsTo i s a pc := by
  obtain ⟨tm1, ht1, h62, h63, hstack, hmode, hpath⟩ :=
    State.linkTo_team a.path.pid (a.path.pc + 12) (State.issued_team r.live)
  obtain ⟨hspin, hexm, hpmask⟩ := hpath a.f
  simp only [Team.setPath_path, Team.setPath_mode, Team.setPath_stack, if_true] at hspin hexm hpmask hmode hstack
  have hbelow : a.path.pc.toNat < pc.toNat ∨ mProg tm1.mode = true ∨ (tm1.path a.f).spin + 1 < 64 := by
    rw [hmode]
    rcases hn with (hn | hn) | hn
    · exact .inl hn
    · exact .inr (.inl hn)
    · exact .inr (.inr (by omega))
  obtain ⟨n, hmove⟩ := X.move_goTo (x := s.viewAt a h) (s.issued a) ht1 hbelow
  obtain ⟨t, tm, hnext, ht, hs, hst, hmem, hp⟩ := answer_retire_moved (s.viewAt_of a h) i .issue ps (s.issued a)
    (fun tm => tm.setPath a.f { tm.path a.f with pc := pc, hold := .free, spin := n }) ht1 (by simp [r.live.hole])
  obtain ⟨c, d, hpa⟩ := hp a.f
  simp only [Team.setPath_path, Team.setPath_stack, Team.setPath_s, if_true] at hs hst hpa
  refine ⟨t, tm, ?_, ht, ?_, ?_, ?_, ?_, ?_, hst.trans hstack, hmem.trans (by simp)⟩
  · rw [hi, State.issue_clear r i .issue true body (.inr rfl), hb, X.transfer_link_of_whole _ h0 he hal]
    exact (congrArg _ (congrArg _ hmove)).trans hnext
  · rw [hpa]
  · rw [← h62, Team.sreg, hs]
    rfl
  · rw [← h63, Team.sreg, hs]
    rfl
  · rw [hpa, ← hexm]
  · rw [hpa, ← hpmask]

/-- Settles O9: `bra` taken and not taken, `brx` to one destination, `ret`, and the two calls. -/
theorem branchesAndCallsComplete : Obligations.BranchesAndCallsComplete := by
  refine ⟨⟨fun h disp s a => exec_bra_of_whole, fun h disp s a => exec_bra_of_none,
    fun h o s a pc r hd he hm hpc _ hal => exec_brx_of_same r hd he hm hpc hal, fun h s a => exec_ret_of_whole⟩, ?_⟩
  intro h s a pc i ps hcall r hd h0 he hal hn
  rcases hcall with ⟨disp, rfl, rfl, rfl⟩ | ⟨o, rfl, rfl, rfl⟩
  · exact callsTo_of_transfer r rfl (X.branch_of_no_doubt hd ..) h0 he hal hn
  · exact callsTo_of_transfer r rfl (X.branch_of_no_doubt hd ..) h0 he hal hn

end Sys2Proof.Machine
end

section
/-! PROOFS. Countdowns that expire, and held instructions that end (R34, R101, R117, R136, R324, R325, R354). -/

namespace Sys2Proof.Machine

/-! ### Countdowns (R101, R117) -/

theorem State.runningPath_of_runs {s : State} {t : Nat} {f : Bool} {tm : Team} (ht : tget s.teams t = some tm)
    (hr : tm.runs f = true) : s.runningPath t f = some (tm, tm.path f) := by
  simp [State.runningPath, ht, hr]

/-- The countdown of a `dly`, or of STALL. -/
def cdOf (dly : Bool) (n : Nat) : Countdown := if dly then .dly n else .stall n

section
variable {s : State} {t : Nat} {f dly : Bool} {tm : Team} {n : Nat} (ht : tget s.teams t = some tm)
  (hcd : (tm.path f).cd = cdOf dly n)
include ht hcd

theorem State.cdEnd_of_over (hr : tm.runs f = true) (hn : n ≤ s.clk) :
    s.cdEnd t f dly = s.modTeam t (fun tm => tm.setPath f { tm.path f with cd := .none }) := by
  rw [State.cdEnd, State.runningPath_of_runs ht hr]
  cases dly <;> simp [hcd, cdOf, hn]

theorem State.cdEnd_of_early (hn : s.clk < n) : s.cdEnd t f dly = s := by
  cases hr : tm.runs f
  · simp [State.cdEnd, State.runningPath, ht, hr]
  · rw [State.cdEnd, State.runningPath_of_runs ht hr]
    cases dly <;> simp [hcd, cdOf, Nat.not_le_of_lt hn]

end

/-! ### Holds on layers (R354) -/

/-- A hold that has timed out has the fate TIMEOUT. -/
theorem exec_loadHoldTimeout_of_past {s : State} {t : Nat} {f : Bool} {tm : Team} {i : Instr} {c0 r0 st : Nat}
    {cap pg : List Nat} {ly : Option Nat} {fate : Fate} (hh : s.hole = false) (ht : tget s.teams t = some tm)
    (hold : (tm.path f).hold = .inside i c0 r0 cap st pg ly fate) (hp : s.holdPast tm.ctx c0 r0 ly fate = true) :
    exec (.loadHoldTimeout t f) s = .next (s.modTeam t (fun tm =>
      tm.setPath f { tm.path f with hold := .inside i c0 r0 cap st pg ly .timeout })) := by
  have heq : s.modTeam t (fun tm => tm.setPath f { tm.path f with hold := s.timeHold tm.ctx (tm.path f).hold }) =
      s.modTeam t (fun tm => tm.setPath f { tm.path f with hold := .inside i c0 r0 cap st pg ly .timeout }) := by
    unfold State.modTeam
    congr 1
    apply tmod_same
    intro tm' ht'
    obtain rfl : tm = tm' := Option.some.inj (ht.symm.trans ht')
    simp only [hold, State.timeHold, hp, if_true]
  show answer (s.modTeam t (fun tm => tm.setPath f { tm.path f with hold := s.timeHold tm.ctx (tm.path f).hold })) = _
  rw [heq]
  exact answer_of_hole_false hh

/-- The hold of a layer that is away for HTMO is past. -/
theorem State.holdPast_of_away {s : State} {c c0 r0 l : Nat} {y : Layer} (hy : s.layerOf c l = some y)
    (hst : y.st = .arriving ∨ y.st = .absent) (hn : s.htmo c ≠ 0) (hp : s.pastTmo c0 r0 (s.htmo c) = true) :
    s.holdPast c c0 r0 (some l) .open = true := by
  simp [State.holdPast, hy, hst, hn, hp]

/-! ### An instruction that goes on, and then the next one follows -/

@[simp] theorem State.resumed_rt (s : State) (a : At) : (s.resumed a).rt = s.rt := by
  unfold State.resumed State.readView
  dsimp only
  split <;> rfl

theorem State.viewIn_of (s : State) (a : At) (h : Hdr) (e : Mask) (w : Held) : (s.viewIn a h e w).Of a h :=
  ⟨rfl, rfl, rfl, rfl, rfl⟩

/-- The path of a fragment inside an instruction has not ended. -/
theorem Within.running {s : State} {a : At} {i : Instr} {e : Mask} {w : Held} (r : Within s a i e w) : a.path.ended = false := by
  have hruns := r.runs
  simp only [Team.runs, Bool.and_eq_true, Bool.not_eq_true'] at hruns
  exact hruns.1.1.1.1.2

/-- The state in which an event carries on what holds the fragment. -/
def State.polled (s : State) (a : At) : State := { s with cur := some (a.t, a.f, false) }

/-- The fragment that an event carries on runs, inside its instruction. -/
theorem Within.runningPath {s : State} {a : At} {i : Instr} {e : Mask} {w : Held} (r : Within (s.polled a) a i e w) :
    s.runningPath a.t a.f = some (a.tm, a.path) :=
  State.runningPath_of_runs (s := s) r.team r.runs

/-- The instruction that holds the fragment is carried on. -/
theorem State.resumeHeld_of_within {s : State} {a : At} {i : Instr} {e : Mask} {w : Held}
    {k : Instr → Option (State → Host.Outcome State Fault Refusal)} {g : State → Host.Outcome State Fault Refusal}
    (r : Within (s.polled a) a i e w) (hk : k i = some g) : s.resumeHeld a.t a.f k = g (s.polled a) := by
  rw [State.resumeHeld, r.runningPath]
  simp only [r.hold, hk]
  rfl

/-- Behind an Issue-class instruction that is done the fragment has gone on, and predicates are as the instruction left
them. -/
theorem State.issueNext_goneOn {s : State} {a : At} {h : Hdr} {tm : Team} (ht : tget s.teams a.t = some tm) :
    GoneOn (s.issueNext a h (fun tm => tm)) a ∧
      ∃ tm', tget (s.issueNext a h (fun tm => tm)).teams a.t = some tm' ∧ ∀ p, tm'.pred p = tm.pred p := by
  have hget : tget (s.issueNext a h (fun tm => tm)).teams a.t = some (a.next h s.clk 0 (tm.queue (a.posts h (s.clk + 2)))) := by
    rw [State.issueNext, State.modTeam_teams, tget_tmod_self, ht, Option.map_some]
  refine ⟨⟨_, hget, by simp [At.next], by simp [At.next]⟩, _, hget, fun p => ?_⟩
  simp [At.next, Team.pred, Team.queue]

/-- What a masked write leaves in the lanes of its mask. -/
theorem written_and_mask (old x m : Mask) : ((old &&& ~~~m) ||| (x &&& m)) &&& m = x &&& m := by
  ext i hi
  simp only [BitVec.getElem_and, BitVec.getElem_or, BitVec.getElem_not]
  cases m[i] <;> simp

/-- Predicate d of the team reads, in the lanes of m, as `waitc` writes it: true after a timeout, and free of doubt. -/
def PredOut (tm : Team) (d : Option (BitVec 3)) (m : Mask) (late : Bool) : Prop :=
  ∀ p, d = some p → p ≠ 7 → (tm.pred p.toNat).t &&& m = (if late then m else 0) ∧ (tm.pred p.toNat).d &&& m = 0

/-- The write of D at the end of a wait, in the team. -/
theorem X.waitOut_team {s : State} {a : At} {h : Hdr} {m : Mask} {w : Held} {s1 : State} (d : Option (BitVec 3)) (late : Bool)
    (ht : tget s1.teams a.t = some a.tm) : ∃ s2 tm, (s.viewIn a h m w).waitOut s1 d late = .issue s2 ∧
      tget s2.teams a.t = some tm ∧ s2.clk = s1.clk ∧ s2.hole = s1.hole ∧ (tm.path a.f).ended = a.path.ended ∧
      PredOut tm d m late := by
  cases d with
  | none => exact ⟨s1, a.tm, rfl, ht, rfl, rfl, rfl, by simp [PredOut]⟩
  | some d =>
    obtain ⟨tm, htm, -, -, -, -, hpath, hpred⟩ :=
      s1.landUpd_prd_team a.t a.path.pid d.toNat m (if late then m else 0) 0 a.tm ht
    obtain ⟨sp, cl, -, hp⟩ := hpath a.f
    refine ⟨_, tm, rfl, htm, by rw [State.landUpd_eq], State.landUpd_hole .., by rw [hp]; rfl, ?_⟩
    rintro p hd h7
    obtain rfl : d = p := Option.some.inj hd
    have h7' : d.toNat ≠ 7 := fun e => h7 (BitVec.eq_of_toNat_eq e)
    rw [hpred h7', written_and_mask, written_and_mask]
    cases late <;> simp

/-- What the end of a wait leads to: the fragment behind it, and D written. -/
def WaitEnds (o : Host.Outcome State Fault Refusal) (a : At) (d : Option (BitVec 3)) (m : Mask) (late : Bool) : Prop :=
  ∃ t tm, o = .next t ∧ GoneOn t a ∧ tget t.teams a.t = some tm ∧ PredOut tm d m late

/-- An instruction that goes on, and whose wait ends in a state with the same teams. -/
theorem waitEnds_of_waitOut {s : State} {a : At} {h : Hdr} {i : Instr} {e m : Mask} {w : Held} {s1 : State} {cls : Cls}
    {ps : List Port} {always tk : Bool} {body : X → State → Res} {d : Option (BitVec 3)} {late : Bool}
    (r : Within s a i e w) (hb : body (s.viewIn a h e w) (s.resumed a) = (s.viewIn a h m w).waitOut s1 d late)
    (ht : s1.teams = s.teams) (hc : s1.clk = s.clk) (hh : s1.hole = false) :
    WaitEnds (answer (s.issue i h cls ps always tk body)) a d m late := by
  obtain ⟨s2, tm, hout, ht2, hc2, hh2, hend, hpred⟩ :=
    X.waitOut_team (s := s) (h := h) (m := m) (w := w) d late (ht ▸ r.team)
  have hnext : answer (s.issue i h cls ps always tk body) = .next (s2.issueNext a h (fun tm => tm)) := by
    have hclk : (s.resumed a).clk = s2.clk := by rw [State.resumed_clk, hc2, hc]
    rw [State.issue_within r, hb, hout, State.retire_issue' (s.viewIn_of a h e w) i cls ps s2 _ hclk]
    · exact answer_of_hole_false (hh2.trans hh)
    · intro tm' ht'
      obtain rfl : tm = tm' := Option.some.inj (ht2.symm.trans ht')
      exact hend.trans r.running
  obtain ⟨hgone, tm', ht', hp'⟩ := State.issueNext_goneOn (h := h) ht2
  exact ⟨_, tm', hnext, hgone, ht', fun p hd h7 => by rw [hp']; exact hpred p hd h7⟩

/-! ### rjoin.to (R136) -/

section
variable {s : State} {a : At} {h : Hdr} {d : BitVec 3} {o : Opnd} {e : Mask} {w : Held}
  (r : Within (s.polled a) a (.rjoinTo h d o) e w) (hp : s.pastTmo w.clk0 w.rt0 (w.cap.headD 0) = true)
include r hp

/-- The expiry of a held `rjoin.to` carries it on. -/
theorem exec_rjoinTimeoutExpiry_of_past : exec (.rjoinTimeoutExpiry a.t a.f) s = execRjoinTo h d o (s.polled a) := by
  have hcap : (e.toNat :: w.cap).getD 1 0 = w.cap.headD 0 := by cases w.cap <;> rfl
  have hpast : s.joinPast a.t a.f = true := by
    rw [State.joinPast, r.runningPath]
    simpa only [r.hold, hcap] using hp
  exact (if_pos hpast).trans (State.resumeHeld_of_within r rfl)

/-- A held `rjoin.to` whose time is over, and whose sibling is still on its way, writes true and goes on. -/
theorem waitEnds_rjoinTo (hend : (a.tm.path (!a.f)).ended = false) (hjoin : (a.tm.path (!a.f)).atJoin = false) :
    WaitEnds (exec (.rjoinTimeoutExpiry a.t a.f) s) a (some d) a.path.exm true := by
  rw [exec_rjoinTimeoutExpiry_of_past r hp]
  refine waitEnds_of_waitOut (s1 := (s.polled a).resumed a) r ?_ (State.resumed_teams ..) (State.resumed_clk ..)
    ((State.resumed_hole ..).trans r.hole)
  have hdone : (State.viewIn (s.polled a) a h e w).siblingDone = false := by
    simp [X.siblingDone, State.viewIn, hend, hjoin]
  have htime : w.cap.headD 0 ≤ ((s.polled a).resumed a).rt - w.rt0 := by
    simp only [State.pastTmo, Bool.and_eq_true, Bool.or_eq_true, decide_eq_true_eq] at hp
    rw [State.resumed_rt]
    show _ ≤ s.rt - w.rt0
    omega
  show (State.viewIn (s.polled a) a h e w).join _ (some d) _ = _
  simp only [X.join, State.viewIn] at hdone ⊢
  simp only [hdone, htime, if_true, Bool.false_eq_true, if_false]
  rfl

end

/-! ### waitc (R34, R324) -/

/-- The acquires of a wait that is satisfied, with the path's reads completed, leave teams and time alone. -/
theorem X.satisfied_of_reads_done {x : X} {s : State} (cs : List Cond) (bs : List Bool) (cap : List Nat) (k : State → Res)
    (hp : x.pathWaits s Op.reads = false) : ∃ s2, x.satisfied s cs bs cap k = k s2 ∧ s2.teams = s.teams ∧ s2.clk = s.clk ∧
      s2.hole = s.hole := by
  unfold X.satisfied
  split
  · rw [X.acquiring, hp]
    exact ⟨_, rfl, x.acquireBlock_same s cs bs⟩
  · exact ⟨s, rfl, rfl, rfl, rfl⟩

/-- The evaluation of a block leaves teams and time alone. -/
theorem State.evalBlock_same {s s1 : State} {a : At} {h : Hdr} {e : Mask} {w : Held} {cs : List Cond} {b : Block}
    (hb : (s.viewIn a h e w).evalBlock cs (s.resumed a) = (b, s1)) : s1.teams = s.teams ∧ s1.clk = s.clk := by
  have haside := X.evalBlock_aside (s.viewIn a h e w) cs (s.resumed a)
  rw [hb] at haside
  exact ⟨haside.teams.trans (s.resumed_teams a), haside.clk.trans (s.resumed_clk a)⟩

section
variable {x : X} {s s1 : State} {d : Option (BitVec 3)} {all : Bool} {tmo : Nat} {ws : List Nat} {bs : List Bool}

/-- An expiry that fell in a parked interval takes effect. -/
theorem X.waitStep_of_parked (hst : x.stage = 1) : x.waitStep s d all tmo ws = x.waitOut s d true := by
  simp only [X.waitStep, hst, if_true]

section
variable (hst : x.stage = 0) (hl : x.late = false) (hb : x.evalBlock (condsOf ws) s = (.truth bs, s1))
include hst hl hb

/-- A wait whose conditions hold is satisfied. -/
theorem X.waitStep_of_held (hh : (if all then bs.all id else bs.any id) = true) : x.waitStep s d all tmo ws =
    x.satisfied s1 (condsOf ws) bs (tmo :: ws) (fun s => x.waitOut s d false) := by
  simp [X.waitStep, hst, hl, hb, hh]

/-- A wait whose conditions do not hold, and whose time is over, ends. -/
theorem X.waitStep_of_due (hh : (if all then bs.all id else bs.any id) = false) (hd : x.waitDue s1 tmo false = true) :
    x.waitStep s d all tmo ws = x.waitOut s1 d true := by
  simp [X.waitStep, hst, hl, hb, hh, hd]

end

end

section
variable {s : State} {a : At} {h : Hdr} {d : Option (BitVec 3)} {o b : Opnd} {n : BitVec 2} {all : Bool} {e : Mask}
  {w : Held} (r : Within (s.polled a) a (if all then .waitcAll h d o b n else .waitcAny h d o b n) e w)
include r

/-- Both events of a held `waitc` carry it on. -/
theorem State.waitcAgain_of_within : s.waitcAgain a.t a.f =
    waitcOp (if all then .waitcAll h d o b n else .waitcAny h d o b n) h d o b n all (s.polled a) := by
  cases all
  · exact State.resumeHeld_of_within (g := execWaitcAny h d o b n) r rfl
  · exact State.resumeHeld_of_within (g := execWaitcAll h d o b n) r rfl

/-- A held `waitc` whose evaluation ends the wait in a state with the same teams. -/
theorem waitEnds_waitc {s1 : State} {late : Bool}
    (hb : ((s.polled a).viewIn a h e w).waitStep ((s.polled a).resumed a) d all (w.cap.headD 0) w.cap.tail =
      ((s.polled a).viewIn a h e w).waitOut s1 d late)
    (ht : s1.teams = s.teams) (hc : s1.clk = s.clk) (hh : s1.hole = false) :
    WaitEnds (s.waitcAgain a.t a.f) a d e late := by
  rw [State.waitcAgain_of_within r]
  exact waitEnds_of_waitOut r hb ht hc hh

/-- An event does not look at the end of the clk. -/
theorem Within.late_eq_false : a.late = false := by
  have hcur : some (a.t, a.f, false) = some (a.t, a.f, a.late) := r.cur
  simpa using hcur.symm

section
variable {bs : List Bool} {s1 : State} (hst : w.stage = 0)
  (hb : ((s.polled a).viewIn a h e w).evalBlock (condsOf w.cap.tail) ((s.polled a).resumed a) = (.truth bs, s1))
  (hh : s1.hole = false)
include hst hb hh

/-- A held `waitc` whose conditions hold goes on with D false. -/
theorem waitEnds_waitc_of_held (hheld : (if all then bs.all id else bs.any id) = true)
    (hp : a.pathWaits s1 Op.reads = false) : WaitEnds (s.waitcAgain a.t a.f) a d e false := by
  obtain ⟨hteams, hclk⟩ := State.evalBlock_same hb
  obtain ⟨s2, hsat, ht2, hc2, hh2⟩ := X.satisfied_of_reads_done (x := (s.polled a).viewIn a h e w) (condsOf w.cap.tail) bs
    (w.cap.headD 0 :: w.cap.tail) (fun s => ((s.polled a).viewIn a h e w).waitOut s d false) hp
  exact waitEnds_waitc r
    ((X.waitStep_of_held (x := (s.polled a).viewIn a h e w) hst r.late_eq_false hb hheld).trans hsat)
    (ht2.trans hteams) (hc2.trans hclk) (hh2.trans hh)

/-- A held `waitc` whose conditions do not hold and whose time is over goes on with D true. -/
theorem waitEnds_waitc_of_due (hheld : (if all then bs.all id else bs.any id) = false)
    (hd : w.cap.headD 0 = 0 ∨ s1.pastTmo w.clk0 w.rt0 (w.cap.headD 0) = true) (hn : w.cap.headD 0 ≠ 2 ^ 32 - 1) :
    WaitEnds (s.waitcAgain a.t a.f) a d e true := by
  obtain ⟨hteams, hclk⟩ := State.evalBlock_same hb
  have hdue : ((s.polled a).viewIn a h e w).waitDue s1 (w.cap.headD 0) false = true := by
    simp only [X.waitDue, State.viewIn, Bool.false_eq_true, if_false, Bool.and_eq_true, Bool.or_eq_true, decide_eq_true_eq]
    exact ⟨hn, hd⟩
  exact waitEnds_waitc r (X.waitStep_of_due (x := (s.polled a).viewIn a h e w) hst r.late_eq_false hb hheld hdue)
    hteams hclk hh

end

/-- A held `waitc` that expired while its team was parked goes on with D true. -/
theorem waitEnds_waitc_of_parked (hst : w.stage = 1) : WaitEnds (s.waitcAgain a.t a.f) a d e true :=
  waitEnds_waitc r (X.waitStep_of_parked hst) (State.resumed_teams ..) (State.resumed_clk ..)
    ((State.resumed_hole ..).trans r.hole)

end

/-! ### yield (R325) -/

/-- An instruction that goes on, and moves its fragment to pc. -/
theorem goesTo_of_moved {s s1 : State} {a : At} {h : Hdr} {i : Instr} {e : Mask} {w : Held} {cls : Cls} {ps : List Port}
    {always tk : Bool} {body : X → State → Res} {pc : BitVec 64} {tm : Team} (r : Within s a i e w)
    (hb : body (s.viewIn a h e w) (s.resumed a) =
      .moved (s1.modTeam a.t (fun tm => tm.setPath a.f { tm.path a.f with pc := pc, hold := .free })))
    (ht : tget s1.teams a.t = some tm) (hh : s1.hole = false) :
    ∃ t tm, answer (s.issue i h cls ps always tk body) = .next t ∧ tget t.teams a.t = some tm ∧ (tm.path a.f).pc = pc ∧
      (tm.path a.f).hold = .free := by
  obtain ⟨t, tm', hnext, ht', -, -, -, hpath⟩ := answer_retire_moved (s.viewIn_of a h e w) i cls ps (s.resumed a)
    (fun tm => tm.setPath a.f { tm.path a.f with pc := pc, hold := .free }) ht hh
  obtain ⟨c, dm, hpa⟩ := hpath a.f
  rw [State.issue_within r, hb]
  exact ⟨t, tm', hnext, ht', by rw [hpa]; simp, by rw [hpa]; simp⟩

/-- A held `yield` of which a condition holds goes to its continuation. -/
theorem exec_yieldReactivation_of_held {s s1 : State} {a : At} {h : Hdr} {o : Opnd} {n : BitVec 2} {disp : BitVec 20}
    {e : Mask} {w : Held} {bs : List Bool} (r : Within (s.polled a) a (.yield h o n disp) e w) (hst : w.stage < 2)
    (hb : ((s.polled a).viewIn a h e w).evalBlock (condsOf w.cap) ((s.polled a).resumed a) = (.truth bs, s1))
    (hheld : bs.any id = true) (hp : a.pathWaits s1 Op.reads = false) (hh : s1.hole = false) :
    ∃ t tm, exec (.yieldReactivation a.t a.f) s = .next t ∧ tget t.teams a.t = some tm ∧
      (tm.path a.f).pc = a.path.pc + (disp.signExtend 64 <<< 2) ∧ (tm.path a.f).hold = .free := by
  obtain ⟨hteams, -⟩ := State.evalBlock_same hb
  obtain ⟨s2, hsat, ht2, -, hh2⟩ := X.satisfied_of_reads_done (x := (s.polled a).viewIn a h e w) (condsOf w.cap) bs w.cap
    (fun s => .moved (s.modTeam a.t (fun tm => tm.setPath a.f
      { tm.path a.f with pc := a.path.pc + (disp.signExtend 64 <<< 2), hold := .free }))) hp
  have hteam : tget s2.teams a.t = some a.tm := by
    rw [ht2, hteams]
    exact r.team
  have hpoll : exec (.yieldReactivation a.t a.f) s = execYield h o n disp (s.polled a) := State.resumeHeld_of_within r rfl
  rw [hpoll]
  refine goesTo_of_moved r ?_ hteam (hh2.trans hh)
  have hstage : ¬ 2 ≤ ((s.polled a).viewIn a h e w).stage := Nat.not_le_of_lt hst
  rw [← hsat]
  show (if 2 ≤ ((s.polled a).viewIn a h e w).stage then _ else _) = _
  rw [if_neg hstage]
  simp only [State.viewIn] at hb ⊢
  simp only [hb, hheld, if_true]

/-- Settles O26: countdowns and held loads time out; `rjoin.to`, `waitc` and `yield` end. -/
theorem heldInstructionsExpireAndEnd : Obligations.HeldInstructionsExpireAndEnd := by
  refine ⟨⟨fun s t f tm n hh ht hr hn => ⟨fun hcd => ?_, fun hcd => ?_⟩,
    fun s t f tm n hh ht hn => ⟨fun hcd => ?_, fun hcd => ?_⟩,
    fun s t f tm i c0 r0 cap st pg l y hh ht hold hy hst hn hp => ?_⟩, ?_, ?_, ?_, ?_⟩
  · exact (congrArg answer (State.cdEnd_of_over (dly := true) ht hcd hr hn)).trans (answer_of_hole_false hh)
  · exact (congrArg answer (State.cdEnd_of_over (dly := false) ht hcd hr hn)).trans (answer_of_hole_false hh)
  · exact (congrArg answer (State.cdEnd_of_early (dly := true) ht hcd hn)).trans (answer_of_hole_false hh)
  · exact (congrArg answer (State.cdEnd_of_early (dly := false) ht hcd hn)).trans (answer_of_hole_false hh)
  · exact exec_loadHoldTimeout_of_past hh ht hold (State.holdPast_of_away hy hst hn hp)
  · intro h d o s a e w r hend hjoin hp
    obtain ⟨t, tm, hnext, hgone, ht, hpred⟩ := waitEnds_rjoinTo (s := s) r hp hend hjoin
    exact ⟨t, tm, hnext, hgone, ht, hpred d rfl⟩
  · intro h d o b n all s a e w bs s1 i s0 held r hb hh
    exact ⟨fun hst hheld hp => waitEnds_waitc_of_held (s := s) r hst hb hh hheld hp,
      fun hst hheld hd hn => waitEnds_waitc_of_due (s := s) r hst hb hh hheld hd hn⟩
  · intro h d o b n all s a e w i r hst
    exact waitEnds_waitc_of_parked (s := s) r hst
  · intro h o n disp s a e w bs s1 s0 r hst hb hheld hp hh
    exact exec_yieldReactivation_of_held (s := s) r hst hb hheld hp hh

end Sys2Proof.Machine
end

section
/-! PROOFS. Decoding the word of a well-formed instruction gives it back (R39, R52-R58, R60): every check of the word
passes on the fields that the encoder writes. -/

namespace Sys2Proof
open Fields

/-! ### A check that passes -/

/-- A step of decoding that answers a, and the rest from a. -/
theorem bind_ok {α β : Type} {x : Dec α} {a : α} {k : α → Dec β} {r : Dec β} (hx : x = .ok a) (hk : k a = r) :
    (x >>= k) = r := by
  subst hx
  exact hk

theorem need_of {e : DecErr} {b : Bool} (h : b = true) : need e b = .ok () := if_pos h

theorem Fields.immTop_of_lt {f : Fields} {n : Nat} (h : f.imm.toNat < 2 ^ n) : f.immTop n = .ok () :=
  need_of (by simpa using Nat.div_eq_of_lt h)

/-- A type of the set passes the TY check, whatever the other fields are. -/
theorem Fields.tyIn_of {f : Fields} {p : Ty → Bool} {t : Ty} (hf : f.ty = t.code) (h : p t = true) : f.tyIn p = .ok t := by
  simp [Fields.tyIn, hf, h]

/-- The VAR check passes for a type that the variant fits. -/
theorem Fields.varTy_of {f : Fields} {p q : Ty → Bool} {t : Ty} (hf : f.ty = t.code) (h : q t = true) :
    f.varTy p q = .ok () := by
  simp [Fields.varTy, hf, h, need]

theorem Fields.rndG0_of {f : Fields} {r : RndSel} (hr : f.rnd = r.code) (hg : f.gear = 0) : f.rndG0 = .ok r := by
  simp [Fields.rndG0, hr, hg, want, need, bind, Except.bind]

theorem Fields.rndGear_of {f : Fields} {r : RndSel} {g : GearSel} (hr : f.rnd = r.code) (hg : f.gear = g.code) :
    f.rndGear = .ok (r, g) := by
  simp [Fields.rndGear, hr, hg, want, bind, Except.bind]

theorem Fields.rndIf_of {f : Fields} {r : RndSel} {ok : Bool} (hr : f.rnd = r.code) (hg : f.gear = 0)
    (h : (ok || r = .dflt) = true) : f.rndIf ok = .ok r := by
  simp only [Fields.rndIf, hr, hg, RndSel.ofCode_code]
  exact bind_ok rfl (bind_ok (need_of h) rfl)

/-! ### Codes in VAR -/

theorem want_some {α : Type} {e : DecErr} {o : Option α} {a : α} (h : o = some a) : want e o = .ok a := by
  rw [h]
  rfl

theorem Scope.ofCode_var (s : Scope) : Scope.ofCode (BitVec.ofNat 4 s.code).toNat = some s := by cases s <;> rfl
theorem Cmp.ofCode_var (c : Cmp) : Cmp.ofCode (BitVec.ofNat 4 c.code).toNat = some c := by cases c <;> rfl
theorem FCmp.ofCode_var (c : FCmp) : FCmp.ofCode (BitVec.ofNat 4 c.code).toNat = some c := by
  rcases c with c | _ | c | _ <;> first | rfl | (cases c <;> rfl)
theorem RedOp.ofCode_var (o : RedOp) : RedOp.ofCode (BitVec.ofNat 4 o.code).toNat = some o := by cases o <;> rfl
theorem RedOp.ofCode_code (o : RedOp) : RedOp.ofCode o.code = some o := by cases o <;> rfl
theorem AtOp.ofCode_var (o : AtOp) : AtOp.ofCode (BitVec.ofNat 4 o.code).toNat = some o := by cases o <;> rfl
theorem Cnt.ofCode_var (n : Cnt) : Cnt.ofCode (BitVec.ofNat 4 n.code).toNat = some n := by cases n <;> rfl

/-! ### The parts of a conjunction of checks -/

theorem of_and3 {x y z : Bool} (h : (x && y && z) = true) : x = true ∧ y = true ∧ z = true := by
  simpa only [Bool.and_eq_true, and_assoc] using h

theorem of_and4 {x y z u : Bool} (h : (x && y && z && u) = true) : x = true ∧ y = true ∧ z = true ∧ u = true := by
  simpa only [Bool.and_eq_true, and_assoc] using h

theorem of_and5 {x y z u v : Bool} (h : (x && y && z && u && v) = true) :
    x = true ∧ y = true ∧ z = true ∧ u = true ∧ v = true := by
  simpa only [Bool.and_eq_true, and_assoc] using h

/-! ### What IMM holds -/

/-- A field of w bits at the bottom of IMM and a number above it do not meet. -/
theorem toNat_imm_or {w : Nat} (lo : BitVec w) {hi : Nat} (h : 2 ^ w * hi + lo.toNat < 2 ^ 20) :
    (lo.setWidth 20 ||| BitVec.ofNat 20 (hi * 2 ^ w)).toNat = 2 ^ w * hi + lo.toNat := by
  have hlo : lo.toNat < 2 ^ 20 := by omega
  rw [BitVec.toNat_or, BitVec.toNat_setWidth, BitVec.toNat_ofNat, Nat.mod_eq_of_lt hlo, Nat.mul_comm hi,
    Nat.mod_eq_of_lt (by omega), Nat.two_pow_add_eq_or_of_lt lo.isLt, Nat.or_comm]

/-- A field of w bits at the bottom of IMM reads back, whatever stands above it. -/
theorem setWidth_imm {w : Nat} {lo : BitVec w} {hi : Nat} {imm : BitVec 20} (h : imm.toNat = 2 ^ w * hi + lo.toNat) :
    imm.setWidth w = lo := by
  apply BitVec.eq_of_toNat_eq
  rw [BitVec.toNat_setWidth, h, Nat.mul_add_mod, Nat.mod_eq_of_lt lo.isLt]

/-- IMM with a field of w bits and a flag above it. -/
theorem toNat_imm_flag {w : Nat} (x : BitVec w) (m : Bool) (hw : w < 20) :
    (x.setWidth 20 ||| immBit m w).toNat = 2 ^ w * bitOf m + x.toNat := by
  have hp : 2 ^ (w + 1) ≤ 2 ^ 20 := Nat.pow_le_pow_right (by decide) hw
  have hm : 2 ^ w * bitOf m ≤ 2 ^ w := by cases m <;> simp [bitOf]
  exact toNat_imm_or x (by have := x.isLt; rw [Nat.pow_succ] at hp; omega)

/-- The flag reads back. -/
theorem getLsbD_imm_flag {w : Nat} {x : BitVec w} {m : Bool} {imm : BitVec 20} (h : imm.toNat = 2 ^ w * bitOf m + x.toNat) :
    imm.getLsbD w = m := by
  rw [BitVec.getLsbD, h, Nat.testBit_eq_decide_div_mod_eq, Nat.mul_add_div (by positivity), Nat.div_eq_of_lt x.isLt]
  cases m <;> rfl

theorem imm_flag_lt {w : Nat} {x : BitVec w} {m : Bool} {imm : BitVec 20} (h : imm.toNat = 2 ^ w * bitOf m + x.toNat) :
    imm.toNat < 2 ^ (w + 1) := by
  have hm : 2 ^ w * bitOf m ≤ 2 ^ w := by cases m <;> simp [bitOf]
  rw [h, Nat.pow_succ]
  have := x.isLt
  omega

theorem imm_lt {w : Nat} (x : BitVec w) : (x.setWidth 20).toNat < 2 ^ w := by
  rw [BitVec.toNat_setWidth]
  exact (Nat.mod_le ..).trans_lt x.isLt

/-- A field of w bits alone in IMM reads back. -/
theorem setWidth_setWidth_imm {w : Nat} (x : BitVec w) (hw : w ≤ 20) : (x.setWidth 20).setWidth w = x := by
  rw [BitVec.setWidth_setWidth_of_le _ hw, BitVec.setWidth_eq]

theorem Fields.c4_of {f : Fields} {o : Opnd} {p : Opnd → Bool} (hf : f.imm = o.code.setWidth 20) (h : p o = true) :
    f.c4 p = .ok o := by
  have hi : f.imm.setWidth 10 = o.code := hf ▸ setWidth_setWidth_imm o.code (by decide)
  unfold Fields.c4
  rw [hi]
  exact bind_ok (fld_code .imm o p h) (bind_ok (immTop_of_lt (hf ▸ imm_lt o.code)) rfl)

/-- The third source of reg4, under the restriction of a uniform form. -/
theorem Fields.c4_uni {cx : DecCtx} {f : Fields} {o d : Opnd} {q : Opnd → Bool} (hf : f.imm = o.code.setWidth 20)
    (ho : q o = true) (hu : o.uni cx d = true) : f.c4 (fun o => q o && o.uni cx d) = .ok o :=
  c4_of hf (by rw [ho, hu]; rfl)

theorem immBit_zero_lt (m : Bool) : (immBit m 0).toNat < 2 ^ 1 := by cases m <;> decide

theorem getLsbD_immBit_zero (m : Bool) : (immBit m 0).getLsbD 0 = m := by cases m <;> rfl

/-! ### Moulds: the instructions that share a shape -/

section
variable {cx : DecCtx} {h : Hdr} {op : BitVec 8} {v : Nat} {t : Ty} {d a b c : Opnd} {r : RndSel} {g : GearSel}
  {imm : BitVec 20} {p : Ty → Bool} {sa sb sc : Ty → Opnd → Bool}

/-- A source that satisfies q, and the restriction of a uniform form under D (R45). -/
theorem fld_uni {e : DecErr} {q : Opnd → Bool} (ha : q a = true) (hu : a.uni cx d = true) :
    fld e a.code (fun o => q o && o.uni cx d) = .ok a :=
  fld_code e a _ (by rw [ha, hu]; rfl)

theorem nul_enc {k : Hdr → Instr} : nul (enc h op 0 0) k = .ok (k h) :=
  bind_ok rfl <| bind_ok rfl <| bind_ok rfl <| bind_ok rfl <| bind_ok rfl <| bind_ok (hdr_enc ..) rfl

theorem br_enc {k : Hdr → BitVec 20 → Instr} : br { enc h op 0 0 with imm := imm } k = .ok (k h imm) :=
  bind_ok rfl <| bind_ok rfl <| bind_ok rfl <| bind_ok rfl <| bind_ok (hdr_enc ..) rfl

theorem un_enc {da : Ty → Opnd → Bool} {k : Hdr → Ty → Opnd → Opnd → Instr}
    (hw : (p t && da t d && sa t a && a.uni cx d) = true) :
    un cx { enc h op v t.code with d := d.code, a := a.code } p da sa k = .ok (k h t d a) := by
  simp only [Bool.and_eq_true] at hw
  obtain ⟨⟨⟨hp, hd⟩, ha⟩, hu⟩ := hw
  exact bind_ok (tyIn_of rfl hp) <| bind_ok rfl <| bind_ok (fld_code _ d _ hd) <| bind_ok (fld_uni ha hu) <|
    bind_ok rfl <| bind_ok rfl <| bind_ok (hdr_enc ..) rfl

theorem bin_enc {k : Hdr → Ty → Opnd → Opnd → Opnd → Instr}
    (hw : (p t && wf2 cx d a b (d.regTy cx t) (sa t a) (sb t b)) = true) :
    bin cx { enc h op v t.code with d := d.code, a := a.code, b := b.code } p sa sb k = .ok (k h t d a b) := by
  simp only [Bool.and_eq_true, wf2] at hw
  obtain ⟨hp, ⟨⟨⟨hd, ha⟩, hua⟩, hb⟩, hub⟩ := hw
  exact bind_ok (tyIn_of rfl hp) <| bind_ok rfl <| bind_ok (fld_code _ d _ hd) <| bind_ok (fld_uni ha hua) <|
    bind_ok (fld_uni hb hub) <| bind_ok rfl <| bind_ok (hdr_enc ..) rfl

theorem tri_enc {k : Hdr → Ty → Opnd → Opnd → Opnd → Opnd → Instr}
    (hw : (p t && wf2 cx d a b (d.regTy cx t) (sa t a) (sb t b) && sc t c && c.uni cx d) = true) :
    tri cx { enc h op v t.code with d := d.code, a := a.code, b := b.code, imm := c.code.setWidth 20 } p sa sb sc k =
      .ok (k h t d a b c) := by
  simp only [Bool.and_eq_true, wf2] at hw
  obtain ⟨⟨⟨hp, ⟨⟨⟨hd, ha⟩, hua⟩, hb⟩, hub⟩, hc⟩, huc⟩ := hw
  exact bind_ok (tyIn_of rfl hp) <| bind_ok rfl <| bind_ok (fld_code _ d _ hd) <| bind_ok (fld_uni ha hua) <|
    bind_ok (fld_uni hb hub) <| bind_ok (c4_uni rfl hc huc) <| bind_ok (hdr_enc ..) rfl

theorem unR_enc {k : Hdr → Ty → RndSel → Opnd → Opnd → Instr}
    (hw : (p t && d.regTy cx t && a.srcF cx t && a.uni cx d) = true) :
    unR cx { enc h op v t.code with d := d.code, a := a.code, rnd := r.code } p k = .ok (k h t r d a) := by
  simp only [Bool.and_eq_true] at hw
  obtain ⟨⟨⟨hp, hd⟩, ha⟩, hu⟩ := hw
  exact bind_ok (tyIn_of rfl hp) <| bind_ok (rndG0_of rfl rfl) <| bind_ok (fld_code _ d _ hd) <| bind_ok (fld_uni ha hu) <|
    bind_ok rfl <| bind_ok rfl <| bind_ok (hdr_enc ..) rfl

theorem binR_enc {k : Hdr → Ty → RndSel → Opnd → Opnd → Opnd → Instr}
    (hw : (p t && wf2 cx d a b (d.regTy cx t) (a.srcF cx t) (sb t b)) = true) :
    binR cx { enc h op v t.code with d := d.code, a := a.code, b := b.code, rnd := r.code } p sb k =
      .ok (k h t r d a b) := by
  simp only [Bool.and_eq_true, wf2] at hw
  obtain ⟨hp, ⟨⟨⟨hd, ha⟩, hua⟩, hb⟩, hub⟩ := hw
  exact bind_ok (tyIn_of rfl hp) <| bind_ok (rndG0_of rfl rfl) <| bind_ok (fld_code _ d _ hd) <|
    bind_ok (fld_uni ha hua) <| bind_ok (fld_uni hb hub) <| bind_ok rfl <| bind_ok (hdr_enc ..) rfl

theorem dot_enc {k : Hdr → Ty → RndSel → GearSel → Opnd → Opnd → Opnd → Opnd → Instr}
    (hw : (p t && wf2 cx d a b (d.reg cx) (a.srcF cx t) (b.srcF cx t) && c.srcF cx .f32 && c.uni cx d) = true) :
    dot cx { enc h op v t.code with
      d := d.code, a := a.code, b := b.code, rnd := r.code, gear := g.code, imm := c.code.setWidth 20 } p k =
        .ok (k h t r g d a b c) := by
  simp only [Bool.and_eq_true, wf2] at hw
  obtain ⟨⟨⟨hp, ⟨⟨⟨hd, ha⟩, hua⟩, hb⟩, hub⟩, hc⟩, huc⟩ := hw
  exact bind_ok (tyIn_of rfl hp) <| bind_ok (rndGear_of rfl rfl) <| bind_ok (fld_code _ d _ hd) <|
    bind_ok (fld_uni ha hua) <| bind_ok (fld_uni hb hub) <| bind_ok (c4_uni rfl hc huc) <| bind_ok (hdr_enc ..) rfl

theorem fn_enc {k : Hdr → Opnd → Opnd → Instr} (hw : (d.reg cx && a.srcF cx .f32 && a.uni cx d) = true) :
    fn cx { enc h op 0 0xA with d := d.code, a := a.code } k = .ok (k h d a) :=
  bind_ok rfl (un_enc (t := .f32) hw)

theorem mem_enc {n : Cnt} {k : Hdr → Ty → Cnt → Opnd → Opnd → Opnd → BitVec 20 → Instr}
    (hw : (t.isMem && cntOk t n && wf2 cx d a b (d.data cx t n) (a.pair cx) (b.index cx)) = true) :
    mem cx { enc h op n.code t.code with d := d.code, a := a.code, b := b.code, imm := imm } k =
      .ok (k h t n d a b imm) := by
  simp only [Bool.and_eq_true, wf2] at hw
  obtain ⟨⟨hp, hn⟩, ⟨⟨⟨hd, ha⟩, hua⟩, hb⟩, hub⟩ := hw
  exact bind_ok (a := n) (by cases n <;> rfl) <| bind_ok (varTy_of rfl hn) <| bind_ok (tyIn_of rfl hp) <| bind_ok rfl <|
    bind_ok (fld_code _ d _ hd) <| bind_ok (fld_uni ha hua) <| bind_ok (fld_uni hb hub) <| bind_ok (hdr_enc ..) rfl

theorem memN_enc {k : Hdr → Opnd → Opnd → BitVec 20 → Instr} (hw : (a.pair cx && b.index cx) = true) :
    memN cx { enc h op v 0 with a := a.code, b := b.code, imm := imm } k = .ok (k h a b imm) := by
  simp only [Bool.and_eq_true] at hw
  exact bind_ok rfl <| bind_ok rfl <| bind_ok (fld_code _ a _ hw.1) <| bind_ok (fld_code _ b _ hw.2) <|
    bind_ok (hdr_enc ..) rfl

theorem tokI_enc {n : BitVec 5} {x : BitVec 8} {m : Bool} {k : Hdr → BitVec 5 → BitVec 8 → Bool → Instr} :
    tokI { enc h op 0 0 with a := kF n, imm := x.setWidth 20 ||| immBit m 8 } k = .ok (k h n x m) := by
  have hi := toNat_imm_flag x m (by decide)
  refine bind_ok rfl <| bind_ok rfl <| bind_ok (tok_kF ..) <| bind_ok rfl <| bind_ok (immTop_of_lt (imm_flag_lt hi)) <|
    bind_ok (hdr_enc ..) ?_
  rw [setWidth_imm hi, getLsbD_imm_flag hi]

theorem copy_enc {cpc cpx : Bool} {q : Opnd → Bool} {k : Hdr → Opnd → Opnd → Opnd → BitVec 20 → Instr}
    (hw : (d.scaPair && a.scaPair && q b && optOk cx cpc cpx imm) = true) :
    copy cx { enc h op v 0 with d := d.code, a := a.code, b := b.code, imm := imm } cpc cpx q k = .ok (k h d a b imm) := by
  simp only [Bool.and_eq_true] at hw
  obtain ⟨⟨⟨hd, ha⟩, hb⟩, ho⟩ := hw
  exact bind_ok rfl <| bind_ok (fld_code _ d _ hd) <| bind_ok (fld_code _ a _ ha) <| bind_ok (fld_code _ b _ hb) <|
    bind_ok (need_of ho) <| bind_ok (hdr_enc ..) rfl

theorem resid_enc {n : Nat} {k : Hdr → Opnd → Opnd → BitVec 20 → Instr} (hi : imm.toNat < 2 ^ n)
    (hw : (a.scaInl && b.scaInl) = true) :
    resid { enc h op 0 0 with a := a.code, b := b.code, imm := imm } n k = .ok (k h a b imm) := by
  simp only [Bool.and_eq_true] at hw
  exact bind_ok rfl <| bind_ok rfl <| bind_ok (fld_code _ a _ hw.1) <| bind_ok (fld_code _ b _ hw.2) <|
    bind_ok (immTop_of_lt hi) <| bind_ok (hdr_enc ..) rfl

theorem coll_enc {n : Nat} {k : Hdr → Ty → Opnd → Opnd → BitVec 20 → Instr} (hi : imm.toNat < 2 ^ n)
    (hw : (decide (t = .f32 ∨ t = .bf16) && a.scaPair && b.scaInl) = true) :
    coll { enc h op v t.code with a := a.code, b := b.code, imm := imm } n k = .ok (k h t a b imm) := by
  simp only [Bool.and_eq_true, decide_eq_true_eq] at hw
  obtain ⟨⟨ht, ha⟩, hb⟩ := hw
  exact bind_ok (tyIn_of rfl (by rcases ht with rfl | rfl <;> rfl)) <| bind_ok rfl <| bind_ok rfl <|
    bind_ok (fld_code _ a _ ha) <| bind_ok (fld_code _ b _ hb) <| bind_ok (immTop_of_lt hi) <| bind_ok (hdr_enc ..) rfl

theorem exmW_enc {k : Hdr → Opnd → Instr} (hw : a.scaPairInl = true) :
    exmW { enc h op v 0 with a := a.code } k = .ok (k h a) :=
  bind_ok rfl <| bind_ok rfl <| bind_ok (fld_code _ a _ hw) <| bind_ok rfl <| bind_ok rfl <| bind_ok (hdr_enc ..) rfl

/-- The predicate field that may be absent. -/
def optPred : Option (BitVec 3) → BitVec 10
  | some p => pF p
  | none => 0

theorem optPred_bind {β : Type} (q : Option (BitVec 3)) (k : Option (BitVec 3) → Dec β) :
    (if optPred q = 0 then Except.ok none >>= k else (pred .d (optPred q)).map some >>= k) = k q := by
  cases q with
  | none => rfl
  | some p =>
    have hp : pF p ≠ 0 := by revert p; decide
    rw [optPred, if_neg hp, pred_pF]
    rfl

theorem waitc_enc {q : Option (BitVec 3)} {n : BitVec 2} {k : Hdr → Option (BitVec 3) → Opnd → Opnd → BitVec 2 → Instr}
    (hw : (condBlk a n && b.scaInl) = true) :
    waitc { enc h op v 0 with d := optPred q, a := a.code, b := b.code, imm := n.setWidth 20 } k = .ok (k h q a b n) := by
  simp only [Bool.and_eq_true] at hw
  have hn := setWidth_setWidth_imm n (by decide)
  refine bind_ok rfl <| (optPred_bind q _).trans <| bind_ok (fld_code _ a _ ?_) <| bind_ok (fld_code _ b _ hw.2) <|
    bind_ok (immTop_of_lt (imm_lt n)) <| bind_ok (hdr_enc ..) ?_
  · exact (congrArg (condBlk a) hn).trans hw.1
  · rw [hn]

end

end Sys2Proof
end

section
/-! PROOFS. Instruction by instruction, the fields that the encoder writes decode to the instruction (R58 and the
entries): by its mould or, where it shares none, check by check in the decoder's order. A check of a field that the
encoder leaves at its one legal value passes by `rfl`. -/

namespace Sys2Proof
open Fields

/-- The instruction's fields, where it has a word, decode to it. -/
def Instr.ReadsBack (cx : DecCtx) (i : Instr) : Prop :=
  match i.fields with
  | some f => decodeFields cx f = .ok i
  | none => True

namespace Instr

section
variable {cx : DecCtx} {h : Hdr} {t : Ty} {d a b c : Opnd} {r : RndSel} {g : GearSel}

/-! ### Control, tokens and barriers (05, 06, 11, 12) -/

theorem readsBack_dly {n : BitVec 19} : (dly h n).ReadsBack cx := by
  refine bind_ok rfl <| bind_ok rfl <| bind_ok rfl <| bind_ok rfl <| bind_ok (immTop_of_lt (imm_lt n)) <|
    bind_ok (hdr_enc ..) ?_
  rw [setWidth_setWidth_imm n (by decide)]

theorem readsBack_brx (hw : (brx h a).wf cx = true) : (brx h a).ReadsBack cx :=
  bind_ok rfl <| bind_ok rfl <| bind_ok (fld_code _ a _ hw) <| bind_ok rfl <| bind_ok rfl <| bind_ok (hdr_enc ..) rfl

theorem readsBack_calx (hw : (calx h a).wf cx = true) : (calx h a).ReadsBack cx :=
  bind_ok rfl <| bind_ok rfl <| bind_ok (fld_code _ a _ hw) <| bind_ok rfl <| bind_ok rfl <| bind_ok (hdr_enc ..) rfl

theorem readsBack_rjoinTo {p : BitVec 3} (hw : (rjoinTo h p a).wf cx = true) : (rjoinTo h p a).ReadsBack cx :=
  bind_ok rfl <| bind_ok rfl <| bind_ok (pred_pF ..) <| bind_ok (fld_code _ a _ hw) <| bind_ok rfl <| bind_ok rfl <|
    bind_ok (hdr_enc ..) rfl

theorem readsBack_exmRd {w : BitVec 8} (hw : (exmRd h d w).wf cx = true) : (exmRd h d w).ReadsBack cx := by
  have hw := Bool.and_eq_true_iff.mp hw
  exact bind_ok rfl <| bind_ok rfl <| bind_ok (fld_code _ d _ hw.1) <| bind_ok (inl_code _ w _ hw.2) <| bind_ok rfl <|
    bind_ok rfl <| bind_ok (hdr_enc ..) rfl

theorem readsBack_yield {n : BitVec 2} {x : BitVec 20} (hw : (yield h a n x).wf cx = true) :
    (yield h a n x).ReadsBack cx := by
  have hn : ∀ n : BitVec 2, ((Opnd.code (.i (n.setWidth 8 + 1))).setWidth 8 - 1#8).setWidth 2 = n ∧
      0x201 ≤ Opnd.code (.i (n.setWidth 8 + 1)) ∧ Opnd.code (.i (n.setWidth 8 + 1)) ≤ 0x204 := by decide
  obtain ⟨hs, hr⟩ := hn n
  refine bind_ok rfl <| bind_ok rfl <| bind_ok (fld_code _ a _ ?_) <| bind_ok (need_of (decide_eq_true hr)) <|
    bind_ok (hdr_enc ..) (by rw [hs])
  exact ((if_pos hr).trans hs).symm ▸ hw

theorem readsBack_krd {k : BitVec 5} (hw : (krd h d k b).wf cx = true) : (krd h d k b).ReadsBack cx := by
  have hw := Bool.and_eq_true_iff.mp hw
  exact bind_ok rfl <| bind_ok (fld_code _ d _ hw.1) <| bind_ok (tok_kF ..) <| bind_ok (fld_code _ b _ hw.2) <|
    bind_ok rfl <| bind_ok (hdr_enc ..) rfl

theorem readsBack_barInit (hw : (barInit h a b).wf cx = true) : (barInit h a b).ReadsBack cx := by
  have hw := Bool.and_eq_true_iff.mp hw
  exact bind_ok rfl <| bind_ok rfl <| bind_ok (fld_code _ a _ hw.1) <| bind_ok (fld_code _ b _ hw.2) <| bind_ok rfl <|
    bind_ok (hdr_enc ..) rfl

theorem readsBack_barExp (hw : (barExp h a b).wf cx = true) : (barExp h a b).ReadsBack cx := by
  have hw := Bool.and_eq_true_iff.mp hw
  exact bind_ok rfl <| bind_ok rfl <| bind_ok (fld_code _ a _ hw.1) <| bind_ok (fld_code _ b _ hw.2) <| bind_ok rfl <|
    bind_ok (hdr_enc ..) rfl

theorem readsBack_barRd {w : BitVec 8} (hw : (barRd h d a w).wf cx = true) : (barRd h d a w).ReadsBack cx := by
  obtain ⟨hd, ha, hs⟩ := of_and3 hw
  exact bind_ok rfl <| bind_ok (fld_code _ d _ hd) <| bind_ok (fld_code _ a _ ha) <| bind_ok (inl_code _ w _ hs) <|
    bind_ok rfl <| bind_ok (hdr_enc ..) rfl

theorem readsBack_tlRd {w : BitVec 8} (hw : (tlRd h d a w).wf cx = true) : (tlRd h d a w).ReadsBack cx := by
  obtain ⟨hd, ha, hs⟩ := of_and3 hw
  exact bind_ok rfl <| bind_ok (fld_code _ d _ hd) <| bind_ok (fld_code _ a _ ha) <| bind_ok (inl_code _ w _ hs) <|
    bind_ok rfl <| bind_ok (hdr_enc ..) rfl

theorem readsBack_barArv {s : Scope} {w : Bool} (hw : (barArv h s a w).wf cx = true) : (barArv h s a w).ReadsBack cx := by
  obtain ⟨hs, ha⟩ := Bool.and_eq_true_iff.mp hw
  have hv : 1 ≤ (BitVec.ofNat 4 s.code).toNat ∧ (BitVec.ofNat 4 s.code).toNat ≤ 4 := by
    cases s with
    | team | sys => exact absurd hs Bool.false_ne_true
    | grp | clu | stk | dev => decide
  refine bind_ok (need_of (decide_eq_true hv)) <| bind_ok (want_some s.ofCode_var) ?_
  simp only [Opnd.ofCode_code]
  refine (if_pos rfl).trans <| bind_ok (need_of hs) <| bind_ok rfl <| bind_ok rfl <| bind_ok (fld_code _ a _ ha) <|
    bind_ok rfl <| bind_ok (immTop_of_lt (immBit_zero_lt w)) <| bind_ok (hdr_enc ..) ?_
  rw [getLsbD_immBit_zero]

theorem readsBack_tlSig {s : Scope} {ad : Bool} (hw : (tlSig h s a b ad).wf cx = true) :
    (tlSig h s a b ad).ReadsBack cx := by
  obtain ⟨ha, hb⟩ := Bool.and_eq_true_iff.mp hw
  refine bind_ok (want_some s.ofCode_var) <| bind_ok rfl <| bind_ok rfl <| bind_ok (fld_code _ a _ ha) <|
    bind_ok (fld_code _ b _ hb) <| bind_ok (immTop_of_lt (immBit_zero_lt ad)) <| bind_ok (hdr_enc ..) ?_
  rw [getLsbD_immBit_zero]

theorem readsBack_fence {s : Scope} {o : Ord} (hw : (fence h s o).wf cx = true) : (fence h s o).ReadsBack cx := by
  have ho : o ≠ .relaxed := of_decide_eq_true hw
  obtain ⟨hi, hlt, hc⟩ : (BitVec.ofNat 20 o.code).toNat % 4 ≠ 0 ∧ (BitVec.ofNat 20 o.code).toNat < 2 ^ 2 ∧
      Ord.ofCode (BitVec.ofNat 20 o.code).toNat = o := by
    cases o with
    | relaxed => exact absurd rfl ho
    | acq | rel | ar => decide
  refine bind_ok (want_some s.ofCode_var) <| bind_ok rfl <| bind_ok rfl <| bind_ok rfl <| bind_ok rfl <|
    bind_ok (need_of (decide_eq_true hi)) <| bind_ok (immTop_of_lt hlt) <| bind_ok (hdr_enc ..) ?_
  rw [hc]

/-! ### Integers, bits and moves (07) -/

theorem readsBack_setp {c : Cmp} {p : BitVec 3} (hw : (setp h t c p a b).wf cx = true) :
    (setp h t c p a b).ReadsBack cx := by
  obtain ⟨ht, ha, hb⟩ := of_and3 hw
  exact bind_ok (want_some c.ofCode_var) <| bind_ok (tyIn_of rfl ht) <| bind_ok rfl <| bind_ok (pred_pF ..) <|
    bind_ok (fld_code _ a _ ha) <| bind_ok (fld_code _ b _ hb) <| bind_ok rfl <| bind_ok (hdr_enc ..) rfl

theorem readsBack_sel {p : BitVec 3} (hw : (sel h t d a b p).wf cx = true) : (sel h t d a b p).ReadsBack cx := by
  obtain ⟨ht, hs, hf⟩ := of_and3 hw
  obtain ⟨hd, ha, hua, hb, hub⟩ := of_and5 hf
  exact bind_ok rfl <| bind_ok (tyIn_of rfl ht) <| bind_ok rfl <| bind_ok (fld_code _ d _ hd) <| bind_ok (fld_uni ha hua) <|
    bind_ok (fld_uni hb hub) <|
    bind_ok ((congrArg (pred .imm) (setWidth_setWidth_imm (pF p) (by decide))).trans (pred_pF ..)) <|
    bind_ok (immTop_of_lt (imm_lt (pF p))) <| bind_ok (need_of hs) <| bind_ok (hdr_enc ..) rfl

theorem readsBack_movi {x : BitVec 20} (hw : (movi h t d x).wf cx = true) : (movi h t d x).ReadsBack cx := by
  obtain ⟨ht, hd⟩ := Bool.and_eq_true_iff.mp hw
  exact bind_ok rfl <| bind_ok (tyIn_of rfl ht) <| bind_ok rfl <| bind_ok (fld_code _ d _ hd) <| bind_ok rfl <|
    bind_ok rfl <| bind_ok (hdr_enc ..) rfl

theorem readsBack_movh {x : BitVec 16} (hw : (movh h d x).wf cx = true) : (movh h d x).ReadsBack cx := by
  refine bind_ok rfl <| bind_ok (tyIn_of (t := .n32) rfl rfl) <| bind_ok rfl <| bind_ok (fld_code _ d _ hw) <|
    bind_ok rfl <| bind_ok rfl <| bind_ok (immTop_of_lt (imm_lt x)) <| bind_ok (hdr_enc ..) ?_
  rw [setWidth_setWidth_imm x (by decide)]

theorem readsBack_lea {sh : BitVec 2} (hw : (lea h sh d a b).wf cx = true) : (lea h sh d a b).ReadsBack cx := by
  obtain ⟨hd, ha, hua, hb, hub⟩ := of_and5 hw
  have hv : ∀ sh : BitVec 2, (BitVec.ofNat 4 sh.toNat).toNat < 4 ∧ (BitVec.ofNat 4 sh.toNat).setWidth 2 = sh := by decide
  refine bind_ok (need_of (decide_eq_true (hv sh).1)) <| bind_ok (tyIn_of (t := .n64) rfl rfl) <| bind_ok rfl <|
    bind_ok (fld_code _ d _ hd) <| bind_ok (fld_uni ha hua) <| bind_ok (fld_uni hb hub) <| bind_ok rfl <|
    bind_ok (hdr_enc ..) ?_
  exact congrArg (fun sh => Except.ok (lea h sh d a b)) (hv sh).2

/-! ### Floating point and conversions (07) -/

theorem readsBack_fmul (hw : (fmul h t r g d a b).wf cx = true) : (fmul h t r g d a b).ReadsBack cx := by
  obtain ⟨ht, hf⟩ := Bool.and_eq_true_iff.mp hw
  obtain ⟨hd, ha, hua, hb, hub⟩ := of_and5 hf
  exact bind_ok rfl <| bind_ok (tyIn_of rfl ht) <| bind_ok (rndGear_of rfl rfl) <| bind_ok (fld_code _ d _ hd) <|
    bind_ok (fld_uni ha hua) <| bind_ok (fld_uni hb hub) <| bind_ok rfl <| bind_ok (hdr_enc ..) rfl

theorem readsBack_ffma (hw : (ffma h t r g d a b c).wf cx = true) : (ffma h t r g d a b c).ReadsBack cx := by
  obtain ⟨ht, hf, hc, huc⟩ := of_and4 hw
  obtain ⟨hd, ha, hua, hb, hub⟩ := of_and5 hf
  exact bind_ok rfl <| bind_ok (tyIn_of rfl ht) <| bind_ok (rndGear_of rfl rfl) <| bind_ok (fld_code _ d _ hd) <|
    bind_ok (fld_uni ha hua) <| bind_ok (fld_uni hb hub) <| bind_ok (c4_uni rfl hc huc) <| bind_ok (hdr_enc ..) rfl

theorem readsBack_fsetp {c : FCmp} {p : BitVec 3} (hw : (fsetp h t c p a b).wf cx = true) :
    (fsetp h t c p a b).ReadsBack cx := by
  obtain ⟨ht, ha, hb⟩ := of_and3 hw
  exact bind_ok (want_some c.ofCode_var) <| bind_ok (tyIn_of rfl ht) <| bind_ok rfl <| bind_ok (pred_pF ..) <|
    bind_ok (fld_code _ a _ ha) <| bind_ok (fld_code _ b _ hb) <| bind_ok rfl <| bind_ok (hdr_enc ..) rfl

theorem readsBack_fdot4 (hw : (fdot4 h t r g d a b c).wf cx = true) : (fdot4 h t r g d a b c).ReadsBack cx := by
  obtain ⟨ht, hf, hc, huc⟩ := of_and4 hw
  have ht : t = .e4m3 ∨ t = .e5m2 := of_decide_eq_true ht
  refine bind_ok rfl (dot_enc ?_)
  rw [hf, hc, huc]
  rcases ht with rfl | rfl <;> rfl

theorem readsBack_cvt {s : Ty} (hw : (cvt h t s r d a).wf cx = true) : (cvt h t s r d a).ReadsBack cx := by
  obtain ⟨hts, hd, ha, hu⟩ := of_and4 hw
  exact bind_ok (want_some (a := s) (by cases s <;> rfl)) <| bind_ok (varTy_of rfl hts) <| bind_ok (tyIn_of rfl rfl) <|
    bind_ok (rndG0_of rfl rfl) <| bind_ok (fld_code _ d _ hd) <| bind_ok (fld_uni ha hu) <| bind_ok rfl <| bind_ok rfl <|
    bind_ok (hdr_enc ..) rfl

/-- A slot number in VAR reads back. -/
theorem var_slot (q : BitVec 3) : (BitVec.ofNat 4 q.toNat).toNat = q.toNat ∧ (BitVec.ofNat 4 q.toNat).setWidth 3 = q := by
  revert q
  decide

theorem readsBack_pack {q : BitVec 3} (hw : (pack h t q d a).wf cx = true) : (pack h t q d a).ReadsBack cx := by
  obtain ⟨hp, hq, hd, ha, hu⟩ := of_and5 hw
  obtain ⟨hv, hs⟩ := var_slot q
  have hlt := hv.trans_lt (of_decide_eq_true hq)
  refine bind_ok (need_of (decide_eq_true (hv.trans_lt q.isLt))) <|
    bind_ok (varTy_of rfl (decide_eq_true hlt)) <| (un_enc ?_).trans ?_
  · rw [hp, hd, ha, hu]; rfl
  · exact congrArg (fun q => Except.ok (pack h t q d a)) hs

theorem readsBack_unpack {q : BitVec 3} (hw : (unpack h t q d a).wf cx = true) : (unpack h t q d a).ReadsBack cx := by
  obtain ⟨hp, hq, hd, ha, hu⟩ := of_and5 hw
  obtain ⟨hv, hs⟩ := var_slot q
  have hlt := hv.trans_lt (of_decide_eq_true hq)
  refine bind_ok (need_of (decide_eq_true (hv.trans_lt q.isLt))) <|
    bind_ok (varTy_of rfl (decide_eq_true hlt)) <| (un_enc ?_).trans ?_
  · rw [hp, hd, ha, hu]; rfl
  · exact congrArg (fun q => Except.ok (unpack h t q d a)) hs

/-! ### Lanes and bounds (06, 08) -/

theorem readsBack_shfl {m : ShflMode} (hw : (shfl h t m d a b).wf cx = true) : (shfl h t m d a b).ReadsBack cx := by
  obtain ⟨ht, hd, ha, hb⟩ := of_and4 hw
  cases m <;>
  exact bind_ok rfl <| bind_ok (tyIn_of rfl ht) <| bind_ok rfl <| bind_ok (fld_code _ d _ hd) <|
    bind_ok (fld_code _ a _ ha) <| bind_ok (fld_code _ b _ hb) <| bind_ok rfl <| bind_ok (hdr_enc ..) rfl

theorem readsBack_vote {m : VoteMode} {p : BitVec 3} (hw : (vote h m d p).wf cx = true) : (vote h m d p).ReadsBack cx := by
  cases m <;>
  exact bind_ok rfl <| bind_ok rfl <| bind_ok (fld_code _ d _ hw) <| bind_ok (pred_pF ..) <| bind_ok rfl <| bind_ok rfl <|
    bind_ok (hdr_enc ..) rfl

theorem redOk_spec {o : RedOp} (h : redOk t o r = true) : (t.isInt || t == .f32) = true ∧
    (!(t == .f32 && decide (3 ≤ o.code))) = true ∧ ((t == .f32 && o.code == 0) || decide (r = .dflt)) = true := by
  by_cases ht : t = .f32
  · subst ht
    cases o <;> simp_all [redOk, RedOp.code, Ty.isInt]
  · cases o <;> simp_all [redOk, RedOp.code]

theorem readsBack_wred {o : RedOp} (hw : (wred h t o r d a).wf cx = true) : (wred h t o r d a).ReadsBack cx := by
  obtain ⟨ho, hd, ha⟩ := of_and3 hw
  obtain ⟨ht, hv, hr⟩ := redOk_spec ho
  cases o <;>
  exact bind_ok rfl <| bind_ok (varTy_of rfl hv) <| bind_ok (tyIn_of rfl ht) <| bind_ok (rndIf_of rfl rfl hr) <|
    bind_ok (fld_code _ d _ hd) <| bind_ok (fld_code _ a _ ha) <| bind_ok rfl <| bind_ok rfl <| bind_ok (hdr_enc ..) rfl

theorem readsBack_wscan {o : RedOp} {ex : Bool} (hw : (wscan h t o ex r d a).wf cx = true) :
    (wscan h t o ex r d a).ReadsBack cx := by
  obtain ⟨ho, hd, ha⟩ := of_and3 hw
  obtain ⟨ht, hv, hr⟩ := redOk_spec ho
  obtain ⟨hm, he⟩ : (BitVec.ofNat 4 (o.code + 8 * bitOf ex)).toNat % 8 = o.code ∧
      decide (8 ≤ (BitVec.ofNat 4 (o.code + 8 * bitOf ex)).toNat) = ex := by
    cases o <;> cases ex <;> decide
  refine bind_ok (want_some ((congrArg RedOp.ofCode hm).trans o.ofCode_code)) <| bind_ok (varTy_of rfl (hm.symm ▸ hv)) <|
    bind_ok (tyIn_of rfl ht) <| bind_ok (rndIf_of rfl rfl (hm.symm ▸ hr)) <| bind_ok (fld_code _ d _ hd) <|
    bind_ok (fld_code _ a _ ha) <| bind_ok rfl <| bind_ok rfl <| bind_ok (hdr_enc ..) ?_
  exact congrArg (fun ex => Except.ok (wscan h t o ex r d a)) he

theorem readsBack_rdlane (hw : (rdlane h t d a b).wf cx = true) : (rdlane h t d a b).ReadsBack cx := by
  obtain ⟨ht, hd, ha, hb⟩ := of_and4 hw
  exact bind_ok rfl <| bind_ok (tyIn_of rfl ht) <| bind_ok rfl <| bind_ok (fld_code _ d _ hd) <|
    bind_ok (fld_code _ a _ ha) <| bind_ok (fld_code _ b _ hb) <| bind_ok rfl <| bind_ok (hdr_enc ..) rfl

theorem readsBack_wrlane (hw : (wrlane h t d a b).wf cx = true) : (wrlane h t d a b).ReadsBack cx := by
  obtain ⟨ht, hd, ha, hb⟩ := of_and4 hw
  exact bind_ok rfl <| bind_ok (tyIn_of rfl ht) <| bind_ok rfl <| bind_ok (fld_code _ d _ hd) <|
    bind_ok (fld_code _ a _ ha) <| bind_ok (fld_code _ b _ hb) <| bind_ok rfl <| bind_ok (hdr_enc ..) rfl

theorem readsBack_matchL {al : Bool} (hw : (matchL h t al d a).wf cx = true) : (matchL h t al d a).ReadsBack cx := by
  obtain ⟨ht, hd, ha⟩ := of_and3 hw
  cases al <;>
  exact bind_ok rfl <| bind_ok (tyIn_of rfl ht) <| bind_ok rfl <| bind_ok (fld_code _ d _ hd) <|
    bind_ok (fld_code _ a _ ha) <| bind_ok rfl <| bind_ok rfl <| bind_ok (hdr_enc ..) rfl

theorem readsBack_plop {p q u w : BitVec 3} {tt : BitVec 8} : (plop h p q u w tt).ReadsBack cx := by
  have hs : tt.setWidth 20 <<< 10 = BitVec.ofNat 20 (tt.toNat * 2 ^ 10) := by
    apply BitVec.eq_of_toNat_eq
    simp only [BitVec.toNat_shiftLeft, BitVec.toNat_setWidth, BitVec.toNat_ofNat, Nat.shiftLeft_eq]
    have := tt.isLt
    omega
  have hi : ((pF w).setWidth 20 ||| (tt.setWidth 20 <<< 10)).toNat = 2 ^ 10 * tt.toNat + (pF w).toNat := by
    rw [hs]
    exact toNat_imm_or (pF w) (by have := tt.isLt; have := (pF w).isLt; omega)
  have hlt : ((pF w).setWidth 20 ||| (tt.setWidth 20 <<< 10)).toNat < 2 ^ 18 := by
    have := tt.isLt
    have := (pF w).isLt
    omega
  have ht : (((pF w).setWidth 20 ||| (tt.setWidth 20 <<< 10)) >>> 10).setWidth 8 = tt := by
    apply BitVec.eq_of_toNat_eq
    have := tt.isLt
    have := (pF w).isLt
    rw [BitVec.toNat_setWidth, BitVec.toNat_ushiftRight, Nat.shiftRight_eq_div_pow, hi]
    omega
  refine bind_ok rfl <| bind_ok (pred_pF ..) <| bind_ok (pred_pF ..) <| bind_ok (pred_pF ..) <|
    bind_ok ((congrArg (pred .imm) (setWidth_imm hi)).trans (pred_pF ..)) <| bind_ok (immTop_of_lt hlt) <|
    bind_ok (hdr_enc ..) ?_
  rw [ht]

theorem readsBack_bget (hw : (bget h d a).wf cx = true) : (bget h d a).ReadsBack cx := by
  obtain ⟨hd, ha, hu⟩ := of_and3 hw
  exact bind_ok rfl <| bind_ok (fld_code _ d _ hd) <| bind_ok (fld_uni ha hu) <| bind_ok rfl <| bind_ok rfl <|
    bind_ok (hdr_enc ..) rfl

theorem readsBack_bset {sa : Bool} (hw : (bset h sa d a).wf cx = true) : (bset h sa d a).ReadsBack cx := by
  obtain ⟨hd, ha, hu⟩ := of_and3 hw
  cases sa <;>
  exact bind_ok rfl <| bind_ok rfl <| bind_ok (fld_code _ d _ hd) <| bind_ok (fld_uni ha hu) <| bind_ok rfl <| bind_ok rfl <|
    bind_ok (hdr_enc ..) rfl

theorem readsBack_bchk (hw : (bchk h t a).wf cx = true) : (bchk h t a).ReadsBack cx := by
  obtain ⟨ht, ha⟩ := Bool.and_eq_true_iff.mp hw
  exact bind_ok rfl <| bind_ok (tyIn_of rfl ht) <| bind_ok rfl <| bind_ok rfl <|
    bind_ok (fld_code _ a _ ha) <| bind_ok rfl <| bind_ok rfl <| bind_ok (hdr_enc ..) rfl

theorem readsBack_budgSet (hw : (budgSet h a).wf cx = true) : (budgSet h a).ReadsBack cx :=
  bind_ok rfl <| bind_ok rfl <| bind_ok rfl <| bind_ok (fld_code _ a _ hw) <| bind_ok rfl <| bind_ok rfl <|
    bind_ok (hdr_enc ..) rfl

theorem readsBack_budgRd (hw : (budgRd h d).wf cx = true) : (budgRd h d).ReadsBack cx :=
  bind_ok rfl <| bind_ok rfl <| bind_ok (fld_code _ d _ hw) <| bind_ok rfl <| bind_ok rfl <| bind_ok rfl <|
    bind_ok (hdr_enc ..) rfl

theorem readsBack_taskX {re : Bool} : (taskX h re).ReadsBack cx := by
  refine bind_ok rfl <| bind_ok rfl <| bind_ok rfl <| bind_ok rfl <| bind_ok (immTop_of_lt (immBit_zero_lt re)) <|
    bind_ok (hdr_enc ..) ?_
  rw [getLsbD_immBit_zero]

/-! ### Memory and atomics (10, 11) -/

theorem readsBack_ldp {x : BitVec 20} (hw : (ldp h t d a b x).wf cx = true) : (ldp h t d a b x).ReadsBack cx := by
  obtain ⟨ht, hf⟩ := Bool.and_eq_true_iff.mp hw
  obtain ⟨hd, ha, hua, hb, hub⟩ := of_and5 hf
  exact bind_ok rfl <| bind_ok (tyIn_of rfl ht) <| bind_ok rfl <| bind_ok (fld_code _ d _ hd) <| bind_ok (fld_uni ha hua) <|
    bind_ok (fld_uni hb hub) <| bind_ok (hdr_enc ..) rfl

theorem readsBack_stm {n : Cnt} {x : BitVec 20} (hw : (stm h n d a b x).wf cx = true) : (stm h n d a b x).ReadsBack cx := by
  obtain ⟨hd, ha, hua, hb, hub⟩ := of_and5 hw
  exact bind_ok (want_some n.ofCode_var) <| bind_ok (tyIn_of (t := .n32) rfl rfl) <| bind_ok rfl <|
    bind_ok (fld_code _ d _ hd) <| bind_ok (fld_uni ha hua) <| bind_ok (fld_uni hb hub) <| bind_ok (hdr_enc ..) rfl

theorem readsBack_stc {x : BitVec 20} (hw : (stc h t d a b x).wf cx = true) : (stc h t d a b x).ReadsBack cx := by
  obtain ⟨ht, hd, ha, hua, hb⟩ := of_and5 hw
  have ht : t = .f16 ∨ t = .bf16 ∨ t = .f32 := of_decide_eq_true ht
  exact bind_ok rfl <| bind_ok (tyIn_of rfl (by rcases ht with rfl | rfl | rfl <;> rfl)) <| bind_ok rfl <|
    bind_ok (fld_code _ d _ hd) <| bind_ok (fld_uni ha hua) <| bind_ok (fld_code _ b _ hb) <| bind_ok (hdr_enc ..) rfl

theorem readsBack_cinvAll : (cinvAll h).ReadsBack cx :=
  bind_ok rfl <| bind_ok rfl <| bind_ok rfl <| bind_ok rfl <| bind_ok rfl <| bind_ok rfl <| bind_ok (hdr_enc ..) rfl

theorem readsBack_cwbAll : (cwbAll h).ReadsBack cx :=
  bind_ok rfl <| bind_ok rfl <| bind_ok rfl <| bind_ok rfl <| bind_ok rfl <| bind_ok rfl <| bind_ok (hdr_enc ..) rfl

theorem atOk_spec {o : AtOp} (h : atOk t o = true) : (t.isInt || t.isF3264) = true := by
  cases o <;> simp_all [atOk]

theorem atRndOk_spec {o : AtOp} (h : atRndOk o r = true) : (decide (o = .fadd) || decide (r = .dflt)) = true := by
  cases o <;> simp_all [atRndOk]

/-- IMM of `atom`: C, the scope and the order. -/
def atomImm (c : Opnd) (s : Scope) (o : Ord) : BitVec 20 :=
  c.code.setWidth 20 ||| BitVec.ofNat 20 (s.code * 2 ^ 10 + o.code * 2 ^ 13)

theorem atomImm_spec (c : Opnd) (s : Scope) (o : Ord) : (atomImm c s o).setWidth 10 = c.code ∧
    Scope.ofCode (bitsOf (atomImm c s o).toNat 10 3) = some s ∧ Ord.ofCode (bitsOf (atomImm c s o).toNat 13 2) = o ∧
    (atomImm c s o).toNat < 2 ^ 15 := by
  have hs : s.code < 6 := by cases s <;> decide
  have ho : o.code < 4 := by cases o <;> decide
  have hc := c.code.isLt
  have hi : (atomImm c s o).toNat = 2 ^ 10 * (s.code + 8 * o.code) + c.code.toNat := by
    rw [atomImm, show s.code * 2 ^ 10 + o.code * 2 ^ 13 = (s.code + 8 * o.code) * 2 ^ 10 by omega]
    exact toNat_imm_or c.code (by omega)
  refine ⟨setWidth_imm hi, ?_, ?_, by omega⟩
  · rw [show bitsOf (atomImm c s o).toNat 10 3 = s.code by simp only [bitsOf]; omega]
    cases s <;> rfl
  · rw [show bitsOf (atomImm c s o).toNat 13 2 = o.code by simp only [bitsOf]; omega]
    cases o <;> rfl

theorem readsBack_atom {o : AtOp} {s : Scope} {od : Ord} (hw : (atom h t o r s od d a b c).wf cx = true) :
    (atom h t o r s od d a b c).ReadsBack cx := by
  obtain ⟨hat, hr, hf, hc⟩ := of_and4 hw
  obtain ⟨hd, ha, hua, hb, hub⟩ := of_and5 hf
  obtain ⟨hi, hs, hod, hlt⟩ := atomImm_spec c s od
  refine bind_ok (want_some o.ofCode_var) <| bind_ok (varTy_of rfl hat) <| bind_ok (tyIn_of rfl (atOk_spec hat)) <|
    bind_ok (rndIf_of rfl rfl (atRndOk_spec hr)) <| bind_ok (fld_code _ d _ hd) <| bind_ok (fld_uni ha hua) <|
    bind_ok (fld_uni hb hub) <| bind_ok ((congrArg (fld .imm · _) hi).trans (fld_code _ c _ ?_)) <|
    bind_ok (want_some hs) <| bind_ok (immTop_of_lt hlt) <| bind_ok (hdr_enc ..) ?_
  · split at hc
    next ho => exact (if_pos ho).trans hc
    next ho => exact (if_neg ho).trans hc
  · exact congrArg (fun od => Except.ok (atom h t o r s od d a b c)) hod

theorem readsBack_red {o : AtOp} {s : Scope} {rl : Bool} (hw : (red h t o r s rl a b).wf cx = true) :
    (red h t o r s rl a b).ReadsBack cx := by
  obtain ⟨hf, ha, hb⟩ := of_and3 hw
  obtain ⟨hat, hx, hc, hr⟩ := of_and4 hf
  have hi : ∀ m, m = BitVec.ofNat 20 (s.code * 2 ^ 10 + bitOf rl * 2 ^ 14) → bitsOf m.toNat 0 10 = 0 ∧
      Scope.ofCode (bitsOf m.toNat 10 3) = some s ∧ bitsOf m.toNat 13 1 = 0 ∧ m.toNat < 2 ^ 15 ∧ m.getLsbD 14 = rl := by
    rintro _ rfl
    cases s <;> cases rl <;> decide
  obtain ⟨h0, hs, h13, hlt, hrl⟩ := hi _ rfl
  refine bind_ok (want_some o.ofCode_var) <|
    bind_ok (need_of (decide_eq_true ⟨of_decide_eq_true hx, of_decide_eq_true hc⟩)) <| bind_ok (varTy_of rfl hat) <|
    bind_ok (tyIn_of rfl (atOk_spec hat)) <| bind_ok (rndIf_of rfl rfl (atRndOk_spec hr)) <| bind_ok rfl <|
    bind_ok (fld_code _ a _ ha) <| bind_ok (fld_code _ b _ hb) <| bind_ok (need_of (decide_eq_true h0)) <|
    bind_ok (want_some hs) <| bind_ok (need_of (decide_eq_true h13)) <| bind_ok (immTop_of_lt hlt) <|
    bind_ok (hdr_enc ..) ?_
  exact congrArg (fun rl => Except.ok (red h t o r s rl a b)) hrl

/-! ### Copies and the matrix unit (12, 09) -/

theorem readsBack_cpl {z : CplZ} {x : BitVec 20} (hw : (cpl h z d a x).wf cx = true) : (cpl h z d a x).ReadsBack cx := by
  obtain ⟨hd, ha, ho⟩ := of_and3 hw
  cases z <;>
  exact bind_ok rfl <| bind_ok rfl <| bind_ok (fld_code _ d _ hd) <| bind_ok (fld_code _ a _ ha) <| bind_ok rfl <|
    bind_ok (need_of ho) <| bind_ok (hdr_enc ..) rfl

theorem readsBack_dcz (hw : (dcz h d a).wf cx = true) : (dcz h d a).ReadsBack cx := by
  obtain ⟨hd, ha⟩ := Bool.and_eq_true_iff.mp hw
  exact bind_ok rfl <| bind_ok (fld_code _ d _ hd) <| bind_ok (fld_code _ a _ ha) <| bind_ok rfl <| bind_ok rfl <|
    bind_ok (hdr_enc ..) rfl

theorem readsBack_mtd {n : BitVec 4} (hw : (mtd h n a b).wf cx = true) : (mtd h n a b).ReadsBack cx := by
  obtain ⟨ha, hb⟩ := Bool.and_eq_true_iff.mp hw
  exact bind_ok rfl <| bind_ok (tdF_tdC ..) <| bind_ok (fld_code _ a _ ha) <| bind_ok (fld_code _ b _ hb) <| bind_ok rfl <|
    bind_ok (hdr_enc ..) rfl

theorem readsBack_msd {n : BitVec 4} {en : Bool} (hw : (msd h n a en).wf cx = true) : (msd h n a en).ReadsBack cx := by
  refine bind_ok rfl <| bind_ok (tdF_tdC ..) <| bind_ok (fld_code _ a _ hw) <| bind_ok rfl <|
    bind_ok (immTop_of_lt (immBit_zero_lt en)) <| bind_ok (hdr_enc ..) ?_
  rw [getLsbD_immBit_zero]

theorem readsBack_mma {n : BitVec 4} {u w : MOp} {tA tB : BitVec 2} (hw : (mma h t g n u w tA tB).wf cx = true) :
    (mma h t g n u w tA tB).ReadsBack cx := by
  obtain ⟨ht, hu, hv⟩ := of_and3 hw
  have hi : ∀ tA tB : BitVec 2, (BitVec.ofNat 20 (tA.toNat + 4 * tB.toNat)).setWidth 2 = tA ∧
      (BitVec.ofNat 20 (tA.toNat + 4 * tB.toNat) >>> 2).setWidth 2 = tB ∧
      (BitVec.ofNat 20 (tA.toNat + 4 * tB.toNat)).toNat < 2 ^ 4 := by decide
  obtain ⟨hA, hB, hlt⟩ := hi tA tB
  refine bind_ok rfl <| bind_ok (tyIn_of rfl ht) <| bind_ok rfl <| bind_ok (want_some g.ofCode_code) <|
    bind_ok (tileF_aC ..) <| bind_ok (mop_code ..) <| bind_ok (mop_code ..) <| bind_ok (need_of ?_) <| bind_ok (need_of ?_) <|
    bind_ok (immTop_of_lt hlt) <| bind_ok (hdr_enc ..) (by rw [hA, hB])
  · exact hA.symm ▸ hu
  · exact hB.symm ▸ hv

theorem readsBack_mz {m : BitVec 16} {rl : Bool} : (mz h m rl).ReadsBack cx := by
  have hi := toNat_imm_flag m rl (by decide)
  refine bind_ok rfl <| bind_ok rfl <| bind_ok rfl <| bind_ok rfl <| bind_ok (immTop_of_lt (imm_flag_lt hi)) <|
    bind_ok (hdr_enc ..) ?_
  rw [setWidth_imm hi, getLsbD_imm_flag hi]

theorem readsBack_mrd {k : BitVec 8} {m : BitVec 4} {n : BitVec 7} (hw : (mrd h t r k m b n).wf cx = true) :
    (mrd h t r k m b n).ReadsBack cx := by
  obtain ⟨ht, hk, hb, he⟩ := of_and4 hw
  have hn := setWidth_setWidth_imm n (by decide)
  refine bind_ok rfl <| bind_ok (tyIn_of rfl ht) <| bind_ok (rndG0_of rfl rfl) <| bind_ok (vreg_code _ k _ ?_) <|
    bind_ok (tileF_aC ..) <| bind_ok (fld_code _ b _ hb) <| bind_ok (need_of ?_) <| bind_ok (immTop_of_lt (imm_lt n)) <|
    bind_ok (hdr_enc ..) (by rw [hn])
  · exact hn.symm ▸ hk
  · exact hn.symm ▸ he

theorem readsBack_mwr {m : BitVec 4} {k : BitVec 8} {n : BitVec 7} (hw : (mwr h t m k b n).wf cx = true) :
    (mwr h t m k b n).ReadsBack cx := by
  obtain ⟨ht, hk, hb, he⟩ := of_and4 hw
  have hn := setWidth_setWidth_imm n (by decide)
  refine bind_ok rfl <| bind_ok (tyIn_of rfl ht) <| bind_ok rfl <| bind_ok (tileF_aC ..) <| bind_ok (vreg_code _ k _ ?_) <|
    bind_ok (fld_code _ b _ hb) <| bind_ok (need_of ?_) <| bind_ok (immTop_of_lt (imm_lt n)) <|
    bind_ok (hdr_enc ..) (by rw [hn])
  · exact hn.symm ▸ hk
  · exact hn.symm ▸ he

theorem readsBack_mst {n m : BitVec 4} (hw : (mst h t r n m).wf cx = true) : (mst h t r n m).ReadsBack cx :=
  bind_ok rfl <| bind_ok (tyIn_of rfl hw) <| bind_ok (rndG0_of rfl rfl) <| bind_ok (tdF_tdC ..) <| bind_ok (tileF_aC ..) <|
    bind_ok rfl <| bind_ok rfl <| bind_ok (hdr_enc ..) rfl

theorem readsBack_mstat {w : BitVec 8} (hw : (mstat h d w b).wf cx = true) : (mstat h d w b).ReadsBack cx := by
  by_cases hr : w.toInt = 2 ∨ w.toInt = 3
  · obtain ⟨hv, hd, hb⟩ := of_and3 ((if_pos hr).symm.trans hw)
    have hd' : (d.reg cx && (d.isV || false)) = true := by rw [hd, hv]; rfl
    have hrow : w = 2 ∨ w = 3 := hr.imp BitVec.eq_of_toInt_eq BitVec.eq_of_toInt_eq
    rcases hrow with rfl | rfl <;>
    exact bind_ok rfl <| bind_ok (fld_code _ d _ hd') <| bind_ok (inl_code _ _ _ (by decide)) <|
      bind_ok (fld_code _ b _ hb) <| bind_ok rfl <| bind_ok (hdr_enc ..) rfl
  · obtain ⟨hs, hd, hb⟩ := of_and3 ((if_neg hr).symm.trans hw)
    have hd' : (d.reg cx && (d.isV || true)) = true := by rw [hd, Bool.or_true]; rfl
    have hsel : w = 0 ∨ w = 1 := (of_decide_eq_true hs).imp BitVec.eq_of_toInt_eq BitVec.eq_of_toInt_eq
    rcases hsel with rfl | rfl <;>
    exact bind_ok rfl <| bind_ok (fld_code _ d _ hd') <| bind_ok (inl_code _ _ _ (by decide)) <|
      bind_ok (fld_code _ b _ hb) <| bind_ok rfl <| bind_ok (hdr_enc ..) rfl

/-! ### Residency, exchanges and the system (13, 14, 16, 17) -/

theorem readsBack_lbind {re : Bool} (hw : (lbind h a b re).wf cx = true) : (lbind h a b re).ReadsBack cx :=
  (resid_enc (k := fun h a b x => lbind h a b (x.getLsbD 0)) (immBit_zero_lt re) hw).trans
    (congrArg (fun re => Except.ok (lbind h a b re)) (getLsbD_immBit_zero re))

theorem readsBack_lrel (hw : (lrel h a b).wf cx = true) : (lrel h a b).ReadsBack cx :=
  resid_enc (imm := 0) (n := 0) (by decide) hw (k := fun h a b _ => .lrel h a b)

theorem readsBack_lhint {n : BitVec 8} (hw : (lhint h a b n).wf cx = true) : (lhint h a b n).ReadsBack cx :=
  (resid_enc (k := fun h a b x => lhint h a b (x.setWidth 8)) (imm_lt n) hw).trans
    (congrArg (fun n => Except.ok (lhint h a b n)) (setWidth_setWidth_imm n (by decide)))

theorem readsBack_lstat (hw : (lstat h d a b).wf cx = true) : (lstat h d a b).ReadsBack cx := by
  obtain ⟨hd, ha, hb⟩ := of_and3 hw
  exact bind_ok rfl <| bind_ok (fld_code _ d _ hd) <| bind_ok (fld_code _ a _ ha) <| bind_ok (fld_code _ b _ hb) <|
    bind_ok rfl <| bind_ok (hdr_enc ..) rfl

theorem readsBack_txch {k : BitVec 8} {n : BitVec 4} (hw : (txch h k a b n).wf cx = true) :
    (txch h k a b n).ReadsBack cx := by
  obtain ⟨hk, ha, hb⟩ := of_and3 hw
  have hn := setWidth_setWidth_imm n (by decide)
  refine bind_ok rfl <| bind_ok (vreg_code _ k _ ?_) <| bind_ok (fld_code _ a _ ha) <| bind_ok (fld_code _ b _ hb) <|
    bind_ok (immTop_of_lt (imm_lt n)) <| bind_ok (hdr_enc ..) (by rw [hn])
  exact hn.symm ▸ hk

/-- The special register that a field and B name reads back. -/
theorem sysReg_code {e : DecErr} {f : Fields} {q : SysReg} {p : SysReg → Bool} (hf : f.b = q.bCode) (hp : p q = true) :
    sysReg e f q.code p = .ok q := by
  cases q with
  | sp r => simp [sysReg, SysReg.code, hf, SysReg.bCode, hp]
  | gen => simp [sysReg, SysReg.code, hf, SysReg.bCode, hp]

/-- B of `mfs` and `mts` is 0, or the mark of GEN beside the code of LANEID. -/
theorem sysReg_bCode (q : SysReg) : q.bCode = 0 ∨ q.bCode = 0x201 ∧ Opnd.ofCode q.code = some (.x .laneid) := by
  cases q with
  | sp r => exact .inl rfl
  | gen => exact .inr ⟨rfl, Opnd.ofCode_code (.x .laneid)⟩

theorem readsBack_collSum {n : BitVec 2} (hw : (collSum h t a b n).wf cx = true) : (collSum h t a b n).ReadsBack cx :=
  bind_ok rfl <| (if_pos rfl).trans <| (coll_enc (imm_lt n) hw).trans
    (congrArg (fun n => Except.ok (collSum h t a b n)) (setWidth_setWidth_imm n (by decide)))

theorem readsBack_collMax (hw : (collMax h t a b).wf cx = true) : (collMax h t a b).ReadsBack cx :=
  bind_ok rfl <| (if_neg nofun).trans <| (if_pos rfl).trans <| coll_enc (imm := 0) (n := 0) (by decide) hw

theorem readsBack_collGath (hw : (collGath h t a b).wf cx = true) : (collGath h t a b).ReadsBack cx :=
  bind_ok rfl <| (if_neg nofun).trans <| (if_neg nofun).trans <| (if_pos rfl).trans <|
    coll_enc (imm := 0) (n := 0) (by decide) hw

theorem readsBack_collBcst (hw : (collBcst h t a b).wf cx = true) : (collBcst h t a b).ReadsBack cx :=
  bind_ok rfl <| (if_neg nofun).trans <| (if_neg nofun).trans <| (if_neg nofun).trans <|
    coll_enc (imm := 0) (n := 0) (by decide) hw

theorem readsBack_mfs {q : SysReg} (hw : (mfs h d q).wf cx = true) : (mfs h d q).ReadsBack cx := by
  obtain ⟨hq, hd⟩ := Bool.and_eq_true_iff.mp hw
  refine bind_ok rfl ?_
  simp only [sysReg_code (f := { enc h 0xE0 0 0 with d := d.code, a := q.code, b := q.bCode }) rfl hq]
  exact bind_ok (fld_code _ d _ hd) <| bind_ok (need_of (decide_eq_true (sysReg_bCode q))) <| bind_ok rfl <|
    bind_ok (hdr_enc ..) rfl

theorem readsBack_mts {q : SysReg} (hw : (mts h q a).wf cx = true) : (mts h q a).ReadsBack cx := by
  obtain ⟨hq, ha⟩ := Bool.and_eq_true_iff.mp hw
  exact bind_ok rfl <| bind_ok (sysReg_code rfl hq) <| bind_ok (fld_code _ a _ ha) <|
    bind_ok (need_of (decide_eq_true (sysReg_bCode q))) <| bind_ok rfl <| bind_ok (hdr_enc ..) rfl

theorem readsBack_tinvPage (hw : (tinvPage h a b).wf cx = true) : (tinvPage h a b).ReadsBack cx := by
  obtain ⟨ha, hb⟩ := Bool.and_eq_true_iff.mp hw
  exact bind_ok rfl <| bind_ok rfl <| bind_ok rfl <| bind_ok (fld_code _ a _ ha) <| bind_ok (fld_code _ b _ hb) <|
    bind_ok rfl <| bind_ok (hdr_enc ..) rfl

theorem readsBack_tinvCtx (hw : (tinvCtx h b).wf cx = true) : (tinvCtx h b).ReadsBack cx :=
  bind_ok rfl <| bind_ok rfl <| bind_ok rfl <| bind_ok rfl <| bind_ok (fld_code _ b _ hw) <| bind_ok rfl <|
    bind_ok (hdr_enc ..) rfl

theorem readsBack_tinvAll : (tinvAll h).ReadsBack cx :=
  bind_ok rfl <| bind_ok rfl <| bind_ok rfl <| bind_ok rfl <| bind_ok rfl <| bind_ok rfl <| bind_ok (hdr_enc ..) rfl

theorem readsBack_ckpt {q : Option (BitVec 6)} (hw : (ckpt h q).wf cx = true) : (ckpt h q).ReadsBack cx := by
  cases q with
  | none =>
    exact bind_ok rfl <| bind_ok rfl <| bind_ok rfl <| bind_ok rfl <| bind_ok rfl <| bind_ok (hdr_enc ..) rfl
  | some k =>
    have hs : (Opnd.s k).scaPair = true := by
      have hk : k.toNat % 2 = 0 := of_decide_eq_true hw
      have := k.isLt
      simp [Opnd.scaPair, Opnd.isS, Opnd.grp, hk]
      omega
    have h0 : ∀ k : BitVec 6, Opnd.code (.s k) ≠ 0 := by decide
    exact bind_ok rfl <| (if_neg (h0 k)).trans <| bind_ok (fld_code _ (.s k) _ hs) <| bind_ok rfl <| bind_ok rfl <|
      bind_ok rfl <| bind_ok rfl <| bind_ok (hdr_enc ..) rfl

end

/-- Every well-formed instruction reads back, by its mould or by its own checks. -/
theorem readsBack {cx : DecCtx} {i : Instr} (hw : i.wf cx = true) : i.ReadsBack cx := by
  cases i with
  | nop | ret | exit | taskB | taskE | rti => exact nul_enc
  | bra | call | rcv | trap | brk => exact br_enc
  | rjoin => exact bind_ok rfl nul_enc
  | dly => exact readsBack_dly
  | brx => exact readsBack_brx hw
  | calx => exact readsBack_calx hw
  | rjoinTo => exact readsBack_rjoinTo hw
  | exmRd => exact readsBack_exmRd hw
  | exmWr | exmAnd | exmOr => exact bind_ok rfl (exmW_enc hw)
  | yield => exact readsBack_yield hw
  | waitcAny h q | waitcAll h q => exact bind_ok rfl (waitc_enc (q := q) hw)
  | kwait | kset | kadd => exact tokI_enc
  | krd => exact readsBack_krd hw
  | barInit => exact readsBack_barInit hw
  | barArv => exact readsBack_barArv hw
  | barExp => exact readsBack_barExp hw
  | barRd => exact readsBack_barRd hw
  | tlRd => exact readsBack_tlRd hw
  | tlSig => exact readsBack_tlSig hw
  | fence => exact readsBack_fence hw
  | add h t sat | sub h t sat | fmin h t sat | fmax h t sat => cases sat <;> exact bind_ok rfl (bin_enc hw)
  | mul | mulh | div | rem | min | max | and | or | xor | andn | shl | shr | sar | rol =>
    exact bind_ok rfl (bin_enc hw)
  | mad h t sat => cases sat <;> exact bind_ok rfl (tri_enc hw)
  | madh | fshL | fshR | bfx | bfi => exact bind_ok rfl (tri_enc hw)
  | abs h t sat | neg h t sat => cases sat <;> exact bind_ok rfl (un_enc hw)
  | not | popc | clz | ctz | brev | mov | fabs | fneg | frcp | frsq | fxpn | fclass => exact bind_ok rfl (un_enc hw)
  | setp => exact readsBack_setp hw
  | sel => exact readsBack_sel hw
  | movi => exact readsBack_movi hw
  | movh => exact readsBack_movh hw
  | lea => exact readsBack_lea hw
  | fadd | fsub | fdiv | fscl => exact bind_ok rfl (binR_enc hw)
  | fmul => exact readsBack_fmul hw
  | ffma => exact readsBack_ffma hw
  | fsetp => exact readsBack_fsetp hw
  | fsqrt | frnd => exact bind_ok rfl (unR_enc hw)
  | fexp2 | flog2 | fsin | fcos | ftanh => exact fn_enc hw
  | fdot2 => exact bind_ok rfl (dot_enc hw)
  | fdot4 => exact readsBack_fdot4 hw
  | cvt => exact readsBack_cvt hw
  | pack => exact readsBack_pack hw
  | unpack => exact readsBack_unpack hw
  | shfl => exact readsBack_shfl hw
  | vote => exact readsBack_vote hw
  | wred => exact readsBack_wred hw
  | wscan => exact readsBack_wscan hw
  | rdlane => exact readsBack_rdlane hw
  | wrlane => exact readsBack_wrlane hw
  | matchL => exact readsBack_matchL hw
  | plop => exact readsBack_plop
  | bget => exact readsBack_bget hw
  | bset => exact readsBack_bset hw
  | bchk => exact readsBack_bchk hw
  | budgSet => exact readsBack_budgSet hw
  | budgRd => exact readsBack_budgRd hw
  | taskX => exact readsBack_taskX
  | ld | ldb | ldc | st => exact mem_enc hw
  | ldp => exact readsBack_ldp hw
  | stm => exact readsBack_stm hw
  | stc => exact readsBack_stc hw
  | prefL2 | prefL1 | cinvLine | cwbLine => exact bind_ok rfl (memN_enc hw)
  | cinvAll => exact readsBack_cinvAll
  | cwbAll => exact readsBack_cwbAll
  | atom => exact readsBack_atom hw
  | red => exact readsBack_red hw
  | cpl => exact readsBack_cpl hw
  | cpb | cpcCont | cpcLast | cpxPut | cpxGet => exact bind_ok rfl (copy_enc hw)
  | dcz => exact readsBack_dcz hw
  | mtd => exact readsBack_mtd hw
  | msd => exact readsBack_msd hw
  | mma => exact readsBack_mma hw
  | mz => exact readsBack_mz
  | mrd => exact readsBack_mrd hw
  | mwr => exact readsBack_mwr hw
  | mst => exact readsBack_mst hw
  | mstat => exact readsBack_mstat hw
  | lbind => exact readsBack_lbind hw
  | lrel => exact readsBack_lrel hw
  | lhint => exact readsBack_lhint hw
  | lstat => exact readsBack_lstat hw
  | txch => exact readsBack_txch hw
  | collSum => exact readsBack_collSum hw
  | collMax => exact readsBack_collMax hw
  | collGath => exact readsBack_collGath hw
  | collBcst => exact readsBack_collBcst hw
  | mfs => exact readsBack_mfs hw
  | mts => exact readsBack_mts hw
  | tinvPage => exact readsBack_tinvPage hw
  | tinvCtx => exact readsBack_tinvCtx hw
  | tinvAll => exact readsBack_tinvAll
  | ckpt => exact readsBack_ckpt hw
  | _ => exact trivial

end Instr

/-- Fields that decode are not those of an opcode without an instruction. -/
theorem decodeFields_op {cx : DecCtx} {f : Fields} {i : Instr} (h : decodeFields cx f = .ok i) : f.op ≠ 0xFF := by
  intro ho
  have hn : f.op.toNat = 0xFF := congrArg BitVec.toNat ho
  unfold decodeFields at h
  rw [hn] at h
  exact nomatch h

end Sys2Proof

namespace Sys2Proof.Machine

/-- Settles O49: the word is the encoder's fields joined, which split again and pass every check. -/
theorem decodeOfEncode : Obligations.DecodeOfEncode := by
  intro cx i w hw he
  obtain ⟨f, hf, rfl⟩ := Option.map_eq_some_iff.mp he
  have hd : decodeFields cx f = .ok i := by simpa only [Instr.ReadsBack, hf] using Instr.readsBack hw
  rw [decode_toWord cx f (decodeFields_op hd), hd]

end Sys2Proof.Machine
end

section
/-! PROOFS. Single words: the spec's worked encodings, the all-ones word, and `nop` (R58-R61, R63). -/

namespace Sys2Proof.Machine

/-- Settles O48: each word is decoded. -/
theorem specWordsDecode : Obligations.SpecWordsDecode := by
  refine ⟨?_, ?_, ?_, ?_, ?_, ?_⟩ <;> rfl

/-- Settles O47: the check of the all-ones word precedes the fields, and the step takes the trap of the decode error. -/
theorem allOnesWordIsReserved : Obligations.AllOnesWordIsReserved := by
  have hones (cx : DecCtx) : decode cx (BitVec.allOnes 96) = .error .ones := if_pos rfl
  refine ⟨hones, rfl, ?_⟩
  intro s t f late ms tm s1 hs s0 ht hp hi hw t1 t2 h1 h2
  obtain ⟨-, herr⟩ := stepRunsTheDecodedInstruction.1 s t f late tm _ s0 s1 (.inl ⟨ms, hs, rfl⟩) ht hp hi hw
  rw [herr _ (hones _)]
  show andThen (answer t1) (fun t => answer (if t.mem = s.mem then t else t.watch)) = .next t2
  rw [answer_of_hole_false h1]
  exact answer_of_hole_false h2

/-- A fragment whose awaited token 0 counts 0 and is corrupted. -/
def corruptTokenTeam : Team := { fetchTeam State.reset with corrupt := [.token 0 0 false] }

def corruptTokenAt : At := ⟨0, false, false, corruptTokenTeam⟩

def corruptTokenState : State :=
  { State.reset with script := [], cur := some (0, false, false), teams := [(0, corruptTokenTeam)] }

/-- A header that waits for token 0 to count 1. -/
def awaitsToken0 : Hdr := ⟨⟨false, 7⟩, ⟨0, none, some (0, 1)⟩⟩

theorem corruptTokenState_live : Live0 corruptTokenState corruptTokenAt :=
  ⟨rfl, rfl, by decide +kernel, by decide +kernel, rfl, rfl, rfl⟩

/-- Team 0 is still resident in the answer. -/
def teamStays (o : Host.Outcome State Fault Refusal) : Bool :=
  match o with
  | .next t => (tget t.teams 0).any (fun tm => decide (tm.life = .resident))
  | _ => false

theorem corruptToken_ends : teamStays (exec (.nop awaitsToken0) corruptTokenState) = false := by decide +kernel

/-- Refutes O46: a `nop` that waits for a token whose count is short does not hold its fragment where that token is
corrupted; it takes ECC before it waits (R397), which here halts the team, as it has no handler. -/
theorem not_allZeroWordIsNop : ¬ Obligations.AllZeroWordIsNop := by
  intro h
  obtain ⟨-, -, -, -, hwaits⟩ := h
  have hn := hwaits awaitsToken0 corruptTokenState corruptTokenAt corruptTokenState_live (by decide +kernel)
  have := corruptToken_ends
  rw [hn] at this
  exact absurd this (by decide +kernel)

end Sys2Proof.Machine
end

section
/-! PROOFS. What a fetch reads (R40, R41). -/

namespace Sys2Proof.Machine

/-! ### Little-endian bytes -/

theorem ofBytes_append (a b : List Byte) : ofBytes (a ++ b) = ofBytes a + 2 ^ (8 * a.length) * ofBytes b := by
  induction a with
  | nil => simp [ofBytes]
  | cons x a ih =>
    have hcons (l : List Byte) : ofBytes (x :: l) = x.toNat + 256 * ofBytes l := rfl
    rw [List.cons_append, hcons, hcons, ih, List.length_cons, Nat.mul_succ, Nat.pow_add]
    ring

theorem ofBytes_lt (a : List Byte) : ofBytes a < 2 ^ (8 * a.length) := by
  induction a with
  | nil => decide
  | cons x a ih =>
    have hcons : ofBytes (x :: a) = x.toNat + 256 * ofBytes a := rfl
    have := x.isLt
    rw [hcons, List.length_cons, Nat.mul_succ, Nat.pow_add]
    omega

/-- Three 32-bit words that stand one after another in memory, each little-endian, read from the word of 96 bits. -/
theorem extractLsb'_ofBytes_words {b0 b1 b2 : List Byte} (h0 : b0.length = 4) (h1 : b1.length = 4) (h2 : b2.length = 4) :
    let w : Inst96 := BitVec.ofNat 96 (ofBytes (b0 ++ b1 ++ b2))
    w.extractLsb' 0 32 = BitVec.ofNat 32 (ofBytes b0) ∧ w.extractLsb' 32 32 = BitVec.ofNat 32 (ofBytes b1) ∧
      w.extractLsb' 64 32 = BitVec.ofNat 32 (ofBytes b2) := by
  have hlt0 := h0 ▸ ofBytes_lt b0
  have hlt1 := h1 ▸ ofBytes_lt b1
  have hlt2 := h2 ▸ ofBytes_lt b2
  have hsum : ofBytes (b0 ++ b1 ++ b2) = ofBytes b0 + 2 ^ 32 * ofBytes b1 + 2 ^ 64 * ofBytes b2 := by
    rw [ofBytes_append, ofBytes_append, List.length_append, h0, h1]
  refine ⟨?_, ?_, ?_⟩ <;>
  · apply BitVec.eq_of_toNat_eq
    simp only [BitVec.extractLsb'_toNat, BitVec.toNat_ofNat, Nat.shiftRight_eq_div_pow, hsum]
    omega

/-- A fetch whose three words are given reads them in the order of their addresses (R40). -/
theorem State.fetchInst_of_words {s s1 s2 s3 : State} {tm : Team} {st : Option (Nat × Fate)} {pc : Nat} {b0 b1 b2 : List Byte}
    (h0 : s.fetchWord tm st pc = (.got b0, s1)) (h1 : s1.fetchWord tm st (pc + 4) = (.got b1, s2))
    (h2 : s2.fetchWord tm st (pc + 8) = (.got b2, s3)) :
    s.fetchInst tm st pc = (.got (BitVec.ofNat 96 (ofBytes (b0 ++ b1 ++ b2))), s3) := by
  simp [State.fetchInst, h0, h1, h2]

/-! ### What a translation leaves alone -/

theorem State.touch_mem (s : State) (pa n : Nat) : (s.touch pa n).mem = s.mem := by
  unfold State.touch; dsimp only; split <;> rfl

theorem State.pick_mem {α : Type} (s : State) (xs : List α) (d : α) : (s.pick xs d).2.mem = s.mem := by
  unfold State.pick; split <;> rfl

theorem State.tlbAdd_mem (s : State) (c : Nat) (p : Quad) : (s.tlbAdd c p).mem = s.mem := by
  unfold State.tlbAdd; split <;> rfl

theorem State.translate_mem (s : State) (c va : Nat) : (s.translate c va).2.mem = s.mem := by
  unfold State.translate
  dsimp only
  split <;> simp only [State.tlbAdd_mem, State.pick_mem] <;> split <;> simp only [State.touch_mem]

theorem State.keyMatches_cacheRead (s : State) (n c cls line l k : Nat) :
    (s.cacheRead n c cls line).keyMatches l k = s.keyMatches l k := by
  rw [State.cacheRead_eq]
  rfl

/-! ### One word -/

section
variable {s s1 : State} {tm : Team} {va pa : Nat} {p q : Quad}

theorem State.fetchWord_of_outside (st : Option (Nat × Fate)) (hv : 2 ^ 56 ≤ va) :
    s.fetchWord tm st va = (.trap .xlat 0 va, s) := if_pos hv

section
variable (hv : va < 2 ^ 56) (ht : s.translate tm.ctx va = (.hit p, s1))
include hv ht

theorem State.fetchWord_of_compressed (hc : pteCmp p = true) : s.fetchWord tm none va = (.trap .xlat 4 va, s1) := by
  have hv := Nat.not_le.mpr hv
  simp only [State.fetchWord, hv, ht, hc, if_true, if_false, reduceCtorEq]

variable (hc : pteCmp p = false) (hl : s1.lookAt (.hit p) va false = .ok pa q)
include hc hl

theorem State.fetchWord_of_poisoned (hp : s1.poisoned (lineOf pa) (pteKey p) = true) :
    s.fetchWord tm none va = (.trap .ecc 5 0, s1) := by
  have hv := Nat.not_le.mpr hv
  simp only [State.fetchWord, hv, ht, hc, hl, hp, if_true, if_false, reduceCtorEq, Bool.false_eq_true]

variable (hp : s1.poisoned (lineOf pa) (pteKey p) = false)
include hp

theorem State.fetchWord_of_bad_buffer {l : L1Line} (hb : (s1.core tm.core).ibufLine tm.ctx (va / 128) = some l)
    (hx : l.poison = true) : s.fetchWord tm none va = (.trap .ecc 4 0, s1.ibufDrop tm.core tm.ctx (va / 128)) := by
  have hv := Nat.not_le.mpr hv
  simp only [State.fetchWord, hv, ht, hc, hl, hp, hb, hx, Option.any_some, if_true, if_false, reduceCtorEq,
    Bool.false_eq_true]

variable (hb : (s1.core tm.core).ibufLine tm.ctx (va / 128) = none)
include hb

theorem State.fetchWord_of_bad_replica
    (hr : (s1.cacheRead (tm.core / 16) tm.ctx (pteCls p) (lineOf pa)).replicaBad (tm.core / 16) (lineOf pa) = true) :
    s.fetchWord tm none va = (.trap .ecc 5 0, s1.cacheRead (tm.core / 16) tm.ctx (pteCls p) (lineOf pa)) := by
  have hv := Nat.not_le.mpr hv
  simp only [State.fetchWord, hv, ht, hc, hl, hp, hb, hr, Option.any_none, Option.isSome_none, Option.isNone_none,
    Bool.and_self, if_true, if_false, reduceCtorEq, Bool.false_eq_true]

theorem State.fetchWord_of_memory (hk : s1.keyMatches (lineOf pa) (pteKey p) = true)
    (hr : (s1.cacheRead (tm.core / 16) tm.ctx (pteCls p) (lineOf pa)).replicaBad (tm.core / 16) (lineOf pa) = false) :
    ∃ t, s.fetchWord tm none va = (.got (cellsGet s.mem pa 4), t) ∧ t.mem = s.mem := by
  have hv := Nat.not_le.mpr hv
  have hm : s1.mem = s.mem := by rw [← State.translate_mem s tm.ctx va, ht]
  simp only [State.fetchWord, hv, ht, hc, hl, hp, hb, hr, State.codeWord, State.readBytes, State.keyMatches_cacheRead, hk,
    Option.any_none, Option.isSome_none, Option.isNone_none, Bool.and_false, if_true, if_false, reduceCtorEq,
    Bool.false_eq_true, State.cacheRead_mem, hm]
  exact ⟨_, rfl, by simp only [State.modCore_mem, State.cacheRead_mem, hm]⟩

end
end

/-- Settles O51: the three words of a fetch, and what each word meets on its way. -/
theorem fetchReadsMemory : Obligations.FetchReadsMemory := by
  refine ⟨?_, fun s tm st va hv => State.fetchWord_of_outside st hv, ?_⟩
  · intro s tm st pc b0 b1 b2 s1 s2 s3 h0 h1 h2 l0 l1 l2
    exact ⟨_, State.fetchInst_of_words h0 h1 h2, extractLsb'_ofBytes_words l0 l1 l2⟩
  · intro s tm va p q s1 pa hv ht
    refine ⟨State.fetchWord_of_compressed hv ht, fun hc hl => ⟨State.fetchWord_of_poisoned hv ht hc hl, ?_, ?_⟩⟩
    · intro hp hk hb s2
      exact ⟨State.fetchWord_of_bad_replica hv ht hc hl hp hb, State.fetchWord_of_memory hv ht hc hl hp hb hk⟩
    · intro l hp hb hx
      exact State.fetchWord_of_bad_buffer hv ht hc hl hp hb hx

end Sys2Proof.Machine
end

section
/-! PROOFS. What stands before the effect of an instruction (R49, R60, R110, R113, R397), and what is privileged (R407). -/

namespace Sys2Proof.Machine

/-! ### The checks of issue, in their order -/

theorem underwait_none_of_whole {s : State} {x : X} {ps : List Port}
    (hu : mChk x.tm.mode = true → x.e ≠ 0 → s.underwait x.t x.tm x.p.pid x.e ps = none) :
    (if mChk x.tm.mode = true ∧ x.e ≠ 0 then s.underwait x.t x.tm x.p.pid x.e ps else none) = none := by
  split
  · next hc => exact hu hc.1 hc.2
  · rfl

theorem not_inTask_of_out {x : X} {tk : Bool} (htask : tk = true → x.tm.inTask = none) :
    ¬ (tk = true ∧ x.e ≠ 0 ∧ x.tm.inTask.isSome = true) := by
  rintro ⟨htk, -, hin⟩
  simp [htask htk] at hin

section
variable {s : State} {i : Instr} {x : X} {cls : Cls} {ps : List Port} {always tk : Bool} {body : X → State → Res}
  (hperm : x.tm.perm = none)

include hperm

/-- A corrupted token traps before the wait looks at it (R397). -/
theorem State.issueNew_of_eccWait {site : ErrSite} (hecc : x.tm.eccWait x.h = some site) :
    s.issueNew i x cls ps always tk body = s.eccTrap x site 3 := by
  simp only [State.issueNew, hperm, hecc]

variable (hmend : x.tm.eccWait x.h = none)

include hmend

theorem State.issueNew_of_waits (hw : x.tm.inlineWait x.h = .waits) : s.issueNew i x cls ps always tk body = s := by
  simp only [State.issueNew, hperm, hmend, hw]

theorem State.issueNew_of_kovf (hw : x.tm.inlineWait x.h = .kovf) : s.issueNew i x cls ps always tk body =
    s.takeTrap x.t x.f .kovf 0 (waitVal x.tm.curBank ((x.h.sc.wait.map (fun w => w.1.toNat)).getD 0)) x.p.pc := by
  simp only [State.issueNew, hperm, hmend, hw]

theorem State.issueNew_of_kerr {n : Nat} (hw : x.tm.inlineWait x.h = .kerr n) : s.issueNew i x cls ps always tk body =
    s.takeTrap x.t x.f .kerr n (waitVal x.tm.curBank ((x.h.sc.wait.map (fun w => w.1.toNat)).getD 0)) x.p.pc := by
  simp only [State.issueNew, hperm, hmend, hw]

variable (hw : x.tm.inlineWait x.h = .ok)

include hw

theorem State.issueNew_of_underwait {sub : Nat} {enc : BitVec 10} (hchk : mChk x.tm.mode = true) (he : x.e ≠ 0)
    (hu : s.underwait x.t x.tm x.p.pid x.e (ps ++ rdPred x.h.g.p) = some (sub, enc)) :
    s.issueNew i x cls ps always tk body = s.takeTrap x.t x.f .underwait sub (enc.setWidth 64) x.p.pc := by
  simp only [State.issueNew, hperm, hmend, hw, if_pos (And.intro hchk he), hu]

variable (hu : mChk x.tm.mode = true → x.e ≠ 0 → s.underwait x.t x.tm x.p.pid x.e (ps ++ rdPred x.h.g.p) = none)

include hu

variable (htask : tk = true → x.tm.inTask = none)

include htask

/-- Behind the checks of R110, R113 and R197, which find nothing, a corrupted operand traps (R397). -/
theorem State.issueNew_of_eccHit {site : ErrSite} {sub : Nat} (hecc : x.tm.eccHit x.h x.e ps = some (site, sub)) :
    s.issueNew i x cls ps always tk body = s.eccTrap x site sub := by
  simp only [State.issueNew, hperm, hmend, hw, underwait_none_of_whole hu, if_neg (not_inTask_of_out htask), hecc]

/-- Behind all checks, an instruction with no effective lane is guarded off (R49). -/
theorem State.issueNew_of_off (hecc : x.tm.eccHit x.h x.e ps = none) (hoff : x.e = 0) :
    s.issueNew i x cls ps false tk body =
      (s.slotUse x.t x.f x.tm).retire i x cls ps (x.guardedOff cls (s.slotUse x.t x.f x.tm)) := by
  simp only [State.issueNew, hperm, hmend, hw, underwait_none_of_whole hu, if_neg (not_inTask_of_out htask), hecc]
  exact if_pos ⟨hoff, rfl⟩

end

/-! ### An instruction of `formOf` -/

/-- What the checks of issue see of a fragment that nothing holds. -/
def At.atIssue (a : At) (h : Hdr) : X where
  t := a.t
  f := a.f
  late := a.late
  tm := a.tm
  rd := a.tm
  p := a.path
  h := h
  e := a.mask h
  st := none

theorem At.atIssue_of (a : At) (h : Hdr) : (a.atIssue h).Of a h := ⟨rfl, rfl, rfl, rfl, rfl⟩

theorem State.issue_atIssue {s : State} {a : At} (r : Live0 s a) (i : Instr) (h : Hdr) (c : Cls) (ps : List Port)
    (always tk : Bool) (body : X → State → Res) : s.issue i h c ps always tk body =
      State.issueNew { s with cur := none } i (a.atIssue h) c ps always tk body :=
  State.issue_new r i h c ps always tk body

section
variable {i : Instr} {h : Hdr} {c : Cls} {ps : List Port} {s : State} {a : At} (hf : formOf i = some (h, c, ps))

include hf

theorem exec_of_formOf (r : Live0 s a) : ∃ body, exec i s =
    answer (State.issueNew { s with cur := none } i (a.atIssue h) c ps false false body) := by
  obtain ⟨body, hexec⟩ := formOf_instr hf
  exact ⟨body, by rw [hexec, instr, State.issue_atIssue r]⟩

/-- What stops the instruction at its checks decides the step. -/
theorem exec_of_issueNew (r : Live0 s a) {t : State}
    (hnew : ∀ body, State.issueNew { s with cur := none } i (a.atIssue h) c ps false false body = t)
    (ht : t.hole = false) : exec i s = .next t := by
  obtain ⟨body, hexec⟩ := exec_of_formOf hf r
  rw [hexec, hnew, answer_of_hole_false ht]

/-- R49: with no effective lane nothing is carried out but the guarded-off answer. -/
theorem exec_of_off (r : Clear s a h ps false) (hoff : a.mask h = 0) {t : State}
    (hret : (s.slotted a).retire i (a.atIssue h) c ps ((a.atIssue h).guardedOff c (s.slotted a)) = t)
    (ht : t.hole = false) : exec i s = .next t := by
  refine exec_of_issueNew hf r.live (fun body => ?_) ht
  have hu (hchk : mChk a.tm.mode = true) (_ : a.mask h ≠ 0) : State.underwait { s with cur := none } a.t a.tm a.path.pid
      (a.mask h) (ps ++ rdPred h.g.p) = none := by
    rw [State.underwait_cur]
    exact r.under hchk
  exact (State.issueNew_of_off (x := a.atIssue h) (tk := false) r.live.perm r.mend r.wait hu (fun htk => nomatch htk)
    r.ecc hoff).trans hret

end

theorem State.slotted_running {s : State} {a : At} (r : Live0 s a) (tm : Team)
    (htm : tget (s.slotted a).teams a.t = some tm) : (tm.path a.f).ended = false := by
  have hteam : tget (s.slotted a).teams a.t = some (a.tm.setPath a.f { a.path with lastIssue := s.clk }) := by
    simp [State.slotted, State.slotUse, r.team, At.path]
  rw [hteam] at htm
  cases htm
  simpa [At.path] using r.running

/-- R49, R103: a fixed-latency instruction with no effective lane only posts and goes on. -/
theorem exec_fixed_of_off {i : Instr} {h : Hdr} {l : Nat} {ps : List Port} {s : State} {a : At}
    (hf : formOf i = some (h, .fixed l, ps)) (r : Clear s a h ps false) (hoff : a.mask h = 0) :
    exec i s = .next ((s.slotted a).fixedNext a h l []) :=
  exec_of_off hf r hoff (State.retire_fixed (a.atIssue_of h) i l ps [] _ _ rfl) r.live.hole

/-- R49: a token-class instruction with no effective lane enters an empty operation where it posts, and none where it
does not. -/
theorem exec_token_of_off {i : Instr} {h : Hdr} {u : CUnit} {ps : List Port} {s : State} {a : At}
    (hf : formOf i = some (h, .token u, ps)) (r : Clear s a h ps false) (hoff : a.mask h = 0) :
    exec i s = .next (if h.sc.post.isNone then (s.slotted a).issueNext a h (fun tm => tm)
      else (s.slotted a).tokenNext a h (a.op s u [] (.done []))) := by
  have hguard : (a.atIssue h).guardedOff (.token u) (s.slotted a) = if h.sc.post.isNone then .issue (s.slotted a)
      else .token (s.slotted a) (a.op s u [] (.done [])) := rfl
  cases hpost : h.sc.post.isNone with
  | true =>
    rw [hpost] at hguard
    refine exec_of_off hf r hoff ?_ r.live.hole
    rw [hguard]
    exact State.retire_issue' (a.atIssue_of h) i _ ps _ _ rfl (State.slotted_running r.live)
  | false =>
    rw [hpost] at hguard
    refine exec_of_off hf r hoff ?_ r.live.hole
    rw [hguard]
    exact State.retire_token (a.atIssue_of h) i _ ps _ _ _ rfl

/-! ### Privilege -/

/-- Which fragment has issued is nothing to a context's privilege. -/
theorem State.issued_prv (s : State) (a : At) (n : Nat) : (s.issued a).prv n = s.prv n := by rw [State.issued_eq]; rfl

/-- A meaning that answers with a PRIV trap leads to nothing else. -/
theorem issue_priv {s : State} {a : At} {h : Hdr} {ps : List Port} {tk : Bool} (r : Clear s a h ps tk)
    (hacts : a.mask h ≠ 0) (i : Instr) (cls : Cls) (body : X → State → Res) {sub : Nat}
    (hb : body (s.viewAt a h) (s.issued a) = .trap (s.issued a) .priv sub 0)
    (ht : ((s.issued a).takeTrap a.t a.f .priv sub 0 a.path.pc).hole = false) :
    answer (s.issue i h cls ps false tk body) = .next ((s.issued a).takeTrap a.t a.f .priv sub 0 a.path.pc) := by
  rw [State.issue_clear r i cls false body (.inl hacts), hb]
  exact answer_of_hole_false ht

/-- What is let through outside a task is let through where tasks are no matter. -/
theorem ReadyOut.clear_anywhere {s : State} {a : At} {h : Hdr} {ps : List Port} (r : ReadyOut s a h ps) :
    Clear s a h ps false :=
  { r.clear with task := fun htk => nomatch htk }

theorem tinv_priv {s : State} {a : At} {h : Hdr} {ps : List Port} (r : ReadyOut s a h ps) (hprv : s.prv a.tm.ctx = false)
    (i : Instr) (ctx : X → Option Nat) (w : X → Nat → Work)
    (ht : ((s.issued a).takeTrap a.t a.f .priv 0 0 a.path.pc).hole = false) :
    tinv i h ps ctx w s = .next ((s.issued a).takeTrap a.t a.f .priv 0 0 a.path.pc) := by
  refine issue_priv r.clear r.acts i _ _ (if_pos ?_) ht
  rw [State.issued_prv]
  exact congrArg Bool.not hprv

theorem exec_tinvPage (h : Hdr) (o p : Opnd) (s : State) : exec (.tinvPage h o p) s = execTinvPage h o p s := rfl
theorem exec_tinvCtx (h : Hdr) (p : Opnd) (s : State) : exec (.tinvCtx h p) s = execTinvCtx h p s := rfl
theorem exec_tinvAll (h : Hdr) (s : State) : exec (.tinvAll h) s = execTinvAll h s := rfl

theorem exec_mts_cyc_priv {s : State} {a : At} {h : Hdr} {o : Opnd} (r : ReadyOut s a h (rd 2 o))
    (hprv : s.prv a.tm.ctx = false) (ht : ((s.issued a).takeTrap a.t a.f .priv 1 0 a.path.pc).hole = false) :
    exec (.mts h (.sp .cyc) o) s = .next ((s.issued a).takeTrap a.t a.f .priv 1 0 a.path.pc) := by
  refine issue_priv r.clear_anywhere r.acts (.mts h (.sp .cyc) o) _ _ (if_pos ?_) ht
  rw [State.issued_prv]
  exact congrArg Bool.not hprv

/-! ### The statement -/

/-- Settles O60: each check of issue in its order, the answer of an instruction that no lane takes part in, and the two
meanings that ask for privilege. -/
theorem conventionsTrapBeforeAnyEffect : Obligations.ConventionsTrapBeforeAnyEffect := by
  unfold Obligations.ConventionsTrapBeforeAnyEffect
  constructor
  · intro i h c ps s a hf r
    refine ⟨fun site hecc ht => ?_, fun hmend => ⟨fun hw => ?_, fun hw ht => ?_, fun n hw ht => ?_,
      fun sub enc hw hchk he hu ht => ?_, fun site sub hw hu hecc ht => ?_⟩,
      fun hclear hoff => ⟨fun l hl => ?_, fun u htok => ?_⟩⟩
    · exact exec_of_issueNew hf r (fun _ => State.issueNew_of_eccWait (x := a.atIssue h) r.perm hecc) ht
    · exact exec_of_issueNew hf r (fun _ => State.issueNew_of_waits (x := a.atIssue h) r.perm hmend hw) r.hole
    · exact exec_of_issueNew hf r (fun _ => State.issueNew_of_kovf (x := a.atIssue h) r.perm hmend hw) ht
    · exact exec_of_issueNew hf r (fun _ => State.issueNew_of_kerr (x := a.atIssue h) r.perm hmend hw) ht
    · exact exec_of_issueNew hf r (fun _ => State.issueNew_of_underwait (x := a.atIssue h) r.perm hmend hw hchk he hu) ht
    · refine exec_of_issueNew hf r (fun _ => ?_) ht
      exact State.issueNew_of_eccHit (x := a.atIssue h) (tk := false) r.perm hmend hw hu (fun htk => nomatch htk) hecc
    · subst hl
      exact exec_fixed_of_off hf hclear hoff
    · subst htok
      exact exec_token_of_off hf hclear hoff
  · rintro i h ps sub s a hi r hprv t ht
    rcases hi with ⟨o, rfl, rfl, rfl⟩ | ⟨o, p, rfl, rfl, rfl⟩ | ⟨p, rfl, rfl, rfl⟩ | ⟨rfl, rfl, rfl⟩
    · exact exec_mts_cyc_priv r hprv ht
    · rw [exec_tinvPage, execTinvPage]
      exact tinv_priv r hprv _ _ _ ht
    · rw [exec_tinvCtx, execTinvCtx]
      exact tinv_priv r hprv _ _ _ ht
    · rw [exec_tinvAll, execTinvAll]
      exact tinv_priv r hprv _ _ _ ht

end Sys2Proof.Machine
end

section
/-! PROOFS. The numbers and bounds that register instructions write: integer and bit results, moves and comparisons, float
results, and what lanes exchange (R97-R99, R138-R182). -/

namespace Sys2Proof.Machine

/-! ### Instructions whose meaning is one result at a fixed latency -/

section
variable {i : Instr} {h : Hdr} {l : Nat} {ps : List Port}

/-- A meaning that answers the writes w and leaves the state beside them as it is runs at its latency. -/
theorem runsFixed_of_body {body : X → State → Res} {w : X → List Upd} (hi : ∀ s, exec i s = instr i h (.fixed l) ps body s)
    (hb : ∀ x s, body x s = .fixed s (w x)) : RunsFixed i h l ps w := by
  intro s a hr
  rw [hi]
  exact instr_fixed hr i l body _ (hb _ _)

/-- A meaning that also replaces generators of its team, and nothing else at once, runs at its latency (R86, R90). -/
theorem runsDraws_of_body {body : X → State → Res} {w : X → List Upd × List (Nat × Word)}
    (hi : ∀ s, exec i s = instr i h (.fixed l) ps body s)
    (hb : ∀ x s, body x s = .fixed (s.modTeam x.t (fun tm => tm.setGens (w x).2)) (w x).1) : RunsDraws i h l ps w := by
  intro s a hr
  rw [hi]
  exact instr_fixed_mod hr i l body _ _ (hb _ _)

variable {d : Opnd} {w64 : Bool}

theorem runsFixed_vecOp {f : X → Nat → El} (hi : ∀ s, exec i s = instr i h (.fixed l) ps (vecOp d w64 f) s) :
    RunsFixed i h l ps (laneWrites d w64 f) :=
  runsFixed_of_body hi fun _ _ => rfl

theorem runsFixed_predOp {p : BitVec 3} {f : X → Nat → Bool × Bool}
    (hi : ∀ s, exec i s = instr i h (.fixed l) ps (predOp p f) s) : RunsFixed i h l ps (predWrites p f) :=
  runsFixed_of_body hi fun _ _ => rfl

theorem runsDraws_vecOpG {f : X → Nat → Word → El × Word}
    (hi : ∀ s, exec i s = instr i h (.fixed l) ps (vecOpG d w64 f) s) : RunsDraws i h l ps (laneDraws d w64 f) :=
  runsDraws_of_body hi fun _ _ => rfl

end

/-! ### Shifts, bit fields, comparisons, selections and moves -/

/-- Settles O2: `setp` writes a predicate, and every other instruction one element a lane. -/
theorem shiftsFieldsAndMovesComplete : Obligations.ShiftsFieldsAndMovesComplete := by
  unfold Obligations.ShiftsFieldsAndMovesComplete
  refine ⟨⟨?shl, ?shr, ?sar, ?rol, ?fshL, ?fshR, ?popc, ?clz, ?ctz, ?brev, ?bfx, ?bfi⟩,
    ?setp, ?sel, ?mov, ?movi, ?movh, ?lea⟩
  case shl | shr | sar | rol | fshL | fshR | popc | clz | ctz | brev | bfx | bfi | sel | mov | movi | movh | lea =>
    intros
    exact runsFixed_vecOp fun _ => rfl
  case setp => exact fun _ _ _ _ _ _ => runsFixed_predOp fun _ => rfl

/-! ### Floats -/

/-- Settles O3: an instruction with a product chooses its gear once, over all lanes, before it rounds lane by lane; the
others compute each lane alone, with its generator or without. -/
theorem floatInstructionsComplete : Obligations.FloatInstructionsComplete := by
  unfold Obligations.FloatInstructionsComplete
  refine ⟨⟨?fadd, ?fsub, ?fmul, ?ffma, ?fmin, ?fmax, ?fabs, ?fneg, ?fsetp⟩,
    ?fscl, ?fxpn, ?frnd, ?fclass, ?fdot2, ?fdot4, ?cvt, ?pack, ?unpack⟩
  case fmul | ffma | fdot2 | fdot4 =>
    intros
    exact runsDraws_of_body (fun _ => rfl) fun _ _ => rfl
  case fadd | fsub | fmin | fmax | fabs | fneg | fscl | fxpn | frnd | cvt =>
    intros
    exact runsDraws_vecOpG fun _ => rfl
  case fclass | pack | unpack =>
    intros
    exact runsFixed_vecOp fun _ => rfl
  case fsetp => exact fun _ _ _ _ _ _ => runsFixed_predOp fun _ => rfl

/-! ### Lane exchanges, votes, reductions and predicate logic -/

/-- A vote into anything but a predicate writes the lanes of truth (R139). -/
theorem runsFixed_vote_of_ne_pred {h : Hdr} {m : VoteMode} {d : Opnd} {a : BitVec 3} (hd : ∀ k, d ≠ .x (.p k)) :
    RunsFixed (.vote h m d a) h 6 (wr (if m = .bal then 2 else 1) d ++ rdPred a)
      (laneWrites d true (fun x _ => ⟨((x.rd.pred a.toNat).t &&& x.e).toNat,
        computed x.bt (if (x.rd.pred a.toNat).d &&& x.e = 0 then 0 else 0xFF00)⟩)) := by
  refine runsFixed_of_body (fun _ => rfl) fun x s => ?_
  dsimp only
  split
  · exact absurd rfl (hd _)
  · rfl

/-- `wred` writes the result of one tree over all lanes, and the lowest lane draws for it (R97, R141). -/
theorem runsDraws_wred (h : Hdr) (ty : Ty) (op : RedOp) (r : RndSel) (d a : Opnd) :
    RunsDraws (.wred h ty op r d a) h 12 (wr (tyN ty) d ++ rd (tyN ty) a) (fun x =>
      let l0 := (lowest x.e).getD 0
      let v := redTree (redOpEl ty op (x.rm r) x.ftz) (x.leaves ty a (fun _ => true)) (x.tm.gen l0)
      (dstUpds d ty.w64 ((x.work d).map (fun l => (l, redOut x.bt ty op v.1))), [(l0, v.2)])) := by
  refine runsDraws_of_body (fun _ => rfl) fun x s => ?_
  dsimp only

/-- `wscan` makes a tree for each lane, over the lanes up to it or below it (R97, R141). -/
theorem runsDraws_wscan (h : Hdr) (ty : Ty) (op : RedOp) (excl : Bool) (r : RndSel) (d a : Opnd) :
    RunsDraws (.wscan h ty op excl r d a) h 12 (wr (tyN ty) d ++ rd (tyN ty) a) (laneDraws d ty.w64 (fun x l g =>
      let v := redTree (redOpEl ty op (x.rm r) x.ftz) (x.leaves ty a (fun j => if excl then j < l else j ≤ l)) g
      (redOut x.bt ty op v.1, v.2))) := by
  refine runsDraws_vecOpG fun s => congrArg (fun f => instr _ h _ _ (vecOpG d ty.w64 f) s)
    (funext fun x => funext fun l => funext fun g => ?_)
  dsimp only

/-- Settles O4: `shfl`, `rdlane` and `plop` compute lane by lane; the others look at all lanes before they write. -/
theorem crossLaneCompletes : Obligations.CrossLaneCompletes := by
  unfold Obligations.CrossLaneCompletes
  refine ⟨?shfl, ?rdlane, ?wrlane, ?matchL, ?votePred, ?vote, ?plop, runsDraws_wred, runsDraws_wscan⟩
  case shfl | rdlane =>
    intros
    exact runsFixed_vecOp fun _ => rfl
  case wrlane | matchL | votePred =>
    intros
    exact runsFixed_of_body (fun _ => rfl) fun _ _ => rfl
  case vote => exact fun _ _ _ _ hd => runsFixed_vote_of_ne_pred hd
  case plop => exact fun _ _ _ _ _ _ => runsFixed_predOp fun _ => rfl

end Sys2Proof.Machine
end

section
/-! PROOFS. Token-class arithmetic: division and the special functions (R154, R178). -/

namespace Sys2Proof.Machine

/-! ### Instructions whose results an operation holds until it completes -/

section
variable {i : Instr} {h : Hdr} {u : CUnit} {ps : List Port} {d : Opnd} {w64 : Bool}

/-- A meaning that answers an operation with known results runs as a token-class instruction (R108). -/
theorem runsToken_tokOp {f : X → Nat → El} (hi : ∀ s, exec i s = instr i h (.token u) ps (tokOp u d w64 f) s) :
    RunsToken i h u ps (fun x _ => (dstKeys d (if w64 then 2 else 1) x.e, .done (laneWrites d w64 f x))) := by
  intro s a hr
  rw [hi]
  exact instr_token hr i _ _ _ _ rfl (by simp [hr.hole])

/-- The same for one that also replaces generators of its team (R86). -/
theorem runsTokenDraws_tokOpG {f : X → Nat → Word → El × Word}
    (hi : ∀ s, exec i s = instr i h (.token u) ps (tokOpG u d w64 f) s) :
    RunsTokenDraws i h u ps (fun x => dstKeys d (if w64 then 2 else 1) x.e) (laneDraws d w64 f) := by
  intro s a hr
  rw [hi]
  exact instr_token hr i _ _ _ _ rfl (by simp [hr.hole])

end

/-- Settles O5: `div` and `rem` compute lane by lane, and the special functions draw as they do. -/
theorem divisionAndSpecialFunctionsComplete : Obligations.DivisionAndSpecialFunctionsComplete := by
  unfold Obligations.DivisionAndSpecialFunctionsComplete
  refine ⟨?div, ?rem, ?frcp, ?frsq, ?fsqrt, ?fdiv, ?fexp2, ?flog2, ?fsin, ?fcos, ?ftanh⟩
  case div | rem =>
    intros
    exact runsToken_tokOp fun _ => rfl
  all_goals
    intros
    exact runsTokenDraws_tokOpG fun _ => rfl

end Sys2Proof.Machine
end

section
/-! PROOFS. Token instructions, `nop`, `dly` and the accesses to EXM (R116-R119, R137). -/

namespace Sys2Proof.Machine

/-! ### Tokens -/

@[simp] theorem Team.tok_setTok_self (tm : Team) (b : Bank) (k : Nat) (t : Token) : (tm.setTok b k t).tok b k = t := by
  cases b <;> exact tgetD_tset_self ..

theorem Team.tok_setTok_other (tm : Team) (b : Bank) {k j : Nat} (t : Token) (h : j ≠ k) :
    (tm.setTok b k t).tok b j = tm.tok b j := by
  cases b <;> exact tgetD_tset_other _ _ _ _ _ h

/-- A `kset` that lands changes its token alone. -/
theorem State.land_kset {s : State} {t c p k v : Nat} {tm : Team} {b : Bank} (ht : tget s.teams t = some tm) :
    ∃ tm', tget (s.land t ⟨c, p, .kset b k v⟩).teams t = some tm' ∧ tm'.tok b k = Token.kset v ∧
      ∀ j, j ≠ k → tm'.tok b j = tm.tok b j := by
  have hland : tget (s.land t ⟨c, p, .kset b k v⟩).teams t = some
      { tm.setTok b k (Token.kset v) with corrupt := tm.corrupt.filter (· ≠ .token t k (b = .trap)) } := by
    simp [State.land, ht]
  have htok (j : Nat) : Team.tok { tm.setTok b k (Token.kset v) with
      corrupt := tm.corrupt.filter (· ≠ .token t k (b = .trap)) } b j = (tm.setTok b k (Token.kset v)).tok b j := by
    cases b <;> rfl
  exact ⟨_, hland, (htok k).trans (tm.tok_setTok_self ..), fun j hj => (htok j).trans (tm.tok_setTok_other b _ hj)⟩

/-- A `kadd` that lands changes its token alone. -/
theorem State.land_kadd {s : State} {t c p k : Nat} {d : Int} {tm : Team} {b : Bank} (ht : tget s.teams t = some tm) :
    ∃ tm', tget (s.land t ⟨c, p, .kadd b k d⟩).teams t = some tm' ∧ tm'.tok b k = (tm.tok b k).kadd d ∧
      ∀ j, j ≠ k → tm'.tok b j = tm.tok b j := by
  have hland : tget (s.land t ⟨c, p, .kadd b k d⟩).teams t = some (tm.setTok b k ((tm.tok b k).kadd d)) := by
    simp [State.land, ht]
  exact ⟨_, hland, tm.tok_setTok_self .., fun j hj => tm.tok_setTok_other b _ hj⟩

/-- A token without error and overflow whose count is reached lets a wait through. -/
theorem Token.wait_of_reached {t : Token} {n : Nat} (hn : n ≤ t.count) (he : t.err = false) (ho : t.ovf = false) :
    t.wait n = .ok := by
  simp [Token.wait, he, ho, Nat.not_lt.mpr hn]

section
variable {s : State} {a : At} {h : Hdr} {k : BitVec 5} {n : Bool}

theorem exec_kset {v : BitVec 8} (hr : Ready s a h []) : exec (.kset h k v n) s =
    .next ((s.issued a).issueNext a h (fun tm => tm.queue
      [⟨s.clk + 1, 0, .kset (if n then .normal else a.tm.curBank) k.toNat v.toNat⟩])) := by
  refine instr_issue hr _ .issue _ _ (fun _ ht => ht) ?_
  rw [← State.issued_clk s a]
  rfl

theorem exec_kadd {d : BitVec 8} (hr : Ready s a h (rdTok n k.toNat)) : exec (.kadd h k d n) s =
    .next ((s.issued a).issueNext a h (fun tm => tm.queue
      [⟨s.clk + 1, 0, .kadd (if n then .normal else a.tm.curBank) k.toNat d.toInt⟩])) := by
  refine instr_issue hr _ .issue _ _ (fun _ ht => ht) ?_
  rw [← State.issued_clk s a]
  rfl

/-- An Issue-class instruction that nothing stops and that does nothing. -/
theorem instr_idle {ps : List Port} (hr : Ready s a h ps) (i : Instr) (body : X → State → Res)
    (hb : body (s.viewAt a h) (s.issued a) = .issue (s.issued a)) :
    instr i h .issue ps body s = .next ((s.issued a).issueNext a h (fun tm => tm)) :=
  instr_issue hr i .issue body _ (fun _ ht => ht) (hb.trans (by rw [State.modTeam_same]))

theorem exec_kwait_of_reached {thr : BitVec 8} (hr : Ready s a h (rdTok n k.toNat))
    (hw : (a.tm.tok (if n then .normal else a.tm.curBank) k.toNat).wait thr.toNat = .ok) :
    exec (.kwait h k thr n) s = .next ((s.issued a).issueNext a h (fun tm => tm)) := by
  refine instr_idle hr _ _ ?_
  have hview : ((s.viewAt a h).tm.tok ((s.viewAt a h).bankOf n) k.toNat).wait thr.toNat = .ok := hw
  simp only [hview]

/-! ### `dly` -/

theorem exec_dly {n : BitVec 19} (hr : Ready s a h []) : exec (.dly h n) s =
    .next ((s.issued a).modTeam a.t (fun tm => (a.next h s.clk n.toNat tm).queue (a.posts h (s.clk + 2)))) := by
  show instr (.dly h n) h .issue [] (fun _ s => .delay s n.toNat) s = _
  rw [instr_ready hr]
  simp only [State.retire, State.advance_eq (s.viewAt_of a h), State.postAt_eq (s.viewAt_of a h), State.modTeam_modTeam,
    State.issued_clk]
  exact answer_of_hole_false (by simp [hr.hole])

end

/-- Settles O8: what the token instructions queue and what landing makes of it, and the forms of plain control. -/
theorem tokensAndPlainControlComplete : Obligations.TokensAndPlainControlComplete := by
  unfold Obligations.TokensAndPlainControlComplete
  refine ⟨⟨?kset, ?kadd, ?land, ?krd, ?kwait⟩, ?nop, ?dly, ?exmRd, ?exmWr, ?exmAnd, ?exmOr⟩
  case kset => exact fun _ _ _ _ _ _ hr => exec_kset hr
  case kadd => exact fun _ _ _ _ _ _ hr => exec_kadd hr
  case land => exact fun _ _ _ _ _ _ _ _ _ ht => ⟨State.land_kset ht, State.land_kadd ht⟩
  case kwait => exact fun _ _ _ _ _ _ hr hn he ho => exec_kwait_of_reached hr (Token.wait_of_reached hn he ho)
  case nop => exact fun _ _ _ hr => instr_idle hr _ _ rfl
  case dly => exact fun _ _ _ _ hr => exec_dly hr
  case krd | exmRd =>
    intros
    exact runsFixed_vecOp fun _ => rfl
  case exmWr | exmAnd | exmOr =>
    intros
    exact runsFixed_of_body (fun _ => rfl) fun _ _ => rfl

end Sys2Proof.Machine
end

section
/-! PROOFS. How operations complete, side-log entries are replayed, and exchanges time out (R106-R108, R277, R286, R431). -/

namespace Sys2Proof.Machine

/-! ### What an operation does when it may complete -/

/-- With nothing to access, nothing of the team has to come before. -/
theorem State.behind_nil (s : State) (t n : Nat) : s.behind t n [] = false := by
  simp only [State.behind, List.any_nil, Bool.or_eq_false_iff]
  refine ⟨by simp, ?_⟩
  split <;> simp

/-- With nothing to access, no link is needed. -/
theorem State.unlinked_of_chunks_nil {s : State} {tm : Team} {w : Work} (h : w.chunks = []) : s.unlinked tm w = false := by
  simp [State.unlinked, h]

theorem State.casDemote_of_none {o : Op} (s : State) (h : o.casPid = none) : s.casDemote o = s := by
  simp [State.casDemote, h]

/-- A result that is known is written; no path is demoted but for a compare-and-swap. -/
theorem State.perform_done {s : State} {id : Nat} {o : Op} {us : List Upd} (tm : Team) (ho : tget s.ops id = some o)
    (hw : o.work = .done us) (hcas : o.casPid = none) : s.perform id o tm = s.opFinish id us none := by
  simp only [State.perform, hw, State.finishKnown, ho, State.casDemote_of_none _ hcas]

/-- A failed operation posts its cause and writes nothing. -/
theorem State.perform_fail {s : State} {id c : Nat} {o : Op} (tm : Team) (ho : tget s.ops id = some o)
    (hw : o.work = .fail c) (hcas : o.casPid = none) : s.perform id o tm = s.opFinish id [] (some c) := by
  simp only [State.perform, hw, State.finishKnown, ho, State.casDemote_of_none _ hcas]

/-- A load that reads at its end writes what it reads. -/
theorem State.perform_load {s s1 : State} {id n : Nat} {o : Op} {tm : Team} {via : Via} {ty : Ty} {d : Opnd} {accs : List Acc}
    {us : List Upd} (hw : o.work = .load via ty d n accs) (hl : s.doLoad (tm.asOf id o) via ty d n accs = (.done us, s1)) :
    s.perform id o tm = s1.opFinish id us none := by
  simp only [State.perform, hw, hl]

/-! ### `TOKEN_COMPLETION` -/

section
variable {s : State} {id : Nat} {o : Op} {tm : Team} (ho : tget s.ops id = some o)

include ho

/-- An operation that was issued in this clk does not complete in it. -/
theorem exec_tokenCompletion_of_early (hat : s.clk ≤ o.at_) (hh : s.hole = false) : exec (.tokenCompletion id) s = .next s := by
  show execTokenCompletion id s = _
  simp only [execTokenCompletion, ho, if_pos hat]
  exact answer_of_hole_false hh

variable (hat : o.at_ < s.clk) (ht : tget s.teams o.team = some tm) (hord : s.postOrder id = true)
  (hsp : (o.cunit = .resid ∨ o.cunit = .coll ∨ o.cunit = .tandem ∨ o.cunit = .dec) → s.spilledOp o = false)

include hat ht hord hsp

/-- An operation of an earlier clk that comes first in its unit, is not spilled and waits for no other access, and that is
neither a collective nor an exchange that has met its partner, does what it still has to do. -/
theorem exec_tokenCompletion_of_due (hcoll : o.work ≠ .coll) (hboth : ∀ us err peer, o.work ≠ .both us err peer)
    (hb : s.behind o.team id o.work.chunks = false) (hl : s.unlinked tm o.work = false) :
    exec (.tokenCompletion id) s = answer (s.perform id o tm) := by
  have hheld : ((o.cunit = .resid || o.cunit = .coll || o.cunit = .tandem || o.cunit = .dec) && s.spilledOp o) = false := by
    simpa [or_assoc] using hsp
  show execTokenCompletion id s = _
  simp only [execTokenCompletion, ho, ht, hord, hheld, hb, hl, Nat.not_le.mpr hat, Bool.not_true, Bool.or_self,
    Bool.false_eq_true, if_false]

/-- The same for an operation that has nothing to access any more. -/
theorem exec_tokenCompletion_of_chunks_nil (hcoll : o.work ≠ .coll) (hboth : ∀ us err peer, o.work ≠ .both us err peer)
    (hc : o.work.chunks = []) : exec (.tokenCompletion id) s = answer (s.perform id o tm) :=
  exec_tokenCompletion_of_due ho hat ht hord hsp hcoll hboth (hc ▸ s.behind_nil ..) (State.unlinked_of_chunks_nil hc)

end

/-! ### `SIDE_LOG_REPLAY` and `TXCH_TIMEOUT` -/

/-- An entry with no older one of its line, whose page is not being waited for, is replayed. -/
theorem exec_sideLogReplay_of_first {s : State} {core : Nat} {e : SideEntry}
    (he : (s.core core).side.find? (fun y => y.id = e.id) = some e)
    (hfirst : ∀ y ∈ (s.core core).side, y.ctx = e.ctx → y.vline = e.vline → e.id ≤ y.id)
    (hpage : s.faulting e.ctx (e.vline * 128 / 4096) = false) :
    exec (.sideLogReplay core e.id) s = answer (s.replay core e) := by
  have hold : (s.core core).side.any (fun y => y.ctx = e.ctx && y.vline = e.vline && y.id < e.id) = false := by
    rw [List.any_eq_false]
    intro y hy
    simpa [and_assoc] using hfirst y hy
  show execSideLogReplay core e.id s = _
  simp only [execSideLogReplay, he, hold, hpage, Bool.or_self, Bool.false_eq_true, if_false]

theorem exec_txchTimeout_of_past {s : State} {id pair d n rt0 t : Nat} {o : Op} {em : Mask} {rows : List Row}
    (ho : tget s.ops id = some o) (hw : o.work = .txch pair em d n rows rt0 (some t)) (hp : s.pastTmo o.at_ rt0 t = true) :
    exec (.txchTimeout id) s = answer { s with ops := tmod s.ops id (fun o => { o with work := .fail 5 }) } := by
  show execTxchTimeout id s = _
  simp only [execTxchTimeout, ho, hw, hp, if_true]

/-- Settles O27: known, failed and loading operations complete, and the events wait for nothing else. -/
theorem operationsComplete : Obligations.OperationsComplete := by
  refine ⟨fun s id o tm _ ho hat ht hord hsp hcas => ⟨fun us hw hh => ?_, fun c hw hh => ?_,
      fun via ty d n accs us s1 hw hb hl hload hh => ?_⟩,
    fun s id o ho hat hh => exec_tokenCompletion_of_early ho hat hh,
    fun s core e he hfirst hpage hh => (exec_sideLogReplay_of_first he hfirst hpage).trans (answer_of_hole_false hh),
    fun s id o pair em d n rows rt0 t hh ho hw hp => (exec_txchTimeout_of_past ho hw hp).trans (answer_of_hole_false hh)⟩
  · rw [exec_tokenCompletion_of_chunks_nil ho hat ht hord hsp (by simp [hw]) (by simp [hw]) (by simp [hw, Work.chunks]),
      State.perform_done tm ho hw hcas, answer_of_hole_false hh]
  · rw [exec_tokenCompletion_of_chunks_nil ho hat ht hord hsp (by simp [hw]) (by simp [hw]) (by simp [hw, Work.chunks]),
      State.perform_fail tm ho hw hcas, answer_of_hole_false hh]
  · rw [exec_tokenCompletion_of_due ho hat ht hord hsp (by simp [hw]) (by simp [hw]) hb hl, State.perform_load hw hload,
      answer_of_hole_false hh]

end Sys2Proof.Machine
end

section
/-! PROOFS. What the retirement of a team leaves alone: the other teams (R33, R364, R372). -/

namespace Sys2Proof.Machine

/-! ### Tables: what erasing a key leaves -/

theorem tget_tdel_other {α : Type} (t : Tbl α) {k j : Nat} (h : j ≠ k) : tget (tdel t k) j = tget t j := by
  induction t with
  | nil => rfl
  | cons e t ih =>
    obtain ⟨i, b⟩ := e
    by_cases hi : i = k
    · subst hi
      simp [tdel, tget, Ne.symm h]
    · simp [tdel, tget, hi, ih]

/-! ### What the hub does changes no team -/

theorem State.hubWrite_teams (s : State) (c : Option Nat) (k pa v n : Nat) : (s.hubWrite c k pa v n).teams = s.teams :=
  (State.writePhys_teams ..).trans (s.touch_aside pa n).teams

theorem State.flushHalters_teams (s : State) : s.flushHalters.teams = s.teams := by
  unfold State.flushHalters
  refine foldl_keeps (P := fun a : State × List Halter => a.1.teams = s.teams) (fun a h ha => ?_) _ _ rfl
  dsimp only
  split
  · exact ha
  · exact (State.hubWrite_teams ..).trans ha

theorem State.addHalter_teams (s : State) (h : Halter) : (s.addHalter h).teams = s.teams := State.flushHalters_teams _

theorem State.queueHalt_teams (s : State) (q hcs : Nat) : (s.queueHalt q hcs).teams = s.teams := by
  unfold State.queueHalt
  dsimp only
  split
  · exact State.addHalter_teams ..
  · rfl

theorem State.writeSignal_teams (s : State) (c va val code cause : Nat) (add : Bool) :
    (s.writeSignal c va val code cause add).2.teams = s.teams := by
  have hlook := (s.look_aside c va true).teams
  unfold State.writeSignal
  split
  · rfl
  dsimp only
  split
  · rw [State.writeLine_teams]
    exact hlook
  · exact (State.report_aside ..).teams.trans hlook
  · exact (State.report_aside ..).teams.trans hlook
  · exact hlook

/-! ### Launches -/

theorem State.launchSignal_teams (s : State) (l : Nat) : (s.launchSignal l).teams = s.teams := by
  unfold State.launchSignal
  split
  · rfl
  dsimp only
  split
  · split
    · exact State.writeSignal_teams ..
    · exact State.writeSignal_teams ..
    · exact (State.queueHalt_teams ..).trans (State.writeSignal_teams ..)
  · rfl
  · rfl

theorem State.launchEnd_teams (s : State) (l : Nat) : (s.launchEnd l).teams = s.teams := by
  unfold State.launchEnd
  split
  · rfl
  · split <;> rfl

theorem State.launchCheck_teams (s : State) (l : Nat) : (s.launchCheck l).teams = s.teams := by
  unfold State.launchCheck
  split
  · rfl
  · split
    · rfl
    · exact (State.launchEnd_teams ..).trans (State.launchSignal_teams ..)

/-! ### Teams -/

theorem State.groupCheck_teams (s : State) (g : Nat) : (s.groupCheck g).teams = s.teams := by
  unfold State.groupCheck
  split
  · rfl
  · split <;> rfl

theorem State.wideGone_teams (s : State) (w : Option Nat) : (s.wideGone w).teams = s.teams := by
  unfold State.wideGone
  split
  · rfl
  · split
    · rfl
    · split <;> rfl

/-- The team is gone, and no other is touched. -/
theorem State.freeTeam_teams {s : State} {t : Nat} {tm : Team} (ht : tget s.teams t = some tm) :
    (s.freeTeam t).teams = tdel s.teams t := by
  unfold State.freeTeam
  simp only [ht]
  rw [State.launchCheck_teams]
  show (State.groupCheck _ _).teams = _
  rw [State.groupCheck_teams]
  split
  · rw [State.wideGone_teams, State.wideGone_teams]
    show tdel (State.teams (if _ then _ else _)) t = _
    split <;> rfl
  · show tdel (State.teams (if _ then _ else _)) t = _
    split <;> rfl

section
variable {s : State} {n : Nat} {tm : Team} (hn : tget s.teams n = some tm) (hlife : tm.life ≠ .draining)

include hn hlife

/-- A team that is not DRAINING stays as it is while another, or it, is looked at for retirement. -/
theorem State.tget_retireCheck (t : Nat) : tget (s.retireCheck t).teams n = some tm := by
  unfold State.retireCheck
  split
  · next tm' ht =>
    split
    · next hd =>
      have hne : n ≠ t := by
        rintro rfl
        rw [hn] at ht
        cases ht
        exact hlife hd.1
      rw [State.freeTeam_teams ht, tget_tdel_other _ hne, hn]
    · exact hn
  · exact hn

theorem State.tget_retireAll : tget s.retireAll.teams n = some tm :=
  foldl_keeps (P := fun u : State => tget u.teams n = some tm) (fun _ t hu => State.tget_retireCheck hu hlife t.1) _ _ hn

end

/-- The lifting of demotions changes nothing else of a team. -/
theorem State.tget_liftWaits {s : State} {n : Nat} {tm : Team} (hn : tget s.teams n = some tm) :
    ∃ d0 d1, tget s.liftWaits.teams n =
      some { tm with p0 := { tm.p0 with demoted := d0 }, p1 := { tm.p1 with demoted := d1 } } := by
  unfold State.liftWaits
  rw [tget_tmap, hn]
  dsimp only [Option.map_some]
  split
  · split <;> split <;> exact ⟨_, _, rfl⟩
  · exact ⟨_, _, rfl⟩

end Sys2Proof.Machine
end

section
/-! PROOFS. What landing does to registers: a write changes the lanes of its keys, and no other (R104, R147). -/

namespace Sys2Proof.Machine

/-! ### Rows -/

section
variable {ls : List Nat} {us : List LaneUpd} {i : Nat}

/-- A lane that no update names keeps its cell. -/
theorem getD_mergeRow_of_ne (old : Row) (hi : i < ls.length) (hu : ∀ u ∈ us, u.lane ≠ ls[i]) :
    (mergeRow ls old us).getD i RegCell.zero = old.getD i RegCell.zero := by
  induction ls generalizing old us i with
  | nil => simp at hi
  | cons l ls ih =>
    have htail (vs : List LaneUpd) (hv : ∀ u ∈ vs, u ∈ us) (c : RegCell) (j : Nat) (hj : i = j + 1) :
        (c :: mergeRow ls old.tail vs).getD i RegCell.zero = old.getD i RegCell.zero := by
      subst hj
      have := ih (us := vs) (i := j) old.tail (by simpa using hi) fun u hm => by simpa using hu u (hv u hm)
      cases old <;> simpa using this
    cases i with
    | zero =>
      have hne : ∀ u ∈ us, u.lane ≠ l := by simpa using hu
      cases us with
      | nil => cases old <;> rfl
      | cons u us =>
        simp only [mergeRow, hne u (by simp), if_false]
        cases old <;> rfl
    | succ j =>
      cases us with
      | nil => exact htail [] (by simp) _ j rfl
      | cons u us =>
        simp only [mergeRow]
        split
        · exact htail us (by simp +contextual) _ j rfl
        · exact htail (u :: us) (by simp) _ j rfl

/-- The first lane that the one update names takes it. -/
theorem getD_mergeRow_single {l : Nat} {x : Word} {b : Half} (old : Row) (hi : i < ls.length) (hl : ls[i] = l)
    (hfirst : ∀ j (hj : j < i), ls[j] ≠ l) : (mergeRow ls old [⟨l, some x, some b⟩]).getD i RegCell.zero = ⟨x, b⟩ := by
  induction ls generalizing old i with
  | nil => simp at hi
  | cons k ls ih =>
    cases i with
    | zero =>
      have hk : l = k := by simpa using hl.symm
      simp [mergeRow, hk]
    | succ j =>
      have hk : ¬ l = k := fun h => hfirst 0 (Nat.succ_pos j) h.symm
      simp only [mergeRow, hk, if_false]
      exact ih old.tail (by simpa using hi) (by simpa using hl) fun m hm => hfirst (m + 1) (Nat.succ_lt_succ hm)

end

theorem cell_mergeRow_of_ne {us : List LaneUpd} {l : Nat} (old : Row) (hl : l < 64) (hu : ∀ u ∈ us, u.lane ≠ l) :
    (mergeRow lanes old us).cell l = old.cell l :=
  getD_mergeRow_of_ne old (by simpa [lanes] using hl) (by simpa [lanes] using hu)

theorem cell_mergeRow_single {l : Nat} {x : Word} {b : Half} (old : Row) (hl : l < 64) :
    (mergeRow lanes old [⟨l, some x, some b⟩]).cell l = ⟨x, b⟩ :=
  getD_mergeRow_single old (by simpa [lanes] using hl) (by simp [lanes]) (by simp [lanes]; omega)

/-! ### Registers outside a set of keys -/

/-- Every register lane, predicate lane and EXM whose key is not in K reads in tm' as in tm. -/
structure SameOutside (K : Nat → Prop) (tm tm' : Team) : Prop where
  vec : ∀ r l, l < 64 → ¬ K (keyV r l) → (tm'.vrow r).cell l = (tm.vrow r).cell l
  sca : ∀ r, ¬ K (keyS r) → tm'.sreg r = tm.sreg r
  prd : ∀ p l, l < 64 → ¬ K (keyP p l) → lane (tm'.pred p).t l = lane (tm.pred p).t l ∧
    lane (tm'.pred p).d l = lane (tm.pred p).d l
  exm : ¬ K keyExm → ∀ f, (tm'.path f).exm = (tm.path f).exm

namespace SameOutside
variable {K : Nat → Prop} {tm tm' tm'' : Team}

/-- Equal registers are the same outside of any keys. -/
theorem of_eq (hv : tm'.v = tm.v) (hs : tm'.s = tm.s) (hp : tm'.p = tm.p)
    (he : ∀ f, (tm'.path f).exm = (tm.path f).exm) : SameOutside K tm tm' where
  vec r l _ _ := by rw [Team.vrow, Team.vrow, hv]
  sca r _ := by rw [Team.sreg, Team.sreg, hs]
  prd p l _ _ := by
    have : tm'.pred p = tm.pred p := by rw [Team.pred, Team.pred, hp]
    rw [this]
    exact ⟨rfl, rfl⟩
  exm _ := he

theorem refl (tm : Team) : SameOutside K tm tm := of_eq rfl rfl rfl fun _ => rfl

theorem trans (h : SameOutside K tm tm') (k : SameOutside K tm' tm'') : SameOutside K tm tm'' where
  vec r l hl hK := (k.vec r l hl hK).trans (h.vec r l hl hK)
  sca r hK := (k.sca r hK).trans (h.sca r hK)
  prd p l hl hK := ⟨(k.prd p l hl hK).1.trans (h.prd p l hl hK).1, (k.prd p l hl hK).2.trans (h.prd p l hl hK).2⟩
  exm hK f := (k.exm hK f).trans (h.exm hK f)

/-- A mixture of two predicates under a mask reads as the first outside the mask. -/
theorem lane_mix {o t m : Mask} {l : Nat} (hl : l < 64) (hm : lane m l = false) :
    lane ((o &&& ~~~m) ||| (t &&& m)) l = lane o l := by
  have hml : m[l] = false := by rwa [← BitVec.getLsbD_eq_getElem]
  simp [lane, hl, hml]

/-- A write of registers changes the lanes of its keys alone. -/
theorem apply (tm : Team) (pid : Nat) {u : Upd} (hu : ∀ k ∈ u.keys, K k) : SameOutside K tm (tm.apply pid u) := by
  cases u with
  | vec r ls =>
    refine ⟨fun r' l hl hK => ?_, fun _ _ => rfl, fun _ _ _ _ => ⟨rfl, rfl⟩, fun _ _ => rfl⟩
    by_cases hr : r' = r
    · subst hr
      have hne : ∀ u ∈ ls, u.lane ≠ l := fun u hm hlu => hK (hu _ (List.mem_map.mpr ⟨u, hm, by rw [hlu]⟩))
      simpa [Team.apply, Team.vrow] using cell_mergeRow_of_ne (tm.vrow r') hl hne
    · simp [Team.apply, Team.vrow, tgetD_tset_other _ _ _ _ _ hr]
  | sca r x b =>
    refine ⟨fun _ _ _ _ => rfl, fun r' hK => ?_, fun _ _ _ _ => ⟨rfl, rfl⟩, fun _ _ => rfl⟩
    have hr : r' ≠ r := fun h => hK (hu _ (by simp [Upd.keys, h]))
    exact tgetD_tset_other _ _ _ _ _ hr
  | prd p m t d =>
    by_cases hp7 : p = 7
    · rw [show tm.apply pid (.prd p m t d) = tm from if_pos hp7]
      exact refl tm
    rw [show tm.apply pid (.prd p m t d) = { tm with p := tset tm.p p _ } from if_neg hp7]
    refine ⟨fun _ _ _ _ => rfl, fun _ _ => rfl, fun p' l hl hK => ?_, fun _ _ => rfl⟩
    by_cases hp : p' = p
    · subst hp
      have hm : lane m l = false := by
        by_contra hm
        exact hK (hu _ (List.mem_map.mpr ⟨l, by simpa [lanesOf, lanes, hl] using hm, rfl⟩))
      simp only [Team.pred, hp7, if_false, tgetD_tset_self]
      exact ⟨lane_mix hl hm, lane_mix hl hm⟩
    · simp [Team.pred, tgetD_tset_other _ _ _ _ _ hp]
  | exm v =>
    exact ⟨fun _ _ _ _ => rfl, fun _ _ => rfl, fun _ _ _ _ => ⟨rfl, rfl⟩,
      fun hK => absurd (hu _ (List.mem_singleton.mpr rfl)) hK⟩

theorem unspin (tm : Team) (pid : Nat) : SameOutside K tm (tm.unspin pid) := by
  have hpath (p : Path) : (if p.pid = pid then { p with spin := 0 } else p).exm = p.exm := by split <;> rfl
  exact of_eq rfl rfl rfl fun f => by cases f <;> exact hpath _

theorem clash (tm : Team) (ks : List Nat) : SameOutside K tm (tm.clash ks) := by
  have hpath (p : Path) : (p.clash ks).exm = p.exm := by unfold Path.clash; split <;> rfl
  exact of_eq rfl rfl rfl fun f => by cases f <;> exact hpath _

end SameOutside

/-! ### A landing, seen by its team -/

/-- The register lanes that something in flight will write. -/
def Pend.keys (p : Pend) : List Nat := match p.act with | .upd u => u.keys | _ => []

/-- The team in which a register write has landed. -/
def Team.landUpd (tm : Team) (pid : Nat) (u : Upd) : Team :=
  let tm' := { tm.apply pid u with corrupt := tm.corrupt.filter (fun c => !u.mends c) }
  (if tm.changes pid u then tm'.unspin pid else tm').clash u.keys

/-- Team t, as tm gives it, in which something that was in flight has landed. -/
def Team.land (tm : Team) (t : Nat) (p : Pend) : Team :=
  match p.act with
  | .upd u => tm.landUpd p.pid u
  | .post b k e => tm.post b k e
  | .kset b k v => { tm.setTok b k (Token.kset v) with corrupt := tm.corrupt.filter (· ≠ .token t k (b = .trap)) }
  | .kadd b k d => tm.setTok b k ((tm.tok b k).kadd d)

theorem State.land_teams (s : State) (t : Nat) (p : Pend) : (s.land t p).teams = tmod s.teams t (fun tm => tm.land t p) := by
  obtain ⟨due, pid, act⟩ := p
  cases act with
  | upd u => exact (congrArg State.teams (s.landUpd_eq t pid u)).trans rfl
  | post | kset | kadd => rfl

/-- What landings of writes to keys in K make of a team. -/
structure Lands (K : Nat → Prop) (tm tm' : Team) : Prop where
  landed : Landed tm tm'
  pend   : tm'.pend = tm.pend
  regs   : SameOutside K tm tm'

namespace Lands
variable {K : Nat → Prop} {tm tm' tm'' : Team}

theorem refl (tm : Team) : Lands K tm tm := ⟨.refl tm, rfl, .refl tm⟩

theorem trans (h : Lands K tm tm') (k : Lands K tm' tm'') : Lands K tm tm'' :=
  ⟨h.landed.trans k.landed, k.pend.trans h.pend, h.regs.trans k.regs⟩

theorem setTok (tm : Team) (b : Bank) (k : Nat) (t : Token) : Lands K tm (tm.setTok b k t) := by
  cases b <;> exact ⟨rfl, rfl, .of_eq rfl rfl rfl fun _ => rfl⟩

theorem setCorrupt (tm : Team) (cs : List ErrSite) : Lands K tm { tm with corrupt := cs } :=
  ⟨rfl, rfl, .of_eq rfl rfl rfl fun _ => rfl⟩

theorem unspin (tm : Team) (pid : Nat) : Lands K tm (tm.unspin pid) := ⟨.unspin tm pid, rfl, .unspin tm pid⟩

theorem clash (tm : Team) (ks : List Nat) : Lands K tm (tm.clash ks) := ⟨.clash tm ks, rfl, .clash tm ks⟩

theorem apply (tm : Team) (pid : Nat) {u : Upd} (hu : ∀ k ∈ u.keys, K k) : Lands K tm (tm.apply pid u) := by
  refine ⟨.apply tm pid u, ?_, .apply tm pid hu⟩
  cases u with
  | prd p =>
    simp only [Team.apply]
    split <;> rfl
  | _ => rfl

/-- Beside its write, a landing touches no register. -/
theorem landUpd_of_apply (tm : Team) (pid : Nat) (u : Upd) : Lands K (tm.apply pid u) (tm.landUpd pid u) := by
  refine trans (setCorrupt _ (tm.corrupt.filter fun c => !u.mends c)) (trans ?_ (clash _ _))
  split
  · exact unspin _ _
  · exact refl _

theorem land (tm : Team) (t : Nat) {p : Pend} (hp : ∀ k ∈ p.keys, K k) : Lands K tm (tm.land t p) := by
  obtain ⟨due, pid, act⟩ := p
  cases act with
  | upd u => exact (apply tm pid hp).trans (landUpd_of_apply tm pid u)
  | post => exact setTok ..
  | kset => exact (setTok tm _ _ _).trans (setCorrupt _ _)
  | kadd => exact setTok ..

/-- A team of a state in which team t is changed by landings. -/
theorem tget_modTeam {s : State} {t n : Nat} {f : Team → Team} (hn : tget s.teams n = some tm)
    (hf : n = t → Lands K tm (f tm)) : ∃ tm', tget (s.modTeam t f).teams n = some tm' ∧ Lands K tm tm' := by
  by_cases h : n = t
  · subst h
    exact ⟨_, by rw [State.modTeam_teams, tget_tmod_self, hn]; rfl, hf rfl⟩
  · exact ⟨tm, (tget_tmod_other s.teams t n f h).trans hn, refl tm⟩

end Lands

/-! ### All landings of a clk, seen by a team -/

section
variable {K : Nat → Prop} {n t : Nat}

theorem State.land_lands {s : State} {tm : Team} (hn : tget s.teams n = some tm) {p : Pend}
    (hp : n = t → ∀ k ∈ p.keys, K k) : ∃ tm', tget (s.land t p).teams n = some tm' ∧ Lands K tm tm' := by
  rw [State.land_teams]
  exact Lands.tget_modTeam hn fun h => .land tm t (hp h)

theorem State.lands_lands {ps : List Pend} (hp : n = t → ∀ p ∈ ps, ∀ k ∈ p.keys, K k) :
    ∀ {s : State} {tm : Team}, tget s.teams n = some tm →
      ∃ tm', tget (ps.foldl (fun s p => s.land t p) s).teams n = some tm' ∧ Lands K tm tm' := by
  induction ps with
  | nil => exact fun hn => ⟨_, hn, .refl _⟩
  | cons p ps ih =>
    intro s tm hn
    obtain ⟨tm1, h1, l1⟩ := State.land_lands hn fun h => hp h p (by simp)
    obtain ⟨tm2, h2, l2⟩ := ih (fun h q hq => hp h q (by simp [hq])) h1
    exact ⟨tm2, h2, l1.trans l2⟩

theorem State.landPosts_lands {ps : List Pend} (hp : n = t → ∀ p ∈ ps, ∀ k ∈ p.keys, K k) :
    ∀ {ds : List (Bank × Nat × Nat)} {s : State} {tm : Team}, tget s.teams n = some tm →
      ∃ tm', tget (s.landPosts t ds ps).teams n = some tm' ∧ Lands K tm tm' := by
  induction ps with
  | nil => exact fun hn => ⟨_, hn, .refl _⟩
  | cons p ps ih =>
    intro ds s tm hn
    have hrest := @ih fun h q hq => hp h q (by simp [hq])
    have hland : ∃ tm', tget ((s.land t p).landPosts t ds ps).teams n = some tm' ∧ Lands K tm tm' := by
      obtain ⟨tm1, h1, l1⟩ := State.land_lands hn fun h => hp h p (by simp)
      obtain ⟨tm2, h2, l2⟩ := hrest h1
      exact ⟨tm2, h2, l1.trans l2⟩
    unfold State.landPosts
    split
    · next b k e _ =>
      split
      · obtain ⟨tm1, h1, l1⟩ := Lands.tget_modTeam (t := t) (f := fun tm => tm.setTok b k ((tm.tok b k).mark e)) hn
          fun _ => Lands.setTok (K := K) ..
        obtain ⟨tm2, h2, l2⟩ := hrest h1
        exact ⟨tm2, h2, l1.trans l2⟩
      · exact hland
    · exact hland

end

/-- The team with nothing in flight that is due at clk m. -/
def Team.undue (tm : Team) (m : Nat) : Team := { tm with pend := tm.pend.filter (fun p => m < p.due) }

theorem Team.undue_of_pend_nil {tm : Team} {m : Nat} (h : tm.pend = []) : tm.undue m = tm := by
  rw [Team.undue, h, List.filter_nil, ← h]

theorem Team.undue_undue (tm : Team) (m : Nat) : (tm.undue m).undue m = tm.undue m := by
  simp [Team.undue]

theorem Lands.undue {K : Nat → Prop} {tm tm' : Team} (h : Lands K tm tm') (m : Nat) :
    Lands K (tm.undue m) (tm'.undue m) := by
  obtain ⟨hl, hp, hr⟩ := h
  refine ⟨?_, congrArg (List.filter _) hp, ⟨hr.vec, hr.sca, hr.prd, hr.exm⟩⟩
  unfold Landed Team.undue at *
  rw [hl]

section
variable {K : Nat → Prop} {n m : Nat} {s : State} {tm : Team}

/-- What is due of team t lands; it stays in flight no more. -/
theorem State.landDue_lands (t : Nat) (hn : tget s.teams n = some tm)
    (hK : ∀ p ∈ tm.pend, p.due ≤ m → ∀ k ∈ p.keys, K k) :
    ∃ tm', tget (s.landDue t m).teams n = some tm' ∧ Lands K (if n = t then tm.undue m else tm) tm' := by
  unfold State.landDue
  split
  · next ht =>
    have hne : n ≠ t := by rintro rfl; simp [hn] at ht
    exact ⟨tm, hn, by rw [if_neg hne]; exact .refl tm⟩
  · next tmt ht =>
    have hdue : n = t → ∀ p ∈ tmt.pend.filter (fun p => decide (p.due ≤ m)), ∀ k ∈ p.keys, K k := by
      rintro rfl p hp
      rw [hn] at ht
      cases ht
      simp only [List.mem_filter, decide_eq_true_eq] at hp
      exact hK p hp.1 hp.2
    have h0 : tget (s.modTeam t (fun tm => tm.undue m)).teams n = some (if n = t then tm.undue m else tm) := by
      split
      · next h => subst h; simp [hn]
      · next h => simp [tget_tmod_other _ _ _ _ h, hn]
    obtain ⟨tm1, h1, l1⟩ := State.lands_lands (fun h p hp => hdue h p (List.mem_of_mem_filter hp)) h0
    obtain ⟨tm2, h2, l2⟩ := State.landPosts_lands (fun h p hp => hdue h p (List.mem_of_mem_filter hp)) h1
    exact ⟨tm2, h2, l1.trans l2⟩

/-- What is due of all teams of a list lands, of each once. -/
theorem State.landDues_lands (ts : List Nat) : ∀ {s : State} {tm : Team}, s.clk = m → tget s.teams n = some tm →
    (∀ p ∈ tm.pend, p.due ≤ m → ∀ k ∈ p.keys, K k) →
    ∃ tm', tget (ts.foldl (fun s t => s.landDue t s.clk) s).teams n = some tm' ∧
      Lands K (if n ∈ ts then tm.undue m else tm) tm' := by
  induction ts with
  | nil => exact fun _ hn _ => ⟨_, hn, .refl _⟩
  | cons t ts ih =>
    rintro s tm rfl hn hK
    obtain ⟨tm1, h1, l1⟩ := State.landDue_lands t hn hK
    have hclk : (s.landDue t s.clk).clk = s.clk := by rw [s.landDue_landing t s.clk]
    have hpend : ∀ p ∈ tm1.pend, p ∈ tm.pend := by
      rw [l1.pend]
      split
      · exact fun p hp => List.mem_of_mem_filter hp
      · exact fun p hp => hp
    obtain ⟨tm2, h2, l2⟩ := ih hclk h1 fun p hp => hK p (hpend p hp)
    refine ⟨tm2, h2, ?_⟩
    by_cases hts : n ∈ ts
    · rw [if_pos hts] at l2
      rw [if_pos (List.mem_cons_of_mem t hts)]
      refine Lands.trans ?_ l2
      have := l1.undue s.clk
      split at this
      · rwa [Team.undue_undue] at this
      · exact this
    · rw [if_neg hts] at l2
      by_cases hnt : n = t
      · rw [if_pos hnt] at l1
        rw [if_pos (by simp [hnt])]
        exact l1.trans l2
      · rw [if_neg hnt] at l1
        rw [if_neg (by simp [hnt, hts])]
        exact l1.trans l2

/-- The one write that is in flight lands in its clk. -/
theorem State.landDue_single {c pid : Nat} {u : Upd} (hn : tget s.teams n = some tm) (hp : tm.pend = [⟨c, pid, .upd u⟩])
    (hc : c ≤ m) : tget (s.landDue n m).teams n = some ((tm.undue m).landUpd pid u) := by
  have hland (s' : State) : s'.landPosts n [] [⟨c, pid, .upd u⟩] = s'.land n ⟨c, pid, .upd u⟩ := rfl
  simp [State.landDue, hn, hp, hc, Pend.isTok, Team.debts, hland, State.land_teams, Team.land, Team.undue]

theorem Landed.life {tm tm' : Team} (h : Landed tm tm') : tm'.life = tm.life := by rw [h]

/-- The same among all teams of a list: the write lands in the team's turn, and nothing of the team lands after it. -/
theorem State.landDues_single {c pid : Nat} {u : Upd} (hc : c ≤ m) (ts : List Nat) : ∀ {s : State} {tm : Team}, s.clk = m →
    tget s.teams n = some tm → tm.pend = [⟨c, pid, .upd u⟩] → n ∈ ts →
    ∃ tm0 tm', tget (ts.foldl (fun s t => s.landDue t s.clk) s).teams n = some tm' ∧ tm'.life = tm.life ∧
      SameOutside (fun _ => False) (Team.apply tm0 pid u) tm' := by
  induction ts with
  | nil => exact fun _ _ _ h => nomatch h
  | cons t ts ih =>
    rintro s tm rfl hn hp hmem
    have hclk : (s.landDue t s.clk).clk = s.clk := by rw [s.landDue_landing t s.clk]
    by_cases hnt : n = t
    · subst hnt
      have l1 : Lands (fun _ => True) (tm.undue s.clk) ((tm.undue s.clk).landUpd pid u) :=
        (Lands.apply _ pid fun _ _ => trivial).trans (.landUpd_of_apply ..)
      have hnone : ((tm.undue s.clk).landUpd pid u).pend = [] := l1.pend.trans (by simp [Team.undue, hp, hc])
      obtain ⟨tm2, h2, l2⟩ := State.landDues_lands (K := fun _ => False) ts hclk (State.landDue_single hn hp hc)
        (by simp [hnone])
      have hrest : (if n ∈ ts then ((tm.undue s.clk).landUpd pid u).undue s.clk else (tm.undue s.clk).landUpd pid u) =
          (tm.undue s.clk).landUpd pid u := by
        rw [Team.undue_of_pend_nil hnone, ite_self]
      rw [hrest] at l2
      exact ⟨_, tm2, h2, (l1.landed.trans l2.landed).life, (Lands.landUpd_of_apply ..).regs.trans l2.regs⟩
    · obtain ⟨tm1, h1, l1⟩ := State.landDue_lands (K := fun _ => True) t hn fun _ _ _ _ _ => trivial
      rw [if_neg hnt] at l1
      obtain ⟨tm0, tm2, h2, hlife, hr⟩ := ih hclk h1 (l1.pend.trans hp) ((List.mem_cons.mp hmem).resolve_left hnt)
      exact ⟨tm0, tm2, h2, hlife.trans l1.landed.life, hr⟩

end

/-! ### The next clk -/

section
variable {n : Nat} {s : State} {tm : Team}

theorem mem_tkeys_of_tget {α : Type} {t : Tbl α} {k : Nat} {a : α} (h : tget t k = some a) : k ∈ tkeys t := by
  induction t with
  | nil => cases h
  | cons e t ih =>
    obtain ⟨j, b⟩ := e
    by_cases hj : j = k
    · simp [tkeys, hj]
    · exact List.mem_cons_of_mem _ (ih (by simpa [tget, hj] using h))

/-- The state in which time has passed, and nothing has landed yet (R5). -/
def State.passed (s : State) : State :=
  { s with clk := s.clk + 1, rt := s.rt + (s.rtPhase + 100) / s.fclk, rtPhase := (s.rtPhase + 100) % s.fclk, cur := none }

theorem State.nextClk_eq (s : State) : s.nextClk =
    ((tkeys s.teams).foldl (fun s t => s.landDue t s.clk) s.passed).retireAll.liftWaits := rfl

/-- A team but for its demotions. -/
def Team.setDemoted (tm : Team) (d0 d1 : Bool) : Team :=
  { tm with p0 := { tm.p0 with demoted := d0 }, p1 := { tm.p1 with demoted := d1 } }

theorem SameOutside.setDemoted {K : Nat → Prop} (tm : Team) (d0 d1 : Bool) : SameOutside K tm (tm.setDemoted d0 d1) :=
  .of_eq rfl rfl rfl fun f => by cases f <;> rfl

/-- A team that is not DRAINING begins the next clk as the landings leave it, but for demotions that lift. -/
theorem State.tget_nextClk (hlife : tm.life ≠ .draining)
    (h : tget ((tkeys s.teams).foldl (fun s t => s.landDue t s.clk) s.passed).teams n = some tm) :
    ∃ d0 d1, tget s.nextClk.teams n = some (tm.setDemoted d0 d1) := by
  rw [State.nextClk_eq]
  exact State.tget_liftWaits (State.tget_retireAll h hlife)

variable (hn : tget s.teams n = some tm) (hlife : tm.life ≠ .draining)

include hn hlife

/-- A team in the next clk: what is due has landed, and nothing else has happened to it. -/
theorem State.nextClk_lands {K : Nat → Prop} (hK : ∀ p ∈ tm.pend, p.due ≤ s.clk + 1 → ∀ k ∈ p.keys, K k) :
    ∃ tm1 d0 d1, tget s.nextClk.teams n = some (Team.setDemoted tm1 d0 d1) ∧ Lands K (tm.undue (s.clk + 1)) tm1 := by
  obtain ⟨tm1, h1, l1⟩ := State.landDues_lands (tkeys s.teams) (m := s.clk + 1) (s := s.passed) rfl hn hK
  rw [if_pos (mem_tkeys_of_tget hn)] at l1
  obtain ⟨d0, d1, h2⟩ := State.tget_nextClk (by rwa [l1.landed.life]) h1
  exact ⟨tm1, d0, d1, h2, l1⟩

/-- One write that is in flight and due lands when the next clk begins. -/
theorem State.nextClk_single {c pid : Nat} {u : Upd} (hp : tm.pend = [⟨c, pid, .upd u⟩]) (hc : c ≤ s.clk + 1) :
    ∃ tm0 tm', tget s.nextClk.teams n = some tm' ∧ SameOutside (fun _ => False) (Team.apply tm0 pid u) tm' := by
  obtain ⟨tm0, tm1, h1, hl1, hr⟩ := State.landDues_single (m := s.clk + 1) (s := s.passed) hc (tkeys s.teams) rfl hn hp
    (mem_tkeys_of_tget hn)
  obtain ⟨d0, d1, h2⟩ := State.tget_nextClk (by rwa [hl1]) h1
  exact ⟨tm0, _, h2, hr.trans (.setDemoted ..)⟩

end

/-- Settles O58: all landings of the clk, and then the landing of one write. -/
theorem landingWritesOnlyWhatIsDue : Obligations.LandingWritesOnlyWhatIsDue := by
  intro s n tm hn hlife due
  refine ⟨?_, fun c pid r x b hp hc => ?_, fun c pid r l x b hl hp hc => ?_⟩
  · have hK : ∀ p ∈ tm.pend, p.due ≤ s.clk + 1 → ∀ k ∈ p.keys, due k := by
      rintro ⟨c, pid, act⟩ hp hd k hk
      cases act with
      | upd u => exact ⟨_, hp, hd, u, rfl, hk⟩
      | _ => cases hk
    obtain ⟨tm1, d0, d1, h1, l1⟩ := State.nextClk_lands hn hlife hK
    obtain ⟨hvec, hsca, hprd, hexm⟩ := l1.regs.trans (.setDemoted tm1 d0 d1)
    have hrest := l1.landed
    unfold Landed at hrest
    refine ⟨_, h1, l1.pend, hvec, hsca, hprd, hexm, ?_⟩
    rw [hrest]
    exact ⟨rfl, rfl, rfl, rfl, rfl, rfl, rfl, rfl, rfl, rfl⟩
  · obtain ⟨tm0, tm', h, hr⟩ := State.nextClk_single hn hlife hp hc
    exact ⟨tm', h, (hr.sca r id).trans (tgetD_tset_self ..)⟩
  · obtain ⟨tm0, tm', h, hr⟩ := State.nextClk_single hn hlife hp hc
    refine ⟨tm', h, (hr.vec r l hl id).trans ?_⟩
    rw [Team.apply, Team.vrow, tgetD_tset_self]
    exact cell_mergeRow_single _ hl

end Sys2Proof.Machine
end

section
/-! PROOFS. What an instruction of `formOf` changes: it computes, and what it puts in flight stays within its destination
ports (R102, R104, R147). -/

namespace Sys2Proof.Machine

/-! ### Keys that ports write -/

/-- The key is of a lane that a port of ps writes under the mask e, or of a lane of p7. -/
def Dest (ps : List Port) (e : Mask) (k : Nat) : Prop :=
  (keyP 7 0 ≤ k ∧ k < keyP 8 0) ∨ ∃ p ∈ ps, p.wr = true ∧ p.hit e k = true

theorem Port.hit_keyV {p : Port} {e : Mask} {r l : Nat} (hr : r < 1024) (hl : l < 64) :
    p.hit e (keyV r l) = (p.vs.contains r && lane e l) := by
  have hlt : r * 64 + l < 2 ^ 16 := by omega
  have hd : (r * 64 + l) / 64 = r := by omega
  have hm : (r * 64 + l) % 64 = l := by omega
  rw [keyV, Port.hit, if_pos hlt, hd, hm]

theorem Port.hit_keyS {p : Port} {e : Mask} {r : Nat} (hr : r < 2 ^ 16) : p.hit e (keyS r) = p.ss.contains r := by
  have h1 : ¬ 2 ^ 16 + r < 2 ^ 16 := by omega
  have h2 : 2 ^ 16 + r < 2 ^ 17 := by omega
  rw [keyS, Port.hit, if_neg h1, if_pos h2, Nat.add_sub_cancel_left]

theorem Port.hit_keyP {p : Port} {e : Mask} {r l : Nat} (hr : r < 8) (hl : l < 64) :
    p.hit e (keyP r l) = (p.ps.contains r && lane e l) := by
  have h1 : ¬ 2 ^ 17 + r * 64 + l < 2 ^ 16 := by omega
  have h2 : ¬ 2 ^ 17 + r * 64 + l < 2 ^ 17 := by omega
  have h3 : 2 ^ 17 + r * 64 + l < 2 ^ 18 := by omega
  have hs : 2 ^ 17 + r * 64 + l - 2 ^ 17 = r * 64 + l := by omega
  have hd : (r * 64 + l) / 64 = r := by omega
  have hm : (r * 64 + l) % 64 = l := by omega
  rw [keyP, Port.hit, if_neg h1, if_neg h2, if_pos h3, hs, hd, hm]

section
variable {ps : List Port} {e : Mask} {n j l : Nat}

theorem dest_vector {k : BitVec 8} (hd : wr n (.v k) ⊆ ps) (hj : j < n) (hj2 : j < 2) (hl : l < 64) (he : lane e l = true) :
    Dest ps e (keyV (k.toNat + j) l) := by
  have hk := k.isLt
  refine .inr ⟨_, hd (List.mem_singleton.mpr rfl), rfl, ?_⟩
  rw [Port.hit_keyV (by omega) hl, he, Bool.and_true, List.contains_iff_mem]
  exact List.mem_map.mpr ⟨j, List.mem_range.mpr hj, rfl⟩

theorem dest_scalar {k : BitVec 6} (hd : wr n (.s k) ⊆ ps) (hj : j < n) (hj2 : j < 2) : Dest ps e (keyS (k.toNat + j)) := by
  have hk := k.isLt
  refine .inr ⟨_, hd (List.mem_singleton.mpr rfl), rfl, ?_⟩
  rw [Port.hit_keyS (by omega), List.contains_iff_mem]
  exact List.mem_map.mpr ⟨j, List.mem_range.mpr hj, rfl⟩

theorem dest_pred {k : BitVec 3} (hd : wr n (.x (.p k)) ⊆ ps) (hl : l < 64) (he : lane e l = true) :
    Dest ps e (keyP k.toNat l) := by
  by_cases h7 : k = 7
  · subst h7
    have h7 : (7 : BitVec 3).toNat = 7 := rfl
    exact .inl (by simp only [keyP, h7]; omega)
  · have hk := k.isLt
    have hport : wr n (.x (.p k)) = [⟨(Opnd.x (.p k)).code, true, [], [], [k.toNat], false, []⟩] := if_neg h7
    refine .inr ⟨_, hd (hport ▸ List.mem_singleton.mpr rfl), rfl, ?_⟩
    simp [Port.hit_keyP hk hl, he]

end

/-! ### Writes of results -/

/-- Every register lane that the writes cover is a destination. -/
def Confined (ps : List Port) (e : Mask) (us : List Upd) : Prop := ∀ u ∈ us, ∀ k ∈ u.keys, Dest ps e k

section
variable {ps : List Port} {e : Mask} {n j : Nat}

theorem dest_of_mem_vec {k : BitVec 8} {ls : List LaneUpd} (hd : wr n (.v k) ⊆ ps) (hj : j < n) (hj2 : j < 2)
    (hls : ∀ x ∈ ls, x.lane ∈ lanesOf e) : ∀ key ∈ (Upd.vec (k.toNat + j) ls).keys, Dest ps e key := by
  intro key hkey
  obtain ⟨x, hx, rfl⟩ := List.mem_map.mp hkey
  obtain ⟨hl, he⟩ := lane_of_mem_lanesOf (hls x hx)
  exact dest_vector hd hj hj2 hl he

theorem dest_of_mem_sca {k : BitVec 6} {x : Option Word} {b : Option Half} (hd : wr n (.s k) ⊆ ps) (hj : j < n) (hj2 : j < 2) :
    ∀ key ∈ (Upd.sca (k.toNat + j) x b).keys, Dest ps e key := by
  intro key hkey
  cases List.mem_singleton.mp hkey
  exact dest_scalar hd hj hj2

/-- Results of lanes of e stay within D, a pair for 64 bits. -/
theorem confined_dstUpds {d : Opnd} {w64 : Bool} {rs : List (Nat × El)} (hd : wr n d ⊆ ps) (hn : (if w64 then 2 else 1) ≤ n)
    (hrs : ∀ r ∈ rs, r.1 ∈ lanesOf e) : Confined ps e (dstUpds d w64 rs) := by
  have h0 : 0 < n := by split at hn <;> omega
  have h1 : w64 = true → 1 < n := by rintro rfl; exact hn
  intro u hu
  cases d with
  | v k =>
    have hls (g : Nat × El → LaneUpd) (hg : ∀ r, (g r).lane = r.1) : ∀ x ∈ rs.map g, x.lane ∈ lanesOf e := by
      intro x hx
      obtain ⟨r, hr, rfl⟩ := List.mem_map.mp hx
      exact hg r ▸ hrs r hr
    rcases List.mem_cons.mp hu with rfl | hu
    · exact dest_of_mem_vec (j := 0) hd h0 (by omega) (hls _ fun _ => rfl)
    · cases w64 with
      | false => cases hu
      | true =>
        cases List.mem_singleton.mp hu
        exact dest_of_mem_vec (j := 1) hd (h1 rfl) (by omega) (hls _ fun _ => rfl)
  | s k =>
    cases hh : rs.head? with
    | none => simp [dstUpds, hh] at hu
    | some r =>
      simp only [dstUpds, hh] at hu
      rcases List.mem_cons.mp hu with rfl | hu
      · exact dest_of_mem_sca (j := 0) hd h0 (by omega)
      · cases w64 with
        | false => cases hu
        | true =>
          cases List.mem_singleton.mp hu
          exact dest_of_mem_sca (j := 1) hd (h1 rfl) (by omega)
  | i | x => cases hu

/-- Writes of shadows of lanes of e stay within D. -/
theorem confined_shadowUpds {d : Opnd} {rs : List (Nat × Half)} (hd : wr 1 d ⊆ ps) (hrs : ∀ r ∈ rs, r.1 ∈ lanesOf e) :
    Confined ps e (shadowUpds d rs) := by
  intro u hu
  cases d with
  | v k =>
    cases List.mem_singleton.mp hu
    refine dest_of_mem_vec (j := 0) hd (by omega) (by omega) fun x hx => ?_
    obtain ⟨r, hr, rfl⟩ := List.mem_map.mp hx
    exact hrs r hr
  | s k =>
    cases hh : rs.head? with
    | none => simp [shadowUpds, hh] at hu
    | some r =>
      simp only [shadowUpds, hh] at hu
      cases List.mem_singleton.mp hu
      exact dest_of_mem_sca (j := 0) hd (by omega) (by omega)
  | i | x => cases hu

/-- A write of a predicate under the mask e stays within it. -/
theorem confined_prd {k : BitVec 3} {t d : Mask} (hd : wr n (.x (.p k)) ⊆ ps) : Confined ps e [.prd k.toNat e t d] := by
  intro u hu key hkey
  cases List.mem_singleton.mp hu
  obtain ⟨l, hl, rfl⟩ := List.mem_map.mp hkey
  obtain ⟨hl, he⟩ := lane_of_mem_lanesOf hl
  exact dest_pred hd hl he

/-- The destination lanes of an operation are those of D. -/
theorem dest_of_mem_dstKeys {d : Opnd} {m : Nat} (hd : wr n d ⊆ ps) (hn : m ≤ n) (hm : m ≤ 2) :
    ∀ key ∈ dstKeys d m e, Dest ps e key := by
  intro key hkey
  cases d with
  | v k =>
    obtain ⟨j, hj, hkey⟩ := List.mem_flatMap.mp hkey
    obtain ⟨l, hl, rfl⟩ := List.mem_map.mp hkey
    have hj := List.mem_range.mp hj
    obtain ⟨hl, he⟩ := lane_of_mem_lanesOf hl
    exact dest_vector hd (by omega) (by omega) hl he
  | s k =>
    simp only [dstKeys] at hkey
    split at hkey
    · cases hkey
    · obtain ⟨j, hj, rfl⟩ := List.mem_map.mp hkey
      have hj := List.mem_range.mp hj
      exact dest_scalar hd (by omega) (by omega)
  | i | x => cases hkey

end

/-- An instruction computes lanes of its effective mask alone. -/
theorem X.mem_lanesOf_of_mem_work {x : X} {d : Opnd} {l : Nat} (h : l ∈ x.work d) : l ∈ lanesOf x.e := by
  cases d with
  | s k => exact List.mem_of_head? (Option.mem_toList.mp h)
  | v | i | x => exact h

/-- Results of the lanes that the instruction computes stay within D. -/
theorem X.confined_work {ps : List Port} {x : X} {d : Opnd} {w64 : Bool} {f : Nat → El}
    (hd : wr (if w64 then 2 else 1) d ⊆ ps) : Confined ps x.e (dstUpds d w64 ((x.work d).map (fun l => (l, f l)))) := by
  refine confined_dstUpds hd le_rfl fun r hr => ?_
  obtain ⟨l, hl, rfl⟩ := List.mem_map.mp hr
  exact X.mem_lanesOf_of_mem_work hl

/-! ### What a meaning of `formOf` answers -/

/-- An update of a team that touches generators alone (R86). -/
def GensOnly (g : Team → Team) : Prop := ∀ tm, g tm = { tm with gens := (g tm).gens }

theorem gensOnly_id : GensOnly id := fun _ => rfl
theorem gensOnly_setGens (gs : List (Nat × Word)) : GensOnly (fun tm => tm.setGens gs) := fun _ => rfl

/-- A meaning of the class c that works from x answers register writes, or an operation, whose destinations are ports of ps,
and changes generators at most. -/
inductive Computes (ps : List Port) (x : X) (s : State) : Cls → Res → Prop
  | fixed {l : Nat} {us : List Upd} (g : Team → Team) (hl : 0 < l) (hg : GensOnly g) (hus : Confined ps x.e us) :
    Computes ps x s (.fixed l) (.fixed (s.modTeam x.t g) us)
  | token {u : CUnit} {o : Op} (g : Team → Team) (hg : GensOnly g) (hteam : o.team = x.t) (ho : ∀ k ∈ o.dst, Dest ps x.e k) :
    Computes ps x s (.token u) (.token (s.modTeam x.t g) o)

namespace Computes
variable {ps : List Port} {x : X} {s : State} {l n : Nat} {d : Opnd} {w64 : Bool}

/-- Writes alone. -/
theorem writes {us : List Upd} (hl : 0 < l) (hus : Confined ps x.e us) : Computes ps x s (.fixed l) (.fixed s us) := by
  have h := fixed (s := s) id hl gensOnly_id hus
  rwa [show s.modTeam x.t id = s from s.modTeam_same x.t] at h

section
variable (hd : wr (if w64 then 2 else 1) d ⊆ ps)
include hd

theorem vecOp {f : X → Nat → El} (hl : 0 < l) : Computes ps x s (.fixed l) (vecOp d w64 f x s) :=
  writes hl (X.confined_work hd)

theorem vecOpG {f : X → Nat → Word → El × Word} (hl : 0 < l) : Computes ps x s (.fixed l) (vecOpG d w64 f x s) := by
  refine fixed _ hl (gensOnly_setGens _) (confined_dstUpds hd le_rfl fun r hr => ?_)
  simp only [List.map_map, List.mem_map] at hr
  obtain ⟨l, hl, rfl⟩ := hr
  exact X.mem_lanesOf_of_mem_work hl

theorem tokOp {u : CUnit} {f : X → Nat → El} : Computes ps x s (.token u) (tokOp u d w64 f x s) := by
  have h := token (s := s) (u := u) (o := x.op s u (dstKeys d (if w64 then 2 else 1) x.e) (.done (laneWrites d w64 f x))) id
    gensOnly_id rfl (dest_of_mem_dstKeys hd le_rfl (by split <;> omega))
  rwa [show s.modTeam x.t id = s from s.modTeam_same x.t] at h

theorem tokOpG {u : CUnit} {f : X → Nat → Word → El × Word} : Computes ps x s (.token u) (tokOpG u d w64 f x s) :=
  token _ (gensOnly_setGens _) rfl (dest_of_mem_dstKeys hd le_rfl (by split <;> omega))

end

theorem predOp {k : BitVec 3} {f : X → Nat → Bool × Bool} (hd : wrPred k ⊆ ps) (hl : 0 < l) :
    Computes ps x s (.fixed l) (predOp k f x s) :=
  writes hl (confined_prd hd)

end Computes

theorem fltLat_pos (t : Ty) : 0 < fltLat t := by cases t <;> decide

/-- A vote writes a predicate, but for a ballot (R139). -/
theorem pred_or_bal_of_wf {cx : DecCtx} {h : Hdr} {m : VoteMode} {d : Opnd} {a : BitVec 3}
    (hw : (Instr.vote h m d a).wf cx = true) : (∃ k, d = .x (.p k)) ∨ m = .bal := by
  cases m with
  | bal => exact .inr rfl
  | _ =>
    cases d with
    | x r => cases r with
      | p k => exact .inl ⟨k, rfl⟩
      | _ => cases hw
    | _ => cases hw

/-- A vote computes a predicate, or, as a ballot, a pair of registers. -/
theorem computes_vote {cx : DecCtx} {h : Hdr} {m : VoteMode} {d : Opnd} {a : BitVec 3} (hw : (Instr.vote h m d a).wf cx = true) :
    ∃ body, (∀ s, exec (.vote h m d a) s =
        instr (.vote h m d a) h (.fixed 6) (wr (if m = .bal then 2 else 1) d ++ rdPred a) body s) ∧
      ∀ x s, Computes (wr (if m = .bal then 2 else 1) d ++ rdPred a) x s (.fixed 6) (body x s) := by
  refine ⟨_, fun _ => rfl, fun x s => ?_⟩
  by_cases hp : ∃ k, d = .x (.p k)
  · obtain ⟨k, rfl⟩ := hp
    exact .writes (Nat.succ_pos _) (confined_prd (List.subset_append_left ..))
  · obtain rfl := (pred_or_bal_of_wf hw).resolve_left hp
    rw [if_pos rfl]
    dsimp only
    split
    · exact absurd ⟨_, rfl⟩ hp
    · exact .writes (Nat.succ_pos _) (X.confined_work (List.subset_append_left ..))

/-- Every register instruction computes within its ports. -/
theorem formOf_computes {i : Instr} {h : Hdr} {c : Cls} {ps : List Port} {cx : DecCtx} (hf : formOf i = some (h, c, ps))
    (hw : i.wf cx = true) : ∃ body, (∀ s, exec i s = instr i h c ps body s) ∧ ∀ x s, Computes ps x s c (body x s) := by
  cases i
  case vote =>
    simp only [formOf, Option.some.injEq, Prod.mk.injEq] at hf
    obtain ⟨rfl, rfl, rfl⟩ := hf
    exact computes_vote hw
  all_goals simp only [formOf, reduceCtorEq, Option.some.injEq, Prod.mk.injEq] at hf
  all_goals obtain ⟨rfl, rfl, rfl⟩ := hf
  case setp | fsetp | plop =>
    exact ⟨_, fun _ => rfl, fun _ _ => .predOp (by simp) (Nat.succ_pos _)⟩
  case div | rem =>
    exact ⟨_, fun _ => rfl, fun _ _ => .tokOp (by simp [tyN])⟩
  case frcp | frsq | fsqrt | fdiv =>
    exact ⟨_, fun _ => rfl, fun _ _ => .tokOpG (by simp [tyN])⟩
  case fexp2 | flog2 | fsin | fcos | ftanh =>
    exact ⟨_, fun _ => rfl, fun _ _ => .tokOpG (w64 := Ty.f32.w64) (List.subset_append_left ..)⟩
  case add | sub | mul | mulh | mad | madh | min | max | abs | neg | and | or | xor | not | andn | shl | shr | sar | rol
      | fshL | fshR | popc | clz | ctz | brev | bfx | bfi | sel | mov | movi | movh | lea | pack | unpack | shfl | rdlane
      | bget | budgRd | krd | exmRd =>
    exact ⟨_, fun _ => rfl, fun _ _ => .vecOp (by simp [tyN]) (Nat.succ_pos _)⟩
  case fclass =>
    exact ⟨_, fun _ => rfl, fun _ _ => .vecOp (by simp [tyN]) (fltLat_pos _)⟩
  case fadd | fsub | fmul | ffma | fmin | fmax | fabs | fneg | fscl | fxpn | frnd =>
    exact ⟨_, fun _ => rfl, fun _ _ => .vecOpG (by simp [tyN]) (fltLat_pos _)⟩
  case fdot2 | fdot4 | cvt | wscan =>
    exact ⟨_, fun _ => rfl, fun _ _ => .vecOpG (by simp [tyN]) (Nat.succ_pos _)⟩
  case wred =>
    exact ⟨_, fun _ => rfl, fun _ _ => .fixed _ (Nat.succ_pos _) (gensOnly_setGens _) (X.confined_work (by simp [tyN]))⟩
  case wrlane =>
    refine ⟨_, fun _ => rfl, fun x s => .writes (Nat.succ_pos _) ?_⟩
    split
    · next he =>
      refine confined_dstUpds (by simp [tyN]) le_rfl fun r hr => ?_
      cases List.mem_singleton.mp hr
      exact List.mem_filter.mpr ⟨List.mem_range.mpr (Nat.mod_lt _ (by decide)), he⟩
    · exact fun _ hu => nomatch hu
  case matchL =>
    refine ⟨_, fun _ => rfl, fun x s => .writes (Nat.succ_pos _) (confined_dstUpds (by simp) le_rfl fun r hr => ?_)⟩
    simp only [List.map_map, List.mem_map] at hr
    obtain ⟨l, hl, rfl⟩ := hr
    exact hl
  case bset =>
    refine ⟨_, fun _ => rfl, fun x s => .writes (Nat.succ_pos _) (confined_shadowUpds (by simp) fun r hr => ?_)⟩
    obtain ⟨l, hl, rfl⟩ := List.mem_map.mp hr
    exact X.mem_lanesOf_of_mem_work hl

/-! ### What the answer leaves alone -/

/-- A post of an instruction comes at its clk or later, and names its token. -/
theorem At.of_mem_posts {a : At} {h : Hdr} {n : Nat} {w : Pend} (hw : w ∈ a.posts h n) :
    n ≤ w.due ∧ ∃ k, h.sc.post = some k ∧ w.act = .post a.tm.curBank k.toNat none := by
  unfold At.posts at hw
  split at hw
  · cases hw
  · next k hk =>
    cases List.mem_singleton.mp hw
    refine ⟨foldl_keeps (P := fun d => n ≤ d) (fun d p hd => ?_) _ _ le_rfl, k, hk, rfl⟩
    split
    · split
      · exact hd.trans (le_max_left ..)
      · exact hd
    · exact hd

/-- The team that goes on, with its generators changed and ws put in flight. -/
def At.goesOn (a : At) (h : Hdr) (clk : Nat) (g : Team → Team) (ws : List Pend) : Team :=
  a.next h clk 0 ((g (a.tm.setPath a.f { a.path with lastIssue := clk })).queue ws)

theorem At.goesOn_frame (a : At) (h : Hdr) (clk : Nat) {g : Team → Team} (hg : GensOnly g) (ws : List Pend) :
    let tm := a.goesOn h clk g ws
    tm = { a.tm with p0 := tm.p0, p1 := tm.p1, gens := tm.gens, pend := a.tm.pend ++ ws } ∧
    tm.path (!a.f) = a.tm.path (!a.f) ∧
    tm.path a.f = { a.path with pc := a.path.pc + 12, cd := (tm.path a.f).cd, hold := .free, lastIssue := clk } := by
  intro tm
  obtain ⟨t, f, late, tm0⟩ := a
  simp only [tm, At.goesOn]
  rw [hg]
  cases f <;> exact ⟨rfl, rfl, rfl⟩

section
variable {s t : State} {a : At} {h : Hdr} {g : Team → Team} (r : Live0 s a)
include r

theorem State.tget_fixedNext (l : Nat) (us : List Upd) :
    tget (((s.issued a).modTeam a.t g).fixedNext a h l us).teams a.t = some (a.goesOn h s.clk g
      (us.map (fun u => ⟨s.clk + l, a.path.pid, .upd u⟩) ++ a.posts h (s.clk + l + 1))) := by
  simp [State.fixedNext, State.issued_team r, At.goesOn]

theorem State.tget_tokenNext (o : Op) :
    tget (((s.issued a).modTeam a.t g).tokenNext a h o).teams a.t = some (a.goesOn h s.clk g []) := by
  simp [State.tokenNext, State.issued_team r, At.goesOn]

end

@[simp] theorem State.fixedNext_ops (s : State) (a : At) (h : Hdr) (l : Nat) (us : List Upd) :
    (s.fixedNext a h l us).ops = s.ops := rfl
@[simp] theorem State.fixedNext_nextOp (s : State) (a : At) (h : Hdr) (l : Nat) (us : List Upd) :
    (s.fixedNext a h l us).nextOp = s.nextOp := rfl
@[simp] theorem State.tokenNext_ops (s : State) (a : At) (h : Hdr) (o : Op) : (s.tokenNext a h o).ops =
    tset s.ops s.nextOp { o with post := h.sc.post.map (fun (k : BitVec 5) => (a.tm.curBank, k.toNat)) } := rfl

/-- Where only team a.t and the operations change beside the issue, no other team does, and nothing else but the quadrant's
slot and the count of free values. -/
theorem State.issued_frame {s t : State} {a : At}
    (ht : ∃ G ops n, t = { s.issued a with teams := tmod (s.issued a).teams a.t G, ops := ops, nextOp := n }) :
    t = { s with teams := t.teams, quads := tset s.quads a.tm.quadNo ⟨s.clk, some (a.t, a.f)⟩, cur := none
                 free := t.free, ops := t.ops, nextOp := t.nextOp } ∧
    ∀ m, m ≠ a.t → tget t.teams m = tget s.teams m := by
  obtain ⟨G, ops, n, rfl⟩ := ht
  rw [State.issued_eq]
  exact ⟨rfl, fun m hm => (tget_tmod_other _ _ _ _ hm).trans (tget_tmod_other _ _ _ _ hm)⟩

/-- Settles O57: a fixed-latency form puts writes and a post in flight, and one of the token class an operation. -/
theorem registerFormsKeepTheRest : Obligations.RegisterFormsKeepTheRest := by
  intro i h c ps cx s a t hf hw hr hexec writes
  obtain ⟨body, hi, hbody⟩ := formOf_computes hf hw
  have hc := hbody (s.viewAt a h) (s.issued a)
  generalize hb : body (s.viewAt a h) (s.issued a) = res at hc
  have hops : (s.issued a).ops = s.ops := by rw [State.issued_eq]
  have hnext : (s.issued a).nextOp = s.nextOp := by rw [State.issued_eq]
  rw [hi] at hexec
  cases hc with
  | @fixed l us g hl hg hus =>
    rw [instr_fixed_mod hr i l body us g hb] at hexec
    cases hexec
    obtain ⟨hframe, hothers⟩ := State.issued_frame (s := s) (a := a) (t := ((s.issued a).modTeam a.t g).fixedNext a h l us)
      ⟨_, _, _, by rw [State.fixedNext, State.modTeam_modTeam]; rfl⟩
    obtain ⟨htm, hsib, hpath⟩ := a.goesOn_frame h s.clk hg
      (us.map (fun u => ⟨s.clk + l, a.path.pid, .upd u⟩) ++ a.posts h (s.clk + l + 1))
    refine ⟨hframe, hothers, fun n _ => by simp [hops], fun hne => absurd (by simp [hnext]) hne,
      _, _, State.tget_fixedNext hr.clear.live l us, htm, hsib, hpath, fun w hmem => ?_⟩
    rcases List.mem_append.mp hmem with hmem | hmem
    · obtain ⟨u, hu, rfl⟩ := List.mem_map.mp hmem
      exact ⟨Nat.lt_add_of_pos_right hl, .inl ⟨u, rfl, hus u hu⟩⟩
    · obtain ⟨hdue, hpost⟩ := At.of_mem_posts hmem
      exact ⟨by omega, .inr hpost⟩
  | @token u o g hg hteam ho =>
    rw [instr_token hr i _ body o _ hb (by simp [hr.hole])] at hexec
    cases hexec
    obtain ⟨hframe, hothers⟩ := State.issued_frame (s := s) (a := a) (t := ((s.issued a).modTeam a.t g).tokenNext a h o)
      ⟨_, _, _, by rw [State.tokenNext, State.modTeam_teams, tmod_tmod]; rfl⟩
    obtain ⟨htm, hsib, hpath⟩ := a.goesOn_frame h s.clk hg []
    refine ⟨hframe, hothers, fun n hn => ?_, fun _ => ⟨{ o with post := h.sc.post.map (fun k => (a.tm.curBank, k.toNat)) },
      by simp [hops, hnext], hteam, ho⟩,
      _, _, State.tget_tokenNext hr.clear.live o, htm, hsib, hpath, fun w hmem => nomatch hmem⟩
    simp [hops, hnext, tget_tset_other _ _ _ _ hn]

end Sys2Proof.Machine
end

section
/-! PROOFS. What a completion does to its team and to the table of operations (R106, R108). -/

namespace Sys2Proof.Machine

/-! ### Writes that clash with none -/

theorem State.landUpd_teams (s : State) (t pid : Nat) (u : Upd) :
    (s.landUpd t pid u).teams = tmod s.teams t (fun tm => tm.landUpd pid u) :=
  s.land_teams t ⟨0, pid, .upd u⟩

/-- A write none of whose lanes was written meanwhile lands as it is. -/
theorem State.landClash_nil {s : State} {t : Nat} {tm : Team} (ht : tget s.teams t = some tm) (pid : Nat) (u : Upd) :
    s.landClash t pid [] u = s.landUpd t pid u := by
  unfold State.landClash
  cases u <;> simp [ht]

theorem State.tget_landUpd {s : State} {t pid : Nat} {u : Upd} {tm : Team} (ht : tget s.teams t = some tm) :
    tget (s.landUpd t pid u).teams t = some (tm.landUpd pid u) := by
  rw [State.landUpd_teams, tget_tmod_self, ht]
  rfl

/-- Marks of overlapped lanes add no operation to the table. -/
theorem State.tget_landUpd_ops {s : State} {t pid id : Nat} {u : Upd} (h : tget s.ops id = none) :
    tget (s.landUpd t pid u).ops id = none := by
  simp only [State.landUpd, State.clash, State.modTeam_ops]
  split
  · exact h
  · simp [h]

section
variable {s : State} {t pid : Nat} {tm : Team}

theorem State.landClashes_nil (us : List Upd) : ∀ {s : State} {tm : Team}, tget s.teams t = some tm →
    us.foldl (fun s u => s.landClash t pid [] u) s = us.foldl (fun s u => s.landUpd t pid u) s := by
  induction us with
  | nil => exact fun _ => rfl
  | cons u us ih =>
    intro s tm ht
    rw [List.foldl_cons, List.foldl_cons, State.landClash_nil ht, ih (State.tget_landUpd ht)]

/-- Writes that land one after another. -/
theorem State.landUpds_lands (us : List Upd) (ht : tget s.teams t = some tm) :
    ∃ tm1, tget (us.foldl (fun s u => s.landUpd t pid u) s).teams t = some tm1 ∧ Lands (fun _ => True) tm tm1 := by
  have h := State.lands_lands (K := fun _ => True) (t := t) (ps := us.map (fun u => ⟨0, pid, .upd u⟩))
    (fun _ _ _ _ _ => trivial) ht
  rwa [List.foldl_map] at h

theorem State.landUpds_landing (us : List Upd) (s : State) :
    Landing s (us.foldl (fun s u => s.landUpd t pid u) s) := by
  have h := State.lands_landing t (us.map (fun u => ⟨0, pid, .upd u⟩)) s
  rwa [List.foldl_map] at h

end

/-! ### Completions -/

/-- A change that leaves its entry as it is leaves the table as it is. -/
theorem tmod_eq_self {α : Type} {t : Tbl α} {k : Nat} {a : α} {f : α → α} (ht : tget t k = some a) (hf : f a = a) :
    tmod t k f = t := by
  induction t with
  | nil => rfl
  | cons e t ih =>
    obtain ⟨j, b⟩ := e
    by_cases hj : j = k
    · obtain rfl : b = a := by simpa [tget, hj] using ht
      simp [tmod, hj, hf]
    · simp only [tmod, hj, if_false, ih (by simpa [tget, hj] using ht)]

/-- A change that leaves the team as it is leaves the state as it is. -/
theorem State.modTeam_eq_self {s : State} {t : Nat} {tm : Team} {f : Team → Team} (ht : tget s.teams t = some tm)
    (hf : f tm = tm) : s.modTeam t f = s := by
  rw [State.modTeam, tmod_eq_self ht hf]

/-- A resident team without a task is left as it is behind a completion. -/
theorem State.rerunTry_retireCheck_of_resident {s : State} {t : Nat} {tm : Team} (ht : tget s.teams t = some tm)
    (htask : tm.task = none) (hlife : tm.life = .resident) : (s.rerunTry t).retireCheck t = s := by
  have hrerun : s.rerunTry t = s := by simp only [State.rerunTry, ht, htask]
  rw [hrerun]
  simp [State.retireCheck, ht, hlife]

/-- R106, R108: where the table lists the operation once, its completion lands its writes, is posted for the next clk, and
takes it from the table. -/
theorem State.opFinish_of_listed_once {s : State} {id k : Nat} {o : Op} {tm : Team} {us : List Upd} {b : Bank}
    {err : Option Nat} (ho : tget s.ops id = some o) (ht : tget s.teams o.team = some tm) (hclash : o.clash = [])
    (hpost : o.post = some (b, k)) (htask : tm.task = none) (hlife : tm.life = .resident)
    (honce : tget (tdel s.ops id) id = none) :
    let s1 := (if err.isNone then us else []).foldl (fun s u => State.landUpd s o.team o.pid u) { s with ops := tdel s.ops id }
    ∃ tm1, tget s1.teams o.team = some tm1 ∧
      tget (s.opFinish id us err).teams o.team = some { tm1 with pend := tm.pend ++ [⟨s.clk + 1, 0, .post b k err⟩] } ∧
      (s.opFinish id us err).ops = s1.ops ∧ tget s1.ops id = none ∧ (s.opFinish id us err).mem = s.mem := by
  intro s1
  have ht0 : tget ({ s with ops := tdel s.ops id } : State).teams o.team = some tm := ht
  obtain ⟨tm1, h1, l1⟩ : ∃ tm1, tget s1.teams o.team = some tm1 ∧ Lands (fun _ => True) tm tm1 := State.landUpds_lands _ ht0
  have hside : Landing { s with ops := tdel s.ops id } s1 := State.landUpds_landing ..
  have htask1 : tm1.task = none := by rw [l1.landed]; exact htask
  have hlife1 : tm1.life = .resident := l1.landed.life.trans hlife
  have hlanded : (if err.isNone then us.foldl (fun s u => s.landClash o.team o.pid o.clash u) { s with ops := tdel s.ops id }
      else { s with ops := tdel s.ops id }) = s1 := by
    simp only [s1, hclash]
    split
    · exact State.landClashes_nil us ht0
    · rfl
  have hclk : s1.clk = s.clk := by rw [hside]
  have hposted : tget (s1.pendAdd o.team ⟨s.clk + 1, 0, .post b k err⟩).teams o.team =
      some { tm1 with pend := tm.pend ++ [⟨s.clk + 1, 0, .post b k err⟩] } := by
    rw [State.pendAdd_teams, tget_tmod_self, h1, ← l1.pend]
    rfl
  have hfinish : s.opFinish id us err =
      s1.pendAdd o.team ⟨s.clk + 1, 0, .post b k err⟩ := by
    unfold State.opFinish
    simp only [ho, ht, hlanded, hclk, hpost, hlife, reduceCtorEq, false_and, if_false]
    rw [State.modTeam_eq_self hposted (by simp only [htask1])]
    cases err <;> exact State.rerunTry_retireCheck_of_resident hposted htask1 hlife1
  rw [hfinish]
  refine ⟨tm1, h1, hposted, rfl, ?_, by rw [State.pendAdd_mem, hside]⟩
  exact foldl_keeps (P := fun u : State => tget u.ops id = none) (fun _ _ hu => State.tget_landUpd_ops hu) _ _ honce

/-- An operation of team 0 with a token and nothing left to do. -/
def doneOp : Op where
  at_ := 0
  team := 0
  frag := 0
  pid := 0
  cunit := .mem
  post := some (.normal, 0)
  inH := false
  dst := []
  clash := []
  casPid := none
  lines := 0
  inVer := false
  work := .done []

/-- A resident team 0, and a table that lists operation 0 twice. -/
def twiceListedState : State :=
  { State.reset with teams := [(0, fetchTeam State.reset)], ops := [(0, doneOp), (0, doneOp)] }

/-- Refutes O28: a completion takes one entry of its number from the table of operations, and nothing in the statement says
that there is only one. Where the table lists the number twice, which no table in ascending key order does, the second entry
outlasts the completion. `State.opFinish_of_listed_once` is what holds of a table that lists it once. -/
theorem not_completionLandsAndPosts : ¬ Obligations.CompletionLandsAndPosts := by
  intro h
  obtain ⟨-, -, -, -, hgone, -⟩ := h twiceListedState 0 doneOp (fetchTeam State.reset) [] .normal 0 none rfl rfl rfl rfl rfl rfl
  exact absurd hgone (by simp [twiceListedState, tdel, tget])

end Sys2Proof.Machine
end

section
/-! PROOFS. Divergent branches, joins and `exit` (R123, R130, R131, R134-R136). -/

namespace Sys2Proof.Machine

/-! ### Instructions that move paths -/

/-- Team tm' is split as tm is, with the same stack and the same paths, each at the same address with the same masks and
hold: countdowns, spin counters and demotions may differ, and what is no path. -/
structure Team.ArrangedAs (tm' tm : Team) : Prop where
  split : tm'.split = tm.split
  stack : tm'.stack = tm.stack
  path  : ∀ f, ∃ c n d, tm'.path f = { tm.path f with cd := c, spin := n, demoted := d }

theorem Team.ArrangedAs.of_spin {tm' tm : Team} {f : Bool} {n : Nat}
    (h : tm'.ArrangedAs (tm.setPath f { tm.path f with spin := n })) : tm'.ArrangedAs tm where
  split := by simpa using h.split
  stack := by simpa using h.stack
  path g := by
    obtain ⟨c, m, d, hp⟩ := h.path g
    rw [Team.setPath_path] at hp
    split at hp
    · next hg => exact ⟨c, m, d, by rw [hp, hg]⟩
    · exact ⟨c, m, d, hp⟩

/-- Instruction i, which nothing stops, has answered r: exec carries that answer out (R101, R106). -/
def CarriesOut (i : Instr) (s : State) (a : At) (h : Hdr) (ps : List Port) (r : Res) : Prop :=
  exec i s = answer ((s.issued a).retire i { s.viewAt a h with rd := a.tm } .issue ps r)

/-- In the next state the team is arranged as tm, and n is the name of the next new path. -/
def LeadsTo (i : Instr) (s : State) (a : At) (tm : Team) (n : Nat) : Prop :=
  ∃ t tm', exec i s = .next t ∧ tget t.teams a.t = some tm' ∧ tm'.ArrangedAs tm ∧ t.nextPid = n

section
variable {i : Instr} {s s1 : State} {a : At} {h : Hdr} {ps : List Port} {tm : Team}

/-- An instruction that acts whatever its mask carries out what its meaning answers. -/
theorem carriesOut_of_clear {body : X → State → Res} {tk : Bool} (r : Clear s a h ps tk)
    (hi : exec i s = answer (s.issue i h .issue ps true tk body)) :
    CarriesOut i s a h ps (body (s.viewAt a h) (s.issued a)) :=
  hi.trans (congrArg answer (State.issue_clear r i .issue true body (.inr rfl)))

/-- Paths that have been moved stay where they were moved to. -/
theorem CarriesOut.leadsTo (hr : CarriesOut i s a h ps (.moved s1)) (ht : tget s1.teams a.t = some tm)
    (hh : s1.hole = false) : LeadsTo i s a tm s1.nextPid := by
  have heq := State.retire_moved_eq (s.viewAt_of a h) i .issue ps s1 (s.issued a)
  obtain ⟨c0, c1, d0, d1, pd, hget⟩ := State.retire_moved_team (s.viewAt_of a h) i .issue ps s1 (s.issued a) tm ht
  refine ⟨_, _, hr.trans (answer_of_hole_false ?_), hget, ⟨rfl, rfl, fun f => ?_⟩, ?_⟩
  · rw [heq]
    exact hh
  · cases f
    · exact ⟨c0, _, d0, rfl⟩
    · exact ⟨c1, _, d1, rfl⟩
  · rw [heq]

/-- Paths that a taken branch has moved, below the limit of R38, stay there. -/
theorem CarriesOut.leadsTo_of_branch {f : Bool} {pc target : BitVec 64}
    (hr : CarriesOut i s a h ps ((s.viewAt a h).move (s.issued a) (s1.tookBranch a.t f pc target)))
    (ht : tget s1.teams a.t = some tm) (hh : s1.hole = false)
    (hc : pc.toNat < target.toNat ∨ mProg tm.mode = true ∨ (tm.path f).spin + 1 < 64) : LeadsTo i s a tm s1.nextPid := by
  obtain ⟨n, htook⟩ := s1.took a.t f pc target tm ht hc
  rw [htook] at hr
  obtain ⟨t, tm', hnext, hteam, harr, hpid⟩ := CarriesOut.leadsTo (tm := tm.setPath f { tm.path f with spin := n }) hr
    (by simp [ht]) hh
  exact ⟨t, tm', hnext, hteam, harr.of_spin, hpid⟩

end

/-! ### Divergent branches (R123, R130, R131) -/

/-- An unused JOIN on top of the view is the one that a divergent branch opens. -/
theorem X.openJoin_of_unused {x : X} {j : Entry} {r : List Entry} {n : Nat} (s : State) (k : Entry → Res)
    (hp : popView x.tm.split x.f x.tm.stack = some (j, r, n)) (hk : j.kind = .join) (hu : j.used = false)
    (hb : j.bad = false) : x.openJoin s k = k j := by
  simp [X.openJoin, hp, hk, hu, hb]

/-- The lanes that a divergent branch leaves behind. -/
def At.rest (a : At) (h : Hdr) : Mask := a.path.exm &&& ~~~a.mask h

/-- The state in which a divergent branch to pc has split the team at JOIN j (R131). -/
def State.splitTeam (s : State) (a : At) (h : Hdr) (j : Entry) (pc : BitVec 64) : State :=
  { s.modTeam a.t (fun tm => tm.splitAt s.nextPid j pc (a.rest h) (a.mask h)) with nextPid := s.nextPid + 1 }

/-- The state in which the fragment of a divergent branch to pc runs its lanes one group after the other (R131). -/
def State.serialiseTeam (s : State) (a : At) (h : Hdr) (j : Entry) (pc : BitVec 64) : State :=
  s.modTeam a.t (fun tm => tm.serialise a.f j (pc, a.mask h) [(a.path.pc + 12, a.rest h)])

/-- The fragment's team, with the clk of its latest issue. -/
def At.issuedTeam (a : At) (clk : Nat) : Team := a.tm.setPath a.f { a.path with lastIssue := clk }

/-- A divergent branch at an unused JOIN that is whole, by a fragment that nothing stops. -/
structure Diverges (s : State) (a : At) (h : Hdr) (j : Entry) : Prop where
  clear  : Clear s a h [] false
  doubt  : (s.viewAt a h).doubt = 0
  guard  : h.g ≠ ⟨true, 7⟩
  taken  : a.mask h ≠ 0
  left   : a.rest h ≠ 0
  top    : ∃ r n, popView a.tm.split a.f a.tm.stack = some (j, r, n)
  join   : j.kind = .join
  unused : j.used = false
  whole  : j.bad = false

section
variable {s : State} {a : At} {h : Hdr} {disp : BitVec 20} {j : Entry} (r : Diverges s a h j)
include r

/-- A divergent `bra` splits its team, or runs its two groups of lanes one after the other. -/
theorem Diverges.carriesOut : CarriesOut (.bra h disp) s a h []
    (let pc := a.path.pc + (disp.signExtend 64 <<< 2)
     let x := s.viewAt a h
     if a.tm.maySplit then x.move (s.issued a) (((s.issued a).splitTeam a h j pc).tookBranch a.t true a.path.pc pc)
     else if 32 ≤ a.tm.stack.length then .trap (s.issued a) .dstack 0 1
     else x.move (s.issued a) (((s.issued a).serialiseTeam a h j pc).tookBranch a.t a.f a.path.pc pc)) := by
  obtain ⟨rest, n, htop⟩ := r.top
  have hleft : ¬ (s.viewAt a h).p.exm &&& ~~~(s.viewAt a h).e = 0 := r.left
  have htaken : ¬ (s.viewAt a h).e = 0 := r.taken
  have hbody := carriesOut_of_clear (i := .bra h disp) r.clear rfl
  dsimp only at hbody
  rw [X.branch_of_no_doubt r.doubt, if_neg r.guard, if_neg hleft, if_neg htaken,
    X.openJoin_of_unused _ _ htop r.join r.unused r.whole] at hbody
  exact hbody

/-- A divergent `bra` of a team that may split: the branch of its new fragment is the first that this path takes. -/
theorem Diverges.leadsTo_split (hs : a.tm.maySplit = true) : LeadsTo (.bra h disp) s a
    ((a.issuedTeam s.clk).splitAt (s.issued a).nextPid j (a.path.pc + (disp.signExtend 64 <<< 2)) (a.rest h) (a.mask h))
    ((s.issued a).nextPid + 1) := by
  have hbody := r.carriesOut (disp := disp)
  dsimp only at hbody
  rw [if_pos hs] at hbody
  refine hbody.leadsTo_of_branch ?_ ?_ (.inr (.inr (by simp [Team.splitAt, Team.path])))
  · exact (tget_tmod_self ..).trans (congrArg _ (State.issued_team r.clear.live))
  · exact (s.issued_hole a).trans r.clear.live.hole

/-- A divergent `bra` onwards of a team that may not split. -/
theorem Diverges.leadsTo_serialise (hs : a.tm.maySplit = false) (hl : a.tm.stack.length < 32)
    (ho : a.onward (a.path.pc + (disp.signExtend 64 <<< 2))) : LeadsTo (.bra h disp) s a
    ((a.issuedTeam s.clk).serialise a.f j (a.path.pc + (disp.signExtend 64 <<< 2), a.mask h)
      [(a.path.pc + 12, a.rest h)]) (s.issued a).nextPid := by
  have hbody := r.carriesOut (disp := disp)
  dsimp only at hbody
  rw [hs, if_neg Bool.false_ne_true, if_neg (Nat.not_le_of_lt hl)] at hbody
  refine hbody.leadsTo_of_branch ?_ ?_ ?_
  · exact (tget_tmod_self ..).trans (congrArg _ (State.issued_team r.clear.live))
  · exact (s.issued_hole a).trans r.clear.live.hole
  · refine ho.imp_right fun hprog => .inl ?_
    simpa [Team.serialise, Team.push, At.issuedTeam] using hprog

end

/-- Settles O10: the split, and the serialised run. -/
theorem divergentBranchSplitsOrSerialises : Obligations.DivergentBranchSplitsOrSerialises := by
  intro h disp s a j rest n hclear hd hg hm hn htop hk hu hb
  have r : Diverges s a h j := ⟨hclear, hd, hg, hm, hn, ⟨rest, n, htop⟩, hk, hu, hb⟩
  have hpid : (s.issued a).nextPid = s.nextPid := by rw [State.issued_eq]
  refine ⟨fun hs => ?_, fun hs hl ho => ?_⟩
  · have hsplit : a.tm.split = false := by
      simp only [Team.maySplit, Bool.and_eq_true, Bool.not_eq_true'] at hs
      exact hs.1.1.1
    have hf : a.f = false := r.clear.live.frag hsplit
    obtain ⟨t, tm, hnext, ht, harr, hnew⟩ := r.leadsTo_split (disp := disp) hs
    obtain ⟨c0, n0, d0, hp0⟩ := harr.path false
    obtain ⟨c1, n1, d1, hp1⟩ := harr.path true
    simp only [Team.path, Team.splitAt, At.issuedTeam, Bool.false_eq_true, if_false, if_true] at hp0 hp1
    refine ⟨t, tm, hnext, ht, harr.split, ?_, ?_, ?_, ?_, ?_, ?_, ?_, hnew.trans (by rw [hpid]), ?_⟩
    · rw [hp0, hf]; rfl
    · rw [hp0]; rfl
    · rw [hp0]; rfl
    · rw [hp1]
    · rw [hp1]
    · rw [hp1]
    · rw [hp1, hpid]
    · exact harr.stack.trans (by simp [Team.splitAt, At.issuedTeam])
  · obtain ⟨t, tm, hnext, ht, harr, -⟩ := r.leadsTo_serialise hs hl ho
    obtain ⟨c, n, d, hp⟩ := harr.path a.f
    simp only [Team.serialise, Team.setPath_path, if_true] at hp
    refine ⟨t, tm, hnext, ht, harr.split.trans ?_, ?_, ?_, ?_, harr.stack.trans ?_⟩
    · simp [Team.serialise, Team.push, At.issuedTeam]
    · rw [hp]
    · rw [hp]
    · rw [hp]
    · simp [Team.serialise, Team.push, At.issuedTeam, At.rest]

/-! ### `exit` and `rcv` (R134, R135) -/

/-- `exit` that leaves lanes of its path behind. -/
theorem exec_exit_of_rest {s : State} {a : At} {h : Hdr} (r : Clear s a h [] true) (hm : a.mask h ≠ 0)
    (hn : a.rest h ≠ 0) : exec (.exit h) s = .next ((s.issued a).issueNext a h (fun tm =>
      { tm.setPath a.f { tm.path a.f with exm := a.rest h } with exited := tm.exited ||| a.mask h })) := by
  have hbody := carriesOut_of_clear (i := .exit h) r rfl
  have htaken : ¬ ((s.viewAt a h).e = 0 ∧ (s.viewAt a h).p.exm &&& ~~~(s.viewAt a h).e ≠ 0) := fun e => hm e.1
  have htask : ¬ (s.viewAt a h).tm.inTask.isSome = true := by simp [State.viewAt, r.task rfl]
  have hleft : (s.viewAt a h).p.exm &&& ~~~(s.viewAt a h).e ≠ 0 := hn
  have hout : (s.viewAt a h).e ||| (0 : Mask) = (s.viewAt a h).e := BitVec.or_zero
  dsimp only at hbody
  rw [if_neg htaken, if_neg htask, if_neg (fun e => hleft e.1), if_neg hleft, if_pos hleft, hout] at hbody
  refine (hbody.trans (congrArg answer (State.retire_issue (s.viewAt_of a h) _ .issue [] _ _ _ rfl fun tm ht => ?_))).trans
    (answer_of_hole_false ((s.issued_hole a).trans r.live.hole))
  refine (congrArg Path.ended (tm.setPath_path a.f a.f _)).trans ?_
  rw [if_pos rfl]
  exact (r.live.issued_team' tm ht).2

/-- `rcv` on a stack with room for its JOIN. -/
theorem exec_rcv_of_room {s : State} {a : At} {h : Hdr} {disp : BitVec 20} (r : Ready s a h [])
    (hl : a.tm.stack.length < 32) : exec (.rcv h disp) s = .next ((s.issued a).issueNext a h (fun tm => { tm with stack :=
      ⟨.join, false, false, tm.split && a.f, toEntryPc (a.path.pc + (disp.signExtend 64 <<< 2)),
        a.path.pmask &&& ~~~tm.exited, false⟩ :: tm.stack })) :=
  instr_issue r (.rcv h disp) .issue _ _ (fun _ he => he) (if_neg (Nat.not_le_of_lt hl))

/-! ### `rjoin` and `rjoin.to` (R125, R136) -/

/-- Fragment f runs the lanes m at pc, and nothing holds it. -/
structure Team.RunsAt (tm : Team) (f : Bool) (pc : BitVec 64) (m : Mask) : Prop where
  pc    : (tm.path f).pc = pc
  exm   : (tm.path f).exm = m
  pmask : (tm.path f).pmask = m
  hold  : (tm.path f).hold = .free

theorem Team.ArrangedAs.runsAt {tm' tm : Team} {f : Bool} {pc : BitVec 64} {m : Mask} (ha : tm'.ArrangedAs tm)
    (hr : tm.RunsAt f pc m) : tm'.RunsAt f pc m := by
  obtain ⟨c, n, d, hp⟩ := ha.path f
  constructor <;> rw [hp]
  exacts [hr.pc, hr.exm, hr.pmask, hr.hold]

/-- The walk g leaves fragment f with the lanes m at pc, and the team with the stack es. -/
def State.WalksTo (s : State) (t : Nat) (f : Bool) (g : Go) (es : List Entry) (pc : BitVec 64) (m : Mask) : Prop :=
  ∃ s' tm', s.walkStack t f g = .ok s' ∧ tget s'.teams t = some tm' ∧ s'.hole = s.hole ∧ tm'.stack = es ∧ tm'.RunsAt f pc m

/-- The JOIN e completes for team t: a `rjoin.to` at its address writes false to its predicate (R125, R136). -/
def State.joined (s : State) (t : Nat) (tm : Team) (e : Entry) : State :=
  match s.peek tm (ofEntryPc e.pc).toNat with
  | some (.rjoinTo _ d _) => s.landUpd t 0 (.prd d.toNat (e.mask &&& ~~~tm.exited) 0 0)
  | _ => s

@[simp] theorem State.joined_hole (s : State) (t : Nat) (tm : Team) (e : Entry) : (s.joined t tm e).hole = s.hole := by
  unfold State.joined
  split
  · exact State.landUpd_hole ..
  · rfl

section
variable {s : State} {t : Nat} {f : Bool} {tm : Team} (ht : tget s.teams t = some tm)
include ht

/-- The completion of a JOIN leaves the team's stack and EXITED alone. -/
theorem State.joined_team (e : Entry) : ∃ tm', tget (s.joined t tm e).teams t = some tm' ∧ tm'.stack = tm.stack ∧
    tm'.exited = tm.exited := by
  unfold State.joined
  split
  · next d _ _ =>
    obtain ⟨tm', ht', hstack, hexited, -⟩ := s.landUpd_prd_team t 0 d.toNat (e.mask &&& ~~~tm.exited) 0 0 tm ht
    exact ⟨tm', ht', hstack, hexited⟩
  · exact ⟨tm, ht, rfl, rfl⟩

theorem State.go_join (k : Nat) (e : Entry) (same : Bool) : s.go (k + 1) t f (.join e same) =
    (s.joined t tm e).go k t f (.run (ofEntryPc e.pc + 12) e.mask same) := by
  simp only [State.go, ht]
  rfl

/-- A new path of the fragment runs, where one of its lanes has not exited. -/
theorem State.walksTo_of_run {pc : BitVec 64} {m : Mask} (hm : m &&& ~~~tm.exited ≠ 0) :
    s.WalksTo t f (.run pc m false) tm.stack pc (m &&& ~~~tm.exited) := by
  refine ⟨_, _, State.go_run (3 * _ + 7) s t f pc m tm ht hm, (tget_tmod_self ..).trans (congrArg _ ht), rfl, ?_, ?_⟩
  · exact Team.setPath_stack ..
  · constructor <;> rw [Team.setPath_path, if_pos rfl]

/-- A path that joins goes on behind the JOIN, with its lanes that have not exited. -/
theorem State.walksTo_of_join {e : Entry} (hm : e.mask &&& ~~~tm.exited ≠ 0) :
    s.WalksTo t f (.join e true) tm.stack (ofEntryPc e.pc + 12) (e.mask &&& ~~~tm.exited) := by
  obtain ⟨tm1, ht1, hstack, hexited⟩ := State.joined_team ht e
  rw [← hexited] at hm ⊢
  refine ⟨_, _, (State.go_join ht _ e true).trans (State.go_run_same (3 * _ + 6) _ t f _ _ tm1 ht1 hm),
    (tget_tmod_self ..).trans (congrArg _ ht1), s.joined_hole t tm e, ?_, ?_⟩
  · exact (Team.setPath_stack ..).trans hstack
  · constructor <;> rw [Team.setPath_path, if_pos rfl]

end

/-- What `rjoin` does at its JOIN with the entry e on top of its view: a PATH runs, a JOIN completes (R136). -/
def Entry.rejoin (e : Entry) : Go := if e.kind = .path then .run (ofEntryPc e.pc) e.mask false else .join e true

/-- Where e leads a fragment that rejoins. -/
def Entry.after (e : Entry) : BitVec 64 := if e.kind = .path then ofEntryPc e.pc else ofEntryPc e.pc + 12

theorem State.walksTo_of_rejoin {s : State} {t : Nat} {f : Bool} {tm : Team} {e : Entry} (ht : tget s.teams t = some tm)
    (hm : e.mask &&& ~~~tm.exited ≠ 0) : s.WalksTo t f e.rejoin tm.stack e.after (e.mask &&& ~~~tm.exited) := by
  by_cases hk : e.kind = .path
  · simp only [Entry.rejoin, Entry.after, hk, if_true]
    exact State.walksTo_of_run ht hm
  · simp only [Entry.rejoin, Entry.after, hk, if_false]
    exact State.walksTo_of_join ht hm

/-- A fragment stands at the nearest JOIN j of its view, whose top e, no split JOIN, it may pop. -/
structure Rejoins (a : At) (j e : Entry) (r : List Entry) (n : Nat) : Prop where
  nearest : (viewOf a.tm.split a.f a.tm.stack).find? (fun e => e.kind = .join) = some j
  here    : ofEntryPc j.pc = a.path.pc
  top     : popView a.tm.split a.f a.tm.stack = some (e, r, n)
  may     : a.tm.mayPop n = true
  lanes   : e.mask &&& ~~~a.tm.exited ≠ 0
  single  : e.kind = .join → e.spl = false
  whole   : e.bad = false ∧ j.bad = false

section
variable {i : Instr} {s : State} {a : At} {h : Hdr} {ps : List Port} {j e : Entry} {r : List Entry} {n : Nat}
  (hj : Rejoins a j e r n)
include hj

/-- The pop of e, and the walk that follows. -/
theorem Rejoins.join_eq (d : Option (BitVec 3)) (tmo : Nat) : (s.viewAt a h).join (s.issued a) d tmo =
    (s.viewAt a h).move (s.issued a)
      (((s.issued a).modTeam a.t (fun tm => { tm with stack := r })).walkStack a.t a.f e.rejoin) := by
  obtain ⟨he, hjb⟩ := hj.whole
  simp only [X.join, State.viewAt, hj.nearest, hj.top, he, hjb, hj.here, hj.may, Entry.rejoin]
  cases hk : e.kind with
  | path => simp
  | join => simp [hj.single hk]

/-- A fragment that rejoins runs behind e with the lanes of e. -/
theorem Rejoins.runs (hl : Live0 s a) (hr : CarriesOut i s a h ps ((s.viewAt a h).move (s.issued a)
      (((s.issued a).modTeam a.t (fun tm => { tm with stack := r })).walkStack a.t a.f e.rejoin))) :
    ∃ t tm, exec i s = .next t ∧ tget t.teams a.t = some tm ∧ tm.stack = r ∧
      tm.RunsAt a.f e.after (e.mask &&& ~~~a.tm.exited) := by
  have hpopped : tget ((s.issued a).modTeam a.t (fun tm => { tm with stack := r })).teams a.t =
      some { a.issuedTeam s.clk with stack := r } := (tget_tmod_self ..).trans (congrArg _ (State.issued_team hl))
  have hexited : (a.issuedTeam s.clk).exited = a.tm.exited := Team.setPath_exited ..
  obtain ⟨s1, tm1, hwalk, ht1, hhole, hstack, hruns⟩ := State.walksTo_of_rejoin (f := a.f) hpopped (hexited ▸ hj.lanes)
  rw [hwalk] at hr
  obtain ⟨t, tm, hnext, ht, harr, -⟩ := hr.leadsTo ht1 (hhole.trans ((s.issued_hole a).trans hl.hole))
  exact ⟨t, tm, hnext, ht, harr.stack.trans hstack, harr.runsAt (hexited ▸ hruns)⟩

end

/-- Settles O11: `exit`, `rcv`, and the two forms of `rjoin`. -/
theorem joinsAndExitComplete : Obligations.JoinsAndExitComplete := by
  refine ⟨fun h s a => exec_exit_of_rest, fun h disp s a => exec_rcv_of_room, ?_⟩
  intro h s a i ps j e r n hi hclear hnearest hhere htop hmay hlanes hsingle he hjb
  have hj : Rejoins a j e r n := ⟨hnearest, hhere, htop, hmay, hlanes, hsingle, he, hjb⟩
  have hr : CarriesOut i s a h ps ((s.viewAt a h).move (s.issued a)
      (((s.issued a).modTeam a.t (fun tm => { tm with stack := r })).walkStack a.t a.f e.rejoin)) := by
    rcases hi with ⟨rfl, rfl⟩ | ⟨d, o, rfl, rfl⟩
    · rw [← hj.join_eq none 0]
      exact carriesOut_of_clear (i := .rjoin h) hclear rfl
    · rw [← hj.join_eq (some d) ((s.viewAt a h).rd.int o false 0).x]
      exact carriesOut_of_clear (i := .rjoinTo h d o) hclear rfl
  obtain ⟨t, tm, hnext, ht, hstack, hruns⟩ := hj.runs hclear.live hr
  exact ⟨t, tm, hnext, ht, hstack, hruns.pc, hruns.exm, hruns.pmask, hruns.hold⟩

end Sys2Proof.Machine
end

section
/-! PROOFS. What the integer and bit instructions compute, and that shifts, bitwise operations and orders are those of bit
vectors (R148, R151-R159). -/

namespace Sys2Proof.Machine

/-! ### Integer arithmetic -/

/-- Settles O1: each computes one element a lane, from the elements of its sources. -/
theorem integerArithmeticCompletes : Obligations.IntegerArithmeticCompletes := by
  unfold Obligations.IntegerArithmeticCompletes
  refine ⟨?add, ?sub, ?mul, ?mulh, ?mad, ?madh, ?min, ?max, ?abs, ?neg⟩
  case add | sub | mul | mulh | mad | madh | min | max | abs | neg =>
    intros
    exact runsFixed_vecOp fun _ => rfl

/-! ### Sources as bit vectors -/

theorem isInt_of_isBit {t : Ty} (ht : t.isBit = true) : t.isInt = true := by
  cases t with
  | n32 | n64 => rfl
  | _ => exact nomatch ht

/-- The integer types that instructions compute with fill one register or two (R44, R77). -/
theorem bits_of_isInt {t : Ty} (ht : t.isInt = true) : t.bits = if t.w64 then 64 else 32 := by
  cases t with
  | i32 | i64 | n32 | n64 => rfl
  | _ => exact nomatch ht

theorem trunc_lt (x : Int) (n : Nat) : trunc x n < 2 ^ n := by
  have hpos : (0 : Int) < 2 ^ n := by positivity
  exact (Int.toNat_lt (Int.emod_nonneg x hpos.ne')).mpr (by exact_mod_cast Int.emod_lt_of_pos x hpos)

theorem Team.el_lt (tm : Team) (o : Opnd) (w64 : Bool) (l : Nat) : (tm.el o w64 l).x < 2 ^ (if w64 then 64 else 32) := by
  cases w64 with
  | false => exact (tm.cell o 0 l).val.isLt
  | true =>
    show (tm.cell o 0 l).val.toNat + (tm.cell o 1 l).val.toNat * 2 ^ 32 < 2 ^ 64
    omega

/-- A source supplies no more bits than its type has (R46, R145). -/
theorem Team.int_lt (tm : Team) (o : Opnd) (w64 : Bool) (l : Nat) :
    (tm.int o w64 l).x < 2 ^ (if w64 then 64 else 32) := by
  cases o with
  | v n => exact tm.el_lt ..
  | s n => exact tm.el_lt ..
  | i n => exact trunc_lt ..
  | x r => exact (Nat.mod_lt _ (by decide)).trans_le (Nat.pow_le_pow_right (by decide) (by split <;> decide))

/-- An integer source is a bit vector of its type's width. -/
theorem X.toNat_i {t : Ty} (ht : t.isInt = true) (x : X) (o : Opnd) (l : Nat) :
    (BitVec.ofNat t.bits (x.i t o l).x).toNat = (x.i t o l).x :=
  (BitVec.toNat_ofNat ..).trans (Nat.mod_eq_of_lt (bits_of_isInt ht ▸ x.rd.int_lt o t.w64 l))

/-! ### Instructions on bit vectors

Each lemma takes an instruction whose meaning is f on naturals, and says that it runs as g on bit vectors where the two
agree. -/

section
variable {i : Instr} {h : Hdr} {t : Ty} {d a b : Opnd}

theorem runsFixed_int2 {f : Bool → El → El → El} {out : Bool → Nat → Half → Half → El}
    {g : BitVec t.bits → BitVec t.bits → BitVec t.bits}
    (hi : ∀ s, exec i s = int2 i h t d a b f s) (ht : t.isInt = true)
    (hf : ∀ bt (u v : BitVec t.bits) p q, f bt ⟨u.toNat, p⟩ ⟨v.toNat, q⟩ = out bt (g u v).toNat p q) :
    RunsFixed i h 4 (wr (tyN t) d ++ rd (tyN t) a ++ rd (tyN t) b) (laneWrites d t.w64 (fun x l =>
      out x.bt (g (BitVec.ofNat t.bits (x.i t a l).x) (BitVec.ofNat t.bits (x.i t b l).x)).toNat
        (x.i t a l).b (x.i t b l).b)) := by
  simp only [← hf, X.toNat_i ht]
  exact runsFixed_vecOp hi

/-- A bit instruction of one source has the bound of R157. -/
theorem runsFixed_bits1 {f : Nat → Nat} {g : BitVec t.bits → BitVec t.bits}
    (hi : ∀ s, exec i s = int1 i h t d a (fun bt a => bitEl bt (f a.x) [a.b]) s) (ht : t.isInt = true)
    (hf : ∀ u : BitVec t.bits, f u.toNat = (g u).toNat) :
    RunsFixed i h 4 (wr (tyN t) d ++ rd (tyN t) a) (laneWrites d t.w64 (fun x l =>
      bitEl x.bt (g (BitVec.ofNat t.bits (x.i t a l).x)).toNat [(x.i t a l).b])) := by
  simp only [← hf, X.toNat_i ht]
  exact runsFixed_vecOp hi

/-- A bit instruction of two sources has the bound of R157. -/
theorem runsFixed_bits2 {f : Nat → Nat → Nat} {g : BitVec t.bits → BitVec t.bits → BitVec t.bits}
    (hi : ∀ s, exec i s = int2 i h t d a b (fun bt a b => bitEl bt (f a.x b.x) [a.b, b.b]) s) (ht : t.isInt = true)
    (hf : ∀ u v : BitVec t.bits, f u.toNat v.toNat = (g u v).toNat) :
    RunsFixed i h 4 (wr (tyN t) d ++ rd (tyN t) a ++ rd (tyN t) b) (laneWrites d t.w64 (fun x l =>
      bitEl x.bt (g (BitVec.ofNat t.bits (x.i t a l).x) (BitVec.ofNat t.bits (x.i t b l).x)).toNat
        [(x.i t a l).b, (x.i t b l).b])) :=
  runsFixed_int2 (out := fun bt n p q => bitEl bt n [p, q]) hi ht fun _ u v _ _ => by rw [hf]

theorem runsFixed_shift2 {f : Nat → Nat → Nat → Nat} {g : BitVec t.bits → Nat → BitVec t.bits}
    (hi : ∀ s, exec i s = shift2 i h t d a b f s) (ht : t.isInt = true)
    (hf : ∀ (v : BitVec t.bits) c, f t.bits v.toNat c = (g v c).toNat) :
    RunsFixed i h 4 (wr (tyN t) d ++ rd (tyN t) a ++ rd 1 b) (laneWrites d t.w64 (fun x l =>
      bitEl x.bt (g (BitVec.ofNat t.bits (x.i t a l).x) (x.n32 b l).x).toNat [(x.i t a l).b, (x.n32 b l).b])) := by
  simp only [← hf, X.toNat_i ht]
  exact runsFixed_vecOp hi

end

/-! ### Signed values, and shifts by a count (R159) -/

theorem sext_toNat {w : Nat} (v : BitVec w) : sext v.toNat w = v.toInt := by
  rw [BitVec.toInt_eq_toNat_cond]
  unfold sext
  dsimp only
  rw [Nat.mod_eq_of_lt v.isLt]
  cases w with
  | zero => simp [BitVec.eq_nil v]
  | succ n =>
    have hhalf : v.toNat < 2 ^ n ↔ 2 * v.toNat < 2 ^ (n + 1) := by rw [Nat.pow_succ]; omega
    simp only [Nat.add_sub_cancel, hhalf]
    push_cast
    rfl

/-- A signed shift by the width or more leaves copies of the top bit. -/
theorem sshiftRight_of_width_le {w n : Nat} (v : BitVec w) (hn : w ≤ n) :
    v.sshiftRight n = if v.msb then BitVec.allOnes w else 0 := by
  cases hm : v.msb with
  | false => simp [BitVec.sshiftRight_eq_of_msb_false hm, BitVec.ushiftRight_eq_zero hn]
  | true => simp [BitVec.sshiftRight_eq_of_msb_true hm, BitVec.ushiftRight_eq_zero hn]

theorem sshiftRight_min_width {w : Nat} (v : BitVec w) (c : Nat) : v.sshiftRight (min c w) = v.sshiftRight c := by
  rcases Nat.le_total c w with h | h
  · rw [Nat.min_eq_left h]
  · rw [Nat.min_eq_right h, sshiftRight_of_width_le v h, sshiftRight_of_width_le v le_rfl]

theorem shlBits_toNat {w : Nat} (v : BitVec w) (c : Nat) : shlBits w v.toNat c = (v <<< c).toNat := by
  unfold shlBits
  split
  · rw [BitVec.toNat_shiftLeft, Nat.shiftLeft_eq]
  · rw [BitVec.shiftLeft_eq_zero (by omega), BitVec.toNat_zero]

theorem shrBits_toNat {w : Nat} (v : BitVec w) (c : Nat) : shrBits w v.toNat c = (v >>> c).toNat := by
  unfold shrBits
  split
  · rw [BitVec.toNat_ushiftRight, Nat.shiftRight_eq_div_pow]
  · rw [BitVec.ushiftRight_eq_zero (by omega), BitVec.toNat_zero]

theorem sarBits_toNat {w : Nat} (v : BitVec w) (c : Nat) : sarBits w v.toNat c = (v.sshiftRight c).toNat := by
  rw [← sshiftRight_min_width, BitVec.sshiftRight, BitVec.toNat_ofInt, Int.shiftRight_eq_div_pow, sarBits, trunc,
    sext_toNat]
  push_cast
  rfl

/-- The bits that leave at the top come back below those that stay, so that their sum is their union. -/
theorem rolBits_toNat {w : Nat} (v : BitVec w) (c : Nat) : rolBits w v.toNat c = (v.rotateLeft c).toNat := by
  rcases Nat.eq_zero_or_pos w with rfl | hw
  · simp [BitVec.eq_nil v, rolBits]
  rw [BitVec.toNat_rotateLeft]
  unfold rolBits
  have hk : c % w < w := Nat.mod_lt _ hw
  generalize c % w = k at hk
  have hsplit : 2 ^ w = 2 ^ (w - k) * 2 ^ k := by rw [← Nat.pow_add, Nat.sub_add_cancel hk.le]
  have hlow : v.toNat / 2 ^ (w - k) < 2 ^ k := Nat.div_lt_of_lt_mul (hsplit ▸ v.isLt)
  rw [Nat.shiftRight_eq_div_pow, Nat.shiftLeft_eq, hsplit, Nat.mul_mod_mul_right, ← Nat.shiftLeft_eq,
    Nat.shiftLeft_add_eq_or_of_lt hlow]

/-- Settles O55: the counts and remainders of the model's shifts are those of bit vectors. -/
theorem shiftsFollowTheirTable : Obligations.ShiftsFollowTheirTable := by
  intro h ty d a b ht
  have hi := isInt_of_isBit ht
  refine ⟨⟨?shl, ?shr, ?sar, ?rol⟩, ⟨rfl, rfl, rfl, rfl⟩, ?wide⟩
  case shl => exact runsFixed_shift2 (g := fun v c => v <<< c) (fun _ => rfl) hi shlBits_toNat
  case shr => exact runsFixed_shift2 (g := fun v c => v >>> c) (fun _ => rfl) hi shrBits_toNat
  case sar => exact runsFixed_shift2 (g := fun v c => v.sshiftRight c) (fun _ => rfl) hi sarBits_toNat
  case rol => exact runsFixed_shift2 (g := fun v c => v.rotateLeft c) (fun _ => rfl) hi rolBits_toNat
  case wide =>
    intro w n v hn
    exact ⟨BitVec.shiftLeft_eq_zero hn, BitVec.ushiftRight_eq_zero hn, sshiftRight_of_width_le v hn,
      BitVec.rotateLeft_mod_eq_rotateLeft.symm⟩

/-! ### Orders (R155) -/

/-- The order of a type's values: signed or unsigned (R155). -/
def tyLess (t : Ty) (u v : BitVec t.bits) : Bool := if t.signed then u.slt v else u.ult v

theorem tyInt_lt_iff {t : Ty} (u v : BitVec t.bits) : tyInt t u.toNat < tyInt t v.toNat ↔ tyLess t u v = true := by
  unfold tyInt tyLess
  split
  · rw [sext_toNat, sext_toNat, BitVec.slt_iff_toInt_lt]
  · rw [BitVec.ult_iff_toNat_lt, Int.ofNat_lt]

/-! ### A check that fails (R60) -/

theorem bind_error {α β : Type} {x : Dec α} {e : DecErr} {k : α → Dec β} (hx : x = .error e) :
    (x >>= k) = .error e := by
  subst hx
  rfl

theorem zero_error_of_ne {e : DecErr} {r : BitVec 10} (hr : r ≠ 0) : Fields.zero e r = .error e :=
  if_neg (by simpa using hr)

/-- In the word of a well-formed `not`, a B that is not zero is the first illegal field (R60, R158). -/
theorem decodeFields_not_of_b_ne {cx : DecCtx} {h : Hdr} {t : Ty} {d a : Opnd} {r : BitVec 10}
    (hw : (Instr.not h t d a).wf cx = true) (hr : r ≠ 0) :
    decodeFields cx { Fields.enc h 0x2F 0 t.code with d := d.code, a := a.code, b := r } = .error .b := by
  obtain ⟨ht, hd, ha, hu⟩ := of_and4 hw
  exact bind_ok rfl <| bind_ok (Fields.tyIn_of rfl ht) <| bind_ok rfl <| bind_ok (Fields.fld_code _ d _ hd) <|
    bind_ok (fld_uni ha hu) <| bind_error (zero_error_of_ne hr)

/-! ### `min`, `max` and the bitwise operations -/

/-- Settles O56: the model compares the values of its elements and computes their bits as naturals, which agrees with the
orders and the operations of bit vectors because an element fits its type; B is the first field of `not` that fails. -/
theorem logicAndOrderFollowTheirRules : Obligations.LogicAndOrderFollowTheirRules := by
  refine ⟨fun h ty d a b ht => ⟨?min, ?max, rfl, rfl⟩, fun h ty d a b ht => ?_⟩
  case min =>
    refine runsFixed_int2 (out := fun bt n p q => ⟨n, computed bt (ebMax p q)⟩)
      (g := fun u v => if tyLess ty v u then v else u) (fun _ => rfl) ht fun bt u v p q => ?_
    simp only [minEl, tyInt_lt_iff, apply_ite BitVec.toNat]
  case max =>
    refine runsFixed_int2 (out := fun bt n p q => ⟨n, computed bt (ebMax p q)⟩)
      (g := fun u v => if tyLess ty u v then v else u) (fun _ => rfl) ht fun bt u v p q => ?_
    simp only [maxEl, tyInt_lt_iff, apply_ite BitVec.toNat]
  have hi := isInt_of_isBit ht
  refine ⟨⟨?and, ?or, ?xor, ?andn, ?not⟩, ⟨rfl, rfl, rfl, rfl, rfl⟩, ?illegal⟩
  case and =>
    exact runsFixed_bits2 (f := (· &&& ·)) (g := (· &&& ·)) (fun _ => rfl) hi fun u v => (BitVec.toNat_and u v).symm
  case or =>
    exact runsFixed_bits2 (f := (· ||| ·)) (g := (· ||| ·)) (fun _ => rfl) hi fun u v => (BitVec.toNat_or u v).symm
  case xor =>
    exact runsFixed_bits2 (f := (· ^^^ ·)) (g := (· ^^^ ·)) (fun _ => rfl) hi fun u v => (BitVec.toNat_xor u v).symm
  case andn =>
    refine runsFixed_bits2 (f := fun u v => u &&& (2 ^ ty.bits - 1 - v)) (g := fun u v => u &&& ~~~v) (fun _ => rfl) hi
      fun u v => ?_
    rw [BitVec.toNat_and, BitVec.toNat_not]
  case not =>
    exact runsFixed_bits1 (f := fun u => 2 ^ ty.bits - 1 - u) (g := fun u => ~~~u) (fun _ => rfl) hi fun _ =>
      BitVec.toNat_not.symm
  case illegal =>
    intro cx r hw hr
    rw [decode_toWord cx _ (show (0x2F : BitVec 8) ≠ 0xFF by decide)]
    exact decodeFields_not_of_b_ne hw hr

end Sys2Proof.Machine
end

section
/-! PROOFS. Bounds and the budget, and tasks that open, commit and close (R184, R185, R195-R210). -/

namespace Sys2Proof.Machine

/-! ### Bounds and the budget -/

/-- Where no element of an effective lane breaches the budget, no lane does (R185, R186). -/
theorem X.breachLanes_eq_zero {x : X} {t : Ty} {o : Opnd} (hx : ∀ l, lane x.e l = true →
    ∀ v ∈ elemVals t (x.rd.el o t.w64 l).x, breaches x.tm.mode x.tm.budg v (x.rd.el o t.w64 l).b = false) :
    x.breachLanes t o = 0 := by
  refine maskOf_none _ fun l => ?_
  cases hl : lane x.e l with
  | false => rfl
  | true => exact List.any_eq_false.mpr fun v hv => Bool.eq_false_iff.mp (hx l hl v hv)

/-- Settles O6: the accesses run at their latency, and `bchk` finds no lane to stop for. -/
theorem boundsAndBudgetComplete : Obligations.BoundsAndBudgetComplete := by
  unfold Obligations.BoundsAndBudgetComplete
  refine ⟨?bget, ?bset, ?budgRd, ?budgSet, ?bchk⟩
  case bget | budgRd =>
    intros
    exact runsFixed_vecOp fun _ => rfl
  case bset =>
    intros
    exact runsFixed_of_body (fun _ => rfl) fun _ _ => rfl
  case budgSet =>
    intros
    exact runsIssue_of_body (fun _ => rfl) (fun _ _ => rfl) fun _ _ f => by cases f <;> rfl
  case bchk =>
    intro h ty o s a hr hx
    exact instr_idle hr _ _ (if_pos (X.breachLanes_eq_zero hx))

/-! ### Closing a task changes no path -/

@[simp] theorem Team.abortTask_path (tm : Team) (f : Bool) : tm.abortTask.path f = tm.path f := by
  unfold Team.abortTask
  cases tm.task <;> rfl

@[simp] theorem Team.closeTask_path (tm : Team) (f : Bool) : tm.closeTask.path f = tm.path f := by
  unfold Team.closeTask
  cases tm.task <;> rfl

/-! ### Task instructions that nothing stops -/

@[simp] theorem State.issued_ops (s : State) (a : At) : (s.issued a).ops = s.ops := by rw [State.issued_eq]
@[simp] theorem State.issued_nextOp (s : State) (a : At) : (s.issued a).nextOp = s.nextOp := by rw [State.issued_eq]

section
variable {s : State} {a : At} {h : Hdr}

/-- An Issue-class instruction that changes its team, and beside the teams leads to s1. -/
theorem instr_issue_beside {ps : List Port} (hr : Ready s a h ps) (i : Instr) (cls : Cls) (body : X → State → Res)
    (s1 : State) (g : Team → Team) (hb : body (s.viewAt a h) (s.issued a) = .issue (s1.modTeam a.t g))
    (hg : ∀ tm, (g tm).path a.f = tm.path a.f) (h1 : s1.hole = false) (hc : s1.clk = s.clk)
    (ht : s1.teams = (s.issued a).teams) : instr i h cls ps body s = .next (s1.issueNext a h g) := by
  have he : ∀ tm, tget s1.teams a.t = some tm → ((g tm).path a.f).ended = false := by
    intro tm htm
    rw [hg]
    exact (hr.clear.live.issued_team' tm (ht ▸ htm)).2
  rw [instr_ready hr, hb, State.retire_issue (s.viewAt_of a h) i cls ps g s1 _ (by simp [hc]) he]
  exact answer_of_hole_false h1

/-- R195: the snapshot is of the team as it stands. -/
theorem exec_taskB_of_free (hr : Ready s a h []) (hh : a.tm.inH = false) (hs : a.tm.split = false)
    (hk : a.tm.task = none) (hn : (s.issued a).openTasks a.tm.core < 64) (he : ∀ e ∈ a.tm.stack, e.bad = false) :
    exec (.taskB h) s = .next ((s.issued a).issueNext a h (fun tm =>
      { tm with task := some ((s.viewAt a h).snapshot s.nextOp), bstat := bsSet tm.bstat 11 5 4 })) := by
  have htask : ¬ a.tm.task.isSome = true := by simp [hk]
  have hbad : ¬ a.tm.stack.any (fun e => e.bad) = true := by simpa using he
  rw [← State.issued_nextOp s a]
  refine instr_issue hr _ .issue _ _ (fun _ ht => ht) ?_
  exact (if_neg (Bool.eq_false_iff.mp hh)).trans <| (if_neg (Bool.eq_false_iff.mp hs)).trans <| (if_neg htask).trans <|
    (if_neg hbad).trans <| if_neg (Nat.not_le_of_lt hn)

/-- An operation that `task.e` waits for: a store or a matrix command of the attempt (R202). -/
def Task.awaits (k : Task) (t : Nat) (o : Nat × Op) : Bool :=
  o.2.team = t && k.firstOp ≤ o.1 && ((o.2.cunit = .mem && o.2.dst = []) || o.2.cunit = .matrix)

/-- R202: the version is committed, and the task closes. -/
theorem exec_taskE_of_whole {k : Task} (hr : Ready s a h []) (hk : a.tm.inTask = some k) (hs : a.tm.split = false)
    (hb : k.breach = none) (hw : s.ops.any (k.awaits a.t) = false) :
    exec (.taskE h) s = .next (((s.issued a).commit a.tm k).issueNext a h Team.closeTask) := by
  obtain ⟨hteams, hclk, hhole⟩ := (s.issued a).commit_same a.tm k
  refine instr_issue_beside hr _ .issue _ _ _ ?_ (fun tm => tm.closeTask_path a.f) (by simp [hhole, hr.hole])
    (by simp [hclk]) hteams
  have hops : ¬ (s.issued a).ops.any (k.awaits a.t) = true := by simp [hw]
  have hbr : (if k.nonspec then none else k.breach) = none := by simp [hb]
  have hk' : (s.viewAt a h).tm.inTask = some k := hk
  simp only [hk']
  refine (if_neg (Bool.eq_false_iff.mp hs)).trans ((if_neg hops).trans ?_)
  simp only [hbr]
  rfl

/-- R199, R210: without RETRY the task closes, and its version goes. -/
theorem exec_taskX_of_inTask {k : Task} (hr : Ready s a h []) (hk : a.tm.inTask = some k) (hs : a.tm.split = false) :
    exec (.taskX h false) s = .next ((s.issued a).issueNext a h (fun tm => tm.abortTask)) := by
  have htask : ¬ a.tm.inTask.isNone = true := by simp [hk]
  refine instr_issue hr _ .issue _ _ (fun tm ht => by rwa [Team.abortTask_path]) ?_
  exact (if_neg htask).trans (if_neg (Bool.eq_false_iff.mp hs))

end

/-- Settles O7: each instruction passes the checks that stand before its effect, and no operation is left that `task.e`
waits for. -/
theorem tasksComplete : Obligations.TasksComplete := by
  unfold Obligations.TasksComplete
  refine ⟨?taskB, ?taskE, ?taskX⟩
  case taskB => exact fun _ _ _ => exec_taskB_of_free
  case taskE =>
    intro h s a k hr hk hs hb hops
    refine exec_taskE_of_whole hr hk hs hb (List.any_eq_false.mpr fun o ho hw => ?_)
    simp only [Task.awaits, Bool.and_eq_true, Bool.or_eq_true, decide_eq_true_eq] at hw
    obtain ⟨⟨hteam, hfirst⟩, hunit⟩ := hw
    obtain ⟨hmem, hmatrix⟩ := hops o ho hteam hfirst
    exact hunit.elim hmem hmatrix
  case taskX => exact fun _ _ _ _ => exec_taskX_of_inTask

end Sys2Proof.Machine
end

section
/-! PROOFS. What the hub and the side log do takes no time: signals, halters, retirement, and replays (R33, R286, R364,
R390). -/

namespace Sys2Proof.Machine

/-! ### Halters and queues -/

@[simp] theorem State.hubWrite_clk (s : State) (c : Option Nat) (k pa v n : Nat) : (s.hubWrite c k pa v n).clk = s.clk :=
  (State.writePhys_clk ..).trans (s.touch_aside pa n).clk

theorem State.flushHalters_clk (s : State) : s.flushHalters.clk = s.clk := by
  unfold State.flushHalters
  refine foldl_keeps (P := fun a : State × List Halter => a.1.clk = s.clk) (fun a h ha => ?_) _ _ rfl
  dsimp only
  split
  · exact ha
  · exact (State.hubWrite_clk ..).trans ha

@[simp] theorem State.addHalter_clk (s : State) (h : Halter) : (s.addHalter h).clk = s.clk := State.flushHalters_clk _

theorem State.queueHalt_clk (s : State) (q hcs : Nat) : (s.queueHalt q hcs).clk = s.clk := by
  unfold State.queueHalt
  dsimp only
  split
  · exact State.addHalter_clk ..
  · rfl

/-! ### Signals and launches -/

theorem State.writeSignal_clk (s : State) (c va val code cause : Nat) (add : Bool) :
    (s.writeSignal c va val code cause add).2.clk = s.clk := by
  have hlook := (s.look_aside c va true).clk
  unfold State.writeSignal
  split
  · rfl
  dsimp only
  split
  · rw [State.writeLine_clk]
    exact hlook
  · exact (State.report_aside ..).clk.trans hlook
  · exact (State.report_aside ..).clk.trans hlook
  · exact hlook

theorem State.launchSignal_clk (s : State) (l : Nat) : (s.launchSignal l).clk = s.clk := by
  unfold State.launchSignal
  split
  · rfl
  dsimp only
  split
  · split
    · exact State.writeSignal_clk ..
    · exact State.writeSignal_clk ..
    · exact (State.queueHalt_clk ..).trans (State.writeSignal_clk ..)
  · rfl
  · rfl

theorem State.launchEnd_clk (s : State) (l : Nat) : (s.launchEnd l).clk = s.clk := by
  unfold State.launchEnd
  split
  · rfl
  · split <;> rfl

@[simp] theorem State.launchCheck_clk (s : State) (l : Nat) : (s.launchCheck l).clk = s.clk := by
  unfold State.launchCheck
  split
  · rfl
  · split
    · rfl
    · exact (State.launchEnd_clk ..).trans (State.launchSignal_clk ..)

@[simp] theorem State.launchErr_clk (s : State) (l code cause : Nat) : (s.launchErr l code cause).clk = s.clk := rfl

/-! ### Retirement -/

theorem State.groupCheck_clk (s : State) (g : Nat) : (s.groupCheck g).clk = s.clk := by
  unfold State.groupCheck
  split
  · rfl
  · split <;> rfl

theorem State.wideGone_clk (s : State) (w : Option Nat) : (s.wideGone w).clk = s.clk := by
  unfold State.wideGone
  split
  · rfl
  · split
    · rfl
    · split <;> rfl

theorem State.freeTeam_clk (s : State) (t : Nat) : (s.freeTeam t).clk = s.clk := by
  unfold State.freeTeam
  split
  · rfl
  · next tm ht =>
    have hloss : (if tm.sideLost then s.launchErr tm.launch 7 0 else s).clk = s.clk := by split <;> rfl
    refine (State.launchCheck_clk ..).trans ((State.groupCheck_clk ..).trans ?_)
    split
    · exact ((State.wideGone_clk ..).trans (State.wideGone_clk ..)).trans hloss
    · exact hloss

theorem State.retireCheck_clk (s : State) (t : Nat) : (s.retireCheck t).clk = s.clk := by
  unfold State.retireCheck
  split
  · split
    · exact State.freeTeam_clk ..
    · rfl
  · rfl

theorem State.discardTeam_clk (s : State) (t : Nat) : (s.discardTeam t).clk = s.clk := by
  unfold State.discardTeam
  split
  · rfl
  · exact State.retireCheck_clk ..

@[simp] theorem State.haltTeam_clk (s : State) (t : Nat) (f : Bool) (hc sub ocs osub : Nat) (hval : Dword) (pc : BitVec 64) :
    (s.haltTeam t f hc sub ocs osub hval pc).clk = s.clk := by
  unfold State.haltTeam
  split
  · rfl
  · dsimp only
    split
    · exact State.addHalter_clk ..
    · exact State.discardTeam_clk ..

/-! ### The side log -/

@[simp] theorem State.sideDel_clk (s : State) (n id : Nat) : (s.sideDel n id).clk = s.clk := rfl

theorem State.sideLoss_clk (s : State) (team launch : Nat) : (s.sideLoss team launch).clk = s.clk := by
  unfold State.sideLoss
  split
  · split <;> rfl
  · rfl

@[simp] theorem State.sideDrop_clk (s : State) (n : Nat) (e : SideEntry) : (s.sideDrop n e).clk = s.clk :=
  (State.launchCheck_clk ..).trans (State.sideLoss_clk ..)

theorem State.replayEntry_clk (s : State) (core : Nat) (e : SideEntry) : (s.replayEntry core e).2.clk = s.clk := by
  have hlook := (s.look_aside e.ctx (e.vline * 128) true).clk
  unfold State.replayEntry
  dsimp only
  split
  · rw [State.l1Drop_clk]
    split
    · refine foldl_keeps (P := fun u : State => u.clk = s.clk) (fun u x hu => ?_) _ _ ?_
      · exact (State.rmw_same ..).2.2.trans hu
      · exact (State.performWrites_same ..).2.2.trans hlook
    · exact (State.performWrites_same ..).2.2.trans hlook
  · exact hlook
  · exact (State.report_aside ..).clk.trans hlook
  · exact (State.report_aside ..).clk.trans hlook
  · exact hlook
  · exact hlook
  · exact hlook

theorem State.replay_clk (s : State) (n : Nat) (e : SideEntry) : (s.replay n e).clk = s.clk := by
  have hentry := s.replayEntry_clk n e
  unfold State.replay
  generalize s.replayEntry n e = q at hentry ⊢
  obtain ⟨r, s1⟩ := q
  cases r with
  | done => exact (State.launchCheck_clk ..).trans hentry
  | waits => exact hentry
  | lost => exact (State.sideDrop_clk ..).trans hentry
  | refused k =>
    refine (State.launchCheck_clk ..).trans (Eq.trans ?_ hentry)
    dsimp only
    split
    · split
      · split
        · exact State.haltTeam_clk ..
        · rfl
      · split <;> rfl
    · rfl

@[simp] theorem State.replayLine_clk (s : State) (n ctx vline : Nat) : (s.replayLine n ctx vline).clk = s.clk := by
  unfold State.replayLine
  refine foldl_keeps (P := fun u : State => u.clk = s.clk) (fun u e hu => ?_) _ _ rfl
  split
  · exact hu
  · exact (State.replay_clk ..).trans hu

/-! ### Translation of the parts of a store -/

theorem State.lookRun_clk (s : State) (cache : List (Nat × Walk)) (ctx va : Nat) (write : Bool) :
    (s.lookRun cache ctx va write).2.2.clk = s.clk := by
  unfold State.lookRun
  split
  · rfl
  · exact (s.translate_aside ctx va).clk

theorem State.resolveParts_clk (tm : Team) (rs : List (Piece × Nat × Run × List Byte × List Byte)) :
    ∀ (s : State) (cache : List (Nat × Walk)), (s.resolveParts tm cache rs).2.clk = s.clk := by
  induction rs with
  | nil => exact fun _ _ => rfl
  | cons r rs ih =>
    intro s cache
    obtain ⟨p, a, run, bs, ks⟩ := r
    cases run with
    | scr off len => exact ih ..
    | va va len =>
      have hlook := s.lookRun_clk cache tm.ctx va true
      unfold State.resolveParts
      generalize s.lookRun cache tm.ctx va true = q at hlook ⊢
      obtain ⟨l, cache1, s1⟩ := q
      refine (ih ..).trans (Eq.trans ?_ hlook)
      dsimp only
      split
      · split
        · exact State.replayLine_clk ..
        · rfl
      · rfl

end Sys2Proof.Machine
end

section
/-! PROOFS. Matrix instructions enter their commands, and `mst` stores its rows (R212, R220, R236-R244). -/

namespace Sys2Proof.Machine

/-! ### What an update of the unit leaves -/

@[simp] theorem State.core_modCore_self (s : State) (n : Nat) (f : Core → Core) : (s.modCore n f).core n = f (s.core n) :=
  tgetD_tset_self ..

@[simp] theorem State.core_modMx_self (s : State) (n : Nat) (f : MatrixU → MatrixU) :
    (s.modMx n f).core n = { s.core n with mx := f (s.core n).mx } := State.core_modCore_self ..

@[simp] theorem State.modMx_hole (s : State) (n : Nat) (f : MatrixU → MatrixU) : (s.modMx n f).hole = s.hole := rfl

theorem State.mEnqueue_queue (s : State) (core quad : Nat) (c : MCmd) :
    ((s.mEnqueue core quad c).core core).mx.queue quad = (s.core core).mx.queue quad ++ [c] := by
  rw [State.mEnqueue, State.core_modMx_self]
  exact tgetD_tset_self ..

/-! ### Commands at issue (R212, R215) -/

/-- With all 64 lanes the mask check lets a matrix instruction through. -/
theorem matrixInstr_of_allLanes {s : State} {a : At} {i : Instr} {h : Hdr} {ps : List Port} {body : X → State → Res}
    (hc : s.cur = some (a.t, a.f, a.late)) (ht : tget s.teams a.t = some a.tm) (hm : a.mask h = allLanes) :
    matrixInstr i h ps body s = instr i h (.token .matrix) ps body s := by
  have he : (a.tm.path a.f).exm &&& a.tm.guard h.g = allLanes := hm
  unfold matrixInstr
  simp only [hc, ht, he, ne_eq, not_true_eq_false, decide_false, Bool.and_false, Bool.false_eq_true, if_false]
  rfl

/-- The state in which an instruction with view x has entered its command c in its quadrant's queue. -/
def X.enters (x : X) (s : State) (c : MCmd) : State :=
  s.mEnqueue x.tm.core x.tm.quad { c with op := s.nextOp, clk0 := s.clk }

/-- With the lease where it needs it, and with room in its queue, a command enters at its first issue; `mst` goes on
holding. -/
theorem X.submit_of_room {x : X} {s : State} {tile : Bool} {c : MCmd} (sync : Bool) (keys : List Nat) (hst : x.st = none)
    (hl : tile = true → (s.core x.tm.core).mx.holder = some x.tm.group)
    (hq : ((s.core x.tm.core).mx.queue x.tm.quad).length < 32) : x.submit s tile sync keys c =
      if sync then x.hold (x.enters s c) 2 [s.nextOp] else .token (x.enters s c) (x.op s .matrix keys .engine) := by
  have hnum : x.opNum s = s.nextOp := by simp [X.opNum, X.claim, hst]
  have hlease : ¬ (tile = true ∧ (s.core x.tm.core).mx.holder ≠ some x.tm.group) := fun hn => hn.2 (hl hn.1)
  unfold X.submit
  simp only [hst, hnum]
  exact (if_neg hlease).trans (if_neg (Nat.not_le_of_lt hq))

section
variable {i : Instr} {h : Hdr} {ps : List Port} {body : X → State → Res} {s : State} {a : At}

/-- An instruction whose meaning submits a command at its first issue enters it. -/
theorem matrixEnters_of_submit {tile : Bool} {keys : List Nat} {s1 : State} {c : MCmd} (hr : Ready s a h ps)
    (hi : exec i s = matrixInstr i h ps body s)
    (hb : body (s.viewAt a h) (s.issued a) = (s.viewAt a h).submit s1 tile false keys c)
    (hh : s1.hole = s.hole) (hc : s1.clk = s.clk) : MatrixEnters i h s a tile keys s1 c := by
  intro hm hl hq
  rw [hi, matrixInstr_of_allLanes hr.clear.live.cur hr.clear.live.team hm, ← hc]
  exact instr_token hr i _ body _ _ (hb.trans (X.submit_of_room false keys rfl hl hq)) (hh.trans hr.hole)

/-- An instruction of the token class that starts to hold its fragment claims the next operation. -/
theorem nextOp_of_issue_hold {s1 t : State} {u : CUnit} {stage : Nat} {cap : List Nat} (hr : Ready s a h ps)
    (hb : body (s.viewAt a h) (s.issued a) = (s.viewAt a h).hold s1 stage cap) (hn : s1.nextOp = (s.issued a).nextOp)
    (ht : answer (s.issue i h (.token u) ps false false body) = .next t) : t.nextOp = s.nextOp + 1 := by
  rw [State.issue_clear hr.clear i _ false body (.inl hr.acts), hb] at ht
  unfold answer at ht
  split at ht
  · exact absurd ht nofun
  · rw [← Host.Outcome.next.inj ht, ← s.issued_nextOp a]
    simp only [X.hold, State.viewAt, State.retire, hn, if_true, State.claimAt]
    rfl

theorem State.issued_core (s : State) (a : At) (n : Nat) : (s.issued a).core n = s.core n := by
  rw [State.issued_eq]
  rfl

/-- An instruction whose meaning submits a command at its first issue and goes on holding (`mst`) enters it and waits. -/
theorem enters_and_waits_of_submit {c : MCmd} (hr : Ready s a h ps) (hi : exec i s = matrixInstr i h ps body s)
    (hb : body (s.viewAt a h) (s.issued a) = (s.viewAt a h).submit (s.issued a) true true [] c) (hm : a.mask h = allLanes)
    (hl : (s.core a.tm.core).mx.holder = some a.tm.group) (hq : ((s.core a.tm.core).mx.queue a.tm.quad).length < 32) :
    ∃ t, exec i s = .next t ∧ WaitsIn t a i 2 ∧ t.nextOp = s.nextOp + 1 ∧
      (t.core a.tm.core).mx.queue a.tm.quad =
        (s.core a.tm.core).mx.queue a.tm.quad ++ [{ c with op := s.nextOp, clk0 := s.clk }] := by
  have hcore := s.issued_core a a.tm.core
  have hhold : body (s.viewAt a h) (s.issued a) =
      (s.viewAt a h).hold ((s.viewAt a h).enters (s.issued a) c) 2 [(s.issued a).nextOp] :=
    hb.trans (X.submit_of_room true [] rfl (fun _ => hcore ▸ hl) (hcore ▸ hq))
  obtain ⟨t, tm, hnext, ht, -, hpc, -, hin, heq⟩ := issue_hold hr.clear i (.token .matrix) false body _ 2 _ (.inl hr.acts)
    hhold ((s.issued_hole a).trans hr.hole) _ (State.issued_team hr.clear.live)
  refine ⟨t, ?_, ⟨tm, _, _, _, ht, hpc.trans (by simp), hin⟩, nextOp_of_issue_hold hr hhold rfl hnext, ?_⟩
  · rw [hi, matrixInstr_of_allLanes hr.clear.live.cur hr.clear.live.team hm]
    exact hnext
  · have hqueue : (t.core a.tm.core).mx.queue a.tm.quad =
        (((s.viewAt a h).enters (s.issued a) c).core a.tm.core).mx.queue a.tm.quad := by
      rw [heq]
      rfl
    rw [hqueue, ← hcore, ← s.issued_nextOp a, ← s.issued_clk a]
    exact State.mEnqueue_queue ..

end

/-! ### `mst` goes on with the conversion's result (R220, R243) -/

/-- What is left to do of the store of an `mst` whose operation has number n, and the state beside it: its parts are written
now, or, behind an operation that it must follow, when it completes. -/
def X.mstStored (x : X) (n : Nat) (s : State) (err : Option Nat) (ps : List Part) : Work × State :=
  let ws := ps.map Part.wr
  if x.late || s.behind x.t n (ws.map (fun w => w.c)) || s.unlinked x.tm (.store ws err) then (.store ws err, s)
  else (endWork err, s.performWrites x.tm.core x.tm.ctx ws)

theorem X.mstStored_same (x : X) (n : Nat) (s : State) (err : Option Nat) (ps : List Part) :
    (x.mstStored n s err ps).2.clk = s.clk ∧ (x.mstStored n s err ps).2.hole = s.hole := by
  obtain ⟨hhole, -, hclk⟩ := s.performWrites_same x.tm.core x.tm.ctx (ps.map Part.wr)
  unfold X.mstStored
  dsimp only
  split
  · exact ⟨rfl, rfl⟩
  · exact ⟨hclk, hhole⟩

/-- The matrix unit's store needs no line operations of the memory unit. -/
theorem X.storeOp_matrix (x : X) (s : State) (err : Option Nat) (stage : Nat) (ps : List Part) :
    x.storeOp s ⟨.matrix, err⟩ stage ps 0 = .token (x.mstStored (x.opNum s) s err ps).2
      (x.op (x.mstStored (x.opNum s) s err ps).2 .matrix [] (x.mstStored (x.opNum s) s err ps).1) := by
  unfold X.storeOp X.mstStored
  dsimp only
  rw [if_neg (by simp)]
  split <;> rfl

section
variable {s s1 : State} {a : At} {h : Hdr} {i : Instr} {e : Mask} {w : Held} {ps : List Port} {o : Op} {k : Claim}

/-- A token-class answer of an instruction that goes on: its operation takes the number that it claimed. -/
theorem State.retire_token_claimed (s0 : State) (cls : Cls) (hk : a.path.claim = some k) (hc : s1.clk = s.clk) :
    s0.retire i (s.viewIn a h e w) cls ps (.token s1 o) = { s1 with ops := tset s1.ops k.num { o with
      post := h.sc.post.map (fun (n : BitVec 5) => (a.tm.curBank, n.toNat)), clash := k.clash } }.modTeam a.t
        (a.next h s.clk 0) := by
  have hclaim : (s.viewIn a h e w).claim = some k := hk
  simp only [State.retire, State.addOp, hclaim, State.advance_eq (s.viewIn_of a h e w), hc]
  rfl

/-- A matrix instruction that goes on and whose operation is made. -/
theorem matrixInstr_of_token_claimed {body : X → State → Res} (hr : Within s a i e w) (hm : a.mask h = allLanes)
    (hk : a.path.claim = some k) (hb : body (s.viewIn a h e w) (s.resumed a) = .token s1 o) (hc : s1.clk = s.clk)
    (hh : s1.hole = false) : matrixInstr i h ps body s = .next ({ s1 with ops := tset s1.ops k.num { o with
      post := h.sc.post.map (fun (n : BitVec 5) => (a.tm.curBank, n.toNat)), clash := k.clash } }.modTeam a.t
        (a.next h s.clk 0)) := by
  rw [matrixInstr_of_allLanes hr.cur hr.team hm, instr, State.issue_within hr, hb, State.retire_token_claimed _ _ hk hc]
  exact answer_of_hole_false hh

/-- A hold on no page has no page that was declined. -/
theorem X.declinedPage_of_no_pages {x : X} (hx : x.st = some w) (hp : w.pages = []) : x.declinedPage = none := by
  simp [X.declinedPage, hx, hp]

/-- The state that `mst` stores its rows in: the lanes' generators are as the conversion left them. -/
def State.mstBack (s : State) (x : X) (cap : List Nat) : State :=
  (s.modTeam x.t (fun tm => { tm with gens := ((cap.drop 2).take 64).map (BitVec.ofNat 32) })).unspin x

/-- `mst` with the result of its conversion, no row of it in breach, stores its pieces and goes on. -/
theorem exec_mst_of_converted {ty : Ty} {r : RndSel} {d b : BitVec 4} {parts : List Part}
    (hr : Within s a (.mst h ty r d b) e w) (hm : a.mask h = allLanes) (hst : w.stage = 3) (hp : w.pages = [])
    (hrow : w.cap.headD 0 = 0) (hv : a.tm.versions = false) (hk : a.path.claim = some k)
    (hparts : ((s.resumed a).mstBack (s.viewIn a h e w) w.cap).resolveParts a.tm [] ((piecesOf (w.cap.drop 66)).flatMap
      (fun p => (cutBytes p.addr (a.tm.runs_ p.lane p.addr p.bs.length) p.bs p.keep).map (fun r => (p, r)))) = (parts, s1))
    (hlook : ∀ p ∈ parts, ∃ pa q, p.look = .ok pa q)
    (hb : (BitVec.ofNat 64 ((s.viewIn a h e w).partsBreach s1 (parts.filter Part.checked)) : Mask) = 0)
    (hh : s1.hole = false) :
    let r2 := (s.viewIn a h e w).mstStored k.num s1 (if w.cap.getD 1 0 = 1 then some 1 else none) parts
    exec (.mst h ty r d b) s = .next ({ r2.2 with ops := tset r2.2.ops k.num { a.op r2.2 .matrix [] r2.1 with
      post := h.sc.post.map (fun (n : BitVec 5) => (a.tm.curBank, n.toNat)), clash := k.clash } }.modTeam a.t
        (a.next h s.clk 0)) := by
  have hclk : s1.clk = s.clk := by
    rw [← s.resumed_clk a]
    exact (congrArg (fun q => q.2.clk) hparts).symm.trans (State.resolveParts_clk ..)
  obtain ⟨hclk2, hhole2⟩ :=
    (s.viewIn a h e w).mstStored_same k.num s1 (if w.cap.getD 1 0 = 1 then some 1 else none) parts
  refine matrixInstr_of_token_claimed hr hm hk ?_ (hclk2.trans hclk) (hhole2.trans hh)
  have hview : (s.viewIn a h e w).st = some w := rfl
  have hnum : (s.viewIn a h e w).opNum s1 = k.num := by simp [X.opNum, X.claim, State.viewIn, hk]
  simp only [hview, hst, hrow, reduceIte, OfNat.ofNat_ne_zero, Nat.reduceEqDiff, ne_eq, not_true_eq_false]
  refine (X.storeAs_ok (X.declinedPage_of_no_pages hview hp) hv hparts hlook hb).trans ?_
  rw [X.storeOp_matrix, hnum]
  simp only [decide_eq_true_eq]
  rfl

end

/-! ### The checks of single instructions -/

section
variable {h : Hdr} {ty : Ty} {s : State} {a : At}

/-- R239: `mma` of operands that pass their own checks, agree in K, and leave room for the destination tiles. -/
theorem matrixEnters_mma {g : GearSel} {d : BitVec 4} {o b : MOp} {tA tB : BitVec 2} {rows kA kB cols : Nat}
    (hr : Ready s a h (rdMOp o ++ rdMOp b))
    (hA : (s.viewAt a h).mmaA (s.issued a) ty o (tA.toNat + 1) = ((rows, kA), none))
    (hB : (s.viewAt a h).mmaB (s.issued a) ty d.toNat b (tB.toNat + 1) = ((kB, cols), none))
    (hk : kA = kB) (hgroup : kA % groupLen ty = 0)
    (hscale : ((s.viewAt a h).scaled o || (s.viewAt a h).scaled b) = true → kA % 32 = 0)
    (hfit : d.toNat + ceilDiv cols 64 ≤ 16) : MatrixEnters (.mma h ty g d o b tA tB) h s a true [] (s.issued a)
      ((s.viewAt a h).mcmd (.mma h ty g d o b tA tB) 0 [] ((s.viewAt a h).descOf o) ((s.viewAt a h).descOf b)) := by
  refine matrixEnters_of_submit hr rfl ?_ (s.issued_hole a) (s.issued_clk a)
  have hview : (s.viewAt a h).st = none := rfl
  simp only [hview, hA, hB]
  refine (if_neg ?_).trans (if_neg (Nat.not_lt_of_le hfit))
  rintro (hne | hne | ⟨hs, hne⟩)
  · exact hne hk
  · exact hne hgroup
  · exact hne (hscale hs)

/-- R243: `mst` of an OUT descriptor that fits and lies in the global window. -/
theorem exec_mst_of_fits {r : RndSel} {d o : BitVec 4} (hr : Ready s a h (rdDesc d.toNat)) (hm : a.mask h = allLanes)
    (hbad : descBad (a.tm.desc d.toNat) 2 ty = none) (hrows : (a.tm.desc d.toNat).rows ≤ 128)
    (hcols : (a.tm.desc d.toNat).cols ≤ 256) (hfit : o.toNat + ceilDiv (a.tm.desc d.toNat).cols 64 ≤ 16)
    (hwin : (a.tm.desc d.toNat).beyond ty = none) (hl : (s.core a.tm.core).mx.holder = some a.tm.group)
    (hq : ((s.core a.tm.core).mx.queue a.tm.quad).length < 32) :
    ∃ t, exec (.mst h ty r d o) s = .next t ∧ WaitsIn t a (.mst h ty r d o) 2 ∧ t.nextOp = s.nextOp + 1 ∧
      (t.core a.tm.core).mx.queue a.tm.quad = (s.core a.tm.core).mx.queue a.tm.quad ++
        [{ (s.viewAt a h).mcmd (.mst h ty r d o) 0 [] (a.tm.desc d.toNat) .zero with op := s.nextOp, clk0 := s.clk }] := by
  refine enters_and_waits_of_submit hr rfl ?_ hm hl hq
  have hview : (s.viewAt a h).st = none := rfl
  have htm : (s.viewAt a h).tm = a.tm := rfl
  have hsize : ¬ (128 < (a.tm.desc d.toNat).rows ∨ 256 < (a.tm.desc d.toNat).cols) := by omega
  simp only [hview, htm, hbad, hwin]
  exact (if_neg hsize).trans (if_neg (Nat.not_lt_of_le hfit))

end

/-- Settles O21: the checks of each instruction pass and its command is submitted; `mst` comes back with its rows. -/
theorem matrixCommandsAndStoresEnter : Obligations.MatrixCommandsAndStoresEnter := by
  unfold Obligations.MatrixCommandsAndStoresEnter
  refine ⟨⟨?mtd, ?msd, ?mma, ?mz, ?mrd, ?mwr, ?mstat⟩, ?mst, ?stores⟩
  case mtd =>
    intro h d o b s a hr x hshape hbase halign
    exact matrixEnters_of_submit hr rfl
      ((if_neg (Bool.eq_false_iff.mp hshape)).trans <| (if_neg (Nat.not_le_of_lt hbase)).trans <|
        if_neg (not_not_intro halign)) (s.issued_hole a) (s.issued_clk a)
  case msd =>
    intro h d o en s a hr x hoff
    refine matrixEnters_of_submit hr rfl (if_neg ?_) (s.issued_hole a) (s.issued_clk a)
    rintro ⟨hen, hbad⟩
    obtain ⟨hlt, halign⟩ := hoff hen
    exact hbad.elim (Nat.not_le_of_lt hlt) (absurd halign)
  case mma =>
    intro h ty g d o b tA tB s a hr x A B hA hB
    exact matrixEnters_mma hr (Prod.ext rfl hA) (Prod.ext rfl hB)
  case mz => exact fun h mask rel s a hr => matrixEnters_of_submit hr rfl rfl (s.issued_hole a) (s.issued_clk a)
  case mrd => exact fun h ty r d o b n s a hr => matrixEnters_of_submit hr rfl rfl (s.issued_hole a) (s.issued_clk a)
  case mwr => exact fun h ty d o b n s a hr => matrixEnters_of_submit hr rfl rfl (s.issued_hole a) (s.issued_clk a)
  case mstat => exact fun h d sel b s a hr => matrixEnters_of_submit hr rfl rfl (s.issued_hole a) (s.issued_clk a)
  case mst => exact fun h ty r d o s a hr => exec_mst_of_fits hr
  case stores =>
    intro h ty r d o s a e w k hr hm hst hpages hrow hv hk ps s1 cap
    exact exec_mst_of_converted hr hm hst hpages hrow hv hk

end Sys2Proof.Machine
end

section
/-! PROOFS. The matrix unit takes commands, and its lease moves (R212, R213, R215-R217, R235). -/

namespace Sys2Proof.Machine

/-! ### Acceptance (R212, R213) -/

@[simp] theorem State.askAgain_hole (s : State) (core : Nat) : (s.askAgain core).hole = s.hole := by
  refine foldl_keeps (P := fun u : State => u.hole = s.hole) (fun u q hu => ?_) _ _ rfl
  split
  · split
    · split
      · exact hu
      · exact hu
    · exact hu
  · exact hu

/-- A unit that has taken a command in this clk takes no other. -/
theorem exec_matrixCommandAccept_of_taken {s : State} {core : Nat} (hh : s.hole = false)
    (ht : ((s.askAgain core).core core).mx.accAt = some (s.askAgain core).clk) :
    exec (.matrixCommandAccept core) s = .next (s.askAgain core) :=
  (congrArg answer (if_pos ht)).trans (answer_of_hole_false (by simp [hh]))

/-- The unit takes the head of queue q, whose turn is over then. -/
def State.mxTake (s : State) (core q : Nat) : State :=
  s.modMx core (fun m => { m with queues := tset m.queues q (m.queue q).tail, rr := (q + 1) % 4, accAt := some s.clk })

@[simp] theorem State.mxTake_hole (s : State) (core q : Nat) : (s.mxTake core q).hole = s.hole := rfl

/-- A command that the unit has taken is done with it, or stands behind those that it has accepted, where a releasing `mz`
asks for the release. -/
def State.mxStand (s : State) (core : Nat) (c : MCmd) : State :=
  match c.i with
  | .mtd .. | .msd .. => s.mxEnd c.op [] none
  | .mz _ _ true => s.modMx core (fun m => { m with acc := m.acc ++ [c], rel := some c.op })
  | _ => s.modMx core (fun m => { m with acc := m.acc ++ [c] })

/-- The head of the next quadrant whose head the unit may take, with the gear limit of MXCFG. -/
theorem exec_matrixCommandAccept_of_takes {s : State} {core q : Nat} {c : MCmd}
    (ht : ((s.askAgain core).core core).mx.accAt ≠ some (s.askAgain core).clk)
    (hq : ((s.askAgain core).core core).mx.order.find? (fun q => (((s.askAgain core).core core).mx.takes q).isSome) = some q)
    (hc : ((s.askAgain core).core core).mx.takes q = some c) (hf : ((s.askAgain core).core core).mx.fail = false) :
    exec (.matrixCommandAccept core) s = answer (((s.askAgain core).mxTake core q).mxStand core
      { c with g5 := ((s.askAgain core).core core).mxcfg.getLsbD 1 }) := by
  show execMatrixCommandAccept core s = _
  unfold execMatrixCommandAccept
  dsimp only
  rw [if_neg ht]
  simp only [hq, hc, hf]
  rfl

theorem State.mxStand_of_desc {s : State} {core : Nat} {c : MCmd} {g5 : Bool}
    (hi : (∃ h d o b, c.i = .mtd h d o b) ∨ ∃ h d o en, c.i = .msd h d o en) :
    s.mxStand core { c with g5 := g5 } = s.mxEnd c.op [] none := by
  rcases hi with ⟨h, d, o, b, hi⟩ | ⟨h, d, o, en, hi⟩ <;> simp only [State.mxStand, hi]

theorem State.mxStand_of_release {s : State} {core : Nat} {c : MCmd} {g5 : Bool} {h : Hdr} {k : BitVec 16}
    (hi : c.i = .mz h k true) : s.mxStand core { c with g5 := g5 } =
      s.modMx core (fun m => { m with acc := m.acc ++ [{ c with g5 := g5 }], rel := some c.op }) := by
  simp only [State.mxStand, hi]

theorem State.mxStand_of_plain {s : State} {core : Nat} {c : MCmd} {g5 : Bool} (hd : ∀ h d o b, c.i ≠ .mtd h d o b)
    (hs : ∀ h d o en, c.i ≠ .msd h d o en) (hz : ∀ h k, c.i ≠ .mz h k true) :
    s.mxStand core { c with g5 := g5 } = s.modMx core (fun m => { m with acc := m.acc ++ [{ c with g5 := g5 }] }) := by
  unfold State.mxStand
  split
  · next hi => exact absurd hi (hd _ _ _ _)
  · next hi => exact absurd hi (hs _ _ _ _)
  · next hi => exact absurd hi (hz _ _)
  · rfl

/-! ### The lease (R215-R217) -/

/-- The group takes the free lease, with its saved tiles or clear ones. -/
def State.leaseGive (s : State) (core g : Nat) (x : Group) : State :=
  let s := s.modMx core (fun m => { m with holder := some g, tiles := x.saved.getD [], rel := none
                                           waiting := m.waiting.filter (fun w => w.group ≠ g) })
  { s with groups := tset s.groups g { x with saved := none } }

/-- The oldest request takes a free lease, when no tile command of another group is left in the unit. -/
theorem exec_leaseGrant_of_free {s : State} {core : Nat} {r0 r : LeaseReq} {rs : List LeaseReq} {g : Group}
    (hh : s.hole = false) (hf : (s.core core).mx.holder = none) (hw : s.leaseWaits core = r0 :: rs)
    (hr : rs.foldl (fun b r => if r.before b then r else b) r0 = r) (hg : tget s.groups r.group = some g)
    (ha : ∀ c ∈ (s.core core).mx.acc, isTile c.i = true → c.group = r.group) :
    exec (.leaseGrant core) s = .next (s.leaseGive core r.group g) := by
  subst hr
  have hacc : ¬ (s.core core).mx.acc.any (fun c => isTile c.i &&
      c.group ≠ (rs.foldl (fun b r => if r.before b then r else b) r0).group) = true := by
    simpa using ha
  show execLeaseGrant core s = _
  unfold execLeaseGrant
  simp only [hf, hw, hg, Option.isSome_none, Bool.false_eq_true, if_false]
  exact (congrArg answer (if_neg hacc)).trans (answer_of_hole_false hh)

theorem State.leaseGive_core (s : State) (core g : Nat) (x : Group) :
    ((s.leaseGive core g x).core core).mx = { (s.core core).mx with
      holder := some g, tiles := x.saved.getD [], rel := none
      waiting := (s.core core).mx.waiting.filter (fun w => w.group ≠ g) } :=
  congrArg Core.mx (s.core_modMx_self core (fun m => { m with
    holder := some g, tiles := x.saved.getD [], rel := none, waiting := m.waiting.filter (fun w => w.group ≠ g) }))

/-- The tiles of the holder are saved, and its lease is free. -/
def State.leaseSave (s : State) (core g : Nat) (x : Group) : State :=
  State.modMx { s with groups := tset s.groups g { x with saved := some (s.core core).mx.tiles } } core
    (fun m => { m with saving := none, rel := none, holder := none })

/-- Once no command of the outgoing bank is left, its holder's tiles are saved. -/
theorem exec_tileSpill_of_drained {s : State} {core g : Nat} {b : Bool} {x : Group} (hh : s.hole = false)
    (hs : (s.core core).mx.saving = some b) (hl : (s.core core).mx.holder = some g) (hb : s.inBank core g b = true)
    (hg : tget s.groups g = some x) (ha : ∀ c ∈ (s.core core).mx.acc, s.inBank core c.group b = false)
    (hq : ∀ q ∈ (s.core core).mx.queues, ∀ c ∈ q.2, s.inBank core c.group b = false) :
    exec (.tileSpill core) s = .next (s.leaseSave core g x) := by
  have hacc : (s.core core).mx.acc.any (fun c => s.inBank core c.group b) = false := by
    simpa using ha
  have hqueues : (s.core core).mx.queues.any (fun q => q.2.any (fun c => s.inBank core c.group b)) = false := by
    simpa using fun j cs hj => hq (j, cs) hj
  show execTileSpill core s = _
  unfold execTileSpill
  simp only [hs, hl, hacc, hqueues, Option.filter_some, hb, hg, Option.bind_some, Option.map_some, Option.isSome_some,
    Bool.false_eq_true, or_self, if_false, if_true]
  exact answer_of_hole_false hh

theorem State.leaseSave_core (s : State) (core g : Nat) (x : Group) :
    ((s.leaseSave core g x).core core).mx = { (s.core core).mx with saving := none, rel := none, holder := none } := by
  rw [State.leaseSave, State.core_modMx_self]
  rfl

/-! ### MXCFG (R235) -/

/-- A write with CLRE sets the register's other two bits as it writes them, and clears EVT. -/
theorem exec_mxcfgClre_of_present {s : State} {core : Nat} {v : Dword} (hh : s.hole = false) (hc : core < 128)
    (hp : s.present (core / 16) = true) (hv : v.getLsbD 2 = true) : exec (.mxcfgClre core v) s =
      .next ((s.modCore core (fun c => { c with mxcfg := v &&& 3 })).modMx core (fun m => { m with evt := 0 })) := by
  show execMxcfgClre core v s = _
  simp only [execMxcfgClre, State.mxcfgWrite, hc, hp, hv, and_self, if_true]
  exact answer_of_hole_false hh

/-- Settles O31: acceptance by what the taken command is, a lease that is granted, one whose tiles are saved, and CLRE. -/
theorem matrixUnitAccepts : Obligations.MatrixUnitAccepts := by
  unfold Obligations.MatrixUnitAccepts
  refine ⟨?accept, ?grant, ?spill, ?clear⟩
  case accept =>
    intro s core q c hh
    refine ⟨fun ht => exec_matrixCommandAccept_of_taken hh ht, fun ht hq hc hf => ?_⟩
    have hexec := exec_matrixCommandAccept_of_takes ht hq hc hf
    refine ⟨fun hd hs hz => ?_, fun h k hi => ?_, fun hi hend => ?_⟩
    · rw [hexec, State.mxStand_of_plain (c := c) hd hs hz]
      exact answer_of_hole_false (by simp [hh])
    · rw [hexec, State.mxStand_of_release hi]
      exact answer_of_hole_false (by simp [hh])
    · rw [hexec, State.mxStand_of_desc hi]
      exact answer_of_hole_false hend
  case grant =>
    intro s core r g hh hf hw hg ha
    refine ⟨_, { g with saved := none }, exec_leaseGrant_of_free hh hf hw rfl hg ha, ?_⟩
    rw [State.leaseGive_core]
    exact ⟨rfl, rfl, rfl, tget_tset_self .., rfl, fun w hw => of_decide_eq_true (List.mem_filter.mp hw).2⟩
  case spill =>
    intro s core g b x hh hs hl hb hg ha hq
    refine ⟨_, exec_tileSpill_of_drained hh hs hl hb hg ha hq, ?_⟩
    rw [State.leaseSave_core]
    exact ⟨rfl, rfl, tget_tset_self ..⟩
  case clear =>
    intro s core v hh hc hp hv
    exact ⟨_, exec_mxcfgClre_of_present hh hc hp hv, by simp, by simp⟩

end Sys2Proof.Machine
end

section
/-! PROOFS. Accepted matrix commands execute (R213, R225-R227, R239-R244). -/

namespace Sys2Proof.Machine

/-- What the oldest accepted command does. -/
def State.mxAct (s : State) (core ctx : Nat) (c : MCmd) (bad : List (Nat × Nat)) : State :=
  match c.i with
  | .mma _ ty g d a b tA tB =>
    s.runMma core ctx c (bad.filter (fun col => col.1 < 64)) ty g d.toNat a b (tA.toNat + 1) (tB.toNat + 1)
  | .mz _ mask _ =>
    ((((List.range 16).filter (fun t => mask.getLsbD t)).foldl (fun s t => s.setTiles core t [.zero]) s).mxEnd
      c.op [] none).mxPop core
  | .mrd _ ty r d a _ n => s.runMrd core c ty r d.toNat a.toNat (n.toNat + 1)
  | .mwr _ ty d _ _ n => s.runMwr core c ty d.toNat (n.toNat + 1)
  | .mst _ ty r _ a => s.runMst core c ty r a.toNat
  | .mstat _ d sel _ => s.runMstat core c d sel.toNat
  | _ => s.mxPop core

/-- The oldest accepted command executes, unless it waits for a page. -/
theorem exec_matrixCommandExecute_of_head {s : State} {core : Nat} {c : MCmd} {r : List MCmd} {g : Group}
    (bad : List (Nat × Nat)) (ha : (s.core core).mx.acc = c :: r) (hg : tget s.groups c.group = some g)
    (hp : ∀ p, c.page = some p → s.faulting g.ctx p = false) :
    exec (.matrixCommandExecute core bad) s = answer (s.mxAct core g.ctx c bad) := by
  have hpage : (c.page.map (s.faulting g.ctx)).getD false = false := by
    cases hc : c.page with
    | none => rfl
    | some p => exact hp p hc
  show execMatrixCommandExecute core bad s = _
  unfold execMatrixCommandExecute
  simp only [ha, hg, Option.map_some, Option.getD_some, hpage, Bool.false_eq_true, if_false]
  rfl

/-- An `mma` as a step without a mismatch leaves its command: the columns that a fault has spoilt stay under G5 alone. -/
def MCmd.unspoilt (c : MCmd) : MCmd := { c with spoilt := if c.g5 then c.spoilt.eraseDups else [] }

section
variable {s s1 : State} {core ctx d tA tB : Nat} {c : MCmd} {ty : Ty} {g : GearSel} {a b : MOp} {ls : List GotLine}
  (hecc : s.scaleEcc c.unspoilt = false)
include hecc

/-- An `mma` fetches its next K-block, with the scale bytes at the first. -/
theorem State.runMma_of_fetched (hblk : c.blk < c.unspoilt.blocks)
    (hf : s.fetchBlock ctx core ty c.unspoilt = (.got ls, s1)) : s.runMma core ctx c [] ty g d a b tA tB =
      s1.modHead core { (if c.blk = 0 then
          { c.unspoilt with scA := s1.scaleBytes c.group c.tdA 128 c.tdA.cols
                            scB := s1.scaleBytes c.group c.tdB 256 c.tdB.rows }
        else c.unspoilt) with blk := c.blk + 1, got := ls ++ c.got, page := none, layer := none, fate := .open } := by
  unfold MCmd.unspoilt at *
  simp only [State.runMma, State.mismatches, List.map_nil, List.append_nil, hecc, hblk, hf, Bool.false_eq_true, if_false, if_true]
  split <;> rfl

/-- An `mma` whose K-blocks are all in computes. -/
theorem State.runMma_of_all_in (hblk : c.unspoilt.blocks ≤ c.blk) : s.runMma core ctx c [] ty g d a b tA tB =
    let c1 : MCmd := { c.unspoilt with
      scA := mixBytes s.free c.scA (s.scaleBytes c.group c.tdA 128 c.tdA.cols)
      scB := mixBytes (s.free + c.scA.length) c.scB (s.scaleBytes c.group c.tdB 256 c.tdB.rows) }
    State.mmaRun { s with free := s.free + c1.scA.length + c1.scB.length } core c1 ty g d a b tA tB := by
  unfold MCmd.unspoilt at *
  simp only [State.runMma, State.mismatches, List.map_nil, List.append_nil, hecc, Nat.not_lt_of_le hblk, Bool.false_eq_true,
    if_false]

end

/-- Settles O32: the head of the accepted commands acts as its instruction says. -/
theorem matrixCommandsExecute : Obligations.MatrixCommandsExecute := by
  unfold Obligations.MatrixCommandsExecute
  intro s core c r g ha hg hp
  have next {t : State} (ht : s.mxAct core g.ctx c [] = t) (hh : t.hole = false) :
      exec (.matrixCommandExecute core []) s = .next t := by
    rw [exec_matrixCommandExecute_of_head [] ha hg hp, ht, answer_of_hole_false hh]
  refine ⟨?mz, ?mma, ?mrd, ?mwr, ?mst, ?mstat⟩
  case mz => exact fun h mask rel hi hh => next (by simp only [State.mxAct, hi]) hh
  case mma =>
    intro h ty k d a b tA tB hi c0 hecc
    have hact : s.mxAct core g.ctx c [] = s.runMma core g.ctx c [] ty k d.toNat a b (tA.toNat + 1) (tB.toNat + 1) := by
      simp only [State.mxAct, hi, List.filter_nil]
    exact ⟨fun hblk ls s1 hf hh => next (hact.trans (State.runMma_of_fetched hecc hblk hf)) hh,
      fun hblk hh => next (hact.trans (State.runMma_of_all_in hecc hblk)) hh⟩
  case mrd => exact fun h ty rr d a b n hi hh => next (by simp only [State.mxAct, hi]) hh
  case mwr => exact fun h ty d a b n hi hh => next (by simp only [State.mxAct, hi]) hh
  case mst => exact fun h ty rr d a hi hh => next (by simp only [State.mxAct, hi]) hh
  case mstat => exact fun h d sel b hi hh => next (by simp only [State.mxAct, hi]) hh

end Sys2Proof.Machine
end

section
/-! PROOFS. What reset leaves (R235, R252, R328, R361, R381, R388, R398, R420, R425, R449). -/

namespace Sys2Proof.Machine

/-- Settles O54: the tables of cores, contexts, undo logs and queues are empty at reset, so that each of their registers
reads as its default. -/
theorem resetState : Obligations.ResetState := by
  unfold Obligations.ResetState
  refine ⟨⟨rfl, rfl⟩, rfl, rfl, rfl, rfl, rfl, rfl, rfl, ?cores, ?contexts, rfl, rfl, rfl, rfl, ?queues⟩
  case cores => exact fun n => ⟨rfl, rfl, rfl⟩
  case contexts => exact fun c => ⟨rfl, rfl, rfl, BitVec.getLsbD_zero⟩
  case queues => exact fun q => BitVec.getLsbD_zero

end Sys2Proof.Machine
end

section
/-! PROOFS. Memory stays in its one canonical form over every step (R253, R280): each function that the step calls keeps it, and
there is one lemma for each of them, with the function's own name, in the order in which the functions call each other. -/

namespace Sys2Proof.Machine

/-- Memory is in its canonical form. -/
def State.Canon (s : State) : Prop := Memory.wf s.mem = true

/-- The state that a body's answer carries. -/
def Res.state : Res → State
  | .fixed s _ | .issue s | .delay s _ | .moved s | .token s _ | .demote s _ | .resume s | .hold s _ => s
  | .trap s _ _ _ | .stop s => s

/-- The state of a move of the stack is canonical when there is one. -/
def OkCanon : Except PErr State → Prop
  | .ok s => s.Canon
  | .error _ => True

/-- The next state is canonical when there is one. -/
def NextCanon : Host.Outcome State Fault Refusal → Prop
  | .next s => s.Canon
  | _ => True

namespace State.Canon

variable {s t : State} {x : X}

/-! ### Rules of composition -/

theorem of_ok {r : Except PErr State} {t : State} (e : r = .ok t) (h : OkCanon r) : t.Canon := by
  subst e; exact h
theorem ofOk {s : State} (h : s.Canon) : OkCanon (.ok s) := h
theorem ofError {e} : OkCanon (.error e) := trivial
theorem ofNext {s : State} (h : s.Canon) : NextCanon (.next s) := h
theorem iteOk {c : Prop} [Decidable c] {r q} (h : OkCanon r) (h' : OkCanon q) : OkCanon (if c then r else q) := by
  split <;> assumption
theorem iteNext {c : Prop} [Decidable c] {r q} (h : NextCanon r) (h' : NextCanon q) : NextCanon (if c then r else q) := by
  split <;> assumption

theorem answer {s : State} (h : s.Canon) : NextCanon (answer s) := by
  unfold Machine.answer; split
  · trivial
  · exact h

theorem andThen {r f} (hr : NextCanon r) (hk : ∀ s, s.Canon → NextCanon (f s)) : NextCanon (andThen r f) := by
  unfold Machine.andThen; split
  · exact hk _ hr
  · trivial
  · trivial

/-- A state that is the second part of a pair. -/
theorem of_eq {α : Type} {p : α × State} {a : α} (e : p = (a, t)) (h : p.2.Canon) : t.Canon := by
  subst e; exact h

/-- A state that is the third part of a triple. -/
theorem of_eq2 {α β : Type} {p : α × β × State} {a : α} {b : β} (e : p = (a, b, t)) (h : p.2.2.Canon) : t.Canon := by
  subst e; exact h

theorem ite {c : Prop} [Decidable c] (h : s.Canon) (h' : t.Canon) : (if c then s else t).Canon := by
  split <;> assumption

theorem iteRes {c : Prop} [Decidable c] {r q : Res} (h : r.state.Canon) (h' : q.state.Canon) : (if c then r else q).state.Canon
    := by
  split <;> assumption

/-- A fold whose step keeps the form keeps it; `foldlSnd` and `foldlFst` say it of a state that is one part of a pair. -/
theorem foldl {α : Type} {k : State → α → State} {xs : List α} (hk : ∀ s x, s.Canon → (k s x).Canon)
    (h : s.Canon) : (xs.foldl k s).Canon :=
  List.foldlRecOn xs k h fun s hs x _ => hk s x hs

theorem foldlSnd {α β : Type} {k : β × State → α → β × State} {xs : List α} {a : β × State}
    (hk : ∀ a x, a.2.Canon → (k a x).2.Canon) (h : a.2.Canon) : (xs.foldl k a).2.Canon :=
  List.foldlRecOn (motive := fun a => a.2.Canon) xs k h fun a hs x _ => hk a x hs

theorem foldlFst {α β : Type} {k : State × β → α → State × β} {xs : List α} {a : State × β}
    (hk : ∀ a x, a.1.Canon → (k a x).1.Canon) (h : a.1.Canon) : (xs.foldl k a).1.Canon :=
  List.foldlRecOn (motive := fun a => a.1.Canon) xs k h fun a hs x _ => hk a x hs

/-- A state written out field by field is canonical when its memory is in canonical form. -/
theorem of_fields {clk rt rtPhase power recovery mem poison lineKey caches keys keyGen spdm leaf fqcfg fqIdx hqcfg hqIdx errcfg
    pwrcfg capNow window brcfg ulHub riminj rimOff w1cAt ctxs stks undo queues procs launches nextLaunch gangHold dist placeAt teams
    nextTeam groups nextGroup wide nextWide cores quads ops nextOp nextPid tlb faults halters answers models useCnt swaps leaving
    nextReq sessions rimDown cxlDown colls errs boxes net cur script free hole} (h : Memory.wf mem = true) :
    State.Canon ⟨clk, rt, rtPhase, power, recovery, mem, poison, lineKey, caches, keys, keyGen, spdm, leaf, fqcfg, fqIdx, hqcfg,
      hqIdx, errcfg, pwrcfg, capNow, window, brcfg, ulHub, riminj, rimOff, w1cAt, ctxs, stks, undo, queues, procs, launches,
      nextLaunch, gangHold, dist, placeAt, teams, nextTeam, groups, nextGroup, wide, nextWide, cores, quads, ops, nextOp, nextPid,
      tlb, faults, halters, answers, models, useCnt, swaps, leaving, nextReq, sessions, rimDown, cxlDown, colls, errs, boxes, net,
      cur, script, free, hole⟩ := h

theorem pair {α : Type} {a : α} (h : s.Canon) : (a, s).2.Canon := h
theorem pair2 {α β : Type} {a : α} {b : β} (h : s.Canon) : (a, b, s).2.2.Canon := h
theorem ofFixed {us} (h : s.Canon) : (Res.fixed s us).state.Canon := h
theorem ofIssue (h : s.Canon) : (Res.issue s).state.Canon := h
theorem ofMoved (h : s.Canon) : (Res.moved s).state.Canon := h
theorem ofToken {o} (h : s.Canon) : (Res.token s o).state.Canon := h
theorem ofDemote {o} (h : s.Canon) : (Res.demote s o).state.Canon := h
theorem ofTrap {c sub v} (h : s.Canon) : (Res.trap s c sub v).state.Canon := h
theorem ofStop (h : s.Canon) : (Res.stop s).state.Canon := h
theorem touch {pa n} (h : s.Canon) : (s.touch pa n).Canon := by
  unfold State.Canon; rw [State.touch_mem]; exact h
theorem writePhys {c k pa bs n} (h : s.Canon) : (s.writePhys c k pa bs n).Canon := State.writePhys_wf h _ _ _ _ _
theorem writeLine {c cls k line w b g} (h : s.Canon) : (s.writeLine c cls k line w b g).Canon :=
    State.writeLine_wf h _ _ _ _ _ _ _
theorem translate {c va} (h : s.Canon) : (s.translate c va).2.Canon := by
  unfold State.Canon; rw [State.translate_mem]; exact h

/-! ### The functions of the state -/

theorem cacheHome {ctx cls line w} (h : s.Canon) : (s.cacheHome ctx cls line w).Canon := by
  unfold State.cacheHome
  extract_lets x
  split <;> exact h

theorem cacheWrite {ctx cls line} (h : s.Canon) : (s.cacheWrite ctx cls line).Canon := of_fields (cacheHome h)
theorem recSet {line r} (h : s.Canon) : (s.recSet line r).Canon := State.recSet_wf h _ _
theorem setPoison {line b} (h : s.Canon) : (s.setPoison line b).Canon := ite (ite h h) h

theorem flushFaults (h : s.Canon) : s.flushFaults.Canon := by
  unfold State.flushFaults
  refine of_fields (foldlFst ?_ h)
  intro x x h
  extract_lets s1 pa
  split
  · exact h
  · exact of_fields (writePhys (touch h))

theorem raiseFault {c va kind req core pte} (h : s.Canon) : (s.raiseFault c va kind req core pte).2.Canon := by
  unfold State.raiseFault
  split
  · exact h
  · split <;> exact pair (flushFaults h)

theorem report {c va req core x1} (h : s.Canon) : (s.report c va req core x1).2.Canon := by
  unfold State.report
  split <;> exact raiseFault h

theorem modLayer {c l f} (h : s.Canon) : (s.modLayer c l f).Canon := h

theorem request {c l demand named} (h : s.Canon) : (s.request c l demand named).Canon := by
  unfold State.request
  split
  · exact h
  split
  · exact h
  · exact ite h h
  · exact h

theorem modCore {n f} (h : s.Canon) : (s.modCore n f).Canon := h

theorem cacheRead {n ctx cls line} (h : s.Canon) : (s.cacheRead n ctx cls line).Canon := by
  unfold State.cacheRead
  split
  · split
    · exact cacheHome h
    extract_lets ls
    split
    · exact h
    · exact of_fields (cacheHome h)
  · exact cacheHome h

theorem readBytes {pa n k} (h : s.Canon) : (s.readBytes pa n k).2.Canon := by
  unfold State.readBytes
  split <;> exact h

theorem codeWord {old pa k} (h : s.Canon) : (s.codeWord old pa k).2.Canon := by
  unfold State.codeWord
  split
  rename_i s1 e1
  have h1 : State.Canon s1 := of_eq e1 (readBytes h)
  split
  · exact h1
  extract_lets was
  split <;> exact h1

theorem fetchWord {tm st va} (h : s.Canon) : (s.fetchWord tm st va).2.Canon := by
  unfold State.fetchWord
  extract_lets met
  split
  · exact h
  split
  · exact h
  split
  · exact h
  split
  · exact h
  split
  rename_i s1 e1
  have h1 : State.Canon s1 := of_eq e1 (translate h)
  split
  · split
    rename_i s2 e2
    have h2 : State.Canon s2 := of_eq e2 (report h1)
    exact h2
  · split
    rename_i s2 e2
    have h2 : State.Canon s2 := of_eq e2 (report h1)
    exact h2
  split
  · exact h1
  split
  · split
    · exact h1
    · exact pair (request h1)
  · exact h1
  · extract_lets line k
    split
    · exact h1
    split
    · exact h1
    split
    · exact pair (ite h1 (cacheRead h1))
    split
    rename_i s2 e2
    have h2 : State.Canon s2 := of_eq e2 (codeWord (ite h1 (cacheRead h1)))
    exact pair (ite h2 h2)
  · exact h1

theorem fetchInst {tm st pc} (h : s.Canon) : (s.fetchInst tm st pc).2.Canon := by
  unfold State.fetchInst
  extract_lets step
  have hstep : ∀ a j, a.2.Canon → (step a j).2.Canon := by
    intro a j ha
    unfold step
    split
    · split
      rename_i e
      exact pair (of_eq e (fetchWord ha))
    · exact ha
  split
  rename_i e
  exact pair (of_eq e (foldlSnd hstep h))

theorem modTeam {t' f} (h : s.Canon) : (s.modTeam t' f).Canon := h
theorem record {src kind lcore pcore unit data} (h : s.Canon) : (s.record src kind lcore pcore unit data).Canon := h
theorem recordHalter {h'} (h : s.Canon) : (s.recordHalter h').Canon := h
theorem hubWrite {c k pa v n} (h : s.Canon) : (s.hubWrite c k pa v n).Canon := writePhys (touch h)

theorem flushHalters (h : s.Canon) : s.flushHalters.Canon := by
  unfold State.flushHalters
  refine of_fields (foldlFst ?_ h)
  intro x x h
  extract_lets s1 pa
  split
  · exact h
  · exact recordHalter (of_fields (hubWrite h))

theorem addHalter {h'} (h : s.Canon) : (s.addHalter h').Canon := flushHalters h
theorem launchErr {l code cause} (h : s.Canon) : (s.launchErr l code cause).Canon := h
theorem modMx {n f} (h : s.Canon) : (s.modMx n f).Canon := h

theorem wideGone {w} (h : s.Canon) : (s.wideGone w).Canon := by
  unfold State.wideGone
  split
  · exact h
  split
  · exact h
  · exact ite h h

theorem groupCheck {g} (h : s.Canon) : (s.groupCheck g).Canon := by
  unfold State.groupCheck
  split
  · exact h
  · split <;> exact h

theorem modQueue {q f} (h : s.Canon) : (s.modQueue q f).Canon := h
theorem packetEnd {q idx code} (h : s.Canon) : (s.packetEnd q idx code).Canon := h

theorem launchEnd {l} (h : s.Canon) : (s.launchEnd l).Canon := by
  unfold State.launchEnd
  split
  · exact h
  · exact ite h h

theorem look {c va write} (h : s.Canon) : (s.look c va write).2.Canon := by
  unfold State.look
  split
  rename_i s1 e1
  have h1 : State.Canon s1 := of_eq e1 (translate h)
  exact h1

theorem writeSignal {c va val code cause add} (h : s.Canon) : (s.writeSignal c va val code cause add).2.Canon := by
  unfold State.writeSignal
  split
  · exact h
  split
  rename_i s1 e1
  have h1 : State.Canon s1 := of_eq e1 (look h)
  split
  · exact pair (writeLine h1)
  · split
    rename_i s2 e2
    have h2 : State.Canon s2 := of_eq e2 (report h1)
    exact h2
  · split
    rename_i s2 e2
    have h2 : State.Canon s2 := of_eq e2 (report h1)
    exact h2
  · exact h1

theorem w1cSet {w} (h : s.Canon) : (s.w1cSet w).Canon := h
theorem queueHalt {q hcs} (h : s.Canon) : (s.queueHalt q hcs).Canon := ite (addHalter h) h

theorem launchSignal {l} (h : s.Canon) : (s.launchSignal l).Canon := by
  unfold State.launchSignal
  split
  · exact h
  extract_lets due
  split
  · split
    split
    rename_i s1 e1
    have h1 : State.Canon s1 := of_eq e1 (writeSignal h)
    split
    · exact h1
    · exact h1
    · exact queueHalt h1
  · exact h
  · exact h

theorem launchCheck {l} (h : s.Canon) : (s.launchCheck l).Canon := by
  unfold State.launchCheck
  split
  · exact h
  · exact ite h (launchEnd (launchSignal h))

theorem freeTeam {t'} (h : s.Canon) : (s.freeTeam t').Canon := by
  unfold State.freeTeam
  split
  · exact h
  refine launchCheck (of_fields (groupCheck ?_))
  split
  · exact wideGone (wideGone (modMx (of_fields (ite h h))))
  · exact modMx (of_fields (ite h h))

theorem retireCheck {t'} (h : s.Canon) : (s.retireCheck t').Canon := by
  unfold State.retireCheck
  split
  · exact ite (freeTeam h) h
  · exact h

theorem discardTeam {t'} (h : s.Canon) : (s.discardTeam t').Canon := by
  unfold State.discardTeam
  split
  · exact h
  · exact retireCheck h

theorem haltTeam {t' f hc sub ocs osub hval pc} (h : s.Canon) : (s.haltTeam t' f hc sub ocs osub hval pc).Canon := by
  unfold State.haltTeam
  split
  · exact h
  · exact ite (addHalter h) (discardTeam h)

theorem permHalt {t' f tm} (h : s.Canon) : (s.permHalt t' f tm).Canon := by
  unfold State.permHalt
  split
  · exact haltTeam h
  · exact h

theorem clash {t' ks} (h : s.Canon) : (s.clash t' ks).Canon := modTeam (ite h h)
theorem landUpd {t' pid u} (h : s.Canon) : (s.landUpd t' pid u).Canon := clash h

theorem land {t' p} (h : s.Canon) : (s.land t' p).Canon := by
  unfold State.land
  split
  · exact landUpd h
  · exact h
  · exact h
  · exact h

theorem landPosts {t' ds ps} (h : s.Canon) : (s.landPosts t' ds ps).Canon := by
  induction ps generalizing s ds with
  | nil => exact h
  | cons p ps ih =>
    unfold State.landPosts
    split
    · extract_lets s1
      split
      · exact ih (modTeam h)
      · exact ih (land h)
    · exact ih (land h)

theorem landDue {t' n} (h : s.Canon) : (s.landDue t' n).Canon := by
  unfold State.landDue
  split
  · exact h
  · exact landPosts (foldl (fun _ _ h => land h) h)

theorem drain {t'} (h : s.Canon) : (s.drain t').Canon := foldl (fun _ _ h => landDue h) h
theorem l1Drop {n c vline} (h : s.Canon) : (s.l1Drop n c vline).Canon := h
theorem writeFrame {tm va pa p bs} (h : s.Canon) : (s.writeFrame tm va pa p bs).Canon :=
    foldl (fun _ _ h => l1Drop (writeLine h)) h

theorem trapTry {t'} (h : s.Canon) : (s.trapTry t').Canon := by
  unfold State.trapTry
  split
  · exact h
  split
  · exact h
  extract_lets va epc
  split
  rename_i s1 e1
  have h1 : State.Canon s1 := of_eq e1 (look h)
  split
  · exact of_fields (modTeam (writeFrame h1))
  · split
    rename_i s2 e2
    have h2 : State.Canon s2 := of_eq e2 (report h1)
    exact ite h2 (haltTeam h2)
  · split
    rename_i s2 e2
    have h2 : State.Canon s2 := of_eq e2 (report h1)
    exact ite h2 (haltTeam h2)
  · exact haltTeam h1
  · exact haltTeam h1

theorem takeTrap {t' f c sub val epc} (h : s.Canon) : (s.takeTrap t' f c sub val epc).Canon := by
  unfold State.takeTrap
  split
  · exact h
  · exact ite (haltTeam h) (ite (haltTeam h) (trapTry (modTeam (drain h))))

theorem fetchRun {ex t' f late tm} (hk : ∀ a1 (u : State), u.Canon → NextCanon (ex a1 u)) (h : s.Canon) : NextCanon
    (State.fetchRun ex s t' f late tm) := by
  unfold State.fetchRun
  extract_lets p
  split
  split
  · rename_i s1 e1
    have h1 : State.Canon s1 := of_eq e1 (fetchInst h)
    extract_lets s2
    split
    · exact hk _ _ h1
    · exact answer (takeTrap h1)
  · rename_i s1 e1
    have h1 : State.Canon s1 := of_eq e1 (fetchInst h)
    exact answer h1
  rename_i s1 e1
  have h1 : State.Canon s1 := of_eq e1 (fetchInst h)
  exact answer (takeTrap h1)

theorem runFrag {ex t' f late} (hk : ∀ a1 (u : State), u.Canon → NextCanon (ex a1 u)) (h : s.Canon) : NextCanon (State.runFrag
    ex s t' f late) := by
  unfold State.runFrag
  split
  · exact answer h
  · exact iteNext (answer (permHalt h)) (iteNext (answer h) (fetchRun hk h))

theorem modGroup {g f} (h : s.Canon) : (s.modGroup g f).Canon := h
theorem modCmd {g n f} (h : s.Canon) : (s.modCmd g n f).Canon := h

theorem landClash {t' pid clash u} (h : s.Canon) : (s.landClash t' pid clash u).Canon := by
  unfold State.landClash
  split
  · exact h
  extract_lets keep
  split
  · exact ite (landUpd h) (landUpd h)
  · exact ite (landUpd h) (landUpd h)
  · exact landUpd h

theorem pendAdd {t' p} (h : s.Canon) : (s.pendAdd t' p).Canon := h

theorem rerunTry {t'} (h : s.Canon) : (s.rerunTry t').Canon := by
  unfold State.rerunTry
  split
  · exact h
  split
  · split
    · exact ite h (of_fields (modTeam (drain h)))
    · exact h
  · exact h

theorem opFinish {id us err} (h : s.Canon) : (s.opFinish id us err).Canon := by
  unfold State.opFinish
  split
  · exact h
  · extract_lets s1
    split
    · exact h
    · rename_i s2 s3 _ tm _
      extract_lets s4
      have h1 : s1.Canon := h
      have h2 : s2.Canon := ite (foldl (fun _ _ h => landClash h) h1) h1
      have h3 : s3.Canon := by
        unfold s3
        split
        · exact h2
        · exact modTeam (pendAdd h2)
      have h4 : s4.Canon := by
        unfold s4
        split
        · exact ite (launchErr h3) h3
        · exact h3
      exact ite h4 (retireCheck (rerunTry h4))

theorem engineEnd {id err} (h : s.Canon) : (s.engineEnd id err).Canon := ite (opFinish h) h
theorem streamEnd {g st err derr} (h : s.Canon) : (s.streamEnd g st err derr).Canon := engineEnd h
theorem relCheck {core} (h : s.Canon) : (s.relCheck core).Canon := h
theorem mstGo {c stage cap} (h : s.Canon) : (s.mstGo c stage cap).Canon := h
theorem mxEnd {id us err} (h : s.Canon) : (s.mxEnd id us err).Canon := ite (opFinish h) h

theorem mxFail {c cause} (h : s.Canon) : (s.mxFail c cause).Canon := by
  unfold State.mxFail
  split
  · exact h
  · exact mxEnd h

theorem collEnd {id err} (h : s.Canon) : (s.collEnd id err).Canon := engineEnd h
theorem modSession {n f} (h : s.Canon) : (s.modSession n f).Canon := h
theorem failHolds {c l} (h : s.Canon) : (s.failHolds c l).Canon := h
theorem bindEnd {c l w} (h : s.Canon) : (s.bindEnd c l w).Canon := h

theorem layerFail {c l cause} (h : s.Canon) : (s.layerFail c l cause).Canon := by
  unfold State.layerFail
  split
  · exact h
  · exact ite h (failHolds (bindEnd (ite h h)))

theorem rejected {q idx ty code} (h : s.Canon) : (s.rejected q idx ty code).Canon := ite h h
theorem modLive {q idx f} (h : s.Canon) : (s.modLive q idx f).Canon := h

theorem endStep {q idx code cause} (h : s.Canon) : (s.endStep q idx code cause).Canon := by
  unfold State.endStep
  split
  · exact h
  extract_lets k c v s1
  split
  · exact packetEnd (rejected h)
  split
  · exact rejected h
  split
  · exact packetEnd (queueHalt (rejected h))
  split
  rename_i s2 e1
  have h1 : State.Canon s2 := of_eq e1 (writeSignal (rejected h))
  split
  · exact h1
  · exact h1
  · exact packetEnd (queueHalt h1)

theorem cancel {x1} (h : s.Canon) : (s.cancel x1).Canon := by
  unfold State.cancel
  split
  · exact h
  · split
    · exact ite (streamEnd h) h
    · exact h
  · split
    · exact relCheck (mxFail h)
    · exact h
  · exact ite (collEnd h) h
  · exact layerFail h
  split
  · split
    · exact h
    · exact h
    · exact endStep h
  · exact h

theorem netGrant {dst src} (h : s.Canon) : (s.netGrant dst src).Canon := ite h h
theorem netSend {p} (h : s.Canon) : (s.netSend p).Canon := ite h h
theorem timeHolds (h : s.Canon) : s.timeHolds.Canon := h

theorem inTurn {ex is} (hk : ∀ a1 (u : State), u.Canon → NextCanon (ex a1 u)) (h : s.Canon) : NextCanon (inTurn ex is s) := by
  induction is generalizing s with
  | nil => exact ofNext h
  | cons i is ih => exact andThen (hk i s h) fun _ h => ih h

theorem pollFrag {ex t' f} (hk : ∀ a1 (u : State), u.Canon → NextCanon (ex a1 u)) (h : s.Canon) : NextCanon (State.pollFrag ex s
    t' f) := by
  unfold State.pollFrag
  split
  · split
    · exact hk _ _ h
    · exact ofNext h
  · exact ofNext h

theorem pollAll {ex ts} (hk : ∀ a1 (u : State), u.Canon → NextCanon (ex a1 u)) (h : s.Canon) : NextCanon (State.pollAll ex ts s)
    := by
  induction ts generalizing s with
  | nil => exact ofNext h
  | cons t' ts ih =>
    exact andThen (pollFrag hk h) fun _ h => andThen (pollFrag hk h) fun _ h =>
      andThen (hk _ _ h) fun _ h => ih h

theorem condRead {va} (h : s.Canon) : (s.condRead x va).2.Canon := by
  unfold State.condRead
  split
  rename_i s1 e1
  have h1 : State.Canon s1 := of_eq e1 (look h)
  split
  · split
    · exact h1
    split
    rename_i s2 e2
    have h2 : State.Canon s2 := of_eq e2 (readBytes (cacheHome h1))
    exact h2
  · exact pair (ite (report h1) h1)
  · exact pair (ite (report h1) h1)
  · exact h1

theorem holds {c x} (h : s.Canon) : (Cond.holds c x s).2.Canon := by
  unfold Cond.holds
  extract_lets tf
  split
  · exact h
  · exact h
  · exact h
  · split
    rename_i s1 e1
    have h1 : State.Canon s1 := of_eq e1 (condRead h)
    exact h1
  · exact h

theorem evalBlock {x : X} {cs} (h : s.Canon) : (x.evalBlock cs s).2.Canon := by
  induction cs generalizing s with
  | nil => exact h
  | cons c cs ih =>
    unfold X.evalBlock
    split
    next e =>
    have h1 := of_eq e (holds h)
    extract_lets val
    split
    · exact h1
    · exact h1
    · split
      · next e' => exact pair (of_eq e' (ih h1))
      · exact ih h1

theorem parkedWaits (h : s.Canon) : s.parkedWaits.Canon := h
theorem barEnd (h : s.Canon) : s.barEnd.Canon := h
theorem acceptAll (h : s.Canon) : s.acceptAll.Canon := h

theorem writeImage {y bnd off bs} (h : s.Canon) : (s.writeImage y bnd off bs).Canon := by
  unfold State.writeImage
  refine foldl ?_ h
  intro s x h
  extract_lets a
  split
  · exact writeLine h
  · exact h

theorem rimWhole {n id m bs} (h : s.Canon) : (s.rimWhole n id m bs).Canon := by
  unfold State.rimWhole
  extract_lets s1
  split
  · exact h
  · split
    · exact ite (writeImage h) h
    · exact h
  · exact h

theorem rimData {n id bs} (h : s.Canon) : (s.rimData n id bs).Canon := by
  unfold State.rimData
  split
  · exact h
  · exact ite h (ite (rimWhole h) h)

theorem rimRefused {n id} (h : s.Canon) : (s.rimRefused n id).Canon := by
  unfold State.rimRefused
  split
  · split
    · exact layerFail h
    · exact h
  · exact h

theorem rimDeliver {n payload} (h : s.Canon) : (s.rimDeliver n payload).Canon := by
  unfold State.rimDeliver
  split
  · exact h
  · exact rimData h
  · split
    · split <;> exact h
    · exact h
  · exact rimRefused h

theorem rimFlush {k n} (h : s.Canon) : (State.rimFlush k n s).Canon := by
  induction k generalizing s with
  | zero => exact h
  | succ k ih =>
    unfold State.rimFlush
    extract_lets y
    split
    · exact h
    · exact ih (rimDeliver h)

theorem flushRims (h : s.Canon) : s.flushRims.Canon := foldl (fun _ _ h => rimFlush h) h

theorem lastWait {ex t' f} (hk : ∀ a1 (u : State), u.Canon → NextCanon (ex a1 u)) (h : s.Canon) : NextCanon (State.lastWait ex s
    t' f) := by
  unfold State.lastWait
  split
  · split
    · exact iteNext (hk _ _ h) (ofNext h)
    · exact ofNext h
  · exact ofNext h

theorem lastWaits {ex ts} (hk : ∀ a1 (u : State), u.Canon → NextCanon (ex a1 u)) (h : s.Canon) : NextCanon (State.lastWaits ex
    ts s) := by
  induction ts generalizing s with
  | nil => exact ofNext h
  | cons t' ts ih => exact andThen (lastWait hk h) fun _ h => andThen (lastWait hk h) fun _ h => ih h

theorem liftWaits (h : s.Canon) : s.liftWaits.Canon := h
theorem retireAll (h : s.Canon) : s.retireAll.Canon := foldl (fun _ _ h => retireCheck h) h
theorem nextClk (h : s.Canon) : s.nextClk.Canon := liftWaits (retireAll (foldl (fun _ _ h => landDue h) h))
theorem netTick (h : s.Canon) : s.netTick.Canon := h

theorem stackBar {l x st groups} (h : s.Canon) : ∀ r ∈ s.stackBar l x st groups, r.2.Canon := by
  unfold State.stackBar
  intro r hr
  split at hr
  · cases hr
    exact pair h
  · split at hr
    · cases hr
    · cases hr
      exact pair (of_fields h)

theorem placeGroup {l x g core wait cluster stackB} (h : s.Canon) : (s.placeGroup l x g core wait cluster stackB).Canon :=
    of_fields (foldl (fun _ _ h => h) h)

theorem placeRestOf {l} (h : s.Canon) : (s.placeRestOf l).Canon := by
  unfold State.placeRestOf
  split
  · exact h
  split
  · exact h
  · exact of_fields (placeGroup h)

theorem placeUnit {l u shut paced} (h : s.Canon) : ∀ r ∈ s.placeUnit l u shut paced, r.Canon := by
  unfold State.placeUnit
  intro r hr
  split at hr
  · cases hr
  extract_lets k only bar at hr
  have hbar : ∀ p ∈ bar, p.2.Canon := by
    unfold bar
    intro p hp
    split at hp
    · obtain ⟨q, hq, rfl⟩ := Option.map_eq_some_iff.mp hp
      exact pair (stackBar h q hq)
    · cases hp
      exact pair h
  clear_value bar
  split at hr
  · cases hr
  have h1 := hbar _ rfl
  extract_lets cores late at hr
  split at hr
  · split at hr
    · cases hr
    · split at hr <;> cases hr
      exact placeGroup h1
  split at hr
  · cases hr
  split at hr
  · cases hr
  rename_i s1 _ _ _ _ _
  extract_lets gs at hr
  have h2 : s1.Canon := of_fields h1
  split at hr <;> cases hr
  · exact placeRestOf (of_fields h2)
  · exact foldl (fun _ _ h => placeGroup h) h2

theorem placeUnits {l shut us} (h : s.Canon) : ∀ r ∈ s.placeUnits l shut us, r.Canon := by
  unfold State.placeUnits
  refine List.foldlRecOn (motive := fun o : Option State => ∀ r ∈ o, r.Canon) us _ ?_ ?_
  · intro r hr
    cases hr
    exact h
  · intro o ho u _ r hr
    obtain ⟨q, hq, hr⟩ := Option.bind_eq_some_iff.mp hr
    exact placeUnit (ho q hq) r hr

theorem placeNext {l shut paced} (h : s.Canon) : ∀ r ∈ s.placeNext l shut paced, r.Canon := by
  unfold State.placeNext
  intro r hr
  split at hr
  · cases hr
  split at hr
  · cases hr
  extract_lets us o at hr
  have ho : ∀ q ∈ o, q.Canon := by
    unfold o
    intro q hq
    split at hq
    · exact placeUnit h q hq
    · split at hq
      · cases hq
      · exact placeUnits h q hq
  obtain ⟨q, hq, rfl⟩ := Option.map_eq_some_iff.mp hr
  exact of_fields (ho q hq)

theorem gangCheck (h : s.Canon) : s.gangCheck.Canon := by
  unfold State.gangCheck
  refine foldl ?_ h
  intro s x h
  split
  · exact ite h h
  · exact h

theorem lookRun {cache ctx va write} (h : s.Canon) : (s.lookRun cache ctx va write).2.2.Canon := by
  unfold State.lookRun
  split
  · exact h
  extract_lets one
  split
  rename_i s1 e1
  have h1 : State.Canon s1 := of_eq e1 (translate h)
  exact h1

theorem engResolve {c g w cache rs} (h : s.Canon) : (s.engResolve c g w cache rs).2.2.Canon := by
  induction rs generalizing s cache with
  | nil => exact h
  | cons r rs ih =>
    cases r with
    | scr off n =>
      unfold State.engResolve
      split
      · next e => exact pair2 (of_eq2 e (ih h))
      · exact ih h
    | va va n =>
      unfold State.engResolve
      split
      next e =>
      have h1 := of_eq2 e (lookRun h)
      split
      · split
        · exact h1
        · split
          · next e' => exact pair2 (of_eq2 e' (ih h1))
          · exact ih h1
      · exact h1

theorem engBad {c req core va l} (h : s.Canon) : (s.engBad c req core va l).2.Canon := by
  have hr : ∀ l', (s.report c va req core l').2.Canon := fun _ => report h
  cases l with
  | miss => exact hr .miss
  | bad p => exact hr (.bad p)
  | layer n p =>
    unfold State.engBad
    dsimp only
    split
    · exact pair h
    · exact pair (request h)
  | ok | absent | perm | link => exact h

theorem engRead {k} (h : s.Canon) : (s.engRead k).2.Canon := by
  unfold State.engRead
  split
  · exact h
  · split
    rename_i s1 e1
    have h1 : State.Canon s1 := of_eq e1 (readBytes h)
    exact h1
  · exact h

theorem engReadAll {c ks} (h : s.Canon) : (s.engReadAll c ks).2.Canon := by
  unfold State.engReadAll
  refine foldlSnd ?_ h
  intro x x h
  extract_lets s1
  have h1 : State.Canon s1 := by
    unfold s1
    split
    · exact cacheHome h
    · exact h
  split
  rename_i s2 e1
  have h2 : State.Canon s2 := of_eq e1 (engRead h1)
  exact h2

theorem hubRead {c va n page fate} (h : s.Canon) : (s.hubRead c va n page fate).2.Canon := by
  unfold State.hubRead
  extract_lets pages
  split
  · exact h
  split
  · exact h
  split
  · exact h
  split
  · rename_i s1 e1
    have h1 : State.Canon s1 := of_eq2 e1 (engResolve h)
    split
    rename_i s2 e2
    have h2 : State.Canon s2 := of_eq e2 (engBad h1)
    exact h2
  rename_i s1 e1
  have h1 : State.Canon s1 := of_eq2 e1 (engResolve h)
  split
  rename_i s2 e2
  have h2 : State.Canon s2 := of_eq e2 (engReadAll h1)
  extract_lets comp
  split <;> exact h2

theorem waitLook {c v bad xs} (h : s.Canon) : (s.waitLook c v bad xs).2.Canon := by
  induction xs generalizing s bad with
  | nil => exact h
  | cons x xs ih =>
    unfold State.waitLook
    split
    · next e =>
      have h1 := of_eq e (hubRead h)
      extract_lets n
      split
      · exact h1
      · exact ih h1
    · next e => exact of_eq e (hubRead h)
    · next e => exact of_eq e (hubRead h)

theorem waitStep {q tmo v} (h : s.Canon) : (s.waitStep q tmo v).Canon := by
  unfold State.waitStep
  split
  · extract_lets k
    split
    rename_i s1 e1
    have h1 : State.Canon s1 := of_eq e1 (waitLook h)
    split
    · exact ite h1 h1
    split
    · exact h1
    split
    · exact ite h1 h1
    · exact h1
  · exact h

theorem waitsStep {q tmo} (h : s.Canon) : (s.waitsStep q tmo).Canon := foldl (fun _ _ h => waitStep h) h
theorem watch (h : s.Canon) : s.watch.Canon := foldl (fun _ _ h => waitsStep h) h
theorem watchFrom {m} (h : s.Canon) : (s.watchFrom m).Canon := ite h (watch h)
theorem startAcquire {c aff} (h : s.Canon) : (s.startAcquire c aff).Canon := foldl (fun _ _ h => h) h

theorem launchRead {q v} (h : s.Canon) : (s.launchRead q v).Canon := by
  unfold State.launchRead
  extract_lets k c rec_ stop
  have hstop : ∀ (u : State) r, u.Canon → (stop u r).Canon := by
    intro u r hu
    unfold stop
    split
    · exact modLive hu
    · exact endStep hu
  split
  · next e1 =>
    have h1 := of_eq e1 (hubRead h)
    extract_lets r
    split
    · next e2 =>
      have h2 := of_eq e2 (hubRead h1)
      split
      · next e3 =>
        have h3 : State.Canon _ := of_eq e3 (by
          split
          · exact hubRead h2
          · exact pair h2)
        extract_lets args y
        split
        · exact endStep h3
        · exact modLive (of_fields (ite (startAcquire h3) h3))
      · next e3 =>
        refine hstop _ _ (of_eq e3 ?_)
        split
        · exact hubRead h2
        · exact pair h2
    · next e2 => exact hstop _ _ (of_eq e2 (hubRead h1))
  · next e1 => exact hstop _ _ (of_eq e1 (hubRead h))

theorem liveStep {q v} (h : s.Canon) : (s.liveStep q v).Canon := by
  unfold State.liveStep
  split
  · exact launchRead h
  · exact h
  · exact h
  · exact ite (endStep h) h
  · exact ite (endStep h) h
  · exact endStep h

theorem hubPoll (h : s.Canon) : s.hubPoll.Canon :=
    foldl (fun _ _ h => waitsStep (waitsStep h)) (foldl (fun _ _ h => foldl (fun _ _ h => watchFrom (liveStep h)) h) (foldl (fun
      _ _ h => watchFrom (launchCheck h)) h))

theorem tick {ex} (hk : ∀ a1 (u : State), u.Canon → NextCanon (ex a1 u)) (h : s.Canon) : NextCanon (State.tick ex s) := by
  unfold State.tick
  refine andThen (inTurn hk (timeHolds h)) fun _ h => andThen (pollAll hk h) fun _ h => ?_
  extract_lets s1
  have h1 : s1.Canon := parkedWaits (barEnd (acceptAll (flushRims h)))
  refine andThen (lastWaits hk h1) fun s2 h => ?_
  have h2 := nextClk (netTick (gangCheck (hubPoll (flushHalters (flushFaults h)))))
  generalize s2.flushFaults.flushHalters.hubPoll.gangCheck.netTick.nextClk = u at h2 ⊢
  exact answer h2

theorem runMove {ex x1} (hk : ∀ a1 (u : State), u.Canon → NextCanon (ex a1 u)) (h : s.Canon) : NextCanon (State.runMove ex s x1)
    := by
  unfold State.runMove
  split
  · exact runFrag hk h
  · exact iteNext (hk _ _ h) (answer h)
  · exact answer (ite (cancel h) h)
  · exact answer (ite (netGrant h) h)
  · exact answer (ite (netSend h) h)
  · exact iteNext (tick hk h) (answer h)

theorem firstStep {ex is} (hk : ∀ a1 (u : State), u.Canon → NextCanon (ex a1 u)) (h : s.Canon) : ∀ o ∈ s.firstStep ex is,
    NextCanon o := by
  induction is with
  | nil =>
    intro o ho
    cases ho
  | cons i is ih =>
    have hi := hk i s h
    unfold State.firstStep
    intro o ho
    split at ho
    · next e =>
      rw [e] at hi
      split at ho
      · exact ih o ho
      · cases ho
        exact hi
    · cases ho
      exact hi

theorem runFree {ex} (hk : ∀ a1 (u : State), u.Canon → NextCanon (ex a1 u)) (h : s.Canon) : NextCanon (State.runFree ex s) := by
  unfold State.runFree
  split
  · exact answer h
  · split
    · exact runFrag hk h
    · cases e : s.firstStep ex s.autoSteps with
      | none => exact tick hk h
      | some o => exact firstStep hk h o e

theorem moveNext {ex} (hk : ∀ a1 (u : State), u.Canon → NextCanon (ex a1 u)) (h : s.Canon) : NextCanon (State.moveNext ex s) :=
    by
  unfold State.moveNext
  split
  · split
    · exact runFrag hk h
    · exact runMove hk h
  · exact runMove hk h
  · exact runFree hk h

theorem stepWith {ex} (hk : ∀ a1 (u : State), u.Canon → NextCanon (ex a1 u)) (h : s.Canon) : NextCanon (State.stepWith ex s) :=
    andThen (moveNext hk h) (fun _ h => answer (ite h (watch h)))

theorem readView {t' tm} (h : s.Canon) : (s.readView t' tm).2.Canon := by
  unfold State.readView
  extract_lets hs
  split <;> exact h

theorem advance {x extra} (h : s.Canon) : (s.advance x extra).Canon := h

theorem postAt {x due} (h : s.Canon) : (s.postAt x due).Canon := by
  unfold State.postAt
  split <;> exact h

theorem liftSibling {t' f} (h : s.Canon) : (s.liftSibling t' f).Canon := h
theorem stallMoved {x} (h : s.Canon) : (s.stallMoved x).Canon := h

theorem addOp {x o} (h : s.Canon) : (s.addOp x o).Canon := by
  unfold State.addOp
  extract_lets o2
  split <;> exact h

theorem drainTeam {t' f} (h : s.Canon) : (s.drainTeam t' f).Canon := retireCheck h

theorem joinPost {t' b p n} (h : s.Canon) : (s.joinPost t' b p n).Canon := by
  unfold State.joinPost
  split <;> exact h

theorem go {k t' f g} (h : s.Canon) : OkCanon (State.go k s t' f g) := by
  induction k generalizing s f g with
  | zero => exact h
  | succ k ih =>
    unfold State.go
    split
    · exact ofOk h
    next tm _ =>
    split
    · extract_lets e q p s0 s1
      have h0 : s0.Canon := modTeam h
      have h1 : s1.Canon := of_fields h0
      exact iteOk (ih h1) (ofOk h1)
    · split
      · exact iteOk ofError (iteOk (ofOk h) (ofOk (drainTeam h)))
      · next _ _ e rest _ _ =>
        have h' : (s.modTeam t' fun tm => { tm with stack := rest }).Canon := modTeam h
        refine iteOk ofError ?_
        split
        · exact iteOk (ih (modTeam h)) (ofOk (modTeam h))
        exact iteOk ofError (iteOk (ih h') (iteOk (ih h') (ih h')))
    · extract_lets s1
      have h1 : s1.Canon := by
        unfold s1
        split
        · exact landUpd h
        · exact h
      exact ih h1
    · split
      · exact ofOk h
      · exact iteOk ofError (ih (of_fields (modTeam (joinPost h))))

theorem walkStack {t' f g} (h : s.Canon) : OkCanon (s.walkStack t' f g) := go h
theorem lone {t' f tm} (h : s.Canon) : (State.demote.lone t' f s tm).Canon := ite h h

theorem demote {t' f} (h : s.Canon) : OkCanon (s.demote t' f) := by
  unfold State.demote
  split
  · exact ofOk h
  extract_lets p s1
  split
  · exact iteOk ofError (iteOk (iteOk ofError (walkStack h)) (ofOk (lone h)))
  · exact ofOk (lone h)

theorem unclaim (h : s.Canon) : (s.unclaim x).Canon := h

theorem claimAt {x cls ps} (h : s.Canon) : (s.claimAt x cls ps).Canon := by
  unfold State.claimAt
  split <;> exact h

theorem retire {i cls ps r} (hr : r.state.Canon) : (s.retire i x cls ps r).Canon := by
  cases r with
  | fixed s us =>
    cases cls with
    | fixed l => exact advance (postAt (foldl (fun _ _ h => h) hr))
    | issue => exact hr
    | token u => exact hr
  | issue s => exact liftSibling (postAt (advance hr))
  | delay s n => exact postAt (advance hr)
  | moved s => exact liftSibling (postAt (stallMoved hr))
  | token s o => exact advance (addOp hr)
  | demote u o =>
    have hu : u.Canon := hr
    unfold State.retire
    dsimp only
    split
    · next e => exact of_ok e (demote (advance (addOp hu)))
    · exact takeTrap hu
    · exact takeTrap (modTeam hu)
    · exact takeTrap (modTeam hu)
  | resume s => exact liftSibling (advance hr)
  | hold u w =>
    have hu : u.Canon := hr
    unfold State.retire
    dsimp only
    exact liftSibling (modTeam (ite (claimAt hu) hu))
  | trap s c sub v => exact takeTrap hr
  | stop s => exact hr

theorem eccTrap {x c sub} (h : s.Canon) : (s.eccTrap x c sub).Canon := takeTrap h
theorem slotUse {t' f tm} (h : s.Canon) : (s.slotUse t' f tm).Canon := h

theorem guardedOff {cls} (h : s.Canon) : (x.guardedOff cls s).state.Canon := by
  unfold X.guardedOff
  split
  · exact h
  · exact h
  · exact iteRes h h

theorem issueNew {i cls ps always tk body} (h : s.Canon) (hk : ∀ a1 (u : State), u.Canon → (body a1 u).state.Canon) :
    (s.issueNew i x cls ps always tk body).Canon := by
  unfold State.issueNew
  split
  · exact haltTeam h
  split
  · exact eccTrap h
  split
  · exact h
  · exact takeTrap h
  · exact takeTrap h
  extract_lets uw
  clear_value uw
  split
  · exact takeTrap h
  split
  · exact takeTrap (modTeam h)
  split
  · exact eccTrap h
  rename_i s1 _ _ _ _
  have h1 : s1.Canon := slotUse h
  clear_value s1
  split
  · exact retire (guardedOff h1)
  · split
    next e =>
    have h2 := of_eq e (readView h1)
    exact retire (hk _ _ h2)

theorem issue {i h' cls ps always tk body} (h : s.Canon) (hk : ∀ a1 (u : State), u.Canon → (body a1 u).state.Canon) : (s.issue i
    h' cls ps always tk body).Canon := by
  unfold State.issue
  split
  · exact h
  extract_lets s1
  have h1 : s1.Canon := of_fields h
  clear_value s1
  split
  · exact h1
  split
  · exact h1
  extract_lets p y
  clear_value y p
  split
  · split
    · exact h1
    split
    · split
      next e =>
      have h2 := of_eq e (readView h1)
      exact retire (hk _ _ h2)
    · exact h1
  · exact issueNew h1 hk

theorem rerunAsk {t' r} (h : s.Canon) : (s.rerunAsk t' r).Canon := rerunTry h

theorem breach {t' f sub val blane} (h : s.Canon) : (s.breach t' f sub val blane).Canon := by
  unfold State.breach
  split
  · exact h
  extract_lets pc
  split
  · exact takeTrap h
  split
  · exact takeTrap h
  · exact ite (takeTrap h) (rerunAsk h)

theorem branch {k} (h : s.Canon) (hk : ∀ (u : State), u.Canon → (k u).state.Canon) : (x.branch s k).state.Canon :=
    iteRes (ofStop (breach h)) (hk _ h)
theorem goTo {pc} (h : s.Canon) : (s.goTo x pc).Canon := h
theorem fall (h : s.Canon) : (x.fall s).state.Canon := h

theorem stackErr {e} (h : s.Canon) : (x.stackErr s e).state.Canon := by
  unfold X.stackErr
  split
  · exact h
  · exact h
  · exact ofTrap (ite h h)

theorem move {r} (h : s.Canon) (hr : OkCanon r) : (x.move s r).state.Canon := by
  cases r with
  | ok s => exact ofMoved hr
  | error e => exact stackErr h

theorem tookBranch {t' f pc target} (h : s.Canon) : OkCanon (s.tookBranch t' f pc target) := by
  unfold State.tookBranch
  split
  · exact ofOk h
  · exact iteOk (ofOk h) (iteOk (demote h) (ofOk h))

theorem jump {pc} (h : s.Canon) : (x.jump s pc).state.Canon := move h (tookBranch h)

theorem openJoin {k} (h : s.Canon) (hk : ∀ a1, (k a1).state.Canon) : (x.openJoin s k).state.Canon := by
  unfold X.openJoin
  split
  · exact iteRes h h
  · exact iteRes (stackErr h) (iteRes (hk _) h)

theorem transfer {target link} (h : s.Canon) : (x.transfer s target link).state.Canon :=
    iteRes h (iteRes h (iteRes h (move h (tookBranch (goTo (ite (landUpd (landUpd h)) h))))))

theorem hold {stage cap} (h : s.Canon) : (x.hold s stage cap).state.Canon := by
  unfold X.hold
  split <;> exact h

theorem readFrame {tm fate} (h : s.Canon) : (s.readFrame tm fate).2.Canon := by
  unfold State.readFrame
  extract_lets va
  split
  · exact pair h
  · exact pair h
  · exact pair h
  have hr : ∀ {u : State} l, u.Canon → (u.report tm.ctx va 7 tm.core l).2.Canon := fun _ h => report h
  split
  next e =>
  have h1 := of_eq e (look h)
  split
  · split
    · exact pair h1
    split
    · exact pair h1
    split
    next e2 =>
    have h2 := of_eq e2 (foldlSnd (fun _ _ h => pair (readBytes (cacheRead h))) h1)
    extract_lets status depth ents
    split
    · exact pair h2
    · exact pair h2
  · split
    next e3 => exact pair (of_eq e3 (hr _ h1))
  · split
    next e3 => exact pair (of_eq e3 (hr _ h1))
  · split
    · exact pair h1
    · exact pair (request h1)
  · exact pair h1
  · exact pair h1
  · exact pair h1

theorem holdOn {stage cap pages layer} (h : s.Canon) : (x.holdOn s stage cap pages layer).state.Canon := by
  unfold X.holdOn
  split <;> exact h

theorem walkOut {t' f} (h : s.Canon) : OkCanon (s.walkOut t' f) := by
  unfold State.walkOut
  extract_lets stack
  split
  · next k _ =>
    have hw : OkCanon ((stack [] s).walkStack t' f .ended) := walkStack h
    revert hw
    cases (stack [] s).walkStack t' f .ended with
    | ok u => exact fun hu => hu
    | error e => exact fun _ => trivial
  · exact walkStack h

theorem handlerReturn {leaves} (h : s.Canon) : (x.handlerReturn s leaves).state.Canon := by
  unfold X.handlerReturn
  extract_lets drained
  split
  · exact h
  split
  · exact iteRes (hold h) (hold h)
  split
  · exact hold h
  split
  rename_i s1 e1
  have h1 : State.Canon s1 := of_eq e1 (readFrame h)
  split
  · exact holdOn h1
  · exact h1
  · exact ofStop (haltTeam h1)
  extract_lets s2
  split
  · exact iteRes (move h1 (walkOut h1)) h1
  · exact h1

theorem join {d tmo} (h : s.Canon) : (x.join s d tmo).state.Canon := by
  unfold X.join
  split
  · split
    · exact move h (walkStack h)
    split
    · exact iteRes (ofIssue (landUpd h)) (hold h)
    · exact hold h
  split
  · exact iteRes (stackErr h) (iteRes h (iteRes (iteRes (move h (walkStack h)) (stackErr h)) (iteRes (iteRes (move h (walkStack
    h)) (stackErr h)) (iteRes (move h (walkStack h)) (hold h)))))
  · exact iteRes h h

theorem vecOp {d w64 f} (h : s.Canon) : (vecOp d w64 f x s).state.Canon := h
theorem exmWrite {i h' a old f} (h : s.Canon) : NextCanon (exmWrite i h' a old f s) := answer (issue h (fun _ _ h => h))
theorem acquire {sc} (h : s.Canon) : (s.acquire x sc).Canon := ite h h
theorem acquiring {sc stage cap k} (h : s.Canon) (hk : ∀ (u : State), u.Canon → (k u).state.Canon) : (x.acquiring s sc stage cap
    k).state.Canon := iteRes (hold h) (hk _ (acquire h))

theorem acquireBlock {cs bs} (h : s.Canon) : (x.acquireBlock s cs bs).Canon := by
  unfold X.acquireBlock
  refine foldl ?_ h
  intro s x h
  split
  · exact ite (acquire h) h
  · exact h

theorem satisfied {cs bs cap k} (h : s.Canon) (hk : ∀ (u : State), u.Canon → (k u).state.Canon) : (x.satisfied s cs bs cap
    k).state.Canon := iteRes (acquiring h (fun _ h => hk _ (acquireBlock h))) (hk _ h)
theorem badField {sub v} (h : s.Canon) : (badField s sub v).state.Canon := h

theorem withBlock {a n k} (h : s.Canon) (hk : ∀ a1 a2, (k a1 a2).state.Canon) : (x.withBlock s a n k).state.Canon := by
  unfold X.withBlock
  extract_lets ws
  split
  · exact h
  split
  · exact h
  split
  · exact h
  · exact hk _ _

theorem waitOut {d late} (h : s.Canon) : (x.waitOut s d late).state.Canon := by
  unfold X.waitOut
  split
  · exact h
  · exact ofIssue (landUpd h)

theorem xWaitStep {d all tmo ws} (h : s.Canon) : (x.waitStep s d all tmo ws).state.Canon := by
  unfold X.waitStep
  extract_lets cs done
  have hdone : ∀ u : State, u.Canon → (done u).state.Canon := fun _ hu => waitOut hu
  clear_value done
  split
  · exact waitOut h
  split
  · exact satisfied h hdone
  split
  · next e => exact ofTrap (of_eq e (evalBlock h))
  · next e =>
    have h1 := of_eq e (evalBlock h)
    exact iteRes (iteRes (hold h1) (satisfied h1 hdone)) (iteRes (waitOut h1) (hold h1))

theorem instr {i h' cls ps body} (hk : ∀ x (u : State), u.Canon → (body x u).state.Canon) (h : s.Canon) :
    NextCanon (instr i h' cls ps body s) := answer (issue h hk)

theorem waitcOp {i h' d a b n all} (h : s.Canon) : NextCanon (waitcOp i h' d a b n all s) := by
  unfold Machine.waitcOp
  extract_lets ps
  refine instr (fun x s h => ?_) h
  split
  · exact xWaitStep h
  · exact withBlock h fun _ _ => xWaitStep h

theorem releasing {sc stage cap k} (h : s.Canon) (hk : ∀ (u : State), u.Canon → (k u).state.Canon) : (x.releasing s sc stage cap
    k).state.Canon := iteRes h (iteRes (hold h) (hk _ h))
theorem unspin (h : s.Canon) : (s.unspin x).Canon := h

theorem barArrive {g r a} (h : s.Canon) : (s.barArrive g r a).Canon := by
  unfold State.barArrive
  split <;> exact h

theorem int2 {i h' t' d a b f} (h : s.Canon) : NextCanon (int2 i h' t' d a b f s) := answer (issue h (fun _ _ h => h))
theorem int3 {i h' t' d a b c bw cw f} (h : s.Canon) : NextCanon (int3 i h' t' d a b c bw cw f s) :=
    answer (issue h (fun _ _ h => h))
theorem idiv2 {i h' t' d a b f} (h : s.Canon) : NextCanon (idiv2 i h' t' d a b f s) := answer (issue h (fun _ _ h => h))
theorem int1 {i h' t' d a f} (h : s.Canon) : NextCanon (int1 i h' t' d a f s) := answer (issue h (fun _ _ h => h))
theorem shift2 {i h' t' d a b f} (h : s.Canon) : NextCanon (shift2 i h' t' d a b f s) := answer (issue h (fun _ _ h => h))
theorem predOp {d f} (h : s.Canon) : (predOp d f x s).state.Canon := h
theorem vecOpG {d w64 f x} (h : s.Canon) : (vecOpG d w64 f x s).state.Canon := h
theorem fltOpG {i h' t' d ps f} (h : s.Canon) : NextCanon (fltOpG i h' t' d ps f s) := answer (issue h (fun _ _ h => h))
theorem fltOp {i h' t' d ps f} (h : s.Canon) : NextCanon (fltOp i h' t' d ps f s) := fltOpG h
theorem sfuOp {i h' t' d ps f} (h : s.Canon) : NextCanon (sfuOp i h' t' d ps f s) := answer (issue h (fun _ _ h => h))
theorem fdot {i h' t' n r gs d a b c} (h : s.Canon) : NextCanon (fdot i h' t' n r gs d a b c s) :=
    answer (issue h (fun _ _ h => h))
theorem taskop {sub} (h : s.Canon) : (x.taskop s sub).state.Canon := ofTrap (ite h h)
theorem commitLine {tm line v} (h : s.Canon) : (s.commitLine tm line v).Canon :=
    l1Drop (ite (setPoison (writeLine h)) (writeLine h))
theorem commit {tm k} (h : s.Canon) : (s.commit tm k).Canon := foldl (fun _ _ h => commitLine h) h

theorem fateTrap {items} (h : s.Canon) : ∀ r ∈ x.fateTrap s items, r.state.Canon := by
  unfold X.fateTrap
  intro r hr
  split at hr
  · cases hr
  · extract_lets layer at hr
    split at hr <;> cases hr <;> exact ofTrap h

theorem settle {v w} (h : s.Canon) : (s.settle v w).2.Canon := by
  unfold State.settle
  split
  · exact h
  split
  · exact h
  · exact h
  split
  rename_i s1 e1
  have h1 : State.Canon s1 := of_eq e1 (readBytes h)
  extract_lets mem
  split <;> exact h1

theorem settleAll {v ws} (h : s.Canon) : (s.settleAll v ws).2.Canon := by
  unfold State.settleAll
  refine foldlSnd ?_ h
  intro x x h
  split
  rename_i s1 e1
  have h1 : State.Canon s1 := of_eq e1 (settle h)
  exact h1

theorem scrSet {g off bs} (h : s.Canon) : (s.scrSet g off bs).Canon := h
theorem l1Mod {core ctx vline f} (h : s.Canon) : (s.l1Mod core ctx vline f).Canon := h
theorem writeTeam {core ctx vline line p w} (h : s.Canon) : (s.writeTeam core ctx vline line p w).Canon := l1Mod (writeLine h)

theorem performWrites {core ctx ws} (h : s.Canon) : (s.performWrites core ctx ws).Canon := by
  unfold State.performWrites
  split
  rename_i s1 e1
  have h1 : State.Canon s1 := of_eq e1 (settleAll h)
  refine foldl (fun _ _ h => l1Mod (setPoison h)) (foldl (fun _ _ h => writeTeam h) (foldl ?_ h1))
  intro s x h
  split <;> exact h

theorem rmw {core ctx t' op m ftz r} (h : s.Canon) : (s.rmw core ctx t' op m ftz r).2.Canon := by
  unfold State.rmw
  extract_lets read
  have hread : ∀ a c, a.2.Canon → (read a c).2.Canon := by
    intro a c ha
    unfold read
    split
    · exact pair ha
    · split
      next e => exact pair (of_eq e (readBytes ha))
    · exact ha
  split
  next e =>
  have h1 := of_eq e (foldlSnd hread h)
  split
  · exact pair h1
  · extract_lets old
    split
    extract_lets s2
    refine pair (foldl ?_ h1)
    intro u p hu
    split
    split
    · exact scrSet hu
    · exact l1Drop (writeLine hu)
    · exact hu

theorem replayEntry {core e} (h : s.Canon) : (s.replayEntry core e).2.Canon := by
  unfold State.replayEntry
  split
  rename_i s1 e1
  have h1 : State.Canon s1 := of_eq e1 (look h)
  split
  · refine pair (l1Drop ?_)
    split
    · exact foldl (fun _ _ h => rmw h) (performWrites h1)
    · exact performWrites h1
  · exact h1
  · split
    rename_i s2 e2
    have h2 : State.Canon s2 := of_eq e2 (report h1)
    exact h2
  · split
    rename_i s2 e2
    have h2 : State.Canon s2 := of_eq e2 (report h1)
    exact h2
  · exact h1
  · exact h1
  · exact h1

theorem sideLoss {team launch} (h : s.Canon) : (s.sideLoss team launch).Canon := by
  unfold State.sideLoss
  split
  · exact ite h h
  · exact h

theorem sideDrop {n e} (h : s.Canon) : (s.sideDrop n e).Canon := launchCheck (sideLoss h)

theorem replay {n e} (h : s.Canon) : (s.replay n e).Canon := by
  unfold State.replay
  split
  rename_i s1 e1
  have h1 : State.Canon s1 := of_eq e1 (replayEntry h)
  split
  · exact launchCheck h1
  · exact h1
  · exact sideDrop h1
  refine launchCheck ?_
  split
  · exact ite (ite (haltTeam h1) h1) (ite h1 h1)
  · exact h1

theorem replayLine {n ctx vline} (h : s.Canon) : (s.replayLine n ctx vline).Canon := foldl (fun _ _ h => ite h (replay h)) h

theorem resolve {tm write plain cache rs} (h : s.Canon) : (s.resolve tm write plain cache rs).2.2.Canon := by
  induction rs generalizing s cache with
  | nil => exact h
  | cons r rs ih =>
    have ok : ∀ {u : State} {cache : List (Nat × Walk)} {c : Chunk}, u.Canon →
        State.Canon (match u.resolve tm write plain cache rs with
          | (.ok cs, c', s) => ((.ok (c :: cs), c', s) : Except Bad (List Chunk) × List (Nat × Walk) × State)
          | e => e).2.2 := by
      intro u cache c hu
      split
      · next e => exact pair2 (of_eq2 e (ih hu))
      · exact ih hu
    cases r with
    | scr off n => exact ok h
    | va va n =>
      unfold State.resolve
      split
      next e =>
      have h1 := of_eq2 e (lookRun h)
      split
      · split
        · exact pair2 h1
        · exact ok (ite (replayLine h1) h1)
      · extract_lets miss
        split
        · exact ok h1
        · exact pair2 h1

theorem resolveAll {tm write plain cache rs} (h : s.Canon) : (s.resolveAll tm write plain cache rs).2.Canon := by
  induction rs generalizing s cache with
  | nil => exact h
  | cons r rs ih =>
    obtain ⟨l, la, a, n⟩ := r
    unfold State.resolveAll
    split
    · next e => exact pair (of_eq2 e (resolve h))
    · next e =>
      have h1 := of_eq2 e (resolve h)
      split
      · next e' => exact pair (of_eq e' (ih h1))
      · exact ih h1

theorem badAll {tm write plain cache rs} (h : s.Canon) : (s.badAll tm write plain cache rs).2.Canon := by
  induction rs generalizing s cache with
  | nil => exact h
  | cons r rs ih =>
    obtain ⟨l, la, a, n⟩ := r
    unfold State.badAll
    split
    next e =>
    have h1 := of_eq2 e (resolve h)
    split
    next e' => exact pair (of_eq e' (ih h1))

theorem endRead {la b} (h : s.Canon) : ∀ r ∈ x.endRead s la b, r.state.Canon := by
  unfold X.endRead
  intro r hr
  split at hr
  split at hr
  · cases hr
  · cases hr
  · split at hr <;> cases hr
    exact ofTrap h
  · cases hr
    exact ofTrap h
  · cases hr
    exact ofToken h
  · cases hr
    exact ofTrap h
  · cases hr
    exact ofToken (modTeam h)

theorem reportAll {tm req ms} (h : s.Canon) : (s.reportAll tm req ms).2.2.Canon := by
  unfold State.reportAll
  extract_lets r
  refine pair2 (foldlSnd ?_ h)
  intro x x h
  split
  rename_i s1 e1
  have h1 : State.Canon s1 := of_eq e1 (report h)
  exact h1

theorem badRead {stage cap bs} (h : s.Canon) : (x.badRead s stage cap bs).state.Canon := by
  unfold X.badRead
  split
  · next e =>
    obtain ⟨b, _, hb⟩ := List.exists_of_findSome?_eq_some e
    exact endRead h _ hb
  · extract_lets ms s1
    have h1 : s1.Canon := foldl (fun _ _ h => request h) h
    split
    next e =>
    have h2 := of_eq2 e (reportAll h1)
    split
    · exact holdOn h2
    · exact ofTrap h2

theorem scrTrap {e} (h : s.Canon) : (s.scrTrap e).state.Canon := h

theorem l1Line {core ctx va pa p} (h : s.Canon) : (s.l1Line core ctx va pa p).2.Canon := by
  unfold State.l1Line
  extract_lets c
  split
  · exact h
  split
  rename_i s1 e1
  have h1 : State.Canon s1 := of_eq e1 (readBytes (cacheRead h))
  exact h1

theorem readComp {core ctx va pa n p} (h : s.Canon) : (s.readComp core ctx va pa n p).2.Canon := by
  unfold State.readComp
  extract_lets bva bpa held tag meth
  split
  · exact pair h
  · split
    next e => exact pair (of_eq e (foldlSnd (fun _ _ h => pair (l1Line h)) h))

theorem readChunk {tm via c} (h : s.Canon) : (s.readChunk tm via c).2.Canon := by
  unfold State.readChunk
  split
  · exact pair h
  · exact pair h
  split
  · split
    next e => exact pair (of_eq e (readComp h))
  · extract_lets line
    split
    next e =>
    have h1 := of_eq e (by
      split
      · exact pair (l1Line h)
      · exact pair (readBytes (ite (cacheRead h) h)))
    split
    · exact pair h1
    · exact pair h1

theorem readAcc {tm via cs} (h : s.Canon) : (s.readAcc tm via cs).2.Canon := by
  unfold State.readAcc
  refine foldlSnd ?_ h
  intro x x h
  split
  rename_i s1 e1
  have h1 : State.Canon s1 := of_eq e1 (readChunk h)
  exact h1

theorem readAll {tm via t' as} (h : s.Canon) : (s.readAll tm via t' as).2.2.Canon := by
  induction as generalizing s with
  | nil => exact h
  | cons a as ih =>
    unfold State.readAll
    split
    next e =>
    have h1 := of_eq e (readAcc h)
    split
    next e' => exact pair2 (of_eq2 e' (ih h1))

theorem doLoad {tm via t' d n accs} (h : s.Canon) : (s.doLoad tm via t' d n accs).2.Canon := by
  unfold State.doLoad
  split
  rename_i s1 e1
  have h1 : State.Canon s1 := of_eq2 e1 (readAll h)
  exact h1

theorem load {via t' c d a b off} (h : s.Canon) : (x.load s via t' c d a b off).state.Canon := by
  unfold X.load
  extract_lets n size ls keys go
  have hgo : ∀ as, (go as).state.Canon := by
    intro as
    unfold go
    extract_lets items
    split
    · next e => exact fateTrap h _ e
    split
    next e1 =>
    have h1 := of_eq e1 (resolveAll h)
    split
    · split
      next e2 => exact badRead (of_eq e2 (badAll h1))
    extract_lets cs
    split
    · exact scrTrap h1
    split
    · exact hold h1
    split
    next e3 =>
    have h3 := of_eq e3 (by
      split
      · exact pair h1
      · exact doLoad h1)
    exact iteRes (ofDemote h3) (ofToken h3)
  clear_value go
  split
  · exact hgo _
  · split
    · exact ofTrap h
    · exact hgo _

theorem resolveParts {tm cache rs} (h : s.Canon) : (s.resolveParts tm cache rs).2.Canon := by
  induction rs generalizing s cache with
  | nil => exact h
  | cons r rs ih =>
    obtain ⟨p, a, r, bs, ks⟩ := r
    cases r with
    | scr off n =>
      unfold State.resolveParts
      split
      next e => exact pair (of_eq e (ih h))
    | va va n =>
      unfold State.resolveParts
      split
      next e =>
      have h1 := of_eq2 e (lookRun h)
      split
      next e' =>
      have h2 := of_eq e' (by
        split
        · exact pair (ite (replayLine h1) h1)
        · exact pair h1)
      split
      next e'' => exact pair (of_eq e'' (ih h2))

theorem sideEnter {t' tm va la l ws red} (h : s.Canon) : (s.sideEnter t' tm va la l ws red).Canon := by
  unfold State.sideEnter
  split
  rename_i s1 e1
  have h1 : State.Canon s1 := of_eq e1 (report h)
  exact ite h1 (sideLoss h1)

theorem holdParts {stage ps} (h : s.Canon) : (x.holdParts s stage ps).state.Canon := holdOn h
theorem storeOp {k stage ps n} (h : s.Canon) : (x.storeOp s k stage ps n).state.Canon :=
    iteRes (holdParts h) (iteRes h (ofToken (performWrites h)))

theorem storePlain {k stage ps} (h : s.Canon) : (x.storePlain s k stage ps).state.Canon := by
  unfold X.storePlain
  split
  split
  extract_lets lines room
  split
  extract_lets enter
  split
  · refine storeOp (foldl ?_ (ite h (sideLoss h)))
    intro s x h
    split
    · exact h
    · exact sideEnter h
  split
  · exact holdParts (ite h (sideLoss h))
  refine holdParts (performWrites (foldl ?_ (ite h (sideLoss h))))
  intro s x h
  split
  · exact h
  · exact sideEnter h

theorem placeVersion {t' ops poison} (h : s.Canon) : (s.placeVersion t' ops poison).2.Canon := by
  unfold State.placeVersion
  refine foldlSnd ?_ h
  intro x x h
  split
  · exact h
  split
  · exact h
  split
  · exact h
  extract_lets mem put
  split
  · exact h
  · split <;> exact h

theorem storeTask {k ps} (h : s.Canon) : (x.storeTask s k ps).state.Canon := by
  unfold X.storeTask
  extract_lets m s1
  split
  rename_i s2 e1
  have h1 : State.Canon s2 := of_eq e1 (settleAll (ite h h))
  split
  rename_i s3 e2
  have h2 : State.Canon s3 := of_eq e2 (placeVersion h1)
  exact iteRes (ofStop (rerunAsk h2)) (ofToken (performWrites h2))

theorem storeParts {k stage ps} (h : s.Canon) : (x.storeParts s k stage ps).state.Canon := by
  unfold X.storeParts
  split
  · exact h
  extract_lets must declined
  split
  · exact h
  · split
    rename_i s1 e1
    have h1 : State.Canon s1 := of_eq2 e1 (reportAll h)
    exact iteRes (holdOn h1) (iteRes h (storePlain h1))
  · exact iteRes (ofStop (breach h)) (iteRes (iteRes (holdParts h) (storeTask h)) (storePlain h))

theorem storeAs {k stage pcs} (h : s.Canon) : (x.storeAs s k stage pcs).state.Canon := by
  unfold X.storeAs
  split
  rename_i s1 e1
  have h1 : State.Canon s1 := of_eq e1 (resolveParts h)
  split <;> exact storeParts h1

theorem store {pcs} (h : s.Canon) : (x.store s pcs).state.Canon := storeAs h

theorem storeNew {err pcs} (h : s.Canon) : (x.storeNew s err pcs).state.Canon := by
  unfold X.storeNew
  split
  · exact h
  · exact store h

theorem st_ {t' c d a b off} (h : s.Canon) : (x.st_ s t' c d a b off).state.Canon := by
  unfold X.st_
  split
  · exact store h
  · exact storeNew h

theorem stUnit {a off n m pcs} (h : s.Canon) : (x.stUnit s a off n m pcs).state.Canon := by
  unfold X.stUnit
  split
  · exact store h
  split
  split
  · exact storeNew h
  · exact h

theorem prefetch {core ctx l1 va} (h : s.Canon) : (s.prefetch core ctx l1 va).Canon := by
  unfold State.prefetch
  split
  rename_i s1 e1
  have h1 : State.Canon s1 := of_eq e1 (look h)
  split
  · exact ite h1 (ite (l1Line (cacheRead h1)) (cacheRead h1))
  · exact h1

theorem writeBack {ctx va} (h : s.Canon) : (s.writeBack ctx va).Canon := by
  unfold State.writeBack
  split
  rename_i s1 e1
  have h1 : State.Canon s1 := of_eq e1 (look h)
  split <;> exact h1

theorem cacheWork {core ctx w} (h : s.Canon) : (s.cacheWork core ctx w).Canon := by
  unfold State.cacheWork
  split
  · exact foldl (fun _ _ h => prefetch h) h
  · exact h
  · exact foldl (fun _ _ h => h) h
  · exact h
  · exact foldl (fun _ _ h => writeBack h) h
  · exact h

theorem cacheOp {w} (h : s.Canon) : (x.cacheOp s w).state.Canon := iteRes h (ofToken (cacheWork h))
theorem atGens {g ls} (h : s.Canon) : (s.atGens x g ls).Canon := ite h h

theorem doAtom {core ctx ty op m ftz d rs} (h : s.Canon) : (s.doAtom core ctx ty op m ftz d rs).2.2.Canon := by
  unfold State.doAtom
  extract_lets r failed
  refine pair2 ?_
  refine List.foldlRecOn (motive := fun a : List (Nat × El) × Bool × State => a.2.2.Canon) rs _ h ?_
  intro a ha y _
  split
  next e => exact pair2 (of_eq e (rmw ha))

theorem atomOp {g ls rs} (h : s.Canon) : (x.atomOp s g ls rs).state.Canon := by
  unfold X.atomOp
  extract_lets cs
  split
  · exact scrTrap h
  split
  · exact hold h
  split
  next e =>
  have h1 := of_eq2 e (by
    split
    · exact pair2 (atGens h)
    · exact doAtom (atGens h))
  exact iteRes (holdOn (unclaim (addOp h1))) (ofToken h1)

theorem atomGo {g ls} (h : s.Canon) : (x.atomGo s g ls).state.Canon := by
  unfold X.atomGo
  extract_lets items
  split
  · next e => exact fateTrap h _ e
  split
  next e1 =>
  have h1 := of_eq e1 (resolveAll h)
  split
  · split
    next e2 => exact badRead (of_eq e2 (badAll h1))
  · exact atomOp h1

theorem resolveEach {tm n cache ls} (h : s.Canon) : (s.resolveEach tm n cache ls).2.Canon := by
  induction ls generalizing s cache with
  | nil => exact h
  | cons l ls ih =>
    unfold State.resolveEach
    split
    next e =>
    have h1 := of_eq2 e (resolve h)
    split
    next e' => exact pair (of_eq e' (ih h1))

theorem redSide {g ls ok miss lost} (h : s.Canon) : (x.redSide s g ls ok miss lost).state.Canon := by
  unfold X.redSide
  extract_lets s1 lines room enter later stay cs
  have h1 : s1.Canon := ite (sideLoss h) h
  have henter : ∀ u : State, u.Canon → (enter u).Canon := by
    intro u hu
    refine foldl ?_ hu
    intro u e hu
    split
    · exact hu
    · exact sideEnter hu
  clear_value s1 enter
  split
  · split
    · exact scrTrap h1
    · exact atomOp (henter _ h1)
  split
  · exact scrTrap h1
  split
  · exact holdOn h1
  split
  next e => exact holdOn (of_eq2 e (doAtom (atGens (henter _ h1))))

theorem redGo {g ls} (h : s.Canon) : (x.redGo s g ls).state.Canon := by
  unfold X.redGo
  extract_lets wide
  split
  · next e => exact fateTrap h _ e
  split
  next e1 =>
  have h1 := of_eq e1 (resolveEach h)
  extract_lets cap bad ok
  split
  · exact badRead h1
  split
  · exact badRead h1
  · exact redSide h1

theorem atomic {g rel a b c} (h : s.Canon) : (x.atomic s g rel a b c).state.Canon := by
  unfold X.atomic
  extract_lets go start
  split
  · exact iteRes (iteRes (hold h) (acquiring h (fun _ h => h))) (iteRes (iteRes (atomGo h) (redGo h)) (iteRes (iteRes (atomGo h)
    (redGo h)) (iteRes (iteRes (atomGo h) (redGo h)) (iteRes (releasing h (fun _ h => iteRes (atomGo h) (redGo h))) (iteRes
    (atomGo h) (redGo h))))))
  split
  · exact h
  · exact iteRes (releasing h (fun _ h => iteRes (atomGo h) (redGo h))) (iteRes (atomGo h) (redGo h))

theorem copyIn {r cap} (h : s.Canon) : (x.copyIn s r cap).state.Canon := by
  unfold X.copyIn
  split
  · exact hold h
  · exact iteRes (hold h) h

theorem copy {kind opt ses m sizeAligned sp dp ts} (h : s.Canon) : (x.copy s kind opt ses m sizeAligned sp dp ts).state.Canon :=
    by
  unfold X.copy
  extract_lets bad mis
  clear_value bad mis
  split
  · exact ofTrap h
  · exact ofTrap h
  · exact copyIn h

theorem chainCopy {last d a b opt} (h : s.Canon) : (x.chainCopy s last d a b opt).state.Canon := by
  unfold X.chainCopy
  extract_lets crc r
  have hr : r.state.Canon := copy h
  clear_value r
  split
  · exact hr
  · exact hr

theorem matrixInstr {i h' ps body} (hk : ∀ x (u : State), u.Canon → (body x u).state.Canon) (h : s.Canon) :
    NextCanon (matrixInstr i h' ps body s) := by
  unfold Machine.matrixInstr
  extract_lets bad
  clear_value bad
  split
  · exact answer (takeTrap h)
  · exact answer (issue h hk)

theorem submit {tile sync keys c} (h : s.Canon) : (x.submit s tile sync keys c).state.Canon :=
    iteRes (hold h) (iteRes (hold h) (iteRes (hold h) h))
theorem mBad {sub reason} (h : s.Canon) : (mBad s sub reason).state.Canon := h
theorem setDesc {t' n scale f} (h : s.Canon) : (s.setDesc t' n scale f).Canon := h
theorem hints {c l h' named} (h : s.Canon) : (s.hints c l h' named).Canon := foldl (fun _ _ h => request h) h

theorem bind {c l rty} (h : s.Canon) : (x.bind s c l rty).state.Canon := by
  unfold X.bind
  split
  · exact iteRes (hold h) (ofToken (hints (request h)))
  · exact h

theorem coll {i h' ty kind cf a b} (h : s.Canon) : NextCanon (coll i h' ty kind cf a b s) :=
    answer (issue h (fun _ _ h => iteRes h (iteRes h h)))
theorem tinv {i h' ps ctx w} (h : s.Canon) : NextCanon (tinv i h' ps ctx w s) :=
    answer (issue h (fun _ _ h => iteRes h (iteRes h h)))
theorem askCkpt {c} (h : s.Canon) : (s.askCkpt c).Canon := ite h h

theorem cdEnd {t' f dly} (h : s.Canon) : (s.cdEnd t' f dly).Canon := by
  unfold State.cdEnd
  split
  · exact ite h h
  · exact h

theorem resumeHeld {t' f k} (h : s.Canon) (hk : ∀ i, ∀ g ∈ k i, ∀ u : State, u.Canon → NextCanon (g u)) : NextCanon
    (s.resumeHeld t' f k) := by
  unfold State.resumeHeld
  split
  · split
    · split
      · next e => exact hk _ _ e _ h
      · exact answer h
    · exact answer h
  · exact answer h

theorem waitcAgain {team f} (h : s.Canon) : NextCanon (s.waitcAgain team f) := by
  refine resumeHeld h ?_
  intro i g hg u hu
  split at hg <;> cases hg
  · exact waitcOp hu
  · exact waitcOp hu

theorem modColl {id f} (h : s.Canon) : (s.modColl id f).Canon := h

theorem collBad {id k va l} (h : s.Canon) : (s.collBad id k va l).Canon := by
  unfold State.collBad
  split
  · rename_i s1 e1
    have h1 : State.Canon s1 := of_eq e1 (engBad h)
    exact h1
  rename_i s1 e1
  have h1 : State.Canon s1 := of_eq e1 (engBad h)
  exact collEnd h1

theorem collRead {id k va n next} (h : s.Canon) (hk : ∀ a1 u, u.Canon → (next a1 u).Canon) : (s.collRead id k va n next).Canon
    := by
  unfold State.collRead
  split
  · exact collEnd h
  split
  · rename_i s1 e1
    have h1 : State.Canon s1 := of_eq2 e1 (engResolve h)
    exact collBad h1
  rename_i s1 e1
  have h1 : State.Canon s1 := of_eq2 e1 (engResolve h)
  split
  rename_i s2 e2
  have h2 : State.Canon s2 := of_eq e2 (engReadAll h1)
  exact ite (collEnd h2) (hk _ _ h2)

theorem rimSend {n m} (h : s.Canon) : (s.rimSend n m).Canon := h
theorem collClose {id k d} (h : s.Canon) : (s.collClose id k d).Canon := modColl (foldl (fun _ _ h => ite h h) h)

theorem collCheck {id} (h : s.Canon) : (s.collCheck id).Canon := by
  unfold State.collCheck
  split
  · split
    · exact ite (collClose h) h
    · exact h
  · exact h

theorem collTake {id n r m} (h : s.Canon) : (s.collTake id n r m).Canon := by
  unfold State.collTake
  split
  · split
    · exact ite (collCheck h) h
    · exact h
  · exact h

theorem collStart {id k d mtab src} (h : s.Canon) : (s.collStart id k d mtab src).Canon :=
    ite (collEnd h) (ite (collCheck (foldl (fun _ _ h => collTake h) (foldl (fun _ _ h => h) h))) (foldl (fun _ _ h => h) h))

theorem engWrite {c gives ws} (h : s.Canon) : (s.engWrite c gives ws).Canon := by
  unfold State.engWrite
  refine foldl (fun _ _ h => ite (setPoison (writeLine h)) (writeLine h)) (foldl ?_ h)
  intro s x h
  split
  · exact foldl (fun _ _ h => ite h h) h
  · exact h

theorem collFinish {id k d cmask es} (h : s.Canon) : (s.collFinish id k d cmask es).Canon := by
  unfold State.collFinish
  extract_lets data ncon head
  split
  · exact collEnd h
  split
  · rename_i s1 e1
    have h1 : State.Canon s1 := of_eq2 e1 (engResolve h)
    exact collBad h1
  rename_i s1 e1
  have h1 : State.Canon s1 := of_eq2 e1 (engResolve h)
  exact collEnd (engWrite h1)

theorem collStep {id} (h : s.Canon) : (s.collStep id).Canon := by
  unfold State.collStep
  split
  · exact h
  split
  · exact h
  split
  · exact collEnd h
  split
  · exact collRead h (fun _ _ h => ite (collEnd h) (collRead h (fun _ _ h => collRead h (fun _ _ h => collStart h))))
  · exact collFinish h
  · exact h

theorem finishKnown {id} (h : s.Canon) : (s.finishKnown id).Canon := by
  unfold State.finishKnown
  split
  · exact h
  split
  · exact opFinish h
  · exact opFinish h
  · exact opFinish h
  · exact h

theorem exchEnd {id} (h : s.Canon) : (s.exchEnd id).Canon := by
  unfold State.exchEnd
  split
  · exact h
  · exact ite h (foldl (fun _ _ h => finishKnown h) h)

theorem casDemote {o} (h : s.Canon) : (s.casDemote o).Canon := by
  unfold State.casDemote
  split
  · split
    · exact h
    split
    · split
      · rename_i s1 e1
        have h1 : State.Canon s1 := of_ok e1 (demote h)
        exact h1
      · exact h
    split
    · split
      · rename_i s1 e1
        have h1 : State.Canon s1 := of_ok e1 (demote h)
        exact h1
      · exact h
    · exact h
  · exact h

theorem tinvDo {c va} (h : s.Canon) : (s.tinvDo c va).Canon := by
  unfold State.tinvDo
  split
  · exact foldl (fun _ _ h => h) h
  · exact h
  · exact h

theorem tinvPerform {id c va} (h : s.Canon) : (s.tinvPerform id c va).Canon := ite (opFinish (tinvDo h)) (of_fields (tinvDo h))

theorem perform {id o tm} (h : s.Canon) : (s.perform id o tm).Canon := by
  unfold State.perform
  split
  · split
    rename_i s1 e1
    have h1 : State.Canon s1 := of_eq e1 (doLoad h)
    split
    · exact opFinish h1
    · exact opFinish h1
    · exact h1
  · exact opFinish (performWrites h)
  · split
    rename_i s1 e1
    have h1 : State.Canon s1 := of_eq2 e1 (doAtom h)
    extract_lets s2
    have h2 : State.Canon s2 := by
      unfold s2
      split
      · exact opFinish h1
      · exact opFinish h1
      · exact h1
    exact ite (casDemote h2) h2
  · exact opFinish (cacheWork h)
  · exact opFinish (cacheWork h)
  · exact opFinish (cacheWork h)
  · exact tinvPerform h
  · exact tinvPerform h
  · exact tinvPerform h
  · exact ite h (opFinish h)
  · exact casDemote (finishKnown h)
  · exact casDemote (finishKnown h)
  · exact h
  · exact h
  · exact h
  · exact h
  · exact h

theorem copyEnd {g m err} (h : s.Canon) : (s.copyEnd g m err).Canon := by
  unfold State.copyEnd
  split
  · exact h
  split
  refine engineEnd ?_
  split <;> exact h

theorem copyBad {g m va l c core} (h : s.Canon) : (s.copyBad g m va l c core).Canon := by
  unfold State.copyBad
  split
  · rename_i s1 e1
    have h1 : State.Canon s1 := of_eq e1 (engBad h)
    exact h1
  rename_i s1 e1
  have h1 : State.Canon s1 := of_eq e1 (engBad h)
  exact copyEnd h1

theorem copyRead {g m c core a} (h : s.Canon) : (s.copyRead g m c core a).Canon := by
  unfold State.copyRead
  split
  rename_i s1 e1
  have h1 : State.Canon s1 := of_eq2 e1 (engResolve h)
  split
  · exact copyBad h1
  split
  rename_i s2 e2
  have h2 : State.Canon s2 := of_eq e2 (engReadAll h1)
  exact h2

theorem copyBytes {g m n} (h : s.Canon) : (s.copyBytes g m n).Canon := by
  unfold State.copyBytes
  split <;> exact h

theorem copyWrite {g m c core a} (h : s.Canon) : (s.copyWrite g m c core a).Canon := by
  unfold State.copyWrite
  extract_lets ps
  split
  rename_i s1 e1
  have h1 : State.Canon s1 := of_eq2 e1 (engResolve h)
  split
  · exact copyBad h1
  · exact modCmd (copyBytes (engWrite h1))

theorem copyNext {g m c} (h : s.Canon) : (s.copyNext g m c).Canon := by
  unfold State.copyNext
  extract_lets mark
  split
  · exact copyEnd h
  split
  · exact copyEnd h
  split
  · split
    · exact copyEnd (copyBytes h)
    · exact ite h (ite (copyEnd h) h)
  split
  · exact copyEnd h
  split
  · exact h
  · exact ite h (ite (copyEnd h) h)

theorem copyStep {g m c core line} (h : s.Canon) : (s.copyStep g m c core line).Canon := by
  unfold State.copyStep
  split
  · exact copyEnd h
  split
  · exact ite (copyRead h) h
  · exact copyWrite h
  · exact ite (copyNext h) h

theorem modStream {g f} (h : s.Canon) : (s.modStream g f).Canon := h

theorem blockEnd {g st out err derr last next} (h : s.Canon) : (s.blockEnd g st out err derr last next).Canon := by
  unfold State.blockEnd
  extract_lets slot s1 s2 s3 st2
  have h3 : s3.Canon := modGroup (modGroup (scrSet h))
  clear_value s3
  exact ite (streamEnd h3) (modStream h3)

theorem dczRead {g st c core va n k} (h : s.Canon) (hk : ∀ a1 u, u.Canon → (k a1 u).Canon) : (s.dczRead g st c core va n
    k).Canon := by
  unfold State.dczRead
  split
  rename_i s1 e1
  have h1 : State.Canon s1 := of_eq2 e1 (engResolve h)
  split
  · exact hk _ _ (engReadAll h1)
  split
  · rename_i s2 e2
    have h2 : State.Canon s2 := of_eq e2 (engBad h1)
    exact h2
  rename_i s2 e2
  have h2 : State.Canon s2 := of_eq e2 (engBad h1)
  exact blockEnd h2

theorem dczBlock {g st c core} (h : s.Canon) : (s.dczBlock g st c core).Canon := by
  unfold State.dczBlock
  split
  · exact blockEnd h
  refine dczRead h ?_
  intro x s h
  split
  · exact blockEnd h
  extract_lets h2
  split
  · exact blockEnd h
  refine dczRead h ?_
  intro x s h
  split
  · exact blockEnd h
  · split <;> exact blockEnd h

theorem askAgain {core} (h : s.Canon) : (s.askAgain core).Canon := by
  unfold State.askAgain
  refine foldl ?_ h
  intro s x h
  split
  · split
    · split <;> exact h
    · exact h
  · exact h

theorem setErr {u c} (h : s.Canon) : (s.setErr u c).Canon := h

theorem recordUnit {u kind data} (h : s.Canon) : (s.recordUnit u kind data).Canon := by
  unfold State.recordUnit
  split <;> exact h

theorem modStack {n f} (h : s.Canon) : (s.modStack n f).Canon := h
theorem coreCd {n f} (h : s.Canon) : (s.coreCd n f).Canon := h

theorem markLasting {u} (h : s.Canon) : (s.markLasting u).Canon := by
  unfold State.markLasting
  split
  · exact h
  extract_lets n s1 s2
  have h2 : s2.Canon := recordUnit (setErr h)
  clear_value s2
  split
  · extract_lets c
    split
    · split
      · rename_i s3 _ _ _
        have h3 : s3.Canon := modStack h2
        clear_value s3
        split
        · exact coreCd h3
        · exact h3
      · exact h2
    · exact ite (coreCd (modStack h2)) h2
  · exact h2

theorem lastingCheck {u} (h : s.Canon) : (s.lastingCheck u).Canon := ite (markLasting h) h
theorem countError {u} (h : s.Canon) : (s.countError u).Canon := lastingCheck h
theorem countMismatch {core c} (h : s.Canon) : (s.countMismatch core c).Canon := countError (recordUnit h)
theorem retireCol {core c} (h : s.Canon) : (s.retireCol core c).Canon := recordUnit h

theorem mismatch {core c g5 k} (h : s.Canon) : (s.mismatch core c g5 k).2.Canon := by
  induction k generalizing s with
  | zero =>
    unfold State.mismatch
    extract_lets s1
    have h1 : s1.Canon := countMismatch h
    clear_value s1
    split
    · exact pair h1
    split
    · exact pair h1
    · exact pair (ite (retireCol h1) h1)
  | succ k ih =>
    unfold State.mismatch
    extract_lets s1
    have h1 : s1.Canon := countMismatch h
    clear_value s1
    split
    · exact pair h1
    split
    · exact pair h1
    split
    · exact ih (retireCol h1)
    · exact pair (ite (countMismatch h1) (countMismatch (countMismatch h1)))

theorem mismatches {core g5 ms} (h : s.Canon) : (s.mismatches core g5 ms).2.Canon := by
  induction ms generalizing s with
  | nil => exact h
  | cons m ms ih =>
    obtain ⟨c, more⟩ := m
    unfold State.mismatches
    split
    · next e => exact pair (of_eq e (mismatch h))
    · next e => exact ih (of_eq e (mismatch h))

theorem ctxError {c} (h : s.Canon) : (s.ctxError c).Canon := ite h h
theorem mxUnitFail {core} (h : s.Canon) : (s.mxUnitFail core).Canon :=
    relCheck (foldl (fun _ _ h => ctxError h) (markLasting (foldl (fun _ _ h => mxFail h) (modMx (recordUnit h)))))
theorem mxPop {core} (h : s.Canon) : (s.mxPop core).Canon := h

theorem teamRead {c k} (h : s.Canon) : (s.teamRead c k).2.Canon := by
  unfold State.teamRead
  split
  · extract_lets s1 s2
    split
    rename_i s3 e1
    have h1 : State.Canon s3 := of_eq e1 (engRead (cacheRead (ite (replayLine h) h)))
    extract_lets bs inH
    split <;> exact h1
  · exact engRead h

theorem fetchBlock {ctx core ty c} (h : s.Canon) : (s.fetchBlock ctx core ty c).2.Canon := by
  unfold State.fetchBlock
  split
  · exact pair h
  extract_lets need
  split
  · exact pair h
  split
  · next e =>
    have h1 := of_eq2 e (engResolve h)
    split
    · next e' => exact pair (of_eq e' (engBad h1))
    · next e' => exact pair (of_eq e' (engBad h1))
  · next e =>
    have h1 := of_eq2 e (engResolve h)
    split
    · exact pair h1
    split
    · exact pair h1
    split
    next e' =>
    have h2 := of_eq e' (foldlSnd (fun a n ha => pair (teamRead ha)) h1)
    split
    · exact pair h2
    · exact pair h2

theorem checkRows {core n rows} (h : s.Canon) : (s.checkRows core n rows).Canon :=
    foldl (fun _ _ h => countError (recordUnit h)) h
theorem setTiles {core n ts} (h : s.Canon) : (s.setTiles core n ts).Canon := h

theorem mmaRun {core c ty g d a b tA tB} (h : s.Canon) : (s.mmaRun core c ty g d a b tA tB).Canon := by
  unfold State.mmaRun
  extract_lets nOf x dest s1 s2 m ins out
  have h1 : State.Canon s2 := by
    unfold s2
    split
    · exact foldl (fun _ _ h => checkRows h) (foldl (fun _ _ h => checkRows h) h)
    · exact foldl (fun _ _ h => checkRows h) h
  split <;> exact mxPop (mxEnd h1)

theorem runMma {core ctx c bad ty g d a b tA tB} (h : s.Canon) : (s.runMma core ctx c bad ty g d a b tA tB).Canon := by
  unfold State.runMma
  split
  · rename_i s1 e1
    have h1 : State.Canon s1 := of_eq e1 (mismatches h)
    exact mxUnitFail h1
  rename_i s1 e1
  have h1 : State.Canon s1 := of_eq e1 (mismatches h)
  extract_lets c2 kA kB
  split
  · exact mxPop (mxFail h1)
  split
  · split
    · rename_i s2 e2
      have h2 : State.Canon s2 := of_eq e2 (fetchBlock h1)
      exact h2
    · rename_i s2 e2
      have h2 : State.Canon s2 := of_eq e2 (fetchBlock h1)
      exact mxPop (mxFail h2)
    rename_i s2 e2
    have h2 : State.Canon s2 := of_eq e2 (fetchBlock h1)
    exact h2
  · exact mmaRun h1

theorem runMrd {core c ty r d a n} (h : s.Canon) : (s.runMrd core c ty r d a n).Canon := by
  unfold State.runMrd
  extract_lets s1 t
  split
  · exact mxPop (mxEnd (checkRows h))
  split
  · exact mxPop (checkRows h)
  · exact mxPop (mxEnd (modTeam (checkRows h)))

theorem runMwr {core c ty d n} (h : s.Canon) : (s.runMwr core c ty d n).Canon := mxPop (mxEnd h)

theorem runMst {core c ty r a} (h : s.Canon) : (s.runMst core c ty r a).Canon := by
  unfold State.runMst
  extract_lets d s1
  split
  · exact mxPop (foldl (fun _ _ h => checkRows h) h)
  · split <;> exact mxPop (mstGo (foldl (fun _ _ h => checkRows h) h))

theorem runMstat {core c d sel} (h : s.Canon) : (s.runMstat core c d sel).Canon := mxPop (mxEnd h)
theorem sessionHalt {n sub} (h : s.Canon) : (s.sessionHalt n sub).Canon := ite (addHalter h) h
theorem peerRefuse {n sub} (h : s.Canon) : (s.peerRefuse n sub).Canon := sessionHalt h
theorem rimTook {n len} (h : s.Canon) : (s.rimTook n len).Canon := h
theorem fetchImage {c l y} (h : s.Canon) : (s.fetchImage c l y).Canon := ite (ite (layerFail h) h) (ite (layerFail h) h)

/-- The end of `State.swapEnd` with the layer, the frames that it takes and the check of its pages as variables, so that the kernel
need not compute them. -/
theorem swapIn {o : Option Layer} {r : SwapReq} {take : State → Nat → List Nat → Option (List Nat)}
    {bare : State → Nat → Nat → Layer → Bool} (h : s.Canon) :
    (match o with
      | none => s
      | some y =>
        match take s y.np s.framesUsed with
        | none => { s with swaps := s.swaps ++ [r] }
        | some fs =>
          let s := s.modLayer r.ctx r.layer (fun y => { y with frames := fs, rtry := 0 })
          if bare s r.ctx r.layer y then s.layerFail r.ctx r.layer 5
          else s.fetchImage r.ctx r.layer { y with frames := fs }).Canon := by
  split
  · exact h
  split
  · exact h
  · exact ite (layerFail (modLayer h)) (fetchImage (modLayer h))

theorem swapEnd (h : s.Canon) : s.swapEnd.Canon := by
  unfold State.swapEnd
  split
  · exact h
  split
  · exact h
  extract_lets s1
  have h1 : s1.Canon := h
  clear_value s1
  split
  · exact h1
  · exact swapIn h1

theorem unqueue {r} (h : s.Canon) : (s.unqueue r).Canon := h
theorem setPte {a p} (h : s.Canon) : (s.setPte a p).Canon := hubWrite h
theorem dropLayer {c y} (h : s.Canon) : (s.dropLayer c y).Canon := foldl (fun _ _ h => h) h

theorem evict {c l} (h : s.Canon) : (s.evict c l).Canon := by
  unfold State.evict
  split
  · exact h
  refine modLayer (dropLayer (foldl ?_ h))
  intro s x h
  split
  · exact setPte h
  · exact h

/-- The value at the tail of a list that a structural recursion hands down is canonical. -/
def headCanon {α : Type} : (l : List α) → List.below (motive := fun _ => State) l → Prop
  | [], _ => True
  | _ :: _, b => b.1.Canon

theorem listBrec {α : Type} {F : (l : List α) → List.below (motive := fun _ => State) l → State}
    (hF : ∀ l b, headCanon l b → (F l b).Canon) (l : List α) :
    (List.brecOn (motive := fun _ => State) l F).Canon := by
  induction l with
  | nil => exact hF _ _ trivial
  | cons r rs ih => exact hF _ _ ih

theorem swapStart_f {l b} (h : s.Canon) (hb : headCanon l b) : (State.swapStart._f s l b).Canon := by
  delta State.swapStart._f
  revert hb
  split
  · exact fun _ => h
  intro hb
  split
  · exact unqueue h
  extract_lets total
  split
  · exact layerFail (unqueue h)
  split
  · exact ite hb (modLayer (unqueue h))
  · exact swapEnd (of_fields (unqueue (foldl (fun _ _ h => evict h) h)))

theorem swapStart {rs} (h : s.Canon) : (s.swapStart rs).Canon := by
  delta State.swapStart
  exact listBrec (fun _ _ hb => swapStart_f h hb) rs

theorem layerResident {c l y} (h : s.Canon) : (s.layerResident c l y).Canon := by
  unfold State.layerResident
  refine bindEnd (of_fields (modLayer (dropLayer (foldl ?_ h))))
  intro s x h
  split
  split
  · exact setPte h
  · exact h

theorem layerArrive {c l} (h : s.Canon) : (s.layerArrive c l).Canon := by
  unfold State.layerArrive
  split
  · exact h
  · exact ite h (ite (layerFail h) (ite (layerResident (ite (writeImage h) (writeImage h))) (ite (fetchImage (modLayer (ite
    (writeImage h) (writeImage h)))) (layerFail (ite (writeImage h) (writeImage h))))))

theorem layerTag {c l} (h : s.Canon) : (s.layerTag c l).Canon := by
  unfold State.layerTag
  split
  · exact h
  · exact ite h (ite (fetchImage h) (layerFail h))

theorem residencyWrite {ctx layer val} (h : s.Canon) : (s.residencyWrite ctx layer val).Canon := h

theorem dropModel {c} (h : s.Canon) : (s.dropModel c).Canon := by
  unfold State.dropModel
  split
  · exact h
  refine of_fields (foldl ?_ h)
  intro s x h
  split <;> exact evict (ite h h)

theorem setMdesc {c v err pa} (h : s.Canon) : (s.setMdesc c v err pa).Canon := h

theorem mdescWrite {c val} (h : s.Canon) : (s.mdescWrite c val).Canon := by
  unfold State.mdescWrite
  extract_lets pa old
  split
  · exact h
  split
  · exact h
  split
  · exact setMdesc (dropModel h)
  split
  · exact setMdesc (touch (dropModel h))
  · exact ite (setMdesc (touch (touch (dropModel h)))) (setMdesc (of_fields (touch (touch (dropModel h)))))

theorem discardCopies {g} (h : s.Canon) : (s.discardCopies g).Canon := by
  unfold State.discardCopies
  split
  · exact h
  · exact foldl (fun _ _ h => copyEnd h) h

theorem discardStreams {g} (h : s.Canon) : (s.discardStreams g).Canon := by
  unfold State.discardStreams
  split
  · exact h
  · exact foldl (fun _ _ h => streamEnd h) h

theorem queueCheck {q} (h : s.Canon) : (s.queueCheck q).Canon := ite h (ite (queueHalt h) (ite (queueHalt h) h))
theorem queueResume {q} (h : s.Canon) : (s.queueResume q).Canon := queueCheck h

theorem answerHalter {h' release} (h : s.Canon) : (s.answerHalter h' release).Canon := by
  unfold State.answerHalter
  extract_lets s1
  split
  · exact ite h (discardTeam h)
  · exact modGroup (ite h (discardCopies h))
  · exact modGroup (ite h (discardStreams h))
  · exact ite (queueResume h) h
  · exact h

theorem hresp {hid release} (h : s.Canon) : (s.hresp hid release).Canon := by
  unfold State.hresp
  split
  · exact ite h (ite h (answerHalter h))
  · exact h

theorem declineAll {c page} (h : s.Canon) : (s.declineAll c page).Canon := by
  unfold State.declineAll
  extract_lets s1 s2 s3
  have h1 : s1.Canon := of_fields h
  clear_value s1
  have h2 : s2.Canon := by
    refine foldl ?_ h1
    intro u p hu
    split
    · exact ite (haltTeam hu) hu
    · exact hu
  clear_value s2
  have h3 : s3.Canon := foldl (fun _ _ h => foldl (fun _ _ h => sideDrop h) h) h2
  clear_value s3
  refine foldl ?_ h3
  intro u l hu
  split
  · split
    · exact ite (queueHalt (of_fields hu)) hu
    · exact hu
  · exact hu

theorem faultEnd {c va decline} (h : s.Canon) : (s.faultEnd c va decline).Canon := by
  unfold State.faultEnd
  split
  · exact h
  · exact ite (declineAll h) h

theorem hltClear {q} (h : s.Canon) : (s.hltClear q).Canon := ite (queueResume h) h

theorem packetAt {q} (h : s.Canon) : (s.packetAt q).2.Canon := by
  unfold State.packetAt
  extract_lets u
  split
  · exact h
  · exact hubRead h

theorem pollSlot {q} (h : s.Canon) : (s.pollSlot q).Canon := by
  unfold State.pollSlot
  split
  · exact h
  split
  · rename_i s1 e1
    have h1 : State.Canon s1 := of_eq e1 (packetAt h)
    exact h1
  · rename_i s1 e1
    have h1 : State.Canon s1 := of_eq e1 (packetAt h)
    exact ite h1 h1
  rename_i s1 e1
  have h1 : State.Canon s1 := of_eq e1 (packetAt h)
  exact queueHalt h1

theorem keepPacket {c q bs} (h : s.Canon) : (s.keepPacket c q bs).Canon := ite h (ite h h)

theorem packetStart {q want} (h : s.Canon) : (s.packetStart q want).Canon := by
  unfold State.packetStart
  extract_lets s1
  split
  · exact pollSlot h
  · exact ite (pollSlot h) (waitStep (liveStep (keepPacket (of_fields (modQueue (pollSlot h))))))

theorem restNext (h : s.Canon) : ∀ r ∈ s.restNext, r.2.Canon := by
  intro r hr
  obtain ⟨l, _, rfl⟩ := Option.map_eq_some_iff.mp hr
  exact pair (placeRestOf h)

theorem nextPlacement (h : s.Canon) : ∀ r ∈ s.nextPlacement, r.2.Canon := by
  unfold State.nextPlacement
  intro r hr
  cases e : s.restNext with
  | some q =>
    rw [e] at hr
    cases hr
    exact restNext h _ e
  | none =>
    rw [e] at hr
    obtain ⟨l, _, hl⟩ := List.exists_of_findSome?_eq_some hr
    obtain ⟨u, hu, rfl⟩ := Option.map_eq_some_iff.mp hl
    exact pair (placeNext h u hu)

theorem ckptEnd {c} (h : s.Canon) : (s.ckptEnd c).Canon := by
  unfold State.ckptEnd
  refine foldl ?_ h
  intro s x h
  refine foldl ?_ h
  intro s x h
  split
  · exact endStep h
  · exact h

theorem setUndo {c u} (h : s.Canon) : (s.setUndo c u).Canon := h
theorem openInterval {c} (h : s.Canon) : (s.openInterval c).Canon := h
theorem undoStruck {c h'} (h : s.Canon) : (s.undoStruck c h').Canon := ite (ctxError (setUndo (ite (recordUnit h) h))) h

theorem lineStruck {line} (h : s.Canon) : (s.lineStruck line).Canon := by
  unfold State.lineStruck
  split
  · exact ite (setPoison (recordUnit h)) h
  · exact ite (setPoison (recordUnit h)) h
  · exact ite (setPoison (recordUnit h)) h
  · exact h

theorem replicaStruck {n line} (h : s.Canon) : (s.replicaStruck n line).Canon := ite (of_fields (recordUnit h)) h

theorem corrupt {c site} (h : s.Canon) : (s.corrupt c site).Canon := by
  unfold State.corrupt
  extract_lets s1
  split <;> exact h

theorem dropLines {c} (h : s.Canon) : (s.dropLines c).Canon := h

theorem restoreLine {c l} (h : s.Canon) : (s.restoreLine c l).Canon := by
  unfold State.restoreLine
  extract_lets s1 keys
  have h1 : s1.Canon := cacheWrite (recSet h)
  clear_value s1
  exact setPoison (of_fields (cellsSet_wf h1 _ _))

theorem settleTeam {t'} (h : s.Canon) : (s.settleTeam t').Canon := modTeam (drain h)
theorem flushAnswers (h : s.Canon) : s.flushAnswers.Canon := foldl (fun _ _ h => hresp h) h

theorem takeover {n} (h : s.Canon) : (s.takeover n).Canon := by
  unfold State.takeover
  split
  · exact h
  · exact flushAnswers (recordUnit (modCore (coreCd (modMx (modStack (foldl (fun _ _ h => settleTeam h) h))))))

theorem rollback {c} (h : s.Canon) : (s.rollback c).Canon := by
  unfold State.rollback
  extract_lets u s1
  split
  · refine record (setUndo (foldl ?_ (foldl (fun _ _ h => takeover h) (dropLines (foldl (fun _ _ h => restoreLine h) h)))))
    intro s x h
    split <;> exact h
  · exact record (setUndo (foldl (fun _ _ h => h) h))

theorem bankStart {n w} (h : s.Canon) : (s.bankStart n w).Canon := h
theorem bankEnd {n err} (h : s.Canon) : (s.bankEnd n err).Canon := h
theorem exchangeBanks {n} (h : s.Canon) : (s.exchangeBanks n).Canon :=
    bankEnd (modCore (modMx (of_fields (foldl (fun _ _ h => drain h) h))))
theorem sealArea {area} (h : s.Canon) : (s.sealArea area).Canon := h
theorem spillDo {n} (h : s.Canon) : (s.spillDo n).Canon := modCore (sealArea (of_fields (foldl (fun _ _ h => settleTeam h) h)))
theorem fillDo {n gs} (h : s.Canon) : (s.fillDo n gs).Canon := h
theorem imageLost {n gs} (h : s.Canon) : (s.imageLost n gs).Canon := of_fields (modCore (foldl (fun _ _ h => ctxError h) h))
theorem mxcfgWrite {n val} (h : s.Canon) : (s.mxcfgWrite n val).Canon := ite (ite h h) h
theorem injLeave {n} (h : s.Canon) : (s.injLeave n).Canon := ite h h

theorem sessionDrop {n cause} (h : s.Canon) : (s.sessionDrop n cause).Canon := by
  unfold State.sessionDrop
  refine foldl ?_ (foldl (fun _ _ h => collEnd h) h)
  intro s x h
  split
  · exact layerFail h
  · exact h

theorem sessionFail {n tag} (h : s.Canon) : (s.sessionFail n tag).Canon := injLeave (modSession (sessionDrop h))

theorem inject {n bs} (h : s.Canon) : (s.inject n bs).2.Canon := by
  unfold State.inject
  split
  · extract_lets k next
    split
    · exact pair (of_fields (w1cSet h))
    · exact pair (of_fields h)
  · exact pair h

theorem peerWrite {ks bs} (h : s.Canon) : (s.peerWrite ks bs).Canon := foldl (fun _ _ h => writeLine h) h
theorem injWrite {v} (h : s.Canon) : (s.injWrite v).Canon := of_fields h
theorem sesWrite {n v} (h : s.Canon) : (s.sesWrite n v).Canon :=
    ite h (ite (ite (modSession (ite h h)) (ite h h)) (ite (ite h h) (injLeave (modSession (sessionDrop (ite h h))))))
theorem hubDrop {line} (h : s.Canon) : (s.hubDrop line).Canon := h

theorem hostCached {pa} (h : s.Canon) : (s.hostCached pa).Canon := by
  unfold State.hostCached
  split <;> exact h

theorem hostLines {pa bs k} (h : s.Canon) : (s.hostLines pa bs k).Canon := by
  induction k generalizing s pa bs with
  | zero => exact h
  | succ k ih =>
    unfold State.hostLines
    split
    · exact h
    · exact ih (ite (hostCached (writeLine h)) h)

theorem unreach (h : s.Canon) : s.unreach.Canon := foldl (fun _ _ h => foldl (fun _ _ h => ite (layerFail h) h) h) h
theorem endPending (h : s.Canon) : s.endPending.Canon := unreach h
theorem sign (h : s.Canon) : s.sign.Canon := ite h h
theorem bootRecords {cold fwOk} (h : s.Canon) : (s.bootRecords cold fwOk).Canon := ite h h

theorem vrstSet {n} (h : s.Canon) : (s.vrstSet n).Canon := by
  unfold State.vrstSet
  extract_lets s1
  have h1 : s1.Canon := foldl (fun _ _ h => ite (takeover h) h) h
  clear_value s1
  split
  · exact h1
  split
  · exact modStack (w1cSet h1)
  · exact of_fields (modStack h1)

theorem fqWrite {v} (h : s.Canon) : (s.fqWrite v).Canon := ite (flushFaults h) (foldl (fun _ _ h => declineAll h) h)

theorem frespWrite {v} (h : s.Canon) : (s.frespWrite v).Canon := by
  unfold State.frespWrite
  extract_lets n
  split
  · exact faultEnd h
  · exact faultEnd h
  · exact h

theorem hqWrite {v} (h : s.Canon) : (s.hqWrite v).Canon := ite (flushHalters h) (foldl (fun _ _ h => hresp h) h)

theorem hrespWrite {v} (h : s.Canon) : (s.hrespWrite v).Canon := by
  unfold State.hrespWrite
  extract_lets n
  split
  · exact hresp h
  · exact hresp h
  · exact h

theorem errWrite {v} (h : s.Canon) : (s.errWrite v).Canon := by
  unfold State.errWrite
  extract_lets n r s1
  have h1 : s1.Canon := of_fields h
  clear_value s1
  exact foldl (fun _ _ h => lastingCheck h) h1

theorem pwrWrite {v} (h : s.Canon) : (s.pwrWrite v).Canon := of_fields h

theorem brWrite {v} (h : s.Canon) : (s.brWrite v).Canon := by
  unfold State.brWrite
  split
  · exact h
  · extract_lets s1
    have h1 : s1.Canon := of_fields h
    clear_value s1
    exact ite (of_fields (cells_filter_wf h1 (fun a => !inCarve s1.carve a))) h1

theorem ptWrite {c v} (h : s.Canon) : (s.ptWrite c v).Canon := ite h (foldl (fun _ _ h => queueCheck h) h)
theorem rbWrite {c v} (h : s.Canon) : (s.rbWrite c v).Canon := ite (ite h h) (ite h h)
theorem qcfgWrite {q v} (h : s.Canon) : (s.qcfgWrite q v).Canon := queueCheck (ite h h)
theorem qptrWrite {q v} (h : s.Canon) : (s.qptrWrite q v).Canon := queueCheck h
theorem qstatWrite {q v} (h : s.Canon) : (s.qstatWrite q v).Canon := ite (hltClear h) h
theorem rpWrite {n v} (h : s.Canon) : (s.rpWrite n v).Canon := ite h h
theorem stkWrite {n v} (h : s.Canon) : (s.stkWrite n v).Canon := ite (vrstSet (ite h h)) (modStack (ite h h))
theorem sbWrite {n v} (h : s.Canon) : (s.sbWrite n v).Canon := ite h (ite h (ite h (ite h h)))

theorem regWrite {r v} (h : s.Canon) : (s.regWrite r v).Canon := by
  unfold State.regWrite
  split
  · exact fqWrite h
  · exact frespWrite h
  · exact hqWrite h
  · exact hrespWrite h
  · exact errWrite h
  · exact pwrWrite h
  · exact brWrite h
  · exact h
  · exact injWrite h
  · exact ptWrite h
  · exact h
  · exact mdescWrite h
  · exact h
  · exact rbWrite h
  · exact qcfgWrite h
  · exact qptrWrite h
  · exact qstatWrite h
  · exact h
  · exact ite (rpWrite h) h
  · exact ite h h
  · exact ite (stkWrite h) h
  · exact sesWrite h
  · exact h
  · exact h
  · exact mxcfgWrite h
  · exact ite (sbWrite h) h
  · exact h

theorem cfgWrite {off v} (h : s.Canon) : (s.cfgWrite off v).Canon := by
  unfold State.cfgWrite
  split
  · exact regWrite h
  · exact h

/-! ### Instructions and events whose own text is more than one call -/

theorem execBra {h' disp} (h : s.Canon) : NextCanon (execBra h' disp s) :=
    answer (issue h (fun _ _ h => branch h (fun _ h => iteRes (fall h) (iteRes (jump h) (iteRes (fall h) (openJoin h (fun _ =>
      iteRes (move h (tookBranch (of_fields (modTeam h)))) (iteRes h (move h (tookBranch (modTeam h)))))))))))

theorem execBrx {h' a} (h : s.Canon) : NextCanon (execBrx h' a s) := by
  unfold Machine.execBrx
  refine answer (issue h fun x s h => branch h fun s h => ?_)
  extract_lets dst gs
  clear_value gs
  split
  · exact ofTrap h
  split
  · exact fall h
  · exact jump h
  · exact openJoin h fun _ => iteRes (ofTrap h) (move h (tookBranch (modTeam h)))

theorem execRet {h'} (h : s.Canon) : NextCanon (execRet h' s) := answer (issue h (fun _ _ h => transfer h))

theorem execExit {h'} (h : s.Canon) : NextCanon (execExit h' s) :=
    answer (issue h (fun _ _ h => iteRes h (iteRes (ofTrap (modTeam h)) (iteRes (handlerReturn h) (iteRes (ofIssue (modTeam h))
      (move h (walkStack (modTeam h))))))))

theorem execRcv {h' disp} (h : s.Canon) : NextCanon (execRcv h' disp s) := instr (fun _ _ h => iteRes h (ofIssue (modTeam h))) h
theorem execRjoin {h'} (h : s.Canon) : NextCanon (execRjoin h' s) := answer (issue h (fun _ _ h => join h))
theorem execRjoinTo {h' d a} (h : s.Canon) : NextCanon (execRjoinTo h' d a s) := answer (issue h (fun _ _ h => join h))

theorem execYield {h' a n disp} (h : s.Canon) : NextCanon (execYield h' a n disp s) := by
  unfold Machine.execYield
  refine instr (fun x s h => ?_) h
  extract_lets done go
  have hdone : ∀ u : State, u.Canon → (done u).state.Canon := fun _ hu => ofMoved (modTeam hu)
  have hgo : ∀ ws, (go ws).state.Canon := by
    intro ws
    unfold go
    extract_lets cs
    clear_value done
    split
    · exact satisfied h hdone
    split
    · next e => exact ofTrap (of_eq e (evalBlock h))
    · next e =>
      have h1 := of_eq e (evalBlock h)
      exact iteRes (satisfied h1 hdone) (hold h1)
  clear_value go
  split
  · exact hgo _
  · exact withBlock h fun _ _ => hgo _

theorem execKwait {h' k thr normal} (h : s.Canon) : NextCanon (execKwait h' k thr normal s) := by
  unfold Machine.execKwait
  refine instr ?_ h
  intro x s h
  extract_lets b
  split
  · exact h
  · exact hold h
  · exact h
  · exact h

theorem execBarInit {h' a b} (h : s.Canon) : NextCanon (execBarInit h' a b s) := by
  unfold Machine.execBarInit
  refine answer (issue h ?_)
  intro x s h
  extract_lets n c
  split
  · exact iteRes (badField h) (ofIssue (modGroup h))
  · exact badField h

theorem execBarArv {h' scope a wait} (h : s.Canon) : NextCanon (execBarArv h' scope a wait s) := by
  unfold Machine.execBarArv
  refine answer (issue h ?_)
  intro x s h
  extract_lets n r sc after
  split
  · exact iteRes (hold h) (iteRes (acquiring h (fun _ h => h)) h)
  split
  · exact h
  split
  · exact badField h
  refine releasing h ?_
  intro s h
  extract_lets s1
  split <;> exact iteRes (hold (barArrive (unspin h))) (ofIssue (barArrive (unspin h)))

theorem execBarExp {h' a b} (h : s.Canon) : NextCanon (execBarExp h' a b s) := by
  unfold Machine.execBarExp
  refine answer (issue h ?_)
  intro x s h
  extract_lets n c
  split
  · exact iteRes (badField h) (ofIssue (modGroup h))
  · exact badField h

theorem execBarRd {h' d a sel} (h : s.Canon) : NextCanon (execBarRd h' d a sel s) := by
  unfold Machine.execBarRd
  refine instr ?_ h
  intro x s h
  extract_lets n out
  split
  · split
    · exact iteRes h h
    · exact badField h
  · split
    · exact iteRes h h
    · exact badField h
  · exact badField h

theorem execTlRd {h' d a sel} (h : s.Canon) : NextCanon (execTlRd h' d a sel s) := by
  unfold Machine.execTlRd
  refine instr ?_ h
  intro x s h
  extract_lets n
  split
  · exact iteRes (badField h) h
  · exact badField h

theorem execTlSig {h' scope a b add} (h : s.Canon) : NextCanon (execTlSig h' scope a b add s) :=
    answer (issue h (fun _ _ h => iteRes (badField h) (releasing h (fun _ h => ofIssue (modGroup (unspin h))))))

theorem execFence {h' scope ord} (h : s.Canon) : NextCanon (execFence h' scope ord s) :=
    instr (fun _ _ h => iteRes (iteRes h (acquiring h (fun _ h => h))) (releasing h (fun _ h => iteRes h (acquiring h (fun _ h
      => h))))) h

theorem execVote {h' m d a} (h : s.Canon) : NextCanon (execVote h' m d a s) := by
  unfold Machine.execVote
  refine instr ?_ h
  intro x s h
  extract_lets p
  split
  · split <;> exact h
  · exact h

theorem execWred {h' ty op r d a} (h : s.Canon) : NextCanon (execWred h' ty op r d a s) := by
  unfold Machine.execWred
  refine instr ?_ h
  intro x s h
  extract_lets l0
  split <;> exact ofFixed (modTeam h)

theorem execBchk {h' ty a} (h : s.Canon) : NextCanon (execBchk h' ty a s) := instr (fun _ _ h => iteRes h (ofStop (breach h))) h
theorem execBudgSet {h' a} (h : s.Canon) : NextCanon (execBudgSet h' a s) := instr (fun _ _ h => ofIssue (modTeam h)) h

theorem execTaskB {h'} (h : s.Canon) : NextCanon (execTaskB h' s) :=
    instr (fun _ _ h => iteRes (taskop h) (iteRes (taskop h) (iteRes (taskop h) (iteRes (stackErr h) (iteRes (hold h) (ofIssue
      (modTeam h))))))) h

theorem execTaskE {h'} (h : s.Canon) : NextCanon (execTaskE h' s) := by
  unfold Machine.execTaskE
  refine instr ?_ h
  intro x s h
  split
  · exact taskop h
  split
  · exact taskop h
  split
  · exact hold h
  split
  · exact ofStop (breach h)
  · exact ofIssue (modTeam (commit h))

theorem execTaskX {h' retry} (h : s.Canon) : NextCanon (execTaskX h' retry s) :=
    instr (fun _ _ h => iteRes (taskop h) (iteRes (taskop h) (iteRes (ofStop (breach h)) (ofIssue (modTeam h))))) h

theorem execStm {h' n d a b off} (h : s.Canon) : NextCanon (execStm h' n d a b off s) := by
  unfold Machine.execStm
  refine instr ?_ h
  intro x s h
  split
  · exact store h
  · exact storeNew h

theorem execStc {h' ty d a b off} (h : s.Canon) : NextCanon (execStc h' ty d a b off s) := by
  unfold Machine.execStc
  refine instr ?_ h
  intro x s h
  split
  · exact stUnit h
  · exact stUnit h
  · exact st_ h

theorem execDcz {h' d a} (h : s.Canon) : NextCanon (execDcz h' d a s) := by
  unfold Machine.execDcz
  refine answer (issue h ?_)
  intro x s h
  extract_lets r v
  split
  · exact hold h
  · exact iteRes (badField h) (iteRes h (iteRes h (iteRes h (iteRes h (iteRes (hold h) (ofToken (modGroup h)))))))

theorem execMtd {h' d a b} (h : s.Canon) : NextCanon (execMtd h' d a b s) := by
  unfold Machine.execMtd
  refine matrixInstr ?_ h
  intro x s h
  split
  · exact submit h
  · exact iteRes (mBad h) (iteRes h (iteRes h (submit (setDesc h))))

theorem execMsd {h' d a en} (h : s.Canon) : NextCanon (execMsd h' d a en s) := by
  unfold Machine.execMsd
  refine matrixInstr ?_ h
  intro x s h
  split
  · exact submit h
  · exact iteRes h (submit (setDesc h))

theorem execMma {h' ty g d a b tA tB} (h : s.Canon) : NextCanon (execMma h' ty g d a b tA tB s) := by
  unfold Machine.execMma
  refine matrixInstr ?_ h
  intro x s h
  split
  · exact submit h
  split
  split
  split
  · exact mBad h
  · exact mBad h
  · exact iteRes (mBad h) (iteRes (mBad h) (submit h))

theorem execMz {h' mask rel} (h : s.Canon) : NextCanon (execMz h' mask rel s) := by
  unfold Machine.execMz
  refine matrixInstr ?_ h
  intro x s h
  split <;> exact submit h

theorem execMrd {h' ty r d a b nm1} (h : s.Canon) : NextCanon (execMrd h' ty r d a b nm1 s) := by
  unfold Machine.execMrd
  refine matrixInstr ?_ h
  intro x s h
  extract_lets keys
  split <;> exact submit h

theorem execMwr {h' ty d a b nm1} (h : s.Canon) : NextCanon (execMwr h' ty d a b nm1 s) := by
  unfold Machine.execMwr
  refine matrixInstr ?_ h
  intro x s h
  split <;> exact submit h

theorem execMst {h' ty r d a} (h : s.Canon) : NextCanon (execMst h' ty r d a s) := by
  unfold Machine.execMst
  refine matrixInstr ?_ h
  intro x s h
  extract_lets store
  split
  · exact iteRes (submit h) (iteRes (hold h) (iteRes (iteRes (ofStop (breach h)) (storeAs (unspin (modTeam h)))) (iteRes h
    (storeAs h))))
  split
  · exact mBad h
  split
  · exact mBad h
  split
  · exact mBad h
  split
  · exact h
  · exact submit h

theorem execMstat {h' d sel b} (h : s.Canon) : NextCanon (execMstat h' d sel b s) := by
  unfold Machine.execMstat
  refine matrixInstr ?_ h
  intro x s h
  extract_lets keys
  split <;> exact submit h

theorem execLbind {h' a b rty} (h : s.Canon) : NextCanon (execLbind h' a b rty s) := by
  unfold Machine.execLbind
  refine answer (issue h ?_)
  intro x s h
  split
  · exact bind h
  split
  · exact badField h
  · exact bind h

theorem execLrel {h' a b} (h : s.Canon) : NextCanon (execLrel h' a b s) := by
  unfold Machine.execLrel
  refine answer (issue h ?_)
  intro x s h
  split
  · exact badField h
  · exact ofToken (modLayer h)

theorem execLhint {h' a b nm1} (h : s.Canon) : NextCanon (execLhint h' a b nm1 s) := by
  unfold Machine.execLhint
  refine instr ?_ h
  intro x s h
  split
  · exact badField h
  · exact ofToken (hints h)

theorem execLstat {h' d a b} (h : s.Canon) : NextCanon (execLstat h' d a b s) := by
  unfold Machine.execLstat
  refine instr ?_ h
  intro x s h
  split
  · exact badField h
  · exact h

theorem execTxch {h' d a b nm1} (h : s.Canon) : NextCanon (execTxch h' d a b nm1 s) := by
  unfold Machine.execTxch
  refine answer (issue h ?_)
  intro x s h
  extract_lets cap pair t tmo rows rt0 clk0 op
  split
  · exact h
  split
  · exact h
  · exact iteRes (hold h) h

theorem execMfs {h' d r} (h : s.Canon) : NextCanon (execMfs h' d r s) := by
  unfold Machine.execMfs
  refine instr ?_ h
  intro x s h
  extract_lets v
  split <;> exact h

theorem execMts {h' r a} (h : s.Canon) : NextCanon (execMts h' r a s) := by
  unfold Machine.execMts
  refine instr ?_ h
  intro x s h
  extract_lets v32 v on
  split
  · exact ofIssue (modTeam h)
  · exact ofIssue (modTeam h)
  · exact ofIssue (modTeam h)
  · exact ofIssue (pendAdd h)
  · exact ofIssue (modTeam h)
  · exact ofIssue (modTeam h)
  · exact iteRes h (ofIssue (modTeam h))
  · exact iteRes h (iteRes h (ofIssue (modTeam h)))
  · exact iteRes h (ofIssue (modCore h))
  · exact h

theorem execRti {h'} (h : s.Canon) : NextCanon (execRti h' s) := instr (fun _ _ h => iteRes (handlerReturn h) h) h
theorem execBrk {h' imm} (h : s.Canon) : NextCanon (execBrk h' imm s) :=
    instr (fun _ _ h => ofStop (haltTeam (modTeam (postAt (advance h))))) h
theorem execCkpt {h' d} (h : s.Canon) : NextCanon (execCkpt h' d s) := answer (issue h (fun _ _ h => ofToken (askCkpt h)))

theorem execRjoinTimeoutExpiry {team f} (h : s.Canon) : NextCanon (execRjoinTimeoutExpiry team f s) := by
  refine iteNext (resumeHeld h ?_) (answer h)
  intro i g hg u hu
  split at hg <;> cases hg
  exact execRjoinTo hu

theorem execYieldReactivation {team f} (h : s.Canon) : NextCanon (execYieldReactivation team f s) := by
  refine resumeHeld h ?_
  intro i g hg u hu
  split at hg <;> cases hg
  exact execYield hu

theorem execTokenCompletion {op} (h : s.Canon) : NextCanon (execTokenCompletion op s) := by
  unfold Machine.execTokenCompletion
  refine answer ?_
  split
  · exact h
  split
  · exact h
  split
  · exact collStep h
  · exact exchEnd h
  · exact ite h (ite (opFinish h) (perform h))
  · exact h

theorem execCopyCommandComplete {group turn} (h : s.Canon) : NextCanon (execCopyCommandComplete group turn s) := by
  unfold Machine.execCopyCommandComplete
  refine answer ?_
  split
  · exact h
  split
  · exact ite h (copyStep h)
  · exact h

theorem execDczBlock {group} (h : s.Canon) : NextCanon (execDczBlock group s) := by
  unfold Machine.execDczBlock
  refine answer ?_
  split
  · exact h
  split
  · exact h
  · exact ite h (ite (modStream (ite (modGroup h) h)) (dczBlock (ite (modGroup h) h)))

theorem execMatrixCommandAccept {core} (h : s.Canon) : NextCanon (execMatrixCommandAccept core s) := by
  unfold Machine.execMatrixCommandAccept
  refine answer ?_
  split
  · exact askAgain h
  split
  · exact askAgain h
  split
  · exact askAgain h
  extract_lets c s1
  split
  · exact relCheck (mxFail (modMx (askAgain h)))
  split
  · exact mxEnd (modMx (askAgain h))
  · exact mxEnd (modMx (askAgain h))
  · exact modMx (modMx (askAgain h))
  · exact modMx (modMx (askAgain h))

theorem execMatrixCommandExecute {core mismatch} (h : s.Canon) : NextCanon (execMatrixCommandExecute core mismatch s) := by
  unfold Machine.execMatrixCommandExecute
  refine answer ?_
  split
  · exact h
  extract_lets ctx
  split
  · exact h
  split
  · exact runMma h
  · exact mxPop (mxEnd (foldl (fun _ _ h => setTiles h) h))
  · exact runMrd h
  · exact runMwr h
  · exact runMst h
  · exact runMstat h
  · exact mxPop h

theorem execLeaseGrant {core} (h : s.Canon) : NextCanon (execLeaseGrant core s) := by
  unfold Machine.execLeaseGrant
  refine answer ?_
  split
  · exact h
  split
  · exact h
  extract_lets r
  split
  · exact h
  · exact ite h (of_fields (modMx h))

theorem execTileSpill {core} (h : s.Canon) : NextCanon (execTileSpill core s) := by
  unfold Machine.execTileSpill
  extract_lets m
  refine answer ?_
  split
  · exact h
  · next b _ =>
    extract_lets busy
    rename_i s1
    have h1 : s1.Canon := by
      unfold s1
      split <;> exact h
    exact ite h (modMx h1)

theorem execSideLogReplay {core entry} (h : s.Canon) : NextCanon (execSideLogReplay core entry s) := by
  unfold Machine.execSideLogReplay
  refine answer ?_
  split
  · exact h
  · exact ite h (replay h)

theorem execTxchTimeout {op} (h : s.Canon) : NextCanon (execTxchTimeout op s) := by
  unfold Machine.execTxchTimeout
  refine answer ?_
  split
  · split
    · exact ite h h
    · exact h
  · exact h

theorem execCollContribution {session rank msg} (h : s.Canon) : NextCanon (execCollContribution session rank msg s) := by
  unfold Machine.execCollContribution
  refine answer ?_
  split
  · exact h
  split
  · exact peerRefuse h
  extract_lets s1
  split
  · exact collTake (rimTook h)
  · exact ite (rimTook h) (modSession (rimTook h))

theorem execCollTimerExpiry {op} (h : s.Canon) : NextCanon (execCollTimerExpiry op s) := by
  unfold Machine.execCollTimerExpiry
  refine answer ?_
  split
  · split
    · exact h
    split
    · exact ite (collCheck h) (collEnd h)
    · exact h
  · exact h

theorem execCollResult {op cmask elems} (h : s.Canon) : NextCanon (execCollResult op cmask elems s) := by
  unfold Machine.execCollResult
  refine answer ?_
  split
  · split
    · refine ite h (modColl ?_)
      split
      · exact rimTook h
      · exact h
    · exact h
  · exact h

theorem execSwapRequestStart (h : s.Canon) : NextCanon (execSwapRequestStart s) :=
    answer (ite (swapEnd h) (ite h (swapStart h)))
theorem execLayerArrivalFailure {ctx layer cause} (h : s.Canon) : NextCanon (execLayerArrivalFailure ctx layer cause s) :=
    answer (ite (layerTag h) (ite (layerFail h) h))

theorem execTrapEntry {team} (h : s.Canon) : NextCanon (execTrapEntry team s) := by
  unfold Machine.execTrapEntry
  refine answer ?_
  split
  · exact ite (trapTry h) h
  · exact h

theorem execFaultAnswerTimeout {ctx va} (h : s.Canon) : NextCanon (execFaultAnswerTimeout ctx va s) := by
  unfold Machine.execFaultAnswerTimeout
  refine answer ?_
  split
  · exact ite (faultEnd h) h
  · exact h

theorem execQueueNotify {q wi} (h : s.Canon) : NextCanon (execQueueNotify q wi s) := answer (ite (queueCheck (modQueue h)) h)

theorem execGroupPlacement {launch} (h : s.Canon) : NextCanon (execGroupPlacement launch s) := by
  unfold Machine.execGroupPlacement
  extract_lets s1
  have h1 : s1.Canon := gangCheck h
  clear_value s1
  refine answer ?_
  split
  · next e => exact ite (of_fields (nextPlacement h1 _ e)) h1
  · exact h1

theorem execIntervalOpen {ctx} (h : s.Canon) : NextCanon (execIntervalOpen ctx s) := answer (ite (ckptEnd (openInterval h)) h)

theorem execUncorrectableError {ctx site} (h : s.Canon) : NextCanon (execUncorrectableError ctx site s) := by
  unfold Machine.execUncorrectableError
  refine answer ?_
  split
  · exact undoStruck h
  · exact lineStruck h
  · exact replicaStruck h
  · exact ite (mxUnitFail h) h
  split
  · exact h
  extract_lets p s1 s2
  split
  · exact modCore (ite (countError (recordUnit h)) (recordUnit h))
  · exact ite (ctxError (ite (countError (recordUnit h)) (recordUnit h))) (corrupt (ite (countError (recordUnit h)) (recordUnit
    h)))

theorem execSwapBankActivate {core} (h : s.Canon) : NextCanon (execSwapBankActivate core s) := by
  unfold Machine.execSwapBankActivate
  refine answer ?_
  split
  · exact ite (exchangeBanks h) h
  · exact h

theorem execSpillFillComplete {core crcOk faultFree} (h : s.Canon) : NextCanon (execSpillFillComplete core crcOk faultFree s) :=
    by
  unfold Machine.execSpillFillComplete
  refine answer ?_
  split
  · exact ite h (ite (bankEnd h) (bankEnd (spillDo h)))
  · split
    · exact bankEnd h
    · exact ite (bankEnd h) (ite (bankEnd (fillDo h)) (bankEnd (imageLost h)))
  · exact h

theorem execPatrolScrub {line bad} (h : s.Canon) : NextCanon (execPatrolScrub line bad s) := by
  unfold Machine.execPatrolScrub
  refine answer ?_
  split
  · exact ite (setPoison (recordUnit h)) h
  · exact h

theorem execRimFrameReceive {session head payload} (h : s.Canon) : NextCanon (execRimFrameReceive session head payload s) := by
  unfold Machine.execRimFrameReceive
  refine answer ?_
  split
  · exact h
  split
  · exact ite (sessionFail h) (modSession h)
  extract_lets s1
  split
  · exact rimDeliver (modSession h)
  · exact ite (modSession h) (rimFlush (modSession (modSession h)))

theorem execRimFrameResend {session} (h : s.Canon) : NextCanon (execRimFrameResend session s) := by
  unfold Machine.execRimFrameResend
  refine answer ?_
  split
  · exact h
  · exact ite h (foldl (fun _ _ h => countError (recordUnit h)) (modSession h))

theorem execPeerRequest {session req} (h : s.Canon) : NextCanon (execPeerRequest session req s) := by
  unfold Machine.execPeerRequest
  refine answer ?_
  split
  · exact h
  extract_lets s1
  split
  · split
    · exact peerRefuse (rimTook h)
    split
    · rename_i s2 e1
      have h1 : State.Canon s2 := of_eq2 e1 (engResolve (rimTook h))
      exact peerRefuse h1
    rename_i s2 e1
    have h1 : State.Canon s2 := of_eq2 e1 (engResolve (rimTook h))
    split
    · exact peerRefuse h1
    split
    rename_i s3 e2
    have h2 : State.Canon s3 := of_eq e2 (engReadAll h1)
    split
    · exact rimSend h2
    split
    rename_i s4 e3
    have h3 : State.Canon s4 := of_eq e3 (inject h2)
    exact rimSend h3
  split
  · exact peerRefuse (rimTook h)
  split
  · rename_i s2 e1
    have h1 : State.Canon s2 := of_eq2 e1 (engResolve (rimTook h))
    exact peerRefuse h1
  rename_i s2 e1
  have h1 : State.Canon s2 := of_eq2 e1 (engResolve (rimTook h))
  exact rimSend (peerWrite h1)

theorem execCxlPoison {pa lines} (h : s.Canon) : NextCanon (execCxlPoison pa lines s) :=
    answer (foldl (fun _ _ h => ite (setPoison h) h) h)
theorem execCxlLinkDown {drop} (h : s.Canon) : NextCanon (execCxlLinkDown drop s) :=
    answer (ite (ite (of_fields (endPending h)) (endPending h)) h)
theorem execColdReset {fwOk present good} (h : s.Canon) : NextCanon (execColdReset fwOk present good s) := 
  answer (bootRecords (of_fields (cells_filter_wf h outside)))

theorem execBrcfgLock {size} (h : s.Canon) : NextCanon (execBrcfgLock size s) := by
  unfold Machine.execBrcfgLock
  extract_lets s1
  exact answer (ite h (of_fields (cells_filter_wf h fun a => !inCarve s1.carve a)))

theorem execModulePowerOff (h : s.Canon) : NextCanon (execModulePowerOff s) :=
  answer (of_fields (cells_filter_wf h outside))

/-! ### The step -/

theorem exec {i} (h : s.Canon) : NextCanon (exec i s) := by
  unfold Machine.exec
  cases i with
  | nop | dly | wrlane | matchL | bset | trap => exact instr (fun _ _ h => h) h
  | bra => exact execBra h
  | brx => exact execBrx h
  | call | calx => exact answer (issue h (fun _ _ h => branch h (fun _ h => transfer h)))
  | ret => exact execRet h
  | exit => exact execExit h
  | rcv => exact execRcv h
  | rjoin => exact execRjoin h
  | rjoinTo => exact execRjoinTo h
  | exmRd | krd | sel | mov | movi | movh | lea | fclass | pack | unpack | shfl | rdlane | bget | budgRd =>
    exact instr (fun _ _ h => vecOp h) h
  | exmWr | exmAnd | exmOr => exact exmWrite h
  | yield => exact execYield h
  | waitcAny | waitcAll => exact waitcOp h
  | kwait => exact execKwait h
  | kset | kadd => exact instr (fun _ _ h => ofIssue (pendAdd h)) h
  | barInit => exact execBarInit h
  | barArv => exact execBarArv h
  | barExp => exact execBarExp h
  | barRd => exact execBarRd h
  | tlRd => exact execTlRd h
  | tlSig => exact execTlSig h
  | fence => exact execFence h
  | add | sub | mul | mulh | min | max | and | or | xor | andn => exact int2 h
  | mad | madh | fshL | fshR | bfx | bfi => exact int3 h
  | div | rem => exact idiv2 h
  | abs | neg | not | popc | clz | ctz | brev => exact int1 h
  | shl | shr | sar | rol => exact shift2 h
  | setp | fsetp | plop => exact instr (fun _ _ h => predOp h) h
  | fadd | fsub | fscl | frnd => exact fltOpG h
  | fmul | ffma | cvt | wscan => exact instr (fun _ _ h => vecOpG h) h
  | fmin | fmax | fabs | fneg | fxpn => exact fltOp h
  | frcp | frsq | fsqrt | fdiv | fexp2 | flog2 | fsin | fcos | ftanh => exact sfuOp h
  | fdot2 | fdot4 => exact fdot h
  | vote => exact execVote h
  | wred => exact execWred h
  | bchk => exact execBchk h
  | budgSet => exact execBudgSet h
  | taskB => exact execTaskB h
  | taskE => exact execTaskE h
  | taskX => exact execTaskX h
  | ld | ldb | ldp | ldc => exact instr (fun _ _ h => load h) h
  | st => exact instr (fun _ _ h => st_ h) h
  | stm => exact execStm h
  | stc => exact execStc h
  | prefL2 | prefL1 | cinvLine | cinvAll | cwbLine | cwbAll => exact instr (fun _ _ h => cacheOp h) h
  | atom | red => exact answer (issue h (fun _ _ h => atomic h))
  | cpl | cpb | cpxPut | cpxGet => exact answer (issue h (fun _ _ h => copy h))
  | cpcCont | cpcLast => exact answer (issue h (fun _ _ h => chainCopy h))
  | dcz => exact execDcz h
  | mtd => exact execMtd h
  | msd => exact execMsd h
  | mma => exact execMma h
  | mz => exact execMz h
  | mrd => exact execMrd h
  | mwr => exact execMwr h
  | mst => exact execMst h
  | mstat => exact execMstat h
  | lbind => exact execLbind h
  | lrel => exact execLrel h
  | lhint => exact execLhint h
  | lstat => exact execLstat h
  | txch => exact execTxch h
  | collSum | collMax | collGath | collBcst => exact coll h
  | mfs => exact execMfs h
  | mts => exact execMts h
  | rti => exact execRti h
  | brk => exact execBrk h
  | tinvPage | tinvCtx | tinvAll => exact tinv h
  | ckpt => exact execCkpt h
  | dlyExpiry | stallExpiry => exact answer (cdEnd h)
  | rjoinTimeoutExpiry => exact execRjoinTimeoutExpiry h
  | yieldReactivation => exact execYieldReactivation h
  | waitcSatisfied | waitcTimeoutExpiry => exact waitcAgain h
  | loadHoldTimeout => exact answer (modTeam h)
  | tokenCompletion => exact execTokenCompletion h
  | copyCommandComplete => exact execCopyCommandComplete h
  | dczBlock => exact execDczBlock h
  | matrixCommandAccept => exact execMatrixCommandAccept h
  | matrixCommandExecute => exact execMatrixCommandExecute h
  | leaseGrant => exact execLeaseGrant h
  | tileSpill => exact execTileSpill h
  | sideLogReplay => exact execSideLogReplay h
  | txchTimeout => exact execTxchTimeout h
  | collContribution => exact execCollContribution h
  | collTimerExpiry => exact execCollTimerExpiry h
  | collResult => exact execCollResult h
  | swapRequestStart => exact execSwapRequestStart h
  | layerArrivalComplete => exact answer (layerArrive h)
  | layerArrivalFailure => exact execLayerArrivalFailure h
  | residencyWordWrite => exact answer (residencyWrite h)
  | mdescWriteEnable => exact answer (ite (mdescWrite h) h)
  | mdescWriteDisable => exact answer (ite h (mdescWrite h))
  | trapEntry => exact execTrapEntry h
  | hrespRelease | hrespDiscard => exact answer (hresp h)
  | frespRetry | frespDecline => exact answer (faultEnd h)
  | faultAnswerTimeout => exact execFaultAnswerTimeout h
  | queueNotify => exact execQueueNotify h
  | qstatHltClear => exact answer (hltClear h)
  | launchPacketStart | waitPacketStart | signalPacketStart | ckptPacketStart => exact answer (packetStart h)
  | waitPacketEnd | waitPacketTimeout => exact answer (waitsStep h)
  | groupPlacement => exact execGroupPlacement h
  | intervalOpen => exact execIntervalOpen h
  | uncorrectableError => exact execUncorrectableError h
  | rollback => exact answer (ite (rollback h) h)
  | rbcfgEnable => exact answer (ite (openInterval h) h)
  | shadowSwap | shadowSpill | shadowFill => exact answer (ite (bankStart h) h)
  | swapBankActivate => exact execSwapBankActivate h
  | spillFillComplete => exact execSpillFillComplete h
  | mxcfgClre => exact answer (ite (mxcfgWrite h) h)
  | correctedError | flitReplay => exact answer (ite (countError (recordUnit h)) h)
  | spareTakeover => exact answer (ite (takeover h) h)
  | patrolScrub => exact execPatrolScrub h
  | rimFrameReceive => exact execRimFrameReceive h
  | rimFrameResend => exact execRimFrameResend h
  | rimGiveup => exact answer (ite (sessionFail h) h)
  | rimPortDown | spdmKeyLoad | spdmKeyErase | powerWindow => exact answer (ite h h)
  | rimPortUp | spdmPskExchange => exact answer h
  | peerRequest => exact execPeerRequest h
  | riminjArm => exact answer (injWrite h)
  | sessionSetup => exact answer (ite (sesWrite h) h)
  | sessionSetupComplete | sessionRekey => exact answer (ite (modSession h) h)
  | sessionTeardown => exact answer (sesWrite h)
  | hostWrite => exact answer (hostLines h)
  | hostSnoop => exact answer (hubDrop h)
  | cxlPoison => exact execCxlPoison h
  | cxlLinkDown => exact execCxlLinkDown h
  | spdmChallenge | spdmMeasurements => exact answer (sign h)
  | coldReset => exact execColdReset h
  | warmReset => exact answer (bootRecords h)
  | brcfgLock => exact execBrcfgLock h
  | stkpwrVrstSet => exact answer (ite (vrstSet h) h)
  | stkpwrVrstClear | vrdyReady => exact answer (ite (modStack h) h)
  | configRegisterWrite => exact answer (cfgWrite h)
  | modulePowerOff => exact execModulePowerOff h

theorem step (h : s.Canon) : NextCanon (step s) := stepWith (fun _ _ h => exec h) h

end State.Canon

/-- Settles O53: the step calls nothing that leaves memory in another form. -/
theorem memoryStaysCanonical : Obligations.MemoryStaysCanonical := by
  intro s t h e
  have hs : NextCanon (step s) := State.Canon.step h
  rw [e] at hs
  exact hs

end Sys2Proof.Machine
end


section
/-! PROOFS. Loads and cache operations (R254, R264-R267, R271, R272, R277). -/

namespace Sys2Proof.Machine

/-! ### Loads -/

/-- A demoted load's fragment stands behind the load, with its operation in the memory unit (R38, R106). -/
theorem State.retire_demote {s0 s : State} {a : At} {h : Hdr} {x : X} (hx : x.Of a h) (hc : x.claim = none) (i : Instr) (cls : Cls)
    (ps : List Port) (o : Op) {tm : Team} (ht : tget s.teams a.t = some tm) (hs : tm.split = a.tm.split ∧ tm.stack = a.tm.stack)
    (hp : ∀ e q k, popView a.tm.split a.f a.tm.stack = some (e, q, k) → e.kind = .join ∧ e.bad = false) :
    ∃ t, s0.retire i x cls ps (.demote s o) = t ∧ GoneOn t a ∧ t.mem = s.mem ∧ t.hole = s.hole ∧
      tget t.ops s.nextOp = some { o with post := h.sc.post.map (fun (k : BitVec 5) => (a.tm.curBank, k.toNat)) } := by
  have hteam : tget ((s.addOp x o).advance x 0).teams a.t = some (a.next h s.clk 0 tm) := by
    rw [State.advance_eq hx]
    simp [State.addOp, hc, ht]
  have hview : (a.next h s.clk 0 tm).split = a.tm.split ∧ (a.next h s.clk 0 tm).stack = a.tm.stack := by
    cases hf : a.f <;> simpa [At.next, Team.setPath, hf] using hs
  obtain ⟨s', tm', hd, hs', htm', hpc, hhold⟩ := State.demote_alone (f := a.f) hteam (by rw [hview.1, hview.2]; exact hp)
  refine ⟨s', ?_, ⟨tm', htm', ?_, ?_⟩, ?_, ?_, ?_⟩
  · simp only [State.retire, hx.t, hx.f, hd]
  · rw [hpc]
    cases hf : a.f <;> simp [At.next, Team.setPath, Team.path, hf]
  · rw [hhold]
    cases hf : a.f <;> simp [At.next, Team.setPath, Team.path, hf]
  · rw [hs']
    simp [State.addOp, hc, State.advance]
  · rw [hs']
    simp [State.addOp, hc, State.advance]
  · rw [hs']
    simp [State.addOp, hc, State.advance, hx.h, hx.tm]

/-- An instruction that is carried out as a load completes as one. -/
theorem loadCompletes {i : Instr} {h : Hdr} {via : Via} {ty : Ty} {c : Cnt} {d o b : Opnd} {off : BitVec 20}
    (hi : ∀ s, exec i s = instr i h (.token .mem) (loadPorts ty c d o b) (fun x s => x.load s via ty c d o b off) s) :
    LoadCompletes i h via ty c d o b off := by
  intro s a accs s1 r x n as herr hres hecc cs early hroom hside res op hhole
  have hbody := X.load_ok (x := x) (s := s.issued a) rfl herr hres hecc hroom hside
  constructor
  · intro hv
    rw [hi]
    refine instr_token r i _ _ op res.2 (hbody.trans ?_) hhole
    exact if_neg hv
  · intro hv hteam hp
    have htm := (hteam.trans (State.issued_team r.clear.live))
    obtain ⟨t, ht, hgone, hmem, hth, hop⟩ := State.retire_demote (s0 := s.issued a) (s.viewAt_of a h) rfl i (.token .mem)
      (loadPorts ty c d o b) op htm (by cases a.f <;> simp [Team.setPath]) hp
    refine ⟨t, ?_, hgone, hmem, hop⟩
    have hb : (s.viewAt a h).load (s.issued a) via ty c d o b off = .demote res.2 op := hbody.trans (if_pos hv)
    rw [hi, instr_ready r, hb, ht]
    simp [answer, hth, hhole]

/-! ### Cache operations -/

/-- An instruction that is carried out as a cache operation completes as one. -/
theorem cacheCompletes {i : Instr} {h : Hdr} {ps : List Port} {w : X → Work}
    (hi : ∀ s, exec i s = instr i h (.token .mem) ps (fun x s => x.cacheOp s (w x)) s) : CacheCompletes i h ps w := by
  intro s a r res hhole
  rw [hi]
  refine instr_token r i _ _ _ _ ?_ hhole
  unfold X.cacheOp
  cases hl : a.late <;> simp [res, State.viewAt, hl] <;> rfl

/-- Lines that an L1 does not hold are not held after copies of lines were dropped. -/
theorem State.l1Drops (core ctx : Nat) (vls : List Nat) (s : State) :
    ∀ l ∈ ((vls.foldl (fun s v => s.l1Drop core ctx v) s).core core).l1, l ∈ (s.core core).l1 ∧ (l.ctx = ctx → l.vline ∉ vls) := by
  induction vls generalizing s with
  | nil => exact fun l hl => ⟨hl, fun _ => List.not_mem_nil⟩
  | cons v vls ih =>
    intro l hl
    obtain ⟨hd, hv⟩ := ih _ l hl
    have hk : l ∈ (s.core core).l1 ∧ (l.ctx = ctx → l.vline ≠ v) := by
      simpa [State.l1Drop, State.core_modCore_self, imp_iff_not_or] using hd
    exact ⟨hk.1, fun hc => List.not_mem_cons_of_ne_of_not_mem (hk.2 hc) (hv hc)⟩

/-! ### The obligation -/

/-- Settles O17: each is carried out as the load, or the operation on caches, that its via and its work name. -/
theorem loadsAndCacheOperationsComplete : Obligations.LoadsAndCacheOperationsComplete := by
  refine ⟨⟨?_, ?_, ?_, ?_⟩, ?_, ?_, ?_, ?_, ?_, ?_, ?_, ?_⟩
  · exact fun _ _ _ _ _ _ _ => loadCompletes fun _ => rfl
  · exact fun _ _ _ _ _ _ _ => loadCompletes fun _ => rfl
  · exact fun _ _ _ _ _ _ => loadCompletes fun _ => rfl
  · exact fun _ _ _ _ _ _ _ => loadCompletes fun _ => rfl
  · exact fun _ _ _ _ => cacheCompletes fun _ => rfl
  · exact fun _ _ _ _ => cacheCompletes fun _ => rfl
  · exact fun _ _ _ _ => cacheCompletes fun _ => rfl
  · exact fun _ => cacheCompletes fun _ => rfl
  · exact fun _ _ _ _ => cacheCompletes fun _ => rfl
  · exact fun _ => cacheCompletes fun _ => rfl
  · intro s core ctx
    simp [State.cacheWork, State.core_modCore_self]
  · exact fun s core ctx vls l hl => (State.l1Drops core ctx vls s l hl).2

end Sys2Proof.Machine
end


section
/-! PROOFS. Stores (R247, R264, R268-R270, R277, R280). -/

namespace Sys2Proof.Machine

/-- An instruction that is carried out as a store of pieces `pcs` with address fault `err` completes as one. -/
theorem storeCompletes {i : Instr} {h : Hdr} {ps : List Port} {s : State} {a : At} {err : Option (Cause × Nat × Nat)} {pcs : List Piece}
    (body : X → State → Res) (r : Ready s a h ps) (hi : exec i s = instr i h (.token .mem) ps body s)
    (hb : body (s.viewAt a h) (s.issued a) = (s.viewAt a h).storeNew (s.issued a) err pcs) : StoreCompletes i h s a err pcs := by
  rintro rfl hv parts s1 hres hlook hbreach hhole ws cs hroom slow res
  have hbody : body (s.viewAt a h) (s.issued a) =
      .token res.2 { a.op res.2 .mem [] res.1 with lines := lineCount cs } := by
    have h1 := X.storeAs_ok (x := s.viewAt a h) (k := ⟨.mem, none⟩) (stage := 0) rfl hv hres hlook hbreach
    have h2 := X.storeOp_ok (x := s.viewAt a h) (stage := 0) hroom
    rw [hb, X.storeNew, X.store, h1, h2]
    rfl
  rw [hi]
  refine instr_token r i _ _ _ _ hbody ?_
  cases hs : slow
  · simp only [res, hs, Bool.false_eq_true, if_false]
    exact (s1.performWrites_same ..).1.trans hhole
  · simpa only [res, hs, if_true] using hhole

/-- Settles O18: each is carried out as a store of its pieces; the form of `stc` chooses among three. -/
theorem storesComplete : Obligations.StoresComplete := by
  refine ⟨?_, ?_, ?_⟩
  · exact fun h ty n d o b off s a r => storeCompletes _ r rfl rfl
  · exact fun h n d o b off s a r => storeCompletes _ r rfl rfl
  · intro h ty d o b off s a r x form as u
    refine ⟨?_, ?_, ?_⟩
    · intro h1 h2
      refine storeCompletes _ r rfl ?_
      split
      · exact absurd ‹_› h1
      · exact absurd ‹_› h2
      · rfl
    · rintro k hf rfl
      refine storeCompletes _ r rfl ?_
      rw [show (s.issued a).asf (s.viewAt a h).tm.ctx ((s.viewAt a h).num b) = 1 from hf]
      rfl
    · rintro k hf rfl
      refine storeCompletes _ r rfl ?_
      rw [show (s.issued a).asf (s.viewAt a h).tm.ctx ((s.viewAt a h).num b) = 2 from hf]
      rfl

end Sys2Proof.Machine
end

section
/-! PROOFS. The host's accesses, poison of the pool, and the secured channel (R257, R433, R434, R438, R447). -/

namespace Sys2Proof.Machine

@[simp] theorem State.hostCached_hole (s : State) (pa : Nat) : (s.hostCached pa).hole = s.hole := by
  unfold State.hostCached
  split <;> rfl

/-- Once no bytes are left, a write of the host is done. -/
@[simp] theorem State.hostLines_nil (s : State) (pa fuel : Nat) : s.hostLines pa [] fuel = s := by
  cases fuel <;> rfl

/-- A write of the host that stays in one line that it reaches is one write of that line (R433). -/
theorem State.hostLines_one {s : State} {pa : Nat} {bs : List Byte} (hne : bs ≠ []) (hfit : pa % 128 + bs.length ≤ 128)
    (hex : s.exposed pa = true) : s.hostLines pa bs bs.length = State.hostCached
      (s.writeLine none 0 0 (lineOf pa) (lineAdd [] (pa % 128) bs 0) (s.pageBounded pa) false) pa := by
  have hmin : min (128 - pa % 128) bs.length = bs.length := by omega
  obtain ⟨x, xs, rfl⟩ := List.exists_cons_of_ne_nil hne
  rw [List.length_cons, State.hostLines, hmin]
  simp [hex]

/-! ### Poison of lines -/

/-- What stays when lines are poisoned. -/
theorem State.setPoison_true (s : State) (line l : Nat) :
    (l ∈ (s.setPoison line true).poison ↔ l = line ∨ l ∈ s.poison) ∧ (s.setPoison line true).mem = s.mem ∧
      (s.setPoison line true).hole = s.hole ∧ (s.setPoison line true).exposed = s.exposed := by
  simp only [State.setPoison, if_true]
  split
  · rename_i hin
    simp only [and_self, and_true]
    exact ⟨.inr, fun h => h.elim (fun h => h ▸ List.contains_iff_mem.mp hin) id⟩
  · exact ⟨List.mem_cons, rfl, rfl, rfl⟩

/-- Poisoning a list of lines that are all reached poisons those lines and no other. -/
theorem State.poisonLines (f : Nat → Nat) (js : List Nat) (s : State) (h : ∀ j ∈ js, s.exposed (f j) = true) :
    let t := js.foldl (fun s j => if s.exposed (f j) then s.setPoison (lineOf (f j)) true else s) s
    t.mem = s.mem ∧ t.hole = s.hole ∧ ∀ l, l ∈ t.poison ↔ (∃ j ∈ js, l = lineOf (f j)) ∨ l ∈ s.poison := by
  induction js generalizing s with
  | nil => simp
  | cons j js ih =>
    have hs := s.setPoison_true (lineOf (f j))
    have hex := (hs 0).2.2.2
    obtain ⟨hm, hh, hp⟩ := ih (s.setPoison (lineOf (f j)) true) (fun i hi => by rw [hex]; exact h i (List.mem_cons_of_mem _ hi))
    simp only [List.foldl_cons, h j List.mem_cons_self, if_true]
    refine ⟨hm.trans (hs 0).2.1, hh.trans (hs 0).2.2.1, fun l => ?_⟩
    rw [hp, (hs l).1]
    simp only [List.mem_cons, exists_eq_or_imp]
    exact or_left_comm.trans or_assoc.symm

/-! ### The obligation -/

/-- Accesses of the host, snoops, poison and ports that go down (R257, R433, R434). -/
theorem hostAccesses :
    (∀ (s : State) (pa : Nat) (bs : List Byte), s.hole = false → bs ≠ [] → pa % 128 + bs.length ≤ 128 → s.exposed pa = true →
     exec (.hostWrite pa bs) s = .next (State.hostCached
       (s.writeLine none 0 0 (lineOf pa) (lineAdd [] (pa % 128) bs 0) (s.pageBounded pa) false) pa)) ∧
    (∀ (s : State) (pa : Nat), s.hole = false → ∃ t, exec (.hostSnoop pa) s = .next t ∧ t.mem = s.mem ∧
     (∀ x ∈ t.caches.hub, x.line ≠ lineOf pa) ∧ t.caches.l2 = s.caches.l2 ∧ t.caches.rdc = s.caches.rdc) ∧
    (∀ (s : State) (pa n : Nat), s.hole = false → (∀ j < n, s.exposed (pa + 128 * j) = true) →
     ∃ t, exec (.cxlPoison pa n) s = .next t ∧ t.mem = s.mem ∧ (∀ j < n, lineOf (pa + 128 * j) ∈ t.poison) ∧
       (∀ l, l ∉ s.poison → (∀ j < n, l ≠ lineOf (pa + 128 * j)) → l ∉ t.poison)) ∧
    (∀ (s : State) (p : Nat), p < 4 → p ∉ s.cxlDown →
     let t := State.endPending { s with cxlDown := p :: s.cxlDown }
     t.hole = false → exec (.cxlLinkDown ⟨p, false⟩) s = .next t ∧
       exec (.cxlLinkDown ⟨p, true⟩) s = .next { t with cxlDown := s.cxlDown }) := by
  refine ⟨fun s pa bs hh hne hfit hex => ?_, fun s pa hh => ?_, fun s pa n hh hex => ?_, fun s p hp hd => ?_⟩
  · change answer (s.hostLines pa bs bs.length) = _
    rw [State.hostLines_one hne hfit hex]
    exact answer_of_hole_false (by simpa using hh)
  · refine ⟨s.hubDrop (lineOf pa), answer_of_hole_false (s := s.hubDrop (lineOf pa)) hh, rfl, fun x hx => ?_, rfl, rfl⟩
    simpa using (List.mem_filter.mp hx).2
  · obtain ⟨hm, hk, hp⟩ := State.poisonLines (fun j => pa + 128 * j) (List.range n) s
      (fun j hj => hex j (List.mem_range.mp hj))
    refine ⟨_, answer_of_hole_false (hk.trans hh), hm, fun j hj => ?_, fun l hl hne hin => ?_⟩
    · exact (hp _).mpr (.inl ⟨j, List.mem_range.mpr hj, rfl⟩)
    · obtain ⟨j, hj, e⟩ | h := (hp l).mp hin
      · exact hne j (List.mem_range.mp hj) e
      · exact hl h
  · intro t hh
    have hc : p < 4 ∧ (!s.cxlDown.contains p) = true := ⟨hp, by simpa using hd⟩
    constructor
    · change answer (ite (p < 4 ∧ (!s.cxlDown.contains p) = true) _ _) = _
      rw [if_pos hc]
      exact answer_of_hole_false hh
    · change answer (ite (p < 4 ∧ (!s.cxlDown.contains p) = true) _ _) = _
      rw [if_pos hc]
      exact answer_of_hole_false hh

/-- The exchange, keys, and signatures of the secured channel (R438, R447). -/
theorem securedChannel (s : State) (hh : s.hole = false) :
     exec .spdmPskExchange s = .next { s with spdm := true } ∧
     (∀ k, s.spdm = true → 1 ≤ k → k < 4096 →
       exec (.spdmKeyLoad k) s = .next { s with keys := tset s.keys k (s.keyGen + 1), keyGen := s.keyGen + 1 } ∧
       exec (.spdmKeyErase k) s = .next { s with keys := tdel s.keys k }) ∧
     (∀ k, s.spdm = false → exec (.spdmKeyLoad k) s = .next s ∧ exec (.spdmKeyErase k) s = .next s) ∧
     (s.leaf < 2 ^ 20 → exec .spdmChallenge s = .next { s with leaf := s.leaf + 1 } ∧
       exec .spdmMeasurements s = .next { s with leaf := s.leaf + 1 }) ∧
     (2 ^ 20 ≤ s.leaf → exec .spdmChallenge s = .next s ∧ exec .spdmMeasurements s = .next s) := by
  refine ⟨answer_of_hole_false hh, fun k hs h1 h2 => ?_, fun k hs => ?_, fun hl => ?_, fun hl => ?_⟩
  · have hc : s.spdm = true ∧ 1 ≤ k ∧ k < 4096 := ⟨hs, h1, h2⟩
    constructor <;> refine (congrArg answer (if_pos hc)).trans (answer_of_hole_false hh)
  · have hc : ¬ (s.spdm = true ∧ 1 ≤ k ∧ k < 4096) := fun h => absurd h.1 (by simp [hs])
    constructor <;> refine (congrArg answer (if_neg hc)).trans (answer_of_hole_false hh)
  · have ht : answer s.sign = .next { s with leaf := s.leaf + 1 } :=
      (congrArg answer (if_pos hl)).trans (answer_of_hole_false hh)
    exact ⟨ht, ht⟩
  · have ht : answer s.sign = .next s := (congrArg answer (if_neg (Nat.not_lt.mpr hl))).trans (answer_of_hole_false hh)
    exact ⟨ht, ht⟩

/-- Settles O42: each event is evaluated in the case that its hypotheses name. -/
theorem hostPoolAndSecurityEventsComplete : Obligations.HostPoolAndSecurityEventsComplete :=
  ⟨hostAccesses, securedChannel⟩

end Sys2Proof.Machine
end

section
/-! PROOFS. What a session serves and how it changes (R257, R436, R437, R459). -/

namespace Sys2Proof.Machine

/-! ### Sessions on the board -/

/-- Of two entries set for one key the last one counts. -/
theorem tset_tset {α : Type} (t : Tbl α) (k : Nat) (a b : α) : tset (tset t k a) k b = tset t k b := by
  induction t with
  | nil => simp [tset]
  | cons e t ih =>
    simp only [tset]
    split
    · simp [tset]
    · split
      · simp [tset]
      · rw [tset, if_neg ‹_›, if_neg ‹_›, ih]

@[simp] theorem State.session_modSession_self (s : State) (n : Nat) (f : Session → Session) :
    (s.modSession n f).session n = f (s.session n) := tgetD_tset_self ..

/-- Two changes of one session are one. -/
theorem State.modSession_modSession (s : State) (n : Nat) (f g : Session → Session) :
    (s.modSession n f).modSession n g = s.modSession n (fun x => g (f x)) := by
  have h := s.session_modSession_self n f
  simp only [State.modSession] at h ⊢
  rw [h, tset_tset]

/-- A field set at the top leaves the one of two bits below the top bit. -/
theorem bitsOf_setBits_top (m b : Nat) : bitsOf (setBits m 63 1 b % 2 ^ 64) 61 2 = bitsOf m 61 2 := by
  simp only [bitsOf, setBits]
  omega

/-- ST of a session that was set. -/
@[simp] theorem Session.st_setSt (x : Session) (k : Nat) : (x.setSt k).st = k % 4 := by
  rw [Session.st, Session.setSt, BitVec.toNat_ofNat, bitsOf_setBits_top, bitsOf_setBits]
  rfl

/-! ### Requests of a peer -/

/-- A peer's read over a session that is up and allows it returns the bytes of the mapping (R437). -/
theorem peerRead_returns (s : State) (n va len : Nat) (ks : List Chunk) (c1 : List (Nat × Walk)) (s1 : State)
    (bs : List EByte) (s2 : State) (out : List Byte) (s3 : State)
    (hst : (s.session n).st = 2) (hhalt : (s.session n).halted = false) (hmay : (s.session n).mayRead = true)
    (hlen : va + len ≤ 2 ^ 56)
    (hres : (s.rimTook n 0).engResolve (s.session n).ctx 0 false [] (cutAt 128 .va len va len) = (.ok ks, c1, s1))
    (hcmp : ∀ k ∈ ks, ∀ v pa p, k.at_ = .mem v pa p → pteCmp p = false) (hread : s1.engReadAll none ks = (bs, s2))
    (hbad : bs.any (fun b => b.bad) = false) (hinj : s2.inject n (bs.map (fun b => b.x)) = (out, s3)) (hh : s3.hole = false) :
    exec (.peerRequest n (.read va len)) s = .next (s3.rimSend n (.data out)) := by
  have hplain : ks.any (fun k => match k.at_ with | .mem _ _ p => pteCmp p | _ => false) = false := by
    rw [List.any_eq_false]
    intro k hk
    split
    · simp [hcmp k hk _ _ _ ‹_›]
    · simp
  change execPeerRequest n (.read va len) s = _
  simp only [execPeerRequest]
  rw [if_neg (by simp [hst, hhalt]), if_neg (by simp [hmay]; omega), hres]
  refine (congrArg answer ((if_neg (Bool.eq_false_iff.mp hplain)).trans ?_)).trans (answer_of_hole_false hh)
  simp only [hread, hbad, hinj, Bool.false_eq_true, if_false]

theorem State.peerWrite_hole (s : State) (ks : List Chunk) (bs : List Byte) : (s.peerWrite ks bs).hole = s.hole := by
  exact foldl_keeps (P := fun t => t.hole = s.hole) (fun t e h => (State.writeLine_hole ..).trans h) _ s rfl

/-- A peer's write over a session that is up and allows it is made at the homes (R257, R437). -/
theorem peerWrite_made (s : State) (n va : Nat) (bs : List Byte) (ks : List Chunk) (c1 : List (Nat × Walk)) (s1 : State)
    (hst : (s.session n).st = 2) (hhalt : (s.session n).halted = false) (hmay : (s.session n).mayWrite = true)
    (hlen : va + bs.length ≤ 2 ^ 56)
    (hres : (s.rimTook n bs.length).engResolve (s.session n).ctx 0 true [] (cutAt 128 .va bs.length va bs.length) = (.ok ks, c1, s1))
    (hh : s1.hole = false) :
    exec (.peerRequest n (.write va bs)) s = .next ((s1.peerWrite ks bs).rimSend n (.data [])) := by
  change execPeerRequest n (.write va bs) s = _
  simp only [execPeerRequest]
  rw [if_neg (by simp [hst, hhalt]), if_neg (by simp [hmay]; omega), hres]
  exact answer_of_hole_false ((s1.peerWrite_hole ks bs).trans hh)

/-! ### SESCTL -/

/-- SESCTL with V asks for a session that is DOWN (R436). -/
theorem State.sesWrite_ask {s : State} {n : Nat} {v : Dword} (hn : n < 8192) (hv : v.getLsbD 63 = true)
    (hst : (s.session n).st = 0) : s.sesWrite n v = s.modSession n (fun x =>
      Session.setSt { x with ctl := BitVec.ofNat 64 (v.toNat % 2 ^ 61) } 1) := by
  simp only [State.sesWrite, Nat.not_le.mpr hn, hst, hv, if_true, if_false, true_or, State.modSession_modSession]
  rfl

/-- V = 0 ends a session that is not DOWN (R436). -/
theorem State.sesWrite_end {s : State} {n : Nat} {v : Dword} (hn : n < 8192) (hv : v.getLsbD 63 = false)
    (hst : (s.session n).st ≠ 0) :
    s.sesWrite n v = ((s.sessionDrop n 4).modSession n (fun x => x.setSt 0)).injLeave n := by
  simp only [State.sesWrite, Nat.not_le.mpr hn, hst, hv, Bool.false_eq_true, if_false]

/-- The low 61 bits of SESCTL have V = 0. -/
theorem getLsbD_low61 (x : Nat) : (BitVec.ofNat 64 (x % 2 ^ 61)).getLsbD 63 = false := by
  rw [BitVec.getLsbD_ofNat, Nat.testBit_mod_two_pow]
  rfl

/-! ### RIMINJ -/

/-- A field that lies inside a mask passes it. -/
theorem bitsOf_and {x m lo len : Nat} (h : bitsOf m lo len = 2 ^ len - 1) : bitsOf (x &&& m) lo len = bitsOf x lo len := by
  simp only [bitsOf] at h ⊢
  rw [Nat.and_div_two_pow, Nat.and_mod_two_pow, h, Nat.and_two_pow_sub_one_eq_mod, Nat.mod_mod]

/-- Setting the two top bits of a number below them adds them. -/
theorem setBits_tops {x : Nat} (hx : x < 2 ^ 62) (a d : Bool) :
    setBits (setBits x 63 1 a.toNat) 62 1 d.toNat = x + d.toNat * 2 ^ 62 + a.toNat * 2 ^ 63 := by
  have ha : a.toNat < 2 := a.toNat_lt
  have hd : d.toNat < 2 := d.toNat_lt
  simp only [setBits]
  omega

/-- Fields below the two top bits do not see them. -/
theorem bitsOf_below_tops {x lo len : Nat} (h : lo + len ≤ 62) (a d : Bool) :
    bitsOf ((x + d.toNat * 2 ^ 62 + a.toNat * 2 ^ 63) % 2 ^ 64) lo len = bitsOf x lo len := by
  obtain ⟨e, he⟩ := Nat.exists_eq_add_of_le h
  have hmod : ((x + d.toNat * 2 ^ 62 + a.toNat * 2 ^ 63) % 2 ^ 64) % 2 ^ 62 = x % 2 ^ 62 := by omega
  have hfield (y : Nat) : bitsOf y lo len = bitsOf (y % 2 ^ 62) lo len := by
    rw [bitsOf, bitsOf, he, Nat.add_assoc, Nat.pow_add, Nat.mod_mul_right_div_self, Nat.pow_add, Nat.mod_mul_right_mod]
  rw [hfield, hmod, ← hfield]

/-- What RIMINJ holds after a write while the injector is not armed. -/
theorem State.injWrite_riminj {s : State} (v : Dword) (hs : injArm s.riminj = false) :
    ∃ d : Bool, (s.injWrite v).riminj =
      BitVec.ofNat 64 ((v.toNat &&& 0x3FFFC7FFFFFFFFFF) + d.toNat * 2 ^ 62 + (injArm v).toNat * 2 ^ 63) := by
  have hlt : v.toNat &&& 0x3FFFC7FFFFFFFFFF < 2 ^ 62 := Nat.lt_of_le_of_lt Nat.and_le_right (by decide)
  refine ⟨s.riminj.getLsbD 62 && (!v.getLsbD 62 || s.w1cNow .injDone), ?_⟩
  rw [← setBits_tops hlt]
  simp only [State.injWrite, hs, Bool.false_eq_true, if_false]

/-- A write of RIMINJ while the injector is not armed takes its fields, and arms it (R459). -/
theorem State.injWrite_fields {s : State} (v : Dword) (hs : injArm s.riminj = false) :
    let t := s.injWrite v
    injArm t.riminj = v.getLsbD 63 ∧ injSes t.riminj = injSes v ∧ injBit t.riminj = injBit v ∧ injOff t.riminj = injOff v ∧
      (v.getLsbD 63 = true → t.rimOff = 0) := by
  obtain ⟨d, h⟩ := s.injWrite_riminj v hs
  have hlt : v.toNat &&& 0x3FFFC7FFFFFFFFFF < 2 ^ 62 := Nat.lt_of_le_of_lt Nat.and_le_right (by decide)
  refine ⟨?_, ?_, ?_, ?_, fun hv => ?_⟩
  · have hd : d.toNat < 2 := d.toNat_lt
    rw [h, injArm, BitVec.getLsbD_ofNat, Nat.testBit_eq_decide_div_mod_eq]
    generalize (v.toNat &&& 0x3FFFC7FFFFFFFFFF) = x at hlt
    cases hv : v.getLsbD 63
    · simp only [injArm, hv, Bool.toNat_false]
      simp
      omega
    · simp only [injArm, hv, Bool.toNat_true]
      simp
      omega
  · rw [h, injSes, BitVec.toNat_ofNat, bitsOf_below_tops (by decide), bitsOf_and (by decide), injSes]
  · rw [h, injBit, BitVec.toNat_ofNat, bitsOf_below_tops (by decide), bitsOf_and (by decide), injBit]
  · rw [h, injOff, BitVec.toNat_ofNat, bitsOf_below_tops (by decide), bitsOf_and (by decide), injOff]
  · have ha : injArm v = true := hv
    simp only [State.injWrite, hs, ha]
    rfl

/-! ### The obligation -/

/-- The agreement on a session that was asked for brings it UP or FAILED, with a new EPOCH and no frames (R436). -/
theorem setupComplete_agrees {s : State} {n : Nat} (hh : s.hole = false) (hst : (s.session n).st = 1) (ok : Bool) :
    ∃ t, exec (.sessionSetupComplete n ok) s = .next t ∧
      (t.session n).st = (if ok then 2 else 3) ∧ (t.session n).epoch = (s.session n).epoch + 1 ∧ (t.session n).ctr = 0 ∧
      (t.session n).frames = [] ∧ (t.session n).rx = 0 ∧ (t.session n).early = [] := by
  refine ⟨_, (congrArg answer (if_pos hst)).trans (answer_of_hole_false hh), ?_⟩
  rw [State.session_modSession_self]
  refine ⟨(Session.st_setSt ..).trans ?_, rfl, rfl, rfl, rfl, rfl⟩
  cases ok <;> rfl

/-- A re-key raises EPOCH and sends the frames again (R436). -/
theorem sessionRekey_sends {s : State} {n : Nat} (hh : s.hole = false) (hst : (s.session n).st = 2) :
    exec (.sessionRekey n) s = .next (s.modSession n (fun x => { x with
      epoch := x.epoch + 1, ctr := x.frames.length, rx := 0, early := []
      frames := (x.frames.zipIdx.map (fun f => { f.1 with ctr := f.2, epoch := x.epoch + 1, sent := s.rt })) })) :=
  (congrArg answer (if_pos hst)).trans (answer_of_hole_false hh)

/-- A write of SESCTL with V asks for a session that is DOWN. -/
theorem sessionSetup_asks {s : State} {n : Nat} {v : Dword} (hh : s.hole = false) (hn : n < 8192) (hv : v.getLsbD 63 = true)
    (hst : (s.session n).st = 0) : exec (.sessionSetup n v) s = .next (s.modSession n (fun x =>
      Session.setSt { x with ctl := BitVec.ofNat 64 (v.toNat % 2 ^ 61) } 1)) := by
  refine (congrArg answer ((if_pos hv).trans (State.sesWrite_ask hn hv hst))).trans (answer_of_hole_false ?_)
  exact hh

/-- A write of SESCTL without V ends a session that is UP. -/
theorem sessionTeardown_ends {s : State} {n : Nat} (hn : n < 8192) (hst : (s.session n).st = 2)
    (hh : (((s.sessionDrop n 4).modSession n (fun x => x.setSt 0)).injLeave n).hole = false) :
    exec (.sessionTeardown n) s = .next (((s.sessionDrop n 4).modSession n (fun x => x.setSt 0)).injLeave n) := by
  have hend := State.sesWrite_end (s := s) hn (getLsbD_low61 (s.session n).ctl.toNat) (by omega)
  exact (congrArg answer hend).trans (answer_of_hole_false hh)

theorem State.hole_injector (s : State) (r : Dword) (o : Nat) : ({ s with riminj := r, rimOff := o } : State).hole = s.hole := rfl

@[simp] theorem State.injWrite_hole (s : State) (v : Dword) : (s.injWrite v).hole = s.hole := s.hole_injector _ _

/-- RIMINJ arms the injector (R459). -/
theorem riminjArm_arms {s : State} (v : Dword) (hh : s.hole = false) (hs : injArm s.riminj = false) :
    ∃ t, exec (.riminjArm v) s = .next t ∧ injArm t.riminj = v.getLsbD 63 ∧
      injSes t.riminj = injSes v ∧ injBit t.riminj = injBit v ∧ injOff t.riminj = injOff v ∧
      (v.getLsbD 63 = true → t.rimOff = 0) :=
  ⟨s.injWrite v, answer_of_hole_false ((s.injWrite_hole v).trans hh), State.injWrite_fields v hs⟩

/-- Settles O41: each event is evaluated in the case that its hypotheses name. -/
theorem sessionsServeAndChange : Obligations.SessionsServeAndChange := by
  refine ⟨peerRead_returns, peerWrite_made, fun s n v hh hn => ⟨sessionSetup_asks hh hn, fun hst => ⟨?_, ?_⟩, ?_, ?_⟩⟩
  · exact sessionTeardown_ends hn hst
  · exact sessionRekey_sends hh hst
  · exact setupComplete_agrees hh
  · exact riminjArm_arms v hh

end Sys2Proof.Machine
end

section
/-! PROOFS. Intervals, uncorrectable errors by their site, and rollback (R397-R402, R408, R426). -/

namespace Sys2Proof.Machine

/-! ### Undo units -/

@[simp] theorem State.undoOf_setUndo_self (s : State) (c : Nat) (u : Undo) : (s.setUndo c u).undoOf c = u := tgetD_tset_self ..

@[simp] theorem State.setUndo_hole (s : State) (c : Nat) (u : Undo) : (s.setUndo c u).hole = s.hole := rfl

/-- ST of an undo unit that was set. -/
theorem Undo.st_setSt (u : Undo) (k : Nat) : (u.setSt k).st = k % 4 := by
  have h : bitsOf (setBits u.cfg.toNat 61 2 k % 2 ^ 64) 61 2 = bitsOf (setBits u.cfg.toNat 61 2 k) 61 2 := by
    simp only [bitsOf]
    omega
  rw [Undo.st, Undo.setSt, BitVec.toNat_ofNat, h, bitsOf_setBits]
  rfl

/-- EN of an undo unit does not change with ST. -/
theorem Undo.en_setSt (u : Undo) (k : Nat) : (u.setSt k).en = u.en := by
  have h : setBits u.cfg.toNat 61 2 k / 2 ^ 63 = u.cfg.toNat / 2 ^ 63 := by
    simp only [setBits]
    omega
  rw [Undo.en, Undo.setSt, BitVec.getLsbD_ofNat, Nat.testBit_eq_decide_div_mod_eq, h, Undo.en, BitVec.getLsbD,
    Nat.testBit_eq_decide_div_mod_eq]
  rfl

/-- The due mark of an undo unit does not change with ST. -/
theorem Undo.due_setSt (u : Undo) (k : Nat) : (u.setSt k).due = u.due := by
  have h (w : Dword) : ({ u with cfg := w } : Undo).due = u.due := rfl
  exact h _

theorem Undo.st_due (u : Undo) (b : Bool) : ({ u with due := b } : Undo).st = u.st := rfl

/-- An error makes a context with roll-back due for one. -/
theorem State.undoOf_ctxError (s : State) (c : Nat) :
    (s.ctxError c).undoOf c = { s.undoOf c with due := (s.undoOf c).due || (s.undoOf c).en } := by
  cases he : (s.undoOf c).en
  · simp [State.ctxError, he]
  · simp only [State.ctxError, he, if_true, Bool.or_true]
    exact tgetD_tset_self ..

@[simp] theorem State.ctxError_hole (s : State) (c : Nat) : (s.ctxError c).hole = s.hole := by
  rw [State.ctxError]
  split <;> rfl

/-! ### Records -/

@[simp] theorem State.record_hole (s : State) (a b c d e f : Nat) : (s.record a b c d e f).hole = s.hole := rfl

@[simp] theorem State.recordUnit_hole (s : State) (u : ErrUnit) (k d : Nat) : (s.recordUnit u k d).hole = s.hole := rfl
@[simp] theorem State.recordUnit_caches (s : State) (u : ErrUnit) (k d : Nat) : (s.recordUnit u k d).caches = s.caches := rfl

/-! ### Errors by their site -/

/-- An error at a site of a context that is not in a matrix unit or in L1. -/
theorem exec_uncorrectableError_of_site {s : State} {c n : Nat} {site : ErrSite} (hs : s.siteOf c site = some n)
    (hm : ∀ k, site ≠ .matrix k) (hl : ∀ k v, site ≠ .l1 k v) :
    let p : ErrUnit := .core (s.physOf n)
    let s1 := s.recordUnit p 2 0
    let s2 := if siteCounts site then s1.countError p else s1
    exec (.uncorrectableError c site) s = answer (if (s2.undoOf c).en then s2.ctxError c else s2.corrupt c site) := by
  change execUncorrectableError c site s = _
  unfold execUncorrectableError
  cases site with
  | matrix k => exact absurd rfl (hm k)
  | l1 k v => exact absurd rfl (hl k v)
  | undo _ => cases hs
  | line _ => cases hs
  | replica _ _ => cases hs
  | _ => rw [hs]

/-- A line of L1 that is struck is poisoned there, and the error counts (R253, R426). -/
theorem exec_uncorrectableError_l1 {s : State} {c n v : Nat} (hs : s.siteOf c (.l1 n v) = some n) :
    let p : ErrUnit := .core (s.physOf n)
    exec (.uncorrectableError c (.l1 n v)) s = answer (((s.recordUnit p 2 0).countError p).modCore n (fun k =>
      { k with l1 := k.l1.map (fun (l : L1Line) => if l.ctx = c ∧ l.vline = v then { l with poison := true } else l) })) := by
  change execUncorrectableError c (.l1 n v) s = _
  unfold execUncorrectableError
  rw [hs]
  rfl

/-- An error in an undo region that is in use fails the rollback (R402). -/
theorem State.undoStruck_fails {s : State} {c h : Nat} (hst : (s.undoOf c).st = 1) (hu : 0 < (s.undoOf c).usedAt h) :
    (s.undoStruck c h).hole = s.hole ∧ ((s.undoStruck c h).undoOf c).st = 3 ∧
      ((s.undoStruck c h).undoOf c).due = ((s.undoOf c).due || (s.undoOf c).en) := by
  simp only [State.undoStruck, hst, hu, and_self, if_true]
  refine ⟨?_, ?_, ?_⟩
  · rw [State.ctxError_hole, State.setUndo_hole, apply_ite State.hole, State.recordUnit_hole, State.record_hole, ite_self]
  · rw [State.undoOf_ctxError, State.undoOf_setUndo_self, Undo.st_due, Undo.st_setSt]
  · rw [State.undoOf_ctxError, State.undoOf_setUndo_self, Undo.en_setSt, Undo.due_setSt]

/-- An error in a line at its home in a stack poisons the line (R253). -/
theorem State.lineStruck_poisons {s : State} {n k : Nat} (hh : homeOf (n * 128) = .stack k) (hp : s.present k = true) :
    (s.lineStruck n).hole = s.hole ∧ (s.lineStruck n).mem = s.mem ∧ n ∈ (s.lineStruck n).poison := by
  simp only [State.lineStruck, hh, hp, if_true]
  obtain ⟨hin, hm, hhole, -⟩ := State.setPoison_true (s.recordUnit (if (tgetD s.caches.l2 (l2Key k n) []).any
    (fun x => x.line = n) then .slice k (sliceOf (n * 128)) else .hbm k) 2 (n * 128)) n n
  exact ⟨hhole, hm, hin.mpr (.inl rfl)⟩

/-- An error in an RDC's copy of a line poisons that copy (R253). -/
theorem State.replicaStruck_poisons {s : State} {k n : Nat} (hin : (tgetD s.caches.rdc k []).any (fun x => x.line = n) = true) :
    (s.replicaStruck k n).hole = s.hole ∧ (s.replicaStruck k n).mem = s.mem ∧ (s.replicaStruck k n).poison = s.poison ∧
      (s.replicaStruck k n).replicaBad k n = true := by
  simp only [State.replicaStruck, hin, if_true]
  refine ⟨rfl, rfl, rfl, ?_⟩
  obtain ⟨x, hx, hn⟩ := List.any_eq_true.mp hin
  simp only [State.replicaBad, State.recordUnit_caches]
  cases hg : tget s.caches.rdc k with
  | none => simp [tgetD, hg] at hx
  | some ls =>
    have hx' : x ∈ ls := by simpa [tgetD, hg] using hx
    simp only [tgetD, tget_tmod_self, hg, Option.map_some, Option.getD_some, List.any_map, List.any_eq_true]
    exact ⟨x, hx', by simp_all⟩

/-! ### What a rolled-back context leaves -/

/-- The contexts of the teams, in the order of the teams. -/
def State.teamCtxs (s : State) : List Nat := s.teams.map (fun e => e.2.ctx)

/-- Nothing of context c is left, and no answer is pending. -/
def State.Without (s : State) (c : Nat) : Prop :=
  s.answers = [] ∧ (∀ t ∈ s.teams, t.2.ctx ≠ c) ∧ ∀ g ∈ s.groups, g.2.ctx ≠ c

theorem State.Without.of_ctxs {s t : State} {c : Nat} (h : s.Without c) (ha : t.answers = s.answers)
    (ht : t.teamCtxs = s.teamCtxs) (hg : t.groups = s.groups) : t.Without c := by
  obtain ⟨h1, h2, h3⟩ := h
  refine ⟨ha.trans h1, fun e he => ?_, hg ▸ h3⟩
  have hin : e.2.ctx ∈ s.teamCtxs := ht ▸ List.mem_map_of_mem (f := fun e => e.2.ctx) he
  obtain ⟨e', he', hc⟩ := List.mem_map.mp hin
  exact hc ▸ h2 e' he'

theorem map_ctx_tmod (t : Tbl Team) (k : Nat) (f : Team → Team) (hf : ∀ tm, (f tm).ctx = tm.ctx) :
    (tmod t k f).map (fun e => e.2.ctx) = t.map (fun e => e.2.ctx) := by
  induction t with
  | nil => rfl
  | cons e t ih =>
    rw [tmod]
    split <;> simp [hf, ih]

/-- A change of one team that keeps its context. -/
theorem State.teamCtxs_modTeam (s : State) (t : Nat) (f : Team → Team) (hf : ∀ tm, (f tm).ctx = tm.ctx) :
    (s.modTeam t f).teamCtxs = s.teamCtxs := map_ctx_tmod _ _ _ hf

theorem Landed.ctx {tm tm' : Team} (h : Landed tm tm') : tm'.ctx = tm.ctx := by rw [h]

theorem State.teamCtxs_land (s : State) (t : Nat) (p : Pend) : (s.land t p).teamCtxs = s.teamCtxs := by
  unfold State.land
  split
  · rw [State.landUpd_eq]
    refine map_ctx_tmod _ _ _ (fun tm => ?_)
    refine (Landed.clash _ _).ctx.trans ?_
    split
    · exact (Landed.unspin ..).ctx.trans (Landed.apply ..).ctx
    · exact (Landed.apply ..).ctx
  · exact s.teamCtxs_modTeam t _ (fun tm => (Landed.setTok ..).ctx)
  · exact s.teamCtxs_modTeam t _ (fun tm => (Landed.setTok tm _ _ _).ctx)
  · exact s.teamCtxs_modTeam t _ (fun tm => (Landed.setTok ..).ctx)

theorem State.teamCtxs_landPosts (t : Nat) (ps : List Pend) : ∀ (ds : List (Bank × Nat × Nat)) (s : State),
    (s.landPosts t ds ps).teamCtxs = s.teamCtxs := by
  induction ps with
  | nil => exact fun _ _ => rfl
  | cons p ps ih =>
    intro ds s
    unfold State.landPosts
    split
    · split
      · exact (ih _ _).trans (s.teamCtxs_modTeam t _ (fun tm => (Landed.setTok ..).ctx))
      · exact (ih _ _).trans (s.teamCtxs_land t p)
    · exact (ih _ _).trans (s.teamCtxs_land t p)

theorem State.teamCtxs_landDue (s : State) (t n : Nat) : (s.landDue t n).teamCtxs = s.teamCtxs := by
  unfold State.landDue
  split
  · rfl
  · exact (State.teamCtxs_landPosts t _ _ _).trans
      (foldl_keeps (P := fun u : State => u.teamCtxs = s.teamCtxs) (fun u p h => (State.teamCtxs_land u t p).trans h) _ _
        (s.teamCtxs_modTeam t _ (fun _ => rfl)))

theorem State.teamCtxs_drain (s : State) (t : Nat) : (s.drain t).teamCtxs = s.teamCtxs := by
  unfold State.drain
  generalize List.range 17 = js
  exact foldl_keeps (P := fun u : State => u.teamCtxs = s.teamCtxs) (fun u j h => (State.teamCtxs_landDue u t _).trans h) js s rfl

namespace State.Without

/-! Each step of a rollback after the context's own things are gone keeps them gone. -/

variable {s : State} {c : Nat}

theorem drain {t : Nat} (h : s.Without c) : (s.drain t).Without c := by
  have hl := s.drain_landing t
  exact h.of_ctxs (by rw [hl]) (s.teamCtxs_drain t) (by rw [hl])

theorem modTeam {t : Nat} {f : Team → Team} (h : s.Without c) (hf : ∀ tm, (f tm).ctx = tm.ctx) : (s.modTeam t f).Without c :=
  h.of_ctxs rfl (s.teamCtxs_modTeam t f hf) rfl

theorem settleTeam {t : Nat} (h : s.Without c) : (s.settleTeam t).Without c := (h.drain (t := t)).modTeam (fun _ => rfl)

theorem modStack {n : Nat} {f : StackCfg → StackCfg} (h : s.Without c) : (s.modStack n f).Without c := h.of_ctxs rfl rfl rfl
theorem modCore {n : Nat} {f : Core → Core} (h : s.Without c) : (s.modCore n f).Without c := h.of_ctxs rfl rfl rfl
theorem modQueue {q : Nat} {f : Queue → Queue} (h : s.Without c) : (s.modQueue q f).Without c := h.of_ctxs rfl rfl rfl
theorem dropLines (h : s.Without c) : (s.dropLines c).Without c := h.of_ctxs rfl rfl rfl
theorem setUndo {u : Undo} (h : s.Without c) : (s.setUndo c u).Without c := h.of_ctxs rfl rfl rfl
theorem record {a b d e f g : Nat} (h : s.Without c) : (s.record a b d e f g).Without c := h.of_ctxs rfl rfl rfl

theorem coreCd {n : Nat} {f : Countdown → Countdown} (h : s.Without c) : (s.coreCd n f).Without c := by
  refine h.of_ctxs rfl ?_ rfl
  simp only [State.teamCtxs, State.coreCd, tmap, List.map_map]
  refine List.map_congr_left (fun e _ => ?_)
  simp only [Function.comp]
  split <;> rfl

theorem flushAnswers (h : s.Without c) : s.flushAnswers.Without c := by
  unfold State.flushAnswers
  rw [h.1]
  exact h.of_ctxs h.1.symm rfl rfl

theorem restoreLine {l : UndoLine} (h : s.Without c) : (s.restoreLine c l).Without c := by
  refine h.of_ctxs ?_ ?_ ?_ <;> simp [State.restoreLine, State.teamCtxs]

theorem takeover {n : Nat} (h : s.Without c) : (s.takeover n).Without c := by
  unfold State.takeover
  split
  · exact h
  · exact flushAnswers (record (modCore (coreCd (modCore (modStack
      (foldl_keeps (P := fun u : State => u.Without c) (fun _ _ h => settleTeam h) _ s h))))))

theorem dropTeams (h : s.answers = []) : ((s.dropTeams c).dropRequests c).Without c := by
  refine ⟨h, fun t ht => ?_, fun g hg => ?_⟩
  · simpa using (List.mem_filter.mp ht).2
  · simpa using (List.mem_filter.mp hg).2

/-- After a rollback, nothing of the context is left (R402). -/
theorem rollback (h : s.answers = []) : (s.rollback c).Without c := by
  have h0 := dropTeams (c := c) h
  unfold State.rollback
  extract_lets u s1
  split
  · have h1 := foldl_keeps (P := fun u : State => u.Without c) (f := fun s l => s.restoreLine c l) (fun _ _ h => restoreLine h)
      u.log s1 h0
    refine record (setUndo (foldl_keeps (P := fun u : State => u.Without c) (fun t q h => ?_) _ _
      (foldl_keeps (P := fun u : State => u.Without c) (fun _ _ h => takeover h) _ _ h1.dropLines)))
    split
    · exact h.modQueue
    · exact h
  · exact record (setUndo (foldl_keeps (P := fun u : State => u.Without c) (fun _ _ h => h.modQueue) _ _ h0))

end State.Without

/-- Rollback is not due once it was done. -/
theorem State.rollback_due (s : State) (c : Nat) : ((s.rollback c).undoOf c).due = false := by
  unfold State.rollback
  extract_lets u s1
  split
  · exact congrArg Undo.due (State.undoOf_setUndo_self ..)
  · exact congrArg Undo.due (State.undoOf_setUndo_self ..)

/-! ### The obligation -/

/-- Settles O37: each event is evaluated in the case that its hypotheses name; what a rollback leaves is kept by its steps. -/
theorem rollbackEventsComplete : Obligations.RollbackEventsComplete := by
  refine ⟨?_, ?_, ?_, ?_, ?_, ?_, ?_, ?_, ?_⟩
  · intro s c hh hc he
    refine (congrArg answer (if_pos ?_)).trans (answer_of_hole_false hh)
    simp [hc, he]
  · intro s c he hd hw hb ha hl hx hh
    refine (congrArg answer (if_pos ?_)).trans (answer_of_hole_false hh)
    simp only [he, hd, hw, ha, hl, hx, List.isEmpty_nil, Bool.not_false, Bool.and_true, Bool.true_and, List.all_eq_true]
    intro l hin
    split
    · exact hb l hin _ ‹_›
    · rfl
  · intro s c n site hs hm hl p s1 s2
    have h := exec_uncorrectableError_of_site hs hm hl
    refine ⟨fun he hh => h.trans ?_, fun he hh => h.trans ?_⟩
    · exact (congrArg answer (if_pos he)).trans (answer_of_hole_false hh)
    · exact (congrArg answer (if_neg (Bool.eq_false_iff.mp he))).trans (answer_of_hole_false hh)
  · intro s c n v hs p t hh
    exact (exec_uncorrectableError_l1 hs).trans (answer_of_hole_false hh)
  · intro s c h hh hst hu
    obtain ⟨hk, h1, h2⟩ := State.undoStruck_fails hst hu
    exact ⟨s.undoStruck c h, answer_of_hole_false (hk.trans hh), h1, h2⟩
  · intro s c n k hn hp hh
    obtain ⟨hk, h1, h2⟩ := State.lineStruck_poisons hn hp
    exact ⟨s.lineStruck n, answer_of_hole_false (hk.trans hh), h1, h2⟩
  · intro s c k n hin hh
    obtain ⟨hk, h1⟩ := State.replicaStruck_poisons hin
    exact ⟨s.replicaStruck k n, answer_of_hole_false (hk.trans hh), h1⟩
  · intro s c n k hs hh
    have hk : n = k := by
      simp only [State.siteOf] at hs
      split at hs
      · exact (Option.some.inj hs).symm
      · cases hs
    subst hk
    exact (congrArg answer (if_pos (by rw [hs]; rfl))).trans (answer_of_hole_false hh)
  · intro s c hd hh
    have hw (ha : s.answers = []) := State.Without.rollback (c := c) ha
    exact ⟨(congrArg answer (if_pos hd)).trans (answer_of_hole_false hh), fun ha => (hw ha).2.1, fun ha => (hw ha).2.2,
      s.rollback_due c⟩

end Sys2Proof.Machine
end

section
/-! PROOFS. Slices, sets and ways of the caches, routes and arbitration (R251, R252, R284, R411, R413-R415, R418). -/

namespace Sys2Proof.Machine

/-! ### Slices and sets (R251) -/

theorem testBit_sliceOf (pa : Nat) {i : Nat} (hi : i < 4) :
    (sliceOf pa).testBit i = (pa.testBit (7 + i) ^^ pa.testBit (22 + i)) := by
  simp only [sliceOf, bitsOf, Nat.testBit_xor, Nat.testBit_mod_two_pow, Nat.testBit_div_two_pow, hi, decide_true, Bool.true_and,
    Nat.add_comm i]

theorem sliceOf_lt (pa : Nat) : sliceOf pa < 16 :=
  Nat.xor_lt_two_pow (n := 4) (Nat.mod_lt _ (by decide)) (Nat.mod_lt _ (by decide))

/-! ### Fills of a set (R252) -/

/-- A victim is a line of the set. -/
theorem State.victim_mem {s : State} {set : List CLine} {x y : CLine} (h : s.victim set x = some y) : y ∈ set := by
  simp only [State.victim] at h
  split at h
  · exact List.mem_of_mem_filter (List.mem_of_getLast? h)
  · split at h
    · cases h
    · split at h
      · obtain rfl := Option.some.inj h
        exact List.mem_of_mem_filter (List.mem_of_getLast? ‹_›)
      · exact List.mem_of_getLast? h

/-- Of a context that has a quota, a fill goes without a victim only where a way is free. -/
theorem State.victim_none {s : State} {set : List CLine} {x : CLine} (hq : s.quota x.ctx x.cls ≠ 0) (h : s.victim set x = none) :
    set.length < 16 := by
  simp only [State.victim, decide_eq_true_eq] at h
  split at h
  · rename_i hfull
    rw [List.getLast?_eq_none_iff.mp h, List.length_nil] at hfull
    omega
  · split at h
    · assumption
    · split at h
      · cases h
      · rw [List.getLast?_eq_none_iff.mp h]
        decide

/-- A fill keeps a set within its 16 ways. -/
theorem State.fillSet_length {s : State} {set : List CLine} {x : CLine} (hs : set.length ≤ 16) : (s.fillSet set x).length ≤ 16 := by
  unfold State.fillSet
  split
  · exact hs
  · split
    · rename_i hq _ y hy
      have hlt : (set.filter (fun z => z.line ≠ y.line)).length < set.length :=
        List.length_filter_lt_length_iff_exists.mpr ⟨y, State.victim_mem hy, by simp⟩
      exact Nat.lt_of_lt_of_le hlt hs
    · rename_i hq _ hn
      exact State.victim_none hq hn

/-- A context below its quota takes a free way without a victim. -/
theorem State.fillSet_free {s : State} {set : List CLine} {x : CLine} (hm : (x.mates set).length < s.quota x.ctx x.cls)
    (hs : set.length < 16) : s.fillSet set x = x :: set := by
  have hv : s.victim set x = none := by
    simp only [State.victim, decide_eq_true_eq]
    rw [if_neg (Nat.not_le.mpr hm), if_pos hs]
  rw [State.fillSet, if_neg (Nat.ne_zero_of_lt hm), hv]

/-- After a write of a line no RDC holds it (R284). -/
theorem State.cacheWrite_rdc {s : State} {c : Option Nat} {cls line : Nat} {e : Nat × List CLine}
    (he : e ∈ (s.cacheWrite c cls line).caches.rdc) : ∀ x ∈ e.2, x.line ≠ line := by
  obtain ⟨e', -, rfl⟩ := List.mem_map.mp he
  intro x hx
  simpa using (List.mem_filter.mp hx).2

/-! ### Routes (R411) -/

/-- A route from stop n to stop d ends at d, is as long as the two rings' shortest ways together, at most 6 hops, and turns
once. -/
def RouteOk (n d : Nat) : Prop :=
  ((n :: route 6 n d).getLast? = some d) ∧
    (route 6 n d).length = ringHops (n % 6) (d % 6) + ringHops (n / 6) (d / 6) ∧ (route 6 n d).length ≤ 6 ∧
    (∀ m ∈ route 6 n d, m / 6 = n / 6 ∨ m % 6 = d % 6)

theorem routeOk : ∀ n < 36, ∀ d < 36, RouteOk n d := by
  unfold RouteOk
  decide +kernel

/-! ### Arbitration (R413-R415) -/

/-- What arbitration picks at a stop's output can be sent. -/
theorem Net.pick_canSend {t : Net} {o : NetPort} {i : Nat} {v : VC} (h : t.pick o = some (i, v)) : t.canSend o i v = true := by
  change (_ <|> _) = some (i, v) at h
  rw [Option.orElse_eq_some] at h
  obtain h | ⟨-, h⟩ := h
  · obtain ⟨w, -, hw⟩ := List.exists_of_findSome?_eq_some h
    obtain ⟨j, hj, he⟩ := Option.map_eq_some_iff.mp hw
    obtain ⟨rfl, rfl⟩ := Prod.mk.inj he
    have ha := List.find?_some hj
    rw [Net.aged, Bool.and_eq_true] at ha
    exact ha.1
  · obtain ⟨w, -, hw⟩ := List.exists_of_findSome?_eq_some h
    obtain ⟨j, hj, he⟩ := Option.map_eq_some_iff.mp hw
    obtain ⟨rfl, rfl⟩ := Prod.mk.inj he
    exact List.find?_some (p := fun i => t.canSend o i w) hj

/-- What arbitration picks at an output of the crossbar can be sent. -/
theorem Net.pickHub_canSend {t : Net} {o : NetPort} {i : Nat} {v : VC} (h : t.pickHub o = some (i, v)) : t.canSend o i v = true := by
  unfold Net.pickHub at h
  split at h
  · obtain ⟨j, hj, he⟩ := Option.map_eq_some_iff.mp h
    obtain ⟨rfl, rfl⟩ := Prod.mk.inj he
    have ha := List.find?_some hj
    rw [Bool.and_eq_true] at ha
    exact ha.1
  · obtain ⟨j, -, hw⟩ := List.exists_of_findSome?_eq_some h
    obtain ⟨w, hv, he⟩ := Option.map_eq_some_iff.mp hw
    obtain ⟨rfl, rfl⟩ := Prod.mk.inj he
    exact List.find?_some hv

/-- What was chosen can be sent. -/
theorem Net.chosen_canSend {t : Net} {o : NetPort} {i : Nat} {v : VC} (h : (o, i, v) ∈ t.chosen) : t.canSend o i v = true := by
  obtain ⟨o', -, ho⟩ := List.mem_filterMap.mp h
  obtain ⟨p, hp, he⟩ := Option.map_eq_some_iff.mp ho
  obtain ⟨rfl, h2⟩ := Prod.mk.inj he
  obtain ⟨rfl, rfl⟩ := Prod.mk.inj h2
  split at hp
  · exact Net.pickHub_canSend hp
  · exact Net.pick_canSend hp

/-- A flit that can be sent to another node finds a free buffer there, and two where it enters a ring. -/
theorem Net.canSend_free {t : Net} {o : NetPort} {i : Nat} {v : VC} (h : t.canSend o i v = true) (hf : farEnd o ≠ none) :
    (if entersRing o.node i o.port then 2 else 1) ≤ t.freeOf o v := by
  unfold Net.canSend at h
  split at h
  · cases h
  · obtain ⟨e, he⟩ := Option.ne_none_iff_exists'.mp hf
    simp only [he, Bool.and_eq_true, decide_eq_true_eq] at h
    exact h.2

/-- The turns go over all inputs. -/
theorem mem_inTurnOf {node j : Nat} (last : Option Nat) (h : j ∈ inputsOf node) : j ∈ inTurnOf node last := by
  cases last with
  | none => exact h
  | some k =>
    obtain hk | hk := Nat.lt_or_ge k j
    · exact List.mem_append_left _ (List.mem_filter.mpr ⟨h, by simpa using hk⟩)
    · exact List.mem_append_right _ (List.mem_filter.mpr ⟨h, by simpa using hk⟩)

/-- Every input that a turn goes over is one of the inputs. -/
theorem inputsOf_of_mem_inTurnOf {node j : Nat} {last : Option Nat} (h : j ∈ inTurnOf node last) : j ∈ inputsOf node := by
  cases last with
  | none => exact h
  | some k => exact (List.mem_append.mp h).elim List.mem_of_mem_filter List.mem_of_mem_filter

/-- What stands before the place of v in a list that goes on with v. -/
theorem mem_of_idxOf_lt {w v : VC} {l1 l2 : List VC} (hv : v ∉ l1) (h : (l1 ++ v :: l2).idxOf w < (l1 ++ v :: l2).idxOf v) :
    w ∈ l1 := by
  by_contra hw
  rw [List.idxOf_append_of_notMem hw, List.idxOf_append_of_notMem hv, List.idxOf_cons_self] at h
  omega

/-- Where no head has waited too long, a channel is served only when those before it have nothing to send (R414). -/
theorem Net.pick_first {t : Net} {o : NetPort} {i : Nat} {v w : VC} (h : t.pick o = some (i, v))
    (hage : ∀ w, ∀ j ∈ inputsOf o.node, t.aged o j w = false) (hw : vcOrder.idxOf w < vcOrder.idxOf v) :
    ∀ j ∈ inputsOf o.node, t.canSend o j w = false := by
  have hold : vcOrder.findSome? (fun v => ((inTurnOf o.node (t.turnOf o v)).find? (fun i => t.aged o i v)).map (fun i => (i, v)))
      = none := by
    rw [List.findSome?_eq_none_iff]
    intro w _
    rw [Option.map_eq_none_iff, List.find?_eq_none]
    intro j hj
    simp [hage w j (inputsOf_of_mem_inTurnOf hj)]
  rw [Net.pick, hold] at h
  have hpick : vcOrder.findSome? (fun v => (t.inputFor o v).map (fun i => (i, v))) = some (i, v) := h
  obtain ⟨l1, a, l2, hl, ha, hbefore⟩ := List.findSome?_eq_some_iff.mp hpick
  obtain ⟨j0, hj0, he⟩ := Option.map_eq_some_iff.mp ha
  obtain ⟨rfl, rfl⟩ := Prod.mk.inj he
  have hv : a ∉ l1 := fun hin => by
    have := hbefore a hin
    rw [hj0] at this
    cases this
  have hmem := hbefore w (mem_of_idxOf_lt hv (hl ▸ hw))
  rw [Option.map_eq_none_iff, Net.inputFor, List.find?_eq_none] at hmem
  exact fun j hj => Bool.eq_false_iff.mpr (hmem j (mem_inTurnOf _ hj))

/-- A response enters only into reserved space, and a bulk packet only into granted space (R418). -/
theorem Net.mayEnter_space {t : Net} {p : Packet} (h : t.mayEnter p = true) :
    (p.vc = .rsp → p.dst ∈ t.room) ∧ (p.vc = .bulk → (p.dst, p.src) ∈ t.grants) := by
  rw [Net.mayEnter, Bool.and_eq_true] at h
  obtain ⟨-, h⟩ := h
  constructor <;> intro hv <;> rw [hv] at h <;> exact List.contains_iff_mem.mp h

/-! ### The obligation -/

/-- Settles O16: routes are evaluated; the rest follows from what a fill, a write and an arbitration can do. -/
theorem networkAndCachesFollowTheirRules : Obligations.NetworkAndCachesFollowTheirRules := by
  refine ⟨⟨fun pa i => testBit_sliceOf pa, fun pa => ⟨sliceOf_lt pa, rfl⟩, fun s set x hs => ⟨State.fillSet_length hs, ?_, ?_⟩, ?_, ?_⟩,
    routeOk, fun t o i v h => ⟨Net.chosen_canSend h, fun hf => ?_⟩, fun t o i v h hage w hw => Net.pick_first h hage hw,
    fun t p => Net.mayEnter_space⟩
  · exact fun hq => if_pos hq
  · exact State.fillSet_free
  · exact fun s n c cls line => State.cacheRead_mem ..
  · exact fun s c cls line => ⟨State.cacheWrite_mem .., fun e => State.cacheWrite_rdc⟩
  · have hfree := Net.canSend_free (Net.chosen_canSend h) hf
    refine ⟨?_, fun he => by rwa [if_pos he] at hfree⟩
    split at hfree <;> omega

end Sys2Proof.Machine
end

section
/-! PROOFS. A store writes the bytes of its parts, and a load none (R256, R264, R280). -/

namespace Sys2Proof.Machine

/-! ### Tables -/

/-- The entries of a table after one is set. -/
theorem mem_of_mem_tset {α : Type} {t : Tbl α} {k : Nat} {a : α} {e : Nat × α} (h : e ∈ tset t k a) : e = (k, a) ∨ e ∈ t := by
  induction t with
  | nil => exact .inl (List.mem_singleton.mp h)
  | cons x t ih =>
    rw [tset] at h
    split at h
    · exact (List.mem_cons.mp h).imp_right id
    · split at h
      · exact (List.mem_cons.mp h).imp_right (List.mem_cons_of_mem _)
      · obtain rfl | h := List.mem_cons.mp h
        · exact .inr List.mem_cons_self
        · exact (ih h).imp_right (List.mem_cons_of_mem _)

/-- What a table gives for a key is one of its entries. -/
theorem mem_of_tget {α : Type} {t : Tbl α} {k : Nat} {a : α} (h : tget t k = some a) : (k, a) ∈ t := by
  induction t with
  | nil => cases h
  | cons x t ih =>
    obtain ⟨j, b⟩ := x
    rw [tget] at h
    split at h
    · obtain rfl := Option.some.inj h
      exact ‹j = k› ▸ List.mem_cons_self
    · exact List.mem_cons_of_mem _ (ih h)

/-! ### The data of a state -/

/-- Two states hold the same memory and scratchpads, and the same carve-out for bound records. -/
structure SameData (s t : State) : Prop where
  mem : t.mem = s.mem
  groups : t.groups = s.groups
  brcfg : t.brcfg = s.brcfg

theorem SameData.refl (s : State) : SameData s s := ⟨rfl, rfl, rfl⟩

theorem SameData.trans {s t u : State} (h : SameData s t) (k : SameData t u) : SameData s u :=
  ⟨k.mem.trans h.mem, k.groups.trans h.groups, k.brcfg.trans h.brcfg⟩

theorem SameData.scrGet {s t : State} (h : SameData s t) (g off : Nat) : t.scrGet g off = s.scrGet g off := by
  simp only [State.scrGet, State.group, h.groups]

theorem State.recAddr_congr {s t : State} (h : t.brcfg = s.brcfg) (pa : Nat) : t.recAddr pa = s.recAddr pa := by
  simp only [State.recAddr, State.carve, h]

/-! ### Addresses without a side log -/

/-- The side log of a core holds nothing of a context. -/
def State.NoSide (s : State) (core ctx : Nat) : Prop := ∀ e ∈ (s.core core).side, e.ctx ≠ ctx

/-- Two states hold the same data and the same cores. -/
structure SameHeld (s t : State) : Prop extends SameData s t where
  cores : t.cores = s.cores

theorem SameHeld.refl (s : State) : SameHeld s s := ⟨SameData.refl s, rfl⟩

theorem SameHeld.trans {s t u : State} (h : SameHeld s t) (k : SameHeld t u) : SameHeld s u :=
  ⟨h.toSameData.trans k.toSameData, k.cores.trans h.cores⟩

theorem SameHeld.noSide {s t : State} {core ctx : Nat} (h : SameHeld s t) (hs : s.NoSide core ctx) : t.NoSide core ctx := by
  simpa only [State.NoSide, State.core, h.cores] using hs

theorem State.NoSide.any_line {s : State} {core ctx : Nat} (h : s.NoSide core ctx) (vline : Nat) :
    (s.core core).side.any (fun e => e.ctx = ctx && e.vline = vline) = false := by
  rw [List.any_eq_false]
  intro e he
  simp [h e he]

theorem State.touch_held (s : State) (pa n : Nat) : SameHeld s (s.touch pa n) := by
  unfold State.touch
  dsimp only
  split <;> exact ⟨⟨rfl, rfl, rfl⟩, rfl⟩

theorem State.pick_held {α : Type} (s : State) (xs : List α) (d : α) : SameHeld s (s.pick xs d).2 := by
  unfold State.pick
  split <;> exact ⟨⟨rfl, rfl, rfl⟩, rfl⟩

theorem State.tlbAdd_held (s : State) (c : Nat) (p : Quad) : SameHeld s (s.tlbAdd c p) := by
  unfold State.tlbAdd
  split <;> exact ⟨⟨rfl, rfl, rfl⟩, rfl⟩

theorem State.translate_held (s : State) (c va : Nat) : SameHeld s (s.translate c va).2 := by
  unfold State.translate
  extract_lets r s1
  have h1 : SameHeld s s1 := by
    simp only [s1]
    split
    · exact s.touch_held ..
    · exact SameHeld.refl s
  have h2 := h1.trans (s1.pick_held (s1.choices c va) .miss)
  generalize s1.pick (s1.choices c va) .miss = q at h2 ⊢
  obtain ⟨w, s2⟩ := q
  cases w with
  | hit p => exact h2.trans (s2.tlbAdd_held c p)
  | _ => exact h2

theorem State.lookRun_held (s : State) (cache : List (Nat × Walk)) (ctx va : Nat) (write : Bool) :
    SameHeld s (s.lookRun cache ctx va write).2.2 := by
  unfold State.lookRun
  split
  · exact SameHeld.refl s
  · exact s.translate_held ctx va

/-- Where nothing of the context is in the side log, resolving a store's parts changes no data. -/
theorem State.resolveParts_held (tm : Team) (rs : List (Piece × Nat × Run × List Byte × List Byte)) :
    ∀ (s : State) (cache : List (Nat × Walk)), s.NoSide tm.core tm.ctx → SameHeld s (s.resolveParts tm cache rs).2 := by
  induction rs with
  | nil => exact fun s _ _ => SameHeld.refl s
  | cons r rs ih =>
    intro s cache hs
    obtain ⟨p, a, run, bs, ks⟩ := r
    cases run with
    | scr off len => exact ih s cache hs
    | va va len =>
      have hlook := s.lookRun_held cache tm.ctx va true
      unfold State.resolveParts
      generalize s.lookRun cache tm.ctx va true = q at hlook ⊢
      obtain ⟨l, cache1, s1⟩ := q
      have hs1 := hlook.noSide hs
      refine hlook.trans ?_
      dsimp only
      cases l with
      | ok pa q =>
        simp only [hs1.any_line, Bool.false_eq_true, if_false]
        exact ih s1 cache1 hs1
      | _ => exact ih s1 cache1 hs1

/-- The same for the accesses of a load. -/
theorem State.resolve_held (tm : Team) (write plain : Bool) (rs : List Run) :
    ∀ (s : State) (cache : List (Nat × Walk)), s.NoSide tm.core tm.ctx → SameHeld s (s.resolve tm write plain cache rs).2.2 := by
  induction rs with
  | nil => exact fun s _ _ => SameHeld.refl s
  | cons r rs ih =>
    intro s cache hs
    cases r with
    | scr off n =>
      have h := ih s cache hs
      unfold State.resolve
      split
      · rename_i heq
        rwa [heq] at h
      · exact h
    | va va n =>
      have hlook := s.lookRun_held cache tm.ctx va write
      unfold State.resolve
      generalize s.lookRun cache tm.ctx va write = q at hlook ⊢
      obtain ⟨l, cache1, s1⟩ := q
      have hs1 := hlook.noSide hs
      have h := ih s1 cache1 hs1
      refine hlook.trans ?_
      dsimp only
      cases l with
      | ok pa q =>
        simp only [hs1.any_line, Bool.false_eq_true, if_false]
        split
        · exact SameHeld.refl s1
        · split
          · rename_i heq
            rwa [heq] at h
          · exact h
      | _ =>
        simp only
        split
        · split
          · rename_i heq
            rwa [heq] at h
          · exact h
        · exact SameHeld.refl s1

theorem State.resolveAll_held (tm : Team) (write plain : Bool) (rs : List (Nat × Nat × Nat × Nat)) :
    ∀ (s : State) (cache : List (Nat × Walk)), s.NoSide tm.core tm.ctx → SameHeld s (s.resolveAll tm write plain cache rs).2 := by
  induction rs with
  | nil => exact fun s _ _ => SameHeld.refl s
  | cons r rs ih =>
    intro s cache hs
    obtain ⟨l, la, a, n⟩ := r
    have h := State.resolve_held tm write plain (tm.runs_ l a n) s cache hs
    unfold State.resolveAll
    split
    · rename_i heq
      rwa [heq] at h
    · rename_i cs cache1 s1 heq
      rw [heq] at h
      have h2 := ih s1 cache1 (h.noSide hs)
      split
      · rename_i heq2
        rw [heq2] at h2
        exact h.trans h2
      · exact h.trans h2

theorem State.resolveAll_ok {tm : Team} {write plain : Bool} {cache : List (Nat × Walk)} {rs : List (Nat × Nat × Nat × Nat)}
    {s s1 : State} {accs : Except (Nat × Bad) (List Acc)} (h : s.resolveAll tm write plain cache rs = (accs, s1))
    (hs : s.NoSide tm.core tm.ctx) : SameHeld s s1 := by
  have hh := State.resolveAll_held tm write plain rs s cache hs
  rwa [h] at hh

theorem State.resolveParts_ok {tm : Team} {cache : List (Nat × Walk)} {rs : List (Piece × Nat × Run × List Byte × List Byte)}
    {s s1 : State} {ps : List Part} (h : s.resolveParts tm cache rs = (ps, s1)) (hs : s.NoSide tm.core tm.ctx) : SameHeld s s1 := by
  have hh := State.resolveParts_held tm rs s cache hs
  rwa [h] at hh

/-! ### Reads change no data -/

theorem State.modCore_data (s : State) (n : Nat) (f : Core → Core) : SameData s (s.modCore n f) := ⟨rfl, rfl, rfl⟩

theorem State.cacheRead_data (s : State) (n c cls line : Nat) : SameData s (s.cacheRead n c cls line) :=
  ⟨s.cacheRead_mem .., s.cacheRead_groups .., s.cacheRead_brcfg ..⟩

theorem State.readBytes_data (s : State) (pa n k : Nat) : SameData s (s.readBytes pa n k).2 := by
  unfold State.readBytes
  split <;> exact ⟨rfl, rfl, rfl⟩

theorem State.l1Line_data (s : State) (core ctx va pa : Nat) (p : Quad) : SameData s (s.l1Line core ctx va pa p).2 := by
  unfold State.l1Line
  dsimp only
  split
  · dsimp only
    exact s.modCore_data ..
  · dsimp only
    exact ((s.cacheRead_data ..).trans (State.readBytes_data ..)).trans (State.modCore_data ..)

theorem State.readComp_data (s : State) (core ctx va pa n : Nat) (p : Quad) :
    SameData s (s.readComp core ctx va pa n p).2 := by
  unfold State.readComp
  dsimp only
  split
  · exact SameData.refl s
  · exact foldl_keeps (P := fun a : List L1Line × State => SameData s a.2)
      (fun a j h => h.trans (a.2.l1Line_data ..)) _ _ (SameData.refl s)

theorem State.readChunk_data (s : State) (tm : Team) (via : Via) (c : Chunk) : SameData s (s.readChunk tm via c).2 := by
  unfold State.readChunk
  split
  · exact SameData.refl s
  · exact SameData.refl s
  · rename_i va pa p _
    split
    · exact s.readComp_data ..
    · by_cases hv : via = .l1 ∨ via = .comp
      · simp only [hv, if_true]
        have h := s.l1Line_data tm.core tm.ctx va pa p
        split <;> exact h
      · simp only [hv, if_false]
        have h : SameData s ((if via = .next then s.cacheRead (tm.core / 16) tm.ctx (pteCls p) (lineOf pa) else s).readBytes
            pa c.len (pteKey p)).2 := by
          refine SameData.trans ?_ (State.readBytes_data ..)
          split
          · exact s.cacheRead_data ..
          · exact SameData.refl s
        split <;> exact h

theorem State.readAcc_data (s : State) (tm : Team) (via : Via) (cs : List Chunk) : SameData s (s.readAcc tm via cs).2 := by
  unfold State.readAcc
  refine foldl_keeps (P := fun a : (List Byte × Half × Bool) × State => SameData s a.2) (fun a c h => ?_) cs _ (SameData.refl s)
  exact h.trans (a.2.readChunk_data tm via c)

theorem State.readAll_data (tm : Team) (via : Via) (ty : Ty) (as : List Acc) :
    ∀ s : State, SameData s (s.readAll tm via ty as).2.2 := by
  induction as with
  | nil => exact SameData.refl
  | cons a as ih => exact fun s => (s.readAcc_data tm via a.chunks).trans (ih _)

theorem State.doLoad_data (s : State) (tm : Team) (via : Via) (ty : Ty) (d : Opnd) (n : Nat) (accs : List Acc) :
    SameData s (s.doLoad tm via ty d n accs).2 := State.readAll_data tm via ty accs s

/-! ### Ends of an instruction -/

/-- An operation's entry and a hold change no data. -/
theorem State.tokenNext_data (s : State) (a : At) (h : Hdr) (o : Op) : SameData s (s.tokenNext a h o) := ⟨rfl, rfl, rfl⟩

theorem State.retire_hold_data (x : X) (i : Instr) (cls : Cls) (ps : List Port) (s s0 : State) (w : Held) :
    SameData s (s0.retire i x cls ps (.hold s w)) := by
  simp only [State.retire]
  split
  · unfold State.claimAt
    split <;> exact ⟨rfl, rfl, rfl⟩
  · exact ⟨rfl, rfl, rfl⟩

/-- What an instruction answers when it is answered with a next state. -/
theorem eq_of_answer_next {s t : State} (h : answer s = .next t) : t = s := by
  unfold answer at h
  split at h
  · cases h
  · exact (Host.Outcome.next.inj h).symm

/-- Whether it is held or enters an operation, an instruction that nothing stops leaves the data as its body does. -/
theorem instr_data {s t u : State} {a : At} {h : Hdr} {ps : List Port} {i : Instr} {cls : Cls} {body : X → State → Res}
    (r : Ready s a h ps) (hb : (∃ w, body (s.viewAt a h) (s.issued a) = .hold u w) ∨
      ∃ o, body (s.viewAt a h) (s.issued a) = .token u o)
    (ht : instr i h cls ps body s = .next t) : SameData u t := by
  rw [instr_ready r] at ht
  obtain ⟨w, hw⟩ | ⟨o, ho⟩ := hb
  · rw [hw] at ht
    rw [eq_of_answer_next ht]
    exact State.retire_hold_data ..
  · rw [ho, State.retire_token (s.viewAt_of a h) _ _ _ _ _ _ rfl] at ht
    rw [eq_of_answer_next ht]
    exact u.tokenNext_data ..

theorem State.issued_data (s : State) (a : At) : SameHeld s (s.issued a) := by
  rw [State.issued_eq]
  exact ⟨⟨rfl, rfl, rfl⟩, rfl⟩

/-- A load whose accesses resolve is held, or enters its operation; either way it changes no data. -/
theorem X.load_data {x : X} {s : State} {via : Via} {t : Ty} {c : Cnt} {d a b : Opnd} {off : BitVec 20} {accs : List Acc}
    {s1 : State} (hst : x.st = none)
    (he : x.addrErr s (cntN c * t.bytes) (cntN c * t.bytes) ((x.work d).map (x.addr a b off)) = none)
    (hr : s.resolveAll x.tm false (via ≠ .comp) [] (((x.work d).zip ((x.work d).map (x.addr a b off))).flatMap (fun p =>
      (List.range (cntN c)).map (fun j => (p.1, p.2, p.2 + j * t.bytes, t.bytes)))) = (.ok accs, s1))
    (hs : s1.scrEcc (accs.flatMap (fun a => a.chunks)) = none) (hv : ¬ (via = .home ∧ mProg x.tm.mode = true)) :
    ∃ u, SameData s1 u ∧ ((∃ w, x.load s via t c d a b off = .hold u w) ∨ ∃ o, x.load s via t c d a b off = .token u o) := by
  unfold X.load
  simp only [hst, he, X.fateTrap_new _ _ hst, hr, hs, hv, if_false]
  split
  · refine ⟨s1, SameData.refl s1, .inl ?_⟩
    simp only [X.hold, hst]
    exact ⟨_, rfl⟩
  · refine ⟨_, ?_, .inr ⟨_, rfl⟩⟩
    split
    · exact SameData.refl s1
    · exact s1.doLoad_data ..

/-- A load changes no byte of memory or scratchpad (R264). -/
theorem loads_write_nothing {i : Instr} {h : Hdr} {via : Via} {ty : Ty} {c : Cnt} {d o b : Opnd} {off : BitVec 20} {s : State}
    {a : At} {accs : List Acc} {s1 t : State}
    (hi : exec i s = instr i h (.token .mem) (loadPorts ty c d o b) (fun x s => x.load s via ty c d o b off) s)
    (r : Ready s a h (loadPorts ty c d o b)) (hside : ∀ e ∈ (s.core a.tm.core).side, e.ctx ≠ a.tm.ctx)
    (he : (s.viewAt a h).addrErr (s.issued a) (cntN c * ty.bytes) (cntN c * ty.bytes)
      (((s.viewAt a h).work d).map ((s.viewAt a h).addr o b off)) = none)
    (hr : (s.issued a).resolveAll a.tm false (via ≠ .comp) [] ((((s.viewAt a h).work d).zip
      (((s.viewAt a h).work d).map ((s.viewAt a h).addr o b off))).flatMap (fun p =>
        (List.range (cntN c)).map (fun j => (p.1, p.2, p.2 + j * ty.bytes, ty.bytes)))) = (.ok accs, s1))
    (hecc : s1.scrEcc (accs.flatMap (fun k => k.chunks)) = none) (hv : ¬ (via = .home ∧ mProg a.tm.mode = true))
    (ht : exec i s = .next t) : t.mem = s.mem ∧ ∀ g off, t.scrGet g off = s.scrGet g off := by
  have hres := State.resolveAll_ok hr ((s.issued_data a).noSide hside)
  obtain ⟨u, hu, hb⟩ := X.load_data (x := s.viewAt a h) (s := s.issued a) rfl he hr hecc hv
  rw [hi] at ht
  have hd := (((s.issued_data a).toSameData.trans hres.toSameData).trans hu).trans (instr_data r hb ht)
  exact ⟨hd.mem, hd.scrGet⟩

end Sys2Proof.Machine
end

section
/-! PROOFS. What the writes of a store leave, and what they write (R256, R264, R280). -/

namespace Sys2Proof.Machine

/-! ### Bytes of a line operation -/

/-- Every entry of a line operation after a run of bytes is old, or is a byte of the run at its place. -/
theorem mem_lineAdd {w : LineW} {off : Nat} {bs : List Byte} {b : Half} {e : Nat × Byte × Half} (h : e ∈ lineAdd w off bs b) :
    e ∈ w ∨ off ≤ e.1 ∧ e.1 < off + bs.length ∧ e.2.1 = bs.getD (e.1 - off) 0 := by
  induction bs generalizing w off with
  | nil => exact .inl h
  | cons x xs ih =>
    obtain hin | ⟨h1, h2, h3⟩ := ih h
    · obtain rfl | hin := mem_of_mem_tset hin
      · exact .inr (by simp)
      · exact .inl hin
    · refine .inr ⟨by omega, by simp only [List.length_cons]; omega, ?_⟩
      rw [h3, show e.1 - off = e.1 - (off + 1) + 1 by omega, List.getD_cons_succ]

/-- A line operation has an entry at an offset that a run of bytes covers, or that had one before. -/
theorem tget_lineAdd {w : LineW} {off o : Nat} {bs : List Byte} {b : Half}
    (h : (tget w o).isSome ∨ off ≤ o ∧ o < off + bs.length) : (tget (lineAdd w off bs b) o).isSome := by
  induction bs generalizing w off with
  | nil => exact h.resolve_right (by simp only [List.length_nil]; omega)
  | cons x xs ih =>
    refine ih ?_
    by_cases ho : o = off
    · exact .inl (by rw [ho, tget_tset_self]; rfl)
    · rw [tget_tset_other _ _ _ _ ho]
      exact h.imp_right (fun hr => by simp only [List.length_cons] at hr; omega)

/-- Bytes of a line that a line operation gives one value hold it after it. -/
theorem lineCells_value {m : List Host.Cell} (h : Memory.wf m = true) (base pa : Nat) (b : Byte) (w : LineW)
    (hb : ∀ e ∈ w, pa = base + e.1 → e.2.1 = b) (hit : (∃ e ∈ w, pa = base + e.1) ∨ cellGet m pa = b) :
    cellGet (List.foldl (fun m (e : Nat × (Byte × Half)) => cellSet m (base + e.1) e.2.1) m w) pa = b := by
  induction w generalizing m with
  | nil => exact hit.resolve_left (by simp)
  | cons e w ih =>
    refine ih (cellSet_wf h _ _) (fun e he => hb e (List.mem_cons_of_mem _ he)) ?_
    rw [cellGet_cellSet h]
    by_cases hp : pa = base + e.1
    · exact .inr ((if_pos hp).trans (hb e List.mem_cons_self hp))
    · rw [if_neg hp]
      refine hit.imp_left ?_
      rintro ⟨e', he', hpa⟩
      obtain rfl | he' := List.mem_cons.mp he'
      · exact absurd hpa hp
      · exact ⟨e', he', hpa⟩

/-! ### One line operation -/

theorem toBytes_length (x n : Nat) : (toBytes x n).length = n := by
  rw [toBytes, List.length_map, List.length_range]

/-- Setting a bound record changes no other byte. -/
theorem State.cellGet_recSet {s : State} (h : Memory.wf s.mem = true) (line : Nat) (r : Quad) {pa : Nat}
    (hp : ¬ (s.recAddr (line * 128) ≤ pa ∧ pa < s.recAddr (line * 128) + 16)) :
    cellGet (s.recSet line r).mem pa = cellGet s.mem pa := by
  unfold State.recSet
  split
  · split
    · rfl
    · refine (cellGet_cellsSet h ..).trans (if_neg ?_)
      rwa [toBytes_length]
  · rfl

/-- Memory after a write of a line: bytes of the line over memory that differs at most in the line's bound record. -/
theorem State.writeLine_mem_over {s : State} (h : Memory.wf s.mem = true) (c : Option Nat) (cls k line : Nat) (w : LineW)
    (bounded gives : Bool) : ∃ m, Memory.wf m = true ∧
      (s.writeLine c cls k line w bounded gives).mem =
        List.foldl (fun m (e : Nat × (Byte × Half)) => cellSet m (line * 128 + e.1) e.2.1) m w ∧
      ∀ pa, ¬ (bounded = true ∧ s.recAddr (line * 128) ≤ pa ∧ pa < s.recAddr (line * 128) + 16) → cellGet m pa = cellGet s.mem pa := by
  have hover (u : State) : (let s := { u with mem := List.foldl (fun m (e : Nat × (Byte × Half)) => cellSet m (line * 128 + e.1) e.2.1) u.mem w }
       let s := if k = 0 ∧ (tget s.lineKey line).isNone then s
                else { s with lineKey := tset s.lineKey line (k, s.keyGenOf k) }
       if s.keyLoaded k then (if w.length = 128 then s.setPoison line false else s) else s.setPoison line true).mem =
        List.foldl (fun m (e : Nat × (Byte × Half)) => cellSet m (line * 128 + e.1) e.2.1) u.mem w := by
    simp only [apply_ite State.mem, State.setPoison_mem, ite_self]
  have hrec (u : State) (hu : u.mem = s.mem) (hc : u.brcfg = s.brcfg) (r : Quad) : Memory.wf (u.recSet line r).mem = true ∧
      ∀ pa, ¬ (s.recAddr (line * 128) ≤ pa ∧ pa < s.recAddr (line * 128) + 16) → cellGet (u.recSet line r).mem pa = cellGet s.mem pa := by
    refine ⟨State.recSet_wf (hu ▸ h) line r, fun pa hp => ?_⟩
    rw [← State.recAddr_congr hc] at hp
    rw [State.cellGet_recSet (hu ▸ h) line r hp, hu]
  unfold State.writeLine
  extract_lets s1 s2 s3
  have h2 : s2.mem = s.mem ∧ s2.brcfg = s.brcfg := by
    simp only [s2, s1]
    cases c <;> simp
  have h3 : Memory.wf s3.mem = true ∧ ∀ pa, ¬ (bounded = true ∧ s.recAddr (line * 128) ≤ pa ∧ pa < s.recAddr (line * 128) + 16) →
      cellGet s3.mem pa = cellGet s.mem pa := by
    simp only [s3]
    cases bounded with
    | false => exact ⟨by rw [← h2.1] at h; exact h, fun pa _ => congrArg (cellGet · pa) h2.1⟩
    | true =>
      simp only [Bool.not_true, Bool.false_eq_true, if_false, true_and]
      split
      · exact hrec s2 h2.1 h2.2 _
      · exact hrec s2 h2.1 h2.2 _
  exact ⟨s3.mem, h3.1, hover s3, h3.2⟩

/-- A write of a line by a team leaves a byte that it does not write and whose bound record it does not set. -/
theorem State.writeTeam_other {s : State} (h : Memory.wf s.mem = true) (core ctx vline line : Nat) (p : Quad) (w : LineW) {pa : Nat}
    (hrec : ¬ (pteBnd p = true ∧ s.recAddr (line * 128) ≤ pa ∧ pa < s.recAddr (line * 128) + 16))
    (hw : ∀ e ∈ w, pa ≠ line * 128 + e.1) : cellGet (s.writeTeam core ctx vline line p w).mem pa = cellGet s.mem pa := by
  obtain ⟨m, hm, hmem, hsame⟩ := State.writeLine_mem_over h (some ctx) (pteCls p) (pteKey p) line w (pteBnd p) true
  rw [State.writeTeam, State.l1Mod_mem, hmem, lineCells_other hm _ _ _ hw, hsame pa hrec]

/-- A byte to which all that a write of a line writes there gives one value holds it, where it did before or the write writes it. -/
theorem State.writeTeam_value {s : State} (h : Memory.wf s.mem = true) (core ctx vline line : Nat) (p : Quad) (w : LineW) {pa : Nat}
    {b : Byte} (hrec : ¬ (pteBnd p = true ∧ s.recAddr (line * 128) ≤ pa ∧ pa < s.recAddr (line * 128) + 16))
    (hb : ∀ e ∈ w, pa = line * 128 + e.1 → e.2.1 = b) (hit : (∃ e ∈ w, pa = line * 128 + e.1) ∨ cellGet s.mem pa = b) :
    cellGet (s.writeTeam core ctx vline line p w).mem pa = b := by
  obtain ⟨m, hm, hmem, hsame⟩ := State.writeLine_mem_over h (some ctx) (pteCls p) (pteKey p) line w (pteBnd p) true
  rw [State.writeTeam, State.l1Mod_mem, hmem]
  exact lineCells_value hm _ _ _ _ hb (hit.imp_right (fun he => (hsame pa hrec).trans he))

/-- What a write of a line by a team keeps: canonical memory, the scratchpads, and the carve-out. -/
theorem State.writeTeam_keeps {s : State} (h : Memory.wf s.mem = true) (core ctx vline line : Nat) (p : Quad) (w : LineW) :
    Memory.wf (s.writeTeam core ctx vline line p w).mem = true ∧ (s.writeTeam core ctx vline line p w).groups = s.groups ∧
      (s.writeTeam core ctx vline line p w).brcfg = s.brcfg := by
  refine ⟨?_, ?_, ?_⟩
  · rw [State.writeTeam, State.l1Mod_mem]
    exact State.writeLine_wf h ..
  · simp [State.writeTeam, State.l1Mod]
  · simp [State.writeTeam, State.l1Mod]

/-! ### Line operations of a list of writes -/

/-- The write writes the byte at a physical address. -/
def Wr.covers (w : Wr) (pa : Nat) : Prop := ∃ va pa0 q, w.c.at_ = .mem va pa0 q ∧ pa0 ≤ pa ∧ pa < pa0 + w.bs.length

/-- The write gives the byte at a physical address a value. -/
def Wr.gives (w : Wr) (pa : Nat) (b : Byte) : Prop :=
  ∃ va pa0 q, w.c.at_ = .mem va pa0 q ∧ pa0 ≤ pa ∧ pa < pa0 + w.bs.length ∧ w.bs.getD (pa - pa0) 0 = b

/-- The write sets a bound record that the byte at a physical address belongs to. -/
def Wr.bounds (w : Wr) (s : State) (pa : Nat) : Prop :=
  ∃ va pa0 q, w.c.at_ = .mem va pa0 q ∧ pteBnd q = true ∧ s.recAddr (lineOf pa0 * 128) ≤ pa ∧
    pa < s.recAddr (lineOf pa0 * 128) + 16

/-- The line operations after one more write. -/
theorem lineOps_concat (ws : List Wr) (w : Wr) : lineOps (ws ++ [w]) =
    match w.c.at_ with
    | .mem va pa p => tset (lineOps ws) (lineOf pa)
        (lineAdd (tgetD (lineOps ws) (lineOf pa) ([], p, va / 128)).1 (pa % 128) w.bs w.bnd, p, va / 128)
    | _ => lineOps ws := by
  rw [lineOps, List.foldl_append]
  rfl

/-- A line operation stands under a page of one of the writes, and each of its bytes comes from one. -/
theorem lineOps_from (ws : List Wr) : ∀ e ∈ lineOps ws,
    (∃ w ∈ ws, ∃ va pa, w.c.at_ = .mem va pa e.2.2.1 ∧ lineOf pa = e.1) ∧
      ∀ x ∈ e.2.1, ∃ w ∈ ws, w.gives (e.1 * 128 + x.1) x.2.1 := by
  induction ws using List.reverseRecOn with
  | nil => intro e he; cases he
  | append_singleton ws w ih =>
    have hold {e : Nat × LineW × Quad × Nat} (he : e ∈ lineOps ws) :
        (∃ u ∈ ws ++ [w], ∃ va pa, u.c.at_ = .mem va pa e.2.2.1 ∧ lineOf pa = e.1) ∧
          ∀ x ∈ e.2.1, ∃ u ∈ ws ++ [w], u.gives (e.1 * 128 + x.1) x.2.1 := by
      obtain ⟨⟨u, hu, h1⟩, h2⟩ := ih e he
      refine ⟨⟨u, List.mem_append_left _ hu, h1⟩, fun x hx => ?_⟩
      obtain ⟨u, hu, h3⟩ := h2 x hx
      exact ⟨u, List.mem_append_left _ hu, h3⟩
    intro e he
    rw [lineOps_concat] at he
    split at he
    · rename_i va pa p hat
      obtain rfl | he := mem_of_mem_tset he
      · refine ⟨⟨w, List.mem_append_right _ List.mem_cons_self, va, pa, hat, rfl⟩, fun x hx => ?_⟩
        obtain hx | ⟨h1, h2, h3⟩ := mem_lineAdd hx
        · cases hg : tget (lineOps ws) (lineOf pa) with
          | none => simp [tgetD, hg] at hx
          | some y =>
            have hy : x ∈ y.1 := by simpa [tgetD, hg] using hx
            exact (hold (mem_of_tget hg)).2 x hy
        · refine ⟨w, List.mem_append_right _ List.mem_cons_self, va, pa, p, hat, ?_, ?_, ?_⟩
          · simp only [lineOf]; omega
          · simp only [lineOf]; omega
          · rw [h3]
            congr 1
            simp only [lineOf]
            omega
      · exact hold he
    · exact hold he

/-- Line operations have an entry for a byte. -/
def LineOps.HasByte (t : LineOps) (pa : Nat) : Prop :=
  ∃ y line o, tget t line = some y ∧ (tget y.1 o).isSome ∧ pa = line * 128 + o

theorem lineOps_hasByte (ws : List Wr) (pa : Nat) (h : ∃ w ∈ ws, w.covers pa) : LineOps.HasByte (lineOps ws) pa := by
  induction ws using List.reverseRecOn with
  | nil => obtain ⟨w, hw, -⟩ := h; cases hw
  | append_singleton ws w ih =>
    obtain ⟨u, hu, hc⟩ := h
    rw [lineOps_concat]
    obtain hu | hu := List.mem_append.mp hu
    · obtain ⟨y, line, o, hy, ho, hpa⟩ := ih ⟨u, hu, hc⟩
      split
      · rename_i va pa0 p hat
        by_cases hl : line = lineOf pa0
        · subst hl
          refine ⟨_, _, o, tget_tset_self .., tget_lineAdd (.inl ?_), hpa⟩
          simpa [tgetD, hy] using ho
        · exact ⟨y, line, o, (tget_tset_other _ _ _ _ hl).trans hy, ho, hpa⟩
      · exact ⟨y, line, o, hy, ho, hpa⟩
    · obtain rfl := List.mem_singleton.mp hu
      obtain ⟨va, pa0, q, hat, h1, h2⟩ := hc
      rw [hat]
      refine ⟨_, _, pa0 % 128 + (pa - pa0), tget_tset_self .., tget_lineAdd (.inr ⟨by omega, by omega⟩), ?_⟩
      simp only [lineOf]
      omega

/-- Each byte that a write covers stands in a line operation. -/
theorem lineOps_hit {ws : List Wr} {pa : Nat} (h : ∃ w ∈ ws, w.covers pa) : ∃ e ∈ lineOps ws, ∃ x ∈ e.2.1, pa = e.1 * 128 + x.1 := by
  obtain ⟨y, line, o, hy, ho, hpa⟩ := lineOps_hasByte ws pa h
  obtain ⟨x, hx⟩ := Option.isSome_iff_exists.mp ho
  exact ⟨_, mem_of_tget hy, _, mem_of_tget hx, hpa⟩

/-! ### Old bytes under bits that stay (R262) -/

/-- A write after its old bytes are read: at its place, not longer, and itself where no bit stays. -/
def Settled (w w' : Wr) : Prop := w'.c = w.c ∧ w'.bs.length ≤ w.bs.length ∧ (w.keep = [] → w' = w)

theorem Settled.refl (w : Wr) : Settled w w := ⟨rfl, Nat.le_refl _, fun _ => rfl⟩

theorem Wr.onto_settled (w : Wr) (old : List Byte) (ob : Half) : Settled w (w.onto old ob) := by
  unfold Wr.onto
  split
  · exact Settled.refl w
  · rename_i hk
    refine ⟨rfl, ?_, fun h => absurd (by rw [h]; rfl) hk⟩
    simp only [List.length_map, List.length_zip]
    omega

theorem State.settle_settled (s : State) (v : Nat → Option VLine) (w : Wr) :
    Settled w (s.settle v w).1 ∧ SameData s (s.settle v w).2 := by
  unfold State.settle
  split
  · exact ⟨Settled.refl w, SameData.refl s⟩
  · split
    · exact ⟨w.onto_settled .., SameData.refl s⟩
    · exact ⟨Settled.refl w, SameData.refl s⟩
    · rename_i va pa p _
      have h := s.readBytes_data pa w.c.len (pteKey p)
      dsimp only
      split <;> exact ⟨w.onto_settled .., h⟩

theorem State.settleAll_settled (s : State) (v : Nat → Option VLine) (ws : List Wr) :
    List.Forall₂ Settled ws (s.settleAll v ws).1 ∧ SameData s (s.settleAll v ws).2 := by
  induction ws using List.reverseRecOn with
  | nil => exact ⟨.nil, SameData.refl s⟩
  | append_singleton ws w ih =>
    rw [State.settleAll, List.foldl_append]
    obtain ⟨h1, h2⟩ := (s.settleAll v ws).2.settle_settled v w
    exact ⟨List.rel_append ih.1 (.cons h1 .nil), ih.2.trans h2⟩

/-- A settled write covers, bounds and gives no more than the write. -/
theorem Settled.covers {w w' : Wr} {pa : Nat} (h : Settled w w') (hc : w'.covers pa) : w.covers pa := by
  obtain ⟨hat, hlen, -⟩ := h
  obtain ⟨va, pa0, q, h1, h2, h3⟩ := hc
  exact ⟨va, pa0, q, hat ▸ h1, h2, by omega⟩

theorem Settled.bounds {w w' : Wr} {s : State} {pa : Nat} (h : Settled w w') (hc : w'.bounds s pa) : w.bounds s pa := by
  obtain ⟨va, pa0, q, h1, h2⟩ := hc
  exact ⟨va, pa0, q, h.1 ▸ h1, h2⟩

theorem Wr.gives.covers {w : Wr} {pa : Nat} {b : Byte} (h : w.gives pa b) : w.covers pa := by
  obtain ⟨va, pa0, q, h1, h2, h3, -⟩ := h
  exact ⟨va, pa0, q, h1, h2, h3⟩

/-! ### Scratchpads -/

/-- Setting bytes of a scratchpad leaves the others. -/
theorem tget_setBytes (bs : List (Byte × Nat)) (off o : Nat) : ∀ t : Tbl Byte, (∀ b ∈ bs, o ≠ off + b.2) →
    tget (bs.foldl (fun t b => tset t (off + b.2) b.1) t) o = tget t o := by
  induction bs with
  | nil => exact fun _ _ => rfl
  | cons b bs ih =>
    intro t h
    rw [List.foldl_cons, ih _ (fun b hb => h b (List.mem_cons_of_mem _ hb)), tget_tset_other _ _ _ _ (h b List.mem_cons_self)]

theorem State.scrGet_scrSet_other (s : State) (g o : Nat) (bs : List Byte) {g' off : Nat}
    (h : ¬ (g' = g ∧ o ≤ off ∧ off < o + bs.length)) : (s.scrSet g o bs).scrGet g' off = s.scrGet g' off := by
  unfold State.scrGet State.scrSet State.group State.modGroup
  by_cases hg : g' = g
  · subst hg
    simp only [tget_tmod_self]
    cases tget s.groups g' with
    | none => rfl
    | some x =>
      simp only [Option.map_some]
      rw [tget_setBytes]
      intro b hb he
      have hlt := (List.mem_zipIdx hb).2.1
      exact h ⟨rfl, by omega, by omega⟩
  · simp only [tget_tmod_other _ _ _ _ hg]

/-- The write sets a byte of a scratchpad. -/
def Wr.sets (w : Wr) (g off : Nat) : Prop := ∃ o, w.c.at_ = .scr g o ∧ o ≤ off ∧ off < o + w.bs.length

theorem Settled.sets {w w' : Wr} {g off : Nat} (h : Settled w w') (hc : w'.sets g off) : w.sets g off := by
  obtain ⟨hat, hlen, -⟩ := h
  obtain ⟨o, h1, h2, h3⟩ := hc
  exact ⟨o, hat ▸ h1, h2, by omega⟩

/-! ### All writes of a store -/

/-- The writes of a store to scratchpads. -/
def State.scrWrites (s : State) (ws : List Wr) : State :=
  ws.foldl (fun s w => match w.c.at_ with | .scr g off => s.scrSet g off w.bs | _ => s) s

/-- The line operations of a store. -/
def State.lineWrites (s : State) (core ctx : Nat) (es : LineOps) : State :=
  es.foldl (fun s e => s.writeTeam core ctx e.2.2.2 e.1 e.2.2.1 e.2.1) s

/-- The poison of a store. -/
def State.psnWrites (s : State) (core ctx : Nat) (ns : List (Nat × Nat)) : State :=
  ns.foldl (fun s n => (s.setPoison n.1 true).l1Mod core ctx n.2 (fun l => { l with poison := true })) s

theorem State.performWrites_parts (s : State) (core ctx : Nat) (ws : List Wr) : s.performWrites core ctx ws =
    (((s.settleAll (fun _ => none) ws).2.scrWrites (s.settleAll (fun _ => none) ws).1).lineWrites core ctx
      (lineOps (s.settleAll (fun _ => none) ws).1)).psnWrites core ctx (psnLines (s.settleAll (fun _ => none) ws).1) := rfl

theorem State.scrWrites_mem (s : State) (ws : List Wr) : (s.scrWrites ws).mem = s.mem ∧ (s.scrWrites ws).brcfg = s.brcfg := by
  refine foldl_keeps (P := fun t : State => t.mem = s.mem ∧ t.brcfg = s.brcfg) (fun t w h => ?_) ws s ⟨rfl, rfl⟩
  split <;> exact h

theorem State.scrGet_scrWrites {s : State} {ws : List Wr} {g off : Nat} (h : ∀ w ∈ ws, ¬ w.sets g off) :
    (s.scrWrites ws).scrGet g off = s.scrGet g off := by
  refine List.foldlRecOn ws _ (motive := fun t : State => t.scrGet g off = s.scrGet g off) rfl (fun t ht w hw => ?_)
  split
  · rename_i g' o hat
    rw [State.scrGet_scrSet_other, ht]
    rintro ⟨rfl, h1, h2⟩
    exact h w hw ⟨o, hat, h1, h2⟩
  · exact ht

theorem State.psnWrites_data (s : State) (core ctx : Nat) (ns : List (Nat × Nat)) : SameData s (s.psnWrites core ctx ns) := by
  refine foldl_keeps (P := fun t : State => SameData s t) (fun t n h => h.trans ?_) ns s (SameData.refl s)
  exact ⟨by simp, by simp [State.l1Mod], by simp [State.l1Mod]⟩

theorem State.lineWrites_keeps {s : State} (h : Memory.wf s.mem = true) (core ctx : Nat) (es : LineOps) :
    Memory.wf (s.lineWrites core ctx es).mem = true ∧ (s.lineWrites core ctx es).groups = s.groups ∧
      (s.lineWrites core ctx es).brcfg = s.brcfg := by
  refine foldl_keeps (P := fun t : State => Memory.wf t.mem = true ∧ t.groups = s.groups ∧ t.brcfg = s.brcfg)
    (fun t e ht => ?_) es s ⟨h, rfl, rfl⟩
  obtain ⟨h1, h2, h3⟩ := State.writeTeam_keeps ht.1 core ctx e.2.2.2 e.1 e.2.2.1 e.2.1
  exact ⟨h1, h2.trans ht.2.1, h3.trans ht.2.2⟩

/-- A line operation sets a bound record that the byte at a physical address belongs to. -/
def LineOps.bounds (e : Nat × LineW × Quad × Nat) (s : State) (pa : Nat) : Prop :=
  pteBnd e.2.2.1 = true ∧ s.recAddr (e.1 * 128) ≤ pa ∧ pa < s.recAddr (e.1 * 128) + 16

theorem LineOps.bounds_congr {e : Nat × LineW × Quad × Nat} {s t : State} {pa : Nat} (h : t.brcfg = s.brcfg) :
    LineOps.bounds e t pa ↔ LineOps.bounds e s pa := by
  simp only [LineOps.bounds, State.recAddr_congr h]

/-- Line operations leave a byte that none writes and whose bound record none sets. -/
theorem State.lineWrites_other {s : State} (h : Memory.wf s.mem = true) (core ctx : Nat) {es : LineOps} {pa : Nat}
    (hrec : ∀ e ∈ es, ¬ LineOps.bounds e s pa) (hw : ∀ e ∈ es, ∀ x ∈ e.2.1, pa ≠ e.1 * 128 + x.1) :
    cellGet (s.lineWrites core ctx es).mem pa = cellGet s.mem pa := by
  induction es generalizing s with
  | nil => rfl
  | cons e es ih =>
    obtain ⟨h1, -, h3⟩ := State.writeTeam_keeps h core ctx e.2.2.2 e.1 e.2.2.1 e.2.1
    refine (ih h1 (fun e he => ?_) (fun e he => hw e (List.mem_cons_of_mem _ he))).trans ?_
    · rw [LineOps.bounds_congr h3]
      exact hrec e (List.mem_cons_of_mem _ he)
    · exact State.writeTeam_other h _ _ _ _ _ _ (hrec e List.mem_cons_self) (hw e List.mem_cons_self)

/-- A byte to which all line operations that write it give one value holds it, where one writes it or it held it before. -/
theorem State.lineWrites_value {s : State} (h : Memory.wf s.mem = true) (core ctx : Nat) {es : LineOps} {pa : Nat} {b : Byte}
    (hrec : ∀ e ∈ es, ¬ LineOps.bounds e s pa) (hb : ∀ e ∈ es, ∀ x ∈ e.2.1, pa = e.1 * 128 + x.1 → x.2.1 = b)
    (hit : (∃ e ∈ es, ∃ x ∈ e.2.1, pa = e.1 * 128 + x.1) ∨ cellGet s.mem pa = b) :
    cellGet (s.lineWrites core ctx es).mem pa = b := by
  induction es generalizing s with
  | nil => exact hit.resolve_left (by simp)
  | cons e es ih =>
    obtain ⟨h1, -, h3⟩ := State.writeTeam_keeps h core ctx e.2.2.2 e.1 e.2.2.1 e.2.1
    have hstep := State.writeTeam_value (core := core) (ctx := ctx) (vline := e.2.2.2) (line := e.1) (p := e.2.2.1) (w := e.2.1) h
      (hrec e List.mem_cons_self) (hb e List.mem_cons_self)
    refine ih h1 (fun e he => ?_) (fun e he => hb e (List.mem_cons_of_mem _ he)) ?_
    · rw [LineOps.bounds_congr h3]
      exact hrec e (List.mem_cons_of_mem _ he)
    · obtain ⟨e', he', hx⟩ | hs := hit
      · obtain rfl | he' := List.mem_cons.mp he'
        · exact .inr (hstep (.inl hx))
        · exact .inl ⟨e', he', hx⟩
      · exact .inr (hstep (.inr hs))

/-! ### What a store that is performed leaves and writes -/

/-- A settled write comes from a write. -/
theorem exists_of_settled {ws ws' : List Wr} (h : List.Forall₂ Settled ws ws') {w' : Wr} (hw : w' ∈ ws') : ∃ w ∈ ws, Settled w w' := by
  induction h with
  | nil => cases hw
  | cons hr _ ih =>
    obtain rfl | hw := List.mem_cons.mp hw
    · exact ⟨_, List.mem_cons_self, hr⟩
    · obtain ⟨w, hin, hs⟩ := ih hw
      exact ⟨w, List.mem_cons_of_mem _ hin, hs⟩

/-- A write has its settled write. -/
theorem exists_settled {ws ws' : List Wr} (h : List.Forall₂ Settled ws ws') {w : Wr} (hw : w ∈ ws) : ∃ w' ∈ ws', Settled w w' := by
  induction h with
  | nil => cases hw
  | cons hr _ ih =>
    obtain rfl | hw := List.mem_cons.mp hw
    · exact ⟨_, List.mem_cons_self, hr⟩
    · obtain ⟨w', hin, hs⟩ := ih hw
      exact ⟨w', List.mem_cons_of_mem _ hin, hs⟩

section
variable {s : State} {ws : List Wr}

/-- The state in which the line operations of a store begin. -/
def State.beforeLines (s : State) (ws : List Wr) : State :=
  (s.settleAll (fun _ => none) ws).2.scrWrites (s.settleAll (fun _ => none) ws).1

theorem State.beforeLines_mem (s : State) (ws : List Wr) : (s.beforeLines ws).mem = s.mem ∧ (s.beforeLines ws).brcfg = s.brcfg := by
  obtain ⟨-, hd⟩ := s.settleAll_settled (fun _ => none) ws
  obtain ⟨h1, h2⟩ := (s.settleAll (fun _ => none) ws).2.scrWrites_mem (s.settleAll (fun _ => none) ws).1
  exact ⟨h1.trans hd.mem, h2.trans hd.brcfg⟩

/-- A bound record that a line operation of a store sets is one that a write of the store sets. -/
theorem not_bounds_lineOps {pa : Nat} (h : ∀ w ∈ ws, ¬ w.bounds s pa) :
    ∀ e ∈ lineOps (s.settleAll (fun _ => none) ws).1, ¬ LineOps.bounds e (s.beforeLines ws) pa := by
  intro e he hb
  rw [LineOps.bounds_congr (s.beforeLines_mem ws).2] at hb
  obtain ⟨⟨w', hw', va, pa0, hat, hl⟩, -⟩ := lineOps_from _ e he
  obtain ⟨w, hw, hs⟩ := exists_of_settled (s.settleAll_settled (fun _ => none) ws).1 hw'
  exact h w hw (hs.bounds ⟨va, pa0, _, hat, hl ▸ hb⟩)

/-- A performed store leaves a byte of memory that no write covers and whose bound record none sets. -/
theorem State.cellGet_performWrites (h : Memory.wf s.mem = true) (core ctx : Nat) {pa : Nat} (hc : ∀ w ∈ ws, ¬ w.covers pa)
    (hb : ∀ w ∈ ws, ¬ w.bounds s pa) : cellGet (s.performWrites core ctx ws).mem pa = cellGet s.mem pa := by
  obtain ⟨hm, -⟩ := s.beforeLines_mem ws
  rw [State.performWrites_parts, (State.psnWrites_data ..).mem]
  refine (State.lineWrites_other (s := s.beforeLines ws) (hm ▸ h) core ctx (not_bounds_lineOps hb) ?_).trans (congrArg (cellGet · pa) hm)
  intro e he x hx hpa
  obtain ⟨w', hw', hg⟩ := (lineOps_from _ e he).2 x hx
  obtain ⟨w, hw, hs⟩ := exists_of_settled (s.settleAll_settled (fun _ => none) ws).1 hw'
  exact hc w hw (hs.covers (hpa ▸ hg.covers))

/-- A performed store leaves a byte of a scratchpad that no write sets. -/
theorem State.scrGet_performWrites (h : Memory.wf s.mem = true) (core ctx : Nat) {g off : Nat} (hc : ∀ w ∈ ws, ¬ w.sets g off) :
    (s.performWrites core ctx ws).scrGet g off = s.scrGet g off := by
  obtain ⟨hm, -⟩ := s.beforeLines_mem ws
  obtain ⟨hf, hd⟩ := s.settleAll_settled (fun _ => none) ws
  obtain ⟨-, hg, -⟩ := State.lineWrites_keeps (s := s.beforeLines ws) (hm ▸ h) core ctx (lineOps (s.settleAll (fun _ => none) ws).1)
  have hlines : (State.lineWrites (s.beforeLines ws) core ctx (lineOps (s.settleAll (fun _ => none) ws).1)).scrGet g off =
      (s.beforeLines ws).scrGet g off := by simp only [State.scrGet, State.group, hg]
  rw [State.performWrites_parts, (State.psnWrites_data ..).scrGet]
  refine hlines.trans ((State.scrGet_scrWrites fun w' hw' hs => ?_).trans (hd.scrGet g off))
  obtain ⟨w, hw, hset⟩ := exists_of_settled hf hw'
  exact hc w hw (hset.sets hs)

/-- A byte that a performed store covers, and to which all writes that cover it give one value, holds that value. -/
theorem State.performWrites_value (h : Memory.wf s.mem = true) (core ctx : Nat) {pa : Nat} {b : Byte} (hc : ∃ w ∈ ws, w.covers pa)
    (hb : ∀ w ∈ ws, ¬ w.bounds s pa) (hv : ∀ w ∈ ws, ∀ va pa0 q, w.c.at_ = .mem va pa0 q → pa0 ≤ pa → pa < pa0 + w.bs.length →
      w.keep = [] ∧ w.bs.getD (pa - pa0) 0 = b) : cellGet (s.performWrites core ctx ws).mem pa = b := by
  obtain ⟨hm, -⟩ := s.beforeLines_mem ws
  obtain ⟨hf, -⟩ := s.settleAll_settled (fun _ => none) ws
  rw [State.performWrites_parts, (State.psnWrites_data ..).mem]
  refine State.lineWrites_value (s := s.beforeLines ws) (hm ▸ h) core ctx (not_bounds_lineOps hb) ?_ (.inl (lineOps_hit ?_))
  · intro e he x hx hpa
    obtain ⟨w', hw', va, pa0, q, hat, h1, h2, h3⟩ := (lineOps_from _ e he).2 x hx
    rw [← hpa] at h1 h2 h3
    obtain ⟨w, hw, hs⟩ := exists_of_settled hf hw'
    obtain ⟨hcw, hlen, hk⟩ := hs
    obtain ⟨hkeep, hval⟩ := hv w hw va pa0 q (hcw ▸ hat) h1 (by omega)
    rw [hk hkeep] at h3
    exact h3.symm.trans hval
  · obtain ⟨w, hw, va, pa0, q, hat, h1, h2⟩ := hc
    obtain ⟨w', hw', hs⟩ := exists_settled hf hw
    have he := hs.2.2 (hv w hw va pa0 q hat h1 h2).1
    exact ⟨w', hw', he ▸ ⟨va, pa0, q, hat, h1, h2⟩⟩

end

/-! ### Stores -/

theorem Opnd.eq_s_of_isS {o : Opnd} (h : o.isS = true) : ∃ k, o = .s k := by
  cases o with
  | s k => exact ⟨k, rfl⟩
  | _ => cases h

/-- The form of `stc` as its body looks it up. -/
theorem stcForm_at {s : State} {a : At} {h : Hdr} {b : Opnd} {k : Nat}
    (hf : (s.issued a).asf a.tm.ctx ((s.viewAt a h).num b) = k) :
    (s.issued a).asf (s.viewAt a h).tm.ctx ((s.viewAt a h).num b) = k := hf

/-- A store form is carried out as a store of its pieces. -/
theorem exec_of_storeForm {i : Instr} {h : Hdr} {ports : List Port} {s : State} {a : At} {err : Option (Cause × Nat × Nat)}
    {pcs : List Piece} (hf : storeForm s a i = some (h, ports, err, pcs)) : ∃ body,
      exec i s = instr i h (.token .mem) ports body s ∧
        body (s.viewAt a h) (s.issued a) = (s.viewAt a h).storeNew (s.issued a) err pcs := by
  unfold storeForm at hf
  split at hf
  · simp only [Option.some.injEq, Prod.mk.injEq] at hf
    obtain ⟨rfl, rfl, rfl, rfl⟩ := hf
    exact ⟨_, rfl, rfl⟩
  · simp only [Option.some.injEq, Prod.mk.injEq] at hf
    obtain ⟨rfl, rfl, rfl, rfl⟩ := hf
    exact ⟨_, rfl, rfl⟩
  · rename_i ty d o b off
    dsimp only at hf
    split at hf
    · rename_i h1
      split at hf
      · obtain ⟨k, rfl⟩ := Opnd.eq_s_of_isS ‹_›
        simp only [Option.some.injEq, Prod.mk.injEq] at hf
        obtain ⟨rfl, rfl, rfl, rfl⟩ := hf
        refine ⟨_, rfl, ?_⟩
        rw [stcForm_at h1]
        rfl
      · cases hf
    · split at hf
      · rename_i h2
        split at hf
        · obtain ⟨k, rfl⟩ := Opnd.eq_s_of_isS ‹_›
          simp only [Option.some.injEq, Prod.mk.injEq] at hf
          obtain ⟨rfl, rfl, rfl, rfl⟩ := hf
          refine ⟨_, rfl, ?_⟩
          rw [stcForm_at h2]
          rfl
        · cases hf
      · rename_i h1 h2
        simp only [Option.some.injEq, Prod.mk.injEq] at hf
        obtain ⟨rfl, rfl, rfl, rfl⟩ := hf
        refine ⟨_, rfl, ?_⟩
        split
        · exact absurd ‹_› h1
        · exact absurd ‹_› h2
        · rfl
  · cases hf

/-- The operation of a store is held, or entered; it leaves the state, or performs its writes, which it does where there is
room for its lines and nothing makes it wait. -/
theorem X.storeOp_ends {x : X} {s : State} {ps : List Part} (hst : x.st = none) :
    let ws := ps.map Part.wr
    let cs := ws.map (fun w => w.c)
    ∃ u, (u = s ∨ u = s.performWrites x.tm.core x.tm.ctx ws) ∧
      ((∃ w, x.storeOp s ⟨.mem, none⟩ 0 ps 0 = .hold u w) ∨ ∃ o, x.storeOp s ⟨.mem, none⟩ 0 ps 0 = .token u o) ∧
      (s.lineRoom x.tm.core (lineCount cs) = true → x.late = false → s.behind x.t (x.opNum s) cs = false →
        s.unlinked x.tm (.store ws none) = false → u = s.performWrites x.tm.core x.tm.ctx ws) := by
  intro ws cs
  by_cases hroom : s.lineRoom x.tm.core (lineCount cs) = true
  · have hop := X.storeOp_ok (x := x) (stage := 0) hroom
    dsimp only at hop
    cases hslow : x.late || s.behind x.t (x.opNum s) cs || s.unlinked x.tm (.store ws none)
    · rw [hslow] at hop
      exact ⟨_, .inr rfl, .inr ⟨_, hop⟩, fun _ _ _ _ => rfl⟩
    · rw [hslow] at hop
      refine ⟨_, .inl rfl, .inr ⟨_, hop⟩, fun _ h1 h2 h3 => ?_⟩
      rw [h1, h2, h3] at hslow
      cases hslow
  · refine ⟨s, .inl rfl, .inl ⟨⟨s.clk, s.rt, ps.flatMap (fun p => p.piece.enc), 0, [], none, .open⟩, ?_⟩, fun h => absurd h hroom⟩
    have hc : (StUnit.mk .mem none).u = .mem ∧ (!s.lineRoom x.tm.core (lineCount cs)) = true := ⟨rfl, by simpa using hroom⟩
    refine (if_pos hc).trans ?_
    rw [X.holdParts, X.holdOn, hst]

theorem Part.bounds_congr {s t : State} (h : t.brcfg = s.brcfg) (p : Part) (pa : Nat) : p.wr.bounds t pa ↔ p.bounds s pa := by
  simp only [Wr.bounds, Part.bounds, State.recAddr_congr h]
  rfl

/-- A store outside a task, with nothing of its context in the side log, writes the bytes of its parts (R256, R264, R280). -/
theorem stores_write_their_parts {i : Instr} {h : Hdr} {ports : List Port} {s : State} {a : At}
    {err : Option (Cause × Nat × Nat)} {pcs : List Piece} {ps : List Part} {s1 t : State}
    (hf : storeForm s a i = some (h, ports, err, pcs)) (r : Ready s a h ports) (herr : err = none) (hv : a.tm.versions = false)
    (hwf : Memory.wf s.mem = true) (hside : ∀ e ∈ (s.core a.tm.core).side, e.ctx ≠ a.tm.ctx)
    (hres : ((s.issued a).unspin (s.viewAt a h)).resolveParts a.tm [] (pcs.flatMap (fun p =>
      (cutBytes p.addr (a.tm.runs_ p.lane p.addr p.bs.length) p.bs p.keep).map (fun r => (p, r)))) = (ps, s1))
    (hlook : ∀ p ∈ ps, ∃ pa q, p.look = .ok pa q)
    (hbreach : (BitVec.ofNat 64 ((s.viewAt a h).partsBreach s1 (ps.filter Part.checked)) : Mask) = 0)
    (ht : exec i s = .next t) :
    (∀ pa, (∀ p ∈ ps, ¬ p.covers pa) → (∀ p ∈ ps, ¬ p.bounds s pa) → cellGet t.mem pa = cellGet s.mem pa) ∧
    (∀ g off, (∀ p ∈ ps, ∀ o, p.at_ = .scr g o → ¬ (o ≤ off ∧ off < o + p.bs.length)) → t.scrGet g off = s.scrGet g off) ∧
    (∀ pa b, a.late = false → s1.lineRoom a.tm.core (lineCount (ps.map (fun p => p.wr.c))) = true →
      s1.behind a.t s1.nextOp (ps.map (fun p => p.wr.c)) = false → s1.unlinked a.tm (.store (ps.map Part.wr) none) = false →
      (∃ p ∈ ps, p.covers pa) → (∀ p ∈ ps, ¬ p.bounds s pa) →
      (∀ p ∈ ps, ∀ va pa0 q, p.at_ = .mem va pa0 q → pa0 ≤ pa → pa < pa0 + p.bs.length →
        p.keep = [] ∧ p.bs.getD (pa - pa0) 0 = b) →
      cellGet t.mem pa = b) := by
  subst herr
  obtain ⟨body, hi, hb⟩ := exec_of_storeForm hf
  have hun : SameHeld s ((s.issued a).unspin (s.viewAt a h)) := (s.issued_data a).trans ⟨⟨rfl, rfl, rfl⟩, rfl⟩
  have hd1 : SameHeld s s1 := hun.trans (State.resolveParts_ok hres (hun.noSide hside))
  have hstore : body (s.viewAt a h) (s.issued a) = (s.viewAt a h).storeOp s1 ⟨.mem, none⟩ 0 ps 0 :=
    hb.trans (X.storeAs_ok (x := s.viewAt a h) (k := ⟨.mem, none⟩) (stage := 0) rfl hv hres hlook hbreach)
  obtain ⟨u, hu, hend, hnow⟩ := X.storeOp_ends (x := s.viewAt a h) (s := s1) (ps := ps) rfl
  rw [hi] at ht
  have hut : SameData u t := instr_data r (by rw [hstore]; exact hend) ht
  have hwf1 : Memory.wf s1.mem = true := hd1.mem ▸ hwf
  have hbounds {pa : Nat} (hn : ∀ p ∈ ps, ¬ p.bounds s pa) : ∀ w ∈ ps.map Part.wr, ¬ w.bounds s1 pa := by
    intro w hw
    obtain ⟨p, hp, rfl⟩ := List.mem_map.mp hw
    rw [Part.bounds_congr hd1.brcfg]
    exact hn p hp
  refine ⟨fun pa hc hn => ?_, fun g off hn => ?_, fun pa b hl hroom hbeh hlink hc hn hval => ?_⟩
  · rw [hut.mem]
    obtain rfl | rfl := hu
    · rw [hd1.mem]
    · rw [State.cellGet_performWrites hwf1 _ _ ?_ (hbounds hn), hd1.mem]
      intro w hw
      obtain ⟨p, hp, rfl⟩ := List.mem_map.mp hw
      exact hc p hp
  · rw [hut.scrGet]
    obtain rfl | rfl := hu
    · exact hd1.scrGet g off
    · rw [State.scrGet_performWrites hwf1 _ _ ?_, hd1.scrGet]
      rintro w hw ⟨o, hat, h1, h2⟩
      obtain ⟨p, hp, rfl⟩ := List.mem_map.mp hw
      exact hn p hp o hat ⟨h1, h2⟩
  · have hcs : (ps.map Part.wr).map (fun w => w.c) = ps.map (fun p => p.wr.c) := List.map_map
    rw [hcs] at hnow
    rw [hut.mem, hnow hroom hl hbeh hlink]
    refine State.performWrites_value hwf1 _ _ ?_ (hbounds hn) ?_
    · obtain ⟨p, hp, hcov⟩ := hc
      exact ⟨p.wr, List.mem_map_of_mem hp, hcov⟩
    · intro w hw
      obtain ⟨p, hp, rfl⟩ := List.mem_map.mp hw
      exact hval p hp

/-! ### The obligation -/

/-- Settles O59: a store's writes are followed from its parts to the cells of memory; nothing that a load does reaches them. -/
theorem storesWriteOnlyTheirBytes : Obligations.StoresWriteOnlyTheirBytes := by
  refine ⟨fun i h ports s a err pcs ps s1 t => stores_write_their_parts, ?_⟩
  intro i h via ty c d o b off s a accs s1 t hi r hside x n as herr hres hecc hv ht
  obtain ⟨rfl, rfl⟩ | ⟨rfl, rfl⟩ | ⟨rfl, rfl, rfl⟩ | ⟨rfl, rfl⟩ := hi
  · exact loads_write_nothing rfl r hside herr hres hecc hv ht
  · exact loads_write_nothing rfl r hside herr hres hecc hv ht
  · exact loads_write_nothing rfl r hside herr hres hecc hv ht
  · exact loads_write_nothing rfl r hside herr hres hecc hv ht

end Sys2Proof.Machine
end

section
/-! PROOFS. Fences, and reads and signals of timelines (R281, R290, R313, R314, R321, R322). -/

namespace Sys2Proof.Machine

/-! ### Effects behind a cleared spin counter (R38) -/

@[simp] theorem State.unspin_hole (s : State) (x : X) : (s.unspin x).hole = s.hole := rfl
@[simp] theorem State.unspin_clk (s : State) (x : X) : (s.unspin x).clk = s.clk := rfl

/-- An instruction that nothing stops is at its first issue. -/
@[simp] theorem State.viewAt_st (s : State) (a : At) (h : Hdr) : (s.viewAt a h).st = none := rfl

theorem Team.unspin_path (tm : Team) (pid : Nat) (f : Bool) :
    (tm.unspin pid).path f = { tm.path f with spin := if (tm.path f).pid = pid then 0 else (tm.path f).spin } := by
  cases f <;> simp only [Team.unspin, Team.path, Bool.false_eq_true, if_true, if_false] <;> split <;> rfl

/-- The team of an instruction that nothing stops, its spin counter cleared. -/
theorem State.unspin_issued_team {s : State} {a : At} (r : Live0 s a) (h : Hdr) :
    ∃ tm, tget ((s.issued a).unspin (s.viewAt a h)).teams a.t = some tm ∧ (tm.path a.f).pc = a.path.pc ∧
      (tm.path a.f).ended = false := by
  refine ⟨_, (tget_tmod_self ..).trans (congrArg (Option.map _) (State.issued_team r)), ?_, ?_⟩
  · simp [Team.unspin_path]
  · simpa [Team.unspin_path, At.path] using r.running

/-- An Issue-class instruction outside a task whose effect on the teams is that the spin counter is cleared. -/
theorem out_issue_unspin {s : State} {a : At} {h : Hdr} {ps : List Port} (r : ReadyOut s a h ps) (i : Instr)
    (cls : Cls) (body : X → State → Res) (s1 : State) (hb : body (s.viewAt a h) (s.issued a) = .issue s1)
    (h1 : s1.hole = false) (hc : s1.clk = s.clk) (ht : s1.teams = ((s.issued a).unspin (s.viewAt a h)).teams) :
    answer (s.issue i h cls ps false true body) = .next (s1.issueNext a h (fun tm => tm)) := by
  refine issue_issue r.clear i cls false body s1 (.inl r.acts) hb h1 hc fun tm htm => ?_
  obtain ⟨tm', htm', -, hrun⟩ := State.unspin_issued_team r.clear.live h
  rw [ht, htm'] at htm
  exact Option.some.inj htm ▸ hrun

/-- A token-class instruction outside a task that comes to its operation. -/
theorem out_token {s : State} {a : At} {h : Hdr} {ps : List Port} (r : ReadyOut s a h ps) (i : Instr) (cls : Cls)
    (body : X → State → Res) (o : Op) (s1 : State) (hb : body (s.viewAt a h) (s.issued a) = .token s1 o) (h1 : s1.hole = false) :
    answer (s.issue i h cls ps false true body) = .next (s1.tokenNext a h o) :=
  issue_token r.clear i cls false body o s1 (.inl r.acts) hb h1

/-! ### Fences (R290) -/

/-- An acquire whose reads have completed goes on without the context's L1 lines. -/
theorem X.acquiring_of_reads_done {x : X} {s : State} (sc n : Nat) (cap : List Nat) (k : State → Res)
    (hp : x.pathWaits s Op.reads = false) : x.acquiring s sc n cap k = k (s.acquire x sc) := by
  rw [X.acquiring, hp]
  rfl

/-- A read is an access, so a release that waits for no access leaves no read to wait for (R281). -/
theorem Released.reads_done {s : State} {a : At} {sc : Scope} (r : Released s a sc) : a.pathWaits s Op.reads = false := by
  have hacc := r.2
  unfold At.pathWaits State.pathBusy at hacc ⊢
  split
  · rfl
  · rename_i tm htm
    simp only [htm, List.any_eq_false, Bool.and_eq_true, not_and, Bool.not_eq_true] at hacc ⊢
    intro o ho hpath hread
    simp only [Op.reads, Bool.or_eq_true, Bool.and_eq_true] at hread
    exact hacc o ho hpath (by simpa only [Op.accesses, Bool.or_eq_true] using hread.imp_left And.left)

section
variable {s : State} {a : At} {h : Hdr} {sc : Scope} (hr : Ready s a h [])
include hr

theorem exec_fence_rel (hrel : Released (s.issued a) a sc) :
    exec (.fence h sc .rel) s = .next ((s.issued a).issueNext a h (fun tm => tm)) :=
  instr_done hr _ _ _ (s.issued a) (releasing_ok hrel _ 0 []) ((s.issued_hole a).trans hr.hole) (s.issued_clk a) rfl

/-- A meaning that comes to an acquire with the path's reads completed goes on behind it. -/
theorem instr_acquires (hp : a.pathWaits (s.issued a) Op.reads = false) (i : Instr) (body : X → State → Res)
    (hb : body (s.viewAt a h) (s.issued a) = (s.viewAt a h).acquiring (s.issued a) (Scope.num sc) 0 [] .issue) :
    instr i h .issue [] body s =
      .next (((s.issued a).acquire (s.viewAt a h) (Scope.num sc)).issueNext a h (fun tm => tm)) := by
  obtain ⟨hteams, hclk, hhole, -⟩ := (s.issued a).acquire_same (s.viewAt a h) (Scope.num sc)
  exact instr_done hr i .issue body _ (hb.trans (X.acquiring_of_reads_done _ 0 [] .issue hp))
    (hhole.trans ((s.issued_hole a).trans hr.hole)) (hclk.trans (s.issued_clk a)) hteams

theorem exec_fence_acq (hp : a.pathWaits (s.issued a) Op.reads = false) : exec (.fence h sc .acq) s =
    .next (((s.issued a).acquire (s.viewAt a h) (Scope.num sc)).issueNext a h (fun tm => tm)) :=
  instr_acquires hr hp _ _ rfl

theorem exec_fence_ar (hrel : Released (s.issued a) a sc) : exec (.fence h sc .ar) s =
    .next (((s.issued a).acquire (s.viewAt a h) (Scope.num sc)).issueNext a h (fun tm => tm)) :=
  instr_acquires hr hrel.reads_done _ _ (by simp [releasing_ok hrel])

end

/-! ### Timelines (R313, R314, R321, R322) -/

theorem exec_tlRd {s : State} {a : At} {h : Hdr} {d o : Opnd} {sel : BitVec 8} {g : Group} (hr : Ready s a h (wr 2 d ++ rd 1 o))
    (hg : (s.issued a).group a.tm.group = some g) (hn : (s.viewAt a h).num o ≤ 7) :
    exec (.tlRd h d o sel) s = .next ((s.issued a).fixedNext a h 4 (laneWrites d true (fun x _ =>
      ⟨if x.num o < 2 then g.seen.getD (2 * sel.toNat + x.num o) 0 else if sel = 0 then g.timeline (x.num o) else 0, 0⟩)
      (s.viewAt a h))) := by
  refine instr_fixed hr _ 4 _ _ ?_
  have hg' : (s.issued a).group (s.viewAt a h).tm.group = some g := hg
  simp only [hg', Nat.not_lt.mpr hn, if_false]
  rfl

/-- At the end of a clk `tl.rd` is shown the timelines of the engines as they then stand (R321). -/
theorem State.barEnd_seen {s : State} {n : Nat} {g : Group} (hg : tget s.groups n = some g) :
    ∃ g', tget s.barEnd.groups n = some g' ∧
      g'.seen = [g'.timeline 0, g'.timeline 1, g'.copy.acc, g'.dec.acc, g'.status 0, g'.status 1] := by
  rw [State.barEnd, tget_tmap, hg]
  exact ⟨_, rfl, rfl⟩

theorem exec_tlSig {s : State} {a : At} {h : Hdr} {sc : Scope} {o p : Opnd} {add : Bool}
    (hr : ReadyOut s a h (rd 1 o ++ rd 2 p)) (hrel : Released (s.issued a) a sc)
    (h2 : 2 ≤ (s.viewAt a h).num o) (h7 : (s.viewAt a h).num o ≤ 7) :
    exec (.tlSig h sc o p add) s = .next ((((s.issued a).unspin (s.viewAt a h)).modGroup a.tm.group (fun g =>
      { g with tlq := g.tlq ++ [((s.viewAt a h).num o, (s.viewAt a h).rd.wide p 0, add)] })).issueNext a h (fun tm => tm)) := by
  have hn : ¬ ((s.viewAt a h).num o < 2 ∨ 7 < (s.viewAt a h).num o) := by omega
  refine out_issue_unspin hr _ _ _ _ ?_ (by simp [hr.clear.live.hole]) (by simp) rfl
  simp only [State.viewAt_st, hn, if_false, releasing_ok hrel]
  rfl

/-- Settles O13: fences go on once nothing is left to wait for; a timeline is read as the last end of a clk left it. -/
theorem fencesAndTimelinesComplete : Obligations.FencesAndTimelinesComplete :=
  ⟨⟨fun _ _ _ _ => exec_fence_rel, fun _ _ _ _ => exec_fence_acq, fun _ _ _ _ => exec_fence_ar⟩,
    fun _ _ _ _ _ _ _ => exec_tlRd, fun _ _ _ => State.barEnd_seen, fun _ _ _ _ _ _ _ => exec_tlSig⟩

end Sys2Proof.Machine
end

section
/-! PROOFS. `waitc` and `yield` at their first issue (R323-R325). -/

namespace Sys2Proof.Machine

/-! ### A condition block that nothing is wrong with -/

/-- The words of a well-formed block give its conditions. -/
theorem BlockOk.condsOf {x : X} {s : State} {o : Opnd} {n : BitVec 2} {cs : List Cond} (hb : BlockOk x s o n cs) :
    condsOf (x.condWords o (n.toNat + 1)) = cs := by
  simp only [Machine.condsOf, hb.1]

/-- The evaluation of a block at issue leaves teams and time alone. -/
theorem State.evalBlock_new_same {s s1 : State} {a : At} {h : Hdr} {cs : List Cond} {b : Block}
    (hb : (s.viewAt a h).evalBlock cs (s.issued a) = (b, s1)) :
    s1.teams = (s.issued a).teams ∧ s1.clk = s.clk ∧ s1.rt = s.rt := by
  have haside := X.evalBlock_aside (s.viewAt a h) cs (s.issued a)
  rw [hb] at haside
  exact ⟨haside.teams, haside.clk.trans (s.issued_clk a), haside.rt.trans (s.issued_rt a)⟩

/-! ### waitc (R324) -/

/-- A `waitc` at its first issue whose conditions hold is satisfied. -/
theorem X.waitStep_of_new {x : X} {s s1 : State} {d : Option (BitVec 3)} {all : Bool} {tmo : Nat} {ws : List Nat} {bs : List Bool}
    (hst : x.st = none) (hb : x.evalBlock (condsOf ws) s = (.truth bs, s1))
    (hh : (if all then bs.all id else bs.any id) = true) : x.waitStep s d all tmo ws =
      x.satisfied s1 (condsOf ws) bs (tmo :: ws) (fun s => x.waitOut s d false) := by
  simp [X.waitStep, X.stage, hst, hb, hh]

/-- The write of D at the end of a wait, in the team of any view. -/
theorem X.waitOut_writes {x : X} {s : State} {tm : Team} (d : Option (BitVec 3)) (late : Bool) (ht : tget s.teams x.t = some tm) :
    ∃ s2 tm', x.waitOut s d late = .issue s2 ∧ tget s2.teams x.t = some tm' ∧ s2.clk = s.clk ∧ s2.hole = s.hole ∧
      (tm'.path x.f).ended = (tm.path x.f).ended ∧ PredOut tm' d x.e late := by
  cases d with
  | none => exact ⟨s, tm, rfl, ht, rfl, rfl, rfl, by simp [PredOut]⟩
  | some d =>
    obtain ⟨tm', htm, -, -, -, -, hpath, hpred⟩ :=
      s.landUpd_prd_team x.t x.p.pid d.toNat x.e (if late then x.e else 0) 0 tm ht
    obtain ⟨sp, cl, -, hp⟩ := hpath x.f
    refine ⟨_, tm', rfl, htm, by rw [State.landUpd_eq], State.landUpd_hole .., by rw [hp], ?_⟩
    rintro p hd h7
    obtain rfl : d = p := Option.some.inj hd
    have h7' : d.toNat ≠ 7 := fun e => h7 (BitVec.eq_of_toNat_eq e)
    rw [hpred h7', written_and_mask, written_and_mask]
    cases late <;> simp

/-- An instruction that nothing stops, and whose wait ends in a state with the same teams. -/
theorem waitEnds_of_new {s s1 : State} {a : At} {h : Hdr} {ps : List Port} {d : Option (BitVec 3)} {late : Bool}
    (hr : Ready s a h ps) (i : Instr) (body : X → State → Res)
    (hb : body (s.viewAt a h) (s.issued a) = (s.viewAt a h).waitOut s1 d late)
    (ht : s1.teams = (s.issued a).teams) (hc : s1.clk = s.clk) (hh : s1.hole = false) :
    WaitEnds (instr i h .issue ps body s) a d (a.mask h) late := by
  have hteam : tget s1.teams a.t = _ := (congrArg (tget · a.t) ht).trans (State.issued_team hr.clear.live)
  obtain ⟨s2, tm, hout, ht2, hc2, hh2, hend, hpred⟩ := X.waitOut_writes (x := s.viewAt a h) d late hteam
  have hnext : instr i h .issue ps body s = .next (s2.issueNext a h (fun tm => tm)) := by
    refine issue_issue hr.clear i .issue false body s2 (.inl hr.acts) (hb.trans hout) (hh2.trans hh) (hc2.trans hc) ?_
    intro tm' ht'
    obtain rfl : tm = tm' := Option.some.inj (ht2.symm.trans ht')
    exact hend.trans (by simpa [At.path, State.viewAt] using hr.clear.live.running)
  obtain ⟨hgone, tm', ht', hp'⟩ := State.issueNext_goneOn (h := h) ht2
  exact ⟨_, tm', hnext, hgone, ht', fun p hd h7 => by rw [hp']; exact hpred p hd h7⟩

/-- An instruction that nothing stops, and whose meaning holds in a state with the same teams, waits inside. -/
theorem waitsIn_of_hold {s s1 : State} {a : At} {h : Hdr} {ps : List Port} {stage : Nat} {cap : List Nat}
    (hr : Ready s a h ps) (i : Instr) (body : X → State → Res)
    (hb : body (s.viewAt a h) (s.issued a) = (s.viewAt a h).hold s1 stage cap)
    (ht : s1.teams = (s.issued a).teams) (hh : s1.hole = false) :
    ∃ t, instr i h .issue ps body s = .next t ∧ WaitsIn t a i stage := by
  have hteam : tget s1.teams a.t = _ := (congrArg (tget · a.t) ht).trans (State.issued_team hr.clear.live)
  obtain ⟨t, tm, hnext, htm, -, hpc, -, hhold, -⟩ :=
    issue_hold hr.clear i .issue false body s1 stage cap (.inl hr.acts) hb hh _ hteam
  exact ⟨t, hnext, tm, _, _, _, htm, hpc.trans (by simp), hhold⟩

section
variable {s s1 : State} {a : At} {h : Hdr} {o : Opnd} {n : BitVec 2} {cs : List Cond} {bs : List Bool}
  (hok : BlockOk (s.viewAt a h) (s.issued a) o n cs)
  (hb : (s.viewAt a h).evalBlock cs (s.issued a) = (.truth bs, s1)) (hh : s1.hole = false)
include hok hb hh

/-- A `waitc` whose conditions hold ends at once, with D false. -/
theorem waitEnds_waitcOp {d : Option (BitVec 3)} {b : Opnd} {all : Bool} (i : Instr)
    (hr : Ready s a h (((d.map wrPred).getD []) ++ rd (2 * (n.toNat + 1)) o ++ rd 1 b))
    (hheld : (if all then bs.all id else bs.any id) = true) (hp : a.pathWaits s1 Op.reads = false) :
    WaitEnds (waitcOp i h d o b n all s) a d (a.mask h) false := by
  obtain ⟨hteams, hclk, -⟩ := State.evalBlock_new_same hb
  rw [← hok.condsOf] at hb
  obtain ⟨s2, hsat, ht2, hc2, hh2⟩ := X.satisfied_of_reads_done (x := s.viewAt a h) (condsOf ((s.viewAt a h).condWords o (n.toNat + 1)))
    bs ((s.viewAt a h).num b :: (s.viewAt a h).condWords o (n.toNat + 1)) (fun s' => (s.viewAt a h).waitOut s' d false) hp
  refine waitEnds_of_new hr i _ ?_ (ht2.trans hteams) (hc2.trans hclk) (hh2.trans hh)
  exact (withBlock_ok s a h o n cs hok _).trans ((X.waitStep_of_new rfl hb hheld).trans hsat)

/-! ### yield (R325) -/

variable (hr : Ready s a h (rd (2 * (n.toNat + 1)) o)) (disp : BitVec 20)
include hr

/-- A `yield` of which a condition holds goes to its continuation at once. -/
theorem exec_yield_of_held (hheld : bs.any id = true) (hp : a.pathWaits s1 Op.reads = false) :
    ∃ t tm, exec (.yield h o n disp) s = .next t ∧ tget t.teams a.t = some tm ∧
      (tm.path a.f).pc = a.path.pc + (disp.signExtend 64 <<< 2) ∧ (tm.path a.f).hold = .free ∧
      (tm.path a.f).exm = a.path.exm := by
  obtain ⟨hteams, -, -⟩ := State.evalBlock_new_same hb
  rw [← hok.condsOf] at hb
  obtain ⟨s2, hsat, ht2, -, hh2⟩ := X.satisfied_of_reads_done (x := s.viewAt a h) (condsOf ((s.viewAt a h).condWords o (n.toNat + 1)))
    bs ((s.viewAt a h).condWords o (n.toNat + 1)) (fun s' => .moved (s'.modTeam a.t (fun tm => tm.setPath a.f
      { tm.path a.f with pc := a.path.pc + (disp.signExtend 64 <<< 2), hold := .free }))) hp
  have hteam : tget s2.teams a.t = _ := (congrArg (tget · a.t) (ht2.trans hteams)).trans (State.issued_team hr.clear.live)
  obtain ⟨t, tm, hnext, ht, -, -, -, hpath⟩ := answer_retire_moved (s.viewAt_of a h) (.yield h o n disp) .issue
    (rd (2 * (n.toNat + 1)) o) (s.issued a) (fun tm => tm.setPath a.f
      { tm.path a.f with pc := a.path.pc + (disp.signExtend 64 <<< 2), hold := .free }) hteam (hh2.trans hh)
  obtain ⟨c, dm, hpa⟩ := hpath a.f
  refine ⟨t, tm, ?_, ht, by rw [hpa]; simp, by rw [hpa]; simp, by rw [hpa]; simp⟩
  refine (instr_ready hr _ _ _).trans (Eq.trans ?_ hnext)
  rw [← hsat]
  refine congrArg (fun r => answer ((s.issued a).retire _ _ _ _ r)) ((withBlock_ok s a h o n cs hok _).trans ?_)
  simp [X.stage, hb, hheld]
  rfl

/-- A `yield` of which no condition holds yet holds its fragment. -/
theorem exec_yield_of_none (hnone : bs.any id = false) :
    ∃ t, exec (.yield h o n disp) s = .next t ∧ WaitsIn t a (.yield h o n disp) 0 := by
  obtain ⟨hteams, -, -⟩ := State.evalBlock_new_same hb
  rw [← hok.condsOf] at hb
  refine waitsIn_of_hold (s1 := s1) (cap := (s.viewAt a h).condWords o (n.toNat + 1)) hr _ _
    ((withBlock_ok s a h o n cs hok _).trans ?_) hteams hh
  simp [X.stage, hb, hnone]

end

/-- Settles O12: a well-formed block is evaluated at issue, and the wait ends, or holds its fragment. -/
theorem waitsComplete : Obligations.WaitsComplete := by
  refine ⟨?_, ?_, ?_⟩
  · intro h d o b n all s a cs bs s1 hr hok hb hheld hp hh
    cases all
    · exact waitEnds_waitcOp hok hb hh (.waitcAny h d o b n) hr hheld hp
    · exact waitEnds_waitcOp hok hb hh (.waitcAll h d o b n) hr hheld hp
  · intro h o n disp s a cs bs s1 hr hok hb hheld hp hh
    exact exec_yield_of_held hok hb hh hr disp hheld hp
  · intro h o n disp s a cs bs s1 hr hok hb hnone hh
    exact exec_yield_of_none hok hb hh hr disp hnone

end Sys2Proof.Machine
end

section
/-! PROOFS. Barriers: set up, arrived at, read (R307-R312, R320, R321). -/

namespace Sys2Proof.Machine

@[simp] theorem State.barArrive_teams (s : State) (g : Nat) (r : BarRef) (v : Arrive) : (s.barArrive g r v).teams = s.teams := by
  cases r <;> rfl

@[simp] theorem State.barArrive_clk (s : State) (g : Nat) (r : BarRef) (v : Arrive) : (s.barArrive g r v).clk = s.clk := by
  cases r <;> rfl

@[simp] theorem State.barArrive_hole (s : State) (g : Nat) (r : BarRef) (v : Arrive) : (s.barArrive g r v).hole = s.hole := by
  cases r <;> rfl

/-! ### Counts (R307, R320) -/

section
variable {s : State} {a : At} {h : Hdr} {o p : Opnd} {n : Nat} (hr : ReadyOut s a h (rd 1 o ++ rd 1 p))
  (hn : (s.viewAt a h).barRef (s.issued a) ((s.viewAt a h).num o) = .grp n)
include hr hn

theorem exec_barInit (h1 : 1 ≤ (s.viewAt a h).num p) (h2 : (s.viewAt a h).num p ≤ 1023) :
    exec (.barInit h o p) s = .next (((s.issued a).modGroup a.tm.group (fun g => g.modBar n (fun b =>
      { b with exp := (s.viewAt a h).num p, arr := 0, txb := 0, byt := 0, err := false, cause := 0, tclk := 0, told := 0,
               initAt := some s.clk }))).issueNext a h (fun tm => tm)) := by
  have hc : ¬ ((s.viewAt a h).num p = 0 ∨ 1023 < (s.viewAt a h).num p) := by omega
  refine out_issue hr _ _ _ _ ?_ ((s.issued_hole a).trans hr.clear.live.hole) (s.issued_clk a) rfl
  simp only [hn, hc, if_false, s.issued_clk a]
  rfl

theorem exec_barExp (hp : (s.viewAt a h).num p < 2 ^ 31) :
    exec (.barExp h o p) s = .next (((s.issued a).modGroup a.tm.group (fun g => g.modBar n (fun b =>
      b.addTxb s.clk ((s.viewAt a h).num p)))).issueNext a h (fun tm => tm)) := by
  refine out_issue hr _ _ _ _ ?_ ((s.issued_hole a).trans hr.clear.live.hole) (s.issued_clk a) rfl
  simp only [hn, Nat.not_le.mpr hp, if_false, s.issued_clk a]
  rfl

end

/-! ### Arrivals (R308-R310) -/

/-- The scope of an arrival is wide enough for its barrier (R308). -/
def wideEnough (n : Nat) (sc : Scope) : Prop := (n = 16 → 2 ≤ Scope.num sc) ∧ (n = 17 → 3 ≤ Scope.num sc)

/-- The barrier has counted, or is about to count, all that its phase takes. -/
def State.barFull (s : State) (g : Nat) (r : BarRef) : Bool := decide ((s.barLoad g r).2 ≤ (s.barLoad g r).1)

/-- What an arrival does behind its release. -/
def X.arrives (x : X) (r : BarRef) (n : Nat) (w stays : Bool) (s : State) : Res :=
  let s' := s.barArrive x.tm.group r ⟨s.clk, if stays then some x.p.pid else none, w, none⟩
  if stays then x.hold s' 1 [n] else .issue s'

section
variable {s : State} {a : At} {h : Hdr} {sc : Scope} {o : Opnd} {w : Bool} {r : BarRef} (hrel : Released (s.issued a) a sc)
  (hb : (s.viewAt a h).barRef (s.issued a) ((s.viewAt a h).num o) = r) (hn : r ≠ .none)
  (hwide : wideEnough ((s.viewAt a h).num o) sc)
include hrel hb hn hwide

/-- A first issue of `bar.arv` that nothing is wrong with arrives at its barrier. -/
theorem execBarArv_arrives : ∃ body : X → State → Res,
    exec (.barArv h sc o w) s = answer (s.issue (.barArv h sc o w) h .issue (rd 1 o) false true body) ∧
    body (s.viewAt a h) (s.issued a) = (s.viewAt a h).arrives r ((s.viewAt a h).num o) w
      (w || ((s.issued a).unspin (s.viewAt a h)).barFull a.tm.group r) ((s.issued a).unspin (s.viewAt a h)) := by
  have hsc : ¬ (((s.viewAt a h).num o = 16 ∧ Scope.num sc < 2) ∨ ((s.viewAt a h).num o = 17 ∧ Scope.num sc < 3)) := by
    obtain ⟨h16, h17⟩ := hwide
    omega
  refine ⟨_, rfl, ?_⟩
  simp only [State.viewAt_st, X.stage, hsc, hb, hn, if_false, releasing_ok hrel]
  rfl

variable (hr : ReadyOut s a h (rd 1 o))
include hr

/-- An arrival without WAIT at a phase with room goes on. -/
theorem exec_barArv_passes (hroom : ((s.issued a).unspin (s.viewAt a h)).barFull a.tm.group r = false) :
    exec (.barArv h sc o false) s = .next ((((s.issued a).unspin (s.viewAt a h)).barArrive a.tm.group r
      ⟨s.clk, none, false, none⟩).issueNext a h (fun tm => tm)) := by
  obtain ⟨body, hexec, hbody⟩ := execBarArv_arrives (w := false) hrel hb hn hwide
  rw [hexec]
  refine out_issue_unspin hr _ _ _ _ (hbody.trans ?_) (by simp [hr.clear.live.hole]) (by simp) (by simp)
  rw [hroom, X.arrives, State.unspin_clk, s.issued_clk a]
  rfl

/-- An arrival with WAIT, or at a phase that is full, stays. -/
theorem exec_barArv_stays (hstay : (w || ((s.issued a).unspin (s.viewAt a h)).barFull a.tm.group r) = true) :
    ∃ t, exec (.barArv h sc o w) s = .next t ∧ WaitsIn t a (.barArv h sc o w) 1 ∧
      t.groups = (((s.issued a).unspin (s.viewAt a h)).barArrive a.tm.group r ⟨s.clk, some a.path.pid, w, none⟩).groups ∧
      t.wide = (((s.issued a).unspin (s.viewAt a h)).barArrive a.tm.group r ⟨s.clk, some a.path.pid, w, none⟩).wide := by
  obtain ⟨body, hexec, hbody⟩ := execBarArv_arrives (w := w) hrel hb hn hwide
  rw [hstay, X.arrives, State.unspin_clk, s.issued_clk a] at hbody
  obtain ⟨tm, htm, hpc, -⟩ := State.unspin_issued_team hr.clear.live h
  obtain ⟨t, tm', hnext, ht, -, hpc', -, hhold, hsame⟩ := issue_hold hr.clear (.barArv h sc o w) .issue false body _ 1 _
    (.inl hr.acts) hbody (by simp [hr.clear.live.hole]) tm (by simpa using htm)
  refine ⟨t, hexec.trans hnext, ⟨tm', _, _, _, ht, hpc'.trans hpc, hhold⟩, ?_, ?_⟩ <;> rw [hsame] <;> rfl

end

/-! ### Words of a barrier (R321) -/

section
variable {s : State} {a : At} {h : Hdr} {d o : Opnd} {sel : BitVec 8} (hr : Ready s a h (wr 2 d ++ rd 1 o))
include hr

theorem exec_barRd_grp {n : Nat} {g : Group} {b : Barrier}
    (hn : (s.viewAt a h).barRef (s.issued a) ((s.viewAt a h).num o) = .grp n)
    (hg : (s.issued a).group a.tm.group = some g) (hb : tget g.bars n = some b) :
    exec (.barRd h d o sel) s = .next ((s.issued a).fixedNext a h 4 (laneWrites d true (fun _ _ => ⟨if sel = 0 then
      trunc (b.txbAt s.clk) 32 * 2 ^ 32 + b.ph.toNat * 2 ^ 16 + b.arr % 2 ^ 10 * 2 ^ 6 else
      b.lbyt * 2 ^ 32 + b.lcause * 2 ^ 28 + b.lerr.toNat * 2 ^ 27 + b.lshort.toNat * 2 ^ 26 + b.exp % 2 ^ 10, 0⟩)
      (s.viewAt a h))) := by
  have hgb : (((s.issued a).group (s.viewAt a h).tm.group).bind fun g => tget g.bars n) = some b := by
    rw [show (s.viewAt a h).tm.group = a.tm.group from rfl, hg]
    exact hb
  refine instr_fixed hr _ 4 _ _ ?_
  simp only [hn, hgb, s.issued_clk a]
  split <;> rfl

theorem exec_barRd_wide {i : Nat} {b : WideBar}
    (hn : (s.viewAt a h).barRef (s.issued a) ((s.viewAt a h).num o) = .wide i) (hb : tget (s.issued a).wide i = some b) :
    exec (.barRd h d o sel) s = .next ((s.issued a).fixedNext a h 4 (laneWrites d true (fun _ _ => ⟨if sel = 0 then
      b.arr * 2 ^ 32 + b.ph.toNat * 2 ^ 16 else b.exp * 2 ^ 32, 0⟩) (s.viewAt a h))) := by
  refine instr_fixed hr _ 4 _ _ ?_
  simp only [hn, hb]
  split <;> rfl

end

/-- Settles O14: each barrier instruction runs behind the checks of its operands; an arrival stays with WAIT or at a full phase. -/
theorem barriersComplete : Obligations.BarriersComplete := by
  refine ⟨fun _ _ _ _ _ _ => exec_barInit, fun _ _ _ _ _ _ => exec_barExp, ?_,
    fun _ _ _ _ _ _ _ _ _ hr => exec_barRd_grp hr, fun _ _ _ _ _ _ _ _ hr => exec_barRd_wide hr⟩
  intro h sc o w s a hr hrel hn h16 h17
  refine ⟨?_, fun hstay => exec_barArv_stays hrel rfl hn ⟨h16, h17⟩ hr (by simpa [State.barFull] using hstay)⟩
  rintro rfl hroom
  exact exec_barArv_passes hrel rfl hn ⟨h16, h17⟩ hr (decide_eq_false (Nat.not_le.mpr hroom))

end Sys2Proof.Machine
end

section
/-! PROOFS. Atomics (R275, R281, R291-R294). -/

namespace Sys2Proof.Machine

@[simp] theorem State.atGens_hole (s : State) (x : X) (g : AtArg) (ls : List AtLane) : (s.atGens x g ls).hole = s.hole := by
  unfold State.atGens
  split <;> rfl

/-! ### The operation of an atomic -/

/-- What an atomic whose lines have room has done as its operation enters: its work, whether a compare may have failed, and
the state. -/
def X.atomDone (x : X) (s : State) (g : AtArg) (ls : List AtLane) (rs : List Rmw) : Work × Bool × State :=
  let wait : Work := .atom g.ty g.op g.m g.ftz g.d rs
  if x.late || s.behind x.t (x.opNum s) (rs.flatMap (fun r => r.at_)) || s.unlinked x.tm wait then (wait, true, s.atGens x g ls)
  else (s.atGens x g ls).doAtom x.tm.core x.tm.ctx g.ty g.op g.m g.ftz g.d rs

/-- Its operation. -/
def X.atomEnters (x : X) (g : AtArg) (rs : List Rmw) (r : Work × Bool × State) : Op :=
  { x.op r.2.2 .mem (match g.d with | some d => dstKeys d (tyN g.ty) x.e | none => []) r.1 with
    casPid := if r.2.1 && g.op = .cas && mProg x.tm.mode then some x.p.pid else none
    lines := lineCount (rs.flatMap (fun r => r.at_)) }

theorem X.atomDone_hole (x : X) (s : State) (g : AtArg) (ls : List AtLane) (rs : List Rmw) :
    (x.atomDone s g ls rs).2.2.hole = s.hole := by
  unfold X.atomDone
  dsimp only
  split
  · exact s.atGens_hole x g ls
  · exact ((s.atGens x g ls).doAtom_same ..).1.trans (s.atGens_hole x g ls)

/-- An atomic on places that are whole, with line operations to spare, enters its operation; an acquire holds behind it. -/
theorem X.atomOp_new {x : X} {s : State} {g : AtArg} {ls : List AtLane} {rs : List Rmw} (hbad : g.bad = false)
    (he : s.scrEcc (rs.flatMap (fun r => r.at_)) = none)
    (hroom : s.lineRoom x.tm.core (lineCount (rs.flatMap (fun r => r.at_))) = true) :
    x.atomOp s g ls rs =
      if g.acq then x.holdOn (((x.atomDone s g ls rs).2.2.addOp x (x.atomEnters g rs (x.atomDone s g ls rs))).unclaim x) 1
        [x.opNum (x.atomDone s g ls rs).2.2] [] none
      else .token (x.atomDone s g ls rs).2.2 (x.atomEnters g rs (x.atomDone s g ls rs)) := by
  have hlate : (((s.behind x.t (x.opNum s) (rs.flatMap (fun r => r.at_)) || s.unlinked x.tm (.atom g.ty g.op g.m g.ftz g.d rs)) ||
      (x.late && !false)) : Bool) = (x.late || s.behind x.t (x.opNum s) (rs.flatMap (fun r => r.at_)) ||
      s.unlinked x.tm (.atom g.ty g.op g.m g.ftz g.d rs)) := by
    rw [Bool.not_false, Bool.and_true, Bool.or_comm, Bool.or_assoc]
  unfold X.atomOp X.atomEnters X.atomDone
  simp only [he, hroom, hbad, hlate, Bool.not_true, Bool.and_false, Bool.or_false, Bool.false_eq_true, if_false]
    <;> rfl

/-- An instruction that is carried out as an atomic on places `rs` completes as one. -/
theorem atomicCompletes {i : Instr} {h : Hdr} {ps : List Port} {s s0 : State} {a : At} {g : AtArg} {ls : List AtLane} {rs : List Rmw}
    (body : X → State → Res) (r : ReadyOut s a h ps) (hi : exec i s = answer (s.issue i h (.token .mem) ps false true body))
    (hbad : g.bad = false) (hb : s0.scrEcc (rs.flatMap (fun r => r.at_)) = none →
      body (s.viewAt a h) (s.issued a) = (s.viewAt a h).atomOp s0 g ls rs) : AtomicCompletes i h s a g ls rs s0 := by
  intro he hroom hhole wait s1 slow res op
  have hbody := (hb he).trans (X.atomOp_new hbad he hroom)
  change body _ _ = if g.acq = true then _ else Res.token res.2.2 op at hbody
  have hhole' : res.2.2.hole = false := (X.atomDone_hole (s.viewAt a h) s0 g ls rs).trans hhole
  refine ⟨fun hacq => ?_, ?_⟩
  · rw [hacq] at hbody
    exact hi.trans (out_token r i _ body op _ hbody hhole')
  · rintro hacq hteams ⟨tm, htm⟩
    rw [hacq] at hbody
    obtain ⟨t, tm', hnext, ht, -, -, -, hhold, hsame⟩ := issue_hold r.clear i _ false body _ 1 _ (.inl r.acts) hbody hhole' _
      ((tget_tmod_self ..).trans (congrArg (Option.map _) (hteams.trans htm)))
    refine ⟨t, tm', _, _, _, hi.trans hnext, ht, hhold, ?_, ?_⟩
    · rw [hsame]
      exact tget_tset_self ..
    · rw [hsame]
      rfl

/-! ### `atom` and `red` (R291) -/

/-- An atomic at its first issue, its addresses good and its release done, goes to its places. -/
theorem X.atomic_new {s : State} {a : At} {h : Hdr} {g : AtArg} {sc : Scope} {rel : Bool} {o b c : Opnd} (hsc : g.sc = Scope.num sc)
    (he : (s.viewAt a h).addrErr (s.issued a) g.ty.bytes g.ty.bytes ((atLanes (s.viewAt a h) g o b c).map (fun l => l.addr)) = none)
    (hrel : rel = true → Released ((s.issued a).unspin (s.viewAt a h)) a sc) :
    (s.viewAt a h).atomic (s.issued a) g rel o b c =
      if g.d.isSome then (s.viewAt a h).atomGo ((s.issued a).unspin (s.viewAt a h)) g (atLanes (s.viewAt a h) g o b c)
      else (s.viewAt a h).redGo ((s.issued a).unspin (s.viewAt a h)) g (atLanes (s.viewAt a h) g o b c) := by
  simp only [atLanes] at he
  simp only [X.atomic, State.viewAt_st, he, hsc]
  split
  · rename_i hr
    exact releasing_any _ a _ sc (hrel hr) rfl rfl rfl _ _
  · rfl

/-- Settles O19: behind its release, each is carried out as an atomic on the places that its addresses resolve to. -/
theorem atomicsComplete : Obligations.AtomicsComplete := by
  refine ⟨?_, ?_⟩
  · intro h ty op r sc ord d o b c s a accs s1 hr x g ls he hrel hres
    have hgo : x.atomGo ((s.issued a).unspin x) g ls = _ := X.atomGo_ok rfl hres
    exact atomicCompletes _ hr rfl rfl fun _ => (X.atomic_new rfl he (by simpa using hrel)).trans hgo
  · intro h ty op r sc rel o b s a cs s1 hr x g ls he hrel hres hls
    refine atomicCompletes _ hr rfl rfl fun hecc => ?_
    have hgo : x.redGo ((s.issued a).unspin x) g ls = _ := X.redGo_ok rfl hls hres hecc
    exact (X.atomic_new rfl he hrel).trans hgo

end Sys2Proof.Machine
end

section
/-! PROOFS. Copies and `dcz` enter the engines (R295-R297, R301-R304, R316-R319). -/

namespace Sys2Proof.Machine

/-! ### Copies (R317, R318) -/

theorem lowestBad_of_none {xs : List (Option (Nat × Nat))} (h : ∀ x ∈ xs, x = none) : lowestBad xs = none := by
  induction xs with
  | nil => rfl
  | cons x xs ih =>
    obtain rfl := h x List.mem_cons_self
    exact ih fun y hy => h y (List.mem_cons_of_mem _ hy)

/-- What an accepted copy does: its request waits in the group's queue for the end of the clk. -/
def X.copyEnters (x : X) (s : State) (r : CopyReq) : State :=
  (s.unspin x).modGroup x.tm.group (fun g => { g with copy := { g.copy with newq := g.copy.newq ++ [(x.tm.quad, x.opNum s, r)] } })

/-- A copy whose ranges lie in their windows, aligned, enters a queue with room. -/
theorem X.copy_enters {x : X} {s : State} {kind : CopyKind} {opt : BitVec 20} {ses : Bool} {m : Nat} {sz sp dp : Bool}
    {ts : List (Nat × Nat × Nat × Nat)} {g : Group} (hts : ∀ t ∈ ts, (if dp then peerWide t.2.1 else x.outside s t.2.1 t.2.2.2) = none ∧
      (if sp then peerWide t.2.2.1 else x.outside s t.2.2.1 t.2.2.2) = none ∧
      alignOf t.2.1 % m = 0 ∧ alignOf t.2.2.1 % m = 0 ∧ (sz = true → t.2.2.2 % m = 0))
    (hg : s.group x.tm.group = some g) (hload : g.copy.load < 64) :
    x.copy s kind opt ses m sz sp dp ts =
      .token (x.copyEnters s ⟨kind, if ses then some (optSes opt) else none, optBar opt,
        ts.flatMap (fun t => x.tm.segs t.1 t.2.2.1 t.2.1 t.2.2.2 sp dp)⟩)
        (x.op s .copy [] .engine) := by
  have hbad : lowestBad (ts.flatMap (fun t => [if dp then peerWide t.2.1 else x.outside s t.2.1 t.2.2.2,
      if sp then peerWide t.2.2.1 else x.outside s t.2.2.1 t.2.2.2])) = none := by
    refine lowestBad_of_none fun b hb => ?_
    obtain ⟨t, ht, hb⟩ := List.mem_flatMap.mp hb
    obtain ⟨hd, hs, -⟩ := hts t ht
    simp only [List.mem_cons, List.not_mem_nil, or_false] at hb
    exact hb.elim (·.trans hd) (·.trans hs)
  have hmis : ts.findSome? (fun t =>
      if alignOf t.2.1 % m ≠ 0 then some t.2.1
      else if alignOf t.2.2.1 % m ≠ 0 then some t.2.2.1
      else if sz && t.2.2.2 % m ≠ 0 then some t.2.2.2 else none) = none := by
    refine List.findSome?_eq_none_iff.mpr fun t ht => ?_
    obtain ⟨-, -, hd, hs, hn⟩ := hts t ht
    rw [if_neg (not_not.mpr hd), if_neg (not_not.mpr hs), if_neg (by simpa using hn)]
  simp only [X.copy, hbad, hmis, X.copyIn, hg, Nat.not_le.mpr hload, if_false]
  rfl

/-- An instruction that is carried out as a copy completes as one. -/
theorem copyCompletes {i : Instr} {h : Hdr} {ps : List Port} {kind : X → CopyKind} {opt : BitVec 20} {ses : Bool} {m : Nat}
    {sz sp dp : Bool} {ts : X → List (Nat × Nat × Nat × Nat)} (body : X → State → Res)
    (hi : ∀ s, exec i s = answer (s.issue i h (.token .copy) ps false true body))
    (hb : ∀ x s s' o, x.st = none → x.copy s (kind x) opt ses m sz sp dp (ts x) = .token s' o → body x s = .token s' o) :
    CopyCompletes i h ps kind opt ses m sz sp dp ts := by
  intro s a g hr x s0 hts hg hload
  have hbody := hb x s0 _ _ rfl (X.copy_enters hts hg hload)
  exact (hi s).trans (out_token hr i _ body _ _ hbody ((s.issued_hole a).trans hr.clear.live.hole))

theorem X.transfers_new {x : X} (ts : List (Nat × Nat × Nat × Nat)) (hst : x.st = none) : x.transfers ts = ts := by
  simp only [X.transfers, hst]

theorem X.oneTransfer_new {x : X} (d o : Opnd) (n : X → Nat) (hst : x.st = none) : x.oneTransfer d o (n x) = once d o n x :=
  X.transfers_new _ hst

/-- A copy of a chain that enters its queue is the copy of its kind. -/
theorem X.chainCopy_new {x : X} {s s' : State} {last : Bool} {d o b : Opnd} {opt : BitVec 20} {op : Op} (hst : x.st = none)
    (h : x.copy s (if last then .last (BitVec.ofNat 32 (x.rd.wide b 0 / 2 ^ 32)) else .cont) opt (optPeer opt) 16 true
      (optPeer opt) false (once d o (fun x => x.rd.wide b 0 % 2 ^ 32) x) = .token s' op) :
    x.chainCopy s last d o b opt = .token s' op := by
  simp only [X.chainCopy, hst, X.oneTransfer_new d o (fun x => x.rd.wide b 0 % 2 ^ 32) hst, h]

/-! ### Streams (R319) -/

theorem exec_dcz {s : State} {a : At} {h : Hdr} {d o : Opnd} {g : Group} (hr : ReadyOut s a h (rd 2 d ++ rd 2 o))
    (hg : (s.issued a).group a.tm.group = some g) (hring : ringBad (BitVec.ofNat 64 ((s.viewAt a h).rd.wide d 0)) g.nbar = false)
    (hfit : ringBase (BitVec.ofNat 64 ((s.viewAt a h).rd.wide d 0)) + ringSlots (BitVec.ofNat 64 ((s.viewAt a h).rd.wide d 0)) *
      ringSlot (BitVec.ofNat 64 ((s.viewAt a h).rd.wide d 0)) ≤ g.alloc)
    (hv : (s.viewAt a h).rd.wide o 0 < 2 ^ 56) (hbase : ringBase (BitVec.ofNat 64 ((s.viewAt a h).rd.wide d 0)) % 128 = 0)
    (hal : (s.viewAt a h).rd.wide o 0 % 16 = 0) (hload : g.dec.load < 64) :
    exec (.dcz h d o) s = .next (((s.issued a).modGroup a.tm.group (fun y => { y with dec := { y.dec with
      newq := y.dec.newq ++ [(a.tm.quad, { num := 0, op := (s.issued a).nextOp, ring := BitVec.ofNat 64 ((s.viewAt a h).rd.wide d 0)
                                           next := (s.viewAt a h).rd.wide o 0, blk := 0, p0 := none
                                           page := none, layer := none, fate := .open })] } })).tokenNext a h
      (a.op (s.issued a) .dec [] .engine)) := by
  refine out_token hr _ _ _ _ _ ?_ ((s.issued_hole a).trans hr.clear.live.hole)
  have hg' : (s.issued a).group (s.viewAt a h).tm.group = some g := hg
  simp only [State.viewAt_st, hg', hring, Nat.not_lt.mpr hfit, Nat.not_le.mpr hv, hbase, hal, Nat.not_le.mpr hload, ne_eq,
    not_true_eq_false, Bool.false_eq_true, if_false]
  rfl

/-! ### Numbers (R296, R305) -/

section
variable {α : Type}

theorem byQuad_append_of_lt {x : Nat × α} {ys zs : List (Nat × α)} (h : ∀ z ∈ zs, x.1 < z.1) :
    byQuad x (ys ++ zs) = byQuad x ys ++ zs := by
  induction ys with
  | nil =>
    cases zs with
    | nil => rfl
    | cons z zs => exact if_pos (h z List.mem_cons_self)
  | cons y ys ih =>
    simp only [List.cons_append, byQuad, ih]
    split <;> rfl

theorem byQuad_of_le {x : Nat × α} {ys : List (Nat × α)} (h : ∀ y ∈ ys, y.1 ≤ x.1) : byQuad x ys = ys ++ [x] := by
  induction ys with
  | nil => rfl
  | cons y ys ih =>
    rw [byQuad, if_neg (Nat.not_lt.mpr (h y List.mem_cons_self)), ih fun z hz => h z (List.mem_cons_of_mem _ hz)]
    rfl

/-- The entries of the quadrants below n, quadrant by quadrant. -/
def quadrants (n : Nat) (xs : List (Nat × α)) : List (Nat × α) := (List.range n).flatMap (fun q => xs.filter (fun x => x.1 = q))

theorem quadrants_succ (n : Nat) (xs : List (Nat × α)) :
    quadrants (n + 1) xs = quadrants n xs ++ xs.filter (fun x => x.1 = n) := by
  simp [quadrants, List.range_succ]

theorem lt_of_mem_quadrants {n : Nat} {xs : List (Nat × α)} {x : Nat × α} (h : x ∈ quadrants n xs) : x.1 < n := by
  obtain ⟨q, hq, hx⟩ := List.mem_flatMap.mp h
  rw [of_decide_eq_true (List.mem_filter.mp hx).2]
  exact List.mem_range.mp hq

/-- An entry of a quadrant that is not below n is not among those that are. -/
theorem quadrants_append_of_le {n : Nat} {x : Nat × α} (xs : List (Nat × α)) (h : n ≤ x.1) :
    quadrants n (xs ++ [x]) = quadrants n xs := by
  refine List.flatMap_congr fun q hq => ?_
  have hne : x.1 ≠ q := by have := List.mem_range.mp hq; omega
  simp [hne]

/-- An insertion by quadrant keeps the order of the quadrants. -/
theorem byQuad_quadrants {n : Nat} {x : Nat × α} (xs : List (Nat × α)) (h : x.1 < n) :
    byQuad x (quadrants n xs) = quadrants n (xs ++ [x]) := by
  induction n with
  | zero => exact absurd h (Nat.not_lt_zero _)
  | succ n ih =>
    obtain hlt | heq := Nat.lt_succ_iff_lt_or_eq.mp h
    · have hhigh : ∀ z ∈ xs.filter (fun x => x.1 = n), x.1 < z.1 := fun z hz =>
        (of_decide_eq_true (List.mem_filter.mp hz).2).symm ▸ hlt
      rw [quadrants_succ, byQuad_append_of_lt hhigh, ih hlt, quadrants_succ]
      simp [hlt.ne]
    · rw [byQuad_of_le fun y hy => by have := lt_of_mem_quadrants hy; omega, quadrants_succ, quadrants_succ,
        quadrants_append_of_le xs heq.ge]
      simp [heq]

/-- The entries of a clk, sorted as they come, stand quadrant by quadrant. -/
theorem foldl_byQuad {n : Nat} {xs : List (Nat × α)} (h : ∀ x ∈ xs, x.1 < n) :
    xs.foldl (fun q x => byQuad x q) [] = quadrants n xs := by
  induction xs using List.reverseRecOn with
  | nil => simp [quadrants]
  | append_singleton xs x ih =>
    rw [List.foldl_append, ih fun y hy => h y (List.mem_append_left _ hy)]
    exact byQuad_quadrants xs (h x (by simp))

theorem map_foldl_byQuad {β : Type} {n : Nat} {xs : List (Nat × α)} (h : ∀ x ∈ xs, x.1 < n) (f : Nat × α → β) :
    (xs.foldl (fun q x => byQuad x q) []).map f = (List.range n).flatMap (fun q => (xs.filter (fun x => x.1 = q)).map f) := by
  rw [foldl_byQuad h, quadrants, List.map_flatMap]

theorem byQuad_length (x : Nat × α) (ys : List (Nat × α)) : (byQuad x ys).length = ys.length + 1 := by
  induction ys with
  | nil => rfl
  | cons y ys ih =>
    rw [byQuad]
    split <;> simp [ih]

theorem foldl_byQuad_length (xs : List (Nat × α)) : (xs.foldl (fun q x => byQuad x q) []).length = xs.length := by
  induction xs using List.reverseRecOn with
  | nil => rfl
  | append_singleton xs x ih => simp [byQuad_length, ih]

end

@[simp] theorem CopyCtx.accept_acc (c : CopyCtx) (id : Nat) (r : CopyReq) : (c.accept id r).acc = c.acc + 1 := rfl
@[simp] theorem CopyCtx.accept_newq (c : CopyCtx) (id : Nat) (r : CopyReq) : (c.accept id r).newq = c.newq := rfl
@[simp] theorem CopyCtx.accept_ops (c : CopyCtx) (id : Nat) (r : CopyReq) :
    (c.accept id r).cmds.map (fun m => m.op) = c.cmds.map (fun m => m.op) ++ [id] := by simp [CopyCtx.accept]
@[simp] theorem CopyCtx.accept_nums (c : CopyCtx) (id : Nat) (r : CopyReq) :
    (c.accept id r).cmds.map (fun m => m.num) = c.cmds.map (fun m => m.num) ++ [c.acc + 1] := by simp [CopyCtx.accept]

/-- Commands that are accepted one after another are numbered as they come. -/
theorem CopyCtx.foldl_accept (xs : List (Nat × Nat × CopyReq)) (c : CopyCtx) :
    (xs.foldl (fun c x => c.accept x.2.1 x.2.2) c).acc = c.acc + xs.length ∧
    (xs.foldl (fun c x => c.accept x.2.1 x.2.2) c).newq = c.newq ∧
    (xs.foldl (fun c x => c.accept x.2.1 x.2.2) c).cmds.map (fun m => m.op) = c.cmds.map (fun m => m.op) ++ xs.map (fun x => x.2.1) ∧
    (xs.foldl (fun c x => c.accept x.2.1 x.2.2) c).cmds.map (fun m => m.num) =
      c.cmds.map (fun m => m.num) ++ (List.range xs.length).map (fun j => c.acc + 1 + j) := by
  induction xs using List.reverseRecOn with
  | nil => simp
  | append_singleton xs x ih =>
    obtain ⟨hacc, hnewq, hop, hnum⟩ := ih
    simp [hacc, hnewq, hop, hnum, List.range_succ]
    omega

theorem DecCtxt.foldl_accept (xs : List (Nat × Stream)) (d : DecCtxt) :
    let r := xs.foldl (fun (d : DecCtxt) x => { d with acc := d.acc + 1, streams := d.streams ++ [{ x.2 with num := d.acc + 1 }] }) d
    r.acc = d.acc + xs.length ∧ r.newq = d.newq ∧
    r.streams.map (fun m => m.op) = d.streams.map (fun m => m.op) ++ xs.map (fun x => x.2.op) ∧
    r.streams.map (fun m => m.num) = d.streams.map (fun m => m.num) ++ (List.range xs.length).map (fun j => d.acc + 1 + j) := by
  induction xs using List.reverseRecOn with
  | nil => simp
  | append_singleton xs x ih =>
    obtain ⟨hacc, hnewq, hop, hnum⟩ := ih
    simp [hacc, hnewq, hop, hnum, List.range_succ]
    omega

/-- The copy commands of a clk take the next numbers, quadrant by quadrant. -/
theorem CopyCtx.acceptAll_eq {c : CopyCtx} (h : ∀ x ∈ c.newq, x.1 < 4) :
    c.acceptAll.acc = c.acc + c.newq.length ∧ c.acceptAll.newq = [] ∧
    c.acceptAll.cmds.map (fun m => m.op) = c.cmds.map (fun m => m.op) ++
      (List.range 4).flatMap (fun q => (c.newq.filter (fun x => x.1 = q)).map (fun x => x.2.1)) ∧
    c.acceptAll.cmds.map (fun m => m.num) = c.cmds.map (fun m => m.num) ++
      (List.range c.newq.length).map (fun j => c.acc + 1 + j) := by
  obtain ⟨hacc, hnewq, hop, hnum⟩ := CopyCtx.foldl_accept (c.newq.foldl (fun q x => byQuad x q) []) { c with newq := [] }
  rw [foldl_byQuad_length] at hacc hnum
  rw [map_foldl_byQuad h] at hop
  exact ⟨hacc, hnewq, hop, hnum⟩

/-- The streams of a clk likewise. -/
theorem DecCtxt.acceptAll_eq {d : DecCtxt} (h : ∀ x ∈ d.newq, x.1 < 4) :
    d.acceptAll.acc = d.acc + d.newq.length ∧ d.acceptAll.newq = [] ∧
    d.acceptAll.streams.map (fun m => m.op) = d.streams.map (fun m => m.op) ++
      (List.range 4).flatMap (fun q => (d.newq.filter (fun x => x.1 = q)).map (fun x => x.2.op)) ∧
    d.acceptAll.streams.map (fun m => m.num) = d.streams.map (fun m => m.num) ++
      (List.range d.newq.length).map (fun j => d.acc + 1 + j) := by
  obtain ⟨hacc, hnewq, hop, hnum⟩ := DecCtxt.foldl_accept (d.newq.foldl (fun q x => byQuad x q) []) { d with newq := [] }
  rw [foldl_byQuad_length] at hacc hnum
  rw [map_foldl_byQuad h] at hop
  exact ⟨hacc, hnewq, hop, hnum⟩

/-- Settles O20: each copy is carried out as the copy of its kind and transfers; `dcz` passes its checks; entries that are
sorted by quadrant are numbered as they stand. -/
theorem engineCommandsComplete : Obligations.EngineCommandsComplete := by
  refine ⟨?_, ?_, ?_, ?_, ?_, ?_, fun _ _ _ _ _ _ hr => exec_dcz hr, fun _ _ => ⟨CopyCtx.acceptAll_eq, DecCtxt.acceptAll_eq⟩⟩
  · refine fun h z d o opt => copyCompletes _ (fun _ => rfl) fun x s s' op hst hcopy => ?_
    rwa [X.transfers_new _ hst]
  · refine fun h d o b opt => copyCompletes _ (fun _ => rfl) fun x s s' op hst hcopy => ?_
    rwa [X.oneTransfer_new d o (fun x => x.num b) hst]
  · exact fun h d o b opt => copyCompletes _ (fun _ => rfl) fun x s s' op hst hcopy => X.chainCopy_new (last := false) hst hcopy
  · exact fun h d o b opt => copyCompletes _ (fun _ => rfl) fun x s s' op hst hcopy => X.chainCopy_new (last := true) hst hcopy
  · refine fun h d o b opt => copyCompletes _ (fun _ => rfl) fun x s s' op hst hcopy => ?_
    rwa [X.oneTransfer_new d o (fun x => x.num b) hst]
  · refine fun h d o b opt => copyCompletes _ (fun _ => rfl) fun x s s' op hst hcopy => ?_
    rwa [X.oneTransfer_new d o (fun x => x.num b) hst]

end Sys2Proof.Machine
end

section
/-! PROOFS. `tinv`, `ckpt`, and the residency instructions (R340, R356-R358, R408). -/

namespace Sys2Proof.Machine

/-! ### tinv and ckpt (R340, R408) -/

/-- A `tinv` of a context with privilege, naming a context that exists, enters its operation. -/
theorem tinv_enters {s : State} {a : At} {h : Hdr} {ps : List Port} (hr : ReadyOut s a h ps) (i : Instr) {ctx : X → Option Nat}
    (w : X → Nat → Work) {c : Nat} (hp : (s.issued a).prv a.tm.ctx = true) (hc : (ctx (s.viewAt a h)).getD 0 = c) (h63 : c ≤ 63) :
    tinv i h ps ctx w s = .next ((s.issued a).tokenNext a h (a.op (s.issued a) .sys [] (w (s.viewAt a h) c))) := by
  refine out_token hr i _ _ _ _ ?_ ((s.issued_hole a).trans hr.clear.live.hole)
  have hp' : (s.issued a).prv (s.viewAt a h).tm.ctx = true := hp
  simp only [hp', hc, Nat.not_lt.mpr h63, Bool.not_true, Bool.false_eq_true, if_false]
  rfl

@[simp] theorem State.askCkpt_hole (s : State) (c : Nat) : (s.askCkpt c).hole = s.hole := by
  unfold State.askCkpt
  split <;> rfl

theorem State.issued_undoOf (s : State) (a : At) (c : Nat) : (s.issued a).undoOf c = s.undoOf c := by
  rw [State.issued_eq]
  rfl

section
variable {s : State} {a : At} {h : Hdr}

theorem exec_ckpt_none (hr : ReadyOut s a h []) : exec (.ckpt h none) s =
    .next (((s.issued a).askCkpt a.tm.ctx).tokenNext a h (a.op (s.issued a) .sys [] (.done []))) :=
  out_token hr _ _ _ _ _ rfl (((s.issued a).askCkpt_hole _).trans ((s.issued_hole a).trans hr.clear.live.hole))

theorem exec_ckpt_some {k : BitVec 6} (hr : ReadyOut s a h (wr 2 (.s k))) : exec (.ckpt h (some k)) s =
    .next (((s.issued a).askCkpt a.tm.ctx).tokenNext a h (a.op (s.issued a) .sys (dstKeys (.s k) 2 (a.mask h))
      (.done (dstUpds (.s k) true
        [(0, ⟨if (s.undoOf a.tm.ctx).en then ((s.undoOf a.tm.ctx).int_ + 1) % 2 ^ 32 else 0, 0⟩)])))) := by
  rw [← s.issued_undoOf a]
  exact out_token hr _ _ _ _ _ rfl (((s.issued a).askCkpt_hole _).trans ((s.issued_hole a).trans hr.clear.live.hole))

/-! ### Residency (R356-R358) -/

theorem State.issued_models (s : State) (a : At) : (s.issued a).models = s.models := by
  rw [State.issued_eq]

/-- The state of a layer that `lbind` binds. -/
def Layer.bindState (y : Layer) (rty : Bool) : LState := if y.st = .failed ∧ rty = true then .absent else y.st

/-- What `lbind` does to the models: the layer is pinned and asked for, and those ahead of it are. -/
def State.bindLayer (s : State) (c l : Nat) (m : Model) (rty : Bool) : State :=
  let s1 : State := { s with models := tmod s.models c (fun m => { m with cur := l }), useCnt := s.useCnt + 1 }
  let s2 := s1.modLayer c l (fun y =>
    let y := { y with pin := y.pin + 1, use := s.useCnt }
    if y.st = .failed ∧ rty = true then { y with st := .absent, fcause := 0, rtry := 0 } else y)
  let top := min (l + m.la + 1) m.layers.length
  (s2.request c l true []).hints c (l + 1) top ((List.range (top - (l + 1))).map (fun j => l + 1 + j))

theorem X.bind_pins {x : X} {s : State} {c l : Nat} {rty : Bool} {m : Model} {y : Layer} (hm : tget s.models c = some m)
    (hy : s.layerOf c l = some y) (hpin : y.pin < 65535) : x.bind s c l rty =
      .token (s.bindLayer c l m rty) (x.op (s.bindLayer c l m rty) .resid []
        (match y.bindState rty with | .resident => .done [] | .failed => .fail 2 | _ => .lbind c l)) := by
  simp only [X.bind, hm, hy, Nat.not_le.mpr hpin, if_false]
  rfl

variable {o b : Opnd} {c l : Nat}
  (harg : (s.viewAt a h).layerArg (s.issued a) ((s.viewAt a h).num o) ((s.viewAt a h).num b) = .ok (c, l))
include harg

theorem exec_lbind {rty : Bool} {m : Model} {y : Layer} (hr : ReadyOut s a h (rd 1 o ++ rd 1 b)) (hm : tget s.models c = some m)
    (hy : (s.issued a).layerOf c l = some y) (hpin : y.pin < 65535) (hh : ((s.issued a).bindLayer c l m rty).hole = false) :
    exec (.lbind h o b rty) s = .next (((s.issued a).bindLayer c l m rty).tokenNext a h
      (a.op ((s.issued a).bindLayer c l m rty) .resid []
        (match y.bindState rty with | .resident => .done [] | .failed => .fail 2 | _ => .lbind c l))) := by
  refine out_token hr _ _ _ _ _ ?_ hh
  simp only [State.viewAt_st, harg]
  exact X.bind_pins ((congrArg (tget · c) (s.issued_models a)).trans hm) hy hpin

theorem exec_lrel (hr : ReadyOut s a h (rd 1 o ++ rd 1 b)) : exec (.lrel h o b) s =
    .next (((s.issued a).modLayer c l (fun y => { y with pin := y.pin - 1 })).tokenNext a h
      (a.op (s.issued a) .resid [] (.done []))) := by
  refine out_token hr _ _ _ _ _ ?_ ((s.issued_hole a).trans hr.clear.live.hole)
  simp only [harg]
  rfl

theorem exec_lhint {n : BitVec 8} {m : Model} (hr : Ready s a h (rd 1 o ++ rd 1 b)) (hm : tget s.models c = some m)
    (hh : ((s.issued a).hints c l (min (l + n.toNat + 1) m.layers.length) []).hole = false) :
    exec (.lhint h o b n) s = .next (((s.issued a).hints c l (min (l + n.toNat + 1) m.layers.length) []).tokenNext a h
      (a.op ((s.issued a).hints c l (min (l + n.toNat + 1) m.layers.length) []) .resid [] (.done []))) := by
  refine instr_token hr _ _ _ _ _ ?_ hh
  simp only [harg, s.issued_models a, hm]
  rfl

theorem exec_lstat {d : Opnd} {y : Layer} (hr : Ready s a h (wr 2 d ++ rd 1 o ++ rd 1 b)) (hy : (s.issued a).layerOf c l = some y) :
    exec (.lstat h d o b) s = .next ((s.issued a).tokenNext a h (a.op (s.issued a) .resid (dstKeys d 2 (a.mask h))
      (.done (laneWrites d true (fun _ _ => ⟨y.word, 0⟩) (s.viewAt a h))))) := by
  refine instr_token hr _ _ _ _ _ ?_ ((s.issued_hole a).trans hr.hole)
  simp only [harg, hy]
  rfl

end

/-- Settles O22: each instruction, its checks behind it, comes to its operation. -/
theorem translationCheckpointAndResidencyComplete : Obligations.TranslationCheckpointAndResidencyComplete := by
  refine ⟨⟨?_, ?_, ?_, fun _ _ _ => exec_ckpt_none, fun _ _ _ _ => exec_ckpt_some⟩,
    fun _ _ _ _ _ _ _ _ _ _ hr harg => exec_lbind harg hr, fun _ _ _ _ _ _ _ hr harg => exec_lrel harg hr,
    fun _ _ _ _ _ _ _ _ _ hr harg => exec_lhint harg hr, fun _ _ _ _ _ _ _ _ _ hr harg => exec_lstat harg hr⟩
  · exact fun h o p s a hr hp h63 => tinv_enters hr (.tinvPage h o p) (fun x c => .tinvPage c (x.rd.wide o 0 % 2 ^ 56)) hp rfl h63
  · exact fun h p s a hr hp h63 => tinv_enters hr (.tinvCtx h p) (fun _ c => .tinvCtx c) hp rfl h63
  · exact fun h s a hr hp => tinv_enters hr (.tinvAll h) (fun _ _ => .tinvAll) hp rfl (Nat.zero_le 63)

end Sys2Proof.Machine
end

section
/-! PROOFS. `txch` and `coll` (R431, R443). -/

namespace Sys2Proof.Machine

/-! ### Rows that a held instruction keeps -/

/-- A register lane as it is kept, one number. -/
theorem RegCell.eq_of_enc (c : RegCell) :
    (⟨BitVec.ofNat 32 ((c.val.toNat * 65536 + c.bnd.toNat) / 65536), BitVec.ofNat 16 (c.val.toNat * 65536 + c.bnd.toNat)⟩ : RegCell) = c := by
  have hval : (c.val.toNat * 65536 + c.bnd.toNat) / 65536 = c.val.toNat := by
    have := c.bnd.isLt
    omega
  have hbnd : BitVec.ofNat 16 (c.val.toNat * 65536 + c.bnd.toNat) = c.bnd := by
    refine BitVec.eq_of_toNat_eq ?_
    have := c.bnd.isLt
    rw [BitVec.toNat_ofNat]
    omega
  rw [hval, hbnd, BitVec.ofNat_toNat, BitVec.setWidth_eq]

/-- The 64 lanes of kept rows come back. -/
theorem decRows_encRows (rows : List Row) : decRows rows.length (encRows rows) = rows.map (fun r => lanes.map (Row.cell r)) := by
  induction rows with
  | nil => rfl
  | cons r rows ih =>
    have hlen : (lanes.map (fun l => (Row.cell r l).val.toNat * 65536 + (Row.cell r l).bnd.toNat)).length = 64 := by simp [lanes]
    rw [encRows, List.flatMap_cons, List.length_cons, decRows, List.take_left' hlen, List.drop_left' hlen, List.map_map,
      List.map_cons]
    refine congrArg₂ List.cons (List.map_congr_left fun l _ => RegCell.eq_of_enc _) ih

/-- A row by its 64 lanes. -/
theorem Row.cell_lanes (r : Row) {l : Nat} (hl : l < 64) : Row.cell (lanes.map (Row.cell r)) l = Row.cell r l := by
  simp [Row.cell, lanes, hl]

/-- The rows that an exchange keeps hold what their registers held. -/
theorem cell_kept (f : Nat → Row) {n i l : Nat} (hi : i < n) (hl : l < 64) :
    Row.cell ((decRows n (encRows ((List.range n).map f))).getD i []) l = (f i).cell l := by
  have hrows := decRows_encRows ((List.range n).map f)
  rw [List.length_map, List.length_range] at hrows
  rw [hrows, ← (f i).cell_lanes hl]
  simp [hi]

/-! ### txch (R431) -/

/-- A timer has not run out in the clk in which it starts. -/
theorem State.pastTmo_now (s : State) (r0 t : Nat) : s.pastTmo s.clk r0 t = false := by simp [State.pastTmo]

theorem State.timer_now (s : State) (q : Prop) [Decidable q] (r0 t : Nat) :
    ((if q then none else some t : Option Nat).map (s.pastTmo s.clk r0)).getD false = false := by
  split
  · rfl
  · exact s.pastTmo_now r0 t

section
variable {h : Hdr} {d : BitVec 8} {o b : Opnd} {nm1 : BitVec 4} {s : State} {a : At}

/-- The rows that `txch` keeps from its issue. -/
def X.txchRows (x : X) (d : BitVec 8) (n : Nat) : List Row :=
  decRows n (encRows ((List.range n).map (fun i => x.rd.vrow (d.toNat + i))))

variable (hr : ReadyOut s a h (rd (nm1.toNat + 1) (.v d) ++ wr (nm1.toNat + 1) (.v d) ++ rd 1 o ++ rd 1 b))
include hr

/-- With no partner, and room in the table, an exchange waits there. -/
theorem exec_txch_waits (hp : (s.issued a).partner a.tm.ctx a.tm.core ((s.viewAt a h).num o % 65536) = none)
    (hroom : ((s.issued a).tandem (a.tm.core / 16)).length < 256) :
    exec (.txch h d o b nm1) s = .next ((s.issued a).tokenNext a h (a.op (s.issued a) .tandem
      (dstKeys (.v d) (nm1.toNat + 1) (a.mask h)) (.txch ((s.viewAt a h).num o % 65536) (a.mask h) d.toNat (nm1.toNat + 1)
        ((s.viewAt a h).txchRows d (nm1.toNat + 1)) s.rt
        (if (s.viewAt a h).num b = 2 ^ 32 - 1 then none else some ((s.viewAt a h).num b))))) := by
  refine out_token hr _ _ _ _ _ ?_ ((s.issued_hole a).trans hr.clear.live.hole)
  have hp' : (s.issued a).partner (s.viewAt a h).tm.ctx (s.viewAt a h).tm.core ((s.viewAt a h).num o % 65536) = none := hp
  have hroom' : ¬ 256 ≤ ((s.issued a).tandem ((s.viewAt a h).tm.core / 16)).length := Nat.not_le.mpr hroom
  simp only [X.num] at hp'
  simp only [State.viewAt_st, List.headD_cons, List.getD_cons_succ, List.getD_cons_zero, List.drop_succ_cons, List.drop_zero,
    State.timer_now, hp', hroom', Bool.false_eq_true, if_false, ← s.issued_rt a]
  rfl

/-- With a partner, both operations take the other's rows, or REFUSED. -/
theorem exec_txch_meets {y : Waiting} (hp : (s.issued a).partner a.tm.ctx a.tm.core ((s.viewAt a h).num o % 65536) = some y) :
    let yours : Work := .both (exchUpds (a.mask h &&& y.em) y.d ((s.viewAt a h).txchRows d (nm1.toNat + 1)))
      (if nm1.toNat + 1 = y.n then none else some 6) (s.issued a).nextOp
    exec (.txch h d o b nm1) s = .next (({ s.issued a with
        ops := tmod (s.issued a).ops y.op (fun o => { o with work := yours }) } : State).tokenNext a h
      (a.op (s.issued a) .tandem (dstKeys (.v d) (nm1.toNat + 1) (a.mask h))
        (.both (exchUpds (a.mask h &&& y.em) d.toNat y.rows) (if nm1.toNat + 1 = y.n then none else some 6) y.op))) := by
  intro yours
  refine out_token hr _ _ _ _ _ ?_ ((s.issued_hole a).trans hr.clear.live.hole)
  have hp' : (s.issued a).partner (s.viewAt a h).tm.ctx (s.viewAt a h).tm.core ((s.viewAt a h).num o % 65536) = some y := hp
  simp only [X.num] at hp'
  simp only [State.viewAt_st, List.headD_cons, List.getD_cons_succ, List.getD_cons_zero, List.drop_succ_cons, List.drop_zero,
    State.timer_now, hp', Bool.false_eq_true, if_false]
  rfl

end

/-! ### coll (R443) -/

/-- Each form of `coll` enters its member. -/
theorem coll_enters {s : State} {a : At} {h : Hdr} {o b : Opnd} (hr : ReadyOut s a h (rd 2 o ++ rd 1 b)) (i : Instr) (ty : Ty)
    (kind cf : Nat) (hva : (s.viewAt a h).rd.wide o 0 < 2 ^ 56) (hal : (s.viewAt a h).rd.wide o 0 % 64 = 0) :
    coll i h ty kind cf o b s = .next (({ s.issued a with colls := (tset (s.issued a).colls (s.issued a).nextOp
      { ctx := a.tm.ctx, core := a.tm.core, kind := kind, bf := decide (ty = .bf16), cf := cf, va := (s.viewAt a h).rd.wide o 0
        desc := none, clk0 := s.clk, rt0 := s.rt
        tmo := if (s.viewAt a h).num b = 2 ^ 32 - 1 then none else some ((s.viewAt a h).num b)
        mtab := [], src := [], got := [], res := none, page := none, layer := none, fate := .open }) } : State).tokenNext a h
      (a.op (s.issued a) .coll [] .coll)) := by
  refine out_token hr _ _ _ _ _ ?_ ((s.issued_hole a).trans hr.clear.live.hole)
  simp only [Nat.not_le.mpr hva, hal, ne_eq, not_true_eq_false, if_false, ← s.issued_clk a, ← s.issued_rt a]
  rfl

/-- Settles O23: an exchange meets its partner or enters the table; each form of `coll` enters its member. -/
theorem exchangesAndCollectivesComplete : Obligations.ExchangesAndCollectivesComplete := by
  refine ⟨fun h d o b nm1 s a hr => ⟨fun hp hroom => ?_, fun y hp => ?_⟩, ?_⟩
  · exact ⟨_, fun i hi l hl => cell_kept _ hi hl, exec_txch_waits hr hp hroom⟩
  · exact ⟨_, fun i hi l hl => cell_kept _ hi hl, exec_txch_meets hr hp⟩
  · rintro h ty o b cf s a i kind k (⟨rfl, rfl, rfl⟩ | ⟨rfl, rfl, rfl⟩ | ⟨rfl, rfl, rfl⟩ | ⟨rfl, rfl, rfl⟩) hr x s0 hva hal <;>
      exact coll_enters hr _ ty _ _ hva hal

end Sys2Proof.Machine
end

section
/-! PROOFS. Shadow banks: swap, spill and fill (R393-R396, R429). -/

namespace Sys2Proof.Machine

@[simp] theorem State.bankStart_hole (s : State) (n : Nat) (w : BankWork) : (s.bankStart n w).hole = s.hole := rfl
@[simp] theorem State.bankEnd_hole (s : State) (n err : Nat) : (s.bankEnd n err).hole = s.hole := rfl

@[simp] theorem State.foldl_ctxError_hole (cs : List Nat) (s : State) : (cs.foldl State.ctxError s).hole = s.hole :=
  foldl_keeps (P := fun t : State => t.hole = s.hole) (fun t c h => (t.ctxError_hole c).trans h) cs s rfl

@[simp] theorem State.imageLost_hole (s : State) (n : Nat) (gs : List Nat) : (s.imageLost n gs).hole = s.hole := by
  simp [State.imageLost, State.modCore]

/-- In shadow mode, a core that is not busy takes up work (R393). -/
theorem State.bankFree_of {s : State} {n : Nat} (hn : n < 128) (hsh : (s.core n).shadow = true) (hb : (s.core n).busy = false) :
    s.bankFree n = true := by
  simp [State.bankFree, hn, hsh, hb]

/-- The exchange comes 96 clk after its write, before a takeover that began later (R394, R429). -/
theorem exec_swapBankActivate {s : State} {n c : Nat} (hb : (s.core n).bank = .swap c) (hdue : c + 96 ≤ s.clk)
    (hfirst : s.takeoverDue n = false ∨ s.swapFirst n = true) (hh : (s.exchangeBanks n).hole = false) :
    exec (.swapBankActivate n) s = .next (s.exchangeBanks n) := by
  have hgo : (decide (c + 96 ≤ s.clk) && (!s.takeoverDue n || s.swapFirst n)) = true := by simpa [hdue] using hfirst
  refine (congrArg answer ?_).trans (answer_of_hole_false hh)
  rw [hb]
  exact if_pos hgo

/-! ### Transfers (R395) -/

section
variable {s : State} {n : Nat} {crc : Bool} (hb : (s.core n).bank = .spill) (hready : s.spillReady n = true)
include hb hready

theorem exec_spill_ok (himg : (s.core n).image = none) (hh : (s.spillDo n).hole = false) :
    exec (.spillFillComplete n crc true) s = .next ((s.spillDo n).bankEnd n 0) := by
  refine Eq.trans ?_ (answer_of_hole_false (((s.spillDo n).bankEnd_hole n 0).trans hh))
  refine congrArg answer ?_
  simp only [hb, hready, himg]
  rfl

theorem exec_spill_fault (hh : s.hole = false) : exec (.spillFillComplete n crc false) s = .next (s.bankEnd n 2) := by
  refine Eq.trans ?_ (answer_of_hole_false ((s.bankEnd_hole n 2).trans hh))
  refine congrArg answer ?_
  simp only [hb, hready]
  rfl

end

section
variable {s : State} {n : Nat} {gs : List Nat} (hb : (s.core n).bank = .fill) (himg : (s.core n).image = some gs)
  (hh : s.hole = false)
include hb himg hh

theorem exec_fill_ok (hpark : s.parkedGroups n = []) :
    exec (.spillFillComplete n true true) s = .next ((s.fillDo n gs).bankEnd n 0) := by
  refine Eq.trans ?_ (answer_of_hole_false (s := (s.fillDo n gs).bankEnd n 0) hh)
  refine congrArg answer ?_
  simp only [hb, himg, hpark]
  rfl

theorem exec_fill_badCrc (hpark : s.parkedGroups n = []) :
    exec (.spillFillComplete n false true) s = .next ((s.imageLost n gs).bankEnd n 1) := by
  refine Eq.trans ?_ (answer_of_hole_false (s := (s.imageLost n gs).bankEnd n 1) ((s.imageLost_hole n gs).trans hh))
  refine congrArg answer ?_
  simp only [hb, himg, hpark]
  rfl

theorem exec_fill_fault {crc : Bool} : exec (.spillFillComplete n crc false) s = .next (s.bankEnd n 2) := by
  refine Eq.trans ?_ (answer_of_hole_false ((s.bankEnd_hole n 2).trans hh))
  refine congrArg answer ?_
  simp only [hb, himg]
  rfl

end

/-- Settles O38: each write and each end of a transfer, by the work that the core has. -/
theorem bankTransfersComplete : Obligations.BankTransfersComplete := by
  refine ⟨?_, fun _ _ _ => exec_swapBankActivate, ?_, ?_⟩
  · intro s n hh hn hsh hb
    have hfree := State.bankFree_of hn hsh hb
    refine ⟨?_, ?_, ?_⟩ <;> exact (congrArg answer (if_pos hfree)).trans (answer_of_hole_false hh)
  · rintro s n crc ok hh hb hready
    exact ⟨fun h himg hd => h ▸ exec_spill_ok hb hready himg hd, fun h => h ▸ exec_spill_fault hb hready hh⟩
  · rintro s n gs crc ok hh hb himg hpark
    refine ⟨?_, ?_, ?_⟩
    · rintro rfl rfl
      exact exec_fill_ok hb himg hh hpark
    · rintro rfl rfl
      exact exec_fill_badCrc hb himg hh hpark
    · rintro rfl
      exact exec_fill_fault hb himg hh

end Sys2Proof.Machine
end

section
/-! PROOFS. Corrected errors, replays, scrubs and the spare's takeover (R417, R426-R429, R444). -/

namespace Sys2Proof.Machine

@[simp] theorem State.setErr_hole (s : State) (u : ErrUnit) (c : ErrCount) : (s.setErr u c).hole = s.hole := rfl
@[simp] theorem State.coreCd_hole (s : State) (n : Nat) (f : Countdown → Countdown) : (s.coreCd n f).hole = s.hole := rfl

@[simp] theorem State.markLasting_hole (s : State) (u : ErrUnit) : (s.markLasting u).hole = s.hole := by
  rw [State.markLasting]
  split
  · rfl
  · cases u <;> simp only [State.recordUnit_hole, State.setErr_hole]
    repeat' split
    all_goals simp

@[simp] theorem State.countError_hole (s : State) (u : ErrUnit) : (s.countError u).hole = s.hole := by
  rw [State.countError, State.lastingCheck]
  split <;> simp

/-- An error that is recorded and counted is answered with that. -/
theorem answer_counted {s : State} (hh : s.hole = false) (u : ErrUnit) (kind info : Nat) :
    answer ((s.recordUnit u kind info).countError u) = .next ((s.recordUnit u kind info).countError u) :=
  answer_of_hole_false (by simp [hh])

/-- A corrected error of a unit that holds words. -/
theorem exec_correctedError {s : State} {u : ErrUnit} {info : Nat} (hh : s.hole = false) (hu : s.hasUnit u = true)
    (hlink : ∀ n k p, u ≠ .link n k p) (hspoke : ∀ n, u ≠ .spoke n) (hrim : ∀ p, u ≠ .rimPort p) (hcxl : ∀ p, u ≠ .cxlPort p) :
    exec (.correctedError u info) s = .next ((s.recordUnit u 1 info).countError u) := by
  refine Eq.trans (congrArg answer ?_) (answer_counted hh u 1 info)
  cases u with
  | link n k p => exact absurd rfl (hlink n k p)
  | spoke n => exact absurd rfl (hspoke n)
  | rimPort p => exact absurd rfl (hrim p)
  | cxlPort p => exact absurd rfl (hcxl p)
  | _ => exact if_pos (by rw [hu]; rfl)

/-- A replay counts against its link. -/
theorem exec_flitReplay {s : State} {n : Nat} {e : LinkEnd} (hh : s.hole = false) (hu : s.hasUnit (linkUnit n e) = true) :
    exec (.flitReplay n e) s = .next ((s.recordUnit (linkUnit n e) 6 0).countError (linkUnit n e)) :=
  (congrArg answer (if_pos hu)).trans (answer_counted hh _ 6 0)

/-- A scrub that finds an uncorrectable error poisons its line. -/
theorem exec_patrolScrub {s : State} {l n : Nat} {bad : Bool} (hh : s.hole = false) (hl : homeOf (l * 128) = .stack n)
    (hn : s.present n = true) : exec (.patrolScrub l bad) s =
      .next (if bad then (s.recordUnit (.hbm n) 2 (l * 128)).setPoison l true else s) := by
  refine Eq.trans (congrArg answer ?_) (answer_of_hole_false ?_)
  · simp only [hl, hn, Bool.and_true]
  · split <;> simp [hh]

/-- The spare takes over once nothing is in its way. -/
theorem exec_spareTakeover {s : State} {n : Nat} (hdue : s.takeoverDue n = true) (hswap : s.swapFirst n = false)
    (hquiet : s.coreQuiet n = true) (hroll : ∀ u ∈ s.undo, u.2.due = false) (hh : (s.takeover n).hole = false) :
    exec (.spareTakeover n) s = .next (s.takeover n) := by
  have hany : s.undo.any (fun u => u.2.due) = false := List.any_eq_false.mpr fun u hu => by simp [hroll u hu]
  refine (congrArg answer (if_pos ?_)).trans (answer_of_hole_false hh)
  rw [hdue, hswap, hquiet, hany]
  rfl

/-- Settles O39: each event by the unit that it names; the takeover by what it waits for. -/
theorem reliabilityEventsComplete : Obligations.ReliabilityEventsComplete := by
  refine ⟨fun _ _ _ => exec_correctedError, ?_, ?_, fun _ _ => exec_spareTakeover⟩
  · intro s n k p hh hn
    refine ⟨fun hk hp => ?_, ?_⟩
    · have hlink : linkUnit n ⟨k, p⟩ = .link n k p := if_neg (by rintro ⟨-, rfl⟩; omega)
      rw [exec_flitReplay hh (by simp [hlink, State.hasUnit, hn, hk, hp]), hlink]
    · exact exec_flitReplay (e := ⟨gwStop, 4⟩) hh hn
  · rintro s l n bad hh hl hn
    refine ⟨?_, ?_⟩ <;> rintro rfl <;> exact exec_patrolScrub hh hl hn

end Sys2Proof.Machine
end

section
/-! PROOFS. Collective rounds: contributions, timeouts, results (R441). -/

namespace Sys2Proof.Machine

@[simp] theorem State.rimTook_hole (s : State) (n len : Nat) : (s.rimTook n len).hole = s.hole := rfl
@[simp] theorem State.modColl_hole (s : State) (id : Nat) (f : Coll → Coll) : (s.modColl id f).hole = s.hole := rfl

/-- Frames that are delivered leave the rounds as they are. -/
@[simp] theorem State.rimTook_collRoot (s : State) (n len c seq : Nat) : (s.rimTook n len).collRoot c seq = s.collRoot c seq := rfl

/-! ### Contributions -/

section
variable {s : State} {n rank : Nat} {msg : CollMsg} (hup : (s.session n).st = 2) (hgo : (s.session n).halted = false)
  (hmay : (s.session n).mayColl = true)
include hup hgo hmay

/-- Outside any round that takes it, a contribution waits for one. -/
theorem exec_collContribution_waits (hh : s.hole = false) (hnone : s.collRoot (s.session n).ctx msg.seq = none)
    (hopen : (s.session n).closed.contains msg.seq = false) (hroom : (s.session n).held.length < 64) :
    exec (.collContribution n rank msg) s =
      .next ((s.rimTook n (4 * msg.elems.length)).modSession n (fun x => { x with held := x.held ++ [msg] })) := by
  refine Eq.trans (congrArg answer ?_) (answer_of_hole_false (s := State.modSession _ _ _) hh)
  have hkeep : ¬ ((s.session n).closed.contains msg.seq = true ∨ 64 ≤ (s.session n).held.length) := by
    rw [hopen, not_or]
    exact ⟨Bool.false_ne_true, Nat.not_le.mpr hroom⟩
  simp only [hup, hgo, hmay, State.rimTook_collRoot, hnone, hkeep, ne_eq, not_true_eq_false, Bool.false_eq_true, or_self,
    Bool.not_true, if_false]

/-- In a round that takes it, a contribution reaches the root. -/
theorem exec_collContribution_taken {id : Nat} (hroot : s.collRoot (s.session n).ctx msg.seq = some id)
    (hh : ((s.rimTook n (4 * msg.elems.length)).collTake id n rank msg).hole = false) :
    exec (.collContribution n rank msg) s = .next ((s.rimTook n (4 * msg.elems.length)).collTake id n rank msg) := by
  refine Eq.trans (congrArg answer ?_) (answer_of_hole_false hh)
  simp only [hup, hgo, hmay, State.rimTook_collRoot, hroot, ne_eq, not_true_eq_false, Bool.false_eq_true, or_self,
    Bool.not_true, if_false]

end

section
variable {s : State} {id : Nat} {k : Coll} {d : CollDesc} (hk : tget s.colls id = some k) (hd : k.desc = some d) (hres : k.res = none)
include hk hd hres

/-! ### Timeouts -/

/-- A root whose time is over ends its round. -/
theorem State.collCheck_past (hroot : CollDesc.rank d = CollDesc.root d) (hpast : s.collPast k = true) :
    s.collCheck id = s.collClose id k d := by
  simp only [State.collCheck, hk, hd, hres, hroot, hpast, or_true, and_self, if_true]

theorem exec_collTimerExpiry (hpast : s.collPast k = true) : exec (.collTimerExpiry id) s =
    answer (if CollDesc.rank d = CollDesc.root d then s.collCheck id else s.collEnd id (some 5)) := by
  refine congrArg answer ?_
  simp [hk, hd, hres, hpast]

/-! ### Results -/

/-- A member that contributed takes the round's result. -/
theorem exec_collResult {cmask : Nat} {es : List (BitVec 32)} (hroot : CollDesc.rank d ≠ CollDesc.root d)
    (hpast : s.collPast k = false) (hmask : cmask < 2 ^ 64) (hin : cmask.testBit (CollDesc.rank d) = true)
    (hlen : es.length = (if k.kind = 2 then CollDesc.nmem d else 1) * CollDesc.count d) :
    exec (.collResult id cmask es) s = answer ((((k.peers d).find? (fun p => decide (p.1 = CollDesc.root d))).elim s
      (fun p => s.rimTook p.2 (4 * es.length))).modColl id (fun k => { k with res := some (cmask, es.map (fun w => if k.bf then w &&& 0xFFFF0000 else w)) })) := by
  have hgo : ¬ (CollDesc.rank d = CollDesc.root d ∨ s.collPast k = true ∨ 2 ^ 64 ≤ cmask ∨
      (!cmask.testBit (CollDesc.rank d)) = true ∨ es.length ≠ (if k.kind = 2 then CollDesc.nmem d else 1) * CollDesc.count d) := by
    simpa [hroot, hpast, hin, hlen] using hmask
  rw [hlen]
  refine congrArg answer ?_
  simp only [hk, hd, hres, hgo, if_false]
  cases (k.peers d).find? (fun p => decide (p.1 = CollDesc.root d)) <;> rfl

end

/-- Settles O30: each event by the round that it meets. -/
theorem collectiveRoundsGoOn : Obligations.CollectiveRoundsGoOn := by
  refine ⟨?_, ?_, ?_⟩
  · intro s n rank msg hh hup hgo hmay
    exact ⟨exec_collContribution_waits hup hgo hmay hh, fun id => exec_collContribution_taken hup hgo hmay⟩
  · intro s id k d hk hd hres hpast
    refine ⟨fun hroot hh => ?_, fun hroot hh => ?_⟩ <;> rw [exec_collTimerExpiry hk hd hres hpast]
    · rw [if_neg hroot, answer_of_hole_false hh]
    · rw [if_pos hroot, State.collCheck_past hk hd hres hroot hpast, answer_of_hole_false hh]
  · intro s id cmask es k d hh hk hd hres hroot hpast hmask hin hlen
    refine ⟨fun p hp => ?_, fun hp => ?_⟩ <;> rw [exec_collResult hk hd hres hroot hpast hmask hin hlen, hp]
    · exact answer_of_hole_false hh
    · exact answer_of_hole_false hh

end Sys2Proof.Machine
end

section
/-! PROOFS. Copy commands and decompressor blocks go on (R296-R300, R305). -/

namespace Sys2Proof.Machine

/-! ### Copy commands (R296-R300) -/

section
variable {s : State} {gid n line : Nat} {g : Group} {m : CopyCmd}

/-- A command that is free, and whose chain is done before it, makes its step. -/
theorem exec_copyCommandComplete (hg : s.group gid = some g) (hm : g.copy.cmds.find? (fun y => y.num = n) = some m)
    (hgo : g.copy.halted = false) (hfree : s.copyFree g.ctx m = true)
    (hlast : ∀ crc, m.kind = .last crc → g.copy.outOf m.chain m.num = []) :
    exec (.copyCommandComplete gid ⟨n, line⟩) s = answer (s.copyStep gid m g.ctx g.core line) := by
  refine congrArg answer ?_
  simp only [hg, hm, hgo, hfree, Bool.not_true, Bool.false_or]
  refine if_neg ?_
  rw [Bool.and_eq_true]
  rintro ⟨-, hwaits⟩
  split at hwaits
  · rename_i crc hkind
    rw [hlast crc hkind] at hwaits
    cases hwaits
  · cases hwaits

theorem State.copyStep_failed {e : Nat} (c core : Nat) (hf : m.failed = some e) :
    s.copyStep gid m c core line = s.copyEnd gid m (some e) := by
  simp only [State.copyStep, hf, Option.orElse]

variable (hf : m.failed = none) (hfate : m.fate = .open)
include hf hfate

theorem State.copyStep_act {act : LineAct} (c core : Nat) (ha : m.acts[line]? = some act) : s.copyStep gid m c core line =
    match act with
    | .read l => if s.slotTurn core gid then s.copyRead gid m c core (.read l) else s
    | .write l => s.copyWrite gid m c core (.write l) := by
  simp only [State.copyStep, hf, hfate, Option.orElse, Fate.engFail, ha]
  cases act <;> rfl

theorem State.copyStep_next (c core : Nat) (ha : m.acts = []) : s.copyStep gid m c core line = s.copyNext gid m c := by
  simp [State.copyStep, hf, hfate, Fate.engFail, ha]

omit hf hfate

/-- A line of the source that translates is read at one instant. -/
theorem State.copyRead_ok {c core : Nat} {act : LineAct} {ks : List Chunk} {c1 : List (Nat × Walk)} {s1 s2 : State} {bs : List EByte}
    (hr : s.engResolve c gid false [] (partRuns (fun x => x.src) (m.parts.filter act.of)) = (.ok ks, c1, s1))
    (hb : s1.engReadAll (some c) ks = (bs, s2)) : s.copyRead gid m c core act =
      (s2.modCore core (fun k => { k with slot := some gid })).modCmd gid m.num (fun m =>
        { m with parts := fillParts act.of m.parts bs, page := none, layer := none, fate := .open }) := by
  simp only [State.copyRead, hr, hb]
  rfl

/-- A line of the destination that translates is written. -/
theorem State.copyWrite_ok {c core : Nat} {act : LineAct} {ks : List Chunk} {c1 : List (Nat × Walk)} {s1 : State}
    (hr : s.engResolve c gid true [] (partRuns (fun x => x.dst) (m.parts.filter act.of)) = (.ok ks, c1, s1)) :
    s.copyWrite gid m c core act =
      ((s1.engWrite c m.ses.isNone (splitBytes ks (partBytes (m.parts.filter act.of)))).copyBytes gid m
        (engCount (splitBytes ks (partBytes (m.parts.filter act.of))))).modCmd gid m.num (fun m =>
        { m with parts := m.parts.map (fun p => if act.of p then { p with done := true } else p)
                 page := none, layer := none, fate := .open }) := by
  simp only [State.copyWrite, hr]
  rfl

theorem State.copyNext_local (c : Nat) (hs : m.ses = none) : s.copyNext gid m c = s.copyEnd gid m m.result := by
  simp only [State.copyNext, hs]

/-- A write to the peer completes with the peer's answer. -/
theorem State.copyNext_answered {ses : Nat} {bs : List Byte} (c : Nat) (hs : m.ses = some ses) (hk : m.kind = .put)
    (hsize : m.size ≠ 0) (ha : m.answer = some bs) : s.copyNext gid m c = (s.copyBytes gid m m.size).copyEnd gid m m.result := by
  simp only [State.copyNext, hs, hsize, hk, ha, if_false, if_true]

end

/-! ### Blocks (R305) -/

section
variable {s : State} {gid : Nat} {g : Group} {st : Stream}

/-- The stream with the phase of EMPTY that it sampled. -/
def Stream.sampled (st : Stream) (g : Group) : Stream := { st with p0 := some (st.p0.getD (g.phase (ringEbid st.ring))) }

/-- A stream that samples EMPTY starts at block 0. -/
def State.streamStart (s : State) (gid : Nat) (st : Stream) : State :=
  if st.p0.isNone then s.modGroup gid (fun g => { g with dec := { g.dec with blk := 0 } }) else s

theorem State.streamStart_hole (s : State) (gid : Nat) (st : Stream) : (s.streamStart gid st).hole = s.hole := by
  unfold State.streamStart
  split <;> rfl

/-- Phases of EMPTY since the stream sampled it. -/
def Stream.emptied (st : Stream) (g : Group) : Nat :=
  (g.phase (ringEbid st.ring) - st.p0.getD (g.phase (ringEbid st.ring))).toNat

/-- The oldest stream of a group whose decompressor runs waits for a slot, or goes on by one block. -/
theorem exec_dczBlock {r : List Stream} (hg : s.group gid = some g) (hst : g.dec.streams = st :: r) (hgo : g.dec.halted = false)
    (hsusp : g.dec.susp = false) (hsp : g.spilled = false) (hat : g.dec.at_ < s.clk)
    (hold : ∀ o, tget s.ops st.op = some o → o.at_ < s.clk) (hpage : ∀ p, st.page = some p → s.faulting g.ctx p = false) :
    exec (.dczBlock gid) s = answer (
      if ringSlots st.ring ≤ st.blk ∧ st.emptied g < st.blk - ringSlots st.ring + 1 then
        (s.streamStart gid st).modStream gid (fun _ => st.sampled g)
      else (s.streamStart gid st).dczBlock gid (st.sampled g) g.ctx g.core) := by
  have hyoung : ∀ o, tget s.ops st.op = some o → decide (s.clk ≤ o.at_) = false := fun o ho =>
    decide_eq_false (Nat.not_le.mpr (hold o ho))
  have hfault : (st.page.map (s.faulting g.ctx)).getD false = false := by
    cases hp : st.page with
    | none => rfl
    | some p => exact hpage p hp
  refine congrArg answer ?_
  simp only [hg, hst, hgo, hsusp, hsp, hfault, decide_eq_false (Nat.not_le.mpr hat), Bool.false_or, Bool.or_false]
  refine if_neg ?_
  intro h
  split at h
  · rename_i o ho
    rw [hyoung o ho] at h
    cases h
  · cases h

/-- A read of a stream that translates goes on with its bytes. -/
theorem State.dczRead_ok {c core va n : Nat} {k : List EByte → State → State} {ks : List Chunk} {c1 : List (Nat × Walk)}
    {s1 s2 : State} {bs : List EByte} (hr : s.engResolve c gid false [] (engRuns va n) = (.ok ks, c1, s1))
    (hb : s1.engReadAll (some c) ks = (bs, s2)) : s.dczRead gid st c core va n k = k bs s2 := by
  simp only [State.dczRead, hr, hb]

/-- A good block is decoded and written. -/
theorem State.dczBlock_ok {c core : Nat} {ks ks' : List Chunk} {c1 c2 : List (Nat × Walk)} {s1 s2 s3 s4 : State}
    {hb pb : List EByte} {out : List Byte} (hfate : st.fate = .open)
    (hr : s.engResolve c gid false [] (engRuns st.next 16) = (.ok ks, c1, s1)) (hbs : s1.engReadAll (some c) ks = (hb, s2))
    (hgood : hb.any (fun b => b.bad) = false) (hhdr : hdrBad (ofBytes (hb.map (fun b => b.x))) (ringSlot st.ring) = false)
    (hr' : s2.engResolve c gid false [] (engRuns (st.next + 16) (hdrIn (ofBytes (hb.map (fun b => b.x))))) = (.ok ks', c2, s3))
    (hbs' : s3.engReadAll (some c) ks' = (pb, s4)) (hgood' : pb.any (fun b => b.bad) = false)
    (hout : decodeBlock (ofBytes (hb.map (fun b => b.x))) (pb.map (fun b => b.x)) = (out, 0))
    (hcrc : crc32c out = hdrCrc (ofBytes (hb.map (fun b => b.x)))) :
    s.dczBlock gid st c core = s4.blockEnd gid st out none 0 (hdrLast (ofBytes (hb.map (fun b => b.x))))
      (alignUp (st.next + 16 + hdrIn (ofBytes (hb.map (fun b => b.x)))) 16) := by
  simp only [State.dczBlock, hfate, Fate.engFail]
  rw [State.dczRead_ok hr hbs, hgood, hhdr]
  simp only [Bool.false_eq_true, if_false]
  rw [State.dczRead_ok hr' hbs', hgood', hout]
  simp only [Bool.false_eq_true, if_false, hcrc, ne_eq, not_true_eq_false, and_false, if_true]

end

/-- Settles O29: a command makes the line operation that its turn names, or completes; a stream waits, or decodes a block. -/
theorem enginesGoOn : Obligations.EnginesGoOn := by
  refine ⟨?_, ?_⟩
  · intro s gid n line g m hg hm hgo hfree hlast
    have hnum : m.num = n := by simpa using List.find?_some hm
    have hstep := exec_copyCommandComplete (line := line) hg hm hgo hfree hlast
    refine ⟨fun e he hh => ?_, fun hf hfate => ⟨?_, ?_, ?_, ?_⟩⟩
    · rw [hstep, State.copyStep_failed g.ctx g.core he, answer_of_hole_false hh]
    · intro l ks c1 s1 bs s2 ha hturn hr hb hh
      rw [hstep, State.copyStep_act hf hfate g.ctx g.core ha, ← hnum]
      exact (congrArg answer ((if_pos hturn).trans (State.copyRead_ok hr hb))).trans (answer_of_hole_false hh)
    · intro l ks c1 s1 ha hr ws t hh
      rw [hstep, State.copyStep_act hf hfate g.ctx g.core ha]
      refine (congrArg answer ((State.copyWrite_ok hr).trans ?_)).trans (answer_of_hole_false hh)
      rw [hnum]
    · intro ha hs hh
      rw [hstep, State.copyStep_next hf hfate g.ctx g.core ha, State.copyNext_local g.ctx hs, answer_of_hole_false hh]
    · intro ses bs ha hs hk hsize hans hh
      rw [hstep, State.copyStep_next hf hfate g.ctx g.core ha, State.copyNext_answered g.ctx hs hk hsize hans,
        answer_of_hole_false hh]
  · intro s gid g st r hg hst hgo hsusp hsp hat hh hold hpage now p0 st1 s0
    have hexec := exec_dczBlock hg hst hgo hsusp hsp hat hold hpage
    refine ⟨fun hslots hwait => ?_, ?_⟩
    · rw [hexec, if_pos ⟨hslots, hwait⟩]
      exact answer_of_hole_false ((s.streamStart_hole gid st).trans hh)
    · intro ks c1 s1 hb s2 ks' c2 s3 pb s4 out hroom hfate hr hbs hd hgood hhdr hr' hbs' hgood' hout hcrc t ht
      have hfree : ¬ (ringSlots st.ring ≤ st.blk ∧ st.emptied g < st.blk - ringSlots st.ring + 1) := by
        rintro ⟨h1, h2⟩
        exact hroom.elim (Nat.not_lt.mpr h1) (Nat.not_le.mpr h2)
      have hblock := State.dczBlock_ok (s := s.streamStart gid st) (st := st.sampled g) (core := g.core) hfate hr hbs hgood hhdr
        hr' hbs' hgood' hout hcrc
      rw [hexec, if_neg hfree, hblock]
      exact answer_of_hole_false ht

end Sys2Proof.Machine
end

section
/-! PROOFS. `brk` (R390, R405). -/

namespace Sys2Proof.Machine

/-- A fold that appends an image of each entry keeps an image of each. -/
theorem mem_foldl_of_append {α β σ : Type} {R : α → β → Prop} {f : σ × List β → α → σ × List β}
    (hf : ∀ a x, ∃ u y, f a x = (u, a.2 ++ [y]) ∧ R x y) {x : α} (xs : List α) (a : σ × List β)
    (h : x ∈ xs ∨ ∃ y ∈ a.2, R x y) : ∃ y ∈ (xs.foldl f a).2, R x y := by
  induction xs generalizing a with
  | nil => exact h.elim (fun h => absurd h List.not_mem_nil) id
  | cons z xs ih =>
    obtain ⟨u, y, hz, hR⟩ := hf a z
    rw [List.foldl_cons, hz]
    refine ih _ ?_
    obtain hx | ⟨w, hw, hRw⟩ := h
    · obtain rfl | hx := List.mem_cons.mp hx
      · exact .inr ⟨y, by simp, hR⟩
      · exact .inl hx
    · exact .inr ⟨w, List.mem_append_left _ hw, hRw⟩

/-- Writing the records that wait for room keeps every halter, told or not. -/
theorem State.mem_flushHalters {s : State} {y : Halter} (hy : y ∈ s.halters) : ∃ b, { y with told := b } ∈ s.flushHalters.halters := by
  obtain ⟨z, hz, b, rfl⟩ : ∃ z ∈ s.flushHalters.halters, ∃ b, z = { y with told := b } := by
    refine mem_foldl_of_append (R := fun (y z : Halter) => ∃ b, z = { y with told := b }) (fun a x => ?_) _ _ (.inl hy)
    dsimp only
    split
    · exact ⟨_, _, rfl, x.told, rfl⟩
    · exact ⟨_, _, rfl, true, rfl⟩
  exact ⟨b, hz⟩

theorem State.mem_addHalter (s : State) (y : Halter) : ∃ hid b, { y with hid := hid, told := b } ∈ (s.addHalter y).halters := by
  let z : Halter := { y with hid := freshHid s.halters s.halters.length (Config.freeNat s.free % 2 ^ 16), told := false }
  obtain ⟨b, hb⟩ := State.mem_flushHalters (s := { s with halters := s.halters ++ [z], free := s.free + 1 })
    (List.mem_append_right s.halters (List.mem_singleton_self z))
  exact ⟨z.hid, b, hb⟩

/-! ### Halters of teams (R390) -/

/-- A team as it halters, to resume at pc. -/
def Team.halts (tm : Team) (f : Bool) (hval : Dword) (pc : BitVec 64) : Team :=
  { tm.setPath f { tm.path f with pc := pc, hold := .free } with life := .haltered, hval := hval, perm := none, pendTrap := none }

theorem Team.halts_pc (tm : Team) (f : Bool) (hval : Dword) (pc : BitVec 64) : ((tm.halts f hval pc).path f).pc = pc := by
  cases f <;> rfl

/-- The halter of team t, without its identifier. -/
def Team.halter (tm : Team) (t hc sub ocs osub : Nat) (pc : BitVec 64) : Halter :=
  { hid := 0, mst := .team t, hc := hc, sub := sub, ctx := tm.ctx, core := tm.core, slot := tm.slotNo
    inh := tm.inH, ocs := ocs, osub := osub, pc := pc.setWidth 56, told := false }

section
variable {s : State} {t : Nat} {tm : Team} (f : Bool) (hc sub ocs osub : Nat) (hval : Dword) (pc : BitVec 64)
  (ht : tget s.teams t = some tm) (hrep : rqEn s.hqcfg = true)
include ht hrep

theorem State.haltTeam_eq : s.haltTeam t f hc sub ocs osub hval pc =
    (s.modTeam t (fun tm => tm.halts f hval pc)).addHalter (tm.halter t hc sub ocs osub pc) := by
  simp only [State.haltTeam, ht]
  exact if_pos hrep

theorem State.haltTeam_team : tget (s.haltTeam t f hc sub ocs osub hval pc).teams t = some (tm.halts f hval pc) := by
  rw [State.haltTeam_eq f hc sub ocs osub hval pc ht hrep, State.addHalter_teams, State.modTeam_teams, tget_tmod_self, ht]
  rfl

theorem State.haltTeam_halter : ∃ hid b, { tm.halter t hc sub ocs osub pc with hid := hid, told := b } ∈
    (s.haltTeam t f hc sub ocs osub hval pc).halters := by
  rw [State.haltTeam_eq f hc sub ocs osub hval pc ht hrep]
  exact State.mem_addHalter _ _

end

/-! ### brk (R405) -/

/-- The state in which `brk` halters its team: it has completed as an Issue-class instruction, and TVAL takes its immediate. -/
def State.broken (s : State) (a : At) (h : Hdr) (imm : BitVec 20) : State :=
  (s.issued a).modTeam a.t (fun tm => { a.next h s.clk 0 (tm.queue (a.posts h (s.clk + 2))) with tval := imm.signExtend 64 })

theorem exec_brk {s : State} {a : At} {h : Hdr} {imm : BitVec 20} (hr : Ready s a h [])
    (hh : ((s.broken a h imm).haltTeam a.t a.f 2 0 0 0 (imm.signExtend 64) (a.path.pc + 12)).hole = false) :
    exec (.brk h imm) s = .next ((s.broken a h imm).haltTeam a.t a.f 2 0 0 0 (imm.signExtend 64) (a.path.pc + 12)) := by
  have hdone : (((s.issued a).advance (s.viewAt a h) 0).postAt (s.viewAt a h) ((s.issued a).clk + 2)).modTeam a.t
      (fun tm => { tm with tval := imm.signExtend 64 }) = s.broken a h imm := by
    have hof : (s.viewAt a h).Of a h := ⟨rfl, rfl, rfl, rfl, rfl⟩
    simp only [State.advance_eq hof, State.postAt_eq hof, State.modTeam_modTeam, At.next_queue, s.issued_clk a]
    rfl
  refine (instr_ready hr _ _ _).trans (Eq.trans (congrArg answer ?_) (answer_of_hole_false hh))
  rw [← hdone]
  rfl

/-- The team of `brk` as it halters. -/
theorem State.broken_team {s : State} {a : At} (r : Live0 s a) (h : Hdr) (imm : BitVec 20) : tget (s.broken a h imm).teams a.t =
    some { a.next h s.clk 0 ((a.tm.setPath a.f { a.path with lastIssue := s.clk }).queue (a.posts h (s.clk + 2))) with
      tval := imm.signExtend 64 } :=
  (tget_tmod_self ..).trans (congrArg (Option.map _) (State.issued_team r))

theorem State.broken_hqcfg (s : State) (a : At) (h : Hdr) (imm : BitVec 20) : (s.broken a h imm).hqcfg = s.hqcfg := by
  rw [State.broken, State.issued_eq]
  rfl

/-- Settles O25: `brk` completes, and then its team halters; what a halter leaves of a team. -/
theorem breakHaltersTheTeam : Obligations.BreakHaltersTheTeam := by
  intro h imm s a hr s1 t hh
  refine ⟨exec_brk hr hh, fun hrep => ?_, rfl⟩
  have hteam := State.broken_team hr.clear.live h imm
  have hq : rqEn (s.broken a h imm).hqcfg = true := (s.broken_hqcfg a h imm).symm ▸ hrep
  obtain ⟨hid, b, hy⟩ := State.haltTeam_halter a.f 2 0 0 0 (imm.signExtend 64) (a.path.pc + 12) hteam hq
  refine ⟨_, _, State.haltTeam_team a.f 2 0 0 0 (imm.signExtend 64) (a.path.pc + 12) hteam hq, rfl, ?_, rfl, Team.halts_pc .., ?_, ?_,
    ?_, ?_, ?_, ?_, hy, rfl, rfl, ?_, rfl⟩ <;> simp [Team.halts, Team.halter, At.next, Team.queue, Team.inH]

end Sys2Proof.Machine
end

section
/-! PROOFS. `trap` and `rti` (R382, R384, R385, R404, R406). -/

namespace Sys2Proof.Machine

/-! ### The entry (R382, R384) -/

theorem State.translate_ctxs (s : State) (c va : Nat) : (s.translate c va).2.ctxs = s.ctxs := by
  have htouch : (if s.hasTable c && !ptMalformed (s.ctx c).ptroot then s.touch (ptBase (s.ctx c).ptroot) (128 * 2 ^ ptN (s.ctx c).ptroot)
      else s).ctxs = s.ctxs := by
    split
    · unfold State.touch
      dsimp only
      split <;> rfl
    · rfl
  unfold State.translate
  dsimp only
  refine Eq.trans ?_ htouch
  generalize (if s.hasTable c && !ptMalformed (s.ctx c).ptroot then s.touch (ptBase (s.ctx c).ptroot) (128 * 2 ^ ptN (s.ctx c).ptroot)
    else s) = u
  have hpick : (u.pick (u.choices c va) .miss).2.ctxs = u.ctxs := by unfold State.pick; split <;> rfl
  split
  · rw [← hpick]
    unfold State.tlbAdd
    split <;> rfl
  · exact hpick

/-- The frame's lines are written, and the team's L1 copies dropped: nothing else. -/
theorem State.writeFrame_same (s : State) (tm : Team) (va pa : Nat) (p : Quad) (bs : List Byte) :
    (s.writeFrame tm va pa p bs).teams = s.teams ∧ (s.writeFrame tm va pa p bs).clk = s.clk ∧
    (s.writeFrame tm va pa p bs).ctxs = s.ctxs ∧ (s.writeFrame tm va pa p bs).hole = s.hole := by
  refine foldl_keeps (P := fun t : State => t.teams = s.teams ∧ t.clk = s.clk ∧ t.ctxs = s.ctxs ∧ t.hole = s.hole)
    (fun t j h => ?_) _ s ⟨rfl, rfl, rfl, rfl⟩
  simpa [State.l1Drop] using h

/-- A pending trap whose frame page is mapped starts its handler. -/
theorem State.trapTry_ok {s s1 : State} {n : Nat} {tm : Team} {x : PendTrap} {pa : Nat} {p : Quad} (ht : tget s.teams n = some tm)
    (hx : tm.pendTrap = some x) (hlook : s.look tm.ctx tm.tfr.toNat true = (.ok pa p, s1)) :
    (∃ pid, tget (s.trapTry n).teams n = some (tm.enterHandler x (thEntry (s.ctx tm.ctx).thcfg) pid s.clk)) ∧
    (s.trapTry n).hole = s1.hole := by
  have haside := s.look_aside tm.ctx tm.tfr.toNat true
  have hctxs : (s.look tm.ctx tm.tfr.toNat true).2.ctxs = s.ctxs := s.translate_ctxs tm.ctx tm.tfr.toNat
  rw [hlook] at haside hctxs
  obtain ⟨hteams, hclk, hcfg, hhole⟩ := s1.writeFrame_same tm tm.tfr.toNat pa p (tm.frame x.frag)
  have hctx : (s1.writeFrame tm tm.tfr.toNat pa p (tm.frame x.frag)).ctx tm.ctx = s.ctx tm.ctx := by
    rw [State.ctx, State.ctx, hcfg, hctxs]
  simp only [State.trapTry, ht, hx, hlook]
  refine ⟨⟨(s1.writeFrame tm tm.tfr.toNat pa p (tm.frame x.frag)).nextPid, ?_⟩, hhole⟩
  rw [hctx, hclk, haside.clk, State.modTeam_teams, hteams, haside.teams, tget_tmod_self, ht]
  rfl

/-- What the entry of a handler leaves of a team (R382). -/
theorem Team.enterHandler_path (tm : Team) (x : PendTrap) (entry : BitVec 64) (pid clk : Nat) :
    ((tm.enterHandler x entry pid clk).path x.frag).pc = entry ∧
    ((tm.enterHandler x entry pid clk).path x.frag).cd = .stall (clk + 16) ∧
    ((tm.enterHandler x entry pid clk).path x.frag).exm = ((tm.enterHandler x entry pid clk).path x.frag).pmask := by
  unfold Team.enterHandler
  cases x.frag <;> exact ⟨rfl, rfl, rfl⟩

theorem Team.enterHandler_kept (tm : Team) (x : PendTrap) (entry : BitVec 64) (pid clk : Nat) :
    (tm.enterHandler x entry pid clk).mode = tm.mode ∧ (tm.enterHandler x entry pid clk).life = tm.life := by
  simp [Team.enterHandler]

/-- A team whose trap is pending. -/
def Team.trapped (tm : Team) (x : PendTrap) : Team :=
  { tm.setPath x.frag { tm.path x.frag with hold := .free } with pendTrap := some x }

theorem Landing.clk {s t : State} (h : Landing s t) : t.clk = s.clk := by
  unfold Landing at h
  rw [h]

theorem Landing.ctx {s t : State} (h : Landing s t) (c : Nat) : t.ctx c = s.ctx c := by
  unfold Landing at h
  rw [h]
  rfl

theorem State.modTeam_ctx (s : State) (n : Nat) (f : Team → Team) (c : Nat) : (s.modTeam n f).ctx c = s.ctx c := rfl

/-- What a trap of a landed team keeps. -/
theorem Landed.trapped {tm tm1 : Team} (h : Landed tm tm1) (x : PendTrap) : (tm1.trapped x).ctx = tm.ctx ∧
    (tm1.trapped x).tfr = tm.tfr ∧ (tm1.trapped x).mode = tm.mode ∧ (tm1.trapped x).life = tm.life := by
  unfold Landed at h
  rw [h]
  simp [Team.trapped]

section
variable {s s1 : State} {n : Nat} {f : Bool} {tm : Team} {c : Cause} {sub : Nat} {val : Dword} {epc : BitVec 64} {pa : Nat} {p : Quad}
  (ht : tget s.teams n = some tm) (hin : tm.inH = false) (hth : thV (s.ctx tm.ctx).thcfg = true)
include ht hin hth

/-- A trap that is taken outside a handler, with a handler set, is pending once what is in flight has landed. -/
theorem State.takeTrap_eq : s.takeTrap n f c sub val epc =
    ((s.drain n).modTeam n (fun tm => tm.trapped ⟨f, c, sub, val, epc.setWidth 56⟩)).trapTry n := by
  simp only [State.takeTrap, ht, hin, hth, Bool.not_true, Bool.false_eq_true, if_false, Team.trapped]

/-- A trap whose frame page is mapped starts its handler (R382). -/
theorem State.takeTrap_enters {s1 : State} {pa : Nat} {p : Quad}
    (hlook : ((s.drain n).modTeam n (fun tm => tm.trapped ⟨f, c, sub, val, epc.setWidth 56⟩)).look tm.ctx tm.tfr.toNat true =
      (.ok pa p, s1)) : TrapEnters s (s.takeTrap n f c sub val epc) n f c sub val epc ∧ (s.takeTrap n f c sub val epc).hole = s1.hole := by
  obtain ⟨tm1, htm1, hland⟩ := s.drain_landed n tm ht
  have hlanding := s.drain_landing n
  obtain ⟨hctx, htfr, hmode, hlife⟩ := hland.trapped ⟨f, c, sub, val, epc.setWidth 56⟩
  have hpend : tget ((s.drain n).modTeam n (fun tm => tm.trapped ⟨f, c, sub, val, epc.setWidth 56⟩)).teams n =
      some (tm1.trapped ⟨f, c, sub, val, epc.setWidth 56⟩) := by
    rw [State.modTeam_teams, tget_tmod_self, htm1, Option.map_some]
  rw [State.takeTrap_eq ht hin hth]
  generalize hu : (s.drain n).modTeam n (fun tm => tm.trapped ⟨f, c, sub, val, epc.setWidth 56⟩) = u at hpend hlook ⊢
  have hclk : u.clk = s.clk := by rw [← hu, State.modTeam_clk, hlanding.clk]
  have hcfg : u.ctx tm.ctx = s.ctx tm.ctx := by rw [← hu, State.modTeam_ctx, hlanding.ctx]
  rw [← hctx, ← htfr] at hlook
  obtain ⟨⟨pid, hentered⟩, hhole⟩ := State.trapTry_ok hpend rfl hlook
  rw [hctx, hcfg, hclk] at hentered
  obtain ⟨hpc, hcd, hexm⟩ := Team.enterHandler_path (tm1.trapped ⟨f, c, sub, val, epc.setWidth 56⟩) ⟨f, c, sub, val, epc.setWidth 56⟩
    (thEntry (s.ctx tm.ctx).thcfg) pid s.clk
  obtain ⟨hmode', hlife'⟩ := Team.enterHandler_kept (tm1.trapped ⟨f, c, sub, val, epc.setWidth 56⟩) ⟨f, c, sub, val, epc.setWidth 56⟩
    (thEntry (s.ctx tm.ctx).thcfg) pid s.clk
  exact ⟨⟨tm, _, ht, hentered, rfl, rfl, rfl, rfl, rfl, rfl, rfl, hpc, hcd, hexm, hmode'.trans hmode, hlife'.trans hlife⟩, hhole⟩

end

/-! ### trap (R404) -/

theorem State.issued_ctx (s : State) (a : At) (c : Nat) : (s.issued a).ctx c = s.ctx c := by
  rw [State.issued_eq]
  rfl

theorem exec_trap {h : Hdr} {imm : BitVec 20} {s s1 : State} {a : At} {pa : Nat} {p : Quad} (hr : Ready s a h [])
    (hin : a.tm.inH = false) (hth : thV (s.ctx a.tm.ctx).thcfg = true)
    (hlook : (((s.issued a).drain a.t).modTeam a.t (fun tm =>
      tm.trapped ⟨a.f, .trap, 0, imm.signExtend 64, (a.path.pc + 12).setWidth 56⟩)).look a.tm.ctx a.tm.tfr.toNat true = (.ok pa p, s1))
    (hh : s1.hole = false) :
    ∃ t, exec (.trap h imm) s = .next t ∧ TrapEnters s t a.t a.f .trap 0 (imm.signExtend 64) (a.path.pc + 12) := by
  have hteam := State.issued_team hr.clear.live
  obtain ⟨⟨tm, tm', htm, htm', hrest⟩, hhole⟩ := State.takeTrap_enters (f := a.f) (c := .trap) (sub := 0) (val := imm.signExtend 64)
    (epc := a.path.pc + 12) hteam (by simpa [Team.inH] using hin) (by simpa [State.issued_ctx] using hth) (by simpa using hlook)
  obtain rfl := Option.some.inj (hteam.symm.trans htm)
  refine ⟨_, (instr_ready hr _ _ _).trans (answer_of_hole_false (hhole.trans hh)), a.tm, tm', hr.clear.live.team, htm', ?_⟩
  simpa [State.issued_ctx] using hrest

/-! ### rti (R385, R406) -/

/-- The team of a return, whose interrupted path takes the frame's mask. -/
theorem Team.restore_of_intr {tm : Team} {y : Intr} {spill : Nat} {fexm : Mask} {stack : List Entry} (hy : tm.intr = some y) :
    (tm.restore spill fexm stack 0).inH = false ∧ (tm.restore spill fexm stack 0).stack = stack ∧
    (tm.restore spill fexm stack 0).spill = spill ∧ (tm.restore spill fexm stack 0).intr = none ∧
    (tm.restore spill fexm stack 0).tokN = tm.tokN ∧
    ((tm.restore spill fexm stack 0).path y.frag).pc = tm.tepc.setWidth 64 ∧
    ((tm.restore spill fexm stack 0).path y.frag).exm = fexm &&& y.path.pmask &&& ~~~tm.exited ∧
    ((tm.restore spill fexm stack 0).path y.frag).pmask = y.path.pmask := by
  simp only [Team.restore, hy, Team.inH]
  cases y.frag <;> simp [Team.setPath, Team.path]

theorem State.request_aside (s : State) (c l : Nat) (d : Bool) (ns : List Nat) : Aside s (s.request c l d ns) := by
  unfold State.request
  split
  · exact Aside.refl s
  · split
    · exact ⟨rfl, rfl, rfl, rfl, rfl, rfl, rfl, rfl⟩
    · split <;> exact ⟨rfl, rfl, rfl, rfl, rfl, rfl, rfl, rfl⟩
    · exact Aside.refl s

theorem State.readLines_aside (s : State) (tm : Team) (pa : Nat) (p : Quad) : Aside s
    ((List.range 5).foldl (fun (a : List Byte × State) j =>
      let (x, s) := (a.2.cacheRead (tm.core / 16) tm.ctx (pteCls p) (lineOf pa + j)).readBytes (pa + 128 * j) 128 (pteKey p)
      (a.1 ++ x, s)) ([], s)).2 := by
  refine foldl_keeps (P := fun a : List Byte × State => Aside s a.2) (fun a j h => ?_) _ _ (Aside.refl s)
  refine (h.trans ?_).trans (State.readBytes_aside ..)
  rw [State.cacheRead_eq]
  exact ⟨rfl, rfl, rfl, rfl, rfl, rfl, rfl, rfl⟩

/-- Reading the frame leaves alone what teams, groups and operations hold. -/
theorem State.readFrame_aside (s : State) (tm : Team) (fate : Fate) : Aside s (s.readFrame tm fate).2 := by
  have hlook := s.look_aside tm.ctx tm.tfr.toNat false
  unfold State.readFrame
  match fate with
  | .open =>
    dsimp only
    generalize s.look tm.ctx tm.tfr.toNat false = r at hlook ⊢
    obtain ⟨l, u⟩ := r
    cases l with
    | ok pa p =>
      dsimp only
      split
      · exact hlook
      · split
        · exact hlook
        · have hread := u.readLines_aside tm pa p
          dsimp only at hread
          split <;> exact hlook.trans hread
    | miss => exact hlook.trans (State.report_aside ..)
    | bad p => exact hlook.trans (State.report_aside ..)
    | layer l p =>
      dsimp only
      split
      · exact hlook
      · exact hlook.trans (State.request_aside ..)
    | _ => exact hlook
  | .declined | .timeout | .failed => exact Aside.refl s

/-- A return waits 16 clk once the handler's operations have completed. -/
theorem exec_rti_waits {h : Hdr} {s : State} {a : At} (hr : Ready s a h []) (hin : a.tm.inH = true) (hal : a.tm.tepc.toNat % 4 = 0)
    (hops : (s.issued a).ops.any (fun o => o.2.team = a.t && o.2.inH) = false) :
    ∃ t, exec (.rti h) s = .next t ∧ WaitsIn t a (.rti h) 1 := by
  refine waitsIn_of_hold (s1 := s.issued a) (cap := [(s.issued a).clk + 16]) hr _ _ ?_ rfl ((s.issued_hole a).trans hr.hole)
  have hin' : (s.viewAt a h).tm.inH = true := hin
  have hal' : (s.viewAt a h).tm.tepc.toNat % 4 = 0 := hal
  have hops' : (s.issued a).ops.any (fun o => o.2.team = (s.viewAt a h).t && o.2.inH) = false := hops
  simp only [hin', if_true, X.handlerReturn, hal', hops', X.stage, State.viewAt_st]
  rfl

/-- A return whose 16 clk are over, and whose frame is whole, restores the interrupted path. -/
theorem X.handlerReturn_restores {x : X} {s s1 : State} {w : Held} {due : Nat} {spill : Nat} {fexm : Mask} {stack : List Entry}
    {tm : Team} (hst : x.st = some w) (hstage : w.stage = 1) (hcap : w.cap = [due]) (hal : x.tm.tepc.toNat % 4 = 0)
    (hdue : due ≤ s.clk) (hread : s.readFrame x.tm w.fate = (.got spill fexm stack, s1))
    (hteam : tget (s1.modTeam x.t (fun tm => tm.restore spill fexm stack 0)).teams x.t = some tm) (hexm : (tm.path x.f).exm ≠ 0) :
    x.handlerReturn s false = .moved (s1.modTeam x.t (fun tm => tm.restore spill fexm stack 0)) := by
  have hstage' : x.stage ≠ 0 := by simp [X.stage, hst, hstage]
  unfold X.handlerReturn
  simp only [hal, hstage', hst, hcap, Option.map_some, Option.getD_some, List.headD_cons, Nat.not_lt.mpr hdue, hread, ne_eq,
    not_true_eq_false, if_false, Bool.false_eq_true]
  cases x.tm.intr with
  | none =>
    simp only [hteam]
    exact if_neg hexm
  | some y =>
    simp only [hteam]
    exact if_neg hexm

theorem exec_rti_returns {h : Hdr} {s s1 : State} {a : At} {e : Mask} {w : Held} {due : Nat} {y : Intr} {spill : Nat} {fexm : Mask}
    {stack : List Entry} (hr : Within s a (.rti h) e w) (hstage : w.stage = 1) (hcap : w.cap = [due]) (hin : a.tm.inH = true)
    (hal : a.tm.tepc.toNat % 4 = 0) (hdue : due ≤ s.clk) (hy : a.tm.intr = some y) (hf : y.frag = a.f)
    (hread : (s.resumed a).readFrame a.tm w.fate = (.got spill fexm stack, s1)) (hh : s1.hole = false)
    (hexm : fexm &&& y.path.pmask &&& ~~~a.tm.exited ≠ 0) :
    ∃ t tm, exec (.rti h) s = .next t ∧ tget t.teams a.t = some tm ∧ tm.inH = false ∧ tm.stack = stack ∧
      tm.spill = spill ∧ (tm.path a.f).pc = a.tm.tepc.setWidth 64 ∧
      (tm.path a.f).exm = fexm &&& y.path.pmask &&& ~~~a.tm.exited ∧ (tm.path a.f).pmask = y.path.pmask ∧
      tm.intr = none ∧ tm.tokN = a.tm.tokN := by
  have hteams : s1.teams = s.teams := by
    have haside := (s.resumed a).readFrame_aside a.tm w.fate
    rw [hread] at haside
    exact haside.teams.trans (s.resumed_teams a)
  have hteam : tget (s1.modTeam a.t (fun tm => tm.restore spill fexm stack 0)).teams a.t = some (a.tm.restore spill fexm stack 0) := by
    rw [State.modTeam_teams, tget_tmod_self, hteams, hr.team, Option.map_some]
  obtain ⟨hinH, hstack, hspill, hintr, htok, hpc, hmask, hpmask⟩ :=
    Team.restore_of_intr (spill := spill) (fexm := fexm) (stack := stack) hy
  rw [hf] at hpc hmask hpmask
  have hbody := X.handlerReturn_restores (x := s.viewIn a h e w) (s := s.resumed a) rfl hstage hcap hal
    (hdue.trans (s.resumed_clk a).ge) hread hteam (by rw [← hmask] at hexm; exact hexm)
  have hexec : exec (.rti h) s = answer ((s.resumed a).retire (.rti h) (s.viewIn a h e w) .issue []
      (.moved (s1.modTeam a.t (fun tm => tm.restore spill fexm stack 0)))) := by
    refine congrArg answer ((State.issue_within hr [] .issue false false _).trans (congrArg _ ?_))
    exact (if_pos hin).trans hbody
  obtain ⟨c0, c1, d0, d1, pd, hget⟩ := State.retire_moved_team (s.viewIn_of a h e w) (.rti h) .issue []
    (s1.modTeam a.t (fun tm => tm.restore spill fexm stack 0)) (s.resumed a) _ hteam
  have heq := State.retire_moved_eq (s.viewIn_of a h e w) (.rti h) .issue []
    (s1.modTeam a.t (fun tm => tm.restore spill fexm stack 0)) (s.resumed a)
  refine ⟨_, _, hexec.trans (answer_of_hole_false ?_), hget, hinH, hstack, hspill, ?_, ?_, ?_, hintr, htok⟩
  · rw [heq]
    exact hh
  · rw [← hpc]
    cases a.f <;> rfl
  · rw [← hmask]
    cases a.f <;> rfl
  · rw [← hpmask]
    cases a.f <;> rfl

/-- Settles O24: a trap is pending once what is in flight has landed, and its handler starts; a return waits, and then
restores the interrupted path. -/
theorem trapsAndReturnsComplete : Obligations.TrapsAndReturnsComplete := by
  refine ⟨fun h imm s a pa p s1 hr hin hth hlook hh => exec_trap hr hin hth hlook hh, fun h s a => exec_rti_waits,
    fun h s a e w due y spill fexm stack s1 hr hstage hcap hin hal hdue hy hf hread hh hexm => ?_⟩
  exact exec_rti_returns hr hstage hcap hin hal hdue hy hf hread hh hexm

end Sys2Proof.Machine
end

section
/-! PROOFS. Answers to faults and halters (R335-R337, R382, R391, R402, R429). -/

namespace Sys2Proof.Machine

/-! ### Faults (R335, R337) -/

section
variable {s : State} {c va : Nat} {x : PFault} (hf : s.faultOf c va = some x)
include hf

theorem exec_frespRetry (hh : s.hole = false) : exec (.frespRetry c va) s = .next (s.faultDel c va) := by
  have hend : s.faultEnd c va false = s.faultDel c va := by simp [State.faultEnd, hf]
  exact (congrArg answer hend).trans (answer_of_hole_false hh)

/-- A declined fault ends so for all that it holds. -/
theorem State.faultEnd_declined : s.faultEnd c va true = (s.faultDel c va).declineAll c (va / 4096) := by
  simp only [State.faultEnd, hf, if_true]

theorem exec_frespDecline (hh : ((s.faultDel c va).declineAll c (va / 4096)).hole = false) :
    exec (.frespDecline c va) s = .next ((s.faultDel c va).declineAll c (va / 4096)) :=
  (congrArg answer (State.faultEnd_declined hf)).trans (answer_of_hole_false hh)

theorem exec_faultAnswerTimeout (hh : ((s.faultDel c va).declineAll c (va / 4096)).hole = false) (hon : fqTmo s.fqcfg ≠ 0)
    (hpast : s.pastTmo 0 (x.rt0.getD 0) (fqTmo s.fqcfg * 1024) = true) :
    exec (.faultAnswerTimeout c va) s = .next ((s.faultDel c va).declineAll c (va / 4096)) := by
  refine Eq.trans (congrArg answer ?_) (answer_of_hole_false hh)
  simp only [hf]
  exact (if_pos ⟨hon, hpast⟩).trans (State.faultEnd_declined hf)

end

/-! ### A trap entry that was held (R382) -/

theorem exec_trapEntry {s s1 : State} {t pa : Nat} {tm : Team} {x : PendTrap} {p : Quad} (ht : tget s.teams t = some tm)
    (hx : tm.pendTrap = some x) (hlife : tm.life = .resident) (hstop : s.stopped tm = false)
    (hfault : s.faulting tm.ctx (tm.tfr.toNat / 4096) = false) (hlook : s.look tm.ctx tm.tfr.toNat true = (.ok pa p, s1))
    (hh : s1.hole = false) :
    ∃ t', exec (.trapEntry t) s = .next t' ∧ TrapEnters s t' t x.frag x.cause x.sub x.val (x.epc.setWidth 64) := by
  obtain ⟨⟨pid, hget⟩, hhole⟩ := State.trapTry_ok ht hx hlook
  have hexec : exec (.trapEntry t) s = answer (s.trapTry t) := by
    refine congrArg answer ?_
    simp [ht, hlife, hstop, hfault]
  have hepc : (x.epc.setWidth 64).setWidth 56 = x.epc := BitVec.setWidth_setWidth_of_le x.epc (by decide)
  obtain ⟨hpc, hcd, hexm⟩ := tm.enterHandler_path x (thEntry (s.ctx tm.ctx).thcfg) pid s.clk
  obtain ⟨hmode, hlife'⟩ := tm.enterHandler_kept x (thEntry (s.ctx tm.ctx).thcfg) pid s.clk
  refine ⟨_, hexec.trans (answer_of_hole_false (hhole.trans hh)), tm, _, ht, hget, rfl, ?_, rfl, rfl, rfl, rfl, rfl, hpc, hcd, hexm, hmode,
    hlife'⟩
  exact hepc.symm

/-! ### Answers to the halter of a team (R391) -/

section
variable {s : State} {h : Halter} {t : Nat} {tm : Team} (hfind : s.halters.find? (fun y => y.hid = h.hid) = some h)
  (hmst : h.mst = .team t) (ht : tget s.teams t = some tm)

include hfind in
/-- A rollback that is due wins over an answer (R402). -/
theorem State.hresp_of_due (release : Bool) (hdue : (s.undoOf h.ctx).due = true) : s.hresp h.hid release = s := by
  simp only [State.hresp, hfind, hdue, if_true]

include hmst ht in
theorem State.halterMoves_team : s.halterMoves h = s.takeoverDue tm.core := by
  simp only [State.halterMoves, hmst, ht, Option.any_some]

include hfind hmst ht

/-- An answer for a core that the spare is taking over waits (R429). -/
theorem State.hresp_of_takeover (release : Bool) (hdue : (s.undoOf h.ctx).due = false) (htake : s.takeoverDue tm.core = true) :
    s.hresp h.hid release = { s with answers := s.answers ++ [(h.hid, release)] } := by
  simp only [State.hresp, hfind, hdue, State.halterMoves_team hmst ht, htake, Bool.false_eq_true, if_false, if_true]

theorem State.hresp_of_now (release : Bool) (hdue : (s.undoOf h.ctx).due = false) (htake : s.takeoverDue tm.core = false) :
    s.hresp h.hid release = s.answerHalter h release := by
  simp only [State.hresp, hfind, hdue, State.halterMoves_team hmst ht, htake, Bool.false_eq_true, if_false]

omit hfind in
theorem State.answerHalter_release : s.answerHalter h true =
    State.modTeam { s with halters := s.halters.filter (fun y => y.hid ≠ h.hid) } t (fun _ =>
      { tm with life := State.freeLife { s with halters := s.halters.filter (fun y => y.hid ≠ h.hid) } tm }) := by
  simp only [State.answerHalter, hmst, if_true, State.modTeam]
  congr 1
  refine tmod_same _ _ _ _ fun a ha => ?_
  rw [Option.some.inj (ht.symm.trans ha)]

omit hfind ht in
theorem State.answerHalter_discard : s.answerHalter h false =
    State.discardTeam { s with halters := s.halters.filter (fun y => y.hid ≠ h.hid) } t := by
  simp only [State.answerHalter, hmst, Bool.false_eq_true, if_false]

theorem exec_hresp_now (hdue : (s.undoOf h.ctx).due = false) (htake : s.takeoverDue tm.core = false) :
    (s.hole = false → exec (.hrespRelease h.hid) s = .next (State.modTeam
      { s with halters := s.halters.filter (fun y => y.hid ≠ h.hid) } t (fun _ =>
        { tm with life := State.freeLife { s with halters := s.halters.filter (fun y => y.hid ≠ h.hid) } tm }))) ∧
    ((State.discardTeam { s with halters := s.halters.filter (fun y => y.hid ≠ h.hid) } t).hole = false →
      exec (.hrespDiscard h.hid) s =
        .next (State.discardTeam { s with halters := s.halters.filter (fun y => y.hid ≠ h.hid) } t)) := by
  have hnow := State.hresp_of_now hfind hmst ht (hdue := hdue) (htake := htake)
  refine ⟨fun hh => ?_, fun hh => ?_⟩
  · exact (congrArg answer ((hnow true).trans (State.answerHalter_release hmst ht))).trans (answer_of_hole_false hh)
  · exact (congrArg answer ((hnow false).trans (State.answerHalter_discard hmst))).trans (answer_of_hole_false hh)

end

/-- Settles O34: each answer finds its fault, its pending trap or its halter, and ends it. -/
theorem answersToFaultsAndHalters : Obligations.AnswersToFaultsAndHalters := by
  refine ⟨fun s c va x hf hh => ⟨exec_frespRetry hf hh, fun hh' => ⟨exec_frespDecline hf hh', exec_faultAnswerTimeout hf hh'⟩⟩,
    fun s t tm x pa p s1 ht hx hlife hstop hfault hlook hh => exec_trapEntry ht hx hlife hstop hfault hlook hh,
    fun s h t tm hfind hmst ht => ⟨fun hdue hh => ?_, fun hdue htake hh => ?_, fun hdue htake => exec_hresp_now hfind hmst ht hdue htake⟩⟩
  · have hresp := State.hresp_of_due hfind (hdue := hdue)
    exact ⟨(congrArg answer (hresp true)).trans (answer_of_hole_false hh),
      (congrArg answer (hresp false)).trans (answer_of_hole_false hh)⟩
  · have hresp := State.hresp_of_takeover hfind hmst ht (hdue := hdue) (htake := htake)
    exact ⟨(congrArg answer (hresp true)).trans (answer_of_hole_false hh),
      (congrArg answer (hresp false)).trans (answer_of_hole_false hh)⟩

end Sys2Proof.Machine
end

section
/-! PROOFS. Layers that arrive or fail, and writes of MDESC (R341, R345-R353). -/

namespace Sys2Proof.Machine

/-! ### The start of a request (R345, R348, R353) -/

/-- Frames are taken from the pools and the ones in use alone. -/
theorem State.takeFrames_unqueue (s : State) (r : SwapReq) (n : Nat) (used : List Nat) :
    (s.unqueue r).takeFrames n used = s.takeFrames n used := by
  induction n generalizing used with
  | zero => rfl
  | succ n ih =>
    have hnext : (s.unqueue r).nextFrame used = s.nextFrame used := rfl
    simp only [State.takeFrames, hnext, ih]

/-- No operation uses a frame of an empty list. -/
theorem State.frameUsers_nil (s : State) : s.frameUsers [] = [] := by
  unfold State.frameUsers
  rw [List.map_eq_nil_iff, List.filter_eq_nil_iff]
  intro o _
  cases o.2.work with
  | load =>
    simp only [Bool.not_eq_true, List.any_eq_false]
    intro a _ k _
    cases k.at_ <;> simp
  | _ => simp

/-- A state without evictions in progress is what is left when some end. -/
theorem State.leaving_ended {s : State} (h : s.leaving = none) (v : Option Leaving) :
    { { s with leaving := v } with leaving := none } = s := by
  cases s
  cases h
  rfl

/-- The evictions of a request have ended: it takes its frames, and its image is fetched. How frames are taken is kept
abstract, so that no proof term counts pages. -/
theorem State.swapEnd_of {s u : State} {r : SwapReq} {y : Layer} {fs : List Nat} (hv : s.leaving = some ⟨some r, [], []⟩)
    (hu : { s with leaving := none } = u) (hy : u.layerOf r.ctx r.layer = some y) (hfs : u.takeFrames y.np u.framesUsed = some fs) :
    s.swapEnd =
      (let s1 := u.modLayer r.ctx r.layer (fun y => { y with frames := fs, rtry := 0 })
       if s1.noPte r.ctx r.layer y then s1.layerFail r.ctx r.layer 5
       else s1.fetchImage r.ctx r.layer { y with frames := fs }) := by
  obtain ⟨take, htake⟩ : ∃ take, take = State.takeFrames := ⟨_, rfl⟩
  unfold State.swapEnd
  rw [← htake] at hfs ⊢
  simp only [hv, List.any_nil, Bool.false_eq_true, if_false, hu, hy, hfs]

/-- A structural recursion over a list with a head runs its body. -/
theorem brecOn_cons {α β : Type} (F : (l : List α) → List.below (motive := fun _ => β) l → β) (x : α) (xs : List α) :
    ∃ b, List.brecOn (motive := fun _ => β) (x :: xs) F = F (x :: xs) b := ⟨_, rfl⟩

/-- A request that evicts nothing takes its frames at once. -/
theorem State.swapStart_now {s : State} {r : SwapReq} {rs : List SwapReq} {y : Layer} {fs : List Nat}
    (hy : s.layerOf r.ctx r.layer = some y) (hleave : s.leaving = none)
    (hroom : y.np ≤ ((List.range 8).flatMap s.pool).length)
    (hplan : s.plan r (((List.range 8).flatMap s.pool).length + 1) y.np [] = some [])
    (hfs : s.takeFrames y.np s.framesUsed = some fs) :
    s.swapStart (r :: rs) =
      (let s1 := (s.unqueue r).modLayer r.ctx r.layer (fun y => { y with frames := fs, rtry := 0 })
       if s1.noPte r.ctx r.layer y then s1.layerFail r.ctx r.layer 5
       else s1.fetchImage r.ctx r.layer { y with frames := fs }) := by
  have hended : { { s.unqueue r with leaving := some ⟨some r, [], []⟩ } with leaving := none } = s.unqueue r :=
    State.leaving_ended (s := s.unqueue r) hleave _
  have htake : (s.unqueue r).takeFrames y.np (s.unqueue r).framesUsed = some fs := (s.takeFrames_unqueue r _ _).trans hfs
  rw [← State.swapEnd_of rfl hended hy htake]
  obtain ⟨b, hbody⟩ := brecOn_cons (State.swapStart._f s) r rs
  delta State.swapStart
  rw [hbody]
  delta State.swapStart._f
  generalize ((List.range 8).flatMap s.pool).length = total at hroom hplan ⊢
  generalize State.plan = plan at hplan ⊢
  generalize Layer.np = np at hroom hplan ⊢
  simp only [hy, Nat.not_lt.mpr hroom, if_false, hplan, List.flatMap_nil, List.foldl_nil, State.frameUsers_nil]

theorem exec_swapRequestStart_start {s : State} {r : SwapReq} {rs : List SwapReq} (hleave : s.leaving = none) (hfew : s.arrivals < 16)
    (horder : s.startOrder = r :: rs) (hh : (s.swapStart (r :: rs)).hole = false) :
    exec .swapRequestStart s = .next (s.swapStart (r :: rs)) := by
  refine Eq.trans (congrArg answer ?_) (answer_of_hole_false hh)
  rw [← horder]
  simp [hleave, Nat.not_le.mpr hfew]

/-- Evictions wait for the accesses that use what they dropped (R353). -/
theorem exec_swapRequestStart_waits {s : State} {v : Leaving} (hh : s.hole = false) (hleave : s.leaving = some v)
    (hops : ∃ n ∈ v.ops, (tget s.ops n).isSome = true) : exec .swapRequestStart s = .next s := by
  have hwait : s.swapEnd = s := by
    unfold State.swapEnd
    rw [hleave]
    exact if_pos (List.any_eq_true.mpr hops)
  have hsome : s.leaving.isSome = true := by rw [hleave, Option.isSome_some]
  exact (congrArg answer ((if_pos hsome).trans hwait)).trans (answer_of_hole_false hh)

/-! ### The arrival (R349) -/

theorem State.layerArrive_local {s : State} {c l : Nat} {y : Layer} (hy : s.layerOf c l = some y) (hst : y.st = .arriving)
    (hframes : y.frames ≠ []) (hsrc : y.src ≠ 2) (hpoison : ∀ n ∈ linesOver y.saddr y.size, n ∉ s.poison) :
    s.layerArrive c l =
      (let bs := cellsGet s.mem y.saddr y.size
       let s1 := s.writeImage y (s.pagesBnd c y.pages) 0 (bs ++ List.replicate (y.np * 2 ^ 21 - y.size) 0)
       if crc32c bs = y.crc then s1.layerResident c l y
       else if y.rtry < 3 then
         (s1.modLayer c l (fun y => { y with rtry := y.rtry + 1 })).fetchImage c l { y with rtry := y.rtry + 1 }
       else s1.layerFail c l 1) := by
  have hclean : (linesOver y.saddr y.size).any (fun n => s.poison.contains n) = false := by
    rw [List.any_eq_false]
    intro n hn
    rw [List.contains_iff_mem]
    exact hpoison n hn
  simp only [State.layerArrive, hy, hst, hframes, hsrc, hclean, ne_eq, not_true_eq_false, not_false_eq_true, false_and, and_false,
    or_self, if_false, if_true, Bool.false_eq_true]

theorem exec_layerArrivalComplete {s : State} {c l : Nat} {y : Layer} (hy : s.layerOf c l = some y) (hst : y.st = .arriving)
    (hframes : y.frames ≠ []) (hsrc : y.src ≠ 2) (hpoison : ∀ n ∈ linesOver y.saddr y.size, n ∉ s.poison) :
    let bs := cellsGet s.mem y.saddr y.size
    let s1 := s.writeImage y (s.pagesBnd c y.pages) 0 (bs ++ List.replicate (y.np * 2 ^ 21 - y.size) 0)
    (crc32c bs = y.crc → (s1.layerResident c l y).hole = false →
      exec (.layerArrivalComplete c l) s = .next (s1.layerResident c l y)) ∧
    (crc32c bs ≠ y.crc → y.rtry = 3 → (s1.layerFail c l 1).hole = false →
      exec (.layerArrivalComplete c l) s = .next (s1.layerFail c l 1)) := by
  have harrive := State.layerArrive_local hy hst hframes hsrc hpoison
  refine ⟨fun hcrc hh => ?_, fun hcrc hrtry hh => ?_⟩
  · exact (congrArg answer (harrive.trans (if_pos hcrc))).trans (answer_of_hole_false hh)
  · have hlast : ¬ y.rtry < 3 := by omega
    exact (congrArg answer (harrive.trans ((if_neg hcrc).trans (if_neg hlast)))).trans (answer_of_hole_false hh)

/-! ### The failure (R351) -/

section
variable {s : State} {c l k : Nat} {y : Layer}

/-- The failure of an arrival from this package's memories. -/
theorem State.layerFail_local (hy : s.layerOf c l = some y) (hst : y.st = .arriving) (hsrc : y.src ≠ 2) : s.layerFail c l k =
    (State.bindEnd { s.modLayer c l (fun y => { y with st := .failed, fcause := k, frames := [] }) with
      swaps := s.swaps.filter (fun r => !(r.ctx = c && r.layer = l)) } c l (.fail 2)).failHolds c l := by
  simp only [State.layerFail, hy, hst, hsrc, ne_eq, not_true_eq_false, if_false]
  rfl

theorem State.layerOf_modLayer (hy : s.layerOf c l = some y) (f : Layer → Layer) :
    (s.modLayer c l f).layerOf c l = some (f y) := by
  obtain ⟨m, hm, hl⟩ := Option.bind_eq_some_iff.mp hy
  simp [State.layerOf, State.modLayer, hm, hl]

/-- An `lbind` that waits for the layer ends. -/
theorem State.bindEnd_op {id : Nat} {o : Op} (ho : tget s.ops id = some o) (hw : o.work = .lbind c l) (w : Work) :
    tget (s.bindEnd c l w).ops id = some { o with work := w } := by
  simp only [State.bindEnd, tget_tmap, ho, Option.map_some, hw, if_true]

/-- A path of the context that is held on the layer has met its failure. -/
theorem State.failHolds_team {n : Nat} {tm : Team} (ht : tget s.teams n = some tm) (hc : tm.ctx = c) :
    ∃ tm', tget (s.failHolds c l).teams n = some tm' ∧ ∀ f, (tm'.path f).hold = (tm.path f).hold.failLayer l := by
  refine ⟨{ tm with p0 := { tm.p0 with hold := tm.p0.hold.failLayer l }, p1 := { tm.p1 with hold := tm.p1.hold.failLayer l } },
    ?_, fun f => by cases f <;> rfl⟩
  simp only [State.failHolds, tget_tmap, ht, Option.map_some, hc, ne_eq, not_true_eq_false, if_false]

theorem exec_layerArrivalFailure (hh : s.hole = false) (hy : s.layerOf c l = some y) (hst : y.st = .arriving) (hsrc : y.src ≠ 2)
    (hk : k = 2 ∨ k = 4 ∨ k = 7) :
    ∃ t, exec (.layerArrivalFailure c l k) s = .next t ∧
      t.layerOf c l = some { y with st := .failed, fcause := k, frames := [] } ∧
      (∀ r ∈ t.swaps, ¬ (r.ctx = c ∧ r.layer = l)) ∧
      (∀ id o, tget s.ops id = some o → o.work = .lbind c l → ∃ o', tget t.ops id = some o' ∧ o'.work = .fail 2) ∧
      (∀ n tm, tget s.teams n = some tm → tm.ctx = c → ∃ tm', tget t.teams n = some tm' ∧
        ∀ f, (tm'.path f).hold = (tm.path f).hold.failLayer l) := by
  let u : State := { s.modLayer c l (fun y => { y with st := .failed, fcause := k, frames := [] }) with
    swaps := s.swaps.filter (fun r => !(r.ctx = c && r.layer = l)) }
  have hexec : exec (.layerArrivalFailure c l k) s = answer (s.layerFail c l k) := by
    have hk3 : k ≠ 3 := by omega
    exact congrArg answer ((if_neg hk3).trans (if_pos hk))
  rw [State.layerFail_local hy hst hsrc] at hexec
  refine ⟨(u.bindEnd c l (.fail 2)).failHolds c l, hexec.trans (answer_of_hole_false hh), State.layerOf_modLayer hy _, fun r hr => ?_,
    fun id o ho hw => ⟨_, State.bindEnd_op (s := u) ho hw _, rfl⟩, fun n tm ht hc => State.failHolds_team (s := u.bindEnd c l (.fail 2)) ht hc⟩
  have hkept : r ∈ s.swaps.filter (fun r => !(r.ctx = c && r.layer = l)) := hr
  simpa [← not_and_or] using (List.mem_filter.mp hkept).2

end

/-! ### Residency words (R346) -/

theorem exec_residencyWordWrite {s : State} (hh : s.hole = false) (c l : Nat) (v : Dword) :
    exec (.residencyWordWrite c l v) s = .next (s.modLayer c l (fun y =>
      if y.st = .failed ∧ v.toNat % 4 = 0 then { y with pin := bitsOf v.toNat 32 16, st := .absent, fcause := 0, rtry := 0 }
      else { y with pin := bitsOf v.toNat 32 16 })) :=
  answer_of_hole_false (s := s.residencyWrite c l v) hh

/-! ### MDESC (R341) -/

section
variable {s : State} {c : Nat} {v : Dword} (hc : c < 64)
include hc

/-- A context in use keeps its model, with ERR BUSY. -/
theorem State.mdescWrite_busy (hbusy : s.ctxBusy c = true) : s.mdescWrite c v =
    s.modCtx c (fun r => { r with mdesc := BitVec.ofNat 64 (setBits r.mdesc.toNat 60 3 2) }) := by
  simp only [State.mdescWrite, Nat.not_le.mpr hc, if_false, hbusy, if_true, State.modCtx]

theorem State.mdescWrite_off (hbusy : s.ctxBusy c = false) (hv : v.getLsbD 63 = false) :
    s.mdescWrite c v = (s.dropModel c).setMdesc c false 0 (bitsOf v.toNat 5 47 * 32) := by
  simp only [State.mdescWrite, Nat.not_le.mpr hc, if_false, hbusy, Bool.false_eq_true, hv, Bool.not_false, if_true]

section
variable (hbusy : s.ctxBusy c = false) (hv : v.getLsbD 63 = true)
include hbusy hv

theorem State.mdescWrite_malformed
    (hread : ((s.dropModel c).touch (bitsOf v.toNat 5 47 * 32) 32).readModel (bitsOf v.toNat 5 47 * 32) = none) :
    s.mdescWrite c v =
      ((s.dropModel c).touch (bitsOf v.toNat 5 47 * 32) 32).setMdesc c false 1 (bitsOf v.toNat 5 47 * 32) := by
  simp only [State.mdescWrite, Nat.not_le.mpr hc, if_false, hbusy, Bool.false_eq_true, hv, Bool.not_true, hread]

variable {m : Model} {s2 : State}
  (hread : ((s.dropModel c).touch (bitsOf v.toNat 5 47 * 32) 32).readModel (bitsOf v.toNat 5 47 * 32) = some m)
  (hs2 : ((s.dropModel c).touch (bitsOf v.toNat 5 47 * 32) 32).touch (bitsOf v.toNat 5 47 * 32 + 32) (32 * m.layers.length) = s2)
include hread hs2

theorem State.mdescWrite_duplicate (hdup : ∃ k ∈ s2.models, k.2.mnum = m.mnum) :
    s.mdescWrite c v = s2.setMdesc c false 3 (bitsOf v.toNat 5 47 * 32) := by
  have hany : s2.models.any (fun k => k.2.mnum = m.mnum) = true := by simpa using hdup
  simp only [State.mdescWrite, Nat.not_le.mpr hc, if_false, hbusy, Bool.false_eq_true, hv, Bool.not_true, hread, hs2, hany, if_true]

theorem State.mdescWrite_taken (hnew : ∀ k ∈ s2.models, k.2.mnum ≠ m.mnum) :
    s.mdescWrite c v = State.setMdesc { s2 with models := tset s2.models c m } c true 0 (bitsOf v.toNat 5 47 * 32) := by
  have hany : s2.models.any (fun k => k.2.mnum = m.mnum) = false := by simpa using hnew
  simp only [State.mdescWrite, Nat.not_le.mpr hc, if_false, hbusy, Bool.false_eq_true, hv, Bool.not_true, hread, hs2, hany]

end

end

theorem exec_mdescWriteEnable {s t : State} {c : Nat} {v : Dword} (hv : v.getLsbD 63 = true) (ht : s.mdescWrite c v = t)
    (hh : t.hole = false) : exec (.mdescWriteEnable c v) s = .next t :=
  (congrArg answer ((if_pos hv).trans ht)).trans (answer_of_hole_false hh)

theorem exec_mdescWriteDisable {s t : State} {c : Nat} {v : Dword} (hv : v.getLsbD 63 = false) (ht : s.mdescWrite c v = t)
    (hh : t.hole = false) : exec (.mdescWriteDisable c v) s = .next t := by
  have hv' : ¬ v.getLsbD 63 = true := Bool.eq_false_iff.mp hv
  exact (congrArg answer ((if_neg hv').trans ht)).trans (answer_of_hole_false hh)

/-- Settles O33: a request that evicts nothing takes its frames at once; arrivals, failures and descriptors by their cases. -/
theorem layersArriveAndModelsChange : Obligations.LayersArriveAndModelsChange := by
  refine ⟨⟨fun s r rs y fs hleave hfew horder hy hroom hplan hfs => ?_, fun s v => exec_swapRequestStart_waits,
    fun s c l y hy hst hframes hsrc hpoison => exec_layerArrivalComplete hy hst hframes hsrc hpoison,
    fun s c l k y hh hy hst hsrc hk => exec_layerArrivalFailure hh hy hst hsrc hk,
    fun s c l v hh => exec_residencyWordWrite hh c l v⟩,
    fun s c v hc hbusy hv => ⟨fun hread hh => ?_, fun m hread hh => ⟨fun hdup => ?_, fun hnew => ?_⟩⟩,
    fun s c v hc hbusy hv hh => ?_, fun s c v hh hc hbusy => ⟨fun hv => ?_, fun hv => ?_⟩⟩
  · have hstart := State.swapStart_now hy (rs := rs) hleave hroom hplan hfs
    intro s1 t hh
    rw [exec_swapRequestStart_start hleave hfew horder (by rw [hstart]; exact hh), hstart]
  · exact exec_mdescWriteEnable hv (State.mdescWrite_malformed hc hbusy hv hread) hh
  · exact exec_mdescWriteEnable hv (State.mdescWrite_duplicate hc hbusy hv hread rfl hdup) hh
  · exact exec_mdescWriteEnable hv (State.mdescWrite_taken hc hbusy hv hread rfl hnew) hh
  · exact exec_mdescWriteDisable hv (State.mdescWrite_off hc hbusy hv) hh
  · exact exec_mdescWriteEnable hv (State.mdescWrite_busy hc hbusy) hh
  · exact exec_mdescWriteDisable hv (State.mdescWrite_busy hc hbusy) hh

end Sys2Proof.Machine
end

section
/-! PROOFS. Resets and power off (R419, R445, R448). -/

namespace Sys2Proof.Machine

/-- A reset with firmware that verifies records itself and the image, and does nothing more. -/
theorem State.bootRecords_ok (s : State) (cold : Bool) : ∃ boxes free, s.bootRecords cold true = { s with boxes := boxes, free := free } :=
  ⟨_, _, rfl⟩

/-! ### Warm reset -/

/-- What a warm reset leaves, before its records. -/
def State.warmed (s : State) : State :=
  { s.base with clk := s.clk, rt := s.rt, rtPhase := s.rtPhase, mem := s.mem, poison := s.poison, lineKey := s.lineKey
                brcfg := s.brcfg, stks := tmap s.stks (fun _ c => { StackCfg.atReset with map := c.map })
                cores := tmap s.cores (fun _ c => c.warm)
                errs := (s.errs.filter (fun e => e.2.lasting)).map (fun e => (e.1, ⟨[], true⟩)) }

theorem exec_warmReset_ok (s : State) : ∃ boxes free, exec (.warmReset true) s = .next { s.warmed with boxes := boxes, free := free } := by
  obtain ⟨boxes, free, hboot⟩ := s.warmed.bootRecords_ok false
  exact ⟨boxes, free, (congrArg answer hboot).trans (answer_of_hole_false rfl)⟩

theorem State.warmed_map (s : State) (n : Nat) : (s.warmed.stack n).map = (s.stack n).map :=
  apply_tgetD_tmap StackCfg.map (fun _ c => { StackCfg.atReset with map := c.map }) rfl

/-- A core's column retirements stay; its configuration and its L1 cache are at reset. -/
theorem State.warmed_core (s : State) (n : Nat) :
    (s.warmed.core n).mx.spu = (s.core n).mx.spu ∧ (s.warmed.core n).mx.rc0 = (s.core n).mx.rc0 ∧
      (s.warmed.core n).mx.rc1 = (s.core n).mx.rc1 ∧ (s.warmed.core n).sbcfg = 0 ∧ (s.warmed.core n).mxcfg = 1 ∧
      (s.warmed.core n).l1 = [] := by
  have hwarm : s.warmed.core n = (s.core n).warm := apply_tgetD_tmap (id : Core → Core) (fun _ c => c.warm) rfl
  rw [hwarm]
  exact ⟨rfl, rfl, rfl, rfl, rfl, rfl⟩

/-- A lasting mark stays, without its counts. -/
theorem State.mem_warmed_errs {s : State} {e : ErrUnit × ErrCount} (he : e ∈ s.errs) (hl : e.2.lasting = true) :
    (e.1, (⟨[], true⟩ : ErrCount)) ∈ s.warmed.errs :=
  List.mem_map.mpr ⟨e, List.mem_filter.mpr ⟨he, hl⟩, rfl⟩

theorem State.warmed_errs_eq {s : State} {e : ErrUnit × ErrCount} (he : e ∈ s.warmed.errs) : e.2 = ⟨[], true⟩ := by
  obtain ⟨_, _, rfl⟩ := List.mem_map.mp he
  rfl

/-! ### Cold reset -/

/-- The configuration of stack n as boot firmware leaves it. -/
def bootStack (pres : BitVec 8) (good : List (BitVec 17)) (n : Nat) : StackCfg :=
  { StackCfg.atReset with map := bootMap (pres.getLsbD n) (good.getD n 0) }

/-- What a cold reset leaves, before its records. -/
def State.cooled (s : State) (pres : BitVec 8) (good : List (BitVec 17)) : State :=
  { s.base with mem := s.mem.filter (fun c => outside c.1), poison := s.poison.filter (fun l => outside (l * 128))
                lineKey := s.lineKey.filter (fun l => outside (l.1 * 128))
                stks := (List.range 8).map (fun n => (n, bootStack pres good n)) }

theorem exec_coldReset_ok (s : State) (pres : BitVec 8) (good : List (BitVec 17)) :
    ∃ boxes free, exec (.coldReset true pres good) s = .next { s.cooled pres good with boxes := boxes, free := free } := by
  obtain ⟨boxes, free, hboot⟩ := (s.cooled pres good).bootRecords_ok true
  have hexec : exec (.coldReset true pres good) s = answer ((s.cooled pres good).bootRecords true true) := by
    show execColdReset true pres good s = _
    simp only [execColdReset, if_true, State.cooled, bootStack]
  exact ⟨boxes, free, (hexec.trans (congrArg answer hboot)).trans (answer_of_hole_false rfl)⟩

/-- A table made from keys holds at each of them what it was made with. -/
theorem tget_map_of_mem {α : Type} (f : Nat → α) {n : Nat} (ns : List Nat) (h : n ∈ ns) :
    tget (ns.map (fun n => (n, f n))) n = some (f n) := by
  induction ns with
  | nil => exact absurd h List.not_mem_nil
  | cons k ns ih =>
    by_cases hk : k = n
    · simp [tget, hk]
    · simpa [tget, hk] using ih (by simpa [Ne.symm hk] using h)

theorem State.cooled_stack (s : State) (pres : BitVec 8) (good : List (BitVec 17)) {n : Nat} (hn : n < 8) :
    (s.cooled pres good).stack n = bootStack pres good n := by
  have hget : tget (s.cooled pres good).stks n = some (bootStack pres good n) :=
    tget_map_of_mem (bootStack pres good) _ (List.mem_range.mpr hn)
  rw [State.stack, tgetD, hget, Option.getD_some]

/-! ### Power off -/

/-- What lies outside the module, and the fuses, are what power off leaves. -/
def State.off (s : State) : State :=
  { s.base with power := false, boxes := [], mem := s.mem.filter (fun c => outside c.1)
                poison := s.poison.filter (fun l => outside (l * 128))
                lineKey := s.lineKey.filter (fun l => outside (l.1 * 128)) }

theorem exec_modulePowerOff (s : State) : exec .modulePowerOff s = .next s.off := answer_of_hole_false (s := s.off) rfl

/-- Settles O43: each reset leaves its own state, which the records of the boot do not change. -/
theorem resetsComplete : Obligations.ResetsComplete := by
  refine ⟨fun s => ?_, fun s pres good => ?_, fun s => ⟨s.off, exec_modulePowerOff s, rfl, rfl, rfl, rfl⟩⟩
  · obtain ⟨boxes, free, hexec⟩ := exec_warmReset_ok s
    exact ⟨_, hexec, rfl, rfl, rfl, rfl, rfl, rfl, rfl, rfl, rfl, rfl, rfl, rfl, rfl, rfl, rfl, rfl, rfl, rfl, rfl, rfl,
      s.warmed_map, s.warmed_core, fun _ => State.mem_warmed_errs, fun _ => State.warmed_errs_eq⟩
  · obtain ⟨boxes, free, hexec⟩ := exec_coldReset_ok s pres good
    exact ⟨_, hexec, rfl, rfl, rfl, rfl, rfl, rfl, rfl, fun n hn => congrArg StackCfg.map (s.cooled_stack pres good hn)⟩

end Sys2Proof.Machine
end

section
/-! PROOFS. A step that goes on has used no address that does not exist. -/

namespace Sys2Proof.Machine

/-- What an answer goes on with has used no address that does not exist. -/
theorem hole_of_answer_next {s t : State} (h : answer s = .next t) : t.hole = false := by
  obtain rfl := eq_of_answer_next h
  unfold answer at h
  split at h
  case isTrue => cases h
  case isFalse hh => exact Bool.eq_false_iff.mpr hh

/-- What goes on goes on from a next state. -/
theorem andThen_next {o : Host.Outcome State Fault Refusal} {f : State → Host.Outcome State Fault Refusal} {t : State}
    (h : andThen o f = .next t) : ∃ s, o = .next s ∧ f s = .next t := by
  cases o with
  | next s => exact ⟨s, rfl, h⟩
  | fault r => cases h
  | refused r => cases h

/-- Settles O52: whatever the move of a step is, the step ends in an answer, which stops when such an address was used. -/
theorem stepUsesNoMissingAddress : Obligations.StepUsesNoMissingAddress := by
  intro s t h
  obtain ⟨u, _, hanswer⟩ := andThen_next (o := s.moveNext exec) h
  exact hole_of_answer_next hanswer

end Sys2Proof.Machine
end
